-- ==== Sys2Proof/Word.lean ====
section
/-!
DEFINITION. Sys2Proof/Word.lean: the word types of the BX9-384L (R5, R33, R100).
-/

namespace Sys2Proof

/-- One byte of any memory. -/
abbrev Byte := BitVec 8

/-- One instruction word, one thread's value in a vector register, one 32-bit element (R5). -/
abbrev Word := BitVec 32

/-- A sequencer register, a virtual address or a 64-bit pair (R33, R89). -/
abbrev Dword := BitVec 64

/-- One bit per thread of a wave; the wave width of this part is 64 (R2, WAVEW.W in R94). -/
abbrev Mask := BitVec 64

/-- The wave width W of this part (R2). -/
def waveWidth : Nat := 64

end Sys2Proof
end

