-- ==== Sys2Proof/Syntax.lean ====
section
/-!
DEFINITION. Sys2Proof/Syntax.lean: the instructions and the steps of the other agents, one constructor for each row of
spec/opcode_table.json. Fields are the raw fields of the word (spec/08, R101 to R106); what they mean, and which values are
no instruction, is decided in Machine/Legal.lean and in the meanings.
-/

namespace Sys2Proof

/-- A TR or TM word: vd, va, vb, guard, stall (R101). -/
structure TR where
  d : BitVec 6
  a : BitVec 6
  b : BitVec 6
  g : BitVec 3
  s : BitVec 3
  deriving DecidableEq, Repr

/-- A TR or TM word whose vb field must be zero. -/
structure T1 where
  d : BitVec 6
  a : BitVec 6
  g : BitVec 3
  s : BitVec 3
  deriving DecidableEq, Repr

/-- A TI word: vd, va, imm9, stall (R101). -/
structure TI where
  d : BitVec 6
  a : BitVec 6
  i : BitVec 9
  s : BitVec 3
  deriving DecidableEq, Repr

/-- A TC word: pd, pe, va, vb, ct, stall (R101). -/
structure TC where
  d : BitVec 3
  e : BitVec 3
  a : BitVec 6
  b : BitVec 6
  c : BitVec 3
  s : BitVec 3
  deriving DecidableEq, Repr

/-- A TX word: vc, modifier, imm12 (R101). -/
structure TX where
  c : BitVec 6
  m : BitVec 6
  i : BitVec 12
  deriving DecidableEq, Repr

/-- An SR word with three registers: scope, sd, sa, sb (R104). -/
structure S3 where
  c : BitVec 3
  d : BitVec 5
  a : BitVec 5
  b : BitVec 5
  deriving DecidableEq, Repr

/-- A scope instance that runs words: a wave, a block or a grid, by the model's number of it (R210). -/
inductive Agent where
  | wave (id : Nat)
  | block (id : Nat)
  | grid (id : Nat)
  deriving DecidableEq, Repr

/-- The five engine queues of a block (R71), in the bit order of QJOIN (R142). -/
inductive EngineQueue where
  | matrix | sort | copy | gather | coll
  deriving DecidableEq, Repr

/-- A 64-byte packet taken from a queue: eight doublewords (R303). -/
structure Packet where
  queue : Nat
  words : List Dword
  deriving DecidableEq, Repr

/-- An ATS invalidation request (R24): the range of one PASID that it names. -/
structure AtsInvalidation where
  tag   : Nat
  pasid : Nat
  base  : Nat
  size  : Nat
  deriving DecidableEq, Repr

/-- An ATS translation completion (R25): a host physical address and permissions, or no translation. -/
structure AtsCompletion where
  isle  : Nat
  pasid : Nat
  page  : Nat
  found : Bool
  hpa   : Nat
  read  : Bool
  write : Bool
  execute : Bool
  deriving DecidableEq, Repr

/-- A response to a page request group (R25): success, or a failure that gives a Fail verdict. -/
structure PrgResponse where
  isle    : Nat
  pasid   : Nat
  page    : Nat
  success : Bool
  deriving DecidableEq, Repr

/-- What a peer module's access does to memory here (R390), or what a member of a collective brings (R84). -/
inductive PeerOp where
  | read (size : Nat)
  | write (bytes : List Byte)
  | atomic (aop : BitVec 4) (wide : Bool) (operand : Dword)
  | cas (wide : Bool) (compare swap : Dword)
  | contribute (ctx group inst rank : Nat) (params : List Nat) (source : List Byte)
  | collEnded (ctx group inst rank : Nat)
  deriving DecidableEq, Repr

/-- An access from a peer module: its identifier on the link and what it asks (R390). -/
structure PeerAccess where
  link : Nat
  id   : Nat
  addr : Nat
  op   : PeerOp
  deriving DecidableEq, Repr

/-- Where a stored bit goes wrong (R70): in a lane file, the register (0 to 63 v, 64 to 71 t, 72 to 75 tv) and the bit of its
2,048, or the predicate (76 to 82) and the bit of its 64; in a scratchpad, a byte, or the race tag of a word; in accumulators and sort cells, an element; in a far cache, a physical byte. -/
inductive BitError where
  | lane (wave row bit : Nat)
  | scratch (block byte bit : Nat)
  | tag (block word bit : Nat)
  | acc (block row col bit : Nat)
  | sort (block cell bit : Nat)
  | far (isle addr bit : Nat)
  deriving DecidableEq, Repr

/-- Every row of spec/opcode_table.json: 205 instruction forms, then 76 steps of the other agents. -/
inductive Instr where
  | iadd (f : TR)  -- IADD (R148)
  | isub (f : TR)  -- ISUB (R148)
  | imul (f : TR)  -- IMUL (R148)
  | imulhi (f : TR)  -- IMULHI (R148)
  | imad (f : TR)  -- IMAD (R152)
  | imadTx (f : TR) (x : TX)  -- IMAD_TX (R152)
  | imin (f : TR)  -- IMIN (R148)
  | imax (f : TR)  -- IMAX (R148)
  | umin (f : TR)  -- UMIN (R148)
  | umax (f : TR)  -- UMAX (R148)
  | and (f : TR)  -- AND (R148)
  | or (f : TR)  -- OR (R148)
  | xor (f : TR)  -- XOR (R148)
  | shl (f : TR)  -- SHL (R148)
  | shr (f : TR)  -- SHR (R148)
  | sar (f : TR)  -- SAR (R148)
  | iaddi (f : TI)  -- IADDI (R149)
  | andi (f : TI)  -- ANDI (R149)
  | ori (f : TI)  -- ORI (R149)
  | shli (f : TI)  -- SHLI (R149)
  | shri (f : TI)  -- SHRI (R149)
  | lea (f : TR)  -- LEA (R148)
  | lea64 (f : TR)  -- LEA64 (R150)
  | iadd64 (f : TR)  -- IADD64 (R150)
  | popc (f : T1)  -- POPC (R148)
  | clz (f : T1)  -- CLZ (R148)
  | bfe (f : TR) (x : TX)  -- BFE (R151)
  | bfi (f : TR) (x : TX)  -- BFI (R151)
  | mov (f : T1)  -- MOV (R153)
  | movi (d : BitVec 6) (i : BitVec 9) (s : BitVec 3)  -- MOVI (R149)
  | movs (d a : BitVec 6) (h : BitVec 1) (g s : BitVec 3)  -- MOVS (R153)
  | sel (f : TR)  -- SEL (R153)
  | fadd (f : TR)  -- FADD (R155)
  | faddTx (f : TR) (x : TX)  -- FADD_TX (R155)
  | fsub (f : TR)  -- FSUB (R155)
  | fsubTx (f : TR) (x : TX)  -- FSUB_TX (R155)
  | fmul (f : TR)  -- FMUL (R155)
  | fmulTx (f : TR) (x : TX)  -- FMUL_TX (R155)
  | ffma (f : TR)  -- FFMA (R155)
  | ffmaTx (f : TR) (x : TX)  -- FFMA_TX (R155)
  | fmin (f : TR)  -- FMIN (R42)
  | fmax (f : TR)  -- FMAX (R42)
  | fdiv (f : TR)  -- FDIV (R155)
  | fdivTx (f : TR) (x : TX)  -- FDIV_TX (R155)
  | fabs (f : T1)  -- FABS (R155)
  | dadd (f : TR)  -- DADD (R155)
  | daddTx (f : TR) (x : TX)  -- DADD_TX (R155)
  | dsub (f : TR)  -- DSUB (R155)
  | dsubTx (f : TR) (x : TX)  -- DSUB_TX (R155)
  | dmul (f : TR)  -- DMUL (R155)
  | dmulTx (f : TR) (x : TX)  -- DMUL_TX (R155)
  | dfma (f : TR)  -- DFMA (R155)
  | dfmaTx (f : TR) (x : TX)  -- DFMA_TX (R155)
  | dmin (f : TR)  -- DMIN (R42)
  | dmax (f : TR)  -- DMAX (R42)
  | ddiv (f : TR)  -- DDIV (R155)
  | ddivTx (f : TR) (x : TX)  -- DDIV_TX (R155)
  | dabs (f : T1)  -- DABS (R155)
  | hadd (f : TR)  -- HADD (R155)
  | hmul (f : TR)  -- HMUL (R155)
  | hfma (f : TR)  -- HFMA (R155)
  | hfmaTx (f : TR) (x : TX)  -- HFMA_TX (R155)
  | badd (f : TR)  -- BADD (R155)
  | bmul (f : TR)  -- BMUL (R155)
  | bfma (f : TR)  -- BFMA (R155)
  | bfmaTx (f : TR) (x : TX)  -- BFMA_TX (R155)
  | hadd2 (f : TR)  -- HADD2 (R155)
  | hmul2 (f : TR)  -- HMUL2 (R155)
  | hfma2 (f : TR)  -- HFMA2 (R155)
  | hfma2Tx (f : TR) (x : TX)  -- HFMA2_TX (R155)
  | hmax2 (f : TR)  -- HMAX2 (R155)
  | hmin2 (f : TR)  -- HMIN2 (R155)
  | badd2 (f : TR)  -- BADD2 (R155)
  | bmul2 (f : TR)  -- BMUL2 (R155)
  | bfma2 (f : TR)  -- BFMA2 (R155)
  | bfma2Tx (f : TR) (x : TX)  -- BFMA2_TX (R155)
  | bmax2 (f : TR)  -- BMAX2 (R155)
  | bmin2 (f : TR)  -- BMIN2 (R155)
  | frcp (f : T1)  -- FRCP (R158)
  | frsq (f : T1)  -- FRSQ (R158)
  | fsqrt (f : T1)  -- FSQRT (R158)
  | fexp2 (f : T1)  -- FEXP2 (R158)
  | flog2 (f : T1)  -- FLOG2 (R158)
  | fsin (f : T1)  -- FSIN (R158)
  | fcos (f : T1)  -- FCOS (R158)
  | ftanh (f : T1)  -- FTANH (R158)
  | cvtf (f : TR) (x : TX)  -- CVTF (R161)
  | cvtfi (f : TR) (x : TX)  -- CVTFI (R161)
  | cvtif (f : TR) (x : TX)  -- CVTIF (R161)
  | cvtii (f : TR) (x : TX)  -- CVTII (R161)
  | qenc (f : TR) (x : TX)  -- QENC (R163)
  | qdec (f : TR) (x : TX)  -- QDEC (R163)
  | fclass (f : TR)  -- FCLASS (R157)
  | fqrcp (f : T1)  -- FQRCP (R158)
  | icmpEq (f : TC)  -- ICMP_EQ (R164)
  | icmpNe (f : TC)  -- ICMP_NE (R164)
  | icmpLt (f : TC)  -- ICMP_LT (R164)
  | icmpLe (f : TC)  -- ICMP_LE (R164)
  | icmpLtu (f : TC)  -- ICMP_LTU (R164)
  | icmpLeu (f : TC)  -- ICMP_LEU (R164)
  | fcmpEq (f : TC)  -- FCMP_EQ (R164)
  | fcmpLt (f : TC)  -- FCMP_LT (R164)
  | fcmpLe (f : TC)  -- FCMP_LE (R164)
  | fcmpUn (f : TC)  -- FCMP_UN (R164)
  | dcmpEq (f : TC)  -- DCMP_EQ (R164)
  | dcmpLt (f : TC)  -- DCMP_LT (R164)
  | dcmpLe (f : TC)  -- DCMP_LE (R164)
  | dcmpUn (f : TC)  -- DCMP_UN (R164)
  | plop (d e a b : BitVec 3) (t : BitVec 4) (c s : BitVec 3)  -- PLOP (R166)
  | xrot (f : TR)  -- XROT (R168)
  | xbfly (f : TR)  -- XBFLY (R168)
  | xbcast (f : TR)  -- XBCAST (R168)
  | xrev (f : TR)  -- XREV (R168)
  | redx (f : TR) (x : TX)  -- REDX (R171)
  | scanx (f : TR) (x : TX)  -- SCANX (R171)
  | vote (k p : BitVec 3) (o m : BitVec 2) (s : BitVec 3)  -- VOTE (R172)
  | ld (f : TR) (x : TX)  -- LD (R125)
  | st (f : TR) (x : TX)  -- ST (R125)
  | lds (f : TR) (x : TX)  -- LDS (R125)
  | sts (f : TR) (x : TX)  -- STS (R125)
  | sld (f : TR) (x : TX)  -- SLD (R128)
  | sst (f : TR) (x : TX)  -- SST (R128)
  | atom (f : TR) (x : TX)  -- ATOM (R132)
  | atoms (f : TR) (x : TX)  -- ATOMS (R132)
  | cas (f : TR) (x : TX)  -- CAS (R133)
  | cass (f : TR) (x : TX)  -- CASS (R133)
  | fence (f : TR) (x : TX)  -- FENCE (R135)
  | cpa (f : TR) (x : TX)  -- CPA (R136)
  | few (f : T1)  -- FEW (R138)
  | fer (f : T1)  -- FER (R138)
  | fepeek (f : T1)  -- FEPEEK (R138)
  | xperm (f : TR)  -- XPERM (R169)
  | nop (c : BitVec 3)  -- NOP (R239)
  | sadd (f : S3)  -- SADD (R239)
  | ssub (f : S3)  -- SSUB (R239)
  | smul (f : S3)  -- SMUL (R239)
  | sand (f : S3)  -- SAND (R239)
  | sor (f : S3)  -- SOR (R239)
  | sxor (f : S3)  -- SXOR (R239)
  | sshl (f : S3)  -- SSHL (R239)
  | sshr (f : S3)  -- SSHR (R239)
  | ssar (f : S3)  -- SSAR (R239)
  | smin (f : S3) (u : BitVec 1)  -- SMIN (R239)
  | smax (f : S3) (u : BitVec 1)  -- SMAX (R239)
  | smovi (c : BitVec 3) (d : BitVec 5) (i : BitVec 16)  -- SMOVI (R240)
  | slui (c : BitVec 3) (d : BitVec 5) (i : BitVec 16)  -- SLUI (R240)
  | saddi (c : BitVec 3) (d : BitVec 5) (i : BitVec 16)  -- SADDI (R240)
  | scmp (c k : BitVec 3) (a b : BitVec 5) (f : BitVec 3)  -- SCMP (R241)
  | kop (c k a b : BitVec 3) (t : BitVec 4)  -- KOP (R242)
  | tkrd (c : BitVec 3) (d : BitVec 5) (f : BitVec 2)  -- TKRD (R243)
  | strd (c : BitVec 3) (d : BitVec 5) (h : BitVec 1) (i : BitVec 5)  -- STRD (R244)
  | stwr (c : BitVec 3) (a : BitVec 5) (h : BitVec 1) (i : BitVec 5)  -- STWR (R244)
  | sldg (c : BitVec 3) (d a : BitVec 5) (i : BitVec 6)  -- SLDG (R139)
  | sstg (c : BitVec 3) (d a : BitVec 5) (i : BitVec 6)  -- SSTG (R139)
  | br (c k : BitVec 3) (n : BitVec 1) (o : BitVec 17)  -- BR (R245)
  | jmp (c : BitVec 3) (o : BitVec 17)  -- JMP (R245)
  | call (c : BitVec 3) (o : BitVec 17)  -- CALL (R245)
  | ret (c : BitVec 3)  -- RET (R245)
  | loop (c : BitVec 3) (i : BitVec 16)  -- LOOP (R246)
  | loopr (c : BitVec 3) (a : BitVec 5)  -- LOOPR (R246)
  | endl (c : BitVec 3)  -- ENDL (R246)
  | brk (c k : BitVec 3) (n : BitVec 1) (o : BitVec 17)  -- BRK (R246)
  | ifT (p : BitVec 3) (n : BitVec 1)  -- IF (R249)
  | elseT  -- ELSE (R249)
  | fiT  -- FI (R249)
  | run (t l : BitVec 5) (a : BitVec 8)  -- RUN (R250)
  | endr (t : BitVec 3) (a b c : BitVec 7)  -- ENDR (R106)
  | exit (c : BitVec 3)  -- EXIT (R251)
  | yield (c : BitVec 3)  -- YIELD (R256)
  | acq  -- ACQ (R257)
  | arrive (c : BitVec 3) (f : BitVec 6)  -- ARRIVE (R252)
  | wait (c : BitVec 3) (f : BitVec 6)  -- WAIT (R252)
  | grpset (a b : BitVec 5) (l : BitVec 2) (x : BitVec 1)  -- GRPSET (R254)
  | flagset (a : BitVec 5) (q : BitVec 3)  -- FLAGSET (R255)
  | cpwait (t : BitVec 3)  -- CPWAIT (R137)
  | enter (a : BitVec 5)  -- ENTER (R258)
  | leave  -- LEAVE (R258)
  | trap (x : BitVec 6)  -- TRAP (R260)
  | tret  -- TRET (R260)
  | wpset (a : BitVec 5) (x : BitVec 1) (n : BitVec 4)  -- WPSET (R262)
  | dbgrd (d a : BitVec 5)  -- DBGRD (R264)
  | dbgwr (a b : BitVec 5)  -- DBGWR (R264)
  | lstep (d a : BitVec 5)  -- LSTEP (R265)
  | wresume (a b : BitVec 5) (j : BitVec 1)  -- WRESUME (R266)
  | mpred (a b : BitVec 5) (o c : BitVec 1) (n : BitVec 2)  -- MPRED (R195)
  | mzero (a : BitVec 5) (k r : BitVec 2)  -- MZERO (R196)
  | mldw (a : BitVec 5) (n : BitVec 1) (f : BitVec 3)  -- MLDW (R197)
  | mswap  -- MSWAP (R199)
  | mstrm (a b : BitVec 5) (f k r : BitVec 2)  -- MSTRM (R200)
  | mcpy (v : BitVec 3) (x : BitVec 1) (a b : BitVec 5) (k r : BitVec 2)  -- MCPY (R201)
  | mfence (d : BitVec 5)  -- MFENCE (R203)
  | mwait (a : BitVec 5)  -- MWAIT (R204)
  | srtld (a b w : BitVec 5)  -- SRTLD (R206)
  | srtgo (a : BitVec 5) (o e l : BitVec 1) (k : BitVec 3)  -- SRTGO (R207)
  | srtst (a b w : BitVec 5)  -- SRTST (R208)
  | bcopy (d a b : BitVec 5) (x : BitVec 1) (w : BitVec 5)  -- BCOPY (R78)
  | bmcast (d a b : BitVec 5)  -- BMCAST (R81)
  | gath (d a b w : BitVec 5)  -- GATH (R80)
  | syncw (d a b : BitVec 5)  -- SYNCW (R76)
  | swait (a b : BitVec 5)  -- SWAIT (R77)
  | hist (d a b w : BitVec 5)  -- HIST (R86)
  | qscale (d a b w : BitVec 5)  -- QSCALE (R88)
  | coll (d a b w : BitVec 5)  -- COLL (R84)
  | qjoin (m : BitVec 5)  -- QJOIN (R142)
  | bpref (a b : BitVec 5)  -- BPREF (R143)
  -- Steps of the other agents (spec/95)
  | faultRecordWrite (isle : Nat)  -- FAULT_RECORD_WRITE (R324)
  | waveReplay (wave : Nat)  -- WAVE_REPLAY (R26)
  | loadWriteback (wave index : Nat)  -- LOAD_WRITEBACK (R111)
  | tokenPop (agent : Agent)  -- TOKEN_POP (R217)
  | barrierRelease (block bar : Nat)  -- BARRIER_RELEASE (R229)
  | voteInstanceComplete (agent : Agent)  -- VOTE_INSTANCE_COMPLETE (R175)
  | acqGrant (block : Nat)  -- ACQ_GRANT (R230)
  | engineCommandStart (block : Nat) (queue : EngineQueue)  -- ENGINE_COMMAND_START (R71)
  | engineUnitWrite (block : Nat) (queue : EngineQueue) (choice : Nat)  -- ENGINE_UNIT_WRITE (R334)
  | cpaLanding (wave index : Nat)  -- CPA_LANDING (R82)
  | matrixGrant (block : Nat)  -- MATRIX_GRANT (R182)
  | sortStep (block : Nat)  -- SORT_STEP (R188)
  | sortTransferRow (block : Nat)  -- SORT_TRANSFER_ROW (R209)
  | multicastGranule (block choice : Nat)  -- MULTICAST_GRANULE (R81)
  | collInstanceComplete (ctx group inst : Nat)  -- COLL_INSTANCE_COMPLETE (R84)
  | blockEnd (block : Nat)  -- BLOCK_END (R251)
  | blockPlacement (grid core : Nat)  -- BLOCK_PLACEMENT (R231)
  | launchAdmission (launch : Nat)  -- LAUNCH_ADMISSION (R313)
  | gangRetry (launch : Nat)  -- GANG_RETRY (R317)
  | graphNode (queue : Nat)  -- GRAPH_NODE (R321)
  | launch (p : Packet)  -- LAUNCH (R305)
  | gang (p : Packet)  -- GANG (R317)
  | graph (p : Packet)  -- GRAPH (R320)
  | vwrite (p : Packet)  -- VWRITE (R308)
  | vwait (p : Packet)  -- VWAIT (R308)
  | vwaitPoll (queue : Nat)  -- VWAIT_POLL (R308)
  | qfence (p : Packet)  -- QFENCE (R309)
  | codepub (p : Packet)  -- CODEPUB (R380)
  | capstart (p : Packet)  -- CAPSTART (R364)
  | capstop (p : Packet)  -- CAPSTOP (R364)
  | ringRescan (isle : Nat)  -- RING_RESCAN (R302)
  | pluginAnswerTimeout (isle tenant : Nat)  -- PLUGIN_ANSWER_TIMEOUT (R323)
  | progressFault (grid : Nat)  -- PROGRESS_FAULT (R233)
  | preemptionRequest (ctx : Nat)  -- PREEMPTION_REQUEST (R336)
  | forcedSave (ctx : Nat)  -- FORCED_SAVE (R337)
  | contextRestore (ctx : Nat)  -- CONTEXT_RESTORE (R345)
  | invalidationComplete (isle : Nat)  -- INVALIDATION_COMPLETE (R30)
  | invalidationCompletionSend (tag : Nat)  -- INVALIDATION_COMPLETION_SEND (R24)
  | fixedLatencyResultWrite (wave : Nat)  -- FIXED_LATENCY_RESULT_WRITE (R112)
  | kickPageWrite (page offset : Nat)  -- KICK_PAGE_WRITE (R302, R388)
  | pipelineRevision (isle : Nat)  -- PIPELINE_REVISION (R316)
  | tenantPeriodBoundary (isle : Nat)  -- TENANT_PERIOD_BOUNDARY (R312)
  | wavePromotion (wave : Nat)  -- WAVE_PROMOTION (R319)
  | pcSample (agent : Agent)  -- PC_SAMPLE (R367)
  | taggedRecord (wave : Nat)  -- TAGGED_RECORD (R368)
  | xlinvcOnePage (isle pasid size : Nat)  -- XLINVC_ONE_PAGE (R30)
  | xlinvcWholePasid (isle pasid : Nat)  -- XLINVC_WHOLE_PASID (R30)
  | xlinvcAllPasids (isle : Nat)  -- XLINVC_ALL_PASIDS (R30)
  | xlrespRetry (isle seq : Nat)  -- XLRESP_RETRY (R29)
  | xlrespFail (isle seq : Nat)  -- XLRESP_FAIL (R29)
  | ctxcmdCreate (ctx : Nat)  -- CTXCMD_CREATE (R299)
  | ctxcmdDestroy (ctx : Nat)  -- CTXCMD_DESTROY (R299)
  | qcmdEnable (isle qloc : Nat)  -- QCMD_ENABLE (R299)
  | qcmdDisable (isle qloc : Nat)  -- QCMD_DISABLE (R299)
  | tperiodWrite (isle value : Nat)  -- TPERIOD_WRITE (R298)
  | pwrlimWrite (value : Nat)  -- PWRLIM_WRITE (R398)
  | registerWrite (isle offset : Nat) (value : Dword)  -- REGISTER_WRITE (R298)
  | atsInvalidationRequest (r : AtsInvalidation)  -- ATS_INVALIDATION_REQUEST (R24)
  | atsTranslationCompletion (r : AtsCompletion)  -- ATS_TRANSLATION_COMPLETION (R25)
  | prgResponse (r : PrgResponse)  -- PRG_RESPONSE (R25)
  | functionLevelReset (fn : Nat)  -- FUNCTION_LEVEL_RESET (R389)
  | straitLinkDown (link : Nat)  -- STRAIT_LINK_DOWN (R391)
  | peerAccess (r : PeerAccess)  -- PEER_ACCESS (R390)
  -- unit 0 to 31 a core, 32 and 33 the isle's Strait links, 34 its far cache, 35 + f the HBM frame f
  | unitSelfTest (isle unit : Nat) (passed : Bool)  -- UNIT_SELF_TEST (R395)
  | attestationReport (nonce : List Byte)  -- ATTESTATION_REPORT (R394)
  | operatorKeyEnrol (key : List Byte)  -- OPERATOR_KEY_ENROL (R393)
  | powerArbiterTick (isle core limit : Nat)  -- POWER_ARBITER_TICK (R397)
  | tenantTokenCharge (block : Nat)  -- TENANT_TOKEN_CHARGE (R311)
  | pluginAnswer (isle tenant queue : Nat)  -- PLUGIN_ANSWER (R323)
  | storedBitError (e : BitError)  -- STORED_BIT_ERROR (R70)
  | flitCrcFailure (link : Nat)  -- FLIT_CRC_FAILURE (R390)
  | configurationRequest (write : Bool) (offset : Nat) (value : Word)  -- CONFIGURATION_REQUEST (R399)
  | illegalInstruction  -- ILLEGAL_INSTRUCTION (R117)
  | hotReset  -- HOT_RESET (R389)
  | powerUp  -- POWER_UP (R399)
  | powerLoss  -- POWER_LOSS (R394)
  deriving DecidableEq, Repr

end Sys2Proof
end

