-- ==== Sys2Proof/Decode.lean ====
section
/-!
DEFINITION. Sys2Proof/Decode.lean: from words to instructions and back (spec/08: R100 to R106, R114, R115, R117; the field
tables of spec/opcode_table.json). The decoder is total and rejects by name; the encoder writes the words of an instruction
out from the same field tables.
-/

namespace Sys2Proof

/-- Why a word is no instruction (R117). -/
inductive DecodeError where
  | unassigned      -- an op marked as unassigned in R114 or R115
  | reservedField   -- a non-zero value in a field that the instruction does not use
  | wrongScope      -- a listed op at a scope that its cell does not name
  | missingTx       -- a `*` opcode that no TX word follows
  | strayTx         -- a TX word that follows no opcode which takes it
  | truncated       -- fewer bytes than the instruction has
  deriving DecidableEq, Repr

/-- The field of `len` bits at bit `lo` of a word. -/
def sel (w : Word) (lo len : Nat) : BitVec len := w.extractLsb' lo len

def trOf (w : Word) : TR := ⟨sel w 18 6, sel w 12 6, sel w 6 6, sel w 3 3, sel w 0 3⟩
def t1Of (w : Word) : T1 := ⟨sel w 18 6, sel w 12 6, sel w 3 3, sel w 0 3⟩
def tiOf (w : Word) : TI := ⟨sel w 18 6, sel w 12 6, sel w 3 9, sel w 0 3⟩
def tcOf (w : Word) : TC := ⟨sel w 21 3, sel w 18 3, sel w 12 6, sel w 6 6, sel w 3 3, sel w 0 3⟩
def txOf (w : Word) : TX := ⟨sel w 18 6, sel w 12 6, sel w 0 12⟩
def s3Of (w : Word) : S3 := ⟨sel w 28 3, sel w 16 5, sel w 11 5, sel w 6 5⟩

/-- A TX word: bit 31 clear and op 0x7F (R101, R103). -/
def isTx (w : Word) : Bool := sel w 24 8 == 0x7F

/-- What decoding answers: the instruction and the number of its words. -/
abbrev Decoded := Except DecodeError (Instr × Nat)

/-- A one-word instruction. -/
def one (i : Instr) : Decoded := .ok (i, 1)

/-- A one-word instruction whose unused fields must be zero (R117). -/
def reserved (zero : Bool) (i : Instr) : Decoded := if zero then .ok (i, 1) else .error .reservedField

/-- An instruction of one scope alone (R115). -/
def atScope (c : BitVec 3) (w : Word) (r : Decoded) : Decoded :=
  if sel w 28 3 == c then r else .error .wrongScope

/-- A `*` opcode: the next word must be a TX word (R103). -/
def needTx (k : TR → TX → Instr) (w : Word) (next : Option Word) : Decoded :=
  match next with
  | some n => if isTx n then .ok (k (trOf w) (txOf n), 2) else .error .missingTx
  | none => .error .missingTx

/-- A `+` opcode: two words if and only if the next word is a TX word (R103). -/
def mayTx (k : TR → Instr) (kx : TR → TX → Instr) (w : Word) (next : Option Word) : Decoded :=
  match next with
  | some n => if isTx n then .ok (kx (trOf w) (txOf n), 2) else .ok (k (trOf w), 1)
  | none => .ok (k (trOf w), 1)

/-- The thread-set map (R114). -/
def decodeThread (w : Word) (next : Option Word) : Decoded :=
  match (sel w 24 7).toNat with
  | 0x00 => one (.iadd (trOf w))
  | 0x01 => one (.isub (trOf w))
  | 0x02 => one (.imul (trOf w))
  | 0x03 => one (.imulhi (trOf w))
  | 0x04 => mayTx .imad .imadTx w next
  | 0x05 => one (.imin (trOf w))
  | 0x06 => one (.imax (trOf w))
  | 0x07 => one (.umin (trOf w))
  | 0x08 => one (.umax (trOf w))
  | 0x09 => one (.and (trOf w))
  | 0x0A => one (.or (trOf w))
  | 0x0B => one (.xor (trOf w))
  | 0x0C => one (.shl (trOf w))
  | 0x0D => one (.shr (trOf w))
  | 0x0E => one (.sar (trOf w))
  | 0x0F => one (.iaddi (tiOf w))
  | 0x10 => one (.andi (tiOf w))
  | 0x11 => one (.ori (tiOf w))
  | 0x12 => one (.shli (tiOf w))
  | 0x13 => one (.shri (tiOf w))
  | 0x14 => one (.lea (trOf w))
  | 0x15 => one (.lea64 (trOf w))
  | 0x16 => one (.iadd64 (trOf w))
  | 0x17 => reserved (sel w 6 6 == 0) (.popc (t1Of w))
  | 0x18 => reserved (sel w 6 6 == 0) (.clz (t1Of w))
  | 0x19 => needTx .bfe w next
  | 0x1A => needTx .bfi w next
  | 0x1B => reserved (sel w 6 6 == 0) (.mov (t1Of w))
  | 0x1C => reserved (sel w 12 6 == 0) (.movi (sel w 18 6) (sel w 3 9) (sel w 0 3))
  | 0x1D => reserved (sel w 7 5 == 0) (.movs (sel w 18 6) (sel w 12 6) (sel w 6 1) (sel w 3 3) (sel w 0 3))
  | 0x1E => one (.sel (trOf w))
  | 0x20 => mayTx .fadd .faddTx w next
  | 0x21 => mayTx .fsub .fsubTx w next
  | 0x22 => mayTx .fmul .fmulTx w next
  | 0x23 => mayTx .ffma .ffmaTx w next
  | 0x24 => one (.fmin (trOf w))
  | 0x25 => one (.fmax (trOf w))
  | 0x26 => mayTx .fdiv .fdivTx w next
  | 0x27 => reserved (sel w 6 6 == 0) (.fabs (t1Of w))
  | 0x28 => mayTx .dadd .daddTx w next
  | 0x29 => mayTx .dsub .dsubTx w next
  | 0x2A => mayTx .dmul .dmulTx w next
  | 0x2B => mayTx .dfma .dfmaTx w next
  | 0x2C => one (.dmin (trOf w))
  | 0x2D => one (.dmax (trOf w))
  | 0x2E => mayTx .ddiv .ddivTx w next
  | 0x2F => reserved (sel w 6 6 == 0) (.dabs (t1Of w))
  | 0x30 => one (.hadd (trOf w))
  | 0x31 => one (.hmul (trOf w))
  | 0x32 => mayTx .hfma .hfmaTx w next
  | 0x33 => one (.badd (trOf w))
  | 0x34 => one (.bmul (trOf w))
  | 0x35 => mayTx .bfma .bfmaTx w next
  | 0x36 => one (.hadd2 (trOf w))
  | 0x37 => one (.hmul2 (trOf w))
  | 0x38 => mayTx .hfma2 .hfma2Tx w next
  | 0x39 => one (.hmax2 (trOf w))
  | 0x3A => one (.hmin2 (trOf w))
  | 0x3B => one (.badd2 (trOf w))
  | 0x3C => one (.bmul2 (trOf w))
  | 0x3D => mayTx .bfma2 .bfma2Tx w next
  | 0x3E => one (.bmax2 (trOf w))
  | 0x3F => one (.bmin2 (trOf w))
  | 0x40 => reserved (sel w 6 6 == 0) (.frcp (t1Of w))
  | 0x41 => reserved (sel w 6 6 == 0) (.frsq (t1Of w))
  | 0x42 => reserved (sel w 6 6 == 0) (.fsqrt (t1Of w))
  | 0x43 => reserved (sel w 6 6 == 0) (.fexp2 (t1Of w))
  | 0x44 => reserved (sel w 6 6 == 0) (.flog2 (t1Of w))
  | 0x45 => reserved (sel w 6 6 == 0) (.fsin (t1Of w))
  | 0x46 => reserved (sel w 6 6 == 0) (.fcos (t1Of w))
  | 0x47 => reserved (sel w 6 6 == 0) (.ftanh (t1Of w))
  | 0x48 => needTx .cvtf w next
  | 0x49 => needTx .cvtfi w next
  | 0x4A => needTx .cvtif w next
  | 0x4B => needTx .cvtii w next
  | 0x4C => needTx .qenc w next
  | 0x4D => needTx .qdec w next
  | 0x4E => one (.fclass (trOf w))
  | 0x4F => reserved (sel w 6 6 == 0) (.fqrcp (t1Of w))
  | 0x50 => one (.icmpEq (tcOf w))
  | 0x51 => one (.icmpNe (tcOf w))
  | 0x52 => one (.icmpLt (tcOf w))
  | 0x53 => one (.icmpLe (tcOf w))
  | 0x54 => one (.icmpLtu (tcOf w))
  | 0x55 => one (.icmpLeu (tcOf w))
  | 0x56 => one (.fcmpEq (tcOf w))
  | 0x57 => one (.fcmpLt (tcOf w))
  | 0x58 => one (.fcmpLe (tcOf w))
  | 0x59 => one (.fcmpUn (tcOf w))
  | 0x5A => one (.dcmpEq (tcOf w))
  | 0x5B => one (.dcmpLt (tcOf w))
  | 0x5C => one (.dcmpLe (tcOf w))
  | 0x5D => one (.dcmpUn (tcOf w))
  | 0x5E => reserved (sel w 10 2 == 0) (.plop (sel w 21 3) (sel w 18 3) (sel w 15 3) (sel w 12 3) (sel w 6 4) (sel w 3 3) (sel w 0 3))
  | 0x60 => one (.xrot (trOf w))
  | 0x61 => one (.xbfly (trOf w))
  | 0x62 => one (.xbcast (trOf w))
  | 0x63 => one (.xrev (trOf w))
  | 0x64 => needTx .redx w next
  | 0x65 => needTx .scanx w next
  | 0x66 => reserved (sel w 10 8 == 0 && sel w 3 3 == 0) (.vote (sel w 21 3) (sel w 18 3) (sel w 8 2) (sel w 6 2) (sel w 0 3))
  | 0x68 => needTx .ld w next
  | 0x69 => needTx .st w next
  | 0x6A => needTx .lds w next
  | 0x6B => needTx .sts w next
  | 0x6C => needTx .sld w next
  | 0x6D => needTx .sst w next
  | 0x6E => needTx .atom w next
  | 0x6F => needTx .atoms w next
  | 0x70 => needTx .cas w next
  | 0x71 => needTx .cass w next
  | 0x72 => needTx .fence w next
  | 0x73 => needTx .cpa w next
  | 0x74 => reserved (sel w 6 6 == 0) (.few (t1Of w))
  | 0x75 => reserved (sel w 6 6 == 0) (.fer (t1Of w))
  | 0x76 => reserved (sel w 6 6 == 0) (.fepeek (t1Of w))
  | 0x77 => one (.xperm (trOf w))
  | 0x7F => .error .strayTx
  | _ => .error .unassigned

/-- The sequencer-set map (R115). -/
def decodeSeq (w : Word) : Decoded :=
  match (sel w 21 7).toNat with
  | 0x00 => reserved (sel w 0 21 == 0) (.nop (sel w 28 3))
  | 0x01 => reserved (sel w 0 6 == 0) (.sadd (s3Of w))
  | 0x02 => reserved (sel w 0 6 == 0) (.ssub (s3Of w))
  | 0x03 => reserved (sel w 0 6 == 0) (.smul (s3Of w))
  | 0x04 => reserved (sel w 0 6 == 0) (.sand (s3Of w))
  | 0x05 => reserved (sel w 0 6 == 0) (.sor (s3Of w))
  | 0x06 => reserved (sel w 0 6 == 0) (.sxor (s3Of w))
  | 0x07 => reserved (sel w 0 6 == 0) (.sshl (s3Of w))
  | 0x08 => reserved (sel w 0 6 == 0) (.sshr (s3Of w))
  | 0x09 => reserved (sel w 0 6 == 0) (.ssar (s3Of w))
  | 0x0A => reserved (sel w 1 5 == 0) (.smin (s3Of w) (sel w 0 1))
  | 0x0B => reserved (sel w 1 5 == 0) (.smax (s3Of w) (sel w 0 1))
  | 0x0C => one (.smovi (sel w 28 3) (sel w 16 5) (sel w 0 16))
  | 0x0D => one (.slui (sel w 28 3) (sel w 16 5) (sel w 0 16))
  | 0x0E => one (.saddi (sel w 28 3) (sel w 16 5) (sel w 0 16))
  | 0x0F => reserved (sel w 19 2 == 0 && sel w 3 3 == 0) (.scmp (sel w 28 3) (sel w 16 3) (sel w 11 5) (sel w 6 5) (sel w 0 3))
  | 0x10 => reserved (sel w 19 2 == 0 && sel w 14 2 == 0 && sel w 9 2 == 0 && sel w 4 2 == 0) (.kop (sel w 28 3) (sel w 16 3) (sel w 11 3) (sel w 6 3) (sel w 0 4))
  | 0x11 => reserved (sel w 2 14 == 0) (.tkrd (sel w 28 3) (sel w 16 5) (sel w 0 2))
  | 0x12 => reserved (sel w 6 10 == 0) (.strd (sel w 28 3) (sel w 16 5) (sel w 5 1) (sel w 0 5))
  | 0x13 => reserved (sel w 16 5 == 0 && sel w 6 5 == 0) (.stwr (sel w 28 3) (sel w 11 5) (sel w 5 1) (sel w 0 5))
  | 0x14 => reserved (sel w 6 5 == 0) (.sldg (sel w 28 3) (sel w 16 5) (sel w 11 5) (sel w 0 6))
  | 0x15 => reserved (sel w 6 5 == 0) (.sstg (sel w 28 3) (sel w 16 5) (sel w 11 5) (sel w 0 6))
  | 0x20 => one (.br (sel w 28 3) (sel w 18 3) (sel w 17 1) (sel w 0 17))
  | 0x21 => reserved (sel w 17 4 == 0) (.jmp (sel w 28 3) (sel w 0 17))
  | 0x22 => reserved (sel w 17 4 == 0) (.call (sel w 28 3) (sel w 0 17))
  | 0x23 => reserved (sel w 0 21 == 0) (.ret (sel w 28 3))
  | 0x24 => reserved (sel w 16 5 == 0) (.loop (sel w 28 3) (sel w 0 16))
  | 0x25 => reserved (sel w 16 5 == 0 && sel w 0 11 == 0) (.loopr (sel w 28 3) (sel w 11 5))
  | 0x26 => reserved (sel w 0 21 == 0) (.endl (sel w 28 3))
  | 0x27 => one (.brk (sel w 28 3) (sel w 18 3) (sel w 17 1) (sel w 0 17))
  | 0x28 => atScope 0 w (reserved (sel w 14 7 == 0 && sel w 1 10 == 0) (.ifT (sel w 11 3) (sel w 0 1)))
  | 0x29 => atScope 0 w (reserved (sel w 0 21 == 0) (.elseT))
  | 0x2A => atScope 0 w (reserved (sel w 0 21 == 0) (.fiT))
  | 0x2B => atScope 1 w (reserved (sel w 0 3 == 0) (.run (sel w 16 5) (sel w 11 5) (sel w 3 8)))
  | 0x2C => reserved (sel w 0 21 == 0) (.exit (sel w 28 3))
  | 0x2D => reserved (sel w 0 21 == 0) (.yield (sel w 28 3))
  | 0x2E => atScope 2 w (reserved (sel w 0 21 == 0) (.acq))
  | 0x30 => reserved (sel w 6 15 == 0) (.arrive (sel w 28 3) (sel w 0 6))
  | 0x31 => reserved (sel w 6 15 == 0) (.wait (sel w 28 3) (sel w 0 6))
  | 0x32 => atScope 3 w (reserved (sel w 16 5 == 0 && sel w 3 3 == 0) (.grpset (sel w 11 5) (sel w 6 5) (sel w 1 2) (sel w 0 1)))
  | 0x33 => atScope 2 w (reserved (sel w 16 5 == 0 && sel w 3 8 == 0) (.flagset (sel w 11 5) (sel w 0 3)))
  | 0x34 => atScope 1 w (reserved (sel w 3 18 == 0) (.cpwait (sel w 0 3)))
  | 0x35 => atScope 1 w (reserved (sel w 16 5 == 0 && sel w 0 11 == 0) (.enter (sel w 11 5)))
  | 0x36 => atScope 1 w (reserved (sel w 0 21 == 0) (.leave))
  | 0x37 => atScope 1 w (reserved (sel w 6 15 == 0) (.trap (sel w 0 6)))
  | 0x38 => atScope 1 w (reserved (sel w 0 21 == 0) (.tret))
  | 0x39 => atScope 1 w (reserved (sel w 16 5 == 0 && sel w 5 6 == 0) (.wpset (sel w 11 5) (sel w 4 1) (sel w 0 4)))
  | 0x3A => atScope 1 w (reserved (sel w 0 11 == 0) (.dbgrd (sel w 16 5) (sel w 11 5)))
  | 0x3B => atScope 1 w (reserved (sel w 16 5 == 0 && sel w 0 6 == 0) (.dbgwr (sel w 11 5) (sel w 6 5)))
  | 0x3C => atScope 1 w (reserved (sel w 0 11 == 0) (.lstep (sel w 16 5) (sel w 11 5)))
  | 0x3D => atScope 1 w (reserved (sel w 16 5 == 0 && sel w 1 5 == 0) (.wresume (sel w 11 5) (sel w 6 5) (sel w 0 1)))
  | 0x40 => atScope 2 w (reserved (sel w 16 5 == 0 && sel w 4 2 == 0) (.mpred (sel w 11 5) (sel w 6 5) (sel w 3 1) (sel w 2 1) (sel w 0 2)))
  | 0x41 => atScope 2 w (reserved (sel w 16 5 == 0 && sel w 4 7 == 0) (.mzero (sel w 11 5) (sel w 2 2) (sel w 0 2)))
  | 0x42 => atScope 2 w (reserved (sel w 16 5 == 0 && sel w 4 7 == 0) (.mldw (sel w 11 5) (sel w 3 1) (sel w 0 3)))
  | 0x43 => atScope 2 w (reserved (sel w 0 21 == 0) (.mswap))
  | 0x44 => atScope 2 w (reserved (sel w 16 5 == 0) (.mstrm (sel w 11 5) (sel w 6 5) (sel w 4 2) (sel w 2 2) (sel w 0 2)))
  | 0x45 => atScope 2 w (reserved (sel w 20 1 == 0 && sel w 4 2 == 0) (.mcpy (sel w 17 3) (sel w 16 1) (sel w 11 5) (sel w 6 5) (sel w 2 2) (sel w 0 2)))
  | 0x46 => atScope 2 w (reserved (sel w 0 16 == 0) (.mfence (sel w 16 5)))
  | 0x47 => atScope 2 w (reserved (sel w 16 5 == 0 && sel w 0 11 == 0) (.mwait (sel w 11 5)))
  | 0x48 => atScope 2 w (reserved (sel w 16 5 == 0 && sel w 5 1 == 0) (.srtld (sel w 11 5) (sel w 6 5) (sel w 0 5)))
  | 0x49 => atScope 2 w (reserved (sel w 16 5 == 0 && sel w 6 5 == 0) (.srtgo (sel w 11 5) (sel w 5 1) (sel w 4 1) (sel w 3 1) (sel w 0 3)))
  | 0x4A => atScope 2 w (reserved (sel w 16 5 == 0 && sel w 5 1 == 0) (.srtst (sel w 11 5) (sel w 6 5) (sel w 0 5)))
  | 0x50 => atScope 2 w (one (.bcopy (sel w 16 5) (sel w 11 5) (sel w 6 5) (sel w 5 1) (sel w 0 5)))
  | 0x51 => atScope 2 w (reserved (sel w 0 6 == 0) (.bmcast (sel w 16 5) (sel w 11 5) (sel w 6 5)))
  | 0x52 => atScope 2 w (reserved (sel w 5 1 == 0) (.gath (sel w 16 5) (sel w 11 5) (sel w 6 5) (sel w 0 5)))
  | 0x53 => atScope 2 w (reserved (sel w 0 6 == 0) (.syncw (sel w 16 5) (sel w 11 5) (sel w 6 5)))
  | 0x54 => atScope 2 w (reserved (sel w 16 5 == 0 && sel w 0 6 == 0) (.swait (sel w 11 5) (sel w 6 5)))
  | 0x55 => atScope 2 w (reserved (sel w 5 1 == 0) (.hist (sel w 16 5) (sel w 11 5) (sel w 6 5) (sel w 0 5)))
  | 0x56 => atScope 2 w (reserved (sel w 5 1 == 0) (.qscale (sel w 16 5) (sel w 11 5) (sel w 6 5) (sel w 0 5)))
  | 0x57 => atScope 2 w (reserved (sel w 5 1 == 0) (.coll (sel w 16 5) (sel w 11 5) (sel w 6 5) (sel w 0 5)))
  | 0x58 => atScope 2 w (reserved (sel w 5 16 == 0) (.qjoin (sel w 0 5)))
  | 0x59 => atScope 2 w (reserved (sel w 16 5 == 0 && sel w 0 6 == 0) (.bpref (sel w 11 5) (sel w 6 5)))
  | 0x78 => atScope 1 w (one (.endr (sel w 21 3) (sel w 14 7) (sel w 7 7) (sel w 0 7)))
  | 0x79 => atScope 1 w (one (.endr (sel w 21 3) (sel w 14 7) (sel w 7 7) (sel w 0 7)))
  | 0x7A => atScope 1 w (one (.endr (sel w 21 3) (sel w 14 7) (sel w 7 7) (sel w 0 7)))
  | 0x7B => atScope 1 w (one (.endr (sel w 21 3) (sel w 14 7) (sel w 7 7) (sel w 0 7)))
  | 0x7C => atScope 1 w (one (.endr (sel w 21 3) (sel w 14 7) (sel w 7 7) (sel w 0 7)))
  | 0x7D => atScope 1 w (one (.endr (sel w 21 3) (sel w 14 7) (sel w 7 7) (sel w 0 7)))
  | 0x7E => atScope 1 w (one (.endr (sel w 21 3) (sel w 14 7) (sel w 7 7) (sel w 0 7)))
  | 0x7F => atScope 1 w (one (.endr (sel w 21 3) (sel w 14 7) (sel w 7 7) (sel w 0 7)))
  | _ => .error .unassigned

/-- One instruction from its first word and the word after it, if any (R100). -/
def decode (w : Word) (next : Option Word) : Decoded :=
  if sel w 31 1 == 0 then decodeThread w next else decodeSeq w

/-- A little-endian word from the front of a byte list (R5). -/
def wordOfBytes : List Byte → Option (Word × List Byte)
  | a :: b :: c :: d :: rest => some ((d ++ c ++ b ++ a : BitVec 32), rest)
  | _ => none

/-- The bytes of a word, lowest address first (R5). -/
def bytesOfWord (w : Word) : List Byte := [sel w 0 8, sel w 8 8, sel w 16 8, sel w 24 8]

/-- Decoding of any bytes: the instruction and the bytes after it. -/
def decodeBytes (bs : List Byte) : Except DecodeError (Instr × List Byte) :=
  match wordOfBytes bs with
  | none => .error .truncated
  | some (w, rest) =>
    match decode w ((wordOfBytes rest).map (·.1)) with
    | .ok (i, n) => .ok (i, if n = 2 then rest.drop 4 else rest)
    | .error e => .error e

/-- The instruction the decoder reads from bits numbered as spec/opcode_table.json numbers them: every bit above
`nbits` is zero. -/
def decodeTableWord (nbits w : Nat) : Option Instr :=
  let v := w % 2 ^ nbits
  let first := BitVec.ofNat 32 v
  let second := BitVec.ofNat 32 (v / 2 ^ 32)
  match decodeBytes (bytesOfWord first ++ bytesOfWord second) with
  | .ok (i, _) => some i
  | .error _ => none

/-! ### The encoder -/

def trWord (op : BitVec 8) (f : TR) : Word := op ++ f.d ++ f.a ++ f.b ++ f.g ++ f.s
def t1Word (op : BitVec 8) (f : T1) : Word := op ++ f.d ++ f.a ++ 0#6 ++ f.g ++ f.s
def tiWord (op : BitVec 8) (f : TI) : Word := op ++ f.d ++ f.a ++ f.i ++ f.s
def tcWord (op : BitVec 8) (f : TC) : Word := op ++ f.d ++ f.e ++ f.a ++ f.b ++ f.c ++ f.s
def txWord (x : TX) : Word := 0x7F#8 ++ x.c ++ x.m ++ x.i
def srWord (c : BitVec 3) (op : BitVec 7) (d a b : BitVec 5) (f : BitVec 6) : Word :=
  1#1 ++ c ++ op ++ d ++ a ++ b ++ f

/-- The words of an instruction; a step of another agent has none. -/
def encode : Instr → List Word
  | .iadd f => [trWord 0x00 f]
  | .isub f => [trWord 0x01 f]
  | .imul f => [trWord 0x02 f]
  | .imulhi f => [trWord 0x03 f]
  | .imad f => [trWord 0x04 f]
  | .imadTx f x => [trWord 0x04 f, txWord x]
  | .imin f => [trWord 0x05 f]
  | .imax f => [trWord 0x06 f]
  | .umin f => [trWord 0x07 f]
  | .umax f => [trWord 0x08 f]
  | .and f => [trWord 0x09 f]
  | .or f => [trWord 0x0A f]
  | .xor f => [trWord 0x0B f]
  | .shl f => [trWord 0x0C f]
  | .shr f => [trWord 0x0D f]
  | .sar f => [trWord 0x0E f]
  | .iaddi f => [tiWord 0x0F f]
  | .andi f => [tiWord 0x10 f]
  | .ori f => [tiWord 0x11 f]
  | .shli f => [tiWord 0x12 f]
  | .shri f => [tiWord 0x13 f]
  | .lea f => [trWord 0x14 f]
  | .lea64 f => [trWord 0x15 f]
  | .iadd64 f => [trWord 0x16 f]
  | .popc f => [t1Word 0x17 f]
  | .clz f => [t1Word 0x18 f]
  | .bfe f x => [trWord 0x19 f, txWord x]
  | .bfi f x => [trWord 0x1A f, txWord x]
  | .mov f => [t1Word 0x1B f]
  | .movi d i s => [(0x1C#8 ++ d ++ 0x0#6 ++ i ++ s : BitVec 32)]
  | .movs d a h g s => [(0x1D#8 ++ d ++ a ++ 0x0#5 ++ h ++ g ++ s : BitVec 32)]
  | .sel f => [trWord 0x1E f]
  | .fadd f => [trWord 0x20 f]
  | .faddTx f x => [trWord 0x20 f, txWord x]
  | .fsub f => [trWord 0x21 f]
  | .fsubTx f x => [trWord 0x21 f, txWord x]
  | .fmul f => [trWord 0x22 f]
  | .fmulTx f x => [trWord 0x22 f, txWord x]
  | .ffma f => [trWord 0x23 f]
  | .ffmaTx f x => [trWord 0x23 f, txWord x]
  | .fmin f => [trWord 0x24 f]
  | .fmax f => [trWord 0x25 f]
  | .fdiv f => [trWord 0x26 f]
  | .fdivTx f x => [trWord 0x26 f, txWord x]
  | .fabs f => [t1Word 0x27 f]
  | .dadd f => [trWord 0x28 f]
  | .daddTx f x => [trWord 0x28 f, txWord x]
  | .dsub f => [trWord 0x29 f]
  | .dsubTx f x => [trWord 0x29 f, txWord x]
  | .dmul f => [trWord 0x2A f]
  | .dmulTx f x => [trWord 0x2A f, txWord x]
  | .dfma f => [trWord 0x2B f]
  | .dfmaTx f x => [trWord 0x2B f, txWord x]
  | .dmin f => [trWord 0x2C f]
  | .dmax f => [trWord 0x2D f]
  | .ddiv f => [trWord 0x2E f]
  | .ddivTx f x => [trWord 0x2E f, txWord x]
  | .dabs f => [t1Word 0x2F f]
  | .hadd f => [trWord 0x30 f]
  | .hmul f => [trWord 0x31 f]
  | .hfma f => [trWord 0x32 f]
  | .hfmaTx f x => [trWord 0x32 f, txWord x]
  | .badd f => [trWord 0x33 f]
  | .bmul f => [trWord 0x34 f]
  | .bfma f => [trWord 0x35 f]
  | .bfmaTx f x => [trWord 0x35 f, txWord x]
  | .hadd2 f => [trWord 0x36 f]
  | .hmul2 f => [trWord 0x37 f]
  | .hfma2 f => [trWord 0x38 f]
  | .hfma2Tx f x => [trWord 0x38 f, txWord x]
  | .hmax2 f => [trWord 0x39 f]
  | .hmin2 f => [trWord 0x3A f]
  | .badd2 f => [trWord 0x3B f]
  | .bmul2 f => [trWord 0x3C f]
  | .bfma2 f => [trWord 0x3D f]
  | .bfma2Tx f x => [trWord 0x3D f, txWord x]
  | .bmax2 f => [trWord 0x3E f]
  | .bmin2 f => [trWord 0x3F f]
  | .frcp f => [t1Word 0x40 f]
  | .frsq f => [t1Word 0x41 f]
  | .fsqrt f => [t1Word 0x42 f]
  | .fexp2 f => [t1Word 0x43 f]
  | .flog2 f => [t1Word 0x44 f]
  | .fsin f => [t1Word 0x45 f]
  | .fcos f => [t1Word 0x46 f]
  | .ftanh f => [t1Word 0x47 f]
  | .cvtf f x => [trWord 0x48 f, txWord x]
  | .cvtfi f x => [trWord 0x49 f, txWord x]
  | .cvtif f x => [trWord 0x4A f, txWord x]
  | .cvtii f x => [trWord 0x4B f, txWord x]
  | .qenc f x => [trWord 0x4C f, txWord x]
  | .qdec f x => [trWord 0x4D f, txWord x]
  | .fclass f => [trWord 0x4E f]
  | .fqrcp f => [t1Word 0x4F f]
  | .icmpEq f => [tcWord 0x50 f]
  | .icmpNe f => [tcWord 0x51 f]
  | .icmpLt f => [tcWord 0x52 f]
  | .icmpLe f => [tcWord 0x53 f]
  | .icmpLtu f => [tcWord 0x54 f]
  | .icmpLeu f => [tcWord 0x55 f]
  | .fcmpEq f => [tcWord 0x56 f]
  | .fcmpLt f => [tcWord 0x57 f]
  | .fcmpLe f => [tcWord 0x58 f]
  | .fcmpUn f => [tcWord 0x59 f]
  | .dcmpEq f => [tcWord 0x5A f]
  | .dcmpLt f => [tcWord 0x5B f]
  | .dcmpLe f => [tcWord 0x5C f]
  | .dcmpUn f => [tcWord 0x5D f]
  | .plop d e a b t c s => [(0x5E#8 ++ d ++ e ++ a ++ b ++ 0x0#2 ++ t ++ c ++ s : BitVec 32)]
  | .xrot f => [trWord 0x60 f]
  | .xbfly f => [trWord 0x61 f]
  | .xbcast f => [trWord 0x62 f]
  | .xrev f => [trWord 0x63 f]
  | .redx f x => [trWord 0x64 f, txWord x]
  | .scanx f x => [trWord 0x65 f, txWord x]
  | .vote k p o m s => [(0x66#8 ++ k ++ p ++ 0x0#8 ++ o ++ m ++ 0x0#3 ++ s : BitVec 32)]
  | .ld f x => [trWord 0x68 f, txWord x]
  | .st f x => [trWord 0x69 f, txWord x]
  | .lds f x => [trWord 0x6A f, txWord x]
  | .sts f x => [trWord 0x6B f, txWord x]
  | .sld f x => [trWord 0x6C f, txWord x]
  | .sst f x => [trWord 0x6D f, txWord x]
  | .atom f x => [trWord 0x6E f, txWord x]
  | .atoms f x => [trWord 0x6F f, txWord x]
  | .cas f x => [trWord 0x70 f, txWord x]
  | .cass f x => [trWord 0x71 f, txWord x]
  | .fence f x => [trWord 0x72 f, txWord x]
  | .cpa f x => [trWord 0x73 f, txWord x]
  | .few f => [t1Word 0x74 f]
  | .fer f => [t1Word 0x75 f]
  | .fepeek f => [t1Word 0x76 f]
  | .xperm f => [trWord 0x77 f]
  | .nop c => [(0x1#1 ++ c ++ 0x0#28 : BitVec 32)]
  | .sadd f => [srWord f.c 0x01 f.d f.a f.b 0]
  | .ssub f => [srWord f.c 0x02 f.d f.a f.b 0]
  | .smul f => [srWord f.c 0x03 f.d f.a f.b 0]
  | .sand f => [srWord f.c 0x04 f.d f.a f.b 0]
  | .sor f => [srWord f.c 0x05 f.d f.a f.b 0]
  | .sxor f => [srWord f.c 0x06 f.d f.a f.b 0]
  | .sshl f => [srWord f.c 0x07 f.d f.a f.b 0]
  | .sshr f => [srWord f.c 0x08 f.d f.a f.b 0]
  | .ssar f => [srWord f.c 0x09 f.d f.a f.b 0]
  | .smin f u => [srWord f.c 0x0A f.d f.a f.b (0#5 ++ u)]
  | .smax f u => [srWord f.c 0x0B f.d f.a f.b (0#5 ++ u)]
  | .smovi c d i => [(0x1#1 ++ c ++ 0xC#7 ++ d ++ i : BitVec 32)]
  | .slui c d i => [(0x1#1 ++ c ++ 0xD#7 ++ d ++ i : BitVec 32)]
  | .saddi c d i => [(0x1#1 ++ c ++ 0xE#7 ++ d ++ i : BitVec 32)]
  | .scmp c k a b f => [(0x1#1 ++ c ++ 0x3C#9 ++ k ++ a ++ b ++ 0x0#3 ++ f : BitVec 32)]
  | .kop c k a b t => [(0x1#1 ++ c ++ 0x40#9 ++ k ++ 0x0#2 ++ a ++ 0x0#2 ++ b ++ 0x0#2 ++ t : BitVec 32)]
  | .tkrd c d f => [(0x1#1 ++ c ++ 0x11#7 ++ d ++ 0x0#14 ++ f : BitVec 32)]
  | .strd c d h i => [(0x1#1 ++ c ++ 0x12#7 ++ d ++ 0x0#10 ++ h ++ i : BitVec 32)]
  | .stwr c a h i => [(0x1#1 ++ c ++ 0x260#12 ++ a ++ 0x0#5 ++ h ++ i : BitVec 32)]
  | .sldg c d a i => [(0x1#1 ++ c ++ 0x14#7 ++ d ++ a ++ 0x0#5 ++ i : BitVec 32)]
  | .sstg c d a i => [(0x1#1 ++ c ++ 0x15#7 ++ d ++ a ++ 0x0#5 ++ i : BitVec 32)]
  | .br c k n o => [(0x1#1 ++ c ++ 0x20#7 ++ k ++ n ++ o : BitVec 32)]
  | .jmp c o => [(0x1#1 ++ c ++ 0x210#11 ++ o : BitVec 32)]
  | .call c o => [(0x1#1 ++ c ++ 0x220#11 ++ o : BitVec 32)]
  | .ret c => [(0x1#1 ++ c ++ 0x4600000#28 : BitVec 32)]
  | .loop c i => [(0x1#1 ++ c ++ 0x480#12 ++ i : BitVec 32)]
  | .loopr c a => [(0x1#1 ++ c ++ 0x4A0#12 ++ a ++ 0x0#11 : BitVec 32)]
  | .endl c => [(0x1#1 ++ c ++ 0x4C00000#28 : BitVec 32)]
  | .brk c k n o => [(0x1#1 ++ c ++ 0x27#7 ++ k ++ n ++ o : BitVec 32)]
  | .ifT p n => [(0x21400#18 ++ p ++ 0x0#10 ++ n : BitVec 32)]
  | .elseT => [(0x85200000#32 : BitVec 32)]
  | .fiT => [(0x85400000#32 : BitVec 32)]
  | .run t l a => [(0x4AB#11 ++ t ++ l ++ a ++ 0x0#3 : BitVec 32)]
  | .endr t a b c => [(0x9F#8 ++ t ++ a ++ b ++ c : BitVec 32)]
  | .exit c => [(0x1#1 ++ c ++ 0x5800000#28 : BitVec 32)]
  | .yield c => [(0x1#1 ++ c ++ 0x5A00000#28 : BitVec 32)]
  | .acq => [(0xA5C00000#32 : BitVec 32)]
  | .arrive c f => [(0x1#1 ++ c ++ 0x180000#22 ++ f : BitVec 32)]
  | .wait c f => [(0x1#1 ++ c ++ 0x188000#22 ++ f : BitVec 32)]
  | .grpset a b l x => [(0xB640#16 ++ a ++ b ++ 0x0#3 ++ l ++ x : BitVec 32)]
  | .flagset a q => [(0xA660#16 ++ a ++ 0x0#8 ++ q : BitVec 32)]
  | .cpwait t => [(0x12D00000#29 ++ t : BitVec 32)]
  | .enter a => [(0x96A0#16 ++ a ++ 0x0#11 : BitVec 32)]
  | .leave => [(0x96C00000#32 : BitVec 32)]
  | .trap x => [(0x25B8000#26 ++ x : BitVec 32)]
  | .tret => [(0x97000000#32 : BitVec 32)]
  | .wpset a x n => [(0x9720#16 ++ a ++ 0x0#6 ++ x ++ n : BitVec 32)]
  | .dbgrd d a => [(0x4BA#11 ++ d ++ a ++ 0x0#11 : BitVec 32)]
  | .dbgwr a b => [(0x9760#16 ++ a ++ b ++ 0x0#6 : BitVec 32)]
  | .lstep d a => [(0x4BC#11 ++ d ++ a ++ 0x0#11 : BitVec 32)]
  | .wresume a b j => [(0x97A0#16 ++ a ++ b ++ 0x0#5 ++ j : BitVec 32)]
  | .mpred a b o c n => [(0xA800#16 ++ a ++ b ++ 0x0#2 ++ o ++ c ++ n : BitVec 32)]
  | .mzero a k r => [(0xA820#16 ++ a ++ 0x0#7 ++ k ++ r : BitVec 32)]
  | .mldw a n f => [(0xA840#16 ++ a ++ 0x0#7 ++ n ++ f : BitVec 32)]
  | .mswap => [(0xA8600000#32 : BitVec 32)]
  | .mstrm a b f k r => [(0xA880#16 ++ a ++ b ++ f ++ k ++ r : BitVec 32)]
  | .mcpy v x a b k r => [(0xA8A#12 ++ v ++ x ++ a ++ b ++ 0x0#2 ++ k ++ r : BitVec 32)]
  | .mfence d => [(0x546#11 ++ d ++ 0x0#16 : BitVec 32)]
  | .mwait a => [(0xA8E0#16 ++ a ++ 0x0#11 : BitVec 32)]
  | .srtld a b w => [(0xA900#16 ++ a ++ b ++ 0x0#1 ++ w : BitVec 32)]
  | .srtgo a o e l k => [(0xA920#16 ++ a ++ 0x0#5 ++ o ++ e ++ l ++ k : BitVec 32)]
  | .srtst a b w => [(0xA940#16 ++ a ++ b ++ 0x0#1 ++ w : BitVec 32)]
  | .bcopy d a b x w => [(0x550#11 ++ d ++ a ++ b ++ x ++ w : BitVec 32)]
  | .bmcast d a b => [(0x551#11 ++ d ++ a ++ b ++ 0x0#6 : BitVec 32)]
  | .gath d a b w => [(0x552#11 ++ d ++ a ++ b ++ 0x0#1 ++ w : BitVec 32)]
  | .syncw d a b => [(0x553#11 ++ d ++ a ++ b ++ 0x0#6 : BitVec 32)]
  | .swait a b => [(0xAA80#16 ++ a ++ b ++ 0x0#6 : BitVec 32)]
  | .hist d a b w => [(0x555#11 ++ d ++ a ++ b ++ 0x0#1 ++ w : BitVec 32)]
  | .qscale d a b w => [(0x556#11 ++ d ++ a ++ b ++ 0x0#1 ++ w : BitVec 32)]
  | .coll d a b w => [(0x557#11 ++ d ++ a ++ b ++ 0x0#1 ++ w : BitVec 32)]
  | .qjoin m => [(0x5580000#27 ++ m : BitVec 32)]
  | .bpref a b => [(0xAB20#16 ++ a ++ b ++ 0x0#6 : BitVec 32)]
  | .illegalInstruction => []
  | .faultRecordWrite _ => []
  | .waveReplay _ => []
  | .loadWriteback _ _ => []
  | .tokenPop _ => []
  | .barrierRelease _ _ => []
  | .voteInstanceComplete _ => []
  | .acqGrant _ => []
  | .engineCommandStart _ _ => []
  | .engineUnitWrite _ _ _ => []
  | .cpaLanding _ _ => []
  | .matrixGrant _ => []
  | .sortStep _ => []
  | .sortTransferRow _ => []
  | .multicastGranule _ _ => []
  | .collInstanceComplete _ _ _ => []
  | .blockEnd _ => []
  | .blockPlacement _ _ => []
  | .launchAdmission _ => []
  | .gangRetry _ => []
  | .graphNode _ => []
  | .launch _ => []
  | .gang _ => []
  | .graph _ => []
  | .vwrite _ => []
  | .vwait _ => []
  | .vwaitPoll _ => []
  | .qfence _ => []
  | .codepub _ => []
  | .capstart _ => []
  | .capstop _ => []
  | .kickPageWrite _ _ => []
  | .ringRescan _ => []
  | .pipelineRevision _ => []
  | .pluginAnswerTimeout _ _ => []
  | .tenantPeriodBoundary _ => []
  | .wavePromotion _ => []
  | .progressFault _ => []
  | .preemptionRequest _ => []
  | .forcedSave _ => []
  | .contextRestore _ => []
  | .pcSample _ => []
  | .taggedRecord _ => []
  | .xlinvcOnePage _ _ _ => []
  | .xlinvcWholePasid _ _ => []
  | .xlinvcAllPasids _ => []
  | .invalidationComplete _ => []
  | .xlrespRetry _ _ => []
  | .xlrespFail _ _ => []
  | .ctxcmdCreate _ => []
  | .ctxcmdDestroy _ => []
  | .qcmdEnable _ _ => []
  | .qcmdDisable _ _ => []
  | .tperiodWrite _ _ => []
  | .pwrlimWrite _ => []
  | .registerWrite _ _ _ => []
  | .atsInvalidationRequest _ => []
  | .invalidationCompletionSend _ => []
  | .atsTranslationCompletion _ => []
  | .prgResponse _ => []
  | .functionLevelReset _ => []
  | .hotReset => []
  | .powerUp => []
  | .straitLinkDown _ => []
  | .peerAccess _ => []
  | .unitSelfTest _ _ _ => []
  | .attestationReport _ => []
  | .operatorKeyEnrol _ => []
  | .powerArbiterTick _ _ _ => []
  | .fixedLatencyResultWrite _ => []
  | .tenantTokenCharge _ => []
  | .pluginAnswer _ _ _ => []
  | .powerLoss => []
  | .storedBitError _ => []
  | .flitCrcFailure _ => []
  | .configurationRequest _ _ _ => []

/-- The bytes of an instruction in memory, first word at the lowest address (R5). -/
def encodeBytes (i : Instr) : List Byte := (encode i).flatMap bytesOfWord

end Sys2Proof
end

