-- ==== Sys2Proof/Machine/Legal.lean ====
section
/-!
DEFINITION. Sys2Proof/Machine/Legal.lean: which field values an instruction defines (R117). A word whose fields are not
legal decodes to its row and raises the illegal-instruction fault when an agent of its scope reaches it.
-/

namespace Sys2Proof.Machine

/-- A field that names a pair is even (R102). -/
def evenField (f : BitVec 6) : Bool := f.getLsbD 0 == false

/-- Stall and guard take every value; nothing to check in a plain TR word. -/
def legalPairs (fs : List (BitVec 6)) : Bool := fs.all evenField

/-- ct is a defined type, and pd and pe differ unless both are p7 (R101). -/
def legalCombine (d e c : BitVec 3) : Bool := c != 7 && (d != e || d == 7)

/-- A TX word that carries a rounding mode alone (R154); `modes` says whether a mode other than RNE is legal. -/
def legalRound (modes : Bool) (x : TX) : Bool :=
  x.m.toNat < (if modes then 4 else 1) && x.i == 0

/-- BFE and BFI (R151). -/
def legalField (x : TX) (signed : Bool) : Bool :=
  x.c == 0 && x.m == 0 && x.i.getLsbD 11 == false && (signed || x.i.getLsbD 10 == false) &&
  (x.i.toNat % 32 + x.i.toNat / 32 % 32 + 1 ≤ 32)

/-- The offset codes of R167: the distance, or `none` where the code is reserved or gives less than 1. -/
def crossDistance (o : BitVec 6) : Option Nat :=
  if o.toNat < 32 then (if o.toNat = 0 then none else some o.toNat)
  else if o.toNat < 40 then
    let d := 64 / 2 ^ (o.toNat - 32)
    if d = 0 then none else some d
  else none

/-- The distance is legal for XROT, XBFLY and XREV (R167, R168). -/
def legalCross (o : BitVec 6) (butterfly reversal : Bool) : Bool :=
  match crossDistance o with
  | none => false
  | some d => (!butterfly || d < 64) && (!reversal || d ∈ [1, 2, 4, 8, 16, 32, 64])

/-- REDX and SCANX (R170). -/
def legalReduce (f : TR) (x : TX) (scan : Bool) : Bool :=
  f.b == 0 && x.c == 0 && x.m.getLsbD 5 == false && (x.m.toNat % 16 ≤ 10) && (scan || x.m.getLsbD 4 == false) &&
  x.i.toNat < 6

/-- The conversion combinations of R161. -/
def legalConvert (op : Nat) (f : TR) (x : TX) : Bool :=
  let pack := x.m.toNat % 2
  let elem := x.m.toNat / 2 % 8
  let src := x.i.toNat % 16
  let dst := x.i.toNat / 16 % 16
  let rm := x.i.toNat / 256 % 4
  let satm := x.i.toNat / 1024
  let oddOk := (src != 0 || evenField f.a) && (dst != 0 || evenField f.d)
  let common := x.c == 0 && x.m.toNat / 16 == 0 && (pack == 1 || f.b == 0) && oddOk
  let plain := satm == 0 && pack == 0
  let combo := match op with
    | 0x48 => -- CVTF
      (src == 1 && dst == 0 && rm == 0 && plain && elem == 0) ||
      (src == 0 && dst == 1 && satm ≤ 2 && pack == 0 && elem == 0) ||
      (src == 1 && (dst == 2 || dst == 3) && rm == 0 && satm ≤ 2 && elem == 0) ||
      (src == 1 && (dst == 4 || dst == 5) && rm == 0 && satm ≤ 2 && pack == 0 && elem == 0) ||
      ((src == 2 || src == 3) && dst == 1 && rm == 0 && plain && elem ≤ 1) ||
      ((src == 4 || src == 5) && dst == 1 && rm == 0 && plain && elem ≤ 3)
    | 0x49 => -- CVTFI
      src ≤ 3 && plain && (if src ≤ 1 then elem == 0 else elem ≤ 1) &&
        (dst == 6 || ((dst == 7 || dst == 8) && rm == 0))
    | 0x4A => -- CVTIF
      plain && ((src == 6 && dst == 1 && elem == 0) ||
        (rm == 0 && ((src == 6 && dst == 0 && elem == 0) ||
          ((src == 7 && elem ≤ 3 || src == 8) && (dst == 0 || dst == 1)))))
    | _ => -- CVTII
      plain && rm == 0 && src != dst && 6 ≤ src && src ≤ 8 && 6 ≤ dst && dst ≤ 8 &&
        (src != 6 || elem == 0) && (src != 7 || elem ≤ 3)
  common && combo

/-- DT codes of LD, ST, LDS and STS with their register alignment (R121, R127). -/
def legalData (dt : Nat) (reg : BitVec 6) (load decode : Bool) : Bool :=
  (dt ≤ 8) && (load || (dt != 1 && dt != 3)) && (dt ≤ 6 || decode) &&
  (dt != 5 && dt != 8 || evenField reg) && (dt != 6 || reg.toNat % 4 == 0)

/-- LD, ST, LDS, STS (R119 to R121). -/
def legalPlainMem (f : TR) (x : TX) (isGlobal load decode : Bool) : Bool :=
  x.c == 0 && legalData (x.m.toNat / 4) f.d load decode && (!isGlobal || evenField f.a) &&
  (x.m.toNat % 4 != 0 || f.b == 0)

/-- SLD and SST (R120, R128). -/
def legalStrong (f : TR) (x : TX) (load : Bool) : Bool :=
  let dt := x.c.toNat / 8
  let space := x.c.getLsbD 2
  let ix := x.c.toNat % 4
  let ord := x.m.toNat / 8
  let scp := x.m.toNat % 8
  (dt == 4 || dt == 5) && (dt != 5 || evenField f.d) && (space || evenField f.a) && (ix != 0 || f.b == 0) &&
  scp ≤ 5 && (ord == 0 || ord == 4 || ord == (if load then 1 else 2))

/-- ATOM and ATOMS (R120, R131, R132). -/
def legalAtomic (f : TR) (x : TX) (isGlobal : Bool) : Bool :=
  let aop := x.c.toNat / 4
  let wide := x.c.getLsbD 1
  let noret := x.c.getLsbD 0
  aop ≤ 14 && x.m.toNat / 8 ≤ 4 && x.m.toNat % 8 ≤ 5 && (!isGlobal || evenField f.a) &&
  (!wide || (evenField f.d && evenField f.b && aop != 9 && aop != 10 && aop != 14)) && (!noret || f.d == 0)

/-- CAS and CASS (R120, R133). -/
def legalCas (f : TR) (x : TX) (isGlobal : Bool) : Bool :=
  x.m.toNat / 8 ≤ 4 && x.m.toNat % 8 ≤ 5 && (!isGlobal || evenField f.a) &&
  (x.i.getLsbD 11 == false || (evenField f.d && evenField f.b && evenField x.c))

/-- A scope code of wave, block or grid (R104, R115). -/
def scopeWBG (c : BitVec 3) : Bool := c == 1 || c == 2 || c == 3

/-- Sequencer register fields: a grid register is 0 to 15 (R104). -/
def seqRegs (c : BitVec 3) (rs : List (BitVec 5)) : Bool := c != 3 || rs.all fun r => r.getLsbD 4 == false

/-- A status index at its scope (R93). -/
def legalStatus (c : BitVec 3) (h : BitVec 1) (i : BitVec 5) : Bool :=
  if c = 1 then i.toNat ≤ 11 && (h == 0 || i == 1 || i == 2 || i == 6)
  else if c = 2 then 16 ≤ i.toNat && i.toNat ≤ 25 && h == 0
  else c == 3 && i == 26 && h == 0

/-- A publish slot whose valid bit is 0 names register 0 (R106). -/
def legalSlot (x : BitVec 7) : Bool := x.getLsbD 6 || x == 0

/-- The func values of ARRIVE and WAIT (R252). -/
def legalBarrier (c : BitVec 3) (f : BitVec 6) : Bool :=
  if c = 1 then f.toNat < 16
  else if c = 2 then f.toNat < 17 || (32 ≤ f.toNat && f.toNat < 36)
  else c == 3 && f == 0

/-- The fields of an instruction hold values that it defines (R117), whatever the state. -/
def staticLegal : Instr → Bool
  | .imadTx f x =>
    x.i == 0 && x.m.toNat < 4 && (x.m.getLsbD 0 || !x.m.getLsbD 1) &&
    (!x.m.getLsbD 0 || legalPairs [f.d, x.c])
  | .shli f | .shri f => f.i.toNat < 32
  | .lea64 f => legalPairs [f.d, f.a]
  | .iadd64 f => legalPairs [f.d, f.a, f.b]
  | .bfe f x => f.b == 0 && legalField x true
  | .bfi _ x => legalField x false
  | .movs _ a h _ _ => a.toNat < 34 && (a.toNat < 32 || h == 0)
  | .faddTx _ x | .fsubTx _ x | .fmulTx _ x | .fdivTx _ x => x.c == 0 && legalRound true x
  | .ffmaTx _ x => legalRound true x
  | .dadd f | .dsub f | .dmul f | .dfma f | .dmin f | .dmax f | .ddiv f => legalPairs [f.d, f.a, f.b]
  | .dabs f => legalPairs [f.d, f.a]
  | .daddTx f x | .dsubTx f x | .dmulTx f x | .ddivTx f x =>
    legalPairs [f.d, f.a, f.b] && x.c == 0 && legalRound true x
  | .dfmaTx f x => legalPairs [f.d, f.a, f.b, x.c] && legalRound true x
  | .hfmaTx _ x | .bfmaTx _ x | .hfma2Tx _ x | .bfma2Tx _ x => legalRound false x
  | .cvtf f x => legalConvert 0x48 f x
  | .cvtfi f x => legalConvert 0x49 f x
  | .cvtif f x => legalConvert 0x4A f x
  | .cvtii f x => legalConvert 0x4B f x
  | .qenc _ x | .qdec _ x => x.c == 0 && x.i == 0 && x.m.toNat < 8
  | .fclass f => f.b.toNat < 5
  | .icmpEq f | .icmpNe f | .icmpLt f | .icmpLe f | .icmpLtu f | .icmpLeu f
  | .fcmpEq f | .fcmpLt f | .fcmpLe f | .fcmpUn f => legalCombine f.d f.e f.c
  | .dcmpEq f | .dcmpLt f | .dcmpLe f | .dcmpUn f => legalCombine f.d f.e f.c && legalPairs [f.a, f.b]
  | .plop d e _ _ _ c _ => legalCombine d e c
  | .xrot f => legalCross f.b false false
  | .xbfly f => legalCross f.b true false
  | .xrev f => legalCross f.b false true
  | .redx f x => legalReduce f x false
  | .scanx f x => legalReduce f x true
  | .vote _ _ o m _ => o != 0 && m != 3
  | .ld f x => legalPlainMem f x true true true
  | .st f x => legalPlainMem f x true false false
  | .lds f x => legalPlainMem f x false true false
  | .sts f x => legalPlainMem f x false false false
  | .sld f x => legalStrong f x true
  | .sst f x => legalStrong f x false
  | .atom f x => legalAtomic f x true
  | .atoms f x => legalAtomic f x false
  | .cas f x => legalCas f x true
  | .cass f x => legalCas f x false
  | .fence f x =>
    f.d == 0 && f.a == 0 && f.b == 0 && f.g == 0 && x.c == 0 && x.i == 0 &&
    1 ≤ x.m.toNat / 8 && x.m.toNat / 8 ≤ 4 && x.m.toNat % 8 ≤ 5
  | .cpa f x => evenField f.a && x.c == 0 && x.m.getLsbD 3 == false
  | .nop c | .ret c | .endl c | .exit c => scopeWBG c
  | .sadd f | .ssub f | .smul f | .sand f | .sor f | .sxor f | .sshl f | .sshr f | .ssar f =>
    scopeWBG f.c && seqRegs f.c [f.d, f.a, f.b]
  | .smin f _ | .smax f _ => scopeWBG f.c && seqRegs f.c [f.d, f.a, f.b]
  | .smovi c d _ | .slui c d _ | .saddi c d _ => scopeWBG c && seqRegs c [d]
  | .scmp c _ a b f => scopeWBG c && seqRegs c [a, b] && f.toNat < 6
  | .kop c _ _ _ _ => scopeWBG c
  | .tkrd c _ f => (c == 1 || c == 2) && f != 3
  | .strd c d h i => legalStatus c h i && seqRegs c [d]
  | .stwr c a h i => legalStatus c h i && seqRegs c [a]
  | .sldg c d a _ | .sstg c d a _ => scopeWBG c && seqRegs c [d, a]
  | .br c _ _ _ | .brk c _ _ _ => scopeWBG c
  | .jmp c _ | .call c _ => scopeWBG c
  | .loop c _ => scopeWBG c
  | .loopr c a => scopeWBG c && seqRegs c [a]
  | .run t _ _ => t.toNat ≤ 8
  | .endr _ a b c => legalSlot a && legalSlot b && legalSlot c
  | .yield c => c == 1 || c == 2
  | .arrive c f | .wait c f => legalBarrier c f
  | .grpset a b _ _ => seqRegs 3 [a, b]
  | .mldw _ n f => f != 0 && f != 6 && (n == 0 || f == 7)
  | .mcpy v _ _ _ _ _ => v.toNat < 4
  | .srtgo _ _ _ _ k => k != 7
  | .qjoin m => m != 0
  | _ => true

end Sys2Proof.Machine
end

