-- ==== Sys2Proof/Config.lean ====
section
/-!
DEFINITION. Sys2Proof/Config.lean: what the manual leaves open, as free values without a body, and the constants
that a part fixes (notes/assumptions 6, 7, 8, 9, 16, 17).
-/

namespace Sys2Proof.Config

/-- The value a special function returns, before the bound of R158 is checked; operation by its opcode.
Free value (log 7). -/
opaque specialCode : Nat → Word → Word

/-- Which of the old (false) and the new value a broken stall count reads (R112). Free value (log 6). -/
opaque staleChoice : Nat → Bool

/-- A free 64-bit value, one for each value of the fresh counter (logs 6, 16). -/
opaque freeDword : Nat → Dword

/-- PARTID.STEP, fixed per part (R377, log 9). -/
opaque partStep : BitVec 8

/-- Whether the monitor image of an isle passes its checks (R393, log 17). -/
opaque monitorRuns : Nat → Bool

/-- Whether the far cache holds a granule when it is accessed, by the clock and the granule (R368). Free value (log 16). -/
opaque farHit : Nat → Nat → Bool

/-- The cycles of a context between two steps of the model in which an agent of it is placed, outside those in which it is wholly
switched out (R369). Free value (log 16). -/
opaque windowCycles : Nat → Nat → Nat → Nat

/-- The whole milliseconds between two steps of the model (R370). Free value (log 16). -/
opaque elapsedMs : Nat → Nat → Nat

/-- A shared counter: by its offset in the counter block, the context, the step at which its window opened, the step at which it
is read, and how many milliseconds before (R369, R370). Free value (log 16). -/
opaque sharedCount : Nat → Nat → Nat → Nat → Nat → Dword

/-- Two corrected errors, by the steps at which they came, lie within one second (R395). Free value (log 17). -/
opaque withinSecond : Nat → Nat → Bool

/-- The page requests that the PRI capability allocates to a function, beyond the first (R389). Free value (log 13). -/
opaque priAllocation : Nat → Nat

/-- A plug-in image of a tenant passes its checks under an operator key (R393). Free value (log 17). -/
opaque pluginRuns : Nat → List Byte → Bool

/-- The scheduler image of an isle passes its checks (R393). Free value (log 17). -/
opaque schedulerRuns : Nat → Bool

/-- The security version and the digest of a firmware image: 0 boot ROM, 1 monitor, 2 scheduler, 3 + t the plug-in of tenant t
(R393, R394). Free values (log 17). -/
opaque imageVersion : Nat → Nat
opaque imageDigest : Nat → List Byte

/-- What fails the tests of power-up: a core, by its number in the package, and the frames of an isle
(R395, R399). Free values (log 17). -/
opaque coreFails : Nat → Bool
opaque failedFrames : Nat → List Nat

/-- The combination tree of an FP collective SUM: the free choice of which pair is combined next (R84, log 8). -/
opaque collTree : Nat → Nat

/-- The signature by the device key, at a one-time index, over a message (R393, R394, log 17). -/
opaque signature : Nat → List Byte → List Byte

/-- The digest of a byte string that the monitor measures (R393, R394, log 17). -/
opaque digest : List Byte → List Byte

end Sys2Proof.Config
end

