-- ==== Sys2Proof/Machine/Flags.lean ====
section
/-!
DEFINITION. Sys2Proof/Machine/Flags.lean: number formats, exact values, rounding and the FPSTAT flags
(spec/04, R31 to R50; R155 and R156 of spec/10).
-/

namespace Sys2Proof.Machine

/-- The sticky flags of FPSTAT, bits 5:0 of R46: IV, DZ, OF, UF, IX, FL. -/
abbrev FpFlags := BitVec 6

def flagIV : FpFlags := 1
def flagDZ : FpFlags := 2
def flagOF : FpFlags := 4
def flagUF : FpFlags := 8
def flagIX : FpFlags := 16
def flagFL : FpFlags := 32

/-- The floating-point formats of R31. -/
inductive FpFormat where
  | fp64 | fp32 | fp16 | bf16 | e5m2 | e4m3
  deriving DecidableEq, Repr


/-- Fraction width F of a format (R31). -/
def fracBits : FpFormat → Nat
  | .fp64 => 52 | .fp32 => 23 | .fp16 => 10 | .bf16 => 7 | .e5m2 => 2 | .e4m3 => 3

/-- Exponent width of a format (R31). -/
def expBits : FpFormat → Nat
  | .fp64 => 11 | .fp32 => 8 | .fp16 => 5 | .bf16 => 8 | .e5m2 => 5 | .e4m3 => 4

/-- Exponent bias of a format (R31). -/
def expBias : FpFormat → Nat
  | .fp64 => 1023 | .fp32 => 127 | .fp16 => 15 | .bf16 => 127 | .e5m2 => 15 | .e4m3 => 7

/-- Width of a format in bits (R31). -/
def fmtWidth (f : FpFormat) : Nat := 1 + expBits f + fracBits f

/-- Arithmetic in these formats flushes subnormals (R40). -/
def flushes : FpFormat → Bool
  | .fp64 | .fp32 => false
  | .fp16 | .bf16 | .e5m2 | .e4m3 => true

/-- The canonical NaN of a format (R41). -/
def canonNaN : FpFormat → Nat
  | .fp64 => 0x7FF8000000000000 | .fp32 => 0x7FC00000 | .fp16 => 0x7E00
  | .bf16 => 0x7FC0 | .e5m2 => 0x7E | .e4m3 => 0x7F

/-- The largest finite code of a format, sign clear (R31, R32). -/
def maxFinite : FpFormat → Nat
  | .fp64 => 0x7FEFFFFFFFFFFFFF | .fp32 => 0x7F7FFFFF | .fp16 => 0x7BFF
  | .bf16 => 0x7F7F | .e5m2 => 0x7B | .e4m3 => 0x7E

/-- The code of plus infinity; E4M3 has none (R32), and its entry is never used. -/
def infCode : FpFormat → Nat
  | .fp64 => 0x7FF0000000000000 | .fp32 => 0x7F800000 | .fp16 => 0x7C00
  | .bf16 => 0x7F80 | .e5m2 => 0x7C | .e4m3 => 0x7F

/-- The sign bit of a format as a number. -/
def signBit (f : FpFormat) : Nat := 2 ^ (expBits f + fracBits f)

/-- A floating-point value: a NaN, a signed infinity, or (−1)^neg · mant · 2^exp exactly. -/
inductive FpVal where
  | nan
  | inf (neg : Bool)
  | num (neg : Bool) (mant : Nat) (exp : Int)
  deriving DecidableEq, Repr

/-- The exact value of a code, subnormals included (R31, R32). -/
def fpDecode (f : FpFormat) (code : Nat) : FpVal :=
  let frac := code % 2 ^ fracBits f
  let e := code / 2 ^ fracBits f % 2 ^ expBits f
  let neg := code / signBit f % 2 == 1
  let isTop := e == 2 ^ expBits f - 1
  if isTop && f == .e4m3 && frac == 7 then .nan
  else if isTop && f != .e4m3 then (if frac == 0 then .inf neg else .nan)
  else if e == 0 then .num neg frac (1 - (expBias f : Int) - fracBits f)
  else .num neg (frac + 2 ^ fracBits f) ((e : Int) - expBias f - fracBits f)

/-- A code names a subnormal value (R31). -/
def isSubnormal (f : FpFormat) (code : Nat) : Bool :=
  code / 2 ^ fracBits f % 2 ^ expBits f == 0 && code % 2 ^ fracBits f != 0

/-- A code names a NaN (R31, R32). -/
def isNaN (f : FpFormat) (code : Nat) : Bool := fpDecode f code == .nan

/-- A source as arithmetic reads it, with the FL flag where a flushing width reads a subnormal as
zero of its sign (R40, R47). -/
def readSource (f : FpFormat) (code : Nat) : FpVal × FpFlags :=
  if flushes f && isSubnormal f code then (.num (code / signBit f % 2 == 1) 0 0, flagFL)
  else (fpDecode f code, 0)

/-- The rounding modes of R38. -/
inductive RoundMode where
  | rne | rtz | rup | rdn
  deriving DecidableEq, Repr

/-- The mode codes of R38. -/
def roundModeOf (c : BitVec 2) : RoundMode :=
  if c = 0 then .rne else if c = 1 then .rtz else if c = 2 then .rup else .rdn

/-- Rounds the magnitude num / 2^sh to an integer under a mode (R38). -/
def roundShift (mode : RoundMode) (neg : Bool) (num sh : Nat) : Nat :=
  let q := num / 2 ^ sh
  let r := num % 2 ^ sh
  let up := match mode with
    | .rne => decide (2 * r > 2 ^ sh) || (decide (2 * r = 2 ^ sh) && q % 2 == 1)
    | .rtz => false
    | .rup => !neg && r != 0
    | .rdn => neg && r != 0
  if up then q + 1 else q

/-- A magnitude mant · 2^exp as an integer multiple of 2^unit, rounded; the Bool says it was exact. -/
def roundToUnit (mode : RoundMode) (neg : Bool) (mant : Nat) (exp unit : Int) : Nat × Bool :=
  if unit ≤ exp then (mant * 2 ^ (exp - unit).toNat, true)
  else
    let sh := (unit - exp).toNat
    (roundShift mode neg mant sh, mant % 2 ^ sh == 0)

/-- What an overflowing or infinite conversion delivers (R39, R44). -/
inductive Saturation where
  | ieee | sat
  deriving DecidableEq, Repr

/-- A result code with its flags. -/
structure FpResult where
  code  : Nat
  flags : FpFlags
  deriving DecidableEq, Repr

/-- Sets the sign of a magnitude code. -/
def withSign (f : FpFormat) (neg : Bool) (mag : Nat) : Nat :=
  if neg then signBit f + mag else mag

/-- The overflow result of R39 and R44, sign and flags included. -/
def overflowResult (f : FpFormat) (mode : RoundMode) (setting : Saturation) (neg : Bool) : FpResult :=
  let fl := flagOF ||| flagIX
  if setting == .sat then ⟨withSign f neg (maxFinite f), fl⟩
  else if f == .e4m3 then ⟨canonNaN f, fl⟩
  else
    let toInf := match mode with
      | .rne => true | .rtz => false | .rup => !neg | .rdn => neg
    ⟨withSign f neg (if toInf then infCode f else maxFinite f), fl⟩

/-- Rounds an exact non-zero or zero magnitude to a format: R38 to R40, R44, R47. `flush` selects the
flushing of R40, `setting` the setting of R44. -/
def roundResult (f : FpFormat) (mode : RoundMode) (flush : Bool) (setting : Saturation)
    (neg : Bool) (mant : Nat) (exp : Int) : FpResult :=
  if mant == 0 then ⟨withSign f neg 0, 0⟩
  else
    let fr := fracBits f
    let emin : Int := 1 - (expBias f : Int)
    let unit : Int := exp + (Nat.log2 mant : Int) - fr
    let (q0, exact) := roundToUnit mode neg mant exp unit
    let carried := q0 == 2 ^ (fr + 1)
    let q := if carried then 2 ^ fr else q0
    let u := if carried then unit + 1 else unit
    let e := u + fr
    if e < emin then
      if flush then ⟨withSign f neg 0, flagUF ||| flagIX ||| flagFL⟩
      else
        let (m, ex) := roundToUnit mode neg mant exp (emin - fr)
        ⟨withSign f neg m, if ex then 0 else flagUF ||| flagIX⟩
    else
      let mag := (e - emin + 1).toNat * 2 ^ fr + (q - 2 ^ fr)
      if mag > maxFinite f then overflowResult f mode setting neg
      else ⟨withSign f neg mag, if exact then 0 else flagIX⟩

/-- Delivers a value to a format for arithmetic, infinities and NaNs included (R41). -/
def deliver (f : FpFormat) (mode : RoundMode) (v : FpVal) : FpResult :=
  match v with
  | .nan => ⟨canonNaN f, 0⟩
  | .inf neg => ⟨withSign f neg (infCode f), 0⟩
  | .num neg m e => roundResult f mode (flushes f) .ieee neg m e

/-- The invalid result: the canonical NaN with IV (R156). -/
def invalid (f : FpFormat) : FpResult := ⟨canonNaN f, flagIV⟩

/-- The product of two values, exact; `none` is 0 × ∞ (R156). -/
def mulVal (a b : FpVal) : Option FpVal :=
  match a, b with
  | .nan, _ => some .nan
  | _, .nan => some .nan
  | .inf s, .inf t => some (.inf (s != t))
  | .inf s, .num t m _ => if m == 0 then none else some (.inf (s != t))
  | .num s m _, .inf t => if m == 0 then none else some (.inf (s != t))
  | .num s m e, .num t n g => some (.num (s != t) (m * n) (e + g))

/-- The sum of two values, exact; `none` is ∞ − ∞. A zero sum takes its sign as R156 says. -/
def addVal (mode : RoundMode) (a b : FpVal) : Option FpVal :=
  match a, b with
  | .nan, _ => some .nan
  | _, .nan => some .nan
  | .inf s, .inf t => if s == t then some (.inf s) else none
  | .inf s, .num _ _ _ => some (.inf s)
  | .num _ _ _, .inf t => some (.inf t)
  | .num s m e, .num t n g =>
    let u := min e g
    let x : Int := m * 2 ^ (e - u).toNat
    let y : Int := n * 2 ^ (g - u).toNat
    let z := (if s then -x else x) + (if t then -y else y)
    if z == 0 then some (.num (if s == t then s else mode == .rdn) 0 u)
    else some (.num (decide (z < 0)) z.natAbs u)

/-- Changes the sign of a value. -/
def negVal : FpVal → FpVal
  | .nan => .nan
  | .inf s => .inf (!s)
  | .num s m e => .num (!s) m e

/-- The magnitude of a quotient with at least `bits` bits, its lowest bit standing for the remainder:
mant / den times 2^k. -/
def stickyQuot (num den k : Nat) : Nat :=
  let n := num * 2 ^ k
  2 * (n / den) + (if n % den == 0 then 0 else 1)

/-- Rounds the quotient of two magnitudes correctly (R155). -/
def divRound (f : FpFormat) (mode : RoundMode) (neg : Bool) (m : Nat) (e : Int) (n : Nat) (g : Int) : FpResult :=
  let k := fracBits f + 4 + Nat.log2 n
  roundResult f mode (flushes f) .ieee neg (stickyQuot m n k) (e - g - k - 1)

/-- Sum of two codes (R155, R156). -/
def fpAdd (f : FpFormat) (mode : RoundMode) (a b : Nat) : FpResult :=
  let (x, fx) := readSource f a
  let (y, fy) := readSource f b
  let r := match addVal mode x y with
    | none => invalid f
    | some v => deliver f mode v
  ⟨r.code, r.flags ||| fx ||| fy⟩

/-- Difference of two codes (R155, R156). -/
def fpSub (f : FpFormat) (mode : RoundMode) (a b : Nat) : FpResult :=
  let (x, fx) := readSource f a
  let (y, fy) := readSource f b
  let r := match addVal mode x (negVal y) with
    | none => invalid f
    | some v => deliver f mode v
  ⟨r.code, r.flags ||| fx ||| fy⟩

/-- Product of two codes (R155, R156). -/
def fpMul (f : FpFormat) (mode : RoundMode) (a b : Nat) : FpResult :=
  let (x, fx) := readSource f a
  let (y, fy) := readSource f b
  let r := match mulVal x y with
    | none => invalid f
    | some v => deliver f mode v
  ⟨r.code, r.flags ||| fx ||| fy⟩

/-- Fused multiply-add with one rounding. 0 × ∞ raises IV whatever the addend, unless an operand is
NaN (R155, R156). -/
def fpFma (f : FpFormat) (mode : RoundMode) (a b c : Nat) : FpResult :=
  let (x, fx) := readSource f a
  let (y, fy) := readSource f b
  let (z, fz) := readSource f c
  let r : FpResult :=
    if x == .nan || y == .nan || z == .nan then ⟨canonNaN f, 0⟩
    else match mulVal x y with
      | none => invalid f
      | some p => match addVal mode p z with
        | none => invalid f
        | some v => deliver f mode v
  ⟨r.code, r.flags ||| fx ||| fy ||| fz⟩

/-- Quotient of two codes, correctly rounded (R155, R156). -/
def fpDiv (f : FpFormat) (mode : RoundMode) (a b : Nat) : FpResult :=
  let (x, fx) := readSource f a
  let (y, fy) := readSource f b
  let r : FpResult := match x, y with
    | .nan, _ => ⟨canonNaN f, 0⟩
    | _, .nan => ⟨canonNaN f, 0⟩
    | .inf _, .inf _ => invalid f
    | .inf s, .num t _ _ => ⟨withSign f (s != t) (infCode f), 0⟩
    | .num s _ _, .inf t => ⟨withSign f (s != t) 0, 0⟩
    | .num s m e, .num t n g =>
      if n == 0 then
        if m == 0 then invalid f else ⟨withSign f (s != t) (infCode f), flagDZ⟩
      else divRound f mode (s != t) m e n g
  ⟨r.code, r.flags ||| fx ||| fy⟩

/-- Orders two values that are no NaNs, −0 below +0 (R42). -/
def belowTotal (a b : FpVal) : Bool :=
  match a, b with
  | .nan, _ => false
  | _, .nan => false
  | .inf s, .inf t => s && !t
  | .inf s, .num _ _ _ => s
  | .num _ _ _, .inf t => !t
  | .num s m e, .num t n g =>
    let u := min e g
    let x : Int := m * 2 ^ (e - u).toNat
    let y : Int := n * 2 ^ (g - u).toNat
    let sx := if s then -x else x
    let sy := if t then -y else y
    decide (sx < sy) || (decide (sx = sy) && s && !t)

/-- The code of a source as R42 returns it: a flushed subnormal is the zero of its sign. -/
def asRead (f : FpFormat) (code : Nat) : Nat :=
  if flushes f && isSubnormal f code then withSign f (code / signBit f % 2 == 1) 0 else code

/-- FMIN and FMAX of R42. -/
def fpMinMax (f : FpFormat) (isMax : Bool) (a b : Nat) : FpResult :=
  let (x, fx) := readSource f a
  let (y, fy) := readSource f b
  let code :=
    if x == .nan && y == .nan then canonNaN f
    else if x == .nan then asRead f b
    else if y == .nan then asRead f a
    else if isMax then (if belowTotal x y then asRead f b else asRead f a)
    else (if belowTotal y x then asRead f b else asRead f a)
  ⟨code, fx ||| fy⟩

/-- FABS: the sign cleared, a NaN made canonical (R155). -/
def fpAbs (f : FpFormat) (a : Nat) : FpResult :=
  ⟨if isNaN f a then canonNaN f else a % signBit f, 0⟩

/-- The comparisons of R164 over values: less, equal, unordered. -/
def fpEq (f : FpFormat) (a b : Nat) : Bool :=
  match fpDecode f a, fpDecode f b with
  | .nan, _ => false
  | _, .nan => false
  | .inf s, .inf t => s == t
  | .inf _, .num _ _ _ => false
  | .num _ _ _, .inf _ => false
  | .num s m e, .num t n g =>
    (m == 0 && n == 0) ||
      (s == t && m * 2 ^ (e - min e g).toNat == n * 2 ^ (g - min e g).toNat)

def fpUnordered (f : FpFormat) (a b : Nat) : Bool := isNaN f a || isNaN f b

def fpLt (f : FpFormat) (a b : Nat) : Bool :=
  !fpUnordered f a b && !fpEq f a b && belowTotal (fpDecode f a) (fpDecode f b)

def fpLe (f : FpFormat) (a b : Nat) : Bool := fpEq f a b || fpLt f a b

/-- Integer square root by digits: the largest r with r² ≤ n, for n below 4^fuel. -/
def isqrtGo (n : Nat) : Nat → Nat → Nat
  | 0, r => r
  | k + 1, r =>
    let r' := r + 2 ^ k
    isqrtGo n k (if r' * r' ≤ n then r' else r)

def isqrt (n : Nat) : Nat := isqrtGo n (Nat.log2 n / 2 + 1) 0

/-- FRCP: the quotient 1 ÷ x, correctly rounded, RNE (R158). -/
def fpRecip (a : Nat) : FpResult := fpDiv .fp32 .rne 0x3F800000 a

/-- A square root magnitude with a sticky low bit: the value is the answer times 2^(exp). -/
def sqrtSticky (m : Nat) (e : Int) (bits : Nat) : Nat × Int :=
  let odd := e % 2 != 0
  let m1 := if odd then 2 * m else m
  let e1 := if odd then e - 1 else e
  let n := m1 * 4 ^ bits
  let r := isqrt n
  (2 * r + (if r * r == n then 0 else 1), e1 / 2 - bits - 1)

/-- FSQRT, correctly rounded (R158). -/
def fpSqrt (a : Nat) : FpResult :=
  match fpDecode .fp32 a with
  | .nan => ⟨canonNaN .fp32, 0⟩
  | .inf neg => if neg then invalid .fp32 else ⟨infCode .fp32, 0⟩
  | .num neg m e =>
    if m == 0 then ⟨a, 0⟩
    else if neg then invalid .fp32
    else
      let (r, x) := sqrtSticky m e 28
      roundResult .fp32 .rne false .ieee false r x

/-! ### Conversions (R43 to R45, R160 to R162) -/

/-- Widening and narrowing between floating formats: no flushing, gradual underflow (R40, R43, R44). -/
def fpConvert (src dst : FpFormat) (mode : RoundMode) (setting : Saturation) (a : Nat) : FpResult :=
  match fpDecode src a with
  | .nan => ⟨canonNaN dst, 0⟩
  | .inf neg =>
    if setting == .sat then ⟨withSign dst neg (maxFinite dst), 0⟩
    else if dst == .e4m3 then ⟨canonNaN dst, flagIV⟩
    else ⟨withSign dst neg (infCode dst), 0⟩
  | .num neg m e => roundResult dst mode false setting neg m e

/-- The default setting of R44. -/
def defaultSat (dst : FpFormat) : Saturation := if dst == .e4m3 then .sat else .ieee

/-- Conversion to a signed integer of `bits` bits (R45): the value and its flags. -/
def fpToInt (src : FpFormat) (mode : RoundMode) (bits : Nat) (a : Nat) : Int × FpFlags :=
  let hi : Int := 2 ^ (bits - 1) - 1
  let lo : Int := -2 ^ (bits - 1)
  match fpDecode src a with
  | .nan => (0, flagIV)
  | .inf neg => (if neg then lo else hi, flagIV)
  | .num neg m e =>
    let (q, exact) := roundToUnit mode neg m e 0
    let v : Int := if neg then -(q : Int) else q
    if v > hi then (hi, flagIV) else if v < lo then (lo, flagIV)
    else (v, if exact then 0 else flagIX)

/-- Conversion of an integer to a floating format (R43, R38). -/
def intToFp (dst : FpFormat) (mode : RoundMode) (v : Int) : FpResult :=
  roundResult dst mode false .ieee (decide (v < 0)) v.natAbs 0

/-- Integer narrowing saturates without flags (R45). -/
def saturateInt (bits : Nat) (v : Int) : Int :=
  max (-2 ^ (bits - 1)) (min (2 ^ (bits - 1) - 1) v)

/-! ### BX4 (R35 to R37) -/

/-- The value of an FP4 E2M1 code as twice its magnitude (R35). -/
def fp4Twice : Nat → Nat
  | 0 => 0 | 1 => 1 | 2 => 2 | 3 => 3 | 4 => 4 | 5 => 6 | 6 => 8 | _ => 12

/-- An FP4 element as an exact value (R35). -/
def fp4Val (c : Nat) : FpVal := .num (c / 8 % 2 == 1) (fp4Twice (c % 8)) (-1)

/-- An E3M5 block scale as mantissa and exponent (R36). -/
def e3m5Val (c : Nat) : FpVal :=
  let e := c / 32 % 8
  let m := c % 32
  if e == 0 then .num false m (-7) else .num false (32 + m) ((e : Int) - 8)

/-- The decoded FP32 of element × block scale × band scale, rounded once (R37). -/
def bx4Decode (elem scale : Nat) (band : FpVal) : Nat :=
  match band with
  | .num s m e =>
    match mulVal (fp4Val elem) (e3m5Val scale) with
    | some p => match mulVal p (.num s m e) with
      | some v => (deliver .fp32 .rne v).code
      | none => canonNaN .fp32
    | none => canonNaN .fp32
  | _ => canonNaN .fp32

/-- A band scale read from its BF16 code (R37). -/
def bandVal (code : Nat) : FpVal := fpDecode .bf16 code

/-! ### Sort keys (R49, R50) -/

/-- The order code of a 32-bit key word under a key format; code 7 is reserved and reads as U32 here. -/
def orderCode (fmt : BitVec 3) (flatZero : Bool) (k : Word) : Nat :=
  let kn := k.toNat
  let h := kn % 2 ^ 16
  let flip32 (x : Nat) := if x < 2 ^ 31 then x + 2 ^ 31 else 2 ^ 32 - 1 - x
  let flip16 (x : Nat) := if x < 2 ^ 15 then x + 2 ^ 15 else 2 ^ 16 - 1 - x
  match fmt.toNat with
  | 0 => kn
  | 1 => (kn + 2 ^ 31) % 2 ^ 32
  | 2 => if flatZero && kn == 2 ^ 31 then 2 ^ 31 else flip32 kn
  | 3 => h
  | 4 => (h + 2 ^ 15) % 2 ^ 16
  | 5 => if flatZero && h == 2 ^ 15 then 2 ^ 15 else flip16 h
  | 6 => if flatZero && h == 2 ^ 15 then 2 ^ 15 else flip16 h
  | _ => kn

end Sys2Proof.Machine
end

