-- ==== Sys2Proof/Machine/State.lean ====
section
/-!
DEFINITION. Sys2Proof/Machine/State.lean: the machine's state as plain data (INVENTORY.md lists every piece of it with the
rule of spec/ that names it), and the state right after reset.
-/

namespace Sys2Proof.Machine

/-- Why a run of the model stops as a fault of the model itself. Every fault that the manual describes is a next state
(R327 to R333), so nothing of the manual is here. -/
inductive Fault where
  /-- Raised by no meaning: the device reports every fault in its own state. Safe. -/
  | none
  deriving DecidableEq, Repr

/-- Why `exec` gives a word no meaning at all. -/
inductive Refusal where
  /-- Raised by an arm of `exec` whose instruction has no meaning yet. Safe: nothing is claimed of it. -/
  | notModelled (mnemonic : String)
  /-- Raised by a meaning that is called while no agent of its scope has the turn. No step of the machine does this:
  it is a call of `exec` on a state where nobody is executing the word. Safe. -/
  | noAgent
  deriving DecidableEq, Repr

/-- A map with finitely many entries that differ from its default: keys strictly rising, no entry equal to the
default. -/
abbrev SMap (α : Type) := List (Nat × α)

/-- A memory of bytes; an unlisted byte reads as zero (log 3). -/
abbrev Mem := List Host.Cell

/-- A declared register shape and the row that a register holds (R52, R90). -/
inductive VRow where
  | undeclared
  | u (v : Word)
  | a (base stride : Word)
  | g (vals : List Word)
  deriving DecidableEq, Repr

/-- A register that a vector field names (R102). -/
inductive Reg where
  | v (n : Nat)
  | t (n : Nat)
  | tv (n : Nat)
  deriving DecidableEq, Repr

/-- A loop-stack entry: passes begun, total passes, address of the body (R222, R247). -/
structure LoopEntry where
  begun : Word
  total : Word
  body  : Dword
  deriving DecidableEq, Repr

/-- A continuation token (R215). -/
structure Token where
  tgt    : Dword
  spc    : Dword
  v0     : Word
  v1     : Word
  seq    : BitVec 16
  isEnd  : Bool
  relay  : Bool
  deriving DecidableEq, Repr

/-- What holds an agent in place (R232, R319). -/
inductive Hold where
  | scoreboard | await | barrier (n : Nat) | group (entry : Nat) | token | fullEmpty | vote | voteRead
  | acq | sync (off : Nat) | mwait | cpwait (tag : Nat) | cpaLimit | queueFull | sortArray | grpset | fence
  | translation | queueJoin | batch | debug
  deriving DecidableEq, Repr

/-- The life of a wave (R210, R251, R335, R337). -/
inductive Phase where
  | ready
  | held (h : Hold)
  | missed
  | lstepWait (target : Nat)
  | stopped
  | exiting
  | exited
  deriving DecidableEq, Repr

/-- A variable-latency result that is not yet written (R111): destination registers with their rows and the threads
they are written in, or the condition register of a vote. `peers` are the threads whose accesses went to peer modules, with the
module's index (R391). -/
structure Pending where
  regs  : List (Reg × VRow)
  mask  : Mask
  vote  : Option (BitVec 3 × Bool)
  peers : List (Nat × Nat)
  deriving DecidableEq, Repr

/-- A fixed-latency result of the run in progress (R109, R112): the field value and register, the row not yet written
(`none` once it is written), the threads, and the slots that R109 still asks for. -/
structure InFlight where
  field : Nat
  reg   : Reg
  row   : Option VRow
  mask  : Mask
  need  : Nat
  deriving DecidableEq, Repr

/-- The run a wave is in, fetched whole: its header, the words of its body, its temporaries, and the words from the body to
the trailer (R100, R105, R108). -/
structure Run where
  header : Dword
  words  : Nat
  temps  : Nat
  body   : List Word
  deriving DecidableEq, Repr

/-- A stretch of one of the three memories that a copy reads: the memory (0 HBM, 1 peer, 2 host), the address in it,
its bytes. -/
structure Stretch where
  space : Nat
  addr  : Nat
  len   : Nat
  deriving DecidableEq, Repr

/-- A per-thread copy that has not landed (R82, R83): its source was translated when it performed and is read when it
lands; `know` is the wave's vector at its issue (R270, R281). -/
structure CopyInFlight where
  tag    : Nat
  thread : Nat
  dst    : Nat
  size   : Nat
  parts  : List Stretch
  know   : List (BitVec 6)
  deriving DecidableEq, Repr

/-- The destination bytes of a per-thread copy, armed until a CPWAIT on its tag completes (R282). -/
structure CopyRange where
  tag  : Nat
  lo   : Nat
  size : Nat
  deriving DecidableEq, Repr

/-- A declared full/empty range (R96, R97). The bits stand in the producer. -/
structure SharedRange where
  producer : Bool
  first    : Nat
  len      : Nat
  partner  : Nat
  deriving DecidableEq, Repr

/-- An agent's knowledge for the scratchpad tags: its arrival count and the vector over 17 agents (R281). -/
structure Clock where
  count : BitVec 6
  know  : List (BitVec 6)
  deriving DecidableEq, Repr

/-- What the watch hits of the instruction in progress have still to do once it has performed in every participating thread:
arm bits, threads to halt, and 1 to halt the wave or 2 to halt it for a gang halt (R356 to R361). -/
structure HitSet where
  arm    : BitVec 16
  stop   : Mask
  action : Nat
  deriving DecidableEq, Repr

def noHits : HitSet := ⟨0, 0, 0⟩

/-- An issue of a thread-set instruction, as a tagged record may show it once: its address, its live beats, its scratchpad passes
and the deepest store it reached (R368). -/
structure Issue where
  pc     : Dword
  beats  : Nat
  passes : Nat
  level  : Nat
  deriving DecidableEq, Repr

structure Wave where
  id        : Nat
  block     : Nat
  index     : Nat
  slot      : Nat
  lane      : Nat
  phase     : Phase
  pc        : Dword
  v         : List VRow
  t         : List VRow
  tv        : List VRow
  p         : List Mask
  s         : List Dword
  hs        : List Dword
  k         : BitVec 8
  tk0       : Word
  tk1       : Word
  lastSeq   : BitVec 16
  exec      : Mask
  halted    : Mask
  fpstat    : BitVec 6
  schk      : Bool
  tba       : BitVec 62
  regions   : List (BitVec 16)
  preq      : Bool
  pcm       : Mask
  tcode     : BitVec 8
  treg      : BitVec 6
  epc       : Dword
  masks     : List Mask
  loops     : List LoopEntry
  calls     : List Dword
  fell      : Bool
  run       : Option Run
  tags      : BitVec 8
  tagRegs   : List (Nat × List Reg)
  pending   : List Pending
  inflight  : List InFlight
  tagCounts : List Nat
  copies    : List CopyInFlight
  copyRanges : List CopyRange
  clock     : Clock
  range     : Option SharedRange
  full      : BitVec 8
  orphaned  : Bool
  voteCount : Nat
  gvoteCount : Nat
  armed     : BitVec 16
  hits      : HitSet
  haltedWave : Bool
  haltInfo  : Nat
  stepMode  : Option Nat
  stepDone  : Bool
  stepTrap  : Nat
  stepExec  : Mask
  stepHeld  : Bool
  stepThread : Nat
  replay    : Option Mask
  rest      : Mask
  requests  : List Nat
  missFailed : Bool
  bad       : List (Reg × Nat)
  badPreds  : List (Nat × Nat)
  passed    : Nat
  promoted  : Nat
  stallLeft : Nat
  reached   : Nat × Nat
  issue     : Option Issue
  deriving DecidableEq, Repr

/-- A named barrier (R225) with the vectors of R281. -/
structure Barrier where
  gen     : BitVec 6
  arrived : BitVec 17
  points  : List (BitVec 6)
  accum   : List (BitVec 6)
  carried : List (BitVec 6)
  deriving DecidableEq, Repr

/-- A destination of a BMCAST and the granules delivered to it (R81, R332). -/
structure CastDest where
  ident : Nat
  off   : Nat
  sync  : Nat
  done  : Nat
  ahead : List Nat
  deriving DecidableEq, Repr

/-- One entry of an engine queue (R71, R342): the command, its operand values read at issue, QPCT for a QSCALE, and its
progress; `know`, `count` and `epoch` are the block sequencer's at its issue (R281). A QJOIN stands as an entry in every
queue that it names (R72). `units` is the number of units of a copy, gather, quantiser or collective command (R334);
`held` holds source bytes that a multicast or a collective has read once (R81, R84). -/
structure Command where
  word    : Word
  instr   : Instr
  d       : Dword
  a       : Dword
  b       : Dword
  qpct    : BitVec 11
  serial  : Nat
  started : Bool
  done    : Nat
  ahead   : List Nat
  units   : Nat
  phase   : Nat
  step    : Nat
  work    : List Nat
  dests   : List CastDest
  sync    : Nat
  know    : List (BitVec 6)
  count   : BitVec 6
  epoch   : BitVec 8
  request : Option Nat
  held    : List (Nat × List Byte)
  deriving DecidableEq, Repr

/-- A stop record (R332). -/
structure StopRecord where
  eng   : Nat
  cause : Nat
  first : Bool
  cmd   : Word
  prog0 : Dword
  prog1 : Dword
  mdone : List Nat
  deriving DecidableEq, Repr

/-- The vote state of a block or grid (R175, R176, R342): the number of instances it has completed, and of the one in progress its
condition register, its mode, and each member's contribution: the member, whether it claims a value, and the value. -/
structure VoteState where
  number : Nat
  kd     : BitVec 3
  mode   : BitVec 2
  given  : List (Nat × Bool × Bool)
  deriving DecidableEq, Repr

/-- A weight plane of the matrix engine (R177): its format, geometry and bytes in the layout of R197. -/
structure Plane where
  fmt   : Nat
  geom  : Nat
  bytes : Mem
  deriving DecidableEq, Repr

/-- An armed range [lo, hi) of a command (R183, R282): bytes of the block's scratchpad, or, with `glob`, virtual addresses
of a checked page that an S2G BCOPY writes. `owner` is the block that issued the command. `lastGen` is the generation of
its sync word that counts its last byte, once that byte is counted. -/
structure ArmedRange where
  owner   : Nat
  serial  : Nat
  queue   : EngineQueue
  lo      : Nat
  hi      : Nat
  write   : Bool
  glob    : Bool
  sync    : Option Nat
  lastGen : Option (BitVec 16)
  deriving DecidableEq, Repr

/-- A tile range whose FLAGSET released it to a consumer block (R255, R283): first virtual address and bytes. -/
structure TileRange where
  base : Nat
  size : Nat
  deriving DecidableEq, Repr

/-- A tile queue of a pipeline stage (R315): its record, the tiles flagged, and the tiles whose consumer block has ended. -/
structure TileQueue where
  stage   : Nat
  base    : Dword
  tbytes  : Nat
  ntile   : Nat
  cons    : Nat
  depth   : Nat
  flagged : List Nat
  ended   : List Nat
  deriving DecidableEq, Repr

/-- One cell of a sort array (R67). -/
structure SortCell where
  key     : Word
  payload : Word
  origin  : BitVec 14
  deriving DecidableEq, Repr

/-- Where a block goes: core, block slot, first granule and granules, first accumulator row and rows, and the place of each
of its waves: index, lane and wave slot (R53, R54, R55, R65). -/
structure Allotment where
  core   : Nat
  slot   : Nat
  gran   : Nat
  grans  : Nat
  acc    : Nat
  accs   : Nat
  lanes  : List (Nat × Nat × Nat)
  deriving DecidableEq, Repr

/-- A placed block. `seqStamps` and `seqGlobal` give, for a scratchpad word and for a granule of a checked page whose last write
the tags ascribe to the block sequencer, the number of commands issued before that write or before the wait that
restamped it (R274, R282). -/
structure Block where
  id        : Nat
  grid      : Nat
  ctx       : Nat
  isle      : Nat
  core      : Nat
  slot      : Nat
  index     : Nat
  phase     : Phase
  pc        : Dword
  b         : List Dword
  k         : BitVec 8
  tk0       : Word
  tk1       : Word
  lastSeq   : BitVec 16
  loops     : List LoopEntry
  calls     : List Dword
  fell      : Bool
  tokens    : List Token
  nextSeq   : BitVec 16
  acqDone   : Bool
  acqSeq    : BitVec 16
  fwin      : List Dword
  qpct      : BitVec 11
  mr        : List (BitVec 128)
  mc        : List (BitVec 128)
  firstGran : Nat
  granules  : Nat
  scratch   : Mem
  tags      : SMap Word
  badWords  : List Nat
  badTags   : List Nat
  badAcc    : List Nat
  accFirst  : Nat
  accRows   : Nat
  acc       : SMap Word
  active    : Plane
  shadow    : Plane
  queues    : List (List Command)
  stops     : List (Option StopRecord)
  issued    : Nat
  closed    : BitVec 16
  completed : BitVec 16
  openBatch : List Nat
  batches   : List (BitVec 16 × List Nat)
  unwaited  : List Nat
  armed     : List ArmedRange
  joins     : List (Nat × BitVec 5)
  inputs    : List TileRange
  bars      : List Barrier
  clock     : Clock
  groups    : List (BitVec 8)
  points    : List (BitVec 8)
  arrivals  : BitVec 5
  epochSeen : BitVec 8
  votes     : VoteState
  gvotes    : VoteState
  kPending  : BitVec 8
  request   : Option Nat
  ended     : Bool
  idem      : Bool
  sortHeld  : Bool
  parked    : List SortCell
  ident     : BitVec 20
  fault     : BitVec 14
  seqStamps : SMap Nat
  seqGlobal : SMap Nat
  deriving DecidableEq, Repr

/-- A kernel descriptor as the launch read it (R375). -/
structure Kernel where
  entry    : Nat
  textEnd  : Nat
  foot     : Nat
  temps    : Nat
  flags    : BitVec 8
  waves    : Nat
  threads  : Nat
  scratch  : Nat
  accum    : Nat
  barset   : BitVec 32
  shapes   : BitVec 128
  preload  : List (Nat × Nat × Nat × Dword)
  shared   : List (BitVec 32)
  deriving DecidableEq, Repr

/-- One entry of an isle's group table (R227). -/
structure GroupEntry where
  gen  : BitVec 8
  memb : Nat
  arrv : Nat
  grid : Nat
  gseq : Bool
  garr : Bool
  deriving DecidableEq, Repr

/-- A grid, or the part of a gang's grid on one isle. `barred` is the entry whose held GRPSET bars arrivals (R228); `slotSets` gives,
by index, the group slots of the blocks that GRPSET has changed (R253, R254). -/
structure Grid where
  id       : Nat
  launch   : Nat
  ctx      : Nat
  isle     : Nat
  stage    : Nat
  slot     : Nat
  phase    : Phase
  pc       : Dword
  g        : List Dword
  k        : BitVec 8
  loops    : List LoopEntry
  calls    : List Dword
  fell     : Bool
  tokens   : List Token
  nextSeq  : BitVec 16
  votes    : VoteState
  kPending : BitVec 8
  request  : Option Nat
  gbase    : Nat
  runLen   : Nat
  point    : BitVec 8
  kernel   : Kernel
  base     : Dword
  nblk     : Nat
  tba      : BitVec 62
  args     : SMap Dword
  groupList : List (List Nat)
  resident : Bool
  idem     : Bool
  nextBlock : Nat
  replace  : List Nat
  reserved : List (Nat × Allotment)
  ended    : List Nat
  parked   : List GroupEntry
  fault    : BitVec 14
  barred   : Option Nat
  slotSets : List (Nat × List (BitVec 8))
  deriving DecidableEq, Repr

/-- An accumulator partition that is bound to a context (R64, R66): its core, its number there, the context, the clock of
its last matrix command, and what ended blocks left in it (element 128 · row + column). -/
structure Partition where
  isle  : Nat
  core  : Nat
  index : Nat
  ctx   : Nat
  used  : Nat
  image : SMap Word
  deriving DecidableEq, Repr

/-- The sort array of a core (R67, R68): its holder, the block that held it last, the blocks whose commands wait for it in
the order in which they began to wait, and its cells in row order. -/
structure SortArray where
  isle    : Nat
  core    : Nat
  holder  : Option Nat
  last    : Option Nat
  waiting : List Nat
  cells   : List SortCell
  bad     : List Nat
  deriving DecidableEq, Repr

/-- One watch predicate (R352) with its count. -/
structure WatchPred where
  enabled : Bool
  lo      : Dword
  hi      : Dword
  val     : Dword
  vmask   : Dword
  ctl     : Dword
  count   : Word
  deriving DecidableEq, Repr

/-- The capture window of a context (R364). `opened` is the clock of its opening, `cycFrom` the clock since which cycles count, `cyc`
those counted before (R369); `sampled` the lanes and cores that have written a sample of this period, and `rotation` the agent
that each sampled last (R367). A lane is keyed core · 16 + lane, a core 16,384 + core. -/
structure Capture where
  isOpen  : Bool
  sbuf    : Dword
  scap    : Nat
  sdrop   : Nat
  scount  : Nat
  rbuf    : Dword
  rcap    : Nat
  rdrop   : Nat
  rcount  : Nat
  cbuf    : Dword
  sper    : Nat
  twin    : Nat
  watch   : BitVec 16
  counters : SMap Nat
  opened  : Nat
  cycFrom : Option Nat
  cyc     : Nat
  sampled : List Nat
  rotation : SMap Nat
  deriving DecidableEq, Repr

/-- A published version of a code object (R380). -/
structure Version where
  number : Nat
  base   : Dword
  size   : Nat
  textEnds : List Nat
  arrives  : List Bool
  deriving DecidableEq, Repr

structure CodeObject where
  home     : Dword
  versions : List Version
  deriving DecidableEq, Repr

/-- The halt record (R343). -/
structure HaltRecord where
  code  : Nat
  reg   : Nat
  agent : Nat
  isle  : Nat
  core  : Nat
  slot  : Nat
  pc    : Dword
  deriving DecidableEq, Repr

/-- One entry of a core's fault log (R344). -/
structure FaultEntry where
  core   : Nat
  record : List Dword
  code   : Nat
  reg    : Nat
  agent  : Nat
  first  : Bool
  slot   : Nat
  pc     : Dword
  deriving DecidableEq, Repr

structure Context where
  index   : Nat
  root    : Nat
  pasid   : Nat
  hash    : Bool
  debug   : Bool
  bkey    : BitVec 16
  pto     : Nat
  pdl     : Nat
  save    : Dword
  tenant  : Nat
  halted  : Bool
  preempting : Bool
  forced  : Bool
  saved   : Bool
  halt    : Option HaltRecord
  log     : List FaultEntry
  watch   : List WatchPred
  capture : Capture
  objects : List CodeObject
  taken   : List Nat
  deriving DecidableEq, Repr

/-- What a queue's packet in hand waits for (R304, R308, R309, R313). -/
inductive QueueWait where
  | none
  | packet (p : Packet)
  | fence (queue : Nat) (serials : List Nat)
  | admission (launch : Nat)
  deriving DecidableEq, Repr

/-- Writes that the command processor still owes for a queue (R301, R307, R308, R380, R401): the address, the pieces by offset
from it, and the packet that is complete once they have performed. -/
structure Owed where
  va     : Dword
  pieces : List (Nat × List Byte)
  packet : Option Nat
  deriving DecidableEq, Repr

/-- A graph in progress (R320, R321): its nodes, the node that is next, the passes of its loop nodes, the launch of the kernel
node that runs, and its completion. -/
structure GraphRun where
  gdesc  : Dword
  node   : Nat
  passes : List (Nat × Nat)
  launch : Option Nat
  cmpl   : Dword
  cval   : Dword
  serial : Nat
  status : Nat
  deriving DecidableEq, Repr

/-- A hardware queue (R297). `next` is the index to take next, unknown until the word at RPTR has been read (R299); `taken`
numbers its packets; `request` is the unanswered resolution request of R401 with its address, `failedAt` the address of an
access that a Fail verdict ended; `readySince` says when its next packet was first seen (R323). Of the packet in hand, `heldCode`
holds the code objects and `heldOpen` the open packets of the queue that a QFENCE names, both as they stood when it was taken
(R304, R309, R381). -/
structure Queue where
  index   : Nat
  enabled : Bool
  ring    : Dword
  log2    : Nat
  pubn    : Nat
  ctx     : Nat
  wptr    : Dword
  rptr    : Dword
  qstat   : Nat
  next    : Option Nat
  sincePub : Nat
  taken   : Nat
  openPackets : List Nat
  wait    : QueueWait
  graphs  : List GraphRun
  owed    : List Owed
  request : Option (Nat × Dword)
  failedAt : Option Dword
  readySince : Option Nat
  heldCode : List CodeObject
  heldOpen : List Nat
  deriving DecidableEq, Repr

/-- A launch or gang that has been taken (R305, R313, R317). `bodies` holds bytes 8–63 of a launch body for each stage, and
`bound` the code version and the kernel's number for each (R381); `status` is its end, whose completion is still to be
written; `shares` the cores on which each stage may be placed (R316); `tried` whether its admission has been tried (R313). -/
structure Launch where
  id       : Nat
  queue    : Nat
  serial   : Nat
  ctx      : Nat
  gang     : Bool
  isles    : List Nat
  pipe     : Bool
  bodies   : List (List Dword)
  bound    : List (Dword × Nat)
  cmpl     : Dword
  cval     : Dword
  admitted : Bool
  fromGraph : Bool
  status   : Option Nat
  tileQueues : List TileQueue
  shares   : List (List Nat)
  frozen   : Bool
  tried    : Bool
  deriving DecidableEq, Repr

/-- A resolution request (R28): the record, whether it stands in the ring, and the answer. `ats` is 1 for an ATS request, which
is no record, and 2 for a record with a page request; `pages` are the host pages it concerns, `fn` the function whose identity
it carries (R25, R388). -/
structure Request where
  isle    : Nat
  seq     : Nat
  pasid   : Nat
  fn      : Nat
  va      : Dword
  kind    : Nat
  core    : Nat
  written : Bool
  verdict : Option Bool
  ats     : Nat
  pages   : List Nat
  deriving DecidableEq, Repr

/-- A cached translation (R15): the page-table leaf for one page of one PASID on an isle. -/
structure CachedXlat where
  isle  : Nat
  pasid : Nat
  page  : Nat
  shift : Nat
  leaf  : Dword
  deriving DecidableEq, Repr

/-- A host translation obtained by ATS (R25). -/
structure AtsEntry where
  isle  : Nat
  pasid : Nat
  page  : Nat
  hpa   : Nat
  read  : Bool
  write : Bool
  exec  : Bool
  deriving DecidableEq, Repr

/-- An instance of a collective (R84): the parameters and members that its first member gave, each member's source, by
rank, and the ranks whose COLL has performed all of its writes. -/
structure CollInstance where
  ctx     : Nat
  group   : Nat
  inst    : Nat
  params  : List Nat
  sources : List (Nat × List Byte)
  ended   : List Nat
  deriving DecidableEq, Repr

/-- A loan of one tenant's tokens to another (R312), oldest first. -/
structure Loan where
  isle     : Nat
  lender   : Nat
  borrower : Nat
  tokens   : Nat
  deriving DecidableEq, Repr

/-- The registers of one isle's page (R23, R30, R298, R324, R387). -/
structure IsleRegs where
  xltagb  : Dword
  xlinva  : Dword
  xlinvc  : Dword
  fltrb   : Dword
  head    : Word
  tail    : Word
  ctxtb   : Dword
  qtb     : Dword
  tenb    : Dword
  tperiod : Nat
  qcmd    : Dword
  units   : Dword
  retl    : Dword
  nextReq : Nat
  replaced : Nat
  deriving DecidableEq, Repr

/-- The platform: power, firmware, fuses, host link (R387 to R399). Units of an isle are keyed isle · 2^24 + unit: cores 0 to 31, its
two links 32 and 33, its far cache 34, its frames from 35. `refused` are the isles whose scheduler image failed its checks (R393).
`dueTests` are the units whose test the firmware owes, `corrected` the corrected errors of each unit with the clock of each,
`transient` the errors counted as transient, `failedLinks` the links that failed a test since power-up (R395). `answers` are the replies to register and kick-page reads, and `retries` tells of each
configuration request whether it met Request Retry Status (R388, R399). `plugins` are the tenants whose plug-in image runs (R393). -/
structure Platform where
  booted    : Bool
  powered   : Bool
  fnctxb    : Dword
  strtb     : Dword
  pgrpb     : Dword
  pwrlim    : Nat
  ctxcmd    : Dword
  cntpol    : List Dword
  links     : BitVec 16
  replays   : List Nat
  underTest : List Nat
  retired   : List Nat
  limits    : List (Nat × Nat)
  operatorKey : List Byte
  oneTime   : Nat
  attests   : List (List Byte)
  msix      : List Nat
  peerSeen  : List (Nat × Nat)
  bitErrors : List BitError
  badFar    : List Nat
  refused   : List Nat
  dueTests  : List Nat
  corrected : List (Nat × Nat)
  transient : SMap Nat
  failedLinks : BitVec 16
  answers   : List Dword
  retries   : List Bool
  plugins   : List Nat
  deriving DecidableEq, Repr

/-- What may come next (log 2): an agent's word, a step of the tables of operations, or a move of the world outside. `part` lets
a wave's load perform in its first threads alone, and `tear` lets some bytes of a wave's store be seen before the rest (R276,
log 14). -/
inductive Move where
  | run (a : Agent)
  | part (wave threads : Nat)
  | tear (wave : Nat) (threads : Mask) (bytes : BitVec 16)
  | event (i : Instr)
  | hostWrite (addr : Nat) (bytes : List Byte)
  | localWrite (addr : Nat) (bytes : List Byte)
  | register (isle offset : Nat) (value : Dword)
  | registerRead (isle offset : Nat)
  | kickRead (function page : Nat)
  | evict (isle pasid page : Nat)
  | haltBound (launch : Nat)
  deriving DecidableEq, Repr

structure State where
  /-- The model's own: the moves still to come, and who executes the present word (log 2). -/
  agenda   : List Move
  turn     : Option Agent
  /-- The model's own: the number of steps taken, and the free-value counter (log 6). -/
  clock    : Nat
  fresh    : Nat
  nextId   : Nat
  hbm      : Mem
  peer     : Mem
  host     : Mem
  isles    : List IsleRegs
  platform : Platform
  contexts : List Context
  queues   : List Queue
  launches : List Launch
  grids    : List Grid
  blocks   : List Block
  waves    : List Wave
  groups   : SMap GroupEntry
  requests : List Request
  cached   : List CachedXlat
  ats      : List AtsEntry
  invalidating : SMap Dword
  atsInval : List AtsInvalidation
  colls    : List CollInstance
  loans    : List Loan
  partitions : List Partition
  sorts    : List SortArray
  /-- Of each core: 32 · (one more than the block slot that its matrix engine served last) + the streamed rows that are left of
  that grant (R182). -/
  grants   : SMap Nat
  /-- Of each isle: one more than the tenant that it served last (R311). -/
  served   : SMap Nat
  deriving DecidableEq, Repr

/-- The registers of an isle's page at power-up (R23, R30, R298, R324, R387). -/
def IsleRegs.reset : IsleRegs :=
  { xltagb := 0, xlinva := 0, xlinvc := 0, fltrb := 0, head := 0, tail := 0, ctxtb := 0, qtb := 0, tenb := 0,
    tperiod := 100, qcmd := 0, units := 0xFFFFFFFF, retl := 0, nextReq := 0, replaced := 0 }

/-- The platform as power is applied: nothing booted, no link up, the module budget at its reset value (R387, R399). What the
manual gives no value for stands in log 9. -/
def Platform.reset : Platform :=
  { booted := false, powered := true, fnctxb := 0, strtb := 0, pgrpb := 0, pwrlim := 3200, ctxcmd := 0,
    cntpol := List.replicate 64 0, links := 0, replays := List.replicate 16 0, underTest := [],
    retired := [], limits := [], operatorKey := [], oneTime := 0, attests := [], msix := [], peerSeen := [], bitErrors := [],
    badFar := [], refused := [], dueTests := [], corrected := [], transient := [], failedLinks := 0, answers := [], retries := [],
    plugins := [] }

/-- The machine right after reset: power has been applied, and power-up (R399) is still to run. No context, queue, translation
or counter exists, and memory lists nothing (log 3). -/
def State.reset : State :=
  { agenda := [], turn := none, clock := 0, fresh := 0, nextId := 1, hbm := [], peer := [], host := [],
    isles := List.replicate 8 IsleRegs.reset, platform := Platform.reset, contexts := [], queues := [], launches := [],
    grids := [], blocks := [], waves := [], groups := [], requests := [], cached := [], ats := [], invalidating := [],
    atsInval := [], colls := [], loans := [], partitions := [], sorts := [], grants := [], served := [] }

end Sys2Proof.Machine
end

