-- ==== Sys2Proof/Machine/Operands.lean ====
section
/-!
DEFINITION. Sys2Proof/Machine/Operands.lean: the operand forms. Vector registers by field value (R102), shaped rows and how
they are read and written (R90, R145, R146), predicates, participation (R144), fixed-latency results on their way (R109,
R112), and the effect that a thread-set instruction hands to the shared frame.
-/

namespace Sys2Proof.Machine

/-! ### Masks -/

def allThreads : Mask := BitVec.allOnes 64

/-- The mask of the threads that a test holds for. -/
def maskOf (f : Nat → Bool) : Mask := (List.range 64).foldr (fun i m => if f i then m ||| (1 <<< i) else m) 0

/-! ### Shaped rows -/

/-- U < A < G; an undeclared register holds nothing (R145). -/
def shapeRank : VRow → Nat
  | .undeclared => 0
  | .u _ => 1
  | .a _ _ => 2
  | .g _ => 3

/-- What thread i reads (R90). -/
def rowAt (r : VRow) (i : Nat) : Word :=
  match r with
  | .undeclared => 0
  | .u v => v
  | .a b s => b + s * BitVec.ofNat 32 i
  | .g vs => vs.getD i 0

def rowIsU : VRow → Bool
  | .u _ => true
  | _ => false

/-- Base and stride of a U or A row; a U row has stride 0. -/
def rowAffine : VRow → Option (Word × Word)
  | .u v => some (v, 0)
  | .a b s => some (b, s)
  | _ => none

/-- A G row from a value for each thread. -/
def gRow (f : Nat → Word) : VRow := .g ((List.range 64).map f)

/-- The last row of R145: U if every source is U, otherwise G. -/
def perThread (srcs : List VRow) (f : Nat → Word) : VRow :=
  if srcs.all rowIsU then .u (f 0) else gRow f

/-- The result fits the destination's declared shape (R90, R146). -/
def shapeFits (dst res : VRow) : Bool := shapeRank res ≤ shapeRank dst && shapeRank dst != 0

/-- Writing a result that fits (R146): a G register changes participating threads alone, a U or A register is
replaced whole if any thread participates. -/
def writeRow (old res : VRow) (part : Mask) : VRow :=
  match old with
  | .undeclared => .undeclared
  | .g _ => gRow fun i => if part.getLsbD i then rowAt res i else rowAt old i
  | .a _ _ =>
    if part = 0 then old
    else match res with
      | .u v => .a v 0
      | .a _ _ => res
      | _ => old
  | .u _ =>
    if part = 0 then old
    else match res with
      | .u _ => res
      | _ => old

/-! ### Registers by field value (R102) -/

/-- The trap handler runs while TCAUSE.CODE is not zero (R92, R260, R329). -/
def inHandler (w : Wave) : Bool := w.tcode != 0

/-- The temporaries that the run in progress declares. -/
def tempsOf (w : Wave) : Nat := match w.run with
  | some r => r.temps
  | none => 0

/-- The register that a field names; `none` for a temporary at or above TEMPS (R91, R102). -/
def regOf (w : Wave) (f : BitVec 6) : Option Reg :=
  if inHandler w && decide (60 ≤ f.toNat) then some (.tv (f.toNat - 60))
  else if decide (1 ≤ tempsOf w) && decide (56 ≤ f.toNat) then
    if f.toNat - 56 < tempsOf w then some (.t (f.toNat - 56)) else none
  else some (.v f.toNat)

def readReg (w : Wave) : Reg → VRow
  | .v n => w.v.getD n .undeclared
  | .t n => w.t.getD n .undeclared
  | .tv n => w.tv.getD n .undeclared

def setReg (w : Wave) (r : Reg) (row : VRow) : Wave :=
  match r with
  | .v n => { w with v := w.v.set n row }
  | .t n => { w with t := w.t.set n row }
  | .tv n => { w with tv := w.tv.set n row }

/-- The row of a field, as the register file holds it. -/
def fieldRow (w : Wave) (f : BitVec 6) : VRow :=
  match regOf w f with
  | some r => readReg w r
  | none => .undeclared

/-- Words of a register that a result overwrites hold good codes again (R70). -/
def clearBad (w : Wave) (r : Reg) (part : Mask) : Wave :=
  { w with bad := w.bad.filter fun q => !(q.1 = r && (part.getLsbD q.2 || shapeRank (readReg w r) < 3)) }

/-- Writes a result into a register under R146. -/
def writeReg (w : Wave) (r : Reg) (res : VRow) (part : Mask) : Wave :=
  setReg (clearBad w r part) r (writeRow (readReg w r) res part)

/-- The field names a register that the kernel declares, a temporary in range or a trap register (R91, R102, R117). -/
def fieldLegal (w : Wave) (f : BitVec 6) : Bool :=
  match regOf w f with
  | some r => shapeRank (readReg w r) != 0
  | none => false

/-! ### Predicates and participation -/

/-- A predicate over all threads; p7 reads 1 (R89). -/
def predMask (w : Wave) (n : BitVec 3) : Mask := if n = 7 then allThreads else w.p.getD n.toNat 0

/-- Writes a predicate; a write to p7 is discarded (R89). -/
def setPred (w : Wave) (n : BitVec 3) (m : Mask) : Wave :=
  if n = 7 then w else { w with p := w.p.set n.toNat m }

/-- The threads of a 32-bit word of a predicate row, half 0 holding threads 0 to 31 (R70, log 12). -/
def predHalf (h : Nat) : Mask := maskOf fun i => i / 32 == h

/-- A word of a predicate row that a compare writes in all of its threads holds a good code again (R70). -/
def clearBadPred (w : Wave) (n : BitVec 3) : Wave :=
  { w with badPreds := w.badPreds.filter fun q => !(q.1 == n.toNat && predHalf q.2 &&& ~~~w.exec == 0) }

/-- A predicate that an instruction reads holds an uncorrectable error in a word with an active thread (R70). -/
def predsBad (w : Wave) (ps : List (BitVec 3)) : Bool :=
  w.badPreds.any fun q => predHalf q.2 &&& w.exec != 0 && ps.any fun p => q.1 == p.toNat

/-- The threads that participate under a guard (R144). -/
def participants (w : Wave) (guard : BitVec 3) : Mask := w.exec &&& predMask w guard

/-! ### The wave's sequencer registers (R89, R92) -/

/-- s0 to s31; in the trap handler s24 to s31 name hs0 to hs7 (R92). -/
def readS (w : Wave) (n : Nat) : Dword :=
  if inHandler w && decide (24 ≤ n) then w.hs.getD (n - 24) 0 else w.s.getD n 0

def writeS (w : Wave) (n : Nat) (v : Dword) : Wave :=
  if inHandler w && decide (24 ≤ n) then { w with hs := w.hs.set (n - 24) v } else { w with s := w.s.set n v }

/-! ### Sources and results of an instruction -/

/-- One vector operand: its field, and whether it names a pair (R33, R102). -/
structure VField where
  field : BitVec 6
  pair  : Bool
  deriving DecidableEq, Repr

def single (f : BitVec 6) : VField := ⟨f, false⟩
def pairAt (f : BitVec 6) : VField := ⟨f, true⟩

/-- The single fields that an operand names. -/
def VField.fields (o : VField) : List (BitVec 6) := if o.pair then [o.field, o.field + 1] else [o.field]

/-- A pair operand is even (R102). -/
def VField.even (o : VField) : Bool := !o.pair || o.field.getLsbD 0 == false

/-- What one thread computes: a value, its high half, its flags, and whether it produced a NaN (R47). -/
structure ThreadResult where
  lo    : Word
  hi    : Word
  flags : FpFlags
  nan   : Bool
  deriving DecidableEq, Repr

/-- The effect of a thread-set instruction on its wave: shaped results by destination field, the threads they are
written in, predicates written whole, flags by thread, and the threads that produced a NaN. -/
structure Effect where
  regs  : List (BitVec 6 × VRow)
  part  : Mask
  preds : List (BitVec 3 × Mask)
  flags : List FpFlags
  nan   : Mask
  deriving DecidableEq, Repr

/-- A result without flags. -/
def plainEffect (part : Mask) (regs : List (BitVec 6 × VRow)) : Effect := ⟨regs, part, [], [], 0⟩

/-- A result computed in each thread with its flags (R144, R145, R47). -/
def threadEffect (part : Mask) (d : VField) (srcs : List VRow) (f : Nat → ThreadResult) : Effect :=
  let lo := (d.field, perThread srcs fun i => (f i).lo)
  let regs := if d.pair then [lo, (d.field + 1, perThread srcs fun i => (f i).hi)] else [lo]
  ⟨regs, part, [], (List.range 64).map fun i => if part.getLsbD i then (f i).flags else 0,
    maskOf fun i => part.getLsbD i && (f i).nan⟩

/-- Predicates written, nothing else. -/
def predEffect (preds : List (BitVec 3 × Mask)) : Effect := ⟨[], 0, preds, [], 0⟩

/-! ### Fixed-latency results on their way (R109 to R113) -/

/-- A result on its way once a later write of its register has reached the file: it no longer counts in the threads that the
later write took (R112). -/
def supersede (r : Reg) (whole : Bool) (part : Mask) (e : InFlight) : InFlight :=
  if e.reg ≠ r then e
  else if whole then (if part = 0 then e else { e with row := none })
  else { e with mask := e.mask &&& ~~~part }

/-- A write of a register that comes after every result on its way to it. -/
def overwrite (w : Wave) (r : Reg) (res : VRow) (part : Mask) : Wave :=
  { writeReg w r res part with inflight := w.inflight.map (supersede r (shapeRank (readReg w r) < 3) part) }

/-- One result in program order: written once no slot is asked for, otherwise kept after the earlier ones. -/
def settleEntry (w : Wave) (e : InFlight) : Wave :=
  if e.need = 0 then match e.row with
    | some row => overwrite w e.reg row e.mask
    | none => w
  else { w with inflight := w.inflight ++ [e] }

/-- Writes every result that no slot is still asked for, oldest first. -/
def settleInFlight (w : Wave) : Wave := w.inflight.foldl settleEntry { w with inflight := [] }

/-- Writes every result on its way, whatever its slots: a trailer, a fault and a switch-out wait for that (R113). -/
def drainInFlight (w : Wave) : Wave :=
  let w' := w.inflight.foldl (fun w e => match e.row with
    | some row => writeReg w e.reg row e.mask
    | none => w) w
  { w' with inflight := [] }

/-- Writes the oldest result on its way now; R109 is still judged by its slots. -/
def landInFlight (w : Wave) : Wave :=
  match w.inflight with
  | [] => w
  | e :: rest =>
    match e.row with
    | some row =>
      let w' := writeReg w e.reg row e.mask
      { w' with inflight := if e.need = 0 then rest else { e with row := none } :: rest }
    | none => w

/-- Slots pass: the instruction just issued and its stall count (R109). -/
def passSlots (w : Wave) (stall : Nat) : Wave :=
  settleInFlight { w with inflight := w.inflight.map fun e => { e with need := e.need - (1 + stall) } }

/-- The results on their way that a register still waits for (R109). -/
def staleEntries (w : Wave) (r : Reg) : List InFlight := w.inflight.filter fun e => e.reg = r

/-- The operand breaks R109: one of its registers is written too late for it. -/
def operandStale (w : Wave) (o : VField) : Bool :=
  o.fields.any fun f => match regOf w f with
    | some r => !(staleEntries w r).isEmpty
    | none => false

/-- Seeds of free choices that one instruction may use: fields, threads and results on their way. -/
def freshSpan : Nat := 2 ^ 18

/-- One result that a broken stall count leaves open, on the row read so far: in each thread the value before or after the
write, by the free choice of Config; with `mix` false a U or A row is taken whole (R112, log 6). -/
def staleStep (mix whole : Bool) (seed : Nat) (cur : VRow) (e : InFlight) : VRow :=
  match e.row with
  | none => cur
  | some row =>
    if mix || !whole then
      gRow fun i =>
        if (if whole then e.mask != 0 else e.mask.getLsbD i) && Config.staleChoice (seed + i) then rowAt row i else rowAt cur i
    else if Config.staleChoice seed then writeRow cur row e.mask else cur

/-- The row that a field delivers when its stall count is broken. -/
def staleRow (mix : Bool) (w : Wave) (seed : Nat) (f : BitVec 6) : VRow :=
  match regOf w f with
  | none => .undeclared
  | some r =>
    (staleEntries w r).zipIdx.foldl
      (fun cur q => staleStep mix (shapeRank (readReg w r) < 3) (seed + 64 * f.toNat + 4096 * q.2) cur q.1) (readReg w r)

/-- The row that an instruction reads: the register file's, or R112's where its stall count is broken. -/
def sourceRow (mix : Bool) (w : Wave) (seed : Nat) (f : BitVec 6) : VRow :=
  match regOf w f with
  | none => .undeclared
  | some r => if (staleEntries w r).isEmpty then readReg w r else staleRow mix w seed f

/-! ### The scoreboard (R111) -/

/-- The register is the destination of a variable-latency result not yet written. -/
def regPending (w : Wave) (r : Reg) : Bool := w.pending.any fun p => p.regs.any fun q => q.1 = r

def fieldPending (w : Wave) (f : BitVec 6) : Bool :=
  match regOf w f with
  | some r => regPending w r
  | none => false

/-- A wave-scope vote has not written this condition register yet (R174). -/
def condPending (w : Wave) (k : BitVec 3) : Bool :=
  w.pending.any fun p => match p.vote with
    | some (n, _) => n = k
    | none => false

/-- The tag's published registers are still pending (R106). -/
def tagOutstanding (w : Wave) (tag : Nat) : Bool :=
  w.tags.getLsbD tag && w.tagRegs.any fun e => e.1 = tag && e.2.any (regPending w)

/-- Tags whose published results have all been written cease to be outstanding (R106). -/
def settleTags (w : Wave) : Wave :=
  let live := (List.range 8).filter (tagOutstanding w)
  { w with tags := live.foldl (fun m n => m ||| (1 <<< n)) 0,
           tagRegs := w.tagRegs.filter fun e => live.contains e.1 }

/-- A bit vector with one bit set or cleared. -/
def setBit {n : Nat} (x : BitVec n) (i : Nat) (b : Bool) : BitVec n :=
  if b then x ||| (1#n <<< i) else x &&& ~~~(1#n <<< i)

/-- Writes one pending result (R111). -/
def writePending (w : Wave) (p : Pending) : Wave :=
  let w1 := p.regs.foldl (fun w q => overwrite w q.1 q.2 p.mask) w
  match p.vote with
  | some (n, b) => { w1 with k := setBit w1.k n.toNat b }
  | none => w1

/-- One result of an instruction: latency 0 writes at once, otherwise the result is on its way (R110). -/
def giveResult (part : Mask) (latency : Nat) (w : Wave) (q : BitVec 6 × VRow) : Wave :=
  match regOf w q.1 with
  | none => w
  | some r =>
    if latency = 0 then overwrite w r q.2 part
    else { w with inflight := w.inflight ++ [⟨q.1.toNat, r, some q.2, part, latency + 1⟩] }

/-- Applies an effect with its latency. -/
def applyEffect (w : Wave) (e : Effect) (latency : Nat) : Wave :=
  let w1 := e.regs.foldl (giveResult e.part latency) w
  let w2 := e.preds.foldl (fun w q => setPred (clearBadPred w q.1) q.1 q.2) w1
  { w2 with fpstat := e.flags.foldl (· ||| ·) w2.fpstat }

end Sys2Proof.Machine
end

