-- ==== Sys2Proof/Machine/Ops.lean ====
section
/-!
DEFINITION. Sys2Proof/Machine/Ops.lean: the named operations over memory, translation and agents (spec/03), taking a trap
and returning from one (R259, R260, R329), and halting a context (R330, R331, R343, R344).
-/

namespace Sys2Proof.Machine

/-! ### Sparse maps and memories -/

/-- The entry of a key, or the default. -/
def mapGet {α : Type} (d : α) : SMap α → Nat → α
  | [], _ => d
  | (j, x) :: rest, k => if j = k then x else mapGet d rest k

/-- Sets a key, keeping the canonical form: keys rising, no entry equal to the default. -/
def mapSet {α : Type} [DecidableEq α] (d : α) : SMap α → Nat → α → SMap α
  | [], k, v => if v = d then [] else [(k, v)]
  | (j, x) :: rest, k, v =>
    if k < j then (if v = d then (j, x) :: rest else (k, v) :: (j, x) :: rest)
    else if k = j then (if v = d then rest else (k, v) :: rest)
    else (j, x) :: mapSet d rest k v

/-- Keys strictly rise from a bound, and no entry is the default. -/
def mapWfFrom {α : Type} [DecidableEq α] (d : α) : Nat → SMap α → Bool
  | _, [] => true
  | lo, (j, x) :: rest => decide (lo ≤ j) && decide (x ≠ d) && mapWfFrom d (j + 1) rest

/-- The canonical form of a sparse map. -/
def mapWf {α : Type} [DecidableEq α] (d : α) (m : SMap α) : Bool := mapWfFrom d 0 m

/-- The canonical form of a memory (log 3). -/
def Memory.wf (m : Mem) : Bool := mapWf (0 : Byte) m

/-- One byte; a byte that nothing has written reads zero (log 3). -/
def readByte (m : Mem) (a : Nat) : Byte := mapGet 0 m a

def writeByte (m : Mem) (a : Nat) (b : Byte) : Mem := mapSet 0 m a b

/-- n bytes from an address, lowest first. -/
def readBytes (m : Mem) (a : Nat) : Nat → List Byte
  | 0 => []
  | n + 1 => readByte m a :: readBytes m (a + 1) n

def writeBytes (m : Mem) (a : Nat) : List Byte → Mem
  | [] => m
  | b :: bs => writeBytes (writeByte m a b) (a + 1) bs

/-- The little-endian number of a byte list (R5). -/
def leNat : List Byte → Nat
  | [] => 0
  | b :: bs => b.toNat + 256 * leNat bs

/-- The n low bytes of a number, lowest first (R5). -/
def leBytes : Nat → Nat → List Byte
  | 0, _ => []
  | n + 1, v => BitVec.ofNat 8 v :: leBytes n (v / 256)

/-- Elements with their positions. -/
def numbered {α : Type} (xs : List α) : List (Nat × α) := (List.range xs.length).zip xs

/-! ### Where bytes live (R12, R17, R25) -/

/-- A place of one of the three memories. -/
inductive Space where
  | hbm | peer | host
  deriving DecidableEq, Repr

/-- A physical place: local HBM by physical address, peer memory by module and address, host memory by the address
that ATS returned. -/
structure Loc where
  space : Space
  addr  : Nat
  deriving DecidableEq, Repr

def spaceOf (s : State) : Space → Mem
  | .hbm => s.hbm | .peer => s.peer | .host => s.host

def setSpace (s : State) (sp : Space) (m : Mem) : State :=
  match sp with
  | .hbm => { s with hbm := m } | .peer => { s with peer := m } | .host => { s with host := m }

def readLoc (s : State) (l : Loc) (n : Nat) : List Byte := readBytes (spaceOf s l.space) l.addr n

def writeLoc (s : State) (l : Loc) (bs : List Byte) : State :=
  setSpace s l.space (writeBytes (spaceOf s l.space) l.addr bs)

/-- A range of a place holds a far-cache granule with an uncorrectable error (R70). -/
def farBad (s : State) (l : Loc) (n : Nat) : Bool :=
  l.space == .hbm && s.platform.badFar.any fun g => decide (64 * g < l.addr + n) && decide (l.addr < 64 * g + 64)

/-- Bytes of one isle's range of physical addresses. -/
def isleSpan : Nat := 0x1000000000

/-- A physical address lies in some isle's HBM (R12). -/
def inHbm (pa : Nat) : Bool := pa < 8 * isleSpan && pa % isleSpan < 0xC00000000

/-- The device writes bytes by physical address: what lies outside HBM names no memory, and holds nothing (R12). -/
def hbmPut (m : Mem) (a : Nat) : List Byte → Mem
  | [] => m
  | b :: bs => hbmPut (if inHbm a then writeByte m a b else m) (a + 1) bs

/-- A range lies wholly inside one isle's HBM (R17). -/
def rangeInHbm (pa size : Nat) : Bool :=
  inHbm pa && inHbm (pa + size - 1) && pa / isleSpan == (pa + size - 1) / isleSpan

/-! ### Lookup and update of the parts of the state -/

def State.wave? (s : State) (id : Nat) : Option Wave := s.waves.find? fun w => w.id == id
def State.block? (s : State) (id : Nat) : Option Block := s.blocks.find? fun b => b.id == id
def State.grid? (s : State) (id : Nat) : Option Grid := s.grids.find? fun g => g.id == id
def State.ctx? (s : State) (i : Nat) : Option Context := s.contexts.find? fun c => c.index == i
def State.queue? (s : State) (i : Nat) : Option Queue := s.queues.find? fun q => q.index == i
def State.launch? (s : State) (id : Nat) : Option Launch := s.launches.find? fun l => l.id == id

def State.putWave (s : State) (w : Wave) : State :=
  { s with waves := s.waves.map fun x => if x.id == w.id then w else x }
def State.putBlock (s : State) (b : Block) : State :=
  { s with blocks := s.blocks.map fun x => if x.id == b.id then b else x }
def State.putGrid (s : State) (g : Grid) : State :=
  { s with grids := s.grids.map fun x => if x.id == g.id then g else x }
def State.putCtx (s : State) (c : Context) : State :=
  { s with contexts := s.contexts.map fun x => if x.index == c.index then c else x }
def State.putQueue (s : State) (q : Queue) : State :=
  { s with queues := s.queues.map fun x => if x.index == q.index then q else x }
def State.putLaunch (s : State) (l : Launch) : State :=
  { s with launches := s.launches.map fun x => if x.id == l.id then l else x }

/-- The waves of a block. -/
def State.wavesOf (s : State) (block : Nat) : List Wave := s.waves.filter fun w => w.block == block

/-- The blocks of a grid. -/
def State.blocksOf (s : State) (grid : Nat) : List Block := s.blocks.filter fun b => b.grid == grid

def State.isle (s : State) (i : Nat) : IsleRegs := s.isles.getD i IsleRegs.reset

def State.putIsle (s : State) (i : Nat) (r : IsleRegs) : State := { s with isles := s.isles.set i r }

/-! ### Translation (R13 to R18) -/

/-- What an access needs of its leaf (R18), as the KIND of R28. -/
inductive Access where
  | load | store | atomic | fetch | copyRead | copyWrite | codeWrite
  deriving DecidableEq, Repr

/-- The KIND code of a resolution request (R28); a code write is reported as a store. -/
def accessKind : Access → Nat
  | .load => 0 | .store => 1 | .atomic => 2 | .fetch => 3 | .copyRead => 4 | .copyWrite => 5 | .codeWrite => 1

/-- RD, WR, X needed (R18). -/
def needsRd : Access → Bool
  | .load | .atomic | .copyRead => true
  | _ => false
def needsWr : Access → Bool
  | .store | .atomic | .copyWrite => true
  | _ => false
def needsX : Access → Bool
  | .fetch | .codeWrite => true
  | _ => false

/-- Bits 63:57 equal bit 56 (R13). -/
def canonical (va : Dword) : Bool := va.toNat / 2 ^ 56 == 0 || va.toNat / 2 ^ 56 == 255

/-- The causes of a translation miss (R28), and three that make no request: `route` is a peer that no link reaches (R391),
`failed` a host page whose page request was refused while the access waited (R25), `nonCanonical` an address that R13
forbids. -/
inductive MissCause where
  | invalid | permission | malformed | hostPage | route | failed | nonCanonical
  deriving DecidableEq, Repr

/-- The CAUSE of a record (R28). -/
def causeCode : MissCause → Nat
  | .invalid => 0 | .permission => 1 | .malformed => 2 | .hostPage => 3 | .route => 4 | .failed => 5 | .nonCanonical => 6

/-- A miss that makes a resolution request. -/
def asksVerdict : MissCause → Bool
  | .invalid | .permission | .malformed | .hostPage => true
  | .route | .failed | .nonCanonical => false

/-- The access-fault code of a miss that makes no request (R13, R29, R391). -/
def missCode (m : MissCause) : Nat := if m = .nonCanonical then 0x01 else 0x04

/-- Field of a page-table entry. -/
def pteField (e : Nat) (lo len : Nat) : Nat := e / 2 ^ lo % 2 ^ len

/-- Byte shift of the page that a leaf at a level maps (R14). -/
def levelShift : Nat → Nat
  | 0 => 16 | 1 => 21 | 2 => 30 | 3 => 39 | _ => 48

/-- A valid entry at a level breaks a rule of R17. -/
def pteMalformed (level e : Nat) : Bool :=
  let leaf := pteField e 4 1 == 1
  let addr := pteField e 12 40 * 4096
  let wr := pteField e 2 1 == 1
  let x := pteField e 3 1 == 1
  let fmt := pteField e 6 4
  let geo := pteField e 10 2
  let mtype := pteField e 52 2
  let peer := pteField e 54 8
  let size := 2 ^ levelShift level
  if leaf then
    level ≥ 3 || addr % size != 0 || (wr && x) || mtype == 3 || pteField e 62 2 != 0 ||
    (mtype == 0 && !rangeInHbm addr size) ||
    (mtype != 0 && (pteField e 5 1 != 0 || fmt != 0 || geo != 0)) ||
    (mtype == 2 && (addr != 0 || peer != 0)) || (mtype != 1 && peer != 0) ||
    fmt ≥ 8 || (fmt == 7 && geo ≥ 2) || (geo != 0 && fmt != 7)
  else
    level == 0 || pteField e 1 3 != 0 || pteField e 5 7 != 0 || pteField e 52 12 != 0 || !inHbm addr

/-- A finished walk: the leaf and its page shift, or the cause of the miss. -/
inductive Walk where
  | leaf (e : Nat) (shift : Nat)
  | miss (c : MissCause)
  deriving DecidableEq, Repr

/-- The walk from a table at a level (R14, R16, R17); structural in the level. -/
def walkFrom (hbm : Mem) (va : Nat) : Nat → Nat → Walk
  | 0, table =>
    let e := leNat (readBytes hbm (table + 8 * (va / 2 ^ 16 % 32)) 8)
    if pteField e 0 1 == 0 then .miss .invalid
    else if pteMalformed 0 e then .miss .malformed else .leaf e 16
  | level + 1, table =>
    let sh := levelShift (level + 1)
    let e := leNat (readBytes hbm (table + 8 * (va / 2 ^ sh % 512)) 8)
    if pteField e 0 1 == 0 then .miss .invalid
    else if pteMalformed (level + 1) e then .miss .malformed
    else if pteField e 4 1 == 1 then .leaf e sh
    else walkFrom hbm va level (pteField e 12 40 * 4096)

/-- A translated byte address: its place and the leaf's attributes. -/
structure Place where
  loc  : Loc
  leaf : Nat
  deriving DecidableEq, Repr

/-- What translating one access gives; `wait` is an ATS request not answered yet (R25). -/
inductive Xlat where
  | ok (p : Place)
  | miss (c : MissCause)
  | wait
  deriving DecidableEq, Repr

def placeFmt (p : Place) : Nat := pteField p.leaf 6 4
def placeGeo (p : Place) : Nat := pteField p.leaf 10 2
def placeChecked (p : Place) : Bool := pteField p.leaf 5 1 == 1
def placeIsHost (p : Place) : Bool := p.loc.space == .host

/-- The leaf has the permissions an access needs (R18). -/
def leafPermits (e : Nat) (k : Access) : Bool :=
  (!needsRd k || pteField e 1 1 == 1) && (!needsWr k || pteField e 2 1 == 1) && (!needsX k || pteField e 3 1 == 1)

/-- The address that a BASE field holds in bits 51:12 (R298, R324, R387). -/
def baseOf (r : Dword) : Nat := r.toNat / 4096 % 2 ^ 40 * 4096

/-- The leaf that an isle uses for an address: a cached one, or the walk's (R15). -/
def lookupLeaf (s : State) (isle : Nat) (root pasid va : Nat) : Walk :=
  match s.cached.find? fun c => c.isle == isle && c.pasid == pasid && c.page == va / 2 ^ c.shift with
  | some c => .leaf c.leaf.toNat c.shift
  | none => walkFrom s.hbm va 4 root

/-- A route entry reaches its peer: V, and some link of LINKS is up (R390, R391). -/
def peerReachable (s : State) (peer : Nat) : Bool :=
  let e := leNat (readBytes s.hbm (s.platform.strtb.toNat / 4096 % 2 ^ 40 * 4096 + 8 * peer) 8)
  e % 2 == 1 && s.platform.links &&& BitVec.ofNat 16 (e / 2) != 0

/-- A page request is pending for a host page that ATS reported absent (R25). -/
def absentPage (isle pasid page : Nat) (r : Request) : Bool :=
  r.isle == isle && r.pasid == pasid && r.ats == 2 && r.pages.contains page && r.verdict.isNone

/-- Translates an access of a context from an isle (R13 to R18, R25). The address is canonical. -/
def translate (s : State) (c : Context) (isle : Nat) (va : Dword) (k : Access) : Xlat :=
  let v := va.toNat % 2 ^ 57
  match lookupLeaf s isle c.root c.pasid v with
  | .miss cause => .miss cause
  | .leaf e sh =>
    if !leafPermits e k then .miss .permission
    else match pteField e 52 2 with
      | 0 => .ok ⟨⟨.hbm, pteField e 12 40 * 4096 + v % 2 ^ sh⟩, e⟩
      | 1 => if !peerReachable s (pteField e 54 8) then .miss .route else .ok ⟨⟨.peer, pteField e 54 8 * 2 ^ 52 + pteField e 12 40 * 4096 + v % 2 ^ sh⟩, e⟩
      | _ =>
        match s.ats.find? fun a => a.isle == isle && a.pasid == c.pasid && a.page == v / 4096 with
        | some a =>
          if (!needsRd k || a.read) && (!needsWr k || a.write) && (!needsX k || a.exec) then
            .ok ⟨⟨.host, a.hpa + v % 4096⟩, e⟩
          else .miss .hostPage
        | none => if s.requests.any (absentPage isle c.pasid (v / 4096)) then .miss .hostPage else .wait

/-- Caches the leaf that an access used (R15). -/
def cacheLeaf (s : State) (c : Context) (isle : Nat) (va : Dword) : State :=
  let v := va.toNat % 2 ^ 57
  match s.cached.find? fun t => t.isle == isle && t.pasid == c.pasid && t.page == v / 2 ^ t.shift with
  | some _ => s
  | none => match walkFrom s.hbm v 4 c.root with
    | .leaf e sh => { s with cached := ⟨isle, c.pasid, v / 2 ^ sh, sh, BitVec.ofNat 64 e⟩ :: s.cached }
    | .miss _ => s

/-! ### Resolution requests (R28) -/

/-- The function through which a context was created, from the function table (R388). -/
def functionOf (s : State) (ctx : Nat) : Nat := (readByte s.hbm (baseOf s.platform.fnctxb + ctx)).toNat % 64

/-- Two misses merge: same isle, PASID, 64 KiB span and cause, both pending (R28). An ATS request is no record, and nothing
merges into it. -/
def mergesWith (r : Request) (isle pasid va : Nat) (cause : Nat) : Bool :=
  r.isle == isle && r.pasid == pasid && r.va.toNat / 2 ^ 16 == va / 2 ^ 16 && r.verdict.isNone && r.ats != 1 &&
  r.kind / 16 == cause

/-- Puts a request that is to become a record into the list, or joins it to a pending one with which it merges: the state and
the sequence number (R28). -/
def enterRequest (s : State) (r : Request) : State × Nat :=
  match s.requests.find? fun x => mergesWith x r.isle r.pasid r.va.toNat (r.kind / 16) with
  | some x =>
    ({ s with requests := s.requests.map fun y =>
        if y = x then { y with pages := y.pages ++ r.pages.filter fun p => !y.pages.contains p } else y }, x.seq)
  | none =>
    let seq := (s.isle r.isle).nextReq
    ({ s.putIsle r.isle { s.isle r.isle with nextReq := (seq + 1) % 2 ^ 16 } with
        requests := s.requests ++ [{ r with seq := seq }] }, seq)

/-- The request of an access: a record to be (`ats` 0, or 2 with a page request), or an ATS request (`ats` 1). KIND and CAUSE are
held together as KIND + 16 · CAUSE. -/
def requestOf (s : State) (isle : Nat) (c : Context) (va : Dword) (k : Access) (cause : MissCause) (core ats : Nat) : Request :=
  let v := va.toNat % 2 ^ 57
  { isle := isle, seq := 0, pasid := c.pasid, fn := functionOf s c.index, va := BitVec.ofNat 64 v,
    kind := accessKind k + 16 * causeCode cause, core := core, written := false, verdict := none, ats := ats,
    pages := if ats = 0 then [] else [v / 4096] }

/-- Makes the request of a miss, or joins a pending one; the answer is its sequence number. -/
def requestResolution (s : State) (isle : Nat) (c : Context) (va : Dword) (k : Access) (cause : MissCause) (core : Nat) :
    State × Nat :=
  enterRequest s (requestOf s isle c va k cause core (if cause == .hostPage then 2 else 0))

/-- Sends an ATS request for a host page, unless one is outstanding; the answer is its number, above those of records (R25). DESIGN
CHOICE (log 13): results and outstanding requests of ATS are kept for pages of 4 KiB; the manual gives no page size. -/
def requestAts (s : State) (isle : Nat) (c : Context) (va : Dword) (k : Access) (core : Nat) : State × Nat :=
  let v := va.toNat % 2 ^ 57
  match s.requests.find? fun r => r.isle == isle && r.pasid == c.pasid && r.ats == 1 && r.pages.contains (v / 4096) with
  | some r => (s, r.seq)
  | none =>
    let r := { requestOf s isle c va k .hostPage core 1 with seq := 2 ^ 16 + s.nextId }
    ({ s with requests := s.requests ++ [r], nextId := s.nextId + 1 }, r.seq)

/-- Waves, block and grid sequencers that wait in place for the answer to an ATS request (R25). -/
def awaitWave (s : State) (w : Wave) (isle : Nat) (c : Context) (va : Dword) (k : Access) (core : Nat) : State :=
  let (s1, seq) := requestAts s isle c va k core
  s1.putWave { w with phase := .held .translation, requests := [seq] }
def awaitBlock (s : State) (b : Block) (c : Context) (va : Dword) (k : Access) : State :=
  let (s1, seq) := requestAts s b.isle c va k b.core
  s1.putBlock { b with phase := .held .translation, request := some seq }
def awaitGrid (s : State) (g : Grid) (c : Context) (va : Dword) (k : Access) : State :=
  let (s1, seq) := requestAts s g.isle c va k 0xFF
  s1.putGrid { g with phase := .held .translation, request := some seq }

/-! ### Reads and writes of one agent at a virtual address -/

/-- The outcome of a small access by virtual address. -/
inductive VaResult (α : Type) where
  | ok (v : α)
  | miss (c : MissCause)
  | wait

/-- Reads n bytes that lie in one page. -/
def readVa (s : State) (c : Context) (isle : Nat) (va : Dword) (k : Access) (n : Nat) : VaResult (List Byte) :=
  match translate s c isle va k with
  | .ok p => .ok (readLoc s p.loc n)
  | .miss m => .miss m
  | .wait => .wait

/-! ### Agents and their contexts -/

/-- Where an agent stands: its context, isle, core and slot (R343). -/
structure Standing where
  ctx  : Context
  isle : Nat
  core : Nat
  slot : Nat

def blockStanding (s : State) (b : Block) : Option Standing :=
  (s.ctx? b.ctx).map fun c => ⟨c, b.isle, b.core, b.slot⟩

def waveStanding (s : State) (w : Wave) : Option Standing :=
  (s.block? w.block).bind fun b => (s.ctx? b.ctx).map fun c => ⟨c, b.isle, b.core, w.slot⟩

def gridStanding (s : State) (g : Grid) : Option Standing :=
  (s.ctx? g.ctx).map fun c => ⟨c, g.isle, 0, g.slot⟩

/-! ### Counters of a capture window (R369) -/

/-- A core by its number in the package (R2, R339). -/
def coreNumber (isle core : Nat) : Nat := isle * 32 + core

/-- The key of a core's counter: the core's number, and the counter's offset in the counter block (R340, R369). -/
def counterKey (core off : Nat) : Nat := core * 4096 + off

/-- At least one agent of the context is placed (R369). -/
def agentPlaced (s : State) (ctx : Nat) : Bool :=
  s.grids.any (fun g => g.ctx == ctx) || s.blocks.any fun b => b.ctx == ctx && !b.ended

/-- Adds to a core's counter of a context; counters run only while the window is open and an agent of the context is placed. -/
def addCounter (s : State) (ctx core off n : Nat) : State :=
  match s.ctx? ctx with
  | some c =>
    if c.capture.isOpen && !c.saved && agentPlaced s ctx && n != 0 then
      let k := counterKey core off
      s.putCtx { c with capture := { c.capture with
        counters := mapSet 0 c.capture.counters k (mapGet 0 c.capture.counters k + n) } }
    else s
  | none => s

/-! ### The group table (R227) -/

/-- The key of an entry of an isle's group table. -/
def groupKey (isle gbase e : Nat) : Nat := isle * 256 + gbase + e

def emptyGroup : GroupEntry := ⟨0, 0, 0, 0, false, false⟩

def State.groupEntry (s : State) (g : Grid) (e : Nat) : GroupEntry :=
  mapGet emptyGroup s.groups (groupKey g.isle g.gbase e)

def State.putGroup (s : State) (g : Grid) (e : Nat) (x : GroupEntry) : State :=
  { s with groups := mapSet emptyGroup s.groups (groupKey g.isle g.gbase e) x }

/-- The entries of a grid's run are free. -/
def clearRun (s : State) (g : Grid) : State := (List.range g.runLen).foldl (fun s e => s.putGroup g e emptyGroup) s

/-! ### Halting a context (R330, R331, R343, R344) -/

/-- The AGENT codes of R343. -/
inductive HaltAgent where
  | wave | block | grid | engine | frontEnd
  deriving DecidableEq, Repr

def haltAgentCode : HaltAgent → Nat
  | .wave => 0 | .block => 1 | .grid => 2 | .engine => 3 | .frontEnd => 4

/-- The queue record of a queue (R297). -/
def queueRecord (s : State) (q : Nat) : Nat := baseOf (s.isle (q / 16384)).qtb + 32 * (q % 16384)

/-- The device writes QSTAT into a queue's record (R297). -/
def writeQstat (s : State) (q : Queue) (code : Nat) : State :=
  ({ s with hbm := hbmPut s.hbm (queueRecord s q.index + 13) [BitVec.ofNat 8 code] }).putQueue { q with qstat := code }

/-- The queues of a halted context take QSTAT 2 (R331). -/
def stopQueuesHalted (s : State) (ctx : Nat) : State :=
  (s.queues.filter fun q => q.ctx == ctx && q.enabled).foldl (fun s q => writeQstat s q 2) s

/-- A launch that a halt ends unfinished completes with STATUS 5 (R307, R331). -/
def endLaunchHalted (ctx : Nat) (l : Launch) : Launch :=
  if l.ctx == ctx && l.status.isNone then { l with status := some 5 } else l

/-- The grids that uncommitted reservations of a context hold go, and their group-table entries are free (R317, R318). -/
def releaseUncommitted (s : State) (ctx : Nat) : State :=
  let held := fun g : Grid => g.ctx == ctx && (s.launch? g.launch).any fun l => !l.admitted
  let s1 := (s.grids.filter held).foldl clearRun s
  { s1 with grids := s1.grids.filter fun g => !held g }

/-- Every agent of a halted context stops at once; the bounds of R330 allow that (log 5). -/
def haltContext (s : State) (ctx : Nat) (r : HaltRecord) (record : List Dword) : State :=
  match s.ctx? ctx with
  | none => s
  | some c =>
    let entry : FaultEntry := ⟨coreNumber r.isle r.core, record, r.code, r.reg, r.agent, !c.halted, r.slot, r.pc⟩
    let c1 := { c with log := c.log ++ [entry] }
    if c.halted then s.putCtx c1
    else
      let s1 := releaseUncommitted (s.putCtx { c1 with halted := true, halt := some r }) ctx
      stopQueuesHalted { s1 with launches := s1.launches.map (endLaunchHalted ctx) } ctx

/-- A halting fault of a wave, precise at its pc (R118, R327): every result on its way is written first (R113). -/
def haltWave (s : State) (w : Wave) (code reg : Nat) (record : List Dword) : State :=
  let w1 := { drainInFlight w with tcode := BitVec.ofNat 8 code, treg := BitVec.ofNat 6 reg }
  let s1 := s.putWave w1
  match waveStanding s w with
  | none => s1
  | some st => haltContext s1 st.ctx.index ⟨code, reg % 64, 0, st.isle, st.core, st.slot, w.pc⟩ record

/-- A fault of a block sequencer: it stops at the word and the context halts (R141, R328, R342). -/
def haltBlock (s : State) (b : Block) (code reg : Nat) (record : List Dword) : State :=
  let s1 := s.putBlock { b with fault := BitVec.ofNat 14 (code + 256 * reg) }
  haltContext s1 b.ctx ⟨code, reg % 64, 1, b.isle, b.core, b.slot, b.pc⟩ record

/-- A fault of a grid sequencer (R328, R343). -/
def haltGrid (s : State) (g : Grid) (code reg : Nat) : State :=
  let s1 := s.putGrid { g with fault := BitVec.ofNat 14 (code + 256 * reg) }
  haltContext s1 g.ctx ⟨code, reg % 64, 2, g.isle, 0, g.slot, g.pc⟩ []

/-- An engine's fault halts the context with the engine's stop record (R328, R333). -/
def haltEngine (s : State) (b : Block) (code : Nat) (record : List Dword) : State :=
  haltContext s b.ctx ⟨code, 0, 3, b.isle, b.core, b.slot, 0⟩ record

/-! ### What watch hits leave to do (R356 to R361) -/

/-- A wave once the instruction that hit has performed in every participating thread: its arm bits are set, and the strongest
halt acts (R356 to R359). -/
def settledWave (w : Wave) : Wave :=
  if w.hits = noHits then w
  else
    let w1 := { w with armed := w.armed ||| w.hits.arm, hits := noHits }
    match w.hits.action with
    | 0 => { w1 with halted := w.halted ||| w.hits.stop, exec := w.exec &&& ~~~w.hits.stop }
    | 1 => { w1 with haltedWave := true }
    | _ => { w1 with haltedWave := true, haltInfo := 2 }

/-! ### Traps (R259, R260, R329) -/

/-- A trap that is taken enters its core's fault log (R327, R344). -/
def logTrap (s : State) (w : Wave) (code : Nat) : State :=
  match waveStanding s w with
  | some st => s.putCtx { st.ctx with
      log := st.ctx.log ++ [⟨coreNumber st.isle st.core, [], code, 0, haltAgentCode .wave, false, st.slot, w.pc⟩] }
  | none => s

/-- TAKING A TRAP with code c at the wave's pc: EPC saves the address, TCAUSE the cause, the run ends with its results
written, and the wave continues at the handler; a nested or unhandled trap halts the context with code 0x18 (R329). An
instruction that LSTEP executes performs nothing and the step reports the code (R265). -/
def takeTrap (s : State) (w : Wave) (code : Nat) : State :=
  if w.stepMode.isSome then s.putWave { w with stepTrap := code, stepDone := true, replay := none, missFailed := false }
  else if w.tcode ≠ 0 ∨ w.tba = 0 then haltWave s w 0x18 code []
  else
    let w1 := drainInFlight w
    (logTrap s w code).putWave (settledWave { w1 with
      run := none, epc := w.pc, tcode := BitVec.ofNat 8 code, treg := 0, pc := w.tba ++ 0#2, phase := .ready,
      replay := none, missFailed := false })

/-- TRAP.W takes its trap at the word after it; TBA 0 leaves it unhandled (R260). -/
def takeTrapWord (s : State) (w : Wave) (c : BitVec 6) : State :=
  if w.tba = 0 then haltWave s w 0x18 (0xC0 + c.toNat) []
  else (logTrap s w (0xC0 + c.toNat)).putWave { w with
    epc := w.pc + 4, tcode := BitVec.ofNat 8 (0xC0 + c.toNat), treg := 0, pc := w.tba ++ 0#2, phase := .ready }

/-- RETURNING FROM A TRAP: the pc is EPC and TCAUSE reads 0 (R260). -/
def returnFromTrap (s : State) (w : Wave) : State :=
  s.putWave { w with pc := w.epc, tcode := 0, treg := 0, phase := .ready }

/-- A wave's fault: codes below 0x10 trap, the others halt (R327). -/
def faultWave (s : State) (w : Wave) (code reg : Nat) : State :=
  if code < 0x10 then takeTrap s w code else haltWave s w code reg []

/-! ### The turn -/

/-- Runs a wave's word: the wave that has the turn. -/
def withWave (s : State) (k : Wave → State) : Host.Outcome State Fault Refusal :=
  match s.turn with
  | some (.wave id) => match s.wave? id with
    | some w => .next (k w)
    | none => .refused .noAgent
  | _ => .refused .noAgent

/-- Runs a block's word: the block that has the turn. -/
def withBlock (s : State) (k : Block → State) : Host.Outcome State Fault Refusal :=
  match s.turn with
  | some (.block id) => match s.block? id with
    | some b => .next (k b)
    | none => .refused .noAgent
  | _ => .refused .noAgent

/-- Runs a grid's word: the grid that has the turn. -/
def withGrid (s : State) (k : Grid → State) : Host.Outcome State Fault Refusal :=
  match s.turn with
  | some (.grid id) => match s.grid? id with
    | some g => .next (k g)
    | none => .refused .noAgent
  | _ => .refused .noAgent

/-- Holds a wave in place: it performs nothing and tries its word again (R111, R319). -/
def holdWave (s : State) (w : Wave) (h : Hold) : State := s.putWave { w with phase := .held h }
def holdBlock (s : State) (b : Block) (h : Hold) : State := s.putBlock { b with phase := .held h }
def holdGrid (s : State) (g : Grid) (h : Hold) : State := s.putGrid { g with phase := .held h }

/-- The next free-value seed (log 6). -/
def nextFresh (s : State) (n : Nat) : State := { s with fresh := s.fresh + n }

end Sys2Proof.Machine
end

