-- ==== Sys2Proof/Machine/WaveImage.lean ====
section
/-!
DEFINITION. Sys2Proof/Machine/WaveImage.lean: images of the save area as bytes (spec/22, R339, R340), and a wave's save slot: its
image, and what a wave takes back from it (spec/07, R97 to R99; spec/22, R335, R341).
-/

namespace Sys2Proof.Machine

/-! ### Bytes of an image -/

/-- Zero bytes. -/
def zeros (n : Nat) : List Byte := List.replicate n 0

/-- Fields at rising offsets, zeros between them and after them, `size` bytes in all. -/
def imageFrom (size : Nat) : Nat → List (Nat × List Byte) → List Byte
  | pos, [] => zeros (size - pos)
  | pos, (o, bs) :: rest => zeros (o - pos) ++ bs ++ imageFrom size (o + bs.length) rest

def imageOf (size : Nat) (fields : List (Nat × List Byte)) : List Byte := imageFrom size 0 fields

def dwords (xs : List Dword) : List Byte := xs.flatMap fun x => leBytes 8 x.toNat

/-- The little-endian number in n bytes of an image. -/
def fieldOf (bs : List Byte) (off n : Nat) : Nat := leNat ((bs.drop off).take n)

def dwordsOf (bs : List Byte) (off n : Nat) : List Dword :=
  (List.range n).map fun i => BitVec.ofNat 64 (fieldOf bs (off + 8 * i) 8)

/-! ### Reads and writes of a context's virtual addresses -/

/-- Bytes from an address to the end of its smallest translated piece, at most n. -/
def pieceLen (va : Dword) (n : Nat) : Nat := min n (4096 - va.toNat % 4096)

/-- Writes bytes at a virtual address of a context, byte stretches that translate; others are lost. -/
def writeVaBytes (s : State) (c : Context) (isle : Nat) (va : Dword) (k : Access) (bs : List Byte) : State :=
  match translate s c isle va k with
  | .ok p => writeLoc s p.loc bs
  | _ => s

/-- Writes bytes at a virtual address, page by page; what does not translate is lost. -/
def saveBytes (c : Context) (isle : Nat) : Nat → State → Dword → List Byte → State
  | 0, s, _, _ => s
  | n + 1, s, va, bs =>
    if bs.isEmpty then s
    else
      let m := pieceLen va bs.length
      saveBytes c isle n (writeVaBytes s c isle va .store (bs.take m)) (va + BitVec.ofNat 64 m) (bs.drop m)

def saveAt (s : State) (c : Context) (isle : Nat) (va : Dword) (bs : List Byte) : State :=
  saveBytes c isle (bs.length / 4096 + 2) s va bs

/-- Reads n bytes at a virtual address, page by page; none where some page does not translate. -/
def loadBytes (s : State) (c : Context) (isle : Nat) : Nat → Dword → Nat → Option (List Byte)
  | 0, _, _ => some []
  | fuel + 1, va, n =>
    if n = 0 then some []
    else
      let m := pieceLen va n
      match readVa s c isle va .load m with
      | .ok bs => (loadBytes s c isle fuel (va + BitVec.ofNat 64 m) (n - m)).map (bs ++ ·)
      | _ => none

def loadAt (s : State) (c : Context) (isle : Nat) (va : Dword) (n : Nat) : Option (List Byte) :=
  loadBytes s c isle (n / 4096 + 2) va n

/-- The base of a core region in a save area (R339). -/
def coreRegion (save : Dword) (isle core : Nat) : Dword :=
  save + BitVec.ofNat 64 (0x120000 + 0x454000 * coreNumber isle core)

/-! ### Stacks and status words (R94, R222) -/

/-- Four region identifiers of REGSTK, the innermost in the low bits. -/
def regionWord (rs : List (BitVec 16)) (from_ : Nat) : Nat :=
  (List.range 4).foldl (fun n i => n + (rs.getD (from_ + i) 0).toNat * 2 ^ (16 * i)) 0

/-- WSTK and BSTK or GSTK: the depths of the stacks. -/
def wstkOf (w : Wave) : Nat :=
  w.masks.length + 32 * w.loops.length + 256 * w.calls.length + 65536 * w.regions.length

def bstkOf (loops : List LoopEntry) (calls : List Dword) : Nat := loops.length + 16 * calls.length

def loopBytes (ls : List LoopEntry) : List Byte :=
  ls.flatMap fun e => leBytes 4 e.begun.toNat ++ leBytes 4 e.total.toNat ++ leBytes 8 e.body.toNat

def loopsOf (bs : List Byte) (off n : Nat) : List LoopEntry :=
  (List.range n).map fun i => ⟨BitVec.ofNat 32 (fieldOf bs (off + 16 * i) 4), BitVec.ofNat 32 (fieldOf bs (off + 16 * i + 4) 4),
    BitVec.ofNat 64 (fieldOf bs (off + 16 * i + 8) 8)⟩

def clockBytes (c : Clock) : List Byte := leBytes 1 c.count.toNat ++ c.know.flatMap fun x => leBytes 1 x.toNat

def clockOf (bs : List Byte) (off : Nat) : Clock :=
  ⟨BitVec.ofNat 6 (fieldOf bs off 1), (List.range 17).map fun i => BitVec.ofNat 6 (fieldOf bs (off + 1 + i) 1)⟩

/-! ### Full/empty pairs (R96, R97) -/

/-- The partner of a wave's pair. -/
def partnerOf (s : State) (w : Wave) (r : SharedRange) : Option Wave :=
  (s.wavesOf w.block).find? fun x => x.index == r.partner

/-- The wave whose registers and bits hold the range: the producer, or the consumer once orphaned (R97, R341). -/
def rangeHolder (s : State) (w : Wave) (r : SharedRange) : Option Wave :=
  if r.producer || w.orphaned then some w else partnerOf s w r

/-! ### The save slot of a wave (R98, R99, R341) -/

/-- The bytes of a register row: U and A rows take 32 bytes, a general row 256 (R99). -/
def rowBytes : VRow → List Byte
  | .undeclared => []
  | .u v => leBytes 4 v.toNat ++ zeros 28
  | .a base stride => leBytes 4 base.toNat ++ leBytes 4 stride.toNat ++ zeros 24
  | .g vals => vals.flatMap fun v => leBytes 4 v.toNat

/-- A row of the same shape from an image, and the bytes after it. -/
def takeRow (bs : List Byte) : VRow → VRow × List Byte
  | .undeclared => (.undeclared, bs)
  | .u _ => (.u (BitVec.ofNat 32 (fieldOf bs 0 4)), bs.drop 32)
  | .a _ _ => (.a (BitVec.ofNat 32 (fieldOf bs 0 4)) (BitVec.ofNat 32 (fieldOf bs 4 4)), bs.drop 32)
  | .g _ => (.g ((List.range 64).map fun i => BitVec.ofNat 32 (fieldOf bs (4 * i) 4)), bs.drop 256)

/-- Rows from an image, one after another; those that `skip` names are not in it. -/
def takeRows (skip : Nat → Bool) : Nat → List VRow → List Byte → List VRow × List Byte
  | _, [], bs => ([], bs)
  | n, r :: rest, bs =>
    let (x, after) := if skip n then (r, bs) else takeRow bs r
    let (xs, last) := takeRows skip (n + 1) rest after
    (x :: xs, last)

/-- A consumer's slot omits its shared range unless it is orphaned (R99, R341). -/
def slotOmits (w : Wave) (n : Nat) : Bool :=
  match w.range with
  | some r => !(r.producer || w.orphaned) && decide (r.first ≤ n) && decide (n < r.first + r.len)
  | none => false

/-- The registers of a wave's row image. -/
def imageRegs (w : Wave) : List Nat := (List.range 64).filter fun n => !slotOmits w n

def rowImage (k : Kernel) (w : Wave) : List Byte :=
  (w.p.flatMap fun m => leBytes 8 m.toNat) ++ zeros 8 ++
  ((w.t.take k.temps).flatMap rowBytes) ++ ((imageRegs w).flatMap fun n => rowBytes (w.v.getD n .undeclared))

/-- The full/empty state of a wave (R98, R341). -/
def rangeBytes (s : State) (w : Wave) : List Byte :=
  match w.range with
  | none => zeros 16
  | some r =>
    let full := match rangeHolder s w r with
      | some h => h.full
      | none => 0
    leBytes 1 full.toNat ++ leBytes 1 ((if w.orphaned then 1 else 0) + (if r.producer then 0 else 2) + 4) ++
      leBytes 1 r.first ++ leBytes 1 r.len ++ zeros 12

/-- The bytes of a save slot. -/
def slotBytes : Nat := 0x4400

/-- The save slot of a wave (R98). -/
def waveImage (s : State) (k : Kernel) (w : Wave) : List Byte :=
  imageOf slotBytes
    [(0x000, leBytes 8 w.pc.toNat), (0x008, leBytes 8 w.epc.toNat), (0x010, leBytes 16 w.exec.toNat),
     (0x020, leBytes 16 w.halted.toNat), (0x030, leBytes 8 w.pcm.toNat), (0x038, leBytes 4 w.fpstat.toNat),
     (0x03C, leBytes 4 (if w.schk then 1 else 0)), (0x040, w.masks.flatMap fun m => leBytes 16 m.toNat),
     (0x140, loopBytes w.loops), (0x180, dwords w.calls), (0x200, dwords w.s), (0x300, dwords w.hs),
     (0x340, leBytes 8 (regionWord w.regions 0) ++ leBytes 8 (regionWord w.regions 4)), (0x350, leBytes 4 (wstkOf w)),
     (0x354, leBytes 4 (w.tcode.toNat + 256 * w.treg.toNat)), (0x358, leBytes 1 w.k.toNat), (0x359, leBytes 1 w.tags.toNat),
     (0x35A, leBytes 2 w.lastSeq.toNat), (0x360, leBytes 4 w.tk0.toNat ++ leBytes 4 w.tk1.toNat),
     (0x368, leBytes 8 (4 * w.tba.toNat)), (0x370, rangeBytes s w), (0x380, clockBytes w.clock),
     (0x400, w.tv.flatMap rowBytes), (0x800, rowImage k w)]

/-- The predicates, temporaries and registers of a wave from the row image of its slot (R99). -/
def takeImageRows (k : Kernel) (w : Wave) (bs : List Byte) : Wave :=
  let p := (List.range 7).map fun j => BitVec.ofNat 64 (fieldOf bs (0x800 + 8 * j) 8)
  let (tv, _) := takeRows (fun _ => false) 0 w.tv (bs.drop 0x400)
  let (t, rest) := takeRows (fun _ => false) 0 (w.t.take k.temps) (bs.drop 0x840)
  let (v, _) := takeRows (slotOmits w) 0 w.v rest
  { w with p := p, tv := tv, t := t ++ w.t.drop k.temps, v := v }

/-- The sequencer's state of a wave from its slot; the areas marked zero are ignored (R98). -/
def takeImageState (w : Wave) (bs : List Byte) : Wave :=
  let n := fieldOf bs 0x350 4
  let tc := fieldOf bs 0x354 4
  let regions := (List.range 8).map fun i => BitVec.ofNat 16 (fieldOf bs (0x340 + 2 * i) 2)
  let full := match w.range with
    | some r => if r.producer || w.orphaned then BitVec.ofNat 8 (fieldOf bs 0x370 1) else w.full
    | none => w.full
  { w with
    pc := BitVec.ofNat 64 (fieldOf bs 0 8), epc := BitVec.ofNat 64 (fieldOf bs 8 8),
    exec := BitVec.ofNat 64 (fieldOf bs 0x10 8), halted := BitVec.ofNat 64 (fieldOf bs 0x20 8),
    pcm := BitVec.ofNat 64 (fieldOf bs 0x30 8), fpstat := BitVec.ofNat 6 (fieldOf bs 0x38 4), schk := fieldOf bs 0x3C 1 % 2 == 1,
    masks := (List.range (n % 32)).map fun i => BitVec.ofNat 64 (fieldOf bs (0x40 + 16 * i) 8),
    loops := loopsOf bs 0x140 (n / 32 % 8), calls := dwordsOf bs 0x180 (n / 256 % 32), s := dwordsOf bs 0x200 32,
    hs := dwordsOf bs 0x300 8, regions := regions.take (n / 65536 % 16), tcode := BitVec.ofNat 8 tc,
    treg := BitVec.ofNat 6 (tc / 256), k := BitVec.ofNat 8 (fieldOf bs 0x358 1), tags := BitVec.ofNat 8 (fieldOf bs 0x359 1),
    lastSeq := BitVec.ofNat 16 (fieldOf bs 0x35A 2), tk0 := BitVec.ofNat 32 (fieldOf bs 0x360 4),
    tk1 := BitVec.ofNat 32 (fieldOf bs 0x364 4), tba := BitVec.ofNat 62 (fieldOf bs 0x368 8 / 4), full := full,
    clock := clockOf bs 0x380 }

/-- A wave takes back what its save slot holds (R10, R98, R335). -/
def takeImage (k : Kernel) (w : Wave) (bs : List Byte) : Wave := takeImageState (takeImageRows k w bs) bs

/-- The address of a wave's save slot (R340). -/
def slotAddress (c : Context) (isle core slot : Nat) : Dword := coreRegion c.save isle core + BitVec.ofNat 64 (slotBytes * slot)

/-- The kernel that a wave runs. -/
def waveKernel (s : State) (w : Wave) : Option Kernel :=
  (s.block? w.block).bind fun b => (s.grid? b.grid).map (·.kernel)

/-- Writes a wave's save slot. The driver maps the whole save area (R339); a slot that does not translate is not written, and
the wave then keeps what State holds (log 11). -/
def saveSlot (s : State) (st : Standing) (w : Wave) : State :=
  let va := slotAddress st.ctx st.isle st.core w.slot
  match translate s st.ctx st.isle va .store, waveKernel s w with
  | .ok _, some k => saveAt s st.ctx st.isle va (waveImage s k w)
  | _, _ => s

/-- A wave as its save slot gives it. -/
def loadSlot (s : State) (st : Standing) (slot : Nat) (w : Wave) : Wave :=
  match waveKernel s w, loadAt s st.ctx st.isle (slotAddress st.ctx st.isle st.core slot) slotBytes with
  | some k, some bs => takeImage k w bs
  | _, _ => w

end Sys2Proof.Machine
end

