-- ==== Sys2Proof/Machine/Watch.lean ====
section
/-!
DEFINITION. Sys2Proof/Machine/Watch.lean: the watch bank (spec/24, R351 to R363) and the writing of capture records
(R364 to R366): what an instruction's accesses and number-format events do beside its own effect.
-/

namespace Sys2Proof.Machine

/-- One access as the watch bank sees it (R354): the thread, the lowest byte, the bytes, the kind bit of R352 (0 load,
1 store, 2 atomic), the space, and the datum d; `none` where no value is compared. -/
structure WatchAccess where
  thread : Nat
  addr   : Nat
  size   : Nat
  kind   : Nat
  sp     : Bool
  datum  : Option Word
  deriving DecidableEq, Repr

def predKind (p : WatchPred) : Nat := p.ctl.toNat % 8
def predAgt (p : WatchPred) : Bool := p.ctl.getLsbD 3
def predSp (p : WatchPred) : Bool := p.ctl.getLsbD 4
def predVcmp (p : WatchPred) : Nat := p.ctl.toNat / 32 % 8
def predEvt (p : WatchPred) : BitVec 7 := (p.ctl.extractLsb' 8 7)
def predChain (p : WatchPred) : Bool := p.ctl.getLsbD 15
def predAct (p : WatchPred) : Nat := p.ctl.toNat / 2 ^ 16 % 8

/-- The value comparison of R354. -/
def watchCompare (p : WatchPred) (d : Word) : Bool :=
  let m : Word := p.vmask.setWidth 32
  let x := d &&& m
  let y : Word := p.val.setWidth 32 &&& m
  match predVcmp p with
  | 0 => true
  | 1 => x == y
  | 2 => x != y
  | 3 => x.ult y
  | 4 => !x.ult y
  | 5 => x.slt y
  | _ => !x.slt y

/-- An access predicate matches an access of a thread, sequencer or engine (R354). -/
def accessMatches (p : WatchPred) (agt : Bool) (x : WatchAccess) : Bool :=
  p.enabled && (predKind p / 2 ^ x.kind % 2 == 1) && predAgt p == agt && predSp p == x.sp &&
  x.addr ≤ p.hi.toNat && p.lo.toNat < x.addr + x.size &&
  (predVcmp p == 0 || match x.datum with
    | some d => watchCompare p d
    | none => false)

/-- An event predicate's matched events of one thread (R355): the flags raised and, in bit 6, a NaN produced. -/
def eventBits (p : WatchPred) (pc : Dword) (flags : FpFlags) (nan : Bool) : BitVec 7 :=
  if p.enabled && p.lo.toNat ≤ pc.toNat && pc.toNat ≤ p.hi.toNat then
    predEvt p &&& ((if nan then 1#1 else 0#1) ++ flags)
  else 0

/-- What one instruction hit of one predicate: threads, lowest matched byte, datum, matched events. -/
structure WatchHit where
  pred    : Nat
  threads : Mask
  count   : Nat
  addr    : Nat
  datum   : Word
  events  : BitVec 7
  deriving DecidableEq, Repr

/-- The header of a buffer: WIDX, DROP, and zeros to 64 bytes (R365). -/
def bufferHeader (count drop : Nat) : List Byte := leBytes 8 count ++ leBytes 8 drop ++ List.replicate 48 0

/-- A write of the capture unit inside one page; one that does not translate is lost, without a fault (R365). -/
def writeQuiet (s : State) (c : Context) (isle : Nat) (va : Dword) (bs : List Byte) : State :=
  match (if canonical va then translate s c isle va .store else .miss .invalid) with
  | .ok p => writeLoc s p.loc bs
  | _ => s

/-- Brings the header of a record buffer up to date, after the record is whole (R371). -/
def updateHeader (s : State) (ctx isle : Nat) (samples : Bool) : State :=
  match s.ctx? ctx with
  | none => s
  | some c =>
    let cap := c.capture
    if samples then writeQuiet s c isle cap.sbuf (bufferHeader cap.scount cap.sdrop)
    else writeQuiet s c isle cap.rbuf (bufferHeader cap.rcount cap.rdrop)

/-- Writes a 64-byte record at the record buffer, or counts it as dropped (R365); WIDX advances after it (R371). -/
def writeRecord (s : State) (ctx isle : Nat) (bytes : List Byte) : State :=
  match s.ctx? ctx with
  | none => s
  | some c =>
    let cap := c.capture
    if !cap.isOpen || cap.rbuf == 0 then s
    else
      let va := cap.rbuf + 64 + BitVec.ofNat 64 (64 * cap.rcount)
      let s1 := match (if cap.rcount < cap.rcap && canonical va then translate s c isle va .store else .miss .invalid) with
        | .ok p => (writeLoc s p.loc bytes).putCtx { c with capture := { cap with rcount := cap.rcount + 1 } }
        | _ => s.putCtx { c with capture := { cap with rdrop := cap.rdrop + 1 } }
      updateHeader s1 ctx isle false

/-- SLOT, CORE and ISLE of a record (R366). -/
def recordPlace (slot core isle : Nat) : Nat := slot % 128 + core % 32 * 128 + isle % 8 * 4096

/-- REGS of a record: ID0 to ID3 (R366). -/
def recordRegions (rs : List (BitVec 16)) : Nat :=
  (rs.getD 0 0).toNat + (rs.getD 1 0).toNat * 2 ^ 16 + (rs.getD 2 0).toNat * 2 ^ 32 + (rs.getD 3 0).toNat * 2 ^ 48

/-- The bytes of a watch record (R366). -/
def watchRecord (h : WatchHit) (act : Nat) (agt gone : Bool) (place : Nat) (ident : BitVec 20) (pc : Dword)
    (regions : Nat) : List Byte :=
  leBytes 2 (1 + 256 * h.pred) ++
  leBytes 2 (act + (if gone then 8 else 0) + (if agt then 16 else 0)) ++
  leBytes 4 place ++ leBytes 4 ident.toNat ++ leBytes 4 h.events.toNat ++ leBytes 8 pc.toNat ++
  leBytes 8 h.addr ++ leBytes 16 h.threads.toNat ++ leBytes 4 h.datum.toNat ++ leBytes 4 0 ++ leBytes 8 regions

/-- Adds to a predicate's count, which saturates at 32 bits (R357). -/
def addWatchCount (c : Context) (n k : Nat) : Context :=
  match c.watch[n]? with
  | none => c
  | some p => { c with watch := c.watch.set n { p with count := BitVec.ofNat 32 (min (p.count.toNat + k) (2 ^ 32 - 1)) } }

/-- The hits of one instruction over all predicates; `hitOf n p` gives the hit of predicate n, chained ones only where
the arm bit was set before the instruction (R356). -/
def collectHits (c : Context) (armed : BitVec 16) (hitOf : Nat → WatchPred → Option WatchHit) : List WatchHit :=
  (List.range 16).filterMap fun n => match c.watch[n]? with
    | none => none
    | some p => if predChain p && !armed.getLsbD n then none else hitOf n p

/-- The arm bits after some hits (R356). -/
def armAfter (armed : BitVec 16) (hits : List WatchHit) : BitVec 16 :=
  hits.foldl (fun a h => if h.pred < 15 then setBit a (h.pred + 1) true else a) armed

/-- The hit of a predicate on a list of accesses. -/
def accessHit (agt : Bool) (xs : List WatchAccess) (n : Nat) (p : WatchPred) : Option WatchHit :=
  match xs.filter (accessMatches p agt) with
  | [] => none
  | m :: ms =>
    let all := m :: ms
    some ⟨n, if agt then 0 else all.foldl (fun k x => setBit k x.thread true) 0,
      (all.map (·.thread)).eraseDups.length,
      max p.lo.toNat (all.foldl (fun a x => min a x.addr) m.addr), m.datum.getD 0, 0⟩

/-- The hit of a predicate on the events of a thread-set instruction. -/
def eventHit (pc : Dword) (flags : List FpFlags) (nan : Mask) (n : Nat) (p : WatchPred) : Option WatchHit :=
  let bits := fun i => eventBits p pc (flags.getD i 0) (nan.getLsbD i)
  let threads := maskOf fun i => bits i != 0
  if threads = 0 then none
  else
    let events := (List.range 64).foldl (fun a i => a ||| bits i) 0
    some ⟨n, threads, ((List.range 64).filter fun i => threads.getLsbD i).length, 0, 0, events⟩

/-- The launch of a wave. -/
def waveLaunch (s : State) (w : Wave) : Option Nat :=
  (s.block? w.block).bind fun b => (s.grid? b.grid).map fun g => g.launch

/-- The waves of a launch. -/
def launchOfWave (s : State) (launch : Nat) (w : Wave) : Bool := waveLaunch s w == some launch

/-- What a gang halt does to one wave of the launch: every placed wave but the one that hit is to stop at its next region edge
or at the bound (R361); the hitting wave stops once its instruction has performed (R359). -/
def gangHaltWave (s : State) (launch hitter : Nat) (w : Wave) : Wave :=
  if launchOfWave s launch w && w.phase != .exited && w.id != hitter && !w.haltedWave then { w with haltInfo := 1 } else w

/-- Halts the launch of a hit (R361); its sequencers and engines stop. A launch with no placed wave is not held (R362). -/
def gangHalt (s : State) (launch hitter : Nat) : State :=
  if s.waves.any (fun w => launchOfWave s launch w && w.phase != .exited) then
    let s1 := { s with waves := s.waves.map (gangHaltWave s launch hitter) }
    match s1.launch? launch with
    | some l => s1.putLaunch { l with frozen := true }
    | none => s1
  else s

/-- A wave that a gang halt has still to stop, at the bound (R361). -/
def gangBoundWave (s : State) (launch : Nat) (w : Wave) : Wave :=
  if launchOfWave s launch w && w.haltInfo == 1 then { w with haltedWave := true, haltInfo := 2 } else w

/-- The bound of a gang halt has come (R330, R361). -/
def gangBound (s : State) (launch : Nat) : State :=
  { s with waves := s.waves.map (gangBoundWave s launch) }

/-- The launch's sequencers and engines go on once no wave of it is halted as a wave, or still to be halted so by a gang halt
(R361, R362). -/
def thawLaunch (s : State) (launch : Nat) : State :=
  if s.waves.any (fun w => launchOfWave s launch w && w.phase != .exited && (w.haltedWave || w.haltInfo == 1)) then s
  else match s.launch? launch with
    | some l => if l.frozen then s.putLaunch { l with frozen := false } else s
    | none => s

/-- The launches that waves have left go on, where no wave of them remains halted (R362). -/
def thawWave (s : State) (launch : Option Nat) : State :=
  match launch with
  | some l => thawLaunch s l
  | none => s

/-- The action of a hit's predicate (R352, R357). -/
def hitAction (c : Context) (h : WatchHit) : Nat := match c.watch[h.pred]? with
  | some p => predAct p
  | none => 0

/-- Counts the hits of an instruction or unit, and writes their records (R357). -/
def recordHits (s : State) (c : Context) (isle : Nat) (hits : List WatchHit) (record : WatchHit → List Byte) : State :=
  let c1 := hits.foldl (fun c h => addWatchCount c h.pred h.count) c
  hits.foldl (fun s h =>
    if 1 ≤ hitAction c h && c.capture.watch.getLsbD 0 then writeRecord s c.index isle (record h) else s) (s.putCtx c1)

/-- What the hits of one pass add to those of the instruction: arm bits, and the strongest halt in the order gang, wave, thread
(R356, R357). A thread that LSTEP is stepping is not halted (R265). -/
def addHits (c : Context) (step : Bool) (h : HitSet) (hits : List WatchHit) : HitSet :=
  let action := if hits.any fun x => hitAction c x == 4 then 2 else if hits.any fun x => hitAction c x == 3 then 1 else 0
  { arm := armAfter h.arm hits,
    stop := if step then h.stop else hits.foldl (fun m x => if hitAction c x == 2 then m ||| x.threads else m) h.stop,
    action := if step then h.action else max h.action action }

/-- Counts and records the hits of a wave's instruction; a gang halt begins for the other waves of the launch, and what the
hits do to the wave itself stands in it until its instruction is over (R356 to R361). -/
def applyHits (s : State) (w : Wave) (st : Standing) (hits : List WatchHit) : State × Wave :=
  let ident := match s.block? w.block with
    | some b => b.ident
    | none => 0
  let s1 := recordHits s st.ctx st.isle hits fun h =>
    watchRecord h (hitAction st.ctx h) false false (recordPlace w.slot st.core st.isle) ident w.pc (recordRegions w.regions)
  let w1 := { w with hits := addHits st.ctx w.stepMode.isSome w.hits hits }
  if w.stepMode.isNone && hits.any fun h => hitAction st.ctx h == 4 then
    match waveLaunch s w with
    | some l => (gangHalt s1 l w.id, w1)
    | none => (s1, w1)
  else (s1, w1)

/-- Where a wave stands, if its context has some predicate enabled. -/
def watchOn (s : State) (w : Wave) : Option Standing :=
  (waveStanding s w).filter fun st => st.ctx.watch.any (·.enabled)

/-- Presents what one pass of a wave's instruction does to the watch bank: the state, and the wave with its hits (R354, R355). -/
def presentWave (s : State) (w : Wave) (hitOf : Nat → WatchPred → Option WatchHit) : State × Wave :=
  match watchOn s w with
  | none => (s, w)
  | some st => match collectHits st.ctx w.armed hitOf with
    | [] => (s, w)
    | hits => applyHits s w st hits

/-- Presents a wave's accesses to the watch bank (R354). -/
def presentAccesses (s : State) (w : Wave) (agt : Bool) (xs : List WatchAccess) : State × Wave :=
  presentWave s w (accessHit agt xs)

/-- Presents a thread-set instruction's number-format events to the watch bank (R355). -/
def presentEvents (s : State) (w : Wave) (flags : List FpFlags) (nan : Mask) : State × Wave :=
  presentWave s w (eventHit w.pc flags nan)

/-- A wave whose own sequencer word a gang halt hit has executed that word: it is halted as a wave (R359, R361). -/
def haltHitter (s : State) (hitter : Nat) : State :=
  match s.wave? hitter with
  | some w => s.putWave { w with haltedWave := true, haltInfo := 2 }
  | none => s

/-- Presents an access of a sequencer, or a unit of an engine of a block, as an AGT = 1 access: counts and records, and any halt
acts as a gang halt (R354, R356, R360). -/
def presentAgent (s : State) (block : Option Block) (ctx isle core slot launch : Nat) (pc : Dword) (gone : Bool)
    (regions hitter : Nat) (xs : List WatchAccess) : State :=
  match s.ctx? ctx with
  | none => s
  | some c =>
    if !(c.watch.any (·.enabled)) then s
    else
      let wave0 := block.bind fun b => (s.wavesOf b.id).find? fun w => w.index == 0
      let armed := match wave0 with
        | some w => w.armed
        | none => 0
      let hits := collectHits c armed (accessHit true xs)
      let ident := match block with
        | some b => b.ident
        | none => 0
      let halts := fun h : WatchHit => decide (2 ≤ hitAction c h)
      let s1 := recordHits s c isle hits fun h =>
        watchRecord h (if halts h then 4 else hitAction c h) true gone (recordPlace slot core isle) ident pc regions
      let s2 := match wave0 with
        | some w => s1.putWave { w with armed := armAfter w.armed hits }
        | none => s1
      if hits.any halts then haltHitter (gangHalt s2 launch hitter) hitter else s2

end Sys2Proof.Machine
end

