-- ==== Sys2Proof/Machine/SeqFrame.lean ====
section
/-!
DEFINITION. Sys2Proof/Machine/SeqFrame.lean: the shared frame of sequencer words (spec/14, R237, R238), fetching words
(R108, R210, R245), continuation tokens (spec/13, R214 to R219), and the stacks of the scopes (R222).
-/

namespace Sys2Proof.Machine

/-! ### The frame -/

def nextWave (w : Wave) : Wave := { w with pc := w.pc + 4, phase := .ready }
def nextBlock (b : Block) : Block := { b with pc := b.pc + 4, phase := .ready }
def nextGrid (g : Grid) : Grid := { g with pc := g.pc + 4, phase := .ready }

/-- A wave's sequencer word: not inside a run (R107), its fields legal (R117), and no condition register that it names
pending (R174, R237). -/
def seqWave (i : Instr) (conds : List (BitVec 3)) (s : State) (k : Wave → State) (w : Wave) : State :=
  if w.run.isSome || !staticLegal i then haltWave s w 0x10 0 []
  else if conds.any (condPending w) then holdWave s w .voteRead
  else k w

/-- A block's sequencer word (R175, R237, R238). -/
def seqBlock (i : Instr) (conds : List (BitVec 3)) (s : State) (k : Block → State) (b : Block) : State :=
  if !staticLegal i then haltBlock s b 0x10 0 []
  else if conds.any (fun n => b.kPending.getLsbD n.toNat) then holdBlock s b .voteRead
  else k b

/-- A grid's sequencer word. -/
def seqGrid (i : Instr) (conds : List (BitVec 3)) (s : State) (k : Grid → State) (g : Grid) : State :=
  if !staticLegal i then haltGrid s g 0x10 0
  else if conds.any (fun n => g.kPending.getLsbD n.toNat) then holdGrid s g .voteRead
  else k g

/-- A word at the scope that its field names (R104, R210); a scope that no sequencer owns is the wave's (R212, R117). -/
def runSeq (i : Instr) (c : BitVec 3) (conds : List (BitVec 3)) (s : State)
    (kw : Wave → State) (kb : Block → State) (kg : Grid → State) : Host.Outcome State Fault Refusal :=
  if c = 2 then withBlock s (seqBlock i conds s kb)
  else if c = 3 then withGrid s (seqGrid i conds s kg)
  else withWave s (seqWave i conds s kw)

/-- A word of wave or thread scope alone. -/
def runSeqWave (i : Instr) (s : State) (k : Wave → State) : Host.Outcome State Fault Refusal :=
  withWave s (seqWave i [] s k)

/-- A word of block scope alone. -/
def runSeqBlock (i : Instr) (s : State) (k : Block → State) : Host.Outcome State Fault Refusal :=
  withBlock s (seqBlock i [] s k)

/-- A word of grid scope alone. -/
def runSeqGrid (i : Instr) (s : State) (k : Grid → State) : Host.Outcome State Fault Refusal :=
  withGrid s (seqGrid i [] s k)

/-! ### Registers of a scope -/

def readB (b : Block) (n : BitVec 5) : Dword := b.b.getD n.toNat 0
def writeB (b : Block) (n : BitVec 5) (v : Dword) : Block := { b with b := b.b.set n.toNat v }
def readG (g : Grid) (n : BitVec 5) : Dword := g.g.getD n.toNat 0
def writeG (g : Grid) (n : BitVec 5) (v : Dword) : Grid := { g with g := g.g.set n.toNat v }

/-! ### Code words (R108, R210, R381, R402) -/

/-- The kernel's text of a grid: first word and the address after its last word (R375). -/
def textBounds (g : Grid) : Nat × Nat := (g.base.toNat + g.kernel.entry, g.base.toNat + g.kernel.textEnd)

/-- A code word at an address, fetched for a context from an isle with X (R18). -/
def fetchWord (s : State) (c : Context) (isle : Nat) (pc : Dword) : VaResult Word :=
  if !canonical pc then .miss .nonCanonical
  else match readVa s c isle pc .fetch 4 with
    | .ok bs => .ok (BitVec.ofNat 32 (leNat bs))
    | .miss m => .miss m
    | .wait => .wait

/-- The code word at an address holds an uncorrectable error (R70). -/
def fetchBad (s : State) (c : Context) (isle : Nat) (pc : Dword) : Bool :=
  match translate s c isle pc .fetch with
  | .ok p => farBad s p.loc 4
  | _ => false

/-- The address of an SB target (R104). -/
def branchTarget (pc : Dword) (o : BitVec 17) : Dword := pc + o.signExtend 64 * 4

/-- What the search for the matching ENDL finds (R248). -/
inductive Scan where
  | found (pc : Dword)
  | miss (pc : Dword) (c : MissCause)
  | wait (pc : Dword)
  | none

/-- The search for the matching ENDL (R248): depth up at loops and down at ENDLs of scope c, runs skipped whole, every other
word passed; `fuel` bounds the words of the text. -/
def scanEndl (s : State) (ctx : Context) (isle : Nat) (c : BitVec 3) (textEnd : Nat) : Nat → Dword → Nat → Scan
  | 0, _, _ => .none
  | fuel + 1, pc, depth =>
    if textEnd ≤ pc.toNat then .none
    else match fetchWord s ctx isle pc with
      | .miss m => .miss pc m
      | .wait => .wait pc
      | .ok w =>
        let op := (sel w 21 7).toNat
        let scope := sel w 28 3
        if sel w 31 1 == 0 then scanEndl s ctx isle c textEnd fuel (pc + 4) depth
        else if scope == 1 && op == 0x2B then
          scanEndl s ctx isle c textEnd fuel (pc + BitVec.ofNat 64 (4 * ((sel w 11 5).toNat + 3))) depth
        else if scope == c && (op == 0x24 || op == 0x25) then scanEndl s ctx isle c textEnd fuel (pc + 4) (depth + 1)
        else if scope == c && op == 0x26 then
          if depth ≤ 1 then .found pc else scanEndl s ctx isle c textEnd fuel (pc + 4) (depth - 1)
        else scanEndl s ctx isle c textEnd fuel (pc + 4) depth

/-! ### Misses of a sequencer (R27, R28, R139) -/

/-- A wave's sequencer access misses: the word waits in place for the verdict (R139); a peer that no link reaches is a
failed translation (R391). -/
def waveMiss (s : State) (w : Wave) (st : Standing) (va : Dword) (k : Access) (m : MissCause) : State :=
  if !asksVerdict m then takeTrap s w (missCode m) else
  let (s1, seq) := requestResolution s st.isle st.ctx va k m st.core
  s1.putWave { w with phase := .held .translation, requests := [seq] }

def blockMiss (s : State) (b : Block) (c : Context) (va : Dword) (k : Access) (m : MissCause) : State :=
  if !asksVerdict m then haltBlock s b (missCode m) 0 [] else
  let (s1, seq) := requestResolution s b.isle c va k m b.core
  s1.putBlock { b with phase := .held .translation, request := some seq }

def gridMiss (s : State) (g : Grid) (c : Context) (va : Dword) (k : Access) (m : MissCause) : State :=
  if !asksVerdict m then haltGrid s g (missCode m) 0 else
  let (s1, seq) := requestResolution s g.isle c va k m 0xFF
  s1.putGrid { g with phase := .held .translation, request := some seq }

/-! ### Tokens (R214 to R219) -/

/-- A sequence number that a consumer has not reached yet, modulo 2^16. -/
def seqAfter (seq last : BitVec 16) : Bool := seq != last && (seq - last).toNat < 2 ^ 15

/-- A block token is retained while some placed wave has neither consumed it nor exited (R218, R219). -/
def tokenHeldByWaves (ws : List Wave) (t : Token) : Bool :=
  ws.any fun w => w.phase != .exited && seqAfter t.seq w.lastSeq

/-- The block's queue after some acknowledgements. -/
def pruneBlockTokens (s : State) (block : Nat) : State :=
  match s.block? block with
  | none => s
  | some b => s.putBlock { b with tokens := b.tokens.filter (tokenHeldByWaves (s.wavesOf block)) }

/-- A grid token is retained while some block of the grid, placed or still to be placed, has not consumed it and has not
ended (R219). -/
def tokenHeldByBlocks (g : Grid) (bs : List Block) (t : Token) : Bool :=
  decide (g.nextBlock < g.nblk) ||
  bs.any fun b => b.phase != .exited && seqAfter t.seq b.lastSeq

def pruneGridTokens (s : State) (grid : Nat) : State :=
  match s.grid? grid with
  | none => s
  | some g => s.putGrid { g with tokens := g.tokens.filter (tokenHeldByBlocks g (s.blocksOf grid)) }

/-- The limits of retained tokens (R218). -/
def blockTokenLimit : Nat := 4
def gridTokenLimit : Nat := 8

/-- A steering word at its scope: while the queue holds its limit of retained tokens, a block or grid executes nothing of it
(R218). -/
def runSteer (i : Instr) (c : BitVec 3) (conds : List (BitVec 3)) (s : State)
    (kw : Wave → State) (kb : Block → State) (kg : Grid → State) : Host.Outcome State Fault Refusal :=
  runSeq i c conds s kw
    (fun b => if blockTokenLimit ≤ b.tokens.length then holdBlock s b .token else kb b)
    (fun g => if gridTokenLimit ≤ g.tokens.length then holdGrid s g .token else kg g)

/-- A block's steering word: waits for room, pushes one token with the block's own values, and continues (R214, R216,
R218). -/
def steerBlock (s : State) (b : Block) (tgt : Dword) (v0 v1 : Word) (isEnd : Bool) (k : Block → Block) : State :=
  if blockTokenLimit ≤ b.tokens.length then holdBlock s b .token
  else
    let t : Token := ⟨tgt, b.pc, v0, v1, b.nextSeq, isEnd, false⟩
    let b1 := k { b with tokens := b.tokens ++ [t], nextSeq := b.nextSeq + 1, pc := tgt, phase := .ready }
    pruneBlockTokens (s.putBlock b1) b.id

/-- A grid's steering word. -/
def steerGrid (s : State) (g : Grid) (tgt : Dword) (v0 v1 : Word) (isEnd : Bool) (k : Grid → Grid) : State :=
  if gridTokenLimit ≤ g.tokens.length then holdGrid s g .token
  else
    let t : Token := ⟨tgt, g.pc, v0, v1, g.nextSeq, isEnd, false⟩
    let g1 := k { g with tokens := g.tokens ++ [t], nextSeq := g.nextSeq + 1, pc := tgt, phase := .ready }
    pruneGridTokens (s.putGrid g1) g.id

/-! ### Loops (R246, R247) -/

/-- Pushes a loop entry; `none` beyond the depth of R222. -/
def pushLoop (loops : List LoopEntry) (n : Word) (body : Dword) : Option (List LoopEntry) :=
  if loops.length < 4 then some (loops ++ [⟨1, n, body⟩]) else none

/-- The top entry. -/
def topLoop (loops : List LoopEntry) : Option LoopEntry := loops.getLast?

/-- What an ENDL does: the stack, the next pc and V0 (R246); `none` on an empty stack. -/
def endLoop (loops : List LoopEntry) (pc : Dword) : Option (List LoopEntry × Dword × Word) :=
  match topLoop loops with
  | none => none
  | some e =>
    if e.begun.toNat < e.total.toNat then
      some (loops.dropLast ++ [{ e with begun := e.begun + 1 }], e.body, e.begun)
    else some (loops.dropLast, pc + 4, e.begun)

end Sys2Proof.Machine
end

