-- ==== Sys2Proof/Machine/SeqAlu.lean ====
section
/-!
DEFINITION. Sys2Proof/Machine/SeqAlu.lean: sequencer arithmetic, condition registers, token reads and status access
(spec/14, R239 to R244; spec/07, R93 to R95).
-/

namespace Sys2Proof.Machine

/-- A register-form ALU word at its scope (R239). -/
def aluWord (i : Instr) (f : S3) (op : Dword → Dword → Dword) (s : State) : Host.Outcome State Fault Refusal :=
  runSeq i f.c [] s
    (fun w => s.putWave (nextWave (writeS w f.d.toNat (op (readS w f.a.toNat) (readS w f.b.toNat)))))
    (fun b => s.putBlock (nextBlock (writeB b f.d (op (readB b f.a) (readB b f.b)))))
    (fun g => s.putGrid (nextGrid (writeG g f.d (op (readG g f.a) (readG g f.b)))))

/-- An immediate-form word: the new value of sd from its old one (R240). -/
def immWord (i : Instr) (c : BitVec 3) (d : BitVec 5) (op : Dword → Dword) (s : State) : Host.Outcome State Fault Refusal :=
  runSeq i c [] s
    (fun w => s.putWave (nextWave (writeS w d.toNat (op (readS w d.toNat)))))
    (fun b => s.putBlock (nextBlock (writeB b d (op (readB b d)))))
    (fun g => s.putGrid (nextGrid (writeG g d (op (readG g d)))))

/-- A word that sets a condition register of its scope. -/
def condWord (i : Instr) (c k : BitVec 3) (reads : List (BitVec 3)) (s : State)
    (w : Wave → Bool) (b : Block → Bool) (g : Grid → Bool) : Host.Outcome State Fault Refusal :=
  runSeq i c (k :: reads) s
    (fun x => s.putWave (nextWave { x with k := setBit x.k k.toNat (w x) }))
    (fun x => s.putBlock (nextBlock { x with k := setBit x.k k.toNat (b x) }))
    (fun x => s.putGrid (nextGrid { x with k := setBit x.k k.toNat (g x) }))

def execNop (c : BitVec 3) (s : State) :=
  runSeq (.nop c) c [] s (fun w => s.putWave (nextWave w)) (fun b => s.putBlock (nextBlock b))
    (fun g => s.putGrid (nextGrid g))

def shiftAmount (y : Dword) : Nat := y.toNat % 64

def execSadd (f : S3) (s : State) := aluWord (.sadd f) f (· + ·) s
def execSsub (f : S3) (s : State) := aluWord (.ssub f) f (· - ·) s
def execSmul (f : S3) (s : State) := aluWord (.smul f) f (· * ·) s
def execSand (f : S3) (s : State) := aluWord (.sand f) f (· &&& ·) s
def execSor (f : S3) (s : State) := aluWord (.sor f) f (· ||| ·) s
def execSxor (f : S3) (s : State) := aluWord (.sxor f) f (· ^^^ ·) s
def execSshl (f : S3) (s : State) := aluWord (.sshl f) f (fun x y => x <<< shiftAmount y) s
def execSshr (f : S3) (s : State) := aluWord (.sshr f) f (fun x y => x >>> shiftAmount y) s
def execSsar (f : S3) (s : State) := aluWord (.ssar f) f (fun x y => x.sshiftRight (shiftAmount y)) s

/-- SMIN and SMAX, signed or unsigned (R239). -/
def minDword (u : BitVec 1) (x y : Dword) : Dword :=
  if u = 1 then (if x.ult y then x else y) else if x.slt y then x else y
def maxDword (u : BitVec 1) (x y : Dword) : Dword :=
  if u = 1 then (if x.ult y then y else x) else if x.slt y then y else x

def execSmin (f : S3) (u : BitVec 1) (s : State) := aluWord (.smin f u) f (minDword u) s
def execSmax (f : S3) (u : BitVec 1) (s : State) := aluWord (.smax f u) f (maxDword u) s

def execSmovi (c : BitVec 3) (d : BitVec 5) (i : BitVec 16) (s : State) :=
  immWord (.smovi c d i) c d (fun _ => i.signExtend 64) s
def execSlui (c : BitVec 3) (d : BitVec 5) (i : BitVec 16) (s : State) :=
  immWord (.slui c d i) c d (fun x => (x <<< 16) ||| i.setWidth 64) s
def execSaddi (c : BitVec 3) (d : BitVec 5) (i : BitVec 16) (s : State) :=
  immWord (.saddi c d i) c d (fun x => x + i.signExtend 64) s

/-- The conditions of SCMP (R241). -/
def compareDword (f : BitVec 3) (x y : Dword) : Bool :=
  match f.toNat with
  | 0 => x == y | 1 => x != y | 2 => x.slt y | 3 => x.sle y | 4 => x.ult y | _ => x.ule y

def execScmp (c k : BitVec 3) (a b : BitVec 5) (f : BitVec 3) (s : State) :=
  condWord (.scmp c k a b f) c k [] s (fun w => compareDword f (readS w a.toNat) (readS w b.toNat))
    (fun x => compareDword f (readB x a) (readB x b)) (fun x => compareDword f (readG x a) (readG x b))

/-- The truth table of KOP (R242). -/
def tableBit (t : BitVec 4) (k : BitVec 8) (a b : BitVec 3) : Bool :=
  t.getLsbD ((if k.getLsbD a.toNat then 2 else 0) + (if k.getLsbD b.toNat then 1 else 0))

def execKop (c k a b : BitVec 3) (t : BitVec 4) (s : State) :=
  condWord (.kop c k a b t) c k [a, b] s (fun w => tableBit t w.k a b) (fun x => tableBit t x.k a b)
    (fun x => tableBit t x.k a b)

/-- The value that TKRD reads; `none` for the pass index of an empty loop stack (R243). -/
def tokenValue (f : BitVec 2) (tk0 tk1 : Word) (loops : List LoopEntry) : Option Dword :=
  if f = 0 then some (tk0.setWidth 64)
  else if f = 1 then some (tk1.setWidth 64)
  else (topLoop loops).map fun e => (e.begun - 1).setWidth 64

def execTkrd (c : BitVec 3) (d : BitVec 5) (f : BitVec 2) (s : State) :=
  runSeq (.tkrd c d f) c [] s
    (fun w => match tokenValue f w.tk0 w.tk1 w.loops with
      | some v => s.putWave (nextWave (writeS w d.toNat v))
      | none => haltWave s w 0x10 0 [])
    (fun b => match tokenValue f b.tk0 b.tk1 b.loops with
      | some v => s.putBlock (nextBlock (writeB b d v))
      | none => haltBlock s b 0x10 0 [])
    (fun g => haltGrid s g 0x10 0)

/-! ### Status registers (R93 to R95, R244) -/

/-- A wave's status register, the half that HI selects, zero-extended (R244). -/
def readWaveStatus (w : Wave) (h : BitVec 1) (i : BitVec 5) : Dword :=
  let hi := h == 1
  match i.toNat with
  | 0 => 64
  | 1 => if hi then 0 else w.exec
  | 2 => if hi then 0 else w.halted
  | 3 => w.fpstat.setWidth 64
  | 4 => if w.schk then 1 else 0
  | 5 => w.tba ++ 0#2
  | 6 => BitVec.ofNat 64 (regionWord w.regions (if hi then 4 else 0))
  | 7 => if w.preq then 1 else 0
  | 8 => w.pcm
  | 9 => BitVec.ofNat 64 (w.tcode.toNat + 256 * w.treg.toNat)
  | 10 => w.epc
  | _ => BitVec.ofNat 64 (wstkOf w)

/-- A write of a wave's status register under R93, R95 and R244; `none` is the access fault of a non-canonical TBA. -/
def writeWaveStatus (w : Wave) (h : BitVec 1) (i : BitVec 5) (v : Dword) : Option Wave :=
  match i.toNat with
  | 1 => some (if h = 1 then w else { w with exec := v &&& ~~~w.halted })
  | 3 => some { w with fpstat := v.setWidth 6 }
  | 4 => some { w with schk := v.getLsbD 0 }
  | 5 => if canonical (v &&& ~~~3#64) then some { w with tba := v.extractLsb' 2 62 } else none
  | 10 => some { w with epc := v &&& ~~~3#64 }
  | _ => some w

/-! ### Format windows (R60, R61) -/

def winBase (x : Dword) : Nat := x.toNat % 2048 * 256
def winElems (x : Dword) : Nat := x.toNat / 2 ^ 16 % 2 ^ 16 * 64
def winFmt (x : Dword) : Nat := x.toNat / 2 ^ 32 % 16
def winGeo (x : Dword) : Nat := x.toNat / 2 ^ 36 % 4

/-- Element size in bits of a page format (R19); raw has none. -/
def fmtBits (fmt : Nat) : Nat :=
  match fmt with
  | 1 => 16 | 2 => 16 | 3 => 8 | 4 => 8 | 5 => 8 | 6 => 4 | 7 => 4 | _ => 0

/-- Bytes of n elements of a format in a compact window (R61). -/
def packedBytes (fmt geo n : Nat) : Nat :=
  if fmt = 7 then n / 2 + n / 8 + (if geo = 0 then n / 32 else 0) else n * fmtBits fmt / 8

/-- A window whose range passes the allotment, or whose FMT or GEO is no code of R17, reads as invalid (R61). -/
def winValid (b : Block) (x : Dword) : Bool :=
  x.getLsbD 63 && 1 ≤ winFmt x && winFmt x ≤ 7 && (winFmt x != 7 || winGeo x < 2) && (winFmt x == 7 || winGeo x == 0) &&
  winBase x + packedBytes (winFmt x) (winGeo x) (winElems x) ≤ 4096 * b.granules

/-- The fields of a window; reserved bits read zero (R60). -/
def winFields : Dword := 0x8000003FFFFF07FF

def readWindow (b : Block) (n : Nat) : Dword :=
  let x := b.fwin.getD n 0
  if winValid b x then x else x &&& 0x7FFFFFFFFFFFFFFF

/-- A block's status registers (R93, R94). -/
def readBlockStatus (b : Block) (i : BitVec 5) : Dword :=
  if i.toNat < 24 then readWindow b (i.toNat - 16)
  else if i = 24 then b.qpct.setWidth 64
  else BitVec.ofNat 64 (bstkOf b.loops b.calls)

/-- A write of a block's status register (R60, R85, R93). -/
def writeBlockStatus (b : Block) (i : BitVec 5) (v : Dword) : Block :=
  if i.toNat < 24 then { b with fwin := b.fwin.set (i.toNat - 16) (v &&& winFields) }
  else if i = 24 then { b with qpct := if (v.setWidth 11 : BitVec 11).toNat ≤ 1024 then v.setWidth 11 else 1024 }
  else b

def execStrd (c : BitVec 3) (d : BitVec 5) (h : BitVec 1) (i : BitVec 5) (s : State) :=
  runSeq (.strd c d h i) c [] s
    (fun w => s.putWave (nextWave (writeS w d.toNat (readWaveStatus w h i))))
    (fun b => s.putBlock (nextBlock (writeB b d (readBlockStatus b i))))
    (fun g => s.putGrid (nextGrid (writeG g d (BitVec.ofNat 64 (bstkOf g.loops g.calls)))))

def execStwr (c : BitVec 3) (a : BitVec 5) (h : BitVec 1) (i : BitVec 5) (s : State) :=
  runSeq (.stwr c a h i) c [] s
    (fun w => match writeWaveStatus w h i (readS w a.toNat) with
      | some w' => s.putWave (nextWave w')
      | none => takeTrap s w 0x01)
    (fun b => s.putBlock (nextBlock (writeBlockStatus b i (readB b a))))
    (fun g => s.putGrid (nextGrid g))

end Sys2Proof.Machine
end

