-- ==== Sys2Proof/Machine/SeqCtl.lean ====
section
/-!
DEFINITION. Sys2Proof/Machine/SeqCtl.lean: branches, calls, loops, thread-scope control, runs, regions and traps
(spec/14, R245 to R250, R258 to R260; spec/08, R105 to R108).
-/

namespace Sys2Proof.Machine

/-! ### Branches and calls (R245) -/

/-- kc xor neg. -/
def condHolds (k : BitVec 8) (c : BitVec 3) (n : BitVec 1) : Bool := k.getLsbD c.toNat != (n == 1)

/-- A branch to a computed pc at each scope: a wave goes there; a block or grid emits its token (R214, R245). -/
def steerWord (i : Instr) (c : BitVec 3) (conds : List (BitVec 3)) (s : State)
    (tw : Wave → Dword) (tb : Block → Dword) (tg : Grid → Dword) : Host.Outcome State Fault Refusal :=
  runSteer i c conds s
    (fun w => s.putWave { w with pc := tw w, phase := .ready })
    (fun b => steerBlock s b (tb b) b.tk0 b.tk1 false id)
    (fun g => steerGrid s g (tg g) 0 0 false id)

def execBr (c k : BitVec 3) (n : BitVec 1) (o : BitVec 17) (s : State) :=
  steerWord (.br c k n o) c [k] s
    (fun w => if condHolds w.k k n then branchTarget w.pc o else w.pc + 4)
    (fun b => if condHolds b.k k n then branchTarget b.pc o else b.pc + 4)
    (fun g => if condHolds g.k k n then branchTarget g.pc o else g.pc + 4)

def execJmp (c : BitVec 3) (o : BitVec 17) (s : State) :=
  steerWord (.jmp c o) c [] s (fun w => branchTarget w.pc o) (fun b => branchTarget b.pc o)
    (fun g => branchTarget g.pc o)

/-- Call-stack depths (R222). -/
def waveCallDepth : Nat := 16
def upperCallDepth : Nat := 8

def execCall (c : BitVec 3) (o : BitVec 17) (s : State) :=
  runSteer (.call c o) c [] s
    (fun w =>
      if waveCallDepth ≤ w.calls.length then haltWave s w 0x10 0 []
      else s.putWave { w with calls := w.calls ++ [w.pc + 4], pc := branchTarget w.pc o, phase := .ready })
    (fun b =>
      if upperCallDepth ≤ b.calls.length then haltBlock s b 0x10 0 []
      else steerBlock s b (branchTarget b.pc o) b.tk0 b.tk1 false fun x => { x with calls := x.calls ++ [b.pc + 4] })
    (fun g =>
      if upperCallDepth ≤ g.calls.length then haltGrid s g 0x10 0
      else steerGrid s g (branchTarget g.pc o) 0 0 false fun x => { x with calls := x.calls ++ [g.pc + 4] })

def execRet (c : BitVec 3) (s : State) :=
  runSteer (.ret c) c [] s
    (fun w => match w.calls.getLast? with
      | none => haltWave s w 0x10 0 []
      | some t => s.putWave { w with calls := w.calls.dropLast, pc := t, phase := .ready })
    (fun b => match b.calls.getLast? with
      | none => haltBlock s b 0x10 0 []
      | some t => steerBlock s b t b.tk0 b.tk1 false fun x => { x with calls := x.calls.dropLast })
    (fun g => match g.calls.getLast? with
      | none => haltGrid s g 0x10 0
      | some t => steerGrid s g t 0 0 false fun x => { x with calls := x.calls.dropLast })

/-! ### Loops (R246 to R248) -/

/-- Words from an address to the end of a text. -/
def wordsLeft (textEnd : Nat) (pc : Dword) : Nat := (textEnd - pc.toNat + 3) / 4

/-- A wave's loop word with count n. -/
def loopWave (s : State) (w : Wave) (n : Word) : State :=
  if n = 0 then
    match waveStanding s w, (s.block? w.block).bind fun b => s.grid? b.grid with
    | some st, some g =>
      match scanEndl s st.ctx st.isle 1 (textBounds g).2 (wordsLeft (textBounds g).2 w.pc) w.pc 0 with
      | .found p => s.putWave { w with pc := p + 4, phase := .ready }
      | .miss p m => waveMiss s w st p .fetch m
      | .wait p => awaitWave s w st.isle st.ctx p .fetch st.core
      | .none => haltWave s w 0x10 0 []
    | _, _ => haltWave s w 0x10 0 []
  else match pushLoop w.loops n (w.pc + 4) with
    | some l => s.putWave { w with loops := l, pc := w.pc + 4, phase := .ready }
    | none => haltWave s w 0x10 0 []

/-- A block's loop word: V0 counts the pass that begins, V1 is the block's own tk0 (R216, R246). -/
def loopBlock (s : State) (b : Block) (n : Word) : State :=
  if n = 0 then
    match s.ctx? b.ctx, s.grid? b.grid with
    | some c, some g =>
      match scanEndl s c b.isle 2 (textBounds g).2 (wordsLeft (textBounds g).2 b.pc) b.pc 0 with
      | .found p => steerBlock s b (p + 4) 0 b.tk0 false id
      | .miss p m => blockMiss s b c p .fetch m
      | .wait p => awaitBlock s b c p .fetch
      | .none => haltBlock s b 0x10 0 []
    | _, _ => haltBlock s b 0x10 0 []
  else match pushLoop b.loops n (b.pc + 4) with
    | some l => steerBlock s b (b.pc + 4) 0 b.tk0 false fun x => { x with loops := l }
    | none => haltBlock s b 0x10 0 []

def loopGrid (s : State) (g : Grid) (n : Word) : State :=
  if n = 0 then
    match s.ctx? g.ctx with
    | some c =>
      match scanEndl s c g.isle 3 (textBounds g).2 (wordsLeft (textBounds g).2 g.pc) g.pc 0 with
      | .found p => steerGrid s g (p + 4) 0 0 false id
      | .miss p m => gridMiss s g c p .fetch m
      | .wait p => awaitGrid s g c p .fetch
      | .none => haltGrid s g 0x10 0
    | none => haltGrid s g 0x10 0
  else match pushLoop g.loops n (g.pc + 4) with
    | some l => steerGrid s g (g.pc + 4) 0 0 false fun x => { x with loops := l }
    | none => haltGrid s g 0x10 0

def execLoop (c : BitVec 3) (i : BitVec 16) (s : State) :=
  runSteer (.loop c i) c [] s (fun w => loopWave s w (i.setWidth 32)) (fun b => loopBlock s b (i.setWidth 32))
    (fun g => loopGrid s g (i.setWidth 32))

def execLoopr (c : BitVec 3) (a : BitVec 5) (s : State) :=
  runSteer (.loopr c a) c [] s (fun w => loopWave s w ((readS w a.toNat).setWidth 32))
    (fun b => loopBlock s b ((readB b a).setWidth 32)) (fun g => loopGrid s g ((readG g a).setWidth 32))

def execEndl (c : BitVec 3) (s : State) :=
  runSteer (.endl c) c [] s
    (fun w => match endLoop w.loops w.pc with
      | none => haltWave s w 0x10 0 []
      | some (l, p, _) => s.putWave { w with loops := l, pc := p, phase := .ready })
    (fun b => match endLoop b.loops b.pc with
      | none => haltBlock s b 0x10 0 []
      | some (l, p, v) => steerBlock s b p v b.tk0 false fun x => { x with loops := l })
    (fun g => match endLoop g.loops g.pc with
      | none => haltGrid s g 0x10 0
      | some (l, p, v) => steerGrid s g p v 0 false fun x => { x with loops := l })

/-- BRK: V0 is the passes begun, taken or not (R246). -/
def execBrk (c k : BitVec 3) (n : BitVec 1) (o : BitVec 17) (s : State) :=
  runSteer (.brk c k n o) c [k] s
    (fun w => match topLoop w.loops with
      | none => haltWave s w 0x10 0 []
      | some _ =>
        if condHolds w.k k n then s.putWave { w with loops := w.loops.dropLast, pc := branchTarget w.pc o, phase := .ready }
        else s.putWave (nextWave w))
    (fun b => match topLoop b.loops with
      | none => haltBlock s b 0x10 0 []
      | some e =>
        if condHolds b.k k n then
          steerBlock s b (branchTarget b.pc o) e.begun b.tk0 false fun x => { x with loops := x.loops.dropLast }
        else steerBlock s b (b.pc + 4) e.begun b.tk0 false id)
    (fun g => match topLoop g.loops with
      | none => haltGrid s g 0x10 0
      | some e =>
        if condHolds g.k k n then
          steerGrid s g (branchTarget g.pc o) e.begun 0 false fun x => { x with loops := x.loops.dropLast }
        else steerGrid s g (g.pc + 4) e.begun 0 false id)

/-! ### Thread-scope control (R249) -/

/-- Stores a mask in EXEC under R95. -/
def storeExec (w : Wave) (m : Mask) : Wave := { w with exec := m &&& ~~~w.halted }

def execIf (p : BitVec 3) (n : BitVec 1) (s : State) :=
  runSeqWave (.ifT p n) s fun w =>
    if 16 ≤ w.masks.length then haltWave s w 0x10 0 []
    else
      let m := if n = 1 then ~~~(predMask w p) else predMask w p
      s.putWave (nextWave (storeExec { w with masks := w.masks ++ [w.exec] } (w.exec &&& m)))

def execElse (s : State) :=
  runSeqWave .elseT s fun w => match w.masks.getLast? with
    | none => haltWave s w 0x10 0 []
    | some top => s.putWave (nextWave (storeExec w (top &&& ~~~w.exec)))

def execFi (s : State) :=
  runSeqWave .fiT s fun w => match w.masks.getLast? with
    | none => haltWave s w 0x10 0 []
    | some top => s.putWave (nextWave (storeExec { w with masks := w.masks.dropLast } top))

/-! ### Runs (R105 to R108, R250) -/

/-- The words of a run, read whole from the header on: the words, or what the fetch met (R108). -/
inductive RunWords where
  | ok (ws : List Word)
  | miss (pc : Dword) (c : MissCause)
  | wait (pc : Dword)

def fetchRun (s : State) (c : Context) (isle : Nat) : Nat → Dword → RunWords
  | 0, _ => .ok []
  | n + 1, pc => match fetchWord s c isle pc with
    | .miss m => .miss pc m
    | .wait => .wait pc
    | .ok w => match fetchRun s c isle n (pc + 4) with
      | .ok ws => .ok (w :: ws)
      | r => r

/-- A word is an ENDR at wave scope (R104, R106). -/
def isEndr (w : Word) : Bool := sel w 24 8 == 0x9F

/-- The instructions of a body: a TX word belongs to the opcode word before it (R103, R107). -/
def bodyInstrs (ws : List Word) : Nat := (ws.filter fun w => !isTx w).length

/-- A body word that is a sequencer word counts as one instruction; the fault comes when it is reached (R107). -/
def runIsLegal (w : Wave) (temps len : Nat) (ws : List Word) : Bool :=
  temps ≤ 8 && (!inHandler w || temps ≤ 4) && (ws.getLast?.map isEndr).getD false &&
  bodyInstrs (ws.take (len + 1)) ≤ 24

def zeroTemps : List VRow := List.replicate 8 (.g (List.replicate 64 0))

/-- RUN: the checks on the whole run, the wait for AWAIT, zeroed temporaries, and entry (R105 to R108, R250). -/
def runWave (s : State) (w : Wave) (t l : BitVec 5) (a : BitVec 8) : State :=
  match waveStanding s w with
  | none => haltWave s w 0x10 0 []
  | some st =>
    match fetchRun s st.ctx st.isle (l.toNat + 2) (w.pc + 4) with
    | .miss p m => waveMiss s w st p .fetch m
    | .wait p => awaitWave s w st.isle st.ctx p .fetch st.core
    | .ok ws =>
      if (List.range ws.length).any (fun i => fetchBad s st.ctx st.isle (w.pc + 4 + BitVec.ofNat 64 (4 * i))) then
        haltWave s w 0x17 0 []
      else if !runIsLegal w t.toNat l.toNat ws then haltWave s w 0x10 0 []
      else
        let w1 := settleTags w
        if w1.tags &&& a != 0 then holdWave s w1 .await
        else s.putWave { w1 with
          run := some ⟨w.pc, l.toNat + 1, t.toNat, ws⟩, t := zeroTemps, inflight := [], pc := w.pc + 4, phase := .ready }

def execRun (t l : BitVec 5) (a : BitVec 8) (s : State) :=
  runSeqWave (.run t l a) s fun w => runWave s w t l a

/-- The address of a run's ENDR. -/
def trailerOf (r : Run) : Dword := r.header + BitVec.ofNat 64 (4 * (r.words + 1))

/-- The registers that an ENDR publishes; its fields always name v0 to v63 (R102, R106). -/
def publishSlots (a b c : BitVec 7) : List Reg :=
  ([a, b, c].filter fun x => x.getLsbD 6).map fun x => .v (x.toNat % 64)

/-- ENDR: legal at the trailer of its run alone; every result is written, its tag becomes outstanding if it publishes, and
the wave leaves the run (R106, R107, R113, R250). -/
def execEndr (t : BitVec 3) (a b c : BitVec 7) (s : State) :=
  withWave s fun w => match w.run with
    | none => haltWave s w 0x10 0 []
    | some r =>
      if w.pc != trailerOf r || !staticLegal (.endr t a b c) then haltWave s w 0x10 0 []
      else
        let w1 := drainInFlight w
        let regs := publishSlots a b c
        let w2 := if regs.isEmpty then w1
          else { w1 with tags := setBit w1.tags t.toNat true,
                         tagRegs := w1.tagRegs ++ [(t.toNat, regs)] }
        s.putWave { settleTags w2 with run := none, pc := w.pc + 4, phase := .ready }

/-! ### Regions (R258) -/

def execEnter (a : BitVec 5) (s : State) :=
  runSeqWave (.enter a) s fun w =>
    if 8 ≤ w.regions.length then haltWave s w 0x10 0 []
    else s.putWave (nextWave { w with regions := (readS w a.toNat).setWidth 16 :: w.regions })

def execLeave (s : State) :=
  runSeqWave .leave s fun w => match w.regions with
    | [] => haltWave s w 0x10 0 []
    | _ :: rest => s.putWave (nextWave { w with regions := rest })

/-! ### Traps (R260) -/

def execTrap (x : BitVec 6) (s : State) :=
  runSeqWave (.trap x) s fun w => if w.tcode ≠ 0 then haltWave s w 0x10 0 [] else takeTrapWord s w x

def execTret (s : State) :=
  runSeqWave .tret s fun w => if w.tcode = 0 then haltWave s w 0x10 0 [] else returnFromTrap s w

end Sys2Proof.Machine
end

