-- ==== Sys2Proof/Machine/Frame.lean ====
section
/-!
DEFINITION. Sys2Proof/Machine/Frame.lean: the shared frame of thread-set instructions: the checks in order (R100, R102, R117,
R111, R112, R90), the effect, its writing under R109 to R113 and R146, and the step to the next instruction.
-/

namespace Sys2Proof.Machine

/-- What a thread-set arithmetic instruction is to the frame. -/
structure ThreadOp where
  words   : Nat
  stall   : BitVec 3
  latency : Nat
  reads   : List VField
  writes  : List VField
  effect  : (BitVec 6 → VRow) → Wave → Effect

/-- Every register field is in range, declared and, for a pair, even (R102, R117). -/
def fieldsLegal (w : Wave) (op : ThreadOp) : Bool :=
  (op.reads ++ op.writes).all fun o => o.even && o.fields.all (fieldLegal w)

/-- An instruction waits while a register it names is pending in the scoreboard (R111). -/
def fieldsPending (w : Wave) (op : ThreadOp) : Bool :=
  (op.reads ++ op.writes).any fun o => o.fields.any (fieldPending w)

/-- The operands that break R109. -/
def staleReads (w : Wave) (op : ThreadOp) : List VField := op.reads.filter (operandStale w)

/-- The lowest field value of some operands (R112). -/
def lowestField (os : List VField) : Nat := os.foldl (fun m o => min m o.field.toNat) 63

/-- The first result that exceeds its destination's declared shape (R90). -/
def shapeFault (w : Wave) (e : Effect) : Option Nat :=
  (e.regs.find? fun q => !shapeFits (fieldRow w q.1) q.2).map fun q => q.1.toNat

/-- EXEC as a replay sees it (R26). -/
def effectiveExec (w : Wave) : Mask :=
  match w.replay with
  | some m => w.exec &&& m
  | none => w.exec

/-- Beats of eight threads with an active one (R369). -/
def liveBeats (m : Mask) : Nat := ((List.range 8).filter fun b => m.toNat / 2 ^ (8 * b) % 256 != 0).length

/-- The issue that a wave's instruction makes, for a tagged record (R368). -/
def issueOf (w : Wave) : Issue := ⟨w.pc, liveBeats (effectiveExec w), w.reached.2, w.reached.1⟩

/-- A wave past an instruction whose results are given: the slots of its stall count pass, and its watch hits act. Where the pass
left threads for a later one, the wave stays at the instruction for them (R27, log 14). -/
def advanceBy (w : Wave) (op : ThreadOp) : Wave :=
  if w.rest ≠ 0 then { w with replay := some (effectiveExec w &&& w.rest), rest := 0, phase := .ready }
  else
    settledWave { passSlots w op.stall.toNat with
      pc := w.pc + BitVec.ofNat 64 (4 * op.words), phase := .ready, stepDone := w.stepMode.isSome, replay := none,
      missFailed := false, stallLeft := op.stall.toNat, issue := some (issueOf w), reached := (0, 0) }

/-- The wave after a thread-set instruction has performed. -/
def advanceThread (w : Wave) (op : ThreadOp) (e : Effect) : Wave := advanceBy (applyEffect w e op.latency) op

/-- The checks of a thread-set instruction that do not depend on its results, in the order of log 12. -/
inductive ThreadCheck where
  | illegal
  | pending
  | stale (field : Nat)
  | ecc
  | go
  deriving DecidableEq, Repr

/-- An operand holds a word with an uncorrectable error in an active thread (R70). -/
def operandBad (w : Wave) (o : VField) : Bool :=
  o.fields.any fun f => match regOf w f with
    | some r => w.bad.any fun q => q.1 = r && (w.exec.getLsbD q.2 || shapeRank (readReg w r) < 3)
    | none => false

/-- The predicates whose old values a combining type keeps in active threads (R165). -/
def combineReads (d e ct : BitVec 3) : List (BitVec 3) := if ct.toNat < 2 then [] else [d, e]

/-- The predicates that a thread-set instruction reads: those of PLOP, VOTE and the combining types, and the guard or selector in
bits 5:3 of a TR or TM word (R101, R144). -/
def predsRead : Instr → List (BitVec 3)
  | .plop d e a b _ c _ => [a, b] ++ combineReads d e c
  | .icmpEq f | .icmpNe f | .icmpLt f | .icmpLe f | .icmpLtu f | .icmpLeu f | .fcmpEq f | .fcmpLt f | .fcmpLe f
  | .fcmpUn f | .dcmpEq f | .dcmpLt f | .dcmpLe f | .dcmpUn f => combineReads f.d f.e f.c
  | .vote _ p _ _ _ => [p]
  | .iaddi _ | .andi _ | .ori _ | .shli _ | .shri _ | .movi _ _ _ => []
  | i => ((encode i).take 1).map fun w => sel w 3 3

def threadCheck (i : Instr) (op : ThreadOp) (w : Wave) : ThreadCheck :=
  if !(w.run.isSome && staticLegal i && fieldsLegal w op) then .illegal
  else if fieldsPending w op then .pending
  else if w.schk && !(staleReads w op).isEmpty then .stale (lowestField (staleReads w op))
  else if op.reads.any (operandBad w) || predsBad w (predsRead i) then .ecc
  else .go

/-- Some register that an instruction reads is declared G: what it computes differs by thread. -/
def readsG (w : Wave) (op : ThreadOp) : Bool :=
  op.reads.any fun o => o.fields.any fun f => shapeRank (fieldRow w f) == 3

/-- Each thread of an arithmetic instruction may read its own of the values of R112: some operand is G already, or every
destination register is (log 6). -/
def mixesArith (w : Wave) (op : ThreadOp) : Bool :=
  readsG w op || op.writes.all fun o => o.fields.all fun f => shapeRank (fieldRow w f) == 3

/-- The effect of an instruction on a wave as it stands. -/
def threadEffectOf (s : State) (op : ThreadOp) (w : Wave) : Effect :=
  op.effect (sourceRow (mixesArith w op) w s.fresh) w

/-- The state after an instruction that passes every check. -/
def commitThread (s : State) (op : ThreadOp) (w : Wave) (e : Effect) : State :=
  let (s1, w1) := presentEvents (nextFresh s freshSpan) w e.flags e.nan
  s1.putWave (advanceThread w1 op e)

/-- One thread-set arithmetic instruction of a wave. -/
def threadStep (i : Instr) (op : ThreadOp) (s : State) (w : Wave) : State :=
  match threadCheck i op w with
  | .illegal => haltWave s w 0x10 0 []
  | .pending => holdWave s w .scoreboard
  | .stale f => haltWave s w 0x13 f []
  | .ecc => haltWave s w 0x17 0 []
  | .go =>
    let e := threadEffectOf s op w
    match shapeFault w e with
    | some f => haltWave s w 0x12 f []
    | none => commitThread s op w e

/-- The frame: runs a thread-set arithmetic instruction in the wave that has the turn. -/
def runThread (i : Instr) (op : ThreadOp) (s : State) : Host.Outcome State Fault Refusal :=
  withWave s (threadStep i op s)

end Sys2Proof.Machine
end

