-- ==== Sys2Proof/Machine/Race.lean ====
section
/-!
DEFINITION. Sys2Proof/Machine/Race.lean: the race tags of scratchpad and of checked pages, armed ranges, arrival counts and
knowledge vectors (spec/16, R274 to R282, R400; spec/05, R63; spec/11, R183 to R185).
-/

namespace Sys2Proof.Machine

/-! ### Who accesses -/

/-- Who makes an access, as the tags record it: a wave by its index, the block sequencer, or an engine by its writer
number of R63, with the vector and count that R281 gives it, and for an engine the number of its command. -/
structure Accessor where
  wrid   : Nat
  know   : List (BitVec 6)
  count  : BitVec 6
  epoch  : BitVec 8
  serial : Nat
  deriving DecidableEq, Repr

/-- WRID of the block sequencer and of a settled write (R63). -/
def wridSeq : Nat := 22
def wridSettled : Nat := 23

/-- The entry of R281's vectors for a recorded writer; engine writers have none. -/
def vectorIndex (wrid : Nat) : Option Nat :=
  if wrid < 16 then some wrid else if wrid = wridSeq then some 16 else none

def accessorWave (b : Block) (w : Wave) : Accessor := ⟨w.index, w.clock.know, w.clock.count, b.epochSeen, 0⟩
def accessorSeq (b : Block) : Accessor := ⟨wridSeq, b.clock.know, b.clock.count, b.epochSeen, 0⟩
/-- A command has the vector and count of its issue, and the epoch that its block observed last (R275, R281). -/
def accessorEngine (b : Block) (wrid : Nat) (c : Command) : Accessor := ⟨wrid, c.know, c.count, b.epochSeen, c.serial⟩

/-- The writer number of an engine's commands (R63). -/
def engineWriter : Instr → Nat
  | .hist .. | .qscale .. => 21
  | .gath .. => 20
  | .coll .. => 19
  | .srtld .. | .srtst .. => 18
  | .mldw .. | .mstrm .. | .mcpy .. => 17
  | _ => 16

/-- The RDE bit of an engine's reads, 0 for bit 27 (R63). -/
def engineReader (wrid : Nat) : Nat :=
  match wrid with
  | 17 => 1 | 18 => 2 | 19 => 3 | 20 => 3 | _ => 0

/-- (e − g) mod 64 lies between 1 and 31 (R281). -/
def countOrdered (e g : BitVec 6) : Bool := let d := (e - g).toNat; 1 ≤ d && d ≤ 31

/-- (observed − epoch) mod 256 lies between 1 and 127 (R279, R281). -/
def epochOrdered (seen e : BitVec 8) : Bool := let d := (seen - e).toNat; 1 ≤ d && d ≤ 127

/-- The access is ordered after a write that agent `idx` made at arrival count g: program order, the issue of a command after the
block sequencer's write, before which `stamp` commands were issued, or the vector (R272, R281). -/
def writeOrdered (x : Accessor) (idx : Nat) (g : BitVec 6) (stamp : Nat) : Bool :=
  vectorIndex x.wrid == some idx || (vectorIndex x.wrid == none && idx == 16 && decide (stamp ≤ x.serial)) ||
  countOrdered (x.know.getD idx 0) g

/-- The write is ordered before every placed agent of the block: the tag settles (R281). -/
def settledFor (b : Block) (ws : List Wave) (idx : Nat) (g : BitVec 6) : Bool :=
  (idx == 16 || countOrdered (b.clock.know.getD idx 0) g) &&
  ws.all fun w => w.phase == .exited || w.index == idx || countOrdered (w.clock.know.getD idx 0) g

/-! ### Scratchpad tags (R63) -/

def tagWrid (t : Word) : Nat := t.toNat % 32
def tagWgen (t : Word) : BitVec 6 := t.extractLsb' 5 6
def tagV (t : Word) : Bool := t.getLsbD 31

/-- The tag that a write leaves: RDW and RDE cleared, V set. -/
def scratchWritten (wrid : Nat) (count : BitVec 6) : Word := BitVec.ofNat 32 (wrid + 32 * count.toNat + 2 ^ 31)

/-- The word that holds a byte. -/
def wordIndex (a : Nat) : Nat := a / 4

/-- The words that a byte range touches. -/
def wordsOf (a n : Nat) : List Nat := if n = 0 then [] else (List.range ((a + n - 1) / 4 - a / 4 + 1)).map (a / 4 + ·)

/-- The last write of word i races with an access; `t` is its tag (R274, R281, R400). Engine writers are judged through armed
ranges (R282). -/
def scratchRaces (b : Block) (x : Accessor) (i : Nat) (t : Word) : Bool :=
  tagV t && match vectorIndex (tagWrid t) with
    | none => false
    | some idx => !writeOrdered x idx (tagWgen t) (mapGet 0 b.seqStamps i)

/-- Settles a tag (R281). -/
def settleScratch (b : Block) (ws : List Wave) (t : Word) : Word :=
  if tagV t then match vectorIndex (tagWrid t) with
    | some idx => if settledFor b ws idx (tagWgen t) then (t &&& ~~~31#32) ||| 23#32 else t
    | none => t
  else t

/-- A tag after a read (R63). -/
def scratchRead (b : Block) (ws : List Wave) (x : Accessor) (t : Word) : Word :=
  let t1 := settleScratch b ws t
  if x.wrid < 16 then setBit t1 (11 + x.wrid) true
  else if x.wrid < 22 then setBit t1 (27 + engineReader x.wrid) true
  else t1

/-- Updates the tags of some words for a read. -/
def markRead (s : State) (b : Block) (x : Accessor) (words : List Nat) : Block :=
  let ws := s.wavesOf b.id
  { b with tags := words.foldl (fun m i => mapSet 0 m i (scratchRead b ws x (mapGet 0 m i))) b.tags }

/-- Every byte of a word lies in one of some ranges. -/
def wordCovered (ranges : List (Nat × Nat)) (i : Nat) : Bool :=
  (List.range 4).all fun k => ranges.any fun r => r.1 ≤ 4 * i + k && decide (4 * i + k < r.1 + r.2)

/-- The words that the tags ascribe to the block sequencer take the number of commands issued so far. -/
def stampSeq (b : Block) (wrid : Nat) (words : List Nat) : Block :=
  if wrid = wridSeq then { b with seqStamps := words.foldl (fun m i => mapSet 0 m i b.issued) b.seqStamps } else b

/-- Updates the tags for a write of some ranges, given by address and bytes; a strong write at .block or wider settles them
(R400). A word that the write covers holds a good code again (R70). -/
def markWrite (b : Block) (x : Accessor) (strong : Bool) (ranges : List (Nat × Nat)) : Block :=
  let words := ranges.flatMap fun r => wordsOf r.1 r.2
  let b1 := stampSeq b x.wrid words
  { b1 with
    badWords := b.badWords.filter fun i => !wordCovered ranges i,
    tags := words.foldl (fun m i =>
      mapSet 0 m i (scratchWritten (if strong then wridSettled else x.wrid) x.count)) b.tags }

/-- The words of a range are restamped as written by the waiting agent (R282); the reads recorded stay. -/
def restamp (b : Block) (wrid : Nat) (count : BitVec 6) (words : List Nat) : Block :=
  let b1 := stampSeq b wrid words
  { b1 with tags := words.foldl (fun m i => mapSet 0 m i (scratchWritten wrid count)) b.tags }

/-! ### Armed ranges (R183 to R185, R282) -/

/-- The words of [a, a + n) and of [lo, hi) meet. -/
def wordsMeet (a n lo hi : Nat) : Bool := n != 0 && decide (lo < hi) && a / 4 ≤ (hi - 1) / 4 && lo / 4 ≤ (a + n - 1) / 4

/-- A wave's access meets an armed range: a write meets every range, a read meets write ranges (R184, R282). -/
def armedMeetsWave (b : Block) (ws : List Wave) (write : Bool) (a n : Nat) : Bool :=
  b.armed.any (fun r => !r.glob && (write || r.write) && wordsMeet a n r.lo r.hi) ||
  ws.any fun w => w.copyRanges.any fun r => wordsMeet a n r.lo (r.lo + r.size)

/-- The bit of a queue in a QJOIN mask (R142). -/
def queueBit : EngineQueue → Nat
  | .matrix => 0 | .sort => 1 | .copy => 2 | .gather => 3 | .coll => 4

/-- Two commands of one block are ordered: one queue, or a QJOIN of both queues between them (R71, R72, R185). -/
def commandsOrdered (b : Block) (s1 : Nat) (q1 : EngineQueue) (s2 : Nat) (q2 : EngineQueue) : Bool :=
  q1 == q2 || b.joins.any fun j =>
    decide (min s1 s2 < j.1) && decide (j.1 < max s1 s2) && j.2.getLsbD (queueBit q1) && j.2.getLsbD (queueBit q2)

/-- An engine's access races with an armed range of another command, or with a per-thread copy (R185, R282). -/
def armedMeetsEngine (b : Block) (ws : List Wave) (owner serial : Nat) (q : EngineQueue) (write : Bool) (a n : Nat) :
    Bool :=
  b.armed.any (fun r => !r.glob && (write || r.write) && !(r.owner == owner && r.serial == serial) &&
    wordsMeet a n r.lo r.hi && !(r.owner == b.id && owner == b.id && commandsOrdered b r.serial r.queue serial q)) ||
  ws.any fun w => w.copyRanges.any fun r => wordsMeet a n r.lo (r.lo + r.size)

/-- The granules of [a, a + n) and of [lo, hi) meet. -/
def granulesMeet (a n lo hi : Nat) : Bool := n != 0 && decide (lo < hi) && a / 64 ≤ (hi - 1) / 64 && lo / 64 ≤ (a + n - 1) / 64

/-- A wave's or sequencer's access meets a checked range that its block's S2G BCOPY writes and no SWAIT has acquired (R282). -/
def armedMeetsGlobal (b : Block) (va n : Nat) : Bool := b.armed.any fun r => r.glob && granulesMeet va n r.lo r.hi

/-- An engine's access of checked bytes races with such a range of another command (R185, R282). -/
def armedMeetsEngineGlobal (b : Block) (serial : Nat) (q : EngineQueue) (va n : Nat) : Bool :=
  b.armed.any fun r => r.glob && r.serial != serial && granulesMeet va n r.lo r.hi && !commandsOrdered b r.serial r.queue serial q

/-! ### Checked granules (R277 to R279) -/

def gWblk (t : Dword) : Nat := t.toNat % 2 ^ 20
def gWwave (t : Dword) : Nat := t.toNat / 2 ^ 20 % 16
def gWbgen (t : Dword) : BitVec 6 := t.extractLsb' 24 6
def gEpoch (t : Dword) : BitVec 8 := t.extractLsb' 30 8
def gRblk (t : Dword) : Nat := t.toNat / 2 ^ 38 % 2 ^ 20
def gMulti (t : Dword) : Bool := t.getLsbD 58
def gRel (t : Dword) : Bool := t.getLsbD 59
def gV (t : Dword) : Bool := t.getLsbD 60
def gAgt (t : Dword) : Bool := t.getLsbD 61
def gStrw (t : Dword) : Bool := t.getLsbD 62
def gStrr (t : Dword) : Bool := t.getLsbD 63

/-- The physical address of the tag of a checked byte (R23). -/
def tagAddress (s : State) (pa : Nat) : Nat :=
  let isle := pa / isleSpan
  (s.isle isle).xltagb.toNat + (pa % isleSpan) / 64 * 8

def readTag (s : State) (pa : Nat) : Dword := BitVec.ofNat 64 (leNat (readBytes s.hbm (tagAddress s pa) 8))

def writeTag (s : State) (pa : Nat) (t : Dword) : State :=
  { s with hbm := hbmPut s.hbm (tagAddress s pa) (leBytes 8 t.toNat) }

/-- An identifier names a block of a grid of the context that has not ended (R277, R278). -/
def liveIdent (s : State) (ctx ident : Nat) : Bool := s.blocks.any fun b => b.ctx == ctx && b.ident.toNat == ident

/-- A tag as the device takes it: stale parts act as V = 0 and RBLK = 0 (R278). -/
def freshTag (s : State) (ctx : Nat) (t : Dword) : Dword :=
  let noReads : Dword := ~~~(0xFFFFF#64 <<< 38) &&& ~~~(1#64 <<< 58)
  if gV t && !liveIdent s ctx (gWblk t) then t &&& noReads &&& ~~~(1#64 <<< 60)
  else if gRblk t != 0 && !gMulti t && !liveIdent s ctx (gRblk t - 1) then t &&& noReads
  else t

/-- EPOCH of a write by a block (R277): GEN + 1 if the block has arrived into the current generation, otherwise GEN. -/
def writerEpoch (s : State) (b : Block) : BitVec 8 :=
  match s.grid? b.grid with
  | some g => (s.groupEntry g 0).gen + (if b.arrivals.getLsbD 4 then 1 else 0)
  | none => 0

/-- The block is the consumer that was dispatched for a tile that covers the byte (R279 case 4). -/
def consumesTile (b : Block) (va : Nat) : Bool := b.inputs.any fun r => r.base ≤ va && decide (va < r.base + r.size)

/-- The index of R281 for the writer that a granule's tag names. -/
def granuleWriter (t : Dword) : Nat := if gAgt t then 16 else gWwave t

/-- The last write is settled within its block (R281). -/
def granuleSettled (t : Dword) : Bool := gAgt t && gWwave t == 15

/-- The last write of the granule at a physical address is ordered before the access (R279 cases 1 to 5). -/
def granuleWriteOrdered (b : Block) (x : Accessor) (strong : Bool) (va pa : Nat) (t : Dword) : Bool :=
  !gV t || (strong && gStrw t) ||
  (gWblk t == b.ident.toNat &&
    (granuleSettled t || writeOrdered x (granuleWriter t) (gWbgen t) (mapGet 0 b.seqGlobal (pa / 64)))) ||
  epochOrdered x.epoch (gEpoch t) || (gRel t && consumesTile b va)

/-- The reads recorded since are ordered before a write, or tolerated (R279 cases 1, 5, 6; R280). -/
def granuleReadsOrdered (b : Block) (x : Accessor) (strong : Bool) (t : Dword) : Bool :=
  gRblk t == 0 || (!gMulti t && gRblk t == b.ident.toNat + 1) || (strong && gStrr t) || epochOrdered x.epoch (gEpoch t)

/-- An access of a block's agent to a checked granule races; the tag is as `freshTag` gives it. -/
def granuleRaces (b : Block) (x : Accessor) (write strong : Bool) (va pa : Nat) (t : Dword) : Bool :=
  !granuleWriteOrdered b x strong va pa t || (write && !granuleReadsOrdered b x strong t)

/-- The tag after a write (R278). -/
def granuleWritten (s : State) (b : Block) (x : Accessor) (strong : Bool) : Dword :=
  let agt := decide (16 ≤ x.wrid)
  BitVec.ofNat 64 (b.ident.toNat + (if agt then 0 else x.wrid * 2 ^ 20) + x.count.toNat * 2 ^ 24 +
    (writerEpoch s b).toNat * 2 ^ 30 + 2 ^ 60 + (if agt then 2 ^ 61 else 0) + (if strong then 2 ^ 62 else 0) + 2 ^ 63)

/-- The tag after a read (R278, R281); the first recorded read sets STRR by its own strength (log 12). -/
def granuleRead (s : State) (b : Block) (strong : Bool) (t : Dword) : Dword :=
  let me := b.ident.toNat + 1
  let t1 : Dword :=
    if gRblk t = 0 then setBit (t ||| BitVec.ofNat 64 (me * 2 ^ 38)) 63 strong
    else
      let t2 := if gRblk t != me then setBit t 58 true else t
      if strong then t2 else setBit t2 63 false
  if gV t1 && gWblk t1 == b.ident.toNat && !granuleSettled t1 &&
      settledFor b (s.wavesOf b.id) (granuleWriter t1) (gWbgen t1) then
    t1 ||| 0xF00000#64 ||| (1#64 <<< 61)
  else t1

/-- The granules that a byte range touches, each by the first byte of the range in it. -/
def granulesOf (a n : Nat) : List Nat :=
  if n = 0 then [] else (List.range ((a + n - 1) / 64 - a / 64 + 1)).map fun i => max a ((a / 64 + i) * 64)

/-- Judges one access of a block's agent to checked bytes; the answer is the racing byte's offset in the access and the tag
as found. -/
def judgeGranules (s : State) (b : Block) (x : Accessor) (write strong : Bool) (va pa n : Nat) : Option (Nat × Dword) :=
  (granulesOf pa n).findSome? fun g =>
    let t := readTag s g
    if granuleRaces b x write strong (va + (g - pa)) g (freshTag s b.ctx t) then some (g - pa, t) else none

/-- The granules that the tags ascribe to the block sequencer take the number of commands issued so far. -/
def stampGlobal (s : State) (block : Nat) (granules : List Nat) : State :=
  match s.block? block with
  | some b => s.putBlock { b with seqGlobal := granules.foldl (fun m g => mapSet 0 m (g / 64) b.issued) b.seqGlobal }
  | none => s

/-- Updates the tags of an access of a block's agent. -/
def markGranules (s : State) (b : Block) (x : Accessor) (write strong : Bool) (pa n : Nat) : State :=
  let gs := granulesOf pa n
  let s1 := if write && x.wrid == wridSeq then stampGlobal s b.id gs else s
  gs.foldl (fun s g =>
    let t := freshTag s b.ctx (readTag s g)
    writeTag s g (if write then granuleWritten s b x strong else granuleRead s b strong t)) s1

/-! ### Records (R275) -/

/-- The kinds of R275. -/
inductive RaceKind where
  | read | write | rmw
  deriving DecidableEq, Repr

def raceKindCode : RaceKind → Nat
  | .read => 0 | .write => 1 | .rmw => 2

def raceWrites : RaceKind → Bool
  | .read => false | _ => true

/-- The 32 bytes of a memory-model exception record, as four doublewords. -/
def raceRecord (addr tag thr : Nat) (scratch : Bool) (kind : RaceKind) (b : Block) (x : Accessor) : List Dword :=
  let agt := decide (16 ≤ x.wrid)
  [BitVec.ofNat 64 addr, BitVec.ofNat 64 tag,
    BitVec.ofNat 64 (thr % 128 + (if scratch then 0x80 else 0) + raceKindCode kind * 256 +
      (b.ident.toNat + (if agt then 2 ^ 24 else x.wrid % 16 * 2 ^ 20)) * 2 ^ 32),
    BitVec.ofNat 64 (x.count.toNat + x.epoch.toNat * 256)]

/-! ### Arrival counts and vectors (R281) -/

/-- The entrywise maximum of two vectors, as 17 entries; counts are modulo 64, and of two entries the later is at most 31 ahead. -/
def vectorMax (a b : List (BitVec 6)) : List (BitVec 6) :=
  (List.range 17).map fun i => let x := a.getD i 0; let y := b.getD i 0; if (y - x).toNat < 32 then y else x

def zeroVector : List (BitVec 6) := List.replicate 17 0

/-- What an arriving agent adds to a generation: its vector, its own entry raised to its count after the arrival. -/
def arrivalVector (idx : Nat) (c : Clock) : List (BitVec 6) := c.know.set idx c.count

/-! ### Barriers (R224 to R226) -/

/-- A barrier's arrival set: 0 waves, 1 waves and block sequencer, 2 block sequencer alone (R224, R375). -/
def barSet (k : Kernel) (n : Nat) : Nat := k.barset.toNat / 2 ^ (2 * n) % 4

/-- Agent index 0 to 15 is a wave, 16 the block sequencer. -/
def barMember (k : Kernel) (n idx : Nat) : Bool :=
  if idx = 16 then barSet k n == 1 || barSet k n == 2 else decide (idx < k.waves) && barSet k n != 2

/-- An agent of the block has exited; a wave not placed yet has not (R224). -/
def agentExited (b : Block) (ws : List Wave) (idx : Nat) : Bool :=
  if idx = 16 then b.phase == .exited else (ws.find? fun w => w.index == idx).any fun w => w.phase == .exited

/-- Every member of the arrival set has arrived or exited. -/
def barComplete (k : Kernel) (b : Block) (ws : List Wave) (bar : Barrier) (n : Nat) : Bool :=
  (List.range 17).all fun i => !barMember k n i || bar.arrived.getLsbD i || agentExited b ws i

/-- Every member has exited: the barrier is spent (R224). -/
def barSpent (k : Kernel) (b : Block) (ws : List Wave) (n : Nat) : Bool :=
  (List.range 17).all fun i => !barMember k n i || agentExited b ws i

/-- The entrywise maximum of several vectors, or a vector where there is none. -/
def vectorsMax (d : List (BitVec 6)) : List (List (BitVec 6)) → List (BitVec 6)
  | [] => d
  | v :: vs => vs.foldl vectorMax v

/-- The vectors of a barrier's members that have exited: they count as arrived (R224). -/
def exitedVectors (k : Kernel) (b : Block) (ws : List Wave) (n : Nat) : List (List (BitVec 6)) :=
  ((ws.filter fun w => barMember k n w.index && w.phase == .exited).map fun w => arrivalVector w.index w.clock) ++
  (if barMember k n 16 && b.phase == .exited then [arrivalVector 16 b.clock] else [])

/-- An arrival enters the generation in progress (R281). -/
def joinBar (bar : Barrier) (idx : Nat) (v : List (BitVec 6)) : Barrier :=
  { bar with arrived := setBit bar.arrived idx true, accum := if bar.arrived = 0 then v else vectorMax bar.accum v }

/-- A generation of barrier n completes; it carries the vectors of the agents that arrived, exited members among them (R225,
R281). -/
def advanceBar (k : Kernel) (b : Block) (ws : List Wave) (n : Nat) (bar : Barrier) : Barrier :=
  { bar with
    gen := bar.gen + 1, arrived := 0, accum := zeroVector,
    carried := vectorsMax bar.carried ((if bar.arrived = 0 then [] else [bar.accum]) ++ exitedVectors k b ws n) }

/-- Completes every barrier whose last missing members have just exited (R224). A spent barrier's generation in progress
completes once; afterwards its waits complete at once. -/
def settleBarriers (k : Kernel) (b : Block) (ws : List Wave) (gone : Nat) : List Barrier :=
  b.bars.mapIdx fun n bar =>
    if barMember k n gone && barComplete k b ws bar n && (bar.arrived != 0 || barSpent k b ws n) then advanceBar k b ws n bar
    else bar

end Sys2Proof.Machine
end

