-- ==== Sys2Proof/Machine/MemFrame.lean ====
section
/-!
DEFINITION. Sys2Proof/Machine/MemFrame.lean: the shared frame of thread-set memory instructions (spec/09, R119 to R127;
spec/03, R19 to R28): addresses, the checks before any thread performs, translation and partial completion, the race
check, switching out, and per-thread copies that land.
-/

namespace Sys2Proof.Machine

/-! ### Addresses (R122) -/

/-- A thread's address: base, index and signed offset, modulo 2^64 global and 2^32 scratchpad. -/
def threadAddress (glob : Bool) (lo hi ib : VRow) (ix scale : Nat) (off : Dword) (i : Nat) : Dword :=
  let base : Dword := if glob then rowAt hi i ++ rowAt lo i else (rowAt lo i).setWidth 64
  let idx : Dword := match ix with
    | 0 => 0
    | 1 => (rowAt ib i).setWidth 64
    | 2 => (rowAt ib i).signExtend 64
    | _ => (rowAt ib i).setWidth 64 * BitVec.ofNat 64 scale
  let a := base + idx + off
  if glob then a else (a.setWidth 32 : Word).setWidth 64

/-- Every register that forms the address is declared U (R124). -/
def addressUniform (glob : Bool) (lo hi ib : VRow) (ix : Nat) : Bool :=
  rowIsU lo && (!glob || rowIsU hi) && (ix == 0 || rowIsU ib)

/-! ### What an instruction asks of the frame -/

/-- A thread-set memory instruction as the frame sees it, with its operands already read. -/
structure MemForm where
  glob     : Bool
  access   : Access
  kind     : RaceKind
  size     : Nat
  decoding : Bool
  ordered  : Bool
  strong   : Bool
  single   : Bool
  hostOk   : Bool
  addr     : Nat → Dword

/-- The threads of a mask, in ascending order. -/
def threadsOf (m : Mask) : List Nat := (List.range 64).filter fun i => m.getLsbD i

/-- The threads whose accesses are made: all of them, or the lowest for an access made once (R124, R126). -/
def performers (f : MemForm) (act : Mask) : List Nat := if f.single then (threadsOf act).take 1 else threadsOf act

/-- The checks that need no translation, in the order of R123: the trap code of the first that fails. -/
def addressFault (f : MemForm) (b : Block) (ts : List Nat) : Option Nat :=
  if f.glob && ts.any (fun i => !canonical (f.addr i)) then some 0x01
  else if !f.decoding && ts.any (fun i => (f.addr i).toNat % f.size != 0) then some 0x02
  else if !f.glob && ts.any (fun i => (f.addr i).toNat + f.size > 4096 * b.granules) then some 0x03
  else none

/-! ### Format pages (R19 to R21, R127) -/

/-- The bytes of a unit's element area (R20). -/
def elementArea (fmt : Nat) : Nat := if fmt = 7 then 0xC000 else 0x10000

/-- Bytes from one element to the next where elements are whole bytes; 0 for 4-bit formats. -/
def elementBytes (fmt : Nat) : Nat := fmtBits fmt / 8
where
  fmtBits (fmt : Nat) : Nat := match fmt with
    | 1 | 2 => 16 | 3 | 4 | 5 => 8 | _ => 0

/-- Alignment of a decoding load at a unit offset (R123, R127). -/
def decodeAligned (fmt size a : Nat) : Bool :=
  if fmt = 0 then a % size == 0
  else if a % 65536 < elementArea fmt then a % max (elementBytes fmt) 1 == 0
  else a % size == 0

/-- The exact FP32 code of an element (R21). -/
def decodeElement (fmt bits scale : Nat) (band : FpVal) : Nat :=
  match fmt with
  | 1 => (fpConvert .bf16 .fp32 .rne .ieee bits).code
  | 2 => (fpConvert .fp16 .fp32 .rne .ieee bits).code
  | 3 => (fpConvert .e4m3 .fp32 .rne .ieee bits).code
  | 4 => (fpConvert .e5m2 .fp32 .rne .ieee bits).code
  | 5 => (intToFp .fp32 .rne (if bits < 128 then bits else (bits : Int) - 256)).code
  | 6 => (intToFp .fp32 .rne (if bits < 8 then bits else (bits : Int) - 16)).code
  | _ => bx4Decode bits scale band

/-- A byte stretch of memory that a thread touches. -/
structure Touch where
  va      : Nat
  loc     : Loc
  len     : Nat
  checked : Bool
  deriving DecidableEq, Repr

/-- One thread's access after translation. -/
structure Ready where
  thread : Nat
  va     : Nat
  place  : Place
  next   : Option Place
  deriving DecidableEq, Repr

/-- A place moved by some bytes inside its unit. -/
def shiftLoc (l : Loc) (src dst : Nat) : Loc := { l with addr := l.addr - src + dst }

/-- Reads n bytes as a number. -/
def readNat (s : State) (l : Loc) (n : Nat) : Nat := leNat (readLoc s l n)

/-- The element at a unit offset; `high` picks bits 7:4 of a 4-bit format's byte. -/
def elementAt (s : State) (l : Loc) (o fmt geo : Nat) (high : Bool) : Word :=
  let byte := readNat s l 1
  let nibble := if high then byte / 16 else byte % 16
  if fmt = 7 then
    let n := 2 * o + (if high then 1 else 0)
    let scale := readNat s (shiftLoc l o (0xC000 + n / 8)) 1
    let band := if geo = 0 then bandVal (readNat s (shiftLoc l o (0xF000 + 2 * (n / 64))) 2) else .num false 1 0
    BitVec.ofNat 32 (decodeElement 7 nibble scale band)
  else if fmt = 6 then BitVec.ofNat 32 (decodeElement 6 nibble 0 .nan)
  else BitVec.ofNat 32 (decodeElement fmt (readNat s l (elementBytes fmt)) 0 .nan)

/-- The words that a decoding load delivers (R21, R127). -/
def decodeLoad (s : State) (size : Nat) (r : Ready) : List Word :=
  let fmt := placeFmt r.place
  let geo := placeGeo r.place
  let o := r.va % 65536
  if fmt = 0 || elementArea fmt ≤ o then
    (List.range (size / 4)).map fun j => BitVec.ofNat 32 (readNat s { r.place.loc with addr := r.place.loc.addr + 4 * j } 4)
  else
    let first := elementAt s r.place.loc o fmt geo false
    if size = 4 then [first]
    else if elementBytes fmt = 0 then [first, elementAt s r.place.loc o fmt geo true]
    else match r.next with
      | some p =>
        let fmt2 := placeFmt p
        [first, if fmt2 = 0 then BitVec.ofNat 32 (readNat s p.loc 4) else elementAt s p.loc 0 fmt2 (placeGeo p) false]
      | none => [first, elementAt s (shiftLoc r.place.loc o (o + elementBytes fmt)) (o + elementBytes fmt) fmt geo false]

/-- The bytes that an access touches; a decoding load touches its elements and their scales. -/
def touchesOf (f : MemForm) (r : Ready) : List Touch :=
  let fmt := placeFmt r.place
  let o := r.va % 65536
  let chk := placeChecked r.place
  if !f.decoding || fmt = 0 || elementArea fmt ≤ o then [⟨r.va, r.place.loc, f.size, chk⟩]
  else
    let n := max (elementBytes fmt) 1
    let first := [⟨r.va, r.place.loc, n, chk⟩]
    let second := if f.size = 4 || elementBytes fmt = 0 then [] else match r.next with
      | some p => [⟨r.va + n, p.loc, n, placeChecked p⟩]
      | none => [⟨r.va + n, shiftLoc r.place.loc o (o + n), n, chk⟩]
    let scales := if fmt = 7 then
        [⟨r.va - o + 0xC000 + o / 4, shiftLoc r.place.loc o (0xC000 + o / 4), 1, chk⟩] ++
        (if placeGeo r.place = 0 then
          [⟨r.va - o + 0xF000 + 2 * (o / 32), shiftLoc r.place.loc o (0xF000 + 2 * (o / 32)), 2, chk⟩] else [])
      else []
    first ++ second ++ scales

/-! ### Translation of the threads (R26, R127) -/

/-- What translating the threads gives. -/
structure XlatSet where
  ready  : List Ready
  missed : List (Nat × Dword × MissCause)
  refused : List Nat
  waits  : List (Nat × Dword)

/-- Translates one thread, with the following unit where a pair of elements passes the end of one (R127). -/
def translateThread (s : State) (c : Context) (isle : Nat) (f : MemForm) (i : Nat) (acc : XlatSet) : XlatSet :=
  let va := f.addr i
  match translate s c isle va f.access with
  | .wait => { acc with waits := acc.waits ++ [(i, va)] }
  | .miss m => { acc with missed := acc.missed ++ [(i, va, m)] }
  | .ok p =>
    if !f.hostOk && placeIsHost p then { acc with refused := acc.refused ++ [i] }
    else
      let n := elementBytes (placeFmt p)
      if f.decoding && f.size == 8 && placeFmt p != 0 && n != 0 && va.toNat % 65536 + n == 65536 then
        match translate s c isle (va + BitVec.ofNat 64 n) f.access with
        | .ok p2 => { acc with ready := acc.ready ++ [⟨i, va.toNat, p, some p2⟩] }
        | .miss m => { acc with missed := acc.missed ++ [(i, va + BitVec.ofNat 64 n, m)] }
        | .wait => { acc with waits := acc.waits ++ [(i, va + BitVec.ofNat 64 n)] }
      else { acc with ready := acc.ready ++ [⟨i, va.toNat, p, none⟩] }

def translateAll (s : State) (c : Context) (isle : Nat) (f : MemForm) (ts : List Nat) : XlatSet :=
  ts.foldl (fun acc i => translateThread s c isle f i acc) ⟨[], [], [], []⟩

/-- The accesses that still wait once a page request of the instruction has been refused: they end with it (R25, R29). -/
def failedWaits (ws : List (Nat × Dword)) : List (Nat × Dword × MissCause) := ws.map fun q => (q.1, q.2, .failed)

/-- Translates the threads of a wave's instruction; after a Fail verdict no access waits any longer. -/
def translateWave (s : State) (st : Standing) (w : Wave) (f : MemForm) (ts : List Nat) : XlatSet :=
  let x := translateAll s st.ctx st.isle f ts
  if w.missFailed then { x with missed := x.missed ++ failedWaits x.waits, waits := [] } else x

/-- Orders accesses by address, lowest first. -/
def insertWait (q : Nat × Dword) : List (Nat × Dword) → List (Nat × Dword)
  | [] => [q]
  | x :: xs => if q.2.toNat < x.2.toNat then q :: x :: xs else x :: insertWait q xs

/-- A wave's instruction waits in place for ATS answers: one request a page, at the lowest address that waits there (R25,
R28). -/
def waitXlat (s : State) (id : Nat) (st : Standing) (k : Access) (ws : List (Nat × Dword)) : State :=
  let (s1, seqs) := (ws.foldr insertWait []).foldl (fun (acc : State × List Nat) q =>
    let (s1, seq) := requestAts acc.1 st.isle st.ctx q.2 k st.core
    (s1, if acc.2.contains seq then acc.2 else acc.2 ++ [seq])) (s, [])
  match s1.wave? id with
  | some w => s1.putWave { w with phase := .held .translation, requests := seqs }
  | none => s1

/-! ### The race check of a wave's instruction (R274) -/

/-- A race that an instruction would complete. -/
structure RaceFound where
  thread : Nat
  addr   : Nat
  tag    : Nat
  deriving DecidableEq, Repr

/-- Stands in place of a thread where an access meets an uncorrectable error (R70). -/
def eccMark : Nat := 256

/-- The lowest byte of some races with its tag, and their lowest thread (R275, log 12). -/
def lowestOf : List RaceFound → Option RaceFound
  | [] => none
  | r :: rest =>
    let low := rest.foldl (fun m x => if x.addr < m.addr then x else m) r
    some { low with thread := rest.foldl (fun m x => min m x.thread) r.thread }

/-- The record's fields from all the races of an instruction; an uncorrectable error is reported where there is no race (R70,
R275, log 12). -/
def lowestRace (rs : List RaceFound) : Option RaceFound :=
  match lowestOf (rs.filter fun r => r.thread != eccMark) with
  | some r => some r
  | none => rs.head?

/-- The races of one thread's scratchpad bytes. -/
def scratchRacesOf (b : Block) (ws : List Wave) (x : Accessor) (write : Bool) (thread a n : Nat) : List RaceFound :=
  (wordsOf a n).filterMap fun i =>
    let t := mapGet 0 b.tags i
    let lo := max a (4 * i)
    if b.badTags.contains i then some ⟨eccMark, lo, 0⟩
    else if armedMeetsWave b ws write lo (min (a + n) (4 * i + 4) - lo) || scratchRaces b x i t then some ⟨thread, lo, t.toNat⟩
    else if !write && b.badWords.contains i then some ⟨eccMark, lo, 0⟩
    else none

/-- The races of one thread's global bytes. -/
def globalRacesOf (s : State) (b : Block) (x : Accessor) (write strong : Bool) (thread : Nat) (ts : List Touch) :
    List RaceFound :=
  ts.filterMap fun t =>
    if !write && farBad s t.loc t.len then some ⟨eccMark, t.va, 0⟩
    else if !t.checked then none
    else if armedMeetsGlobal b t.va t.len then some ⟨thread, t.va, (readTag s t.loc.addr).toNat⟩
    else (judgeGranules s b x write strong t.va t.loc.addr t.len).map fun q => ⟨thread, t.va + q.1, q.2.toNat⟩

/-- The context of a wave halts with a memory-model exception precise at the instruction (R274). -/
def raceWave (s : State) (w : Wave) (b : Block) (scratch : Bool) (kind : RaceKind) (r : RaceFound) : State :=
  if r.thread = eccMark then haltWave s w 0x17 0 []
  else haltWave s w 0x14 0 (raceRecord r.addr r.tag r.thread scratch kind b (accessorWave b w))

/-! ### Per-thread copies (R82, R83) -/

def spaceCode : Space → Nat
  | .hbm => 0 | .peer => 1 | .host => 2
def spaceOfCode (n : Nat) : Space := if n = 0 then .hbm else if n = 1 then .peer else .host

def readStretch (s : State) (p : Stretch) : List Byte := readLoc s ⟨spaceOfCode p.space, p.addr⟩ p.len

/-- The bytes of a copy's destination that another armed range or the last write makes a race (R184, R274). Its own armed
range is excepted once. -/
def copyRace (b : Block) (ws : List Wave) (x : Accessor) (c : CopyInFlight) (own : List CopyRange) (idx : Nat) :
    Option RaceFound :=
  let others := ws.map fun w => if w.index = idx then { w with copyRanges := own } else w
  (scratchRacesOf b others x true c.thread c.dst c.size).head?

/-- One copy of a wave lands: its bytes and zeros are written, its tag counter falls, or the context halts (R82, R184). -/
def landCopy (s : State) (w : Wave) (n : Nat) : State :=
  match w.copies[n]?, s.block? w.block with
  | some c, some b =>
    let x : Accessor := ⟨w.index, c.know, w.clock.count, b.epochSeen, 0⟩
    let w1 := { w with copies := w.copies.eraseIdx n, tagCounts := w.tagCounts.modify c.tag (· - 1) }
    let own := w.copyRanges.erase ⟨c.tag, c.dst, c.size⟩
    match copyRace b (s.wavesOf b.id) x c own w.index with
    | some r =>
      if r.thread = eccMark then haltWave s w1 0x17 0 []
      else haltWave s w1 0x14 0 (raceRecord r.addr r.tag r.thread true .write b x)
    | none =>
      if c.parts.any (fun p => farBad s ⟨spaceOfCode p.space, p.addr⟩ p.len) then haltWave s w1 0x17 0 [] else
      let bytes := c.parts.flatMap (readStretch s)
      let all := bytes ++ zeros (c.size - bytes.length)
      let b1 := { b with scratch := writeBytes b.scratch c.dst all }
      (s.putWave w1).putBlock (markWrite b1 x false [(c.dst, c.size)])
  | _, _ => s

/-- Every copy of a wave lands, oldest first. -/
def landCopies (s : State) (id : Nat) : Nat → State
  | 0 => s
  | k + 1 => match s.wave? id with
    | some w => landCopies (landCopy s w 0) id k
    | none => s

/-! ### Switching out one wave (R26, R335) -/

/-- Every result on its way is written (R113, R335). -/
def writeAllResults (w : Wave) : Wave :=
  let w1 := drainInFlight w
  settleTags { (w1.pending.foldl writePending w1) with pending := [] }

/-- Orders misses by address, lowest first: a record holds the lowest address of its first instruction (R28). -/
def insertMiss (m : Nat × Dword × MissCause) : List (Nat × Dword × MissCause) → List (Nat × Dword × MissCause)
  | [] => [m]
  | x :: xs => if m.2.1.toNat < x.2.1.toNat then m :: x :: xs else x :: insertMiss m xs

/-- Some access misses in a way that a request can resolve. -/
def hasMiss (ms : List (Nat × Dword × MissCause)) : Bool := ms.any fun m => asksVerdict m.2.2

/-- Some access of the instruction ended in a Fail verdict while it waited in place (R25, R29). -/
def hasFailed (ms : List (Nat × Dword × MissCause)) : Bool := ms.any fun m => m.2.2 == .failed

/-- Makes the requests of some misses; the answers are their sequence numbers. -/
def requestAll (s : State) (st : Standing) (k : Access) (ms : List (Nat × Dword × MissCause)) : State × List Nat :=
  ((ms.filter fun m => asksVerdict m.2.2).foldr insertMiss []).foldl (fun (acc : State × List Nat) m =>
    let (s1, seq) := requestResolution acc.1 st.isle st.ctx m.2.1 k m.2.2 st.core
    (s1, if acc.2.contains seq then acc.2 else acc.2 ++ [seq])) (s, [])

/-- Every copy of a wave lands and its results are written, as a switch-out for any reason asks (R83, R113, R335). -/
def completeWave (s : State) (id : Nat) : State :=
  let s1 := match s.wave? id with
    | some w => landCopies s id w.copies.length
    | none => s
  match s1.wave? id with
  | some w => s1.putWave (writeAllResults w)
  | none => s1

/-- A wave that has been completed leaves its lane alone: it is counted, and its registers go to its save slot (R10, R335, R369). -/
def leaveLane (s : State) (st : Standing) (w : Wave) : State :=
  saveSlot ((addCounter s st.ctx.index (coreNumber st.isle st.core) 0x10 1).putWave w) st w

/-- Switches a wave out at its instruction with PCM and its requests: its copies and results complete first, and its registers
go to its save slot (R10, R26, R335). -/
def switchOut (s : State) (id : Nat) (st : Standing) (pcm : Mask) (k : Access) (ms : List (Nat × Dword × MissCause)) :
    State :=
  let (s1, seqs) := requestAll (completeWave s id) st k ms
  match s1.wave? id with
  | some w => leaveLane s1 st { w with phase := .missed, pcm := pcm, requests := seqs, missFailed := false, replay := none }
  | none => s1

/-! ### The frame -/

/-- A memory instruction's operands, as the thread frame checks them. -/
def memOp (words : Nat) (stall : BitVec 3) (reads writes : List VField) : ThreadOp :=
  ⟨words, stall, 0, reads, writes, fun _ _ => plainEffect 0 []⟩

/-- The threads that a pass of an instruction performs in. -/
def memThreads (w : Wave) (guard : BitVec 3) : Mask := effectiveExec w &&& ~~~w.rest &&& predMask w guard

/-- Runs a memory instruction: the checks of the thread frame, then its body with the wave, block, standing and the rows it
reads. `each` says that every thread makes its own access whatever the shapes: then each may read its own of the values of R112,
and otherwise where an operand is G (log 6). -/
def memStep (i : Instr) (op : ThreadOp) (each : Bool) (s : State)
    (k : State → Wave → Block → Standing → (BitVec 6 → VRow) → State) (w : Wave) : State :=
  match threadCheck i op w with
  | .illegal => haltWave s w 0x10 0 []
  | .pending => holdWave s w .scoreboard
  | .stale f => haltWave s w 0x13 f []
  | .ecc => haltWave s w 0x17 0 []
  | .go => match waveStanding s w, s.block? w.block with
    | some st, some b => k (nextFresh s freshSpan) w b st (sourceRow (each || readsG w op) w s.fresh)
    | _, _ => haltWave s w 0x10 0 []

def runMem (i : Instr) (op : ThreadOp) (each : Bool) (s : State)
    (k : State → Wave → Block → Standing → (BitVec 6 → VRow) → State) : Host.Outcome State Fault Refusal :=
  withWave s (memStep i op each s k)

/-- A global access ends: out at a miss, in the trap of R29, R391 or R134, or past the instruction. -/
def finishMem (s : State) (w : Wave) (op : ThreadOp) (st : Standing) (k : Access) (pcm refused : Mask)
    (ms : List (Nat × Dword × MissCause)) : State :=
  let pcm := pcm ||| (effectiveExec w &&& w.rest)
  if hasMiss ms then switchOut (s.putWave w) w.id st pcm k ms
  else if !ms.isEmpty then takeTrap s { w with pcm := pcm } 0x04
  else if refused != 0 then takeTrap s { w with pcm := refused } 0x05
  else s.putWave (advanceBy w op)

/-- An access that translates every thread before any performs meets a miss: the wave is switched out with PCM = EXEC, or takes
the trap of a translation that has failed (R26, R29, R391). -/
def missWhole (s : State) (w : Wave) (st : Standing) (k : Access) (ms : List (Nat × Dword × MissCause)) : State :=
  if hasFailed ms || !hasMiss ms then takeTrap s { w with pcm := effectiveExec w } 0x04
  else switchOut s w.id st (effectiveExec w) k ms

/-- The threads of some misses. -/
def missedMask (single : Bool) (w : Wave) (ms : List (Nat × Dword × MissCause)) : Mask :=
  if single && !ms.isEmpty then effectiveExec w else ms.foldl (fun m q => setBit m q.1 true) 0

/-! ### What a thread reached (R368) -/

/-- The deepest store that an access of a wave on an isle reaches; whether a far cache holds the granule is timing, and free
(log 16). -/
def placeLevel (s : State) (isle : Nat) (p : Place) : Nat :=
  match p.loc.space with
  | .peer => 6
  | .host => 7
  | .hbm =>
    (if Config.farHit s.clock (p.loc.addr / 64) then 2 else 4) + (if p.loc.addr / isleSpan = isle then 0 else 1)

/-- The instruction in progress has reached some stores and made some scratchpad passes. -/
def reach (w : Wave) (levels : List Nat) (passes : Nat) : Wave :=
  { w with reached := (levels.foldl max w.reached.1, w.reached.2 + passes) }

/-- The threads whose accesses went to peer modules (R391). -/
def peerThreads (rs : List Ready) : List (Nat × Nat) :=
  (rs.filter fun r => r.place.loc.space == .peer).map fun r => (r.thread, r.place.loc.addr / 2 ^ 52)

/-- Results that a variable-latency instruction will deliver (R111). -/
def addPending (w : Wave) (p : Pending) : Wave := { w with pending := w.pending ++ [p] }

/-- The rows that a load delivers: U for an access made once, otherwise G (R124). `vals` gives the words of each thread
that performed. -/
def loadRows (w : Wave) (d : BitVec 6) (n : Nat) (single : Bool) (vals : List (Nat × List Word)) : List (Reg × VRow) :=
  (List.range n).filterMap fun j => (regOf w (d + BitVec.ofNat 6 j)).map fun r =>
    (r, if single then .u ((vals.head?.map fun q => q.2.getD j 0).getD 0)
        else gRow fun i => ((vals.find? fun q => q.1 = i).map fun q => q.2.getD j 0).getD 0)

/-- The first destination whose declared shape a load's result exceeds (R124). -/
def loadShapeFault (w : Wave) (d : BitVec 6) (n : Nat) (single : Bool) : Option Nat :=
  ((List.range n).find? fun j =>
    !shapeFits (fieldRow w (d + BitVec.ofNat 6 j)) (if single then .u 0 else .g [])).map fun j =>
      (d + BitVec.ofNat 6 j).toNat

/-- The threads that a result is written in. -/
def maskOfThreads (single : Bool) (act : Mask) (ts : List Nat) : Mask :=
  if single then (if ts.isEmpty then 0 else act) else ts.foldl (fun m i => setBit m i true) 0

/-- The words of an access's datum (R354): the bytes of a value by DT (R121). -/
def extendData (dt : Nat) (bytes : List Byte) : List Word :=
  let v := leNat bytes
  match dt with
  | 1 => [(BitVec.ofNat 8 v).signExtend 32]
  | 3 => [(BitVec.ofNat 16 v).signExtend 32]
  | 5 | 8 => [BitVec.ofNat 32 v, BitVec.ofNat 32 (v / 2 ^ 32)]
  | 6 => (List.range 4).map fun j => BitVec.ofNat 32 (v / 2 ^ (32 * j))
  | _ => [BitVec.ofNat 32 v]

/-- Bytes and registers of a data type (R121). -/
def dataBytes (dt : Nat) : Nat :=
  match dt with
  | 0 | 1 => 1 | 2 | 3 => 2 | 4 | 7 => 4 | 5 | 8 => 8 | _ => 16
def dataRegs (dt : Nat) : Nat :=
  match dt with
  | 5 | 8 => 2 | 6 => 4 | _ => 1

/-- The fields that a data operand names; a B128 operand is four registers, no pair (R102, R121). -/
def dataFields (dt : Nat) (f : BitVec 6) : List VField :=
  match dt with
  | 5 | 8 => [pairAt f]
  | 6 => [single f, single (f + 1), single (f + 2), single (f + 3)]
  | _ => [single f]

/-- The fields of an address and index (R119). -/
def addressFields (glob : Bool) (a b : BitVec 6) (ix : Nat) : List VField :=
  (if glob then pairAt a else single a) :: (if ix = 0 then [] else [single b])

/-! ### Scratchpad passes (R56, R57) -/

/-- The bank of the word at a block offset, in the context's bank mode (R56). -/
def bankOf (c : Context) (a : Nat) : Nat :=
  let q := a / 128 % 4096
  let k := c.bkey.toNat
  let h := (q % 32) ^^^ (q / 32 % 32 &&& k % 32) ^^^ ((q / 1024 % 4 * 8 + q / 32 % 8) &&& k / 32 % 32) ^^^ (k / 2048)
  if c.hash then (a / 4 % 32) ^^^ h else a / 4 % 32

/-- The passes of one beat whose threads touch some words: the most distinct words of any one bank (R57). -/
def beatPasses (c : Context) (words : List Nat) : Nat :=
  let distinct := words.eraseDups
  (List.range 32).foldl (fun m b => max m (distinct.filter fun x => bankOf c (4 * x) == b).length) 0

/-- The passes of a thread-set scratchpad access, beat by beat; `xs` gives each thread's words. -/
def accessPasses (c : Context) (xs : List (Nat × List Nat)) : Nat :=
  (List.range 8).foldl (fun n beat =>
    let here := xs.filter fun q => q.1 / 8 == beat
    if here.isEmpty then n else n + max 1 (beatPasses c (here.flatMap (·.2)))) 0

/-- A wave's scratchpad access ends: shown to the watch bank with its passes counted (R354, R369), and past the instruction. -/
def finishScratch (s : State) (w : Wave) (op : ThreadOp) (st : Standing) (xs : List WatchAccess) : State :=
  let passes := accessPasses st.ctx (xs.map fun x => (x.thread, wordsOf x.addr x.size))
  let s1 := addCounter s st.ctx.index (coreNumber st.isle st.core) 0x30 passes
  let (s2, w1) := presentAccesses s1 (reach w [if xs.isEmpty then 0 else 1] passes) false xs
  s2.putWave (advanceBy w1 op)

/-- An instruction that clears the idempotent state at its issue (R234). -/
def clearIdem (s : State) (b : Block) : State := s.putBlock { b with idem := false }

end Sys2Proof.Machine
end

