-- ==== Sys2Proof/Machine/Place.lean ====
section
/-!
DEFINITION. Sys2Proof/Machine/Place.lean: allotments, placement of blocks and waves, accumulator partitions (spec/05, R51 to
R55, R65, R66; spec/13, R230, R231; spec/20, R306, R314), and groups (R227).
-/

namespace Sys2Proof.Machine

/-! ### Figures (R1, R2, R55, R64) -/

def coresPerIsle : Nat := 32
def lanesPerCore : Nat := 16
def slotsPerLane : Nat := 8
def blockSlots : Nat := 8
def gridSlots : Nat := 32
def laneRows : Nat := 2048
def coreGranules : Nat := 128
def partitionRows : Nat := 512
def partitionsPerCore : Nat := 4
def groupTableSize : Nat := 256

/-! ### What stands on a core -/

/-- A context is saved: its agents stand in the save area and hold nothing on the isles (R336). -/
def ctxSaved (s : State) (ctx : Nat) : Bool :=
  match s.ctx? ctx with
  | some c => c.saved
  | none => false

/-- The blocks that hold a slot of a core. -/
def State.blocksOn (s : State) (isle core : Nat) : List Block :=
  s.blocks.filter fun b => b.isle == isle && b.core == core && !b.ended && !ctxSaved s b.ctx

/-- The grids that hold a slot of an isle. -/
def State.gridsOn (s : State) (isle : Nat) : List Grid := s.grids.filter fun g => g.isle == isle && !ctxSaved s g.ctx

/-- The allotments of a core that grids hold reserved for their blocks (R231, R313, R317). -/
def reservedOn (s : State) (isle core : Nat) : List (Grid × Allotment) :=
  (s.gridsOn isle).flatMap fun g => (g.reserved.filter fun r => r.2.core == core).map fun r => (g, r.2)

/-- A core is usable: not fenced, not under test (R3, R387, R395). -/
def coreUsable (s : State) (isle core : Nat) : Bool :=
  decide (core < coresPerIsle) && (s.isle isle).units.getLsbD core && !s.platform.underTest.contains (isle * 32 + core)

/-- Lowest number below a bound that a list does not hold. -/
def lowestFree (used : List Nat) (n : Nat) : Option Nat := (List.range n).find? fun i => !used.contains i

/-- The lowest start of a run of n free units out of `total`, `used` holding runs (first, length). -/
def freeRun (used : List (Nat × Nat)) (total n : Nat) : Option Nat :=
  (List.range (total + 1)).find? fun a => a + n ≤ total &&
    used.all fun u => a + n ≤ u.1 || u.1 + u.2 ≤ a

/-! ### Lane files (R52 to R54, R96) -/

/-- Rows of a declared register (R52). -/
def shapeCost (k : Kernel) (n : Nat) : Nat :=
  match k.shapes.toNat / 2 ^ (2 * n) % 4 with
  | 0 => 0 | 1 => 1 | 2 => 1 | _ => 8

def shareProducer (e : BitVec 32) : Nat := e.toNat % 16
def shareConsumer (e : BitVec 32) : Nat := e.toNat / 16 % 16
def shareFirst (e : BitVec 32) : Nat := e.toNat / 256 % 64
def shareLen (e : BitVec 32) : Nat := e.toNat / 2 ^ 14 % 8 + 1

/-- The rows that wave `index` of a kernel takes: the range of a pair stands in the producer's footprint (R53, R96). DESIGN CHOICE
(log 18): once its producer has exited, an orphaned range takes no rows of the lane file. The manual says where its save image
stands (R341) and gives it no rows. -/
def waveRows (k : Kernel) (index : Nat) : Nat :=
  match k.shared.find? fun e => shareConsumer e == index with
  | some e => k.foot - ((List.range (shareLen e)).map fun i => shapeCost k (shareFirst e + i)).foldl (· + ·) 0
  | none => k.foot

/-- A lane's load: its slots used and its rows taken. -/
structure LaneLoad where
  slots : List Nat
  rows  : Nat

/-- A wave that was switched out alone and belongs to no pair: its slot is kept for it, its rows are not (R52, R335). -/
def rowsFreed (w : Wave) : Bool :=
  w.range.isNone && match w.phase with
  | .missed | .lstepWait _ => true
  | _ => false

/-- The rows a placed wave holds. -/
def heldRows (s : State) (w : Wave) : Nat :=
  if rowsFreed w then 0
  else match (s.block? w.block).bind fun b => s.grid? b.grid with
    | some g => waveRows g.kernel w.index
    | none => 0

/-- The loads of a core's lanes; `except` names a block left out. -/
def laneLoads (s : State) (isle core : Nat) (except : Option Nat) : List LaneLoad :=
  let ids := ((s.blocksOn isle core).filter fun b => some b.id != except).map (·.id)
  let ws := s.waves.filter fun w => ids.contains w.block && w.phase != .exited
  let kept := (reservedOn s isle core).flatMap fun r => r.2.lanes.map fun q => (q, waveRows r.1.kernel q.1)
  (List.range lanesPerCore).map fun l =>
    let here := ws.filter fun w => w.lane == l
    let held := kept.filter fun q => q.1.2.1 == l
    ⟨here.map (·.slot) ++ held.map (·.1.2.2), (here.map (heldRows s) ++ held.map (·.2)).foldl (· + ·) 0⟩

/-- A lane has room for some waves of a kernel together (R54). -/
def laneTakes (k : Kernel) (ld : LaneLoad) (ws : List Nat) : Bool :=
  decide (ld.rows + (ws.map (waveRows k)).foldl (· + ·) 0 ≤ laneRows) && decide (ld.slots.length + ws.length ≤ slotsPerLane)

/-- Waves that take a lane's lowest free slots: the load after them, and each wave with its lane and slot. -/
def fillLane (k : Kernel) (l : Nat) : List Nat → LaneLoad → LaneLoad × List (Nat × Nat × Nat)
  | [], ld => (ld, [])
  | i :: rest, ld => match lowestFree (ld.slots.map (· % slotsPerLane)) slotsPerLane with
    | none => (ld, [])
    | some j =>
      let slot := l * slotsPerLane + j
      let (ld1, qs) := fillLane k l rest ⟨slot :: ld.slots, ld.rows + waveRows k i⟩
      (ld1, (i, l, slot) :: qs)

/-- The wave with which a wave of a kernel makes a full/empty pair (R96). -/
def pairOf (k : Kernel) (i : Nat) : Option Nat :=
  (k.shared.find? fun e => shareConsumer e == i || shareProducer e == i).map fun e =>
    if shareConsumer e == i then shareProducer e else shareConsumer e

/-- The waves to be placed, those of a pair together: the pairs come first, so that single waves do not take the room that a pair
needs on one lane (R96). -/
def laneUnits (k : Kernel) (ws : List Nat) : List (List Nat) :=
  let whole := fun i : Nat => (pairOf k i).filter ws.contains
  (ws.filterMap fun i => (whole i).bind fun j => if i < j then some [i, j] else none) ++
  ((ws.filter fun i => (whole i).isNone && (pairOf k i).isSome) ++ ws.filter fun i => (pairOf k i).isNone).map fun i => [i]

/-- The lane on which the partner of a wave stands already. -/
def partnerLane (k : Kernel) (done : List (Nat × Nat × Nat)) (i : Nat) : Option Nat :=
  (pairOf k i).bind fun j => (done.find? fun q => q.1 == j).map fun q => q.2.1

/-- Each unit takes the lowest lane that has room for it, or its partner's lane (R54, R96). -/
def assignUnits (k : Kernel) : List (List Nat) → List LaneLoad → List (Nat × Nat × Nat) → Option (List (Nat × Nat × Nat))
  | [], _, done => some done
  | ws :: rest, loads, done =>
    let takes := fun l : Nat => loads[l]?.any fun ld => laneTakes k ld ws
    let lane := match partnerLane k done (ws.headD 0) with
      | some l => if takes l then some l else none
      | none => (List.range lanesPerCore).find? takes
    match lane with
    | none => none
    | some l => match loads[l]? with
      | none => none
      | some ld =>
        let (ld1, qs) := fillLane k l ws ld
        assignUnits k rest (loads.set l ld1) (done ++ qs)

/-- Where some waves of a kernel go: (index, lane, slot) in ascending index, or none where they do not fit (R54). -/
def assignLanes (k : Kernel) (ws : List Nat) (loads : List LaneLoad) (done : List (Nat × Nat × Nat)) :
    Option (List (Nat × Nat × Nat)) :=
  (assignUnits k (laneUnits k ws) loads done).map fun qs => (List.range 16).flatMap fun i => qs.filter fun q => q.1 == i

/-! ### Scratchpad and accumulators (R55, R65, R66) -/

/-- The granule runs of a core's blocks. -/
def granuleRuns (s : State) (isle core : Nat) (except : Option Nat) : List (Nat × Nat) :=
  (((s.blocksOn isle core).filter fun b => some b.id != except).map fun b => (b.firstGran, b.granules)) ++
    (reservedOn s isle core).map fun r => (r.2.gran, r.2.grans)

/-- The accumulator rows of a context's blocks on a core. -/
def accumulatorRuns (s : State) (isle core ctx : Nat) (except : Option Nat) : List (Nat × Nat) :=
  (((s.blocksOn isle core).filter fun b => some b.id != except && b.ctx == ctx).map fun b => (b.accFirst, b.accRows)) ++
    ((reservedOn s isle core).filter fun r => r.1.ctx == ctx).map fun r => (r.2.acc, r.2.accs)

/-- Block slots of a core that are taken. -/
def takenSlots (s : State) (isle core : Nat) (except : Option Nat) : List Nat :=
  (((s.blocksOn isle core).filter fun b => some b.id != except).map (·.slot)) ++
    (reservedOn s isle core).map fun r => r.2.slot

/-- A context has a block on a core, or room reserved there. -/
def contextOn (s : State) (isle core ctx : Nat) : Bool :=
  (s.blocksOn isle core).any (fun b => b.ctx == ctx) || (reservedOn s isle core).any fun r => r.1.ctx == ctx

def State.partitionsOn (s : State) (isle core : Nat) : List Partition :=
  s.partitions.filter fun p => p.isle == isle && p.core == core

/-- A partition that R66 lets the core take: its context has no block there; the one used longest ago. -/
def takeablePartition (s : State) (isle core : Nat) : Option Partition :=
  let free := (s.partitionsOn isle core).filter fun p => !contextOn s isle core p.ctx
  match free with
  | [] => none
  | p :: ps => some (ps.foldl (fun m q => if q.used < m.used then q else m) p)

/-- A context can have a partition on the core (R66). -/
def partitionAvailable (s : State) (isle core ctx : Nat) : Bool :=
  let ps := s.partitionsOn isle core
  ps.any (fun p => p.ctx == ctx) || decide (ps.length < partitionsPerCore) || (takeablePartition s isle core).isSome

/-- Writes bytes in pieces of at most 64 from an address that is a multiple of 64. -/
def writeVaPieces (s : State) (c : Context) (isle : Nat) (k : Access) : Nat → Dword → List Byte → State
  | 0, _, _ => s
  | n + 1, va, bs =>
    if bs.isEmpty then s
    else writeVaPieces (writeVaBytes s c isle va k (bs.take 64)) c isle k n (va + 64) (bs.drop 64)

/-- The bytes of a row of a partition image (R64). -/
def accRowBytes (image : SMap Word) (row : Nat) : List Byte :=
  (List.range 128).flatMap fun c => leBytes 4 (mapGet 0 image (128 * row + c)).toNat

/-- The save-form MCPY: a taken partition's rows go to its context's save area (R66, R340). -/
def savePartition (s : State) (p : Partition) : State :=
  match s.ctx? p.ctx with
  | none => s
  | some c =>
    let base := coreRegion c.save p.isle p.core + 0x3E8000
    let s1 := (List.range partitionRows).foldl (fun s r =>
      writeVaPieces s c p.isle .copyWrite 8 (base + BitVec.ofNat 64 (512 * r)) (accRowBytes p.image r)) s
    s1.putCtx { c with taken := c.taken ++ [p.isle * 32 + p.core] }

/-- Reads an image back from the save area. -/
def readPartitionImage (s : State) (c : Context) (isle core : Nat) : SMap Word :=
  let base := coreRegion c.save isle core + 0x3E8000
  (List.range (partitionRows * 128)).foldl (fun m i =>
    match readVa s c isle (base + BitVec.ofNat 64 (4 * i)) .copyRead 4 with
    | .ok bs => mapSet 0 m i (BitVec.ofNat 32 (leNat bs))
    | _ => m) []

/-- The core from whose region a context's taken partition is restored: the core on which it is bound now, or else the one whose
partition was taken first. DESIGN CHOICE (log 18): R66 restores it into any partition of any core and does not say which. -/
def takenFrom (c : Context) (isle core : Nat) : Option Nat :=
  if c.taken.contains (coreNumber isle core) then some (coreNumber isle core) else c.taken.head?

/-- Binds a partition of the core to the context: its own, a free one, or a taken one (R66). DESIGN CHOICE (log 18): until its
context has issued a matrix command there, a partition is as old as its binding; R66 gives it no age. -/
def bindPartition (s : State) (isle core ctx : Nat) : State :=
  if (s.partitionsOn isle core).any fun p => p.ctx == ctx then s
  else
    let fresh := fun (s : State) (index : Nat) =>
      match (s.ctx? ctx).bind fun c => (takenFrom c isle core).map fun n => (c, n) with
      | some (c, n) =>
        let s1 := s.putCtx { c with taken := c.taken.erase n }
        { s1 with partitions := s1.partitions ++ [⟨isle, core, index, ctx, s.clock, readPartitionImage s c (n / 32) (n % 32)⟩] }
      | none => { s with partitions := s.partitions ++ [⟨isle, core, index, ctx, s.clock, []⟩] }
    match lowestFree ((s.partitionsOn isle core).map (·.index)) partitionsPerCore with
    | some i => fresh s i
    | none => match takeablePartition s isle core with
      | none => s
      | some p =>
        let s1 := savePartition s p
        fresh { s1 with partitions := s1.partitions.erase p } p.index

/-! ### New waves and blocks (R51, R89, R306) -/

def zeroVote : VoteState := ⟨0, 0, 0, []⟩

/-- The members that have contributed to the instance in progress. -/
def VoteState.delivered (v : VoteState) : List Nat := v.given.map (·.1)

/-- Some member claims a value (R175). -/
def VoteState.claim (v : VoteState) : Bool := v.given.any (·.2.1)

/-- The contributions so far combined: ANY by OR, ALL by AND, UNI the value claimed, 0 without a claim (R175). -/
def VoteState.value (v : VoteState) : Bool :=
  if v.mode = 0 then v.given.any (·.2.2)
  else if v.mode = 1 then v.given.all (·.2.2)
  else v.given.any fun q => q.2.1 && q.2.2

/-- A member's contribution is taken back (R235). -/
def withdrawVote (v : VoteState) (who : Nat) : VoteState := { v with given := v.given.filter fun q => q.1 != who }
def zeroClock : Clock := ⟨0, zeroVector⟩

/-- The row of an undeclared, U, A or G register that reads zero (R51, R375). -/
def shapeRow (k : Kernel) (n : Nat) : VRow :=
  match k.shapes.toNat / 2 ^ (2 * n) % 4 with
  | 0 => .undeclared | 1 => .u 0 | 2 => .a 0 0 | _ => .g (List.replicate 64 0)

/-- The value of a preload entry (R306, R375). -/
def preloadValue (g : Grid) (blockIdx waveIdx : Nat) (e : Nat × Nat × Nat × Dword) : Dword :=
  match e.2.2.1 with
  | 0 => e.2.2.2
  | 1 => g.base + e.2.2.2
  | 2 => mapGet 0 g.args e.2.2.2.toNat
  | 3 => BitVec.ofNat 64 waveIdx
  | _ => BitVec.ofNat 64 blockIdx

/-- A register set at placement: zero but for the preload entries of its class. DESIGN CHOICE (log 18): of two entries for one
register the last one stands. -/
def preloadRegs (g : Grid) (cls n blockIdx waveIdx : Nat) : List Dword :=
  g.kernel.preload.foldl (fun rs e =>
    if e.1 = cls then rs.set e.2.1 (preloadValue g blockIdx waveIdx e) else rs) (List.replicate n 0)

/-- EXEC with THR bits set (R94, R306). -/
def threadsMask (n : Nat) : Mask := BitVec.ofNat 64 (2 ^ min n 64 - 1)

/-- The shared range that a wave is declared (R96). -/
def shareOf (k : Kernel) (index : Nat) : Option SharedRange :=
  (k.shared.find? fun e => shareProducer e == index || shareConsumer e == index).map fun e =>
    let producer := shareProducer e == index
    ⟨producer, shareFirst e, shareLen e, if producer then shareConsumer e else shareProducer e⟩

def newWave (g : Grid) (b : Block) (id index lane slot : Nat) (pc : Dword) (last : BitVec 16) : Wave :=
  { id := id, block := b.id, index := index, slot := slot, lane := lane, phase := .ready, pc := pc,
    v := (List.range 64).map (shapeRow g.kernel), t := List.replicate 8 (.g (List.replicate 64 0)),
    tv := List.replicate 4 (.g (List.replicate 64 0)), p := List.replicate 7 0,
    s := preloadRegs g 1 32 b.index index, hs := List.replicate 8 0, k := 0, tk0 := 0, tk1 := 0, lastSeq := last,
    exec := threadsMask g.kernel.threads, halted := 0, fpstat := 0, schk := false, tba := g.tba, regions := [],
    preq := false, pcm := 0, tcode := 0, treg := 0, epc := 0, masks := [], loops := [], calls := [], fell := false, run := none,
    tags := 0, tagRegs := [], pending := [], inflight := [], tagCounts := List.replicate 8 0, copies := [],
    copyRanges := [], clock := zeroClock, range := shareOf g.kernel index, full := 0, orphaned := false, voteCount := 0,
    gvoteCount := 0, armed := 0, hits := noHits, haltedWave := false, haltInfo := 0, stepMode := none, stepDone := false,
    stepTrap := 0, stepExec := 0, stepHeld := false, stepThread := 0, replay := none, rest := 0, requests := [],
    missFailed := false, bad := [], badPreds := [], passed := 0, promoted := 0, stallLeft := 0, reached := (0, 0), issue := none }

/-- The group slots of a block: as GRPSET left them, or in the order of the launch's list (R253, R254, R305). -/
def blockGroups (g : Grid) (index : Nat) : List (BitVec 8) :=
  match g.slotSets.find? fun q => q.1 == index with
  | some q => q.2
  | none =>
    let es := (List.range g.groupList.length).filter fun e => (g.groupList.getD e []).contains index
    (List.range 4).map fun j => match es[j]? with
      | some e => BitVec.ofNat 8 (e + 1)
      | none => 0

/-- The wait points of a block as it is placed: the present generations of its groups and of the grid barrier. A generation
cannot pass a member that is still to be placed, so only a block that is placed again finds one that is not 0 (R227, R235, R254). -/
def startPoints (s : State) (g : Grid) (index : Nat) : List (BitVec 8) :=
  ((blockGroups g index).map fun e => if e = 0 then 0 else (s.groupEntry g e.toNat).gen) ++ [(s.groupEntry g 0).gen]

/-- The first identifier at or above a start that no block of the context uses (R277, log 18). -/
def freshIdent (s : State) (ctx : Nat) : Nat → Nat → BitVec 20
  | 0, start => BitVec.ofNat 20 start
  | n + 1, start => if liveIdent s ctx (start % 2 ^ 20) then freshIdent s ctx n (start + 1) else BitVec.ofNat 20 start

def emptyPlane : Plane := ⟨1, 0, []⟩

def newBarrier : Barrier := ⟨0, 0, List.replicate 17 0, zeroVector, zeroVector⟩

def newBlock (s : State) (g : Grid) (index : Nat) (a : Allotment) (inputs : List TileRange) : Block :=
  { id := s.nextId, grid := g.id, ctx := g.ctx, isle := g.isle, core := a.core, slot := a.slot, index := index,
    phase := .ready, pc := g.base + BitVec.ofNat 64 g.kernel.entry, b := preloadRegs g 2 32 index 0, k := 0, tk0 := 0,
    tk1 := 0, lastSeq := 0, loops := [], calls := [], fell := false, tokens := [], nextSeq := 1,
    acqDone := !g.kernel.flags.getLsbD 2, acqSeq := 0, fwin := List.replicate 8 0, qpct := 1024,
    mr := List.replicate 4 0, mc := List.replicate 4 0, firstGran := a.gran, granules := a.grans, scratch := [],
    tags := [], badWords := [], badTags := [], badAcc := [], accFirst := a.acc, accRows := a.accs, acc := [], active := emptyPlane, shadow := emptyPlane,
    queues := List.replicate 5 [], stops := List.replicate 5 none, issued := 0, closed := 0, completed := 0,
    openBatch := [], batches := [], unwaited := [], armed := [], joins := [], inputs := inputs,
    bars := List.replicate 16 newBarrier, clock := zeroClock, groups := blockGroups g index,
    points := startPoints s g index, arrivals := 0, epochSeen := 0, votes := zeroVote, gvotes := zeroVote, kPending := 0,
    request := none, ended := false, idem := g.idem, sortHeld := false, parked := [],
    ident := freshIdent s g.ctx (s.blocks.length + 1) (s.nextId % 2 ^ 20), fault := 0, seqStamps := [], seqGlobal := [] }

/-! ### Allotments (R230) -/

/-- A kernel whose text holds an ACQ is first placed with its prologue allotment (R230). -/
def hasPrologue (k : Kernel) : Bool := k.flags.getLsbD 2

/-- The waves, granules and accumulator rows of an allotment. -/
def allotmentOf (k : Kernel) (full : Bool) : List Nat × Nat × Nat :=
  if full then (List.range k.waves, k.scratch, 16 * k.accum) else ([0], 1, 0)

/-- Finds room on a core for an allotment; `except` names the block whose own allotment it replaces. -/
def findRoom (s : State) (isle core ctx : Nat) (k : Kernel) (full : Bool) (except : Option Nat) : Option Allotment :=
  let (ws, grans, accs) := allotmentOf k full
  match lowestFree (takenSlots s isle core except) blockSlots, freeRun (granuleRuns s isle core except) coreGranules grans,
      freeRun (accumulatorRuns s isle core ctx except) partitionRows accs,
      assignLanes k ws (laneLoads s isle core except) [] with
  | some slot, some g, some a, some lanes =>
    if partitionAvailable s isle core ctx then some ⟨core, slot, g, grans, a, accs, lanes⟩ else none
  | _, _, _, _ => none

/-- A core where some ACQ cannot be granted takes no new block (R230). -/
def coreClosed (s : State) (isle core : Nat) : Bool := (s.blocksOn isle core).any fun b => b.phase == .held .acq

/-- A consumer whose producer has exited: the range's registers and bits are its own, orphaned (R97, R341). -/
def orphanFrom (p c : Wave) : Wave :=
  match c.range with
  | none => c
  | some r => { c with
      orphaned := true, full := p.full,
      v := (List.range r.len).foldl (fun v i => v.set (r.first + i) (p.v.getD (r.first + i) .undeclared)) c.v }

/-- A wave that is placed after its producer has exited finds the range orphaned. -/
def meetProducer (s : State) (c : Wave) : Wave :=
  match c.range with
  | none => c
  | some r => match partnerOf s c r with
    | some p => if !r.producer && p.phase == .exited then orphanFrom p c else c
    | none => c

/-- Places waves of a block. -/
def placeWaves (s : State) (g : Grid) (b : Block) (pc : Dword) (last : BitVec 16) (lanes : List (Nat × Nat × Nat)) :
    State :=
  lanes.foldl (fun s q =>
    { s with
      waves := s.waves ++ [meetProducer s (newWave g b s.nextId q.1 q.2.1 q.2.2 pc last)], nextId := s.nextId + 1 }) s

/-- A block is placed: a partition is bound, its storage reads zero, its waves stand at the entry (R51, R66, R230). -/
def placeAt (s : State) (g : Grid) (index : Nat) (a : Allotment) (inputs : List TileRange) : State :=
  let s1 := bindPartition s g.isle a.core g.ctx
  let b := newBlock s1 g index a inputs
  let s2 := { s1 with blocks := s1.blocks ++ [b], nextId := s1.nextId + 1 }
  placeWaves s2 g b b.pc 0 a.lanes

/-- A block of a resident grid is placed in the room reserved for it; a kernel with an ACQ leaves all but its prologue
reserved (R230, R231). -/
def placeReserved (s : State) (g : Grid) (index : Nat) (a : Allotment) (inputs : List TileRange) : State :=
  let rest := g.reserved.filter fun r => r.1 != index
  if hasPrologue g.kernel then
    let g1 := { g with reserved := rest ++ [(index, { a with lanes := a.lanes.filter fun q => q.1 != 0 })] }
    placeAt (s.putGrid g1) g1 index { a with grans := 1, accs := 0, lanes := a.lanes.filter fun q => q.1 == 0 } inputs
  else
    let g1 := { g with reserved := rest }
    placeAt (s.putGrid g1) g1 index a inputs

/-- The room that a block's ACQ takes: what its grid holds reserved for it (R230), or what the core has free; the waves
already placed keep their lanes. -/
def acqRoom (s : State) (b : Block) (g : Grid) : Option Allotment :=
  match g.reserved.find? fun r => r.1 == b.index with
  | some r => some r.2
  | none =>
  let ws := (List.range g.kernel.waves).filter fun i => !(s.wavesOf b.id).any fun w => w.index == i
  let loads := laneLoads s b.isle b.core none
  let done := (s.wavesOf b.id).map fun w => (w.index, w.lane, w.slot)
  match freeRun (granuleRuns s b.isle b.core (some b.id)) coreGranules g.kernel.scratch,
      freeRun (accumulatorRuns s b.isle b.core b.ctx (some b.id)) partitionRows (16 * g.kernel.accum),
      assignLanes g.kernel ws loads done with
  | some gr, some a, some lanes =>
    some ⟨b.core, b.slot, gr, g.kernel.scratch, a, 16 * g.kernel.accum, lanes.filter fun q => ws.contains q.1⟩
  | _, _, _ => none

/-! ### Groups and grid barriers (R227, R236) -/

/-- The parts over which a grid's groups reach: the grids of one gang, or the grid alone. -/
def State.partsOf (s : State) (g : Grid) : List Grid :=
  s.grids.filter fun p => p.launch == g.launch && p.stage == g.stage

/-- Every member of every part has arrived (R227, R236). It is asked where a member arrives or leaves. -/
def groupComplete (s : State) (g : Grid) (e : Nat) : Bool :=
  (s.partsOf g).all fun p => let x := s.groupEntry p e; x.arrv == x.memb && (!x.gseq || x.garr)

/-- The bit of a block's arrival flags for entry e: 4 for the grid barrier, else the slot that holds e. -/
def flagOf (b : Block) (e : Nat) : Option Nat :=
  if e = 0 then some 4 else (List.range 4).find? fun j => (b.groups.getD j 0).toNat == e

/-- A generation of a group completes: GEN advances, arrivals and flags clear (R227). -/
def advanceGroup (s : State) (g : Grid) (e : Nat) : State :=
  let parts := s.partsOf g
  let s1 := parts.foldl (fun s p =>
    let x := s.groupEntry p e
    s.putGroup p e { x with gen := x.gen + 1, arrv := 0, garr := false }) s
  { s1 with blocks := s1.blocks.map fun b =>
      if parts.any fun p => p.id == b.grid then
        match flagOf b e with
        | some j => { b with arrivals := setBit b.arrivals j false }
        | none => b
      else b }

/-- Advances a group if its generation is complete. -/
def settleGroup (s : State) (g : Grid) (e : Nat) : State := if groupComplete s g e then advanceGroup s g e else s

/-- A block leaves its groups as it exits (R227). -/
def leaveGroups (s : State) (b : Block) (g : Grid) : State :=
  let es := 0 :: (b.groups.filter (· != 0)).map (·.toNat)
  es.foldl (fun s e =>
    let x := s.groupEntry g e
    let arrived := match flagOf b e with
      | some j => b.arrivals.getLsbD j
      | none => false
    settleGroup (s.putGroup g e { x with memb := x.memb - 1, arrv := if arrived then x.arrv - 1 else x.arrv }) g e) s

end Sys2Proof.Machine
end

