-- ==== Sys2Proof/Machine/Votes.lean ====
section
/-!
DEFINITION. Sys2Proof/Machine/Votes.lean: votes (spec/10, R172 to R176), and the exit of a wave, a block sequencer and a grid
sequencer (spec/13, R219, R224, R227; spec/14, R251).
-/

namespace Sys2Proof.Machine

/-! ### Votes -/

/-- A wave's contribution over its active threads (R173): none where a UNI vote has no contributor; `disagree` where two
contributors of a UNI vote differ. -/
inductive Contribution where
  | value (claim : Bool) (b : Bool)
  | disagree
  deriving DecidableEq, Repr

def contribution (mode : BitVec 2) (exec p : Mask) : Contribution :=
  let yes := exec &&& p != 0
  let no := exec &&& ~~~p != 0
  if mode = 0 then .value true yes
  else if mode = 1 then .value true (!no)
  else if yes && no then .disagree
  else .value (yes || no) yes

/-- A contribution enters an instance; none where it disagrees (R176). -/
def deliverVote (v : VoteState) (who : Nat) (kd : BitVec 3) (mode : BitVec 2) (claim b : Bool) : Option VoteState :=
  let v0 : VoteState := if v.given.isEmpty then { v with kd := kd, mode := mode } else v
  if v0.kd != kd || v0.mode != mode then none
  else if mode.toNat = 2 && claim && v0.claim && v0.value != b then none
  else some { v0 with given := v0.given ++ [(who, claim, b)] }

/-- Every member of a block's instance, a wave of the block that has not exited, has delivered (R175). -/
def membersDelivered (k : Kernel) (b : Block) (ws : List Wave) (v : VoteState) : Bool :=
  !v.delivered.isEmpty && (List.range k.waves).all fun i => v.delivered.contains i || agentExited b ws i

/-- The next instance of a vote. -/
def nextInstance (v : VoteState) : VoteState := { v with number := v.number + 1, given := [] }

/-- The block writes its kd (R175). -/
def completeBlockVote (b : Block) : Block :=
  { b with k := setBit b.k b.votes.kd.toNat b.votes.value, kPending := setBit b.kPending b.votes.kd.toNat false,
           votes := nextInstance b.votes }

/-- A block's combined contribution reaches every part of its grid (R175, R236), or disagrees there (R176). An instance that the
grid has completed already was voted in by the block's discarded run, and this contribution reaches nobody (log 12). -/
def forwardGridVote (s : State) (b : Block) (g : Grid) : State :=
  let v := b.gvotes
  let s1 := s.putBlock { b with gvotes := nextInstance v }
  let parts := s.partsOf g
  if v.number < g.votes.number then s1
  else if parts.all fun p => (deliverVote p.votes b.id v.kd v.mode (v.mode != 2 || v.claim) v.value).isSome then
    parts.foldl (fun s p => match deliverVote p.votes b.id v.kd v.mode (v.mode != 2 || v.claim) v.value with
      | some v' => s.putGrid { p with votes := v', kPending := setBit p.kPending v.kd.toNat true }
      | none => s) s1
  else haltGrid s1 g 0x11 0

/-- A block owes nothing to a grid instance: it has contributed, or all its waves have exited with nothing delivered. -/
def blockContributed (s : State) (v : VoteState) (b : Block) : Bool :=
  v.delivered.contains b.id ||
  (b.gvotes.delivered.isEmpty && (b.ended || (s.wavesOf b.id).all fun w => w.phase == .exited))

/-- Every block of every part has contributed; one that waits to be placed again has not (R175, R235). -/
def gridVoteComplete (s : State) (g : Grid) : Bool :=
  !g.votes.delivered.isEmpty && (s.partsOf g).all fun p =>
    decide (p.nblk ≤ p.nextBlock) && p.replace.isEmpty && (s.blocksOf p.id).all (blockContributed s g.votes)

/-- The grid sequencer of every part writes its kd. -/
def completeGridVote (s : State) (g : Grid) : State :=
  (s.partsOf g).foldl (fun s p => s.putGrid { p with
    k := setBit p.k p.votes.kd.toNat p.votes.value, kPending := setBit p.kPending p.votes.kd.toNat false,
    votes := nextInstance p.votes }) s

/-- The operands of a VOTE: no register; it publishes into a condition register (R172, R174). -/
def voteOp (st : BitVec 3) : ThreadOp := memOp 1 st [] []

/-- VOTE at wave scope: the condition register is pending until written (R174). -/
def voteWave (s : State) (w : Wave) (op : ThreadOp) (k : BitVec 3) (b : Bool) : State :=
  if condPending w k then holdWave s w .scoreboard
  else s.putWave { advanceBy w op with pending := w.pending ++ [⟨[], 0, some (k, b), []⟩] }

/-- VOTE at block scope (R175, R176). -/
def voteBlock (s : State) (w : Wave) (b : Block) (op : ThreadOp) (k p : BitVec 3) (m : BitVec 2) (claim x : Bool) : State :=
  if b.votes.delivered.contains w.index then holdWave s w .vote
  else match deliverVote b.votes w.index k m claim x with
    | none => haltWave s w 0x11 p.toNat []
    | some v =>
      (s.putBlock { b with votes := v, kPending := setBit b.kPending k.toNat true }).putWave
        { advanceBy w op with voteCount := w.voteCount + 1 }

/-- The condition register of a grid instance in progress is pending in every part from its first contribution on (R111, R174,
R236). -/
def pendGridVote (s : State) (b : Block) (g : Grid) (k : BitVec 3) : State :=
  if b.gvotes.number < g.votes.number then s
  else (s.partsOf g).foldl (fun s p => s.putGrid { p with kPending := setBit p.kPending k.toNat true }) s

/-- VOTE at grid scope: the previous instance is one that the grid has written (R175). DESIGN CHOICE (log 12): a block that is placed
again votes from instance 0 on, and its votes in instances that the grid has completed count for nothing. -/
def voteGrid (s : State) (w : Wave) (b : Block) (g : Grid) (op : ThreadOp) (k p : BitVec 3) (m : BitVec 2)
    (claim x : Bool) : State :=
  if b.gvotes.delivered.contains w.index || g.votes.number < b.gvotes.number then holdWave s w .vote
  else match deliverVote b.gvotes w.index k m claim x with
    | none => haltWave s w 0x11 p.toNat []
    | some v => ((pendGridVote s b g k).putBlock { b with gvotes := v }).putWave
        { advanceBy w op with gvoteCount := w.gvoteCount + 1 }

def voteStep (k p : BitVec 3) (o m : BitVec 2) (op : ThreadOp) (s : State) (w : Wave) (b : Block) : State :=
  match contribution m w.exec (predMask w p) with
  | .disagree => haltWave s w 0x11 p.toNat []
  | .value claim x =>
    if o = 1 then voteWave s w op k x
    else if o = 2 then voteBlock s w b op k p m claim x
    else match s.grid? b.grid with
      | some g => voteGrid s w b g op k p m claim x
      | none => haltWave s w 0x10 0 []

def execVote (k p : BitVec 3) (o m : BitVec 2) (st : BitVec 3) (s : State) :=
  runMem (.vote k p o m st) (voteOp st) false s fun s w b _ _ => voteStep k p o m (voteOp st) s w b

/-! ### Exits (R251) -/

/-- A producer that exits orphans its range: the registers and bits pass to its consumer (R97, R341); a consumer that is placed
later finds it so. -/
def orphanRange (s : State) (w : Wave) : State :=
  match w.range with
  | none => s
  | some r => match partnerOf s w r with
    | some c => if r.producer && c.phase != .exited then s.putWave (orphanFrom w c) else s
    | none => s

/-- The block's barriers after one of its agents has exited. -/
def settleBlockBarriers (s : State) (block gone : Nat) : State :=
  match s.block? block with
  | none => s
  | some b => match s.grid? b.grid with
    | none => s
    | some g => s.putBlock { b with bars := settleBarriers g.kernel b (s.wavesOf block) gone }

/-- The wave leaves: its stacks are discarded, it acknowledges every token, arrives at its barriers, orphans its range
(R219, R224, R251). -/
def leaveWave (s : State) (w : Wave) : State :=
  let w1 := { writeAllResults w with
    phase := .exited, run := none, masks := [], loops := [], calls := [], regions := [], haltedWave := false }
  let s1 := orphanRange (s.putWave w1) w1
  thawWave (pruneBlockTokens (settleBlockBarriers s1 w.block w.index) w.block) (waveLaunch s w)

/-- A context has halted. -/
def ctxHalted (s : State) (ctx : Nat) : Bool :=
  match s.ctx? ctx with
  | some c => c.halted
  | none => true

/-- EXIT.W: stays while HALTED is not zero; otherwise its copies and results complete and the wave leaves (R251). A wave that an END
token makes exit meets the EXIT at the word where it took the token, which `fell` says (R217, R372). -/
def exitWave (s : State) (w : Wave) : State :=
  if w.halted != 0 then s.putWave { w with phase := .exiting }
  else
    let s1 := landCopies s w.id w.copies.length
    match s1.wave? w.id, s1.block? w.block with
    | some w1, some b => if !w.copies.isEmpty && ctxHalted s1 b.ctx then s1 else leaveWave s1 w1
    | _, _ => s1

/-- What a block sequencer's exit does beside its END token: it acknowledges the grid's tokens, arrives at its barriers and
leaves its groups (R219, R224, R227). -/
def leaveBlock (s : State) (block : Nat) : State :=
  match s.block? block with
  | none => s
  | some b =>
    let s1 := settleBlockBarriers (s.putBlock { b with phase := .exited, loops := [], calls := [] }) block 16
    match s1.block? block, s1.grid? b.grid with
    | some b1, some g => pruneGridTokens (leaveGroups s1 b1 g) g.id
    | _, _ => s1

/-- EXIT.B: an END token, then nothing further (R214, R251). -/
def exitBlock (s : State) (b : Block) : State :=
  if blockTokenLimit ≤ b.tokens.length then holdBlock s b .token
  else leaveBlock (steerBlock s b (b.pc + 4) b.tk0 b.tk1 true id) b.id

/-- EXIT.G. -/
def exitGrid (s : State) (g : Grid) : State :=
  if gridTokenLimit ≤ g.tokens.length then holdGrid s g .token
  else
    let s1 := steerGrid s g (g.pc + 4) 0 0 true id
    match s1.grid? g.id with
    | some g1 => s1.putGrid { g1 with phase := .exited, loops := [], calls := [] }
    | none => s1

/-! ### A wave that comes back (R335) -/

/-- The lane and slot onto which a wave that was switched out alone is restored: a wave of a pair keeps its own. DESIGN CHOICE
(log 18): another takes its old lane and slot again where the lane has room for its rows, and otherwise the lowest lane with room
and its lowest free slot; R335 says only that the lane is a free one of its core. -/
def returnLane (s : State) (st : Standing) (k : Kernel) (w : Wave) : Option (Nat × Nat) :=
  if w.range.isSome then some (w.lane, w.slot)
  else
    let loads := laneLoads s st.isle st.core none
    let rows := waveRows k w.index
    let room := fun l : Nat => loads[l]?.any fun ld => decide (ld.rows + rows ≤ laneRows)
    if room w.lane then some (w.lane, w.slot)
    else (List.range lanesPerCore).findSome? fun l => match loads[l]? with
      | some ld => if room l then (lowestFree (ld.slots.map (· % slotsPerLane)) slotsPerLane).map fun j => (l, l * slotsPerLane + j)
        else none
      | none => none

/-- The wave on its lane again, with the registers of its save slot; none where no lane has room yet (R10, R335). -/
def returnWave (s : State) (w : Wave) : Option Wave :=
  match waveStanding s w, waveKernel s w with
  | some st, some k => (returnLane s st k w).map fun q => { loadSlot s st w.slot w with lane := q.1, slot := q.2 }
  | _, _ => none

/-! ### Token pops (R217) -/

/-- A wave's pop: waits for SEQ last + 1; a scope fault at an SPC other than its pc; else TK0, TK1 and the target. -/
def popWave (s : State) (w : Wave) : State :=
  match s.block? w.block with
  | none => haltWave s w 0x10 0 []
  | some b => match b.tokens.find? fun t => t.seq == w.lastSeq + 1 with
    | none => holdWave s w .token
    | some t =>
      if t.spc != w.pc then haltWave s w 0x11 0 []
      else
        let w1 := { w with lastSeq := t.seq, tk0 := t.v0, tk1 := t.v1, phase := .ready }
        if t.isEnd then
          let w2 := { w1 with fell := true }
          exitWave (pruneBlockTokens (s.putWave w2) w.block) w2
        else pruneBlockTokens (s.putWave { w1 with pc := t.tgt }) w.block

/-- A block's pop: room for the relay first; the relayed token takes the next SEQ of the block's queue (R216, R217). -/
def popBlock (s : State) (b : Block) : State :=
  match s.grid? b.grid with
  | none => haltBlock s b 0x10 0 []
  | some g =>
    if blockTokenLimit ≤ b.tokens.length then holdBlock s b .token
    else match g.tokens.find? fun t => t.seq == b.lastSeq + 1 with
      | none => holdBlock s b .token
      | some t =>
        if t.spc != b.pc then haltBlock s b 0x11 0 []
        else
          let relay : Token := { t with seq := b.nextSeq, relay := true }
          let b1 := { b with lastSeq := t.seq, tokens := b.tokens ++ [relay], nextSeq := b.nextSeq + 1, tk0 := t.v0,
                             tk1 := t.v1, phase := .ready, pc := if t.isEnd then b.pc else t.tgt }
          let s1 := pruneBlockTokens (pruneGridTokens (s.putBlock b1) g.id) b.id
          if t.isEnd then leaveBlock s1 b.id else s1

end Sys2Proof.Machine
end

