-- ==== Sys2Proof/Machine/SeqSys.lean ====
section
/-!
DEFINITION. Sys2Proof/Machine/SeqSys.lean: sequencer loads and stores (spec/09, R139), waits on copy tags (R83, R137), exits,
YIELD, ACQ, barriers, groups, FLAGSET (spec/14, R251 to R257).
-/

namespace Sys2Proof.Machine

/-! ### Sequencer loads and stores (R139) -/

/-- The address of SLDG and SSTG. -/
def seqAddress (base : Dword) (i : BitVec 6) : Dword := base + BitVec.ofNat 64 (8 * i.toNat)

/-- The address fault of an 8-byte sequencer access: canonical form, then alignment. -/
def seqAddressFault (a : Dword) (align : Nat) : Option Nat :=
  if !canonical a then some 0x01 else if a.toNat % align != 0 then some 0x02 else none

/-- No wave of a hit. -/
def noHitter : Nat := 2 ^ 64

/-- A block's or its wave's AGT = 1 accesses are shown to the watch bank (R354, R360). -/
def presentBlock (s : State) (b : Block) (pc : Dword) (regions hitter : Nat) (xs : List WatchAccess) : State :=
  match s.grid? b.grid with
  | some g => presentAgent s (some b) b.ctx b.isle b.core b.slot g.launch pc false regions hitter xs
  | none => s

/-- The race of a block's sequencer access to checked bytes (R274, R282). -/
def seqRace (s : State) (b : Block) (x : Accessor) (write : Bool) (a : Dword) (p : Place) (n : Nat) : Option RaceFound :=
  lowestRace (globalRacesOf s b x write false 0 [⟨a.toNat, p.loc, n, placeChecked p⟩])

/-- Marks the granule of a sequencer access, and performs a store. -/
def seqPerform (s : State) (b : Block) (x : Accessor) (p : Place) (n : Nat) (store : Option Dword) : State :=
  let s1 := match store with
    | some v => writeLoc s p.loc (leBytes 8 v.toNat)
    | none => s
  if placeChecked p then markGranules s1 b x store.isSome false p.loc.addr n else s1

/-- What an 8-byte access of a wave comes to; `k` continues with the bytes read. -/
def waveAccess (s : State) (w : Wave) (a : Dword) (align n : Nat) (acc : Access) (store : Option Dword)
    (k : State → Wave → Standing → List Byte → State) : State :=
  match seqAddressFault a align, waveStanding s w, s.block? w.block with
  | some c, _, _ => takeTrap s w c
  | none, some st, some b =>
    match translate s st.ctx st.isle a acc with
    | .miss m => waveMiss s w st a acc m
    | .wait => awaitWave s w st.isle st.ctx a acc st.core
    | .ok p =>
      let x := accessorWave b w
      match seqRace s b x (store.isSome) a p n with
      | some r => raceWave s w b false (if store.isSome then .write else .read) r
      | none =>
        let bytes := readLoc s p.loc n
        k (seqPerform (cacheLeaf s st.ctx st.isle a) b x p n store) w st bytes
  | none, _, _ => haltWave s w 0x10 0 []

/-- The same of a block sequencer. -/
def blockAccess (s : State) (b : Block) (a : Dword) (acc : Access) (store : Option Dword)
    (k : State → Block → List Byte → State) : State :=
  match seqAddressFault a 8, s.ctx? b.ctx with
  | some c, _ => haltBlock s b c 0 []
  | none, some ctx =>
    match translate s ctx b.isle a acc with
    | .miss m => blockMiss s b ctx a acc m
    | .wait => awaitBlock s b ctx a acc
    | .ok p =>
      let x := accessorSeq b
      match seqRace s b x (store.isSome) a p 8 with
      | some r =>
        if r.thread = eccMark then haltBlock s b 0x17 0 []
        else haltBlock s b 0x14 0 (raceRecord r.addr r.tag 0 false (if store.isSome then .write else .read) b x)
      | none =>
        let bytes := readLoc s p.loc 8
        let s1 := seqPerform (cacheLeaf s ctx b.isle a) b x p 8 store
        k s1 ((s1.block? b.id).getD b) bytes
  | none, none => haltBlock s b 0x10 0 []

/-- The same of a grid sequencer, which neither checks nor updates tags (R278). -/
def gridAccess (s : State) (g : Grid) (a : Dword) (acc : Access) (store : Option Dword)
    (k : State → Grid → List Byte → State) : State :=
  match seqAddressFault a 8, s.ctx? g.ctx with
  | some c, _ => haltGrid s g c 0
  | none, some ctx =>
    match translate s ctx g.isle a acc with
    | .miss m => gridMiss s g ctx a acc m
    | .wait => awaitGrid s g ctx a acc
    | .ok p =>
      let bytes := readLoc s p.loc 8
      let s1 := cacheLeaf s ctx g.isle a
      if store.isNone && farBad s p.loc 8 then haltGrid s g 0x17 0
      else k (match store with
        | some v => writeLoc s1 p.loc (leBytes 8 v.toNat)
        | none => s1) g bytes
  | none, none => haltGrid s g 0x10 0

/-- The watch accesses of a sequencer word. -/
def seqWatch (a : Dword) (store : Bool) : List WatchAccess := [⟨0, a.toNat, 8, if store then 1 else 0, false, none⟩]

/-- Presents a wave's SLDG or SSTG. -/
def presentSeqWave (s : State) (w : Wave) (a : Dword) (store : Bool) : State :=
  match s.block? w.block with
  | some b => presentBlock s b w.pc (regionWord w.regions 0) w.id (seqWatch a store)
  | none => s

def presentSeqGrid (s : State) (g : Grid) (a : Dword) (store : Bool) : State :=
  presentAgent s none g.ctx g.isle 0 g.slot g.launch g.pc false 0 noHitter (seqWatch a store)

def execSldg (c : BitVec 3) (d a : BitVec 5) (i : BitVec 6) (s : State) :=
  runSeq (.sldg c d a i) c [] s
    (fun w =>
      let addr := seqAddress (readS w a.toNat) i
      waveAccess s w addr 8 8 .load none fun s w _ bytes =>
        presentSeqWave (s.putWave (nextWave (writeS w d.toNat (BitVec.ofNat 64 (leNat bytes))))) w addr false)
    (fun b =>
      let addr := seqAddress (readB b a) i
      blockAccess s b addr .load none fun s b bytes =>
        presentBlock (s.putBlock (nextBlock (writeB b d (BitVec.ofNat 64 (leNat bytes))))) b b.pc 0 noHitter
          (seqWatch addr false))
    (fun g =>
      let addr := seqAddress (readG g a) i
      gridAccess s g addr .load none fun s g bytes =>
        presentSeqGrid (s.putGrid (nextGrid (writeG g d (BitVec.ofNat 64 (leNat bytes))))) g addr false)

/-- SSTG clears the idempotent state of the agent's block at its issue (R234). -/
def clearIdemOf (s : State) (block : Nat) : State :=
  match s.block? block with
  | some b => clearIdem s b
  | none => s

def execSstg (c : BitVec 3) (d a : BitVec 5) (i : BitVec 6) (s : State) :=
  runSeq (.sstg c d a i) c [] s
    (fun w =>
      let addr := seqAddress (readS w a.toNat) i
      waveAccess (clearIdemOf s w.block) w addr 8 8 .store (some (readS w d.toNat)) fun s w _ _ =>
        presentSeqWave (s.putWave (nextWave w)) w addr true)
    (fun b =>
      let addr := seqAddress (readB b a) i
      let b1 := { b with idem := false }
      blockAccess (s.putBlock b1) b1 addr .store (some (readB b d)) fun s b _ =>
        presentBlock (s.putBlock (nextBlock b)) b b.pc 0 noHitter (seqWatch addr true))
    (fun g =>
      let addr := seqAddress (readG g a) i
      gridAccess s g addr .store (some (readG g d)) fun s g _ =>
        presentSeqGrid (s.putGrid (nextGrid g)) g addr true)

/-! ### CPWAIT (R83, R137, R282) -/

/-- The words of a tag's copies are restamped as written by the waiting wave, and its ranges are disarmed (R282). -/
def disarmTag (s : State) (w : Wave) (tag : Nat) : State :=
  match s.block? w.block with
  | none => s
  | some b =>
    let rs := w.copyRanges.filter fun r => r.tag == tag
    let s1 := s.putBlock (rs.foldl (fun b r => restamp b w.index w.clock.count (wordsOf r.lo r.size)) b)
    s1.putWave { nextWave w with copyRanges := w.copyRanges.filter fun r => r.tag != tag }

def execCpwait (t : BitVec 3) (s : State) :=
  runSeqWave (.cpwait t) s fun w =>
    if w.tagCounts.getD t.toNat 0 != 0 then holdWave s w (.cpwait t.toNat) else disarmTag s w t.toNat

/-! ### EXIT, YIELD and ACQ -/

def execExit (c : BitVec 3) (s : State) :=
  runSeq (.exit c) c [] s (fun w => exitWave s w) (fun b => exitBlock s b) (fun g => exitGrid s g)

/-- The scheduler has asked the agent's context to stop (R336). -/
def preempted (s : State) (ctx : Nat) : Bool :=
  match s.ctx? ctx with
  | some c => c.preempting
  | none => false

def execYield (c : BitVec 3) (s : State) :=
  runSeq (.yield c) c [] s
    (fun w => s.putWave { nextWave w with phase := if w.preq then .stopped else .ready })
    (fun b => s.putBlock { nextBlock b with phase := if preempted s b.ctx then .stopped else .ready })
    (fun g => haltGrid s g 0x10 0)

/-- The full allotment is taken: offsets 0 to 4095 keep their contents, the rest is newly granted, and the remaining waves
stand at the word after the ACQ with the ACQ's token consumed (R230). -/
def grantAcq (s : State) (b : Block) (g : Grid) (a : Allotment) : State :=
  let b1 := { b with firstGran := a.gran, granules := a.grans, accFirst := a.acc, accRows := a.accs, acc := [],
                     acqDone := true, acqSeq := b.nextSeq, phase := .ready }
  let s0 := s.putGrid { g with reserved := g.reserved.filter fun r => r.1 != b.index }
  let s1 := steerBlock (s0.putBlock b1) b1 (b1.pc + 4) b1.tk0 b1.tk1 false id
  placeWaves s1 g b1 (b1.pc + 4) b1.nextSeq a.lanes

/-- ACQ.B: the first waits for the full allotment and takes it; a later one only emits its token (R230, R257). -/
def acqBlock (s : State) (b : Block) : State :=
  if blockTokenLimit ≤ b.tokens.length then holdBlock s b .token
  else if b.acqDone then steerBlock s b (b.pc + 4) b.tk0 b.tk1 false id
  else match s.grid? b.grid with
    | none => haltBlock s b 0x10 0 []
    | some g => match acqRoom s b g with
      | some a => grantAcq s b g a
      | none => holdBlock s b .acq

def execAcq (s : State) := runSeqBlock .acq s fun b => acqBlock s b

/-! ### Barriers and groups (R225, R227, R252, R281) -/

/-- An agent arrives at barrier n: its bit and wait point are set, its count rises, and the last arrival completes the
generation. The answer is the barrier and the agent's clock. -/
def arriveBar (k : Kernel) (b : Block) (ws : List Wave) (n idx : Nat) (c : Clock) : List Barrier × Clock :=
  let bar := b.bars.getD n newBarrier
  let c1 : Clock := { c with count := c.count + 1 }
  let bar1 : Barrier := { joinBar bar idx (arrivalVector idx c1) with points := bar.points.set idx bar.gen }
  (b.bars.set n (if barComplete k b ws bar1 n then advanceBar k b ws n bar1 else bar1), c1)

/-- A WAIT on barrier n completes: another generation, or a spent barrier (R224, R225). -/
def barOpen (k : Kernel) (b : Block) (ws : List Wave) (n idx : Nat) : Bool :=
  let bar := b.bars.getD n newBarrier
  bar.gen != bar.points.getD idx 0 || barSpent k b ws n

/-- The wait point moves to gen, and the carried vector raises the agent's (R225, R281). -/
def waitBar (b : Block) (n idx : Nat) (c : Clock) : List Barrier × Clock :=
  let bar := b.bars.getD n newBarrier
  (b.bars.set n { bar with points := bar.points.set idx bar.gen }, { c with know := vectorMax c.know bar.carried })

def waveArrive (s : State) (w : Wave) (n : Nat) : State :=
  match s.block? w.block with
  | none => haltWave s w 0x10 0 []
  | some b => match s.grid? b.grid with
    | none => haltWave s w 0x10 0 []
    | some g =>
      if !barMember g.kernel n w.index then haltWave s w 0x10 0 []
      else if (b.bars.getD n newBarrier).arrived.getLsbD w.index then holdWave s w (.barrier n)
      else
        let (bars, c) := arriveBar g.kernel b (s.wavesOf b.id) n w.index w.clock
        (s.putBlock { b with bars := bars }).putWave { nextWave w with clock := c }

def waveWait (s : State) (w : Wave) (n : Nat) : State :=
  match s.block? w.block with
  | none => haltWave s w 0x10 0 []
  | some b => match s.grid? b.grid with
    | none => haltWave s w 0x10 0 []
    | some g =>
      if !barOpen g.kernel b (s.wavesOf b.id) n w.index then holdWave s w (.barrier n)
      else
        let (bars, c) := waitBar b n w.index w.clock
        (s.putBlock { b with bars := bars }).putWave { nextWave w with clock := c }

/-- The entry that a block's func names and its flag bit: the grid barrier, or the group in a slot; `none` for an empty
slot (R252). -/
def groupOf (b : Block) (f : BitVec 6) : Option (Nat × Nat) :=
  if f.toNat = 16 then some (0, 4)
  else let e := (b.groups.getD (f.toNat % 4) 0).toNat
    if e = 0 then none else some (e, f.toNat % 4)

/-- A GRPSET of some part is held at the entry, and the generation for which it waited is over: no member arrives before the
change (R228). -/
def arrivalBarred (s : State) (g : Grid) (e : Nat) : Bool :=
  let parts := s.partsOf g
  parts.any (fun p => p.barred == some e) && parts.all fun p => (s.groupEntry p e).arrv == 0

def blockArriveGroup (s : State) (b : Block) (g : Grid) (e j : Nat) : State :=
  if b.arrivals.getLsbD j || arrivalBarred s g e then holdBlock s b (.group e)
  else
    let x := s.groupEntry g e
    let b1 := { nextBlock b with arrivals := setBit b.arrivals j true, points := b.points.set j x.gen }
    settleGroup ((s.putBlock b1).putGroup g e { x with arrv := x.arrv + 1 }) g e

def blockArrive (s : State) (b : Block) (f : BitVec 6) : State :=
  match s.grid? b.grid with
  | none => haltBlock s b 0x10 0 []
  | some g =>
    if f.toNat < 16 then
      if !barMember g.kernel f.toNat 16 then haltBlock s b 0x10 0 []
      else if (b.bars.getD f.toNat newBarrier).arrived.getLsbD 16 then holdBlock s b (.barrier f.toNat)
      else
        let (bars, c) := arriveBar g.kernel b (s.wavesOf b.id) f.toNat 16 b.clock
        s.putBlock { nextBlock b with bars := bars, clock := c }
    else match groupOf b f with
      | none => haltBlock s b 0x06 0 []
      | some (e, j) => blockArriveGroup s b g e j

/-- A WAIT on a group observes its generation; on the grid barrier, that is the block's observed epoch (R281). -/
def blockWaitGroup (s : State) (b : Block) (g : Grid) (e j : Nat) : State :=
  let x := s.groupEntry g e
  if x.gen == b.points.getD j 0 then holdBlock s b (.group e)
  else s.putBlock { nextBlock b with
    points := b.points.set j x.gen, epochSeen := if j = 4 then x.gen else b.epochSeen }

def blockWait (s : State) (b : Block) (f : BitVec 6) : State :=
  match s.grid? b.grid with
  | none => haltBlock s b 0x10 0 []
  | some g =>
    if f.toNat < 16 then
      if !barOpen g.kernel b (s.wavesOf b.id) f.toNat 16 then holdBlock s b (.barrier f.toNat)
      else
        let (bars, c) := waitBar b f.toNat 16 b.clock
        s.putBlock { nextBlock b with bars := bars, clock := c }
    else match groupOf b f with
      | none => haltBlock s b 0x06 0 []
      | some (e, j) => blockWaitGroup s b g e j

def gridArrive (s : State) (g : Grid) : State :=
  let x := s.groupEntry g 0
  if !x.gseq then haltGrid s g 0x10 0
  else if x.garr then holdGrid s g (.group 0)
  else settleGroup ((s.putGrid { nextGrid g with point := x.gen }).putGroup g 0 { x with garr := true }) g 0

def gridWait (s : State) (g : Grid) : State :=
  let x := s.groupEntry g 0
  if x.gen == g.point then holdGrid s g (.group 0) else s.putGrid { nextGrid g with point := x.gen }

def execArrive (c : BitVec 3) (f : BitVec 6) (s : State) :=
  runSeq (.arrive c f) c [] s (fun w => waveArrive s w f.toNat) (fun b => blockArrive s b f) (fun g => gridArrive s g)

def execWait (c : BitVec 3) (f : BitVec 6) (s : State) :=
  runSeq (.wait c f) c [] s (fun w => waveWait s w f.toNat) (fun b => blockWait s b f) (fun g => gridWait s g)

/-! ### GRPSET (R228, R254) -/

/-- The block of an index in a part, placed or not. -/
def memberBlock (s : State) (p : Grid) (idx : Nat) : Option Block := (s.blocksOf p.id).find? fun b => b.index == idx

/-- The group slots of the block of an index; one that is still to be placed has them too (R253). -/
def memberSlots (s : State) (p : Grid) (idx : Nat) : List (BitVec 8) :=
  match memberBlock s p idx with
  | some b => b.groups
  | none => blockGroups p idx

/-- A slot of the block of an index takes an entry, 0 for none; a block added starts at the present generation (R254). -/
def setMemberSlot (s : State) (p : Grid) (idx j e : Nat) : State :=
  let slots := (memberSlots s p idx).set j (BitVec.ofNat 8 e)
  let s1 := s.putGrid { p with slotSets := (idx, slots) :: p.slotSets.filter fun q => q.1 != idx }
  match memberBlock s p idx with
  | some b => s1.putBlock { b with
      groups := slots, points := if e = 0 then b.points else b.points.set j (s.groupEntry p e).gen }
  | none => s1

/-- The block counts in MEMB: it has not exited. -/
def memberLive (s : State) (p : Grid) (idx : Nat) : Nat :=
  if (memberBlock s p idx).any fun b => b.phase == .exited then 0 else 1

/-- The change of R254 in one part: the block joins the entry, if its slot is empty, or leaves it, if its slot holds it. -/
def grpsetPart (e idx j : Nat) (add : Bool) (s : State) (p : Grid) : State :=
  let x := s.groupEntry p e
  let held := ((memberSlots s p idx).getD j 0).toNat
  let live := memberLive s p idx
  if add && held = 0 then (setMemberSlot s p idx j e).putGroup p e { x with memb := x.memb + live }
  else if !add && held = e then (setMemberSlot s p idx j 0).putGroup p e { x with memb := x.memb - live }
  else s

/-- GRPSET: it waits while members have arrived, and changes the entry in every part of a gang (R228, R254). The slot that decides
an access fault is that of the issuing part's block (log 12). -/
def grpsetGrid (s : State) (g : Grid) (e idx j : Nat) (add : Bool) : State :=
  let held := ((memberSlots s g idx).getD j 0).toNat
  if e = 0 || g.runLen ≤ e || g.nblk ≤ idx then haltGrid s g 0x06 0
  else if (s.partsOf g).any fun p => (s.groupEntry p e).arrv != 0 then holdGrid s { g with barred := some e } .grpset
  else if add && held != e && held != 0 || !add && held != e then haltGrid s { g with barred := none } 0x06 0
  else
    let s1 := (s.partsOf g).foldl (grpsetPart e idx j add) s
    s1.putGrid { nextGrid ((s1.grid? g.id).getD g) with barred := none }

def execGrpset (a b : BitVec 5) (l : BitVec 2) (x : BitVec 1) (s : State) :=
  runSeqGrid (.grpset a b l x) s fun g =>
    grpsetGrid s g ((readG g a).toNat % 256) ((readG g b).toNat % 2 ^ 20) l.toNat (x == 1)

/-! ### FLAGSET (R255, R278, R283) -/

/-- A FLAGSET releases the last write of a granule: the write is ordered before it in the block sequencer (R255, R283). -/
def releasesGranule (s : State) (b : Block) (va pa : Nat) : Bool :=
  granuleWriteOrdered b (accessorSeq b) false va pa (freshTag s b.ctx (readTag s pa)) && !armedMeetsGlobal b va 64

/-- Sets REL in the tags of a tile's checked granules whose last write the FLAGSET releases (R278, R283). -/
def releaseTile (s : State) (c : Context) (b : Block) (base : Nat) : Nat → State
  | 0 => s
  | n + 1 =>
    let s1 := releaseTile s c b base n
    let va := base + 64 * n
    match lookupLeaf s1 b.isle c.root c.pasid (va % 2 ^ 57) with
    | .leaf e sh =>
      let pa := pteField e 12 40 * 4096 + va % 2 ^ sh
      if pteField e 5 1 == 1 && releasesGranule s1 b va pa then writeTag s1 pa (setBit (readTag s1 pa) 59 true) else s1
    | .miss _ => s1

/-- The output queue that a block's func names: the q-th queue of its stage (R255, R315). -/
def outputQueue (l : Launch) (stage q : Nat) : Option (Nat × TileQueue) :=
  ((l.tileQueues.zipIdx.filter fun x => x.1.stage == stage)[q]?).map fun x => (x.2, x.1)

def flagsetBlock (s : State) (b : Block) (tile : Dword) (q : Nat) : State :=
  let b := { b with idem := false }
  let s := s.putBlock b
  match s.grid? b.grid, s.ctx? b.ctx with
  | some g, some c => match s.launch? g.launch with
    | none => haltBlock s b 0x06 0 []
    | some l => match outputQueue l g.stage q with
      | none => haltBlock s b 0x06 0 []
      | some (i, t) =>
        if 2 ^ 32 ≤ tile.toNat || t.ntile ≤ tile.toNat || t.flagged.contains tile.toNat then haltBlock s b 0x06 0 []
        else
          let base := t.base.toNat + tile.toNat * t.tbytes
          let s1 := releaseTile (s.putBlock (nextBlock b)) c b base (t.tbytes / 64)
          s1.putLaunch { l with tileQueues := l.tileQueues.set i { t with flagged := t.flagged ++ [tile.toNat] } }
  | _, _ => haltBlock s b 0x06 0 []

def execFlagset (a : BitVec 5) (q : BitVec 3) (s : State) :=
  runSeqBlock (.flagset a q) s fun b => flagsetBlock s b (readB b a) q.toNat

end Sys2Proof.Machine
end

