-- ==== Sys2Proof/Machine/SeqDebug.lean ====
section
/-!
DEFINITION. Sys2Proof/Machine/SeqDebug.lean: the debugging instructions (spec/14, R261 to R267; spec/24, R351 to R353, R362).
-/

namespace Sys2Proof.Machine

/-- A debugging word: illegal in a context created without debugging (R261). -/
def runDebug (i : Instr) (s : State) (k : Wave → Standing → State) : Host.Outcome State Fault Refusal :=
  runSeqWave i s fun w => match waveStanding s w with
    | some st => if st.ctx.debug then k w st else haltWave s w 0x10 0 []
    | none => haltWave s w 0x10 0 []

/-! ### WPSET (R262, R352, R353) -/

/-- The fields of a watch descriptor (R352). -/
structure Descriptor where
  lo    : Dword
  hi    : Dword
  val   : Dword
  vmask : Dword
  ctl   : Nat

def descriptorOf (bs : List Byte) : Descriptor :=
  let f := fun a n : Nat => leNat ((bs.drop a).take n)
  ⟨BitVec.ofNat 64 (f 0 8), BitVec.ofNat 64 (f 8 8), BitVec.ofNat 64 (f 16 4), BitVec.ofNat 64 (f 20 4), f 24 8⟩

/-- A descriptor is malformed (R353). -/
def malformed (d : Descriptor) (n : Nat) : Bool :=
  let kind := d.ctl % 8
  let agt := d.ctl / 8 % 2
  let sp := d.ctl / 16 % 2
  let vcmp := d.ctl / 32 % 8
  let evt := d.ctl / 256 % 128
  let chain := d.ctl / 2 ^ 15 % 2
  let act := d.ctl / 2 ^ 16 % 8
  (kind == 0) == (evt == 0) || decide (d.hi.toNat < d.lo.toNat) ||
  (sp == 0 && !(canonical d.lo && canonical d.hi)) || (sp == 1 && decide (2 ^ 19 ≤ d.hi.toNat)) ||
  vcmp == 7 || decide (5 ≤ act) || (chain == 1 && n == 0) || (agt == 1 && vcmp != 0) ||
  (evt != 0 && (agt != 0 || sp != 0 || vcmp != 0)) || d.ctl / 2 ^ 19 != 0

/-- Installs predicate n: its count is 0, and its arm bit clears in every wave of the context (R262, R356). -/
def installPredicate (s : State) (ctx n : Nat) (p : WatchPred) : State :=
  match s.ctx? ctx with
  | none => s
  | some c =>
    let s1 := s.putCtx { c with watch := c.watch.set n p }
    { s1 with waves := s1.waves.map fun w =>
        match s1.block? w.block with
        | some b => if b.ctx == ctx then { w with armed := setBit w.armed n false } else w
        | none => w }

/-- CLR disables the predicate and keeps its count (R262, R369). -/
def clearPredicate (s : State) (ctx n : Nat) : State :=
  match s.ctx? ctx with
  | none => s
  | some c => match c.watch[n]? with
    | some p => s.putCtx { c with watch := c.watch.set n { p with enabled := false } }
    | none => s

def wpsetWave (s : State) (w : Wave) (st : Standing) (a : BitVec 5) (clr : Bool) (n : Nat) : State :=
  if clr then
    if a != 0 then takeTrap s w 0x06 else (clearPredicate s st.ctx.index n).putWave (nextWave w)
  else waveAccess s w (readS w a.toNat) 32 32 .load none fun s w st bytes =>
    let d := descriptorOf bytes
    if malformed d n then takeTrap s w 0x06
    else installPredicate (s.putWave (nextWave w)) st.ctx.index n
      ⟨true, d.lo, d.hi, d.val, d.vmask, BitVec.ofNat 64 d.ctl, 0⟩

def execWpset (a : BitVec 5) (x : BitVec 1) (n : BitVec 4) (s : State) :=
  runDebug (.wpset a x n) s fun w st => wpsetWave s w st a (x == 1) n.toNat

/-! ### Targets (R263) -/

/-- The fields of a target word. -/
structure Target where
  thr   : Nat
  whole : Bool
  slot  : Nat
  core  : Nat
  isle  : Nat
  cls   : Nat
  num   : Nat
  hi    : Bool
  deriving DecidableEq, Repr

def targetOf (t : Dword) : Target :=
  let n := t.toNat
  ⟨n % 128, t.getLsbD 7, n / 2 ^ 8 % 128, n / 2 ^ 15 % 32, n / 2 ^ 20 % 8, n / 2 ^ 32 % 16, n / 2 ^ 40 % 64, t.getLsbD 46⟩

/-- The bits that must be zero. -/
def targetZeros (t : Dword) : Bool := t &&& 0xFFFF80F0FF800000 == 0

/-- The wave in the target slot, of the issuing context (R263). -/
def targetWave (s : State) (ctx : Nat) (t : Target) : Option Wave :=
  s.waves.find? fun w => w.slot == t.slot && w.phase != .exited && match s.block? w.block with
    | some b => b.ctx == ctx && b.isle == t.isle && b.core == t.core
    | none => false

/-- A target wave is stopped (R263). -/
def waveStopped (w : Wave) : Bool := w.haltedWave || (w.phase == .exiting && w.halted != 0)

/-- NUM within its class, HI where it has a meaning (R263). -/
def numLegal (w : Wave) (t : Target) : Bool :=
  (!t.hi || (t.cls == 4 && (t.num == 1 || t.num == 2 || t.num == 6))) &&
  match t.cls with
  | 0 => shapeRank (w.v.getD t.num .undeclared) != 0
  | 1 => waveStopped w && w.run.isSome && decide (t.num < tempsOf w)
  | 2 => decide (t.num < 8)
  | 3 => decide (t.num < 32)
  | 4 => decide (t.num < 12)
  | 5 => decide (t.num < 8)
  | 6 => t.num == 0
  | 7 => decide (t.num < 4)
  | 8 => decide (t.num < 8)
  | _ => false

/-- The row of a vector, temporary or trap register that a target names. -/
def targetReg (t : Target) : Reg := if t.cls = 0 then .v t.num else if t.cls = 1 then .t t.num else .tv t.num

/-- The access names one thread of a per-thread register. -/
def perThreadTarget (w : Wave) (t : Target) : Bool :=
  !t.whole && (t.cls == 1 || t.cls == 2 || t.cls == 7 || (t.cls == 0 && shapeRank (readReg w (targetReg t)) == 3))

/-- The target meets the conditions of R263 and R264; WHOLE has no meaning for t, p and tv (log 12). -/
def targetLegal (w : Wave) (t : Target) : Bool :=
  numLegal w t && !(t.whole && (t.cls == 1 || t.cls == 2 || t.cls == 7)) &&
  (t.whole || decide (t.thr < waveWidth) || !(t.cls == 0 || t.cls == 1 || t.cls == 2 || t.cls == 7)) &&
  (waveStopped w || (perThreadTarget w t && w.halted.getLsbD t.thr))

/-- A step of the target wave that another wave has begun is in progress: a debugging operation that reaches the core meanwhile waits
for it, as operations on one wave act in their order of arrival (R267). -/
def stepBusy (x issuer : Wave) : Bool := x.stepMode.isSome && x.stepMode != some issuer.id

/-- The word that a target names holds an uncorrectable error (R70). -/
def debugBad (w : Wave) (t : Target) : Bool :=
  match t.cls with
  | 0 => w.bad.any fun q => q.1 = targetReg t && (q.2 = t.thr || shapeRank (readReg w (targetReg t)) < 3)
  | 1 | 7 => w.bad.any fun q => q.1 = targetReg t && q.2 = t.thr
  | 2 => w.badPreds.any fun q => q.1 = t.num && q.2 = t.thr / 32
  | _ => false

/-- The value that DBGRD reads; none for WHOLE of a G register (R264). -/
def debugValue (w : Wave) (t : Target) : Option Dword :=
  match t.cls with
  | 0 => match readReg w (targetReg t) with
    | .u v => some (v.setWidth 64)
    | .a b st => some (if t.whole then st ++ b else (rowAt (.a b st) t.thr).setWidth 64)
    | .g vs => if t.whole then none else some ((rowAt (.g vs) t.thr).setWidth 64)
    | .undeclared => none
  | 1 | 7 => some ((rowAt (readReg w (targetReg t)) t.thr).setWidth 64)
  | 2 => some (if (predMask w (BitVec.ofNat 3 t.num)).getLsbD t.thr then 1 else 0)
  | 3 => some (w.s.getD t.num 0)
  | 4 => some (readWaveStatus w (if t.hi then 1 else 0) (BitVec.ofNat 5 t.num))
  | 5 => some (if w.k.getLsbD t.num then 1 else 0)
  | 6 => some w.pc
  | _ => some (w.hs.getD t.num 0)

def dbgrdWave (s : State) (w : Wave) (st : Standing) (d a : BitVec 5) : State :=
  let word := readS w a.toNat
  let t := targetOf word
  match targetWave s st.ctx.index t with
  | none => takeTrap s w 0x06
  | some x =>
    if stepBusy x w then holdWave s w .debug
    else if !(targetZeros word && targetLegal x t) then takeTrap s w 0x06
    else if debugBad x t then haltWave s w 0x17 0 []
    else match debugValue x t with
      | some v => s.putWave (nextWave (writeS w d.toNat v))
      | none => takeTrap s w 0x06

def execDbgrd (d a : BitVec 5) (s : State) := runDebug (.dbgrd d a) s fun w st => dbgrdWave s w st d a

/-! ### DBGWR (R264) -/

/-- The run whose body holds an address: its header is the nearest sequencer word before it (R264). -/
def runAt (s : State) (c : Context) (isle : Nat) (pc : Dword) : Nat → Nat → Option Run
  | 0, _ => none
  | n + 1, back =>
    let h := pc - BitVec.ofNat 64 (4 * back)
    match fetchWord s c isle h with
    | .ok w =>
      if sel w 31 1 == 0 then runAt s c isle pc n (back + 1)
      else if (sel w 28 3).toNat == 1 && (sel w 21 7).toNat == 0x2B && decide (back ≤ (sel w 11 5).toNat + 1) then
        match fetchRun s c isle ((sel w 11 5).toNat + 2) (h + 4) with
        | .ok ws => some ⟨h, (sel w 11 5).toNat + 1, (sel w 16 5).toNat, ws⟩
        | _ => none
      else none
    | _ => none

/-- A PC write places the stopped wave inside the run whose body holds it, or outside any run; results that the wave's earlier
instructions gave are written first (R113, R264). -/
def placePc (s : State) (st : Standing) (x : Wave) (v : Dword) : Wave :=
  let pc := v &&& ~~~3#64
  { drainInFlight x with pc := pc, run := runAt s st.ctx st.isle pc 33 1, fell := false }

/-- Every thread of a register, or one. -/
def debugMask (t : Target) : Mask := if t.whole then ~~~0#64 else setBit 0 t.thr true

/-- The target after a DBGWR, which comes after every result on its way; none where the form is an access fault, with its code. -/
def debugWrite (s : State) (st : Standing) (x : Wave) (t : Target) (v : Dword) : Option Wave :=
  let lo : Word := v.setWidth 32
  match t.cls with
  | 0 => match readReg x (targetReg t) with
    | .u _ => if t.whole then some (overwrite x (targetReg t) (.u lo) (debugMask t)) else none
    | .a _ _ => if t.whole then some (overwrite x (targetReg t) (.a lo (v.extractLsb' 32 32)) (debugMask t)) else none
    | .g _ => some (overwrite x (targetReg t) (.u lo) (debugMask t))
    | .undeclared => none
  | 1 | 7 => some (overwrite x (targetReg t) (.u lo) (debugMask t))
  | 2 => some (setPred x (BitVec.ofNat 3 t.num)
      (setBit (predMask x (BitVec.ofNat 3 t.num)) t.thr (v.getLsbD 0)))
  | 3 => some { x with s := x.s.set t.num v }
  | 4 => writeWaveStatus x (if t.hi then 1 else 0) (BitVec.ofNat 5 t.num) v
  | 5 => some { x with k := setBit x.k t.num (v.getLsbD 0) }
  | 6 => some (placePc s st x v)
  | _ => some { x with hs := x.hs.set t.num v }

def dbgwrWave (s : State) (w : Wave) (st : Standing) (a b : BitVec 5) : State :=
  let word := readS w a.toNat
  let t := targetOf word
  match targetWave s st.ctx.index t with
  | none => takeTrap s w 0x06
  | some x =>
    if stepBusy x w then holdWave s w .debug
    else if !(targetZeros word && targetLegal x t) then takeTrap s w 0x06
    else match debugWrite s st x t (readS w b.toNat) with
      | none => takeTrap s w (if t.cls = 4 then 0x01 else 0x06)
      | some x' =>
        if x.id = w.id then s.putWave (nextWave x') else (s.putWave x').putWave (nextWave w)

def execDbgwr (a b : BitVec 5) (s : State) := runDebug (.dbgwr a b) s fun w st => dbgwrWave s w st a b

/-! ### LSTEP (R265) -/

/-- The word at the target's pc may be stepped: a thread-set word or a RUN header. -/
def stepWordLegal (word : Word) : Bool :=
  sel word 31 1 == 0 || ((sel word 28 3).toNat == 1 && (sel word 21 7).toNat == 0x2B)

/-- The step begins: EXEC is the one thread, which leaves HALTED, and the issuer is switched out until it ends, its copies and
results completed first (R83, R265, R335). -/
def beginStep (s : State) (w x : Wave) (st : Standing) (thr : Nat) : State :=
  let x1 := { x with
    stepMode := some w.id, stepExec := x.exec, stepHeld := x.halted.getLsbD thr, stepThread := thr, stepDone := false,
    stepTrap := 0, exec := setBit 0 thr true, halted := setBit x.halted thr false, phase := .ready }
  let s1 := completeWave (s.putWave x1) w.id
  match s1.wave? w.id with
  | some w1 =>
    let s2 := leaveLane s1 st { w1 with phase := .lstepWait x.id }
    { s2 with agenda := .run (.wave x.id) :: s2.agenda }
  | none => s1

/-- The step has ended: its instruction, and the ENDR after the last of its body, have executed or trapped. -/
def stepEnded (x : Wave) : Bool :=
  x.stepDone && (x.stepTrap != 0 || match x.run with
    | some r => x.pc != trailerOf r
    | none => true)

/-- EXEC and HALTED are restored with every result written, and sd receives the cause code; a wave that was held at an EXIT stays
stopped (R251, R263, R372). The issuer is on a lane again. -/
def endStep (s : State) (w x : Wave) (d : BitVec 5) : State :=
  let x0 := writeAllResults x
  let x1 := { x0 with
    exec := x.stepExec, halted := setBit x0.halted x.stepThread x.stepHeld, stepMode := none, stepDone := false,
    stepTrap := 0, phase := if x0.haltedWave then .ready else .exiting }
  (s.putWave x1).putWave (nextWave (writeS w d.toNat (BitVec.ofNat 64 x.stepTrap)))

/-- The step for which an issuer waits has ended, and a lane takes the issuer back. -/
def finishStep (s : State) (w x : Wave) (d : BitVec 5) : State :=
  if stepEnded x then match returnWave s w with
    | some w1 => endStep s w1 x d
    | none => s
  else s

def lstepWave (s : State) (w : Wave) (st : Standing) (d a : BitVec 5) : State :=
  match w.phase with
  | .lstepWait id => match s.wave? id with
    | some x => finishStep s w x d
    | none => s
  | _ =>
    let word := readS w a.toNat
    let t := targetOf word
    match targetWave s st.ctx.index t with
    | none => takeTrap s w 0x06
    | some x =>
      if stepBusy x w then holdWave s w .debug
      else if !(targetZeros word) || t.whole || t.cls != 0 || t.num != 0 || t.hi || waveWidth ≤ t.thr || !waveStopped x then
        takeTrap s w 0x06
      else match fetchWord s st.ctx st.isle x.pc with
        | .miss m => waveMiss s w st x.pc .fetch m
        | .wait => awaitWave s w st.isle st.ctx x.pc .fetch st.core
        | .ok v => if stepWordLegal v then beginStep s w x st t.thr else takeTrap s w 0x06

def execLstep (d a : BitVec 5) (s : State) := runDebug (.lstep d a) s fun w st => lstepWave s w st d a

/-! ### WRESUME (R266, R362) -/

def resumeTarget (x : Wave) (m : Mask) (join : Bool) : Wave :=
  let m1 := m &&& x.halted
  let x1 := { x with halted := x.halted &&& ~~~m1, exec := if join then x.exec ||| m1 else x.exec }
  if x.haltedWave then { x1 with haltedWave := false, haltInfo := 0 } else x1

def wresumeWave (s : State) (w : Wave) (st : Standing) (a b : BitVec 5) (join : Bool) : State :=
  let word := readS w a.toNat
  match targetWave s st.ctx.index (targetOf word) with
  | none => takeTrap s w 0x06
  | some x =>
    if stepBusy x w then holdWave s w .debug
    else if !targetZeros word then takeTrap s w 0x06
    else
      let x1 := resumeTarget x (readS w b.toNat) join
      let s1 := if x.id = w.id then s.putWave (nextWave x1) else (s.putWave x1).putWave (nextWave w)
      if x.haltedWave then thawWave s1 (waveLaunch s1 x) else s1

def execWresume (a b : BitVec 5) (j : BitVec 1) (s : State) :=
  runDebug (.wresume a b j) s fun w st => wresumeWave s w st a b (j == 1)

end Sys2Proof.Machine
end

