-- ==== Sys2Proof/Machine/Fetch.lean ====
section
/-!
DEFINITION. Sys2Proof/Machine/Fetch.lean: what an agent meets at its pc (spec/13, R210 to R212, R217, R402; spec/08, R104 to
R108), and whether the agent may execute a word now (R210, R330, R335 to R337, R361).
-/

namespace Sys2Proof.Machine

/-- What an agent does next at its pc (R212, R402). -/
inductive NextWord where
  | own (i : Instr)
  | illegal
  | pass (n : Nat)
  | pop
  | miss (pc : Dword) (c : MissCause)
  | wait (pc : Dword)
  deriving DecidableEq, Repr

/-- The opcodes of the steering words (R211): BR to BRK, EXIT and ACQ. -/
def isSteering (op : Nat) : Bool := (decide (0x20 ≤ op) && decide (op ≤ 0x27)) || op == 0x2C || op == 0x2E

/-- The level of a scope: wave 1, block 2, grid 3 (R210). -/
abbrev Level := Nat

/-- A word that the sequencer of a level executes itself (R116, R117). -/
def ownWord (w : Word) (next : Option Word) : NextWord :=
  match decode w next with
  | .ok (i, _) => .own i
  | .error _ => .illegal

def isRunHeader (w : Word) : Bool := sel w 31 1 == 1 && (sel w 28 3).toNat == 1 && (sel w 21 7).toNat == 0x2B

/-- The table of R212 for a word outside a run. -/
def classify (level : Level) (w : Word) : NextWord :=
  let scope := (sel w 28 3).toNat
  if sel w 31 1 == 0 then (if level = 1 then .illegal else .pass 1)
  else if isRunHeader w then (if level = 1 then ownWord w none else .pass ((sel w 11 5).toNat + 3))
  else if scope = 2 ∨ scope = 3 then
    if scope = level then ownWord w none
    else if scope < level then .pass 1
    else if isSteering (sel w 21 7).toNat then .pop
    else .pass 1
  else if level = 1 then ownWord w none
  else .pass 1

/-- A word inside a run: a thread-set word of the body, or the trailer (R100, R107, R108). -/
def runWord (r : Run) (pc : Dword) : NextWord :=
  let i := (pc - r.header).toNat / 4 - 1
  match r.body[i]? with
  | none => .illegal
  | some w =>
    if i = r.words then ownWord w none
    else if sel w 31 1 != 0 then .illegal
    else ownWord w (if i + 1 < r.words then r.body[i + 1]? else none)

/-- What a fetched word comes to. -/
def fetched (level : Level) (pc : Dword) : VaResult Word → NextWord
  | .ok w => classify level w
  | .miss m => .miss pc m
  | .wait => .wait pc

def nextOfWave (s : State) (w : Wave) : NextWord :=
  if w.stepMode.isNone && w.fell then .own (.exit 1)
  else match w.run with
    | some r => runWord r w.pc
    | none => match waveStanding s w with
      | some st => fetched 1 w.pc (fetchWord s st.ctx st.isle w.pc)
      | none => .illegal

def nextOfBlock (s : State) (b : Block) : NextWord :=
  if b.fell then .own (.exit 2)
  else match s.ctx? b.ctx with
    | some c => fetched 2 b.pc (fetchWord s c b.isle b.pc)
    | none => .illegal

def nextOfGrid (s : State) (g : Grid) : NextWord :=
  if g.fell then .own (.exit 3)
  else match s.ctx? g.ctx with
    | some c => fetched 3 g.pc (fetchWord s c g.isle g.pc)
    | none => .illegal

/-- What an agent meets. -/
def nextOf (s : State) : Agent → NextWord
  | .wave id => match s.wave? id with
    | some w => nextOfWave s w
    | none => .illegal
  | .block id => match s.block? id with
    | some b => nextOfBlock s b
    | none => .illegal
  | .grid id => match s.grid? id with
    | some g => nextOfGrid s g
    | none => .illegal

/-! ### Who may execute -/

/-- The context lets its agents run: live, neither halted nor saved (R299, R330, R336). -/
def ctxRuns (s : State) (ctx : Nat) : Bool :=
  match s.ctx? ctx with
  | some c => !c.halted && !c.saved
  | none => false

/-- Every block of a resident grid's launch has been placed (R231). -/
def residentStarted (s : State) (g : Grid) : Bool :=
  !g.resident || (s.partsOf g).all fun p => decide (p.nblk ≤ p.nextBlock)

/-- The launch has been admitted (R313, R317) and is not held by a gang halt (R361). -/
def launchRuns (s : State) (g : Grid) : Bool :=
  match s.launch? g.launch with
  | some l => l.admitted && !l.frozen
  | none => true

/-- The wave is at the trailer of its run. -/
def atTrailer (w : Wave) : Bool :=
  match w.run with
  | some r => w.pc == trailerOf r
  | none => false

/-- A request of a wave is a record with a page request: what waited in place for ATS misses now (R25, R335). -/
def absentNow (s : State) (w : Wave) (n : Nat) : Bool :=
  (waveStanding s w).any fun st => s.requests.any fun r => r.isle == st.isle && r.seq == n && r.ats == 2

/-- A wave's phase lets it try its next word. -/
def wavePhaseRuns (s : State) (w : Wave) : Bool :=
  match w.phase with
  | .ready => true
  | .held _ => w.requests.all (absentNow s w)
  | .lstepWait id => match s.wave? id with
    | some x => stepEnded x
    | none => true
  | .exiting => w.halted == 0
  | .missed | .stopped | .exited => false

/-- A wave that is halted as a wave executes only in an LSTEP, or the ENDR of the body whose end it has reached (R265,
R359). -/
def waveUnhalted (w : Wave) : Bool :=
  if w.stepMode.isSome then !w.stepDone || (w.stepTrap == 0 && atTrailer w)
  else !w.haltedWave || atTrailer w

/-- The save is forced on a context's agents: a wave outside a run executes nothing more (R337). -/
def ctxForced (s : State) (ctx : Nat) : Bool :=
  match s.ctx? ctx with
  | some c => c.forced
  | none => false

def waveRuns (s : State) (w : Wave) : Bool :=
  wavePhaseRuns s w && waveUnhalted w &&
  match s.block? w.block with
  | some b => ctxRuns s b.ctx && !(ctxForced s b.ctx && w.run.isNone) && match s.grid? b.grid with
    | some g => residentStarted s g
    | none => false
  | none => false

/-- A block or grid phase lets it try its next word; a miss waits for its verdict. -/
def seqPhaseRuns (p : Phase) (request : Option Nat) : Bool :=
  request.isNone && match p with
  | .ready | .held _ => true
  | _ => false

def blockRuns (s : State) (b : Block) : Bool :=
  seqPhaseRuns b.phase b.request && ctxRuns s b.ctx && match s.grid? b.grid with
    | some g => residentStarted s g && launchRuns s g
    | none => false

/-- A grid sequencer stops at its next word boundary once its context is being pre-empted (R336). -/
def gridRuns (s : State) (g : Grid) : Bool :=
  seqPhaseRuns g.phase g.request && ctxRuns s g.ctx && !preempted s g.ctx && launchRuns s g

def agentRuns (s : State) : Agent → Bool
  | .wave id => match s.wave? id with
    | some w => waveRuns s w
    | none => false
  | .block id => match s.block? id with
    | some b => blockRuns s b
    | none => false
  | .grid id => match s.grid? id with
    | some g => gridRuns s g
    | none => false

/-! ### Passing words (R212, R402) -/

/-- A move from one address to another by passing or by a plain word leaves the text (R402). -/
def leavesText (g : Grid) (old new : Dword) : Bool :=
  decide ((textBounds g).1 ≤ old.toNat) && decide (old.toNat < (textBounds g).2) &&
  decide ((textBounds g).2 ≤ new.toNat)

/-- A sequencer passes n words. -/
def passWords (s : State) (a : Agent) (n : Nat) : State :=
  let d := BitVec.ofNat 64 (4 * n)
  match a with
  | .wave id => match s.wave? id with
    | some w => s.putWave { w with pc := w.pc + d, phase := .ready }
    | none => s
  | .block id => match s.block? id with
    | some b => s.putBlock { b with pc := b.pc + d, phase := .ready }
    | none => s
  | .grid id => match s.grid? id with
    | some g => s.putGrid { g with pc := g.pc + d, phase := .ready }
    | none => s

/-- The address of an agent, and the grid whose text it runs. -/
def agentPc (s : State) : Agent → Option (Dword × Grid)
  | .wave id => (s.wave? id).bind fun w => (s.block? w.block).bind fun b => (s.grid? b.grid).map fun g => (w.pc, g)
  | .block id => (s.block? id).bind fun b => (s.grid? b.grid).map fun g => (b.pc, g)
  | .grid id => (s.grid? id).map fun g => (g.pc, g)

/-- The agent has moved past the last word of its text: EXIT of its own scope is its next word (R402). -/
def setFell (s : State) : Agent → State
  | .wave id => match s.wave? id with
    | some w => s.putWave { w with fell := true }
    | none => s
  | .block id => match s.block? id with
    | some b => s.putBlock { b with fell := true }
    | none => s
  | .grid id => match s.grid? id with
    | some g => s.putGrid { g with fell := true }
    | none => s

/-- After a move of an agent that stood at some address: the mark of R402 if it left its text by moving on. -/
def markFell (s : State) (a : Agent) (old : Dword) (words : Nat) : State :=
  match agentPc s a with
  | some (new, g) =>
    if new == old + BitVec.ofNat 64 (4 * words) && leavesText g old new then setFell s a else s
  | none => s

/-! ### Fetch misses (R108, R335) -/

/-- An agent's fetch misses: a wave is switched out at the word, a block or grid waits in place (R27, R335). A pc that is not
canonical is an access fault at once (R13). -/
def fetchMiss (s : State) (a : Agent) (pc : Dword) (m : MissCause) : State :=
  match a with
  | .wave id => match s.wave? id with
    | some w => match waveStanding s w with
      | some st =>
        if !asksVerdict m then takeTrap s { w with pcm := 0 } (missCode m)
        else switchOut s id st 0 .fetch [(0, pc, m)]
      | none => s
    | none => s
  | .block id => match s.block? id with
    | some b => match s.ctx? b.ctx with
      | some c => blockMiss s b c pc .fetch m
      | none => s
    | none => s
  | .grid id => match s.grid? id with
    | some g => match s.ctx? g.ctx with
      | some c => gridMiss s g c pc .fetch m
      | none => s
    | none => s

/-- An agent's fetch waits for an answer over ATS (R25). -/
def fetchWait (s : State) (a : Agent) (pc : Dword) : State :=
  match a with
  | .wave id => match s.wave? id with
    | some w => match waveStanding s w with
      | some st => awaitWave s w st.isle st.ctx pc .fetch st.core
      | none => s
    | none => s
  | .block id => match s.block? id with
    | some b => match s.ctx? b.ctx with
      | some c => awaitBlock s b c pc .fetch
      | none => s
    | none => s
  | .grid id => match s.grid? id with
    | some g => match s.ctx? g.ctx with
      | some c => awaitGrid s g c pc .fetch
      | none => s
    | none => s

end Sys2Proof.Machine
end

