-- ==== Sys2Proof/Machine/Engine.lean ====
section
/-!
DEFINITION. Sys2Proof/Machine/Engine.lean: engine queues, sync words, armed ranges and the block-scope commands of the copy,
gather, quantiser and collective engines at their issue (spec/06, R71 to R88; spec/09, R140 to R143; spec/22, R332, R333).
-/

namespace Sys2Proof.Machine

/-! ### Queues (R71, R191) -/

def queueOf (b : Block) (q : EngineQueue) : List Command := b.queues.getD (queueBit q) []
def setQueue (b : Block) (q : EngineQueue) (cs : List Command) : Block := { b with queues := b.queues.set (queueBit q) cs }
def headOf (b : Block) (q : EngineQueue) : Option Command := (queueOf b q).head?
def putHead (b : Block) (q : EngineQueue) (c : Command) : Block := setQueue b q (c :: (queueOf b q).tail)
def popHead (b : Block) (q : EngineQueue) : Block := setQueue b q (queueOf b q).tail

/-- An engine queue holds 32 commands (R191). -/
def queueLimit : Nat := 32

def allQueues : List EngineQueue := [.matrix, .sort, .copy, .gather, .coll]

/-- Bits of a packed register, n from bit lo. -/
def bitsAt (v : Dword) (lo n : Nat) : Nat := v.toNat / 2 ^ lo % 2 ^ n

/-- The bytes of a block's scratchpad allotment (R55). -/
def allotBytes (b : Block) : Nat := 4096 * b.granules

/-- A command with its operand values as the issue step reads them (R141, R191, R281). -/
def newCommand (s : State) (b : Block) (i : Instr) (d a v : Dword) (sync : Nat) : Command :=
  { word := (encode i).headD 0, instr := i, d := d, a := a, b := v, qpct := 0, serial := b.issued, started := false,
    done := 0, ahead := [], units := 0, phase := 0, step := s.clock, work := [], dests := [], sync := sync,
    know := b.clock.know, count := b.clock.count, epoch := b.epochSeen, request := none, held := [] }

/-- A range that a command arms at its issue. -/
def armedRange (b : Block) (q : EngineQueue) (sync : Option Nat) (write : Bool) (lo n : Nat) : ArmedRange :=
  ⟨b.id, b.issued, q, lo, lo + n, write, false, sync, none⟩

/-- A command enters its queue with its ranges armed, or a full queue holds the sequencer (R183, R191, R282). -/
def enterQueue (s : State) (b : Block) (q : EngineQueue) (c : Command) (ranges : List ArmedRange) : State :=
  if queueLimit ≤ (queueOf b q).length then holdBlock s b .queueFull
  else
    let b1 := setQueue b q (queueOf b q ++ [c])
    s.putBlock { nextBlock b1 with issued := b.issued + 1, armed := b.armed ++ ranges }

/-- A command whose issue clears the block's idempotent state enters its queue; one that a full queue holds is not issued, and
clears nothing (R191, R234). -/
def enterClearing (s : State) (b : Block) (q : EngineQueue) (c : Command) (ranges : List ArmedRange) : State :=
  if queueLimit ≤ (queueOf b q).length then holdBlock s b .queueFull
  else enterQueue s { b with idem := false } q c ranges

/-- The cause code of the limits that a command breaks, in the order canonical form, alignment, allotment, rest (R141, R327,
log 12). -/
def limitFault (canon align allot rest : Bool) : Option Nat :=
  if canon then some 0x01 else if align then some 0x02 else if allot then some 0x03 else if rest then some 0x06 else none

/-! ### Stop records (R332, R333) -/

def engineCode : EngineQueue → Nat
  | .matrix => 1 | .sort => 2 | .copy => 3 | .gather => 4 | .coll => 5

def causeStopped : Nat := 0
def causeAccess : Nat := 1
def causeRange : Nat := 2
def causeRace : Nat := 3
def causeOverrun : Nat := 4
def causeFormat : Nat := 5
def causeDestination : Nat := 6
def causeMismatch : Nat := 7
def causeNotHeld : Nat := 8
def causeEcc : Nat := 9

/-- Rows and columns minus one of a SRTGO's region (R207). -/
def sortRm1 (c : Command) : Nat := bitsAt c.a 0 7
def sortCm1 (c : Command) : Nat := bitsAt c.a 8 7

/-- The sort progress word (R190). -/
def sortProgress (c : Command) (o e l : BitVec 1) (k : BitVec 3) : Nat :=
  c.phase + c.step * 2 ^ 8 + sortRm1 c * 2 ^ 16 + sortCm1 c * 2 ^ 23 + k.toNat * 2 ^ 30 + l.toNat * 2 ^ 33 +
    e.toNat * 2 ^ 34 + o.toNat * 2 ^ 35 + 2 ^ 36

/-- PROG0 of a started command (R202, R190, R334). An MSTRM that has added no row is not stopped between rows. -/
def progressZero (c : Command) : Nat :=
  match c.instr with
  | .mstrm .. => if c.done = 0 then 0 else c.done + 128
  | .srtgo _ o e l k => sortProgress c o e l k
  | .bcopy .. => min (64 * c.done) (c.work.getD 0 0)
  | .coll .. => 64 * c.done
  | .gath .. => c.done
  | .hist .. => min (16 * c.done) (bitsAt c.b 0 18)
  | .qscale .. => 64 * c.done
  | _ => 0

/-- PROG1 of a started command: the sort transfer word (R209). -/
def progressOne (c : Command) : Nat :=
  match c.instr with
  | .srtld .. => 1 + 4 * c.done
  | .srtst .. => 2 + 4 * c.done
  | _ => 0

/-- The stop record of a queue whose head is a command; one that has raised a cause has started (R332). -/
def stopRecordFor (q : EngineQueue) (cause : Nat) (first : Bool) (c : Command) : StopRecord :=
  if c.started || cause != 0 then
    ⟨engineCode q, cause, first, c.word, BitVec.ofNat 64 (progressZero c), BitVec.ofNat 64 (progressOne c),
      c.dests.map (·.done)⟩
  else ⟨engineCode q, cause, first, 0, 0, 0, []⟩

/-- A queue's stop record with a cause. -/
def stopRecordOf (b : Block) (q : EngineQueue) (cause : Nat) (first : Bool) : StopRecord :=
  match headOf b q with
  | none => ⟨if cause = 0 then 0 else engineCode q, cause, first, 0, 0, 0, []⟩
  | some c => stopRecordFor q cause first c

/-- The code of a halting fault to which R327 gives none of its codes: one of them, as a free value (log 6). -/
def freeCode (s : State) : Nat :=
  ([1, 2, 3, 4, 5, 6, 0x10, 0x11, 0x12, 0x13, 0x14, 0x15, 0x16, 0x17, 0x18, 0x19][(Config.freeDword s.fresh).toNat % 16]?).getD 1

/-- An engine's fault: its queue stops with a stop record, and the context halts (R328, R333). A cause for which R327 has no
code comes with code 0 here, and halts with a free one. -/
def stopEngine (s : State) (b : Block) (q : EngineQueue) (cause code : Nat) (record : List Dword) : State :=
  let code := if code = 0 then freeCode s else code
  let first := match s.ctx? b.ctx with
    | some c => !c.halted
    | none => false
  let b1 := { b with stops := b.stops.set (queueBit q) (some (stopRecordOf b q cause first)) }
  haltEngine ((nextFresh s 1).putBlock b1) b1 code record

/-- A race found at an engine's access: cause race, with the record of R275 (R185, R274). -/
def raceEngine (s : State) (b : Block) (q : EngineQueue) (x : Accessor) (scratch : Bool) (kind : RaceKind)
    (r : RaceFound) : State :=
  if r.thread = eccMark then stopEngine s b q causeEcc 0x17 []
  else stopEngine s b q causeRace 0x14 (raceRecord r.addr r.tag 0 scratch kind b x)

/-- A wave stands where it may be saved (R337). -/
def waveStands (w : Wave) : Bool :=
  match w.phase with
  | .stopped | .exited | .missed | .lstepWait _ | .exiting => true
  | _ => w.haltedWave

def phaseStands : Phase → Bool
  | .ready | .held _ => false
  | _ => true

/-- The waves and the sequencer of a block have all stopped (R336). -/
def blockStands (s : State) (b : Block) : Bool := phaseStands b.phase && (s.wavesOf b.id).all waveStands

/-- The engines of a block work: its context is neither halted nor saved, the block has not stopped in a pre-emption, its launch is
not held by a gang halt, and the queue has not stopped (R330, R336, R361). -/
def engineRuns (s : State) (b : Block) (q : EngineQueue) : Bool :=
  (b.stops.getD (queueBit q) none).isNone &&
  (match s.ctx? b.ctx with
    | some c => !c.halted && !c.saved && !(c.preempting && blockStands s b)
    | none => false) &&
  match s.grid? b.grid with
  | some g => match s.launch? g.launch with
    | some l => !l.frozen
    | none => true
  | none => false

/-! ### Scratchpad accesses of an engine (R185, R282) -/

/-- The lowest racing word of an engine's access to a block's scratchpad. -/
def engineRaceAt (s : State) (b : Block) (owner serial : Nat) (q : EngineQueue) (x : Accessor) (write : Bool) (a n : Nat) :
    Option RaceFound :=
  (wordsOf a n).findSome? fun i =>
    let t := mapGet 0 b.tags i
    let lo := max a (4 * i)
    if armedMeetsEngine b (s.wavesOf b.id) owner serial q write lo (min (a + n) (4 * i + 4) - lo) || scratchRaces b x i t then
      some ⟨0, lo, t.toNat⟩
    else if b.badTags.contains i || (!write && b.badWords.contains i) then some ⟨eccMark, lo, 0⟩
    else none

/-- What a count update of a command races with: armed ranges of other commands, and plain writes, as the tags tell them. The
writes that the tags ascribe to the block sequencer are SYNCWs or restamped, and SYNCWs are not judged (R75, R185, R282). -/
def syncRaceAt (s : State) (b : Block) (owner serial : Nat) (q : EngineQueue) (x : Accessor) (off : Nat) : Option RaceFound :=
  (wordsOf off 8).findSome? fun i =>
    let t := mapGet 0 b.tags i
    if armedMeetsEngine b (s.wavesOf b.id) owner serial q true (4 * i) 4 || (tagWrid t != wridSeq && scratchRaces b x i t) then
      some ⟨0, 4 * i, t.toNat⟩
    else if b.badTags.contains i || b.badWords.contains i then some ⟨eccMark, 4 * i, 0⟩
    else none

/-- The first race of an engine's counted writes of some ranges. -/
def countedRace (s : State) (b : Block) (owner serial : Nat) (q : EngineQueue) (x : Accessor) (sync : Nat) (write : Bool)
    (ranges : List (Nat × Nat)) : Option RaceFound :=
  match ranges.findSome? fun p => engineRaceAt s b owner serial q x write p.1 p.2 with
  | some r => some r
  | none => syncRaceAt s b owner serial q x sync

/-! ### Sync words (R74 to R77) -/

structure SyncWord where
  count  : Nat
  target : Nat
  gen    : BitVec 16
  rsv    : Nat
  armed  : Bool
  deriving DecidableEq, Repr

def syncLimit : Nat := 0xFFFFF

def readSync (b : Block) (off : Nat) : SyncWord :=
  let v := leNat (readBytes b.scratch off 8)
  ⟨v % 2 ^ 20, v / 2 ^ 20 % 2 ^ 20, BitVec.ofNat 16 (v / 2 ^ 40), v / 2 ^ 56 % 2 ^ 7, v / 2 ^ 63 % 2 == 1⟩

def syncNat (w : SyncWord) : Nat :=
  w.count + w.target * 2 ^ 20 + w.gen.toNat * 2 ^ 40 + w.rsv * 2 ^ 56 + (if w.armed then 2 ^ 63 else 0)

/-- Writes a sync word as some agent: the tag takes that writer (R75). -/
def writeSync (b : Block) (x : Accessor) (off : Nat) (w : SyncWord) : Block :=
  markWrite { b with scratch := writeBytes b.scratch off (leBytes 8 (syncNat w)) } x false [(off, 8)]

/-- Adds n bytes: the word, or `none` at a sync overrun (R75). -/
def syncAdd (w : SyncWord) (n : Nat) : Option SyncWord :=
  let c := w.count + n
  if w.armed then
    if w.target < c then none
    else if c = w.target then some { w with gen := w.gen + 1, count := 0, armed := false }
    else some { w with count := c }
  else if syncLimit < c then none
  else some { w with count := c }

/-- Counts n bytes into a block's sync word; the answer is the block and the generation that counts them (R75). -/
def countSync (b : Block) (x : Accessor) (off n : Nat) : Option (Block × BitVec 16) :=
  let w := readSync b off
  (syncAdd w n).map fun w' => (writeSync b x off w', w.gen + 1)

/-- The sync register of a command: alignment and allotment of its word (R74, R141). -/
def syncMisaligned (so : Dword) : Bool := so.toNat % 8 != 0
def syncOutside (b : Block) (so : Dword) : Bool := decide (allotBytes b < so.toNat + 8)

/-! ### SYNCW and SWAIT (R76, R77, R140, R282) -/

/-- What SYNCW leaves of a sync word: armed with target t, or advanced at once. -/
def syncArm (w : SyncWord) (t : Nat) : SyncWord :=
  if w.count = t then { w with target := t, gen := w.gen + 1, count := 0, armed := false }
  else { w with target := t, armed := true }

def syncwBlock (s : State) (b : Block) (d : BitVec 5) (so t : Dword) : State :=
  match limitFault false (syncMisaligned so) (syncOutside b so) (t.toNat == 0 || decide (syncLimit < t.toNat)) with
  | some c => haltBlock s b c 0 []
  | none =>
    let w := readSync b so.toNat
    if w.armed || t.toNat < w.count then haltBlock s b 0x06 0 []
    else
      let b1 := writeSync b (accessorSeq b) so.toNat (syncArm w t.toNat)
      s.putBlock (nextBlock (writeB b1 d ((w.gen + 1).setWidth 64)))

def execSyncw (d a b : BitVec 5) (s : State) :=
  runSeqBlock (.syncw d a b) s fun blk => syncwBlock s blk d (readB blk a) (readB blk b)

/-- (x − g) mod 2^16 < 2^15: generation g is reached (R77, R204). -/
def genReached (x g : BitVec 16) : Bool := (x - g).toNat < 2 ^ 15

/-- A range that an SWAIT on a sync word and generation disarms (R282). -/
def swaitDisarms (off : Nat) (g : BitVec 16) (r : ArmedRange) : Bool :=
  r.sync == some off && match r.lastGen with
    | some k => genReached g k
    | none => false

/-- The granule's tag takes AGT = 1, the block sequencer's count and the block's epoch (R282). -/
def restampGranule (s : State) (b : Block) (pa : Nat) : State :=
  let t := (readTag s pa).toNat
  let keep := t % 2 ^ 24 + t / 2 ^ 38 % 2 ^ 23 * 2 ^ 38 + t / 2 ^ 62 * 2 ^ 62
  writeTag s pa (BitVec.ofNat 64 (keep + b.clock.count.toNat * 2 ^ 24 + (writerEpoch s b).toNat * 2 ^ 30 + 2 ^ 61))

/-- Restamps the checked granules of a global range. -/
def restampGlobal (s : State) (b : Block) (lo n : Nat) : State :=
  match s.ctx? b.ctx with
  | none => s
  | some c =>
    (granulesOf lo n).foldl (fun s va => match lookupLeaf s b.isle c.root c.pasid (va % 2 ^ 57) with
      | .leaf e sh =>
        let pa := pteField e 12 40 * 4096 + va % 2 ^ sh
        if pteField e 5 1 == 1 then stampGlobal (restampGranule s b pa) b.id [pa] else s
      | .miss _ => s) s

/-- The words of some disarmed ranges are restamped as written by the block sequencer (R282). -/
def restampRange (b : Block) (r : ArmedRange) : Block :=
  if r.write && !r.glob then restamp b wridSeq b.clock.count (wordsOf r.lo (r.hi - r.lo)) else b

/-- Disarms the ranges that a completed wait acquires. -/
def disarmRanges (s : State) (b : Block) (gone : ArmedRange → Bool) : State :=
  let rs := b.armed.filter gone
  let b1 := rs.foldl restampRange { b with armed := b.armed.filter fun r => !gone r }
  let b2 := if b1.armed.isEmpty then { b1 with joins := [] } else b1
  (rs.filter fun r => r.glob && r.write).foldl (fun s r => restampGlobal s b r.lo (r.hi - r.lo)) (s.putBlock b2)

def swaitBlock (s : State) (b : Block) (so g : Dword) : State :=
  match limitFault false (syncMisaligned so) (syncOutside b so) false with
  | some c => haltBlock s b c 0 []
  | none =>
    let gen : BitVec 16 := g.setWidth 16
    if !genReached (readSync b so.toNat).gen gen then holdBlock s b (.sync so.toNat)
    else
      let b1 := markRead s b (accessorSeq b) (wordsOf so.toNat 8)
      disarmRanges s (nextBlock b1) (swaitDisarms so.toNat gen)

def execSwait (a b : BitVec 5) (s : State) :=
  runSeqBlock (.swait a b) s fun blk => swaitBlock s blk (readB blk a) (readB blk b)

/-! ### BCOPY (R78, R140) -/

def copyLength (v : Dword) : Nat := bitsAt v 0 20

/-- A length breaks R78. -/
def badLength (n : Nat) : Bool := n % 16 != 0 || decide (n < 16) || decide (0x80000 < n)

def bcopyBlock (s : State) (b : Block) (i : Instr) (d a v so : Dword) (s2g : Bool) : State :=
  let n := copyLength v
  match limitFault (!canonical a) (d.toNat % 16 != 0 || a.toNat % 16 != 0 || syncMisaligned so)
      (decide (allotBytes b < d.toNat + n) || syncOutside b so) (v.toNat / 2 ^ 24 != 0 || badLength n) with
  | some c => haltBlock s { b with idem := b.idem && !s2g } c 0 []
  | none =>
    let own := armedRange b .copy (some so.toNat) (!s2g) d.toNat n
    if s2g then
      enterClearing s b .copy (newCommand s b i d a v so.toNat)
        [own, { own with lo := a.toNat, hi := a.toNat + n, write := true, glob := true }]
    else enterQueue s b .copy (newCommand s b i d a v so.toNat) [own]

def execBcopy (d a b : BitVec 5) (x : BitVec 1) (w : BitVec 5) (s : State) :=
  runSeqBlock (.bcopy d a b x w) s fun blk =>
    bcopyBlock s blk (.bcopy d a b x w) (readB blk d) (readB blk a) (readB blk b) (readB blk w) (x == 1)

/-! ### BMCAST (R81, R140, R141) -/

def castBlk (e : Dword) : Nat := bitsAt e 0 20
def castDest (e : Dword) : Nat := bitsAt e 20 19
def castSync (e : Dword) : Nat := bitsAt e 39 19
def castWin (e : Dword) : Nat := bitsAt e 58 3
def castStamp (e : Dword) : Bool := e.getLsbD 61

/-- The entries of a destination list. -/
def castEntries (b : Block) (list n : Nat) : List Dword :=
  (List.range n).map fun j => BitVec.ofNat 64 (leNat (readBytes b.scratch (list + 8 + 8 * j) 8))

/-- A destination of a multicast: a block of the issuer's grid, by its index (R81). -/
def castTarget (s : State) (b : Block) (blk : Nat) : Option Block :=
  (s.blocksOf b.grid).find? fun d => d.index == blk

/-- Arms the write range of each destination that can be reached, in the destination block (R282). -/
def armDests (s : State) (b : Block) (n : Nat) (es : List Dword) : State :=
  es.foldl (fun s e => match castTarget s b (castBlk e) with
    | none => s
    | some d =>
      if d.ended then s
      else s.putBlock { d with armed := d.armed ++
        [⟨b.id, b.issued, .copy, castDest e, castDest e + n, true, false, some (castSync e), none⟩] }) s

def bmcastBlock (s : State) (b : Block) (i : Instr) (d a v : Dword) : State :=
  match s.grid? b.grid with
  | none => haltBlock s b 0x10 0 []
  | some g =>
    if !g.resident then haltBlock s b 0x10 0 []
    else
      let n := copyLength v
      let m := leNat (readBytes b.scratch d.toNat 8)
      match limitFault (!canonical a) (d.toNat % 8 != 0 || a.toNat % 16 != 0)
          (decide (allotBytes b < d.toNat + 8) || (decide (m ≤ 16) && decide (allotBytes b < d.toNat + 8 + 8 * m)))
          (v.toNat / 2 ^ 20 != 0 || badLength n || m == 0 || decide (16 < m)) with
      | some c => haltBlock s { b with idem := false } c 0 []
      | none =>
        let es := castEntries b d.toNat m
        if queueLimit ≤ (queueOf b .copy).length then holdBlock s b .queueFull
        else
          let c := { newCommand s b i d a v 0 with
            work := es.map (·.toNat), dests := es.map fun e => ⟨castBlk e, castDest e, castSync e, 0, []⟩ }
          let s1 := armDests s b n es
          match s1.block? b.id with
          | some b1 =>
            s1.putBlock { nextBlock (setQueue b1 .copy (queueOf b1 .copy ++ [c])) with issued := b.issued + 1, idem := false }
          | none => s1

def execBmcast (d a b : BitVec 5) (s : State) :=
  runSeqBlock (.bmcast d a b) s fun blk => bmcastBlock s blk (.bmcast d a b) (readB blk d) (readB blk a) (readB blk b)

/-! ### GATH (R80, R140) -/

def gathIndex (v : Dword) : Nat := bitsAt v 0 19
def gathRows (v : Dword) : Nat := bitsAt v 32 13
def gathSize (v : Dword) : Nat := bitsAt v 48 13

def gathBlock (s : State) (b : Block) (i : Instr) (d a v so : Dword) : State :=
  let (l, m, n) := (gathIndex v, gathRows v, gathSize v)
  match limitFault (!canonical a) (d.toNat % 16 != 0 || a.toNat % 16 != 0 || l % 4 != 0 || syncMisaligned so)
      (decide (allotBytes b < d.toNat + m * n) || decide (allotBytes b < l + 4 * m) || syncOutside b so)
      (bitsAt v 19 13 != 0 || bitsAt v 45 3 != 0 || bitsAt v 61 3 != 0 || m == 0 || decide (4096 < m) ||
        n % 16 != 0 || decide (n < 16) || decide (4096 < n)) with
  | some c => haltBlock s b c 0 []
  | none =>
    enterQueue s b .gather (newCommand s b i d a v so.toNat)
      [armedRange b .gather (some so.toNat) true d.toNat (m * n),
       armedRange b .gather (some so.toNat) false l (4 * m)]

def execGath (d a b w : BitVec 5) (s : State) :=
  runSeqBlock (.gath d a b w) s fun blk =>
    gathBlock s blk (.gath d a b w) (readB blk d) (readB blk a) (readB blk b) (readB blk w)

/-! ### HIST and QSCALE (R85 to R88, R140) -/

def histRecordBytes : Nat := 272

def histBlock (s : State) (b : Block) (i : Instr) (d a v so : Dword) : State :=
  let n := bitsAt v 0 18
  match limitFault false (d.toNat % 16 != 0 || a.toNat % 4 != 0 || syncMisaligned so)
      (decide (allotBytes b < d.toNat + histRecordBytes) || decide (allotBytes b < a.toNat + 4 * n) || syncOutside b so)
      (v.toNat / 2 ^ 18 != 0 || n == 0 || decide (131072 < n)) with
  | some c => haltBlock s b c 0 []
  | none =>
    enterQueue s b .copy (newCommand s b i d a v so.toNat)
      [armedRange b .copy (some so.toNat) true d.toNat histRecordBytes,
       armedRange b .copy (some so.toNat) false a.toNat (4 * n)]

def execHist (d a b w : BitVec 5) (s : State) :=
  runSeqBlock (.hist d a b w) s fun blk =>
    histBlock s blk (.hist d a b w) (readB blk d) (readB blk a) (readB blk b) (readB blk w)

def qscaleCount (v : Dword) : Nat := bitsAt v 0 17
def qscaleRecord (v : Dword) : Nat := bitsAt v 32 19
def qscaleWindow (v : Dword) : Nat := bitsAt v 52 3

def qscaleBlock (s : State) (b : Block) (i : Instr) (d a v so : Dword) : State :=
  let (n, r) := (qscaleCount v, qscaleRecord v)
  let out := packedBytes 7 0 n
  match limitFault false (d.toNat % 256 != 0 || a.toNat % 4 != 0 || r % 16 != 0 || syncMisaligned so)
      (decide (allotBytes b < d.toNat + out) || decide (allotBytes b < a.toNat + 4 * n) ||
        decide (allotBytes b < r + histRecordBytes) || syncOutside b so)
      (bitsAt v 17 15 != 0 || bitsAt v 51 1 != 0 || bitsAt v 55 9 != 0 || n % 64 != 0 || decide (n < 64) ||
        decide (65536 < n)) with
  | some c => haltBlock s b c 0 []
  | none =>
    enterQueue s b .copy { newCommand s b i d a v so.toNat with qpct := b.qpct }
      [armedRange b .copy (some so.toNat) true d.toNat out,
       armedRange b .copy (some so.toNat) false a.toNat (4 * n),
       armedRange b .copy (some so.toNat) false r histRecordBytes]

def execQscale (d a b w : BitVec 5) (s : State) :=
  runSeqBlock (.qscale d a b w) s fun blk =>
    qscaleBlock s blk (.qscale d a b w) (readB blk d) (readB blk a) (readB blk b) (readB blk w)

/-! ### COLL (R84, R140, R392) -/

def collLength (v : Dword) : Nat := bitsAt v 0 17
def collGroup (v : Dword) : Nat := bitsAt v 32 8
def collOp (v : Dword) : Nat := bitsAt v 40 2
def collType (v : Dword) : Nat := bitsAt v 42 2
def collInst (v : Dword) : Nat := bitsAt v 48 16

/-- The entry of a peer group: members, rank and modules; `none` where the group has no members for a context (R392). -/
def peerGroup (s : State) (ctx group : Nat) : Option (Nat × List Nat) :=
  let e := readBytes s.hbm (s.platform.pgrpb.toNat / 4096 % 2 ^ 40 * 4096 + 64 * group) 64
  let at_ := fun k => (e.getD k 0).toNat
  let n := at_ 1
  let rank := at_ 2
  let mods := (List.range n).map fun r => at_ (8 + r)
  let self := s.platform.strtb.toNat / 2 ^ 52 % 256
  if at_ 0 % 2 == 1 && at_ 4 + 256 * at_ 5 == ctx && 1 ≤ n && n ≤ 32 && mods[rank]? == some self then some (rank, mods)
  else none

/-- The parameters that the members of an instance must share (R84, R392). -/
def collParams (v : Dword) (mods : List Nat) : List Nat := collOp v :: collType v :: collLength v :: mods

/-- Bytes of a COLL's destination. -/
def collOut (v : Dword) (members : Nat) : Nat := if collOp v = 3 then collLength v * members else collLength v

def collBlock (s : State) (b : Block) (i : Instr) (d a v so : Dword) : State :=
  let n := collLength v
  let grp := peerGroup s b.ctx (collGroup v)
  let out := match grp with
    | some (_, mods) => collOut v mods.length
    | none => n
  match limitFault false (d.toNat % 64 != 0 || a.toNat % 64 != 0 || syncMisaligned so)
      (decide (allotBytes b < d.toNat + out) || decide (allotBytes b < a.toNat + n) || syncOutside b so)
      (bitsAt v 17 15 != 0 || bitsAt v 44 4 != 0 || collType v == 3 || grp.isNone || n % 64 != 0 || decide (n < 64) ||
        decide (0x10000 < n)), grp with
  | some c, _ => haltBlock s { b with idem := false } c 0 []
  | none, none => haltBlock s { b with idem := false } 0x06 0 []
  | none, some (rank, mods) =>
    enterClearing s b .coll { newCommand s b i d a v so.toNat with work := rank :: mods }
      [armedRange b .coll (some so.toNat) true d.toNat out, armedRange b .coll (some so.toNat) false a.toNat n]

def execColl (d a b w : BitVec 5) (s : State) :=
  runSeqBlock (.coll d a b w) s fun blk =>
    collBlock s blk (.coll d a b w) (readB blk d) (readB blk a) (readB blk b) (readB blk w)

/-! ### QJOIN (R72, R142, R342) and BPREF (R143) -/

/-- The queues that a mask names. -/
def joinQueues (m : BitVec 5) : List EngineQueue := allQueues.filter fun q => m.getLsbD (queueBit q)

/-- A QJOIN stands as an entry in every queue that it names. -/
def qjoinBlock (s : State) (b : Block) (m : BitVec 5) : State :=
  let qs := joinQueues m
  if qs.any fun q => decide (queueLimit ≤ (queueOf b q).length) then holdBlock s b .queueFull
  else
    let c := newCommand s b (.qjoin m) 0 0 0 0
    let b1 := qs.foldl (fun b q => setQueue b q (queueOf b q ++ [c])) b
    s.putBlock { nextBlock b1 with issued := b.issued + 1, joins := b.joins ++ [(b.issued, m)] }

def execQjoin (m : BitVec 5) (s : State) := runSeqBlock (.qjoin m) s fun b => qjoinBlock s b m

/-- BPREF changes no value that any agent reads (R143); the far cache is not modelled (log 5). -/
def execBpref (a b : BitVec 5) (s : State) := runSeqBlock (.bpref a b) s fun blk => s.putBlock (nextBlock blk)

end Sys2Proof.Machine
end

