-- ==== Sys2Proof/Machine/Special.lean ====
section
/-!
DEFINITION. Sys2Proof/Machine/Special.lean: the special functions of R158 and R159 (spec/10). Each function has a
reference value, computed in fixed point to far more bits than FP32 holds, and its exact cases. Where R158 leaves the
value open, the free value Config.specialCode is returned if it lies within the bound, and the reference otherwise.
-/

namespace Sys2Proof.Machine

/-- Fraction bits of the fixed-point reference. -/
def refBits : Nat := 320

def refOne : Int := 2 ^ refBits

/-- ln 2 with 320 fraction bits. -/
def refLn2 : Int := 0xb17217f7d1cf79abc9e3b39803f2f6af40f343267298b62d8a0d175b8baafa2be7b876206debac98

/-- π with 320 fraction bits. -/
def refPi : Int := 0x3243f6a8885a308d313198a2e03707344a4093822299f31d0082efa98ec4e6c89452821e638d01377

/-- Sum of the exponential series from term k on; structural in the number of terms. -/
def expSeries (x : Int) : Nat → Nat → Int → Int
  | 0, _, t => t
  | n + 1, k, t => t + expSeries x n (k + 1) (t * x / (refOne * (k + 1)))

/-- exp x for a fixed-point x of magnitude at most 1. -/
def refExp (x : Int) : Int := expSeries x 80 0 refOne

/-- Sum of the sine series: term t has degree 2k + 1. -/
def sinSeries (x2 : Int) : Nat → Nat → Int → Int
  | 0, _, t => t
  | n + 1, k, t => t + sinSeries x2 n (k + 1) (-(t * x2 / refOne) / ((2 * k + 2) * (2 * k + 3)))

/-- Sum of the series of the inverse hyperbolic tangent: p is z^(2k+1). -/
def atanhSeries (z2 : Int) : Nat → Nat → Int → Int
  | 0, _, _ => 0
  | n + 1, k, p => p / (2 * k + 1) + atanhSeries z2 n (k + 1) (p * z2 / refOne)

/-- A fixed-point magnitude as mantissa and exponent with a sticky low bit: an inexact reference. -/
structure RefVal where
  neg  : Bool
  mant : Nat
  exp  : Int
  deriving DecidableEq, Repr

def refOfFixed (neg : Bool) (x : Int) : RefVal := ⟨neg, 2 * x.toNat + 1, -(refBits : Int) - 1⟩

/-- m · 2^e as fixed point, rounded down. -/
def toFixed (m : Nat) (e : Int) : Int :=
  if 0 ≤ e + refBits then (m : Int) * 2 ^ (e + refBits).toNat else (m : Int) / 2 ^ (-(e + refBits)).toNat

/-- 2^x for a fixed-point x between −300 and 300. -/
def refExp2 (x : Int) : RefVal :=
  let n := x / refOne
  let f := x - n * refOne
  ⟨false, 2 * (refExp (f * refLn2 / refOne)).toNat + 1, n - refBits - 1⟩

/-- log₂ of m · 2^e, m ≠ 0, as signed fixed point. -/
def refLog2 (m : Nat) (e : Int) : Int :=
  let l := Nat.log2 m
  let y0 : Int := toFixed m (-(l : Int))
  let high := 3 * y0 > 4 * refOne
  let y := if high then y0 / 2 else y0
  let n : Int := e + l + (if high then 1 else 0)
  let z := (y - refOne) * refOne / (y + refOne)
  n * refOne + 2 * atanhSeries (z * z / refOne) 80 0 z * refOne / refLn2

/-- sin(π t) for a fixed-point t from 0 to 2: sign and magnitude. -/
def refSinPi (t : Int) : Bool × Int :=
  let neg := t ≥ refOne
  let a := if neg then t - refOne else t
  let b := if 2 * a > refOne then refOne - a else a
  let x := b * refPi / refOne
  (neg, sinSeries (x * x / refOne) 50 0 x)

/-- tanh of a fixed-point x from 0 to 20. -/
def refTanh (x : Int) : Int :=
  let d := 2 * x
  let n := d / refLn2
  let f := d - n * refLn2
  let ex := refExp f * 2 ^ n.toNat
  (ex - refOne) * refOne / (ex + refOne)

/-- The reference rounded to FP32 (RNE). -/
def refRound (v : RefVal) : FpResult := roundResult .fp32 .rne false .ieee v.neg v.mant v.exp

/-- The unit in the last place of an FP32 code, as an exponent of two (R158). -/
def ulpExp (code : Nat) : Int :=
  let e : Nat := code / 2 ^ 23 % 2 ^ 8
  (if e == 0 then 1 else (e : Int)) - 150

/-- |c − v| ≤ bound · 2^u, for an FP32 code c that is finite. -/
def withinBound (c : Nat) (v : RefVal) (bound : Nat) (u : Int) : Bool :=
  match fpDecode .fp32 c with
  | .num s m e =>
    let w := min e (min v.exp u)
    let x : Int := m * 2 ^ (e - w).toNat
    let y : Int := v.mant * 2 ^ (v.exp - w).toNat
    let d := (if s then -x else x) - (if v.neg then -y else y)
    decide (d.natAbs ≤ bound * 2 ^ (u - w).toNat)
  | _ => false

/-- Flags of an inexact special function delivering code c whose exactly rounded result had flags fl
(R159, R39, R40). -/
def specialFlags (c : Nat) (fl : FpFlags) : FpFlags :=
  flagIX ||| (fl &&& flagOF) ||| (if c / 2 ^ 23 % 2 ^ 8 == 0 then flagUF else 0)

/-- Delivers an inexact special function: the free value if it lies within the bound, else the reference
(R158, log 7). `absolute` adds the absolute bound 2^−22 of FSIN and FCOS. -/
def specialDeliver (op : Nat) (x : Word) (v : RefVal) (bound : Nat) (absolute : Bool) : FpResult :=
  let r := refRound v
  if r.flags &&& flagOF ≠ 0 then r
  else
    let c := (Config.specialCode op x).toNat
    let ok := withinBound c v bound (ulpExp r.code) || (absolute && withinBound c v 1 (-22))
    let code := if ok then c else r.code
    ⟨code, specialFlags code r.flags⟩

/-- FRSQ (R158). -/
def fpRsqrt (x : Word) : FpResult :=
  match fpDecode .fp32 x.toNat with
  | .nan => ⟨canonNaN .fp32, 0⟩
  | .inf neg => if neg then invalid .fp32 else ⟨0, 0⟩
  | .num neg m e =>
    if m == 0 then ⟨withSign .fp32 neg (infCode .fp32), flagDZ⟩
    else if neg then invalid .fp32
    else
      let odd := e % 2 != 0
      let m1 := if odd then 2 * m else m
      let e1 := if odd then e - 1 else e
      let r0 := isqrt m1
      if r0 * r0 == m1 && m1 == 2 ^ Nat.log2 m1 then
        roundResult .fp32 .rne false .ieee false 1 (-(e1 / 2) - (Nat.log2 r0 : Int))
      else specialDeliver 0x41 x ⟨false, 2 * isqrt (2 ^ 400 / m1) + 1, -201 - e1 / 2⟩ 1 false

/-- An integer FP32 value, read from mantissa and exponent; `none` where it is not an integer. -/
def asInteger (m : Nat) (e : Int) : Option Nat :=
  if 0 ≤ e then some (m * 2 ^ e.toNat)
  else if m % 2 ^ (-e).toNat == 0 then some (m / 2 ^ (-e).toNat) else none

/-- FEXP2 (R158). -/
def fpExp2 (x : Word) : FpResult :=
  match fpDecode .fp32 x.toNat with
  | .nan => ⟨canonNaN .fp32, 0⟩
  | .inf neg => ⟨if neg then 0 else infCode .fp32, 0⟩
  | .num neg m e =>
    match asInteger m e with
    | some n =>
      let k := min n 400
      roundResult .fp32 .rne false .ieee false 1 (if neg then -(k : Int) else k)
    | none =>
      let f := min (toFixed m e) (300 * refOne)
      specialDeliver 0x43 x (refExp2 (if neg then -f else f)) 2 false

/-- FLOG2 (R158). -/
def fpLog2 (x : Word) : FpResult :=
  match fpDecode .fp32 x.toNat with
  | .nan => ⟨canonNaN .fp32, 0⟩
  | .inf neg => if neg then invalid .fp32 else ⟨infCode .fp32, 0⟩
  | .num neg m e =>
    if m == 0 then ⟨withSign .fp32 true (infCode .fp32), flagDZ⟩
    else if neg then invalid .fp32
    else if m == 2 ^ Nat.log2 m then intToFp .fp32 .rne (e + Nat.log2 m)
    else
      let v := refLog2 m e
      specialDeliver 0x44 x (refOfFixed (decide (v < 0)) v.natAbs) 2 false

/-- The argument of FSIN or FCOS modulo two half-turns, as fixed point. -/
def halfTurns (neg : Bool) (m : Nat) (e : Int) : Int :=
  let t := toFixed m e % (2 * refOne)
  if neg then (2 * refOne - t) % (2 * refOne) else t

/-- FSIN: sin(π x) (R158). -/
def fpSin (x : Word) : FpResult :=
  match fpDecode .fp32 x.toNat with
  | .nan => ⟨canonNaN .fp32, 0⟩
  | .inf _ => invalid .fp32
  | .num neg m e =>
    match asInteger m e with
    | some _ => ⟨withSign .fp32 neg 0, 0⟩
    | none =>
      let (s, v) := refSinPi (halfTurns neg m e)
      specialDeliver 0x45 x (refOfFixed s v) 2 true

/-- FCOS: cos(π x) (R158). -/
def fpCos (x : Word) : FpResult :=
  match fpDecode .fp32 x.toNat with
  | .nan => ⟨canonNaN .fp32, 0⟩
  | .inf _ => invalid .fp32
  | .num neg m e =>
    match asInteger m e with
    | some n => ⟨if n % 2 == 0 then 0x3F800000 else 0xBF800000, 0⟩
    | none =>
      match asInteger m (e + 1) with
      | some _ => ⟨0, 0⟩
      | none =>
        let (s, v) := refSinPi ((halfTurns neg m e + refOne / 2) % (2 * refOne))
        specialDeliver 0x46 x (refOfFixed s v) 2 true

/-- FTANH (R158). -/
def fpTanh (x : Word) : FpResult :=
  match fpDecode .fp32 x.toNat with
  | .nan => ⟨canonNaN .fp32, 0⟩
  | .inf neg => ⟨withSign .fp32 neg 0x3F800000, 0⟩
  | .num neg m e =>
    if m == 0 then ⟨x.toNat, 0⟩
    else
      let f := toFixed m e
      let v := if f > 20 * refOne then refOne - 2 ^ (refBits - 57) else refTanh f
      specialDeliver 0x47 x (refOfFixed neg v) 2 false

/-- FQRCP: relative error below 2^−14 (R158). -/
def fpQuickRecip (x : Word) : FpResult :=
  match fpDecode .fp32 x.toNat with
  | .num neg m e =>
    if m == 0 then fpRecip x.toNat
    else if m == 2 ^ Nat.log2 m then roundResult .fp32 .rne false .ieee neg 1 (-(e + Nat.log2 m))
    else
      let r := fpRecip x.toNat
      let c := (Config.specialCode 0x4F x).toNat
      let ok := match fpDecode .fp32 c with
        | .num s n g =>
          let w := min (e + g) (-14)
          let p : Int := m * n * 2 ^ (e + g - w).toNat
          let one : Int := 2 ^ (0 - w).toNat
          s == neg && decide (((p - one).natAbs : Int) < 2 ^ (-14 - w).toNat)
        | _ => false
      let code := if ok then c else r.code
      ⟨code, specialFlags code r.flags⟩
  | _ => fpRecip x.toNat

end Sys2Proof.Machine
end

