-- ==== Sys2Proof/Machine/ThreadInt.lean ====
section
/-!
DEFINITION. Sys2Proof/Machine/ThreadInt.lean: integer and address arithmetic, bit fields and moves (spec/10, R144 to R153).
-/

namespace Sys2Proof.Machine

/-! ### Rows of results (R145) -/

/-- A two-source integer result without an affine form. -/
def intRow2 (op : Word → Word → Word) (a b : VRow) : VRow := perThread [a, b] fun i => op (rowAt a i) (rowAt b i)

def intRow1 (op : Word → Word) (a : VRow) : VRow := perThread [a] fun i => op (rowAt a i)

/-- IADD, ISUB and LEA: U from U sources; A if neither is G and one is A, base and stride apart; otherwise G. -/
def linearRow (op : Word → Word → Word) (a b : VRow) : VRow :=
  match a, b with
  | .u x, .u y => .u (op x y)
  | _, _ => match rowAffine a, rowAffine b with
    | some (x, s), some (y, t) => .a (op x y) (op s t)
    | _, _ => gRow fun i => op (rowAt a i) (rowAt b i)

/-- IMUL and SHL: an A first source and a U second source act on base and stride alike. -/
def scaledRow (op : Word → Word → Word) (a b : VRow) : VRow :=
  match a, b with
  | .u x, .u y => .u (op x y)
  | .a x s, .u y => .a (op x y) (op s y)
  | _, _ => gRow fun i => op (rowAt a i) (rowAt b i)

/-- A logical left shift; 0 from 32 on (R148). -/
def shlWord (x y : Word) : Word := if y.toNat < 32 then x <<< y.toNat else 0
def shrWord (x y : Word) : Word := if y.toNat < 32 then x >>> y.toNat else 0
/-- Every bit equals the sign from 32 on (R148). -/
def sarWord (x y : Word) : Word := x.sshiftRight (min y.toNat 31)
def mulHighWord (x y : Word) : Word := BitVec.ofNat 32 (x.toNat * y.toNat / 2 ^ 32)
def sminWord (x y : Word) : Word := if x.slt y then x else y
def smaxWord (x y : Word) : Word := if x.slt y then y else x
def uminWord (x y : Word) : Word := if x.ult y then x else y
def umaxWord (x y : Word) : Word := if x.ult y then y else x
def leaWord (x y : Word) : Word := x + 4 * y
/-- The number of 1 bits. -/
def popWord (x : Word) : Word := BitVec.ofNat 32 ((List.range 32).filter fun i => x.getLsbD i).length
/-- The number of leading zeros, 32 for 0. -/
def clzWord (x : Word) : Word := if x = 0 then 32 else BitVec.ofNat 32 (31 - Nat.log2 x.toNat)

/-- A 64-bit value from two rows in a thread (R33). -/
def pairAtThread (lo hi : VRow) (i : Nat) : Dword := rowAt hi i ++ rowAt lo i

def loWord (x : Dword) : Word := x.extractLsb' 0 32
def hiWord (x : Dword) : Word := x.extractLsb' 32 32

/-! ### Forms -/

def int2 (f : TR) (row : VRow → VRow → VRow) : ThreadOp :=
  ⟨1, f.s, 0, [single f.a, single f.b], [single f.d],
    fun src w => plainEffect (participants w f.g) [(f.d, row (src f.a) (src f.b))]⟩

def int1 (f : T1) (row : VRow → VRow) : ThreadOp :=
  ⟨1, f.s, 0, [single f.a], [single f.d],
    fun src w => plainEffect (participants w f.g) [(f.d, row (src f.a))]⟩

/-- An immediate form: no guard, every active thread participates (R149). -/
def intImm (f : TI) (row : VRow → VRow) : ThreadOp :=
  ⟨1, f.s, 0, [single f.a], [single f.d], fun src w => plainEffect w.exec [(f.d, row (src f.a))]⟩

/-- A pair result of 64-bit sources (R150). -/
def pairEffect (part : Mask) (d : BitVec 6) (srcs : List VRow) (f : Nat → Dword) : Effect :=
  plainEffect part [(d, perThread srcs fun i => loWord (f i)), (d + 1, perThread srcs fun i => hiWord (f i))]

/-! ### Two-source arithmetic (R148) -/

def execIadd (f : TR) (s : State) := runThread (.iadd f) (int2 f (linearRow (· + ·))) s
def execIsub (f : TR) (s : State) := runThread (.isub f) (int2 f (linearRow (· - ·))) s
def execImul (f : TR) (s : State) := runThread (.imul f) (int2 f (scaledRow (· * ·))) s
def execImulhi (f : TR) (s : State) := runThread (.imulhi f) (int2 f (intRow2 mulHighWord)) s
def execImin (f : TR) (s : State) := runThread (.imin f) (int2 f (intRow2 sminWord)) s
def execImax (f : TR) (s : State) := runThread (.imax f) (int2 f (intRow2 smaxWord)) s
def execUmin (f : TR) (s : State) := runThread (.umin f) (int2 f (intRow2 uminWord)) s
def execUmax (f : TR) (s : State) := runThread (.umax f) (int2 f (intRow2 umaxWord)) s
def execAnd (f : TR) (s : State) := runThread (.and f) (int2 f (intRow2 (· &&& ·))) s
def execOr (f : TR) (s : State) := runThread (.or f) (int2 f (intRow2 (· ||| ·))) s
def execXor (f : TR) (s : State) := runThread (.xor f) (int2 f (intRow2 (· ^^^ ·))) s
def execShl (f : TR) (s : State) := runThread (.shl f) (int2 f (scaledRow shlWord)) s
def execShr (f : TR) (s : State) := runThread (.shr f) (int2 f (intRow2 shrWord)) s
def execSar (f : TR) (s : State) := runThread (.sar f) (int2 f (intRow2 sarWord)) s
def execLea (f : TR) (s : State) := runThread (.lea f) (int2 f (linearRow leaWord)) s
def execPopc (f : T1) (s : State) := runThread (.popc f) (int1 f (intRow1 popWord)) s
def execClz (f : T1) (s : State) := runThread (.clz f) (int1 f (intRow1 clzWord)) s

/-- IMAD: the addend is vd, or vc with a TX word; WIDE and SGN are modifier bits 0 and 1 (R152). -/
def imadOp (f : TR) : ThreadOp :=
  ⟨1, f.s, 0, [single f.a, single f.b, single f.d], [single f.d], fun src w =>
    let (a, b, c) := (src f.a, src f.b, src f.d)
    plainEffect (participants w f.g) [(f.d, perThread [a, b, c] fun i => rowAt a i * rowAt b i + rowAt c i)]⟩

def extend64 (signed : Bool) (x : Word) : Dword := if signed then x.signExtend 64 else x.setWidth 64

def imadTxOp (f : TR) (x : TX) : ThreadOp :=
  let wide := x.m.getLsbD 0
  let sgn := x.m.getLsbD 1
  ⟨2, f.s, 0, [single f.a, single f.b, ⟨x.c, wide⟩], [⟨f.d, wide⟩], fun src w =>
    let (a, b, c, ch) := (src f.a, src f.b, src x.c, src (x.c + 1))
    if wide then
      pairEffect (participants w f.g) f.d [a, b, c, ch] fun i =>
        extend64 sgn (rowAt a i) * extend64 sgn (rowAt b i) + pairAtThread c ch i
    else plainEffect (participants w f.g) [(f.d, perThread [a, b, c] fun i => rowAt a i * rowAt b i + rowAt c i)]⟩

def execImad (f : TR) (s : State) := runThread (.imad f) (imadOp f) s
def execImadTx (f : TR) (x : TX) (s : State) := runThread (.imadTx f x) (imadTxOp f x) s

/-! ### Immediate forms (R149) -/

/-- IADDI adds to the value, or to the base of an A row alone (R145). -/
def addImmRow (k : Word) : VRow → VRow
  | .u x => .u (x + k)
  | .a b s => .a (b + k) s
  | r => gRow fun i => rowAt r i + k

/-- SHLI keeps the shape, base and stride both shifted (R145). -/
def shlImmRow (k : Nat) : VRow → VRow
  | .u x => .u (x <<< k)
  | .a b s => .a (b <<< k) (s <<< k)
  | r => gRow fun i => rowAt r i <<< k

def sextImm (i : BitVec 9) : Word := i.signExtend 32
def zextImm (i : BitVec 9) : Word := i.setWidth 32

def execIaddi (f : TI) (s : State) := runThread (.iaddi f) (intImm f (addImmRow (sextImm f.i))) s
def execAndi (f : TI) (s : State) := runThread (.andi f) (intImm f (intRow1 (· &&& sextImm f.i))) s
def execOri (f : TI) (s : State) := runThread (.ori f) (intImm f (intRow1 (· ||| zextImm f.i))) s
def execShli (f : TI) (s : State) := runThread (.shli f) (intImm f (shlImmRow f.i.toNat)) s
def execShri (f : TI) (s : State) := runThread (.shri f) (intImm f (intRow1 (· >>> f.i.toNat))) s

def moviOp (d : BitVec 6) (i : BitVec 9) (st : BitVec 3) : ThreadOp :=
  ⟨1, st, 0, [], [single d], fun _ w => plainEffect w.exec [(d, .u (sextImm i))]⟩

def execMovi (d : BitVec 6) (i : BitVec 9) (st : BitVec 3) (s : State) := runThread (.movi d i st) (moviOp d i st) s

/-! ### 64-bit addresses (R150) -/

def lea64Op (f : TR) : ThreadOp :=
  ⟨1, f.s, 0, [pairAt f.a, single f.b], [pairAt f.d], fun src w =>
    let (a, ah, b) := (src f.a, src (f.a + 1), src f.b)
    pairEffect (participants w f.g) f.d [a, ah, b] fun i => pairAtThread a ah i + (rowAt b i).signExtend 64⟩

def iadd64Op (f : TR) : ThreadOp :=
  ⟨1, f.s, 0, [pairAt f.a, pairAt f.b], [pairAt f.d], fun src w =>
    let (a, ah, b, bh) := (src f.a, src (f.a + 1), src f.b, src (f.b + 1))
    pairEffect (participants w f.g) f.d [a, ah, b, bh] fun i => pairAtThread a ah i + pairAtThread b bh i⟩

def execLea64 (f : TR) (s : State) := runThread (.lea64 f) (lea64Op f) s
def execIadd64 (f : TR) (s : State) := runThread (.iadd64 f) (iadd64Op f) s

/-! ### Bit fields (R151) -/

/-- BFE of one value: `len` bits at `pos`, sign-extended from its top bit if SGN. -/
def bfeWord (i : BitVec 12) (x : Word) : Word :=
  let pos := i.toNat % 32
  let len := i.toNat / 32 % 32 + 1
  let f := x.toNat / 2 ^ pos % 2 ^ len
  if i.getLsbD 10 && 2 ^ (len - 1) ≤ f then BitVec.ofInt 32 ((f : Int) - 2 ^ len) else BitVec.ofNat 32 f

def bfiWord (i : BitVec 12) (x y : Word) : Word :=
  let pos := i.toNat % 32
  let len := i.toNat / 32 % 32 + 1
  let m := BitVec.ofNat 32 ((2 ^ len - 1) * 2 ^ pos)
  (x &&& ~~~m) ||| ((y <<< pos) &&& m)

def bfeOp (f : TR) (x : TX) : ThreadOp :=
  ⟨2, f.s, 0, [single f.a], [single f.d],
    fun src w => plainEffect (participants w f.g) [(f.d, intRow1 (bfeWord x.i) (src f.a))]⟩

def bfiOp (f : TR) (x : TX) : ThreadOp :=
  ⟨2, f.s, 0, [single f.a, single f.b], [single f.d],
    fun src w => plainEffect (participants w f.g) [(f.d, intRow2 (bfiWord x.i) (src f.a) (src f.b))]⟩

def execBfe (f : TR) (x : TX) (s : State) := runThread (.bfe f x) (bfeOp f x) s
def execBfi (f : TR) (x : TX) (s : State) := runThread (.bfi f x) (bfiOp f x) s

/-! ### Moves (R153) -/

def execMov (f : T1) (s : State) := runThread (.mov f) (int1 f id) s

/-- The wave-scope value that MOVS copies. -/
def movsValue (w : Wave) (a : BitVec 6) (h : BitVec 1) : Word :=
  if a = 32 then w.tk0 else if a = 33 then w.tk1
  else if h = 1 then hiWord (readS w a.toNat) else loWord (readS w a.toNat)

def movsOp (d a : BitVec 6) (h : BitVec 1) (g st : BitVec 3) : ThreadOp :=
  ⟨1, st, 0, [], [single d], fun _ w => plainEffect (participants w g) [(d, .u (movsValue w a h))]⟩

def execMovs (d a : BitVec 6) (h : BitVec 1) (g st : BitVec 3) (s : State) :=
  runThread (.movs d a h g st) (movsOp d a h g st) s

/-- SEL: the shape of va when the selector is p7, otherwise G; every active thread participates (R144, R145). -/
def selOp (f : TR) : ThreadOp :=
  ⟨1, f.s, 0, [single f.a, single f.b], [single f.d], fun src w =>
    let (a, b) := (src f.a, src f.b)
    let p := predMask w f.g
    plainEffect w.exec [(f.d, if f.g = 7 then a else gRow fun i => if p.getLsbD i then rowAt a i else rowAt b i)]⟩

def execSel (f : TR) (s : State) := runThread (.sel f) (selOp f) s

end Sys2Proof.Machine
end

