-- ==== Sys2Proof/Machine/ThreadFp.lean ====
section
/-!
DEFINITION. Sys2Proof/Machine/ThreadFp.lean: floating-point arithmetic, FCLASS and the special functions
(spec/10, R154 to R159).
-/

namespace Sys2Proof.Machine

/-! ### One thread -/

/-- A 32-bit or narrower result of one thread; it produced a NaN if it is one and no source was (R47). -/
def fpThread (fmt : FpFormat) (r : FpResult) (srcs : List Nat) : ThreadResult :=
  ⟨BitVec.ofNat 32 r.code, 0, r.flags, isNaN fmt r.code && !srcs.any (isNaN fmt)⟩

/-- An FP64 result of one thread. -/
def fpThread64 (r : FpResult) (srcs : List Nat) : ThreadResult :=
  ⟨BitVec.ofNat 32 r.code, BitVec.ofNat 32 (r.code / 2 ^ 32), r.flags, isNaN .fp64 r.code && !srcs.any (isNaN .fp64)⟩

/-- The element bits of a source: a 16-bit scalar ignores bits 31:16 (R33). -/
def elemOf (fmt : FpFormat) (x : Word) : Nat := x.toNat % 2 ^ fmtWidth fmt

/-- The packed result of two element results (R33); each element judges its own NaN, and flags are ORed (R156). -/
def packThread (fmt : FpFormat) (r0 r1 : FpResult) (s0 s1 : List Nat) : ThreadResult :=
  ⟨BitVec.ofNat 32 (r0.code + 2 ^ 16 * r1.code), 0, r0.flags ||| r1.flags,
    (isNaN fmt r0.code && !s0.any (isNaN fmt)) || (isNaN fmt r1.code && !s1.any (isNaN fmt))⟩

def highHalf (x : Word) : Nat := x.toNat / 2 ^ 16

/-! ### Forms -/

/-- A two-source operation in a format of at most 32 bits. -/
def fp2 (fmt : FpFormat) (f : TR) (words : Nat) (op : Nat → Nat → FpResult) : ThreadOp :=
  ⟨words, f.s, 0, [single f.a, single f.b], [single f.d], fun src w =>
    let (a, b) := (src f.a, src f.b)
    threadEffect (participants w f.g) (single f.d) [a, b] fun i =>
      let (x, y) := (elemOf fmt (rowAt a i), elemOf fmt (rowAt b i))
      fpThread fmt (op x y) [x, y]⟩

/-- A fused multiply-add whose addend is the register at field c. -/
def fp3 (fmt : FpFormat) (f : TR) (c : BitVec 6) (words : Nat) (mode : RoundMode) : ThreadOp :=
  ⟨words, f.s, 0, [single f.a, single f.b, single c], [single f.d], fun src w =>
    let (a, b, k) := (src f.a, src f.b, src c)
    threadEffect (participants w f.g) (single f.d) [a, b, k] fun i =>
      let (x, y, z) := (elemOf fmt (rowAt a i), elemOf fmt (rowAt b i), elemOf fmt (rowAt k i))
      fpThread fmt (fpFma fmt mode x y z) [x, y, z]⟩

/-- A packed two-source operation (R155). -/
def fpPack2 (fmt : FpFormat) (f : TR) (op : Nat → Nat → FpResult) : ThreadOp :=
  ⟨1, f.s, 0, [single f.a, single f.b], [single f.d], fun src w =>
    let (a, b) := (src f.a, src f.b)
    threadEffect (participants w f.g) (single f.d) [a, b] fun i =>
      let (x0, y0) := (elemOf fmt (rowAt a i), elemOf fmt (rowAt b i))
      let (x1, y1) := (highHalf (rowAt a i), highHalf (rowAt b i))
      packThread fmt (op x0 y0) (op x1 y1) [x0, y0] [x1, y1]⟩

/-- A packed fused multiply-add (R155). -/
def fpPack3 (fmt : FpFormat) (f : TR) (c : BitVec 6) (words : Nat) : ThreadOp :=
  ⟨words, f.s, 0, [single f.a, single f.b, single c], [single f.d], fun src w =>
    let (a, b, k) := (src f.a, src f.b, src c)
    threadEffect (participants w f.g) (single f.d) [a, b, k] fun i =>
      let (x0, y0, z0) := (elemOf fmt (rowAt a i), elemOf fmt (rowAt b i), elemOf fmt (rowAt k i))
      let (x1, y1, z1) := (highHalf (rowAt a i), highHalf (rowAt b i), highHalf (rowAt k i))
      packThread fmt (fpFma fmt .rne x0 y0 z0) (fpFma fmt .rne x1 y1 z1) [x0, y0, z0] [x1, y1, z1]⟩

/-- A two-source FP64 operation of latency L (R110). -/
def dp2 (f : TR) (words latency : Nat) (op : Nat → Nat → FpResult) : ThreadOp :=
  ⟨words, f.s, latency, [pairAt f.a, pairAt f.b], [pairAt f.d], fun src w =>
    let (a, ah, b, bh) := (src f.a, src (f.a + 1), src f.b, src (f.b + 1))
    threadEffect (participants w f.g) (pairAt f.d) [a, ah, b, bh] fun i =>
      let (x, y) := ((pairAtThread a ah i).toNat, (pairAtThread b bh i).toNat)
      fpThread64 (op x y) [x, y]⟩

def dp3 (f : TR) (c : BitVec 6) (words : Nat) (mode : RoundMode) : ThreadOp :=
  ⟨words, f.s, 1, [pairAt f.a, pairAt f.b, pairAt c], [pairAt f.d], fun src w =>
    let (a, ah, b, bh) := (src f.a, src (f.a + 1), src f.b, src (f.b + 1))
    let (k, kh) := (src c, src (c + 1))
    threadEffect (participants w f.g) (pairAt f.d) [a, ah, b, bh, k, kh] fun i =>
      let (x, y, z) := ((pairAtThread a ah i).toNat, (pairAtThread b bh i).toNat, (pairAtThread k kh i).toNat)
      fpThread64 (fpFma .fp64 mode x y z) [x, y, z]⟩

/-- A one-source FP32 operation. -/
def fp1 (f : T1) (latency : Nat) (op : Word → FpResult) : ThreadOp :=
  ⟨1, f.s, latency, [single f.a], [single f.d], fun src w =>
    let a := src f.a
    threadEffect (participants w f.g) (single f.d) [a] fun i =>
      fpThread .fp32 (op (rowAt a i)) [(rowAt a i).toNat]⟩

def dabsOp (f : T1) : ThreadOp :=
  ⟨1, f.s, 1, [pairAt f.a], [pairAt f.d], fun src w =>
    let (a, ah) := (src f.a, src (f.a + 1))
    threadEffect (participants w f.g) (pairAt f.d) [a, ah] fun i =>
      let x := (pairAtThread a ah i).toNat
      fpThread64 (fpAbs .fp64 x) [x]⟩

/-- The rounding mode of a TX word: modifier bits 1:0 (R154). -/
def txMode (x : TX) : RoundMode := roundModeOf (x.m.extractLsb' 0 2)

/-! ### FP32 (R155) -/

def execFadd (f : TR) (s : State) := runThread (.fadd f) (fp2 .fp32 f 1 (fpAdd .fp32 .rne)) s
def execFaddTx (f : TR) (x : TX) (s : State) := runThread (.faddTx f x) (fp2 .fp32 f 2 (fpAdd .fp32 (txMode x))) s
def execFsub (f : TR) (s : State) := runThread (.fsub f) (fp2 .fp32 f 1 (fpSub .fp32 .rne)) s
def execFsubTx (f : TR) (x : TX) (s : State) := runThread (.fsubTx f x) (fp2 .fp32 f 2 (fpSub .fp32 (txMode x))) s
def execFmul (f : TR) (s : State) := runThread (.fmul f) (fp2 .fp32 f 1 (fpMul .fp32 .rne)) s
def execFmulTx (f : TR) (x : TX) (s : State) := runThread (.fmulTx f x) (fp2 .fp32 f 2 (fpMul .fp32 (txMode x))) s
def execFfma (f : TR) (s : State) := runThread (.ffma f) (fp3 .fp32 f f.d 1 .rne) s
def execFfmaTx (f : TR) (x : TX) (s : State) := runThread (.ffmaTx f x) (fp3 .fp32 f x.c 2 (txMode x)) s
def execFmin (f : TR) (s : State) := runThread (.fmin f) (fp2 .fp32 f 1 (fpMinMax .fp32 false)) s
def execFmax (f : TR) (s : State) := runThread (.fmax f) (fp2 .fp32 f 1 (fpMinMax .fp32 true)) s

/-- FDIV has latency 2 (R110). -/
def fdivOp (f : TR) (words : Nat) (mode : RoundMode) : ThreadOp :=
  { fp2 .fp32 f words (fpDiv .fp32 mode) with latency := 2 }

def execFdiv (f : TR) (s : State) := runThread (.fdiv f) (fdivOp f 1 .rne) s
def execFdivTx (f : TR) (x : TX) (s : State) := runThread (.fdivTx f x) (fdivOp f 2 (txMode x)) s
def execFabs (f : T1) (s : State) := runThread (.fabs f) (fp1 f 0 fun x => fpAbs .fp32 x.toNat) s

/-! ### FP64 (R155) -/

def execDadd (f : TR) (s : State) := runThread (.dadd f) (dp2 f 1 1 (fpAdd .fp64 .rne)) s
def execDaddTx (f : TR) (x : TX) (s : State) := runThread (.daddTx f x) (dp2 f 2 1 (fpAdd .fp64 (txMode x))) s
def execDsub (f : TR) (s : State) := runThread (.dsub f) (dp2 f 1 1 (fpSub .fp64 .rne)) s
def execDsubTx (f : TR) (x : TX) (s : State) := runThread (.dsubTx f x) (dp2 f 2 1 (fpSub .fp64 (txMode x))) s
def execDmul (f : TR) (s : State) := runThread (.dmul f) (dp2 f 1 1 (fpMul .fp64 .rne)) s
def execDmulTx (f : TR) (x : TX) (s : State) := runThread (.dmulTx f x) (dp2 f 2 1 (fpMul .fp64 (txMode x))) s
def execDfma (f : TR) (s : State) := runThread (.dfma f) (dp3 f f.d 1 .rne) s
def execDfmaTx (f : TR) (x : TX) (s : State) := runThread (.dfmaTx f x) (dp3 f x.c 2 (txMode x)) s
def execDmin (f : TR) (s : State) := runThread (.dmin f) (dp2 f 1 1 (fpMinMax .fp64 false)) s
def execDmax (f : TR) (s : State) := runThread (.dmax f) (dp2 f 1 1 (fpMinMax .fp64 true)) s
def execDdiv (f : TR) (s : State) := runThread (.ddiv f) (dp2 f 1 3 (fpDiv .fp64 .rne)) s
def execDdivTx (f : TR) (x : TX) (s : State) := runThread (.ddivTx f x) (dp2 f 2 3 (fpDiv .fp64 (txMode x))) s
def execDabs (f : T1) (s : State) := runThread (.dabs f) (dabsOp f) s

/-! ### FP16 and BF16, scalar and packed (R155) -/

def execHadd (f : TR) (s : State) := runThread (.hadd f) (fp2 .fp16 f 1 (fpAdd .fp16 .rne)) s
def execHmul (f : TR) (s : State) := runThread (.hmul f) (fp2 .fp16 f 1 (fpMul .fp16 .rne)) s
def execHfma (f : TR) (s : State) := runThread (.hfma f) (fp3 .fp16 f f.d 1 .rne) s
def execHfmaTx (f : TR) (x : TX) (s : State) := runThread (.hfmaTx f x) (fp3 .fp16 f x.c 2 .rne) s
def execHadd2 (f : TR) (s : State) := runThread (.hadd2 f) (fpPack2 .fp16 f (fpAdd .fp16 .rne)) s
def execHmul2 (f : TR) (s : State) := runThread (.hmul2 f) (fpPack2 .fp16 f (fpMul .fp16 .rne)) s
def execHfma2 (f : TR) (s : State) := runThread (.hfma2 f) (fpPack3 .fp16 f f.d 1) s
def execHfma2Tx (f : TR) (x : TX) (s : State) := runThread (.hfma2Tx f x) (fpPack3 .fp16 f x.c 2) s
def execHmax2 (f : TR) (s : State) := runThread (.hmax2 f) (fpPack2 .fp16 f (fpMinMax .fp16 true)) s
def execHmin2 (f : TR) (s : State) := runThread (.hmin2 f) (fpPack2 .fp16 f (fpMinMax .fp16 false)) s
def execBadd (f : TR) (s : State) := runThread (.badd f) (fp2 .bf16 f 1 (fpAdd .bf16 .rne)) s
def execBmul (f : TR) (s : State) := runThread (.bmul f) (fp2 .bf16 f 1 (fpMul .bf16 .rne)) s
def execBfma (f : TR) (s : State) := runThread (.bfma f) (fp3 .bf16 f f.d 1 .rne) s
def execBfmaTx (f : TR) (x : TX) (s : State) := runThread (.bfmaTx f x) (fp3 .bf16 f x.c 2 .rne) s
def execBadd2 (f : TR) (s : State) := runThread (.badd2 f) (fpPack2 .bf16 f (fpAdd .bf16 .rne)) s
def execBmul2 (f : TR) (s : State) := runThread (.bmul2 f) (fpPack2 .bf16 f (fpMul .bf16 .rne)) s
def execBfma2 (f : TR) (s : State) := runThread (.bfma2 f) (fpPack3 .bf16 f f.d 1) s
def execBfma2Tx (f : TR) (x : TX) (s : State) := runThread (.bfma2Tx f x) (fpPack3 .bf16 f x.c 2) s
def execBmax2 (f : TR) (s : State) := runThread (.bmax2 f) (fpPack2 .bf16 f (fpMinMax .bf16 true)) s
def execBmin2 (f : TR) (s : State) := runThread (.bmin2 f) (fpPack2 .bf16 f (fpMinMax .bf16 false)) s

/-! ### Classifying (R157) -/

/-- The source format of FCLASS. -/
def classFormat (c : BitVec 6) : FpFormat :=
  match c.toNat with
  | 0 => .fp32 | 1 => .fp16 | 2 => .bf16 | 3 => .e4m3 | _ => .e5m2

/-- A finite magnitude m · 2^e is an integer. -/
def isIntegral (m : Nat) (e : Int) : Bool := decide (0 ≤ e) || m % 2 ^ (-e).toNat == 0

def classWord (fmt : FpFormat) (x : Word) : Word :=
  let c := elemOf fmt x
  let neg := c / signBit fmt % 2
  let sub := isSubnormal fmt c
  let (kind, intg) := match fpDecode fmt c with
    | .nan => (4, false)
    | .inf _ => (3, false)
    | .num _ m e => (if m == 0 then 0 else if sub then 1 else 2, isIntegral m e)
  BitVec.ofNat 32 (kind + 8 * neg + (if intg then 16 else 0) + (if c == canonNaN fmt then 32 else 0) +
    (if sub && fmt != .fp32 then 64 else 0))

def fclassOp (f : TR) : ThreadOp :=
  ⟨1, f.s, 0, [single f.a], [single f.d], fun src w =>
    plainEffect (participants w f.g) [(f.d, intRow1 (classWord (classFormat f.b)) (src f.a))]⟩

def execFclass (f : TR) (s : State) := runThread (.fclass f) (fclassOp f) s

/-! ### Special functions (R158, R159) -/

def execFrcp (f : T1) (s : State) := runThread (.frcp f) (fp1 f 2 (fun x => fpRecip x.toNat)) s
def execFrsq (f : T1) (s : State) := runThread (.frsq f) (fp1 f 2 fpRsqrt) s
def execFsqrt (f : T1) (s : State) := runThread (.fsqrt f) (fp1 f 2 (fun x => fpSqrt x.toNat)) s
def execFexp2 (f : T1) (s : State) := runThread (.fexp2 f) (fp1 f 2 fpExp2) s
def execFlog2 (f : T1) (s : State) := runThread (.flog2 f) (fp1 f 2 fpLog2) s
def execFsin (f : T1) (s : State) := runThread (.fsin f) (fp1 f 2 fpSin) s
def execFcos (f : T1) (s : State) := runThread (.fcos f) (fp1 f 2 fpCos) s
def execFtanh (f : T1) (s : State) := runThread (.ftanh f) (fp1 f 2 fpTanh) s
def execFqrcp (f : T1) (s : State) := runThread (.fqrcp f) (fp1 f 2 fpQuickRecip) s

end Sys2Proof.Machine
end

