-- ==== Sys2Proof/Machine/ThreadCvt.lean ====
section
/-!
DEFINITION. Sys2Proof/Machine/ThreadCvt.lean: conversions and the thread-side quantiser instructions
(spec/10, R160 to R163; spec/04, R43 to R45).
-/

namespace Sys2Proof.Machine

/-- A number format of R160 by its code. -/
inductive NumFormat where
  | float (f : FpFormat)
  | int (bits : Nat)
  deriving DecidableEq, Repr

/-- The format codes of R160; codes 9 to 15 are reserved and no legal instruction holds them. -/
def numFormat (c : Nat) : NumFormat :=
  match c with
  | 0 => .float .fp64 | 1 => .float .fp32 | 2 => .float .fp16 | 3 => .float .bf16
  | 4 => .float .e4m3 | 5 => .float .e5m2 | 6 => .int 32 | 7 => .int 8 | _ => .int 4

def numWidth : NumFormat → Nat
  | .float f => fmtWidth f
  | .int b => b

/-- The fields of a conversion's TX word (R160). -/
def cvtPack (x : TX) : Bool := x.m.getLsbD 0
def cvtElem (x : TX) : Nat := x.m.toNat / 2 % 8
def cvtSrc (x : TX) : NumFormat := numFormat (x.i.toNat % 16)
def cvtDst (x : TX) : NumFormat := numFormat (x.i.toNat / 16 % 16)
def cvtMode (x : TX) : RoundMode := roundModeOf (x.i.extractLsb' 8 2)

/-- SATM: 0 the default of R44, 1 SAT, 2 IEEE (R160). -/
def cvtSetting (x : TX) (dst : FpFormat) : Saturation :=
  match x.i.toNat / 1024 with
  | 0 => defaultSat dst
  | 1 => .sat
  | _ => .ieee

/-- A two's complement number of some bits. -/
def signedOf (bits v : Nat) : Int :=
  let u := v % 2 ^ bits
  if 2 ^ (bits - 1) ≤ u then (u : Int) - 2 ^ bits else u

/-- The converted value of an element code: its bits, flags, and whether it is a NaN from no NaN (R162). An integer
result is two's complement in 32 bits, a sign-extended field (R33). -/
def convertCode (src dst : NumFormat) (mode : RoundMode) (setting : Saturation) (c : Nat) : FpResult × Bool :=
  match src, dst with
  | .float f, .float g =>
    let r := fpConvert f g mode setting c
    (r, isNaN g r.code && !isNaN f c)
  | .float f, .int b =>
    let (v, fl) := fpToInt f mode b c
    (⟨(BitVec.ofInt 32 v).toNat, fl⟩, false)
  | .int b, .float g => (intToFp g mode (signedOf b c), false)
  | .int b, .int d => (⟨(BitVec.ofInt 32 (saturateInt d (signedOf b c))).toNat, 0⟩, false)

/-- The element ELEM of a source value (R162). -/
def elementOf (src : NumFormat) (elem : Nat) (v : Nat) : Nat := v / 2 ^ (elem * numWidth src) % 2 ^ numWidth src

/-- CVTF, CVTFI, CVTIF and CVTII (R160 to R162): latency 1 where a format is FP64, otherwise 0 (R110). -/
def cvtOp (f : TR) (x : TX) : ThreadOp :=
  let src := cvtSrc x
  let dst := cvtDst x
  let wideSrc := numWidth src == 64
  let wideDst := numWidth dst == 64
  let setting := match dst with
    | .float g => cvtSetting x g
    | .int _ => .ieee
  let one (v : Nat) := convertCode src dst (cvtMode x) setting (elementOf src (cvtElem x) v)
  ⟨2, f.s, if wideSrc || wideDst then 1 else 0,
    ⟨f.a, wideSrc⟩ :: (if cvtPack x then [single f.b] else []), [⟨f.d, wideDst⟩], fun rd w =>
    let (a, ah, b) := (rd f.a, rd (f.a + 1), rd f.b)
    let srcs := [a] ++ (if wideSrc then [ah] else []) ++ (if cvtPack x then [b] else [])
    threadEffect (participants w f.g) ⟨f.d, wideDst⟩ srcs fun i =>
      let (r, n) := one (if wideSrc then (pairAtThread a ah i).toNat else (rowAt a i).toNat)
      if cvtPack x then
        let (r1, n1) := one (rowAt b i).toNat
        ⟨BitVec.ofNat 32 (r.code + 2 ^ 16 * r1.code), 0, r.flags ||| r1.flags, n || n1⟩
      else ⟨BitVec.ofNat 32 r.code, BitVec.ofNat 32 (r.code / 2 ^ 32), r.flags, n⟩⟩

def execCvtf (f : TR) (x : TX) (s : State) := runThread (.cvtf f x) (cvtOp f x) s
def execCvtfi (f : TR) (x : TX) (s : State) := runThread (.cvtfi f x) (cvtOp f x) s
def execCvtif (f : TR) (x : TX) (s : State) := runThread (.cvtif f x) (cvtOp f x) s
def execCvtii (f : TR) (x : TX) (s : State) := runThread (.cvtii f x) (cvtOp f x) s

/-! ### QENC and QDEC (R163) -/

/-- The FP4 code nearest to |x| ÷ q, clamped to 6, ties to the code with bit 0 = 0; x and q finite, q > 0. The
thresholds are the midpoints of the values of R35: |x| · 4 is compared with thr · q. -/
def nearestFp4 (m : Nat) (e : Int) (n : Nat) (g : Int) : Nat :=
  let u := min e g
  let x := 4 * m * 2 ^ (e - u).toNat
  let q := n * 2 ^ (g - u).toNat
  -- midpoints 0.25, 0.75, 1.25, 1.75, 2.5, 3.5, 5.0 as quarters; a tie goes to the even code
  if x ≤ 1 * q then 0 else if x < 3 * q then 1 else if x ≤ 5 * q then 2 else if x < 7 * q then 3
  else if x ≤ 10 * q then 4 else if x < 14 * q then 5 else if x ≤ 20 * q then 6 else 7

/-- The FP4 code of a value under a scale (R163, and step 3 of R88). -/
def fp4Encode (x q : FpVal) : Nat :=
  match q with
  | .num false n g =>
    if n == 0 then 0
    else match x with
      | .nan => 0
      | .inf s => if s then 15 else 7
      | .num s m e => (if s then 8 else 0) + nearestFp4 m e n g
  | _ => 0

def qencWord (k : Nat) (x q old : Word) : Word :=
  let c := fp4Encode (fpDecode .fp32 x.toNat) (fpDecode .fp32 q.toNat)
  let m : Word := 0xF <<< (4 * k)
  (old &&& ~~~m) ||| BitVec.ofNat 32 (c * 2 ^ (4 * k))

def qencOp (f : TR) (x : TX) : ThreadOp :=
  ⟨2, f.s, 1, [single f.a, single f.b, single f.d], [single f.d], fun src w =>
    let (a, b, d) := (src f.a, src f.b, src f.d)
    plainEffect (participants w f.g)
      [(f.d, perThread [a, b, d] fun i => qencWord x.m.toNat (rowAt a i) (rowAt b i) (rowAt d i))]⟩

/-- QDEC of one thread: an exact product rounded once; NaN and 0 × ∞ give the canonical NaN, without flags. -/
def qdecThread (k : Nat) (codes q : Word) : ThreadResult :=
  let v := fpDecode .fp32 q.toNat
  match mulVal (fp4Val (codes.toNat / 2 ^ (4 * k) % 16)) v with
  | none => ⟨BitVec.ofNat 32 (canonNaN .fp32), 0, 0, true⟩
  | some p => ⟨BitVec.ofNat 32 (deliver .fp32 .rne p).code, 0, 0, false⟩

def qdecOp (f : TR) (x : TX) : ThreadOp :=
  ⟨2, f.s, 1, [single f.a, single f.b], [single f.d], fun src w =>
    let (a, b) := (src f.a, src f.b)
    threadEffect (participants w f.g) (single f.d) [a, b] fun i => qdecThread x.m.toNat (rowAt a i) (rowAt b i)⟩

def execQenc (f : TR) (x : TX) (s : State) := runThread (.qenc f x) (qencOp f x) s
def execQdec (f : TR) (x : TX) (s : State) := runThread (.qdec f x) (qdecOp f x) s

end Sys2Proof.Machine
end

