-- ==== Sys2Proof/Machine/EngineUnits.lean ====
section
/-!
DEFINITION. Sys2Proof/Machine/EngineUnits.lean: what the copy, gather, quantiser and collective engines do: starting a command,
and performing its units, each counted into its sync word (spec/06, R71 to R88; spec/22, R334).
-/

namespace Sys2Proof.Machine

/-! ### Units (R334) -/

/-- Units of one command in flight at a time (R334). -/
def unitWindow : Nat := 16

/-- The completed prefix after one more unit. -/
def advancePrefix : Nat → Nat → List Nat → Nat × List Nat
  | 0, d, a => (d, a)
  | n + 1, d, a => if a.contains d then advancePrefix n (d + 1) (a.erase d) else (d, a)

/-- The unit that a choice picks among those that may be in flight (log 20). -/
def pickUnit (done units : Nat) (ahead : List Nat) (choice : Nat) : Option Nat :=
  let us := ((List.range unitWindow).map (done + ·)).filter fun u => decide (u < units) && !ahead.contains u
  us[choice % us.length]?

def progressUnit (c : Command) (u : Nat) : Command :=
  let (d, a) := advancePrefix 32 c.done (u :: c.ahead)
  { c with done := d, ahead := a }

/-- A command has performed its last unit: the generation that counted its last byte is noted in its ranges (R282), and it
leaves its queue. -/
def completeCommand (b : Block) (q : EngineQueue) (c : Command) (gen : Option (BitVec 16)) : Block :=
  let b1 := popHead b q
  { b1 with armed := b1.armed.map fun r =>
      if r.owner == b.id && r.serial == c.serial then { r with lastGen := gen } else r }

/-- The window that a copy stamps (R79). -/
def windowValue (off elems fmt geo : Nat) : Dword :=
  BitVec.ofNat 64 (off / 256 % 2 ^ 11 + elems / 64 % 2 ^ 16 * 2 ^ 16 + fmt * 2 ^ 32 + geo * 2 ^ 36 + 2 ^ 63)

def stampWindow (b : Block) (n off elems fmt geo : Nat) : Block :=
  { b with fwin := b.fwin.set n (windowValue off elems fmt geo) }

/-! ### Global bytes of an engine (R22, R27, R282) -/

/-- Stretches of consecutive addresses, cut where a page may end. -/
def stretchesOf : List Nat → List (Nat × Nat)
  | [] => []
  | a :: rest => match stretchesOf rest with
    | (b, n) :: more => if b = a + 1 ∧ b % 4096 ≠ 0 then (a, n + 1) :: more else (a, 1) :: (b, n) :: more
    | [] => [(a, 1)]

/-- A translated stretch: its virtual address, bytes and place. -/
structure Reached where
  va    : Nat
  len   : Nat
  place : Place
  deriving DecidableEq, Repr

/-- What translating some stretches gives. -/
inductive Reach where
  | ok (rs : List Reached)
  | miss (va : Dword) (m : MissCause)
  | wait (va : Dword)
  | bad

def reachAll (s : State) (c : Context) (isle : Nat) (k : Access) : List (Nat × Nat) → Reach
  | [] => .ok []
  | (a, n) :: rest =>
    let va := BitVec.ofNat 64 a
    if !canonical va then .bad
    else match translate s c isle va k with
      | .miss m => .miss va m
      | .wait => .wait va
      | .ok p => match reachAll s c isle k rest with
        | .ok rs => .ok (⟨va.toNat, n, p⟩ :: rs)
        | other => other

/-- A miss of an engine waits in its queue (R27); a peer that no link reaches ends in cause access (R391). -/
def engineMiss (s : State) (b : Block) (q : EngineQueue) (c : Command) (ctx : Context) (va : Dword) (k : Access)
    (m : MissCause) : State :=
  if !asksVerdict m then stopEngine s b q causeAccess (missCode m) []
  else
    let (s1, seq) := requestResolution s b.isle ctx va k m b.core
    s1.putBlock (putHead b q { c with request := some seq })

/-- An engine waits in its queue for the answer to an ATS request (R25). -/
def engineWait (s : State) (b : Block) (q : EngineQueue) (c : Command) (ctx : Context) (va : Dword) (k : Access) : State :=
  let (s1, seq) := requestAts s b.isle ctx va k b.core
  s1.putBlock (putHead b q { c with request := some seq })

/-- Translates the stretches of a unit and continues with their places. -/
def withReach (s : State) (b : Block) (q : EngineQueue) (c : Command) (k : Access) (sts : List (Nat × Nat))
    (next : State → List Reached → State) : State :=
  match s.ctx? b.ctx with
  | none => s
  | some ctx => match reachAll s ctx b.isle k sts with
    | .ok rs => next (rs.foldl (fun s r => cacheLeaf s ctx b.isle (BitVec.ofNat 64 r.va)) s) rs
    | .miss va m => engineMiss s b q c ctx va k m
    | .wait va => engineWait s b q c ctx va k
    | .bad => stopEngine s b q causeAccess 0x01 []

def readReached (s : State) (rs : List Reached) : List Byte := rs.flatMap fun r => readLoc s r.place.loc r.len

/-- Writes bytes over some stretches. -/
def writeReached (s : State) : List Reached → List Byte → State
  | [], _ => s
  | r :: rest, bs => writeReached (writeLoc s r.place.loc (bs.take r.len)) rest (bs.drop r.len)

/-- The lowest race of an engine's access to checked granules: with a range of another command's S2G copy, or by the tags (R185, R279,
R282). -/
def reachedRace (s : State) (b : Block) (x : Accessor) (q : EngineQueue) (write : Bool) (rs : List Reached) : Option RaceFound :=
  rs.findSome? fun r =>
    if !write && farBad s r.place.loc r.len then some ⟨eccMark, r.va, 0⟩
    else if placeChecked r.place then
      if armedMeetsEngineGlobal b x.serial q r.va r.len then some ⟨0, r.va, (readTag s r.place.loc.addr).toNat⟩
      else (judgeGranules s b x write false r.va r.place.loc.addr r.len).map fun p => ⟨0, r.va + p.1, p.2.toNat⟩
    else none

def markReached (s : State) (b : Block) (x : Accessor) (write : Bool) (rs : List Reached) : State :=
  rs.foldl (fun s r => if placeChecked r.place then markGranules s b x write false r.place.loc.addr r.len else s) s

/-- Watch accesses of a unit over global bytes (R354). -/
def watchReached (rs : List Reached) (write : Bool) : List WatchAccess :=
  rs.map fun r => ⟨0, r.va, r.len, if write then 1 else 0, false, none⟩

def watchScratch (a n : Nat) (write : Bool) : WatchAccess := ⟨0, a, n, if write then 1 else 0, true, none⟩

/-- Shows a unit's accesses to the watch bank; its block may have executed EXIT (R360, R366). -/
def presentUnit (s : State) (block : Nat) (xs : List WatchAccess) : State :=
  match s.block? block with
  | some b => match s.grid? b.grid with
    | some g =>
      presentAgent s (some b) b.ctx b.isle b.core b.slot g.launch 0 (b.ended || b.phase == .exited) 0 noHitter xs
    | none => s
  | none => s

/-! ### Counted writes (R75) -/

/-- Bytes cut into pieces of at most 64 from an address. -/
def piecesOf : Nat → Nat → List Byte → List (Nat × List Byte)
  | 0, _, _ => []
  | n + 1, a, bs => if bs.isEmpty then [] else (a, bs.take 64) :: piecesOf n (a + 64) (bs.drop 64)

/-- Writes pieces, each counted in the same step; a piece that overruns is not written. The answer is the block, the
generation that counted the last piece, and whether all were written. -/
def landPieces (x : Accessor) (sync : Nat) : Block → Option (BitVec 16) → List (Nat × List Byte) →
    Block × Option (BitVec 16) × Bool
  | b, g, [] => (b, g, true)
  | b, g, (a, bs) :: rest => match countSync b x sync bs.length with
    | none => (b, g, false)
    | some (b1, g1) =>
      landPieces x sync (markWrite { b1 with scratch := writeBytes b1.scratch a bs } x false [(a, bs.length)])
        (some g1) rest

/-- The accessor of a command of a block (R63, R281). -/
def commandAccessor (b : Block) (c : Command) : Accessor := accessorEngine b (engineWriter c.instr) c

/-- Performs unit u of a command that writes pieces into its own block: judged, counted, and the command advanced; `done`
says what its completion adds. -/
def landUnit (s : State) (b : Block) (q : EngineQueue) (c : Command) (u : Nat) (pieces : List (Nat × List Byte))
    (done : Block → Block) : State :=
  let x := commandAccessor b c
  match countedRace s b b.id c.serial q x c.sync true (pieces.map fun p => (p.1, p.2.length)) with
  | some r => raceEngine s b q x true .write r
  | none =>
    let (b1, gen, ok) := landPieces x c.sync b none pieces
    if !ok then stopEngine s b1 q causeOverrun 0 []
    else
      let c1 := progressUnit c u
      addCounter (s.putBlock (if c1.units ≤ c1.done then done (completeCommand b1 q c1 gen) else putHead b1 q c1)) b.ctx
        (coreNumber b.isle b.core) 0x48 (pieces.foldl (fun n p => n + p.2.length) 0)

/-! ### BCOPY (R78, R79) -/

/-- The virtual address of byte j of a format copy of L code bytes from a base, in the layout of R61 (R20, R79). -/
def formatSource (base fmt n j : Nat) : Nat :=
  let o := base % 65536
  let unit := base - o
  if fmt = 7 then
    if j < n then unit + (o + j) / 0xC000 * 65536 + (o + j) % 0xC000
    else if j < n + n / 4 then
      let m := o / 4 + (j - n)
      unit + m / 0x3000 * 65536 + 0xC000 + m % 0x3000
    else
      let m := o / 16 + (j - n - n / 4)
      unit + m / 0xC00 * 65536 + 0xF000 + m % 0xC00
  else base + j

/-- The bytes that a format copy of L code bytes writes (R61, R79). -/
def formatBytes (fmt geo n : Nat) : Nat := if fmt = 7 then n + n / 4 + (if geo = 0 then n / 16 else 0) else n

/-- The elements of L code bytes. -/
def formatElems (fmt n : Nat) : Nat := 8 * n / fmtBits fmt

/-- The conditions of R79 that are checked at the start of a format copy. -/
def formatLegal (b : Block) (base fmt geo n off : Nat) : Bool :=
  base % 65536 % (8 * fmtBits fmt) == 0 && decide (base % 65536 < elementArea fmt) && n % (8 * fmtBits fmt) == 0 &&
  off % 256 == 0 && decide (off + formatBytes fmt geo n ≤ allotBytes b)

/-- The global address of byte j of a BCOPY or of a multicast delivery; phase 1 is a format copy. -/
def copySource (c : Command) (format : Bool) (j : Nat) : Nat :=
  if format then formatSource c.a.toNat (c.work.getD 1 0) (copyLength c.b) j else c.a.toNat + j

/-- The write range of a format copy covers its scale bytes too (R61, R282). -/
def widenRange (b : Block) (owner serial : Nat) (n : Nat) : Block :=
  { b with armed := b.armed.map fun r =>
      if r.owner == owner && r.serial == serial && r.write && !r.glob then { r with hi := r.lo + n } else r }

def startBcopy (s : State) (b : Block) (c : Command) (s2g : Bool) : State :=
  let n := copyLength c.b
  let c1 := { c with started := true, units := (n + 63) / 64, work := [n] }
  if s2g || !c.b.getLsbD 23 then s.putBlock (putHead b .copy c1)
  else withReach s b .copy c .copyRead [(c.a.toNat, 1)] fun s rs => match rs with
    | [r] =>
      let (fmt, geo) := (placeFmt r.place, placeGeo r.place)
      if fmt = 0 then s.putBlock (putHead b .copy c1)
      else if !formatLegal b c.a.toNat fmt geo n c.d.toNat then stopEngine s (putHead b .copy c1) .copy causeFormat 0 []
      else
        let total := formatBytes fmt geo n
        let c2 := { c1 with phase := 1, units := (total + 63) / 64, work := [total, fmt, geo] }
        s.putBlock (widenRange (putHead b .copy c2) b.id c.serial total)
    | _ => s

/-- The bytes of unit u. -/
def unitBytes (total u : Nat) : List Nat := (List.range (min 64 (total - 64 * u))).map (64 * u + ·)

def bcopyIn (s : State) (b : Block) (c : Command) (u : Nat) : State :=
  let total := c.work.getD 0 0
  let format := c.phase == 1
  let js := unitBytes total u
  withReach s b .copy c .copyRead (stretchesOf (js.map (copySource c format))) fun s rs =>
    if format && rs.any (fun r => placeFmt r.place != c.work.getD 1 0 || placeGeo r.place != c.work.getD 2 0) then
      stopEngine s b .copy causeFormat 0 []
    else match reachedRace s b (commandAccessor b c) .copy false rs with
      | some r => raceEngine s b .copy (commandAccessor b c) false .read r
      | none =>
        let s1 := markReached s b (commandAccessor b c) false rs
        let dst := c.d.toNat + 64 * u
        let s2 := landUnit s1 b .copy c u [(dst, readReached s1 rs)] fun b =>
          if format then
            stampWindow b (bitsAt c.b 20 3) c.d.toNat (formatElems (c.work.getD 1 0) (copyLength c.b)) (c.work.getD 1 0)
              (c.work.getD 2 0)
          else b
        presentUnit s2 b.id (watchReached rs false ++ [watchScratch dst js.length true])

/-- An S2G unit: the bytes read from scratchpad are counted (R78). -/
def bcopyOut (s : State) (b : Block) (c : Command) (u : Nat) : State :=
  let js := unitBytes (c.work.getD 0 0) u
  let src := c.d.toNat + 64 * u
  let x := commandAccessor b c
  withReach s b .copy c .copyWrite (stretchesOf (js.map (c.a.toNat + ·))) fun s rs =>
    match countedRace s b b.id c.serial .copy x c.sync false [(src, js.length)], reachedRace s b x .copy true rs with
    | some r, _ => raceEngine s b .copy x true .read r
    | none, some r => raceEngine s b .copy x false .write r
    | none, none => match countSync b x c.sync js.length with
      | none => stopEngine s b .copy causeOverrun 0 []
      | some (b1, gen) =>
        let c1 := progressUnit c u
        let b2 := markRead s b1 x (wordsOf src js.length)
        let s1 := s.putBlock (if c1.units ≤ c1.done then completeCommand b2 .copy c1 (some gen) else putHead b2 .copy c1)
        let s2 := markReached (writeReached s1 rs (readBytes b.scratch src js.length)) b2 x true rs
        presentUnit (addCounter s2 b.ctx (coreNumber b.isle b.core) 0x48 js.length) b.id
          (watchScratch src js.length false :: watchReached rs true)

/-! ### GATH (R80) -/

/-- The engine reads the indices when the command starts. -/
def startGath (s : State) (b : Block) (c : Command) : State :=
  let (l, m) := (gathIndex c.b, gathRows c.b)
  let x := commandAccessor b c
  let c1 := { c with started := true, units := m }
  match engineRaceAt s b b.id c.serial .gather x false l (4 * m) with
  | some r => raceEngine s (putHead b .gather c1) .gather x true .read r
  | none =>
    let idx := (List.range m).map fun k => leNat (readBytes b.scratch (l + 4 * k) 4)
    presentUnit (s.putBlock (markRead s (putHead b .gather { c1 with work := idx }) x (wordsOf l (4 * m)))) b.id
      [watchScratch l (4 * m) false]

def gathUnit (s : State) (b : Block) (c : Command) (u : Nat) : State :=
  let n := gathSize c.b
  let dst := c.d.toNat + u * n
  let idx := c.work.getD u 0
  if idx = 0xFFFFFFFF then
    presentUnit (landUnit s b .gather c u (piecesOf 64 dst (zeros n)) id) b.id [watchScratch dst n true]
  else
    let va := (c.a.toNat + idx * n) % 2 ^ 64
    if !canonical (BitVec.ofNat 64 va) then stopEngine s b .gather causeAccess 0x01 []
    else withReach s b .gather c .copyRead (stretchesOf ((List.range n).map (va + ·))) fun s rs =>
      match reachedRace s b (commandAccessor b c) .gather false rs with
      | some r => raceEngine s b .gather (commandAccessor b c) false .read r
      | none =>
        let s1 := markReached s b (commandAccessor b c) false rs
        presentUnit (landUnit s1 b .gather c u (piecesOf 64 dst (readReached s1 rs)) id) b.id
          (watchReached rs false ++ [watchScratch dst n true])

/-! ### HIST (R86) -/

/-- A histogram record. -/
structure HistRecord where
  bins : List Nat
  num  : Nat
  nanc : Nat
  maxa : Nat
  deriving DecidableEq, Repr

def readHist (bs : List Byte) : HistRecord :=
  let f := fun k => leNat ((bs.drop (4 * k)).take 4)
  ⟨(List.range 64).map f, f 64, f 65, f 66⟩

def histBytes (r : HistRecord) : List Byte :=
  r.bins.flatMap (leBytes 4) ++ leBytes 4 r.num ++ leBytes 4 r.nanc ++ leBytes 4 r.maxa ++ leBytes 4 0

/-- A count saturates at 0xFFFF_FFFF. -/
def satInc (n : Nat) : Nat := min (n + 1) 0xFFFFFFFF

/-- The bin of a value that is no NaN: e − 96 clamped to [0, 63]. -/
def histBin (v : Nat) : Nat := min (v / 2 ^ 23 % 256 - 96) 63

/-- Adds one value to a record. MAXA rises to the larger of itself and a finite magnitude. -/
def histAdd (r : HistRecord) (v : Nat) : HistRecord :=
  let mag := v % 2 ^ 31
  if 0x7F800000 < mag then { r with nanc := satInc r.nanc }
  else
    { bins := r.bins.modify (histBin v) satInc, num := satInc r.num, nanc := r.nanc,
      maxa := if mag = 0x7F800000 then r.maxa else max r.maxa mag }

/-- The words of a scratchpad range. -/
def scratchWords (b : Block) (a n : Nat) : List Nat := (List.range n).map fun k => leNat (readBytes b.scratch (a + 4 * k) 4)

/-- 16 values of a HIST; the last unit counts the 272 bytes of the record once. -/
def histUnit (s : State) (b : Block) (c : Command) (u : Nat) : State :=
  let x := commandAccessor b c
  let n := min 16 (bitsAt c.b 0 18 - 16 * u)
  let src := c.a.toNat + 64 * u
  let rec_ := c.d.toNat
  match engineRaceAt s b b.id c.serial .copy x false src (4 * n),
      countedRace s b b.id c.serial .copy x c.sync true [(rec_, histRecordBytes)] with
  | some r, _ => raceEngine s b .copy x true .read r
  | none, some r => raceEngine s b .copy x true .write r
  | none, none =>
    let c1 := progressUnit c u
    let last := decide (c1.units ≤ c1.done)
    match (if last then (countSync b x c.sync histRecordBytes).map fun q => (q.1, some q.2) else some (b, none)) with
    | none => stopEngine s b .copy causeOverrun 0 []
    | some (b1, gen) =>
      let r := (scratchWords b src n).foldl histAdd (readHist (readBytes b.scratch rec_ histRecordBytes))
      let b2 := markRead s { b1 with scratch := writeBytes b1.scratch rec_ (histBytes r) } x (wordsOf src (4 * n))
      let b3 := markWrite b2 x false [(rec_, histRecordBytes)]
      let s1 := s.putBlock (if last then completeCommand b3 .copy c1 gen else putHead b3 .copy c1)
      presentUnit (addCounter s1 b.ctx (coreNumber b.isle b.core) 0x48 (if last then histRecordBytes else 0)) b.id
        [watchScratch src (4 * n) false, watchScratch rec_ histRecordBytes true]

/-! ### QSCALE (R87, R88) -/

/-- The smallest bin at which the running sum reaches r. -/
def clipBin (r : Nat) : Nat → Nat → List Nat → Option Nat
  | _, _, [] => none
  | sum, k, n :: rest => if r ≤ sum + n then some k else clipBin r (sum + n) (k + 1) rest

/-- MAXA as a value that is not below 0: a program may have written a record whose MAXA is a NaN or below 0, and there is none. -/
def clipMax (maxa : Nat) : Option FpVal :=
  if maxa ≤ 0x7F800000 then some (fpDecode .fp32 maxa) else if maxa = 0x80000000 then some (.num false 0 0) else none

/-- The smaller of MAXA and the upper edge of a bin, if there is one. -/
def clipMin (bin : Option Nat) (top : FpVal) : FpVal :=
  match bin with
  | none => top
  | some b =>
    let edge : FpVal := .num false 1 ((b : Int) - 30)
    if belowTotal edge top then edge else top

/-- The clip of a record (R87). For a clip that is infinite, a NaN or below 0 the manual states no quantisation: a free finite
value stands for it (log 6). -/
def clipOf (r : HistRecord) (pct free : Nat) : FpVal :=
  if r.num = 0 then .num false 0 0
  else match (clipMax r.maxa).map (clipMin (clipBin (max 1 ((r.num * pct + 1023) / 1024)) 0 0 r.bins)) with
    | some (.num s m e) => .num s m e
    | _ => fpDecode .fp32 (free % 0x7F800000)

/-- The BF16 code of the band scale: clip ÷ 189 rounded up, without flushing; 1.0 for a clip of 0 (R88). -/
def bandScale (clip : FpVal) : Nat :=
  match clip with
  | .num _ m e =>
    if m = 0 then 0x3F80
    else
      let k := fracBits .bf16 + 4 + Nat.log2 189
      (roundResult .bf16 .rup false .ieee false (stickyQuot m 189 k) (e - k - 1)).code
  | _ => 0x3F80

/-- |x| of one value under a clip (R88, step 2). -/
def clippedMagnitude (clip : FpVal) (v : Nat) : FpVal :=
  match fpDecode .fp32 (v % 2 ^ 31) with
  | .nan => .num false 0 0
  | .inf _ => clip
  | x => if belowTotal clip x then clip else x

/-- The smallest E3M5 code of at least m ÷ (6 · band), or the largest code. -/
def blockScale (m band : FpVal) : Nat :=
  ((List.range 256).find? fun c =>
    match mulVal (e3m5Val c) band with
    | some p => match mulVal p (.num false 6 0) with
      | some q => !belowTotal q m
      | none => false
    | none => false).getD 255

/-- The codes of a block of eight values and its scale (R88, steps 2 and 3). -/
def quantBlock (clip band : FpVal) (vs : List Nat) : List Nat × Nat :=
  let top := vs.foldl (fun m v => let x := clippedMagnitude clip v; if belowTotal m x then x else m) (.num false 0 0)
  let sc := blockScale top band
  let q := (mulVal (e3m5Val sc) band).getD (.num false 0 0)
  (vs.map fun v => fp4Encode (fpDecode .fp32 v) q, sc)

/-- Two codes to a byte, the even element in bits 3:0 (R20). -/
def packNibbles : List Nat → List Byte
  | a :: b :: rest => BitVec.ofNat 8 (a % 16 + b % 16 * 16) :: packNibbles rest
  | [a] => [BitVec.ofNat 8 (a % 16)]
  | [] => []

/-- A band of 64 values: codes, block scales and band scale, in the compact layout (R61). -/
def qscaleUnit (s : State) (b : Block) (c : Command) (u : Nat) : State :=
  let x := commandAccessor b c
  let n := qscaleCount c.b
  let src := c.a.toNat + 256 * u
  let rec_ := qscaleRecord c.b
  match engineRaceAt s b b.id c.serial .copy x false src 256,
      engineRaceAt s b b.id c.serial .copy x false rec_ histRecordBytes with
  | some r, _ => raceEngine s b .copy x true .read r
  | none, some r => raceEngine s b .copy x true .read r
  | none, none =>
    let h := readHist (readBytes b.scratch rec_ histRecordBytes)
    let clip := clipOf h c.qpct.toNat (Config.freeDword c.step).toNat
    let bs := bandScale clip
    let band := fpDecode .bf16 bs
    let vs := scratchWords b src 64
    let blocks := (List.range 8).map fun k => quantBlock clip band ((vs.drop (8 * k)).take 8)
    let b1 := markRead s (markRead s b x (wordsOf src 256)) x (wordsOf rec_ histRecordBytes)
    let codes := c.d.toNat + 32 * u
    let scales := c.d.toNat + n / 2 + 8 * u
    let bands := c.d.toNat + n / 2 + n / 8 + 2 * u
    presentUnit (landUnit s b1 .copy c u
      [(codes, packNibbles (blocks.flatMap (·.1))), (scales, blocks.map fun q => BitVec.ofNat 8 q.2), (bands, leBytes 2 bs)]
      fun b => stampWindow b (qscaleWindow c.b) c.d.toNat n 7 0) b.id
      [watchScratch src 256 false, watchScratch rec_ histRecordBytes false, watchScratch codes 32 true,
        watchScratch scales 8 true, watchScratch bands 2 true]

/-! ### COLL (R84) -/

/-- The bytes of an element. -/
def collElemBytes (ty : Nat) : Nat := if ty = 1 then 2 else 4

def signedWord (x : Nat) : Int := if x < 2 ^ 31 then x else (x : Int) - 2 ^ 32

/-- The combination of two elements under an operation and type. -/
def collCombine (op ty x y : Nat) : Nat :=
  if op = 0 then
    match ty with
    | 0 => (fpAdd .fp32 .rne x y).code
    | 1 => (fpAdd .bf16 .rne x y).code
    | _ => (x + y) % 2 ^ 32
  else
    let isMax := op == 1
    match ty with
    | 0 => (fpMinMax .fp32 isMax x y).code
    | 1 => (fpMinMax .bf16 isMax x y).code
    | _ => if isMax == decide (signedWord x < signedWord y) then y else x

/-- Combines all the members' elements, two at a time in a free order (R84, log 8). -/
def combineTree (op ty : Nat) : Nat → Nat → List Nat → Nat
  | 0, _, xs => xs.headD 0
  | k + 1, seed, xs =>
    if xs.length ≤ 1 then xs.headD 0
    else
      let i := Config.collTree seed % xs.length
      let ys := xs.eraseIdx i
      let j := Config.collTree (seed + 1) % ys.length
      combineTree op ty k (seed + 2) (collCombine op ty (xs.getD i 0) (ys.getD j 0) :: ys.eraseIdx j)

/-- A member's source enters the oldest instance of its name that has none of that rank; members whose parameters disagree
leave the instance without parameters (R84). -/
def contribute (s : State) (ctx group inst rank : Nat) (params : List Nat) (src : List Byte) : State :=
  match s.colls.findIdx? fun x => x.ctx == ctx && x.group == group && x.inst == inst && !x.sources.any (·.1 == rank) with
  | none => { s with colls := s.colls ++ [⟨ctx, group, inst, params, [(rank, src)], []⟩] }
  | some i => match s.colls[i]? with
    | none => s
    | some x =>
      let y := { x with sources := x.sources ++ [(rank, src)], params := if x.params = params then params else [] }
      { s with colls := s.colls.set i y }

/-- The instance in which a member's COLL stands. -/
def instanceOf (s : State) (ctx group inst rank : Nat) : Option CollInstance :=
  s.colls.find? fun x => x.ctx == ctx && x.group == group && x.inst == inst && x.sources.any (·.1 == rank) &&
    !x.ended.contains rank

/-- A member's COLL of an instance has performed all of its writes. -/
def endMember (s : State) (ctx group inst rank : Nat) : State :=
  match s.colls.findIdx? fun x => x.ctx == ctx && x.group == group && x.inst == inst && !x.ended.contains rank &&
      x.sources.any (·.1 == rank) with
  | none => s
  | some i => { s with colls := s.colls.modify i fun x => { x with ended := x.ended ++ [rank] } }

/-- An earlier COLL of the context with this group and INST has not completed (R84). -/
def earlierColl (s : State) (b : Block) (c : Command) : Bool :=
  s.blocks.any fun o => o.ctx == b.ctx && (queueOf o .coll).any fun k =>
    match k.instr with
    | .coll .. => collGroup k.b == collGroup c.b && collInst k.b == collInst c.b && decide (k.step < c.step)
    | _ => false

/-- Some other member of a COLL is a module that no link reaches (R391). -/
def collCut (s : State) (c : Command) : Bool :=
  let rank := c.work.headD 0
  (numbered c.work.tail).any fun q => q.1 != rank && !peerReachable s q.2

/-- A COLL starts: it reads its source and joins its instance. -/
def startColl (s : State) (b : Block) (c : Command) : State :=
  if earlierColl s b c then s
  else if collCut s c then stopEngine s b .coll causeAccess 0x04 []
  else
    let n := collLength c.b
    let x := commandAccessor b c
    let mods := c.work.tail
    let c1 := { c with started := true, units := collOut c.b mods.length / 64 }
    match engineRaceAt s b b.id c.serial .coll x false c.a.toNat n with
    | some r => raceEngine s (putHead b .coll c1) .coll x true .read r
    | none =>
      let src := readBytes b.scratch c.a.toNat n
      let b1 := markRead s (putHead b .coll c1) x (wordsOf c.a.toNat n)
      contribute (presentUnit (s.putBlock b1) b.id [watchScratch c.a.toNat n false]) b.ctx (collGroup c.b) (collInst c.b)
        (c.work.headD 0) (collParams c.b mods) src

/-- Bytes j of an instance's result. -/
def collPiece (x : CollInstance) (op ty n members seed u : Nat) : List Byte :=
  let srcOf := fun r => ((x.sources.find? fun q => q.1 == r).map (·.2)).getD []
  if op = 3 then ((srcOf (64 * u / n)).drop (64 * u % n)).take 64
  else
    let e := collElemBytes ty
    (List.range (64 / e)).flatMap fun k =>
      let xs := (List.range members).map fun r => leNat (((srcOf r).drop (64 * u + e * k)).take e)
      leBytes e (combineTree op ty 32 (seed + 64 * k) xs)

/-- A 64-byte piece of a COLL, once every member has brought its source; members that disagree stop (R84). -/
def collUnit (s : State) (b : Block) (c : Command) (u : Nat) : State :=
  let mods := c.work.tail
  let rank := c.work.headD 0
  match instanceOf s b.ctx (collGroup c.b) (collInst c.b) rank with
  | none => s
  | some x =>
    if x.params = [] then stopEngine s b .coll causeMismatch 0 []
    else if collCut s c then stopEngine s b .coll causeAccess 0x04 []
    else if !(List.range mods.length).all (fun r => x.sources.any (·.1 == r)) then s
    else
      let dst := c.d.toNat + 64 * u
      let bytes := collPiece x (collOp c.b) (collType c.b) (collLength c.b) mods.length s.fresh u
      let s1 := landUnit (nextFresh s 4096) b .coll c u [(dst, bytes)] id
      let gone := match s1.block? b.id with
        | some b1 => !(queueOf b1 .coll).any fun k => k.serial == c.serial
        | none => false
      let s2 := if gone then endMember s1 b.ctx (collGroup c.b) (collInst c.b) rank else s1
      presentUnit s2 b.id [watchScratch dst 64 true]

/-- An instance completes when every member's COLL of it has performed all of its writes (R84). -/
def completeInstance (s : State) (ctx group inst : Nat) : State :=
  match s.colls.find? fun x => x.ctx == ctx && x.group == group && x.inst == inst with
  | none => s
  | some x =>
    let members := (x.params.drop 3).length
    if x.params != [] && (List.range members).all (fun r => x.ended.contains r) then { s with colls := s.colls.erase x }
    else s

/-! ### BMCAST (R79, R81, R346) -/

/-- The entries of a multicast. -/
def castOf (c : Command) (i : Nat) : Dword := BitVec.ofNat 64 (c.work.getD (i + 2) 0)

/-- A delivery is a format copy: STMP = 1 and a format page (R81); the format stands in `work`, fmt and geo first. -/
def castFormat (c : Command) (i : Nat) : Bool := castStamp (castOf c i) && c.work.getD 1 0 != 0

/-- Bytes that a destination receives. -/
def castBytes (c : Command) (i : Nat) : Nat :=
  if castFormat c i then formatBytes (c.work.getD 1 0) (c.work.getD 0 0) (copyLength c.b) else copyLength c.b

/-- An entry breaks a limit of R81 in its destination. -/
def badEntry (s : State) (b : Block) (n : Nat) (e : Dword) : Bool :=
  match s.grid? b.grid with
  | none => true
  | some g =>
    bitsAt e 62 2 != 0 || decide (g.nblk ≤ castBlk e) || castDest e % (if castStamp e then 256 else 16) != 0 ||
    castSync e % 8 != 0 || match castTarget s b (castBlk e) with
      | none => false
      | some d => !d.ended && (decide (allotBytes d < castDest e + n) || decide (allotBytes d < castSync e + 8))

/-- A format delivery breaks R79 in its own destination. -/
def badFormat (s : State) (b : Block) (c : Command) (fmt geo : Nat) (e : Dword) : Bool :=
  castStamp e && fmt != 0 && match castTarget s b (castBlk e) with
    | none => false
    | some d => !d.ended && !formatLegal d c.a.toNat fmt geo (copyLength c.b) (castDest e)

/-- The ranges of format deliveries cover their scale bytes. -/
def widenDests (s : State) (b : Block) (c : Command) (n : Nat) (es : List Dword) : State :=
  es.foldl (fun s e => if castStamp e then
      match castTarget s b (castBlk e) with
      | some d => s.putBlock (widenRange d b.id c.serial n)
      | none => s
    else s) s

/-- A multicast starts: its entries and, where its source page has a format, its format deliveries are checked. -/
def startBmcast (s : State) (b : Block) (c : Command) : State :=
  let es := c.work.map (BitVec.ofNat 64)
  let n := copyLength c.b
  if es.any (badEntry s b n) then
    stopEngine s (putHead b .copy { c with started := true, work := 0 :: 0 :: c.work }) .copy causeDestination 0 []
  else withReach s b .copy c .copyRead [(c.a.toNat, 1)] fun s rs => match rs with
    | [r] =>
      let (fmt, geo) := (placeFmt r.place, placeGeo r.place)
      let c1 := { c with started := true, work := geo :: fmt :: c.work }
      if es.any (badFormat s b c fmt geo) then stopEngine s (putHead b .copy c1) .copy causeFormat 0 []
      else
        let s1 := s.putBlock (putHead b .copy c1)
        if fmt = 0 then s1 else widenDests s1 b c (formatBytes fmt geo n) es
    | _ => s

/-- Granules of a destination. -/
def castUnits (c : Command) (i : Nat) : Nat := (castBytes c i + 63) / 64

/-- A destination that has exited is skipped (R81). A block that executed EXIT holds its allotment until it has ended, and takes
deliveries until then (R73). -/
def castSkipped (s : State) (b : Block) (c : Command) (i : Nat) : Bool :=
  match castTarget s b (castBlk (castOf c i)) with
  | some d => d.ended
  | none => true

/-- The deliveries that may come next: destination and granule. -/
def castChoices (s : State) (b : Block) (c : Command) : List (Nat × Nat) :=
  c.dests.zipIdx.flatMap fun q =>
    if castSkipped s b c q.2 then []
    else (((List.range unitWindow).map (q.1.done + ·)).filter fun u =>
      decide (u < castUnits c q.2) && !q.1.ahead.contains u).map fun u => (q.2, u)

/-- A byte of the source that has been read: the source is read once (R81). -/
def heldByte (c : Command) (va : Nat) : Option Byte :=
  c.held.findSome? fun q => if q.1 ≤ va then q.2[va - q.1]? else none

/-- The stretches as they were read are held for the deliveries to come. -/
def holdReached (c : Command) (s : State) (rs : List Reached) : Command :=
  { c with held := c.held ++ rs.map fun r => (r.va, readLoc s r.place.loc r.len) }

/-- A destination after one more granule. -/
def progressDest (d : CastDest) (u : Nat) : CastDest :=
  let (n, a) := advancePrefix 32 d.done (u :: d.ahead)
  { d with done := n, ahead := a }

/-- The command leaves its queue once every destination has everything, or is skipped. -/
def settleCast (s : State) (block : Nat) : State :=
  match s.block? block with
  | none => s
  | some b => match headOf b .copy with
    | none => s
    | some c =>
      if c.started && (castChoices s b c).isEmpty && c.dests.zipIdx.all fun q =>
          castSkipped s b c q.2 || decide (castUnits c q.2 ≤ q.1.done) then
        s.putBlock (popHead b .copy)
      else s

/-- Who delivers: the destination's own copy engine writes another block's scratchpad, and knows what that block's sequencer knows
(R81, R281). DEDUCED (log 12): the tags of a block tell nothing of chains that run through another block. -/
def castAccessor (b d : Block) (c : Command) : Accessor :=
  let x := commandAccessor b c
  if d.id = b.id then x else { x with know := d.clock.know, serial := d.issued }

/-- A delivered granule in its destination: judged, written and counted there (R75, R81). `reads` are the accesses by which its
bytes came. -/
def deliverGranule (s : State) (b : Block) (c : Command) (i u : Nat) (bytes : List Byte) (reads : List WatchAccess) : State :=
  let e := castOf c i
  match castTarget s b (castBlk e), c.dests[i]? with
  | some d, some q =>
    let x := castAccessor b d c
    let dst := castDest e + 64 * u
    match countedRace s d b.id c.serial .copy x (castSync e) true [(dst, bytes.length)] with
    | some r => raceEngine s b .copy x true .write r
    | none =>
      let (d1, gen, ok) := landPieces x (castSync e) d none [(dst, bytes)]
      if !ok then stopEngine s b .copy causeOverrun 0 []
      else
        let q1 := progressDest q u
        let full := decide (castUnits c i ≤ q1.done)
        let d2 := if full then { d1 with armed := d1.armed.map fun r =>
            if r.owner == b.id && r.serial == c.serial then { r with lastGen := gen } else r } else d1
        let d3 := if full && castFormat c i then
            stampWindow d2 (castWin e) (castDest e) (formatElems (c.work.getD 1 0) (copyLength c.b)) (c.work.getD 1 0)
              (c.work.getD 0 0)
          else d2
        let s1 := s.putBlock d3
        match s1.block? b.id with
        | none => s1
        | some b1 =>
          let s2 := s1.putBlock (putHead b1 .copy { c with dests := c.dests.set i q1 })
          settleCast (presentUnit (addCounter s2 b.ctx (coreNumber d.isle d.core) 0x48 bytes.length) b.id
            (reads ++ [watchScratch dst bytes.length true])) b.id
  | _, _ => s

/-- Granule u of destination i: the source bytes that no delivery has needed yet are read. -/
def castUnit (s : State) (b : Block) (c : Command) (i u : Nat) : State :=
  let format := castFormat c i
  let src := (unitBytes (castBytes c i) u).map (copySource c format)
  withReach s b .copy c .copyRead (stretchesOf (src.filter fun va => (heldByte c va).isNone)) fun s rs =>
    if format && rs.any (fun r => placeFmt r.place != c.work.getD 1 0 || placeGeo r.place != c.work.getD 0 0) then
      stopEngine s b .copy causeFormat 0 []
    else match reachedRace s b (commandAccessor b c) .copy false rs with
      | some r => raceEngine s b .copy (commandAccessor b c) false .read r
      | none =>
        let c1 := holdReached c s rs
        let b1 := putHead b .copy c1
        deliverGranule (markReached (s.putBlock b1) b1 (commandAccessor b c) false rs) b1 c1 i u
          (src.map fun va => (heldByte c1 va).getD 0) (watchReached rs false)

/-! ### Which unit comes (R334) -/

/-- A command is still the head of its queue and goes on, or it has left the queue. -/
def goesOn (s : State) (block : Nat) (q : EngineQueue) (serial : Nat) : Bool :=
  match s.block? block with
  | none => false
  | some b => (b.stops.getD (queueBit q) none).isNone && match headOf b q with
    | some c => c.serial != serial || c.request.isNone
    | none => true

/-- Some steps of a command's units perform one after another, and none of them misses or stops the queue. -/
def performAll (q : EngineQueue) (block serial : Nat) : List (State → Block → Command → State) → State → Bool
  | [], _ => true
  | f :: fs, s => match s.block? block with
    | none => false
    | some b => match headOf b q with
      | none => true
      | some c =>
        if c.serial != serial then true
        else
          let t := f s b c
          goesOn t block q serial && performAll q block serial fs t

/-- The units below a unit that have not performed, from the prefix on. -/
def lowerUnits (done : Nat) (ahead : List Nat) (u : Nat) : List Nat :=
  (List.range (u - done)).map (done + ·) |>.filter fun k => !ahead.contains k

/-- The unit that performs where a choice picked unit u: u itself, or the lowest that has not performed, while the units up to u could
not all complete. A queue that stops has therefore completed every unit below the highest one it has begun (R334). -/
def unitInPrefix (s : State) (b : Block) (q : EngineQueue) (c : Command) (done : Nat) (ahead : List Nat) (u : Nat)
    (perform : Nat → State → Block → Command → State) : Nat :=
  if u = done || performAll q b.id c.serial ((lowerUnits done ahead u ++ [u]).map perform) s then u else done

/-- One granule of one destination. -/
def castGranule (s : State) (b : Block) (c : Command) (choice : Nat) : State :=
  let cs := castChoices s b c
  match cs[choice % cs.length]? with
  | none => settleCast s b.id
  | some (i, u) => match c.dests[i]? with
    | some d => castUnit s b c i (unitInPrefix s b .copy c d.done d.ahead u fun u s b c => castUnit s b c i u)
    | none => s

end Sys2Proof.Machine
end

