-- ==== Sys2Proof/Machine/Matrix.lean ====
section
/-!
DEFINITION. Sys2Proof/Machine/Matrix.lean: the matrix engine: its commands at issue, batches, and what a grant performs
(spec/11, R177 to R186; spec/12, R191 to R204).
-/

namespace Sys2Proof.Machine

/-! ### Packed operands (R192, R193) -/

def opndOff (v : Dword) : Nat := bitsAt v 0 19
def opndStride (v : Dword) : Nat := bitsAt v 32 19
def opndZeros (v : Dword) : Bool := bitsAt v 19 13 == 0 && bitsAt v 51 13 == 0

/-- The distance of rows: the packed stride, or the row's own bytes (R192). -/
def rowStride (v : Dword) (rowBytes : Nat) : Nat := if opndStride v = 0 then rowBytes else opndStride v

def rhoLegal (v : Dword) : Bool := v.toNat / 2 ^ 9 == 0

/-- The indices of a predicate (R179). -/
def activeOf (m : BitVec 128) : List Nat := (List.range 128).filter fun i => m.getLsbD i

/-- Runs of consecutive indices, as (first, length). -/
def runsOf : List Nat → List (Nat × Nat)
  | [] => []
  | a :: rest => match runsOf rest with
    | (b, n) :: more => if b = a + 1 then (a, n + 1) :: more else (a, 1) :: (b, n) :: more
    | [] => [(a, 1)]

/-! ### Formats (R178, R197, R200, R201) -/

/-- K per plane. -/
def planeK (fmt : Nat) : Nat :=
  match fmt with
  | 3 | 4 | 5 => 256 | 7 => 512 | _ => 128

/-- The page-format code of a streamed format (R200). -/
def streamFmt (f : BitVec 2) : Nat := if f = 0 then 1 else f.toNat + 2

def streamBytes (f : BitVec 2) : Nat := if f = 0 then 2 else 1

/-- The pairs of R178. -/
def streamPairs (plane : Nat) (f : BitVec 2) : Bool :=
  match plane with
  | 1 | 2 => f == 0
  | 3 | 4 => f == 1 || f == 2
  | 5 => f == 3
  | 7 => f != 3
  | _ => false

/-- Bytes of an element under CONV (R201). -/
def convBytes (v : BitVec 3) : Nat := if v = 0 then 4 else if v = 1 then 2 else 1

/-- The format of a narrowing code. -/
def convFormat (v : BitVec 3) : Option FpFormat :=
  if v = 1 then some .bf16 else if v = 2 then some .e4m3 else if v = 3 then some .e5m2 else none

/-- The page-format code that a CONV code agrees with; B32 agrees with no window (R198). -/
def convFmt (v : BitVec 3) : Option Nat := if v = 1 then some 1 else if v = 2 then some 3 else if v = 3 then some 4 else none

/-! ### Windows (R62, R198) -/

/-- The lowest-numbered valid window that contains a byte. -/
def windowAt (b : Block) (off : Nat) : Option Dword :=
  (b.fwin.find? fun x => winValid b x && decide (winBase x ≤ off) &&
    decide (off < winBase x + packedBytes (winFmt x) (winGeo x) (winElems x)))

/-- The format that an MLDW uses: format, geometry, and where its codes, block scales and band scales lie; `none` is a
disagreement (R198). -/
def mldwSource (b : Block) (fmt : Nat) (nb : Bool) (off : Nat) : Option (List Nat) :=
  let own := [fmt, if nb then 1 else 0, off, off + 32768, off + 40960]
  match windowAt b off with
  | none => some own
  | some x =>
    if winFmt x = 7 then
      let d := off - winBase x
      let p := d / 32768
      let n := winElems x
      if fmt == 7 && d % 32768 == 0 && decide (1024 * (p + 1) ≤ n / 64) then
        some [7, winGeo x, off, winBase x + n / 2 + 8192 * p, winBase x + n / 2 + n / 8 + 2048 * p]
      else none
    else if winFmt x = fmt then some own else none

/-- The stretches of a plane operand, scale areas included (R183, R197). -/
def planePieces (w : List Nat) : List (Nat × Nat) :=
  let codes := [(w.getD 2 0, 32768)]
  if w.getD 0 0 = 7 then
    codes ++ (w.getD 3 0, 8192) :: (if w.getD 1 0 = 0 then [(w.getD 4 0, 2048)] else [])
  else codes

/-! ### What a command will find at its start (R191) -/

/-- The matrix predicates of a block: rows, then columns. -/
abbrev Preds := List (BitVec 128) × List (BitVec 128)

/-- The mask of an MPRED (R195). -/
def mpredMask (c : Command) : BitVec 128 := BitVec.ofNat 128 ((2 ^ bitsAt c.b 0 8 - 1) * 2 ^ bitsAt c.a 0 8)

def applyPred (ps : Preds) (c : Command) : Preds :=
  match c.instr with
  | .mpred _ _ o col n =>
    let put := fun (l : List (BitVec 128)) =>
      l.set n.toNat (if o = 1 then l.getD n.toNat 0 ||| mpredMask c else mpredMask c)
    if col = 1 then (ps.1, put ps.2) else (put ps.1, ps.2)
  | _ => ps

/-- The predicates after every command of the matrix queue. -/
def predsAhead (b : Block) : Preds := (queueOf b .matrix).foldl applyPred (b.mr, b.mc)

/-- The formats of the active and the shadow plane after every command of the matrix queue. -/
def planesAhead (b : Block) : Nat × Nat :=
  (queueOf b .matrix).foldl (fun q c => match c.instr with
    | .mldw .. => (q.1, c.work.getD 0 0)
    | .mswap => (q.2, q.1)
    | _ => q) (b.active.fmt, b.shadow.fmt)

/-! ### Issue (R186, R191 to R194) -/

/-- The 65th unwaited command (R186). -/
def unwaitedFull (b : Block) : Bool := decide (64 ≤ b.unwaited.length)

def matrixRange (b : Block) (write : Bool) (q : Nat × Nat) : ArmedRange := armedRange b .matrix none write q.1 q.2

/-- A matrix command enters its queue and the open batch; MLDW, MSTRM and MCPY count as unwaited (R186, R203). -/
def enterMatrix (s : State) (b : Block) (c : Command) (counted : Bool) (ranges : List ArmedRange) : State :=
  let b1 := if (queueOf b .matrix).length < queueLimit then
      { b with openBatch := b.openBatch ++ [c.serial],
               unwaited := if counted then b.unwaited ++ [c.serial] else b.unwaited }
    else b
  enterQueue s b1 .matrix c ranges

def mpredBlock (s : State) (b : Block) (i : Instr) (f n : Dword) : State :=
  if f.toNat ≤ 127 ∧ n.toNat ≤ 128 ∧ f.toNat + n.toNat ≤ 128 then
    enterMatrix s b (newCommand s b i 0 f n 0) false []
  else haltBlock s b 0x06 0 []

def execMpred (a b : BitVec 5) (o c : BitVec 1) (n : BitVec 2) (s : State) :=
  runSeqBlock (.mpred a b o c n) s fun blk => mpredBlock s blk (.mpred a b o c n) (readB blk a) (readB blk b)

def mzeroBlock (s : State) (b : Block) (i : Instr) (rho : Dword) : State :=
  if rhoLegal rho then enterMatrix s b (newCommand s b i 0 rho 0 0) false [] else haltBlock s b 0x06 0 []

def execMzero (a : BitVec 5) (k r : BitVec 2) (s : State) :=
  runSeqBlock (.mzero a k r) s fun blk => mzeroBlock s blk (.mzero a k r) (readB blk a)

def mldwBlock (s : State) (b : Block) (i : Instr) (v : Dword) (nb : Bool) (fmt : Nat) : State :=
  let src := mldwSource b fmt nb (opndOff v)
  match limitFault false (opndOff v % 256 != 0 || opndStride v % 16 != 0) false
      (!opndZeros v || opndStride v != 0 || src.isNone || unwaitedFull b), src with
  | some c, _ => haltBlock s b c 0 []
  | none, none => haltBlock s b 0x06 0 []
  | none, some w =>
    enterMatrix s b { newCommand s b i 0 v 0 0 with work := w } true ((planePieces w).map (matrixRange b false))

def execMldw (a : BitVec 5) (n : BitVec 1) (f : BitVec 3) (s : State) :=
  runSeqBlock (.mldw a n f) s fun blk => mldwBlock s blk (.mldw a n f) (readB blk a) (n == 1) f.toNat

def execMswap (s : State) :=
  runSeqBlock .mswap s fun b => enterMatrix s b (newCommand s b .mswap 0 0 0 0) false []

/-- The rows of a stream. -/
def streamRowBytes (plane : Nat) (f : BitVec 2) : Nat := planeK plane * streamBytes f

def mstrmBlock (s : State) (b : Block) (i : Instr) (v rho : Dword) (f r : BitVec 2) : State :=
  let agrees := match windowAt b (opndOff v) with
    | none => true
    | some x => winFmt x == streamFmt f
  match limitFault false (opndOff v % 16 != 0 || opndStride v % 16 != 0) false
      (!opndZeros v || !rhoLegal rho || !agrees || unwaitedFull b) with
  | some c => haltBlock s b c 0 []
  | none =>
    let n := streamRowBytes (planesAhead b).1 f
    let rows := activeOf ((predsAhead b).1.getD r.toNat 0)
    enterMatrix s b (newCommand s b i 0 v rho 0) true
      (rows.map fun k => matrixRange b false (opndOff v + rowStride v n * k, n))

def execMstrm (a b : BitVec 5) (f k r : BitVec 2) (s : State) :=
  runSeqBlock (.mstrm a b f k r) s fun blk => mstrmBlock s blk (.mstrm a b f k r) (readB blk a) (readB blk b) f r

/-- The byte runs of the active rows and columns of an MCPY: row, first column, columns (R183, R201). -/
def mcpyRuns (rows cols : BitVec 128) : List (Nat × Nat × Nat) :=
  (activeOf rows).flatMap fun i => (runsOf (activeOf cols)).map fun q => (i, q.1, q.2)

/-- Where a run's bytes lie: first byte and bytes. -/
def mcpyStretch (v : Dword) (e : Nat) (q : Nat × Nat × Nat) : Nat × Nat :=
  (opndOff v + rowStride v (128 * e) * q.1 + e * q.2.1, e * q.2.2)

def mcpyBlock (s : State) (b : Block) (i : Instr) (mode : Dword) (v rho : Dword) (conv : BitVec 3) (s2a : Bool)
    (k r : BitVec 2) : State :=
  let agrees := !s2a || match windowAt b (opndOff v) with
    | none => true
    | some x => some (winFmt x) == convFmt conv
  match limitFault false (opndOff v % 16 != 0 || opndStride v % 16 != 0) false
      (!opndZeros v || !rhoLegal rho || !agrees || unwaitedFull b) with
  | some c => haltBlock s b c 0 []
  | none =>
    let ps := predsAhead b
    enterMatrix s b (newCommand s b i mode v rho 0) true
      ((mcpyRuns (ps.1.getD r.toNat 0) (ps.2.getD k.toNat 0)).map fun q =>
        matrixRange b (!s2a) (mcpyStretch v (convBytes conv) q))

def execMcpy (v : BitVec 3) (x : BitVec 1) (a b : BitVec 5) (k r : BitVec 2) (s : State) :=
  runSeqBlock (.mcpy v x a b k r) s fun blk =>
    mcpyBlock s blk (.mcpy v x a b k r) ((v ++ x).setWidth 64) (readB blk a) (readB blk b) v (x == 1) k r

/-! ### Batches (R203, R204) -/

/-- The serials that have left no entry in the matrix queue have performed all of their writes. -/
def serialsDone (b : Block) (ns : List Nat) : Bool := ns.all fun n => !(queueOf b .matrix).any fun c => c.serial == n

/-- The completed counter after k more batches at most: batches complete in order (R203). -/
def settleBatches : Nat → Block → Block
  | 0, b => b
  | k + 1, b =>
    if b.completed = b.closed then b
    else match b.batches.find? fun q => q.1 == b.completed + 1 with
      | none => settleBatches k { b with completed := b.completed + 1 }
      | some q =>
        if serialsDone b q.2 then
          let keep := q.2.any fun n => b.unwaited.contains n
          settleBatches k { b with completed := b.completed + 1, batches := if keep then b.batches else b.batches.erase q }
        else b

def batchFuel (b : Block) : Nat := (b.closed - b.completed).toNat

def mfenceBlock (s : State) (b : Block) (d : BitVec 5) : State :=
  let n := b.closed + 1
  let b1 := { b with closed := n, batches := b.batches ++ [(n, b.openBatch)], openBatch := [] }
  s.putBlock (nextBlock (writeB (settleBatches (batchFuel b1) b1) d (n.setWidth 64)))

def execMfence (d : BitVec 5) (s : State) := runSeqBlock (.mfence d) s fun b => mfenceBlock s b d

/-- The unwaited commands of batches up to g. -/
def waitedSerials (b : Block) (g : BitVec 16) : List Nat :=
  (b.batches.filter fun q => genReached g q.1).flatMap (·.2)

def mwaitBlock (s : State) (b : Block) (v : Dword) : State :=
  let g : BitVec 16 := v.setWidth 16
  if !genReached b.closed g then haltBlock s b 0x06 0 []
  else if !genReached b.completed g then holdBlock s b .mwait
  else
    let ns := waitedSerials b g
    let b1 := { nextBlock b with
      unwaited := b.unwaited.filter fun n => !ns.contains n,
      batches := b.batches.filter fun q => !genReached g q.1 }
    disarmRanges s b1 fun r => r.owner == b.id && r.queue == .matrix && ns.contains r.serial

def execMwait (a : BitVec 5) (s : State) := runSeqBlock (.mwait a) s fun b => mwaitBlock s b (readB b a)

/-! ### Sums (R180, R181) -/

/-- A weight of a plane that is not INT8 (R178, R197): weight (k, n), flushed (R40). -/
def planeWeight (p : Plane) (k n : Nat) : FpVal :=
  let byte := fun a => (readByte p.bytes a).toNat
  match p.fmt with
  | 1 => (readSource .bf16 (leNat (readBytes p.bytes (256 * n + 2 * k) 2))).1
  | 2 => (readSource .fp16 (leNat (readBytes p.bytes (256 * n + 2 * k) 2))).1
  | 3 => (readSource .e4m3 (byte (256 * n + k))).1
  | 4 => (readSource .e5m2 (byte (256 * n + k))).1
  | _ => fp4Val (byte (256 * n + k / 2) / (if k % 2 = 0 then 1 else 16) % 16)

/-- The scales of group g of a BX4 plane's column: block scale, then band scale. -/
def planeScale (p : Plane) (g n : Nat) : FpVal × FpVal :=
  (e3m5Val (readByte p.bytes (32768 + 64 * n + g)).toNat,
    if p.geom = 0 then bandVal (leNat (readBytes p.bytes (40960 + 16 * n + 2 * (g / 8)) 2)) else .num false 1 0)

def signedByte (x : Nat) : Int := if x < 128 then x else (x : Int) - 256

/-- A streamed element (R200), flushed. -/
def streamElem (f : BitVec 2) (row : List Byte) (k : Nat) : FpVal :=
  let byte := (row.getD k 0).toNat
  if f = 0 then (readSource .bf16 (leNat ((row.drop (2 * k)).take 2))).1
  else if f = 1 then (readSource .e4m3 byte).1
  else (readSource .e5m2 byte).1

/-- The exact sum of a group's products; 0 × ∞ and opposite infinities are NaN. -/
def groupSum (xs : List (FpVal × FpVal)) : FpVal :=
  xs.foldl (fun t q => match mulVal q.1 q.2 with
    | some p => (addVal .rne t p).getD .nan
    | none => .nan) (.num false 0 0)

/-- A BX4 group under its two scales. -/
def scaleGroup (p bs band : FpVal) : FpVal :=
  match band with
  | .num .. => match mulVal p bs with
    | some q => (mulVal q band).getD .nan
    | none => .nan
  | _ => .nan

/-- add_group of R180 on FP32 codes; a NaN operand gives the canonical NaN, under a group of zero too (R41, R181). -/
def addGroup (acc : Nat) (p : FpVal) : Nat :=
  match p with
  | .num _ 0 _ => if fpDecode .fp32 acc = .nan then canonNaN .fp32 else acc
  | _ => match addVal .rne (fpDecode .fp32 acc) p with
    | some v => (deliver .fp32 .rne v).code
    | none => canonNaN .fp32

/-- One result element of a floating plane. -/
def streamSum (p : Plane) (f : BitVec 2) (row : List Byte) (n acc : Nat) : Nat :=
  (List.range (planeK p.fmt / 8)).foldl (fun acc g =>
    let s := groupSum ((List.range 8).map fun j => (streamElem f row (8 * g + j), planeWeight p (8 * g + j) n))
    addGroup acc (if p.fmt = 7 then let q := planeScale p g n; scaleGroup s q.1 q.2 else s)) acc

/-- One result element of an INT8 plane, wrapping. -/
def streamSumInt (p : Plane) (row : List Byte) (n acc : Nat) : Nat :=
  let t : Int := (List.range 256).foldl (fun (t : Int) k =>
    t + signedByte (row.getD k 0).toNat * signedByte (readByte p.bytes (256 * n + k)).toNat) 0
  (((acc : Int) + t) % 2 ^ 32).toNat

/-! ### Performing (R182, R193, R202) -/

def accGet (b : Block) (row col : Nat) : Word := mapGet 0 b.acc (128 * row + col)
def accSet (b : Block) (row col : Nat) (v : Word) : Block :=
  { b with acc := mapSet 0 b.acc (128 * row + col) v, badAcc := b.badAcc.filter (· != 128 * row + col) }

/-- Some element that rows and columns of a command name holds an uncorrectable error (R70). -/
def accBad (b : Block) (base : Nat) (rows cols : BitVec 128) : Bool :=
  b.badAcc.any fun n => decide (base ≤ n / 128) && rows.getLsbD (n / 128 - base) && cols.getLsbD (n % 128)

/-- A command has performed all of its writes: it leaves the queue, and batches that are complete advance. -/
def finishMatrix (b : Block) : Block :=
  let b1 := popHead b .matrix
  settleBatches (batchFuel b1) b1

/-- Every active row lies in the accumulator allotment (R193). -/
def rowsFit (b : Block) (rho : Dword) (rows : BitVec 128) : Bool :=
  (activeOf rows).all fun i => decide (rho.toNat + i < b.accRows)

def performMzero (b : Block) (c : Command) (rows cols : BitVec 128) : Block :=
  finishMatrix ((activeOf rows).foldl (fun b i =>
    (activeOf cols).foldl (fun b n => accSet b (c.a.toNat + i) n 0) b) b)

/-- The raw bytes of a plane operand in the layout of R197. -/
def planeBytes (b : Block) (w : List Nat) : Mem :=
  let put := fun (m : Mem) (q : Nat × Nat × Nat) => writeBytes m q.1 (readBytes b.scratch q.2.1 q.2.2)
  let m1 := put [] (0, w.getD 2 0, 32768)
  if w.getD 0 0 = 7 then
    let m2 := put m1 (32768, w.getD 3 0, 8192)
    if w.getD 1 0 = 0 then put m2 (40960, w.getD 4 0, 2048) else m2
  else m1

/-- The first race of some reads or writes of a matrix command (R185). -/
def matrixRace (s : State) (b : Block) (c : Command) (write : Bool) (ps : List (Nat × Nat)) : Option RaceFound :=
  ps.findSome? fun q => engineRaceAt s b b.id c.serial .matrix (commandAccessor b c) write q.1 q.2

/-- The queue whose stop record carries a race of a matrix access (R185): the other engine's, whose armed range the word
meets; the matrix queue's where the word's race tag, on a read, or a per-thread copy makes the race. -/
def raceQueue (b : Block) (c : Command) (write : Bool) (r : RaceFound) : EngineQueue :=
  if !write && scratchRaces b (commandAccessor b c) (r.addr / 4) (mapGet 0 b.tags (r.addr / 4)) then .matrix
  else match b.armed.find? fun x => !x.glob && (write || x.write) && x.queue != .matrix &&
      wordsMeet r.addr 1 x.lo x.hi && !(x.owner == b.id && commandsOrdered b x.serial x.queue c.serial .matrix) with
    | some x => if x.owner == b.id then x.queue else .matrix
    | none => .matrix

/-- A race of a matrix access: the context halts with the stop record that R185 names. -/
def raceMatrix (s : State) (b : Block) (c : Command) (write : Bool) (r : RaceFound) : State :=
  raceEngine s b (if r.thread = eccMark then .matrix else raceQueue b c write r) (commandAccessor b c) true
    (if write then .write else .read) r

def insideAllotment (b : Block) (ps : List (Nat × Nat)) : Bool := ps.all fun q => decide (q.1 + q.2 ≤ allotBytes b)

def markAll (s : State) (b : Block) (c : Command) (ps : List (Nat × Nat)) : Block :=
  markRead s b (commandAccessor b c) (ps.flatMap fun q => wordsOf q.1 q.2)

def performMldw (s : State) (b : Block) (c : Command) : State :=
  let ps := planePieces c.work
  if !insideAllotment b ps then stopEngine s b .matrix causeRange 0x03 []
  else match matrixRace s b c false ps with
    | some r => raceMatrix s b c false r
    | none =>
      let b1 := markAll s b c ps
      s.putBlock (finishMatrix { b1 with shadow := ⟨c.work.getD 0 0, c.work.getD 1 0, planeBytes b c.work⟩ })

/-- One streamed row is added to the accumulators. -/
def addRow (b : Block) (c : Command) (f : BitVec 2) (cols : BitVec 128) (i : Nat) (row : List Byte) : Block :=
  (activeOf cols).foldl (fun b' n =>
    let r := c.b.toNat + i
    let acc := (accGet b r n).toNat
    let v := if b.active.fmt = 5 then streamSumInt b.active row n acc else streamSum b.active f row n acc
    accSet b' r n (BitVec.ofNat 32 v)) b

/-- The head of a queue after the row it has just added: NEXTI is the next streamed row, and without one the command is complete
(R202). -/
def afterRow (b : Block) (c : Command) (rest : List Nat) : Block :=
  match rest with
  | [] => finishMatrix (putHead b .matrix { c with started := true })
  | i :: _ => putHead b .matrix { c with started := true, done := i }

/-- The next streamed row of an MSTRM. What its predicates fix is checked before its first row (R178, R193); a race stops it
before the row (R185). -/
def performMstrm (s : State) (b : Block) (c : Command) (f k r : BitVec 2) : State :=
  let rows := b.mr.getD r.toNat 0
  let n := streamRowBytes b.active.fmt f
  let stretch := fun i : Nat => (opndOff c.a + rowStride c.a n * i, n)
  let go := putHead b .matrix { c with started := true }
  if c.done == 0 && !streamPairs b.active.fmt f then stopEngine s go .matrix causeFormat 0 []
  else if c.done == 0 && (!rowsFit b c.b rows || !insideAllotment b ((activeOf rows).map stretch)) then
    stopEngine s go .matrix causeRange 0x03 []
  else match (activeOf rows).filter fun i => decide (c.done ≤ i) with
    | [] => s.putBlock (finishMatrix b)
    | i :: rest => match matrixRace s b c false [stretch i] with
      | some x => raceMatrix s go c false x
      | none =>
        let b1 := addRow (markAll s b c [stretch i]) c f (b.mc.getD k.toNat 0) i (readBytes b.scratch (stretch i).1 n)
        (addCounter s b.ctx (coreNumber b.isle b.core) 0x38 1).putBlock (afterRow b1 c rest)

/-- The bytes that an element becomes, and the element that bytes become (R43, R44, R201). -/
def narrowBytes (v : BitVec 3) (x : Word) : List Byte :=
  match convFormat v with
  | none => leBytes 4 x.toNat
  | some f => leBytes (convBytes v) (fpConvert .fp32 f .rne (defaultSat f) x.toNat).code

def widenBytes (v : BitVec 3) (bs : List Byte) : Word :=
  match convFormat v with
  | none => BitVec.ofNat 32 (leNat bs)
  | some f => BitVec.ofNat 32 (fpConvert f .fp32 .rne .ieee (leNat bs)).code

/-- A run of an MCPY toward scratchpad, with writer 17. -/
def mcpyOut (c : Command) (v : BitVec 3) (b : Block) (q : Nat × Nat × Nat) : Block :=
  let a := mcpyStretch c.a (convBytes v) q
  let bytes := (List.range q.2.2).flatMap fun j => narrowBytes v (accGet b (c.b.toNat + q.1) (q.2.1 + j))
  markWrite { b with scratch := writeBytes b.scratch a.1 bytes } (commandAccessor b c) false [a]

/-- A run of an MCPY toward the accumulators. -/
def mcpyIn (c : Command) (v : BitVec 3) (b : Block) (q : Nat × Nat × Nat) : Block :=
  let e := convBytes v
  let a := mcpyStretch c.a e q
  (List.range q.2.2).foldl (fun b j =>
    accSet b (c.b.toNat + q.1) (q.2.1 + j) (widenBytes v (readBytes b.scratch (a.1 + e * j) e))) b

/-- An MCPY performs whole. DESIGN CHOICE (log 12): where rows toward scratchpad overlap they are written in ascending order, and a
later row wins; R192 gives overlapping rows a meaning for reads alone. -/
def performMcpy (s : State) (b : Block) (c : Command) (v : BitVec 3) (s2a : Bool) (k r : BitVec 2) : State :=
  let rows := b.mr.getD r.toNat 0
  let runs := mcpyRuns rows (b.mc.getD k.toNat 0)
  let ps := runs.map (mcpyStretch c.a (convBytes v))
  if !rowsFit b c.b rows || !insideAllotment b ps then stopEngine s b .matrix causeRange 0x03 []
  else match matrixRace s b c (!s2a) ps with
    | some x => raceMatrix s b c (!s2a) x
    | none =>
      if s2a then s.putBlock (finishMatrix (runs.foldl (mcpyIn c v) (markAll s b c ps)))
      else s.putBlock (finishMatrix (runs.foldl (mcpyOut c v) b))

/-- The partition of a block's core and context notes the time of a matrix command (R66). -/
def touchPartition (s : State) (b : Block) : State :=
  { s with partitions := s.partitions.map fun p =>
      if p.isle == b.isle && p.core == b.core && p.ctx == b.ctx then { p with used := s.clock } else p }

/-- The head command of a block's matrix queue performs: whole, or one row of it (R182, R202). A QJOIN waits for its other queues. -/
def performMatrix (s : State) (b : Block) : State :=
  match headOf b .matrix with
  | none => s
  | some c =>
    let s1 := touchPartition s b
    let go := putHead b .matrix { c with started := true }
    match c.instr with
    | .mpred .. =>
      let ps := applyPred (b.mr, b.mc) c
      s1.putBlock (finishMatrix { b with mr := ps.1, mc := ps.2 })
    | .mzero _ k r =>
      let rows := b.mr.getD r.toNat 0
      if rowsFit b c.a rows then s1.putBlock (performMzero b c rows (b.mc.getD k.toNat 0))
      else stopEngine s1 go .matrix causeRange 0x03 []
    | .mldw .. => performMldw s1 go c
    | .mswap => s1.putBlock (finishMatrix { b with active := b.shadow, shadow := b.active })
    | .mstrm _ _ f k r =>
      if accBad b c.b.toNat (b.mr.getD r.toNat 0) (b.mc.getD k.toNat 0) then stopEngine s1 go .matrix causeEcc 0x17 []
      else performMstrm s1 b c f k r
    | .mcpy v x _ _ k r =>
      if x != 1 && accBad b c.b.toNat (b.mr.getD r.toNat 0) (b.mc.getD k.toNat 0) then stopEngine s1 go .matrix causeEcc 0x17 []
      else performMcpy s1 go c v (x == 1) k r
    | _ => s

/-! ### Grants (R182) -/

/-- The matrix engine can serve a block: its queue is not empty, has not stopped, and does not wait at a QJOIN. -/
def matrixReady (s : State) (b : Block) : Bool :=
  engineRuns s b .matrix && (headOf b .matrix).any fun c => match c.instr with
    | .qjoin _ => false
    | _ => true

/-- The command at the head of a block's matrix queue is an MSTRM stopped between rows. -/
def matrixBetween (b : Block) : Bool := (headOf b .matrix).any fun c => c.started && c.done != 0

/-- The block of a core that the matrix engine serves next: the one whose grant has rows left, or the next one in slot order. -/
def matrixNext (s : State) (isle core : Nat) : Option Block :=
  let grant := mapGet 0 s.grants (coreNumber isle core)
  let ready := (s.blocks.filter fun b => b.isle == isle && b.core == core && matrixReady s b)
  match ready.find? fun b => grant % 32 != 0 && grant / 32 == b.slot + 1 && matrixBetween b with
  | some b => some b
  | none => (List.range blockSlots).findSome? fun i => ready.find? fun b => b.slot == (grant / 32 + i) % blockSlots

/-- The grant after a block has been served: 16 streamed rows at a time, or one command. -/
def grantAfter (grant : Nat) (b after : Block) : Nat :=
  let rows := if grant % 32 != 0 && grant / 32 == b.slot + 1 && matrixBetween b then grant % 32 else 16
  32 * (b.slot + 1) + (if matrixBetween after then rows - 1 else 0)

/-- The engine serves a block, if it is that block's turn. -/
def grantMatrix (s : State) (b : Block) : State :=
  if (matrixNext s b.isle b.core).any fun x => x.id == b.id then
    let k := coreNumber b.isle b.core
    let s1 := performMatrix s b
    match s1.block? b.id with
    | some b1 => { s1 with grants := mapSet 0 s1.grants k (grantAfter (mapGet 0 s1.grants k) b b1) }
    | none => s1
  else s

end Sys2Proof.Machine
end

