-- ==== Sys2Proof/Machine/Sort.lean ====
section
/-!
DEFINITION. Sys2Proof/Machine/Sort.lean: the sort array: its commands at issue, who holds it, row transfers and the steps of a
sort (spec/05, R67, R68; spec/11, R187 to R190; spec/12, R205 to R209).
-/

namespace Sys2Proof.Machine

/-! ### Issue (R205, R207) -/

def shapeRow0 (v : Dword) : Nat := bitsAt v 0 7
def shapeRows (v : Dword) : Nat := bitsAt v 8 7 + 1
def shapeCols (v : Dword) : Nat := bitsAt v 16 7 + 1
def shapeOrder (v : Dword) : Bool := v.getLsbD 24
def shapeOix (v : Dword) : Bool := v.getLsbD 25

/-- The bits of a shape register that must be zero. -/
def shapeZeros (v : Dword) (store : Bool) : Bool :=
  v.getLsbD 7 == false && v.getLsbD 15 == false && v.getLsbD 23 == false && v.toNat / 2 ^ (if store then 26 else 24) == 0

/-- Row q of a transfer: its first byte and its bytes. -/
def transferRow (o v : Dword) (q : Nat) : Nat × Nat :=
  let n := 8 * shapeCols v
  (opndOff o + rowStride o n * q, n)

def sortTransferBlock (s : State) (b : Block) (i : Instr) (o v so : Dword) (store : Bool) : State :=
  let rows := (List.range (shapeRows v)).map (transferRow o v)
  match limitFault false (opndOff o % 16 != 0 || opndStride o % 16 != 0 || syncMisaligned so)
      (!insideAllotment b rows || syncOutside b so)
      (!opndZeros o || !shapeZeros v store || decide (128 < shapeRow0 v + shapeRows v)) with
  | some c => haltBlock s b c 0 []
  | none =>
    enterQueue s b .sort (newCommand s b i 0 o v so.toNat)
      (rows.map fun q => armedRange b .sort (some so.toNat) store q.1 q.2)

def execSrtld (a b w : BitVec 5) (s : State) :=
  runSeqBlock (.srtld a b w) s fun blk =>
    sortTransferBlock s blk (.srtld a b w) (readB blk a) (readB blk b) (readB blk w) false

def execSrtst (a b w : BitVec 5) (s : State) :=
  runSeqBlock (.srtst a b w) s fun blk =>
    sortTransferBlock s blk (.srtst a b w) (readB blk a) (readB blk b) (readB blk w) true

def srtgoBlock (s : State) (b : Block) (i : Instr) (v : Dword) : State :=
  if v.getLsbD 7 || v.toNat / 2 ^ 15 != 0 then haltBlock s b 0x06 0 []
  else enterQueue s b .sort { newCommand s b i 0 v 0 0 with step := 0 } []

def execSrtgo (a : BitVec 5) (o e l : BitVec 1) (k : BitVec 3) (s : State) :=
  runSeqBlock (.srtgo a o e l k) s fun blk => srtgoBlock s blk (.srtgo a o e l k) (readB blk a)

/-! ### Who holds the array (R68) -/

/-- The cells as an array that passes to another block holds them. -/
def freshCells : List SortCell := (List.range 16384).map fun i => ⟨0, 0, BitVec.ofNat 14 i⟩

def sortArrayAt (s : State) (isle core : Nat) : SortArray :=
  (s.sorts.find? fun a => a.isle == isle && a.core == core).getD ⟨isle, core, none, none, [], freshCells, []⟩

def putSortArray (s : State) (a : SortArray) : State :=
  { s with sorts := a :: s.sorts.filter fun x => !(x.isle == a.isle && x.core == a.core) }

/-- Waiting commands that can start. -/
def sortWaiters (s : State) (a : SortArray) : List Nat :=
  a.waiting.filter fun id => match s.block? id with
    | some b => b.isle == a.isle && b.core == a.core && !b.ended && engineRuns s b .sort
    | none => false

/-- A sort command starts: in the block that holds the array, or, when the array is free and it is first in line, by taking
the array; an SRTGO or SRTST that would start there without holding it stops (R68, R205). -/
def startSort (s : State) (b : Block) (c : Command) : State :=
  let a := sortArrayAt s b.isle b.core
  let go := putHead b .sort { c with started := true }
  let line := sortWaiters s a
  let wait := putSortArray s { a with waiting := if line.contains b.id then line else line ++ [b.id] }
  match a.holder with
  | some h => if h = b.id then s.putBlock go else wait
  | none =>
    if line.isEmpty || line.head? == some b.id then
      let a1 := { a with waiting := line.erase b.id }
      match c.instr with
      | .srtld .. =>
        let cells := if a.last = some b.id then a.cells else freshCells
        (putSortArray s { a1 with holder := some b.id, last := some b.id, cells := cells, bad := if a.last = some b.id then a.bad else [] }).putBlock
          { go with sortHeld := true }
      | _ => stopEngine (putSortArray s a1) go .sort causeNotHeld 0 []
    else wait

/-- The array is released (R68). -/
def releaseSort (s : State) (b : Block) : State :=
  let a := sortArrayAt s b.isle b.core
  if a.holder = some b.id then
    let s1 := putSortArray s { a with holder := none }
    match s1.block? b.id with
    | some b1 => s1.putBlock { b1 with sortHeld := false }
    | none => s1
  else s

/-! ### Row transfers (R206, R208, R209) -/

/-- The cells that a loaded row's bytes give from column j on. -/
def loadCells (cells : List SortCell) (row : Nat) : Nat → Nat → List Byte → List SortCell
  | 0, _, _ => cells
  | n + 1, j, bs =>
    let i := 128 * row + j
    loadCells (cells.set i ⟨BitVec.ofNat 32 (leNat (bs.take 4)), BitVec.ofNat 32 (leNat ((bs.drop 4).take 4)),
      BitVec.ofNat 14 i⟩) row n (j + 1) (bs.drop 8)

/-- Counts pieces that were read, and loads the cells of each (R75, R205). -/
def loadPieces (x : Accessor) (sync row : Nat) : Block → List SortCell → Option (BitVec 16) → Nat →
    List (Nat × List Byte) → Block × List SortCell × Option (BitVec 16) × Bool
  | b, cells, g, _, [] => (b, cells, g, true)
  | b, cells, g, j, (_, bs) :: rest => match countSync b x sync bs.length with
    | none => (b, cells, g, false)
    | some (b1, g1) =>
      loadPieces x sync row b1 (loadCells cells row (bs.length / 8) j bs) (some g1) (j + bs.length / 8) rest

/-- The row that an SRTST stores. -/
def storeRow (cells : List SortCell) (v : Dword) (row : Nat) : List Byte :=
  let n := shapeCols v
  (List.range n).flatMap fun j =>
    let k := if shapeOrder v && row % 2 == 1 then n - 1 - j else j
    let c := cells.getD (128 * row + k) ⟨0, 0, 0⟩
    leBytes 4 c.key.toNat ++ leBytes 4 (if shapeOix v then c.origin.toNat else c.payload.toNat)

/-- The transfer goes on to its next row, or is complete. -/
def nextRow (b : Block) (c : Command) (gen : Option (BitVec 16)) : Block :=
  let c1 := { c with done := c.done + 1 }
  if shapeRows c.b ≤ c1.done then completeCommand b .sort c1 gen else putHead b .sort c1

def loadRow (s : State) (b : Block) (c : Command) : State :=
  let x := commandAccessor b c
  let (a, n) := transferRow c.a c.b c.done
  match countedRace s b b.id c.serial .sort x c.sync false [(a, n)] with
  | some r => raceEngine s b .sort x true .read r
  | none =>
    let arr := sortArrayAt s b.isle b.core
    let b1 := markRead s b x (wordsOf a n)
    let (b2, cells, gen, ok) := loadPieces x c.sync (shapeRow0 c.b + c.done) b1 arr.cells none 0
      (piecesOf 16 a (readBytes b.scratch a n))
    let s1 := putSortArray s { arr with
      cells := cells, bad := arr.bad.filter fun n => n / 128 != shapeRow0 c.b + c.done }
    if ok then s1.putBlock (nextRow b2 c gen) else stopEngine s1 b2 .sort causeOverrun 0 []

/-- A row is stored. DESIGN CHOICE (log 12): rows that overlap are written in ascending order, and a later row wins; R192 gives
overlapping rows a meaning for reads alone. -/
def storeRowOut (s : State) (b : Block) (c : Command) : State :=
  let x := commandAccessor b c
  let (a, n) := transferRow c.a c.b c.done
  match countedRace s b b.id c.serial .sort x c.sync true [(a, n)] with
  | some r => raceEngine s b .sort x true .write r
  | none =>
    let arr := sortArrayAt s b.isle b.core
    if arr.bad.any (fun n => n / 128 == shapeRow0 c.b + c.done) then stopEngine s b .sort causeEcc 0x17 [] else
    let (b1, gen, ok) := landPieces x c.sync b none (piecesOf 16 a (storeRow arr.cells c.b (shapeRow0 c.b + c.done)))
    if !ok then stopEngine s b1 .sort causeOverrun 0 []
    else
      let b2 := nextRow b1 c gen
      let s1 := s.putBlock b2
      let finished := (queueOf b2 .sort).all fun k => match k.instr with
        | .qjoin _ => true
        | _ => false
      if finished then releaseSort s1 b2 else s1

/-- One row of the SRTLD or SRTST at the head of a block's sort queue. -/
def transferStep (s : State) (b : Block) : State :=
  match headOf b .sort with
  | none => s
  | some c =>
    if !c.started then s
    else match c.instr with
      | .srtld .. => loadRow s b c
      | .srtst .. => storeRowOut s b c
      | _ => s

/-! ### Shearsort (R187 to R189) -/

/-- ⌈log₂ r⌉. -/
def ceilLog2 (r : Nat) : Nat := ((List.range 8).find? fun l => decide (r ≤ 2 ^ l)).getD 7

/-- The phases of a sort. -/
def sortPhases (r : Nat) (rowOnly : Bool) : Nat := if rowOnly then 1 else 2 * ceilLog2 r + 1

/-- The order of cells: order code, reversed under the descending variant, then origin (R50, R188). -/
def sortKey (k : BitVec 3) (flat desc : Bool) (c : SortCell) : Nat :=
  let o := orderCode k flat c.key
  (if desc then 2 ^ 32 - 1 - o else o) * 2 ^ 14 + c.origin.toNat

/-- The cell at a position of a line after compare step s: `at_ j` reads the line of `len` cells before it; pairs (j, j + 1)
with j ≡ s (mod 2) are exchanged where they stand against the direction. -/
def comparedCell (key : SortCell → Nat) (at_ : Nat → SortCell) (len s : Nat) (ascending : Bool) (j : Nat) : SortCell :=
  let swap := fun j => let (x, y) := (key (at_ j), key (at_ (j + 1))); if ascending then decide (y < x) else decide (x < y)
  if j % 2 == s % 2 then
    if j + 1 < len ∧ swap j then at_ (j + 1) else at_ j
  else if 0 < j ∧ swap (j - 1) then at_ (j - 1) else at_ j

/-- All cells after step s of a phase over a region of r rows and c columns. -/
def shearStep (cells : List SortCell) (r c phase s : Nat) (key : SortCell → Nat) (rowOnly : Bool) : List SortCell :=
  let arr := cells.toArray
  let get := fun i j => arr.getD (128 * i + j) ⟨0, 0, 0⟩
  cells.mapIdx fun n cell =>
    let (i, j) := (n / 128, n % 128)
    if r ≤ i || c ≤ j then cell
    else if phase % 2 = 0 then comparedCell key (fun k => get i k) c s (rowOnly || i % 2 == 0) j
    else comparedCell key (fun k => get k j) r s true i

/-- One step of the SRTGO at the head of a block's sort queue. -/
def sortStepOf (s : State) (b : Block) : State :=
  match headOf b .sort with
  | none => s
  | some c =>
    if !c.started then s
    else match c.instr with
      | .srtgo _ o e l k =>
        let (r, n) := (sortRm1 c + 1, sortCm1 c + 1)
        let arr := sortArrayAt s b.isle b.core
        if arr.bad.any (fun i => decide (i / 128 < r) && decide (i % 128 < n)) then stopEngine s b .sort causeEcc 0x17 [] else
        let cells := shearStep arr.cells r n c.phase c.step (sortKey k (l == 1) (e == 1)) (o == 1)
        let len := if c.phase % 2 = 0 then n else r
        let c1 := if c.step + 1 = len then { c with phase := c.phase + 1, step := 0 } else { c with step := c.step + 1 }
        let s1 := addCounter (putSortArray s { arr with cells := cells }) b.ctx (coreNumber b.isle b.core) 0x40 1
        s1.putBlock (if sortPhases r (o == 1) ≤ c1.phase then completeCommand b .sort c1 none else putHead b .sort c1)
      | _ => s

end Sys2Proof.Machine
end

