-- ==== Sys2Proof/Machine/AgentEvents.lean ====
section
/-!
DEFINITION. Sys2Proof/Machine/AgentEvents.lean: the steps that stand beside the words of waves, blocks and grids (spec/95): the
illegal-instruction fault, replays, results and tokens, barriers, votes, allotments, per-thread copies and engine steps. A step
whose condition does not hold changes nothing (log 2).
-/

namespace Sys2Proof.Machine

/-- A step of an agent or unit that always has an outcome. -/
def eventNext (s : State) : Host.Outcome State Fault Refusal := .next s

/-! ### Words and results -/

/-- The illegal-instruction fault of the agent that reached the word (R117, R118). -/
def illegalAt (s : State) (a : Agent) : State :=
  match a with
  | .wave id => match s.wave? id with
    | some w => haltWave s w 0x10 0 []
    | none => s
  | .block id => match s.block? id with
    | some b => haltBlock s b 0x10 0 []
    | none => s
  | .grid id => match s.grid? id with
    | some g => haltGrid s g 0x10 0
    | none => s

def execIllegalInstruction (s : State) : Host.Outcome State Fault Refusal :=
  match s.turn with
  | some a => eventNext (if nextOf s a = .illegal then illegalAt s a else s)
  | none => eventNext s

/-- A switched-out wave comes back once its verdicts have come and a lane has room for it: it replays its instruction in the threads
of PCM, or takes the access-fault trap there (R26, R29, R335). -/
def replayWave (s : State) (w : Wave) : State :=
  match returnWave s w with
  | none => s
  | some w =>
    if w.missFailed then takeTrap s { w with phase := .ready, missFailed := false } 0x04
    else s.putWave { w with phase := .ready, replay := if w.pcm = 0 then none else some w.pcm }

def execWaveReplay (wave : Nat) (s : State) : Host.Outcome State Fault Refusal :=
  match s.wave? wave with
  | some w => eventNext (if w.phase == .missed && w.requests.isEmpty then replayWave s w else s)
  | none => eventNext s

/-- One variable-latency result is written (R111, R174); a tag whose results are all written ceases to be outstanding. -/
def writeBack (w : Wave) (n : Nat) : Wave :=
  match w.pending[n]? with
  | some p => settleTags (writePending { w with pending := w.pending.eraseIdx n } p)
  | none => w

def execLoadWriteback (wave index : Nat) (s : State) : Host.Outcome State Fault Refusal :=
  match s.wave? wave with
  | some w => eventNext (s.putWave (writeBack w index))
  | none => eventNext s

/-- The oldest fixed-latency result is written, early or at its slot (R112, R113). -/
def execFixedLatencyResultWrite (wave : Nat) (s : State) : Host.Outcome State Fault Refusal :=
  match s.wave? wave with
  | some w => eventNext (s.putWave (landInFlight w))
  | none => eventNext s

/-- A wave that has been passed over for 64 consecutive slots is promoted (R319). -/
def execWavePromotion (wave : Nat) (s : State) : Host.Outcome State Fault Refusal :=
  match s.wave? wave with
  | some w => eventNext (if 64 ≤ w.passed then s.putWave { w with promoted := 1 } else s)
  | none => eventNext s

/-! ### Tokens (R217) -/

def popAgent (s : State) : Agent → State
  | .wave id => match s.wave? id with
    | some w => popWave s w
    | none => s
  | .block id => match s.block? id with
    | some b => popBlock s b
    | none => s
  | .grid _ => s

def execTokenPop (a : Agent) (s : State) : Host.Outcome State Fault Refusal :=
  eventNext (if agentRuns s a && nextOf s a = .pop then popAgent s a else s)

/-! ### Barriers and votes (R175, R229) -/

/-- A wave held at a WAIT on barrier n goes on when that WAIT completes. -/
def releaseWave (s : State) (n id : Nat) : State :=
  match s.wave? id with
  | some w =>
    if w.phase == .held (.barrier n) && waveRuns s w && nextOfWave s w = .own (.wait 1 (BitVec.ofNat 6 n)) then
      markFell (waveWait s w n) (.wave id) w.pc 1
    else s
  | none => s

/-- A block held at a WAIT goes on when that WAIT completes. -/
def releaseBlock (s : State) (f : Nat) (id : Nat) : State :=
  match s.block? id with
  | some b =>
    if blockRuns s b && b.phase != .ready && nextOfBlock s b = .own (.wait 2 (BitVec.ofNat 6 f)) then
      markFell (blockWait s b (BitVec.ofNat 6 f)) (.block id) b.pc 1
    else s
  | none => s

/-- The grid sequencer held at WAIT.G goes on. -/
def releaseGrid (s : State) (id : Nat) : State :=
  match s.grid? id with
  | some g => if gridRuns s g && g.phase != .ready && nextOfGrid s g = .own (.wait 3 0) then markFell (gridWait s g) (.grid id) g.pc 1 else s
  | none => s

/-- Barriers 0 to 15, 16 for the grid barrier, 32 to 35 for the group slots, as WAIT names them (R252). -/
def releaseBarrier (s : State) (b : Block) (n : Nat) : State :=
  let s1 := if n < 16 then ((s.wavesOf b.id).map (·.id)).foldl (fun s id => releaseWave s n id) s else s
  let s2 := releaseBlock s1 n b.id
  if n = 16 then releaseGrid s2 b.grid else s2

def execBarrierRelease (block bar : Nat) (s : State) : Host.Outcome State Fault Refusal :=
  match s.block? block with
  | some b => eventNext (releaseBarrier s b bar)
  | none => eventNext s

/-- A block's instance is written to its kd, and its contribution to a grid instance is forwarded, once every member has
delivered (R175). -/
def settleBlockVotes (s : State) (b : Block) (g : Grid) : State :=
  let ws := s.wavesOf b.id
  let s1 := if membersDelivered g.kernel b ws b.votes then s.putBlock (completeBlockVote b) else s
  match s1.block? b.id with
  | some b1 => if membersDelivered g.kernel b1 ws b1.gvotes then forwardGridVote s1 b1 g else s1
  | none => s1

def execVoteInstanceComplete (a : Agent) (s : State) : Host.Outcome State Fault Refusal :=
  match a with
  | .wave _ => eventNext s
  | .block id => match s.block? id with
    | some b => match s.grid? b.grid with
      | some g => eventNext (if ctxRuns s b.ctx then settleBlockVotes s b g else s)
      | none => eventNext s
    | none => eventNext s
  | .grid id => match s.grid? id with
    | some g => eventNext (if ctxRuns s g.ctx && gridVoteComplete s g then completeGridVote s g else s)
    | none => eventNext s

/-- A block held at its first ACQ takes its full allotment once it can be granted (R230). -/
def execAcqGrant (block : Nat) (s : State) : Host.Outcome State Fault Refusal :=
  match s.block? block with
  | some b => eventNext (if b.phase == .held .acq && blockRuns s b then acqBlock s b else s)
  | none => eventNext s

/-! ### Per-thread copies (R82) -/

def execCpaLanding (wave index : Nat) (s : State) : Host.Outcome State Fault Refusal :=
  match s.wave? wave with
  | some w => match s.block? w.block with
    | some b => eventNext (if ctxRuns s b.ctx then landCopy s w index else s)
    | none => eventNext s
  | none => eventNext s

/-! ### Engine commands (R71, R72, R182, R334) -/

/-- A QJOIN ends once it stands at the head of every queue that it names (R72). -/
def joinEnds (b : Block) (serial : Nat) (m : BitVec 5) : Bool :=
  (joinQueues m).all fun q => (headOf b q).any fun c => c.serial == serial

def endJoin (s : State) (b : Block) (c : Command) (m : BitVec 5) : State :=
  if joinEnds b c.serial m then s.putBlock ((joinQueues m).foldl popHead b) else s

/-- The head of a queue starts, when every command before it in its queue is complete (R71); a matrix command starts with the grant
in which it performs (R182, R202). -/
def startCommand (s : State) (b : Block) (q : EngineQueue) (c : Command) : State :=
  match c.instr with
  | .qjoin m => endJoin s b c m
  | .bcopy _ _ _ x _ => startBcopy s b c (x == 1)
  | .bmcast .. => startBmcast s b c
  | .gath .. => startGath s b c
  | .hist .. => s.putBlock (putHead b q { c with started := true, units := (bitsAt c.b 0 18 + 15) / 16 })
  | .qscale .. => s.putBlock (putHead b q { c with started := true, units := qscaleCount c.b / 64 })
  | .coll .. => startColl s b c
  | .srtld .. | .srtgo .. | .srtst .. => startSort s b c
  | _ => s

/-- The head of a queue whose engine works and which waits for no verdict. -/
def workingHead (s : State) (b : Block) (q : EngineQueue) : Option Command :=
  if engineRuns s b q then (headOf b q).filter fun c => c.request.isNone else none

def execEngineCommandStart (block : Nat) (q : EngineQueue) (s : State) : Host.Outcome State Fault Refusal :=
  match s.block? block with
  | some b => match workingHead s b q with
    | some c => eventNext (if c.started then s else startCommand s b q c)
    | none => eventNext s
  | none => eventNext s

/-- Unit u of a copy, gather, quantiser or collective command (R334). -/
def unitOf (u : Nat) (s : State) (b : Block) (c : Command) : State :=
  match c.instr with
  | .bcopy _ _ _ x _ => if x == 1 then bcopyOut s b c u else bcopyIn s b c u
  | .gath .. => gathUnit s b c u
  | .hist .. => histUnit s b c u
  | .qscale .. => qscaleUnit s b c u
  | .coll .. => collUnit s b c u
  | _ => s

/-- One unit of the command at the head of a queue; a BMCAST's units are its granules. -/
def performUnit (s : State) (b : Block) (q : EngineQueue) (c : Command) (choice : Nat) : State :=
  match pickUnit c.done c.units c.ahead choice with
  | none => s
  | some u => unitOf (unitInPrefix s b q c c.done c.ahead u unitOf) s b c

/-! ### The prefix of a queue that stops (R330, R334, R361) -/

/-- The first delivery that fills a gap of a multicast. -/
def gapChoice (s : State) (b : Block) (c : Command) : Option Nat :=
  (castChoices s b c).findIdx? fun q => match c.dests[q.1]? with
    | some d => !d.ahead.isEmpty
    | none => false

/-- One unit below the highest that the head of a queue has begun; a head without such a unit stands as it is. -/
def closeGap (s : State) (b : Block) (q : EngineQueue) : State :=
  match headOf b q with
  | none => s
  | some c =>
    if !c.started || (b.stops.getD (queueBit q) none).isSome then s
    else if !c.ahead.isEmpty then performUnit s b q c 0
    else match gapChoice s b c with
      | some i => castGranule s b c i
      | none => s

/-- A queue that must stop goes on to the prefix of R334: its launch is held by a gang halt, or its block has stopped in a
pre-emption (R336, R361). -/
def queueStopping (s : State) (b : Block) (q : EngineQueue) : Bool :=
  !engineRuns s b q && ctxRuns s b.ctx && (headOf b q).any fun c =>
    c.started && c.request.isNone && (!c.ahead.isEmpty || (gapChoice s b c).isSome)

/-- The engine completes every unit below the highest one that it has begun (R334). -/
def closeGaps (block : Nat) (q : EngineQueue) : Nat → State → State
  | 0, s => s
  | n + 1, s => match s.block? block with
    | none => s
    | some b =>
      let t := closeGap s b q
      if (t.block? block).any fun x => queueOf x q != queueOf b q then closeGaps block q n t else t

/-- The queues of a launch's blocks stand at their prefixes, as a gang halt reaches its bound (R334, R361). -/
def closeLaunch (s : State) (launch : Nat) : State :=
  (s.blocks.filter fun b => (s.grid? b.grid).any fun g => g.launch == launch).foldl
    (fun s b => allQueues.foldl (fun s q => closeGaps b.id q 256 s) s) s

def execEngineUnitWrite (block : Nat) (q : EngineQueue) (choice : Nat) (s : State) : Host.Outcome State Fault Refusal :=
  match s.block? block with
  | some b => match workingHead s b q with
    | some c => eventNext (if c.started then performUnit s b q c choice else s)
    | none => eventNext (if queueStopping s b q then closeGap s b q else s)
  | none => eventNext s

def execMatrixGrant (block : Nat) (s : State) : Host.Outcome State Fault Refusal :=
  match s.block? block with
  | some b => eventNext (if (workingHead s b .matrix).isSome then grantMatrix s b else s)
  | none => eventNext s

def execSortStep (block : Nat) (s : State) : Host.Outcome State Fault Refusal :=
  match s.block? block with
  | some b => eventNext (if (workingHead s b .sort).isSome then sortStepOf s b else s)
  | none => eventNext s

def execSortTransferRow (block : Nat) (s : State) : Host.Outcome State Fault Refusal :=
  match s.block? block with
  | some b => eventNext (if (workingHead s b .sort).isSome then transferStep s b else s)
  | none => eventNext s

/-- One granule of one destination of the multicast at the head of a copy queue (R81). -/
def castStep (s : State) (b : Block) (c : Command) (choice : Nat) : State :=
  match c.instr with
  | .bmcast .. => if c.started then castGranule s b c choice else s
  | _ => s

def execMulticastGranule (block choice : Nat) (s : State) : Host.Outcome State Fault Refusal :=
  match s.block? block with
  | some b => match workingHead s b .copy with
    | some c => eventNext (castStep s b c choice)
    | none => eventNext s
  | none => eventNext s

/-- An instance of a collective is complete (R84). -/
def execCollInstanceComplete (ctx group inst : Nat) (s : State) : Host.Outcome State Fault Refusal :=
  eventNext (completeInstance s ctx group inst)

end Sys2Proof.Machine
end

