-- ==== Sys2Proof/Machine/Cp.lean ====
section
/-!
DEFINITION. Sys2Proof/Machine/Cp.lean: the command processor's accesses to memory and what a verdict makes of them (spec/20, R401),
completion and result records (R307), stopping a queue (R299, R303), tenants and their tokens (R311, R312), and taking packets
from rings (R300 to R304, R323).
-/

namespace Sys2Proof.Machine

/-! ### Accesses for a queue (R401) -/

/-- The home isle of a queue (R297). -/
def homeIsle (q : Nat) : Nat := q / 16384

/-- CORE of a request by the command processor or a front end (R28). -/
def frontEndCore : Nat := 0xFF

/-- What an access of the command processor comes to: done, held for a verdict or an answer over ATS, or ended by a Fail
verdict. -/
inductive CpResult (α : Type) where
  | ok (s : State) (v : α)
  | held (s : State)
  | failed (s : State)

/-- A miss makes its request and holds the queue; an address that is not canonical and a peer that no link reaches end the
access at once, as a Fail verdict does (R13, R391, R401). -/
def cpMiss {α : Type} (s : State) (q : Queue) (c : Context) (va : Dword) (k : Access) (m : MissCause) : CpResult α :=
  if !asksVerdict m then .failed s
  else
    let (s1, seq) := requestResolution s (homeIsle q.index) c va k m frontEndCore
    .held (s1.putQueue { q with request := some (seq, va) })

/-- The queue waits for the answer to an ATS request (R25, R401). -/
def cpAwait (s : State) (q : Queue) (c : Context) (va : Dword) (k : Access) : State :=
  let (s1, seq) := requestAts s (homeIsle q.index) c va k frontEndCore
  s1.putQueue { q with request := some (seq, va) }

/-- Translates one address for a queue. -/
def cpReach (s : State) (qi : Nat) (k : Access) (va : Dword) : CpResult Place :=
  match s.queue? qi with
  | none => .failed s
  | some q => match s.ctx? q.ctx with
    | none => .failed s
    | some c =>
      if q.failedAt = some va then .failed (s.putQueue { q with failedAt := none })
      else if !canonical va then cpMiss s q c va k .nonCanonical
      else match translate s c (homeIsle qi) va k with
        | .ok p => .ok (cacheLeaf s c (homeIsle qi) va) p
        | .miss m => cpMiss s q c va k m
        | .wait => .held (cpAwait s q c va k)

/-- An uncorrectable error that the front end consumes halts the queue's context (R70, R328, R343). -/
def frontEndEcc (s : State) (qi : Nat) : State :=
  match s.queue? qi with
  | some q => haltContext s q.ctx ⟨0x17, 0, haltAgentCode .frontEnd, homeIsle qi, 0, 0, 0⟩ []
  | none => s

/-- Reads n bytes, page by page; `fuel` bounds the pieces. -/
def cpReadFrom (qi : Nat) (k : Access) : Nat → State → Dword → Nat → List Byte → CpResult (List Byte)
  | 0, s, _, _, acc => .ok s acc
  | fuel + 1, s, va, n, acc =>
    if n = 0 then .ok s acc
    else match cpReach s qi k va with
      | .held s1 => .held s1
      | .failed s1 => .failed s1
      | .ok s1 p =>
        let m := pieceLen va n
        if farBad s1 p.loc m then .failed (frontEndEcc s1 qi)
        else cpReadFrom qi k fuel s1 (va + BitVec.ofNat 64 m) (n - m) (acc ++ readLoc s1 p.loc m)

def cpRead (s : State) (qi : Nat) (k : Access) (va : Dword) (n : Nat) : CpResult (List Byte) :=
  cpReadFrom qi k (n / 4096 + 2) s va n []

/-- Writes bytes, page by page. -/
def cpWriteFrom (qi : Nat) (k : Access) : Nat → State → Dword → List Byte → CpResult Unit
  | 0, s, _, _ => .ok s ()
  | fuel + 1, s, va, bs =>
    if bs.isEmpty then .ok s ()
    else match cpReach s qi k va with
      | .held s1 => .held s1
      | .failed s1 => .failed s1
      | .ok s1 p =>
        let m := pieceLen va bs.length
        cpWriteFrom qi k fuel (writeLoc s1 p.loc (bs.take m)) (va + BitVec.ofNat 64 m) (bs.drop m)

def cpWrite (s : State) (qi : Nat) (k : Access) (va : Dword) (bs : List Byte) : CpResult Unit :=
  cpWriteFrom qi k (bs.length / 4096 + 2) s va bs

/-- Writes the pieces of a record in order. -/
def cpWritePieces (qi : Nat) (va : Dword) : State → List (Nat × List Byte) → CpResult Unit
  | s, [] => .ok s ()
  | s, (o, bs) :: rest => match cpWrite s qi .store (va + BitVec.ofNat 64 o) bs with
    | .ok s1 _ => cpWritePieces qi va s1 rest
    | .held s1 => .held s1
    | .failed s1 => .failed s1

/-! ### Packets, publication and records (R299, R301, R303, R307) -/

/-- Changes a queue. -/
def onQueue (s : State) (qi : Nat) (f : Queue → Queue) : State :=
  match s.queue? qi with
  | some q => s.putQueue (f q)
  | none => s

/-- A packet of a queue has completed. -/
def packetDone (serial : Nat) (q : Queue) : Queue := { q with openPackets := q.openPackets.filter (· != serial) }

/-- The packet in hand has been processed. -/
def leaveHand (q : Queue) : Queue := { q with wait := .none }

/-- The read index is to be published at RPTR. -/
def oweRptr (q : Queue) : Queue :=
  match q.next with
  | some j => { q with owed := q.owed ++ [⟨q.rptr, [(0, leBytes 8 j)], none⟩], sincePub := 0 }
  | none => q

/-- The device stops a running queue with QSTAT 1; it publishes the index after the packet that stopped it (R299). -/
def stopQueue (s : State) (qi : Nat) (publish : Bool) : State :=
  match s.queue? qi with
  | none => s
  | some q =>
    if q.qstat != 0 then s.putQueue (leaveHand (packetDone q.taken q))
    else
      let q1 := leaveHand (packetDone q.taken q)
      writeQstat s (if publish then oweRptr q1 else q1) 1

/-- The owed writes of a queue perform in order, as far as they translate. -/
def payOwed (qi : Nat) : Nat → State → State
  | 0, s => s
  | fuel + 1, s => match s.queue? qi with
    | none => s
    | some q =>
      if q.request.isSome then s
      else match q.owed with
        | [] => s
        | o :: rest =>
          let drop := fun s : State => onQueue s qi fun q =>
            (match o.packet with | some n => packetDone n q | none => q)
          match cpWritePieces qi o.va s o.pieces with
          | .held s1 => s1
          | .ok s1 _ => payOwed qi fuel (onQueue (drop s1) qi fun q => { q with owed := rest })
          | .failed s1 =>
            let s2 := onQueue (drop s1) qi fun q => { q with owed := rest }
            payOwed qi fuel (match s2.queue? qi with
              | some q => if q.qstat != 0 then s2 else writeQstat s2 (if o.va = q.rptr then q else oweRptr q) 1
              | none => s2)

def owedFuel : Nat := 64

/-- Adds an owed write and performs what can be performed. -/
def owe (s : State) (qi : Nat) (o : Owed) : State :=
  payOwed qi owedFuel (onQueue s qi fun q => { q with owed := q.owed ++ [o] })

/-- A packet completes through a record: STATUS, then CVAL (R307); with CMPL 0 it completes without one. -/
def completeRecord (s : State) (qi serial : Nat) (cmpl cval : Dword) (status : Nat) : State :=
  if cmpl = 0 then onQueue s qi (packetDone serial)
  else owe s qi ⟨cmpl, [(12, leBytes 4 status), (0, leBytes 8 cval.toNat)], some serial⟩

/-! ### Tenants (R311, R312) -/

/-- A tenant record. -/
structure Tenant where
  refill  : Nat
  cap     : Int
  bal     : Int
  debt    : Nat
  maxdebt : Nat
  lend    : Bool
  deriving DecidableEq, Repr

def signed32 (n : Nat) : Int := if n < 2 ^ 31 then n else (n : Int) - 2 ^ 32

def tenantAddr (s : State) (isle t : Nat) : Nat := baseOf (s.isle isle).tenb + 32 * t

def readTenant (s : State) (isle t : Nat) : Tenant :=
  let f := fun o => leNat (readBytes s.hbm (tenantAddr s isle t + o) 4)
  ⟨f 0, f 4, signed32 (f 8), f 12, f 16, f 20 % 2 == 1⟩

/-- The device writes BAL and DEBT. -/
def writeTenant (s : State) (isle t : Nat) (bal : Int) (debt : Nat) : State :=
  let bytes := leBytes 4 (bal % 2 ^ 32).toNat ++ leBytes 4 debt
  { s with hbm := hbmPut s.hbm (tenantAddr s isle t + 8) bytes }

def tenantOf (s : State) (ctx : Nat) : Nat :=
  match s.ctx? ctx with
  | some c => c.tenant
  | none => 0

/-- A tenant has a ready packet or a placed block on an isle. -/
def tenantBusy (s : State) (isle t : Nat) : Bool :=
  s.queues.any (fun q => homeIsle q.index == isle && tenantOf s q.ctx == t && (q.readySince.isSome || q.wait != .none)) ||
  s.blocks.any fun b => b.isle == isle && !b.ended && !ctxSaved s b.ctx && tenantOf s b.ctx == t

/-- The tenant from whom a tenant may borrow one token (R312). -/
def lenderFor (s : State) (isle t : Nat) : Option Nat :=
  let me := readTenant s isle t
  if me.debt < me.maxdebt then
    (List.range 256).find? fun l => l != t && (readTenant s isle l).lend && decide (0 < (readTenant s isle l).bal) &&
      !tenantBusy s isle l
  else none

/-- A tenant may be served: it has BAL > 0, or can borrow (R311), on an isle whose scheduler image runs (R322, R393). -/
def tenantMay (s : State) (isle t : Nat) : Bool :=
  !s.platform.refused.contains isle && (decide (0 < (readTenant s isle t).bal) || (lenderFor s isle t).isSome)

/-- The scheduler serves the tenant of a context (R311). -/
def tenantServed (s : State) (isle ctx : Nat) : Bool := tenantMay s isle (tenantOf s ctx)

/-- How far a tenant stands behind the one served last, in round robin (R311). -/
def tenantRank (s : State) (isle t : Nat) : Nat := (t + 256 - mapGet 0 s.served isle % 256) % 256

/-- It is a tenant's turn: no other that may be served and wants the same comes before it in round robin (R311; a borrower takes
its turn as any other, log 18). -/
def tenantTurn (s : State) (isle t : Nat) (wants : Nat → Bool) : Bool :=
  tenantMay s isle t && s.contexts.all fun c =>
    c.tenant == t || decide (tenantRank s isle t < tenantRank s isle c.tenant) || !wants c.tenant || !tenantMay s isle c.tenant

/-- The tenant has been served; the next one's turn comes. -/
def markServed (s : State) (isle t : Nat) : State := { s with served := mapSet 0 s.served isle (t + 1) }

/-- A token lent joins the youngest loan, if that has the same parties. -/
def addLoan : List Loan → Nat → Nat → Nat → List Loan
  | [], isle, l, t => [⟨isle, l, t, 1⟩]
  | [x], isle, l, t =>
    if x.isle == isle && x.lender == l && x.borrower == t then [{ x with tokens := x.tokens + 1 }]
    else [x, ⟨isle, l, t, 1⟩]
  | x :: rest, isle, l, t => x :: addLoan rest isle l t

/-- One token of a block's tenant is used: from its balance, or borrowed (R311, R312). -/
def chargeToken (s : State) (isle t : Nat) : State :=
  let me := readTenant s isle t
  if 0 < me.bal then writeTenant s isle t (me.bal - 1) me.debt
  else match lenderFor s isle t with
    | some l =>
      let other := readTenant s isle l
      let s1 := writeTenant (writeTenant s isle l (other.bal - 1) other.debt) isle t me.bal (me.debt + 1)
      { s1 with loans := addLoan s1.loans isle l t }
    | none => writeTenant s isle t (me.bal - 1) me.debt

def execTenantTokenCharge (block : Nat) (s : State) : Host.Outcome State Fault Refusal :=
  match s.block? block with
  | some b => eventNext (if b.ended || ctxSaved s b.ctx then s else chargeToken s b.isle (tenantOf s b.ctx))
  | none => eventNext s

/-- Repays n tokens of a borrower to its lenders, oldest loan first: the loans left and the credits. -/
def repayLoans : List Loan → Nat → Nat → Nat → List Loan × List (Nat × Nat)
  | [], _, _, _ => ([], [])
  | x :: rest, isle, t, n =>
    if x.isle == isle && x.borrower == t then
      let m := min n x.tokens
      let (ls, cs) := repayLoans rest isle t (n - m)
      (if m = x.tokens then ls else { x with tokens := x.tokens - m } :: ls, if m = 0 then cs else (x.lender, m) :: cs)
    else
      let (ls, cs) := repayLoans rest isle t n
      (x :: ls, cs)

/-- A lender's credit is capped by CAP. -/
def creditTenant (s : State) (isle : Nat) (c : Nat × Nat) : State :=
  let x := readTenant s isle c.1
  writeTenant s isle c.1 (min x.cap (x.bal + c.2)) x.debt

/-- One tenant at a period boundary: repayment and refill; the credits go to `cs`. -/
def refillTenant (isle : Nat) (acc : State × List (Nat × Nat)) (t : Nat) : State × List (Nat × Nat) :=
  let (s, cs) := acc
  let x := readTenant s isle t
  let repay := min x.debt (x.refill / 2)
  let (ls, new) := repayLoans s.loans isle t repay
  (writeTenant { s with loans := ls } isle t (min x.cap (x.bal + x.refill - repay)) (x.debt - repay), cs ++ new)

def periodBoundary (s : State) (isle : Nat) : State :=
  let (s1, cs) := (List.range 256).foldl (refillTenant isle) (s, [])
  cs.foldl (fun s c => creditTenant s isle c) s1

def execTenantPeriodBoundary (isle : Nat) (s : State) : Host.Outcome State Fault Refusal :=
  eventNext (periodBoundary s isle)

/-! ### Taking packets (R300 to R304, R323) -/

/-- Doubleword i of a packet, and byte i of it. -/
def packetWord (p : Packet) (i : Nat) : Dword := p.words.getD i 0
def packetByte (p : Packet) (i : Nat) : Nat := (packetWord p (i / 8)).toNat / 2 ^ (8 * (i % 8)) % 256
def packetType (p : Packet) : Nat := packetByte p 0

/-- The step that a packet's type names; none for a TYPE that is not listed (R303). -/
def packetEvent (p : Packet) : Option Instr :=
  match packetType p with
  | 1 => some (.launch p) | 2 => some (.gang p) | 3 => some (.graph p) | 4 => some (.vwrite p) | 5 => some (.vwait p)
  | 6 => some (.qfence p) | 7 => some (.codepub p) | 8 => some (.capstart p) | 9 => some (.capstop p)
  | _ => none

/-- The header's reserved bits are zero, and ISLES but for a GANG (R303). -/
def headerBad (p : Packet) : Bool :=
  let h := (packetWord p 0).toNat
  h / 2 ^ 10 % 2 ^ 5 != 0 || h / 2 ^ 24 != 0 || (packetType p != 2 && h / 2 ^ 16 % 2 ^ 8 != 0)

def slotsOf (q : Queue) : Nat := 2 ^ q.log2

/-- The slot of index j shows a packet (R300). -/
def slotFilled (q : Queue) (j header : Nat) : Bool := header % 256 != 0 && header / 2 ^ 15 % 2 == j / slotsOf q % 2

/-- The queue may take packets. -/
def queueTakes (q : Queue) : Bool :=
  q.enabled && q.qstat == 0 && q.wait == .none && q.request.isNone && q.owed.isEmpty

/-- The index that a queue starts at is the word at RPTR (R299). -/
def learnIndex (s : State) (qi : Nat) (q : Queue) : State :=
  match q.next with
  | some _ => s
  | none => match cpRead s qi .load q.rptr 8 with
    | .ok s1 bs => onQueue s1 qi fun q => { q with next := some (leNat bs) }
    | .held s1 => s1
    | .failed s1 => stopQueue s1 qi false

/-- The slot of the next index, if it is filled. -/
def readSlot (s : State) (qi : Nat) (q : Queue) : State × Option Packet :=
  match q.next with
  | none => (s, none)
  | some j => match cpRead s qi .load (q.ring + BitVec.ofNat 64 (64 * (j % slotsOf q))) 64 with
    | .ok s1 bs =>
      let ws := (List.range 8).map fun i => BitVec.ofNat 64 (leNat ((bs.drop (8 * i)).take 8))
      (s1, if slotFilled q j (leNat (bs.take 8)) then some ⟨qi, ws⟩ else none)
    | .held s1 => (s1, none)
    | .failed s1 => (stopQueue s1 qi true, none)

/-- Looks at a ring: its next packet is ready once its slot is filled. -/
def lookAt (s : State) (qi : Nat) : State :=
  match s.queue? qi with
  | none => s
  | some q =>
    if !queueTakes q then s
    else
      let s1 := learnIndex s qi q
      match s1.queue? qi with
      | none => s1
      | some q1 =>
        if !queueTakes q1 then s1
        else
          let (s2, p) := readSlot s1 qi q1
          match p with
          | some _ => onQueue s2 qi fun q => { q with readySince := some (q.readySince.getD s.clock) }
          | none => s2

/-- The open packets of the queue that a QFENCE names, as they stand when it is taken (R309). -/
def namedOpen (s : State) (p : Packet) : List Nat :=
  if packetType p = 6 then
    match s.queue? ((packetWord p 1).toNat % 2 ^ 17) with
    | some o => o.openPackets
    | none => []
  else []

/-- The code objects of a queue's context (R304, R381). -/
def codeOf (s : State) (q : Queue) : List CodeObject :=
  match s.ctx? q.ctx with
  | some c => c.objects
  | none => []

/-- Takes the packet of a ready queue, with the code versions and the open packets that stand now (R304, R309, R381), and
publishes the read index when it is due (R301). -/
def takePacket (s : State) (qi : Nat) : State :=
  match s.queue? qi with
  | none => s
  | some q =>
    if !queueTakes q then s
    else match readSlot s qi q with
      | (s1, none) => onQueue s1 qi fun q => { q with readySince := none }
      | (s1, some p) =>
        let take := fun q : Queue =>
          let q1 := { q with
            next := q.next.map fun j => (j + 1) % 2 ^ 64, taken := q.taken + 1, openPackets := q.openPackets ++ [q.taken + 1],
            sincePub := q.sincePub + 1, wait := .packet p, readySince := none, heldCode := codeOf s q,
            heldOpen := namedOpen s p }
          if 2 ^ q.pubn ≤ q1.sincePub || packetByte p 1 % 2 == 1 then oweRptr q1 else q1
        let s2 := payOwed qi owedFuel (onQueue s1 qi take)
        match packetEvent p with
        | some i => { s2 with agenda := .event i :: s2.agenda }
        | none => stopQueue s2 qi true

/-- The ready queues of a tenant on an isle (R323). -/
def readyQueues (s : State) (isle t : Nat) : List Queue :=
  s.queues.filter fun q => homeIsle q.index == isle && tenantOf s q.ctx == t && q.readySince.isSome && queueTakes q

/-- The ready queue whose packet became ready earliest. -/
def earliestQueue (qs : List Queue) : Option Queue :=
  match qs with
  | [] => none
  | q :: rest => some (rest.foldl (fun m x => if x.readySince.getD 0 < m.readySince.getD 0 then x else m) q)

/-- A dequeue opportunity of an isle goes to a tenant in its turn (R311). -/
def dequeueTurn (s : State) (isle t : Nat) : Bool := tenantTurn s isle t fun u => !(readyQueues s isle u).isEmpty

/-- The scheduler takes a packet of a tenant's queue in the tenant's turn. -/
def dequeue (s : State) (isle t qi : Nat) : State :=
  if dequeueTurn s isle t then takePacket (markServed s isle t) qi else s

/-- The scheduler's default choice: the queue whose packet became ready earliest (R323, R393). -/
def defaultChoice (s : State) (isle t : Nat) : State :=
  match earliestQueue (readyQueues s isle t) with
  | some q => dequeue s isle t q.index
  | none => s

/-- A tenant's plug-in runs: its image has passed its checks (R393). -/
def pluginStands (s : State) (t : Nat) : Bool := s.platform.plugins.contains t

/-- A ready queue is served at once where its tenant has no other ready queue; otherwise the plug-in is asked, and without one
the default choice stands (R311, R323, R393). -/
def serveQueue (s : State) (qi : Nat) : State :=
  match s.queue? qi with
  | none => s
  | some q =>
    let isle := homeIsle qi
    let t := tenantOf s q.ctx
    if q.readySince.isNone then s
    else if (readyQueues s isle t).length == 1 then dequeue s isle t qi
    else if pluginStands s t then s
    else defaultChoice s isle t

/-- A plug-in's choice: the queue that it names if that is ready, otherwise the one ready earliest, which is counted. -/
def pluginChoice (s : State) (isle t : Nat) (choice : Option Nat) : State :=
  let ready := readyQueues s isle t
  if ready.length ≤ 1 || !pluginStands s t then s
  else match choice.bind fun n => ready.find? fun q => q.index == n with
    | some q => dequeue s isle t q.index
    | none => defaultChoice (s.putIsle isle { s.isle isle with replaced := (s.isle isle).replaced + 1 }) isle t

def execPluginAnswer (isle tenant queue : Nat) (s : State) : Host.Outcome State Fault Refusal :=
  eventNext (pluginChoice s isle tenant (some queue))

def execPluginAnswerTimeout (isle tenant : Nat) (s : State) : Host.Outcome State Fault Refusal :=
  eventNext (pluginChoice s isle tenant none)

/-- A fence is over once every packet that it recorded has completed (R309). -/
def fenceOver (s : State) (other : Nat) (serials : List Nat) : Bool :=
  match s.queue? other with
  | some o => serials.all fun n => !o.openPackets.contains n
  | none => true

/-- The packet in hand, if nothing holds its queue. -/
def packetInHand (s : State) (p : Packet) : Option Queue :=
  match s.queue? p.queue with
  | some q => if q.wait = .packet p ∧ q.request.isNone ∧ q.owed.isEmpty then some q else none
  | none => none

/-- Every earlier packet of the queue has completed (R303, R304). -/
def serReady (q : Queue) : Bool := q.openPackets.all (· == q.taken)

/-- A packet with SER, or of a type that acts as if it had it (R304). -/
def packetSer (p : Packet) : Bool := packetByte p 1 / 2 % 2 == 1 || [4, 6, 7, 8, 9].contains (packetType p)

end Sys2Proof.Machine
end

