-- ==== Sys2Proof/Machine/ThreadMem.lean ====
section
/-!
DEFINITION. Sys2Proof/Machine/ThreadMem.lean: the meanings of the thread-set memory instructions (spec/09, R119 to R138;
spec/07, R97; spec/06, R82, R83; spec/16, R274, R278, R400).
-/

namespace Sys2Proof.Machine

/-! ### Loads -/

/-- A load's data type, index kind and offset as its words give them (R120). -/
structure LoadSpec where
  dt  : Nat
  ix  : Nat
  off : Dword
  ordered : Bool
  strong : Bool

/-- The effect of a load once its threads are known: values into the scoreboard, tags, caches and the watch bank. -/
def performLoadGlobal (s : State) (w : Wave) (b : Block) (st : Standing) (op : ThreadOp) (d : BitVec 6) (l : LoadSpec)
    (f : MemForm) (act : Mask) (x : XlatSet) : State :=
  let vals := x.ready.map fun r =>
    (r.thread, if f.decoding then decodeLoad s f.size r else extendData l.dt (readLoc s r.place.loc f.size))
  let mask := maskOfThreads f.single act (x.ready.map (·.thread))
  let w0 := reach w (x.ready.map fun r => placeLevel s st.isle r.place) 0
  let w1 := if mask = 0 then w0
    else addPending w0 ⟨loadRows w d (dataRegs l.dt) f.single vals, mask, none, peerThreads x.ready⟩
  let s1 := x.ready.foldl (fun s r =>
    (touchesOf f r).foldl (fun s t =>
      if t.checked then markGranules s b (accessorWave b w) false f.strong t.loc.addr t.len else s)
      (cacheLeaf s st.ctx st.isle (BitVec.ofNat 64 r.va))) s
  let (s2, w2) := presentAccesses s1 w1 false ((x.ready.zip vals).flatMap fun q =>
    (touchesOf f q.1).map fun t => ⟨q.1.thread, t.va, t.len, 0, false, q.2.2.head?⟩)
  finishMem s2 w2 op st f.access (missedMask f.single w x.missed) 0 x.missed

/-- A load from global memory: LD and SLD (R124 to R128). DESIGN CHOICE (log 12): the shape fault of a load comes before the checks of
its addresses; the manual gives no order. -/
def loadGlobal (s : State) (w : Wave) (b : Block) (st : Standing) (op : ThreadOp) (d : BitVec 6) (l : LoadSpec)
    (f : MemForm) (act : Mask) : State :=
  let ts := performers f act
  match loadShapeFault w d (dataRegs l.dt) f.single, addressFault f b ts with
  | some q, _ => haltWave s w 0x12 q []
  | none, some c => takeTrap s w c
  | none, none =>
    let x := translateWave s st w f ts
    if !x.waits.isEmpty then waitXlat s w.id st f.access x.waits
    else if (f.ordered || f.decoding) && !x.missed.isEmpty then missWhole s w st f.access x.missed
    else if f.decoding && x.ready.any (fun r => !decodeAligned (placeFmt r.place) f.size r.va) then takeTrap s w 0x02
    else match lowestRace (x.ready.flatMap fun r =>
        globalRacesOf s b (accessorWave b w) false f.strong r.thread (touchesOf f r)) with
      | some r => raceWave s w b false .read r
      | none => performLoadGlobal s w b st op d l f act x

/-- A load from scratchpad: LDS and SLD.sp (R55, R124, R125). -/
def loadScratch (s : State) (w : Wave) (b : Block) (st : Standing) (op : ThreadOp) (d : BitVec 6) (l : LoadSpec) (f : MemForm)
    (act : Mask) : State :=
  let ts := performers f act
  match loadShapeFault w d (dataRegs l.dt) f.single, addressFault f b ts with
  | some q, _ => haltWave s w 0x12 q []
  | none, some c => takeTrap s w c
  | none, none =>
    let ws := s.wavesOf b.id
    let x := accessorWave b w
    match lowestRace (ts.flatMap fun i => scratchRacesOf b ws x false i (f.addr i).toNat f.size) with
    | some r => raceWave s w b true .read r
    | none =>
      let vals := ts.map fun i => (i, extendData l.dt (readBytes b.scratch (f.addr i).toNat f.size))
      let mask := maskOfThreads f.single act ts
      let w1 := if mask = 0 then w else addPending w ⟨loadRows w d (dataRegs l.dt) f.single vals, mask, none, []⟩
      let b1 := markRead s b x (ts.flatMap fun i => wordsOf (f.addr i).toNat f.size)
      finishScratch (s.putBlock b1) w1 op st (vals.map fun q => ⟨q.1, (f.addr q.1).toNat, f.size, 0, true, q.2.head?⟩)

/-- The form of a load from its rows. -/
def loadForm (glob : Bool) (l : LoadSpec) (src : BitVec 6 → VRow) (a b : BitVec 6) : MemForm :=
  let (lo, hi, ib) := (src a, src (a + 1), src b)
  { glob := glob, access := .load, kind := .read, size := dataBytes l.dt, decoding := glob && decide (7 ≤ l.dt),
    ordered := l.ordered, strong := l.strong, single := addressUniform glob lo hi ib l.ix, hostOk := true,
    addr := threadAddress glob lo hi ib l.ix (dataBytes l.dt) l.off }

/-- The operands of a load. -/
def loadOp (f : TR) (glob : Bool) (l : LoadSpec) : ThreadOp :=
  memOp 2 f.s (addressFields glob f.a f.b l.ix) (dataFields l.dt f.d)

/-- A load performs thread by thread in several passes only where it is neither made once, ordered nor decoding (R26, R124). -/
def loadPass (f : MemForm) (w : Wave) : Wave :=
  if f.glob && !f.single && !f.ordered && !f.decoding then w else { w with rest := 0 }

def runLoad (i : Instr) (f : TR) (glob : Bool) (l : LoadSpec) (s : State) : Host.Outcome State Fault Refusal :=
  runMem i (loadOp f glob l) false s fun s w b st src =>
    let form := loadForm glob l src f.a f.b
    let w1 := loadPass form w
    if glob then loadGlobal s w1 b st (loadOp f glob l) f.d l form (memThreads w1 f.g)
    else loadScratch s w1 b st (loadOp f glob l) f.d l form (memThreads w1 f.g)

/-- LD, LDS, ST, STS fields (R120). -/
def plainSpec (x : TX) : LoadSpec := ⟨x.m.toNat / 4, x.m.toNat % 4, x.i.signExtend 64, false, false⟩

/-- The scope of a strong access reaches the agents that the tags judge (R130, R400). -/
def strongScope (glob : Bool) (scp : Nat) : Bool := if glob then decide (4 ≤ scp) else decide (1 ≤ scp)

/-- SLD, SST fields (R120). -/
def strongSpec (x : TX) : LoadSpec :=
  ⟨x.c.toNat / 8, x.c.toNat % 4, x.i.signExtend 64, x.m.toNat / 8 != 0, strongScope (!x.c.getLsbD 2) (x.m.toNat % 8)⟩

def execLd (f : TR) (x : TX) (s : State) := runLoad (.ld f x) f true (plainSpec x) s
def execLds (f : TR) (x : TX) (s : State) := runLoad (.lds f x) f false (plainSpec x) s
def execSld (f : TR) (x : TX) (s : State) := runLoad (.sld f x) f (!x.c.getLsbD 2) (strongSpec x) s

/-! ### Stores -/

/-- The data words of a thread. -/
def storeWords (src : BitVec 6 → VRow) (d : BitVec 6) (dt i : Nat) : List Word :=
  (List.range (dataRegs dt)).map fun j => rowAt (src (d + BitVec.ofNat 6 j)) i

/-- The bytes that a thread stores: the low bytes of its data (R125). -/
def storeBytes (src : BitVec 6 → VRow) (d : BitVec 6) (dt i : Nat) : List Byte :=
  ((storeWords src d dt i).flatMap fun v => leBytes 4 v.toNat).take (dataBytes dt)

/-- Writes of ready threads in ascending order, so that the highest wins (R126), with their tags. -/
def storeAll (s : State) (w : Wave) (b : Block) (st : Standing) (f : MemForm) (bytes : Nat → List Byte)
    (rs : List Ready) : State :=
  rs.foldl (fun s r =>
    let s1 := writeLoc (cacheLeaf s st.ctx st.isle (BitVec.ofNat 64 r.va)) r.place.loc (bytes r.thread)
    if placeChecked r.place then markGranules s1 b (accessorWave b w) true f.strong r.place.loc.addr f.size else s1) s

def storeGlobal (s : State) (w : Wave) (b : Block) (st : Standing) (op : ThreadOp) (f : MemForm)
    (words : Nat → List Word) (bytes : Nat → List Byte) (act : Mask) : State :=
  let s := clearIdem s b
  let b := { b with idem := false }
  let ts := performers f act
  match addressFault f b ts with
  | some c => takeTrap s w c
  | none =>
    let x := translateWave s st w f ts
    if !x.waits.isEmpty then waitXlat s w.id st f.access x.waits
    else if f.ordered && !x.missed.isEmpty then missWhole s w st f.access x.missed
    else match lowestRace (x.ready.flatMap fun r =>
        globalRacesOf s b (accessorWave b w) true f.strong r.thread (touchesOf f r)) with
      | some r => raceWave s w b false .write r
      | none =>
        let s1 := storeAll s w b st f bytes x.ready
        let w1 := reach w (x.ready.map fun r => placeLevel s st.isle r.place) 0
        let (s2, w2) := presentAccesses s1 w1 false (x.ready.map fun r =>
          ⟨r.thread, r.va, f.size, 1, false, (words r.thread).head?⟩)
        finishMem s2 w2 op st f.access (missedMask f.single w x.missed) 0 x.missed

def storeScratch (s : State) (w : Wave) (b : Block) (st : Standing) (op : ThreadOp) (f : MemForm)
    (words : Nat → List Word) (bytes : Nat → List Byte) (act : Mask) : State :=
  let ts := performers f act
  match addressFault f b ts with
  | some c => takeTrap s w c
  | none =>
    let x := accessorWave b w
    match lowestRace (ts.flatMap fun i => scratchRacesOf b (s.wavesOf b.id) x true i (f.addr i).toNat f.size) with
    | some r => raceWave s w b true .write r
    | none =>
      let b1 := ts.foldl (fun b i => { b with scratch := writeBytes b.scratch (f.addr i).toNat (bytes i) }) b
      let b2 := markWrite b1 x f.strong (ts.map fun i => ((f.addr i).toNat, f.size))
      finishScratch (s.putBlock b2) w op st (ts.map fun i => ⟨i, (f.addr i).toNat, f.size, 1, true, (words i).head?⟩)

def storeForm (glob : Bool) (l : LoadSpec) (src : BitVec 6 → VRow) (d a b : BitVec 6) : MemForm :=
  let (lo, hi, ib) := (src a, src (a + 1), src b)
  { glob := glob, access := .store, kind := .write, size := dataBytes l.dt, decoding := false, ordered := l.ordered,
    strong := l.strong, hostOk := true,
    single := addressUniform glob lo hi ib l.ix &&
      (List.range (dataRegs l.dt)).all fun j => rowIsU (src (d + BitVec.ofNat 6 j)),
    addr := threadAddress glob lo hi ib l.ix (dataBytes l.dt) l.off }

def storeOp (f : TR) (glob : Bool) (l : LoadSpec) : ThreadOp :=
  memOp 2 f.s (dataFields l.dt f.d ++ addressFields glob f.a f.b l.ix) []

def runStore (i : Instr) (f : TR) (glob : Bool) (l : LoadSpec) (s : State) : Host.Outcome State Fault Refusal :=
  runMem i (storeOp f glob l) false s fun s w b st src =>
    let form := storeForm glob l src f.d f.a f.b
    let words := storeWords src f.d l.dt
    let bytes := storeBytes src f.d l.dt
    if glob then storeGlobal s w b st (storeOp f glob l) form words bytes (memThreads w f.g)
    else storeScratch s w b st (storeOp f glob l) form words bytes (memThreads w f.g)

/-- The bytes of a list that a mask names, at their addresses. -/
def maskedBytes (mask : BitVec 16) (bs : List Byte) : List (Nat × Byte) :=
  (bs.zipIdx.filter fun q => mask.getLsbD q.2).map fun q => (q.2, q.1)

/-- Some bytes of a store become visible before the store performs, in threads on unchecked pages (R276, log 14). Where a check
of the instruction would fail, nothing happens. -/
def tearStore (i : Instr) (f : TR) (l : LoadSpec) (threads : Mask) (bytes : BitVec 16) (s : State) (w : Wave) : State :=
  let op := storeOp f true l
  match threadCheck i op w, waveStanding s w, s.block? w.block with
  | .go, some st, some b =>
    let src := sourceRow (readsG w op) w s.fresh
    let form := storeForm true l src f.d f.a f.b
    let ts := (performers form (memThreads w f.g)).filter threads.getLsbD
    if form.ordered || (addressFault form b (performers form (memThreads w f.g))).isSome || op.reads.any (operandStale w) then s
    else
      ((translateWave s st w form ts).ready.filter fun r => !placeChecked r.place).foldl (fun s r =>
        (maskedBytes bytes (storeBytes src f.d l.dt r.thread)).foldl (fun s q =>
          writeLoc s { r.place.loc with addr := r.place.loc.addr + q.1 } [q.2]) s) s
  | _, _, _ => s

def execSt (f : TR) (x : TX) (s : State) := runStore (.st f x) f true (plainSpec x) s
def execSts (f : TR) (x : TX) (s : State) := runStore (.sts f x) f false (plainSpec x) s
def execSst (f : TR) (x : TX) (s : State) := runStore (.sst f x) f (!x.c.getLsbD 2) (strongSpec x) s

/-! ### Atomics and CAS (R131 to R134) -/

/-- The new value of an atomic operation on 32 or 64 bits (R131). -/
def atomicOp (aop : Nat) (wide : Bool) (a b : Nat) : Nat :=
  let n := if wide then 64 else 32
  let m := 2 ^ n
  let sgn := fun x : Nat => if x < m / 2 then (x : Int) else (x : Int) - m
  let fmt := if wide then FpFormat.fp64 else FpFormat.fp32
  match aop with
  | 0 => (a + b) % m
  | 1 => a &&& b
  | 2 => a ||| b
  | 3 => a ^^^ b
  | 4 => if sgn a ≤ sgn b then a else b
  | 5 => if sgn a ≤ sgn b then b else a
  | 6 => min a b
  | 7 => max a b
  | 8 => b
  | 9 => if b ≤ a then 0 else a + 1
  | 10 => if a = 0 ∨ b < a then b else a - 1
  | 11 => (fpAdd fmt .rne a b).code
  | 12 => (fpMinMax fmt false a b).code
  | 13 => (fpMinMax fmt true a b).code
  | _ => (fpAdd .bf16 .rne (a % 65536) (b % 65536)).code + 65536 * (fpAdd .bf16 .rne (a / 65536) (b / 65536)).code

/-- What a thread's atomic does: the new value, or none where a compare fails (R132, R133). -/
structure AtomicSpec where
  wide  : Bool
  ret   : Bool
  off   : Dword
  ordered : Bool
  strong : Bool
  hostOk : Bool
  step  : (BitVec 6 → VRow) → Nat → Nat → Option Nat

/-- The 32- or 64-bit value of a thread in a register or pair. -/
def atomicValue (src : BitVec 6 → VRow) (wide : Bool) (f : BitVec 6) (i : Nat) : Nat :=
  (rowAt (src f) i).toNat + (if wide then (rowAt (src (f + 1)) i).toNat * 2 ^ 32 else 0)

/-- The rows of old values, one or two registers. -/
def oldWords (wide : Bool) (v : Nat) : List Word :=
  if wide then [BitVec.ofNat 32 v, BitVec.ofNat 32 (v / 2 ^ 32)] else [BitVec.ofNat 32 v]

/-- One thread's atomic on global memory, in one step with its tag; the old values gather by thread. -/
def atomicGlobalStep (w : Wave) (b : Block) (st : Standing) (f : MemForm) (new : Nat → Nat → Option Nat)
    (acc : State × List (Nat × Nat)) (r : Ready) : State × List (Nat × Nat) :=
  let s := cacheLeaf acc.1 st.ctx st.isle (BitVec.ofNat 64 r.va)
  let old := readNat s r.place.loc f.size
  let result := new r.thread old
  let s1 := match result with
    | some v => writeLoc s r.place.loc (leBytes f.size v)
    | none => s
  let s2 := if placeChecked r.place then
      markGranules s1 b (accessorWave b w) result.isSome f.strong r.place.loc.addr f.size else s1
  (s2, acc.2 ++ [(r.thread, old)])

/-- One thread's atomic on scratchpad. -/
def atomicScratchStep (s : State) (x : Accessor) (f : MemForm) (new : Nat → Nat → Option Nat)
    (acc : Block × List (Nat × Nat)) (i : Nat) : Block × List (Nat × Nat) :=
  let b := acc.1
  let a := (f.addr i).toNat
  let old := leNat (readBytes b.scratch a f.size)
  let b1 := match new i old with
    | some v => markWrite { b with scratch := writeBytes b.scratch a (leBytes f.size v) } x f.strong [(a, f.size)]
    | none => markRead s b x (wordsOf a f.size)
  (b1, acc.2 ++ [(i, old)])

/-- The old values of an atomic are on their way; `peers` are the threads whose operations went to peers. -/
def pendOld (w : Wave) (d : BitVec 6) (wide ret : Bool) (olds : List (Nat × Nat)) (peers : List (Nat × Nat)) : Wave :=
  if !ret || olds.isEmpty then w
  else addPending w ⟨loadRows w d (if wide then 2 else 1) false (olds.map fun q => (q.1, oldWords wide q.2)),
    maskOfThreads false 0 (olds.map (·.1)), none, peers⟩

def atomicGlobal (s : State) (w : Wave) (b : Block) (st : Standing) (op : ThreadOp) (d : BitVec 6) (a : AtomicSpec)
    (f : MemForm) (new : Nat → Nat → Option Nat) (act : Mask) : State :=
  let ts := performers f act
  match addressFault f b ts with
  | some c => takeTrap s w c
  | none =>
    let x := translateWave s st w f ts
    if !x.waits.isEmpty then waitXlat s w.id st f.access x.waits
    else if f.ordered && !x.missed.isEmpty then missWhole s w st f.access x.missed
    else match lowestRace (x.ready.flatMap fun r =>
        globalRacesOf s b (accessorWave b w) true f.strong r.thread (touchesOf f r)) with
      | some r => raceWave s w b false .rmw r
      | none =>
        if x.ready.any (fun r => (touchesOf f r).any fun t => farBad s t.loc t.len) then haltWave s w 0x17 0 [] else
        let (s1, olds) := x.ready.foldl (atomicGlobalStep w b st f new) (s, [])
        let w1 := reach w (x.ready.map fun r => placeLevel s st.isle r.place) 0
        let (s2, w2) := presentAccesses s1 (pendOld w1 d a.wide a.ret olds (peerThreads x.ready)) false ((x.ready.zip olds).map fun q =>
          ⟨q.1.thread, q.1.va, f.size, 2, false, some (BitVec.ofNat 32 q.2.2)⟩)
        let refused := x.refused.foldl (fun m i => setBit m i true) (0 : Mask)
        finishMem s2 w2 op st f.access (missedMask false w x.missed ||| refused) refused x.missed

def atomicScratch (s : State) (w : Wave) (b : Block) (st : Standing) (op : ThreadOp) (d : BitVec 6) (a : AtomicSpec) (f : MemForm)
    (new : Nat → Nat → Option Nat) (act : Mask) : State :=
  let ts := performers f act
  match addressFault f b ts with
  | some c => takeTrap s w c
  | none =>
    let x := accessorWave b w
    match lowestRace (ts.flatMap fun i => scratchRacesOf b (s.wavesOf b.id) x true i (f.addr i).toNat f.size) with
    | some r => raceWave s w b true .rmw r
    | none =>
      if ts.any (fun i => (wordsOf (f.addr i).toNat f.size).any b.badWords.contains) then haltWave s w 0x17 0 [] else
      let (b1, olds) := ts.foldl (atomicScratchStep s x f new) (b, [])
      finishScratch (s.putBlock b1) (pendOld w d a.wide a.ret olds []) op st
        (olds.map fun q => ⟨q.1, (f.addr q.1).toNat, f.size, 2, true, some (BitVec.ofNat 32 q.2)⟩)

def atomicForm (glob : Bool) (a : AtomicSpec) (src : BitVec 6 → VRow) (r : BitVec 6) : MemForm :=
  { glob := glob, access := .atomic, kind := .rmw, size := if a.wide then 8 else 4, decoding := false,
    ordered := a.ordered, strong := a.strong, single := false, hostOk := a.hostOk,
    addr := threadAddress glob (src r) (src (r + 1)) (.u 0) 0 1 a.off }

/-- The operands of an atomic operation or CAS. -/
def atomicThreadOp (f : TR) (glob : Bool) (a : AtomicSpec) (extra : List VField) : ThreadOp :=
  let data := fun r => if a.wide then pairAt r else single r
  memOp 2 f.s ([if glob then pairAt f.a else single f.a, data f.b] ++ extra) (if a.ret then [data f.d] else [])

def runAtomic (i : Instr) (f : TR) (glob : Bool) (a : AtomicSpec) (extra : List VField) (s : State) :
    Host.Outcome State Fault Refusal :=
  let op := atomicThreadOp f glob a extra
  runMem i op true s fun s w b st src =>
    let form := atomicForm glob a src f.a
    let s1 := if glob then clearIdem s b else s
    let b1 := if glob then { b with idem := false } else b
    match if a.ret then loadShapeFault w f.d (if a.wide then 2 else 1) false else none with
    | some q => haltWave s1 w 0x12 q []
    | none =>
      if glob then atomicGlobal s1 w b1 st op f.d a form (a.step src) (memThreads w f.g)
      else atomicScratch s w b st op f.d a form (a.step src) (memThreads w f.g)

/-- ATOM and ATOMS fields (R120); on host memory only ADD and XCHG perform (R134). -/
def atomSpec (f : TR) (x : TX) (glob : Bool) : AtomicSpec :=
  let aop := x.c.toNat / 4
  let wide := x.c.getLsbD 1
  { wide := wide, ret := !x.c.getLsbD 0, off := x.i.signExtend 64, ordered := x.m.toNat / 8 != 0,
    strong := strongScope glob (x.m.toNat % 8), hostOk := aop == 0 || aop == 8,
    step := fun src i old => some (atomicOp aop wide old (atomicValue src wide f.b i)) }

/-- CAS and CASS fields (R120, R133). -/
def casSpec (f : TR) (x : TX) (glob : Bool) : AtomicSpec :=
  let wide := x.i.getLsbD 11
  { wide := wide, ret := true, off := (x.i.extractLsb' 0 11).signExtend 64, ordered := x.m.toNat / 8 != 0,
    strong := strongScope glob (x.m.toNat % 8), hostOk := true,
    step := fun src i old => if old = atomicValue src wide f.b i then some (atomicValue src wide x.c i) else none }

/-- The swap operand of a CAS. -/
def swapField (x : TX) : List VField := [if x.i.getLsbD 11 then pairAt x.c else single x.c]

def execAtom (f : TR) (x : TX) (s : State) := runAtomic (.atom f x) f true (atomSpec f x true) [] s
def execAtoms (f : TR) (x : TX) (s : State) := runAtomic (.atoms f x) f false (atomSpec f x false) [] s
def execCas (f : TR) (x : TX) (s : State) := runAtomic (.cas f x) f true (casSpec f x true) (swapField x) s
def execCass (f : TR) (x : TX) (s : State) := runAtomic (.cass f x) f false (casSpec f x false) (swapField x) s

/-! ### Fences (R135) -/

/-- FENCE: every earlier access of the wave has performed already in the model's order of accesses (log 1). -/
def execFence (f : TR) (x : TX) (s : State) :=
  runMem (.fence f x) (memOp 2 f.s [] []) false s fun s w _ _ _ => s.putWave (advanceBy w (memOp 2 f.s [] []))

/-! ### Per-thread copies (R82, R83, R136) -/

/-- A CPA's form for its source of n bytes in thread i. -/
def cpaSize (x : TX) : Nat := 4 * 2 ^ (x.m.toNat / 16)
def cpaTag (x : TX) : Nat := x.m.toNat % 8

/-- What one thread's copy asks: destination, source and source bytes. -/
structure CopyAsk where
  thread : Nat
  dst    : Nat
  src    : Dword
  n      : Nat

/-- The checks of R123 and R136 over the threads of a CPA, in order. -/
def cpaFault (b : Block) (size : Nat) (qs : List CopyAsk) : Option Nat :=
  if qs.any (fun q => !canonical q.src) then some 0x01
  else if qs.any (fun q => q.src.toNat % 4 != 0 || q.dst % size != 0) then some 0x02
  else if qs.any (fun q => q.dst + size > 4096 * b.granules) then some 0x03
  else none

/-- Translates a stretch of n bytes that may cross one page end (R136). -/
def translateStretch (s : State) (c : Context) (isle : Nat) (va : Dword) (n : Nat) (k : Access) :
    VaResult (List (Touch × Stretch)) :=
  let here := min n (65536 - va.toNat % 65536)
  let part := fun (p : Place) (v : Dword) (len : Nat) =>
    ((⟨v.toNat, p.loc, len, placeChecked p⟩ : Touch), (⟨spaceCode p.loc.space, p.loc.addr, len⟩ : Stretch))
  if n = 0 then .ok []
  else match translate s c isle va k with
    | .wait => .wait
    | .miss m => .miss m
    | .ok p =>
      if here = n then .ok [part p va n]
      else match translate s c isle (va + BitVec.ofNat 64 here) k with
        | .wait => .wait
        | .miss m => .miss m
        | .ok p2 => .ok [part p va here, part p2 (va + BitVec.ofNat 64 here) (n - here)]

/-- The address of a stretch that missed: the page that did not translate. -/
def missedPart (s : State) (c : Context) (isle : Nat) (va : Dword) (n : Nat) (k : Access) : Dword :=
  match translate s c isle va k with
  | .ok _ => va + BitVec.ofNat 64 (min n (65536 - va.toNat % 65536))
  | _ => va

/-- What the threads of a CPA come to. -/
structure CpaSet where
  ready  : List (CopyAsk × List (Touch × Stretch))
  missed : List (Nat × Dword × MissCause)
  waits  : List (Nat × Dword)

def cpaTranslate (s : State) (c : Context) (isle : Nat) (qs : List CopyAsk) : CpaSet :=
  qs.foldl (fun acc q => match translateStretch s c isle q.src q.n .copyRead with
    | .ok ps => { acc with ready := acc.ready ++ [(q, ps)] }
    | .miss m => { acc with missed := acc.missed ++ [(q.thread, missedPart s c isle q.src q.n .copyRead, m)] }
    | .wait => { acc with waits := acc.waits ++ [(q.thread, missedPart s c isle q.src q.n .copyRead)] }) ⟨[], [], []⟩

/-- The threads of a wave's CPA; after a Fail verdict no access waits any longer (R25, R29). -/
def cpaTranslateWave (s : State) (st : Standing) (w : Wave) (qs : List CopyAsk) : CpaSet :=
  let t := cpaTranslate s st.ctx st.isle qs
  if w.missFailed then { t with missed := t.missed ++ failedWaits t.waits, waits := [] } else t

/-- One thread's copy enters flight: its counter rises, its destination is armed (R82, R282), its source is recorded as
read. -/
def issueCopy (b : Block) (st : Standing) (tag size : Nat) (s : State) (wid : Nat)
    (q : CopyAsk × List (Touch × Stretch)) : State :=
  match s.wave? wid with
  | none => s
  | some w =>
    let s1 := q.2.foldl (fun s p =>
      let s0 := cacheLeaf s st.ctx st.isle (BitVec.ofNat 64 p.1.va)
      if p.1.checked then markGranules s0 b (accessorWave b w) false false p.1.loc.addr p.1.len else s0) s
    s1.putWave { w with
      copies := w.copies ++ [⟨tag, q.1.thread, q.1.dst, size, q.2.map (·.2), w.clock.know⟩],
      copyRanges := w.copyRanges ++ [⟨tag, q.1.dst, size⟩],
      tagCounts := w.tagCounts.modify tag (· + 1) }

def cpaStep (s : State) (w : Wave) (b : Block) (st : Standing) (op : ThreadOp) (f : TR) (x : TX)
    (src : BitVec 6 → VRow) : State :=
  let size := cpaSize x
  let tag := cpaTag x
  if w.tagCounts.getD tag 0 > 4095 - waveWidth then holdWave s w .cpaLimit
  else
    let addr := threadAddress true (src f.a) (src (f.a + 1)) (.u 0) 0 1 (x.i.signExtend 64)
    let qs := (threadsOf (memThreads w f.g)).map fun i =>
      (⟨i, (rowAt (src f.d) i).toNat, addr i, min (rowAt (src f.b) i).toNat size⟩ : CopyAsk)
    match cpaFault b size qs with
    | some c => takeTrap s w c
    | none =>
      let t := cpaTranslateWave s st w qs
      if !t.waits.isEmpty then waitXlat s w.id st .copyRead t.waits
      else match lowestRace (t.ready.flatMap fun q =>
          globalRacesOf s b (accessorWave b w) false false q.1.thread (q.2.map (·.1))) with
        | some r => raceWave s w b false .read r
        | none =>
          let s1 := t.ready.foldl (fun s q => issueCopy b st tag size s w.id q) s
          let reads := t.ready.flatMap fun q =>
            if q.1.n = 0 then [] else [⟨q.1.thread, q.1.src.toNat, q.1.n, 0, false, none⟩]
          let writes := t.ready.map fun q => (⟨q.1.thread, q.1.dst, size, 1, true, none⟩ : WatchAccess)
          match s1.wave? w.id with
          | some w1 =>
            let levels := t.ready.flatMap fun q => q.2.map fun p => placeLevel s st.isle ⟨p.1.loc, 0⟩
            let (s2, w2) := presentAccesses s1 (reach w1 (1 :: levels) 0) false (reads ++ writes)
            finishMem s2 w2 op st .copyRead (missedMask false w t.missed) 0 t.missed
          | none => s1

/-- The operands of a CPA: destination offset, source pair, valid count. -/
def cpaOp (f : TR) : ThreadOp := memOp 2 f.s [single f.d, pairAt f.a, single f.b] []

def execCpa (f : TR) (x : TX) (s : State) :=
  runMem (.cpa f x) (cpaOp f) true s fun s w b st src => cpaStep s w b st (cpaOp f) f x src

/-! ### Full/empty operations (R97, R138) -/

/-- A register of the wave's shared range: its number within the range. -/
def rangeIndex (w : Wave) (f : BitVec 6) : Option (SharedRange × Nat) :=
  match w.range, regOf w f with
  | some r, some (.v n) => if r.first ≤ n && decide (n < r.first + r.len) then some (r, n - r.first) else none
  | _, _ => none

/-- FEW: waits while full, unless the consumer has exited; writes the active threads and sets the bit full (R97, R138). DESIGN CHOICE
(log 12): a wave that belongs to no pair has neither role, and the role is checked first, then the shape, then the bit. -/
def fewStep (f : T1) (op : ThreadOp) (s : State) (w : Wave) (src : BitVec 6 → VRow) : State :=
  match rangeIndex w f.d, rangeIndex w f.a with
  | some (r, n), none =>
    if !r.producer then haltWave s w 0x10 0 []
    else if !shapeFits (fieldRow w f.d) (src f.a) then haltWave s w 0x12 f.d.toNat []
    else
      let gone := (partnerOf s w r).any fun c => c.phase == .exited
      if w.full.getLsbD n && !gone then holdWave s w .fullEmpty
      else
        let w1 := overwrite w (.v (r.first + n)) (src f.a) (participants w f.g)
        s.putWave (advanceBy { w1 with full := setBit w1.full n true } op)
  | _, _ => haltWave s w 0x10 0 []

/-- FER and FEPEEK: wait while empty, and while the producer is not placed yet; deliver the register; FER empties it (R96,
R97). The order of the checks is that of FEW (DESIGN CHOICE, log 12). -/
def ferStep (f : T1) (op : ThreadOp) (peek : Bool) (s : State) (w : Wave) : State :=
  match rangeIndex w f.a, rangeIndex w f.d with
  | some (r, n), none =>
    if r.producer then haltWave s w 0x10 0 []
    else if !shapeFits (fieldRow w f.d) (readReg w (.v (r.first + n))) then haltWave s w 0x12 f.d.toNat []
    else match rangeHolder s w r with
      | none => holdWave s w .fullEmpty
      | some h =>
        let row := readReg h (.v (r.first + n))
        if !h.full.getLsbD n then
          (if w.orphaned then haltWave s w 0x15 f.a.toNat [] else holdWave s w .fullEmpty)
        else
          let s1 := if peek then s else s.putWave { h with full := setBit h.full n false }
          match s1.wave? w.id, regOf w f.d with
          | some w1, some reg =>
            s1.putWave (advanceBy (addPending w1 ⟨[(reg, row)], participants w f.g, none, []⟩) op)
          | _, _ => s1
  | _, _ => haltWave s w 0x10 0 []

def fewOp (f : T1) : ThreadOp := memOp 1 f.s [single f.a] [single f.d]
/-- The shared register of FER and FEPEEK stands in the producer's file; the consumer's own field is not read. -/
def ferOp (f : T1) : ThreadOp := memOp 1 f.s [] [single f.d]

def execFew (f : T1) (s : State) :=
  runMem (.few f) (fewOp f) false s fun s w _ _ src => fewStep f (fewOp f) s w src
def execFer (f : T1) (s : State) :=
  runMem (.fer f) (ferOp f) false s fun s w _ _ _ => ferStep f (ferOp f) false s w
def execFepeek (f : T1) (s : State) :=
  runMem (.fepeek f) (ferOp f) false s fun s w _ _ _ => ferStep f (ferOp f) true s w

end Sys2Proof.Machine
end

