-- ==== Sys2Proof/Machine/Code.lean ====
section
/-!
DEFINITION. Sys2Proof/Machine/Code.lean: Derric images and what CODEPUB checks in them (spec/26, R374 to R378), versions of
code objects (R379 to R381), and reading a kernel's descriptor for a launch (R375, R380).
-/

namespace Sys2Proof.Machine

/-! ### Fields of an image (R374, R375) -/

/-- The n bytes of a byte list at an offset, as a little-endian number. -/
def fieldAt (bs : List Byte) (o n : Nat) : Nat := leNat ((bs.drop o).take n)

/-- Word at a byte offset of the code section. -/
def codeWord (code : List Byte) (o : Nat) : Word := BitVec.ofNat 32 (fieldAt code o 4)

/-- The header fields that CODEPUB reads. -/
structure ImageHeader where
  magic   : Nat
  format  : Nat
  step    : Nat
  nkern   : Nat
  codeOff : Nat
  codeSize : Nat
  textOff : Nat
  threadOps : Nat
  seqOps  : Nat
  deriving DecidableEq, Repr

def imageHeader (bs : List Byte) : ImageHeader :=
  ⟨fieldAt bs 0 4, fieldAt bs 4 2, fieldAt bs 6 1, fieldAt bs 7 1, fieldAt bs 8 4, fieldAt bs 12 4, fieldAt bs 16 4,
    fieldAt bs 32 16, fieldAt bs 48 16⟩

/-- A kernel descriptor's fields (R375), with the offsets and lengths of its lists. -/
structure KernelRecord where
  entry    : Nat
  foot     : Nat
  temps    : Nat
  flags    : Nat
  waves    : Nat
  threads  : Nat
  scratch  : Nat
  accum    : Nat
  zeros    : Bool
  barset   : Nat
  shapes   : Nat
  preOff   : Nat
  npre     : Nat
  nshare   : Nat
  shareOff : Nat
  deriving DecidableEq, Repr

def kernelRecordOf (d : List Byte) : KernelRecord :=
  ⟨fieldAt d 0 4, fieldAt d 4 2, fieldAt d 6 1, fieldAt d 7 1, fieldAt d 8 1, fieldAt d 9 1, fieldAt d 10 2,
    fieldAt d 12 2, fieldAt d 14 2 == 0 && fieldAt d 48 16 == 0, fieldAt d 16 4, fieldAt d 20 16, fieldAt d 36 4,
    fieldAt d 40 2, fieldAt d 42 2, fieldAt d 44 4⟩

/-- A preload entry: class, register, KIND, VALUE. -/
def preloadEntry (e : List Byte) : Nat × Nat × Nat × Dword :=
  (fieldAt e 0 1, fieldAt e 1 1, fieldAt e 2 1, BitVec.ofNat 64 (fieldAt e 8 8))

def preloadsOf (list : List Byte) (n : Nat) : List (Nat × Nat × Nat × Dword) :=
  (List.range n).map fun i => preloadEntry (list.drop (16 * i))

def sharesOf (list : List Byte) (n : Nat) : List (BitVec 32) :=
  (List.range n).map fun i => BitVec.ofNat 32 (fieldAt list (4 * i) 4)

/-! ### Status 1: the image's form (R378) -/

def headerGood (h : ImageHeader) : Bool :=
  h.magic == 0x31435244 && h.format == 1 && h.nkern != 0 && h.codeOff % 64 == 0 && h.codeSize % 4 == 0 &&
  decide (h.codeSize ≤ 0x1000000) && h.textOff % 4 == 0 && decide (h.textOff ≤ h.codeSize) &&
  decide (64 * h.nkern ≤ h.codeSize)

/-- A preload entry's class, KIND, and KIND 3 in the s class alone. -/
def preloadGood (e : Nat × Nat × Nat × Dword) : Bool :=
  1 ≤ e.1 && e.1 ≤ 3 && e.2.2.1 ≤ 4 && (e.2.2.1 != 3 || e.1 == 1)

/-- No two-bit code of a field is 3. -/
def noCodeThree (v n : Nat) : Bool := (List.range n).all fun i => v / 2 ^ (2 * i) % 4 != 3

/-- A descriptor's own fields (R375, R378). The manual calls a misaligned list bad and gives the lists no alignment: a preload list
stands at a multiple of 8, as its VALUEs ask, a shared-range list at a multiple of 4 (DESIGN CHOICE, log 12). -/
def descriptorGood (code : List Byte) (d : KernelRecord) : Bool :=
  let size := code.length
  d.zeros && d.flags / 8 == 0 && noCodeThree d.barset 16 && d.entry % 4 == 0 && d.preOff % 8 == 0 && d.shareOff % 4 == 0 &&
  decide (d.entry < size) && 1 ≤ d.waves && d.waves ≤ 16 && 1 ≤ d.threads && d.threads ≤ 64 && 1 ≤ d.scratch &&
  d.scratch ≤ 128 && d.accum ≤ 32 && d.npre ≤ 80 && d.nshare ≤ 8 && decide (d.preOff + 16 * d.npre ≤ size) &&
  decide (d.shareOff + 4 * d.nshare ≤ size) &&
  (preloadsOf (code.drop d.preOff) d.npre).all preloadGood &&
  (sharesOf (code.drop d.shareOff) d.nshare).all fun e => e.toNat / 2 ^ 17 == 0

/-- The descriptors of a code section. -/
def descriptorsOf (code : List Byte) (n : Nat) : List KernelRecord :=
  (List.range n).map fun k => kernelRecordOf (code.drop (64 * k))

/-! ### Status 2: the opcode list (R114 to R116) -/

/-- The thread-set codes that R114 assigns; 0x7F, the TX word, is ignored. -/
def threadOpAssigned (op : Nat) : Bool :=
  op != 0x1F && op != 0x5F && op != 0x67 && (decide (op ≤ 0x77) || op == 0x7F)

/-- The sequencer-set codes that R115 assigns. -/
def seqOpAssigned (op : Nat) : Bool :=
  op ≤ 0x15 || (0x20 ≤ op && op ≤ 0x2E) || (0x30 ≤ op && op ≤ 0x3D) || (0x40 ≤ op && op ≤ 0x4A) ||
  (0x50 ≤ op && op ≤ 0x59) || 0x78 ≤ op

def opBits (v : Nat) : List Nat := (List.range 128).filter fun n => v / 2 ^ n % 2 == 1

/-- The opcode list and the stepping are accepted on this part; GEN 9 is below the removal generation of FQRCP. -/
def opListGood (step : Nat) (h : ImageHeader) : Bool :=
  (h.step == 0xFF || h.step == step) &&
  (opBits h.threadOps).all (fun op => threadOpAssigned op && (op != 0x77 || h.step != 0xFF)) &&
  (opBits h.seqOps).all fun op => seqOpAssigned op && (op != 0x59 || h.step != 0xFF)

/-! ### The vector fields of a word (R378, status 4) -/

def fieldsOf (op : ThreadOp) : List VField := op.reads ++ op.writes

def tr3 (f : TR) : List VField := [single f.a, single f.b, single f.d]
def tr4 (f : TR) (x : TX) : List VField := [single f.a, single f.b, single x.c, single f.d]
def tr2 (f : T1) : List VField := [single f.a, single f.d]
def pair3 (f : TR) : List VField := [pairAt f.a, pairAt f.b, pairAt f.d]

/-- The vector registers that a thread-set instruction names. -/
def vectorFields : Instr → List VField
  | .iadd f | .isub f | .imul f | .imulhi f | .imad f | .imin f | .imax f | .umin f | .umax f | .and f | .or f | .xor f
  | .shl f | .shr f | .sar f | .lea f | .sel f | .fadd f | .faddTx f _ | .fsub f | .fsubTx f _ | .fmul f | .fmulTx f _
  | .ffma f | .fmin f | .fmax f | .fdiv f | .fdivTx f _ | .hadd f | .hmul f | .hfma f | .badd f | .bmul f | .bfma f
  | .hadd2 f | .hmul2 f | .hfma2 f | .hmax2 f | .hmin2 f | .badd2 f | .bmul2 f | .bfma2 f | .bmax2 f | .bmin2 f
  | .bfi f _ | .qenc f _ | .qdec f _ | .xbcast f | .xperm f => tr3 f
  | .ffmaTx f x | .hfmaTx f x | .bfmaTx f x | .hfma2Tx f x | .bfma2Tx f x => tr4 f x
  | .imadTx f x => fieldsOf (imadTxOp f x)
  | .iaddi f | .andi f | .ori f | .shli f | .shri f => [single f.a, single f.d]
  | .lea64 f => fieldsOf (lea64Op f)
  | .iadd64 f | .dadd f | .daddTx f _ | .dsub f | .dsubTx f _ | .dmul f | .dmulTx f _ | .dfma f | .dmin f | .dmax f
  | .ddiv f | .ddivTx f _ => pair3 f
  | .dfmaTx f x => pair3 f ++ [pairAt x.c]
  | .dabs f => [pairAt f.a, pairAt f.d]
  | .popc f | .clz f | .mov f | .fabs f | .frcp f | .frsq f | .fsqrt f | .fexp2 f | .flog2 f | .fsin f | .fcos f
  | .ftanh f | .fqrcp f | .few f | .fer f | .fepeek f => tr2 f
  | .bfe f _ | .fclass f | .xrot f | .xbfly f | .xrev f | .redx f _ | .scanx f _ => [single f.a, single f.d]
  | .movi d _ _ | .movs d _ _ _ _ => [single d]
  | .cvtf f x | .cvtfi f x | .cvtif f x | .cvtii f x => fieldsOf (cvtOp f x)
  | .icmpEq f | .icmpNe f | .icmpLt f | .icmpLe f | .icmpLtu f | .icmpLeu f | .fcmpEq f | .fcmpLt f | .fcmpLe f
  | .fcmpUn f => [single f.a, single f.b]
  | .dcmpEq f | .dcmpLt f | .dcmpLe f | .dcmpUn f => [pairAt f.a, pairAt f.b]
  | .ld f x => fieldsOf (loadOp f true (plainSpec x))
  | .lds f x => fieldsOf (loadOp f false (plainSpec x))
  | .sld f x => fieldsOf (loadOp f (!x.c.getLsbD 2) (strongSpec x))
  | .st f x => fieldsOf (storeOp f true (plainSpec x))
  | .sts f x => fieldsOf (storeOp f false (plainSpec x))
  | .sst f x => fieldsOf (storeOp f (!x.c.getLsbD 2) (strongSpec x))
  | .atom f x => fieldsOf (atomicThreadOp f true (atomSpec f x true) [])
  | .atoms f x => fieldsOf (atomicThreadOp f false (atomSpec f x false) [])
  | .cas f x => fieldsOf (atomicThreadOp f true (casSpec f x true) (swapField x))
  | .cass f x => fieldsOf (atomicThreadOp f false (casSpec f x false) (swapField x))
  | .cpa f _ => fieldsOf (cpaOp f)
  | _ => []

/-! ### Status 3: the text, word by word (R100 to R117, R378) -/

/-- A run as the text holds it: the header's offset and TEMPS, its instructions with their offsets, and the registers that
its ENDR publishes. -/
structure TextRun where
  header  : Nat
  temps   : Nat
  body    : List (Nat × Instr)
  publish : List Nat
  deriving DecidableEq, Repr

/-- The op field of a sequencer-set word, and of a thread-set word. -/
def seqOpOf (w : Word) : Nat := (sel w 21 7).toNat
def threadOpCode (w : Word) : Nat := (sel w 24 7).toNat

def listNames (v op : Nat) : Bool := v / 2 ^ op % 2 == 1

/-- A field names a temporary that its run does not declare, wherever the run executes: in the trap handler 60 to 63 name tv0 to
tv3, and no run there declares more than four temporaries (R102, R107). -/
def tempBeyond (temps : Nat) (f : BitVec 6) : Bool :=
  decide (1 ≤ temps) && decide (56 + temps ≤ f.toNat) && (decide (f.toNat < 60) || decide (4 < temps))

/-- A body instruction is legal in some execution context. -/
def bodyLegal (temps : Nat) (i : Instr) : Bool :=
  staticLegal i && (vectorFields i).all fun o => o.even && o.fields.all fun f => !tempBeyond temps f

/-- The instructions of a body of words, or the offset of the word that is refused. -/
def bodyOf (h : ImageHeader) (temps : Nat) : Nat → Nat → List Word → Except Nat (List (Nat × Instr))
  | 0, _, _ => .ok []
  | fuel + 1, o, ws => match ws with
    | [] => .ok []
    | w :: rest =>
      if sel w 31 1 != 0 || !listNames h.threadOps (threadOpCode w) && threadOpCode w != 0x7F then .error o
      else match decode w rest.head? with
        | .error _ => .error o
        | .ok (i, n) =>
          if !bodyLegal temps i then .error o
          else match bodyOf h temps fuel (o + 4 * n) (ws.drop n) with
            | .ok is => .ok ((o, i) :: is)
            | .error e => .error e

/-- A run whose header stands at an offset: its parts and the offset after its ENDR, or the refused offset. -/
def textRunAt (h : ImageHeader) (code : List Byte) (o : Nat) (t l : Nat) : Except Nat (TextRun × Nat) :=
  let stop := o + 4 * (l + 2)
  let trailer := codeWord code stop
  if t > 8 || h.codeSize ≤ stop || !listNames h.seqOps (seqOpOf trailer) then .error o
  else match decode trailer none with
    | .ok (.endr tag a b c, _) =>
      if !staticLegal (.endr tag a b c) then .error stop
      else match bodyOf h t (l + 2) (o + 4) ((List.range (l + 1)).map fun j => codeWord code (o + 4 + 4 * j)) with
        | .error e => .error e
        | .ok is =>
          if is.length > 24 then .error o
          else .ok (⟨o, t, is, ([a, b, c].filter fun x => x.getLsbD 6).map fun x => x.toNat % 64⟩, stop + 4)
    | _ => .error o

/-- A thread-set word outside every run, which is illegal there alone: what a run could make of it decides. The words that it
takes, or none where it is refused (R378). -/
def looseThread (h : ImageHeader) (w : Word) (next : Option Word) : Option Nat :=
  if !listNames h.threadOps (threadOpCode w) then none
  else match decode w next with
    | .ok (i, n) => if bodyLegal 0 i then some n else none
    | .error _ => none

/-- The runs of a text from an offset, or the offset of the first refused word; `fuel` bounds the words. An ENDR outside a run is
illegal there alone, and is not refused (R378). -/
def textRuns (h : ImageHeader) (code : List Byte) : Nat → Nat → Except Nat (List TextRun)
  | 0, _ => .ok []
  | fuel + 1, o =>
    if h.codeSize ≤ o then .ok []
    else
      let w := codeWord code o
      if sel w 31 1 == 0 then
        match looseThread h w (if h.codeSize ≤ o + 4 then none else some (codeWord code (o + 4))) with
        | some n => textRuns h code fuel (o + 4 * n)
        | none => .error o
      else if !listNames h.seqOps (seqOpOf w) then .error o
      else match decode w none with
        | .error _ => .error o
        | .ok (.run t l _, _) => match textRunAt h code o t.toNat l.toNat with
          | .error e => .error e
          | .ok (r, next) => match textRuns h code fuel next with
            | .ok rs => .ok (r :: rs)
            | .error e => .error e
        | .ok (i, _) => if staticLegal i then textRuns h code fuel (o + 4) else .error o

/-! ### Status 4: footprints, registers and shared ranges (R52, R53, R96, R98, R138, R168) -/

/-- The code of R375 for a register's shape. -/
def shapeCode (shapes n : Nat) : Nat := shapes / 2 ^ (2 * n) % 4

def rowCost (c : Nat) : Nat := match c with
  | 0 => 0 | 1 => 1 | 2 => 1 | _ => 8

/-- F of R52 for T temporaries and declared shapes. -/
def footprint (t shapes : Nat) : Nat :=
  2 + 8 * t + ((List.range 64).map fun n => rowCost (shapeCode shapes n)).foldl (· + ·) 0

/-- A field names a vector register v0 to v63 of its run, not a temporary. -/
def namesV (temps : Nat) (f : BitVec 6) : Bool := temps == 0 || decide (f.toNat < 56)

/-- A field names a declared register; 60 to 63 are exempt (R53). -/
def fieldDeclared (temps shapes : Nat) (f : BitVec 6) : Bool :=
  !namesV temps f || decide (60 ≤ f.toNat) || shapeCode shapes f.toNat != 0

/-- A pair's registers are declared alike; a pair at 60 or 62 of which a register is undeclared is exempt (R53). -/
def pairAlike (temps shapes : Nat) (o : VField) : Bool :=
  let (x, y) := (shapeCode shapes o.field.toNat, shapeCode shapes (o.field.toNat + 1))
  !o.pair || !namesV temps o.field || x == y || (decide (60 ≤ o.field.toNat) && (x == 0 || y == 0))

/-- The registers of the shared ranges. -/
def sharedRegs (shares : List (BitVec 32)) : List Nat :=
  shares.flatMap fun e => (List.range (shareLen e)).map fun i => shareFirst e + i

/-- The shared ranges keep R96: two waves of the block, each in one pair, and registers that exist. -/
def sharesGood (waves : Nat) (shares : List (BitVec 32)) : Bool :=
  let ws := shares.flatMap fun e => [shareProducer e, shareConsumer e]
  ws.all (fun w => decide (w < waves)) && decide ws.Nodup &&
  shares.all fun e => decide (shareFirst e + shareLen e ≤ 64)

def inShared (temps : Nat) (regs : List Nat) (f : BitVec 6) : Bool := namesV temps f && regs.contains f.toNat

/-- An instruction names the shared range as R138 allows. -/
def sharedUseGood (temps : Nat) (regs : List Nat) (i : Instr) : Bool :=
  match i with
  | .few f => inShared temps regs f.d && !inShared temps regs f.a
  | .fer f | .fepeek f => inShared temps regs f.a && !inShared temps regs f.d
  | i => (vectorFields i).all fun o => o.fields.all fun f => !inShared temps regs f

/-- XBCAST's source thread number is declared U and no temporary (R168). -/
def broadcastGood (temps shapes : Nat) (i : Instr) : Bool :=
  match i with
  | .xbcast f => namesV temps f.b && shapeCode shapes f.b.toNat == 1
  | _ => true

def instrGood (temps shapes : Nat) (regs : List Nat) (i : Instr) : Bool :=
  (vectorFields i).all (fun o => pairAlike temps shapes o && o.fields.all (fieldDeclared temps shapes)) &&
  broadcastGood temps shapes i && sharedUseGood temps regs i

/-- The end of a kernel's text: the next kernel's entry, or the end of the text (R375). -/
def textEndOf (ds : List KernelRecord) (size : Nat) (d : KernelRecord) : Nat :=
  ds.foldl (fun m x => if d.entry < x.entry && x.entry < m then x.entry else m) size

/-- The runs of a kernel's text. -/
def kernelRuns (ds : List KernelRecord) (size : Nat) (rs : List TextRun) (d : KernelRecord) : List TextRun :=
  rs.filter fun r => decide (d.entry ≤ r.header) && decide (r.header < textEndOf ds size d)

def kernelGood (code : List Byte) (ds : List KernelRecord) (rs : List TextRun) (d : KernelRecord) : Bool :=
  let mine := kernelRuns ds code.length rs d
  let t := mine.foldl (fun m r => max m r.temps) 0
  let shares := sharesOf (code.drop d.shareOff) d.nshare
  let regs := sharedRegs shares
  d.foot ≤ 480 && d.temps == t && d.foot == footprint t d.shapes && sharesGood d.waves shares &&
  mine.all fun r =>
    r.body.all (fun q => instrGood r.temps d.shapes regs q.2) &&
    r.publish.all fun n => shapeCode d.shapes n != 0 && !regs.contains n

/-! ### The checks in order (R378) -/

/-- What a check of an image answers: status 0, or the status with the failing kernel or word offset, where it has one. -/
abbrev CheckResult := Nat × Option Nat

/-- The first kernel that fails a test. -/
def firstBad (ds : List KernelRecord) (good : KernelRecord → Bool) : Option Nat :=
  ((List.range ds.length).zip ds).findSome? fun q => if good q.2 then none else some q.1

/-- The checks on a code section whose header is good. -/
def checkCode (step : Nat) (h : ImageHeader) (code : List Byte) : CheckResult :=
  let ds := descriptorsOf code h.nkern
  match firstBad ds (descriptorGood code) with
  | some k => (1, some k)
  | none =>
    if !opListGood step h then (2, none)
    else match textRuns h code (h.codeSize / 4 + 1) h.textOff with
      | .error o => (3, some o)
      | .ok rs => match firstBad ds (kernelGood code ds rs) with
        | some k => (4, some k)
        | none => (0, none)

/-- The text of a kernel holds an ARRIVE.G, which makes its grid sequencer a member of grid barriers (R226, R236). -/
def textArrives (code : List Byte) (ds : List KernelRecord) (d : KernelRecord) : Bool :=
  (List.range (code.length / 4)).any fun j =>
    decide (d.entry ≤ 4 * j) && decide (4 * j < textEndOf ds code.length d) &&
    match decode (codeWord code (4 * j)) none with
    | .ok (.arrive c _, _) => c == 3
    | _ => false

/-! ### Versions (R379 to R381) -/

def currentVersion (o : CodeObject) : Option Version := o.versions.getLast?

def objectAt (c : Context) (home : Dword) : Option CodeObject := c.objects.find? fun o => o.home == home

/-- The published version at a base: publishing drops what it overwrites, so there is one. -/
def versionAt (c : Context) (base : Dword) : Option Version := (c.objects.flatMap (·.versions)).find? (·.base == base)

def sizeAt (c : Context) (base : Dword) : Nat :=
  match versionAt c base with
  | some v => v.size
  | none => 0

/-- The versions that a LAUNCH or GANG in hand may still bind to, as they stood when it was taken (R304, R381). -/
def heldBases (q : Queue) : List Dword :=
  match q.wait with
  | .packet p => if packetType p ≤ 2 then q.heldCode.filterMap fun o => (currentVersion o).map (·.base) else []
  | _ => []

/-- The versions that bind: those of launches not yet ended, those of packets taken, and the current version of each object
(R347, R380). -/
def boundBases (s : State) (c : Context) : List Dword :=
  ((s.launches.filter fun l => l.ctx == c.index).flatMap fun l => l.bound.map (·.1)) ++
  ((s.queues.filter fun q => q.ctx == c.index).flatMap heldBases) ++
    c.objects.filterMap fun o => (currentVersion o).map (·.base)

def overlaps (a : Dword) (n : Nat) (b : Dword) (m : Nat) : Bool :=
  decide (a.toNat < b.toNat + m) && decide (b.toNat < a.toNat + n)

/-- The pages of a new version: all permit the command processor's write, some do not, or an answer over ATS is awaited. -/
inductive PagesResult where
  | good | lacking | wait (va : Dword)
  deriving DecidableEq, Repr

def checkPages (s : State) (c : Context) (isle : Nat) (base : Dword) (n : Nat) : PagesResult :=
  (List.range n).foldl (fun r j =>
    let va := base + BitVec.ofNat 64 (4096 * j)
    match r with
    | .good =>
      if !canonical va then .lacking
      else match translate s c isle va .codeWrite with
        | .ok _ => .good
        | .miss _ => .lacking
        | .wait => .wait va
    | r => r) .good

/-- A result record's fields that no rule gives are free values (log 6). -/
def codeResult (s : State) (v : Option Nat) (status : Nat) (place : Option Nat) : State × List Byte :=
  let free := Config.freeDword s.fresh
  let free2 := Config.freeDword (s.fresh + 1)
  (nextFresh s 2,
    leBytes 8 (v.getD free.toNat) ++ leBytes 4 status ++ leBytes 4 (place.getD (free2.toNat % 2 ^ 32)))

/-- A CODEPUB ends: its result record is owed, and the packet completes with it. -/
def endCodepub (s : State) (q : Queue) (result : Dword) (v : Option Nat) (status : Nat) (place : Option Nat) : State :=
  let (s1, bytes) := codeResult s v status place
  owe (onQueue s1 q.index leaveHand) q.index ⟨result, [(0, bytes)], some q.taken⟩

/-- The versions that a new one leaves in place: those whose bytes it does not overwrite. What it overwrites binds nothing
(R380). -/
def keepVersions (v : Version) (o : CodeObject) : CodeObject :=
  { o with versions := o.versions.filter fun w => !overlaps v.base v.size w.base w.size }

/-- The new version becomes current in one step. -/
def makeCurrent (c : Context) (home : Dword) (isNew : Bool) (v : Version) : Context :=
  let kept := c.objects.map (keepVersions v)
  if isNew then { c with objects := ⟨home, [v]⟩ :: kept }
  else { c with objects := kept.map fun o => if o.home == home then { o with versions := o.versions ++ [v] } else o }

/-- Copies the code section to its pages (R8, R18). -/
def copyCode (s : State) (c : Context) (isle : Nat) (base : Dword) (code : List Byte) : State :=
  (List.range ((code.length + 4095) / 4096)).foldl (fun s j =>
    writeVaBytes s c isle (base + BitVec.ofNat 64 (4096 * j)) .codeWrite ((code.drop (4096 * j)).take 4096)) s

/-- An image that passed its checks is published, or refused with status 5 to 7 (R380). -/
def publish (s : State) (q : Queue) (c : Context) (h : ImageHeader) (code : List Byte) (cbase home result : Dword) :
    State :=
  let old := objectAt c home
  let current := old.bind currentVersion
  if home != 0 && current.isNone then endCodepub s q result none 5 none
  else if home != 0 && decide (h.nkern < (current.map fun v => v.textEnds.length).getD 0) then
    endCodepub s q result none 6 none
  else
    let v := if home = 0 then 1 else (current.map (·.number)).getD 0 + 1
    let isle := homeIsle q.index
    if cbase.toNat % 65536 != 0 || (boundBases s c).any (fun b => overlaps cbase code.length b (sizeAt c b)) then
      endCodepub s q result (some v) 7 none
    else match checkPages s c isle cbase ((code.length + 4095) / 4096) with
      | .wait va =>
        if q.failedAt = some va then
          endCodepub (onQueue s q.index fun q => { q with failedAt := none }) q result (some v) 7 none
        else cpAwait s q c va .codeWrite
      | .lacking => endCodepub s q result (some v) 7 none
      | .good =>
        let ds := descriptorsOf code h.nkern
        let version : Version :=
          ⟨v, cbase, code.length, ds.map (textEndOf ds code.length), ds.map (textArrives code ds)⟩
        let s1 := copyCode s c isle cbase code
        let s2 := s1.putCtx (makeCurrent c (if home = 0 then cbase else home) (home == 0) version)
        endCodepub s2 q result (some v) 0 none

/-- CODEPUB reads and checks its image, then publishes it (R378 to R380); its fields beyond the listed bytes are zero. -/
def codepubStep (s : State) (p : Packet) (q : Queue) (c : Context) : State :=
  let image := packetWord p 1
  let cbase := packetWord p 2
  let home := packetWord p 3
  let result := packetWord p 4
  if headerBad p || (List.range 3).any (fun i => packetWord p (5 + i) != 0) || result.toNat % 16 != 0 then
    stopQueue s q.index true
  else if !serReady q then s
  else match cpRead s q.index .load image 64 with
    | .held s1 => s1
    | .failed s1 => endCodepub s1 q result none 1 none
    | .ok s1 hb =>
      let h := imageHeader hb
      if !headerGood h then endCodepub s1 q result none 1 none
      else match cpRead s1 q.index .load (image + BitVec.ofNat 64 h.codeOff) h.codeSize with
        | .held s2 => s2
        | .failed s2 => endCodepub s2 q result none 1 none
        | .ok s2 code => match checkCode Config.partStep.toNat h code with
          | (0, _) => publish s2 q c h code cbase home result
          | (st, place) => endCodepub s2 q result none st place

/-- Runs a packet in hand. -/
def withPacket (s : State) (p : Packet) (k : Queue → Context → State) : Host.Outcome State Fault Refusal :=
  match packetInHand s p with
  | some q => match s.ctx? q.ctx with
    | some c => eventNext (k q c)
    | none => eventNext s
  | none => eventNext s

def execCodepub (p : Packet) (s : State) : Host.Outcome State Fault Refusal :=
  withPacket s p fun q c => codepubStep s p q c

/-! ### A launch's kernel (R375, R380, R381) -/

/-- The version and kernel number that KOBJ names among code objects: home + 64k of the current version. -/
def bindKernel (objects : List CodeObject) (kobj : Dword) : Option (Version × Nat) :=
  objects.findSome? fun o =>
    (currentVersion o).bind fun v =>
      let off := (kobj - o.home).toNat
      if off % 64 == 0 && decide (off / 64 < v.textEnds.length) then some (v, off / 64) else none

/-- Reads a kernel's descriptor and lists from its version (R380). -/
def readKernel (s : State) (qi : Nat) (base : Dword) (k textEnd : Nat) : CpResult Kernel :=
  match cpRead s qi .fetch (base + BitVec.ofNat 64 (64 * k)) 64 with
  | .held s1 => .held s1
  | .failed s1 => .failed s1
  | .ok s1 bs =>
    let d := kernelRecordOf bs
    match cpRead s1 qi .fetch (base + BitVec.ofNat 64 d.preOff) (16 * d.npre) with
    | .held s2 => .held s2
    | .failed s2 => .failed s2
    | .ok s2 pre => match cpRead s2 qi .fetch (base + BitVec.ofNat 64 d.shareOff) (4 * d.nshare) with
      | .held s3 => .held s3
      | .failed s3 => .failed s3
      | .ok s3 sh => .ok s3
        { entry := d.entry, textEnd := textEnd, foot := d.foot, temps := d.temps, flags := BitVec.ofNat 8 d.flags,
          waves := d.waves, threads := d.threads, scratch := d.scratch, accum := d.accum,
          barset := BitVec.ofNat 32 d.barset, shapes := BitVec.ofNat 128 d.shapes, preload := preloadsOf pre d.npre,
          shared := sharesOf sh d.nshare }

end Sys2Proof.Machine
end

