-- ==== Sys2Proof/Machine/Admit.lean ====
section
/-!
DEFINITION. Sys2Proof/Machine/Admit.lean: launch bodies and their limits (spec/20, R305, R306, R315), what a launch brings to its
admission, grid-sequencer slots, group runs and reservations (R231, R313, R314, R317), and completion (R307).
-/

namespace Sys2Proof.Machine

/-! ### Launch bodies: bytes 8–63 of a packet (R305) -/

def bodyWord (b : List Dword) (i : Nat) : Dword := b.getD i 0
def bodyNblk (b : List Dword) : Nat := (bodyWord b 1).toNat % 2 ^ 32
def bodyNwave (b : List Dword) : Nat := (bodyWord b 1).toNat / 2 ^ 32 % 256
def bodyThr (b : List Dword) : Nat := (bodyWord b 1).toNat / 2 ^ 40 % 256
def bodyRes (b : List Dword) : Bool := (bodyWord b 1).getLsbD 48
def bodyIdem (b : List Dword) : Bool := (bodyWord b 1).getLsbD 49
def bodyPipe (b : List Dword) : Bool := (bodyWord b 1).getLsbD 50
def bodyArgs (b : List Dword) : Dword := bodyWord b 2
def bodyCmpl (b : List Dword) : Dword := bodyWord b 3
def bodyCval (b : List Dword) : Dword := bodyWord b 4
def bodyTba (b : List Dword) : BitVec 62 := (bodyWord b 5).extractLsb' 2 62
def bodyGroups (b : List Dword) : Dword := bodyWord b 6

/-- A completion address is valid: 0 or a multiple of 16 (R303). -/
def cmplValid (v : Dword) : Bool := v.toNat % 16 == 0

/-- The fields of a launch body keep their limits (R305). R94 calls TBA's address canonical and R305 gives it no check: any TBA is
accepted, without its bits 1:0 (DESIGN CHOICE, log 12). -/
def bodyGood (b : List Dword) : Bool :=
  1 ≤ bodyNblk b && bodyNblk b ≤ 2 ^ 20 && 1 ≤ bodyNwave b && bodyNwave b ≤ 16 && 1 ≤ bodyThr b && bodyThr b ≤ waveWidth &&
  (bodyWord b 1).toNat / 2 ^ 51 == 0 && (bodyArgs b).toNat % 8 == 0 && cmplValid (bodyCmpl b)

/-- A stage's body: CMPL, CVAL and PIPE are zero (R315). -/
def stageBodyGood (b : List Dword) : Bool := bodyGood b && bodyCmpl b == 0 && bodyCval b == 0 && !bodyPipe b

/-- A stage's body with the packet's RES and IDEM, which hold for every stage (R376, log 12). -/
def withPacketFlags (packet b : List Dword) : List Dword :=
  b.set 1 (bodyWord b 1 ||| (bodyWord packet 1 &&& 0x3000000000000))

/-! ### Group lists (R305) -/

/-- The groups of a list, each with its block indices. -/
def readGroupsFrom (qi : Nat) : Nat → State → Dword → List (List Nat) → CpResult (List (List Nat))
  | 0, s, _, acc => .ok s acc
  | n + 1, s, va, acc => match cpRead s qi .load va 4 with
    | .held s1 => .held s1
    | .failed s1 => .failed s1
    | .ok s1 mb => match cpRead s1 qi .load (va + 4) (4 * leNat mb) with
      | .held s2 => .held s2
      | .failed s2 => .failed s2
      | .ok s2 bs =>
        let blocks := (List.range (leNat mb)).map fun i => fieldAt bs (4 * i) 4
        readGroupsFrom qi n s2 (va + 4 + BitVec.ofNat 64 (4 * leNat mb)) (acc ++ [blocks])

/-- No group list names a block at or beyond NBLK, or puts a block in more than four groups. -/
def groupsGood (nblk : Nat) (gs : List (List Nat)) : Bool :=
  gs.all fun g => g.all fun i => decide (i < nblk) && decide ((gs.filter fun h => h.contains i).length ≤ 4)

/-- The group list at an address: none where it is malformed. -/
def readGroups (s : State) (qi nblk : Nat) (va : Dword) : CpResult (Option (List (List Nat))) :=
  if va = 0 then .ok s (some [])
  else match cpRead s qi .load va 8 with
    | .held s1 => .held s1
    | .failed s1 => .failed s1
    | .ok s1 nb =>
      if 255 < leNat nb then .ok s1 none
      else match readGroupsFrom qi (leNat nb) s1 (va + 8) [] with
        | .held s2 => .held s2
        | .failed s2 => .failed s2
        | .ok s2 gs => .ok s2 (if groupsGood nblk gs then some (gs.map List.eraseDups) else none)

/-! ### Argument words (R306) -/

/-- Reads the argument words that a preload list names. -/
def readArgsFrom (qi : Nat) (args : Dword) : List Nat → State → SMap Dword → CpResult (SMap Dword)
  | [], s, acc => .ok s acc
  | j :: js, s, acc => match cpRead s qi .load (args + BitVec.ofNat 64 (8 * j)) 8 with
    | .held s1 => .held s1
    | .failed s1 => .failed s1
    | .ok s1 bs => readArgsFrom qi args js s1 (mapSet 0 acc j (BitVec.ofNat 64 (leNat bs)))

/-- The argument words of a kernel, each once. -/
def argWords (k : Kernel) : List Nat := ((k.preload.filter fun e => e.2.2.1 == 2).map fun e => e.2.2.2.toNat).eraseDups

/-! ### What a stage brings to its admission -/

/-- A stage as its admission knows it. -/
structure StagePlan where
  kernel  : Kernel
  base    : Dword
  nblk    : Nat
  tba     : BitVec 62
  args    : SMap Dword
  groups  : List (List Nat)
  resident : Bool
  idem    : Bool
  arrives : Bool

/-- The part of a launch and stage that already stands on some isle: its words are read once (R306). -/
def partOf (s : State) (l : Launch) (stage : Nat) : Option Grid := s.grids.find? fun g => g.launch == l.id && g.stage == stage

/-- The grid sequencer of a kernel is a member of its grid barrier (R227). -/
def kernelArrives (c : Context) (bound : Dword × Nat) : Bool :=
  match versionAt c bound.1 with
  | some v => v.arrives.getD bound.2 false
  | none => false

def kernelEnd (c : Context) (bound : Dword × Nat) : Nat :=
  match versionAt c bound.1 with
  | some v => v.textEnds.getD bound.2 v.size
  | none => 0

/-- Reads what a stage needs; none where its group list is malformed. -/
def readStage (s : State) (c : Context) (l : Launch) (stage : Nat) : CpResult (Option StagePlan) :=
  let body := l.bodies.getD stage []
  let bound := l.bound.getD stage (0, 0)
  match readKernel s l.queue bound.1 bound.2 (kernelEnd c bound) with
  | .held s1 => .held s1
  | .failed s1 => .failed s1
  | .ok s1 k =>
    let plan := fun (args : SMap Dword) (gs : List (List Nat)) =>
      (⟨k, bound.1, bodyNblk body, bodyTba body, args, gs, bodyRes body || k.flags.getLsbD 0, bodyIdem body,
        kernelArrives c bound⟩ : StagePlan)
    match partOf s l stage with
    | some g => .ok s1 (some (plan g.args g.groupList))
    | none => match readArgsFrom l.queue (bodyArgs body) (argWords k) s1 [] with
      | .held s2 => .held s2
      | .failed s2 => .failed s2
      | .ok s2 args => match readGroups s2 l.queue (bodyNblk body) (bodyGroups body) with
        | .held s3 => .held s3
        | .failed s3 => .failed s3
        | .ok s3 (some gs) => .ok s3 (some (plan args gs))
        | .ok s3 none => .ok s3 none

/-- The plans of every stage, in order. -/
def readStages (c : Context) (l : Launch) : List Nat → State → List StagePlan → CpResult (Option (List StagePlan))
  | [], s, acc => .ok s (some acc)
  | st :: rest, s, acc => match readStage s c l st with
    | .held s1 => .held s1
    | .failed s1 => .failed s1
    | .ok s1 none => .ok s1 none
    | .ok s1 (some p) => readStages c l rest s1 (acc ++ [p])

/-! ### Reserving a grid (R313, R314) -/

/-- Entries of a grid's run: its barrier and one for each group (R314). -/
def runEntries (p : StagePlan) : Nat := 1 + p.groups.length

def groupRunsOn (s : State) (isle : Nat) : List (Nat × Nat) := (s.gridsOn isle).map fun g => (g.gbase, g.runLen)

/-- A run of n entries from a base is free. -/
def runFree (s : State) (isle base n : Nat) : Bool :=
  decide (base + n ≤ groupTableSize) && (groupRunsOn s isle).all fun u => decide (base + n ≤ u.1) || decide (u.1 + u.2 ≤ base)

/-- The base of a new run: the lowest that is free, or, for a later part of a gang, the same as on its other isles. -/
def runBase (s : State) (l : Launch) (isle stage n : Nat) : Option Nat :=
  match partOf s l stage with
  | some g => if runFree s isle g.gbase n then some g.gbase else none
  | none => freeRun (groupRunsOn s isle) groupTableSize n

/-- The grid-sequencer registers and the words of a new grid; blockidx means nothing there and is a free value (log 6). -/
def newGrid (s : State) (l : Launch) (p : StagePlan) (isle stage slot gbase : Nat) : Grid :=
  let g : Grid :=
    { id := s.nextId, launch := l.id, ctx := l.ctx, isle := isle, stage := stage, slot := slot, phase := .ready,
      pc := p.base + BitVec.ofNat 64 p.kernel.entry, g := [], k := 0, loops := [], calls := [], fell := false, tokens := [],
      nextSeq := 1, votes := zeroVote, kPending := 0, request := none, gbase := gbase, runLen := runEntries p, point := 0,
      kernel := p.kernel, base := p.base, nblk := p.nblk, tba := p.tba, args := p.args, groupList := p.groups,
      resident := p.resident, idem := p.idem, nextBlock := 0, replace := [], reserved := [], ended := [], parked := [], fault := 0,
      barred := none, slotSets := [] }
  { g with g := preloadRegs g 3 16 (Config.freeDword s.fresh).toNat 0 }

/-- The entries of a new run: every block is a member of the grid barrier, the listed blocks of each group (R227). -/
def fillRun (s : State) (g : Grid) (arrives : Bool) : State :=
  let s1 := s.putGroup g 0 ⟨0, g.nblk, 0, g.id, arrives, false⟩
  (List.range g.groupList.length).foldl (fun s e =>
    s.putGroup g (e + 1) ⟨0, (g.groupList.getD e []).length, 0, g.id, false, false⟩) s1

/-- The cores on which a stage's blocks may be placed (R3, R316). -/
def stageCores (s : State) (l : Launch) (isle stage : Nat) : List Nat :=
  (List.range coresPerIsle).filter fun c => coreUsable s isle c &&
    match l.shares[stage]? with
    | some cs => cs.contains (coreNumber isle c)
    | none => true

/-- Reserves the full allotment of one block on the first core that has room. -/
def reserveBlock (s : State) (gid : Nat) (cores : List Nat) (i : Nat) : Option State :=
  match s.grid? gid with
  | none => none
  | some g =>
    let room := cores.findSome? fun c =>
      if coreClosed s g.isle c then none else findRoom s g.isle c g.ctx g.kernel true none
    room.map fun a =>
      (bindPartition s g.isle a.core g.ctx).putGrid { g with reserved := g.reserved ++ [(i, a)] }

def reserveBlocks (gid : Nat) (cores : List Nat) : List Nat → State → Option State
  | [], s => some s
  | i :: rest, s => match reserveBlock s gid cores i with
    | some s1 => reserveBlocks gid cores rest s1
    | none => none

/-- Reserves a slot, a run and, for a resident grid, every full allotment (R231, R313, R314). -/
def reserveGrid (s : State) (l : Launch) (isle stage : Nat) (p : StagePlan) : Option State :=
  match lowestFree ((s.gridsOn isle).map (·.slot)) gridSlots, runBase s l isle stage (runEntries p) with
  | some slot, some base =>
    let g := newGrid s l p isle stage slot base
    let s1 : State := { s with grids := s.grids ++ [g], nextId := s.nextId + 1, fresh := s.fresh + 1 }
    let s2 := fillRun s1 g p.arrives
    if p.resident then reserveBlocks g.id (stageCores s l isle stage) (List.range p.nblk) s2 else some s2
  | _, _ => none

/-- Reserves every stage on an isle. -/
def reserveIsle (l : Launch) (isle : Nat) : List (Nat × StagePlan) → State → Option State
  | [], s => some s
  | (st, p) :: rest, s => match reserveGrid s l isle st p with
    | some s1 => reserveIsle l isle rest s1
    | none => none


/-! ### What fits on an empty isle (R231, R307) -/

/-- The isle without any block, grid or partition. -/
def emptyIsle (s : State) (isle : Nat) : State :=
  { s with blocks := s.blocks.filter (·.isle != isle), grids := s.grids.filter (·.isle != isle),
           partitions := s.partitions.filter (·.isle != isle) }

/-- How many of n blocks of a grid find room, from block i on. -/
def fitCount (gid : Nat) (cores : List Nat) : Nat → Nat → State → Nat × State
  | 0, _, s => (0, s)
  | n + 1, i, s => match reserveBlock s gid cores i with
    | some s1 => let (m, s2) := fitCount gid cores n (i + 1) s1; (m + 1, s2)
    | none => (0, s)

/-- The blocks of a stage that fit beside those placed before it: their number, and the isle with them. -/
def fitStage (l : Launch) (isle : Nat) (cores : List Nat) (most : Nat) (s : State) (p : StagePlan) : Nat × State :=
  let g := newGrid s l p isle 0 0 0
  fitCount g.id cores most 0 { s with grids := s.grids ++ [g], nextId := s.nextId + 1 }

/-- The occupancy limit of R231 on an isle. -/
def occupancyOn (s : State) (l : Launch) (isle : Nat) (plans : List StagePlan) : Nat :=
  let cores := (List.range coresPerIsle).filter (coreUsable s isle)
  (plans.foldl (fun (acc : Nat × State) p =>
    let (m, s1) := fitStage l isle cores p.nblk acc.2 p
    (acc.1 + m, s1)) (0, emptyIsle s isle)).1

/-- Every resident block fits at once, and one block of every other stage, on an empty isle with all its cores. -/
def fitsEver (s : State) (l : Launch) (isle : Nat) (plans : List StagePlan) : Bool :=
  let s := { s with platform := { s.platform with underTest := [] } }
  let cores := (List.range coresPerIsle).filter (coreUsable s isle)
  let resident := (plans.filter (·.resident)).foldl (fun (acc : Bool × State) p =>
    let (m, s1) := fitStage l isle cores p.nblk acc.2 p
    (acc.1 && m == p.nblk, s1)) (true, emptyIsle s isle)
  resident.1 && (plans.filter fun p => !p.resident).all fun p => (fitStage l isle cores 1 (emptyIsle s isle) p).1 == 1

/-! ### Completion (R307) -/

/-- Releases what a launch holds reserved: its grids and their runs (R317, R318). -/
def releaseGrids (s : State) (launch : Nat) : State :=
  let gs := s.grids.filter fun g => g.launch == launch
  let s1 := gs.foldl clearRun s
  { s1 with grids := s1.grids.filter fun g => g.launch != launch }

/-- A grid has ended: its blocks have, nothing of theirs is still queued, and its sequencer has exited (R251). -/
def gridEnded (s : State) (g : Grid) : Bool :=
  g.phase == .exited && decide (g.nblk ≤ g.ended.length) &&
  (s.blocksOf g.id).all fun b => b.ended && b.queues.all List.isEmpty

/-- The slot, the run and the records of a grid that has ended are free (R251, R314). -/
def freeGrid (s : State) (g : Grid) : State :=
  let ids := (s.blocksOf g.id).map (·.id)
  let s1 := clearRun s g
  { s1 with grids := s1.grids.filter (·.id != g.id), blocks := s1.blocks.filter (·.grid != g.id),
            waves := s1.waves.filter fun w => !ids.contains w.block }

def freeEndedGrids (s : State) : State :=
  s.grids.foldl (fun s g => if ctxRuns s g.ctx && gridEnded s g then freeGrid s g else s) s

/-- An admitted launch whose grids have all ended is completed. -/
def endLaunches (s : State) : State :=
  { s with launches := s.launches.map fun l =>
      if l.admitted && l.status.isNone && !s.grids.any (fun g => g.launch == l.id) then { l with status := some 0 } else l }

/-- Writes the completion of a launch that has ended; a kernel node's is its graph's to see (R321). -/
def completeLaunch (s : State) (l : Launch) : State :=
  match l.status with
  | some st =>
    if l.fromGraph then s
    else
      let s1 := if l.admitted then s else releaseGrids s l.id
      let s2 := onQueue s1 l.queue fun q => if q.wait = .admission l.id then leaveHand q else q
      completeRecord { s2 with launches := s2.launches.filter (·.id != l.id) } l.queue l.serial l.cmpl l.cval st
  | none => s

/-- Ends what has ended: grids, then launches, then their completion records (R251, R307). -/
def settleLaunches (s : State) : State :=
  let s1 := endLaunches (freeEndedGrids s)
  s1.launches.foldl completeLaunch s1

/-! ### Admission (R313, R317) -/

def endLaunchWith (s : State) (l : Launch) (status : Nat) : State :=
  settleLaunches ((releaseGrids s l.id).putLaunch { l with status := some status })

/-- A launch still waits for its admission. -/
def waitsAdmission (s : State) (l : Launch) : Bool :=
  !l.admitted && l.status.isNone && ctxRuns s l.ctx && !preempted s l.ctx

/-- A gang that has given up its reservations, and holds none: it waits to retry, and other launches may be admitted in the
meantime (R317). -/
def rolledBack (s : State) (l : Launch) : Bool :=
  l.gang && l.tried && !s.grids.any fun g => g.launch == l.id

/-- Its turn on an isle has come: the tenant is served, and no launch taken before it that R311 serves still waits there,
other than a gang that rolled back or one that a verdict holds (R313, R317, R401). -/
def admissionTurn (s : State) (l : Launch) (isle : Nat) : Bool :=
  tenantServed s isle l.ctx &&
  !s.launches.any fun x => decide (x.id < l.id) && !rolledBack s x && x.isles.contains isle && waitsAdmission s x &&
    tenantServed s isle x.ctx && (match s.queue? x.queue with
      | some q => q.request.isNone
      | none => false)

/-- Another gang's reservation stands uncommitted on the isle (R317). -/
def otherGang (s : State) (l : Launch) (isle : Nat) : Bool :=
  (s.gridsOn isle).any fun g => g.launch != l.id && match s.launch? g.launch with
    | some x => x.gang && !x.admitted
    | none => false

/-- The launch is admitted: its occupancy limit is written, and its queue goes on (R304, R307). -/
def admitLaunch (s : State) (l : Launch) (plans : List StagePlan) : State :=
  let n := occupancyOn s l (l.isles.headD 0) plans
  let s1 := s.putLaunch { l with admitted := true }
  let s2 := onQueue s1 l.queue fun q => if q.wait = .admission l.id then leaveHand q else q
  if l.cmpl = 0 then s2 else owe s2 l.queue ⟨l.cmpl + 8, [(0, leBytes 4 n)], none⟩

/-- Reserves the next isle of a launch, and admits it once every isle is reserved; a gang that lacks room on an isle gives up
every reservation (R317). -/
def reserveNext (s : State) (l : Launch) (plans : List StagePlan) : State :=
  match l.isles.filter fun i => !s.grids.any fun g => g.launch == l.id && g.isle == i with
  | [] => admitLaunch s l plans
  | isle :: rest =>
    if !admissionTurn s l isle || (l.gang && otherGang s l isle) then s
    else match reserveIsle l isle (numbered plans) s with
      | none => (releaseGrids s l.id).putLaunch { l with tried := true }
      | some s1 => if rest.isEmpty then admitLaunch s1 l plans else s1

/-- One step of an admission. -/
def admissionStep (s : State) (l : Launch) : State :=
  match s.ctx? l.ctx with
  | none => s
  | some c =>
    if !waitsAdmission s l || (match s.queue? l.queue with | some q => q.request.isSome | none => true) then s
    else match readStages c l (List.range l.bodies.length) s [] with
      | .held s1 => s1
      | .failed s1 => endLaunchWith s1 l 6
      | .ok s1 none => endLaunchWith s1 l 3
      | .ok s1 (some plans) => reserveNext s1 l plans

def execLaunchAdmission (launch : Nat) (s : State) : Host.Outcome State Fault Refusal :=
  match s.launch? launch with
  | some l => eventNext (admissionStep s l)
  | none => eventNext s

/-- A gang that gave up its reservations tries again (R317). -/
def execGangRetry (launch : Nat) (s : State) : Host.Outcome State Fault Refusal :=
  match s.launch? launch with
  | some l => eventNext (if l.gang && !s.grids.any (fun g => g.launch == l.id) then admissionStep s l else s)
  | none => eventNext s

end Sys2Proof.Machine
end

