-- ==== Sys2Proof/Machine/Packets.lean ====
section
/-!
DEFINITION. Sys2Proof/Machine/Packets.lean: what the packets of a queue do (spec/20, R303 to R310, R315, R317, R320; spec/24,
R364, R369, R370), the nodes of a graph (R321), kicks and rescans (R302).
-/

namespace Sys2Proof.Machine

/-! ### Malformed packets (R303) -/

/-- A malformed LAUNCH, GANG or GRAPH completes with status 3 where its CMPL is valid; any other stops its queue. -/
def malformedPacket (s : State) (q : Queue) (cmpl : Option (Dword × Dword)) : State :=
  match cmpl with
  | some (a, v) =>
    if cmplValid a then completeRecord (onQueue s q.index leaveHand) q.index q.taken a v 3 else stopQueue s q.index true
  | none => stopQueue s q.index true

/-- A packet is held until every earlier packet of its queue has completed, where it asks for that (R303, R304). -/
def packetHeld (p : Packet) (q : Queue) : Bool := packetSer p && !serReady q

/-! ### Pipelines (R315) -/

/-- A tile-queue record: the queue, or none where a field breaks its limits. -/
def tileQueueOf (stage : Nat) (bodies : List (List Dword)) (r : List Byte) : Option TileQueue :=
  let base := fieldAt r 0 8
  let tbytes := fieldAt r 8 4
  let ntile := fieldAt r 12 4
  let cons := fieldAt r 16 1
  let depth := fieldAt r 18 2
  if base % 64 == 0 && tbytes % 64 == 0 && 1 ≤ ntile && ntile ≤ 2 ^ 20 && decide (stage < cons) &&
      decide (cons < bodies.length) && bodyNblk (bodies.getD cons []) == ntile && fieldAt r 17 1 == 0 && 1 ≤ depth &&
      fieldAt r 20 12 == 0 then
    some ⟨stage, BitVec.ofNat 64 base, tbytes, ntile, cons, depth, [], []⟩
  else none

/-- The tile-queue records of a stage, up to the first whose TBYTES is zero. -/
def tileQueuesOf (stage : Nat) (bodies : List (List Dword)) : Nat → List Byte → Option (List TileQueue)
  | 0, _ => some []
  | n + 1, bs =>
    if fieldAt bs 8 4 = 0 then some []
    else match tileQueueOf stage bodies bs, tileQueuesOf stage bodies n (bs.drop 32) with
      | some t, some ts => some (t :: ts)
      | _, _ => none

/-- The bytes of a stage that the descriptor lays out: a launch body and eight records. -/
def stageBytes : Nat := 56 + 8 * 32

def readStageBytes (qi : Nat) (base : Dword) : List Nat → State → List (List Byte) → CpResult (List (List Byte))
  | [], s, acc => .ok s acc
  | i :: rest, s, acc => match cpRead s qi .load (base + BitVec.ofNat 64 (8 + 512 * i)) stageBytes with
    | .held s1 => .held s1
    | .failed s1 => .failed s1
    | .ok s1 bs => readStageBytes qi base rest s1 (acc ++ [bs])

/-- The stages' bodies and tile queues; none where the descriptor is malformed. -/
def pipelineOf (packet : List Dword) (stages : List (List Byte)) : Option (List (List Dword) × List TileQueue) :=
  let bodies := stages.map fun bs => dwordsOf bs 0 7
  if bodies.all stageBodyGood then
    ((numbered stages).mapM fun q => tileQueuesOf q.1 bodies 8 (q.2.drop 56)).map fun ts =>
      (bodies.map (withPacketFlags packet), ts.flatten)
  else none

/-- The bodies of a launch: its own, or those of the pipeline that KOBJ addresses. -/
def readBodies (s : State) (qi : Nat) (body : List Dword) : CpResult (Option (List (List Dword) × List TileQueue)) :=
  if !bodyPipe body then .ok s (some ([body], []))
  else match cpRead s qi .load (bodyWord body 0) 8 with
    | .held s1 => .held s1
    | .failed s1 => .failed s1
    | .ok s1 nb =>
      if leNat nb < 2 || 8 < leNat nb then .ok s1 none
      else match readStageBytes qi (bodyWord body 0) (List.range (leNat nb)) s1 [] with
        | .held s2 => .held s2
        | .failed s2 => .failed s2
        | .ok s2 bs => .ok s2 (pipelineOf body bs)

/-! ### Taking a launch (R305, R307, R376, R380) -/

/-- What a launch comes to when its packet is taken, or its node is run: a launch, a refusal, or a wait. -/
inductive Taken where
  | taken (s : State) (l : Launch)
  | refused (s : State) (status : Nat)
  | held (s : State)

/-- The kernels of the stages, each with the version it binds to among code objects; none where one is not loaded. -/
def bindStages (objects : List CodeObject) (bodies : List (List Dword)) : Option (List (Dword × Nat)) :=
  bodies.mapM fun b => (bindKernel objects (bodyWord b 0)).map fun v => (v.1.base, v.2)

/-- Reads the kernels of the stages. -/
def readKernels (c : Context) (qi : Nat) : List (Dword × Nat) → State → List Kernel → CpResult (List Kernel)
  | [], s, acc => .ok s acc
  | b :: rest, s, acc => match readKernel s qi b.1 b.2 (kernelEnd c b) with
    | .held s1 => .held s1
    | .failed s1 => .failed s1
    | .ok s1 k => readKernels c qi rest s1 (acc ++ [k])

/-- NWAVE and THR are the kernel's (R376). -/
def kernelMatches (q : List Dword × Kernel) : Bool := bodyNwave q.1 == q.2.waves && bodyThr q.1 == q.2.threads

def stageResident (q : List Dword × Kernel) : Bool := bodyRes q.1 || q.2.flags.getLsbD 0

/-- Grid-scope words, or a gang, without residency (R231, R317, R376). -/
def needsResident (gang : Bool) (q : List Dword × Kernel) : Bool := (gang || q.2.flags.getLsbD 1) && !stageResident q

/-- A stage as it counts for what fits: its words do not. -/
def barePlan (q : List Dword × Kernel) : StagePlan :=
  ⟨q.2, 0, bodyNblk q.1, 0, [], [], stageResident q, false, false⟩

/-- Takes a launch from a body whose limits are good. It binds to the code that stood when its packet was taken, a kernel node to
the code that stands when it runs (R304, R381, log 12). -/
def takeLaunch (s : State) (q : Queue) (c : Context) (body : List Dword) (gang : Bool) (isles : List Nat)
    (fromGraph : Bool) (serial : Nat) (cmpl cval : Dword) : Taken :=
  match readBodies s q.index body with
  | .held s1 => .held s1
  | .failed s1 => .refused s1 6
  | .ok s1 none => .refused s1 3
  | .ok s1 (some (bodies, tiles)) => match bindStages (if fromGraph then c.objects else q.heldCode) bodies with
    | none => .refused s1 4
    | some bound => match readKernels c q.index bound s1 [] with
      | .held s2 => .held s2
      | .failed s2 => .refused s2 6
      | .ok s2 ks =>
        let stages := bodies.zip ks
        let l : Launch :=
          { id := s2.nextId, queue := q.index, serial := serial, ctx := c.index, gang := gang, isles := isles,
            pipe := bodyPipe body, bodies := bodies, bound := bound, cmpl := cmpl, cval := cval, admitted := false,
            fromGraph := fromGraph, status := none, tileQueues := tiles,
            shares := if bodyPipe body then bodies.map fun _ => List.range (8 * coresPerIsle) else [], frozen := false,
            tried := false }
        if !stages.all kernelMatches then .refused s2 3
        else if stages.any (needsResident gang) then .refused s2 1
        else if !isles.all (fun i => fitsEver s2 l i (stages.map barePlan)) then .refused s2 2
        else .taken { s2 with nextId := s2.nextId + 1, launches := s2.launches ++ [l] } l

/-- The isles that a mask names, in ascending order. -/
def islesOf (mask : Nat) : List Nat := (List.range 8).filter fun i => mask / 2 ^ i % 2 == 1

/-- LAUNCH and GANG: a malformed or refused one completes at once; one that is taken waits for its admission (R304, R305). -/
def launchStep (s : State) (p : Packet) (q : Queue) (c : Context) (gang : Bool) (isles : List Nat) : State :=
  let body := p.words.drop 1
  let cmpl := bodyCmpl body
  let cval := bodyCval body
  if headerBad p || !bodyGood body || isles.isEmpty then malformedPacket s q (some (cmpl, cval))
  else if packetHeld p q then s
  else match takeLaunch s q c body gang isles false q.taken cmpl cval with
    | .held s1 => s1
    | .refused s1 st => completeRecord (onQueue s1 q.index leaveHand) q.index q.taken cmpl cval st
    | .taken s1 l => onQueue s1 q.index fun q => { q with wait := .admission l.id }

def execLaunch (p : Packet) (s : State) : Host.Outcome State Fault Refusal :=
  withPacket s p fun q c => launchStep s p q c false [homeIsle q.index]

def execGang (p : Packet) (s : State) : Host.Outcome State Fault Refusal :=
  withPacket s p fun q c => launchStep s p q c true (islesOf (packetByte p 2))

/-! ### Graphs (R320, R321) -/

/-- GRAPH: FIRST in bytes 16–17; bytes that the body does not list are zero (log 12). -/
def graphStep (s : State) (p : Packet) (q : Queue) : State :=
  let cmpl := packetWord p 4
  let cval := packetWord p 5
  if headerBad p || !cmplValid cmpl || (packetWord p 2).toNat / 2 ^ 16 != 0 || packetWord p 3 != 0 ||
      packetWord p 6 != 0 || packetWord p 7 != 0 then malformedPacket s q (some (cmpl, cval))
  else if packetHeld p q then s
  else
    let gr : GraphRun := ⟨packetWord p 1, (packetWord p 2).toNat % 2 ^ 16, [], none, cmpl, cval, q.taken, 0⟩
    onQueue s q.index fun q => { leaveHand q with graphs := q.graphs ++ [gr] }

def execGraph (p : Packet) (s : State) : Host.Outcome State Fault Refusal :=
  withPacket s p fun q _ => graphStep s p q

/-- A node as 64 bytes hold it. -/
inductive Node where
  | kernel (next : Nat) (body : List Dword)
  | cond (next alt : Nat) (pred mask : Dword)
  | loop (exit body : Nat) (pred mask : Dword) (count : Nat)
  | bad
  deriving DecidableEq, Repr

/-- The table of R320. -/
def nodeOf (bs : List Byte) : Node :=
  let f := fieldAt bs
  let body := dwordsOf bs 8 7
  if f 1 1 != 0 || f 6 2 != 0 then .bad
  else match f 0 1 with
    | 1 => if f 4 2 == 0 && bodyGood body && bodyCmpl body == 0 && bodyCval body == 0 then .kernel (f 2 2) body else .bad
    | 2 => if f 24 40 == 0 then .cond (f 2 2) (f 4 2) (BitVec.ofNat 64 (f 8 8)) (BitVec.ofNat 64 (f 16 8)) else .bad
    | 3 =>
      if f 2 2 == 0 && f 24 4 != 0 && f 30 34 == 0 then
        .loop (f 4 2) (f 28 2) (BitVec.ofNat 64 (f 8 8)) (BitVec.ofNat 64 (f 16 8)) (f 24 4)
      else .bad
    | _ => .bad

def onGraph (s : State) (qi serial : Nat) (f : GraphRun → GraphRun) : State :=
  onQueue s qi fun q => { q with graphs := q.graphs.map fun g => if g.serial == serial then f g else g }

/-- The graph ends and completes through its CMPL. -/
def endGraph (s : State) (qi : Nat) (gr : GraphRun) (status : Nat) : State :=
  let s1 := onQueue s qi fun q => { q with graphs := q.graphs.filter (·.serial != gr.serial) }
  completeRecord s1 qi gr.serial gr.cmpl gr.cval status

/-- The passes that a loop node has begun. -/
def passesAt (gr : GraphRun) (n : Nat) : Nat := mapGet 0 gr.passes n

/-- Runs the node that a graph stands at (R321). -/
def runNode (s : State) (q : Queue) (c : Context) (gr : GraphRun) (n : Node) : State :=
  let test := fun (pred mask : Dword) (k : State → Bool → State) =>
    match cpRead s q.index .load pred 8 with
    | .held s1 => s1
    | .failed s1 => endGraph s1 q.index gr 6
    | .ok s1 w => k s1 (BitVec.ofNat 64 (leNat w) &&& mask != 0)
  match n with
  | .bad => endGraph s q.index gr 3
  | .kernel next body => match takeLaunch s q c body false [homeIsle q.index] true gr.serial 0 0 with
    | .held s1 => s1
    | .refused s1 st => endGraph s1 q.index gr st
    | .taken s1 l => onGraph s1 q.index gr.serial fun g => { g with launch := some l.id, node := next }
  | .cond next alt pred mask => test pred mask fun s1 holds =>
      onGraph s1 q.index gr.serial fun g => { g with node := if holds then next else alt }
  | .loop exit body pred mask count => test pred mask fun s1 holds =>
      if holds && decide (passesAt gr gr.node < count) then
        onGraph s1 q.index gr.serial fun g =>
          { g with passes := mapSet 0 g.passes gr.node (passesAt gr gr.node + 1), node := body }
      else onGraph s1 q.index gr.serial fun g => { g with passes := mapSet 0 g.passes gr.node 0, node := exit }

/-- One step of a graph: its kernel node's launch has completed, it is at its end, or its next node is read and run. -/
def stepGraph (s : State) (q : Queue) (c : Context) (gr : GraphRun) : State :=
  match gr.launch with
  | some id => match s.launch? id with
    | some l => match l.status with
      | some st =>
        let s1 := if l.admitted then s else releaseGrids s l.id
        let s2 : State := { s1 with launches := s1.launches.filter (·.id != id) }
        if st != 0 then endGraph s2 q.index gr st else onGraph s2 q.index gr.serial fun g => { g with launch := none }
      | none => s
    | none => onGraph s q.index gr.serial fun g => { g with launch := none }
  | none =>
    if c.halted then endGraph s q.index gr 5
    else if gr.node = 0xFFFF then endGraph s q.index gr 0
    else if 4096 ≤ gr.node then endGraph s q.index gr 3
    else match cpRead s q.index .load (gr.gdesc + BitVec.ofNat 64 (64 * gr.node)) 64 with
      | .held s1 => s1
      | .failed s1 => endGraph s1 q.index gr 6
      | .ok s1 bs => runNode s1 q c gr (nodeOf bs)

/-- A graph can go on. -/
def graphReady (s : State) (gr : GraphRun) : Bool :=
  match gr.launch with
  | some id => match s.launch? id with
    | some l => l.status.isSome
    | none => true
  | none => true

/-- The next node of the first graph of a queue that can go on. -/
def graphNodeStep (s : State) (qi : Nat) : State :=
  match s.queue? qi with
  | none => s
  | some q => match s.ctx? q.ctx, q.graphs.find? (graphReady s) with
    | some c, some gr => if q.request.isSome || !q.owed.isEmpty then s else stepGraph s q c gr
    | _, _ => s

def execGraphNode (queue : Nat) (s : State) : Host.Outcome State Fault Refusal := eventNext (graphNodeStep s queue)

/-! ### Value packets and fences (R308, R309) -/

/-- VWRITE: bytes 24–63 are zero; the packet completes once its value is written. -/
def vwriteStep (s : State) (p : Packet) (q : Queue) : State :=
  let a := packetWord p 1
  if headerBad p || a.toNat % 8 != 0 || (p.words.drop 3).any (· != 0) then stopQueue s q.index true
  else if packetHeld p q then s
  else owe (onQueue s q.index leaveHand) q.index ⟨a, [(0, leBytes 8 (packetWord p 2).toNat)], some q.taken⟩

def execVwrite (p : Packet) (s : State) : Host.Outcome State Fault Refusal :=
  withPacket s p fun q _ => vwriteStep s p q

/-- (word ∧ MASK) COND VALUE. -/
def waitHolds (cond : Nat) (w v : Dword) : Bool :=
  match cond with
  | 0 => w == v
  | 1 => w != v
  | 2 => decide (v.toNat ≤ w.toNat)
  | _ => decide (w.toNat < v.toNat)

/-- VWAIT: it reads its word, and completes once the condition holds; until then its packet stays in hand. -/
def vwaitStep (s : State) (p : Packet) (q : Queue) : State :=
  let a := packetWord p 1
  let cond := packetByte p 32
  if headerBad p || a.toNat % 8 != 0 || 3 < cond || (packetWord p 4).toNat / 256 != 0 || (p.words.drop 5).any (· != 0) then
    stopQueue s q.index true
  else if packetHeld p q then s
  else match cpRead s q.index .load a 8 with
    | .held s1 => s1
    | .failed s1 => stopQueue s1 q.index true
    | .ok s1 w =>
      if waitHolds cond (BitVec.ofNat 64 (leNat w) &&& packetWord p 3) (packetWord p 2) then
        onQueue s1 q.index fun q => leaveHand (packetDone q.taken q)
      else s1

def execVwait (p : Packet) (s : State) : Host.Outcome State Fault Refusal :=
  withPacket s p fun q _ => vwaitStep s p q

/-- A queue whose packet in hand is a VWAIT reads its word again. -/
def execVwaitPoll (queue : Nat) (s : State) : Host.Outcome State Fault Refusal :=
  match s.queue? queue with
  | some q => match q.wait with
    | .packet p => if packetType p = 5 then withPacket s p fun q _ => vwaitStep s p q else eventNext s
    | _ => eventNext s
  | none => eventNext s

/-- The queue that a QFENCE names (R309). -/
def fenceQueue (p : Packet) : Nat := (packetWord p 1).toNat % 2 ^ 17

/-- QFENCE: it waits for the packets that Q had taken and not completed when it was taken; its own queue is SER alone (R309). -/
def qfenceStep (s : State) (p : Packet) (q : Queue) : State :=
  let other := s.queue? (fenceQueue p)
  let alien := match other with
    | some o => o.ctx != q.ctx
    | none => false
  if headerBad p || (packetWord p 1).toNat / 2 ^ 17 != 0 || (p.words.drop 2).any (· != 0) || alien then
    stopQueue s q.index true
  else if packetHeld p q then s
  else match other with
    | some o =>
      if o.index = q.index then onQueue s q.index fun q => leaveHand (packetDone q.taken q)
      else onQueue s q.index fun q => { q with wait := .fence o.index q.heldOpen }
    | none => onQueue s q.index fun q => leaveHand (packetDone q.taken q)

def execQfence (p : Packet) (s : State) : Host.Outcome State Fault Refusal :=
  withPacket s p fun q _ => qfenceStep s p q

/-! ### Capture windows (R364, R365, R369, R370) -/

/-- No window: nothing is recorded or counted. -/
def emptyCapture : Capture :=
  { isOpen := false, sbuf := 0, scap := 0, sdrop := 0, scount := 0, rbuf := 0, rcap := 0, rdrop := 0, rcount := 0, cbuf := 0,
    sper := 0, twin := 0, watch := 0, counters := [], opened := 0, cycFrom := none, cyc := 0, sampled := [], rotation := [] }



/-- The fields of a CAPSTART keep their limits. -/
def captureGood (p : Packet) : Bool :=
  let b := packetByte p
  (packetWord p 1).toNat % 64 == 0 && (packetWord p 2).toNat % 64 == 0 && (packetWord p 3).toNat % 64 == 0 &&
  packetWord p 3 != 0 && 4 ≤ b 32 && b 32 ≤ 24 && 4 ≤ b 33 && b 33 ≤ 24 && 8 ≤ b 34 && b 34 ≤ 20 &&
  (b 35 == 0 || (10 ≤ b 35 && b 35 ≤ 20)) && b 36 ≤ 1 && (packetWord p 4).toNat / 2 ^ 40 == 0 &&
  (p.words.drop 5).all (· == 0)

/-- The window that a CAPSTART opens at a step of the model; its counters start at zero, and its cycles count from now (R369). -/
def openCapture (p : Packet) (now : Nat) : Capture :=
  let b := packetByte p
  { isOpen := true, sbuf := packetWord p 1, scap := 2 ^ b 32, sdrop := 0, scount := 0, rbuf := packetWord p 2,
    rcap := 2 ^ b 33, rdrop := 0, rcount := 0, cbuf := packetWord p 3, sper := b 34, twin := b 35,
    watch := BitVec.ofNat 16 (b 36), counters := [], opened := now, cycFrom := some now, cyc := 0, sampled := [], rotation := [] }

/-- The headers of a window's buffers as its counts stand (R365, R371). -/
def writeHeaders (s : State) (c : Context) (isle : Nat) : State :=
  let cap := c.capture
  let s1 := if cap.sbuf = 0 then s else writeQuiet s c isle cap.sbuf (bufferHeader cap.scount cap.sdrop)
  if cap.rbuf = 0 then s1 else writeQuiet s1 c isle cap.rbuf (bufferHeader cap.rcount cap.rdrop)

def capstartStep (s : State) (p : Packet) (q : Queue) (c : Context) : State :=
  if headerBad p || !captureGood p || c.capture.isOpen then stopQueue s q.index true
  else if packetHeld p q then s
  else
    let c1 := { c with capture := openCapture p s.clock }
    onQueue (writeHeaders (s.putCtx c1) c1 (homeIsle q.index)) q.index fun q => leaveHand (packetDone q.taken q)

def execCapstart (p : Packet) (s : State) : Host.Outcome State Fault Refusal :=
  withPacket s p fun q c => capstartStep s p q c

/-- A shared counter as its function's policy reports it: the value that it held at the later of the window's start, where it is
zero, and DELAY ms before now, without its low QBITS bits; zero under HIDE (R370). The counts are free values (log 16). -/
def reportShared (s : State) (c : Context) (off : Nat) : Nat :=
  let pol := s.platform.cntpol.getD (functionOf s c.index) 0
  let delay := pol.toNat / 2 ^ 5 % 2 ^ 8
  let held := if Config.elapsedMs c.capture.opened s.clock < delay then 0
    else (Config.sharedCount off c.index c.capture.opened s.clock delay).toNat
  if pol.getLsbD 13 then 0 else held / 2 ^ (pol.toNat % 32) * 2 ^ (pol.toNat % 32)

/-- The cores whose counters of a window are not zero everywhere. -/
def countedCores (cap : Capture) : List Nat := (cap.counters.map fun q => q.1 / 4096).eraseDups

/-- A counter of the context: the sum over its cores (R369). -/
def counterSum (cap : Capture) (off : Nat) : Nat :=
  (countedCores cap).foldl (fun n core => n + mapGet 0 cap.counters (counterKey core off)) 0

/-- CYC: the cycles counted before, and those since the window opened or the context returned (R369, log 16). -/
def windowCyc (c : Context) (now : Nat) : Nat :=
  c.capture.cyc + match c.capture.cycFrom with
    | some t => Config.windowCycles c.index t now
    | none => 0

/-- The offsets of the counters that count the context's own agents (R369). -/
def ownCounters : List Nat := [0x08, 0x10, 0x18, 0x20, 0x28, 0x30, 0x38, 0x40, 0x48, 0x50, 0x58]

/-- The offsets of the shared counters (R369). -/
def sharedCounters : List Nat := [0x100, 0x108, 0x110, 0x118, 0x120]

/-- The counter block (R369). -/
def counterBlock (s : State) (c : Context) : List (Nat × List Byte) :=
  [(0, leBytes 8 (windowCyc c s.clock))] ++
  ownCounters.map (fun o => (o, leBytes 8 (counterSum c.capture o))) ++
  (numbered c.watch).map (fun q => (0x80 + 4 * q.1, leBytes 4 q.2.count.toNat)) ++
  sharedCounters.map fun o => (o, leBytes 8 (reportShared s c o))

/-- The headers and the counter block; what does not translate is lost (R364, R365). -/
def closeCapture (s : State) (c : Context) (isle : Nat) : State :=
  let cap := c.capture
  let s2 := writeHeaders s c isle
  let s3 := (counterBlock s c).foldl (fun s q => writeQuiet s c isle (cap.cbuf + BitVec.ofNat 64 q.1) q.2) s2
  s3.putCtx { c with capture := emptyCapture }

def capstopStep (s : State) (p : Packet) (q : Queue) (c : Context) : State :=
  if headerBad p || (p.words.drop 1).any (· != 0) || !c.capture.isOpen then stopQueue s q.index true
  else if packetHeld p q then s
  else onQueue (closeCapture s c (homeIsle q.index)) q.index fun q => leaveHand (packetDone q.taken q)

def execCapstop (p : Packet) (s : State) : Host.Outcome State Fault Refusal :=
  withPacket s p fun q c => capstopStep s p q c

/-! ### Looking at rings (R302, R304) -/

/-- The packet in hand is tried again, or a fence is over. -/
def tryInHand (s : State) (q : Queue) : State :=
  match q.wait with
  | .packet p => match packetEvent p with
    | some i => if s.agenda.contains (.event i) then s else { s with agenda := .event i :: s.agenda }
    | none => s
  | .fence other serials =>
    if fenceOver s other serials then s.putQueue (leaveHand (packetDone q.taken q)) else s
  | _ => s

/-- One look at a queue: owed writes perform, what is in hand is tried again, the ring is looked at, and a ready queue is
served (R300 to R304, R323). -/
def lookQueue (s : State) (qi : Nat) : State :=
  let s1 := payOwed qi owedFuel s
  match s1.queue? qi with
  | none => s1
  | some q =>
    if q.request.isSome || !q.owed.isEmpty then s1
    else match q.wait with
      | .none => serveQueue (lookAt s1 qi) qi
      | _ => if q.qstat = 0 then tryInHand s1 q else s1

/-- A launch packet still in hand ends with the context's halt or destruction: it completes with STATUS 5 (R299, R331). -/
def endInHand (s : State) (qi : Nat) : State :=
  match s.queue? qi with
  | none => s
  | some q => match q.wait with
    | .packet p =>
      let ended := fun (cmpl cval : Dword) => completeRecord (onQueue s qi leaveHand) qi q.taken cmpl cval 5
      match packetEvent p with
      | some (.launch _) | some (.gang _) => ended (bodyCmpl (p.words.drop 1)) (bodyCval (p.words.drop 1))
      | some (.graph _) => ended (packetWord p 4) (packetWord p 5)
      | _ => s
    | _ => s

/-- The launches and graphs that a queue has taken end with its context (R299, R321, R331). -/
def endTaken (s : State) (q : Queue) (c : Context) : State :=
  q.graphs.foldl (fun s gr => stepGraph s q { c with halted := true } gr) (endInHand s q.index)

/-- Graphs and launches in hand of halted contexts end (R321, R331). -/
def endHaltedGraphs (s : State) (qi : Nat) : State :=
  match s.queue? qi with
  | none => s
  | some q => match s.ctx? q.ctx with
    | some c => if c.halted then endTaken s q c else s
    | none => s

/-- Every enabled ring of an isle is looked at, packets already taken go on, and what has ended is completed. -/
def rescan (s : State) (isle : Nat) : State :=
  let s1 := settleLaunches s
  let mine := s1.queues.filter fun q => homeIsle q.index == isle
  let s2 := mine.foldl (fun s q => endHaltedGraphs s q.index) s1
  mine.foldl (fun s q => lookQueue s q.index) s2

def execRingRescan (isle : Nat) (s : State) : Host.Outcome State Fault Refusal := eventNext (rescan s isle)

/-- The kick pages of the functions' BAR2s, numbered in the order of the functions (R302, R388). -/
def kickFunction (page : Nat) : Nat := page / 131072
def kickQueue (page : Nat) : Nat := page % 131072

/-- A write to a kick page in a function's BAR2: offset 0 of the page of an enabled queue, in the function that owns the queue's
context, makes the command processor look at the ring; a disabled queue's page ignores writes, as do the pages of every other
function and every other offset (R299, R302, R388). -/
def execKickPageWrite (page offset : Nat) (s : State) : Host.Outcome State Fault Refusal :=
  match s.queue? (kickQueue page) with
  | some q => eventNext (if q.enabled && functionOf s q.ctx == kickFunction page && offset == 0 then lookQueue s q.index else s)
  | none => eventNext s

end Sys2Proof.Machine
end

