-- ==== Sys2Proof/Machine/Placing.lean ====
section
/-!
DEFINITION. Sys2Proof/Machine/Placing.lean: the dispatcher (spec/13, R230, R231, R235; spec/20, R311, R315, R316), the end of a
block (spec/14, R251), and the progress fault (R232, R233, R363).
-/

namespace Sys2Proof.Machine

/-! ### Which block is next, and where it may go (R231, R315) -/

/-- The block that is placed next: one to be placed again, before any that is not yet placed (R235). -/
def nextIndex (g : Grid) : Option Nat :=
  match g.replace with
  | i :: _ => some i
  | [] => if g.nextBlock < g.nblk then some g.nextBlock else none

/-- Tiles of a queue that are flagged and whose consumer block has not ended. -/
def tilesHeld (t : TileQueue) : Nat := (t.flagged.filter fun i => !t.ended.contains i).length

/-- The tile queues that feed a stage, and those that it fills. -/
def inputQueues (l : Launch) (stage : Nat) : List TileQueue := l.tileQueues.filter (·.cons == stage)
def outputQueues (l : Launch) (stage : Nat) : List TileQueue := l.tileQueues.filter (·.stage == stage)

/-- The flags and the depths let block i of a stage be placed (R315). -/
def stageOpen (l : Launch) (stage i : Nat) : Bool :=
  (inputQueues l stage).all (fun t => t.flagged.contains i) && (outputQueues l stage).all fun t => tilesHeld t < t.depth

/-- The tiles that a block of a stage reads (R283). -/
def tileInputs (l : Launch) (stage i : Nat) : List TileRange :=
  (inputQueues l stage).map fun t => ⟨t.base.toNat + i * t.tbytes, t.tbytes⟩

/-! ### Discarding an idempotent block (R235) -/

/-- Puts an index into a rising list. -/
def insertRising (i : Nat) : List Nat → List Nat
  | [] => [i]
  | j :: rest => if i < j then i :: j :: rest else if i = j then j :: rest else j :: insertRising i rest

/-- A discarded block's part in its groups: it has not arrived, and it is a member still (R227, R235). -/
def unarrive (s : State) (b : Block) (g : Grid) : State :=
  (0 :: (b.groups.filter (· != 0)).map (·.toNat)).foldl (fun s e =>
    let x := s.groupEntry g e
    if b.phase == .exited then s.putGroup g e { x with memb := x.memb + 1 }
    else match flagOf b e with
      | some j => if b.arrivals.getLsbD j then s.putGroup g e { x with arrv := x.arrv - 1 } else s
      | none => s) s

/-- The room that a discarded block of a resident grid leaves reserved for its second run (R231). -/
def keepReserved (s : State) (b : Block) (g : Grid) : Grid :=
  if g.resident && !g.reserved.any (fun r => r.1 == b.index) then
    let lanes := (s.wavesOf b.id).map fun w => (w.index, w.lane, w.slot)
    { g with reserved := g.reserved ++ [(b.index, ⟨b.core, b.slot, b.firstGran, b.granules, b.accFirst, b.accRows, lanes⟩)] }
  else g

/-- The contribution of a discarded block to the grid vote in progress is withdrawn in every part (R175, R235, R236). -/
def withdrawGridVotes (s : State) (b : Block) (g : Grid) : State :=
  (s.partsOf g).foldl (fun s p => s.putGrid { p with votes := withdrawVote p.votes b.id }) s

/-- Everything of the block is dropped, it acknowledges every token, and it is to be placed again (R235); a gang halt that held one of
its waves alone is over (R362). DESIGN CHOICE (log 12): the second run counts its grid votes from instance 0, and instances that
the grid has completed take nothing from it; the manual does not match a discarded run's instances with those of the next. -/
def discardBlock (s : State) (b : Block) : State :=
  match s.grid? b.grid with
  | none => s
  | some g =>
    let s1 := releaseSort (unarrive s b g) b
    let s2 := withdrawGridVotes (s1.putGrid { keepReserved s b g with replace := insertRising b.index g.replace }) b g
    let s3 := { s2 with
      blocks := s2.blocks.filter (·.id != b.id), waves := s2.waves.filter (·.block != b.id),
      sorts := s2.sorts.map fun a => { a with waiting := a.waiting.filter (· != b.id) } }
    thawLaunch (pruneGridTokens s3 g.id) g.launch

/-- The dispatcher works for a grid: its launch is admitted and not held by a gang halt (R361), its context neither halted nor
being pre-empted, and its tenant may be served (R311). -/
def dispatches (s : State) (g : Grid) : Bool := ctxRuns s g.ctx && !preempted s g.ctx && launchRuns s g

/-- The room for the next block of a grid on a core: reserved for it, or free there. A core where some ACQ cannot be granted takes
neither (R230). -/
def roomFor (s : State) (l : Launch) (g : Grid) (i core : Nat) : Option (Allotment × Bool) :=
  if coreClosed s g.isle core then none
  else match g.reserved.find? fun r => r.1 == i with
    | some r => if r.2.core == core then some (r.2, true) else none
    | none =>
      if (stageCores s l g.isle g.stage).contains core && tenantServed s g.isle g.ctx then
        (findRoom s g.isle core g.ctx g.kernel (!hasPrologue g.kernel) none).map fun a => (a, false)
      else none

/-- What placing the next block on a core comes to, where the dispatcher can place it. -/
def placement (s : State) (g : Grid) (core : Nat) : Option (Launch × Nat × Allotment × Bool) :=
  match s.launch? g.launch, nextIndex g with
  | some l, some i =>
    if dispatches s g && stageOpen l g.stage i then (roomFor s l g i core).map fun r => (l, i, r.1, r.2) else none
  | _, _ => none

/-- Some grid of a tenant could place its next block on a core. -/
def wantsSlot (s : State) (isle core t : Nat) : Bool :=
  (s.gridsOn isle).any fun g => tenantOf s g.ctx == t && (placement s g core).isSome

/-- A free block slot goes to a grid's tenant in its turn; a reserved one is the grid's already (R311, R313). -/
def slotTurn (s : State) (g : Grid) (core : Nat) (kept : Bool) : Bool :=
  kept || tenantTurn s g.isle (tenantOf s g.ctx) (wantsSlot s g.isle core)

/-- The idempotent blocks that a fifth context's demand for a partition of a core discards: all that one bound context has there,
none of them in room kept reserved (R66, R235). -/
def yieldingBlocks (s : State) (g : Grid) (core : Nat) : List Block :=
  if partitionAvailable s g.isle core g.ctx then []
  else
    let on := fun p : Partition => (s.blocksOn g.isle core).filter fun b => b.ctx == p.ctx
    match (s.partitionsOn g.isle core).find? fun p =>
        (on p).all (·.idem) && !(reservedOn s g.isle core).any (fun r => r.1.ctx == p.ctx) with
    | some p => on p
    | none => []

/-- The core as the next block of a grid finds it: idempotent blocks yield their partition, where the block then finds room. -/
def demandPartition (s : State) (g : Grid) (core : Nat) : State :=
  if (placement s g core).isSome then s
  else
    let s1 := (yieldingBlocks s g core).foldl discardBlock s
    if (placement s1 g core).isSome then s1 else s

/-- A block that is placed again has acknowledged every token so far (R235). -/
def placedAgain (s : State) (g : Grid) (i : Nat) : State :=
  { s with blocks := s.blocks.map fun b => if b.grid == g.id && b.index == i && !b.ended then
      { b with lastSeq := g.nextSeq - 1 } else b }

/-- The block counts as placed. -/
def notePlaced (g : Grid) : Grid :=
  match g.replace with
  | _ :: rest => { g with replace := rest }
  | [] => { g with nextBlock := g.nextBlock + 1 }

/-- Places block i of a grid in the room found for it. -/
def placeBlock (s : State) (l : Launch) (g : Grid) (i : Nat) (a : Allotment) (kept : Bool) : State :=
  let g1 := notePlaced g
  let s1 := s.putGrid g1
  let s2 := if kept then placeReserved s1 g1 i a (tileInputs l g.stage i)
    else placeAt (markServed s1 g.isle (tenantOf s g.ctx)) g1 i a (tileInputs l g.stage i)
  if g.replace.isEmpty then s2 else placedAgain s2 g1 i

def placeNext (s : State) (gid core : Nat) : State :=
  match s.grid? gid with
  | none => s
  | some g =>
    let s1 := demandPartition s g core
    match placement s1 g core with
    | some (l, i, a, kept) => if slotTurn s1 g core kept then placeBlock s1 l g i a kept else s
    | none => s

def execBlockPlacement (grid core : Nat) (s : State) : Host.Outcome State Fault Refusal :=
  eventNext (placeNext s grid core)

/-! ### The end of a block (R73, R251) -/

/-- A multicast has still to deliver into the block that issued it. -/
def castIntoSelf (b : Block) (c : Command) : Bool :=
  if c.started then c.dests.zipIdx.any fun q => castBlk (castOf c q.2) == b.index && decide (q.1.done < castUnits c q.2)
  else c.work.any fun e => castBlk (BitVec.ofNat 64 e) == b.index

/-- Nothing of the block's queues touches its scratchpad any more: multicasts into other blocks go on (R73). -/
def engineDrained (b : Block) : Bool :=
  b.queues.all fun cs => cs.all fun c => match c.instr with
    | .bmcast .. => !castIntoSelf b c
    | .qjoin _ => true
    | _ => false

def blockCanEnd (s : State) (b : Block) : Bool :=
  b.phase == .exited && !b.ended && ctxRuns s b.ctx && engineDrained b && (s.wavesOf b.id).all fun w => w.phase == .exited

/-- The rows that a block leaves in its partition, in place of what stood there before them (R51, R64, R65). -/
def leaveRows (b : Block) (p : Partition) : Partition :=
  if p.isle == b.isle && p.core == b.core && p.ctx == b.ctx then
    let others := p.image.filter fun q => decide (q.1 < 128 * b.accFirst) || decide (128 * (b.accFirst + b.accRows) ≤ q.1)
    { p with image := b.acc.foldl (fun m q => mapSet 0 m (128 * b.accFirst + q.1) q.2) others }
  else p

/-- The consumer block of a tile has ended (R315). -/
def endTiles (l : Launch) (stage i : Nat) : Launch :=
  { l with tileQueues := l.tileQueues.map fun t => if t.cons == stage then { t with ended := t.ended ++ [i] } else t }

/-- A block's allotments and slot are free, the sort array is released, and its grid counts it as ended. -/
def endBlock (s : State) (b : Block) : State :=
  let s1 := releaseSort { s with partitions := s.partitions.map (leaveRows b) } b
  let s2 := match s1.block? b.id with
    | some b1 => s1.putBlock { b1 with ended := true }
    | none => s1
  match s2.grid? b.grid with
  | none => s2
  | some g =>
    let s3 := s2.putGrid { g with ended := g.ended ++ [b.index] }
    match s3.launch? g.launch with
    | some l => s3.putLaunch (endTiles l g.stage b.index)
    | none => s3

def execBlockEnd (block : Nat) (s : State) : Host.Outcome State Fault Refusal :=
  match s.block? block with
  | some b => eventNext (if blockCanEnd s b then settleLaunches (endBlock s b) else s)
  | none => eventNext s

/-! ### Pipeline shares (R316; which core moves is the model's choice, log 18) -/

/-- A stage is held by DEPTH on every output queue. -/
def stageHeld (l : Launch) (stage : Nat) : Bool :=
  let out := outputQueues l stage
  !out.isEmpty && out.all fun t => t.depth ≤ tilesHeld t

/-- A stage's input queues hold, on average, more than half of DEPTH. -/
def stageHungry (l : Launch) (stage : Nat) : Bool :=
  let ins := inputQueues l stage
  !ins.isEmpty && decide ((ins.map (·.depth)).foldl (· + ·) 0 < 2 * (ins.map tilesHeld).foldl (· + ·) 0)

/-- The cores of a stage's share on one isle, as numbers in the package. -/
def shareOn (isle : Nat) (share : List Nat) : List Nat := share.filter fun n => n / coresPerIsle == isle

/-- A core of the package is usable. -/
def usableNumber (s : State) (n : Nat) : Bool := coreUsable s (n / coresPerIsle) (n % coresPerIsle)

/-- A stage that lacks every usable core, or is hungry, gains the lowest usable core that it lacks; a held one gives up its highest
core, so long as a usable one stays. -/
def reviseShare (s : State) (isle : Nat) (l : Launch) (q : Nat × List Nat) : List Nat :=
  let mine := shareOn isle q.2
  let gain := match ((List.range coresPerIsle).map (coreNumber isle)).find? fun n => usableNumber s n && !mine.contains n with
    | some n => (q.2.filter (· < n)) ++ [n] ++ q.2.filter (n < ·)
    | none => q.2
  if !mine.any (usableNumber s) then gain
  else if stageHeld l q.1 then
    if mine.dropLast.any (usableNumber s) then q.2.filter fun n => some n != mine.getLast? else q.2
  else if stageHungry l q.1 then gain
  else q.2

def revisePipelines (s : State) (isle : Nat) : State :=
  { s with launches := s.launches.map fun l =>
      if l.pipe && l.admitted && l.isles.contains isle then
        { l with shares := (numbered l.shares).map (reviseShare s isle l) }
      else l }

def execPipelineRevision (isle : Nat) (s : State) : Host.Outcome State Fault Refusal := eventNext (revisePipelines s isle)

/-! ### Waiting agents (R232) -/

/-- The grid sequencer is waiting, or finished. -/
def gridWaits (s : State) (g : Grid) : Bool :=
  match g.phase with
  | .exited => true
  | .held h => match nextOfGrid s g with
    | .own (.wait _ _) => (s.groupEntry g 0).gen == g.point
    | .own (.grpset ..) => g.barred.any fun e => (s.partsOf g).any fun p => (s.groupEntry p e).arrv != 0
    | _ => h == .voteRead && g.kPending != 0
  | _ => false

/-- The command at the head of a queue waits for the sort array, for other members, or for other queues (R72, R84, R205). -/
def headWaits (s : State) (b : Block) (c : Command) : Bool :=
  match c.instr with
  | .srtld .. | .srtgo .. | .srtst .. => !c.started && (sortArrayAt s b.isle b.core).holder.any (· != b.id)
  | .coll .. => c.started && (instanceOf s b.ctx (collGroup c.b) (collInst c.b) (c.work.headD 0)).any fun x =>
      x.params != [] && !(List.range c.work.tail.length).all fun r => x.sources.any (·.1 == r)
  | .qjoin m => !joinEnds b c.serial m
  | _ => false

def queueWaits (s : State) (b : Block) (q : EngineQueue) : Bool :=
  match headOf b q with
  | some c => headWaits s b c
  | none => true

/-- An engine write is pending toward a sync word of a block: a command of a queue that goes on counts into it, or a
multicast may (R232). -/
def syncPending (s : State) (b : Block) (off : Nat) : Bool :=
  allQueues.any (fun q => !queueWaits s b q && (queueOf b q).any fun c => c.sync == off && match c.instr with
    | .bmcast .. | .qjoin _ => false
    | _ => true) ||
  s.blocks.any fun x => x.ctx == b.ctx && (queueOf x .copy).any fun c => match c.instr with
    | .bmcast .. => c.dests.zipIdx.any fun q => x.grid == b.grid && q.1.ident == b.index && q.1.sync == off &&
        (!c.started || decide (q.1.done < castUnits c q.2))
    | _ => false

/-- The block sequencer is finished, or held by a cause that counts. -/
def blockSeqWaits (s : State) (g : Grid) (b : Block) : Bool :=
  match b.phase with
  | .exited => true
  | .held h => match nextOfBlock s b with
    | .pop => decide (b.tokens.length < blockTokenLimit) && !(g.tokens.any fun t => t.seq == b.lastSeq + 1) && gridWaits s g
    | .own (.wait _ f) =>
      if f.toNat < 16 then !barOpen g.kernel b (s.wavesOf b.id) f.toNat 16
      else match groupOf b f with
        | some (e, j) => (s.groupEntry g e).gen == b.points.getD j 0
        | none => false
    | .own .acq => decide (b.tokens.length < blockTokenLimit) && !b.acqDone && (acqRoom s b g).isNone
    | .own (.swait a x) =>
      let off := (readB b a).toNat
      !genReached (readSync b off).gen ((readB b x).setWidth 16) && !syncPending s b off
    | _ => h == .voteRead && b.kPending != 0
  | _ => false

/-- A FEW that a full bit holds: its consumer has not exited (R97). -/
def fewHeld (s : State) (w : Wave) (r : SharedRange) (n : Nat) : Bool :=
  w.full.getLsbD n && !(partnerOf s w r).any fun c => c.phase == .exited

/-- A wave has exited, or is held by a cause that counts: a hold at a full/empty operation or a vote counts where that operation
itself waits (R232). -/
def waveWaits (s : State) (g : Grid) (b : Block) (w : Wave) : Bool :=
  match w.phase with
  | .exited => true
  | .held h => match nextOfWave s w with
    | .pop => !(b.tokens.any fun t => t.seq == w.lastSeq + 1) && blockSeqWaits s g b
    | .own (.wait _ f) => !barOpen g.kernel b (s.wavesOf b.id) f.toNat w.index
    | .own (.few f) => h == .fullEmpty && (rangeIndex w f.d).any fun q => fewHeld s w q.1 q.2
    | .own (.fer f) | .own (.fepeek f) => h == .fullEmpty && (rangeIndex w f.a).any fun q =>
        !(rangeHolder s w q.1).any fun x => x.full.getLsbD q.2
    | .own (.vote _ _ o _ _) => h == .vote && if o = 2 then b.votes.delivered.contains w.index
      else o == 3 && (b.gvotes.delivered.contains w.index || decide (g.votes.number < b.gvotes.number))
    | _ => false
  | _ => false

/-- A block is waiting: its sequencer and each of its waves that has not exited are finished or held by a cause that counts
(R232). -/
def blockWaiting (s : State) (g : Grid) (b : Block) : Bool := blockSeqWaits s g b && (s.wavesOf b.id).all (waveWaits s g b)

/-- A wave is halted by the watch bank, or held at EXIT with HALTED non-zero (R251, R363). -/
def watchHeld (w : Wave) : Bool := w.haltedWave || w.haltInfo != 0 || (w.phase == .exiting && w.halted != 0)

/-- An agent of the grid is halted by the watch bank, or held at EXIT with HALTED non-zero (R363). A gang halt holds every agent of
its launch, so that nothing is dispatched for it. -/
def watchHalted (s : State) (g : Grid) : Bool := (s.blocksOf g.id).any fun b => (s.wavesOf b.id).any watchHeld

/-- The dispatcher can place no further block of the grid. -/
def placesNone (s : State) (g : Grid) : Bool :=
  (List.range coresPerIsle).all fun c => (placement (demandPartition s g c) g c).isNone

/-- The progress watchdog of a grid that has not ended runs (R233). -/
def watchdogRuns (s : State) (g : Grid) : Bool :=
  dispatches s g && !gridEnded s g && gridWaits s g && !watchHalted s g &&
  ((s.blocksOf g.id).filter fun b => !b.ended).all (blockWaiting s g) && placesNone s g

/-- The watchdog reaches the timeout: the context takes the progress fault, which belongs to the grid (R233, R328, R343);
how long the watchdog runs is time, which the model leaves out (log 5). -/
def execProgressFault (grid : Nat) (s : State) : Host.Outcome State Fault Refusal :=
  match s.grid? grid with
  | some g => eventNext (if watchdogRuns s g then haltGrid s g 0x16 0 else s)
  | none => eventNext s

end Sys2Proof.Machine
end

