-- ==== Sys2Proof/Machine/SaveImage.lean ====
section
/-!
DEFINITION. Sys2Proof/Machine/SaveImage.lean: the images of the save area (spec/07, R98, R99; spec/22, R339 to R344): wave save
slots, block slots, isle regions and core records, written to memory as a context is saved, and read back as it is restored
(log 11).
-/

namespace Sys2Proof.Machine

/-! ### Images as bytes -/

/-- A token in a save image (R215). -/
def tokenBytes (t : Token) : List Byte :=
  leBytes 8 t.tgt.toNat ++ leBytes 8 t.spc.toNat ++ leBytes 4 t.v0.toNat ++ leBytes 4 t.v1.toNat ++ leBytes 2 t.seq.toNat ++
  leBytes 1 ((if t.isEnd then 1 else 0) + (if t.relay then 2 else 0)) ++ zeros 5

/-- A token from a save image. -/
def tokenOf (bs : List Byte) (off : Nat) : Token :=
  let flags := fieldOf bs (off + 26) 1
  ⟨BitVec.ofNat 64 (fieldOf bs off 8), BitVec.ofNat 64 (fieldOf bs (off + 8) 8), BitVec.ofNat 32 (fieldOf bs (off + 16) 4),
    BitVec.ofNat 32 (fieldOf bs (off + 20) 4), BitVec.ofNat 16 (fieldOf bs (off + 24) 2), flags % 2 == 1, flags / 2 % 2 == 1⟩

/-- The retained tokens of a queue: n of them from an offset (R220). -/
def tokensOf (bs : List Byte) (off n : Nat) : List Token := (List.range n).map fun i => tokenOf bs (off + 32 * i)

/-! ### Blocks (R332, R342) -/

/-- A stop record (R332). -/
def stopBytes : Option StopRecord → List Byte
  | none => zeros 64
  | some r => imageOf 64
      [(0, leBytes 8 (r.eng + 16 * r.cause + (if r.first then 4096 else 0))), (8, leBytes 4 r.cmd.toNat),
       (16, leBytes 8 r.prog0.toNat), (24, leBytes 8 r.prog1.toNat), (32, r.mdone.flatMap (leBytes 2))]

/-- An entry of an engine queue: the word, QPCT of a QSCALE, and the values read at issue. -/
def queueEntry (c : Command) : List Byte :=
  let pct := match c.instr with
    | .qscale .. => c.qpct.toNat
    | _ => 0
  leBytes 4 c.word.toNat ++ leBytes 4 pct ++ leBytes 8 c.d.toNat ++ leBytes 8 c.a.toNat ++ leBytes 8 c.b.toNat

/-- A BMCAST's destination list as it was read at issue: a count and 16 entries. -/
def castList (c : Command) : List Byte :=
  match c.instr with
  | .bmcast .. =>
    let es := if c.started then c.work.drop 2 else c.work
    imageOf 136 [(0, leBytes 8 es.length), (8, es.flatMap (leBytes 8))]
  | _ => zeros 136

/-- A vote state without the instance counts of its members. -/
def voteBytes (v : VoteState) (mask : Nat) : List Byte :=
  leBytes 1 v.number ++ leBytes 1 (v.kd.toNat + 8 * v.mode.toNat) ++ leBytes 2 mask ++
  leBytes 1 ((if v.value then 1 else 0) + (if v.claim then 2 else 0))

/-- A vote state from its image: each member that the mask names contributed what was combined. The image holds the low bits of
the instance's number. -/
def voteOf (v : VoteState) (bs : List Byte) (off mask : Nat) : VoteState :=
  let n := fieldOf bs off 1
  let m := fieldOf bs (off + 1) 1
  let c := fieldOf bs (off + 4) 1
  { number := if v.number % 256 = n then v.number else n, kd := BitVec.ofNat 3 m, mode := BitVec.ofNat 2 (m / 8),
    given := ((List.range 16).filter fun i => mask / 2 ^ i % 2 == 1).map fun i => (i, c / 2 % 2 == 1, c % 2 == 1) }

def memberMask (xs : List Nat) : Nat := (xs.eraseDups.map fun i => 2 ^ i).foldl (· + ·) 0

def barrierBytes (x : Barrier) : List Byte :=
  imageOf 32 [(0, leBytes 1 x.gen.toNat), (1, leBytes 3 x.arrived.toNat), (4, x.points.flatMap fun p => leBytes 1 p.toNat)]

def barrierVectors (x : Barrier) : List Byte :=
  (x.accum.flatMap fun p => leBytes 1 p.toNat) ++ zeros 1 ++ (x.carried.flatMap fun p => leBytes 1 p.toNat) ++ zeros 1

/-- A barrier from its images. -/
def barrierOf (bs : List Byte) (n : Nat) : Barrier :=
  let at_ := 0x320 + 32 * n
  let vs := 0x600 + 36 * n
  let vec := fun o : Nat => (List.range 17).map fun i => BitVec.ofNat 6 (fieldOf bs (o + i) 1)
  ⟨BitVec.ofNat 6 (fieldOf bs at_ 1), BitVec.ofNat 17 (fieldOf bs (at_ + 1) 3), vec (at_ + 4), vec vs, vec (vs + 18)⟩

/-- Bytes as a memory from address 0. -/
def memOf (bs : List Byte) : Mem := ((numbered bs).filter fun q => q.2 != 0).map fun q => (q.1, q.2)

/-- The bytes of a weight plane (R197). -/
def planeImage (p : Plane) : List Byte := readBytes p.bytes 0 43008

/-- A block still has its prologue allotment only (R230). -/
def prologueOnly (b : Block) : Bool := !b.acqDone

def blockImage (s : State) (b : Block) : List Byte :=
  let ws := s.wavesOf b.id
  let counts := (List.range 16).map fun i => match ws.find? fun w => w.index == i with
    | some w => w.voteCount
    | none => 0
  imageOf 0x19000
    [(0x0000, leBytes 8 b.pc.toNat),
     (0x0008, leBytes 8 ((if b.idem then 1 else 0) + (if b.sortHeld then 2 else 0) + (if prologueOnly b then 4 else 0) +
        256 * b.unwaited.length)),
     (0x0010, leBytes 8 (b.firstGran + 256 * b.granules + 65536 * b.accFirst + 2 ^ 25 * (b.accRows / 16))),
     (0x0018, leBytes 4 b.ident.toNat), (0x001C, leBytes 2 b.closed.toNat ++ leBytes 2 b.completed.toNat),
     (0x0020, dwords b.b), (0x0120, leBytes 1 b.k.toNat), (0x0122, leBytes 2 b.lastSeq.toNat),
     (0x0128, leBytes 4 b.tk0.toNat ++ leBytes 4 b.tk1.toNat), (0x0130, loopBytes b.loops), (0x0170, dwords b.calls),
     (0x01B0, leBytes 4 (bstkOf b.loops b.calls)), (0x01B4, b.groups.flatMap fun x => leBytes 1 x.toNat),
     (0x01B8, (b.points.flatMap fun x => leBytes 1 x.toNat) ++ leBytes 1 b.arrivals.toNat), (0x01C0, dwords b.fwin),
     (0x0200, leBytes 4 b.qpct.toNat), (0x0210, (b.mr ++ b.mc).flatMap fun x => leBytes 16 x.toNat),
     (0x0290, leBytes 2 b.nextSeq.toNat), (0x02A0, b.tokens.flatMap tokenBytes), (0x0320, b.bars.flatMap barrierBytes),
     (0x0520, counts.flatMap (leBytes 1) ++ voteBytes b.votes (memberMask b.votes.delivered)),
     (0x0560, leBytes 4 b.fault.toNat), (0x0580, clockBytes b.clock), (0x0600, b.bars.flatMap barrierVectors),
     (0x1000, allQueues.flatMap fun q => imageOf 1024 [(0, (queueOf b q).flatMap queueEntry)]),
     (0x2400, (queueOf b .copy).flatMap castList), (0x3500, b.stops.flatMap stopBytes),
     (0x3640, [b.active.fmt, b.active.geom, b.shadow.fmt, b.shadow.geom].flatMap (leBytes 1)),
     (0x4000, planeImage b.active), (0xE800, planeImage b.shadow)]

/-- A queue entry takes back its operand values and QPCT (R342). -/
def takeEntry (bs : List Byte) (off : Nat) (c : Command) : Command :=
  { c with
    qpct := match c.instr with
      | .qscale .. => BitVec.ofNat 11 (fieldOf bs (off + 4) 4)
      | _ => c.qpct,
    d := BitVec.ofNat 64 (fieldOf bs (off + 8) 8), a := BitVec.ofNat 64 (fieldOf bs (off + 16) 8),
    b := BitVec.ofNat 64 (fieldOf bs (off + 24) 8) }

def takeQueues (bs : List Byte) (qs : List (List Command)) : List (List Command) :=
  (numbered qs).map fun q => (numbered q.2).map fun e => takeEntry bs (0x1000 + 1024 * q.1 + 32 * e.1) e.2

/-- A block takes back what its block slot holds (R220, R342, R345). The progress of its commands, its armed ranges and what stands
in no image are kept in State (log 11). -/
def takeBlockImage (b : Block) (bs : List Byte) : Block :=
  let n := fieldOf bs 0x1B0 4
  { b with
    pc := BitVec.ofNat 64 (fieldOf bs 0 8), idem := fieldOf bs 8 1 % 2 == 1, ident := BitVec.ofNat 20 (fieldOf bs 0x18 4),
    closed := BitVec.ofNat 16 (fieldOf bs 0x1C 2), completed := BitVec.ofNat 16 (fieldOf bs 0x1E 2), b := dwordsOf bs 0x20 32,
    k := BitVec.ofNat 8 (fieldOf bs 0x120 1), lastSeq := BitVec.ofNat 16 (fieldOf bs 0x122 2),
    tk0 := BitVec.ofNat 32 (fieldOf bs 0x128 4), tk1 := BitVec.ofNat 32 (fieldOf bs 0x12C 4),
    loops := loopsOf bs 0x130 (n % 16), calls := dwordsOf bs 0x170 (n / 16 % 16),
    groups := (List.range 4).map fun j => BitVec.ofNat 8 (fieldOf bs (0x1B4 + j) 1),
    points := (List.range 5).map fun j => BitVec.ofNat 8 (fieldOf bs (0x1B8 + j) 1),
    arrivals := BitVec.ofNat 5 (fieldOf bs 0x1BD 1), fwin := dwordsOf bs 0x1C0 8, qpct := BitVec.ofNat 11 (fieldOf bs 0x200 4),
    mr := (List.range 4).map fun j => BitVec.ofNat 128 (fieldOf bs (0x210 + 16 * j) 16),
    mc := (List.range 4).map fun j => BitVec.ofNat 128 (fieldOf bs (0x250 + 16 * j) 16),
    nextSeq := BitVec.ofNat 16 (fieldOf bs 0x290 2), tokens := tokensOf bs 0x2A0 b.tokens.length,
    bars := (List.range 16).map (barrierOf bs), votes := voteOf b.votes bs 0x530 (fieldOf bs 0x532 2),
    fault := BitVec.ofNat 14 (fieldOf bs 0x560 4), clock := clockOf bs 0x580, queues := takeQueues bs b.queues,
    active := { b.active with bytes := memOf ((bs.drop 0x4000).take 43008) },
    shadow := { b.shadow with bytes := memOf ((bs.drop 0xE800).take 43008) } }

/-- A cell of the sort image (R67). -/
def cellBytes (x : SortCell) : List Byte :=
  leBytes 4 x.key.toNat ++ leBytes 4 x.payload.toNat ++ leBytes 2 x.origin.toNat

def cellOf (bs : List Byte) (off : Nat) : SortCell :=
  ⟨BitVec.ofNat 32 (fieldOf bs off 4), BitVec.ofNat 32 (fieldOf bs (off + 4) 4), BitVec.ofNat 14 (fieldOf bs (off + 8) 2)⟩

/-- The tags of a block's words, at the offsets of its granules. -/
def tagImage (b : Block) : List Byte :=
  (List.range (allotBytes b / 4)).flatMap fun i => leBytes 4 (mapGet 0 b.tags i).toNat

/-- A block, its waves, scratchpad, tags and sort cells in the core region (R340). -/
def saveBlockImage (s : State) (c : Context) (b : Block) : State :=
  let base := coreRegion c.save b.isle b.core
  let at_ := fun (s : State) (o : Nat) (bs : List Byte) => saveAt s c b.isle (base + BitVec.ofNat 64 o) bs
  let kernel := (s.grid? b.grid).map (·.kernel)
  let s1 := (s.wavesOf b.id).foldl (fun s w => match kernel with
    | some k => if w.phase == .exited then s else
        at_ (at_ s (0x4400 * w.slot) (waveImage s k w)) (0x453000 + 2 * w.slot) (leBytes 2 w.armed.toNat)
    | none => s) s
  let s2 := at_ s1 (0x220000 + 0x19000 * b.slot) (blockImage s1 b)
  let s3 := at_ s2 (0x2E8000 + 4096 * b.firstGran) (readBytes b.scratch 0 (allotBytes b))
  let s4 := at_ s3 (0x368000 + 4096 * b.firstGran) (tagImage b)
  if b.sortHeld then at_ s4 0x428000 ((sortArrayAt s4 b.isle b.core).cells.flatMap cellBytes) else s4

/-- Changes x by an image that can be read; what cannot is kept as State holds it (log 11). -/
def withImage {α : Type} (x : α) (f : α → List Byte → α) : Option (List Byte) → α
  | some bs => f x bs
  | none => x

/-- A saved block takes back its block slot, its scratchpad and tags, and the sort cells that it parked (R67, R345). -/
def takeSavedBlock (s : State) (c : Context) (b : Block) : Block :=
  if b.ended then b
  else
    let from_ := fun (o n : Nat) => loadAt s c b.isle (coreRegion c.save b.isle b.core + BitVec.ofNat 64 o) n
    let b1 := withImage b takeBlockImage (from_ (0x220000 + 0x19000 * b.slot) 0x19000)
    let b2 := withImage b1 (fun b bs => { b with scratch := memOf bs }) (from_ (0x2E8000 + 4096 * b.firstGran) (allotBytes b))
    let b3 := withImage b2 (fun b bs => { b with
        tags := (List.range (allotBytes b / 4)).foldl (fun m i => mapSet 0 m i (BitVec.ofNat 32 (fieldOf bs (4 * i) 4))) [] })
      (from_ (0x368000 + 4096 * b.firstGran) (allotBytes b))
    if b.sortHeld then withImage b3 (fun b bs => { b with parked := (List.range b.parked.length).map fun i => cellOf bs (10 * i) })
      (from_ 0x428000 (10 * b.parked.length))
    else b3

/-- A saved wave takes back its save slot, its arm bits, and its count of block votes, which its block's image holds (R98, R342). -/
def takeSavedWave (s : State) (c : Context) (w : Wave) : Wave :=
  match waveStanding s w, s.block? w.block with
  | some st, some b =>
    if w.phase == .exited || b.ended then w
    else
      let base := coreRegion c.save b.isle b.core
      let w1 := loadSlot s st w.slot w
      let w2 := withImage w1 (fun w bs => { w with armed := BitVec.ofNat 16 (leNat bs) })
        (loadAt s c b.isle (base + BitVec.ofNat 64 (0x453000 + 2 * w.slot)) 2)
      withImage w2 (fun w bs => if w.voteCount % 256 = leNat bs then w else { w with voteCount := leNat bs })
        (loadAt s c b.isle (base + BitVec.ofNat 64 (0x220000 + 0x19000 * b.slot + 0x520 + w.index)) 1)
  | _, _ => w

/-! ### Isle regions (R227, R343) -/

def isleRegion (save : Dword) (isle : Nat) : Dword := save + BitVec.ofNat 64 (0x24000 * isle)

/-- The BMCAST commands of blocks of a grid whose issuer has exited: entry, list and stop record. -/
def orphanCasts (s : State) (g : Grid) : List Byte :=
  ((s.blocksOf g.id).filter (·.ended)).flatMap fun b => (queueOf b .copy).flatMap fun c => match c.instr with
    | .bmcast .. => queueEntry c ++ castList c ++ stopBytes (some (stopRecordFor .copy causeStopped false c))
    | _ => []

def gridImage (s : State) (g : Grid) : List Byte :=
  (imageOf 4096
    [(0x000, leBytes 8 g.pc.toNat), (0x008, dwords g.g), (0x088, leBytes 1 g.k.toNat), (0x090, loopBytes g.loops),
     (0x0D0, dwords g.calls), (0x110, leBytes 4 (bstkOf g.loops g.calls)), (0x114, leBytes 4 g.fault.toNat),
     (0x118, leBytes 2 g.nextSeq.toNat), (0x120, g.tokens.flatMap tokenBytes),
     (0x220, zeros 16 ++ voteBytes g.votes g.votes.delivered.length), (0x240, leBytes 8 g.base.toNat),
     (0x248, leBytes 1 g.gbase), (0x24A, leBytes 2 g.runLen), (0x400, orphanCasts s g)]).take 4096

/-- A saved grid takes back its grid record (R220, R343, R345). -/
def takeGridImage (g : Grid) (bs : List Byte) : Grid :=
  let n := fieldOf bs 0x110 4
  { g with
    pc := BitVec.ofNat 64 (fieldOf bs 0 8), g := dwordsOf bs 8 16, k := BitVec.ofNat 8 (fieldOf bs 0x88 1),
    loops := loopsOf bs 0x90 (n % 16), calls := dwordsOf bs 0xD0 (n / 16 % 16), fault := BitVec.ofNat 14 (fieldOf bs 0x114 4),
    nextSeq := BitVec.ofNat 16 (fieldOf bs 0x118 2), tokens := tokensOf bs 0x120 g.tokens.length,
    base := BitVec.ofNat 64 (fieldOf bs 0x240 8) }

/-- A group-table entry (R227). -/
def groupBytes (slot : Nat) (x : GroupEntry) : List Byte :=
  leBytes 8 (x.gen.toNat + 2 ^ 8 * x.memb + 2 ^ 29 * x.arrv + 2 ^ 50 * slot + (if x.gseq then 2 ^ 55 else 0) +
    (if x.garr then 2 ^ 56 else 0) + 2 ^ 63)

/-- A parked entry takes back its image. -/
def takeGroup (x : GroupEntry) (bs : List Byte) : GroupEntry :=
  let n := leNat bs
  { x with gen := BitVec.ofNat 8 n, memb := n / 2 ^ 8 % 2 ^ 21, arrv := n / 2 ^ 29 % 2 ^ 21, gseq := n / 2 ^ 55 % 2 == 1,
           garr := n / 2 ^ 56 % 2 == 1 }

/-- A saved grid takes back its record and its group entries (R314, R345). -/
def takeSavedGrid (s : State) (c : Context) (g : Grid) : Grid :=
  let base := isleRegion c.save g.isle
  let g1 := withImage g takeGridImage (loadAt s c g.isle (base + BitVec.ofNat 64 (0x1000 * g.slot)) 4096)
  { g1 with parked := (numbered g.parked).map fun q =>
      withImage q.2 takeGroup (loadAt s c g.isle (base + BitVec.ofNat 64 (0x20000 + 8 * (g.gbase + q.1))) 8) }

def saveGroups (s : State) (c : Context) (g : Grid) : State :=
  (List.range g.runLen).foldl (fun s e =>
    saveAt s c g.isle (isleRegion c.save g.isle + BitVec.ofNat 64 (0x20000 + 8 * (g.gbase + e)))
      (groupBytes g.slot (s.groupEntry g e))) s

def saveGridImage (s : State) (c : Context) (g : Grid) : State :=
  saveGroups (saveAt s c g.isle (isleRegion c.save g.isle + BitVec.ofNat 64 (0x1000 * g.slot)) (gridImage s g)) c g

/-- The waiting blocks of a context on an isle: the progress list of R233. -/
def waitingBlocks (s : State) (c : Context) (isle : Nat) : List Block :=
  s.blocks.filter fun b => b.ctx == c.index && b.isle == isle && !b.ended && match s.grid? b.grid with
    | some g => blockWaiting s g b
    | none => false

/-- The halt record of an isle, and its progress list (R343). -/
def haltImage (c : Context) (isle waiting : Nat) : List Byte :=
  match c.halt with
  | none => zeros 64
  | some h => imageOf 64
      [(0, leBytes 8 (h.code + 256 * (h.reg % 64) + 2 ^ 14 * h.agent + (if h.isle = isle then 2 ^ 17 else 0) + 2 ^ 18 +
        2 ^ 19 * h.core + 2 ^ 24 * h.slot)), (8, leBytes 8 h.pc.toNat), (16, leBytes 4 waiting)]

def saveHaltRecord (s : State) (c : Context) (isle : Nat) : State :=
  let bs := match c.halt with
    | some h => if h.code = 0x16 then waitingBlocks s c isle else []
    | none => []
  let base := isleRegion c.save isle
  saveAt (saveAt s c isle (base + 0x20800) (haltImage c isle bs.length)) c isle (base + 0x21000)
    ((bs.take 1024).flatMap fun b => leBytes 4 b.ident.toNat)

/-! ### Core records (R344, R369) -/

def faultBytes (f : FaultEntry) : List Byte :=
  imageOf 64
    [(0, dwords f.record), (32, leBytes 4 (f.code + 256 * (f.reg % 64) + 2 ^ 14 * f.agent + (if f.first then 2 ^ 17 else 0))),
     (36, leBytes 4 f.slot), (40, leBytes 8 f.pc.toNat)]

/-- The fault log of a core: 64 entries and the count of all (R344). -/
def saveFaultLog (s : State) (c : Context) (core : Nat) : State :=
  let log := c.log.filter fun f => f.core == core
  let base := coreRegion c.save (core / 32) (core % 32) + 0x450000
  saveAt (saveAt s c (core / 32) base ((log.take 64).flatMap faultBytes)) c (core / 32) (base + 0x1000) (leBytes 8 log.length)

/-- The fault logs of all cores. -/
def saveFaultLogs (s : State) (c : Context) : State := (List.range 256).foldl (fun s core => saveFaultLog s c core) s

/-- The halt records of all isles. -/
def saveHaltRecords (s : State) (c : Context) : State := (List.range 8).foldl (fun s i => saveHaltRecord s c i) s

/-- The counters of a core go to its core record, at their offsets in the counter block (R340, R369). -/
def saveCoreCounters (c : Context) (s : State) (core : Nat) : State :=
  saveAt s c (core / 32) (coreRegion c.save (core / 32) (core % 32) + 0x452000)
    (imageOf 0x60 (ownCounters.map fun o => (o, leBytes 8 (mapGet 0 c.capture.counters (counterKey core o)))))

/-- The shared counters and CYC, which belong to no core, go to the region of isle 0 at their offsets in the counter block; those of
the other isles are zero (R339, R369). DESIGN CHOICE (log 16): the manual gives these areas no layout. -/
def saveSharedCounters (s : State) (c : Context) (isle : Nat) : State :=
  let count := fun o : Nat => if isle = 0 then (Config.sharedCount o c.index c.capture.opened s.clock 0).toNat else 0
  saveAt s c isle (isleRegion c.save isle + 0x23000) (imageOf 0x128
    ((0, leBytes 8 (if isle = 0 then windowCyc c s.clock else 0)) :: sharedCounters.map fun o => (o, leBytes 8 (count o))))

/-- The counters of an open window are saved with the context (R369). -/
def saveCounters (s : State) (c : Context) : State :=
  if c.capture.isOpen then
    (List.range 8).foldl (fun s i => saveSharedCounters s c i) ((List.range 256).foldl (saveCoreCounters c) s)
  else s

/-- The save area of a context is written (R339). -/
def writeSaveArea (s : State) (ctx : Nat) : State :=
  match s.ctx? ctx with
  | none => s
  | some c =>
    let s1 := (s.blocks.filter fun b => b.ctx == ctx && !b.ended).foldl (fun s b => saveBlockImage s c b) s
    let s2 := (s1.grids.filter fun g => g.ctx == ctx).foldl (fun s g => saveGridImage s c g) s1
    saveCounters (saveFaultLogs (saveHaltRecords s2 c) c) c

end Sys2Proof.Machine
end

