-- ==== Sys2Proof/Machine/Saving.lean ====
section
/-!
DEFINITION. Sys2Proof/Machine/Saving.lean: pre-emption, the forced save and the restore of a context (spec/22, R336 to R338, R345
to R347; spec/13, R220; spec/20, R318). A context is restored from its save area (log 11).
-/

namespace Sys2Proof.Machine

def waveContext (s : State) (w : Wave) : Option Nat := (s.block? w.block).map (·.ctx)

def State.ctxWaves (s : State) (ctx : Nat) : List Wave := s.waves.filter fun w => waveContext s w == some ctx
def State.ctxBlocks (s : State) (ctx : Nat) : List Block := s.blocks.filter fun b => b.ctx == ctx
def State.ctxGrids (s : State) (ctx : Nat) : List Grid := s.grids.filter fun g => g.ctx == ctx

/-! ### The request (R318, R336) -/

/-- The scheduler pre-empts a context, which counts once, at core 0 (R369, log 16): PREQ is set in every wave, uncommitted
reservations are released, and idempotent blocks are discarded. -/
def requestPreemption (s : State) (c : Context) : State :=
  if c.halted || c.saved || c.preempting then s
  else
    let s1 := s.putCtx { c with preempting := true }
    let s2 := { s1 with waves := s1.waves.map fun w => if waveContext s w == some c.index then { w with preq := true } else w }
    let s3 := releaseUncommitted s2 c.index
    let s4 := ((s3.ctxBlocks c.index).filter fun b => b.idem && !b.ended).foldl discardBlock s3
    addCounter s4 c.index 0 0x08 1

def execPreemptionRequest (ctx : Nat) (s : State) : Host.Outcome State Fault Refusal :=
  match s.ctx? ctx with
  | some c => eventNext (requestPreemption s c)
  | none => eventNext s

/-! ### Stopping (R337) -/

/-- A forced save stops a wave outside a run, or one that waits inside its run at a full/empty operation or a vote; any other
executes its run to the ENDR (R337). -/
def forceWave (w : Wave) : Wave :=
  if waveStands w then w
  else match w.run, w.phase with
    | none, _ => { w with phase := .stopped }
    | some _, .held .fullEmpty | some _, .held .vote => { w with phase := .stopped }
    | some _, _ => w

def forcePhase : Phase → Phase
  | .ready | .held _ => .stopped
  | p => p

/-- The save is forced on every agent of a context that has not stopped. -/
def forceAgents (s : State) (ctx : Nat) : State :=
  { s with
    waves := s.waves.map fun w => if waveContext s w == some ctx then forceWave w else w,
    blocks := s.blocks.map fun b => if b.ctx == ctx && !b.ended then { b with phase := forcePhase b.phase } else b,
    grids := s.grids.map fun g => if g.ctx == ctx then { g with phase := forcePhase g.phase } else g }

/-- Every agent of a context stands where it may be saved. -/
def allStand (s : State) (ctx : Nat) : Bool :=
  (s.ctxWaves ctx).all waveStands && (s.ctxBlocks ctx).all (fun b => b.ended || phaseStands b.phase) &&
  (s.ctxGrids ctx).all fun g => phaseStands g.phase

/-! ### Completing the save (R83, R113, R334, R336) -/

/-- A wave's copies land and its results are written (R83, R113). -/
def quietWave (s : State) (id : Nat) : State :=
  let n := match s.wave? id with
    | some w => w.copies.length
    | none => 0
  let s1 := landCopies s id n
  match s1.wave? id with
  | some w => s1.putWave (writeAllResults w)
  | none => s1

/-- Every queue has a stop record: that of its stop, or one with cause stopped (R332). -/
def writeStops (b : Block) : Block :=
  { b with stops := allQueues.map fun q => match b.stops.getD (queueBit q) none with
      | some r => some r
      | none => some (stopRecordOf b q causeStopped false) }

/-- A block's queues stand at their prefixes with their stop records; the multicasts of an ended block too (R334, R343). -/
def quietBlock (s : State) (id : Nat) : State :=
  let s1 := allQueues.foldl (fun s q => closeGaps id q 256 s) s
  match s1.block? id with
  | some b => s1.putBlock (writeStops b)
  | none => s1

/-- The holder's cells leave the array with the block (R68). -/
def parkSort (s : State) (b : Block) : State :=
  let a := sortArrayAt s b.isle b.core
  let s0 := putSortArray s { a with waiting := a.waiting.filter (· != b.id) }
  if a.holder = some b.id then
    let s1 := putSortArray s0 { a with holder := none, waiting := a.waiting.filter (· != b.id) }
    match s1.block? b.id with
    | some b1 => s1.putBlock { b1 with parked := a.cells }
    | none => s1
  else s0

/-- The entries of a grid's run leave the group table with it. -/
def parkGroups (s : State) (g : Grid) : State :=
  let es := (List.range g.runLen).map (s.groupEntry g)
  let s1 := clearRun s g
  s1.putGrid { g with parked := es }

/-- The partitions of a context are free; their rows go to the save area (R66, R340). -/
def freePartitions (s : State) (ctx : Nat) : State :=
  let leave := fun (ps : List Partition) (b : Block) => if b.ended then ps else ps.map (leaveRows b)
  let s1 : State := { s with partitions := (s.ctxBlocks ctx).foldl leave s.partitions }
  let s2 := (s1.partitions.filter (·.ctx == ctx)).foldl savePartition s1
  { s2 with partitions := s2.partitions.filter (·.ctx != ctx) }

/-- The window's cycles stop counting while the context is switched out, and count again from its return (R369). -/
def stopCycles (c : Context) (now : Nat) : Context :=
  { c with capture := { c.capture with cyc := windowCyc c now, cycFrom := none } }
def resumeCycles (c : Context) (now : Nat) : Context :=
  { c with capture := { c.capture with cycFrom := if c.capture.isOpen then some now else none } }

/-- The save is complete: the area is written, and the context holds nothing on the isles. -/
def completeSave (s : State) (ctx : Nat) : State :=
  let s1 := ((s.ctxWaves ctx).map (·.id)).foldl quietWave s
  let s2 := ((s1.ctxBlocks ctx).map (·.id)).foldl quietBlock s1
  let s3 := freePartitions (writeSaveArea s2 ctx) ctx
  let s4 := (s3.ctxBlocks ctx).foldl parkSort s3
  let s5 := (s4.ctxGrids ctx).foldl parkGroups s4
  match s5.ctx? ctx with
  | some c => s5.putCtx { stopCycles c s5.clock with saved := true }
  | none => s5

/-- A step of the save: a context being pre-empted stops its agents and is saved once they all stand; a halted one is saved
as it stands (R331, R336, R337). -/
def saveStep (s : State) (c : Context) : State :=
  if c.saved then s
  else if c.halted then completeSave s c.index
  else if c.preempting then
    let s1 := forceAgents (s.putCtx { c with forced := true }) c.index
    if allStand s1 c.index then completeSave s1 c.index else s1
  else s

def execForcedSave (ctx : Nat) (s : State) : Host.Outcome State Fault Refusal :=
  match s.ctx? ctx with
  | some c => eventNext (saveStep s c)
  | none => eventNext s

/-! ### Restoring (R220, R335, R345, R346) -/

/-- A saved wave as it goes on: an unanswered request is made again (R338). -/
def wakeWave (w : Wave) : Wave :=
  { w with preq := false, requests := [], phase := if w.phase == .stopped then .ready else w.phase }

/-- A saved block as it goes on: its queues resume from where they stopped (R202, R346). -/
def wakeBlock (b : Block) : Block :=
  { b with
    phase := if b.phase == .stopped then .ready else b.phase, request := none,
    stops := b.stops.map fun r => r.filter fun x => x.cause != causeStopped,
    queues := b.queues.map fun cs => cs.map fun c => { c with request := none } }

def wakeGrid (g : Grid) : Grid :=
  { g with phase := if g.phase == .stopped then .ready else g.phase, request := none, parked := [] }

/-- A grid goes into a free slot and run of its isle, its entries exactly as they were; the parts of a gang keep one base. -/
def restoreGrid (s : State) (g : Grid) : Option State :=
  let base := match s.grids.find? fun p => p.launch == g.launch && p.stage == g.stage with
    | some p => if runFree s g.isle p.gbase g.runLen then some p.gbase else none
    | none => freeRun (groupRunsOn s g.isle) groupTableSize g.runLen
  match lowestFree ((s.gridsOn g.isle).map (·.slot)) gridSlots, base with
  | some slot, some base =>
    let g1 := { wakeGrid g with slot := slot, gbase := base, reserved := [] }
    let s1 := { s with grids := s.grids ++ [g1] }
    some ((numbered g.parked).foldl (fun s q => s.putGroup g1 q.1 q.2) s1)
  | _, _ => none

/-- A block that holds the sort array goes onto a core whose array is free (R349). -/
def sortFree (s : State) (b : Block) (core : Nat) : Bool := (sortArrayAt s b.isle core).holder.isNone || !b.sortHeld

/-- The room that a saved block needs on a core. -/
def restoreRoom (s : State) (g : Grid) (b : Block) (ws : List Wave) (core : Nat) : Option Allotment :=
  let live := (ws.filter fun w => w.phase != .exited).map (·.index)
  match lowestFree (takenSlots s b.isle core none) blockSlots,
      freeRun (granuleRuns s b.isle core none) coreGranules b.granules,
      freeRun (accumulatorRuns s b.isle core b.ctx none) partitionRows b.accRows,
      assignLanes g.kernel live (laneLoads s b.isle core none) [] with
  | some slot, some gr, some a, some lanes =>
    if sortFree s b core && partitionAvailable s b.isle core b.ctx then some ⟨core, slot, gr, b.granules, a, b.accRows, lanes⟩ else none
  | _, _, _, _ => none

/-- The sort cells of a holder go into the array of its core. -/
def unparkSort (s : State) (b : Block) : State :=
  if b.sortHeld then
    let a := sortArrayAt s b.isle b.core
    (putSortArray s { a with holder := some b.id, last := some b.id, cells := b.parked }).putBlock { b with parked := [] }
  else s

/-- A block, with its waves, in the room found for it. -/
def restoreAt (s : State) (b : Block) (ws : List Wave) (a : Allotment) : State :=
  let s1 := bindPartition s b.isle a.core b.ctx
  let b1 := { wakeBlock b with core := a.core, slot := a.slot, firstGran := a.gran, accFirst := a.acc }
  let s2 := { s1 with
    blocks := s1.blocks ++ [b1],
    waves := s1.waves ++ ws.map fun w => match a.lanes.find? fun q => q.1 == w.index with
      | some q => { wakeWave w with lane := q.2.1, slot := q.2.2 }
      | none => wakeWave w }
  unparkSort s2 b1

/-- Restores a block onto a core of its isle: where room is reserved for the rest of its allotment, both together (R230,
R231, R345). -/
def restoreBlock (s : State) (b : Block) (ws : List Wave) (kept : Bool) : Option State :=
  if b.ended then some { s with blocks := s.blocks ++ [wakeBlock b], waves := s.waves ++ ws }
  else match s.grid? b.grid with
    | none => none
    | some g =>
      let cores := (List.range coresPerIsle).filter (coreUsable s b.isle)
      if kept then
        match cores.findSome? fun c => if sortFree s b c then findRoom s b.isle c b.ctx g.kernel true none else none with
        | some a =>
          let rest := { a with lanes := a.lanes.filter fun q => !ws.any fun w => w.index == q.1 }
          some (restoreAt (s.putGrid { g with reserved := g.reserved ++ [(b.index, rest)] }) b ws a)
        | none => none
      else (cores.findSome? fun c => restoreRoom s g b ws c).map (restoreAt s b ws)

/-- Reserves again what a saved grid holds reserved for blocks that are still to be placed. -/
def restoreReserved (s : State) (g : Grid) (indices : List Nat) : Option State :=
  match s.launch? g.launch with
  | some l => reserveBlocks g.id (stageCores s l g.isle g.stage) indices s
  | none => some s

/-- Applies a partial step to each element in turn. -/
def foldOption {α : Type} (f : State → α → Option State) : List α → State → Option State
  | [], s => some s
  | x :: xs, s => match f s x with
    | some s1 => foldOption f xs s1
    | none => none

/-- What a saved context brings back: its grids, blocks and waves. -/
structure SavedAgents where
  grids  : List Grid
  blocks : List Block
  waves  : List Wave

/-- The agents of a saved context as State holds them, and as its save area gives them (R220, R345). -/
def keptAgents (s : State) (ctx : Nat) : SavedAgents := ⟨s.ctxGrids ctx, s.ctxBlocks ctx, s.ctxWaves ctx⟩
def savedAgents (s : State) (c : Context) : SavedAgents :=
  ⟨(s.ctxGrids c.index).map (takeSavedGrid s c), (s.ctxBlocks c.index).map (takeSavedBlock s c),
    (s.ctxWaves c.index).map (takeSavedWave s c)⟩

/-- The state without a saved context's agents. -/
def withoutAgents (s : State) (ctx : Nat) : State :=
  { s with grids := s.grids.filter fun g => g.ctx != ctx, blocks := s.blocks.filter fun b => b.ctx != ctx,
           waves := s.waves.filter fun w => waveContext s w != some ctx }

/-- Every agent finds room, or none is restored. -/
def placeRestored (s : State) (c : Context) (r : SavedAgents) : Option State :=
  let s1 := (withoutAgents s c.index).putCtx { resumeCycles c s.clock with preempting := false, forced := false, saved := false }
  let kept := fun b : Block => r.grids.any fun g => g.id == b.grid && g.reserved.any fun x => x.1 == b.index
  let placed := fun (g : Grid) (i : Nat) => r.blocks.any fun b => b.grid == g.id && b.index == i
  (foldOption restoreGrid r.grids s1).bind fun s2 =>
    (foldOption (fun s b => restoreBlock s b (r.waves.filter fun w => w.block == b.id) (kept b)) r.blocks s2).bind fun s3 =>
      foldOption (fun s g => match s.grid? g.id with
        | some g1 => restoreReserved s g1 ((g.reserved.map (·.1)).filter fun i => !placed g i)
        | none => none) r.grids s3

/-- The blocks of a resident launch of a context would find room on isles that hold nothing else (R396). -/
def residentFits (s : State) (c : Context) (launch : Nat) : Bool :=
  let all := keptAgents s c.index
  let gs := all.grids.filter fun g => g.launch == launch
  let bs := all.blocks.filter fun b => gs.any fun g => g.id == b.grid
  let ws := all.waves.filter fun w => bs.any fun b => b.id == w.block
  let empty := { s with grids := [], blocks := [], waves := [], partitions := [], sorts := [], groups := [],
                        platform := { s.platform with underTest := [] } }
  (placeRestored empty c ⟨gs, bs, ws⟩).isSome

/-- The context is saved and holds a resident launch whose blocks no longer fit on its isles' usable cores (R396). -/
def residentLost (s : State) (c : Context) : Bool :=
  ((s.ctxGrids c.index).filter (·.resident)).any fun g => !residentFits s c g.launch

/-- A saved context halts where it is, and its halt record and fault logs join its save area (R331, R343, R344, R396). The halt's
cause code is a free one, since R327 gives none (log 6). -/
def haltSaved (s : State) (c : Context) : State :=
  let s1 := haltContext (nextFresh s 1) c.index ⟨freeCode s, 0, haltAgentCode .frontEnd, 0, 0, 0, 0⟩ []
  match s1.ctx? c.index with
  | some c1 => saveFaultLogs (saveHaltRecords s1 c1) c1
  | none => s1

/-- Restores a saved context whole, or halts it where a resident launch of it no longer fits (R345, R396). -/
def restoreContext (s : State) (c : Context) : State :=
  if !c.saved || c.halted then s
  else match placeRestored s c (savedAgents s c) with
    | some s1 => s1
    | none => if residentLost s c then haltSaved s c else s

def execContextRestore (ctx : Nat) (s : State) : Host.Outcome State Fault Refusal :=
  match s.ctx? ctx with
  | some c => eventNext (restoreContext s c)
  | none => eventNext s

end Sys2Proof.Machine
end

