-- ==== Sys2Proof/Machine/Registers.lean ====
section
/-!
DEFINITION. Sys2Proof/Machine/Registers.lean: the register pages and what the driver does through them (spec/03, R23, R28 to R30;
spec/20, R296 to R299, R324; spec/27, R387, R398), and the host's answers over ATS and PRI (R24, R25). Registers exist for the
driver once the scheduler has started (R399).
-/

namespace Sys2Proof.Machine

/-- A write of the driver takes effect only after power-up (R399). -/
def whenBooted (s : State) (t : State) : Host.Outcome State Fault Refusal := eventNext (if s.platform.booted then t else s)

/-! ### Registers without a behaviour of their own (R23, R30, R298, R324, R370, R387) -/

/-- The bits of a register that a write stores. -/
def keepBits (old v mask : Dword) : Dword := (old &&& ~~~mask) ||| (v &&& mask)

/-- A BASE field from bit `lo` to bit 51. -/
def baseMask (lo : Nat) : Dword := BitVec.ofNat 64 (2 ^ 52 - 2 ^ lo)

/-- CNTPOL f stands at offset 0x400 + 8f of isle 0's page (R370). -/
def cntpolIndex (isle offset : Nat) : Option Nat :=
  if isle = 0 ∧ 0x400 ≤ offset ∧ offset < 0x600 ∧ offset % 8 = 0 then some ((offset - 0x400) / 8) else none

/-- Writes a package-wide register of isle 0's page (R370, R387). -/
def writePlatformRegister (s : State) (offset : Nat) (v : Dword) : State :=
  let p := s.platform
  match offset with
  | 0x158 => { s with platform := { p with fnctxb := keepBits p.fnctxb v (baseMask 12) } }
  | 0x160 => { s with platform := { p with strtb := keepBits p.strtb v (BitVec.ofNat 64 (2 ^ 60 - 2 ^ 12)) } }
  | 0x168 => { s with platform := { p with pgrpb := keepBits p.pgrpb v (baseMask 12) } }
  | _ => match cntpolIndex 0 offset with
    | some f => { s with platform := { p with cntpol := p.cntpol.set f (v &&& 0x3FFF) } }
    | none => s

/-- Writes a plain register of an isle's page; a write to any other offset changes nothing. -/
def writeRegister (s : State) (isle offset : Nat) (v : Dword) : State :=
  let r := s.isle isle
  match offset with
  | 0x100 => s.putIsle isle { r with xltagb := keepBits r.xltagb v (baseMask 13) }
  | 0x108 => s.putIsle isle { r with xlinva := keepBits r.xlinva v (BitVec.ofNat 64 (2 ^ 57 - 2 ^ 16)) }
  | 0x120 => s.putIsle isle { r with fltrb := keepBits r.fltrb v (BitVec.ofNat 64 (2 ^ 56 - 2 ^ 12)) }
  | 0x128 => s.putIsle isle { r with tail := v.extractLsb' 32 32 }
  | 0x130 => s.putIsle isle { r with ctxtb := keepBits r.ctxtb v (baseMask 12) }
  | 0x138 => s.putIsle isle { r with qtb := keepBits r.qtb v (baseMask 12) }
  | 0x140 => s.putIsle isle { r with tenb := keepBits r.tenb v (baseMask 12) }
  | 0x178 => s.putIsle isle { r with retl := keepBits r.retl v (baseMask 12) }
  | _ => if isle = 0 then writePlatformRegister s offset v else s

/-- TPERIOD: below 10 it stores 10, above 10,000 it stores 10,000 (R298). -/
def execTperiodWrite (isle value : Nat) (s : State) : Host.Outcome State Fault Refusal :=
  whenBooted s (s.putIsle isle { s.isle isle with tperiod := max 10 (min 10000 (value % 2 ^ 14)) })

/-- PWRLIM: below 1,200 it stores 1,200, above 3,200 it stores 3,200; the later write stands (R387, R398). -/
def execPwrlimWrite (value : Nat) (s : State) : Host.Outcome State Fault Refusal :=
  whenBooted s { s with platform := { s.platform with pwrlim := max 1200 (min 3200 (value % 2 ^ 12)) } }

/-! ### Invalidations (R30) -/

def goBit : Dword := 0x80000000

/-- Starts an invalidation: a write while GO reads 1 is ignored. -/
def startInvalidation (s : State) (isle : Nat) (v : Dword) : State :=
  let r := s.isle isle
  if r.xlinvc.getLsbD 31 then s
  else
    { s.putIsle isle { r with xlinvc := v ||| goBit } with invalidating := mapSet 0 s.invalidating (isle + 1) r.xlinva }

/-- One page, at the address in XLINVA. -/
def execXlinvcOnePage (isle pasid size : Nat) (s : State) : Host.Outcome State Fault Refusal :=
  whenBooted s (if size < 3 then startInvalidation s isle (BitVec.ofNat 64 (pasid % 2 ^ 20 + size * 2 ^ 22)) else s)

/-- The bits of XLINVC's PASID and of its SZ. -/
def pasidMask : Dword := 0xFFFFF
def szMask : Dword := 0xC00000

/-- A write of XLINVC stores the fields that its step does not itself take, unless GO reads 1. -/
def storeFields (s : State) (isle : Nat) (mask v : Dword) : State :=
  let r := s.isle isle
  if r.xlinvc.getLsbD 31 then s else s.putIsle isle { r with xlinvc := keepBits r.xlinvc v mask }

/-- A whole PASID; SZ stands as the write stored it, and concerns one page alone. -/
def execXlinvcWholePasid (isle pasid : Nat) (s : State) : Host.Outcome State Fault Refusal :=
  whenBooted s (startInvalidation s isle
    (BitVec.ofNat 64 (pasid % 2 ^ 20 + 2 ^ 20) ||| ((s.isle isle).xlinvc &&& szMask)))

/-- All PASIDs; PASID and SZ stand as the write stored them. -/
def execXlinvcAllPasids (isle : Nat) (s : State) : Host.Outcome State Fault Refusal :=
  whenBooted s (startInvalidation s isle (BitVec.ofNat 64 (2 * 2 ^ 20) ||| ((s.isle isle).xlinvc &&& (pasidMask ||| szMask))))

/-- The bytes of the page that SZ names. -/
def invalidSize (sz : Nat) : Nat := if sz = 0 then 2 ^ 16 else if sz = 1 then 2 ^ 21 else 2 ^ 30

/-- A cached translation that an invalidation drops. -/
def dropsEntry (v va : Dword) (c : CachedXlat) : Bool :=
  match bitsAt' v 20 2 with
  | 0 =>
    let size := invalidSize (bitsAt' v 22 2)
    let lo := va.toNat % 2 ^ 57 / size * size
    c.pasid == bitsAt' v 0 20 && decide (c.page * 2 ^ c.shift < lo + size) && decide (lo < (c.page + 1) * 2 ^ c.shift)
  | 1 => c.pasid == bitsAt' v 0 20
  | _ => true
where bitsAt' (v : Dword) (lo n : Nat) : Nat := v.toNat / 2 ^ lo % 2 ^ n

/-- Every copy in flight of a PASID's waves performs: it was translated at its issue (R30, R82). -/
def landOf (s : State) (pick : Context → Bool) : State :=
  let ids := (s.waves.filter fun w => !w.copies.isEmpty && match waveStanding s w with
    | some st => pick st.ctx
    | none => false).map (·.id)
  ids.foldl (fun s id => match s.wave? id with
    | some w => landCopies s id w.copies.length
    | none => s) s

/-- The invalidation is complete: no isle holds a dropped translation, every access that used one has performed, and GO reads
0. -/
def completeInvalidation (s : State) (isle : Nat) : State :=
  let v := (s.isle isle).xlinvc
  if !v.getLsbD 31 then s
  else
    let va := mapGet 0 s.invalidating (isle + 1)
    let s1 := landOf s fun c => v.getLsbD 21 || c.pasid == v.toNat % 2 ^ 20
    { s1.putIsle isle { s1.isle isle with xlinvc := v &&& ~~~goBit } with
      cached := s1.cached.filter fun c => !dropsEntry v va c, invalidating := mapSet 0 s1.invalidating (isle + 1) 0 }

def execInvalidationComplete (isle : Nat) (s : State) : Host.Outcome State Fault Refusal :=
  eventNext (completeInvalidation s isle)

/-! ### Fault records (R28, R324) -/

/-- Entries of an isle's fault ring. -/
def ringEntries (r : IsleRegs) : Nat := 2 ^ (r.fltrb.toNat / 2 ^ 52 % 16 + 6)

/-- The 32 bytes of a fault record (R28). -/
def faultRecord (r : Request) : List Byte :=
  leBytes 8 (r.va.toNat % 2 ^ 57) ++
  leBytes 8 (r.pasid % 2 ^ 20 + r.kind % 16 * 2 ^ 20 + r.kind / 16 % 16 * 2 ^ 24 + r.core % 256 * 2 ^ 28 + r.seq % 2 ^ 16 * 2 ^ 48) ++
  zeros 16

/-- The requests before one in a list. -/
def requestsBefore (r : Request) : List Request → List Request
  | [] => []
  | x :: rest => if x = r then [] else x :: requestsBefore r rest

/-- The page request of a record is outstanding at the host: no more than PRI allocates to its function are (R389). -/
def pageSent (s : State) (r : Request) : Bool :=
  r.ats == 2 && decide (((requestsBefore r s.requests).filter fun x => x.ats == 2 && x.fn == r.fn && x.verdict.isNone).length <
    Config.priAllocation r.fn + 1)

/-- A request that has still to be reported on an isle: an ATS request is none, and a page request beyond the allocation waits
unreported (R28, R389). -/
def unreported (s : State) (isle : Nat) (r : Request) : Bool :=
  r.isle == isle && !r.written && r.verdict.isNone && (r.ats == 0 || pageSent s r)

/-- Marks the first request that a predicate picks as standing in the ring. -/
def markWritten (p : Request → Bool) : List Request → List Request
  | [] => []
  | r :: rest => if p r then { r with written := true } :: rest else r :: markWritten p rest

/-- The oldest unreported request of an isle is written at HEAD, unless the ring is full; MSI-X vector 1 follows (R324, R389). -/
def writeFaultRecord (s : State) (isle : Nat) : State :=
  let g := s.isle isle
  match s.requests.find? (unreported s isle) with
  | none => s
  | some r =>
    if (g.head - g.tail).toNat = ringEntries g then s
    else
      let addr := baseOf (g.fltrb &&& baseMask 12) + 32 * (g.head.toNat % ringEntries g)
      { s.putIsle isle { g with head := g.head + 1 } with
        hbm := hbmPut s.hbm addr (faultRecord r), requests := markWritten (unreported s isle) s.requests,
        platform := { s.platform with msix := s.platform.msix ++ [1] } }

def execFaultRecordWrite (isle : Nat) (s : State) : Host.Outcome State Fault Refusal := eventNext (writeFaultRecord s isle)

/-! ### Verdicts (R27, R29, R401) -/

/-- A context whose agents take verdicts now: not saved, and not halted (R331, R338). -/
def takesVerdicts (s : State) (ctx : Nat) : Bool :=
  match s.ctx? ctx with
  | some c => !c.halted && !c.saved
  | none => false

/-- A wave after the verdict on one of its requests. A wave that was switched out takes the trap as it comes back, and one that waits
in place in its run once its other threads have performed (R27); one that waits at a sequencer word takes it there. -/
def verdictWave (seq : Nat) (fail : Bool) (s : State) (w : Wave) : State :=
  let w1 := { w with requests := w.requests.erase seq }
  if !fail || !((waveContext s w).any (takesVerdicts s)) then s.putWave w1
  else if w.phase == .missed || w.run.isSome then s.putWave { w1 with missFailed := true }
  else takeTrap s { w1 with phase := .ready } 0x04

def verdictBlock (fail : Bool) (s : State) (b : Block) : State :=
  let b1 := { b with request := none }
  if fail && takesVerdicts s b.ctx then haltBlock s b1 0x04 0 [] else s.putBlock b1

def verdictGrid (fail : Bool) (s : State) (g : Grid) : State :=
  let g1 := { g with request := none }
  if fail && takesVerdicts s g.ctx then haltGrid s g1 0x04 0 else s.putGrid g1

/-- An engine's command goes on, or its queue stops with cause access. -/
def verdictEngine (seq : Nat) (fail : Bool) (s : State) (b : Block) (q : EngineQueue) : State :=
  match headOf b q with
  | some c =>
    if c.request = some seq then
      let b1 := putHead b q { c with request := none }
      if fail && takesVerdicts s b.ctx then stopEngine s b1 q causeAccess 0x04 [] else s.putBlock b1
    else s
  | none => s

def verdictEngines (seq : Nat) (fail : Bool) (s : State) (id : Nat) : State :=
  allQueues.foldl (fun s q => match s.block? id with
    | some b => verdictEngine seq fail s b q
    | none => s) s

/-- A queue's access is repeated, or ends as R401 tables. -/
def verdictQueue (seq : Nat) (fail : Bool) (q : Queue) : Queue :=
  match q.request with
  | some (n, va) => if n = seq then { q with request := none, failedAt := if fail then some va else q.failedAt } else q
  | none => q

/-- One verdict for every waiter of a record. -/
def giveVerdict (s : State) (r : Request) (fail : Bool) : State :=
  let s0 : State := { s with requests := s.requests.erase r }
  let ws := s0.waves.filter fun w => w.requests.contains r.seq && match s0.block? w.block with
    | some b => b.isle == r.isle
    | none => false
  let s1 := ws.foldl (verdictWave r.seq fail) s0
  let s2 := (s1.blocks.filter fun b => b.isle == r.isle && b.request == some r.seq).foldl (verdictBlock fail) s1
  let s3 := (s2.grids.filter fun g => g.isle == r.isle && g.request == some r.seq).foldl (verdictGrid fail) s2
  let s4 := ((s3.blocks.filter fun b => b.isle == r.isle).map (·.id)).foldl (verdictEngines r.seq fail) s3
  { s4 with queues := s4.queues.map fun q => if homeIsle q.index == r.isle then verdictQueue r.seq fail q else q }

/-- The record that a write to XLRESP answers: it stands in the ring and is not of CAUSE 3 (R29). -/
def answered (s : State) (isle seq : Nat) : Option Request :=
  s.requests.find? fun r => r.isle == isle && r.seq == seq && r.written && r.ats == 0 && r.verdict.isNone

def execXlrespRetry (isle seq : Nat) (s : State) : Host.Outcome State Fault Refusal :=
  match answered s isle seq with
  | some r => whenBooted s (giveVerdict s r false)
  | none => eventNext s

def execXlrespFail (isle seq : Nat) (s : State) : Host.Outcome State Fault Refusal :=
  match answered s isle seq with
  | some r => whenBooted s (giveVerdict s r true)
  | none => eventNext s

/-! ### ATS and PRI (R24, R25) -/

def atsMatches (isle pasid page : Nat) (a : AtsEntry) : Bool := a.isle == isle && a.pasid == pasid && a.page == page

/-- A number in a list of requests becomes another. -/
def renumber (old new : Nat) (ns : List Nat) : List Nat := ns.map fun n => if n = old then new else n

/-- Whoever waits on an isle for one request waits for another instead. -/
def moveWaiters (s : State) (isle old new : Nat) : State :=
  let here := fun w : Wave => (s.block? w.block).any fun b => b.isle == isle
  let opt := fun r : Option Nat => if r = some old then some new else r
  { s with
    waves := s.waves.map fun w => if here w then { w with requests := renumber old new w.requests } else w,
    blocks := s.blocks.map fun b => if b.isle == isle then
        { b with request := opt b.request, queues := b.queues.map fun cs => cs.map fun c => { c with request := opt c.request } }
      else b,
    grids := s.grids.map fun g => if g.isle == isle then { g with request := opt g.request } else g,
    queues := s.queues.map fun q => if homeIsle q.index == isle then
        { q with request := q.request.map fun x => (if x.1 = old then new else x.1, x.2) } else q }

/-- An ATS response to an outstanding request: the translation is cached and the waiters try again, or a page request is sent with
its record, on which they wait (R25, R28). -/
def completeAts (s : State) (r : AtsCompletion) : State :=
  match s.requests.find? fun q => q.isle == r.isle && q.pasid == r.pasid && q.ats == 1 && q.pages.contains r.page with
  | none => s
  | some q =>
    if r.found then
      let others := s.ats.filter fun a => !atsMatches r.isle r.pasid r.page a
      let entry : AtsEntry := ⟨r.isle, r.pasid, r.page, r.hpa / 4096 * 4096, r.read, r.write, r.execute⟩
      giveVerdict { s with ats := entry :: others } q false
    else
      let (s1, seq) := enterRequest { s with requests := s.requests.erase q } { q with ats := 2 }
      moveWaiters s1 q.isle q.seq seq

def execAtsTranslationCompletion (r : AtsCompletion) (s : State) : Host.Outcome State Fault Refusal :=
  eventNext (completeAts s r)

/-- A PRG Response to an outstanding page request: success leads to a new ATS request, anything else is a Fail verdict (R25, R29). -/
def answerPage (s : State) (r : PrgResponse) : State :=
  match s.requests.find? fun q => q.isle == r.isle && q.pasid == r.pasid && q.verdict.isNone && pageSent s q &&
      q.pages.contains r.page with
  | none => s
  | some q =>
    let s1 : State := { s with ats := s.ats.filter fun a => !(q.pages.any fun p => atsMatches r.isle r.pasid p a) }
    giveVerdict s1 q (!r.success)

def execPrgResponse (r : PrgResponse) (s : State) : Host.Outcome State Fault Refusal := eventNext (answerPage s r)

/-- The host invalidates a range: its entries are dropped, and the completion is owed (R24). -/
def execAtsInvalidationRequest (r : AtsInvalidation) (s : State) : Host.Outcome State Fault Refusal :=
  eventNext { s with
    ats := s.ats.filter fun a => !(a.pasid == r.pasid && decide (a.page * 4096 < r.base + r.size) && decide (r.base < (a.page + 1) * 4096)),
    atsInval := s.atsInval ++ [r] }

/-- The completion goes out once every access that used a dropped entry has performed (R24). -/
def sendCompletion (s : State) (tag : Nat) : State :=
  match s.atsInval.find? fun r => r.tag == tag with
  | none => s
  | some r =>
    let s1 := landOf s fun c => c.pasid == r.pasid
    { s1 with atsInval := s1.atsInval.erase r }

def execInvalidationCompletionSend (tag : Nat) (s : State) : Host.Outcome State Fault Refusal := eventNext (sendCompletion s tag)

end Sys2Proof.Machine
end

