-- ==== Sys2Proof/Machine/Contexts.lean ====
section
/-!
DEFINITION. Sys2Proof/Machine/Contexts.lean: creating and destroying contexts, enabling and disabling queues (spec/20, R296 to
R299), and the resets that destroy contexts (spec/27, R389, R394, R399).
-/

namespace Sys2Proof.Machine

/-! ### Creating a context (R296, R299) -/

/-- The 128 bytes of a context record on an isle. -/
def contextRecord (s : State) (isle ctx : Nat) : List Byte :=
  readBytes s.hbm (baseOf (s.isle isle).ctxtb + 128 * (ctx % 65536)) 128

/-- A context record keeps its limits, and its reserved bytes are zero. -/
def recordGood (r : List Byte) : Bool :=
  let root := fieldAt r 0 8
  root % 4096 == 0 && decide (root < 2 ^ 52) && inHbm root && decide (fieldAt r 8 4 < 2 ^ 20) && decide (fieldAt r 12 1 < 4) &&
  fieldAt r 13 1 == 0 && decide (fieldAt r 16 4 ≤ 1000000) && (r.drop 33).all (· == 0)

def emptyWatch : WatchPred := ⟨false, 0, 0, 0, 0, 0, 0⟩

/-- A new context: no queue enabled, counters at zero, every predicate disabled (R299, R351). -/
def contextOf (ctx : Nat) (r : List Byte) : Context :=
  let flags := fieldAt r 12 1
  { index := ctx, root := fieldAt r 0 8, pasid := fieldAt r 8 4, hash := flags % 2 == 1, debug := flags / 2 % 2 == 1,
    bkey := BitVec.ofNat 16 (fieldAt r 14 2), pto := if fieldAt r 16 4 = 0 then 1000 else fieldAt r 16 4,
    pdl := if fieldAt r 20 4 = 0 then 100000 else fieldAt r 20 4, save := BitVec.ofNat 64 (fieldAt r 24 8),
    tenant := fieldAt r 32 1, halted := false, preempting := false, forced := false, saved := false, halt := none, log := [],
    watch := List.replicate 16 emptyWatch, capture := emptyCapture, objects := [], taken := [] }

/-- CTXCMD after an operation: GO reads 0 and STATUS holds the outcome. -/
def setCtxcmd (s : State) (ctx op status : Nat) : State :=
  { s with platform := { s.platform with ctxcmd := BitVec.ofNat 64 (ctx % 65536 + op * 2 ^ 16 + status * 2 ^ 24) } }

/-- The outcome of a create: a status, or the new context. -/
def createOutcome (s : State) (ctx : Nat) : Nat × Option Context :=
  let r := contextRecord s 0 ctx
  let c := contextOf ctx r
  if (s.ctx? ctx).isSome then (1, none)
  else if !((List.range 8).all fun i => contextRecord s i ctx == r) || !recordGood r then (2, none)
  else if s.contexts.any fun x => x.pasid == c.pasid then (3, none)
  else (0, some c)

def createContext (s : State) (ctx : Nat) : State :=
  let (status, made) := createOutcome s ctx
  setCtxcmd (match made with
    | some c => { s with contexts := s.contexts ++ [c] }
    | none => s) ctx 1 status

def execCtxcmdCreate (ctx : Nat) (s : State) : Host.Outcome State Fault Refusal :=
  whenBooted s (createContext s (ctx % 65536))

/-! ### Destroying a context (R299, R318, R331) -/

/-- Some agent of the context is placed or saved. -/
def hasAgents (s : State) (ctx : Nat) : Bool := s.blocks.any (fun b => b.ctx == ctx && !b.ended) || s.grids.any (·.ctx == ctx)

/-- A queue that a destruction disables; its unanswered request is answered Fail, which ends the write it was made for. -/
def disabledQueue (q : Queue) : Queue :=
  { q with enabled := false, readySince := none, request := none,
           failedAt := if q.owed.isEmpty then none else q.request.map (·.2) }

def disableQueues (s : State) (ctx : Nat) : State :=
  { s with queues := s.queues.map fun q => if q.ctx == ctx then disabledQueue q else q }

/-- The unfinished launches, graphs and packets in hand of a context complete with STATUS 5 (R307, R321). -/
def endUnfinished (s : State) (ctx : Nat) : State :=
  let s1 := { s with launches := s.launches.map (endLaunchHalted ctx) }
  let s2 := settleLaunches s1
  let s3 := (s2.queues.filter fun q => q.ctx == ctx).foldl (fun s q => match s.queue? q.index, s.ctx? ctx with
    | some x, some c => endTaken s x c
    | _, _ => s) s2
  settleLaunches s3

/-- Nothing of the context remains on any isle; its save area is abandoned and its index is free. -/
def removeContext (s : State) (c : Context) : State :=
  let gone := fun x : Nat => x == c.index
  let ids := (s.ctxBlocks c.index).map (·.id)
  let s1 := if c.saved then s else (s.ctxGrids c.index).foldl clearRun s
  { s1 with
    contexts := s1.contexts.filter fun x => !gone x.index, queues := s1.queues.filter fun q => !gone q.ctx,
    launches := s1.launches.filter fun l => !gone l.ctx, grids := s1.grids.filter fun g => !gone g.ctx,
    blocks := s1.blocks.filter fun b => !gone b.ctx, waves := s1.waves.filter fun w => !ids.contains w.block,
    partitions := s1.partitions.filter fun p => !gone p.ctx, colls := s1.colls.filter fun x => !gone x.ctx,
    requests := s1.requests.filter fun r => r.pasid != c.pasid, cached := s1.cached.filter fun t => t.pasid != c.pasid,
    ats := s1.ats.filter fun a => a.pasid != c.pasid,
    sorts := s1.sorts.map fun a => { a with
      holder := a.holder.filter fun h => !ids.contains h, waiting := a.waiting.filter fun h => !ids.contains h } }

/-- Destroys a live context. -/
def destroyContext (s : State) (c : Context) : State :=
  let s1 := disableQueues s c.index
  let s2 := if hasAgents s c.index then haltContext s1 c.index ⟨0x19, 0, 4, 0, 0, 0, 0⟩ [] else s1
  let s3 := endUnfinished s2 c.index
  match s3.ctx? c.index with
  | some c1 => removeContext s3 c1
  | none => s3

def execCtxcmdDestroy (ctx : Nat) (s : State) : Host.Outcome State Fault Refusal :=
  whenBooted s (match s.ctx? (ctx % 65536) with
    | some c => setCtxcmd (destroyContext s c) ctx 2 0
    | none => setCtxcmd s ctx 2 1)

/-! ### Queues (R297, R299) -/

def setQcmd (s : State) (isle qloc op status : Nat) : State :=
  s.putIsle isle { s.isle isle with qcmd := BitVec.ofNat 64 (qloc + op * 2 ^ 16 + status * 2 ^ 24) }

/-- A queue record's EN, RING, LOG2 and PUBN are right. -/
def queueGood (r : List Byte) : Bool :=
  let log2 := fieldAt r 8 1 % 32
  fieldAt r 12 1 % 2 == 1 && decide (log2 ≤ 20) && fieldAt r 0 8 % (64 * 2 ^ log2) == 0 && decide (fieldAt r 9 1 % 16 ≤ 8)

/-- The queue that a record describes; a queue enabled again keeps what it has taken, the packet in hand too, and runs it to
completion. -/
def queueFrom (q : Nat) (r : List Byte) (old : Option Queue) : Queue :=
  { index := q, enabled := true, ring := BitVec.ofNat 64 (fieldAt r 0 8), log2 := fieldAt r 8 1 % 32,
    pubn := fieldAt r 9 1 % 16, ctx := fieldAt r 10 2, wptr := BitVec.ofNat 64 (fieldAt r 16 8),
    rptr := BitVec.ofNat 64 (fieldAt r 24 8), qstat := 0, next := none, sincePub := 0,
    taken := (old.map (·.taken)).getD 0, openPackets := (old.map (·.openPackets)).getD [],
    wait := (old.map (·.wait)).getD .none, graphs := (old.map (·.graphs)).getD [], owed := (old.map (·.owed)).getD [],
    request := old.bind (·.request), failedAt := old.bind (·.failedAt), readySince := none,
    heldCode := (old.map (·.heldCode)).getD [], heldOpen := (old.map (·.heldOpen)).getD [] }

def ctxLive (s : State) (ctx : Nat) : Bool :=
  match s.ctx? ctx with
  | some c => !c.halted
  | none => false

def enableQueue (s : State) (isle qloc : Nat) : State :=
  let q := isle * 16384 + qloc
  let old := s.queue? q
  let r := readBytes s.hbm (queueRecord s q) 32
  if old.any (·.enabled) then setQcmd s isle qloc 1 3
  else if !queueGood r then setQcmd s isle qloc 1 2
  else if !ctxLive s (fieldAt r 10 2) then setQcmd s isle qloc 1 1
  else
    let x := queueFrom q r old
    let s1 := { s with queues := s.queues.filter (fun y => y.index != q) ++ [x] }
    setQcmd (writeQstat s1 x 0) isle qloc 1 0

def execQcmdEnable (isle qloc : Nat) (s : State) : Host.Outcome State Fault Refusal :=
  whenBooted s (if isle < 8 then enableQueue s isle (qloc % 16384) else s)

/-- A disabled queue takes no further packet; what it has taken goes on. -/
def disableQueue (s : State) (isle qloc : Nat) : State :=
  let q := isle * 16384 + qloc
  if (s.queue? q).any (·.enabled) then
    setQcmd (onQueue s q fun x => { x with enabled := false, readySince := none }) isle qloc 2 0
  else setQcmd s isle qloc 2 3

def execQcmdDisable (isle qloc : Nat) (s : State) : Host.Outcome State Fault Refusal :=
  whenBooted s (if isle < 8 then disableQueue s isle (qloc % 16384) else s)

/-! ### A write of the driver (R23, R298, R387) -/

/-- A write of a command register that starts nothing: it stores the read-write fields (R30, R299). A reserved SCOPE, a reserved SZ
of one page, and a write while GO reads 1 change nothing. -/
def storeCommand (s : State) (isle offset : Nat) (v : Dword) : State :=
  let r := s.isle isle
  match offset with
  | 0x110 =>
    let scope := v.toNat / 2 ^ 20 % 4
    if r.xlinvc.getLsbD 31 || scope == 3 || (scope == 0 && v.toNat / 2 ^ 22 % 4 == 3) then s
    else s.putIsle isle { r with xlinvc := v &&& 0xFFFFFF }
  | 0x188 =>
    if isle = 0 then
      { s with platform := { s.platform with ctxcmd := keepBits s.platform.ctxcmd v 0x3FFFF } }
    else s
  | 0x190 => s.putIsle isle { r with qcmd := keepBits r.qcmd v 0x33FFF }
  | _ => s

/-- A 64-bit write of a driver to an isle's register page (R23, R298, R387). XLINVC, XLRESP, TPERIOD, CTXCMD, PWRLIM and QCMD
start their steps (R29, R30, R298, R299); CTXCMD and PWRLIM stand in isle 0's page; every other offset is a plain register. -/
def execRegisterWrite (isle offset : Nat) (v : Dword) (s : State) : Host.Outcome State Fault Refusal :=
  let n := v.toNat
  let stored : Host.Outcome State Fault Refusal := .next (if s.platform.booted then storeCommand s isle offset v else s)
  match offset with
  | 0x110 =>
    if !v.getLsbD 31 then stored
    else match n / 2 ^ 20 % 4 with
      | 0 => execXlinvcOnePage isle (n % 2 ^ 20) (n / 2 ^ 22 % 4) s
      | 1 => execXlinvcWholePasid isle (n % 2 ^ 20) (if s.platform.booted then storeFields s isle szMask v else s)
      | 2 => execXlinvcAllPasids isle (if s.platform.booted then storeFields s isle (pasidMask ||| szMask) v else s)
      | _ => .next s
  | 0x118 => match n / 2 ^ 16 % 4 with
    | 1 => execXlrespRetry isle (n % 2 ^ 16) s
    | 2 => execXlrespFail isle (n % 2 ^ 16) s
    | _ => .next s
  | 0x148 => execTperiodWrite isle n s
  | 0x180 => if isle = 0 then execPwrlimWrite n s else .next s
  | 0x188 =>
    if isle = 0 ∧ v.getLsbD 31 then
      match n / 2 ^ 16 % 4 with
      | 1 => execCtxcmdCreate (n % 2 ^ 16) s
      | 2 => execCtxcmdDestroy (n % 2 ^ 16) s
      | _ => stored
    else stored
  | 0x190 =>
    if v.getLsbD 31 then
      match n / 2 ^ 16 % 4 with
      | 1 => execQcmdEnable isle (n % 2 ^ 14) s
      | 2 => execQcmdDisable isle (n % 2 ^ 14) s
      | _ => stored
    else stored
  | _ => whenBooted s (writeRegister s isle offset v)

/-! ### Reads (R23, R302, R377, R387, R399) -/

/-- PARTID (R377). -/
def partId : Nat := 9 + 256 * Config.partStep.toNat

/-- A self-test is running on an isle. -/
def selfTesting (s : State) (isle : Nat) : Bool := s.platform.underTest.any fun n => n / coresPerIsle == isle

/-- UNITS of an isle: its usable cores, its two links, and whether a self-test runs (R387). -/
def unitsWord (s : State) (isle : Nat) : Dword :=
  BitVec.ofNat 64 ((s.isle isle).units.toNat % 2 ^ 32 + s.platform.links.toNat / 2 ^ (2 * isle) % 4 * 2 ^ 32 +
    (if selfTesting s isle then 2 ^ 34 else 0))

/-- Reads a package-wide register of isle 0's page (R299, R370, R387). -/
def readPlatformRegister (s : State) (offset : Nat) : Dword :=
  let p := s.platform
  match offset with
  | 0x158 => p.fnctxb
  | 0x160 => p.strtb
  | 0x168 => p.pgrpb
  | 0x180 => BitVec.ofNat 64 p.pwrlim
  | 0x188 => p.ctxcmd
  | _ => match cntpolIndex 0 offset with
    | some f => p.cntpol.getD f 0
    | none => 0

/-- Reads a register of an isle's page. XLRESP can only be written, and an offset without a register holds nothing: both read zero
(DESIGN CHOICE, log 9). -/
def readPlain (s : State) (isle offset : Nat) : Dword :=
  let r := s.isle isle
  match offset with
  | 0x100 => r.xltagb
  | 0x108 => r.xlinva
  | 0x110 => r.xlinvc
  | 0x120 => r.fltrb
  | 0x128 => r.tail ++ r.head
  | 0x130 => r.ctxtb
  | 0x138 => r.qtb
  | 0x140 => r.tenb
  | 0x148 => BitVec.ofNat 64 r.tperiod
  | 0x178 => r.retl
  | 0x190 => r.qcmd
  | _ => if isle = 0 then readPlatformRegister s offset else 0

/-- A read of a register page: UNITS and PARTID at any time, the others once the scheduler has started (R399). -/
def readRegister (s : State) (isle offset : Nat) : Dword :=
  if offset = 0x150 then BitVec.ofNat 64 partId
  else if offset = 0x170 then unitsWord s isle
  else if s.platform.booted then readPlain s isle offset
  else 0

/-- The device answers a read. -/
def answerRead (s : State) (v : Dword) : State := { s with platform := { s.platform with answers := s.platform.answers ++ [v] } }

/-! ### Resets (R388, R389, R394, R399) -/

/-- A function level reset of a virtual function: its contexts halt and are destroyed (R389). -/
def resetFunction (s : State) (fn : Nat) : State :=
  (s.contexts.filter fun c => functionOf s c.index == fn).foldl (fun s c => match s.ctx? c.index with
    | some x => destroyContext s x
    | none => s) s

def execFunctionLevelReset (fn : Nat) (s : State) : Host.Outcome State Fault Refusal :=
  eventNext (if 1 ≤ fn ∧ fn ≤ 63 then resetFunction s fn else s)

def destroyAll (s : State) : State :=
  s.contexts.foldl (fun s c => match s.ctx? c.index with
    | some x => destroyContext s x
    | none => s) s

/-- The module as power-up leaves it at step 2: every register and everything of contexts at reset, what flash keeps and the
memories as they are (R394, R399, log 9). -/
def restartModule (s : State) : State :=
  { State.reset with
    agenda := s.agenda, clock := s.clock, fresh := s.fresh, nextId := s.nextId, hbm := s.hbm, peer := s.peer, host := s.host,
    platform := { Platform.reset with operatorKey := s.platform.operatorKey, oneTime := s.platform.oneTime } }

/-- The cores of an isle that pass the tests of power-up (R395, R399). -/
def goodCores (isle : Nat) : Dword :=
  BitVec.ofNat 64 (((List.range coresPerIsle).filter fun j => !Config.coreFails (coreNumber isle j)).foldl (fun n j => n + 2 ^ j) 0)

/-- An isle's firmware does not run: its monitor image is refused (R393). -/
def monitorRefused (isle : Nat) : Bool := !Config.monitorRuns isle

/-- UNITS and RETL of an isle as the tests of power-up leave them; an isle whose monitor image is refused has no usable core
(R393, R395, R399). -/
def bootIsle (isle : Nat) (r : IsleRegs) : IsleRegs :=
  { r with units := if monitorRefused isle then 0 else r.units &&& goodCores isle,
           retl := BitVec.ofNat 64 (min 511 (Config.failedFrames isle).length) }

/-- The physical addresses of an isle's frames that failed the tests of power-up. -/
def lostFrames (isle : Nat) : List Nat := ((Config.failedFrames isle).take 511).map fun f => isle * isleSpan + 65536 * f

/-- The tenants whose plug-in image passes its checks under an operator key (R393). -/
def loadedPlugins (key : List Byte) : List Nat := (List.range 256).filter fun t => Config.pluginRuns t key

/-- Firmware runs: units are tested, UNITS and RETL take their values, the links that trained are up, and the scheduler starts on
the isles where monitor and scheduler image pass their checks (R393, R399). -/
def bootModule (s : State) : State :=
  let s1 := { nextFresh s 1 with
    isles := (numbered s.isles).map fun q => bootIsle q.1 q.2,
    platform := { s.platform with
      booted := true, links := (Config.freeDword s.fresh).setWidth 16, retired := (List.range 8).flatMap lostFrames,
      refused := (List.range 8).filter fun i => monitorRefused i || !Config.schedulerRuns i,
      plugins := loadedPlugins s.platform.operatorKey } }
  (List.range 8).foldl (fun s i =>
    { s with hbm := hbmPut s.hbm (baseOf (s.isle i).retl) ((lostFrames i).flatMap (leBytes 8)) }) s1

/-- Power-up runs once, while power is applied or when it comes back (R399). -/
def execPowerUp (s : State) : Host.Outcome State Fault Refusal :=
  eventNext (if s.platform.booted then s else bootModule (restartModule s))

/-- A hot reset or a link-down of the host link: every context is destroyed, and power-up is repeated from step 2 (R389). -/
def execHotReset (s : State) : Host.Outcome State Fault Refusal :=
  eventNext (bootModule (restartModule (destroyAll s)))

/-- The supply is removed: nothing but flash and fuses survives; an unwritten byte reads as log 3 says. -/
def execPowerLoss (s : State) : Host.Outcome State Fault Refusal :=
  let s1 := restartModule s
  eventNext { s1 with hbm := [], platform := { s1.platform with powered := false } }

end Sys2Proof.Machine
end

