-- ==== Sys2Proof/Machine/Platform.lean ====
section
/-!
DEFINITION. Sys2Proof/Machine/Platform.lean: stored-bit errors (spec/05, R70), Strait links and peers (spec/27, R390 to R392), self
tests (R395, R396), firmware, attestation and power (R393, R394, R397), and the samples and tagged records of a capture window
(spec/24, R365, R367, R368).
-/

namespace Sys2Proof.Machine

/-- What MSI-X vector 0 watches on an isle: UNITS, and RETL.COUNT (R387, R389). -/
def watchedUnits (s : State) (isle : Nat) : Dword × Nat := (unitsWord s isle, (s.isle isle).retl.toNat % 512)

/-- MSI-X vector 0 follows a change of UNITS or RETL.COUNT on some isle (R389). -/
def signalUnits (old s : State) : State :=
  if (List.range 8).all fun i => watchedUnits old i == watchedUnits s i then s
  else { s with platform := { s.platform with msix := s.platform.msix ++ [0] } }

/-! ### Which tests the firmware owes (R395) -/

/-- A unit of an isle: cores 0 to 31, links 32 and 33, the far cache 34, frames from 35. -/
def unitKey (isle unit : Nat) : Nat := isle * 2 ^ 24 + unit

/-- The firmware owes a test of a unit. -/
def oweTest (s : State) (key : Nat) : State :=
  { s with platform := { s.platform with dueTests := if s.platform.dueTests.contains key then s.platform.dueTests
      else s.platform.dueTests ++ [key] } }

/-- A test is over: a unit that passed returns to service, and its error counts as transient (R395). -/
def testDone (s : State) (key : Nat) (passed : Bool) : State :=
  { s with platform := { s.platform with
      dueTests := s.platform.dueTests.filter (· != key),
      transient := if passed then mapSet 0 s.platform.transient key (mapGet 0 s.platform.transient key + 1)
        else s.platform.transient } }

/-- A corrected error of a unit: every 64th within a second makes the firmware test the unit (R395). -/
def correctedError (s : State) (key : Nat) : State :=
  let near := s.platform.corrected.filter fun q => q.1 == key && Config.withinSecond q.2 s.clock
  if 63 ≤ near.length then
    oweTest { s with platform := { s.platform with corrected := s.platform.corrected.filter fun q => q.1 != key } } key
  else { s with platform := { s.platform with corrected := s.platform.corrected ++ [(key, s.clock)] } }

/-! ### Stored-bit errors (R70) -/

/-- Two errors stand in one protected word: a 32-bit word of storage or of tags, or a 64-byte granule of a far cache. -/
def sameWord : BitError → BitError → Bool
  | .lane w r b, .lane w' r' b' => w == w' && r == r' && b / 32 == b' / 32
  | .scratch k y _, .scratch k' y' _ => k == k' && y / 4 == y' / 4
  | .tag k i _, .tag k' i' _ => k == k' && i == i'
  | .acc k r c _, .acc k' r' c' _ => k == k' && r == r' && c == c'
  | .sort k c _, .sort k' c' _ => k == k' && c == c'
  | .far i a _, .far i' a' _ => i == i' && a / 64 == a' / 64
  | _, _ => false

/-- The register that a row of a lane-file error names. -/
def rowReg (n : Nat) : Reg := if n < 64 then .v n else if n < 72 then .t (n - 64) else .tv (n - 72)

/-- A word has two wrong bits: the access that consumes it first raises the fault. -/
def spoilWord (s : State) : BitError → State
  | .lane w r b => match s.wave? w with
    | some x => s.putWave (if r < 76 then { x with bad := (rowReg r, b / 32) :: x.bad }
        else { x with badPreds := (r - 76, b / 32) :: x.badPreds })
    | none => s
  | .scratch k y _ => match s.block? k with
    | some x => s.putBlock { x with badWords := y / 4 :: x.badWords }
    | none => s
  | .tag k i _ => match s.block? k with
    | some x => s.putBlock { x with badTags := i :: x.badTags }
    | none => s
  | .acc k r c _ => match s.block? k with
    | some x => s.putBlock { x with badAcc := (128 * r + c) :: x.badAcc }
    | none => s
  | .sort k c _ => match s.block? k with
    | some x =>
      let a := sortArrayAt s x.isle x.core
      putSortArray s { a with bad := c :: a.bad }
    | none => s
  | .far i a _ => { s with platform := { s.platform with badFar := (i * isleSpan + a) / 64 :: s.platform.badFar } }

/-- The unit in which an error stands: the core of a wave or block, or a far cache (R395). -/
def errorUnit (s : State) : BitError → Option Nat
  | .lane w _ _ => ((s.wave? w).bind fun w => s.block? w.block).map fun b => unitKey b.isle b.core
  | .scratch k _ _ | .tag k _ _ | .acc k _ _ _ | .sort k _ _ => (s.block? k).map fun b => unitKey b.isle b.core
  | .far i _ _ => some (unitKey i 34)

/-- What an error of a unit leads to, where it stands in one. -/
def noteError (s : State) (e : BitError) (note : State → Nat → State) : State :=
  match errorUnit s e with
  | some key => note s key
  | none => s

/-- One wrong bit is corrected without effect; a second in its word cannot be. The firmware counts the first, and owes a test of the
unit for the second (R70, R395). -/
def storeError (s : State) (e : BitError) : State :=
  if s.platform.bitErrors.any fun x => sameWord x e && x != e then
    noteError (spoilWord { s with platform := { s.platform with
      bitErrors := s.platform.bitErrors.filter fun x => !sameWord x e } } e) e oweTest
  else if s.platform.bitErrors.contains e then s
  else noteError { s with platform := { s.platform with bitErrors := e :: s.platform.bitErrors } } e correctedError

def execStoredBitError (e : BitError) (s : State) : Host.Outcome State Fault Refusal := eventNext (storeError s e)

/-! ### Strait links and peers (R390, R391) -/

/-- The peers whose bytes a copy in flight reads. -/
def copyPeers (c : CopyInFlight) : List Nat := (c.parts.filter fun p => p.space == 1).map fun p => p.addr / 2 ^ 52

/-- Copies of a wave whose last usable link is down. -/
def lostCopies (s : State) (w : Wave) : List CopyInFlight :=
  w.copies.filter fun c => (copyPeers c).any fun p => !peerReachable s p

/-- The threads of a pending load or atomic whose peer no link reaches any more. -/
def lostThreads (s : State) (p : Pending) : Mask :=
  (p.peers.filter fun q => !peerReachable s q.2).foldl (fun m q => setBit m q.1 true) 0

/-- A pending result without its lost threads; none where no thread is left. -/
def keepThreads (s : State) (p : Pending) : Option Pending :=
  let lost := lostThreads s p
  if lost = 0 then some p
  else if p.mask &&& ~~~lost = 0 then none
  else some { p with mask := p.mask &&& ~~~lost, peers := p.peers.filter fun q => peerReachable s q.2 }

/-- The threads of a wave whose accesses a lost link ends. -/
def lostMask (s : State) (w : Wave) : Mask :=
  (lostCopies s w).foldl (fun m c => setBit m c.thread true) (w.pending.foldl (fun m p => m ||| lostThreads s p) 0)

/-- The accesses of a wave that a lost link ends: no old or loaded value and no copied byte is delivered, the threads stand in PCM,
and the wave takes trap 0x04 (R391). A store or an atomic that has performed here was done at the peer before the
link went down (DESIGN CHOICE, log 1). -/
def endLost (s : State) (id : Nat) : State :=
  match s.wave? id with
  | none => s
  | some w =>
    let lost := lostCopies s w
    let w1 := settleTags { w with
      copies := w.copies.filter fun c => !lost.contains c,
      tagCounts := lost.foldl (fun ts c => ts.modify c.tag (· - 1)) w.tagCounts,
      pending := w.pending.filterMap (keepThreads s), pcm := lostMask s w }
    if w.phase == .missed then s.putWave { w1 with missFailed := true } else takeTrap s { w1 with phase := .ready } 0x04

/-- A link goes down; the firmware owes its test (R391, R395). -/
def linkDown (s : State) (link : Nat) : State :=
  let s1 := signalUnits s (oweTest { s with platform := { s.platform with links := setBit s.platform.links link false } }
    (unitKey (link / 2) (32 + link % 2)))
  ((s1.waves.filter fun w => lostMask s1 w != 0 && (waveContext s1 w).any (takesVerdicts s1)).map (·.id)).foldl endLost s1

def execStraitLinkDown (link : Nat) (s : State) : Host.Outcome State Fault Refusal :=
  eventNext (if s.platform.links.getLsbD link then linkDown s link else s)

/-- The link replays a flit that fails its check; nothing else changes (R390). -/
def execFlitCrcFailure (link : Nat) (s : State) : Host.Outcome State Fault Refusal :=
  eventNext { s with platform := { s.platform with replays := s.platform.replays.modify link (· + 1) } }

/-- What a peer's access does to local HBM, or to an instance of a collective. -/
def performPeer (s : State) (addr : Nat) : PeerOp → State
  | .read _ => s
  | .write bytes => { s with hbm := hbmPut s.hbm addr bytes }
  | .atomic aop wide operand =>
    let n := if wide then 8 else 4
    let old := leNat (readBytes s.hbm addr n)
    { s with hbm := hbmPut s.hbm addr (leBytes n (atomicOp aop.toNat wide old (operand.toNat % 2 ^ (8 * n)))) }
  | .cas wide compare swap =>
    let n := if wide then 8 else 4
    if leNat (readBytes s.hbm addr n) = compare.toNat % 2 ^ (8 * n) then
      { s with hbm := hbmPut s.hbm addr (leBytes n swap.toNat) }
    else s
  | .contribute ctx group inst rank params source => contribute s ctx group inst rank params source
  | .collEnded ctx group inst rank => endMember s ctx group inst rank

/-- The bytes that an access reaches lie in local HBM (R12, R17). -/
def peerInside (addr : Nat) : PeerOp → Bool
  | .read n => rangeInHbm addr n
  | .write bytes => rangeInHbm addr bytes.length
  | .atomic _ wide _ | .cas wide _ _ => rangeInHbm addr (if wide then 8 else 4)
  | _ => true

/-- An access from a peer is performed at most once, whichever links carry its flits (R390). -/
def peerArrives (s : State) (r : PeerAccess) : State :=
  if !s.platform.links.getLsbD r.link || s.platform.peerSeen.any (fun q => q.2 == r.id) || !peerInside r.addr r.op then s
  else performPeer { s with platform := { s.platform with peerSeen := (r.link, r.id) :: s.platform.peerSeen } } r.addr r.op

def execPeerAccess (r : PeerAccess) (s : State) : Host.Outcome State Fault Refusal := eventNext (peerArrives s r)

/-! ### Self tests (R395, R396) -/

/-- The contexts that hold something on a core. -/
def contextsOn (s : State) (isle core : Nat) : List Nat :=
  (((s.blocksOn isle core).map (·.ctx)) ++ (reservedOn s isle core).map fun r => r.1.ctx).eraseDups

/-- A core is to be tested: it takes no block, and every context with agents on it is pre-empted. -/
def beginCoreTest (s : State) (isle core : Nat) : State :=
  let n := coreNumber isle core
  let under := if s.platform.underTest.contains n then s.platform.underTest else n :: s.platform.underTest
  (contextsOn s isle core).foldl (fun s x => match s.ctx? x with
    | some c => requestPreemption s c
    | none => s) { s with platform := { s.platform with underTest := under } }

/-- The test of an empty core ends: it returns to service, or its bit of UNITS.CORE is cleared. -/
def endCoreTest (s : State) (isle core : Nat) (passed : Bool) : State :=
  let s1 := { s with platform := { s.platform with underTest := s.platform.underTest.filter (· != coreNumber isle core) } }
  if passed then s1
  else s1.putIsle isle { s1.isle isle with units := (s1.isle isle).units &&& ~~~BitVec.ofNat 64 (2 ^ core) }

/-- A link that passes is up, unless it has failed since power-up; one that fails stays down until the next. -/
def endLinkTest (s : State) (link : Nat) (passed : Bool) : State :=
  let p := s.platform
  if !passed then { s with platform := { p with links := setBit p.links link false, failedLinks := setBit p.failedLinks link true } }
  else if p.failedLinks.getLsbD link then s
  else { s with platform := { p with links := setBit p.links link true } }

/-- A frame that fails its test is appended to the list at RETL (R387, R395). -/
def retireFrame (s : State) (isle frame : Nat) : State :=
  let r := s.isle isle
  let n := r.retl.toNat % 512
  if n = 511 || s.platform.retired.contains (isle * isleSpan + 65536 * frame) then s
  else
    let s1 : State := { s with
      hbm := hbmPut s.hbm (baseOf r.retl + 8 * n) (leBytes 8 (isle * isleSpan + 65536 * frame)),
      platform := { s.platform with retired := (isle * isleSpan + 65536 * frame) :: s.platform.retired } }
    s1.putIsle isle { r with retl := r.retl + 1 }

/-- The tested far cache of an isle holds no wrong granule any more: it passed, or its lines bypass the slice (R395). -/
def clearFar (s : State) (isle : Nat) : State :=
  { s with platform := { s.platform with badFar := s.platform.badFar.filter fun g => 64 * g / isleSpan != isle } }

/-- A test of a unit that the firmware owes ends, where it can. -/
def endTest (s : State) (isle unit : Nat) (passed : Bool) : State :=
  let key := unitKey isle unit
  if unit < 32 then testDone (endCoreTest s isle unit passed) key passed
  else if unit < 34 then testDone (endLinkTest s (2 * isle + (unit - 32)) passed) key passed
  else testDone (clearFar s isle) key passed

/-- A test of one unit by the firmware: of a core, a link or a far cache where one is owed, of a core once nothing stands on it. No
error that R70 names calls for the test of a frame: it may come at any time (DESIGN CHOICE, log 17). -/
def testUnit (s : State) (isle unit : Nat) (passed : Bool) : State :=
  if 8 ≤ isle then s
  else if 35 ≤ unit then (if passed then s else retireFrame s isle (unit - 35))
  else if !s.platform.dueTests.contains (unitKey isle unit) then s
  else if unit < 32 && !(s.platform.underTest.contains (coreNumber isle unit) && (contextsOn s isle unit).isEmpty) then
    beginCoreTest s isle unit
  else endTest s isle unit passed

def execUnitSelfTest (isle unit : Nat) (passed : Bool) (s : State) : Host.Outcome State Fault Refusal :=
  eventNext (signalUnits s (testUnit s isle unit passed))

/-! ### Firmware, attestation, power (R393, R394, R397, R399) -/

/-- The driver enrols the operator key; the monitor checks the plug-in images under it (R393, log 17). -/
def execOperatorKeyEnrol (key : List Byte) (s : State) : Host.Outcome State Fault Refusal :=
  eventNext { s with platform := { s.platform with
    operatorKey := key, plugins := if s.platform.booted then loadedPlugins key else [] } }

/-- The firmware images of a report: boot ROM, monitor, scheduler, and the plug-in of each tenant whose image runs (R393, R394). -/
def reportImages (s : State) : List Nat := [0, 1, 2] ++ s.platform.plugins.map (3 + ·)

/-- The content of a report: the nonce, PARTID, and the security version and digest of each image (R394). -/
def reportContent (s : State) (nonce : List Byte) : List Byte :=
  nonce ++ leBytes 8 partId ++ (reportImages s).flatMap fun i => leBytes 4 (Config.imageVersion i) ++ Config.imageDigest i

/-- A report is signed with the next one-time index, which is in flash before the signature is released; after 2^20
signatures requests are refused (R394). -/
def signReport (s : State) (nonce : List Byte) : State :=
  if nonce.length != 32 || 2 ^ 20 ≤ s.platform.oneTime then s
  else
    let body := reportContent s nonce
    { s with platform := { s.platform with
        oneTime := s.platform.oneTime + 1,
        attests := s.platform.attests ++ [body ++ Config.signature s.platform.oneTime body] } }

def execAttestationReport (nonce : List Byte) (s : State) : Host.Outcome State Fault Refusal := eventNext (signReport s nonce)

/-- The arbiter gives a core a current limit, which changes no result (R397). -/
def execPowerArbiterTick (isle core limit : Nat) (s : State) : Host.Outcome State Fault Refusal :=
  let others := s.platform.limits.filter fun q => q.1 != isle * 32 + core
  eventNext { s with platform := { s.platform with limits := (isle * 32 + core, limit) :: others } }

/-- A configuration request receives Request Retry Status until the scheduler has started, and then completes; nothing that
the manual names is behind it (R399). -/
def execConfigurationRequest (_write : Bool) (_offset : Nat) (_value : Word) (s : State) : Host.Outcome State Fault Refusal :=
  eventNext { s with platform := { s.platform with retries := s.platform.retries ++ [!s.platform.booted] } }

/-! ### Samples and tagged records (R365, R367, R368) -/

/-- The class of a held agent (R367). -/
def holdClass : Hold → Nat
  | .scoreboard | .await | .voteRead => 3
  | .barrier _ | .group _ | .vote | .acq | .grpset => 4
  | .token => 5
  | .fullEmpty | .fence | .cpwait _ | .cpaLimit | .queueFull | .translation | .sortArray | .queueJoin | .debug => 6
  | .mwait | .sync _ | .batch => 7

/-- The class of an agent; which of the first three a ready agent has in the cycle is timing, and free (log 5). -/
def phaseClass (seed : Nat) : Phase → Nat
  | .ready => (Config.freeDword seed).toNat % 3
  | .held h => holdClass h
  | .missed | .lstepWait _ => 6
  | .stopped | .exiting | .exited => 8

/-- The 32 bytes of a sample (R367). -/
def sampleBytes (pc : Dword) (regions cls kind place : Nat) (ident : BitVec 20) : List Byte :=
  imageOf 32 [(0, leBytes 8 pc.toNat), (8, leBytes 8 regions), (16, leBytes 1 cls), (17, leBytes 1 kind),
    (20, leBytes 4 place), (24, leBytes 4 ident.toNat)]

/-- Writes a sample of an agent on a core at the sample buffer, or counts it as dropped (R365). -/
def writeSample (s : State) (c : Context) (isle core : Nat) (bytes : List Byte) : State :=
  let cap := c.capture
  let va := cap.sbuf + 64 + BitVec.ofNat 64 (32 * cap.scount)
  let s1 := match (if cap.scount < cap.scap && canonical va then translate s c isle va .store else .miss .invalid) with
    | .ok p =>
      let c1 := { c with capture := { cap with scount := cap.scount + 1 } }
      addCounter ((writeLoc s p.loc bytes).putCtx c1) c.index (coreNumber isle core) 0x50 1
    | _ => s.putCtx { c with capture := { cap with sdrop := cap.sdrop + 1 } }
  updateHeader s1 c.index isle true

/-- A window that samples is open, and the context's agents are placed. -/
def samples (c : Context) : Bool := c.capture.isOpen && c.capture.sbuf != 0 && !c.saved

/-- Who may be sampled: the lane or core that samples it, and its slot there (R367). -/
structure Sampled where
  key  : Nat
  slot : Nat
  deriving DecidableEq, Repr

/-- A wave that may be sampled: not one halted as a wave, nor one held at EXIT. -/
def waveSampled (b : Block) (w : Wave) : Option Sampled :=
  if b.ended || w.haltedWave || w.phase == .exiting || w.phase == .exited then none
  else some ⟨coreNumber b.isle b.core * lanesPerCore + w.lane, w.slot⟩

def blockSampled (b : Block) : Option Sampled :=
  if b.ended || b.phase == .exited then none else some ⟨2 ^ 14 + coreNumber b.isle b.core, b.slot⟩

/-- Everyone of a context who may be sampled. -/
def sampledOf (s : State) (ctx : Nat) : List Sampled :=
  (s.ctxBlocks ctx).flatMap fun b => (blockSampled b).toList ++ (s.wavesOf b.id).filterMap (waveSampled b)

/-- An agent's lane or core comes to it next: the eligible slots are sampled in turn (R367). -/
def sampleTurn (c : Context) (all : List Sampled) (x : Sampled) : Bool :=
  let last := mapGet 0 c.capture.rotation x.key
  let rank := fun slot : Nat => (slot + 1024 - last) % 1024
  all.all fun y => y.key != x.key || decide (rank x.slot ≤ rank y.slot)

/-- Each lane and core samples once a period: it has not yet, or all have and a new period begins (R367; the period is time, which
the model leaves out, log 5). -/
def samplePeriod (c : Context) (all : List Sampled) (x : Sampled) : Option (List Nat) :=
  if !c.capture.sampled.contains x.key then some (c.capture.sampled ++ [x.key])
  else if all.all fun y => c.capture.sampled.contains y.key then some [x.key]
  else none

/-- One sample of an agent where its lane or core comes to it, and what it writes. -/
def sampleAgent (s : State) (c : Context) (isle core : Nat) (x : Option Sampled) (bytes : List Byte) : State :=
  match x with
  | none => s
  | some x =>
    let all := sampledOf s c.index
    if !samples c || !sampleTurn c all x then s
    else match samplePeriod c all x with
      | none => s
      | some done =>
        let c1 := { c with capture := { c.capture with
          sampled := done, rotation := mapSet 0 c.capture.rotation x.key (x.slot + 1) } }
        writeSample ((nextFresh s 1).putCtx c1) c1 isle core bytes

/-- One sample of a wave or of a block sequencer. -/
def takeSample (s : State) : Agent → State
  | .wave id => match s.wave? id with
    | none => s
    | some w => match waveStanding s w, s.block? w.block with
      | some st, some b => sampleAgent s st.ctx st.isle st.core (waveSampled b w)
          (sampleBytes w.pc (recordRegions w.regions) (phaseClass s.fresh w.phase) 0 (recordPlace w.slot st.core st.isle) b.ident)
      | _, _ => s
  | .block id => match s.block? id with
    | none => s
    | some b => match blockStanding s b with
      | some st => sampleAgent s st.ctx b.isle b.core (blockSampled b)
          (sampleBytes b.pc 0 (phaseClass s.fresh b.phase) 1 (recordPlace b.slot b.core b.isle) b.ident)
      | none => s
  | .grid _ => s

def execPcSample (agent : Agent) (s : State) : Host.Outcome State Fault Refusal := eventNext (takeSample s agent)

/-- The tagged record of an issue; its cycle counts are free (logs 5, 16). -/
def taggedBytes (s : State) (w : Wave) (x : Issue) (place : Nat) : List Byte :=
  let free := fun k : Nat => (Config.freeDword (s.fresh + k)).toNat
  imageOf 64 [(0, leBytes 1 2), (1, leBytes 1 x.level), (2, leBytes 1 x.beats), (3, leBytes 1 x.passes),
    (4, leBytes 4 place), (8, leBytes 8 x.pc.toNat), (16, (List.range 5).flatMap fun k => leBytes 4 (free k)),
    (56, leBytes 8 (recordRegions w.regions))]

/-- The issue of a wave that its lane picks is recorded, once; which issue of a window is picked is chance (R368). -/
def writeTagged (s : State) (w : Wave) : State :=
  match waveStanding s w, w.issue with
  | some st, some x =>
    let cap := st.ctx.capture
    if !cap.isOpen || cap.twin == 0 || cap.rbuf == 0 || st.ctx.saved then s
    else
      let s1 := writeRecord ((nextFresh s 5).putWave { w with issue := none }) st.ctx.index st.isle
        (taggedBytes s w x (recordPlace w.slot st.core st.isle))
      if (s1.ctx? st.ctx.index).any fun c => c.capture.rcount != cap.rcount then
        addCounter s1 st.ctx.index (coreNumber st.isle st.core) 0x58 1
      else s1
  | _, _ => s

def execTaggedRecord (wave : Nat) (s : State) : Host.Outcome State Fault Refusal :=
  match s.wave? wave with
  | some w => eventNext (writeTagged s w)
  | none => eventNext s

end Sys2Proof.Machine
end

