-- ==== Sys2Proof/Machine/ThreadCmp.lean ====
section
/-!
DEFINITION. Sys2Proof/Machine/ThreadCmp.lean: compares and predicate logic (spec/10, R164 to R166).
-/

namespace Sys2Proof.Machine

/-- A combining type on whole predicates (R165): `c` where the condition holds, `act` the active threads, `idle` the threads
that are neither active nor halted, `pd` and `pe` the old values. -/
def combine (ct : BitVec 3) (c act idle pd pe : Mask) : Mask × Mask :=
  let t := act &&& c
  let f := act &&& ~~~c
  match ct.toNat with
  | 0 => ((pd &&& ~~~act) ||| t, (pe &&& ~~~act) ||| f)
  | 1 => ((pd &&& ~~~act &&& ~~~idle) ||| t, (pe &&& ~~~act &&& ~~~idle) ||| f)
  | 2 => (pd &&& ~~~f, pe ||| f)
  | 3 => (pd ||| t, pe &&& ~~~t)
  | 4 => (pd &&& ~~~t, pe ||| t)
  | 5 => (pd ||| f, pe &&& ~~~f)
  | _ => (pd &&& ~~~t, (pe &&& ~~~act) ||| (t &&& pd))

/-- The threads that are neither active nor halted (R165). -/
def idleThreads (w : Wave) : Mask := ~~~(w.exec ||| w.halted)

/-- Writes pd and pe of a compare under its combining type (R165). -/
def combineEffect (w : Wave) (d e ct : BitVec 3) (c : Mask) : Effect :=
  let (x, y) := combine ct c w.exec (idleThreads w) (predMask w d) (predMask w e)
  predEffect [(d, x), (e, y)]

def cmpOp (f : TC) (test : Word → Word → Bool) : ThreadOp :=
  ⟨1, f.s, 0, [single f.a, single f.b], [], fun src w =>
    let (a, b) := (src f.a, src f.b)
    combineEffect w f.d f.e f.c (maskOf fun i => test (rowAt a i) (rowAt b i))⟩

def dcmpOp (f : TC) (test : Nat → Nat → Bool) : ThreadOp :=
  ⟨1, f.s, 0, [pairAt f.a, pairAt f.b], [], fun src w =>
    let (a, ah, b, bh) := (src f.a, src (f.a + 1), src f.b, src (f.b + 1))
    combineEffect w f.d f.e f.c
      (maskOf fun i => test (pairAtThread a ah i).toNat (pairAtThread b bh i).toNat)⟩

def fcmpOp (f : TC) (test : Nat → Nat → Bool) : ThreadOp := cmpOp f fun x y => test x.toNat y.toNat

def execIcmpEq (f : TC) (s : State) := runThread (.icmpEq f) (cmpOp f fun x y => x == y) s
def execIcmpNe (f : TC) (s : State) := runThread (.icmpNe f) (cmpOp f fun x y => x != y) s
def execIcmpLt (f : TC) (s : State) := runThread (.icmpLt f) (cmpOp f fun x y => x.slt y) s
def execIcmpLe (f : TC) (s : State) := runThread (.icmpLe f) (cmpOp f fun x y => x.sle y) s
def execIcmpLtu (f : TC) (s : State) := runThread (.icmpLtu f) (cmpOp f fun x y => x.ult y) s
def execIcmpLeu (f : TC) (s : State) := runThread (.icmpLeu f) (cmpOp f fun x y => x.ule y) s
def execFcmpEq (f : TC) (s : State) := runThread (.fcmpEq f) (fcmpOp f (fpEq .fp32)) s
def execFcmpLt (f : TC) (s : State) := runThread (.fcmpLt f) (fcmpOp f (fpLt .fp32)) s
def execFcmpLe (f : TC) (s : State) := runThread (.fcmpLe f) (fcmpOp f (fpLe .fp32)) s
def execFcmpUn (f : TC) (s : State) := runThread (.fcmpUn f) (fcmpOp f (fpUnordered .fp32)) s
def execDcmpEq (f : TC) (s : State) := runThread (.dcmpEq f) (dcmpOp f (fpEq .fp64)) s
def execDcmpLt (f : TC) (s : State) := runThread (.dcmpLt f) (dcmpOp f (fpLt .fp64)) s
def execDcmpLe (f : TC) (s : State) := runThread (.dcmpLe f) (dcmpOp f (fpLe .fp64)) s
def execDcmpUn (f : TC) (s : State) := runThread (.dcmpUn f) (dcmpOp f (fpUnordered .fp64)) s

/-- PLOP: a truth table over two predicates (R166). -/
def plopOp (d e a b : BitVec 3) (t : BitVec 4) (c st : BitVec 3) : ThreadOp :=
  ⟨1, st, 0, [], [], fun _ w =>
    let (x, y) := (predMask w a, predMask w b)
    combineEffect w d e c (maskOf fun i =>
      t.getLsbD ((if x.getLsbD i then 2 else 0) + (if y.getLsbD i then 1 else 0)))⟩

def execPlop (d e a b : BitVec 3) (t : BitVec 4) (c st : BitVec 3) (s : State) :=
  runThread (.plop d e a b t c st) (plopOp d e a b t c st) s

end Sys2Proof.Machine
end

