-- ==== Sys2Proof/Machine/ThreadCross.lean ====
section
/-!
DEFINITION. Sys2Proof/Machine/ThreadCross.lean: cross-lane operations, reduction and scan (spec/10, R167 to R171).
-/

namespace Sys2Proof.Machine

/-- A cross-lane result: U for U va, else G; every thread of the wave is read, participating threads are written (R168). -/
def crossOp (f : TR) (pick : Nat → Nat) : ThreadOp :=
  ⟨1, f.s, 1, [single f.a], [single f.d], fun src w =>
    let a := src f.a
    plainEffect (participants w f.g) [(f.d, perThread [a] fun i => rowAt a (pick i))]⟩

/-- The distance of a legal offset code (R167). -/
def distanceOf (o : BitVec 6) : Nat := (crossDistance o).getD 1

def execXrot (f : TR) (s : State) := runThread (.xrot f) (crossOp f fun i => (i + distanceOf f.b) % 64) s
def execXbfly (f : TR) (s : State) := runThread (.xbfly f) (crossOp f fun i => i ^^^ distanceOf f.b) s
def execXrev (f : TR) (s : State) := runThread (.xrev f) (crossOp f fun i => i ^^^ (distanceOf f.b - 1)) s

/-- XBCAST: every participating thread receives the source thread's value as a U result (R168). -/
def xbcastOp (f : TR) : ThreadOp :=
  ⟨1, f.s, 1, [single f.a, single f.b], [single f.d], fun src w =>
    let (a, b) := (src f.a, src f.b)
    plainEffect (participants w f.g) [(f.d, .u (rowAt a ((rowAt b 0).toNat % 64)))]⟩

def execXbcast (f : TR) (s : State) := runThread (.xbcast f) (xbcastOp f) s

/-- XPERM: each thread names its own source thread (R169). -/
def xpermOp (f : TR) : ThreadOp :=
  ⟨1, f.s, 1, [single f.a, single f.b], [single f.d], fun src w =>
    let (a, b) := (src f.a, src f.b)
    plainEffect (participants w f.g)
      [(f.d, perThread [a] fun i => rowAt a ((rowAt b i).toNat % 64))]⟩

def execXperm (f : TR) (s : State) := runThread (.xperm f) (xpermOp f) s

/-! ### Reduction and scan (R170, R171) -/

/-- One combination of two present values, with its flags. -/
def reduceOp (op : Nat) (x y : Word) : Word × FpFlags :=
  match op with
  | 0 => (x + y, 0)
  | 1 => let r := fpAdd .fp32 .rne x.toNat y.toNat; (BitVec.ofNat 32 r.code, r.flags)
  | 2 => (sminWord x y, 0)
  | 3 => (smaxWord x y, 0)
  | 4 => (uminWord x y, 0)
  | 5 => (umaxWord x y, 0)
  | 6 => (x &&& y, 0)
  | 7 => (x ||| y, 0)
  | 8 => (x ^^^ y, 0)
  | 9 => let r := fpMinMax .fp32 false x.toNat y.toNat; (BitVec.ofNat 32 r.code, r.flags)
  | _ => let r := fpMinMax .fp32 true x.toNat y.toNat; (BitVec.ofNat 32 r.code, r.flags)

/-- The identity of an exclusive scan (R170). -/
def reduceIdentity (op : Nat) : Word :=
  match op with
  | 1 => 0x80000000 | 2 => 0x7FFFFFFF | 3 => 0x80000000 | 4 => 0xFFFFFFFF | 6 => 0xFFFFFFFF
  | 9 => 0x7F800000 | 10 => 0xFF800000 | _ => 0

/-- A partial value of a tree: absent, or a value. -/
abbrev Partial := Option Word

/-- comb of R171: an absent value is its identity. The flags of the rounding come with it. -/
def combPartial (op : Nat) (x y : Partial) : Partial × FpFlags :=
  match x, y with
  | none, z => (z, 0)
  | z, none => (z, 0)
  | some a, some b => let (v, fl) := reduceOp op a b; (some v, fl)

/-- A level of a tree over 64 threads: values, and the flags raised so far in each thread's place. -/
structure TreeLevel where
  vals  : List Partial
  flags : List FpFlags

/-- One step of REDX or SCANX: place i takes comb of the places that `pair i` names, or keeps its value. -/
def treeStep (op : Nat) (pair : Nat → Option (Nat × Nat)) (t : TreeLevel) : TreeLevel :=
  let out := (List.range 64).map fun i => match pair i with
    | some (x, y) => combPartial op (t.vals.getD x none) (t.vals.getD y none)
    | none => (t.vals.getD i none, 0)
  ⟨out.map (·.1), (List.range 64).map fun i => t.flags.getD i 0 ||| (out.getD i (none, 0)).2⟩

/-- Steps s = n − k, …, n − 1 of a tree. -/
def treeSteps (op : Nat) (pair : Nat → Nat → Option (Nat × Nat)) : Nat → Nat → TreeLevel → TreeLevel
  | 0, _, t => t
  | k + 1, s, t => treeSteps op pair k (s + 1) (treeStep op (pair s) t)

def redxPair (g s i : Nat) : Option (Nat × Nat) :=
  if i % g % 2 ^ (s + 1) = 0 then some (i, i + 2 ^ s) else none

def scanxPair (g s i : Nat) : Option (Nat × Nat) :=
  if 2 ^ s ≤ i % g then some (i - 2 ^ s, i) else none

/-- The whole tree of an instruction over the participating values of a row (R171). -/
def runTree (op g : Nat) (scan : Bool) (a : VRow) (part : Mask) : TreeLevel :=
  let start : TreeLevel :=
    ⟨(List.range 64).map fun i => if part.getLsbD i then some (rowAt a i) else none, List.replicate 64 0⟩
  treeSteps op (if scan then scanxPair g else redxPair g) (Nat.log2 g) 0 start

/-- The flags of a group go to every participating thread of it (R171): the OR over the group. -/
def groupFlags (t : TreeLevel) (g i : Nat) : FpFlags :=
  (List.range g).foldl (fun f j => f ||| t.flags.getD (i - i % g + j) 0) 0

/-- A thread produces a NaN: its own result is one, and no participating source of its group was (R47, R171). -/
def groupNaN (op : Nat) (result : Word) (a : VRow) (part : Mask) (g i : Nat) : Bool :=
  let base := i - i % g
  (op == 1 || op == 9 || op == 10) && isNaN .fp32 result.toNat &&
  !(List.range g).any fun j => part.getLsbD (base + j) && isNaN .fp32 (rowAt a (base + j)).toNat

/-- REDX and SCANX (R170, R171), latency 3. -/
def treeOp (f : TR) (x : TX) (scan : Bool) : ThreadOp :=
  let op := x.m.toNat % 16
  let excl := x.m.getLsbD 4
  let g := 64 / 2 ^ x.i.toNat
  ⟨2, f.s, 3, [single f.a], [single f.d], fun src w =>
    let a := src f.a
    let part := participants w f.g
    let t := runTree op g scan a part
    let value := fun i : Nat =>
      if scan && excl then
        (if i % g = 0 then none else t.vals.getD (i - 1) none).getD (reduceIdentity op)
      else if scan then (t.vals.getD i none).getD 0
      else (t.vals.getD (i - i % g) none).getD 0
    let row := if !scan && g == 64 then .u (value 0) else gRow value
    ⟨[(f.d, row)], part, [],
      (List.range 64).map fun i => if part.getLsbD i then groupFlags t g i else 0,
      maskOf fun i => part.getLsbD i && groupNaN op (value i) a part g i⟩⟩

def execRedx (f : TR) (x : TX) (s : State) := runThread (.redx f x) (treeOp f x false) s
def execScanx (f : TR) (x : TX) (s : State) := runThread (.scanx f x) (treeOp f x true) s

end Sys2Proof.Machine
end

