-- ==== Sys2Proof/Machine/Dispatch.lean ====
section
/-!
DEFINITION. Sys2Proof/Machine/Dispatch.lean: one arm for each constructor of Instr, each one direct call of its meaning.
-/

namespace Sys2Proof.Machine
open Sys2Proof

def exec (i : Instr) (s : State) : Host.Outcome State Fault Refusal :=
  match i with
  | .iadd f => Sys2Proof.Machine.execIadd f s
  | .isub f => Sys2Proof.Machine.execIsub f s
  | .imul f => Sys2Proof.Machine.execImul f s
  | .imulhi f => Sys2Proof.Machine.execImulhi f s
  | .imad f => Sys2Proof.Machine.execImad f s
  | .imadTx f x => Sys2Proof.Machine.execImadTx f x s
  | .imin f => Sys2Proof.Machine.execImin f s
  | .imax f => Sys2Proof.Machine.execImax f s
  | .umin f => Sys2Proof.Machine.execUmin f s
  | .umax f => Sys2Proof.Machine.execUmax f s
  | .and f => Sys2Proof.Machine.execAnd f s
  | .or f => Sys2Proof.Machine.execOr f s
  | .xor f => Sys2Proof.Machine.execXor f s
  | .shl f => Sys2Proof.Machine.execShl f s
  | .shr f => Sys2Proof.Machine.execShr f s
  | .sar f => Sys2Proof.Machine.execSar f s
  | .iaddi f => Sys2Proof.Machine.execIaddi f s
  | .andi f => Sys2Proof.Machine.execAndi f s
  | .ori f => Sys2Proof.Machine.execOri f s
  | .shli f => Sys2Proof.Machine.execShli f s
  | .shri f => Sys2Proof.Machine.execShri f s
  | .lea f => Sys2Proof.Machine.execLea f s
  | .lea64 f => Sys2Proof.Machine.execLea64 f s
  | .iadd64 f => Sys2Proof.Machine.execIadd64 f s
  | .popc f => Sys2Proof.Machine.execPopc f s
  | .clz f => Sys2Proof.Machine.execClz f s
  | .bfe f x => Sys2Proof.Machine.execBfe f x s
  | .bfi f x => Sys2Proof.Machine.execBfi f x s
  | .mov f => Sys2Proof.Machine.execMov f s
  | .movi d im st => Sys2Proof.Machine.execMovi d im st s
  | .movs d a h g st => Sys2Proof.Machine.execMovs d a h g st s
  | .sel f => Sys2Proof.Machine.execSel f s
  | .fadd f => Sys2Proof.Machine.execFadd f s
  | .faddTx f x => Sys2Proof.Machine.execFaddTx f x s
  | .fsub f => Sys2Proof.Machine.execFsub f s
  | .fsubTx f x => Sys2Proof.Machine.execFsubTx f x s
  | .fmul f => Sys2Proof.Machine.execFmul f s
  | .fmulTx f x => Sys2Proof.Machine.execFmulTx f x s
  | .ffma f => Sys2Proof.Machine.execFfma f s
  | .ffmaTx f x => Sys2Proof.Machine.execFfmaTx f x s
  | .fmin f => Sys2Proof.Machine.execFmin f s
  | .fmax f => Sys2Proof.Machine.execFmax f s
  | .fdiv f => Sys2Proof.Machine.execFdiv f s
  | .fdivTx f x => Sys2Proof.Machine.execFdivTx f x s
  | .fabs f => Sys2Proof.Machine.execFabs f s
  | .dadd f => Sys2Proof.Machine.execDadd f s
  | .daddTx f x => Sys2Proof.Machine.execDaddTx f x s
  | .dsub f => Sys2Proof.Machine.execDsub f s
  | .dsubTx f x => Sys2Proof.Machine.execDsubTx f x s
  | .dmul f => Sys2Proof.Machine.execDmul f s
  | .dmulTx f x => Sys2Proof.Machine.execDmulTx f x s
  | .dfma f => Sys2Proof.Machine.execDfma f s
  | .dfmaTx f x => Sys2Proof.Machine.execDfmaTx f x s
  | .dmin f => Sys2Proof.Machine.execDmin f s
  | .dmax f => Sys2Proof.Machine.execDmax f s
  | .ddiv f => Sys2Proof.Machine.execDdiv f s
  | .ddivTx f x => Sys2Proof.Machine.execDdivTx f x s
  | .dabs f => Sys2Proof.Machine.execDabs f s
  | .hadd f => Sys2Proof.Machine.execHadd f s
  | .hmul f => Sys2Proof.Machine.execHmul f s
  | .hfma f => Sys2Proof.Machine.execHfma f s
  | .hfmaTx f x => Sys2Proof.Machine.execHfmaTx f x s
  | .badd f => Sys2Proof.Machine.execBadd f s
  | .bmul f => Sys2Proof.Machine.execBmul f s
  | .bfma f => Sys2Proof.Machine.execBfma f s
  | .bfmaTx f x => Sys2Proof.Machine.execBfmaTx f x s
  | .hadd2 f => Sys2Proof.Machine.execHadd2 f s
  | .hmul2 f => Sys2Proof.Machine.execHmul2 f s
  | .hfma2 f => Sys2Proof.Machine.execHfma2 f s
  | .hfma2Tx f x => Sys2Proof.Machine.execHfma2Tx f x s
  | .hmax2 f => Sys2Proof.Machine.execHmax2 f s
  | .hmin2 f => Sys2Proof.Machine.execHmin2 f s
  | .badd2 f => Sys2Proof.Machine.execBadd2 f s
  | .bmul2 f => Sys2Proof.Machine.execBmul2 f s
  | .bfma2 f => Sys2Proof.Machine.execBfma2 f s
  | .bfma2Tx f x => Sys2Proof.Machine.execBfma2Tx f x s
  | .bmax2 f => Sys2Proof.Machine.execBmax2 f s
  | .bmin2 f => Sys2Proof.Machine.execBmin2 f s
  | .frcp f => Sys2Proof.Machine.execFrcp f s
  | .frsq f => Sys2Proof.Machine.execFrsq f s
  | .fsqrt f => Sys2Proof.Machine.execFsqrt f s
  | .fexp2 f => Sys2Proof.Machine.execFexp2 f s
  | .flog2 f => Sys2Proof.Machine.execFlog2 f s
  | .fsin f => Sys2Proof.Machine.execFsin f s
  | .fcos f => Sys2Proof.Machine.execFcos f s
  | .ftanh f => Sys2Proof.Machine.execFtanh f s
  | .cvtf f x => Sys2Proof.Machine.execCvtf f x s
  | .cvtfi f x => Sys2Proof.Machine.execCvtfi f x s
  | .cvtif f x => Sys2Proof.Machine.execCvtif f x s
  | .cvtii f x => Sys2Proof.Machine.execCvtii f x s
  | .qenc f x => Sys2Proof.Machine.execQenc f x s
  | .qdec f x => Sys2Proof.Machine.execQdec f x s
  | .fclass f => Sys2Proof.Machine.execFclass f s
  | .fqrcp f => Sys2Proof.Machine.execFqrcp f s
  | .icmpEq f => Sys2Proof.Machine.execIcmpEq f s
  | .icmpNe f => Sys2Proof.Machine.execIcmpNe f s
  | .icmpLt f => Sys2Proof.Machine.execIcmpLt f s
  | .icmpLe f => Sys2Proof.Machine.execIcmpLe f s
  | .icmpLtu f => Sys2Proof.Machine.execIcmpLtu f s
  | .icmpLeu f => Sys2Proof.Machine.execIcmpLeu f s
  | .fcmpEq f => Sys2Proof.Machine.execFcmpEq f s
  | .fcmpLt f => Sys2Proof.Machine.execFcmpLt f s
  | .fcmpLe f => Sys2Proof.Machine.execFcmpLe f s
  | .fcmpUn f => Sys2Proof.Machine.execFcmpUn f s
  | .dcmpEq f => Sys2Proof.Machine.execDcmpEq f s
  | .dcmpLt f => Sys2Proof.Machine.execDcmpLt f s
  | .dcmpLe f => Sys2Proof.Machine.execDcmpLe f s
  | .dcmpUn f => Sys2Proof.Machine.execDcmpUn f s
  | .plop d e a b t c st => Sys2Proof.Machine.execPlop d e a b t c st s
  | .xrot f => Sys2Proof.Machine.execXrot f s
  | .xbfly f => Sys2Proof.Machine.execXbfly f s
  | .xbcast f => Sys2Proof.Machine.execXbcast f s
  | .xrev f => Sys2Proof.Machine.execXrev f s
  | .redx f x => Sys2Proof.Machine.execRedx f x s
  | .scanx f x => Sys2Proof.Machine.execScanx f x s
  | .vote k p o m st => Sys2Proof.Machine.execVote k p o m st s
  | .ld f x => Sys2Proof.Machine.execLd f x s
  | .st f x => Sys2Proof.Machine.execSt f x s
  | .lds f x => Sys2Proof.Machine.execLds f x s
  | .sts f x => Sys2Proof.Machine.execSts f x s
  | .sld f x => Sys2Proof.Machine.execSld f x s
  | .sst f x => Sys2Proof.Machine.execSst f x s
  | .atom f x => Sys2Proof.Machine.execAtom f x s
  | .atoms f x => Sys2Proof.Machine.execAtoms f x s
  | .cas f x => Sys2Proof.Machine.execCas f x s
  | .cass f x => Sys2Proof.Machine.execCass f x s
  | .fence f x => Sys2Proof.Machine.execFence f x s
  | .cpa f x => Sys2Proof.Machine.execCpa f x s
  | .few f => Sys2Proof.Machine.execFew f s
  | .fer f => Sys2Proof.Machine.execFer f s
  | .fepeek f => Sys2Proof.Machine.execFepeek f s
  | .xperm f => Sys2Proof.Machine.execXperm f s
  | .nop c => Sys2Proof.Machine.execNop c s
  | .sadd f => Sys2Proof.Machine.execSadd f s
  | .ssub f => Sys2Proof.Machine.execSsub f s
  | .smul f => Sys2Proof.Machine.execSmul f s
  | .sand f => Sys2Proof.Machine.execSand f s
  | .sor f => Sys2Proof.Machine.execSor f s
  | .sxor f => Sys2Proof.Machine.execSxor f s
  | .sshl f => Sys2Proof.Machine.execSshl f s
  | .sshr f => Sys2Proof.Machine.execSshr f s
  | .ssar f => Sys2Proof.Machine.execSsar f s
  | .smin f u => Sys2Proof.Machine.execSmin f u s
  | .smax f u => Sys2Proof.Machine.execSmax f u s
  | .smovi c d im => Sys2Proof.Machine.execSmovi c d im s
  | .slui c d im => Sys2Proof.Machine.execSlui c d im s
  | .saddi c d im => Sys2Proof.Machine.execSaddi c d im s
  | .scmp c k a b f => Sys2Proof.Machine.execScmp c k a b f s
  | .kop c k a b t => Sys2Proof.Machine.execKop c k a b t s
  | .tkrd c d f => Sys2Proof.Machine.execTkrd c d f s
  | .strd c d h im => Sys2Proof.Machine.execStrd c d h im s
  | .stwr c a h im => Sys2Proof.Machine.execStwr c a h im s
  | .sldg c d a im => Sys2Proof.Machine.execSldg c d a im s
  | .sstg c d a im => Sys2Proof.Machine.execSstg c d a im s
  | .br c k n o => Sys2Proof.Machine.execBr c k n o s
  | .jmp c o => Sys2Proof.Machine.execJmp c o s
  | .call c o => Sys2Proof.Machine.execCall c o s
  | .ret c => Sys2Proof.Machine.execRet c s
  | .loop c im => Sys2Proof.Machine.execLoop c im s
  | .loopr c a => Sys2Proof.Machine.execLoopr c a s
  | .endl c => Sys2Proof.Machine.execEndl c s
  | .brk c k n o => Sys2Proof.Machine.execBrk c k n o s
  | .ifT p n => Sys2Proof.Machine.execIf p n s
  | .elseT => Sys2Proof.Machine.execElse s
  | .fiT => Sys2Proof.Machine.execFi s
  | .run t l a => Sys2Proof.Machine.execRun t l a s
  | .endr t a b c => Sys2Proof.Machine.execEndr t a b c s
  | .exit c => Sys2Proof.Machine.execExit c s
  | .yield c => Sys2Proof.Machine.execYield c s
  | .acq => Sys2Proof.Machine.execAcq s
  | .arrive c f => Sys2Proof.Machine.execArrive c f s
  | .wait c f => Sys2Proof.Machine.execWait c f s
  | .grpset a b l x => Sys2Proof.Machine.execGrpset a b l x s
  | .flagset a q => Sys2Proof.Machine.execFlagset a q s
  | .cpwait t => Sys2Proof.Machine.execCpwait t s
  | .enter a => Sys2Proof.Machine.execEnter a s
  | .leave => Sys2Proof.Machine.execLeave s
  | .trap x => Sys2Proof.Machine.execTrap x s
  | .tret => Sys2Proof.Machine.execTret s
  | .wpset a x n => Sys2Proof.Machine.execWpset a x n s
  | .dbgrd d a => Sys2Proof.Machine.execDbgrd d a s
  | .dbgwr a b => Sys2Proof.Machine.execDbgwr a b s
  | .lstep d a => Sys2Proof.Machine.execLstep d a s
  | .wresume a b j => Sys2Proof.Machine.execWresume a b j s
  | .mpred a b o c n => Sys2Proof.Machine.execMpred a b o c n s
  | .mzero a k r => Sys2Proof.Machine.execMzero a k r s
  | .mldw a n f => Sys2Proof.Machine.execMldw a n f s
  | .mswap => Sys2Proof.Machine.execMswap s
  | .mstrm a b f k r => Sys2Proof.Machine.execMstrm a b f k r s
  | .mcpy v x a b k r => Sys2Proof.Machine.execMcpy v x a b k r s
  | .mfence d => Sys2Proof.Machine.execMfence d s
  | .mwait a => Sys2Proof.Machine.execMwait a s
  | .srtld a b w => Sys2Proof.Machine.execSrtld a b w s
  | .srtgo a o e l k => Sys2Proof.Machine.execSrtgo a o e l k s
  | .srtst a b w => Sys2Proof.Machine.execSrtst a b w s
  | .bcopy d a b x w => Sys2Proof.Machine.execBcopy d a b x w s
  | .bmcast d a b => Sys2Proof.Machine.execBmcast d a b s
  | .gath d a b w => Sys2Proof.Machine.execGath d a b w s
  | .syncw d a b => Sys2Proof.Machine.execSyncw d a b s
  | .swait a b => Sys2Proof.Machine.execSwait a b s
  | .hist d a b w => Sys2Proof.Machine.execHist d a b w s
  | .qscale d a b w => Sys2Proof.Machine.execQscale d a b w s
  | .coll d a b w => Sys2Proof.Machine.execColl d a b w s
  | .qjoin m => Sys2Proof.Machine.execQjoin m s
  | .bpref a b => Sys2Proof.Machine.execBpref a b s
  | .illegalInstruction => Sys2Proof.Machine.execIllegalInstruction s
  | .faultRecordWrite isle => Sys2Proof.Machine.execFaultRecordWrite isle s
  | .waveReplay wave => Sys2Proof.Machine.execWaveReplay wave s
  | .loadWriteback wave index => Sys2Proof.Machine.execLoadWriteback wave index s
  | .tokenPop agent => Sys2Proof.Machine.execTokenPop agent s
  | .barrierRelease block bar => Sys2Proof.Machine.execBarrierRelease block bar s
  | .voteInstanceComplete agent => Sys2Proof.Machine.execVoteInstanceComplete agent s
  | .acqGrant block => Sys2Proof.Machine.execAcqGrant block s
  | .engineCommandStart block queue => Sys2Proof.Machine.execEngineCommandStart block queue s
  | .engineUnitWrite block queue choice => Sys2Proof.Machine.execEngineUnitWrite block queue choice s
  | .cpaLanding wave index => Sys2Proof.Machine.execCpaLanding wave index s
  | .matrixGrant block => Sys2Proof.Machine.execMatrixGrant block s
  | .sortStep block => Sys2Proof.Machine.execSortStep block s
  | .sortTransferRow block => Sys2Proof.Machine.execSortTransferRow block s
  | .multicastGranule block choice => Sys2Proof.Machine.execMulticastGranule block choice s
  | .collInstanceComplete ctx group inst => Sys2Proof.Machine.execCollInstanceComplete ctx group inst s
  | .blockEnd block => Sys2Proof.Machine.execBlockEnd block s
  | .blockPlacement grid core => Sys2Proof.Machine.execBlockPlacement grid core s
  | .launchAdmission launch => Sys2Proof.Machine.execLaunchAdmission launch s
  | .gangRetry launch => Sys2Proof.Machine.execGangRetry launch s
  | .graphNode queue => Sys2Proof.Machine.execGraphNode queue s
  | .launch p => Sys2Proof.Machine.execLaunch p s
  | .gang p => Sys2Proof.Machine.execGang p s
  | .graph p => Sys2Proof.Machine.execGraph p s
  | .vwrite p => Sys2Proof.Machine.execVwrite p s
  | .vwait p => Sys2Proof.Machine.execVwait p s
  | .vwaitPoll queue => Sys2Proof.Machine.execVwaitPoll queue s
  | .qfence p => Sys2Proof.Machine.execQfence p s
  | .codepub p => Sys2Proof.Machine.execCodepub p s
  | .capstart p => Sys2Proof.Machine.execCapstart p s
  | .capstop p => Sys2Proof.Machine.execCapstop p s
  | .kickPageWrite page offset => Sys2Proof.Machine.execKickPageWrite page offset s
  | .ringRescan isle => Sys2Proof.Machine.execRingRescan isle s
  | .pipelineRevision isle => Sys2Proof.Machine.execPipelineRevision isle s
  | .pluginAnswerTimeout isle tenant => Sys2Proof.Machine.execPluginAnswerTimeout isle tenant s
  | .tenantPeriodBoundary isle => Sys2Proof.Machine.execTenantPeriodBoundary isle s
  | .wavePromotion wave => Sys2Proof.Machine.execWavePromotion wave s
  | .progressFault grid => Sys2Proof.Machine.execProgressFault grid s
  | .preemptionRequest ctx => Sys2Proof.Machine.execPreemptionRequest ctx s
  | .forcedSave ctx => Sys2Proof.Machine.execForcedSave ctx s
  | .contextRestore ctx => Sys2Proof.Machine.execContextRestore ctx s
  | .pcSample agent => Sys2Proof.Machine.execPcSample agent s
  | .taggedRecord wave => Sys2Proof.Machine.execTaggedRecord wave s
  | .xlinvcOnePage isle pasid size => Sys2Proof.Machine.execXlinvcOnePage isle pasid size s
  | .xlinvcWholePasid isle pasid => Sys2Proof.Machine.execXlinvcWholePasid isle pasid s
  | .xlinvcAllPasids isle => Sys2Proof.Machine.execXlinvcAllPasids isle s
  | .invalidationComplete isle => Sys2Proof.Machine.execInvalidationComplete isle s
  | .xlrespRetry isle seq => Sys2Proof.Machine.execXlrespRetry isle seq s
  | .xlrespFail isle seq => Sys2Proof.Machine.execXlrespFail isle seq s
  | .ctxcmdCreate ctx => Sys2Proof.Machine.execCtxcmdCreate ctx s
  | .ctxcmdDestroy ctx => Sys2Proof.Machine.execCtxcmdDestroy ctx s
  | .qcmdEnable isle qloc => Sys2Proof.Machine.execQcmdEnable isle qloc s
  | .qcmdDisable isle qloc => Sys2Proof.Machine.execQcmdDisable isle qloc s
  | .tperiodWrite isle value => Sys2Proof.Machine.execTperiodWrite isle value s
  | .pwrlimWrite value => Sys2Proof.Machine.execPwrlimWrite value s
  | .registerWrite isle offset value => Sys2Proof.Machine.execRegisterWrite isle offset value s
  | .atsInvalidationRequest r => Sys2Proof.Machine.execAtsInvalidationRequest r s
  | .invalidationCompletionSend tag => Sys2Proof.Machine.execInvalidationCompletionSend tag s
  | .atsTranslationCompletion r => Sys2Proof.Machine.execAtsTranslationCompletion r s
  | .prgResponse r => Sys2Proof.Machine.execPrgResponse r s
  | .functionLevelReset fn => Sys2Proof.Machine.execFunctionLevelReset fn s
  | .hotReset => Sys2Proof.Machine.execHotReset s
  | .powerUp => Sys2Proof.Machine.execPowerUp s
  | .straitLinkDown link => Sys2Proof.Machine.execStraitLinkDown link s
  | .peerAccess r => Sys2Proof.Machine.execPeerAccess r s
  | .unitSelfTest isle core passed => Sys2Proof.Machine.execUnitSelfTest isle core passed s
  | .attestationReport nonce => Sys2Proof.Machine.execAttestationReport nonce s
  | .operatorKeyEnrol key => Sys2Proof.Machine.execOperatorKeyEnrol key s
  | .powerArbiterTick isle core limit => Sys2Proof.Machine.execPowerArbiterTick isle core limit s
  | .fixedLatencyResultWrite wave => Sys2Proof.Machine.execFixedLatencyResultWrite wave s
  | .tenantTokenCharge block => Sys2Proof.Machine.execTenantTokenCharge block s
  | .pluginAnswer isle tenant queue => Sys2Proof.Machine.execPluginAnswer isle tenant queue s
  | .powerLoss => Sys2Proof.Machine.execPowerLoss s
  | .storedBitError e => Sys2Proof.Machine.execStoredBitError e s
  | .flitCrcFailure link => Sys2Proof.Machine.execFlitCrcFailure link s
  | .configurationRequest write offset value => Sys2Proof.Machine.execConfigurationRequest write offset value s

end Sys2Proof.Machine
end

