-- ==== Sys2Proof/Machine/Turn.lean ====
section
/-!
DEFINITION. Sys2Proof/Machine/Turn.lean: one turn of an agent (spec/13, spec/22), one move of the world outside (spec/27), and
which move comes when the agenda names none (log 2).
-/

namespace Sys2Proof.Machine
open Sys2Proof

/-! ### One turn of an agent -/

/-- A plain word: one that is no steering word (R211). -/
def plainInstr : Instr → Bool
  | .br .. | .jmp .. | .call .. | .ret .. | .loop .. | .loopr .. | .endl .. | .brk .. | .exit .. | .acq => false
  | _ => true

/-- A wave that a gang halt has still to stop at the next region edge (R361). -/
def stopsAtEdge (s : State) : Agent → Option Wave
  | .wave id => (s.wave? id).filter fun w => w.haltInfo == 1 && w.stepMode.isNone
  | _ => none

/-- An ENTER, LEAVE or EXIT word (R361). -/
def edgeWord : Instr → Bool
  | .enter .. | .leave | .exit 1 => true
  | _ => false

/-- The END token that a pop of the wave takes exits it (R217): an edge as well. -/
def edgePop (s : State) (w : Wave) : Bool :=
  (s.block? w.block).any fun b =>
    (b.tokens.find? fun t => t.seq == w.lastSeq + 1).any fun t => t.isEnd && t.spc == w.pc

/-- The wave is halted as a wave at the edge that it has reached (R359, R361). -/
def haltAtEdge (s : State) (w : Wave) : State := s.putWave { w with haltedWave := true, haltInfo := 2 }

/-- The agent's next word holds an uncorrectable error (R70); a wave in a run fetched its words at RUN (R108). -/
def agentFetchBad (s : State) : Agent → Bool
  | .wave id => match s.wave? id with
    | some w => w.run.isNone && !w.fell && match waveStanding s w with
      | some st => fetchBad s st.ctx st.isle w.pc
      | none => false
    | none => false
  | .block id => match s.block? id with
    | some b => !b.fell && match s.ctx? b.ctx with
      | some c => fetchBad s c b.isle b.pc
      | none => false
    | none => false
  | .grid id => match s.grid? id with
    | some g => !g.fell && match s.ctx? g.ctx with
      | some c => fetchBad s c g.isle g.pc
      | none => false
    | none => false

/-- The uncorrected-ECC fault of an agent (R70, R327). -/
def eccAt (s : State) (a : Agent) : State :=
  match a with
  | .wave id => match s.wave? id with
    | some w => haltWave s w 0x17 0 []
    | none => s
  | .block id => match s.block? id with
    | some b => haltBlock s b 0x17 0 []
    | none => s
  | .grid id => match s.grid? id with
    | some g => haltGrid s g 0x17 0
    | none => s

/-! ### The slots of a lane (R319) -/

/-- The wave stands at a word of its run's body, which its lane issues (R100, R319). -/
def inBody (w : Wave) : Bool := w.run.isSome && !atTrailer w

def heldPhase : Phase → Bool
  | .held _ => true
  | _ => false

/-- The wave's lane could issue its word once its stall count is out: it may run, and the word would not hold (R319). -/
def issues (s : State) (w : Wave) : Bool :=
  waveRuns s w && inBody w && match nextOfWave s w with
    | .own i => match exec i { s with turn := some (.wave w.id) } with
      | .next t => !(t.wave? w.id).any fun x => heldPhase x.phase
      | _ => false
    | _ => true

/-- The other waves of a wave's lane. -/
def laneMates (s : State) (w : Wave) : List Wave :=
  match s.block? w.block with
  | some b => s.waves.filter fun x => x.id != w.id && x.lane == w.lane && x.phase != .exited &&
      (s.block? x.block).any fun c => c.isle == b.isle && c.core == b.core
  | none => []

/-- A promoted wave comes before all others (R319). -/
def issueRank (w : Wave) : Nat := if w.promoted ≠ 0 ∨ 64 ≤ w.passed then 0 else 1

/-- Where a wave stands in the order of placement: a restored wave is placed anew (log 18). -/
def placeRank (s : State) (w : Wave) : Nat := s.waves.findIdx fun x => x.id == w.id

/-- Of two waves of a lane that would issue, the one whose slot comes first (R109, R319). -/
def issuesBefore (s : State) (x w : Wave) : Bool :=
  decide (x.stallLeft < w.stallLeft) || (x.stallLeft == w.stallLeft &&
    (decide (issueRank x < issueRank w) || (issueRank x == issueRank w && decide (placeRank s x < placeRank s w))))

/-- The wave's lane issues another wave first (R319). -/
def laneTaken (s : State) (w : Wave) : Bool :=
  inBody w && (laneMates s w).any fun x => issuesBefore s x w && issues s x

/-- A wave after its lane has issued its mate `w`: the slots that went by come off its stall count, and a wave that was ready is
passed over (R319). -/
def passOver (s : State) (w x : Wave) : Wave :=
  { x with stallLeft := x.stallLeft - (w.stallLeft + 1),
           passed := if decide (x.stallLeft ≤ w.stallLeft) && issues s x then x.passed + 1 else 0 }

/-- The lane's slots after the wave `w` took its turn in `s` (R319). -/
def afterIssue (s : State) (w : Wave) (t : State) : State :=
  match t.wave? w.id with
  | none => t
  | some n =>
    if inBody w then
      if heldPhase n.phase then t
      else (laneMates s w).foldl (fun t x => match t.wave? x.id with
        | some y => t.putWave { y with stallLeft := (passOver s w x).stallLeft, passed := (passOver s w x).passed }
        | none => t) (t.putWave { n with passed := 0, promoted := 0 })
    else if n.stallLeft = 0 ∧ n.passed = 0 then t
    else t.putWave { n with stallLeft := 0, passed := 0 }

/-- The counters of slots issued, live beats and skipped beats, for a thread-set word that the wave `old` issued (R369). -/
def countIssue (s : State) (old : Wave) : State :=
  if !inBody old then s
  else match s.wave? old.id, waveStanding s old with
    | some w, some st =>
      if w.pc != old.pc || w.phase == .missed then
        let live := liveBeats (effectiveExec old)
        let count := fun s off n => addCounter s st.ctx.index (coreNumber st.isle st.core) off n
        count (count (count s 0x18 1) 0x20 live) 0x28 (8 - live)
      else s
    | _, _ => s

/-- What follows an agent's own word: the mark of R402 after a plain word, the slots of its lane (R319) and the counters of
R369. -/
def afterWord (s : State) (a : Agent) (i : Instr) (t : State) : State :=
  let t1 := match agentPc s a with
    | some (old, _) => if plainInstr i then markFell t a old 1 else t
    | none => t
  match a with
  | .wave id => match s.wave? id with
    | some w => countIssue (afterIssue s w t1) w
    | none => t1
  | _ => t1

/-- What follows the words that an agent passed (R402). -/
def afterPass (s : State) (a : Agent) (n : Nat) : State :=
  match agentPc s a with
  | some (old, _) => markFell (passWords s a n) a old n
  | none => s

/-- The state that an outcome gives goes on through `f`. -/
def thenState (f : State → State) : Host.Outcome State Fault Refusal → Host.Outcome State Fault Refusal
  | .next t => .next (f t)
  | .fault r => .fault r
  | .refused r => .refused r

/-- The agent executes what it meets (R212). -/
def actOn (s : State) (a : Agent) : NextWord → Host.Outcome State Fault Refusal
  | .own i =>
    match (stopsAtEdge s a).filter fun _ => edgeWord i with
    | some w => .next (haltAtEdge s w)
    | none => thenState (afterWord s a i) (exec i s)
  | .illegal => exec .illegalInstruction s
  | .pop =>
    match (stopsAtEdge s a).filter (edgePop s) with
    | some w => .next (haltAtEdge s w)
    | none => exec (.tokenPop a) s
  | .pass n => .next (afterPass s a n)
  | .miss pc m => .next (fetchMiss s a pc m)
  | .wait pc => .next (fetchWait s a pc)

/-- An agent has its turn: it may execute, and no mate of its lane comes first (R319). -/
def hasTurn (s : State) (a : Agent) : Bool :=
  agentRuns s a && match a with
    | .wave id => !(s.wave? id).any (laneTaken s)
    | _ => true

/-- One turn of an agent: nothing happens if it may not execute now. -/
def runAgent (s : State) (a : Agent) : Host.Outcome State Fault Refusal :=
  let s1 := { s with turn := some a }
  if !hasTurn s1 a then .next s1
  else if agentFetchBad s1 a then .next (eccAt s1 a)
  else actOn s1 a (nextOf s1 a)

/-! ### Accesses that are seen in parts (R276, log 14) -/

/-- The word that a wave executes next, if it has its turn. -/
def wordOfTurn (s : State) (id : Nat) : Option (Wave × Instr) :=
  (s.wave? id).bind fun w =>
    if hasTurn s (.wave id) then match nextOfWave s w with
      | .own i => some (w, i)
      | _ => none
    else none

/-- The wave's pass is over. -/
def clearRest (id : Nat) (s : State) : State :=
  match s.wave? id with
  | some w => s.putWave { w with rest := 0 }
  | none => s

/-- A wave's load performs in its first threads alone; the others follow in a later turn (R276, log 14). -/
def partLoad (s : State) (id threads : Nat) : Host.Outcome State Fault Refusal :=
  match wordOfTurn s id with
  | some (w, .ld ..) | some (w, .sld ..) =>
    let rest := effectiveExec w &&& ~~~BitVec.ofNat 64 (2 ^ threads - 1)
    thenState (clearRest id) (runAgent (s.putWave { w with rest := rest }) (.wave id))
  | _ => .next s

/-- Some bytes of a wave's store are seen before the store performs (R276, log 14). -/
def tearMove (s : State) (id : Nat) (threads : Mask) (bytes : BitVec 16) : State :=
  match wordOfTurn s id with
  | some (w, .st f x) => tearStore (.st f x) f (plainSpec x) threads bytes s w
  | some (w, .sst f x) => if x.c.getLsbD 2 then s else tearStore (.sst f x) f (strongSpec x) threads bytes s w
  | _ => s

/-! ### Moves of the world outside -/

/-- A step of the tables of operations that is no word of an agent. -/
def stepEvent (s : State) (i : Instr) : Host.Outcome State Fault Refusal :=
  let s1 := { s with turn := none }
  match encode i with
  | [] => exec i s1
  | _ :: _ => .next s1

/-! ### Which move comes (log 2) -/

/-- What a wave may do next of itself. -/
def waveMoves (s : State) (w : Wave) : List Move :=
  (if waveRuns s w then [.run (.wave w.id)] else []) ++
  (if w.phase == .missed && w.requests.isEmpty then [.event (.waveReplay w.id)] else []) ++
  (if w.pending.isEmpty then [] else [.event (.loadWriteback w.id 0)]) ++
  (if w.inflight.isEmpty || waveRuns s w then [] else [.event (.fixedLatencyResultWrite w.id)]) ++
  (if w.copies.isEmpty then [] else [.event (.cpaLanding w.id 0)])

/-- The steps of the engine at the head of a queue. -/
def queueMoves (s : State) (b : Block) (q : EngineQueue) : List Move :=
  match workingHead s b q with
  | none => if queueStopping s b q then [.event (.engineUnitWrite b.id q 0)] else []
  | some c =>
    if q == .matrix && !(match c.instr with | .qjoin _ => true | _ => false) then [.event (.matrixGrant b.id)]
    else if !c.started then [.event (.engineCommandStart b.id q)]
    else match q with
      | .sort => [.event (.sortStep b.id), .event (.sortTransferRow b.id)]
      | .copy => match c.instr with
        | .bmcast .. => [.event (.multicastGranule b.id 0)]
        | _ => [.event (.engineUnitWrite b.id q 0)]
      | _ => [.event (.engineUnitWrite b.id q 0)]

/-- What a block may do next. -/
def blockMoves (s : State) (b : Block) : List Move :=
  (if blockRuns s b then [.run (.block b.id)] else []) ++ allQueues.flatMap (queueMoves s b) ++
  (if b.votes.delivered.isEmpty && b.gvotes.delivered.isEmpty then [] else [.event (.voteInstanceComplete (.block b.id))]) ++
  (if blockCanEnd s b then [.event (.blockEnd b.id)] else [])

/-- What a grid may do next. -/
def gridMoves (s : State) (g : Grid) : List Move :=
  (if gridRuns s g then [.run (.grid g.id)] else []) ++
  (match (List.range coresPerIsle).find? fun c => (placement (demandPartition s g c) g c).isSome with
    | some c => [.event (.blockPlacement g.id c)]
    | none => []) ++
  (if g.votes.delivered.isEmpty then [] else [.event (.voteInstanceComplete (.grid g.id))]) ++
  (if watchdogRuns s g then [.event (.progressFault g.id)] else [])

/-- What a context may do next: the steps of its save, and its restore. -/
def contextMoves (c : Context) : List Move :=
  if c.saved then (if c.halted then [] else [.event (.contextRestore c.index)])
  else if c.halted || c.preempting then [.event (.forcedSave c.index)]
  else []

/-- What the front end of a queue may do next: nodes of its graphs, and a plug-in that does not answer. -/
def queueFrontMoves (s : State) (q : Queue) : List Move :=
  (if q.graphs.isEmpty then [] else [.event (.graphNode q.index)]) ++
  (if pluginStands s (tenantOf s q.ctx) ∧ 2 ≤ (readyQueues s (homeIsle q.index) (tenantOf s q.ctx)).length then
    [.event (.pluginAnswerTimeout (homeIsle q.index) (tenantOf s q.ctx))] else [])

/-- What the front end and the translation unit of an isle may do next. -/
def isleMoves (s : State) (isle : Nat) : List Move :=
  (if s.queues.any fun q => homeIsle q.index == isle then [.event (.ringRescan isle)] else []) ++
  (if (s.isle isle).xlinvc.getLsbD 31 then [.event (.invalidationComplete isle)] else []) ++
  (if s.requests.any (unreported s isle) then [.event (.faultRecordWrite isle)] else [])

/-- Every move that the machine may make of itself. -/
def ownMoves (s : State) : List Move :=
  s.waves.flatMap (waveMoves s) ++ s.blocks.flatMap (blockMoves s) ++ s.grids.flatMap (gridMoves s) ++
  ((s.launches.filter (waitsAdmission s)).map fun l => Move.event (.launchAdmission l.id)) ++
  s.queues.flatMap (queueFrontMoves s) ++ (List.range 8).flatMap (isleMoves s) ++
  s.contexts.flatMap contextMoves ++
  ((s.launches.filter fun l => s.waves.any fun w => launchOfWave s l.id w && w.haltInfo == 1).map fun l =>
    Move.haltBound l.id) ++
  (s.atsInval.map fun r => Move.event (.invalidationCompletionSend r.tag)) ++
  (s.colls.map fun x => Move.event (.collInstanceComplete x.ctx x.group x.inst))

/-- The move that comes when the agenda names none: power-up first, then the machine's own moves by turns of the clock. -/
def defaultMove (s : State) : Move :=
  if !s.platform.booted then .event .powerUp
  else
    let ms := ownMoves s
    ms.getD (s.clock % ms.length) (.event (.ringRescan 0))

/-- One move. -/
def doMove (s : State) : Move → Host.Outcome State Fault Refusal
  | .run a => runAgent s a
  | .part wave threads => partLoad s wave threads
  | .tear wave threads bytes => .next (tearMove s wave threads bytes)
  | .event i => stepEvent s i
  | .hostWrite a bs => .next (writeLoc s ⟨.host, a⟩ bs)
  | .localWrite a bs => .next (if rangeInHbm a bs.length then writeLoc s ⟨.hbm, a⟩ bs else s)
  | .register isle offset v => execRegisterWrite isle offset v { s with turn := none }
  | .registerRead isle offset => .next (answerRead s (readRegister s isle offset))
  | .kickRead _ _ => .next (answerRead s 0)
  | .evict isle pasid page =>
    .next { s with cached := s.cached.filter fun c => !(c.isle == isle && c.pasid == pasid && c.page == page) }
  | .haltBound launch => .next (closeLaunch (gangBound s launch) launch)

/-- The move that comes next, and the state in which it is made: one step later, without it in the agenda. -/
def nextMove (s : State) : Move × State :=
  match s.agenda with
  | m :: rest => (m, { s with agenda := rest, clock := s.clock + 1 })
  | [] => (defaultMove s, { s with clock := s.clock + 1 })

/-- One step of the machine. -/
def stepOnce (s : State) : Host.Outcome State Fault Refusal := doMove (nextMove s).2 (nextMove s).1

end Sys2Proof.Machine
end

