-- ==== Sys2Proof/Machine/Bench.lean ====
section
/-!
DEFINITION. Sys2Proof/Machine/Bench.lean: a launched kernel of one block and one wave whose next word is a given instruction
(log 4): the page table and the code in isle 0's HBM, a context, and the agents as their placement leaves them (R306). A
program comes to a machine in this way through CODEPUB and LAUNCH; these definitions stand for both.
-/

namespace Sys2Proof.Machine
open Sys2Proof

/-- The virtual and the physical address of the code. -/
def benchCode : Nat := 0x40000000

/-- Three page tables and one executable 1 GiB leaf (R14, R16). -/
def benchTables (m : Mem) : Mem :=
  writeBytes (writeBytes (writeBytes m 0x1000 (leBytes 8 0x2001)) 0x2000 (leBytes 8 0x3001)) 0x3008 (leBytes 8 0x4000001B)

/-- A context with the debug right whose pages those are. -/
def benchContext : Context :=
  { index := 0, root := 0x1000, pasid := 1, hash := false, debug := true, bkey := 0, pto := 1000000, pdl := 100000,
    save := 0, tenant := 0, halted := false, preempting := false, forced := false, saved := false, halt := none, log := [],
    watch := List.replicate 16 emptyWatch, capture := emptyCapture, objects := [], taken := [] }

/-- A kernel of one wave of 64 threads: every vector register general, 16 granules, 16 accumulator rows. -/
def benchKernel : Kernel :=
  { entry := 0, textEnd := 0x10000, foot := 73, temps := 8, flags := 2, waves := 1, threads := 64, scratch := 16, accum := 1,
    barset := 0, shapes := BitVec.allOnes 128, preload := [], shared := [] }

def benchLaunch : Launch :=
  { id := 0, queue := 0, serial := 0, ctx := 0, gang := false, isles := [0], pipe := false, bodies := [], bound := [],
    cmpl := 0, cval := 0, admitted := true, fromGraph := false, status := none, tileQueues := [], shares := [], frozen := false,
    tried := true }

def benchGrid : Grid :=
  { id := 1, launch := 0, ctx := 0, isle := 0, stage := 0, slot := 0, phase := .ready, pc := BitVec.ofNat 64 benchCode,
    g := List.replicate 16 0, k := 0, loops := [], calls := [], fell := false, tokens := [], nextSeq := 1, votes := zeroVote,
    kPending := 0, request := none, gbase := 0, runLen := 1, point := 0, kernel := benchKernel,
    base := BitVec.ofNat 64 benchCode, nblk := 1, tba := 0, args := [], groupList := [], resident := true, idem := false,
    nextBlock := 1, replace := [], reserved := [], ended := [], parked := [], fault := 0,
    barred := none, slotSets := [] }

def benchBlock (s : State) : Block :=
  newBlock { s with nextId := 2, blocks := [] } benchGrid 0 ⟨0, 0, 0, 16, 0, 16, [(0, 0, 0)]⟩ []

/-- The machine with that launch placed, and the given code bytes. -/
def benchState (s : State) (code : List Byte) : State :=
  let b := benchBlock s
  { s with
    hbm := writeBytes (benchTables s.hbm) benchCode code, platform := { s.platform with booted := true, powered := true, badFar := [] },
    contexts := [benchContext], launches := [benchLaunch], grids := [benchGrid], blocks := [b],
    waves := [newWave benchGrid b 3 0 0 0 (BitVec.ofNat 64 benchCode) 0], groups := [(0, ⟨0, 1, 0, 0, false, false⟩)],
    partitions := [⟨0, 0, 0, 0, 0, []⟩], cached := [], nextId := 4, turn := none }

/-- Code of a run that holds the given body words: its header, the words, and an ENDR that publishes nothing (R105, R106). -/
def benchRun (body : List Word) : List Word := encode (.run 8 (BitVec.ofNat 5 (body.length - 1)) 0) ++ body ++ encode (.endr 0 0 0 0)

def codeBytes (ws : List Word) : List Byte := ws.flatMap bytesOfWord

/-- The wave stands in a run whose words are given, at the n-th word after the header. -/
def benchInRun (s : State) (ws : List Word) (n : Nat) : State :=
  let at_ := BitVec.ofNat 64 benchCode
  let s1 := benchState s (codeBytes ws)
  { s1 with agenda := [.run (.wave 3)], waves := s1.waves.map fun w =>
      { w with run := some ⟨at_, ws.length - 2, 8, ws.drop 1⟩, pc := at_ + BitVec.ofNat 64 (4 * (n + 1)) } }

/-- The agent that runs a word outside a run, by its scope (R210). -/
def benchAgent (w : Word) : Agent :=
  if sel w 28 3 = 2 then .block 2 else if sel w 28 3 = 3 then .grid 1 else .wave 3

/-- The word that comes next for an agent is the first word given; the word after it is the second. -/
def benchPlace (s : State) (w0 w1 : Word) : State :=
  if sel w0 31 1 = 0 then benchInRun s (benchRun [w0, w1]) 0
  else if isEndr w0 then benchInRun s (encode (.run 8 0 0) ++ [0, w0]) 1
  else { benchState s (codeBytes [w0, w1]) with agenda := [.run (benchAgent w0)] }

end Sys2Proof.Machine
end

