-- ==== Sys2Proof/Machine/Step.lean ====
section
/-!
DEFINITION. Sys2Proof/Machine/Step.lean: one step of the machine, and the placing of one instruction for the next step.
-/

namespace Sys2Proof.Machine

/-- One step: the next move of the agenda, or the machine's own (log 2). -/
def step (s : State) : Host.Outcome State Fault Refusal := stepOnce s

/-- The instruction whose bits are `w`, numbered as spec/opcode_table.json numbers them, placed where the next step fetches it:
the bits above `nbits` are zero (log 4). -/
def State.withFetchWord (s : State) (nbits w : Nat) : State :=
  benchPlace s (BitVec.ofNat 32 (w % 2 ^ nbits)) (BitVec.ofNat 32 (w % 2 ^ nbits / 2 ^ 32))

end Sys2Proof.Machine
end

