-- ==== Sys2Proof/WellFormed.lean ====
section
/-!
DEFINITION. Sys2Proof/WellFormed.lean: which instructions and steps are well formed. A word is well formed when its fields
hold values that its row defines (R117); a step of another agent when the units that it names exist (R2, R12, R390).
-/

namespace Sys2Proof

/-- The instruction has words: it is one of the 205 instruction forms, not a step of another agent. -/
def Instr.isWord (i : Instr) : Bool := !(encode i).isEmpty

/-- An isle of this part (R2). -/
def wfIsle (isle : Nat) : Bool := decide (isle < 8)

/-- A core of an isle (R2). -/
def wfCore (core : Nat) : Bool := decide (core < 32)

/-- A Strait link of the module (R390). -/
def wfLink (link : Nat) : Bool := decide (link < 16)

/-- A packet is 64 bytes: eight doublewords (R303). -/
def wfPacket (p : Packet) : Bool := p.words.length == 8

/-- The number of a register, thread or cell that a stored-bit error names is in range (R70). -/
def wfBitError : BitError → Bool
  | .lane _ row bit => (decide (row < 76) && decide (bit < 2048)) || (decide (76 ≤ row) && decide (row < 83) && decide (bit < 64))
  | .scratch _ _ bit => decide (bit < 8)
  | .tag _ _ bit => decide (bit < 32)
  | .acc _ _ col bit => decide (col < 128) && decide (bit < 32)
  | .sort _ cell bit => decide (cell < 16384) && decide (bit < 64)
  | .far isle _ bit => wfIsle isle && decide (bit < 8)

/-- A step of another agent names units that exist. -/
def wfEvent : Instr → Bool
  | .faultRecordWrite isle | .ringRescan isle | .pipelineRevision isle | .tenantPeriodBoundary isle
  | .invalidationComplete isle => wfIsle isle
  | .xlinvcOnePage isle pasid size => wfIsle isle && decide (pasid < 2 ^ 20) && decide (size < 3)
  | .xlinvcWholePasid isle pasid => wfIsle isle && decide (pasid < 2 ^ 20)
  | .xlinvcAllPasids isle => wfIsle isle
  | .kickPageWrite page _ => decide (page < 64 * 131072)
  | .xlrespRetry isle seq | .xlrespFail isle seq => wfIsle isle && decide (seq < 2 ^ 16)
  | .qcmdEnable isle _ | .qcmdDisable isle _ => wfIsle isle
  | .tperiodWrite isle _ => wfIsle isle
  | .registerWrite isle _ _ => wfIsle isle
  | .blockPlacement _ core => wfCore core
  | .powerArbiterTick isle core _ => wfIsle isle && wfCore core
  | .launch p | .gang p | .graph p | .vwrite p | .vwait p | .qfence p | .codepub p | .capstart p | .capstop p => wfPacket p
  | .straitLinkDown link | .flitCrcFailure link => wfLink link
  | .storedBitError e => wfBitError e
  | _ => true

/-- Well-formed instructions and steps. -/
def WellFormed (i : Instr) : Bool := if i.isWord then Machine.staticLegal i else wfEvent i

end Sys2Proof
end

