-- ==== Sys2Proof/Safety.lean ====
section
/-!
DEFINITION. Sys2Proof/Safety.lean: the vocabulary of claims: who executes, when the operands of an instruction are ready, which
result a register holds once everything on its way is written, what an instruction leaves alone, and the invariants.
-/

namespace Sys2Proof.Machine

/-! ### Who executes -/

/-- The wave has the turn (R210). -/
structure WaveTurn (s : State) (w : Wave) : Prop where
  turn : s.turn = some (.wave w.id)
  here : s.wave? w.id = some w

/-- The block sequencer has the turn. -/
structure BlockTurn (s : State) (b : Block) : Prop where
  turn : s.turn = some (.block b.id)
  here : s.block? b.id = some b

/-- The grid sequencer has the turn. -/
structure GridTurn (s : State) (g : Grid) : Prop where
  turn : s.turn = some (.grid g.id)
  here : s.grid? g.id = some g

/-! ### Operands of thread-set instructions -/

/-- The wave is in a run; every register operand is declared, even where it names a pair (R102, R117), and awaits no
variable-latency result (R111); no stall count that a source depends on is broken (R109); no source holds a bad code in an active
thread and no predicate row one in a word with an active thread (R70); no pass of a memory instruction and no watch hit is
left over from the instruction before (R27, R356). -/
structure OperandsReady (w : Wave) (reads writes : List VField) : Prop where
  inRun  : w.run.isSome = true
  even   : ∀ o ∈ reads ++ writes, o.even = true
  legal  : ∀ o ∈ reads ++ writes, ∀ f ∈ o.fields, fieldLegal w f = true
  free   : ∀ o ∈ reads ++ writes, ∀ f ∈ o.fields, fieldPending w f = false
  timely : ∀ o ∈ reads, operandStale w o = false
  good   : ∀ o ∈ reads, operandBad w o = false
  preds  : ∀ q ∈ w.badPreds, predHalf q.2 &&& w.exec = 0
  whole  : w.rest = 0
  unhit  : w.hits = noHits

/-- How the shape of a result follows from its sources (R145). -/
inductive ShapeRule where
  | linear | scaled | perThread | same
  deriving DecidableEq, Repr

def allU (rs : List VRow) : Bool := rs.all fun r => shapeRank r == 1

/-- The rank of a result's shape: U 1, A 2, G 3 (R145). `linear`: A if no source is G and one is A. `scaled`: A if the first
source is A and the others U. `same`: that of the first source. -/
def resultRank (k : ShapeRule) (rs : List VRow) : Nat :=
  match k with
  | .perThread => if allU rs then 1 else 3
  | .linear => if allU rs then 1 else if rs.all (fun r => shapeRank r ≤ 2) then 2 else 3
  | .scaled => if allU rs then 1 else if shapeRank (rs.headD .undeclared) ≤ 2 && allU rs.tail then 2 else 3
  | .same => shapeRank (rs.headD .undeclared)

/-- A register after the fixed-latency results on their way to it that ask for at most n more slots are written, oldest first
(R109). -/
def landed (w : Wave) (n : Nat) (r : Reg) : VRow :=
  (w.inflight.filter fun e => decide (e.reg = r) && decide (e.need ≤ n)).foldl
    (fun row e => match e.row with
      | some x => writeRow row x e.mask
      | none => row) (readReg w r)

/-- A register once every result on its way to it is written (R113). -/
def settled (w : Wave) (r : Reg) : VRow :=
  (w.inflight.filter fun e => decide (e.reg = r)).foldl
    (fun row e => match e.row with
      | some x => writeRow row x e.mask
      | none => row) (readReg w r)

/-- The same of the register that a field names. -/
def settledField (w : Wave) (f : BitVec 6) : VRow :=
  match regOf w f with
  | some r => settled w r
  | none => .undeclared

/-- What the register of a field holds once the results that ask for at most n more slots are written. -/
def landedField (w : Wave) (n : Nat) (f : BitVec 6) : VRow :=
  match regOf w f with
  | some r => landed w n r
  | none => .undeclared

/-- A result of latency L in the register of a field, after an instruction with a stall count: in every participating thread
it is the given value once every result on its way is written, and at once if the stall count covers the latency; the other
threads of a G register receive what was on its way to them; a U or A register takes nothing of an instruction in which no thread
participates (R109, R110, R113, R144, R146). -/
structure Delivered (w w' : Wave) (part : Mask) (latency : Nat) (stall : BitVec 3) (d : BitVec 6) (val : Nat → Word) :
    Prop where
  value   : ∀ i, i < 64 → part.getLsbD i = true → rowAt (settledField w' d) i = val i
  others  : ∀ i, i < 64 → part.getLsbD i = false → shapeRank (fieldRow w d) = 3 →
    rowAt (settledField w' d) i = rowAt (settledField w d) i
  nobody  : part = 0 → shapeRank (fieldRow w d) ≠ 3 → fieldRow w' d = landedField w (1 + stall.toNat) d
  shape   : shapeRank (fieldRow w' d) = shapeRank (fieldRow w d)
  written : latency ≤ stall.toNat → ∀ i, i < 64 → part.getLsbD i = true → rowAt (fieldRow w' d) i = val i

/-- What a thread-set instruction of some words leaves alone in its wave: everything but its registers, their results on the
way, the predicates, FPSTAT and the marks of its execution and issue. -/
def waveRest (w w' : Wave) : Prop :=
  { w' with v := w.v, t := w.t, tv := w.tv, inflight := w.inflight, bad := w.bad, pc := w.pc, phase := w.phase, p := w.p,
            badPreds := w.badPreds, fpstat := w.fpstat, stepDone := w.stepDone, replay := w.replay, missFailed := w.missFailed,
            stallLeft := w.stallLeft, issue := w.issue, reached := w.reached } = w

/-- Every other wave is as before. -/
def OtherWaves (s t : State) (id : Nat) : Prop := ∀ j, j ≠ id → t.wave? j = s.wave? j

/-- Every other block is as before. -/
def OtherBlocks (s t : State) (id : Nat) : Prop := ∀ j, j ≠ id → t.block? j = s.block? j

/-- Every other grid is as before. -/
def OtherGrids (s t : State) (id : Nat) : Prop := ∀ j, j ≠ id → t.grid? j = s.grid? j

/-- A thread-set arithmetic instruction of some words has performed: the wave stands past it, a register that it does not
write has taken exactly the results on their way to it that the slots of the instruction complete, and nothing else of the
wave and nothing outside the wave has changed. -/
structure ThreadDone (s : State) (w : Wave) (words : Nat) (stall : BitVec 3) (ds : List (BitVec 6)) (t : State) (w' : Wave) :
    Prop where
  wave   : t.wave? w.id = some w'
  others : OtherWaves s t w.id
  rest   : t = { s with waves := t.waves, fresh := t.fresh }
  pc     : w'.pc = w.pc + BitVec.ofNat 64 (4 * words)
  phase  : w'.phase = .ready
  frame  : waveRest w w'
  regs   : ∀ r, (∀ f ∈ ds, regOf w f ≠ some r) → readReg w' r = landed w (1 + stall.toNat) r

/-- A memory instruction of some words, or a vote, has performed in a wave: it stands past it; no predicate, flag or sequencer
register changed; a register takes exactly the results on their way to it that the slots of the instruction complete, but for
the destinations of the instruction, whose results are pending. -/
structure MemoryDone (s : State) (w : Wave) (words : Nat) (stall : BitVec 3) (ds : List (BitVec 6)) (t : State) (w' : Wave) :
    Prop where
  wave   : t.wave? w.id = some w'
  others : OtherWaves s t w.id
  pc     : w'.pc = w.pc + BitVec.ofNat 64 (4 * words)
  phase  : w'.phase = .ready
  rest   : { w' with v := w.v, t := w.t, tv := w.tv, inflight := w.inflight, bad := w.bad, pc := w.pc, phase := w.phase,
                     pending := w.pending, stepDone := w.stepDone, replay := w.replay, missFailed := w.missFailed,
                     stallLeft := w.stallLeft, issue := w.issue, reached := w.reached } = w
  regs   : ∀ r, (∀ f ∈ ds, regOf w f ≠ some r) → readReg w' r = landed w (1 + stall.toNat) r

/-- The results of a load or of an atomic operation are pending (R111): for the n registers from field d on, in the threads of
a mask, word j of thread i. -/
def Pends (w w' : Wave) (d : BitVec 6) (n : Nat) (part : Mask) (word : Nat → Nat → Word) : Prop :=
  if part = 0 then w'.pending = w.pending
  else ∃ p, w'.pending = w.pending ++ [p] ∧ p.mask = part ∧ p.vote = none ∧ p.regs.length = n ∧
    ∀ j, j < n → ∃ r row, p.regs[j]? = some (r, row) ∧ regOf w (d + BitVec.ofNat 6 j) = some r ∧
      ∀ i, i < 64 → part.getLsbD i = true → rowAt row i = word i j

/-- Flags that a thread-set instruction raises: those of its participating threads, ORed into FPSTAT (R46, R154). -/
def FlagsRaised (w w' : Wave) (part : Mask) (flags : Nat → FpFlags) : Prop :=
  ∀ n, n < 6 → w'.fpstat.getLsbD n =
    (w.fpstat.getLsbD n || (List.range 64).any fun i => part.getLsbD i && (flags i).getLsbD n)

/-! ### Sequencer words -/

/-- A wave's word changed its wave and nothing else. -/
structure WaveStep (s t : State) (w w' : Wave) : Prop where
  here   : t.wave? w.id = some w'
  others : OtherWaves s t w.id
  rest   : t = { s with waves := t.waves }

/-- A block's word changed its block and nothing else. -/
structure BlockStep (s t : State) (b b' : Block) : Prop where
  here   : t.block? b.id = some b'
  others : OtherBlocks s t b.id
  rest   : t = { s with blocks := t.blocks }

/-- A grid's word changed its grid and nothing else. -/
structure GridStep (s t : State) (g g' : Grid) : Prop where
  here   : t.grid? g.id = some g'
  others : OtherGrids s t g.id
  rest   : t = { s with grids := t.grids }

/-- Sequencer register n of a wave: s0 to s31, in the trap handler hs0 to hs7 for the last eight (R92). -/
def seqReg (w : Wave) (n : Nat) : Dword :=
  if w.tcode ≠ 0 ∧ 24 ≤ n then w.hs.getD (n - 24) 0 else w.s.getD n 0

/-- A wave has written sequencer register n and stands at the next word; the registers that the trap handler hides keep their
values. -/
structure WroteS (w w' : Wave) (n : Nat) (v : Dword) : Prop where
  file   : ∀ m, m < 32 → seqReg w' m = if m = n then v else seqReg w m
  hidden : (w.tcode ≠ 0 → ∀ m, 24 ≤ m → w'.s.getD m 0 = w.s.getD m 0) ∧ (w.tcode = 0 → w'.hs = w.hs)
  rest   : w' = { w with s := w'.s, hs := w'.hs, pc := w.pc + 4, phase := .ready }

/-- A block sequencer has written b-register n and stands at the next word. -/
structure WroteB (b b' : Block) (n : Nat) (v : Dword) : Prop where
  file : ∀ m, m < 32 → b'.b.getD m 0 = if m = n then v else b.b.getD m 0
  rest : b' = { b with b := b'.b, pc := b.pc + 4, phase := .ready }

/-- A grid sequencer has written g-register n and stands at the next word. -/
structure WroteG (g g' : Grid) (n : Nat) (v : Dword) : Prop where
  file : ∀ m, m < 16 → g'.g.getD m 0 = if m = n then v else g.g.getD m 0
  rest : g' = { g with g := g'.g, pc := g.pc + 4, phase := .ready }

/-- A wave may execute sequencer words: it has the turn and is in no run (R107). -/
structure WaveSeqTurn (s : State) (w : Wave) : Prop where
  turn    : WaveTurn s w
  outside : w.run = none

/-- The block's queue after it has pushed a token: what some placed wave has neither reached nor exited before (R218, R219). -/
def pushedTokens (s : State) (b : Block) (t : Token) : List Token :=
  (b.tokens ++ [t]).filter fun x => (s.wavesOf b.id).any fun w => w.phase != .exited && seqAfter x.seq w.lastSeq

/-- The grid's queue after it has pushed a token: all of it while blocks are still to be placed (R219). -/
def pushedGridTokens (s : State) (g : Grid) (t : Token) : List Token :=
  (g.tokens ++ [t]).filter fun x => decide (g.nextBlock < g.nblk) ||
    (s.blocksOf g.id).any fun b => b.phase != .exited && seqAfter x.seq b.lastSeq

/-! ### What a thread-set arithmetic instruction computes -/

/-- What the rules say of a thread-set arithmetic instruction: its words, stall count and latency, the register operands it
reads and writes, who participates, for each destination field the rank of the result's shape and each thread's value, the flags
of each thread, and whether it can raise neither flags nor NaNs. -/
structure Arith where
  words   : Nat
  stall   : BitVec 3
  latency : Nat
  reads   : List VField
  writes  : List VField
  part    : Wave → Mask
  results : Wave → List (BitVec 6 × Nat × (Nat → Word))
  flags   : Wave → Nat → FpFlags
  quiet   : Bool

/-- The instruction completes wherever its wave has the turn, its fields are no reserved ones, its operands are ready and its
results fit the declared shapes (R90); one that may raise flags or a NaN, where no predicate of the watch bank is enabled. Every
destination receives its value, FPSTAT the flags, and nothing else changes. -/
def Computes (i : Instr) (c : Arith) : Prop :=
  ∀ (s : State) (w : Wave), WaveTurn s w → staticLegal i = true → OperandsReady w c.reads c.writes →
    (∀ q ∈ c.results w, q.2.1 ≤ shapeRank (fieldRow w q.1)) → (c.quiet = true ∨ watchOn s w = none) →
    ∃ t w', exec i s = .next t ∧ ThreadDone s w c.words c.stall ((c.results w).map (·.1)) t w' ∧ w'.p = w.p ∧
      FlagsRaised w w' (c.part w) (c.flags w) ∧
      ∀ q ∈ c.results w, Delivered w w' (c.part w) c.latency c.stall q.1 q.2.2

/-! ### Register files of their size -/

/-- A wave's register files are as long as the rules give them (R89 to R92, R106). -/
structure WaveSized (w : Wave) : Prop where
  v  : w.v.length = 64
  t  : w.t.length = 8
  tv : w.tv.length = 4
  p  : w.p.length = 7
  s  : w.s.length = 32
  hs : w.hs.length = 8
  tags : w.tagCounts.length = 8

/-- A block's (R71, R93, R98, R195, R225). -/
structure BlockSized (b : Block) : Prop where
  regs   : b.b.length = 32
  fwin   : b.fwin.length = 8
  mr     : b.mr.length = 4
  mc     : b.mc.length = 4
  queues : b.queues.length = 5
  stops  : b.stops.length = 5
  bars   : b.bars.length = 16
  groups : b.groups.length = 4
  points : b.points.length = 5

/-- The register files of every agent are of their size; no run leaves this. -/
structure Sized (s : State) : Prop where
  waves  : ∀ w ∈ s.waves, WaveSized w
  blocks : ∀ b ∈ s.blocks, BlockSized b
  grids  : ∀ g ∈ s.grids, g.g.length = 16

/-! ### Memories -/

/-- The three memories of the state are as before, byte for byte. -/
structure SameMemory (s t : State) : Prop where
  hbm  : t.hbm = s.hbm
  peer : t.peer = s.peer
  host : t.host = s.host

/-- Every context is as before, but for the counters of its capture window (R369). -/
def SameContexts (s t : State) : Prop :=
  ∀ i, (t.ctx? i).map (fun c => { c with capture := { c.capture with counters := [] } }) =
    (s.ctx? i).map (fun c => { c with capture := { c.capture with counters := [] } })

/-- Every byte of a memory outside [a, a + n) reads as before. -/
def SameOutside (m m' : Mem) (a n : Nat) : Prop := ∀ x, x < a ∨ a + n ≤ x → readByte m' x = readByte m x

/-- The canonical form of the three memories. -/
structure MemoriesWf (s : State) : Prop where
  hbm  : Memory.wf s.hbm = true
  peer : Memory.wf s.peer = true
  host : Memory.wf s.host = true

end Sys2Proof.Machine
end

