-- ==== Sys2Proof/Certificates/Slice0/Obligations.lean ====
section
/-!
DEFINITION. Sys2Proof/Certificates/Slice0/Obligations.lean: the statements. The tables pair each instruction of a family with
what the rules of spec/ say that one thread, register or agent gets from it; the statements say that the machine does that and
nothing else.
-/

section
open Sys2Proof Sys2Proof.Machine

/-! ### Words of an opcode (R101, R104) -/

namespace Sys2Proof.Machine

/-- The thread-set words of an opcode, by their low 24 bits: those of the form decode to its instruction, and no other decodes. -/
def ThreadWords (op : Nat) (form : Instr → Nat → Prop) : Prop :=
  ∀ (w : Word) (next : Option Word) (i : Instr) (n : Nat), w.toNat / 2 ^ 24 = op →
    (decode w next = .ok (i, n) ↔ n = 1 ∧ form i (w.toNat % 2 ^ 24))

/-- The sequencer-set words of an opcode, by their scope and their low 21 bits. -/
def SeqWords (op : Nat) (form : BitVec 3 → Instr → Nat → Prop) : Prop :=
  ∀ (w : Word) (next : Option Word) (i : Instr) (n : Nat), w.toNat / 2 ^ 31 = 1 → w.toNat / 2 ^ 21 % 128 = op →
    (decode w next = .ok (i, n) ↔ n = 1 ∧ form (BitVec.ofNat 3 (w.toNat / 2 ^ 28)) i (w.toNat % 2 ^ 21))

/-- TR words, those with a vb field of 0, TC words, and SR words with a func of 0 (R101, R104). -/
def trForm (mk : TR → Instr) (i : Instr) (x : Nat) : Prop :=
  ∃ f, i = mk f ∧ x = f.d.toNat * 2 ^ 18 + f.a.toNat * 2 ^ 12 + f.b.toNat * 2 ^ 6 + f.g.toNat * 8 + f.s.toNat

def t1Form (mk : T1 → Instr) (i : Instr) (x : Nat) : Prop :=
  ∃ f, i = mk f ∧ x = f.d.toNat * 2 ^ 18 + f.a.toNat * 2 ^ 12 + f.g.toNat * 8 + f.s.toNat

def tcForm (mk : TC → Instr) (i : Instr) (x : Nat) : Prop :=
  ∃ f, i = mk f ∧ x = f.d.toNat * 2 ^ 21 + f.e.toNat * 2 ^ 18 + f.a.toNat * 2 ^ 12 + f.b.toNat * 2 ^ 6 + f.c.toNat * 8 + f.s.toNat

def srForm (mk : S3 → Instr) (c : BitVec 3) (i : Instr) (x : Nat) : Prop :=
  ∃ f, f.c = c ∧ i = mk f ∧ x = f.d.toNat * 2 ^ 16 + f.a.toNat * 2 ^ 11 + f.b.toNat * 2 ^ 6

/-! ### Integer arithmetic (R145, R148 to R153) -/

/-- A two-source integer instruction that computes `fn` in each thread, its result shaped by the rule `k`. -/
def intTwo (k : ShapeRule) (fn : Word → Word → Word) (f : TR) : Arith where
  words := 1
  stall := f.s
  latency := 0
  reads := [single f.a, single f.b]
  writes := [single f.d]
  part := fun w => participants w f.g
  results := fun w => [(f.d, resultRank k [fieldRow w f.a, fieldRow w f.b],
    fun i => fn (rowAt (fieldRow w f.a) i) (rowAt (fieldRow w f.b) i))]
  flags := fun _ _ => 0
  quiet := true

/-- A one-source integer instruction. -/
def intOne (k : ShapeRule) (fn : Word → Word) (f : T1) : Arith where
  words := 1
  stall := f.s
  latency := 0
  reads := [single f.a]
  writes := [single f.d]
  part := fun w => participants w f.g
  results := fun w => [(f.d, resultRank k [fieldRow w f.a], fun i => fn (rowAt (fieldRow w f.a) i))]
  flags := fun _ _ => 0
  quiet := true

/-- An immediate form: every active thread participates (R149). -/
def intImmediate (k : ShapeRule) (fn : BitVec 9 → Word → Word) (f : TI) : Arith where
  words := 1
  stall := f.s
  latency := 0
  reads := [single f.a]
  writes := [single f.d]
  part := fun w => w.exec
  results := fun w => [(f.d, resultRank k [fieldRow w f.a], fun i => fn f.i (rowAt (fieldRow w f.a) i))]
  flags := fun _ _ => 0
  quiet := true

/-- Two-source integer instructions: what a thread computes (R148), and the rule of the result's shape (R145). -/
def intTwoTable : List ((TR → Instr) × ShapeRule × (Word → Word → Word)) :=
  [(.iadd, .linear, fun x y => x + y),
   (.isub, .linear, fun x y => x - y),
   (.imul, .scaled, fun x y => x * y),
   (.imulhi, .perThread, fun x y => BitVec.ofNat 32 (x.toNat * y.toNat / 2 ^ 32)),
   (.imin, .perThread, fun x y => if x.toInt < y.toInt then x else y),
   (.imax, .perThread, fun x y => if x.toInt < y.toInt then y else x),
   (.umin, .perThread, fun x y => if x.toNat < y.toNat then x else y),
   (.umax, .perThread, fun x y => if x.toNat < y.toNat then y else x),
   (.and, .perThread, fun x y => x &&& y),
   (.or, .perThread, fun x y => x ||| y),
   (.xor, .perThread, fun x y => x ^^^ y),
   (.shl, .scaled, fun x y => BitVec.ofNat 32 (x.toNat * 2 ^ y.toNat)),
   (.shr, .perThread, fun x y => BitVec.ofNat 32 (x.toNat / 2 ^ y.toNat)),
   (.sar, .perThread, fun x y => BitVec.ofInt 32 (x.toInt / 2 ^ y.toNat)),
   (.lea, .linear, fun x y => x + 4 * y)]

def intOneTable : List ((T1 → Instr) × (Word → Word)) :=
  [(.popc, fun x => BitVec.ofNat 32 ((List.range 32).countP fun i => x.getLsbD i)),
   (.clz, fun x => BitVec.ofNat 32 (((List.range 32).find? fun n => x.getLsbD (31 - n)).getD 32))]

/-- The opcodes of the two tables (R148). -/
def intTwoOps : List Nat := [0x00, 0x01, 0x02, 0x03, 0x05, 0x06, 0x07, 0x08, 0x09, 0x0A, 0x0B, 0x0C, 0x0D, 0x0E, 0x14]

def intOneOps : List Nat := [0x17, 0x18]

end Sys2Proof.Machine

/-- R148: what each two-source integer instruction, POPC and CLZ writes, with no flag and at latency 0; their words; and the
signed product's high half, formed from IMULHI. -/
def Obligations.IntegerTwoSource : Prop :=
  (∀ e ∈ intTwoTable, ∀ f, Computes (e.1 f) (intTwo e.2.1 e.2.2 f)) ∧
  (∀ e ∈ intOneTable, ∀ f, Computes (e.1 f) (intOne .perThread e.2 f)) ∧
  (∀ e ∈ intTwoOps.zip intTwoTable, ThreadWords e.1 (trForm e.2.1)) ∧
  (∀ e ∈ intOneOps.zip intOneTable, ThreadWords e.1 (t1Form e.2.1)) ∧
  ∀ x y : Word, BitVec.ofInt 32 (x.toInt * y.toInt / 2 ^ 32) =
    BitVec.ofNat 32 (x.toNat * y.toNat / 2 ^ 32) - (if x.getLsbD 31 then y else 0) - (if y.getLsbD 31 then x else 0)

namespace Sys2Proof.Machine

/-- The immediate forms with a source (R149). -/
def intImmediateTable : List ((TI → Instr) × ShapeRule × (BitVec 9 → Word → Word)) :=
  [(.iaddi, .same, fun i x => x + BitVec.ofInt 32 i.toInt),
   (.andi, .perThread, fun i x => x &&& BitVec.ofInt 32 i.toInt),
   (.ori, .perThread, fun i x => x ||| BitVec.ofNat 32 i.toNat),
   (.shli, .same, fun i x => BitVec.ofNat 32 (x.toNat * 2 ^ i.toNat)),
   (.shri, .perThread, fun i x => BitVec.ofNat 32 (x.toNat / 2 ^ i.toNat))]

/-- MOVI writes its sign-extended immediate as a U result in every active thread (R145, R149). -/
def moveImmediate (d : BitVec 6) (i : BitVec 9) (st : BitVec 3) : Arith where
  words := 1
  stall := st
  latency := 0
  reads := []
  writes := [single d]
  part := fun w => w.exec
  results := fun _ => [(d, 1, fun _ => BitVec.ofInt 32 i.toInt)]
  flags := fun _ _ => 0
  quiet := true

end Sys2Proof.Machine

/-- The immediate forms (R149); a shift of 32 or more is no instruction and halts its wave with illegal instruction (0x10). -/
def Obligations.Immediates : Prop :=
  (∀ e ∈ intImmediateTable, ∀ f, Computes (e.1 f) (intImmediate e.2.1 e.2.2 f)) ∧
  (∀ d i st, Computes (.movi d i st) (moveImmediate d i st)) ∧
  ∀ (f : TI) (s : State) (w : Wave), WaveTurn s w → 32 ≤ f.i.toNat →
    exec (.shli f) s = .next (haltWave s w 0x10 0 []) ∧ exec (.shri f) s = .next (haltWave s w 0x10 0 [])

namespace Sys2Proof.Machine

/-- The 64-bit value of an even/odd pair in a thread (R33). -/
def pairValue (w : Wave) (f : BitVec 6) (i : Nat) : Nat :=
  (rowAt (fieldRow w f) i).toNat + 2 ^ 32 * (rowAt (fieldRow w (f + 1)) i).toNat

/-- The rows of a pair. -/
def pairRows (w : Wave) (f : BitVec 6) : List VRow := [fieldRow w f, fieldRow w (f + 1)]

/-- The two results of a pair whose 64-bit value in thread i is v i, modulo 2^64. -/
def pairResults (d : BitVec 6) (rank : Nat) (v : Nat → Nat) : List (BitVec 6 × Nat × (Nat → Word)) :=
  [(d, rank, fun i => BitVec.ofNat 32 (v i)), (d + 1, rank, fun i => BitVec.ofNat 32 (v i / 2 ^ 32))]

/-- A number as two's complement in 64 bits. -/
def twos64 (x : Int) : Nat := (BitVec.ofInt 64 x).toNat

/-- A wide form on pairs: operands, rows that shape the result, value. -/
def intPair (words : Nat) (f : TR) (reads : List VField) (rows : Wave → List VRow) (v : Wave → Nat → Nat) : Arith where
  words := words
  stall := f.s
  latency := 0
  reads := reads
  writes := [pairAt f.d]
  part := fun w => participants w f.g
  results := fun w => pairResults f.d (resultRank .perThread (rows w)) (v w)
  flags := fun _ _ => 0
  quiet := true

/-- A form with one destination register whose value follows from some registers of a thread. -/
def intMany (words : Nat) (f : TR) (srcs : List (BitVec 6)) (v : Wave → Nat → Word) : Arith where
  words := words
  stall := f.s
  latency := 0
  reads := srcs.map single
  writes := [single f.d]
  part := fun w => participants w f.g
  results := fun w => [(f.d, resultRank .perThread (srcs.map (fieldRow w)), v w)]
  flags := fun _ _ => 0
  quiet := true

/-- LEA64 and IADD64 (R150), and IMAD without TX, with a narrow TX word and with a wide one (R152). -/
def WideAddresses : Prop :=
  (∀ f : TR, Computes (.lea64 f) (intPair 1 f [pairAt f.a, single f.b] (fun w => pairRows w f.a ++ [fieldRow w f.b])
    fun w i => pairValue w f.a i + twos64 (rowAt (fieldRow w f.b) i).toInt)) ∧
  (∀ f : TR, Computes (.iadd64 f) (intPair 1 f [pairAt f.a, pairAt f.b] (fun w => pairRows w f.a ++ pairRows w f.b)
    fun w i => pairValue w f.a i + pairValue w f.b i)) ∧
  (∀ f : TR, Computes (.imad f) (intMany 1 f [f.a, f.b, f.d] fun w i =>
    rowAt (fieldRow w f.a) i * rowAt (fieldRow w f.b) i + rowAt (fieldRow w f.d) i)) ∧
  (∀ (f : TR) (x : TX), x.m.getLsbD 0 = false → Computes (.imadTx f x) (intMany 2 f [f.a, f.b, x.c] fun w i =>
    rowAt (fieldRow w f.a) i * rowAt (fieldRow w f.b) i + rowAt (fieldRow w x.c) i)) ∧
  ∀ (f : TR) (x : TX), x.m.getLsbD 0 = true →
    Computes (.imadTx f x) (intPair 2 f [single f.a, single f.b, pairAt x.c]
      (fun w => [fieldRow w f.a, fieldRow w f.b] ++ pairRows w x.c) fun w i =>
        (if x.m.getLsbD 1 then twos64 ((rowAt (fieldRow w f.a) i).toInt * (rowAt (fieldRow w f.b) i).toInt)
          else (rowAt (fieldRow w f.a) i).toNat * (rowAt (fieldRow w f.b) i).toNat) + pairValue w x.c i)

/-- The fields of a TX word of BFE and BFI (R151). -/
def fieldPos (x : TX) : Nat := x.i.toNat % 32

def fieldLen (x : TX) : Nat := x.i.toNat / 32 % 32 + 1

/-- Bit j of BFE: that of the field, from its length on the sign or zero (R151). -/
def bfeBit (x : TX) (v : Word) (j : Nat) : Bool :=
  if j < fieldLen x then v.getLsbD (fieldPos x + j)
  else x.i.getLsbD 10 && v.getLsbD (fieldPos x + fieldLen x - 1)

/-- Bit j of BFI (R151). -/
def bfiBit (x : TX) (v y : Word) (j : Nat) : Bool :=
  if fieldPos x ≤ j ∧ j < fieldPos x + fieldLen x then y.getLsbD (j - fieldPos x) else v.getLsbD j

/-- The word of some bits. -/
def wordOfBits (b : Nat → Bool) : Word := BitVec.ofNat 32 (((List.range 32).map fun j => if b j then 2 ^ j else 0).sum)

/-- What MOVS copies: s0 to s31, in the trap handler hs0 to hs7 for the last eight, tk0, tk1 (R92, R153). -/
def movsSource (w : Wave) (a : BitVec 6) (h : BitVec 1) : Word :=
  if a = 32 then w.tk0
  else if a = 33 then w.tk1
  else
    let x : Dword := if w.tcode ≠ 0 ∧ 24 ≤ a.toNat then w.hs.getD (a.toNat - 24) 0 else w.s.getD a.toNat 0
    BitVec.ofNat 32 (x.toNat / 2 ^ (32 * h.toNat))

/-- MOVS as a U result. -/
def moveSequencer (d a : BitVec 6) (h : BitVec 1) (g st : BitVec 3) : Arith where
  words := 1
  stall := st
  latency := 0
  reads := []
  writes := [single d]
  part := fun w => participants w g
  results := fun w => [(d, 1, fun _ => movsSource w a h)]
  flags := fun _ _ => 0
  quiet := true

/-- SEL: every active thread takes va or vb by the selector (R144, R145, R153). -/
def selectThreads (f : TR) : Arith where
  words := 1
  stall := f.s
  latency := 0
  reads := [single f.a, single f.b]
  writes := [single f.d]
  part := fun w => w.exec
  results := fun w => [(f.d, if f.g = 7 then shapeRank (fieldRow w f.a) else 3,
    fun i => if (predMask w f.g).getLsbD i then rowAt (fieldRow w f.a) i else rowAt (fieldRow w f.b) i)]
  flags := fun _ _ => 0
  quiet := true

/-- Bit fields and moves (R151, R153). -/
def FieldsAndMoves : Prop :=
  (∀ (f : TR) (x : TX), Computes (.bfe f x)
    (intMany 2 f [f.a] fun w i => wordOfBits (bfeBit x (rowAt (fieldRow w f.a) i)))) ∧
  (∀ (f : TR) (x : TX), Computes (.bfi f x)
    (intMany 2 f [f.a, f.b] fun w i => wordOfBits (bfiBit x (rowAt (fieldRow w f.a) i) (rowAt (fieldRow w f.b) i)))) ∧
  (∀ f : T1, Computes (.mov f) (intOne .same (fun x => x) f)) ∧
  (∀ d a h g st, Computes (.movs d a h g st) (moveSequencer d a h g st)) ∧
  ∀ f : TR, Computes (.sel f) (selectThreads f)

end Sys2Proof.Machine

/-- The wide integer forms, bit fields and moves (R150 to R153). -/
def Obligations.WideForms : Prop := WideAddresses ∧ FieldsAndMoves

/-! ### Floating point (R154 to R159) -/

namespace Sys2Proof.Machine

/-- The results of a floating-point instruction in one register: its code in each thread. -/
def fpMany (fmt : FpFormat) (words latency : Nat) (d : BitVec 6) (g st : BitVec 3) (srcs : List (BitVec 6))
    (r : List Nat → FpResult) : Arith where
  words := words
  stall := st
  latency := latency
  reads := srcs.map single
  writes := [single d]
  part := fun w => participants w g
  results := fun w => [(d, resultRank .perThread (srcs.map (fieldRow w)), fun i =>
    BitVec.ofNat 32 (r (srcs.map fun f => (rowAt (fieldRow w f) i).toNat % 2 ^ fmtWidth fmt)).code)]
  flags := fun w i => (r (srcs.map fun f => (rowAt (fieldRow w f) i).toNat % 2 ^ fmtWidth fmt)).flags
  quiet := false

/-- An operation on two and one on three codes, as functions of their list. -/
def onTwo (op : Nat → Nat → FpResult) (l : List Nat) : FpResult := op (l.getD 0 0) (l.getD 1 0)

def onThree (op : Nat → Nat → Nat → FpResult) (l : List Nat) : FpResult := op (l.getD 0 0) (l.getD 1 0) (l.getD 2 0)

/-- The rounding mode of a TX word (R38, R154). -/
def modeOf (x : TX) : RoundMode :=
  if x.m.toNat % 4 = 0 then .rne else if x.m.toNat % 4 = 1 then .rtz else if x.m.toNat % 4 = 2 then .rup else .rdn

/-- Two-source scalar instructions without a TX word: format, latency (R110), operation (R155). -/
def fpTwoTable : List ((TR → Instr) × FpFormat × Nat × (FpFormat → Nat → Nat → FpResult)) :=
  [(.fadd, .fp32, 0, fun t => fpAdd t .rne), (.fsub, .fp32, 0, fun t => fpSub t .rne), (.fmul, .fp32, 0, fun t => fpMul t .rne),
   (.fdiv, .fp32, 2, fun t => fpDiv t .rne), (.fmin, .fp32, 0, fun t => fpMinMax t false),
   (.fmax, .fp32, 0, fun t => fpMinMax t true), (.hadd, .fp16, 0, fun t => fpAdd t .rne),
   (.hmul, .fp16, 0, fun t => fpMul t .rne), (.badd, .bf16, 0, fun t => fpAdd t .rne), (.bmul, .bf16, 0, fun t => fpMul t .rne)]

/-- Two-source FP32 instructions with a TX word. -/
def fpTwoTxTable : List ((TR → TX → Instr) × Nat × (RoundMode → Nat → Nat → FpResult)) :=
  [(.faddTx, 0, fpAdd .fp32), (.fsubTx, 0, fpSub .fp32), (.fmulTx, 0, fpMul .fp32), (.fdivTx, 2, fpDiv .fp32)]

/-- Fused multiply-adds: without a TX word the addend is vd, with one it is vc (R154). -/
def fpThreeTable : List ((TR → Instr) × (TR → TX → Instr) × FpFormat) :=
  [(.ffma, .ffmaTx, .fp32), (.hfma, .hfmaTx, .fp16), (.bfma, .bfmaTx, .bf16)]

/-- Scalar floating point in at most 32 bits (R154, R155): what each participating thread writes, and the flags it raises. -/
def ScalarFloat : Prop :=
  (∀ e ∈ fpTwoTable, ∀ f : TR, Computes (e.1 f) (fpMany e.2.1 1 e.2.2.1 f.d f.g f.s [f.a, f.b] (onTwo (e.2.2.2 e.2.1)))) ∧
  (∀ e ∈ fpTwoTxTable, ∀ (f : TR) (x : TX),
    Computes (e.1 f x) (fpMany .fp32 2 e.2.1 f.d f.g f.s [f.a, f.b] (onTwo (e.2.2 (modeOf x))))) ∧
  ∀ e ∈ fpThreeTable, ∀ (f : TR) (x : TX),
    Computes (e.1 f) (fpMany e.2.2 1 0 f.d f.g f.s [f.a, f.b, f.d] (onThree (fpFma e.2.2 .rne))) ∧
    Computes (e.2.1 f x) (fpMany e.2.2 2 0 f.d f.g f.s [f.a, f.b, x.c] (onThree (fpFma e.2.2 (modeOf x))))

/-- Both elements of a packed instruction (R33, R155, R156). -/
def fpPacked (words : Nat) (f : TR) (srcs : List (BitVec 6)) (r : List Nat → FpResult) : Arith where
  words := words
  stall := f.s
  latency := 0
  reads := srcs.map single
  writes := [single f.d]
  part := fun w => participants w f.g
  results := fun w => [(f.d, resultRank .perThread (srcs.map (fieldRow w)), fun i =>
    BitVec.ofNat 32 ((r (srcs.map fun x => (rowAt (fieldRow w x) i).toNat % 2 ^ 16)).code +
      2 ^ 16 * (r (srcs.map fun x => (rowAt (fieldRow w x) i).toNat / 2 ^ 16)).code))]
  flags := fun w i => (r (srcs.map fun x => (rowAt (fieldRow w x) i).toNat % 2 ^ 16)).flags |||
    (r (srcs.map fun x => (rowAt (fieldRow w x) i).toNat / 2 ^ 16)).flags
  quiet := false

def fpPackedTable : List ((TR → Instr) × FpFormat × (FpFormat → Nat → Nat → FpResult)) :=
  [(.hadd2, .fp16, fun t => fpAdd t .rne), (.hmul2, .fp16, fun t => fpMul t .rne), (.hmax2, .fp16, fun t => fpMinMax t true),
   (.hmin2, .fp16, fun t => fpMinMax t false), (.badd2, .bf16, fun t => fpAdd t .rne), (.bmul2, .bf16, fun t => fpMul t .rne),
   (.bmax2, .bf16, fun t => fpMinMax t true), (.bmin2, .bf16, fun t => fpMinMax t false)]

/-- Packed FP16 and BF16 (R33, R155, R156): each element by itself, their flags ORed. -/
def PackedFloat : Prop :=
  (∀ e ∈ fpPackedTable, ∀ f : TR, Computes (e.1 f) (fpPacked 1 f [f.a, f.b] (onTwo (e.2.2 e.2.1)))) ∧
  (∀ f : TR, Computes (.hfma2 f) (fpPacked 1 f [f.a, f.b, f.d] (onThree (fpFma .fp16 .rne)))) ∧
  (∀ f : TR, Computes (.bfma2 f) (fpPacked 1 f [f.a, f.b, f.d] (onThree (fpFma .bf16 .rne)))) ∧
  (∀ (f : TR) (x : TX), Computes (.hfma2Tx f x) (fpPacked 2 f [f.a, f.b, x.c] (onThree (fpFma .fp16 .rne)))) ∧
  ∀ (f : TR) (x : TX), Computes (.bfma2Tx f x) (fpPacked 2 f [f.a, f.b, x.c] (onThree (fpFma .bf16 .rne)))

/-- FP64 on even/odd pairs. -/
def fpDouble (words latency : Nat) (d : BitVec 6) (g st : BitVec 3) (srcs : List (BitVec 6)) (r : List Nat → FpResult) :
    Arith where
  words := words
  stall := st
  latency := latency
  reads := srcs.map pairAt
  writes := [pairAt d]
  part := fun w => participants w g
  results := fun w => pairResults d (resultRank .perThread (srcs.flatMap (pairRows w)))
    fun i => (r (srcs.map fun x => pairValue w x i)).code
  flags := fun w i => (r (srcs.map fun x => pairValue w x i)).flags
  quiet := false

def fpDoubleTable : List ((TR → Instr) × Nat × (Nat → Nat → FpResult)) :=
  [(.dadd, 1, fpAdd .fp64 .rne), (.dsub, 1, fpSub .fp64 .rne), (.dmul, 1, fpMul .fp64 .rne), (.ddiv, 3, fpDiv .fp64 .rne),
   (.dmin, 1, fpMinMax .fp64 false), (.dmax, 1, fpMinMax .fp64 true)]

def fpDoubleTxTable : List ((TR → TX → Instr) × Nat × (RoundMode → Nat → Nat → FpResult)) :=
  [(.daddTx, 1, fpAdd .fp64), (.dsubTx, 1, fpSub .fp64), (.dmulTx, 1, fpMul .fp64), (.ddivTx, 3, fpDiv .fp64)]

/-- FP64 (R33, R110, R154, R155). -/
def DoubleFloat : Prop :=
  (∀ e ∈ fpDoubleTable, ∀ f : TR, Computes (e.1 f) (fpDouble 1 e.2.1 f.d f.g f.s [f.a, f.b] (onTwo e.2.2))) ∧
  (∀ e ∈ fpDoubleTxTable, ∀ (f : TR) (x : TX),
    Computes (e.1 f x) (fpDouble 2 e.2.1 f.d f.g f.s [f.a, f.b] (onTwo (e.2.2 (modeOf x))))) ∧
  (∀ f : TR, Computes (.dfma f) (fpDouble 1 1 f.d f.g f.s [f.a, f.b, f.d] (onThree (fpFma .fp64 .rne)))) ∧
  (∀ (f : TR) (x : TX),
    Computes (.dfmaTx f x) (fpDouble 2 1 f.d f.g f.s [f.a, f.b, x.c] (onThree (fpFma .fp64 (modeOf x))))) ∧
  ∀ f : T1, Computes (.dabs f) (fpDouble 1 1 f.d f.g f.s [f.a] fun l =>
    ⟨if isNaN .fp64 (l.getD 0 0) then 0x7FF8000000000000 else l.getD 0 0 % 2 ^ 63, 0⟩)

end Sys2Proof.Machine

/-- Floating-point arithmetic, scalar, packed and double (R154 to R156). -/
def Obligations.FloatingPoint : Prop := ScalarFloat ∧ PackedFloat ∧ DoubleFloat

namespace Sys2Proof.Machine

/-- The special functions by what they compute of a code (R158, R159); where R158 leaves the value open it is the model's
(log 7). -/
def specialTable : List ((T1 → Instr) × Nat × (Nat → FpResult)) :=
  [(.fabs, 0, fun x => ⟨if isNaN .fp32 x then 0x7FC00000 else x % 2 ^ 31, 0⟩),
   (.frcp, 2, fun x => fpDiv .fp32 .rne 0x3F800000 x), (.frsq, 2, fun x => fpRsqrt (BitVec.ofNat 32 x)),
   (.fsqrt, 2, fpSqrt), (.fexp2, 2, fun x => fpExp2 (BitVec.ofNat 32 x)), (.flog2, 2, fun x => fpLog2 (BitVec.ofNat 32 x)),
   (.fsin, 2, fun x => fpSin (BitVec.ofNat 32 x)), (.fcos, 2, fun x => fpCos (BitVec.ofNat 32 x)),
   (.ftanh, 2, fun x => fpTanh (BitVec.ofNat 32 x)), (.fqrcp, 2, fun x => fpQuickRecip (BitVec.ofNat 32 x))]

end Sys2Proof.Machine

/-- FABS and the special functions (R110, R155, R158). -/
def Obligations.SpecialFunctions : Prop :=
  ∀ e ∈ specialTable, ∀ f : T1, Computes (e.1 f) (fpMany .fp32 1 e.2.1 f.d f.g f.s [f.a] fun l => e.2.2 (l.getD 0 0))

/-! ### The arithmetic of numbers (R31 to R47, R155, R156) -/

namespace Sys2Proof.Machine

/-- A value as a rational number; an infinity stands beyond every finite value, and a NaN has none. -/
def rationalOf : FpVal → Option ℚ
  | .nan => none
  | .inf neg => some (if neg then -2 ^ 1024 else 2 ^ 1024)
  | .num neg m e => some ((if neg then -1 else 1) * m * (2 : ℚ) ^ e)

/-- The number that a code names (R31, R32). -/
def valueOf (f : FpFormat) (c : Nat) : Option ℚ := rationalOf (fpDecode f c)

/-- A code is that of a finite number. -/
def isFiniteCode (f : FpFormat) (c : Nat) : Prop := c < 2 ^ fmtWidth f ∧ ∃ s m e, fpDecode f c = .num s m e

/-- The formats of FCLASS by the code in the vb field (R157). -/
def classFormats : List FpFormat := [.fp32, .fp16, .bf16, .e4m3, .e5m2]

/-- The word of FCLASS for a code (R157): kind, sign, integral, canonical NaN, and a subnormal that arithmetic would flush. -/
def classOf (fmt : FpFormat) (c : Nat) (z : Word) : Prop :=
  let top := 2 ^ expBits fmt - 1
  let e := c / 2 ^ fracBits fmt % 2 ^ expBits fmt
  let frac := c % 2 ^ fracBits fmt
  let nan := if fmt = .e4m3 then e = top ∧ frac = 7 else e = top ∧ frac ≠ 0
  z.toNat % 8 = (if nan then 4 else if e = top ∧ fmt ≠ .e4m3 then 3 else if e ≠ 0 then 2 else if frac ≠ 0 then 1 else 0) ∧
  (z.getLsbD 3 = true ↔ c / 2 ^ (fmtWidth fmt - 1) % 2 = 1) ∧
  (z.getLsbD 4 = true ↔ isFiniteCode fmt c ∧ ∃ n : ℤ, valueOf fmt c = some (n : ℚ)) ∧
  (z.getLsbD 5 = true ↔ c = canonNaN fmt) ∧
  (z.getLsbD 6 = true ↔ e = 0 ∧ frac ≠ 0 ∧ fmt ≠ .fp32) ∧ z.toNat < 128

end Sys2Proof.Machine

/-- FCLASS (R110, R145, R157): its words; one word of its kind for each participating thread, and no flag; a reserved format is
an illegal instruction. -/
def Obligations.Classifies : Prop :=
  ThreadWords 0x4E (trForm .fclass) ∧
  ∀ f : TR,
    (∀ fmt, classFormats[f.b.toNat]? = some fmt → ∃ z : Word → Word,
      Computes (.fclass f) (intMany 1 f [f.a] fun w i => z (rowAt (fieldRow w f.a) i)) ∧
      ∀ x, classOf fmt (x.toNat % 2 ^ fmtWidth fmt) (z x)) ∧
    (5 ≤ f.b.toNat → ∀ (s : State) (w : Wave), WaveTurn s w → exec (.fclass f) s = .next (haltWave s w 0x10 0 []))

/-- Round to nearest, ties to even, with gradual underflow (R38, R39): without overflow no code is nearer, another one equally
near means an even result, and the result is exact unless IX is set. -/
def Obligations.RoundsToNearest : Prop :=
  ∀ (f : FpFormat) (setting : Saturation) (neg : Bool) (mant : Nat) (exp : Int) (x : ℚ),
    rationalOf (.num neg mant exp) = some x →
    let r := roundResult f .rne false setting neg mant exp
    r.flags.getLsbD 2 = false →
    ∃ y, valueOf f r.code = some y ∧ isFiniteCode f r.code ∧ (r.flags.getLsbD 4 = false → y = x) ∧
      ∀ c z, isFiniteCode f c → valueOf f c = some z →
        |y - x| ≤ |z - x| ∧ (|z - x| = |y - x| → z ≠ y → r.code % 2 = 0)

namespace Sys2Proof.Machine

/-- A representable value lies on the side of x that a directed mode asks for (R38). -/
def onSide : RoundMode → ℚ → ℚ → Prop
  | .rne, _, _ => True
  | .rtz, x, z => |z| ≤ |x| ∧ 0 ≤ x * z
  | .rup, x, z => x ≤ z
  | .rdn, x, z => z ≤ x

/-- The power of two above every finite number of a format with infinities, and the distance of its largest two numbers. -/
def aboveAll (f : FpFormat) : ℚ := 2 ^ (expBias f + 1)

def topUlp (f : FpFormat) : ℚ := (2 : ℚ) ^ ((expBias f : ℤ) - fracBits f)

/-- x, rounded as if the exponent range were unbounded, exceeds the largest finite number (R39). -/
def overflows (f : FpFormat) (mode : RoundMode) (x : ℚ) : Prop :=
  match mode with
  | .rne => aboveAll f - topUlp f / 2 ≤ |x|
  | .rtz => aboveAll f ≤ |x|
  | .rup => aboveAll f - topUlp f < x ∨ x ≤ -aboveAll f
  | .rdn => aboveAll f ≤ x ∨ x < -(aboveAll f - topUlp f)

/-- An overflowing result becomes an infinity, or the largest finite number, by its mode and sign (R39). -/
def overflowToInf (mode : RoundMode) (neg : Bool) : Bool :=
  match mode with
  | .rne => true
  | .rtz => false
  | .rup => !neg
  | .rdn => neg

/-- r is x rounded once under a mode (R38, R39): the overflow value and its flags where x overflows; otherwise the nearest number on
the side that the mode asks for, a tie going to the even fraction, and exact unless IX is set. -/
def RoundedOnce (f : FpFormat) (mode : RoundMode) (x : ℚ) (r : FpResult) : Prop :=
  (overflows f mode x → r = ⟨withSign f (decide (x < 0)) (if overflowToInf mode (decide (x < 0)) then infCode f else maxFinite f),
    flagOF ||| flagIX⟩) ∧
  (¬ overflows f mode x → r.flags.getLsbD 2 = false ∧ ∃ y, valueOf f r.code = some y ∧ isFiniteCode f r.code ∧ onSide mode x y ∧
    (r.flags.getLsbD 4 = false → y = x) ∧
    ∀ c z, isFiniteCode f c → valueOf f c = some z → onSide mode x z →
      |y - x| ≤ |z - x| ∧ (mode = .rne → |z - x| = |y - x| → z ≠ y → r.code % 2 = 0))

/-- Rounding under each of the four modes in the formats with infinities (R38, R39). -/
def RoundsUnderModes : Prop :=
  ∀ f, f ≠ .e4m3 → ∀ (mode : RoundMode) (neg : Bool) (mant : Nat) (exp : Int) (x : ℚ),
    rationalOf (.num neg mant exp) = some x →
    RoundedOnce f mode x (roundResult f mode false .ieee neg mant exp) ∧
    (roundResult f mode false .ieee neg mant exp).code / signBit f % 2 = if neg then 1 else 0

/-- A quotient of finite FP32 or FP64 numbers and a square root are correctly rounded (R155, R158); FRCP is the quotient of 1. -/
def QuotientsAndRoots : Prop :=
  (∀ f, f = .fp32 ∨ f = .fp64 → ∀ (mode : RoundMode) (a b : Nat) (x y : ℚ), isFiniteCode f a → isFiniteCode f b →
    valueOf f a = some x → valueOf f b = some y → x ≠ 0 → y ≠ 0 → RoundedOnce f mode (x / y) (fpDiv f mode a b)) ∧
  ∀ (a : Nat) (x : ℚ), isFiniteCode .fp32 a → valueOf .fp32 a = some x → 0 < x →
    ∃ y, valueOf .fp32 (fpSqrt a).code = some y ∧ isFiniteCode .fp32 (fpSqrt a).code ∧
      ((fpSqrt a).flags.getLsbD 4 = false → y * y = x) ∧ 0 ≤ y ∧
      ∀ c z, isFiniteCode .fp32 c → valueOf .fp32 c = some z → |(y : ℝ) - Real.sqrt x| ≤ |(z : ℝ) - Real.sqrt x|

/-- A source as a flushing width reads it: the zero of its sign for a subnormal, with FL (R40, R47). -/
def readAs (f : FpFormat) (c : Nat) : Nat :=
  if flushes f = true ∧ isSubnormal f c = true then withSign f (c / signBit f % 2 == 1) 0 else c

def readFlag (f : FpFormat) (c : Nat) : FpFlags := if flushes f = true ∧ isSubnormal f c = true then flagFL else 0

/-- Flushing (R40, R47): FP16 and BF16 arithmetic on a subnormal is that on the zero of its sign, with FL; a result that rounds, as if
the exponent range were unbounded, below the smallest normal number is the zero of its sign with UF, IX and FL; any other result
is that without flushing. -/
def Flushing : Prop :=
  ∀ f, f = .fp16 ∨ f = .bf16 → (∀ (mode : RoundMode) (a b c : Nat), a < 2 ^ 16 → b < 2 ^ 16 → c < 2 ^ 16 →
    (let r := fpAdd f mode (readAs f a) (readAs f b);
      fpAdd f mode a b = ⟨r.code, r.flags ||| readFlag f a ||| readFlag f b⟩) ∧
    (let r := fpMul f mode (readAs f a) (readAs f b);
      fpMul f mode a b = ⟨r.code, r.flags ||| readFlag f a ||| readFlag f b⟩) ∧
    (let r := fpFma f mode (readAs f a) (readAs f b) (readAs f c);
      fpFma f mode a b c = ⟨r.code, r.flags ||| readFlag f a ||| readFlag f b ||| readFlag f c⟩)) ∧
  ∀ (neg : Bool) (mant : Nat) (exp : Int) (x : ℚ), rationalOf (.num neg mant exp) = some x →
    let tiny : ℚ := (2 : ℚ) ^ (1 - (expBias f : ℤ)) - (2 : ℚ) ^ (-1 - (expBias f : ℤ) - fracBits f)
    (x ≠ 0 → |x| < tiny → roundResult f .rne true .ieee neg mant exp = ⟨withSign f neg 0, flagUF ||| flagIX ||| flagFL⟩) ∧
    (x = 0 ∨ tiny ≤ |x| → roundResult f .rne true .ieee neg mant exp = roundResult f .rne false .ieee neg mant exp)

/-- FMIN and FMAX (R42): a NaN yields to the other operand, two give the canonical NaN; otherwise the result is an operand as it is
read, the least or greatest, with −0 below +0; FL says that a subnormal was flushed, and no other flag is raised. -/
def MinMax : Prop :=
  ∀ f, f = .fp64 ∨ f = .fp32 ∨ f = .fp16 ∨ f = .bf16 → ∀ (max : Bool) (a b : Nat), a < 2 ^ fmtWidth f → b < 2 ^ fmtWidth f →
    let r := fpMinMax f max a b
    r.flags = readFlag f a ||| readFlag f b ∧
    (isNaN f a = true → isNaN f b = true → r.code = canonNaN f) ∧
    (isNaN f a = true → isNaN f b = false → r.code = readAs f b) ∧
    (isNaN f a = false → isNaN f b = true → r.code = readAs f a) ∧
    (isNaN f a = false → isNaN f b = false →
      (r.code = readAs f a ∨ r.code = readAs f b) ∧
      (∀ x y z, valueOf f (readAs f a) = some x → valueOf f (readAs f b) = some y → valueOf f r.code = some z →
        if max then x ≤ z ∧ y ≤ z else z ≤ x ∧ z ≤ y) ∧
      (valueOf f (readAs f a) = some 0 → valueOf f (readAs f b) = some 0 → readAs f a ≠ readAs f b →
        r.code = withSign f (!max) 0))

/-- Add, subtract, multiply and fused multiply-add of finite FP32 and FP64 numbers are the exact result rounded once (R155). -/
def ExactResults : Prop :=
  ∀ f, f = .fp32 ∨ f = .fp64 → ∀ (mode : RoundMode) (a b c : Nat) (x y z : ℚ),
    isFiniteCode f a → isFiniteCode f b → isFiniteCode f c →
    valueOf f a = some x → valueOf f b = some y → valueOf f c = some z →
    ∀ (neg : Bool) (m : Nat) (e : Int) (q : ℚ), m ≠ 0 → rationalOf (.num neg m e) = some q →
      (q = x + y → fpAdd f mode a b = roundResult f mode false .ieee neg m e) ∧
      (q = x - y → fpSub f mode a b = roundResult f mode false .ieee neg m e) ∧
      (q = x * y → fpMul f mode a b = roundResult f mode false .ieee neg m e) ∧
      (q = x * y + z → fpFma f mode a b c = roundResult f mode false .ieee neg m e)

end Sys2Proof.Machine

/-- Arithmetic is the exact result rounded once, under each mode and with the value that R39 gives on overflow; quotients and roots are
correctly rounded; the narrow formats flush; and FMIN and FMAX (R38 to R42, R155, R158). -/
def Obligations.ExactThenRounded : Prop := ExactResults ∧ RoundsUnderModes ∧ QuotientsAndRoots ∧ Flushing ∧ MinMax

namespace Sys2Proof.Machine

/-- The operands of R156's table: infinities and zeros of a format with infinities. -/
def SpecialOperands : Prop :=
  ∀ f, f = .fp64 ∨ f = .fp32 ∨ f = .fp16 ∨ f = .bf16 → ∀ (mode : RoundMode) (s t : Bool) (a c : Nat),
    let inf (n : Bool) := withSign f n (infCode f)
    let zero (n : Bool) := withSign f n 0
    let bad : FpResult := ⟨canonNaN f, flagIV⟩
    fpAdd f mode (inf s) (inf !s) = bad ∧ fpSub f mode (inf s) (inf s) = bad ∧
    fpMul f mode (zero s) (inf t) = bad ∧ fpMul f mode (inf s) (zero t) = bad ∧
    fpDiv f mode (zero s) (zero t) = bad ∧ fpDiv f mode (inf s) (inf t) = bad ∧
    (c < 2 ^ fmtWidth f → isNaN f c = false → isSubnormal f c = false → fpFma f mode (zero s) (inf t) c = bad) ∧
    (isFiniteCode f a → isSubnormal f a = false → a % signBit f ≠ 0 →
      fpDiv f mode a (zero t) = ⟨inf ((a / signBit f % 2 == 1) != t), flagDZ⟩ ∧
      fpSub f mode a a = ⟨zero (mode == .rdn), 0⟩) ∧
    fpAdd f mode (zero s) (zero s) = ⟨zero s, 0⟩ ∧ fpAdd f mode (zero s) (zero !s) = ⟨zero (mode == .rdn), 0⟩ ∧
    (c < 2 ^ fmtWidth f → isNaN f c = true → isFiniteCode f a → isSubnormal f a = false →
      fpAdd f mode c a = ⟨canonNaN f, 0⟩ ∧ fpAdd f mode a c = ⟨canonNaN f, 0⟩ ∧ fpMul f mode c a = ⟨canonNaN f, 0⟩ ∧
      fpMul f mode a c = ⟨canonNaN f, 0⟩ ∧ fpDiv f mode a c = ⟨canonNaN f, 0⟩)

/-- The exact cases of the special functions (R158). -/
def SpecialFunctionsExact : Prop :=
  (∀ x : Word, isNaN .fp32 x.toNat = true →
    fpRsqrt x = ⟨0x7FC00000, 0⟩ ∧ fpSqrt x.toNat = ⟨0x7FC00000, 0⟩ ∧ fpExp2 x = ⟨0x7FC00000, 0⟩ ∧ fpLog2 x = ⟨0x7FC00000, 0⟩ ∧
    fpSin x = ⟨0x7FC00000, 0⟩ ∧ fpCos x = ⟨0x7FC00000, 0⟩ ∧ fpTanh x = ⟨0x7FC00000, 0⟩) ∧
  (∀ (x : Word) (n : Int), isFiniteCode .fp32 x.toNat → valueOf .fp32 x.toNat = some (n : ℚ) →
    (-126 ≤ n → n ≤ 127 → ∃ r, fpExp2 x = ⟨r, 0⟩ ∧ valueOf .fp32 r = some ((2 : ℚ) ^ n)) ∧
    fpSin x = ⟨if x.getLsbD 31 then 0x80000000 else 0, 0⟩ ∧
    fpCos x = ⟨if n % 2 = 0 then 0x3F800000 else 0xBF800000, 0⟩) ∧
  (∀ (x : Word) (k : Int), isFiniteCode .fp32 x.toNat → valueOf .fp32 x.toNat = some ((2 : ℚ) ^ k) →
    ∃ r, fpLog2 x = ⟨r, 0⟩ ∧ valueOf .fp32 r = some (k : ℚ)) ∧
  (∀ (x : Word) (k : Int), isFiniteCode .fp32 x.toNat → valueOf .fp32 x.toNat = some ((4 : ℚ) ^ k) →
    ∃ r, fpRsqrt x = ⟨r, 0⟩ ∧ valueOf .fp32 r = some ((2 : ℚ) ^ (-k))) ∧
  ∀ (x : Word) (v : ℚ), isFiniteCode .fp32 x.toNat → valueOf .fp32 x.toNat = some v → v < 0 →
    fpRsqrt x = ⟨0x7FC00000, flagIV⟩ ∧ fpSqrt x.toNat = ⟨0x7FC00000, flagIV⟩ ∧ fpLog2 x = ⟨0x7FC00000, flagIV⟩

/-- The other rows of R156's table: an infinity in the final add of a fused multiply-add, and a zero difference. -/
def SpecialSums : Prop :=
  ∀ f, f = .fp64 ∨ f = .fp32 ∨ f = .fp16 ∨ f = .bf16 → ∀ (mode : RoundMode) (s t : Bool) (a b c : Nat),
    let inf (n : Bool) := withSign f n (infCode f)
    let zero (n : Bool) := withSign f n 0
    let bad : FpResult := ⟨canonNaN f, flagIV⟩
    (isFiniteCode f b → isSubnormal f b = false → b % signBit f ≠ 0 →
      fpFma f mode (inf s) b (inf !(s != (b / signBit f % 2 == 1))) = bad ∧
      fpFma f mode b (inf s) (inf !(s != (b / signBit f % 2 == 1))) = bad) ∧
    fpFma f mode (inf s) (inf t) (inf !(s != t)) = bad ∧
    (c < 2 ^ fmtWidth f → isNaN f c = false → isSubnormal f c = false → fpFma f mode (inf s) (zero t) c = bad) ∧
    fpSub f mode (zero s) (zero s) = ⟨zero (mode == .rdn), 0⟩ ∧ fpSub f mode (zero s) (zero !s) = ⟨zero s, 0⟩ ∧
    fpFma f mode (zero s) (zero t) (zero (s != t)) = ⟨zero (s != t), 0⟩ ∧
    fpFma f mode (zero s) (zero t) (zero !(s != t)) = ⟨zero (mode == .rdn), 0⟩ ∧
    (a < 2 ^ fmtWidth f → isNaN f a = true → ∀ x y, x < 2 ^ fmtWidth f → y < 2 ^ fmtWidth f → isSubnormal f x = false →
      isSubnormal f y = false → fpFma f mode a x y = ⟨canonNaN f, 0⟩ ∧ fpFma f mode x a y = ⟨canonNaN f, 0⟩ ∧
        fpFma f mode x y a = ⟨canonNaN f, 0⟩ ∧ fpDiv f mode a x = ⟨canonNaN f, 0⟩ ∧ fpSub f mode a x = ⟨canonNaN f, 0⟩ ∧
        fpSub f mode x a = ⟨canonNaN f, 0⟩)

/-- The exact cases of R158's table at zeros, infinities, half-integers, and integers whose power of two is no normal number. -/
def SpecialFunctionEnds : Prop :=
  (fpDiv .fp32 .rne 0x3F800000 0 = ⟨0x7F800000, flagDZ⟩ ∧ fpDiv .fp32 .rne 0x3F800000 0x80000000 = ⟨0xFF800000, flagDZ⟩ ∧
    fpDiv .fp32 .rne 0x3F800000 0x7F800000 = ⟨0, 0⟩ ∧ fpDiv .fp32 .rne 0x3F800000 0xFF800000 = ⟨0x80000000, 0⟩) ∧
  (fpRsqrt 0 = ⟨0x7F800000, flagDZ⟩ ∧ fpRsqrt 0x80000000 = ⟨0xFF800000, flagDZ⟩ ∧ fpRsqrt 0x7F800000 = ⟨0, 0⟩ ∧
    fpRsqrt 0xFF800000 = ⟨0x7FC00000, flagIV⟩) ∧
  (fpSqrt 0 = ⟨0, 0⟩ ∧ fpSqrt 0x80000000 = ⟨0x80000000, 0⟩ ∧ fpSqrt 0x7F800000 = ⟨0x7F800000, 0⟩ ∧
    fpSqrt 0xFF800000 = ⟨0x7FC00000, flagIV⟩) ∧
  (fpExp2 0xFF800000 = ⟨0, 0⟩ ∧ fpExp2 0x7F800000 = ⟨0x7F800000, 0⟩) ∧
  (∀ (x : Word) (n : Int), isFiniteCode .fp32 x.toNat → valueOf .fp32 x.toNat = some (n : ℚ) →
    (128 ≤ n → fpExp2 x = ⟨0x7F800000, flagOF ||| flagIX⟩) ∧
    (-149 ≤ n → n < -126 → ∃ r, fpExp2 x = ⟨r, 0⟩ ∧ valueOf .fp32 r = some ((2 : ℚ) ^ n)) ∧
    (n < -149 → fpExp2 x = ⟨0, flagUF ||| flagIX⟩)) ∧
  (fpLog2 0 = ⟨0xFF800000, flagDZ⟩ ∧ fpLog2 0x80000000 = ⟨0xFF800000, flagDZ⟩ ∧ fpLog2 0x7F800000 = ⟨0x7F800000, 0⟩ ∧
    fpLog2 0xFF800000 = ⟨0x7FC00000, flagIV⟩) ∧
  (∀ x ∈ ([0x7F800000, 0xFF800000] : List Word), fpSin x = ⟨0x7FC00000, flagIV⟩ ∧ fpCos x = ⟨0x7FC00000, flagIV⟩) ∧
  (∀ (x : Word) (n : Int), isFiniteCode .fp32 x.toNat → valueOf .fp32 x.toNat = some ((n : ℚ) + 1 / 2) → fpCos x = ⟨0, 0⟩) ∧
  (fpTanh 0 = ⟨0, 0⟩ ∧ fpTanh 0x80000000 = ⟨0x80000000, 0⟩ ∧ fpTanh 0x7F800000 = ⟨0x3F800000, 0⟩ ∧
    fpTanh 0xFF800000 = ⟨0xBF800000, 0⟩) ∧
  (∀ x : Word, x ∈ ([0, 0x80000000, 0x7F800000, 0xFF800000] : List Word) ∨ isNaN .fp32 x.toNat = true →
    fpQuickRecip x = fpDiv .fp32 .rne 0x3F800000 x.toNat) ∧
  ∀ (x : Word) (k : Int) (neg : Bool), isFiniteCode .fp32 x.toNat → -127 ≤ k →
    valueOf .fp32 x.toNat = some ((if neg then -1 else 1) * (2 : ℚ) ^ k) →
    ∃ r, fpQuickRecip x = ⟨r, 0⟩ ∧ valueOf .fp32 r = some ((if neg then -1 else 1) * (2 : ℚ) ^ (-k))

/-- The error bounds of R158: of FRSQ in units in the last place of the exactly rounded result, of FQRCP relative to its result; and
whatever value an inexact special function delivers lies within its bound of the reference that the model computes for it in fixed
point (log 7). -/
def SpecialFunctionBounds : Prop :=
  (∀ (x : Word) (v : ℚ), isFiniteCode .fp32 x.toNat → valueOf .fp32 x.toNat = some v → 0 < v →
    ∃ y, valueOf .fp32 (fpRsqrt x).code = some y ∧ ∀ c z, isFiniteCode .fp32 c → valueOf .fp32 c = some z →
      (∀ c' z', isFiniteCode .fp32 c' → valueOf .fp32 c' = some z' → |(z : ℝ) - 1 / Real.sqrt v| ≤ |(z' : ℝ) - 1 / Real.sqrt v|) →
      |(y : ℝ) - 1 / Real.sqrt v| ≤ 2 ^ ulpExp c) ∧
  (∀ (x : Word) (v : ℚ), isFiniteCode .fp32 x.toNat → valueOf .fp32 x.toNat = some v → v ≠ 0 →
    (fpQuickRecip x).flags.getLsbD 2 = false →
    ∃ y, valueOf .fp32 (fpQuickRecip x).code = some y ∧ |y * v - 1| < 1 / 2 ^ 14) ∧
  ∀ (op : Nat) (x : Word) (v : RefVal) (bound : Nat) (absolute : Bool) (t : ℚ), 1 ≤ bound →
    rationalOf (.num v.neg v.mant v.exp) = some t → (specialDeliver op x v bound absolute).flags.getLsbD 2 = false →
    ∃ y, valueOf .fp32 (specialDeliver op x v bound absolute).code = some y ∧
      (|y - t| ≤ bound * (2 : ℚ) ^ ulpExp (refRound v).code ∨ (absolute = true ∧ |y - t| ≤ 1 / 2 ^ 22))

end Sys2Proof.Machine

/-- The special operands of the arithmetic operations and of the special functions, and the bounds of the latter (R156, R158). -/
def Obligations.SpecialCases : Prop :=
  SpecialOperands ∧ SpecialSums ∧ SpecialFunctionsExact ∧ SpecialFunctionEnds ∧ SpecialFunctionBounds

/-! ### Conversions (R43 to R45, R160 to R163) -/

namespace Sys2Proof.Machine

/-- A conversion as its TX word selects it (R160, R162): each element converted, the flags of a packed pair ORed. -/
def conversion (f : TR) (x : TX) : Arith :=
  let src := numFormat (x.i.toNat % 16)
  let dst := numFormat (x.i.toNat / 16 % 16)
  let wideSrc := x.i.toNat % 16 = 0
  let wideDst := x.i.toNat / 16 % 16 = 0
  let packed := x.m.toNat % 2 = 1
  let mode : RoundMode := match x.i.toNat / 256 % 4 with | 0 => .rne | 1 => .rtz | 2 => .rup | _ => .rdn
  let setting : Saturation := match dst, x.i.toNat / 1024 with
    | .float .e4m3, 0 => .sat
    | .float _, 1 => .sat
    | _, _ => .ieee
  let one (v : Nat) : FpResult :=
    (convertCode src dst mode setting (v / 2 ^ (x.m.toNat / 2 % 8 * numWidth src) % 2 ^ numWidth src)).1
  let source (w : Wave) (i : Nat) : Nat := if wideSrc then pairValue w f.a i else (rowAt (fieldRow w f.a) i).toNat
  let second (w : Wave) (i : Nat) : FpResult := one (rowAt (fieldRow w f.b) i).toNat
  let rows (w : Wave) : List VRow := (if wideSrc then pairRows w f.a else [fieldRow w f.a]) ++
    if packed then [fieldRow w f.b] else []
  { words := 2
    stall := f.s
    latency := if wideSrc ∨ wideDst then 1 else 0
    reads := ⟨f.a, decide wideSrc⟩ :: if packed then [single f.b] else []
    writes := [⟨f.d, decide wideDst⟩]
    part := fun w => participants w f.g
    results := fun w =>
      if wideDst then pairResults f.d (resultRank .perThread (rows w)) fun i => (one (source w i)).code
      else [(f.d, resultRank .perThread (rows w), fun i =>
        BitVec.ofNat 32 ((one (source w i)).code + if packed then 2 ^ 16 * (second w i).code else 0))]
    flags := fun w i => (one (source w i)).flags ||| if packed then (second w i).flags else 0
    quiet := false }

/-- QENC replaces nibble k of vd by the FP4 code of va under the scale vb (R163). -/
def quantEncode (f : TR) (x : TX) : Arith := { intMany 2 f [f.a, f.b, f.d] fun w i =>
    let c := fp4Encode (fpDecode .fp32 (rowAt (fieldRow w f.a) i).toNat) (fpDecode .fp32 (rowAt (fieldRow w f.b) i).toNat)
    wordOfBits fun j => if j / 4 = x.m.toNat then c.testBit (j % 4) else (rowAt (fieldRow w f.d) i).getLsbD j with latency := 1 }

/-- QDEC decodes nibble k of va: its value times vb, rounded once, without a flag (R163). -/
def quantDecode (f : TR) (x : TX) : Arith := { intMany 2 f [f.a, f.b] fun w i =>
    BitVec.ofNat 32 <| match mulVal (fp4Val ((rowAt (fieldRow w f.a) i).toNat / 2 ^ (4 * x.m.toNat) % 16))
        (fpDecode .fp32 (rowAt (fieldRow w f.b) i).toNat) with
      | some p => (deliver .fp32 .rne p).code
      | none => 0x7FC00000 with latency := 1, quiet := false }

/-- Conversions, QENC and QDEC complete with the value and the flags of their elements (R160 to R163). -/
def Conversions : Prop :=
  (∀ mk ∈ ([.cvtf, .cvtfi, .cvtif, .cvtii] : List (TR → TX → Instr)), ∀ f x, Computes (mk f x) (conversion f x)) ∧
  (∀ f x, Computes (.qenc f x) (quantEncode f x)) ∧ ∀ f x, Computes (.qdec f x) (quantDecode f x)

/-- Widening is exact (R43); a NaN becomes the canonical one; a conversion to an integer that does not fit gives the nearest
bound and IV, and a NaN gives 0 and IV (R45); integer narrowing clamps (R45). -/
def ConversionValues : Prop :=
  (∀ e ∈ ([(.fp32, .fp64), (.fp16, .fp32), (.bf16, .fp32), (.e4m3, .fp32), (.e5m2, .fp32)] : List (FpFormat × FpFormat)),
    ∀ c, c < 2 ^ fmtWidth e.1 →
      (isNaN e.1 c = true → fpConvert e.1 e.2 .rne .ieee c = ⟨canonNaN e.2, 0⟩) ∧
      (isFiniteCode e.1 c → ∃ r, fpConvert e.1 e.2 .rne .ieee c = ⟨r, 0⟩ ∧ valueOf e.2 r = valueOf e.1 c)) ∧
  (∀ (f : FpFormat) (mode : RoundMode) (bits c : Nat), 1 ≤ bits → bits ≤ 32 → c < 2 ^ fmtWidth f →
    (isNaN f c = true → fpToInt f mode bits c = (0, flagIV)) ∧
    ∀ v, valueOf f c = some v →
      ((2 : ℚ) ^ (bits - 1) ≤ v → fpToInt f mode bits c = (2 ^ (bits - 1) - 1, flagIV)) ∧
      (v ≤ -(2 : ℚ) ^ (bits - 1) - 1 → fpToInt f mode bits c = (-2 ^ (bits - 1), flagIV)) ∧
      ∀ n : Int, v = n → -2 ^ (bits - 1) ≤ n → n ≤ 2 ^ (bits - 1) - 1 → fpToInt f mode bits c = (n, 0)) ∧
  ∀ (bits : Nat) (v : Int), 1 ≤ bits →
    saturateInt bits v = if v < -2 ^ (bits - 1) then -2 ^ (bits - 1) else if 2 ^ (bits - 1) ≤ v then 2 ^ (bits - 1) - 1 else v

end Sys2Proof.Machine

/-- The conversions, and the values that they give. -/
def Obligations.ConversionForms : Prop := Conversions ∧ ConversionValues

/-! ### Compares and predicate logic (R164 to R166) -/

namespace Sys2Proof.Machine

/-- A comparison of two floating-point codes by their values; false with a NaN (R164). -/
def fpTest (f : FpFormat) (r : ℚ → ℚ → Bool) (a b : Nat) : Bool :=
  match valueOf f a, valueOf f b with
  | some x, some y => r x y
  | _, _ => false

/-- What a compare tests: its pairs or single registers, and the condition of a thread. -/
structure Compare where
  reads : List VField
  test  : Wave → Nat → Bool

def compareWords (test : Word → Word → Bool) (f : TC) : Compare :=
  ⟨[single f.a, single f.b], fun w i => test (rowAt (fieldRow w f.a) i) (rowAt (fieldRow w f.b) i)⟩

def comparePairs (test : Nat → Nat → Bool) (f : TC) : Compare :=
  ⟨[pairAt f.a, pairAt f.b], fun w i => test (pairValue w f.a i) (pairValue w f.b i)⟩

/-- The conditions of R164. -/
def compareTable : List ((TC → Instr) × (TC → Compare)) :=
  [(.icmpEq, compareWords fun x y => decide (x = y)), (.icmpNe, compareWords fun x y => decide (x ≠ y)),
   (.icmpLt, compareWords fun x y => decide (x.toInt < y.toInt)), (.icmpLe, compareWords fun x y => decide (x.toInt ≤ y.toInt)),
   (.icmpLtu, compareWords fun x y => decide (x.toNat < y.toNat)),
   (.icmpLeu, compareWords fun x y => decide (x.toNat ≤ y.toNat)),
   (.fcmpEq, compareWords fun x y => fpTest .fp32 (fun a b => decide (a = b)) x.toNat y.toNat),
   (.fcmpLt, compareWords fun x y => fpTest .fp32 (fun a b => decide (a < b)) x.toNat y.toNat),
   (.fcmpLe, compareWords fun x y => fpTest .fp32 (fun a b => decide (a ≤ b)) x.toNat y.toNat),
   (.fcmpUn, compareWords fun x y => decide (valueOf .fp32 x.toNat = none ∨ valueOf .fp32 y.toNat = none)),
   (.dcmpEq, comparePairs (fpTest .fp64 fun a b => decide (a = b))),
   (.dcmpLt, comparePairs (fpTest .fp64 fun a b => decide (a < b))),
   (.dcmpLe, comparePairs (fpTest .fp64 fun a b => decide (a ≤ b))),
   (.dcmpUn, comparePairs fun x y => decide (valueOf .fp64 x = none ∨ valueOf .fp64 y = none))]

/-- The table of R165 for one thread: the new pd and pe. -/
def combinedPair (ct : Nat) (c active halted pd pe : Bool) : Bool × Bool :=
  if active then
    match ct, c with
    | 0, true => (true, false)
    | 0, false => (false, true)
    | 1, true => (true, false)
    | 1, false => (false, true)
    | 2, true => (pd, pe)
    | 2, false => (false, true)
    | 3, true => (true, false)
    | 3, false => (pd, pe)
    | 4, true => (false, true)
    | 4, false => (pd, pe)
    | 5, true => (pd, pe)
    | 5, false => (true, false)
    | _, true => (false, pd)
    | _, false => (pd, false)
  else if ct = 1 ∧ halted = false then (false, false)
  else (pd, pe)

/-- What a compare or PLOP does: pd and pe by R165, a write to p7 discarded, and nothing else but the pc and time. -/
def Combines (i : Instr) (d e ct st : BitVec 3) (reads : List VField) (test : Wave → Nat → Bool) : Prop :=
  ∀ (s : State) (w : Wave), WaveTurn s w → WaveSized w → staticLegal i = true → OperandsReady w reads [] →
    ∃ t w', exec i s = .next t ∧ ThreadDone s w 1 st [] t w' ∧ w'.fpstat = w.fpstat ∧
      (∀ n, n ≠ d → n ≠ e → predMask w' n = predMask w n) ∧
      ∀ j, j < 64 →
        let r := combinedPair ct.toNat (test w j) (w.exec.getLsbD j) (w.halted.getLsbD j) ((predMask w d).getLsbD j)
          ((predMask w e).getLsbD j)
        (d ≠ 7 → (predMask w' d).getLsbD j = r.1) ∧ (e ≠ 7 → (predMask w' e).getLsbD j = r.2)

end Sys2Proof.Machine

/-- Compares and PLOP (R164 to R166): their words and what they do. -/
def Obligations.Compares : Prop :=
  (∀ e ∈ ((List.range 14).map (0x50 + ·)).zip compareTable, ThreadWords e.1 (tcForm e.2.1)) ∧
  ThreadWords 0x5E (fun i x => ∃ (d e a b : BitVec 3) (t : BitVec 4) (c s : BitVec 3), i = .plop d e a b t c s ∧
    x = d.toNat * 2 ^ 21 + e.toNat * 2 ^ 18 + a.toNat * 2 ^ 15 + b.toNat * 2 ^ 12 + t.toNat * 2 ^ 6 + c.toNat * 8 + s.toNat) ∧
  (∀ e ∈ compareTable, ∀ f : TC, Combines (e.1 f) f.d f.e f.c f.s (e.2 f).reads (e.2 f).test) ∧
  ∀ d e a b t c st, Combines (.plop d e a b t c st) d e c st [] fun w i =>
    t.getLsbD (2 * (if (predMask w a).getLsbD i then 1 else 0) + if (predMask w b).getLsbD i then 1 else 0)

/-! ### Cross-lane operations, reduction and scan (R167 to R171) -/

namespace Sys2Proof.Machine

/-- A cross-lane instruction: thread i takes the value of va in thread `pick w i`, whoever is active there. -/
def crossLane (f : TR) (reads : List VField) (rank : Wave → Nat) (pick : Wave → Nat → Nat) : Arith where
  words := 1
  stall := f.s
  latency := 1
  reads := reads
  writes := [single f.d]
  part := fun w => participants w f.g
  results := fun w => [(f.d, rank w, fun i => rowAt (fieldRow w f.a) (pick w i))]
  flags := fun _ _ => 0
  quiet := true

end Sys2Proof.Machine

/-- XROT, XBFLY, XREV, XBCAST and XPERM (R167 to R169). -/
def Obligations.CrossLane : Prop :=
  (∀ (f : TR) (d : Nat), crossDistance f.b = some d →
    Computes (.xrot f) (crossLane f [single f.a] (fun w => resultRank .perThread [fieldRow w f.a]) fun _ i => (i + d) % 64) ∧
    Computes (.xbfly f) (crossLane f [single f.a] (fun w => resultRank .perThread [fieldRow w f.a]) fun _ i => i ^^^ d) ∧
    Computes (.xrev f) (crossLane f [single f.a] (fun w => resultRank .perThread [fieldRow w f.a])
      fun _ i => i ^^^ (d - 1))) ∧
  (∀ f : TR, Computes (.xbcast f) (crossLane f [single f.a, single f.b] (fun _ => 1)
    fun w _ => (rowAt (fieldRow w f.b) 0).toNat % 64)) ∧
  (∀ f : TR, Computes (.xperm f) (crossLane f [single f.a, single f.b] (fun w => resultRank .perThread [fieldRow w f.a])
    fun w i => (rowAt (fieldRow w f.b) i).toNat % 64)) ∧
  ∀ o : BitVec 6, crossDistance o =
    if 1 ≤ o.toNat ∧ o.toNat < 32 then some o.toNat
    else if 32 ≤ o.toNat ∧ o.toNat ≤ 38 then some (64 / 2 ^ (o.toNat - 32)) else none

namespace Sys2Proof.Machine

/-- A result of an FP32 operation of a tree. -/
def floatStep (r : FpResult) : Word × FpFlags := (BitVec.ofNat 32 r.code, r.flags)

/-- The operations of R170 by their codes. -/
def treeTable : List (Word → Word → Word × FpFlags) :=
  [fun a b => (a + b, 0), fun a b => floatStep (fpAdd .fp32 .rne a.toNat b.toNat),
   fun a b => (if a.toInt < b.toInt then a else b, 0), fun a b => (if a.toInt < b.toInt then b else a, 0),
   fun a b => (if a.toNat < b.toNat then a else b, 0), fun a b => (if a.toNat < b.toNat then b else a, 0),
   fun a b => (a &&& b, 0), fun a b => (a ||| b, 0), fun a b => (a ^^^ b, 0),
   fun a b => floatStep (fpMinMax .fp32 false a.toNat b.toNat), fun a b => floatStep (fpMinMax .fp32 true a.toNat b.toNat)]

/-- comb of R171: an absent value is the identity; with the flags of the rounding. -/
def combined (op : Nat) (x y : Option Word) : Option Word × FpFlags :=
  match x, y with
  | none, z => (z, 0)
  | z, none => (z, 0)
  | some a, some b => let r := (treeTable.getD op fun _ _ => (0, 0)) a b; (some r.1, r.2)

/-- The tree of REDX over the 2^k threads from thread i on: value and flags. -/
def reduceTree (op : Nat) (y : Nat → Option Word) : Nat → Nat → Option Word × FpFlags
  | 0, i => (y i, 0)
  | k + 1, i =>
    let a := reduceTree op y k i
    let b := reduceTree op y k (i + 2 ^ k)
    let r := combined op a.1 b.1
    (r.1, a.2 ||| b.2 ||| r.2)

/-- The steps of SCANX in groups of g: thread i after k of them, with the flags raised in its place. -/
def scanSteps (op g : Nat) (y : Nat → Option Word) : Nat → Nat → Option Word × FpFlags
  | 0, i => (y i, 0)
  | k + 1, i =>
    let b := scanSteps op g y k i
    if 2 ^ k ≤ i % g then
      let r := combined op (scanSteps op g y k (i - 2 ^ k)).1 b.1
      (r.1, b.2 ||| r.2)
    else b

/-- What participates in a reduction (R171). -/
def present (w : Wave) (f : TR) (i : Nat) : Option Word :=
  if (participants w f.g).getLsbD i then some (rowAt (fieldRow w f.a) i) else none

/-- The group size of a TX word (R170). -/
def groupSize (x : TX) : Nat := 64 / 2 ^ x.i.toNat

/-- The identities of R170 by operation code. -/
def identityOf (op : Nat) : Word :=
  [0, 0x80000000, 0x7FFFFFFF, 0x80000000, 0xFFFFFFFF, 0, 0xFFFFFFFF, 0, 0, 0x7F800000, 0xFF800000].getD op 0

/-- A reduction or scan. -/
def groupTree (f : TR) (rank : Nat) (value : Wave → Nat → Word) (flags : Wave → Nat → FpFlags) : Arith where
  words := 2
  stall := f.s
  latency := 3
  reads := [single f.a]
  writes := [single f.d]
  part := fun w => participants w f.g
  results := fun w => [(f.d, rank, value w)]
  flags := flags
  quiet := false

end Sys2Proof.Machine

/-- REDX and SCANX (R170, R171): the value of each participating thread, and the flags of its group's roundings. -/
def Obligations.ReduceAndScan : Prop :=
  (∀ (f : TR) (x : TX), Computes (.redx f x) (groupTree f (if groupSize x = 64 then 1 else 3)
    (fun w i => ((reduceTree (x.m.toNat % 16) (present w f) (Nat.log2 (groupSize x)) (i - i % groupSize x)).1).getD 0)
    fun w i => (reduceTree (x.m.toNat % 16) (present w f) (Nat.log2 (groupSize x)) (i - i % groupSize x)).2)) ∧
  ∀ (f : TR) (x : TX), Computes (.scanx f x) (groupTree f 3
    (fun w i =>
      let y (j : Nat) := (scanSteps (x.m.toNat % 16) (groupSize x) (present w f) (Nat.log2 (groupSize x)) j).1
      if x.m.getLsbD 4 = false then (y i).getD 0
      else if i % groupSize x = 0 then identityOf (x.m.toNat % 16)
      else (y (i - 1)).getD (identityOf (x.m.toNat % 16)))
    fun w i => ((List.range (groupSize x)).map fun j =>
      (scanSteps (x.m.toNat % 16) (groupSize x) (present w f) (Nat.log2 (groupSize x)) (i - i % groupSize x + j)).2).foldl
        (· ||| ·) 0)

/-! ### Votes (R172 to R176) -/

namespace Sys2Proof.Machine

/-- A wave's contribution (R173): of ANY and ALL over its active threads; of UNI their common value, 0 without any. -/
def voteValue (mode : BitVec 2) (exec p : Mask) : Bool :=
  if mode = 1 then (List.range 64).all fun i => !exec.getLsbD i || p.getLsbD i
  else (List.range 64).any fun i => exec.getLsbD i && p.getLsbD i

/-- Two contributors of a UNI vote disagree. -/
def voteSplit (mode : BitVec 2) (exec p : Mask) : Prop :=
  mode = 2 ∧ ∃ i j, i < 64 ∧ j < 64 ∧ exec.getLsbD i = true ∧ exec.getLsbD j = true ∧ p.getLsbD i ≠ p.getLsbD j

/-- VOTE at wave scope (R172 to R174): the contribution is pending for kd; where contributors of a UNI vote disagree the wave
takes a scope fault with the predicate's number, and the vote performs nothing. -/
def WaveVotes : Prop :=
  ∀ (k p : BitVec 3) (m : BitVec 2) (st : BitVec 3) (s : State) (w : Wave) (b : Block), WaveTurn s w →
    s.block? w.block = some b → (s.ctx? b.ctx).isSome = true → staticLegal (.vote k p 1 m st) = true →
    OperandsReady w [] [] → condPending w k = false →
    (voteSplit m w.exec (predMask w p) →
      exec (.vote k p 1 m st) s = .next (haltWave (nextFresh s freshSpan) w 0x11 p.toNat [])) ∧
    (¬ voteSplit m w.exec (predMask w p) →
      ∃ t w', exec (.vote k p 1 m st) s = .next t ∧ MemoryDone s w 1 st [] t w' ∧
        t = { s with waves := t.waves, fresh := t.fresh } ∧
        w'.pending = w.pending ++ [⟨[], 0, some (k, voteValue m w.exec (predMask w p)), []⟩])

/-! ### Memory instructions (R119 to R135) -/

/-- A thread's address (R122): `n` is the scale of an index of kind x. -/
def accessAddress (w : Wave) (glob : Bool) (a b : BitVec 6) (ix n : Nat) (off : Int) (i : Nat) : Nat :=
  let base : Int := if glob then pairValue w a i else (rowAt (fieldRow w a) i).toNat
  let v := rowAt (fieldRow w b) i
  let idx : Int := match ix with
    | 0 => 0
    | 1 => v.toNat
    | 2 => v.toInt
    | _ => v.toNat * n
  ((base + idx + off) % 2 ^ (if glob then 64 else 32)).toNat

/-- Every register that forms the address is declared U (R124). -/
def uniformAddress (w : Wave) (glob : Bool) (a b : BitVec 6) (ix : Nat) : Prop :=
  shapeRank (fieldRow w a) = 1 ∧ (glob = true → shapeRank (fieldRow w (a + 1)) = 1) ∧ (ix ≠ 0 → shapeRank (fieldRow w b) = 1)

/-- The data type of an access: bytes and registers (R121). -/
def dtBytes (dt : Nat) : Nat := [1, 1, 2, 2, 4, 8, 16, 4, 8].getD dt 0

def dtRegs (dt : Nat) : Nat := [1, 1, 1, 1, 1, 2, 4, 1, 2].getD dt 0

/-- The operands of a data register and of an address (R119). -/
def dtOperands (dt : Nat) (d : BitVec 6) : List VField :=
  if dtRegs dt = 1 then [single d] else if dtRegs dt = 2 then [pairAt d] else [single d, single (d + 1), single (d + 2), single (d + 3)]

def addressOperands (glob : Bool) (a b : BitVec 6) (ix : Nat) : List VField :=
  (if glob then pairAt a else single a) :: if ix = 0 then [] else [single b]

/-- Register j of what a load delivers from its bytes (R121). -/
def loadedWord (dt : Nat) (bytes : List Byte) (j : Nat) : Word :=
  let v := leNat bytes
  if dt = 1 then BitVec.ofInt 32 (if v < 128 then v else (v : Int) - 256)
  else if dt = 3 then BitVec.ofInt 32 (if v < 32768 then v else (v : Int) - 65536)
  else BitVec.ofNat 32 (v / 2 ^ (32 * j))

/-- Byte k of what a thread stores from registers d, d + 1, … (R125). -/
def storedByte (w : Wave) (d : BitVec 6) (i k : Nat) : Byte :=
  BitVec.ofNat 8 ((rowAt (fieldRow w (d + BitVec.ofNat 6 (k / 4))) i).toNat / 2 ^ (8 * (k % 4)))

/-- Every performing thread's access to global memory passes the checks of R123 and translates (R26), its page is not checked
for races, no byte of it is bad (R70), and no predicate of the watch bank is enabled. -/
structure GlobalAccess (s : State) (w : Wave) (b : Block) (st : Standing) (part : Mask) (addr : Nat → Nat) (size : Nat)
    (k : Access) (place : Nat → Place) : Prop where
  block     : s.block? w.block = some b
  standing  : waveStanding s w = some st
  canonical : ∀ i, i < 64 → part.getLsbD i = true → canonical (BitVec.ofNat 64 (addr i)) = true
  aligned   : ∀ i, i < 64 → part.getLsbD i = true → addr i % size = 0
  found     : ∀ i, i < 64 → part.getLsbD i = true → translate s st.ctx st.isle (BitVec.ofNat 64 (addr i)) k = .ok (place i)
  unchecked : ∀ i, i < 64 → part.getLsbD i = true → placeChecked (place i) = false
  good      : ∀ i, i < 64 → part.getLsbD i = true → farBad s (place i).loc size = false
  unwatched : watchOn s w = none

/-- Every performing thread's access to scratchpad passes the checks of R123, races with nothing (R274), touches no bad word
(R70), and no predicate of the watch bank is enabled. -/
structure ScratchAccess (s : State) (w : Wave) (b : Block) (st : Standing) (part : Mask) (addr : Nat → Nat) (size : Nat)
    (write : Bool) : Prop where
  block     : s.block? w.block = some b
  standing  : waveStanding s w = some st
  member    : w.index < 16
  aligned   : ∀ i, i < 64 → part.getLsbD i = true → addr i % size = 0
  inside    : ∀ i, i < 64 → part.getLsbD i = true → addr i + size ≤ 4096 * b.granules
  raceless  : ∀ i, i < 64 → part.getLsbD i = true →
    scratchRacesOf b (s.wavesOf b.id) (accessorWave b w) write i (addr i) size = []
  good      : ∀ i, i < 64 → part.getLsbD i = true → ∀ x ∈ wordsOf (addr i) size, b.badWords.contains x = false
  unwatched : watchOn s w = none

/-- Only tags of the block's scratchpad words changed, and those of the words that the threads touch (R63). -/
structure ScratchTags (b b' : Block) (part : Mask) (addr : Nat → Nat) (size : Nat) : Prop where
  rest : { b' with scratch := b.scratch, tags := b.tags, badWords := b.badWords } = b
  tags : ∀ x, (∀ i, i < 64 → part.getLsbD i = true → x ∉ wordsOf (addr i) size) → mapGet 0 b'.tags x = mapGet 0 b.tags x

/-- Loads by their words: data type, index kind, offset (R120). -/
structure LoadFields where
  dt  : Nat
  ix  : Nat
  off : Int

def plainFields (x : TX) : LoadFields := ⟨x.m.toNat / 4, x.m.toNat % 4, x.i.toInt⟩

def strongFields (x : TX) : LoadFields := ⟨x.c.toNat / 8, x.c.toNat % 4, x.i.toInt⟩

/-- The destination of a load that is not uniform is declared G (R124). -/
def loadFits (w : Wave) (glob : Bool) (f : TR) (l : LoadFields) : Prop :=
  uniformAddress w glob f.a f.b l.ix ∨ ∀ j, j < dtRegs l.dt → shapeRank (fieldRow w (f.d + BitVec.ofNat 6 j)) = 3

/-- LD and SLD of global memory with raw data (R121 to R125, R128): the bytes of each performing thread are pending for vd, and
no memory changes. -/
def GlobalLoads : Prop :=
  ∀ e ∈ ([(.ld, plainFields), (.sld, strongFields)] : List ((TR → TX → Instr) × (TX → LoadFields))),
    ∀ (f : TR) (x : TX) (s : State) (w : Wave) (b : Block) (st : Standing) (place : Nat → Place),
    let l := e.2 x
    let addr := accessAddress w true f.a f.b l.ix (dtBytes l.dt) l.off
    WaveTurn s w → staticLegal (e.1 f x) = true → l.dt ≤ 6 → (e.1 f x = .sld f x → x.c.getLsbD 2 = false) →
    OperandsReady w (addressOperands true f.a f.b l.ix) (dtOperands l.dt f.d) → loadFits w true f l →
    GlobalAccess s w b st (memThreads w f.g) addr (dtBytes l.dt) .load place →
    ∃ t w', exec (e.1 f x) s = .next t ∧
      MemoryDone s w 2 f.s ((List.range (dtRegs l.dt)).map fun j => f.d + BitVec.ofNat 6 j) t w' ∧
      t = { s with waves := t.waves, fresh := t.fresh, cached := t.cached } ∧
      Pends w w' f.d (dtRegs l.dt) (memThreads w f.g) fun i j => loadedWord l.dt (readLoc s (place i).loc (dtBytes l.dt)) j

/-- The bytes of a unit's element area, and of an element that fills whole bytes, by FMT (R19, R20). -/
def areaBytes (fmt : Nat) : Nat := if fmt = 7 then 0xC000 else 0x10000

def wholeBytes (fmt : Nat) : Nat := [0, 2, 2, 1, 1, 1, 0, 0].getD fmt 0

/-- r is the FP32 code of the number that a code of a narrower format names: the canonical NaN for a NaN, otherwise a code of the same
sign and value (R21, R43). -/
def SameNumber (f : FpFormat) (c : Nat) (r : Word) : Prop :=
  (isNaN f c = true → r = 0x7FC00000) ∧
  (isNaN f c = false → r.getLsbD 31 = (c / signBit f % 2 == 1) ∧ valueOf .fp32 r.toNat = valueOf f c)

/-- r is the FP32 code of an integer; a zero is +0. -/
def SameInteger (n : Int) (r : Word) : Prop := valueOf .fp32 r.toNat = some (n : ℚ) ∧ r ≠ 0x80000000

/-- The values of an FP4 code and of an E3M5 block scale (R35, R36). -/
def fp4Number (c : Nat) : ℚ := (if c / 8 % 2 = 1 then -1 else 1) * [0, 1 / 2, 1, 3 / 2, 2, 3, 4, 6].getD (c % 8) 0

def scaleNumber (c : Nat) : ℚ :=
  if c / 32 % 8 = 0 then (c % 32 : Nat) / 128 else (2 : ℚ) ^ (((c / 32 % 8 : Nat) : ℤ) - 3) * (1 + (c % 32 : Nat) / 32)

/-- r is the product of a BX4 element and its scales, rounded once (R37); a band that is a NaN or infinite gives the canonical NaN. -/
def ScaledElement (elem scale band : Nat) (r : Word) : Prop :=
  (isFiniteCode .bf16 band → ∀ q, valueOf .bf16 band = some q →
    r.getLsbD 31 = ((elem / 8 % 2 == 1) != (band / 2 ^ 15 % 2 == 1)) ∧
    ∃ fl, RoundedOnce .fp32 .rne (fp4Number elem * scaleNumber scale * q) ⟨r.toNat, fl⟩) ∧
  (¬ isFiniteCode .bf16 band → r = 0x7FC00000)

/-- r is the element that begins at a byte of a unit, in the low or the high half of the byte for a 4-bit format; `l` is the place of
the byte and o its offset in the unit (R20, R21). -/
def ElementAt (s : State) (l : Loc) (o fmt geo : Nat) (high : Bool) (r : Word) : Prop :=
  let half := leNat (readLoc s l 1) / (if high then 16 else 1) % 16
  let n := 2 * o + if high then 1 else 0
  let unit (k len : Nat) := leNat (readLoc s { l with addr := l.addr - o + k } len)
  match fmt with
  | 1 => SameNumber .bf16 (leNat (readLoc s l 2)) r
  | 2 => SameNumber .fp16 (leNat (readLoc s l 2)) r
  | 3 => SameNumber .e4m3 (leNat (readLoc s l 1)) r
  | 4 => SameNumber .e5m2 (leNat (readLoc s l 1)) r
  | 5 => SameInteger (BitVec.ofNat 8 (leNat (readLoc s l 1))).toInt r
  | 6 => SameInteger (BitVec.ofNat 4 half).toInt r
  | _ => ScaledElement half (unit (0xC000 + n / 8) 1) (if geo = 0 then unit (0xF000 + 2 * (n / 64)) 2 else 0x3F80) r

/-- r is word j of what a decoding load at an address delivers: raw on format 0 and in a scale or reserved area, otherwise an element;
the second is the other half of the byte, the element after it, or the first of the following unit, `next` (R21, R127). -/
def DecodedWord (s : State) (p : Place) (next : Option Place) (va j : Nat) (r : Word) : Prop :=
  let fmt := placeFmt p
  let o := va % 65536
  if fmt = 0 ∨ areaBytes fmt ≤ o then r = BitVec.ofNat 32 (leNat (readLoc s { p.loc with addr := p.loc.addr + 4 * j } 4))
  else if j = 0 then ElementAt s p.loc o fmt (placeGeo p) false r
  else if wholeBytes fmt = 0 then ElementAt s p.loc o fmt (placeGeo p) true r
  else match next with
    | some q => if placeFmt q = 0 then r = BitVec.ofNat 32 (leNat (readLoc s q.loc 4)) else ElementAt s q.loc 0 (placeFmt q) (placeGeo q) false r
    | none => ElementAt s { p.loc with addr := p.loc.addr - o + (o + wholeBytes fmt) } (o + wholeBytes fmt) fmt (placeGeo p) false r

end Sys2Proof.Machine

/-- LD.F32 and LD.F32X2 (R19 to R21, R35 to R37, R127): raw words on a page of format 0 or in a scale or reserved area; elsewhere the
element, times its block and band scales on BX4; the second element of a pair may stand in the following unit. -/
def Obligations.DecodingLoads : Prop :=
  ∀ (f : TR) (x : TX) (s : State) (w : Wave) (b : Block) (st : Standing) (place : Nat → Place) (next : Nat → Option Place),
    let l := plainFields x
    let addr := accessAddress w true f.a f.b l.ix (dtBytes l.dt) l.off
    let part := memThreads w f.g
    WaveTurn s w → staticLegal (.ld f x) = true → l.dt = 7 ∨ l.dt = 8 →
    OperandsReady w (addressOperands true f.a f.b l.ix) (dtOperands l.dt f.d) → loadFits w true f l →
    s.block? w.block = some b → waveStanding s w = some st → watchOn s w = none → s.platform.badFar = [] →
    (∀ i, i < 64 → part.getLsbD i = true →
      canonical (BitVec.ofNat 64 (addr i)) = true ∧
      translate s st.ctx st.isle (BitVec.ofNat 64 (addr i)) .load = .ok (place i) ∧ placeChecked (place i) = false ∧
      placeFmt (place i) < 8 ∧
      (if placeFmt (place i) = 0 ∨ areaBytes (placeFmt (place i)) ≤ addr i % 65536 then addr i % dtBytes l.dt = 0
        else addr i % max (wholeBytes (placeFmt (place i))) 1 = 0) ∧
      let n := wholeBytes (placeFmt (place i))
      if l.dt = 8 ∧ placeFmt (place i) ≠ 0 ∧ n ≠ 0 ∧ addr i % 65536 + n = 65536 then
        ∃ p, next i = some p ∧ translate s st.ctx st.isle (BitVec.ofNat 64 (addr i + n)) .load = .ok p ∧ placeChecked p = false ∧
          placeFmt p < 8
      else next i = none) →
    ∃ t w' word, exec (.ld f x) s = .next t ∧
      MemoryDone s w 2 f.s ((List.range (dtRegs l.dt)).map fun j => f.d + BitVec.ofNat 6 j) t w' ∧
      t = { s with waves := t.waves, fresh := t.fresh, cached := t.cached } ∧
      Pends w w' f.d (dtRegs l.dt) part word ∧
      ∀ i j, i < 64 → part.getLsbD i = true → j < dtRegs l.dt → DecodedWord s (place i) (next i) (addr i) j (word i j)

namespace Sys2Proof.Machine

/-- LDS and SLD of scratchpad (R121 to R125, R128). -/
def ScratchLoads : Prop :=
  ∀ e ∈ ([(.lds, plainFields), (.sld, strongFields)] : List ((TR → TX → Instr) × (TX → LoadFields))),
    ∀ (f : TR) (x : TX) (s : State) (w : Wave) (b : Block) (st : Standing),
    let l := e.2 x
    let addr := accessAddress w false f.a f.b l.ix (dtBytes l.dt) l.off
    WaveTurn s w → staticLegal (e.1 f x) = true → (e.1 f x = .sld f x → x.c.getLsbD 2 = true) →
    OperandsReady w (addressOperands false f.a f.b l.ix) (dtOperands l.dt f.d) → loadFits w false f l →
    ScratchAccess s w b st (memThreads w f.g) addr (dtBytes l.dt) false →
    ∃ t w' b', exec (e.1 f x) s = .next t ∧
      MemoryDone s w 2 f.s ((List.range (dtRegs l.dt)).map fun j => f.d + BitVec.ofNat 6 j) t w' ∧
      t = { s with waves := t.waves, blocks := t.blocks, contexts := t.contexts, fresh := t.fresh } ∧ SameContexts s t ∧
      t.block? b.id = some b' ∧ OtherBlocks s t b.id ∧ ScratchTags b b' (memThreads w f.g) addr (dtBytes l.dt) ∧
      b'.scratch = b.scratch ∧ b'.badWords = b.badWords ∧
      Pends w w' f.d (dtRegs l.dt) (memThreads w f.g) fun i j =>
        loadedWord l.dt (readBytes b.scratch (addr i) (dtBytes l.dt)) j

end Sys2Proof.Machine

/-- Loads of global memory and of scratchpad (R121 to R125, R128). -/
def Obligations.Loads : Prop := GlobalLoads ∧ ScratchLoads

namespace Sys2Proof.Machine

/-- What a store leaves in a memory (R125, R126): outside the threads' bytes everything as before; in a byte the value of the
highest thread that writes it. `where_` gives a thread's first byte in this memory, if it stands there. -/
def Stored (m m' : Mem) (part : Mask) (size : Nat) (where_ : Nat → Option Nat) (byte : Nat → Nat → Byte) : Prop :=
  let covers (i a : Nat) := i < 64 ∧ part.getLsbD i = true ∧ ∃ lo, where_ i = some lo ∧ lo ≤ a ∧ a < lo + size
  (∀ a, (∀ i, ¬ covers i a) → readByte m' a = readByte m a) ∧
  ∀ i lo k, i < 64 → part.getLsbD i = true → where_ i = some lo → k < size → (∀ j, i < j → ¬ covers j (lo + k)) →
    readByte m' (lo + k) = byte i k

/-- A thread's first byte in one of the three memories. -/
def placeIn (place : Nat → Place) (sp : Space) (i : Nat) : Option Nat :=
  if (place i).loc.space = sp then some (place i).loc.addr else none

/-- ST and SST to global memory (R121 to R126, R128, R234). -/
def GlobalStores : Prop :=
  ∀ e ∈ ([(.st, plainFields), (.sst, strongFields)] : List ((TR → TX → Instr) × (TX → LoadFields))),
    ∀ (f : TR) (x : TX) (s : State) (w : Wave) (b : Block) (st : Standing) (place : Nat → Place),
    let l := e.2 x
    let addr := accessAddress w true f.a f.b l.ix (dtBytes l.dt) l.off
    WaveTurn s w → MemoriesWf s → staticLegal (e.1 f x) = true → (e.1 f x = .sst f x → x.c.getLsbD 2 = false) →
    OperandsReady w (dtOperands l.dt f.d ++ addressOperands true f.a f.b l.ix) [] →
    GlobalAccess s w b st (memThreads w f.g) addr (dtBytes l.dt) .store place →
    ∃ t w', exec (e.1 f x) s = .next t ∧ MemoryDone s w 2 f.s [] t w' ∧ w'.pending = w.pending ∧
      t = { s with waves := t.waves, blocks := t.blocks, fresh := t.fresh, cached := t.cached, hbm := t.hbm, peer := t.peer,
                   host := t.host } ∧
      t.block? b.id = some { b with idem := false } ∧ OtherBlocks s t b.id ∧
      ∀ sp, Stored (spaceOf s sp) (spaceOf t sp) (memThreads w f.g) (dtBytes l.dt) (placeIn place sp) (storedByte w f.d)

/-- STS and SST to scratchpad (R121 to R126, R128). -/
def ScratchStores : Prop :=
  ∀ e ∈ ([(.sts, plainFields), (.sst, strongFields)] : List ((TR → TX → Instr) × (TX → LoadFields))),
    ∀ (f : TR) (x : TX) (s : State) (w : Wave) (b : Block) (st : Standing),
    let l := e.2 x
    let addr := accessAddress w false f.a f.b l.ix (dtBytes l.dt) l.off
    WaveTurn s w → Memory.wf b.scratch = true → staticLegal (e.1 f x) = true → (e.1 f x = .sst f x → x.c.getLsbD 2 = true) →
    OperandsReady w (dtOperands l.dt f.d ++ addressOperands false f.a f.b l.ix) [] →
    ScratchAccess s w b st (memThreads w f.g) addr (dtBytes l.dt) true →
    ∃ t w' b', exec (e.1 f x) s = .next t ∧ MemoryDone s w 2 f.s [] t w' ∧ w'.pending = w.pending ∧
      t = { s with waves := t.waves, blocks := t.blocks, contexts := t.contexts, fresh := t.fresh } ∧ SameContexts s t ∧
      t.block? b.id = some b' ∧ OtherBlocks s t b.id ∧ ScratchTags b b' (memThreads w f.g) addr (dtBytes l.dt) ∧
      Stored b.scratch b'.scratch (memThreads w f.g) (dtBytes l.dt) (fun i => some (addr i)) (storedByte w f.d)

end Sys2Proof.Machine

/-- Stores to global memory and to scratchpad (R121 to R126, R128, R234). -/
def Obligations.Stores : Prop := GlobalStores ∧ ScratchStores

namespace Sys2Proof.Machine

/-- The new value of an atomic operation, by AOP (R131). -/
def atomicResult (aop : Nat) (wide : Bool) (a b : Nat) : Nat :=
  let n := if wide then 64 else 32
  let signed (x : Nat) : Int := (BitVec.ofNat n x).toInt
  let fmt : FpFormat := if wide then .fp64 else .fp32
  [(a + b) % 2 ^ n, a &&& b, a ||| b, a ^^^ b, if signed a ≤ signed b then a else b, if signed a ≤ signed b then b else a,
    min a b, max a b, b, if b ≤ a then 0 else a + 1, if a = 0 ∨ b < a then b else a - 1, (fpAdd fmt .rne a b).code,
    (fpMinMax fmt false a b).code, (fpMinMax fmt true a b).code,
    (fpAdd .bf16 .rne (a % 2 ^ 16) (b % 2 ^ 16)).code + 2 ^ 16 * (fpAdd .bf16 .rne (a / 2 ^ 16) (b / 2 ^ 16)).code].getD aop 0

/-- The value of a register or pair in a thread. -/
def operandValue (w : Wave) (wide : Bool) (f : BitVec 6) (i : Nat) : Nat :=
  if wide then pairValue w f i else (rowAt (fieldRow w f) i).toNat

/-- An atomic operation: its fields, operands and step from the old value, `none` where a compare fails (R131 to R133). -/
structure AtomicForm where
  wide  : Bool
  ret   : Bool
  off   : Int
  reads : List VField
  new   : Wave → Nat → Nat → Option Nat

def atomForm (f : TR) (x : TX) (glob : Bool) : AtomicForm :=
  let wide := x.c.getLsbD 1
  ⟨wide, !x.c.getLsbD 0, x.i.toInt, [if glob then pairAt f.a else single f.a, if wide then pairAt f.b else single f.b],
    fun w i old => some (atomicResult (x.c.toNat / 4) wide old (operandValue w wide f.b i))⟩

def casForm (f : TR) (x : TX) (glob : Bool) : AtomicForm :=
  let wide := x.i.getLsbD 11
  ⟨wide, true, (x.i.extractLsb' 0 11).toInt,
    [if glob then pairAt f.a else single f.a, if wide then pairAt f.b else single f.b,
      if wide then pairAt x.c else single x.c],
    fun w i old => if old = operandValue w wide f.b i then some (operandValue w wide x.c i) else none⟩

/-- The destination of an atomic operation that returns the old value, and that it is declared G. -/
def atomicWrites (f : TR) (a : AtomicForm) : List VField :=
  if a.ret then [if a.wide then pairAt f.d else single f.d] else []

def atomicFields (f : TR) (a : AtomicForm) : List (BitVec 6) :=
  if a.ret then (if a.wide then [f.d, f.d + 1] else [f.d]) else []

/-- The threads in ascending order, each reading what those before it left (R132): the memories, and the old values. -/
def atomicRun (place : Nat → Place) (size : Nat) (new : Nat → Nat → Option Nat) : List Nat → State → State × List (Nat × Nat)
  | [], s => (s, [])
  | i :: is, s =>
    let old := leNat (readLoc s (place i).loc size)
    let r := atomicRun place size new is (match new i old with
      | some v => writeLoc s (place i).loc (leBytes size v)
      | none => s)
    (r.1, (i, old) :: r.2)

/-- Word j of the old value that a thread returns. -/
def oldWord (olds : List (Nat × Nat)) (i j : Nat) : Word :=
  BitVec.ofNat 32 (((olds.find? fun q => q.1 = i).map (·.2)).getD 0 / 2 ^ (32 * j))

/-- The threads of a mask in ascending order. -/
def ascending (part : Mask) : List Nat := (List.range 64).filter fun i => part.getLsbD i

/-- ATOM and CAS (R131 to R134): threads in ascending order, the old values pending for vd. On host memory only ADD, XCHG and
CAS perform. -/
def GlobalAtomics : Prop :=
  ∀ e ∈ ([(.atom, atomForm), (.cas, casForm)] : List ((TR → TX → Instr) × (TR → TX → Bool → AtomicForm))),
    ∀ (f : TR) (x : TX) (s : State) (w : Wave) (b : Block) (st : Standing) (place : Nat → Place),
    let a := e.2 f x true
    let size := if a.wide then 8 else 4
    let part := memThreads w f.g
    let addr := accessAddress w true f.a f.b 0 1 a.off
    WaveTurn s w → staticLegal (e.1 f x) = true → OperandsReady w a.reads (atomicWrites f a) →
    (∀ d ∈ atomicFields f a, shapeRank (fieldRow w d) = 3) → GlobalAccess s w b st part addr size .atomic place →
    (e.1 f x = .atom f x → x.c.toNat / 4 ∉ [0, 8] → ∀ i, i < 64 → part.getLsbD i = true → (place i).loc.space ≠ .host) →
    ∃ t w', exec (e.1 f x) s = .next t ∧ MemoryDone s w 2 f.s (atomicFields f a) t w' ∧
      t = { s with waves := t.waves, blocks := t.blocks, fresh := t.fresh, cached := t.cached, hbm := t.hbm, peer := t.peer,
                   host := t.host } ∧
      t.block? b.id = some { b with idem := false } ∧ OtherBlocks s t b.id ∧
      let r := atomicRun place size (a.new w) (ascending part) s
      SameMemory r.1 t ∧
      if a.ret = true then Pends w w' f.d (if a.wide then 2 else 1) part (oldWord r.2) else w'.pending = w.pending

/-- The same over the bytes of a scratchpad. -/
def scratchRun (addr : Nat → Nat) (size : Nat) (new : Nat → Nat → Option Nat) : List Nat → Mem → Mem × List (Nat × Nat)
  | [], m => (m, [])
  | i :: is, m =>
    let old := leNat (readBytes m (addr i) size)
    let r := scratchRun addr size new is (match new i old with
      | some v => writeBytes m (addr i) (leBytes size v)
      | none => m)
    (r.1, (i, old) :: r.2)

/-- ATOMS and CASS (R131 to R133). -/
def ScratchAtomics : Prop :=
  ∀ e ∈ ([(.atoms, atomForm), (.cass, casForm)] : List ((TR → TX → Instr) × (TR → TX → Bool → AtomicForm))),
    ∀ (f : TR) (x : TX) (s : State) (w : Wave) (b : Block) (st : Standing),
    let a := e.2 f x false
    let size := if a.wide then 8 else 4
    let part := memThreads w f.g
    let addr := accessAddress w false f.a f.b 0 1 a.off
    WaveTurn s w → staticLegal (e.1 f x) = true → OperandsReady w a.reads (atomicWrites f a) →
    (∀ d ∈ atomicFields f a, shapeRank (fieldRow w d) = 3) → ScratchAccess s w b st part addr size true →
    ∃ t w' b', exec (e.1 f x) s = .next t ∧ MemoryDone s w 2 f.s (atomicFields f a) t w' ∧
      t = { s with waves := t.waves, blocks := t.blocks, contexts := t.contexts, fresh := t.fresh } ∧ SameContexts s t ∧
      t.block? b.id = some b' ∧ OtherBlocks s t b.id ∧ ScratchTags b b' part addr size ∧
      let r := scratchRun addr size (a.new w) (ascending part) b.scratch
      b'.scratch = r.1 ∧
      if a.ret = true then Pends w w' f.d (if a.wide then 2 else 1) part (oldWord r.2) else w'.pending = w.pending

end Sys2Proof.Machine

/-- Atomic operations on global memory and on scratchpad (R131 to R134). -/
def Obligations.Atomics : Prop := GlobalAtomics ∧ ScratchAtomics

/-! ### Sequencer arithmetic (R239 to R244) -/

namespace Sys2Proof.Machine

/-- A word that writes register d of its own scope from the registers of that scope, and does nothing else. -/
def SetsRegister (i : Instr) (c : BitVec 3) (d : BitVec 5) (v : (Nat → Dword) → Dword) : Prop :=
  staticLegal i = true →
  (c = 1 → ∀ (s : State) (w : Wave), WaveSeqTurn s w → WaveSized w →
    ∃ t w', exec i s = .next t ∧ WaveStep s t w w' ∧ WroteS w w' d.toNat (v (seqReg w))) ∧
  (c = 2 → ∀ (s : State) (b : Block), BlockTurn s b → BlockSized b →
    ∃ t b', exec i s = .next t ∧ BlockStep s t b b' ∧ WroteB b b' d.toNat (v fun n => b.b.getD n 0)) ∧
  (c = 3 → ∀ (s : State) (g : Grid), GridTurn s g → g.g.length = 16 →
    ∃ t g', exec i s = .next t ∧ GridStep s t g g' ∧ WroteG g g' d.toNat (v fun n => g.g.getD n 0))

/-- The register-form words (R239). -/
def seqAluTable : List ((S3 → Instr) × (Dword → Dword → Dword)) :=
  [(.sadd, fun x y => x + y), (.ssub, fun x y => x - y), (.smul, fun x y => x * y), (.sand, fun x y => x &&& y),
   (.sor, fun x y => x ||| y), (.sxor, fun x y => x ^^^ y),
   (.sshl, fun x y => BitVec.ofNat 64 (x.toNat * 2 ^ (y.toNat % 64))),
   (.sshr, fun x y => BitVec.ofNat 64 (x.toNat / 2 ^ (y.toNat % 64))),
   (.ssar, fun x y => BitVec.ofInt 64 (x.toInt / 2 ^ (y.toNat % 64))),
   (fun f => .smin f 0, fun x y => if x.toInt < y.toInt then x else y),
   (fun f => .smax f 0, fun x y => if x.toInt < y.toInt then y else x),
   (fun f => .smin f 1, fun x y => if x.toNat < y.toNat then x else y),
   (fun f => .smax f 1, fun x y => if x.toNat < y.toNat then y else x)]

/-- NOP and the register-form words at wave, block and grid scope (R239). -/
def SequencerAlu : Prop :=
  (∀ e ∈ seqAluTable, ∀ f : S3, SetsRegister (e.1 f) f.c f.d fun r => e.2 (r f.a.toNat) (r f.b.toNat)) ∧
  (∀ (s : State) (w : Wave), WaveSeqTurn s w →
    ∃ t, exec (.nop 1) s = .next t ∧ WaveStep s t w { w with pc := w.pc + 4, phase := .ready }) ∧
  (∀ (s : State) (b : Block), BlockTurn s b →
    ∃ t, exec (.nop 2) s = .next t ∧ BlockStep s t b { b with pc := b.pc + 4, phase := .ready }) ∧
  ∀ (s : State) (g : Grid), GridTurn s g →
    ∃ t, exec (.nop 3) s = .next t ∧ GridStep s t g { g with pc := g.pc + 4, phase := .ready }

/-- SMOVI, SLUI and SADDI (R240). -/
def SequencerImmediates : Prop :=
  ∀ (c : BitVec 3) (d : BitVec 5) (i : BitVec 16),
    SetsRegister (.smovi c d i) c d (fun _ => BitVec.ofInt 64 i.toInt) ∧
    SetsRegister (.slui c d i) c d (fun r => BitVec.ofNat 64 ((r d.toNat).toNat * 2 ^ 16 + i.toNat)) ∧
    SetsRegister (.saddi c d i) c d (fun r => r d.toNat + BitVec.ofInt 64 i.toInt)

/-- The words of R239 and R240: opcodes 0x00 to 0x0E. -/
def SequencerArithmeticWords : Prop :=
  SeqWords 0x00 (fun c i x => i = .nop c ∧ x = 0) ∧
  (∀ e ∈ ((List.range 9).map (1 + ·)).zip (seqAluTable.take 9), SeqWords e.1 (srForm e.2.1)) ∧
  SeqWords 0x0A (fun c i x => ∃ (f : S3) (u : BitVec 1), f.c = c ∧ i = .smin f u ∧
    x = f.d.toNat * 2 ^ 16 + f.a.toNat * 2 ^ 11 + f.b.toNat * 2 ^ 6 + u.toNat) ∧
  SeqWords 0x0B (fun c i x => ∃ (f : S3) (u : BitVec 1), f.c = c ∧ i = .smax f u ∧
    x = f.d.toNat * 2 ^ 16 + f.a.toNat * 2 ^ 11 + f.b.toNat * 2 ^ 6 + u.toNat) ∧
  SeqWords 0x0C (fun c i x => ∃ (d : BitVec 5) (v : BitVec 16), i = .smovi c d v ∧ x = d.toNat * 2 ^ 16 + v.toNat) ∧
  SeqWords 0x0D (fun c i x => ∃ (d : BitVec 5) (v : BitVec 16), i = .slui c d v ∧ x = d.toNat * 2 ^ 16 + v.toNat) ∧
  SeqWords 0x0E (fun c i x => ∃ (d : BitVec 5) (v : BitVec 16), i = .saddi c d v ∧ x = d.toNat * 2 ^ 16 + v.toNat)

end Sys2Proof.Machine

/-- Sequencer arithmetic at its three scopes (R239, R240): the words and what they do. -/
def Obligations.SequencerArithmetic : Prop := SequencerArithmeticWords ∧ SequencerAlu ∧ SequencerImmediates

namespace Sys2Proof.Machine

/-- A word that writes condition register k of its own scope from the registers and conditions of that scope. -/
def SetsCondition (i : Instr) (c k : BitVec 3) (reads : List (BitVec 3)) (v : (Nat → Dword) → (BitVec 3 → Bool) → Bool) :
    Prop :=
  staticLegal i = true →
  (c = 1 → ∀ (s : State) (w : Wave), WaveSeqTurn s w → (∀ n ∈ k :: reads, condPending w n = false) →
    ∃ t w', exec i s = .next t ∧ WaveStep s t w w' ∧ w' = { w with k := w'.k, pc := w.pc + 4, phase := .ready } ∧
      ∀ n, n < 8 → w'.k.getLsbD n = if n = k.toNat then v (seqReg w) (fun j => w.k.getLsbD j.toNat) else w.k.getLsbD n) ∧
  (c = 2 → ∀ (s : State) (b : Block), BlockTurn s b → (∀ n ∈ k :: reads, b.kPending.getLsbD n.toNat = false) →
    ∃ t b', exec i s = .next t ∧ BlockStep s t b b' ∧ b' = { b with k := b'.k, pc := b.pc + 4, phase := .ready } ∧
      ∀ n, n < 8 → b'.k.getLsbD n =
        if n = k.toNat then v (fun n => b.b.getD n 0) (fun j => b.k.getLsbD j.toNat) else b.k.getLsbD n) ∧
  (c = 3 → ∀ (s : State) (g : Grid), GridTurn s g → (∀ n ∈ k :: reads, g.kPending.getLsbD n.toNat = false) →
    ∃ t g', exec i s = .next t ∧ GridStep s t g g' ∧ g' = { g with k := g'.k, pc := g.pc + 4, phase := .ready } ∧
      ∀ n, n < 8 → g'.k.getLsbD n =
        if n = k.toNat then v (fun n => g.g.getD n 0) (fun j => g.k.getLsbD j.toNat) else g.k.getLsbD n)

/-- The conditions of SCMP (R241). -/
def scmpHolds (f : BitVec 3) (x y : Dword) : Bool :=
  if f = 0 then decide (x = y) else if f = 1 then decide (x ≠ y) else if f = 2 then decide (x.toInt < y.toInt)
  else if f = 3 then decide (x.toInt ≤ y.toInt) else if f = 4 then decide (x.toNat < y.toNat)
  else decide (x.toNat ≤ y.toNat)

/-- A condition of SCMP that is reserved is an illegal instruction at every scope (R117, R241). -/
def ReservedConditions : Prop :=
  ∀ (k f : BitVec 3) (a b : BitVec 5), 6 ≤ f.toNat →
    (∀ (s : State) (w : Wave), WaveSeqTurn s w → exec (.scmp 1 k a b f) s = .next (haltWave s w 0x10 0 [])) ∧
    (∀ (s : State) (x : Block), BlockTurn s x → exec (.scmp 2 k a b f) s = .next (haltBlock s x 0x10 0 [])) ∧
    ∀ (s : State) (g : Grid), GridTurn s g → exec (.scmp 3 k a b f) s = .next (haltGrid s g 0x10 0)

end Sys2Proof.Machine

/-- SCMP and KOP at wave, block and grid scope: their words, and the named condition register alone is written (R241, R242). -/
def Obligations.SequencerConditions : Prop :=
  SeqWords 0x0F (fun c i x => ∃ (k f : BitVec 3) (a b : BitVec 5), i = .scmp c k a b f ∧
    x = k.toNat * 2 ^ 16 + a.toNat * 2 ^ 11 + b.toNat * 2 ^ 6 + f.toNat) ∧
  SeqWords 0x10 (fun c i x => ∃ (k a b : BitVec 3) (t : BitVec 4), i = .kop c k a b t ∧
    x = k.toNat * 2 ^ 16 + a.toNat * 2 ^ 11 + b.toNat * 2 ^ 6 + t.toNat) ∧
  ReservedConditions ∧
  (∀ (c k : BitVec 3) (a b : BitVec 5) (f : BitVec 3),
    SetsCondition (.scmp c k a b f) c k [] fun r _ => scmpHolds f (r a.toNat) (r b.toNat)) ∧
  ∀ (c k a b : BitVec 3) (t : BitVec 4),
    SetsCondition (.kop c k a b t) c k [a, b] fun _ p =>
      t.getLsbD (2 * (if p a then 1 else 0) + if p b then 1 else 0)

namespace Sys2Proof.Machine

/-- Bytes of the region stack in a doubleword of REGSTK (R94): four identifiers from one on. -/
def regionsFrom (rs : List (BitVec 16)) (n : Nat) : Nat :=
  (rs.getD n 0).toNat + 2 ^ 16 * (rs.getD (n + 1) 0).toNat + 2 ^ 32 * (rs.getD (n + 2) 0).toNat +
    2 ^ 48 * (rs.getD (n + 3) 0).toNat

/-- What a wave's status registers read as (R93, R94, R244): by index, with and without HI. -/
def statusValue (w : Wave) (h : BitVec 1) (i : Nat) : Nat :=
  [64, if h = 1 then 0 else w.exec.toNat, if h = 1 then 0 else w.halted.toNat, w.fpstat.toNat, if w.schk then 1 else 0,
    4 * w.tba.toNat, regionsFrom w.regions (if h = 1 then 4 else 0), if w.preq then 1 else 0, w.pcm.toNat,
    w.tcode.toNat + 2 ^ 8 * w.treg.toNat, w.epc.toNat,
    w.masks.length + 2 ^ 5 * w.loops.length + 2 ^ 8 * w.calls.length + 2 ^ 16 * w.regions.length].getD i 0

/-- What a write of a wave's status register leaves (R93 to R95, R244); read-only registers keep their values. -/
def statusWritten (w : Wave) (h : BitVec 1) (i : Nat) (v : Dword) : Wave :=
  if i = 1 ∧ h = 0 then { w with exec := v &&& ~~~w.halted }
  else if i = 3 then { w with fpstat := BitVec.ofNat 6 v.toNat }
  else if i = 4 then { w with schk := v.getLsbD 0 }
  else if i = 5 then { w with tba := BitVec.ofNat 62 (v.toNat / 4) }
  else if i = 10 then { w with epc := BitVec.ofNat 64 (v.toNat / 4 * 4) }
  else w

/-- Token and status access of waves (R93 to R95, R243, R244): TKRD, STRD and STWR complete with the values named; a TBA that
would not be canonical is an access fault. -/
def WaveStatus : Prop :=
  (∀ (d : BitVec 5) (f : BitVec 2) (s : State) (w : Wave), WaveSeqTurn s w → WaveSized w → f ≠ 3 →
    (∀ v, (if f = 0 then some (w.tk0.toNat) else if f = 1 then some w.tk1.toNat
        else w.loops.getLast?.map fun e => (e.begun - 1).toNat) = some v →
      ∃ t w', exec (.tkrd 1 d f) s = .next t ∧ WaveStep s t w w' ∧ WroteS w w' d.toNat (BitVec.ofNat 64 v)) ∧
    (f = 2 → w.loops = [] → exec (.tkrd 1 d f) s = .next (haltWave s w 0x10 0 []))) ∧
  (∀ (d : BitVec 5) (h : BitVec 1) (i : BitVec 5) (s : State) (w : Wave), WaveSeqTurn s w → WaveSized w →
    staticLegal (.strd 1 d h i) = true →
    ∃ t w', exec (.strd 1 d h i) s = .next t ∧ WaveStep s t w w' ∧
      WroteS w w' d.toNat (BitVec.ofNat 64 (statusValue w h i.toNat))) ∧
  ∀ (a : BitVec 5) (h : BitVec 1) (i : BitVec 5) (s : State) (w : Wave), WaveSeqTurn s w →
    staticLegal (.stwr 1 a h i) = true →
    (i = 5 → canonical (BitVec.ofNat 64 ((seqReg w a.toNat).toNat / 4 * 4)) = true →
      ∃ t, exec (.stwr 1 a h i) s = .next t ∧ WaveStep s t w
        { statusWritten w h 5 (seqReg w a.toNat) with pc := w.pc + 4, phase := .ready }) ∧
    (i = 5 → canonical (BitVec.ofNat 64 ((seqReg w a.toNat).toNat / 4 * 4)) = false →
      exec (.stwr 1 a h i) s = .next (takeTrap s w 1)) ∧
    (i ≠ 5 → ∃ t, exec (.stwr 1 a h i) s = .next t ∧ WaveStep s t w
      { statusWritten w h i.toNat (seqReg w a.toNat) with pc := w.pc + 4, phase := .ready })

/-- Token and status access of block and grid sequencers (R60, R85, R93, R94, R243, R244): TKRD at block scope, the stack
depths, QPCT and the format windows; reserved bits of a window read zero, and QPCT stays within 1,024. -/
def UpperStatus : Prop :=
  (∀ (d : BitVec 5) (f : BitVec 2) (s : State) (b : Block), BlockTurn s b → BlockSized b → f ≠ 3 →
    ∀ v, (if f = 0 then some (b.tk0.toNat) else if f = 1 then some b.tk1.toNat
        else b.loops.getLast?.map fun e => (e.begun - 1).toNat) = some v →
      ∃ t b', exec (.tkrd 2 d f) s = .next t ∧ BlockStep s t b b' ∧ WroteB b b' d.toNat (BitVec.ofNat 64 v)) ∧
  (∀ (d : BitVec 5) (s : State) (b : Block), BlockTurn s b → BlockSized b →
    (∃ t b', exec (.strd 2 d 0 24) s = .next t ∧ BlockStep s t b b' ∧ WroteB b b' d.toNat (BitVec.ofNat 64 b.qpct.toNat)) ∧
    (∃ t b', exec (.strd 2 d 0 25) s = .next t ∧ BlockStep s t b b' ∧
      WroteB b b' d.toNat (BitVec.ofNat 64 (b.loops.length + 16 * b.calls.length))) ∧
    ∀ n, n < 8 → ∃ t b' x, exec (.strd 2 d 0 (BitVec.ofNat 5 (16 + n))) s = .next t ∧ BlockStep s t b b' ∧
      WroteB b b' d.toNat x ∧ x &&& 0x7FFFFFFFFFFFFFFF = b.fwin.getD n 0 &&& 0x7FFFFFFFFFFFFFFF ∧
      (x.getLsbD 63 = true → b.fwin.getD n 0 = x)) ∧
  (∀ (d : BitVec 5) (s : State) (g : Grid), GridTurn s g → g.g.length = 16 → d.toNat < 16 →
    ∃ t g', exec (.strd 3 d 0 26) s = .next t ∧ GridStep s t g g' ∧
      WroteG g g' d.toNat (BitVec.ofNat 64 (g.loops.length + 16 * g.calls.length))) ∧
  (∀ (a : BitVec 5) (s : State) (b : Block), BlockTurn s b → BlockSized b →
    (∃ t q, exec (.stwr 2 a 0 24) s = .next t ∧ BlockStep s t b { b with qpct := q, pc := b.pc + 4, phase := .ready } ∧
      q.toNat = min ((b.b.getD a.toNat 0).toNat % 2048) 1024) ∧
    (∃ t, exec (.stwr 2 a 0 25) s = .next t ∧ BlockStep s t b { b with pc := b.pc + 4, phase := .ready }) ∧
    ∀ n, n < 8 → ∃ t, exec (.stwr 2 a 0 (BitVec.ofNat 5 (16 + n))) s = .next t ∧
      BlockStep s t b { b with fwin := b.fwin.set n (b.b.getD a.toNat 0 &&& 0x8000003FFFFF07FF), pc := b.pc + 4,
                               phase := .ready }) ∧
  ∀ (a : BitVec 5) (s : State) (g : Grid), GridTurn s g → a.toNat < 16 →
    ∃ t, exec (.stwr 3 a 0 26) s = .next t ∧ GridStep s t g { g with pc := g.pc + 4, phase := .ready }

end Sys2Proof.Machine

/-- Token and status access of waves, blocks and grids (R93 to R95, R243, R244). -/
def Obligations.StatusWords : Prop := WaveStatus ∧ UpperStatus

/-! ### Branches, calls and loops (R214 to R219, R245 to R248) -/

namespace Sys2Proof.Machine

/-- What a control word sees of its scope instance. -/
structure Control where
  k     : BitVec 8
  pc    : Dword
  loops : List LoopEntry
  calls : List Dword
  regs  : Nat → Dword

/-- What it does: the new pc and stacks, and V0 where it is a loop word (R216). -/
structure Jump where
  pc    : Dword
  loops : List LoopEntry
  calls : List Dword
  v0    : Option Word

/-- A control word at wave, block and grid scope: a wave goes on at the new pc; a block or grid with room in its queue goes on
there and pushes one token with its own values (R214, R216, R218, R245, R246). `f` gives the effect from the depth of the call
stack (R222). -/
def Jumps (i : Instr) (c : BitVec 3) (conds : List (BitVec 3)) (f : Nat → Control → Option Jump) : Prop :=
  staticLegal i = true →
  (c = 1 → ∀ (s : State) (w : Wave) (j : Jump), WaveSeqTurn s w → (∀ n ∈ conds, condPending w n = false) →
    f 16 ⟨w.k, w.pc, w.loops, w.calls, seqReg w⟩ = some j →
    ∃ t, exec i s = .next t ∧ WaveStep s t w { w with pc := j.pc, loops := j.loops, calls := j.calls, phase := .ready }) ∧
  (c = 2 → ∀ (s : State) (b : Block) (j : Jump), BlockTurn s b → (∀ n ∈ conds, b.kPending.getLsbD n.toNat = false) →
    b.tokens.length < 4 → f 8 ⟨b.k, b.pc, b.loops, b.calls, fun n => b.b.getD n 0⟩ = some j →
    ∃ t, exec i s = .next t ∧ BlockStep s t b
      { b with pc := j.pc, loops := j.loops, calls := j.calls, phase := .ready, nextSeq := b.nextSeq + 1,
               tokens := pushedTokens s b ⟨j.pc, b.pc, j.v0.getD b.tk0, if j.v0.isSome then b.tk0 else b.tk1, b.nextSeq,
                 false, false⟩ }) ∧
  (c = 3 → ∀ (s : State) (g : Grid) (j : Jump), GridTurn s g → (∀ n ∈ conds, g.kPending.getLsbD n.toNat = false) →
    g.tokens.length < 8 → f 8 ⟨g.k, g.pc, g.loops, g.calls, fun n => g.g.getD n 0⟩ = some j →
    ∃ t, exec i s = .next t ∧ GridStep s t g
      { g with pc := j.pc, loops := j.loops, calls := j.calls, phase := .ready, nextSeq := g.nextSeq + 1,
               tokens := pushedGridTokens s g ⟨j.pc, g.pc, j.v0.getD 0, 0, g.nextSeq, false, false⟩ })

/-- Where a stack of the scope instance is exceeded or empty, a control word is an illegal instruction (R117, R222); and while the
queue of its block or grid is full, the word waits and does nothing, its faults included (R218). `bad` judges by the depth of the
call stack. -/
def Guarded (i : Instr) (c : BitVec 3) (conds : List (BitVec 3)) (bad : Nat → Control → Prop) : Prop :=
  staticLegal i = true →
  (c = 1 → ∀ (s : State) (w : Wave), WaveSeqTurn s w → (∀ n ∈ conds, condPending w n = false) →
    bad 16 ⟨w.k, w.pc, w.loops, w.calls, seqReg w⟩ → exec i s = .next (haltWave s w 0x10 0 [])) ∧
  (c = 2 → ∀ (s : State) (b : Block), BlockTurn s b → (∀ n ∈ conds, b.kPending.getLsbD n.toNat = false) →
    (4 ≤ b.tokens.length → exec i s = .next (holdBlock s b .token)) ∧
    (b.tokens.length < 4 → bad 8 ⟨b.k, b.pc, b.loops, b.calls, fun n => b.b.getD n 0⟩ →
      exec i s = .next (haltBlock s b 0x10 0 []))) ∧
  (c = 3 → ∀ (s : State) (g : Grid), GridTurn s g → (∀ n ∈ conds, g.kPending.getLsbD n.toNat = false) →
    (8 ≤ g.tokens.length → exec i s = .next (holdGrid s g .token)) ∧
    (g.tokens.length < 8 → bad 8 ⟨g.k, g.pc, g.loops, g.calls, fun n => g.g.getD n 0⟩ →
      exec i s = .next (haltGrid s g 0x10 0)))

/-- The target of an SB word (R104). -/
def targetFrom (pc : Dword) (o : BitVec 17) : Dword := pc + BitVec.ofInt 64 (4 * o.toInt)

/-- kc xor neg. -/
def taken (x : Control) (k : BitVec 3) (n : BitVec 1) : Bool := x.k.getLsbD k.toNat != (n == 1)

end Sys2Proof.Machine

/-- Branches and calls (R218, R222, R245): where they go; a call beyond the depth and a return on an empty stack are illegal
instructions; and a full queue holds each of them. -/
def Obligations.Branches : Prop :=
  (∀ (c k : BitVec 3) (n : BitVec 1) (o : BitVec 17), Jumps (.br c k n o) c [k] fun _ x =>
    some ⟨if taken x k n then targetFrom x.pc o else x.pc + 4, x.loops, x.calls, none⟩) ∧
  (∀ (c : BitVec 3) (o : BitVec 17), Jumps (.jmp c o) c [] fun _ x => some ⟨targetFrom x.pc o, x.loops, x.calls, none⟩) ∧
  (∀ (c : BitVec 3) (o : BitVec 17), Jumps (.call c o) c [] fun depth x =>
    if x.calls.length < depth then some ⟨targetFrom x.pc o, x.loops, x.calls ++ [x.pc + 4], none⟩ else none) ∧
  (∀ c : BitVec 3, Jumps (.ret c) c [] fun _ x => x.calls.getLast?.map fun p => ⟨p, x.loops, x.calls.dropLast, none⟩) ∧
  (∀ (c k : BitVec 3) (n : BitVec 1) (o : BitVec 17), Guarded (.br c k n o) c [k] fun _ _ => False) ∧
  (∀ (c : BitVec 3) (o : BitVec 17), Guarded (.jmp c o) c [] fun _ _ => False) ∧
  (∀ (c : BitVec 3) (o : BitVec 17), Guarded (.call c o) c [] fun depth x => depth ≤ x.calls.length) ∧
  ∀ c : BitVec 3, Guarded (.ret c) c [] fun _ x => x.calls = []

namespace Sys2Proof.Machine

/-- A loop word with a count that is not zero (R246): it pushes an entry, four at most (R222). -/
def beginsLoop (n : Word) (x : Control) : Option Jump :=
  if n ≠ 0 ∧ x.loops.length < 4 then some ⟨x.pc + 4, x.loops ++ [⟨1, n, x.pc + 4⟩], x.calls, some 0⟩ else none

/-- Loops (R246, R247): V0 is the passes begun, less one for the word that begins a pass; a fifth entry, or an ENDL or BRK outside
every loop, is an illegal instruction (R222), and a full queue holds each of them (R218). -/
def Loops : Prop :=
  (∀ (c : BitVec 3) (i : BitVec 16), Jumps (.loop c i) c [] fun _ x => beginsLoop (BitVec.ofNat 32 i.toNat) x) ∧
  (∀ (c : BitVec 3) (a : BitVec 5), Jumps (.loopr c a) c [] fun _ x =>
    beginsLoop (BitVec.ofNat 32 (x.regs a.toNat).toNat) x) ∧
  (∀ c : BitVec 3, Jumps (.endl c) c [] fun _ x => x.loops.getLast?.map fun e =>
    if e.begun.toNat < e.total.toNat then
      ⟨e.body, x.loops.dropLast ++ [{ e with begun := e.begun + 1 }], x.calls, some e.begun⟩
    else ⟨x.pc + 4, x.loops.dropLast, x.calls, some e.begun⟩) ∧
  (∀ (c k : BitVec 3) (n : BitVec 1) (o : BitVec 17), Jumps (.brk c k n o) c [k] fun _ x =>
    x.loops.getLast?.map fun e =>
      if taken x k n then ⟨targetFrom x.pc o, x.loops.dropLast, x.calls, some e.begun⟩
      else ⟨x.pc + 4, x.loops, x.calls, some e.begun⟩) ∧
  (∀ (c : BitVec 3) (i : BitVec 16), Guarded (.loop c i) c [] fun _ x => i ≠ 0 ∧ 4 ≤ x.loops.length) ∧
  (∀ (c : BitVec 3) (a : BitVec 5), Guarded (.loopr c a) c [] fun _ x =>
    (x.regs a.toNat).toNat % 2 ^ 32 ≠ 0 ∧ 4 ≤ x.loops.length) ∧
  (∀ c : BitVec 3, Guarded (.endl c) c [] fun _ x => x.loops = []) ∧
  ∀ (c k : BitVec 3) (n : BitVec 1) (o : BitVec 17), Guarded (.brk c k n o) c [k] fun _ x => x.loops = []

/-- A loop with count zero goes on after the matching ENDL, which the scan of R248 finds; without a match it is an illegal
instruction. -/
def LoopsSkipped : Prop :=
  (∀ (s : State) (w : Wave) (st : Standing) (b : Block) (g : Grid), WaveSeqTurn s w → waveStanding s w = some st →
    s.block? w.block = some b → s.grid? b.grid = some g →
    let e := (textBounds g).2
    let r := scanEndl s st.ctx st.isle 1 e ((e - w.pc.toNat + 3) / 4) w.pc 0
    (∀ p, r = .found p →
      ∃ t, exec (.loop 1 0) s = .next t ∧ WaveStep s t w { w with pc := p + 4, phase := .ready }) ∧
    (r = .none → exec (.loop 1 0) s = .next (haltWave s w 0x10 0 []))) ∧
  ∀ (s : State) (b : Block) (c : Context) (g : Grid), BlockTurn s b → s.ctx? b.ctx = some c → s.grid? b.grid = some g →
    b.tokens.length < 4 →
    let e := (textBounds g).2
    let r := scanEndl s c b.isle 2 e ((e - b.pc.toNat + 3) / 4) b.pc 0
    (∀ p, r = .found p →
      ∃ t, exec (.loop 2 0) s = .next t ∧ BlockStep s t b
        { b with pc := p + 4, phase := .ready, nextSeq := b.nextSeq + 1,
                 tokens := pushedTokens s b ⟨p + 4, b.pc, 0, b.tk0, b.nextSeq, false, false⟩ }) ∧
    (r = .none → exec (.loop 2 0) s = .next (haltBlock s b 0x10 0 []))

end Sys2Proof.Machine

/-- Loops, begun and skipped (R246 to R248). -/
def Obligations.LoopWords : Prop := Loops ∧ LoopsSkipped

/-! ### Thread-scope control (R249) -/

/-- IF, ELSE and FI, with their illegal forms: the seventeenth entry, and an empty stack (R95, R249). No token is emitted and
nothing above the wave changes. -/
def Obligations.ThreadControl : Prop :=
  ∀ (s : State) (w : Wave), WaveSeqTurn s w →
    (∀ (p : BitVec 3) (n : BitVec 1),
      (w.masks.length < 16 → ∃ t w', exec (.ifT p n) s = .next t ∧ WaveStep s t w w' ∧
        w' = { w with masks := w.masks ++ [w.exec], exec := w'.exec, pc := w.pc + 4, phase := .ready } ∧
        ∀ i, i < 64 → w'.exec.getLsbD i =
          (w.exec.getLsbD i && ((predMask w p).getLsbD i != (n == 1)) && !w.halted.getLsbD i)) ∧
      (16 ≤ w.masks.length → exec (.ifT p n) s = .next (haltWave s w 0x10 0 []))) ∧
    (∀ top, w.masks.getLast? = some top →
      (∃ t w', exec .elseT s = .next t ∧ WaveStep s t w w' ∧ w' = { w with exec := w'.exec, pc := w.pc + 4, phase := .ready } ∧
        ∀ i, i < 64 → w'.exec.getLsbD i = (top.getLsbD i && !w.exec.getLsbD i && !w.halted.getLsbD i)) ∧
      ∃ t w', exec .fiT s = .next t ∧ WaveStep s t w w' ∧
        w' = { w with masks := w.masks.dropLast, exec := w'.exec, pc := w.pc + 4, phase := .ready } ∧
        ∀ i, i < 64 → w'.exec.getLsbD i = (top.getLsbD i && !w.halted.getLsbD i)) ∧
    (w.masks = [] → exec .elseT s = .next (haltWave s w 0x10 0 []) ∧ exec .fiT s = .next (haltWave s w 0x10 0 []))

/-! ### Fences, per-thread copies, full/empty operations (R82, R97, R129, R136, R138) -/

namespace Sys2Proof.Machine

/-- FENCE completes with nothing but time passing: what it orders has performed in the model's order of accesses (log 1). -/
def Fences : Prop :=
  ∀ (f : TR) (x : TX) (s : State) (w : Wave) (b : Block) (st : Standing), WaveTurn s w → staticLegal (.fence f x) = true →
    OperandsReady w [] [] → s.block? w.block = some b → waveStanding s w = some st →
    ∃ t w', exec (.fence f x) s = .next t ∧ MemoryDone s w 2 f.s [] t w' ∧ w'.pending = w.pending ∧
      t = { s with waves := t.waves, fresh := t.fresh }

/-- CPA (R82, R83, R122, R136, R282): one copy enters flight for each performing thread, lowest first: its destination is armed,
its tag's count rises, and nothing is written yet. `pieces` are the stretches that translating thread i's source gives. -/
def PerThreadCopies : Prop :=
  ∀ (f : TR) (x : TX) (s : State) (w : Wave) (b : Block) (st : Standing) (pieces : Nat → List (Touch × Stretch)),
    let size := 4 * 2 ^ (x.m.toNat / 16)
    let tag := x.m.toNat % 8
    let part := memThreads w f.g
    let src := accessAddress w true f.a 0 0 1 x.i.toInt
    let dst := fun i => (rowAt (fieldRow w f.d) i).toNat
    let n := fun i => min (rowAt (fieldRow w f.b) i).toNat size
    WaveTurn s w → staticLegal (.cpa f x) = true → OperandsReady w [single f.d, pairAt f.a, single f.b] [] →
    s.block? w.block = some b → waveStanding s w = some st → watchOn s w = none → w.tagCounts.getD tag 0 + 64 ≤ 4095 →
    (∀ i, i < 64 → part.getLsbD i = true →
      canonical (BitVec.ofNat 64 (src i)) = true ∧ src i % 4 = 0 ∧ dst i % size = 0 ∧ dst i + size ≤ 4096 * b.granules ∧
      translateStretch s st.ctx st.isle (BitVec.ofNat 64 (src i)) (n i) .copyRead = .ok (pieces i) ∧
      ∀ p ∈ pieces i, p.1.checked = false ∧ farBad s p.1.loc p.1.len = false) →
    ∃ t w', exec (.cpa f x) s = .next t ∧
      MemoryDone s { w with
        copies := w.copies ++ (ascending part).map fun i => ⟨tag, i, dst i, size, (pieces i).map (·.2), w.clock.know⟩
        copyRanges := w.copyRanges ++ (ascending part).map fun i => ⟨tag, dst i, size⟩
        tagCounts := w.tagCounts.modify tag (· + (ascending part).length) } 2 f.s [] t w' ∧
      w'.pending = w.pending ∧ t = { s with waves := t.waves, fresh := t.fresh, cached := t.cached }

end Sys2Proof.Machine

/-- FENCE and CPA (R82, R83, R129, R136). -/
def Obligations.FencesAndCopies : Prop := Fences ∧ PerThreadCopies

namespace Sys2Proof.Machine

/-- Register r names element n of the wave's shared range, and the other register stands outside it (R96, R138). -/
structure InRange (w : Wave) (r : SharedRange) (n : Nat) (f other : BitVec 6) : Prop where
  range   : w.range = some r
  inside  : n < r.len
  here    : regOf w f = some (.v (r.first + n))
  outside : ∀ m, regOf w other = some (.v m) → m < r.first ∨ r.first + r.len ≤ m

end Sys2Proof.Machine

/-- FEW, FER and FEPEEK (R97, R138). The producer writes where the bit is empty or its consumer has exited, and waits otherwise;
the consumer, of a full register, takes it as a pending result, and FER empties it; of an empty one it waits, or takes an
orphan-read fault; while its producer is still to be placed it waits. The other roles are illegal instructions. A pair's registers
have one declaration (R96). -/
def Obligations.FullEmpty : Prop :=
  (∀ (f : T1) (s : State) (w : Wave) (b : Block) (st : Standing) (r : SharedRange) (n : Nat), WaveTurn s w → WaveSized w →
    OperandsReady w [single f.a] [single f.d] → s.block? w.block = some b → waveStanding s w = some st →
    InRange w r n f.d f.a →
    (r.producer = false → exec (.few f) s = .next (haltWave (nextFresh s freshSpan) w 0x10 0 [])) ∧
    (r.producer = true → shapeRank (fieldRow w f.a) ≤ shapeRank (fieldRow w f.d) →
      let gone := ∀ c, partnerOf s w r = some c → c.phase = .exited
      (w.full.getLsbD n = true → ¬ gone → exec (.few f) s = .next (holdWave (nextFresh s freshSpan) w .fullEmpty)) ∧
      (w.full.getLsbD n = false ∨ gone → ∃ t w', exec (.few f) s = .next t ∧
        MemoryDone s { w with full := w.full ||| (1#8 <<< n) } 1 f.s [f.d] t w' ∧ w'.pending = w.pending ∧
        t = { s with waves := t.waves, fresh := t.fresh } ∧ Delivered w w' (participants w f.g) 0 f.s f.d
          (rowAt (fieldRow w f.a))))) ∧
  ∀ e ∈ ([(.fer, false), (.fepeek, true)] : List ((T1 → Instr) × Bool)),
    ∀ (f : T1) (s : State) (w h : Wave) (b : Block) (st : Standing) (r : SharedRange) (n : Nat) (d : Reg), WaveTurn s w →
    OperandsReady w [] [single f.d] → s.block? w.block = some b → waveStanding s w = some st → InRange w r n f.a f.d →
    regOf w f.d = some d →
    (r.producer = false → w.orphaned = false → partnerOf s w r = none →
      shapeRank (w.v.getD (r.first + n) .undeclared) ≤ shapeRank (fieldRow w f.d) →
      exec (e.1 f) s = .next (holdWave (nextFresh s freshSpan) w .fullEmpty)) ∧
    (r.producer = true → exec (e.1 f) s = .next (haltWave (nextFresh s freshSpan) w 0x10 0 [])) ∧
    (r.producer = false → rangeHolder s w r = some h → s.wave? h.id = some h →
      let row := h.v.getD (r.first + n) .undeclared
      shapeRank row ≤ shapeRank (fieldRow w f.d) → shapeRank (w.v.getD (r.first + n) .undeclared) = shapeRank row →
      (h.full.getLsbD n = false → exec (e.1 f) s = .next (if w.orphaned then haltWave (nextFresh s freshSpan) w 0x15 f.a.toNat []
        else holdWave (nextFresh s freshSpan) w .fullEmpty)) ∧
      (h.full.getLsbD n = true →
        let h' := if e.2 then h else { h with full := h.full &&& ~~~(1#8 <<< n) }
        ∃ t w', exec (e.1 f) s = .next t ∧ MemoryDone (s.putWave h') (if h.id = w.id then h' else w) 1 f.s [f.d] t w' ∧
          w'.pending = w.pending ++ [⟨[(d, row)], participants w f.g, none, []⟩] ∧
          t = { s with waves := t.waves, fresh := t.fresh }))

/-! ### Votes above the wave (R173, R175, R176) -/

namespace Sys2Proof.Machine

/-- The wave has a contributor, for a UNI vote an active thread (R173). -/
def voteClaims (m : BitVec 2) (exec : Mask) : Bool := m != 2 || exec != 0

/-- The instance goes on with another kd or mode, or a UNI contribution differs from the value so far (R176). -/
def voteClash (v : VoteState) (k : BitVec 3) (m : BitVec 2) (exec p : Mask) : Prop :=
  v.delivered ≠ [] ∧ (v.kd ≠ k ∨ v.mode ≠ m ∨ (m = 2 ∧ exec ≠ 0 ∧ v.claim = true ∧ v.value ≠ voteValue m exec p))

/-- The instance after a wave's contribution (R175). -/
def voteEntered (v : VoteState) (who : Nat) (k : BitVec 3) (m : BitVec 2) (exec p : Mask) : VoteState :=
  { v with kd := k, mode := m, given := v.given ++ [(who, voteClaims m exec, voteValue m exec p)] }

/-- What the contributions of an instance come to (R175, R176): under ANY whether some is 1, under ALL whether every one is, under UNI
the value that is claimed, 0 without a claim. -/
def VoteValues : Prop :=
  ∀ v : VoteState, v.mode ≠ 3 →
    (v.mode = 0 → (v.value = true ↔ ∃ q ∈ v.given, q.2.2 = true)) ∧ (v.mode = 1 → (v.value = true ↔ ∀ q ∈ v.given, q.2.2 = true)) ∧
    (v.mode = 2 → (v.value = true ↔ ∃ q ∈ v.given, q.2.1 = true ∧ q.2.2 = true)) ∧
    (v.claim = true ↔ ∃ q ∈ v.given, q.2.1 = true) ∧ v.delivered = v.given.map fun q => q.1

/-- VOTE at block and grid scope (R172 to R176): the wave's contribution enters the instance of its block, which makes the
block's kd pending at block scope and that of every part of its grid at grid scope (log 12 for a block that is placed again); a second
contribution to one instance waits; a clash is a scope fault. -/
def UpperVotes : Prop :=
  ∀ (k p : BitVec 3) (m : BitVec 2) (st : BitVec 3) (s : State) (w : Wave) (b : Block) (c : Standing) (g : Grid), WaveTurn s w →
    s.block? w.block = some b → waveStanding s w = some c → s.grid? b.grid = some g → m ≠ 3 → OperandsReady w [] [] →
    ¬ voteSplit m w.exec (predMask w p) → (∀ q ∈ s.partsOf g, s.grid? q.id = some q) →
    (w.index ∈ b.votes.delivered → exec (.vote k p 2 m st) s = .next (holdWave (nextFresh s freshSpan) w .vote)) ∧
    (w.index ∈ b.gvotes.delivered ∨ g.votes.number < b.gvotes.number →
      exec (.vote k p 3 m st) s = .next (holdWave (nextFresh s freshSpan) w .vote)) ∧
    (w.index ∉ b.votes.delivered →
      (voteClash b.votes k m w.exec (predMask w p) →
        exec (.vote k p 2 m st) s = .next (haltWave (nextFresh s freshSpan) w 0x11 p.toNat [])) ∧
      (¬ voteClash b.votes k m w.exec (predMask w p) →
        ∃ t w', exec (.vote k p 2 m st) s = .next t ∧ MemoryDone s { w with voteCount := w.voteCount + 1 } 1 st [] t w' ∧
          w'.pending = w.pending ∧ t = { s with waves := t.waves, blocks := t.blocks, fresh := t.fresh } ∧
          OtherBlocks s t b.id ∧ t.block? b.id = some { b with
            votes := voteEntered b.votes w.index k m w.exec (predMask w p), kPending := b.kPending ||| (1#8 <<< k.toNat) })) ∧
    (w.index ∉ b.gvotes.delivered → b.gvotes.number ≤ g.votes.number →
      (voteClash b.gvotes k m w.exec (predMask w p) →
        exec (.vote k p 3 m st) s = .next (haltWave (nextFresh s freshSpan) w 0x11 p.toNat [])) ∧
      (¬ voteClash b.gvotes k m w.exec (predMask w p) →
        ∃ t w', exec (.vote k p 3 m st) s = .next t ∧ MemoryDone s { w with gvoteCount := w.gvoteCount + 1 } 1 st [] t w' ∧
          w'.pending = w.pending ∧ t = { s with waves := t.waves, blocks := t.blocks, grids := t.grids, fresh := t.fresh } ∧
          OtherBlocks s t b.id ∧
          t.block? b.id = some { b with gvotes := voteEntered b.gvotes w.index k m w.exec (predMask w p) } ∧
          ∀ j, t.grid? j = (s.grid? j).map fun q =>
            if b.gvotes.number = g.votes.number ∧ q ∈ s.partsOf g then { q with kPending := q.kPending ||| (1#8 <<< k.toNat) } else q))

/-- Votes at wave, block and grid scope (R172 to R176). -/
def VoteWords : Prop := WaveVotes ∧ UpperVotes ∧ VoteValues

/-! ### Sequencer loads and stores (R139) -/

/-- No predicate of the context's watch bank is enabled (R352). -/
def Unwatched (s : State) (ctx : Nat) : Prop := ∀ c, s.ctx? ctx = some c → ∀ p ∈ c.watch, p.enabled = false

/-- The address of SLDG and SSTG is legal, and its doubleword translates to an unchecked page with good bytes. -/
structure SeqAccess (s : State) (c : Context) (isle : Nat) (a : Dword) (k : Access) (p : Place) : Prop where
  canonical : canonical a = true
  aligned   : a.toNat % 8 = 0
  found     : translate s c isle a k = .ok p
  unchecked : placeChecked p = false
  good      : farBad s p.loc 8 = false

/-- The address: the base register and eight times the index. -/
def seqTarget (base : Dword) (i : BitVec 6) : Dword := BitVec.ofNat 64 (base.toNat + 8 * i.toNat)

/-- The doubleword of a place. -/
def dwordAt (s : State) (p : Place) : Dword := BitVec.ofNat 64 (leNat (readLoc s p.loc 8))

/-- A doubleword has been stored, lowest byte first, and no other byte of the three memories has changed. -/
def StoredDword (s t : State) (l : Loc) (v : Dword) : Prop :=
  ∀ sp x, readByte (spaceOf t sp) x =
    if sp = l.space ∧ l.addr ≤ x ∧ x < l.addr + 8 then BitVec.ofNat 8 (v.toNat / 2 ^ (8 * (x - l.addr)))
    else readByte (spaceOf s sp) x

/-- SLDG at each scope: the doubleword goes to the register; address faults trap a wave and halt a sequencer (R139). -/
def SequencerLoads : Prop :=
  ∀ (c : BitVec 3) (d a : BitVec 5) (i : BitVec 6), staticLegal (.sldg c d a i) = true →
    (c = 1 → ∀ (s : State) (w : Wave) (b : Block) (st : Standing) (p : Place), WaveSeqTurn s w → WaveSized w →
      s.block? w.block = some b → waveStanding s w = some st → watchOn s w = none → Unwatched s b.ctx →
      let addr := seqTarget (seqReg w a.toNat) i
      (canonical addr = false → exec (.sldg c d a i) s = .next (takeTrap s w 1)) ∧
      (canonical addr = true → addr.toNat % 8 ≠ 0 → exec (.sldg c d a i) s = .next (takeTrap s w 2)) ∧
      (SeqAccess s st.ctx st.isle addr .load p → ∃ t w', exec (.sldg c d a i) s = .next t ∧ t.wave? w.id = some w' ∧
        OtherWaves s t w.id ∧ t = { s with waves := t.waves, cached := t.cached } ∧ WroteS w w' d.toNat (dwordAt s p))) ∧
    (c = 2 → ∀ (s : State) (b : Block) (x : Context) (p : Place), BlockTurn s b → BlockSized b → s.ctx? b.ctx = some x →
      Unwatched s b.ctx →
      let addr := seqTarget (b.b.getD a.toNat 0) i
      (canonical addr = false → exec (.sldg c d a i) s = .next (haltBlock s b 1 0 [])) ∧
      (canonical addr = true → addr.toNat % 8 ≠ 0 → exec (.sldg c d a i) s = .next (haltBlock s b 2 0 [])) ∧
      (SeqAccess s x b.isle addr .load p → ∃ t b', exec (.sldg c d a i) s = .next t ∧ t.block? b.id = some b' ∧
        OtherBlocks s t b.id ∧ t = { s with blocks := t.blocks, cached := t.cached } ∧ WroteB b b' d.toNat (dwordAt s p))) ∧
    (c = 3 → ∀ (s : State) (g : Grid) (x : Context) (p : Place), GridTurn s g → g.g.length = 16 → s.ctx? g.ctx = some x →
      Unwatched s g.ctx →
      let addr := seqTarget (g.g.getD a.toNat 0) i
      (canonical addr = false → exec (.sldg c d a i) s = .next (haltGrid s g 1 0)) ∧
      (canonical addr = true → addr.toNat % 8 ≠ 0 → exec (.sldg c d a i) s = .next (haltGrid s g 2 0)) ∧
      (SeqAccess s x g.isle addr .load p → ∃ t g', exec (.sldg c d a i) s = .next t ∧ t.grid? g.id = some g' ∧
        OtherGrids s t g.id ∧ t = { s with grids := t.grids, cached := t.cached } ∧ WroteG g g' d.toNat (dwordAt s p)))

/-- SSTG at each scope: the register is stored and the agent's block is no longer idempotent (R139, R234). -/
def SequencerStores : Prop :=
  ∀ (c : BitVec 3) (d a : BitVec 5) (i : BitVec 6), staticLegal (.sstg c d a i) = true →
    (c = 1 → ∀ (s : State) (w : Wave) (b : Block) (st : Standing) (p : Place), WaveSeqTurn s w → MemoriesWf s →
      s.block? w.block = some b → waveStanding s w = some st → watchOn s w = none → Unwatched s b.ctx →
      SeqAccess s st.ctx st.isle (seqTarget (seqReg w a.toNat) i) .store p →
      ∃ t, exec (.sstg c d a i) s = .next t ∧ t.wave? w.id = some { w with pc := w.pc + 4, phase := .ready } ∧
        OtherWaves s t w.id ∧ t.block? b.id = some { b with idem := false } ∧ OtherBlocks s t b.id ∧
        t = { s with waves := t.waves, blocks := t.blocks, cached := t.cached, hbm := t.hbm, peer := t.peer, host := t.host } ∧
        StoredDword s t p.loc (seqReg w d.toNat)) ∧
    (c = 2 → ∀ (s : State) (b : Block) (x : Context) (p : Place), BlockTurn s b → MemoriesWf s → s.ctx? b.ctx = some x → Unwatched s b.ctx →
      SeqAccess s x b.isle (seqTarget (b.b.getD a.toNat 0) i) .store p →
      ∃ t, exec (.sstg c d a i) s = .next t ∧ OtherBlocks s t b.id ∧
        t.block? b.id = some { b with idem := false, pc := b.pc + 4, phase := .ready } ∧
        t = { s with blocks := t.blocks, cached := t.cached, hbm := t.hbm, peer := t.peer, host := t.host } ∧
        StoredDword s t p.loc (b.b.getD d.toNat 0)) ∧
    (c = 3 → ∀ (s : State) (g : Grid) (x : Context) (p : Place), GridTurn s g → MemoriesWf s → s.ctx? g.ctx = some x → Unwatched s g.ctx →
      SeqAccess s x g.isle (seqTarget (g.g.getD a.toNat 0) i) .store p →
      ∃ t, exec (.sstg c d a i) s = .next t ∧ OtherGrids s t g.id ∧
        t.grid? g.id = some { g with pc := g.pc + 4, phase := .ready } ∧
        t = { s with grids := t.grids, cached := t.cached, hbm := t.hbm, peer := t.peer, host := t.host } ∧
        StoredDword s t p.loc (g.g.getD d.toNat 0))

end Sys2Proof.Machine

/-- SLDG and SSTG at each scope (R139). -/
def Obligations.SequencerMemory : Prop := SequencerLoads ∧ SequencerStores

/-! ### Runs (R105 to R108, R113, R250) -/

namespace Sys2Proof.Machine

/-- RUN: the whole run is fetched and checked before the wave enters it; it waits while an awaited tag is outstanding; the
temporaries read zero in it. A run that does not end in an ENDR, is too long, or declares more than four temporaries in the
trap handler is illegal. -/
def Runs : Prop :=
  ∀ (n l : BitVec 5) (a : BitVec 8) (s : State) (w : Wave) (st : Standing) (ws : List Word), WaveSeqTurn s w → n.toNat ≤ 8 →
    waveStanding s w = some st → ws.length = l.toNat + 2 →
    (∀ j, j < l.toNat + 2 → ∃ x, ws[j]? = some x ∧
      fetchWord s st.ctx st.isle (w.pc + BitVec.ofNat 64 (4 * (j + 1))) = .ok x ∧
      fetchBad s st.ctx st.isle (w.pc + BitVec.ofNat 64 (4 * (j + 1))) = false) →
    let legal := (w.tcode ≠ 0 → n.toNat ≤ 4) ∧ (ws.getD (l.toNat + 1) 0).toNat / 2 ^ 24 = 0x9F ∧
      (ws.take (l.toNat + 1)).countP (fun x => !isTx x) ≤ 24
    let awaits := ∃ j, j < 8 ∧ a.getLsbD j = true ∧ tagOutstanding w j = true
    (¬ legal → exec (.run n l a) s = .next (haltWave s w 0x10 0 [])) ∧
    (legal → ∃ t w', exec (.run n l a) s = .next t ∧ WaveStep s t w w' ∧
      (∀ j, j < 8 → w'.tags.getLsbD j = tagOutstanding w j ∧ tagOutstanding w' j = tagOutstanding w j) ∧
      (awaits → w' = { w with phase := .held .await, tags := w'.tags, tagRegs := w'.tagRegs }) ∧
      (¬ awaits → w' = { w with run := some ⟨w.pc, l.toNat + 1, n.toNat, ws⟩, t := List.replicate 8 (.g (List.replicate 64 0)),
                                inflight := [], pc := w.pc + 4, phase := .ready, tags := w'.tags, tagRegs := w'.tagRegs }))

/-- The registers that the three slots of an ENDR publish (R106). -/
def publishes (a b c : BitVec 7) : List Reg :=
  [a, b, c].filterMap fun x => if x.getLsbD 6 then some (Reg.v (x.toNat % 64)) else none

/-- ENDR at its run's trailer: every result on its way is written and the wave leaves the run; if it publishes, its tag is
outstanding while a published register is pending (R106, R107, R113, R250). Elsewhere it is illegal. -/
def RunEnds : Prop :=
  ∀ (n : BitVec 3) (a b c : BitVec 7) (s : State) (w : Wave), WaveTurn s w →
    (∀ r, w.run = some r → w.pc = r.header + BitVec.ofNat 64 (4 * (r.words + 1)) → staticLegal (.endr n a b c) = true →
      ∃ t w', exec (.endr n a b c) s = .next t ∧ WaveStep s t w w' ∧ w'.inflight = [] ∧
        { w' with v := w.v, t := w.t, tv := w.tv, bad := w.bad, inflight := w.inflight, tags := w.tags, tagRegs := w.tagRegs } =
          { w with run := none, pc := w.pc + 4, phase := .ready } ∧
        (∀ x, readReg w' x = settled w x) ∧
        ∀ j, j < 8 → tagOutstanding w' j =
          if publishes a b c ≠ [] ∧ j = n.toNat then
            (publishes a b c).any (regPending w) || w.tagRegs.any fun e => e.1 == j && e.2.any (regPending w)
          else tagOutstanding w j) ∧
    (w.run = none → exec (.endr n a b c) s = .next (haltWave s w 0x10 0 [])) ∧
    ∀ r, w.run = some r → w.pc ≠ r.header + BitVec.ofNat 64 (4 * (r.words + 1)) →
      exec (.endr n a b c) s = .next (haltWave s w 0x10 0 [])

end Sys2Proof.Machine

/-- RUN and ENDR (R105 to R108, R113, R250). -/
def Obligations.RunWords : Prop := Runs ∧ RunEnds

/-! ### Exits, YIELD, ACQ (R214, R218, R219, R230, R251, R256, R257) -/

namespace Sys2Proof.Machine

/-- What remains of a block's tokens once a wave has exited (R219). -/
def tokensWithout (ws : List Wave) (id : Nat) (ts : List Token) : List Token :=
  ts.filter fun x => ws.any fun w => w.id != id && w.phase != .exited && seqAfter x.seq w.lastSeq

/-- EXIT.W (R219, R224, R251): with HALTED set the wave is held at the EXIT; otherwise, once its copies have landed, every
result is written, its stacks are discarded and it has exited, and only its block's tokens and barriers, the partner that takes over
its shared range, and a launch whose last halted wave it was (R362), see that. -/
def WaveExit : Prop :=
  ∀ (s : State) (w : Wave), WaveSeqTurn s w →
    (w.halted ≠ 0 → ∃ t, exec (.exit 1) s = .next t ∧ WaveStep s t w { w with phase := .exiting }) ∧
    ∀ (s1 : State) (w1 : Wave) (b : Block) (g : Grid), w.halted = 0 → s1 = landCopies s w.id w.copies.length →
      s1.wave? w.id = some w1 → s1.block? w.block = some b → s1.grid? b.grid = some g →
      (w.copies = [] ∨ ctxHalted s1 b.ctx = false) → w1.id = w.id → w1.block = w.block → w1.index = w.index →
      (∀ x ∈ s1.waves, s1.wave? x.id = some x) →
      ∃ t w' b', exec (.exit 1) s = .next t ∧ t.wave? w.id = some w' ∧
        w'.phase = .exited ∧ w'.pending = [] ∧ w'.inflight = [] ∧ w'.run = none ∧ w'.masks = [] ∧ w'.loops = [] ∧
        w'.calls = [] ∧ w'.regions = [] ∧ w'.s = w1.s ∧ w'.p = w1.p ∧ w'.pc = w1.pc ∧
        t.block? w.block = some b' ∧ OtherBlocks s1 t w.block ∧ b' = { b with tokens := b'.tokens, bars := b'.bars } ∧
        b'.tokens = tokensWithout (s1.wavesOf w.block) w.id b.tokens ∧
        (∀ j, j ≠ w.id → (t.wave? j).map (fun x => { x with v := [], full := 0, orphaned := false }) =
          (s1.wave? j).map fun x => { x with v := [], full := 0, orphaned := false }) ∧
        t = { s1 with waves := t.waves, blocks := t.blocks, launches := t.launches } ∧
        (∀ j, (t.launch? j).map (fun x => { x with frozen := false }) = (s1.launch? j).map fun x => { x with frozen := false }) ∧
        ∀ j, (waveLaunch s1 w1 ≠ some j ∨ ∃ x ∈ s1.waves, x.id ≠ w.id ∧ waveLaunch s1 x = some j ∧ x.phase ≠ .exited ∧
          x.haltedWave = true) → t.launch? j = s1.launch? j

/-- EXIT.B and EXIT.G push an END token, and YIELD goes on unless the scheduler has asked its agent to stop (R214, R251, R256). -/
def SequencerExits : Prop :=
  (∀ (s : State) (b : Block) (g : Grid), BlockTurn s b → s.grid? b.grid = some g → b.tokens.length < 4 →
    ∃ t b', exec (.exit 2) s = .next t ∧ t.block? b.id = some b' ∧ b'.phase = .exited ∧ b'.loops = [] ∧ b'.calls = [] ∧
      b'.tokens = pushedTokens s b ⟨b.pc + 4, b.pc, b.tk0, b.tk1, b.nextSeq, true, false⟩ ∧ b'.nextSeq = b.nextSeq + 1 ∧
      b' = { b with phase := .exited, pc := b.pc + 4, loops := [], calls := [], tokens := b'.tokens, nextSeq := b'.nextSeq,
                    bars := b'.bars, arrivals := b'.arrivals } ∧
      (∀ j, j ≠ b.id → (t.block? j).map (fun x => { x with arrivals := 0 }) =
        (s.block? j).map fun x => { x with arrivals := 0 }) ∧
      t = { s with blocks := t.blocks, grids := t.grids, groups := t.groups } ∧ OtherGrids s t g.id ∧
      ∃ g', t.grid? g.id = some g' ∧ g' = { g with tokens := g'.tokens } ∧ ∀ x ∈ g'.tokens, x ∈ g.tokens) ∧
  (∀ (s : State) (b : Block), BlockTurn s b → 4 ≤ b.tokens.length → exec (.exit 2) s = .next (holdBlock s b .token)) ∧
  (∀ (s : State) (g : Grid), GridTurn s g → g.tokens.length < 8 →
    ∃ t, exec (.exit 3) s = .next t ∧ GridStep s t g
      { g with phase := .exited, pc := g.pc + 4, loops := [], calls := [], nextSeq := g.nextSeq + 1,
               tokens := pushedGridTokens s g ⟨g.pc + 4, g.pc, 0, 0, g.nextSeq, true, false⟩ }) ∧
  (∀ (s : State) (w : Wave), WaveSeqTurn s w →
    ∃ t, exec (.yield 1) s = .next t ∧ WaveStep s t w { w with pc := w.pc + 4, phase := if w.preq then .stopped else .ready }) ∧
  ∀ (s : State) (b : Block) (c : Context), BlockTurn s b → s.ctx? b.ctx = some c →
    ∃ t, exec (.yield 2) s = .next t ∧
      BlockStep s t b { b with pc := b.pc + 4, phase := if c.preempting then .stopped else .ready }

end Sys2Proof.Machine

/-- Exits at each scope, and YIELD (R214, R219, R251, R256). -/
def Obligations.Exits : Prop := WaveExit ∧ SequencerExits

/-- ACQ.B (R230, R257): one that comes after the full allotment only emits its token; the first takes the full allotment where
the core has room: the scratchpad's first bytes stay, the accumulator rows read zero, and the remaining waves stand at the next
word with the ACQ's token consumed; without room it waits. -/
def Obligations.Acquires : Prop :=
  ∀ (s : State) (b : Block), BlockTurn s b → b.tokens.length < 4 →
    let token : Token := ⟨b.pc + 4, b.pc, b.tk0, b.tk1, b.nextSeq, false, false⟩
    (b.acqDone = true → ∃ t, exec .acq s = .next t ∧ BlockStep s t b
      { b with pc := b.pc + 4, phase := .ready, nextSeq := b.nextSeq + 1, tokens := pushedTokens s b token }) ∧
    ∀ g, b.acqDone = false → s.grid? b.grid = some g →
      (acqRoom s b g = none → exec .acq s = .next (holdBlock s b .acq)) ∧
      ∀ a, acqRoom s b g = some a → ∃ t b', exec .acq s = .next t ∧ t.block? b.id = some b' ∧ OtherBlocks s t b.id ∧
        b' = { b with pc := b.pc + 4, phase := .ready, nextSeq := b.nextSeq + 1, tokens := pushedTokens s b token,
                      firstGran := a.gran, granules := a.grans, accFirst := a.acc, accRows := a.accs, acc := [],
                      acqDone := true, acqSeq := b.nextSeq } ∧
        t = { s with blocks := t.blocks, grids := t.grids, waves := t.waves, nextId := t.nextId } ∧
        t.waves.length = s.waves.length + a.lanes.length ∧ t.waves.take s.waves.length = s.waves ∧
        (∀ w ∈ t.waves.drop s.waves.length, w.block = b.id ∧ w.pc = b.pc + 4 ∧ w.lastSeq = b.nextSeq ∧ w.phase = .ready) ∧
        OtherGrids s t g.id ∧ t.grid? g.id = some { g with reserved := g.reserved.filter fun r => r.1 ≠ b.index }

/-! ### Regions and traps (R258 to R260, R329) -/

/-- ENTER and LEAVE (R258): their words; the region stack holds eight, newest first. -/
def Obligations.Regions : Prop :=
  SeqWords 0x35 (fun c i x => ∃ a : BitVec 5, c = 1 ∧ i = .enter a ∧ x = a.toNat * 2 ^ 11) ∧
  SeqWords 0x36 (fun c i x => c = 1 ∧ i = .leave ∧ x = 0) ∧
  ∀ (a : BitVec 5) (s : State) (w : Wave), WaveSeqTurn s w →
    (w.regions.length < 8 → ∃ t, exec (.enter a) s = .next t ∧ WaveStep s t w
      { w with regions := BitVec.ofNat 16 (seqReg w a.toNat).toNat :: w.regions, pc := w.pc + 4, phase := .ready }) ∧
    (8 ≤ w.regions.length → exec (.enter a) s = .next (haltWave s w 0x10 0 [])) ∧
    (∀ r rs, w.regions = r :: rs → ∃ t, exec .leave s = .next t ∧ WaveStep s t w
      { w with regions := rs, pc := w.pc + 4, phase := .ready }) ∧
    (w.regions = [] → exec .leave s = .next (haltWave s w 0x10 0 []))

namespace Sys2Proof.Machine

/-- A wave has taken a trap: it changed, its context's fault log has the code with the trapping word, and nothing else (R327, R344). -/
structure TrapTaken (s t : State) (st : Standing) (code : Nat) (w w' : Wave) : Prop where
  here     : t.wave? w.id = some w'
  others   : OtherWaves s t w.id
  rest     : t = { s with waves := t.waves, contexts := t.contexts }
  log      : t.ctx? st.ctx.index = some { st.ctx with log := st.ctx.log ++ [⟨32 * st.isle + st.core, [], code, 0, 0, false, st.slot, w.pc⟩] }
  contexts : ∀ i, i ≠ st.ctx.index → t.ctx? i = s.ctx? i

end Sys2Proof.Machine

/-- TRAP and TRET (R260): their words. TRAP.W enters the handler: EPC is the word after it, TCAUSE is 0xC0 and its code, the pc
the handler's, and the fault log has the code (R327); without a handler the context halts; in the handler it is illegal. TRET goes
back to EPC with TCAUSE 0, and is illegal elsewhere. -/
def Obligations.TrapWords : Prop :=
  SeqWords 0x37 (fun c i y => ∃ x : BitVec 6, c = 1 ∧ i = .trap x ∧ y = x.toNat) ∧
  SeqWords 0x38 (fun c i y => c = 1 ∧ i = .tret ∧ y = 0) ∧
  ∀ (x : BitVec 6) (s : State) (w : Wave), WaveSeqTurn s w →
    (∀ st, waveStanding s w = some st → w.tcode = 0 → w.tba ≠ 0 → ∃ t, exec (.trap x) s = .next t ∧
      TrapTaken s t st (0xC0 + x.toNat) w
        { w with epc := w.pc + 4, tcode := BitVec.ofNat 8 (0xC0 + x.toNat), treg := 0, pc := BitVec.ofNat 64 (4 * w.tba.toNat),
                 phase := .ready }) ∧
    (w.tcode = 0 → w.tba = 0 → exec (.trap x) s = .next (haltWave s w 0x18 (0xC0 + x.toNat) [])) ∧
    (w.tcode ≠ 0 → exec (.trap x) s = .next (haltWave s w 0x10 0 []) ∧
      ∃ t, exec .tret s = .next t ∧ WaveStep s t w { w with pc := w.epc, tcode := 0, treg := 0, phase := .ready }) ∧
    (w.tcode = 0 → exec .tret s = .next (haltWave s w 0x10 0 []))

namespace Sys2Proof.Machine

/-- A fault that traps (R259, R260, R329), as the machine takes it at a wave's word: outside a step of LSTEP, EPC is that word,
TCAUSE the cause, every result is written, the run ends, the fault log has the code (R327), and the wave goes on at the handler; in
the handler, or without one, the context halts with code 0x18. -/
def TrapEntry : Prop :=
  ∀ (s : State) (w : Wave) (code : Nat), s.wave? w.id = some w → w.stepMode = none → code < 256 →
    (∀ st, waveStanding s w = some st → w.hits = noHits → w.tcode = 0 → w.tba ≠ 0 →
      ∃ w', TrapTaken s (takeTrap s w code) st code w w' ∧ w'.inflight = [] ∧
      { w' with v := w.v, t := w.t, tv := w.tv, bad := w.bad, inflight := w.inflight } =
        { w with run := none, epc := w.pc, tcode := BitVec.ofNat 8 code, treg := 0, pc := BitVec.ofNat 64 (4 * w.tba.toNat),
                 phase := .ready, replay := none, missFailed := false } ∧
      ∀ x, readReg w' x = settled w x) ∧
    (w.tcode ≠ 0 ∨ w.tba = 0 → takeTrap s w code = haltWave s w 0x18 code [])

/-! ### Barriers, groups, copy waits (R83, R224, R225, R227, R228, R252, R254, R255, R281, R282) -/

/-- Vectors of arrival counts are compared modulo 64 (log 12). -/
def laterCount (x y : BitVec 6) : BitVec 6 := if (y - x).toNat < 32 then y else x

/-- The entrywise later of two vectors. -/
def laterVector (a b : List (BitVec 6)) : List (BitVec 6) :=
  (List.range 17).map fun i => laterCount (a.getD i 0) (b.getD i 0)

/-- A barrier after agent `idx` has arrived with its clock (R225, R281). -/
def arrivedBar (bar : Barrier) (idx : Nat) (c : Clock) : Barrier :=
  { bar with arrived := bar.arrived ||| (1#17 <<< idx), points := bar.points.set idx bar.gen,
             accum := let v := c.know.set idx (c.count + 1); if bar.arrived = 0 then v else laterVector bar.accum v }

/-- The vectors of the members of barrier n that have exited: they count as arrived (R224). -/
def goneVectors (k : Kernel) (b : Block) (ws : List Wave) (n : Nat) : List (List (BitVec 6)) :=
  ((ws.filter fun w => barMember k n w.index && w.phase == .exited).map fun w => w.clock.know.set w.index w.clock.count) ++
  if barMember k n 16 && b.phase == .exited then [b.clock.know.set 16 b.clock.count] else []

/-- Its next generation carries the latest of what its members knew (R281). -/
def advancedBar (k : Kernel) (b : Block) (ws : List Wave) (n : Nat) (bar : Barrier) : Barrier :=
  { bar with gen := bar.gen + 1, arrived := 0, carried := (goneVectors k b ws n).foldl laterVector bar.accum,
             accum := List.replicate 17 0 }

/-- Every member has arrived or exited (R224). -/
def everyoneArrived (k : Kernel) (b : Block) (ws : List Wave) (bar : Barrier) (n : Nat) : Prop :=
  ∀ j, j < 17 → barMember k n j = true → bar.arrived.getLsbD j = true ∨ agentExited b ws j = true

/-- The block's barriers after an arrival. -/
def BarsAfter (k : Kernel) (b : Block) (ws : List Wave) (n idx : Nat) (c : Clock) (bars : List Barrier) : Prop :=
  let bar := arrivedBar (b.bars.getD n newBarrier) idx c
  (everyoneArrived k b ws bar n → bars = b.bars.set n (advancedBar k b ws n bar)) ∧
  (¬ everyoneArrived k b ws bar n → bars = b.bars.set n bar)

/-- A WAIT on barrier n goes on: another generation, or every member has exited (R224, R225). -/
def waitGoesOn (k : Kernel) (b : Block) (ws : List Wave) (n idx : Nat) : Prop :=
  (b.bars.getD n newBarrier).gen ≠ (b.bars.getD n newBarrier).points.getD idx 0 ∨
  ∀ j, j < 17 → barMember k n j = true → agentExited b ws j = true

/-- The wait point moves to the generation. -/
def waitedBar (bar : Barrier) (idx : Nat) : Barrier := { bar with points := bar.points.set idx bar.gen }

end Sys2Proof.Machine

/-- ARRIVE and WAIT of waves on the sixteen barriers, and of the block sequencer (R224 to R226, R252, R281). -/
def Obligations.Barriers : Prop :=
  (∀ (f : BitVec 6) (s : State) (w : Wave) (b : Block) (g : Grid), WaveSeqTurn s w → s.block? w.block = some b →
    s.grid? b.grid = some g → f.toNat < 16 → w.index < 16 →
    let bar := b.bars.getD f.toNat newBarrier
    (barMember g.kernel f.toNat w.index = false → exec (.arrive 1 f) s = .next (haltWave s w 0x10 0 [])) ∧
    (barMember g.kernel f.toNat w.index = true → bar.arrived.getLsbD w.index = true →
      exec (.arrive 1 f) s = .next (holdWave s w (.barrier f.toNat))) ∧
    (barMember g.kernel f.toNat w.index = true → bar.arrived.getLsbD w.index = false →
      ∃ t b', exec (.arrive 1 f) s = .next t ∧ OtherWaves s t w.id ∧ OtherBlocks s t b.id ∧ t.block? b.id = some b' ∧
        t = { s with waves := t.waves, blocks := t.blocks } ∧ b' = { b with bars := b'.bars } ∧
        BarsAfter g.kernel b (s.wavesOf b.id) f.toNat w.index w.clock b'.bars ∧
        t.wave? w.id = some { w with pc := w.pc + 4, phase := .ready, clock := { w.clock with count := w.clock.count + 1 } }) ∧
    (¬ waitGoesOn g.kernel b (s.wavesOf b.id) f.toNat w.index →
      exec (.wait 1 f) s = .next (holdWave s w (.barrier f.toNat))) ∧
    (waitGoesOn g.kernel b (s.wavesOf b.id) f.toNat w.index →
      ∃ t, exec (.wait 1 f) s = .next t ∧ OtherWaves s t w.id ∧ OtherBlocks s t b.id ∧
        t = { s with waves := t.waves, blocks := t.blocks } ∧
        t.block? b.id = some { b with bars := b.bars.set f.toNat (waitedBar bar w.index) } ∧
        t.wave? w.id = some { w with pc := w.pc + 4, phase := .ready,
                                     clock := { w.clock with know := laterVector w.clock.know bar.carried } })) ∧
  ∀ (f : BitVec 6) (s : State) (b : Block) (g : Grid), BlockTurn s b → s.grid? b.grid = some g → f.toNat < 16 →
    let bar := b.bars.getD f.toNat newBarrier
    (barMember g.kernel f.toNat 16 = true → bar.arrived.getLsbD 16 = false →
      ∃ t bars, exec (.arrive 2 f) s = .next t ∧ BarsAfter g.kernel b (s.wavesOf b.id) f.toNat 16 b.clock bars ∧
        BlockStep s t b { b with pc := b.pc + 4, phase := .ready, bars := bars,
                                 clock := { b.clock with count := b.clock.count + 1 } }) ∧
    (waitGoesOn g.kernel b (s.wavesOf b.id) f.toNat 16 →
      ∃ t, exec (.wait 2 f) s = .next t ∧ BlockStep s t b
        { b with pc := b.pc + 4, phase := .ready, bars := b.bars.set f.toNat (waitedBar bar 16),
                 clock := { b.clock with know := laterVector b.clock.know bar.carried } })

namespace Sys2Proof.Machine

/-- A GRPSET waits at entry e in some part, and the generation for which it waited is over (R228). -/
def changeDue (s : State) (g : Grid) (e : Nat) : Prop :=
  (∃ p ∈ s.partsOf g, p.barred = some e) ∧ ∀ p ∈ s.partsOf g, (s.groupEntry p e).arrv = 0

/-- The block of index idx in a part, placed or not, and its group slots (R253). -/
def blockOf (s : State) (p : Grid) (idx : Nat) : Option Block := (s.blocksOf p.id).find? fun b => b.index == idx

def memberGroups (s : State) (p : Grid) (idx : Nat) : List (BitVec 8) :=
  match blockOf s p idx with
  | some k => k.groups
  | none => blockGroups p idx

/-- What a GRPSET of grid g does to entry e in part p of its gang (R228, R254): the block of index idx joins it with an empty slot l,
or leaves it with the slot that holds it; MEMB follows unless the block has exited, and a block that joins starts at the present
generation; a slot that holds another entry stays. -/
structure PartChanged (s t : State) (g p : Grid) (e idx l : Nat) (add : Bool) : Prop where
  entry : t.groupEntry p e =
    let x := s.groupEntry p e
    let live := if (blockOf s p idx).any fun k => k.phase == .exited then 0 else 1
    if add = true ∧ (memberGroups s p idx).getD l 0 = 0 then { x with memb := x.memb + live }
    else if add = false ∧ ((memberGroups s p idx).getD l 0).toNat = e then { x with memb := x.memb - live }
    else x
  block : ∀ k, blockOf s p idx = some k → t.block? k.id = some
    (if add = true ∧ k.groups.getD l 0 = 0 then
      { k with groups := k.groups.set l (BitVec.ofNat 8 e), points := k.points.set l (s.groupEntry p e).gen }
    else if add = false ∧ (k.groups.getD l 0).toNat = e then { k with groups := k.groups.set l 0 } else k)
  grid : ∃ p', t.grid? p.id = some p' ∧
    (p.id = g.id → p' = { p with slotSets := p'.slotSets, pc := p.pc + 4, phase := .ready, barred := none }) ∧
    (p.id ≠ g.id → p' = { p with slotSets := p'.slotSets }) ∧
    (∀ i, i ≠ idx → blockGroups p' i = blockGroups p i) ∧
    (add = true → (memberGroups s p idx).getD l 0 = 0 → blockGroups p' idx = (memberGroups s p idx).set l (BitVec.ofNat 8 e)) ∧
    (add = false → ((memberGroups s p idx).getD l 0).toNat = e → blockGroups p' idx = (memberGroups s p idx).set l 0)

/-- The grids, blocks and group entries of the parts of a gang are distinct; no run leaves this. -/
structure PartsApart (s : State) (g : Grid) (e : Nat) : Prop where
  grids  : ∀ p ∈ s.partsOf g, s.grid? p.id = some p
  blocks : ∀ p ∈ s.partsOf g, ∀ k ∈ s.blocksOf p.id, s.block? k.id = some k
  keys   : ∀ p ∈ s.partsOf g, ∀ q ∈ s.partsOf g, p.id ≠ q.id → 256 * p.isle + p.gbase + e ≠ 256 * q.isle + q.gbase + e
  table  : mapWf emptyGroup s.groups = true

end Sys2Proof.Machine

/-- ARRIVE and WAIT on the grid barrier and on groups (R227, R229, R236, R252): an arrival counts in the isle's entry, whose
generation advances once every member of every part has arrived. GRPSET (R228, R254) waits while members have arrived, no member
arrives before its change, and it changes the entry in every part of a gang; the slot of the issuing part's block decides the
access fault (log 12). -/
def Obligations.Groups : Prop :=
  (∀ (f : BitVec 6) (s : State) (b : Block) (g : Grid) (e j : Nat), BlockTurn s b → s.grid? b.grid = some g →
    legalBarrier 2 f = true → 16 ≤ f.toNat →
    (groupOf b f = none → exec (.arrive 2 f) s = .next (haltBlock s b 6 0 []) ∧
      exec (.wait 2 f) s = .next (haltBlock s b 6 0 [])) ∧
    (groupOf b f = some (e, j) →
      let x := s.groupEntry g e
      let s1 := (s.putBlock { b with pc := b.pc + 4, phase := .ready, arrivals := b.arrivals ||| (1#5 <<< j),
                                     points := b.points.set j x.gen }).putGroup g e { x with arrv := x.arrv + 1 }
      (b.arrivals.getLsbD j = true ∨ changeDue s g e → exec (.arrive 2 f) s = .next (holdBlock s b (.group e))) ∧
      (b.arrivals.getLsbD j = false → ¬ changeDue s g e →
        exec (.arrive 2 f) s = .next (if groupComplete s1 g e then advanceGroup s1 g e else s1)) ∧
      (x.gen = b.points.getD j 0 → exec (.wait 2 f) s = .next (holdBlock s b (.group e))) ∧
      (x.gen ≠ b.points.getD j 0 → ∃ t, exec (.wait 2 f) s = .next t ∧ BlockStep s t b
        { b with pc := b.pc + 4, phase := .ready, points := b.points.set j x.gen,
                 epochSeen := if j = 4 then x.gen else b.epochSeen }))) ∧
  (∀ (s : State) (g : Grid), GridTurn s g →
    let x := s.groupEntry g 0
    let s1 := (s.putGrid { g with pc := g.pc + 4, phase := .ready, point := x.gen }).putGroup g 0 { x with garr := true }
    (x.gseq = false → exec (.arrive 3 0) s = .next (haltGrid s g 0x10 0)) ∧
    (x.gseq = true → x.garr = true → exec (.arrive 3 0) s = .next (holdGrid s g (.group 0))) ∧
    (x.gseq = true → x.garr = false →
      exec (.arrive 3 0) s = .next (if groupComplete s1 g 0 then advanceGroup s1 g 0 else s1)) ∧
    (x.gen = g.point → exec (.wait 3 0) s = .next (holdGrid s g (.group 0))) ∧
    (x.gen ≠ g.point → ∃ t, exec (.wait 3 0) s = .next t ∧ GridStep s t g
      { g with pc := g.pc + 4, phase := .ready, point := x.gen })) ∧
  ∀ (a b : BitVec 5) (l : BitVec 2) (x : BitVec 1) (s : State) (g : Grid), GridTurn s g → staticLegal (.grpset a b l x) = true →
    let e := (g.g.getD a.toNat 0).toNat % 256
    let idx := (g.g.getD b.toNat 0).toNat % 2 ^ 20
    let held := ((memberGroups s g idx).getD l.toNat 0).toNat
    (e = 0 ∨ g.runLen ≤ e ∨ g.nblk ≤ idx → exec (.grpset a b l x) s = .next (haltGrid s g 6 0)) ∧
    (e ≠ 0 → e < g.runLen → idx < g.nblk →
      ((∃ p ∈ s.partsOf g, (s.groupEntry p e).arrv ≠ 0) →
        exec (.grpset a b l x) s = .next (holdGrid s { g with barred := some e } .grpset)) ∧
      ((∀ p ∈ s.partsOf g, (s.groupEntry p e).arrv = 0) →
        ((x = 1 ∧ held ≠ 0 ∧ held ≠ e) ∨ (x = 0 ∧ held ≠ e) →
          exec (.grpset a b l x) s = .next (haltGrid s { g with barred := none } 6 0)) ∧
        ((x = 1 ∧ (held = 0 ∨ held = e)) ∨ (x = 0 ∧ held = e) → PartsApart s g e →
          ∃ t, exec (.grpset a b l x) s = .next t ∧ t = { s with blocks := t.blocks, grids := t.grids, groups := t.groups } ∧
            (∀ p ∈ s.partsOf g, PartChanged s t g p e idx l.toNat (x == 1)) ∧
            (∀ k, (∀ p ∈ s.partsOf g, k ≠ 256 * p.isle + p.gbase + e) → mapGet emptyGroup t.groups k = mapGet emptyGroup s.groups k) ∧
            (∀ i, (∀ p ∈ s.partsOf g, p.id ≠ i) → t.grid? i = s.grid? i) ∧
            ∀ i, (∀ p ∈ s.partsOf g, ∀ k, blockOf s p idx = some k → k.id ≠ i) → t.block? i = s.block? i)))

/-- CPWAIT waits while its tag counts copies, then restamps their words as the wave's writes and disarms them (R83, R137, R282).
FLAGSET flags a tile of the block's output queue once, and releases those of its checked granules whose last write is ordered before
it in the block sequencer (R255, R278, R283). -/
def Obligations.TagAndTileWords : Prop :=
  (∀ (tag : BitVec 3) (s : State) (w : Wave) (b : Block), WaveSeqTurn s w → s.block? w.block = some b →
    mapWf 0 b.tags = true → w.index < 16 →
    (w.tagCounts.getD tag.toNat 0 ≠ 0 → exec (.cpwait tag) s = .next (holdWave s w (.cpwait tag.toNat))) ∧
    (w.tagCounts.getD tag.toNat 0 = 0 → ∃ t b', exec (.cpwait tag) s = .next t ∧ OtherWaves s t w.id ∧ OtherBlocks s t b.id ∧
      t = { s with waves := t.waves, blocks := t.blocks } ∧
      t.wave? w.id = some { w with pc := w.pc + 4, phase := .ready,
                                   copyRanges := w.copyRanges.filter fun r => r.tag ≠ tag.toNat } ∧
      t.block? b.id = some b' ∧ b' = { b with tags := b'.tags } ∧
      ∀ x, mapGet 0 b'.tags x =
        if ∃ r ∈ w.copyRanges, r.tag = tag.toNat ∧ x ∈ wordsOf r.lo r.size then
          BitVec.ofNat 32 (w.index + 32 * w.clock.count.toNat + 2 ^ 31)
        else mapGet 0 b.tags x)) ∧
  ∀ (a : BitVec 5) (q : BitVec 3) (s : State) (b : Block) (g : Grid) (c : Context) (l : Launch), BlockTurn s b →
    s.grid? b.grid = some g → s.ctx? b.ctx = some c → s.launch? g.launch = some l →
    let tile := (b.b.getD a.toNat 0).toNat
    (∀ i x, outputQueue l g.stage q.toNat = some (i, x) → tile < 2 ^ 32 → tile < x.ntile → tile ∉ x.flagged →
      ∃ t, exec (.flagset a q) s = .next t ∧ OtherBlocks s t b.id ∧
        t.block? b.id = some { b with idem := false, pc := b.pc + 4, phase := .ready } ∧
        t = { s with blocks := t.blocks, launches := t.launches, hbm := t.hbm } ∧
        t.launch? l.id = some { l with tileQueues := l.tileQueues.set i { x with flagged := x.flagged ++ [tile] } } ∧
        t.hbm = (releaseTile s c b (x.base.toNat + tile * x.tbytes) (x.tbytes / 64)).hbm) ∧
    ((∀ i x, outputQueue l g.stage q.toNat = some (i, x) → 2 ^ 32 ≤ tile ∨ x.ntile ≤ tile ∨ tile ∈ x.flagged) →
      exec (.flagset a q) s = .next (haltBlock (s.putBlock { b with idem := false }) { b with idem := false } 6 0 []))

/-! ### Debugging words (R261 to R266, R352, R353, R362) -/

namespace Sys2Proof.Machine

/-- A debugging word's wave: its context has the debug right (R261). -/
structure DebugTurn (s : State) (w : Wave) (st : Standing) : Prop where
  turn     : WaveSeqTurn s w
  standing : waveStanding s w = some st
  right    : st.ctx.debug = true

/-- Without the debug right every debugging word is illegal (R261). WPSET installs a well-formed descriptor, its count 0 and its
arm bit clear in every wave of the context, and clears a predicate; a malformed descriptor traps (R262, R352, R353). -/
def WatchWords : Prop :=
  (∀ i ∈ ([.wpset 0 0 0, .dbgrd 0 0, .dbgwr 0 0, .lstep 0 0, .wresume 0 0 0] : List Instr), ∀ (s : State) (w : Wave)
    (st : Standing), WaveSeqTurn s w → waveStanding s w = some st → st.ctx.debug = false →
    exec i s = .next (haltWave s w 0x10 0 [])) ∧
  (∀ (n : BitVec 4) (s : State) (w : Wave) (st : Standing) (p : WatchPred), DebugTurn s w st →
    s.ctx? st.ctx.index = some st.ctx → st.ctx.watch[n.toNat]? = some p →
    ∃ t, exec (.wpset 0 1 n) s = .next t ∧ OtherWaves s t w.id ∧
      t.wave? w.id = some { w with pc := w.pc + 4, phase := .ready } ∧ t = { s with waves := t.waves, contexts := t.contexts } ∧
      t.ctx? st.ctx.index = some { st.ctx with watch := st.ctx.watch.set n.toNat { p with enabled := false } } ∧
      ∀ i, i ≠ st.ctx.index → t.ctx? i = s.ctx? i) ∧
  ∀ (a : BitVec 5) (n : BitVec 4) (s : State) (w : Wave) (b : Block) (st : Standing) (p : Place), DebugTurn s w st →
    s.ctx? st.ctx.index = some st.ctx → s.block? w.block = some b → b.ctx = st.ctx.index →
    let addr := seqReg w a.toNat
    let d := descriptorOf (readLoc s p.loc 32)
    canonical addr = true → addr.toNat % 32 = 0 → translate s st.ctx st.isle addr .load = .ok p → placeChecked p = false →
    farBad s p.loc 32 = false →
    (malformed d n.toNat = true →
      ∃ s1, s1 = { s with cached := s1.cached } ∧ exec (.wpset a 0 n) s = .next (takeTrap s1 w 6)) ∧
    (malformed d n.toNat = false →
      ∃ t, exec (.wpset a 0 n) s = .next t ∧ t = { s with waves := t.waves, contexts := t.contexts, cached := t.cached } ∧
        t.ctx? st.ctx.index = some { st.ctx with
          watch := st.ctx.watch.set n.toNat ⟨true, d.lo, d.hi, d.val, d.vmask, BitVec.ofNat 64 d.ctl, 0⟩ } ∧
        (∀ i, i ≠ st.ctx.index → t.ctx? i = s.ctx? i) ∧
        t.wave? w.id = some { w with pc := w.pc + 4, phase := .ready, armed := w.armed &&& ~~~(1#16 <<< n.toNat) } ∧
        ∀ j x, j ≠ w.id → s.wave? j = some x → t.wave? j = some
          (if (s.block? x.block).any (fun y => y.ctx == st.ctx.index) then
            { x with armed := x.armed &&& ~~~(1#16 <<< n.toNat) } else x))

/-- What DBGRD shows of a target (R263, R264). -/
def shownValue (x : Wave) (t : Target) : Nat :=
  let thread (r : VRow) : Nat := (rowAt r t.thr).toNat
  let row := x.v.getD t.num .undeclared
  match t.cls with
  | 0 => match row, t.whole with
    | .a base stride, true => base.toNat + 2 ^ 32 * stride.toNat
    | r, _ => thread r
  | 1 => thread (x.t.getD t.num .undeclared)
  | 7 => thread (x.tv.getD t.num .undeclared)
  | 2 => if (predMask x (BitVec.ofNat 3 t.num)).getLsbD t.thr then 1 else 0
  | 3 => (x.s.getD t.num 0).toNat
  | 4 => statusValue x (if t.hi then 1 else 0) t.num
  | 5 => if x.k.getLsbD t.num then 1 else 0
  | 6 => x.pc.toNat
  | _ => (x.hs.getD t.num 0).toNat

/-- What DBGWR leaves in a target (R264), where it is not the pc. -/
def writtenTarget (x : Wave) (t : Target) (v : Dword) : Wave :=
  let lo : Word := BitVec.ofNat 32 v.toNat
  let thread (r : VRow) : VRow := .g ((List.range 64).map fun i => if i = t.thr then lo else rowAt r i)
  match t.cls with
  | 0 => { x with v := x.v.set t.num <| match x.v.getD t.num .undeclared, t.whole with
      | .u _, _ => .u lo
      | .a _ _, _ => .a lo (BitVec.ofNat 32 (v.toNat / 2 ^ 32))
      | _, true => .g (List.replicate 64 lo)
      | r, false => thread r }
  | 1 => { x with t := x.t.set t.num (thread (x.t.getD t.num .undeclared)) }
  | 7 => { x with tv := x.tv.set t.num (thread (x.tv.getD t.num .undeclared)) }
  | 2 => if t.num = 7 then x
      else { x with p := x.p.set t.num (if v.getLsbD 0 then x.p.getD t.num 0 ||| (1#64 <<< t.thr)
        else x.p.getD t.num 0 &&& ~~~(1#64 <<< t.thr)) }
  | 3 => { x with s := x.s.set t.num v }
  | 4 => statusWritten x (if t.hi then 1 else 0) t.num v
  | 5 => { x with k := if v.getLsbD 0 then x.k ||| (1#8 <<< t.num) else x.k &&& ~~~(1#8 <<< t.num) }
  | _ => { x with hs := x.hs.set t.num v }

/-- What DBGWR leaves (R113, R264): the target written and nothing else of the wave, and a result still on its way to the register from
an instruction before the write does not undo it. -/
structure TargetWritten (x x' : Wave) (t : Target) (v : Dword) : Prop where
  target : x' = { writtenTarget x t v with inflight := x'.inflight, bad := x'.bad }
  still  : t.cls ≠ 0 → t.cls ≠ 1 → t.cls ≠ 7 → x'.inflight = x.inflight ∧ x'.bad = x.bad
  lasts  : (t.cls = 0 ∨ t.cls = 1 ∨ t.cls = 7) → ∀ i, i < 64 → t.whole = true ∨ i = t.thr →
    rowAt (settled x' (targetReg t)) i = rowAt (readReg x' (targetReg t)) i
  others : ∀ r, r ≠ targetReg t → settled x' r = settled x r

/-- DBGRD, DBGWR and WRESUME on another wave (R263, R264, R266, R362): the value shown; the one register written; the threads
released, and the wave halt cleared. An access that R263 or R264 does not allow traps with code 6. Each waits for a step of the
target that another wave has begun (R267). -/
def DebugWords : Prop :=
  ∀ (d a : BitVec 5) (s : State) (w x : Wave) (st : Standing), DebugTurn s w st → WaveSized w →
    let word := seqReg w a.toNat
    let t0 := targetOf word
    (targetWave s st.ctx.index t0 = none → exec (.dbgrd d a) s = .next (takeTrap s w 6) ∧
      exec (.dbgwr a d) s = .next (takeTrap s w 6) ∧ (∀ j, exec (.wresume a d j) s = .next (takeTrap s w 6)) ∧
      ((∀ n, w.phase ≠ .lstepWait n) → exec (.lstep d a) s = .next (takeTrap s w 6))) ∧
    (∀ n, targetWave s st.ctx.index t0 = some x → x.stepMode = some n → n ≠ w.id →
      exec (.dbgrd d a) s = .next (holdWave s w .debug) ∧ exec (.dbgwr a d) s = .next (holdWave s w .debug) ∧
      ∀ j, exec (.wresume a d j) s = .next (holdWave s w .debug)) ∧
    (targetWave s st.ctx.index t0 = some x → s.wave? x.id = some x → x.id ≠ w.id → WaveSized x →
      (x.stepMode = none ∨ x.stepMode = some w.id) → x.bad = [] → x.badPreds = [] →
      (t0.cls = 1 ∨ t0.cls = 7 → shapeRank (readReg x (targetReg t0)) = 3) →
      (word &&& 0xFFFF80F0FF800000 ≠ 0 ∨ targetLegal x t0 = false → exec (.dbgrd d a) s = .next (takeTrap s w 6) ∧
        exec (.dbgwr a d) s = .next (takeTrap s w 6)) ∧
      (word &&& 0xFFFF80F0FF800000 = 0 → targetLegal x t0 = true →
        ((t0.cls = 0 → t0.whole = true → shapeRank (x.v.getD t0.num .undeclared) ≠ 3) →
          ∃ t w', exec (.dbgrd d a) s = .next t ∧ WaveStep s t w w' ∧ WroteS w w' d.toNat (BitVec.ofNat 64 (shownValue x t0))) ∧
        (t0.cls = 0 → t0.whole = true → shapeRank (x.v.getD t0.num .undeclared) = 3 →
          exec (.dbgrd d a) s = .next (takeTrap s w 6)) ∧
        (t0.cls = 4 → t0.num = 5 → canonical (BitVec.ofNat 64 ((seqReg w d.toNat).toNat / 4 * 4)) = false →
          exec (.dbgwr a d) s = .next (takeTrap s w 1)) ∧
        (t0.cls ≠ 6 → (t0.cls = 4 → t0.num = 5 → canonical (BitVec.ofNat 64 ((seqReg w d.toNat).toNat / 4 * 4)) = true) →
          (t0.cls = 0 → t0.whole = false → shapeRank (x.v.getD t0.num .undeclared) = 3) →
          ∃ t, exec (.dbgwr a d) s = .next t ∧ t = { s with waves := t.waves } ∧
            t.wave? w.id = some { w with pc := w.pc + 4, phase := .ready } ∧
            (∃ x', t.wave? x.id = some x' ∧ TargetWritten x x' t0 (seqReg w d.toNat)) ∧ ∀ j, j ≠ w.id → j ≠ x.id → t.wave? j = s.wave? j) ∧
        (t0.cls = 6 → ∃ t x', exec (.dbgwr a d) s = .next t ∧ t = { s with waves := t.waves } ∧
          t.wave? w.id = some { w with pc := w.pc + 4, phase := .ready } ∧ t.wave? x.id = some x' ∧
          x' = { x with pc := x'.pc, run := x'.run, inflight := [], fell := false, v := x'.v, t := x'.t, tv := x'.tv } ∧
          (∀ r, readReg x' r = settled x r) ∧ x'.pc.toNat = (seqReg w d.toNat).toNat / 4 * 4 ∧
          ∀ j, j ≠ w.id → j ≠ x.id → t.wave? j = s.wave? j)) ∧
      (word &&& 0xFFFF80F0FF800000 = 0 → ∀ j : BitVec 1,
        let m := seqReg w d.toNat &&& x.halted
        ∃ t, exec (.wresume a d j) s = .next t ∧ t = { s with waves := t.waves, launches := t.launches } ∧
          t.wave? w.id = some { w with pc := w.pc + 4, phase := .ready } ∧
          t.wave? x.id = some { x with halted := x.halted &&& ~~~m, exec := if j = 1 then x.exec ||| m else x.exec,
                                       haltedWave := false, haltInfo := if x.haltedWave then 0 else x.haltInfo } ∧
          ∀ j, j ≠ w.id → j ≠ x.id → t.wave? j = s.wave? j))

/-- LSTEP (R265): the stopped target steps one thread, alone in EXEC and out of HALTED, while the issuing wave, its copies landed and its
results written, is switched out (R83, R335); once the target's instruction has ended, the target has its masks again with every
result written, and the issuer, back on a lane, has in sd the cause that the step met. -/
def SingleStep : Prop :=
  ∀ (d a : BitVec 5) (s : State) (w x : Wave) (st : Standing), DebugTurn s w st → WaveSized w → s.wave? x.id = some x →
    x.id ≠ w.id →
    (∀ v, (∀ n, w.phase ≠ .lstepWait n) →
      let word := seqReg w a.toNat
      let t0 := targetOf word
      targetWave s st.ctx.index t0 = some x → word &&& 0xFFFF80F0FF800000 = 0 → t0.whole = false → t0.cls = 0 → t0.num = 0 →
      t0.hi = false → t0.thr < 64 → (x.haltedWave = true ∨ (x.phase = .exiting ∧ x.halted ≠ 0)) → x.stepMode = none →
      fetchWord s st.ctx st.isle x.pc = .ok v →
      (v.toNat < 2 ^ 31 ∨ v.toNat / 2 ^ 21 = 0x4AB →
        ∃ t w1, exec (.lstep d a) s = .next t ∧ t.agenda = .run (.wave x.id) :: s.agenda ∧ t.wave? w.id = some w1 ∧
          w1.phase = .lstepWait x.id ∧ w1.pc = w.pc ∧ w1.copies = [] ∧ w1.pending = [] ∧ w1.inflight = [] ∧ w1.s = w.s ∧
          (w.copies = [] → (∀ r, w.pending = [] → readReg w1 r = settled w r) ∧ SameContexts s t ∧
            t = { s with waves := t.waves, contexts := t.contexts, agenda := t.agenda, hbm := t.hbm, peer := t.peer, host := t.host }) ∧
          t.wave? x.id = some { x with
            stepMode := some w.id, stepExec := x.exec, stepHeld := x.halted.getLsbD t0.thr, stepThread := t0.thr,
            stepDone := false, stepTrap := 0, exec := 1#64 <<< t0.thr, halted := x.halted &&& ~~~(1#64 <<< t0.thr),
            phase := .ready } ∧
          ∀ j, j ≠ w.id → j ≠ x.id → t.wave? j = s.wave? j) ∧
      (2 ^ 31 ≤ v.toNat → v.toNat / 2 ^ 21 ≠ 0x4AB → exec (.lstep d a) s = .next (takeTrap s w 6))) ∧
    (∀ w1, w.phase = .lstepWait x.id → stepEnded x = true → returnWave s w = some w1 → WaveSized w1 →
      ∃ t w' x', exec (.lstep d a) s = .next t ∧ t = { s with waves := t.waves } ∧ t.wave? w.id = some w' ∧
        WroteS w1 w' d.toNat (BitVec.ofNat 64 x.stepTrap) ∧ t.wave? x.id = some x' ∧ x'.exec = x.stepExec ∧
        (∀ n, n < 64 → x'.halted.getLsbD n = if n = x.stepThread then x.stepHeld else x.halted.getLsbD n) ∧
        x'.stepMode = none ∧ x'.pending = [] ∧ x'.inflight = [] ∧ x'.pc = x.pc ∧ x'.run = x.run ∧
        ∀ j, j ≠ w.id → j ≠ x.id → t.wave? j = s.wave? j) ∧
    (w.phase = .lstepWait x.id → stepEnded x = false ∨ returnWave s w = none → exec (.lstep d a) s = .next s)

end Sys2Proof.Machine

/-- The debugging words (R261 to R266, R352, R353, R362). -/
def Obligations.DebuggingWords : Prop := WatchWords ∧ DebugWords ∧ SingleStep

/-! ### Sync words (R74 to R77, R140, R143, R282) -/

namespace Sys2Proof.Machine

/-- The bytes of a block's scratchpad. -/
def blockBytes (b : Block) : Nat := 4096 * b.granules

/-- The offset of a sync word is legal (R74). -/
def syncFits (b : Block) (off : Nat) : Prop := off % 8 = 0 ∧ off + 8 ≤ blockBytes b

/-- SYNCW (R76): of an idle sync word with a target in range and not yet exceeded; the register receives the generation that
the target completes, and a count that is the target already completes it at once. -/
def SyncArming : Prop :=
  ∀ (d a x : BitVec 5) (s : State) (b : Block), BlockTurn s b → BlockSized b → Memory.wf b.scratch = true →
    let off := (b.b.getD a.toNat 0).toNat
    let n := (b.b.getD x.toNat 0).toNat
    let old := readSync b off
    syncFits b off →
    (1 ≤ n → n < 2 ^ 20 → old.armed = false → old.count ≤ n →
      ∃ t b', exec (.syncw d a x) s = .next t ∧ BlockStep s t b b' ∧
        b' = { b with b := b'.b, scratch := b'.scratch, tags := b'.tags, badWords := b'.badWords, seqStamps := b'.seqStamps,
                      pc := b.pc + 4, phase := .ready } ∧
        (∀ m, m < 32 → b'.b.getD m 0 = if m = d.toNat then BitVec.ofNat 64 (old.gen + 1).toNat else b.b.getD m 0) ∧
        readSync b' off = (if old.count = n then { old with target := n, gen := old.gen + 1, count := 0 }
          else { old with target := n, armed := true }) ∧
        SameOutside b.scratch b'.scratch off 8) ∧
    (n = 0 ∨ 2 ^ 20 ≤ n ∨ old.armed = true ∨ n < old.count → exec (.syncw d a x) s = .next (haltBlock s b 6 0 []))

/-- SWAIT (R77, R282) waits until the generation is reached, modulo 2^16, and disarms what it acquires; BPREF only goes on
(R143). -/
def SyncWaits : Prop :=
  (∀ (a x : BitVec 5) (s : State) (b : Block), BlockTurn s b →
    let off := (b.b.getD a.toNat 0).toNat
    let g : BitVec 16 := BitVec.ofNat 16 (b.b.getD x.toNat 0).toNat
    syncFits b off →
    (2 ^ 15 ≤ ((readSync b off).gen - g).toNat → exec (.swait a x) s = .next (holdBlock s b (.sync off))) ∧
    (((readSync b off).gen - g).toNat < 2 ^ 15 →
      let acquired := fun r : ArmedRange => r.sync = some off ∧ ∃ k, r.lastGen = some k ∧ (g - k).toNat < 2 ^ 15
      ∃ t b', exec (.swait a x) s = .next t ∧ t.block? b.id = some b' ∧ OtherBlocks s t b.id ∧
        t = { s with blocks := t.blocks, hbm := t.hbm } ∧ ((∀ r ∈ b.armed, acquired r → r.glob = false) → t.hbm = s.hbm) ∧
        b' = { b with armed := b'.armed, joins := if b'.armed = [] then [] else b.joins, tags := b'.tags,
                      seqStamps := b'.seqStamps, seqGlobal := b'.seqGlobal, pc := b.pc + 4, phase := .ready } ∧
        (∀ r, r ∈ b'.armed ↔ r ∈ b.armed ∧ ¬ acquired r) ∧
        ∀ z, z ∉ wordsOf off 8 → (∀ r ∈ b.armed, acquired r → r.write = true → r.glob = false → z ∉ wordsOf r.lo (r.hi - r.lo)) →
          mapGet 0 b'.tags z = mapGet 0 b.tags z)) ∧
  ∀ (a x : BitVec 5) (s : State) (b : Block), BlockTurn s b →
    ∃ t, exec (.bpref a x) s = .next t ∧ BlockStep s t b { b with pc := b.pc + 4, phase := .ready }

end Sys2Proof.Machine

/-- SYNCW, SWAIT and BPREF (R76, R77, R143, R282). -/
def Obligations.SyncWords : Prop := SyncArming ∧ SyncWaits

/-! ### Commands at their issue (R71, R140 to R142, R183, R191 to R196, R201, R205, R207) -/

namespace Sys2Proof.Machine

/-- A field of a packed register. -/
def field (v : Dword) (lo n : Nat) : Nat := v.toNat / 2 ^ lo % 2 ^ n

/-- What a command is at its issue: its queue, the three operand values, its sync word, the limits, the ranges that it arms
(write?, first byte, bytes), whether it clears the idempotent state, enters the open batch, and counts as unwaited. -/
structure Issued where
  queue  : EngineQueue
  d      : Dword
  a      : Dword
  v      : Dword
  sync   : Nat
  ok     : Prop
  ranges : List (Bool × Nat × Nat)
  glob   : List (Nat × Nat)
  clears : Bool
  batch  : Bool
  counts : Bool

/-- A command whose operands meet their limits enters its queue, with the operand values, the sequencer's vector, count and
epoch of that step; its ranges are armed and the sequencer goes on. A full queue of 32 holds the sequencer, and the command, not
issued yet, clears nothing (R191, R234). -/
def Issues (i : Instr) (c : State → Block → Issued) : Prop :=
  ∀ (s : State) (b : Block), BlockTurn s b → BlockSized b → staticLegal i = true → (c s b).ok →
    let q := (c s b).queue
    (32 ≤ (queueOf b q).length → ∃ t, exec i s = .next t ∧ BlockStep s t b
      { b with phase := .held .queueFull }) ∧
    ((queueOf b q).length < 32 → ∃ t b' x, exec i s = .next t ∧ BlockStep s t b b' ∧
      queueOf b' q = queueOf b q ++ [x] ∧ (∀ p, p ≠ q → queueOf b' p = queueOf b p) ∧
      x.instr = i ∧ x.d = (c s b).d ∧ x.a = (c s b).a ∧ x.b = (c s b).v ∧ x.sync = (c s b).sync ∧ x.serial = b.issued ∧
      x.started = false ∧ x.done = 0 ∧ x.qpct = (if i matches .qscale .. then b.qpct else 0) ∧
      x.know = b.clock.know ∧ x.count = b.clock.count ∧ x.epoch = b.epochSeen ∧
      b' = { b with
        queues := b'.queues, issued := b.issued + 1, pc := b.pc + 4, phase := .ready, idem := b.idem && !(c s b).clears,
        openBatch := if (c s b).batch then b.openBatch ++ [b.issued] else b.openBatch,
        unwaited := if (c s b).counts then b.unwaited ++ [b.issued] else b.unwaited,
        armed := b.armed ++
          (c s b).ranges.map (fun r => ⟨b.id, b.issued, q, r.2.1, r.2.1 + r.2.2, r.1, false,
            if (c s b).batch then none else some (c s b).sync, none⟩) ++
          (c s b).glob.map (fun r => ⟨b.id, b.issued, q, r.1, r.1 + r.2, true, true, some (c s b).sync, none⟩) })

/-- A length of R78. -/
def lengthOk (n : Nat) : Prop := n % 16 = 0 ∧ 16 ≤ n ∧ n ≤ 0x80000

def breg (b : Block) (n : BitVec 5) : Dword := b.b.getD n.toNat 0

def bcopyIssue (d a x : BitVec 5) (out : BitVec 1) (w : BitVec 5) (b : Block) : Issued :=
  let (dst, src, v, so) := (breg b d, breg b a, breg b x, breg b w)
  let n := field v 0 20
  { queue := .copy, d := dst, a := src, v := v, sync := so.toNat
    ok := canonical src = true ∧ dst.toNat % 16 = 0 ∧ src.toNat % 16 = 0 ∧ syncFits b so.toNat ∧ lengthOk n ∧
      dst.toNat + n ≤ blockBytes b ∧ v.toNat < 2 ^ 24
    ranges := [(out == 0, dst.toNat, n)], glob := if out = 1 then [(src.toNat, n)] else [], clears := out == 1, batch := false,
    counts := false }

def gathIssue (d a x w : BitVec 5) (b : Block) : Issued :=
  let (dst, src, v, so) := (breg b d, breg b a, breg b x, breg b w)
  let (l, m, n) := (field v 0 19, field v 32 13, field v 48 13)
  { queue := .gather, d := dst, a := src, v := v, sync := so.toNat
    ok := canonical src = true ∧ dst.toNat % 16 = 0 ∧ src.toNat % 16 = 0 ∧ l % 4 = 0 ∧ syncFits b so.toNat ∧
      1 ≤ m ∧ m ≤ 4096 ∧ n % 16 = 0 ∧ 16 ≤ n ∧ n ≤ 4096 ∧ dst.toNat + m * n ≤ blockBytes b ∧ l + 4 * m ≤ blockBytes b ∧
      field v 19 13 = 0 ∧ field v 45 3 = 0 ∧ field v 61 3 = 0
    ranges := [(true, dst.toNat, m * n), (false, l, 4 * m)], glob := [], clears := false, batch := false, counts := false }

def histIssue (d a x w : BitVec 5) (b : Block) : Issued :=
  let (dst, src, v, so) := (breg b d, breg b a, breg b x, breg b w)
  let n := v.toNat
  { queue := .copy, d := dst, a := src, v := v, sync := so.toNat
    ok := dst.toNat % 16 = 0 ∧ src.toNat % 4 = 0 ∧ syncFits b so.toNat ∧ 1 ≤ n ∧ n ≤ 131072 ∧
      dst.toNat + 272 ≤ blockBytes b ∧ src.toNat + 4 * n ≤ blockBytes b
    ranges := [(true, dst.toNat, 272), (false, src.toNat, 4 * n)], glob := [], clears := false, batch := false, counts := false }

def qscaleIssue (d a x w : BitVec 5) (b : Block) : Issued :=
  let (dst, src, v, so) := (breg b d, breg b a, breg b x, breg b w)
  let (n, r) := (field v 0 17, field v 32 19)
  { queue := .copy, d := dst, a := src, v := v, sync := so.toNat
    ok := dst.toNat % 256 = 0 ∧ src.toNat % 4 = 0 ∧ r % 16 = 0 ∧ syncFits b so.toNat ∧ n % 64 = 0 ∧ 64 ≤ n ∧ n ≤ 65536 ∧
      dst.toNat + (n / 2 + n / 8 + n / 32) ≤ blockBytes b ∧ src.toNat + 4 * n ≤ blockBytes b ∧ r + 272 ≤ blockBytes b ∧
      field v 17 15 = 0 ∧ field v 51 1 = 0 ∧ field v 55 9 = 0
    ranges := [(true, dst.toNat, n / 2 + n / 8 + n / 32), (false, src.toNat, 4 * n), (false, r, 272)], glob := [],
    clears := false, batch := false, counts := false }

/-- The members of a collective's peer group give its destination's bytes: those of the source, or of all members under
gather (R84). -/
def collIssue (s : State) (d a x w : BitVec 5) (b : Block) : Issued :=
  let (dst, src, v, so) := (breg b d, breg b a, breg b x, breg b w)
  let n := field v 0 17
  let members := ((peerGroup s b.ctx (field v 32 8)).map (·.2.length)).getD 0
  let out := if field v 40 2 = 3 then n * members else n
  { queue := .coll, d := dst, a := src, v := v, sync := so.toNat
    ok := (peerGroup s b.ctx (field v 32 8)).isSome = true ∧ dst.toNat % 64 = 0 ∧ src.toNat % 64 = 0 ∧ syncFits b so.toNat ∧
      n % 64 = 0 ∧ 64 ≤ n ∧ n ≤ 0x10000 ∧ dst.toNat + out ≤ blockBytes b ∧ src.toNat + n ≤ blockBytes b ∧
      field v 42 2 ≠ 3 ∧ field v 17 15 = 0 ∧ field v 44 4 = 0
    ranges := [(true, dst.toNat, out), (false, src.toNat, n)], glob := [], clears := true, batch := false, counts := false }

/-- Rows of a packed operand: an offset, and a stride that is the row's own bytes where it is 0 (R192). -/
def rowStart (v : Dword) (bytes q : Nat) : Nat :=
  field v 0 19 + (if field v 32 19 = 0 then bytes else field v 32 19) * q

def operandOk (v : Dword) : Prop := field v 0 19 % 16 = 0 ∧ field v 32 19 % 16 = 0 ∧ field v 19 13 = 0 ∧ field v 51 13 = 0

/-- SRTLD reads and SRTST writes a rectangle of rows of eight-byte cells (R205, R206, R208). -/
def transferIssue (store : Bool) (a x w : BitVec 5) (b : Block) : Issued :=
  let (o, v, so) := (breg b a, breg b x, breg b w)
  let (rows, n) := (field v 8 7 + 1, 8 * (field v 16 7 + 1))
  { queue := .sort, d := 0, a := o, v := v, sync := so.toNat
    ok := operandOk o ∧ syncFits b so.toNat ∧ (∀ q, q < rows → rowStart o n q + n ≤ blockBytes b) ∧
      field v 0 7 + rows ≤ 128 ∧ field v 7 1 = 0 ∧ field v 15 1 = 0 ∧ field v 23 1 = 0 ∧
      v.toNat < (if store then 2 ^ 26 else 2 ^ 24)
    ranges := (List.range rows).map fun q => (store, rowStart o n q, n), glob := [], clears := false, batch := false,
    counts := false }

end Sys2Proof.Machine

/-- The commands of the copy, gather, collective and sort queues (R71, R78, R80, R84, R86, R87, R140, R141, R183, R205, R207). -/
def Obligations.EngineIssue : Prop :=
  (∀ d a x out w, Issues (.bcopy d a x out w) (fun _ => bcopyIssue d a x out w)) ∧
  (∀ d a x w, Issues (.gath d a x w) (fun _ => gathIssue d a x w)) ∧
  (∀ d a x w, Issues (.hist d a x w) (fun _ => histIssue d a x w)) ∧
  (∀ d a x w, Issues (.qscale d a x w) (fun _ => qscaleIssue d a x w)) ∧
  (∀ d a x w, Issues (.coll d a x w) fun s => collIssue s d a x w) ∧
  (∀ a x w, Issues (.srtld a x w) (fun _ => transferIssue false a x w)) ∧
  (∀ a x w, Issues (.srtst a x w) (fun _ => transferIssue true a x w)) ∧
  ∀ a o e l k, Issues (.srtgo a o e l k) fun _ b =>
    { queue := .sort, d := 0, a := breg b a, v := 0, sync := 0, ok := (breg b a).toNat < 2 ^ 15 ∧ field (breg b a) 7 1 = 0,
      ranges := [], glob := [], clears := false, batch := false, counts := false }

namespace Sys2Proof.Machine

/-- A command of the matrix queue. -/
def matrixIssue (a v : Dword) (ok : Prop) (counts : Bool) (ranges : List (Bool × Nat × Nat)) : Issued :=
  { queue := .matrix, d := 0, a := a, v := v, sync := 0, ok := ok, ranges := ranges, glob := [], clears := false, batch := true,
    counts := counts }

/-- The window that covers an operand agrees with a format (R198). -/
def windowAgrees (b : Block) (off : Nat) (fmt : Option Nat) : Prop := ∀ x, windowAt b off = some x → some (winFmt x) = fmt

/-- The bytes of an element under a conversion code (R201), and its format code. -/
def convSize (v : BitVec 3) : Nat := [4, 2, 1, 1].getD v.toNat 1

def convCode (v : BitVec 3) : Option Nat := [none, some 1, some 3, some 4].getD v.toNat none

/-- The commands of the matrix queue (R183, R186, R191 to R196, R198, R201): each enters the open batch; MLDW, MSTRM and MCPY
also count as unwaited, up to 64. The ranges of MSTRM and MCPY follow from the predicates and planes that the commands before
them in the queue will leave. -/
def MatrixIssue : Prop :=
  (∀ a x o c n, Issues (.mpred a x o c n) fun _ b => matrixIssue (breg b a) (breg b x)
    ((breg b a).toNat ≤ 127 ∧ (breg b a).toNat + (breg b x).toNat ≤ 128) false []) ∧
  (∀ a k r, Issues (.mzero a k r) fun _ b => matrixIssue (breg b a) 0 ((breg b a).toNat < 512) false []) ∧
  Issues .mswap (fun _ _ => matrixIssue 0 0 True false []) ∧
  (∀ a n f, Issues (.mldw a n f) fun _ b =>
    let v := breg b a
    let src := mldwSource b f.toNat (n == 1) (field v 0 19)
    matrixIssue v 0 (field v 0 19 % 256 = 0 ∧ v.toNat < 2 ^ 19 ∧ src.isSome = true ∧ b.unwaited.length < 64) true
      ((planePieces (src.getD [])).map fun q => (false, q.1, q.2))) ∧
  (∀ a x f k r, Issues (.mstrm a x f k r) fun _ b =>
    let v := breg b a
    let n := streamRowBytes (planesAhead b).1 f
    matrixIssue v (breg b x) (operandOk v ∧ (breg b x).toNat < 512 ∧
        windowAgrees b (field v 0 19) (some ([1, 3, 4, 5].getD f.toNat 0)) ∧ b.unwaited.length < 64) true
      ((activeOf ((predsAhead b).1.getD r.toNat 0)).map fun q => (false, rowStart v n q, n))) ∧
  ∀ v x a z k r, Issues (.mcpy v x a z k r) fun _ b =>
    let o := breg b a
    let e := convSize v
    let d : Issued := matrixIssue o (breg b z) (operandOk o ∧ (breg b z).toNat < 512 ∧
        (x = 1 → windowAgrees b (field o 0 19) (convCode v)) ∧ b.unwaited.length < 64) true
      ((activeOf ((predsAhead b).1.getD r.toNat 0)).flatMap fun i =>
        (runsOf (activeOf ((predsAhead b).2.getD k.toNat 0))).map fun q =>
          (x == 0, rowStart o (128 * e) i + e * q.1, e * q.2))
    { d with d := BitVec.ofNat 64 (2 * v.toNat + x.toNat) }

/-- MFENCE closes the open batch and gives its number; MWAIT waits until batches up to one are complete, and disarms their
commands' ranges; a batch that no MFENCE has closed is no operand (R186, R203, R204, R282). -/
def MatrixBatches : Prop :=
  (∀ (d : BitVec 5) (s : State) (b : Block), BlockTurn s b → BlockSized b →
    ∃ t b', exec (.mfence d) s = .next t ∧ BlockStep s t b b' ∧ b'.closed = b.closed + 1 ∧ b'.openBatch = [] ∧
      (∀ m, m < 32 → b'.b.getD m 0 = if m = d.toNat then BitVec.ofNat 64 (b.closed + 1).toNat else b.b.getD m 0) ∧
      b' = { b with b := b'.b, closed := b'.closed, openBatch := [], batches := b'.batches, completed := b'.completed,
                    pc := b.pc + 4, phase := .ready } ∧
      (b.completed = b.closed → (∀ q ∈ b.batches, q.1 ≠ b.closed + 1) →
        ((∀ n ∈ b.openBatch, ∀ c ∈ queueOf b .matrix, c.serial ≠ n) → b'.completed = b.closed + 1) ∧
        ((∃ n ∈ b.openBatch, ∃ c ∈ queueOf b .matrix, c.serial = n) → b'.completed = b.closed))) ∧
  ∀ (a : BitVec 5) (s : State) (b : Block), BlockTurn s b →
    let g : BitVec 16 := BitVec.ofNat 16 (b.b.getD a.toNat 0).toNat
    let ns := (b.batches.filter fun q => (g - q.1).toNat < 2 ^ 15).flatMap (·.2)
    (2 ^ 15 ≤ (b.closed - g).toNat → exec (.mwait a) s = .next (haltBlock s b 6 0 [])) ∧
    ((b.closed - g).toNat < 2 ^ 15 → 2 ^ 15 ≤ (b.completed - g).toNat → exec (.mwait a) s = .next (holdBlock s b .mwait)) ∧
    ((b.closed - g).toNat < 2 ^ 15 → (b.completed - g).toNat < 2 ^ 15 →
      (∀ r ∈ b.armed, r.queue = .matrix → r.glob = false) →
      ∃ t b', exec (.mwait a) s = .next t ∧ BlockStep s t b b' ∧
        b' = { b with unwaited := b'.unwaited, batches := b'.batches, armed := b'.armed,
                      joins := if b'.armed = [] then [] else b.joins, tags := b'.tags, seqStamps := b'.seqStamps,
                      pc := b.pc + 4, phase := .ready } ∧
        b'.unwaited = b.unwaited.filter (fun n => n ∉ ns) ∧
        b'.batches = b.batches.filter (fun q => 2 ^ 15 ≤ (g - q.1).toNat) ∧
        ∀ r, r ∈ b'.armed ↔ r ∈ b.armed ∧ ¬ (r.owner = b.id ∧ r.queue = .matrix ∧ r.serial ∈ ns))

end Sys2Proof.Machine

/-- The commands of the matrix queue, and its batches (R186, R191 to R196, R201, R203, R204). -/
def Obligations.MatrixWords : Prop := MatrixIssue ∧ MatrixBatches

namespace Sys2Proof.Machine

/-- The j-th entry of a destination list. -/
def listEntry (b : Block) (list j : Nat) : Dword := BitVec.ofNat 64 (leNat (readBytes b.scratch (list + 8 + 8 * j) 8))

end Sys2Proof.Machine

/-- BMCAST (R81, R140, R141, R346): in a resident grid it reads its whole destination list at its issue, arms the range of each
destination in the destination's block, and enters the copy queue; elsewhere it is illegal. QJOIN stands in every queue that it
names and is remembered (R72, R142). -/
def Obligations.MulticastAndJoin : Prop :=
  (∀ (d a x : BitVec 5) (s : State) (b : Block) (g : Grid), BlockTurn s b → BlockSized b → s.grid? b.grid = some g →
    (∀ y ∈ s.blocks, s.block? y.id = some y) →
    let (list, src, v) := (breg b d, breg b a, breg b x)
    let m := leNat (readBytes b.scratch list.toNat 8)
    (g.resident = false → exec (.bmcast d a x) s = .next (haltBlock s b 0x10 0 [])) ∧
    (g.resident = true → canonical src = true → list.toNat % 8 = 0 → src.toNat % 16 = 0 → 1 ≤ m → m ≤ 16 →
      list.toNat + 8 + 8 * m ≤ blockBytes b → v.toNat < 2 ^ 20 → lengthOk v.toNat → (queueOf b .copy).length < 32 →
      ∃ t b' c, exec (.bmcast d a x) s = .next t ∧ t = { s with blocks := t.blocks } ∧ t.block? b.id = some b' ∧
        queueOf b' .copy = queueOf b .copy ++ [c] ∧ (∀ p, p ≠ .copy → queueOf b' p = queueOf b p) ∧
        c.instr = .bmcast d a x ∧ c.a = src ∧ c.b = v ∧ c.serial = b.issued ∧ c.started = false ∧
        c.dests = (List.range m).map (fun j =>
          let e := listEntry b list.toNat j
          ⟨field e 0 20, field e 20 19, field e 39 19, 0, []⟩) ∧
        b' = { b with queues := b'.queues, armed := b'.armed, issued := b.issued + 1, idem := false, pc := b.pc + 4,
                      phase := .ready } ∧
        (∀ j, j ≠ b.id → (t.block? j).map (fun y => { y with armed := [] }) = (s.block? j).map fun y => { y with armed := [] }) ∧
        ∀ j y, s.block? j = some y → ∃ y', t.block? j = some y' ∧ ∀ r ∈ y.armed, r ∈ y'.armed)) ∧
  ∀ (m : BitVec 5) (s : State) (b : Block), BlockTurn s b → BlockSized b → m ≠ 0 →
    let named := fun q : EngineQueue => m.getLsbD (queueBit q) = true
    ((∃ q, named q ∧ 32 ≤ (queueOf b q).length) → exec (.qjoin m) s = .next (holdBlock s b .queueFull)) ∧
    ((∀ q, named q → (queueOf b q).length < 32) → ∃ t b' c, exec (.qjoin m) s = .next t ∧ BlockStep s t b b' ∧
      b' = { b with queues := b'.queues, issued := b.issued + 1, joins := b.joins ++ [(b.issued, m)], pc := b.pc + 4,
                    phase := .ready } ∧
      c.instr = .qjoin m ∧ c.serial = b.issued ∧ c.started = false ∧
      ∀ q, queueOf b' q = if m.getLsbD (queueBit q) then queueOf b q ++ [c] else queueOf b q)

/-! ### Halting and the events of waves, blocks and grids (R29, R111 to R113, R117, R217, R327 to R331, R343, R344) -/

namespace Sys2Proof.Machine

/-- No grid of a context holds an uncommitted reservation of its launch (R317). -/
def committed (s : State) (ctx : Nat) : Prop := ∀ g ∈ s.grids, g.ctx = ctx → ∀ l, s.launch? g.launch = some l → l.admitted = true

/-- What a halting fault of a context leaves beside the agent that raised it (R330, R331, R343, R344): the context halted with
this halt record, one more entry in its fault log, its launches that were still running ended with STATUS 5, what they
had reserved without commitment given up (R318), and its enabled queues at QSTAT 2. `first` says that the context was not halted
before. -/
structure HaltsWith (s t : State) (c : Context) (r : HaltRecord) : Prop where
  halted  : ∃ c', t.ctx? c.index = some c' ∧ c'.halted = true ∧
    c' = { c with halted := true, halt := if c.halted then c.halt else some r, log := c'.log }
  logged  : ∃ c' e, t.ctx? c.index = some c' ∧ c'.log = c.log ++ [e] ∧ e.code = r.code ∧ e.reg = r.reg ∧ e.agent = r.agent ∧
    e.core = 32 * r.isle + r.core ∧ e.slot = r.slot ∧ e.pc = r.pc ∧ e.first = !c.halted
  others  : ∀ i, i ≠ c.index → t.ctx? i = s.ctx? i
  freed   : c.halted = false → committed t c.index
  ended   : c.halted = false → t.launches = s.launches.map fun l =>
    if l.ctx = c.index ∧ l.status = none then { l with status := some 5 } else l
  stopped : c.halted = false → (∀ q ∈ s.queues, s.queue? q.index = some q) → ∀ q ∈ s.queues,
    t.queue? q.index = some (if q.ctx = c.index ∧ q.enabled = true then { q with qstat := 2 } else q)

/-- A halting fault of a wave, a block sequencer and a grid sequencer (R113, R118, R327, R328, R343). A wave's results on the way
are written first, and TCAUSE holds the code. -/
def HaltingFaults : Prop :=
  (∀ (s : State) (w : Wave) (b : Block) (c : Context) (code reg : Nat), s.wave? w.id = some w → s.block? w.block = some b →
    s.ctx? b.ctx = some c → code < 256 → reg < 64 → committed s c.index →
    HaltsWith s (haltWave s w code reg []) c ⟨code, reg, 0, b.isle, b.core, w.slot, w.pc⟩ ∧
    OtherWaves s (haltWave s w code reg []) w.id ∧ (haltWave s w code reg []).blocks = s.blocks ∧
    (haltWave s w code reg []).grids = s.grids ∧
    ∃ w', (haltWave s w code reg []).wave? w.id = some w' ∧ w'.inflight = [] ∧ w'.tcode.toNat = code ∧ w'.treg.toNat = reg ∧
      (∀ x, readReg w' x = settled w x) ∧
      { w' with v := w.v, t := w.t, tv := w.tv, bad := w.bad, inflight := w.inflight, tcode := w.tcode, treg := w.treg } = w) ∧
  (∀ (s : State) (b : Block) (c : Context) (code : Nat), s.block? b.id = some b → s.ctx? b.ctx = some c → code < 256 →
    committed s c.index → HaltsWith s (haltBlock s b code 0 []) c ⟨code, 0, 1, b.isle, b.core, b.slot, b.pc⟩ ∧
    OtherBlocks s (haltBlock s b code 0 []) b.id ∧ (haltBlock s b code 0 []).waves = s.waves ∧
    (haltBlock s b code 0 []).block? b.id = some { b with fault := BitVec.ofNat 14 code }) ∧
  ∀ (s : State) (g : Grid) (c : Context) (code : Nat), s.grid? g.id = some g → s.ctx? g.ctx = some c → code < 256 →
    committed s c.index → HaltsWith s (haltGrid s g code 0) c ⟨code, 0, 2, g.isle, 0, g.slot, g.pc⟩ ∧
    OtherGrids s (haltGrid s g code 0) g.id ∧ (haltGrid s g code 0).waves = s.waves ∧
    (haltGrid s g code 0).grid? g.id = some { g with fault := BitVec.ofNat 14 code }

/-- A word that a sequencer of this level reaches and that is no instruction of its own (R104, R117, R212): a thread-set word
outside a run; or a sequencer word that the level executes itself and that no encoding gives. -/
def wordIllegal (level : Nat) (x : Word) : Prop :=
  let scope := x.toNat / 2 ^ 28 % 8
  (level = 1 ∧ x.toNat < 2 ^ 31) ∨
  (2 ^ 31 ≤ x.toNat ∧ x.toNat / 2 ^ 21 ≠ 0x4AB ∧ (if level = 1 then scope ≠ 2 ∧ scope ≠ 3 else scope = level) ∧
    ∃ e, decode x none = .error e)

end Sys2Proof.Machine

/-- The steps beside a wave's words: the illegal-instruction fault of each agent (R117, R212), the replay of a switched-out
wave, where a lane has room for it, with the registers of its save slot (R10, R26, R29, R335), the writing of variable- and
fixed-latency results (R106, R111 to R113), and the promotion of R319. -/
def Obligations.WaveEvents : Prop :=
  (∀ (s : State) (w : Wave) (st : Standing) (x : Word), WaveTurn s w → w.run = none → w.fell = false → w.phase ≠ .exiting →
    waveStanding s w = some st → fetchWord s st.ctx st.isle w.pc = .ok x → wordIllegal 1 x →
    exec .illegalInstruction s = .next (haltWave s w 0x10 0 [])) ∧
  (∀ (s : State) (b : Block) (c : Context) (x : Word), BlockTurn s b → b.fell = false → s.ctx? b.ctx = some c →
    fetchWord s c b.isle b.pc = .ok x → wordIllegal 2 x → exec .illegalInstruction s = .next (haltBlock s b 0x10 0 [])) ∧
  (∀ (s : State) (g : Grid) (c : Context) (x : Word), GridTurn s g → g.fell = false → s.ctx? g.ctx = some c →
    fetchWord s c g.isle g.pc = .ok x → wordIllegal 3 x → exec .illegalInstruction s = .next (haltGrid s g 0x10 0)) ∧
  (∀ (s : State) (w : Wave), s.wave? w.id = some w →
    (∀ w1, w.phase = .missed → w.requests = [] → returnWave s w = some w1 → w1.missFailed = false →
      ∃ t, exec (.waveReplay w.id) s = .next t ∧
      WaveStep s t w { w1 with phase := .ready, replay := if w1.pcm = 0 then none else some w1.pcm }) ∧
    (∀ w1, w.phase = .missed → w.requests = [] → returnWave s w = some w1 → w1.missFailed = true →
      exec (.waveReplay w.id) s = .next (takeTrap s { w1 with phase := .ready, missFailed := false } 4)) ∧
    (w.phase ≠ .missed ∨ w.requests ≠ [] ∨ returnWave s w = none → exec (.waveReplay w.id) s = .next s) ∧
    (∀ (n : Nat) (p : Pending), w.pending[n]? = some p → ∃ t w', exec (.loadWriteback w.id n) s = .next t ∧
      WaveStep s t w w' ∧ w'.pending = w.pending.eraseIdx n ∧
      { w' with v := w.v, t := w.t, tv := w.tv, bad := w.bad, pending := w.pending, tags := w.tags, tagRegs := w.tagRegs,
                k := w.k, inflight := w.inflight } = w ∧
      (∀ r, readReg w' r = (p.regs.filter fun q => decide (q.1 = r)).foldl (fun row q => writeRow row q.2 p.mask) (readReg w r)) ∧
      (∀ q ∈ p.regs, ∀ i, i < 64 → p.mask.getLsbD i = true → rowAt (settled w' q.1) i = rowAt (readReg w' q.1) i) ∧
      (∀ r, (∀ q ∈ p.regs, q.1 ≠ r) → settled w' r = settled w r) ∧
      (∀ j, j < 8 → w'.k.getLsbD j =
        match p.vote with
        | some (n, v) => if j = n.toNat then v else w.k.getLsbD j
        | none => w.k.getLsbD j) ∧
      ∀ j, j < 8 → w'.tags.getLsbD j = tagOutstanding { w with pending := w.pending.eraseIdx n } j ∧
        tagOutstanding w' j = w'.tags.getLsbD j) ∧
    (∀ (e : InFlight) (es : List InFlight) (row : VRow), w.inflight = e :: es → e.row = some row →
      ∃ t w', exec (.fixedLatencyResultWrite w.id) s = .next t ∧ WaveStep s t w w' ∧
        { w' with v := w.v, t := w.t, tv := w.tv, bad := w.bad, inflight := w.inflight } = w ∧
        (∀ r, readReg w' r = if r = e.reg then writeRow (readReg w r) row e.mask else readReg w r) ∧
        ∀ r, settled w' r = settled w r) ∧
    (64 ≤ w.passed → ∃ t, exec (.wavePromotion w.id) s = .next t ∧ WaveStep s t w { w with promoted := 1 }) ∧
    (w.passed < 64 → exec (.wavePromotion w.id) s = .next s))

namespace Sys2Proof.Machine

/-- What remains of some tokens once an agent has consumed token `seq` of a queue (R219): what some agent of the level below has
neither consumed nor exited before. -/
def waveTokensAfter (s : State) (w : Wave) (seq : BitVec 16) (ts : List Token) : List Token :=
  ts.filter fun y => (s.wavesOf w.block).any fun z => z.phase != .exited && seqAfter y.seq (if z.id = w.id then seq else z.lastSeq)

def blockTokensAfter (s : State) (b : Block) (g : Grid) (seq : BitVec 16) (ts : List Token) : List Token :=
  ts.filter fun y => decide (g.nextBlock < g.nblk) ||
    (s.blocksOf g.id).any fun z => z.phase != .exited && seqAfter y.seq (if z.id = b.id then seq else z.lastSeq)

end Sys2Proof.Machine

/-- A pop of a wave and of a block sequencer at a steering word of a higher scope (R216, R217, R219): it waits for the token after
the last; a token of another word is a scope fault; otherwise TK0, TK1 and the pc are the token's, a block relays it in its own
queue, and an END token is an EXIT. -/
def Obligations.TokenPops : Prop :=
  (∀ (s : State) (w : Wave) (b : Block), s.wave? w.id = some w → s.block? w.block = some b → waveRuns s w = true →
    nextOfWave s w = .pop →
    ((∀ x ∈ b.tokens, x.seq ≠ w.lastSeq + 1) → exec (.tokenPop (.wave w.id)) s = .next (holdWave s w .token)) ∧
    ∀ x, b.tokens.find? (fun x => x.seq == w.lastSeq + 1) = some x →
      (x.spc ≠ w.pc → exec (.tokenPop (.wave w.id)) s = .next (haltWave s w 0x11 0 [])) ∧
      (x.spc = w.pc → x.isEnd = false → ∃ t, exec (.tokenPop (.wave w.id)) s = .next t ∧ OtherWaves s t w.id ∧
        OtherBlocks s t b.id ∧ t = { s with waves := t.waves, blocks := t.blocks } ∧
        t.wave? w.id = some { w with lastSeq := x.seq, tk0 := x.v0, tk1 := x.v1, pc := x.tgt, phase := .ready } ∧
        t.block? b.id = some { b with tokens := waveTokensAfter s w x.seq b.tokens }) ∧
      (x.spc = w.pc → x.isEnd = true → w.copies = [] → ∃ t w', exec (.tokenPop (.wave w.id)) s = .next t ∧
        t.wave? w.id = some w' ∧ w'.lastSeq = x.seq ∧ w'.tk0 = x.v0 ∧ w'.tk1 = x.v1 ∧ w'.pc = w.pc ∧ w'.fell = true ∧
        w'.phase = (if w.halted = 0 then .exited else .exiting) ∧
        t = { s with waves := t.waves, blocks := t.blocks, launches := t.launches })) ∧
  ∀ (s : State) (b : Block) (g : Grid), s.block? b.id = some b → s.grid? b.grid = some g → blockRuns s b = true →
    nextOfBlock s b = .pop →
    (4 ≤ b.tokens.length ∨ (∀ x ∈ g.tokens, x.seq ≠ b.lastSeq + 1) →
      exec (.tokenPop (.block b.id)) s = .next (holdBlock s b .token)) ∧
    ∀ x, b.tokens.length < 4 → g.tokens.find? (fun x => x.seq == b.lastSeq + 1) = some x →
      (x.spc ≠ b.pc → exec (.tokenPop (.block b.id)) s = .next (haltBlock s b 0x11 0 [])) ∧
      (x.spc = b.pc → x.isEnd = false → ∃ t, exec (.tokenPop (.block b.id)) s = .next t ∧ OtherBlocks s t b.id ∧
        OtherGrids s t g.id ∧ t = { s with blocks := t.blocks, grids := t.grids } ∧
        t.grid? g.id = some { g with tokens := blockTokensAfter s b g x.seq g.tokens } ∧
        t.block? b.id = some { b with lastSeq := x.seq, tk0 := x.v0, tk1 := x.v1, pc := x.tgt, phase := .ready,
                                      nextSeq := b.nextSeq + 1,
                                      tokens := pushedTokens s b { x with seq := b.nextSeq, relay := true } }) ∧
      (x.spc = b.pc → x.isEnd = true → ∃ t b', exec (.tokenPop (.block b.id)) s = .next t ∧ t.block? b.id = some b' ∧
        b'.phase = .exited ∧ b'.lastSeq = x.seq ∧ b'.tk0 = x.v0 ∧ b'.tk1 = x.v1 ∧ b'.pc = b.pc ∧ b'.loops = [] ∧ b'.calls = [] ∧
        t = { s with blocks := t.blocks, grids := t.grids, groups := t.groups })

/-! ### What schedules agents: barriers, votes, allotments, copies, the end of a block (R82, R175, R225, R227, R229, R230, R251) -/

namespace Sys2Proof.Machine

/-- A wave is held at a WAIT on barrier n, which its next try executes. -/
def waitsAt (s : State) (w : Wave) (n : Nat) : Prop :=
  w.phase = .held (.barrier n) ∧ waveRuns s w = true ∧ nextOfWave s w = .own (.wait 1 (BitVec.ofNat 6 n))

/-- Identifiers name one agent each; no run leaves this. -/
structure Distinct (s : State) : Prop where
  waves  : ∀ x ∈ s.waves, s.wave? x.id = some x
  blocks : ∀ x ∈ s.blocks, s.block? x.id = some x
  grids  : ∀ x ∈ s.grids, s.grid? x.id = some x

end Sys2Proof.Machine

/-- The release of a barrier (R225, R227, R229): every wave held at a WAIT on it goes on where that WAIT completes, with its
wait point moved and the carried vector joined; a held block sequencer, or the grid sequencer at the grid barrier, likewise. A
WAIT that is the last word of the text is followed by the implicit EXIT of R402. -/
def Obligations.BarrierReleases : Prop :=
  (∀ (s : State) (b : Block) (g : Grid) (n : Nat), Distinct s → s.block? b.id = some b → s.grid? b.grid = some g → n < 16 →
    b.phase = .ready →
    (∀ x ∈ s.waves, ∀ y ∈ s.waves, x.block = b.id → y.block = b.id → x.index = y.index → x = y) →
    let bar := b.bars.getD n newBarrier
    ∃ t b', exec (.barrierRelease b.id n) s = .next t ∧ t = { s with waves := t.waves, blocks := t.blocks } ∧
      OtherBlocks s t b.id ∧ t.block? b.id = some b' ∧ b' = { b with bars := b'.bars } ∧
      (∀ m, m ≠ n → b'.bars.getD m newBarrier = b.bars.getD m newBarrier) ∧
      { b'.bars.getD n newBarrier with points := bar.points } = bar ∧
      (∀ x ∈ s.waves, x.block = b.id → waitsAt s x n → waitGoesOn g.kernel b (s.wavesOf b.id) n x.index →
        t.wave? x.id = some { x with pc := x.pc + 4, phase := .ready, fell := x.fell || leavesText g x.pc (x.pc + 4),
                                     clock := { x.clock with know := laterVector x.clock.know bar.carried } }) ∧
      ∀ x ∈ s.waves, ¬ (x.block = b.id ∧ waitsAt s x n ∧ waitGoesOn g.kernel b (s.wavesOf b.id) n x.index) →
        t.wave? x.id = some x) ∧
  (∀ (s : State) (b : Block) (g : Grid) (f : BitVec 6), s.block? b.id = some b → s.grid? b.grid = some g →
    (f.toNat < 16 → ∀ x ∈ s.wavesOf b.id, x.phase ≠ .held (.barrier f.toNat)) → (f.toNat = 16 → g.phase = .ready) →
    blockRuns s b = true → b.phase ≠ .ready → nextOfBlock s b = .own (.wait 2 f) →
    let fell := b.fell || leavesText g b.pc (b.pc + 4)
    (f.toNat < 16 → waitGoesOn g.kernel b (s.wavesOf b.id) f.toNat 16 →
      ∃ t, exec (.barrierRelease b.id f.toNat) s = .next t ∧ BlockStep s t b
        { b with pc := b.pc + 4, phase := .ready, fell := fell,
                 bars := b.bars.set f.toNat (waitedBar (b.bars.getD f.toNat newBarrier) 16),
                 clock := { b.clock with know := laterVector b.clock.know (b.bars.getD f.toNat newBarrier).carried } }) ∧
    ∀ e j, 16 ≤ f.toNat → groupOf b f = some (e, j) → (s.groupEntry g e).gen ≠ b.points.getD j 0 →
      ∃ t, exec (.barrierRelease b.id f.toNat) s = .next t ∧ BlockStep s t b
        { b with pc := b.pc + 4, phase := .ready, fell := fell, points := b.points.set j (s.groupEntry g e).gen,
                 epochSeen := if j = 4 then (s.groupEntry g e).gen else b.epochSeen }) ∧
  ∀ (s : State) (b : Block) (g : Grid), s.block? b.id = some b → s.grid? b.grid = some g → b.phase = .ready →
    gridRuns s g = true → g.phase ≠ .ready → nextOfGrid s g = .own (.wait 3 0) → (s.groupEntry g 0).gen ≠ g.point →
    ∃ t, exec (.barrierRelease b.id 16) s = .next t ∧ GridStep s t g
      { g with pc := g.pc + 4, phase := .ready, fell := g.fell || leavesText g g.pc (g.pc + 4), point := (s.groupEntry g 0).gen }

namespace Sys2Proof.Machine

/-- A condition register once an instance of a vote has ended: kd is the value and awaits nothing. -/
def voteDelivered (v : VoteState) (k kPending k' kPending' : BitVec 8) : Prop :=
  ∀ j, j < 8 → k'.getLsbD j = (if j = v.kd.toNat then v.value else k.getLsbD j) ∧
    kPending'.getLsbD j = (if j = v.kd.toNat then false else kPending.getLsbD j)

/-- The instance that follows. -/
def followingVote (v : VoteState) : VoteState := { v with number := v.number + 1, given := [] }

/-- Every wave of the kernel has contributed or exited (R175). -/
def everyoneVoted (k : Kernel) (b : Block) (ws : List Wave) (v : VoteState) : Prop :=
  v.delivered ≠ [] ∧ ∀ i, i < k.waves → i ∈ v.delivered ∨ agentExited b ws i = true

/-- A part's instance after a block's combined contribution (R175), with kd and the mode that every contribution shares. -/
def partEntered (v x : VoteState) (who : Nat) : VoteState :=
  { v with kd := x.kd, mode := x.mode, given := v.given ++ [(who, x.mode != 2 || x.claim, x.value)] }

/-- A part goes on with another kd or mode, or with another value of a UNI vote (R176). -/
def partClash (v x : VoteState) : Prop :=
  v.delivered ≠ [] ∧ (v.kd ≠ x.kd ∨ v.mode ≠ x.mode ∨ (x.mode = 2 ∧ x.claim = true ∧ v.claim = true ∧ v.value ≠ x.value))

/-- The end of an instance at block and grid scope (R175, R176, R236): the block's kd is written, the block's contribution
reaches every part of its grid, and, once every block has contributed, the grid sequencers' kd is written; a block that waits to be
placed again has not contributed (R235). -/
def VoteEnds : Prop :=
  (∀ (s : State) (b : Block) (g : Grid), s.block? b.id = some b → s.grid? b.grid = some g → ctxRuns s b.ctx = true →
    b.gvotes.delivered = [] →
    (everyoneVoted g.kernel b (s.wavesOf b.id) b.votes → ∃ t b', exec (.voteInstanceComplete (.block b.id)) s = .next t ∧
      BlockStep s t b b' ∧ b' = { b with k := b'.k, kPending := b'.kPending, votes := followingVote b.votes } ∧
      voteDelivered b.votes b.k b.kPending b'.k b'.kPending) ∧
    (¬ everyoneVoted g.kernel b (s.wavesOf b.id) b.votes →
      exec (.voteInstanceComplete (.block b.id)) s = .next s)) ∧
  (∀ (s : State) (b : Block) (g : Grid), Distinct s → s.block? b.id = some b → s.grid? b.grid = some g →
    ctxRuns s b.ctx = true → b.votes.delivered = [] → b.gvotes.mode ≠ 3 → everyoneVoted g.kernel b (s.wavesOf b.id) b.gvotes →
    g.votes.number ≤ b.gvotes.number →
    ((∀ p ∈ s.partsOf g, ¬ partClash p.votes b.gvotes) → ∃ t, exec (.voteInstanceComplete (.block b.id)) s = .next t ∧
      t = { s with blocks := t.blocks, grids := t.grids } ∧ OtherBlocks s t b.id ∧
      t.block? b.id = some { b with gvotes := followingVote b.gvotes } ∧
      ∀ p ∈ s.grids, t.grid? p.id = some (if p.launch = g.launch ∧ p.stage = g.stage then
        { p with votes := partEntered p.votes b.gvotes b.id, kPending := p.kPending ||| (1#8 <<< b.gvotes.kd.toNat) } else p)) ∧
    ((∃ p ∈ s.partsOf g, partClash p.votes b.gvotes) → exec (.voteInstanceComplete (.block b.id)) s =
      .next (haltGrid (s.putBlock { b with gvotes := followingVote b.gvotes }) g 0x11 0))) ∧
  ∀ (s : State) (g : Grid), Distinct s → s.grid? g.id = some g → ctxRuns s g.ctx = true →
    let complete := g.votes.delivered ≠ [] ∧ ∀ p ∈ s.grids, p.launch = g.launch → p.stage = g.stage →
      p.nblk ≤ p.nextBlock ∧ p.replace = [] ∧
      ∀ y ∈ s.blocks, y.grid = p.id → y.id ∈ g.votes.delivered ∨
        (y.gvotes.delivered = [] ∧ (y.ended = true ∨ ∀ w ∈ s.waves, w.block = y.id → w.phase = .exited))
    (¬ complete → exec (.voteInstanceComplete (.grid g.id)) s = .next s) ∧
    (complete → ∃ t, exec (.voteInstanceComplete (.grid g.id)) s = .next t ∧ t = { s with grids := t.grids } ∧
      ∀ p ∈ s.grids, ∃ p', t.grid? p.id = some p' ∧
        if p.launch = g.launch ∧ p.stage = g.stage then
          p' = { p with k := p'.k, kPending := p'.kPending, votes := followingVote p.votes } ∧
          voteDelivered p.votes p.k p.kPending p'.k p'.kPending
        else p' = p)

end Sys2Proof.Machine

/-- The grant of an allotment that a block waits for at its first ACQ, with the effect of the ACQ (R230); a per-thread copy that
lands: its bytes and zeros are written with the wave's tag, its tag's count falls (R82, R83); the end of a block, once its
sequencer, its waves and its queues are done (R73, R251). -/
def Obligations.GrantsAndEnds : Prop :=
  (∀ (s : State) (b : Block) (g : Grid), s.block? b.id = some b → s.grid? b.grid = some g → b.phase = .held .acq →
    blockRuns s b = true → b.acqDone = false → b.tokens.length < 4 →
    (acqRoom s b g = none → exec (.acqGrant b.id) s = .next (holdBlock s b .acq)) ∧
    ∀ a, acqRoom s b g = some a → ∃ t, exec (.acqGrant b.id) s = .next t ∧ OtherBlocks s t b.id ∧ OtherGrids s t g.id ∧
      t.block? b.id = some { b with
        pc := b.pc + 4, phase := .ready, nextSeq := b.nextSeq + 1,
        tokens := pushedTokens s b ⟨b.pc + 4, b.pc, b.tk0, b.tk1, b.nextSeq, false, false⟩, firstGran := a.gran,
        granules := a.grans, accFirst := a.acc, accRows := a.accs, acc := [], acqDone := true, acqSeq := b.nextSeq } ∧
      t = { s with blocks := t.blocks, grids := t.grids, waves := t.waves, nextId := t.nextId } ∧
      t.waves.length = s.waves.length + a.lanes.length ∧ t.waves.take s.waves.length = s.waves ∧
      ∀ w ∈ t.waves.drop s.waves.length, w.block = b.id ∧ w.pc = b.pc + 4 ∧ w.lastSeq = b.nextSeq ∧ w.phase = .ready) ∧
  (∀ (s : State) (w : Wave) (b : Block) (n : Nat) (c : CopyInFlight), s.wave? w.id = some w → s.block? w.block = some b →
    w.index < 16 → ctxRuns s b.ctx = true → w.copies[n]? = some c → Memory.wf b.scratch = true → mapWf 0 b.tags = true →
    (c.parts.map (·.len)).sum ≤ c.size →
    copyRace b (s.wavesOf b.id) ⟨w.index, c.know, w.clock.count, b.epochSeen, 0⟩ c (w.copyRanges.erase ⟨c.tag, c.dst, c.size⟩)
      w.index = none →
    (∀ p ∈ c.parts, farBad s ⟨spaceOfCode p.space, p.addr⟩ p.len = false) →
    let source := c.parts.flatMap fun p => readLoc s ⟨spaceOfCode p.space, p.addr⟩ p.len
    ∃ t b', exec (.cpaLanding w.id n) s = .next t ∧ OtherWaves s t w.id ∧ OtherBlocks s t b.id ∧
      t = { s with waves := t.waves, blocks := t.blocks } ∧
      t.wave? w.id = some { w with copies := w.copies.eraseIdx n, tagCounts := w.tagCounts.modify c.tag (· - 1) } ∧
      t.block? b.id = some b' ∧ b' = { b with scratch := b'.scratch, tags := b'.tags, badWords := b'.badWords } ∧
      SameOutside b.scratch b'.scratch c.dst c.size ∧
      (∀ k, k < c.size → readByte b'.scratch (c.dst + k) = source.getD k 0) ∧
      ∀ x, mapGet 0 b'.tags x = if x ∈ wordsOf c.dst c.size then BitVec.ofNat 32 (w.index + 32 * w.clock.count.toNat + 2 ^ 31)
        else mapGet 0 b.tags x) ∧
  ∀ (s : State) (b : Block) (g : Grid) (l : Launch), s.block? b.id = some b → s.grid? b.grid = some g →
    s.launch? g.launch = some l →
    let done := b.phase = .exited ∧ b.ended = false ∧ ctxRuns s b.ctx = true ∧ engineDrained b = true ∧
      ∀ w ∈ s.waves, w.block = b.id → w.phase = .exited
    (¬ done → exec (.blockEnd b.id) s = .next s) ∧
    (done → ∃ u, exec (.blockEnd b.id) s = .next (settleLaunches u) ∧
      u = { s with blocks := u.blocks, grids := u.grids, launches := u.launches, partitions := u.partitions, sorts := u.sorts } ∧
      OtherBlocks s u b.id ∧ OtherGrids s u g.id ∧ (∃ h, u.block? b.id = some { b with ended := true, sortHeld := h }) ∧
      u.grid? g.id = some { g with ended := g.ended ++ [b.index] } ∧
      (∀ i, i ≠ l.id → u.launch? i = s.launch? i) ∧
      u.launch? l.id = some { l with tileQueues := l.tileQueues.map fun q =>
        if q.cons = g.stage then { q with ended := q.ended ++ [b.index] } else q } ∧
      (sortArrayAt u b.isle b.core).holder ≠ some b.id)

/-- VOTE of every level and the end of a vote's instance: K and KPENDING, the votes that are entered, and their delivery. -/
def Obligations.Votes : Prop := VoteWords ∧ VoteEnds

/-- Taking a trap, and halting with a fault: what is saved, where the pc goes, and what the halt record holds. -/
def Obligations.FaultsTaken : Prop := TrapEntry ∧ HaltingFaults

/-! ### The engines at work (R71, R72, R75, R78 to R81, R84, R86 to R88, R282, R334) -/

namespace Sys2Proof.Machine

/-- The command at the head of an engine's queue, whose engine works and which waits for no verdict (R71, R330). -/
structure EngineTurn (s : State) (b : Block) (q : EngineQueue) (c : Command) : Prop where
  here  : s.block? b.id = some b
  sized : BlockSized b
  runs  : engineRuns s b q = true
  head  : headOf b q = some c
  free  : c.request = none

/-- A sync word after n more bytes (R75). -/
def counted (w : SyncWord) (n : Nat) : SyncWord :=
  if w.armed = true ∧ w.count + n = w.target then { w with gen := w.gen + 1, count := 0, armed := false }
  else { w with count := w.count + n }

/-- Some counts, one after another, overrun no sync word (R75). -/
def countsFit (w : SyncWord) : List Nat → Prop
  | [] => True
  | n :: ns => w.count + n ≤ (if w.armed then w.target else 0xFFFFF) ∧ countsFit (counted w n) ns

/-- The generation that counts the last of some pieces (R282). -/
def lastGeneration (w : SyncWord) (ns : List Nat) : Option (BitVec 16) :=
  if ns = [] then none else some ((ns.dropLast.foldl counted w).gen + 1)

/-- Pieces can land in a block's scratchpad: they are apart from one another and from the sync word, and their counts fit. -/
structure CanLand (b : Block) (sync : Nat) (pieces : List (Nat × List Byte)) : Prop where
  wf    : Memory.wf b.scratch = true ∧ mapWf 0 b.tags = true
  apart : pieces.Pairwise fun p q => p.1 + p.2.length ≤ q.1 ∨ q.1 + q.2.length ≤ p.1
  clear : ∀ p ∈ pieces, p.1 + p.2.length ≤ sync ∨ sync + 8 ≤ p.1
  fits  : countsFit (readSync b sync) (pieces.map fun p => p.2.length)

/-- Pieces have landed: their bytes are written with the writer's tag and counted into the sync word (R63, R75). -/
structure Lands (b b' : Block) (sync writer : Nat) (count : BitVec 6) (pieces : List (Nat × List Byte)) : Prop where
  bytes  : ∀ p ∈ pieces, ∀ j, j < p.2.length → readByte b'.scratch (p.1 + j) = p.2.getD j 0
  counts : readSync b' sync = (pieces.map fun p => p.2.length).foldl counted (readSync b sync)
  others : ∀ x, (∀ p ∈ pieces, x < p.1 ∨ p.1 + p.2.length ≤ x) → (x < sync ∨ sync + 8 ≤ x) →
    readByte b'.scratch x = readByte b.scratch x
  tags   : ∀ p ∈ pieces, ∀ i ∈ wordsOf p.1 p.2.length, mapGet 0 b'.tags i = scratchWritten writer count

/-- The command c has become c1: it keeps its place, or leaves its queue if that was the last of it, and then its ranges note the
generation that counted its last byte (R71, R282). -/
structure CommandDone (b b' : Block) (q : EngineQueue) (c c1 : Command) (gen : Option (BitVec 16)) (last : Prop) : Prop where
  stays  : ¬ last → queueOf b' q = c1 :: (queueOf b q).tail ∧ b'.armed = b.armed
  leaves : last → queueOf b' q = (queueOf b q).tail ∧
    b'.armed = b.armed.map fun r => if r.owner = b.id ∧ r.serial = c.serial then { r with lastGen := gen } else r
  others : ∀ p, p ≠ q → queueOf b' p = queueOf b p

/-- The same after a unit, of which a command has a number of its own (R334). -/
def UnitDone (b b' : Block) (q : EngineQueue) (c c1 : Command) (gen : Option (BitVec 16)) : Prop :=
  CommandDone b b' q c c1 gen (c1.units ≤ c1.done)

/-- What a unit changes: its block's scratchpad, queue and ranges; beside it, cached translations, the race tags in HBM and the
counters of the context. -/
structure UnitStep (s t : State) (b b' : Block) : Prop where
  here     : t.block? b.id = some b'
  others   : OtherBlocks s t b.id
  contexts : SameContexts s t
  frame    : b' = { b with scratch := b'.scratch, tags := b'.tags, badWords := b'.badWords, queues := b'.queues,
                           armed := b'.armed, fwin := b'.fwin }

/-- A link reaches every other member of a COLL (R391, R392). -/
def membersReached (s : State) (c : Command) : Prop :=
  ∀ r m, c.work.tail[r]? = some m → r ≠ c.work.headD 0 → peerReachable s m = true

/-- The commands of a queue start when they come to its head (R71, R72, R78 to R81, R84, R86, R88); a matrix command starts with the
grant in which it performs (R182, R202), and a COLL with a member that no link reaches stops with cause access (R391). -/
def EngineStarts : Prop :=
  (∀ (s : State) (b : Block) (q : EngineQueue) (c : Command), EngineTurn s b q c → c.started = false →
    let begun := fun c1 => ∃ t, exec (.engineCommandStart b.id q) s = .next t ∧ BlockStep s t b (putHead b q c1)
    (∀ d a x w, c.instr = .hist d a x w → begun { c with started := true, units := (field c.b 0 18 + 15) / 16 }) ∧
    (∀ d a x w, c.instr = .qscale d a x w → begun { c with started := true, units := field c.b 0 17 / 64 }) ∧
    ((c.instr = .mswap ∨ (∃ a x o k n, c.instr = .mpred a x o k n) ∨ (∃ a k r, c.instr = .mzero a k r) ∨
        (∃ a n f, c.instr = .mldw a n f) ∨ (∃ a x f k r, c.instr = .mstrm a x f k r) ∨
        ∃ v x a z k r, c.instr = .mcpy v x a z k r) → exec (.engineCommandStart b.id q) s = .next s) ∧
    (∀ d a x out w, q = .copy → c.instr = .bcopy d a x out w → out = 1 ∨ c.b.getLsbD 23 = false →
      let n := field c.b 0 20
      begun { c with started := true, units := (n + 63) / 64, work := [n] }) ∧
    (∀ d a x w (ctx : Context) (p : Place), q = .copy → c.instr = .bcopy d a x 0 w → c.b.getLsbD 23 = true →
      s.ctx? b.ctx = some ctx → canonical c.a = true → translate s ctx b.isle c.a .copyRead = .ok p →
      let n := field c.b 0 20
      let (fmt, geo) := (placeFmt p, placeGeo p)
      let total := if fmt = 7 then n + n / 4 + (if geo = 0 then n / 16 else 0) else n
      (fmt ≠ 0 → formatLegal b c.a.toNat fmt geo n c.d.toNat = true) →
      ∃ t b', exec (.engineCommandStart b.id q) s = .next t ∧ t = { s with blocks := t.blocks, cached := t.cached } ∧
        OtherBlocks s t b.id ∧ t.block? b.id = some b' ∧
        b' = { putHead b .copy (if fmt = 0 then { c with started := true, units := (n + 63) / 64, work := [n] }
          else { c with started := true, phase := 1, units := (total + 63) / 64, work := [total, fmt, geo] }) with
            armed := if fmt = 0 then b.armed else b.armed.map fun r =>
              if r.owner = b.id ∧ r.serial = c.serial ∧ r.write = true ∧ r.glob = false then { r with hi := r.lo + total }
              else r }) ∧
    (∀ d a x w, q = .gather → c.instr = .gath d a x w → Unwatched s b.ctx →
      let (l, m) := (field c.b 0 19, field c.b 32 13)
      engineRaceAt s b b.id c.serial .gather (commandAccessor b c) false l (4 * m) = none →
      ∃ t b', exec (.engineCommandStart b.id q) s = .next t ∧ BlockStep s t b b' ∧
        let rows := (List.range m).map fun k => leNat (readBytes b.scratch (l + 4 * k) 4)
        b' = { putHead b .gather { c with started := true, units := m, work := rows } with tags := b'.tags }) ∧
    ∀ m, c.instr = .qjoin m →
      let ready := ∀ p : EngineQueue, m.getLsbD (queueBit p) = true → ∃ x, headOf b p = some x ∧ x.serial = c.serial
      (¬ ready → exec (.engineCommandStart b.id q) s = .next s) ∧
      (ready → ∃ t b', exec (.engineCommandStart b.id q) s = .next t ∧ BlockStep s t b b' ∧
        b' = { b with queues := b'.queues } ∧
        ∀ p, queueOf b' p = if m.getLsbD (queueBit p) then (queueOf b p).tail else queueOf b p)) ∧
  (∀ (s : State) (b : Block) (c : Command) (d a x w : BitVec 5), EngineTurn s b .coll c → c.started = false →
    c.instr = .coll d a x w → Unwatched s b.ctx →
    let (n, rank, mods) := (field c.b 0 17, c.work.headD 0, c.work.tail)
    let src := readBytes b.scratch c.a.toNat n
    let mine := fun y : CollInstance => y.ctx == b.ctx && y.group == field c.b 32 8 && y.inst == field c.b 48 16 &&
      !y.sources.any (·.1 == rank)
    let params := field c.b 40 2 :: field c.b 42 2 :: n :: mods
    (earlierColl s b c = true → exec (.engineCommandStart b.id .coll) s = .next s) ∧
    (earlierColl s b c = false → ¬ membersReached s c →
      exec (.engineCommandStart b.id .coll) s = .next (stopEngine s b .coll 1 4 [])) ∧
    (earlierColl s b c = false → membersReached s c →
      engineRaceAt s b b.id c.serial .coll (commandAccessor b c) false c.a.toNat n = none →
      ∃ t b', exec (.engineCommandStart b.id .coll) s = .next t ∧ t = { s with blocks := t.blocks, colls := t.colls } ∧
        OtherBlocks s t b.id ∧ t.block? b.id = some b' ∧
        (let out := if field c.b 40 2 = 3 then n * mods.length else n
         b' = { putHead b .coll { c with started := true, units := out / 64 } with tags := b'.tags }) ∧
        (s.colls.findIdx? mine = none →
          t.colls = s.colls ++ [⟨b.ctx, field c.b 32 8, field c.b 48 16, params, [(rank, src)], []⟩]) ∧
        ∀ i y, s.colls.findIdx? mine = some i → s.colls[i]? = some y →
          t.colls = s.colls.set i { y with sources := y.sources ++ [(rank, src)],
                                           params := if y.params = params then params else [] })) ∧
  ∀ (s : State) (b : Block) (c : Command) (d a x : BitVec 5) (ctx : Context) (p : Place), EngineTurn s b .copy c →
    c.started = false → c.instr = .bmcast d a x → s.ctx? b.ctx = some ctx → canonical c.a = true →
    translate s ctx b.isle c.a .copyRead = .ok p → (∀ y ∈ s.blocks, s.block? y.id = some y) →
    (∀ e ∈ c.work, badEntry s b (field c.b 0 20) (BitVec.ofNat 64 e) = false ∧
      badFormat s b c (placeFmt p) (placeGeo p) (BitVec.ofNat 64 e) = false) →
    ∃ t b', exec (.engineCommandStart b.id .copy) s = .next t ∧ t = { s with blocks := t.blocks, cached := t.cached } ∧
      t.block? b.id = some b' ∧
      b' = { putHead b .copy { c with started := true, work := placeGeo p :: placeFmt p :: c.work } with armed := b'.armed } ∧
      (placeFmt p = 0 → b'.armed = b.armed ∧ OtherBlocks s t b.id) ∧
      ∀ j, j ≠ b.id → (t.block? j).map (fun y => { y with armed := [] }) = (s.block? j).map fun y => { y with armed := [] }

/-- The unit that performs where a choice picks one: the picked one, or the lowest that has not performed (R334, log 20). -/
def PicksUnit (s : State) (b : Block) (q : EngineQueue) (c : Command) (choice u : Nat) : Prop :=
  ∃ v, pickUnit c.done c.units c.ahead choice = some v ∧ unitInPrefix s b q c c.done c.ahead v unitOf = u

/-- The units of a BCOPY toward scratchpad and away from it (R75, R78, R79, R334). -/
def CopyUnits : Prop :=
  (∀ (s : State) (b : Block) (c : Command) (ctx : Context) (d a x w : BitVec 5) (choice u : Nat) (rs : List Reached),
    EngineTurn s b .copy c → c.started = true → c.instr = .bcopy d a x 0 w → s.ctx? b.ctx = some ctx → Unwatched s b.ctx →
    PicksUnit s b .copy c choice u →
    reachAll s ctx b.isle .copyRead
      (stretchesOf ((unitBytes (c.work.getD 0 0) u).map (copySource c (c.phase == 1)))) = .ok rs →
    (c.phase = 1 → ∀ r ∈ rs, placeFmt r.place = c.work.getD 1 0 ∧ placeGeo r.place = c.work.getD 2 0) →
    reachedRace s b (commandAccessor b c) .copy false rs = none →
    let s1 := markReached s b (commandAccessor b c) false rs
    let pieces := [(c.d.toNat + 64 * u, readReached s1 rs)]
    let c1 := progressUnit c u
    countedRace s b b.id c.serial .copy (commandAccessor b c) c.sync true (pieces.map fun p => (p.1, p.2.length)) = none →
    CanLand b c.sync pieces →
    ∃ t b', exec (.engineUnitWrite b.id .copy choice) s = .next t ∧ UnitStep s t b b' ∧
      t = { s with blocks := t.blocks, cached := t.cached, contexts := t.contexts, hbm := s1.hbm } ∧
      Lands b b' c.sync 16 c.count pieces ∧
      UnitDone b b' .copy c c1 (lastGeneration (readSync b c.sync) (pieces.map fun p => p.2.length)) ∧
      b'.fwin = if c1.units ≤ c1.done ∧ c.phase = 1 then
          b.fwin.set (field c.b 20 3) (windowValue c.d.toNat (8 * field c.b 0 20 / fmtBits (c.work.getD 1 0)) (c.work.getD 1 0)
            (c.work.getD 2 0))
        else b.fwin) ∧
  ∀ (s : State) (b : Block) (c : Command) (ctx : Context) (d a x w : BitVec 5) (choice u : Nat) (rs : List Reached),
    EngineTurn s b .copy c → c.started = true → c.instr = .bcopy d a x 1 w → s.ctx? b.ctx = some ctx → Unwatched s b.ctx →
    PicksUnit s b .copy c choice u →
    let n := min 64 (c.work.getD 0 0 - 64 * u)
    let src := c.d.toNat + 64 * u
    reachAll s ctx b.isle .copyWrite (stretchesOf ((unitBytes (c.work.getD 0 0) u).map (c.a.toNat + ·))) = .ok rs →
    countedRace s b b.id c.serial .copy (commandAccessor b c) c.sync false [(src, n)] = none →
    reachedRace s b (commandAccessor b c) .copy true rs = none → countsFit (readSync b c.sync) [n] → Memory.wf b.scratch = true →
    let s1 := markReached (writeReached s rs (readBytes b.scratch src n)) b (commandAccessor b c) true rs
    ∃ t b', exec (.engineUnitWrite b.id .copy choice) s = .next t ∧ UnitStep s t b b' ∧
      t = { s with blocks := t.blocks, cached := t.cached, contexts := t.contexts, hbm := s1.hbm, peer := s1.peer,
                   host := s1.host } ∧
      readSync b' c.sync = counted (readSync b c.sync) n ∧ SameOutside b.scratch b'.scratch c.sync 8 ∧ b'.fwin = b.fwin ∧
      UnitDone b b' .copy c (progressUnit c u) (some ((readSync b c.sync).gen + 1))

/-- Bytes cut into pieces of 64 from an address. -/
def cutPieces (dst : Nat) (bytes : List Byte) : List (Nat × List Byte) :=
  (List.range ((bytes.length + 63) / 64)).map fun k => (dst + 64 * k, (bytes.drop (64 * k)).take 64)

/-- The units of a GATH: rows of zeros for index 0xFFFF_FFFF, otherwise the record at that index (R80, R334). -/
def GatherUnits : Prop :=
  ∀ (s : State) (b : Block) (c : Command) (ctx : Context) (d a x w : BitVec 5) (choice u : Nat),
    EngineTurn s b .gather c → c.started = true → c.instr = .gath d a x w → s.ctx? b.ctx = some ctx → Unwatched s b.ctx →
    PicksUnit s b .gather c choice u →
    let n := field c.b 48 13
    1 ≤ n → n ≤ 4096 →
    let idx := c.work.getD u 0
    let lands := fun (s1 : State) (bytes : List Byte) =>
      let pieces := cutPieces (c.d.toNat + u * n) bytes
      countedRace s b b.id c.serial .gather (commandAccessor b c) c.sync true (pieces.map fun p => (p.1, p.2.length)) = none →
      CanLand b c.sync pieces →
      ∃ t b', exec (.engineUnitWrite b.id .gather choice) s = .next t ∧ UnitStep s t b b' ∧
        t = { s with blocks := t.blocks, cached := t.cached, contexts := t.contexts, hbm := s1.hbm } ∧
        Lands b b' c.sync 20 c.count pieces ∧ b'.fwin = b.fwin ∧
        UnitDone b b' .gather c (progressUnit c u) (lastGeneration (readSync b c.sync) (pieces.map fun p => p.2.length))
    (idx = 0xFFFFFFFF → lands s (List.replicate n 0)) ∧
    (idx ≠ 0xFFFFFFFF → ∀ rs,
      let va := (c.a.toNat + idx * n) % 2 ^ 64
      canonical (BitVec.ofNat 64 va) = true →
      reachAll s ctx b.isle .copyRead (stretchesOf ((List.range n).map (va + ·))) = .ok rs →
      reachedRace s b (commandAccessor b c) .gather false rs = none →
      let s1 := markReached s b (commandAccessor b c) false rs
      lands s1 (readReached s1 rs))

/-- The words of a scratchpad range, as numbers. -/
def wordsAt (b : Block) (a n : Nat) : List Nat := (List.range n).map fun k => leNat (readBytes b.scratch (a + 4 * k) 4)

/-- A histogram record after some FP32 values (R86): counts saturate, NaNs count in NANC alone, MAXA is the largest finite
magnitude. -/
structure HistogramOf (r r' : HistRecord) (vs : List Nat) : Prop where
  bins : ∀ k, k < 64 → r'.bins.getD k 0 =
    min 0xFFFFFFFF (r.bins.getD k 0 + vs.countP fun v => decide (v % 2 ^ 31 ≤ 0x7F800000) &&
      min 63 (v / 2 ^ 23 % 256 - 96) == k)
  num  : r'.num = min 0xFFFFFFFF (r.num + vs.countP fun v => decide (v % 2 ^ 31 ≤ 0x7F800000))
  nanc : r'.nanc = min 0xFFFFFFFF (r.nanc + vs.countP fun v => decide (0x7F800000 < v % 2 ^ 31))
  maxa : r'.maxa = ((vs.map (· % 2 ^ 31)).filter (· < 0x7F800000)).foldl max r.maxa

/-- The units of a HIST, and of a QSCALE (R86 to R88, R334). -/
def HistogramUnits : Prop :=
  (∀ (s : State) (b : Block) (c : Command) (d a x w : BitVec 5) (choice u : Nat),
    EngineTurn s b .copy c → c.started = true → c.instr = .hist d a x w → Unwatched s b.ctx →
    PicksUnit s b .copy c choice u →
    let n := min 16 (field c.b 0 18 - 16 * u)
    let src := c.a.toNat + 64 * u
    let rec_ := c.d.toNat
    let c1 := progressUnit c u
    let last := c1.units ≤ c1.done
    engineRaceAt s b b.id c.serial .copy (commandAccessor b c) false src (4 * n) = none →
    countedRace s b b.id c.serial .copy (commandAccessor b c) c.sync true [(rec_, 272)] = none →
    Memory.wf b.scratch = true → rec_ + 272 ≤ c.sync ∨ c.sync + 8 ≤ rec_ → (last → countsFit (readSync b c.sync) [272]) →
    ∃ t b', exec (.engineUnitWrite b.id .copy choice) s = .next t ∧ UnitStep s t b b' ∧
      t = { s with blocks := t.blocks, contexts := t.contexts } ∧ b'.fwin = b.fwin ∧
      HistogramOf (readHist (readBytes b.scratch rec_ 272)) (readHist (readBytes b'.scratch rec_ 272)) (wordsAt b src n) ∧
      readSync b' c.sync = (if last then counted (readSync b c.sync) 272 else readSync b c.sync) ∧
      (∀ y, (y < rec_ ∨ rec_ + 272 ≤ y) → (y < c.sync ∨ c.sync + 8 ≤ y) → readByte b'.scratch y = readByte b.scratch y) ∧
      UnitDone b b' .copy c c1 (some ((readSync b c.sync).gen + 1))) ∧
  ∀ (s : State) (b : Block) (c : Command) (d a x w : BitVec 5) (choice u : Nat),
    EngineTurn s b .copy c → c.started = true → c.instr = .qscale d a x w → Unwatched s b.ctx →
    PicksUnit s b .copy c choice u →
    let (n, h, src) := (field c.b 0 17, field c.b 32 19, c.a.toNat + 256 * u)
    let clip := clipOf (readHist (readBytes b.scratch h 272)) c.qpct.toNat (Config.freeDword c.step).toNat
    let scale := bandScale clip
    let vs := wordsAt b src 64
    let parts := (List.range 8).map fun k => quantBlock clip (fpDecode .bf16 scale) ((vs.drop (8 * k)).take 8)
    let pieces : List (Nat × List Byte) :=
      [(c.d.toNat + 32 * u, packNibbles (parts.flatMap (·.1))),
       (c.d.toNat + n / 2 + 8 * u, parts.map fun q => BitVec.ofNat 8 q.2),
       (c.d.toNat + n / 2 + n / 8 + 2 * u, leBytes 2 scale)]
    let c1 := progressUnit c u
    engineRaceAt s b b.id c.serial .copy (commandAccessor b c) false src 256 = none →
    engineRaceAt s b b.id c.serial .copy (commandAccessor b c) false h 272 = none →
    countedRace s b b.id c.serial .copy (commandAccessor b c) c.sync true (pieces.map fun p => (p.1, p.2.length)) = none →
    CanLand b c.sync pieces →
    ∃ t b', exec (.engineUnitWrite b.id .copy choice) s = .next t ∧ UnitStep s t b b' ∧
      t = { s with blocks := t.blocks, contexts := t.contexts } ∧ Lands b b' c.sync 21 c.count pieces ∧
      UnitDone b b' .copy c c1 (lastGeneration (readSync b c.sync) (pieces.map fun p => p.2.length)) ∧
      b'.fwin = if c1.units ≤ c1.done then b.fwin.set (field c.b 52 3) (windowValue c.d.toNat n 7 0) else b.fwin

/-- The pieces of a COLL, once every member has brought its source, and the end of an instance (R84, R334). -/
def CollectiveUnits : Prop :=
  (∀ (s : State) (b : Block) (c : Command) (d a x w : BitVec 5) (choice u : Nat) (y : CollInstance),
    EngineTurn s b .coll c → c.started = true → c.instr = .coll d a x w → Unwatched s b.ctx →
    (∀ k ∈ (queueOf b .coll).tail, k.serial ≠ c.serial) →
    PicksUnit s b .coll c choice u →
    let (rank, mods) := (c.work.headD 0, c.work.tail)
    instanceOf s b.ctx (field c.b 32 8) (field c.b 48 16) rank = some y → y.params ≠ [] →
    (¬ membersReached s c → exec (.engineUnitWrite b.id .coll choice) s = .next (stopEngine s b .coll 1 4 [])) ∧
    (membersReached s c → (∃ r, r < mods.length ∧ ∀ q ∈ y.sources, q.1 ≠ r) → exec (.engineUnitWrite b.id .coll choice) s = .next s) ∧
    (membersReached s c → (∀ r, r < mods.length → ∃ q ∈ y.sources, q.1 = r) →
      let pieces := [(c.d.toNat + 64 * u,
        collPiece y (field c.b 40 2) (field c.b 42 2) (field c.b 0 17) mods.length s.fresh u)]
      let c1 := progressUnit c u
      countedRace s b b.id c.serial .coll (commandAccessor b c) c.sync true (pieces.map fun p => (p.1, p.2.length)) = none →
      CanLand b c.sync pieces →
      ∃ t b', exec (.engineUnitWrite b.id .coll choice) s = .next t ∧ UnitStep s t b b' ∧
        t = { s with blocks := t.blocks, contexts := t.contexts, fresh := s.fresh + 4096, colls := t.colls } ∧
        Lands b b' c.sync 19 c.count pieces ∧ b'.fwin = b.fwin ∧
        UnitDone b b' .coll c c1 (lastGeneration (readSync b c.sync) (pieces.map fun p => p.2.length)) ∧
        t.colls = if c1.units ≤ c1.done then (endMember s b.ctx (field c.b 32 8) (field c.b 48 16) rank).colls
          else s.colls)) ∧
  ∀ (s : State) (ctx group inst : Nat),
    let named := fun y : CollInstance => y.ctx == ctx && y.group == group && y.inst == inst
    let done := fun y : CollInstance => y.params ≠ [] ∧ ∀ r, r + 3 < y.params.length → r ∈ y.ended
    (∀ y, s.colls.find? named = some y → done y →
      exec (.collInstanceComplete ctx group inst) s = .next { s with colls := s.colls.erase y }) ∧
    ((∀ y, s.colls.find? named = some y → ¬ done y) → exec (.collInstanceComplete ctx group inst) s = .next s)

/-- A granule of a multicast for one destination (R75, R79, R81): its bytes, each source byte read once for all destinations, land in the
destination's scratchpad and are counted in its sync word; the command leaves its queue once every destination has everything
or is skipped. -/
def CastGranules : Prop :=
  ∀ (s : State) (b e : Block) (c : Command) (ctx : Context) (d a x : BitVec 5) (choice i u v : Nat) (q : CastDest),
    EngineTurn s b .copy c → c.started = true → c.instr = .bmcast d a x → s.ctx? b.ctx = some ctx → Unwatched s b.ctx →
    (∀ y ∈ s.blocks, s.block? y.id = some y) → BlockSized e →
    (castChoices s b c)[choice % (castChoices s b c).length]? = some (i, v) → c.dests[i]? = some q →
    unitInPrefix s b .copy c q.done q.ahead v (fun u s b c => castUnit s b c i u) = u →
    let entry := castOf c i
    castTarget s b (castBlk entry) = some e →
    let format := castFormat c i
    let src := (unitBytes (castBytes c i) u).map (copySource c format)
    let lands := fun (s1 : State) (held : List (Nat × List Byte)) (bytes : List Byte) =>
      let x : Accessor := ⟨16, if e.id = b.id then c.know else e.clock.know, c.count, b.epochSeen,
        if e.id = b.id then c.serial else e.issued⟩
      let pieces := [(castDest entry + 64 * u, bytes)]
      let q1 := progressDest q u
      let full := castUnits c i ≤ q1.done
      let c1 := { c with dests := c.dests.set i q1, held := held }
      let finished := ∀ j r, c1.dests[j]? = some r → castSkipped s b c j = true ∨ castUnits c j ≤ r.done
      countedRace s e b.id c.serial .copy x (castSync entry) true (pieces.map fun p => (p.1, p.2.length)) = none →
      CanLand e (castSync entry) pieces →
      ∃ t b' e', exec (.multicastGranule b.id choice) s = .next t ∧ SameContexts s t ∧
        t = { s with blocks := t.blocks, cached := t.cached, contexts := t.contexts, hbm := s1.hbm } ∧
        (∀ j, j ≠ b.id → j ≠ e.id → t.block? j = s.block? j) ∧ t.block? b.id = some b' ∧ t.block? e.id = some e' ∧
        Lands e e' (castSync entry) 16 c.count pieces ∧
        (finished → queueOf b' .copy = (queueOf b .copy).tail) ∧ (¬ finished → queueOf b' .copy = c1 :: (queueOf b .copy).tail) ∧
        (∀ p, p ≠ .copy → queueOf b' p = queueOf b p) ∧
        (full → e'.armed = e.armed.map fun r => if r.owner = b.id ∧ r.serial = c.serial then
          { r with lastGen := some ((readSync e (castSync entry)).gen + 1) } else r) ∧ (¬ full → e'.armed = e.armed) ∧
        (full ∧ format = true → e'.fwin = e.fwin.set (castWin entry) (windowValue (castDest entry)
          (8 * field c.b 0 20 / fmtBits (c.work.getD 1 0)) (c.work.getD 1 0) (c.work.getD 0 0))) ∧
        (¬ (full ∧ format = true) → e'.fwin = e.fwin) ∧
        e' = { e with scratch := e'.scratch, tags := e'.tags, badWords := e'.badWords, armed := e'.armed, fwin := e'.fwin,
                      queues := e'.queues } ∧
        (e.id ≠ b.id → e'.queues = e.queues ∧ b' = { b with queues := b'.queues })
    ∀ rs, reachAll s ctx b.isle .copyRead (stretchesOf (src.filter fun va => (heldByte c va).isNone)) = .ok rs →
      (format = true → ∀ r ∈ rs, placeFmt r.place = c.work.getD 1 0 ∧ placeGeo r.place = c.work.getD 0 0) →
      reachedRace s b (commandAccessor b c) .copy false rs = none →
      let c1 := holdReached c s rs
      lands (markReached s b (commandAccessor b c) false rs) c1.held (src.map fun va => (heldByte c1 va).getD 0)

/-- Units complete in any order within the window of 16; the completed prefix and the units ahead of it tell which are done
(R334). A choice performs the unit it picks, or the lowest that has not performed; the lowest can always come next. -/
def UnitsInAnyOrder : Prop :=
  (∀ (s : State) (b : Block) (q : EngineQueue) (c : Command) (choice v : Nat), pickUnit c.done c.units c.ahead choice = some v →
    PicksUnit s b q c choice v ∨ PicksUnit s b q c choice c.done) ∧
  (∀ (s : State) (b : Block) (q : EngineQueue) (c : Command), c.done < c.units → c.done ∉ c.ahead →
    PicksUnit s b q c 0 c.done) ∧
  ∀ (c : Command) (u : Nat), c.ahead.Nodup → (∀ v ∈ c.ahead, c.done < v ∧ v < c.done + 16) → c.done ≤ u → u < c.done + 16 →
    u ∉ c.ahead →
    let c1 := progressUnit c u
    c1 = { c with done := c1.done, ahead := c1.ahead } ∧ c1.done ∉ c1.ahead ∧
      ∀ v, (v < c1.done ∨ v ∈ c1.ahead) ↔ (v < c.done ∨ v ∈ c.ahead ∨ v = u)

end Sys2Proof.Machine

/-- The engines' commands at work: starts, units, granules and instances. -/
def Obligations.EngineCommands : Prop :=
  EngineStarts ∧ CopyUnits ∧ GatherUnits ∧ HistogramUnits ∧ CollectiveUnits ∧ CastGranules ∧ UnitsInAnyOrder

/-! ### Grants of the matrix engine, and the sort array (R67, R68, R177 to R182, R187 to R209) -/

namespace Sys2Proof.Machine

/-- A matrix command has performed all of its writes: it leaves the queue, and a closed batch whose commands are all done
completes (R203). -/
structure MatrixFinished (b b' : Block) : Prop where
  queue  : queueOf b' .matrix = (queueOf b .matrix).tail
  others : ∀ p, p ≠ .matrix → queueOf b' p = queueOf b p
  batch  : b.completed ≠ b.closed → ∀ q, b.batches.find? (fun q => q.1 == b.completed + 1) = some q →
    ((∃ n ∈ q.2, ∃ c ∈ (queueOf b .matrix).tail, c.serial = n) → b'.completed = b.completed) ∧
    ((∀ n ∈ q.2, ∀ c ∈ (queueOf b .matrix).tail, c.serial ≠ n) → b.closed = b.completed + 1 → b'.completed = b.closed)

/-- The block has a command at the head of its matrix queue, and it is its turn on the core (R182). -/
structure MatrixTurn (s : State) (b : Block) (c : Command) : Prop where
  head : EngineTurn s b .matrix c
  turn : ∃ x, matrixNext s b.isle b.core = some x ∧ x.id = b.id

/-- The matrix engine of a core serves the blocks with non-empty queues in round robin in slot order (R182): the block whose grant has
rows left, or, of the blocks that it can serve, the first in slot order after the one that it served last. -/
def RoundRobin : Prop :=
  (∀ (s : State) (isle core : Nat) (b : Block), matrixNext s isle core = some b →
    let g := mapGet 0 s.grants (32 * isle + core)
    let place := fun y : Block => (y.slot + 8 - g / 32 % 8) % 8
    b ∈ s.blocks ∧ b.isle = isle ∧ b.core = core ∧ matrixReady s b = true ∧
    ((g % 32 ≠ 0 ∧ g / 32 = b.slot + 1 ∧ matrixBetween b = true) ∨
      ∀ y ∈ s.blocks, y.isle = isle → y.core = core → matrixReady s y = true → y.slot < 8 → place b ≤ place y)) ∧
  (∀ (s : State) (b : Block), b ∈ s.blocks → matrixReady s b = true → b.slot < 8 →
    ∃ x, matrixNext s b.isle b.core = some x) ∧
  ∀ (s : State) (b : Block) (c : Command), EngineTurn s b .matrix c →
    (∀ x, matrixNext s b.isle b.core = some x → x.id ≠ b.id) → exec (.matrixGrant b.id) s = .next s

/-- What a grant changes outside its block: the last use of the block's partition, the counters, and whose turn it is, with what is
left of a grant of 16 streamed rows (R66, R182, R369). -/
structure GrantStep (s t : State) (b b' : Block) : Prop where
  here     : t.block? b.id = some b'
  others   : OtherBlocks s t b.id
  contexts : SameContexts s t
  rest     : t = { s with blocks := t.blocks, contexts := t.contexts, grants := t.grants, partitions := s.partitions.map fun p =>
    if p.isle = b.isle ∧ p.core = b.core ∧ p.ctx = b.ctx then { p with used := s.clock } else p }
  turn     : let (g, k) := (mapGet 0 s.grants (32 * b.isle + b.core), 32 * b.isle + b.core)
    let left := if g % 32 ≠ 0 ∧ g / 32 = b.slot + 1 ∧ matrixBetween b = true then g % 32 else 16
    t.grants = mapSet 0 s.grants k (32 * (b.slot + 1) + (if matrixBetween b' then left - 1 else 0))

/-- A grant of MPRED, MZERO, MLDW and MSWAP performs the whole command (R177, R179, R182, R193, R195 to R198). -/
def MatrixGrants : Prop :=
  ∀ (s : State) (b : Block) (c : Command), MatrixTurn s b c →
    (∀ a x o col n, c.instr = .mpred a x o col n → ∃ t b', exec (.matrixGrant b.id) s = .next t ∧ GrantStep s t b b' ∧
      MatrixFinished b b' ∧
      b' = { b with queues := b'.queues, completed := b'.completed, batches := b'.batches, mr := b'.mr, mc := b'.mc } ∧
      ∀ k j, k < 4 → j < 128 →
        let span := decide (field c.a 0 8 ≤ j) && decide (j < field c.a 0 8 + field c.b 0 8)
        let written := fun old : Bool => if k = n.toNat then span || (o == 1 && old) else old
        (b'.mr.getD k 0).getLsbD j = (if col = 0 then written ((b.mr.getD k 0).getLsbD j) else (b.mr.getD k 0).getLsbD j) ∧
        (b'.mc.getD k 0).getLsbD j = (if col = 1 then written ((b.mc.getD k 0).getLsbD j) else (b.mc.getD k 0).getLsbD j)) ∧
    (∀ a k r, c.instr = .mzero a k r → mapWf 0 b.acc = true →
      (∀ i, i < 128 → (b.mr.getD r.toNat 0).getLsbD i = true → c.a.toNat + i < b.accRows) →
      ∃ t b', exec (.matrixGrant b.id) s = .next t ∧ GrantStep s t b b' ∧ MatrixFinished b b' ∧
        b' = { b with queues := b'.queues, completed := b'.completed, batches := b'.batches, acc := b'.acc, badAcc := b'.badAcc } ∧
        ∀ row col, col < 128 → accGet b' row col =
          if c.a.toNat ≤ row ∧ (b.mr.getD r.toNat 0).getLsbD (row - c.a.toNat) = true ∧ (b.mc.getD k.toNat 0).getLsbD col = true
          then 0 else accGet b row col) ∧
    (∀ a n f, c.instr = .mldw a n f →
      (∀ q ∈ planePieces c.work, q.1 + q.2 ≤ blockBytes b ∧
        engineRaceAt s b b.id c.serial .matrix (commandAccessor b c) false q.1 q.2 = none) →
      ∃ t b', exec (.matrixGrant b.id) s = .next t ∧ GrantStep s t b b' ∧ MatrixFinished b b' ∧
        b' = { b with queues := b'.queues, completed := b'.completed, batches := b'.batches, tags := b'.tags,
                      shadow := b'.shadow } ∧
        b'.shadow.fmt = c.work.getD 0 0 ∧ b'.shadow.geom = c.work.getD 1 0 ∧
        (∀ j, j < 32768 → readByte b'.shadow.bytes j = readByte b.scratch (c.work.getD 2 0 + j)) ∧
        (c.work.getD 0 0 = 7 → ∀ j, j < 8192 → readByte b'.shadow.bytes (32768 + j) = readByte b.scratch (c.work.getD 3 0 + j)) ∧
        (c.work.getD 0 0 = 7 → c.work.getD 1 0 = 0 → ∀ j, j < 2048 →
          readByte b'.shadow.bytes (40960 + j) = readByte b.scratch (c.work.getD 4 0 + j))) ∧
    (c.instr = .mswap → ∃ t b', exec (.matrixGrant b.id) s = .next t ∧ GrantStep s t b b' ∧ MatrixFinished b b' ∧
      b' = { b with queues := b'.queues, completed := b'.completed, batches := b'.batches, active := b.shadow,
                    shadow := b.active })

/-- A grant of MSTRM adds rows one after another, and NEXTI is the next streamed row; a grant of MCPY copies between the accumulators and scratchpad
(R180 to R182, R193, R200 to R202). -/
def StreamGrants : Prop :=
  (∀ (s : State) (b : Block) (c : Command) (x y : BitVec 5) (f k r : BitVec 2), MatrixTurn s b c →
    c.instr = .mstrm x y f k r → mapWf 0 b.acc = true →
    let (rows, cols, rho) := (b.mr.getD r.toNat 0, b.mc.getD k.toNat 0, c.b.toNat)
    let n := streamRowBytes b.active.fmt f
    accBad b rho rows cols = false →
    (c.done = 0 → streamPairs b.active.fmt f = true ∧
      ∀ i ∈ activeOf rows, rho + i < b.accRows ∧ rowStart c.a n i + n ≤ blockBytes b) →
    let todo := (activeOf rows).filter fun i => decide (c.done ≤ i)
    (todo = [] → ∃ t b', exec (.matrixGrant b.id) s = .next t ∧ GrantStep s t b b' ∧ MatrixFinished b b' ∧
      b' = { b with queues := b'.queues, completed := b'.completed, batches := b'.batches }) ∧
    ∀ i rest, todo = i :: rest → engineRaceAt s b b.id c.serial .matrix (commandAccessor b c) false (rowStart c.a n i) n = none →
      ∃ t b', exec (.matrixGrant b.id) s = .next t ∧ GrantStep s t b b' ∧
      b' = { b with queues := b'.queues, completed := b'.completed, batches := b'.batches, tags := b'.tags, acc := b'.acc,
                    badAcc := b'.badAcc } ∧
      (∀ row col, col < 128 → accGet b' row col =
        if row = rho + i ∧ cols.getLsbD col = true then
          let bytes := readBytes b.scratch (rowStart c.a n i) n
          BitVec.ofNat 32 (if b.active.fmt = 5 then streamSumInt b.active bytes col (accGet b row col).toNat
            else streamSum b.active f bytes col (accGet b row col).toNat)
        else accGet b row col) ∧
      (rest = [] → MatrixFinished b b') ∧
      ∀ j more, rest = j :: more → b'.completed = b.completed ∧ b'.batches = b.batches ∧
        queueOf b' .matrix = { c with started := true, done := j } :: (queueOf b .matrix).tail ∧
        ∀ p, p ≠ .matrix → queueOf b' p = queueOf b p) ∧
  ∀ (s : State) (b : Block) (c : Command) (v : BitVec 3) (x : BitVec 1) (a z : BitVec 5) (k r : BitVec 2),
    MatrixTurn s b c → c.instr = .mcpy v x a z k r → v.toNat < 4 →
    let (rows, cols, rho, e) := (b.mr.getD r.toNat 0, b.mc.getD k.toNat 0, c.b.toNat, convSize v)
    let runs := (activeOf rows).flatMap fun i => (runsOf (activeOf cols)).map fun q => (i, q.1, q.2)
    let first := fun q : Nat × Nat × Nat => rowStart c.a (128 * e) q.1 + e * q.2.1
    (∀ i ∈ activeOf rows, rho + i < b.accRows) →
    (∀ q ∈ runs, first q + e * q.2.2 ≤ blockBytes b ∧
      engineRaceAt s b b.id c.serial .matrix (commandAccessor b c) (x == 0) (first q) (e * q.2.2) = none) →
    (x = 0 → accBad b rho rows cols = false → ∃ t b', exec (.matrixGrant b.id) s = .next t ∧ GrantStep s t b b' ∧
      MatrixFinished b b' ∧
      b' = { b with queues := b'.queues, completed := b'.completed, batches := b'.batches, tags := b'.tags,
                    scratch := b'.scratch, badWords := b'.badWords } ∧
      b'.scratch = runs.foldl (fun m q => writeBytes m (first q)
        ((List.range q.2.2).flatMap fun j => narrowBytes v (accGet b (rho + q.1) (q.2.1 + j)))) b.scratch ∧
      ∀ y, (∀ q ∈ runs, y < first q ∨ first q + e * q.2.2 ≤ y) → Memory.wf b.scratch = true →
        readByte b'.scratch y = readByte b.scratch y) ∧
    (x = 1 → mapWf 0 b.acc = true → ∃ t b', exec (.matrixGrant b.id) s = .next t ∧ GrantStep s t b b' ∧ MatrixFinished b b' ∧
      b' = { b with queues := b'.queues, completed := b'.completed, batches := b'.batches, tags := b'.tags, acc := b'.acc,
                    badAcc := b'.badAcc } ∧
      ∀ row col, col < 128 → accGet b' row col =
        if rho ≤ row ∧ rows.getLsbD (row - rho) = true ∧ cols.getLsbD col = true then
          widenBytes v (readBytes b.scratch (rowStart c.a (128 * e) (row - rho) + e * col) e)
        else accGet b row col)

/-- Every other sort array is as before. -/
def OtherArrays (s t : State) (b : Block) : Prop :=
  ∀ i k, ¬ (i = b.isle ∧ k = b.core) → sortArrayAt t i k = sortArrayAt s i k

/-- A sort command starts in the block that holds the array; a free array is taken by the SRTLD that is first in line, and any
other command that would start there stops; else the block waits in line (R68, R205). -/
def SortStarts : Prop :=
  ∀ (s : State) (b : Block) (c : Command), EngineTurn s b .sort c → c.started = false →
    ((∃ a x w, c.instr = .srtld a x w) ∨ (∃ a x w, c.instr = .srtst a x w) ∨ ∃ a o e l k, c.instr = .srtgo a o e l k) →
    let arr := sortArrayAt s b.isle b.core
    let line := sortWaiters s arr
    let first := line = [] ∨ line.head? = some b.id
    let go := putHead b .sort { c with started := true }
    (arr.holder = some b.id → ∃ t, exec (.engineCommandStart b.id .sort) s = .next t ∧ BlockStep s t b go) ∧
    (((∃ h, arr.holder = some h ∧ h ≠ b.id) ∨ (arr.holder = none ∧ ¬ first)) →
      ∃ t, exec (.engineCommandStart b.id .sort) s = .next t ∧ t = { s with sorts := t.sorts } ∧ OtherArrays s t b ∧
        sortArrayAt t b.isle b.core = { arr with waiting := if b.id ∈ line then line else line ++ [b.id] }) ∧
    (arr.holder = none → first → (∃ a x w, c.instr = .srtld a x w) →
      ∃ t, exec (.engineCommandStart b.id .sort) s = .next t ∧ t = { s with blocks := t.blocks, sorts := t.sorts } ∧
        OtherArrays s t b ∧ OtherBlocks s t b.id ∧ t.block? b.id = some { go with sortHeld := true } ∧
        sortArrayAt t b.isle b.core = { arr with
          holder := some b.id, last := some b.id, waiting := line.erase b.id,
          cells := if arr.last = some b.id then arr.cells else freshCells,
          bad := if arr.last = some b.id then arr.bad else [] }) ∧
    (arr.holder = none → first → (¬ ∃ a x w, c.instr = .srtld a x w) →
      exec (.engineCommandStart b.id .sort) s = .next
        (stopEngine (putSortArray s { arr with waiting := line.erase b.id }) go .sort 8 0 []))

/-- The cell in row i and column j. -/
def cellAt (cells : List SortCell) (i j : Nat) : SortCell := cells.getD (128 * i + j) ⟨0, 0, 0⟩

/-- A row or column of `len` cells after compare step s (R188): the pairs (j, j + 1) with j of the step's parity stand in order,
every other cell is as it was. -/
structure ComparedLine (key : SortCell → Nat) (len s : Nat) (up : Bool) (old new : Nat → SortCell) : Prop where
  pairs : ∀ j, j % 2 = s % 2 → j + 1 < len →
    let wrong := if up then key (old (j + 1)) < key (old j) else key (old j) < key (old (j + 1))
    (wrong → new j = old (j + 1) ∧ new (j + 1) = old j) ∧ (¬ wrong → new j = old j ∧ new (j + 1) = old (j + 1))
  ends  : ∀ j, j < len → (j % 2 = s % 2 ∧ len ≤ j + 1) ∨ (j = 0 ∧ s % 2 = 1) → new j = old j

/-- One compare step of an SRTGO (R187 to R190, R207). -/
def SortSteps : Prop :=
  ∀ (s : State) (b : Block) (c : Command) (a : BitVec 5) (o e l : BitVec 1) (k : BitVec 3), EngineTurn s b .sort c →
    c.started = true → c.instr = .srtgo a o e l k →
    let (r, n) := (field c.a 0 7 + 1, field c.a 8 7 + 1)
    let arr := sortArrayAt s b.isle b.core
    let key := sortKey k (l == 1) (e == 1)
    arr.cells.length = 16384 → (∀ x ∈ arr.bad, ¬ (x / 128 < r ∧ x % 128 < n)) →
    let len := if c.phase % 2 = 0 then n else r
    let c1 := if c.step + 1 = len then { c with phase := c.phase + 1, step := 0 } else { c with step := c.step + 1 }
    ∃ t b' cells, exec (.sortStep b.id) s = .next t ∧ OtherBlocks s t b.id ∧ OtherArrays s t b ∧ SameContexts s t ∧
      t = { s with blocks := t.blocks, contexts := t.contexts, sorts := t.sorts } ∧ t.block? b.id = some b' ∧
      sortArrayAt t b.isle b.core = { arr with cells := cells } ∧
      (c.phase % 2 = 0 → ∀ i, i < r →
        ComparedLine key n c.step (o == 1 || i % 2 == 0) (cellAt arr.cells i) (cellAt cells i)) ∧
      (c.phase % 2 = 1 → ∀ j, j < n →
        ComparedLine key r c.step true (fun i => cellAt arr.cells i j) (fun i => cellAt cells i j)) ∧
      (∀ i j, j < 128 → (r ≤ i ∨ n ≤ j) → cellAt cells i j = cellAt arr.cells i j) ∧
      b' = { b with queues := b'.queues, armed := b'.armed } ∧
      CommandDone b b' .sort c c1 none (sortPhases r (o == 1) ≤ c1.phase)

/-- One row of an SRTLD, and of an SRTST; the last SRTST before the queue holds no more sort command releases the array (R68,
R75, R205, R206, R208). -/
def SortTransfers : Prop :=
  ∀ (s : State) (b : Block) (c : Command), EngineTurn s b .sort c → c.started = true →
    let (row, n) := (field c.b 0 7 + c.done, field c.b 16 7 + 1)
    let a := rowStart c.a (8 * n) c.done
    let arr := sortArrayAt s b.isle b.core
    let last := field c.b 8 7 + 1 ≤ c.done + 1
    arr.cells.length = 16384 → row < 128 → Memory.wf b.scratch = true →
    (∀ x y w, c.instr = .srtld x y w →
      let pieces := cutPieces a (readBytes b.scratch a (8 * n))
      let lens := pieces.map fun p => p.2.length
      countedRace s b b.id c.serial .sort (commandAccessor b c) c.sync false [(a, 8 * n)] = none → countsFit (readSync b c.sync) lens →
      ∃ t b' cells, exec (.sortTransferRow b.id) s = .next t ∧ OtherBlocks s t b.id ∧ OtherArrays s t b ∧
        t = { s with blocks := t.blocks, sorts := t.sorts } ∧ t.block? b.id = some b' ∧
        sortArrayAt t b.isle b.core = { arr with cells := cells, bad := arr.bad.filter fun x => x / 128 ≠ row } ∧
        (∀ j, j < n → cellAt cells row j =
          ⟨BitVec.ofNat 32 (leNat (readBytes b.scratch (a + 8 * j) 4)),
           BitVec.ofNat 32 (leNat (readBytes b.scratch (a + 8 * j + 4) 4)), BitVec.ofNat 14 (128 * row + j)⟩) ∧
        (∀ i j, j < 128 → (i ≠ row ∨ n ≤ j) → cellAt cells i j = cellAt arr.cells i j) ∧
        readSync b' c.sync = lens.foldl counted (readSync b c.sync) ∧ SameOutside b.scratch b'.scratch c.sync 8 ∧
        b' = { b with scratch := b'.scratch, tags := b'.tags, badWords := b'.badWords, queues := b'.queues,
                      armed := b'.armed } ∧
        CommandDone b b' .sort c { c with done := c.done + 1 } (lastGeneration (readSync b c.sync) lens) last) ∧
    ∀ x y w, c.instr = .srtst x y w → (∀ q ∈ arr.bad, q / 128 ≠ row) →
      let pieces := cutPieces a (storeRow arr.cells c.b row)
      countedRace s b b.id c.serial .sort (commandAccessor b c) c.sync true [(a, 8 * n)] = none → CanLand b c.sync pieces →
      let released := last ∧ arr.holder = some b.id ∧ ∀ k ∈ (queueOf b .sort).tail, ∃ m, k.instr = .qjoin m
      ∃ t b', exec (.sortTransferRow b.id) s = .next t ∧ OtherBlocks s t b.id ∧ OtherArrays s t b ∧
        t = { s with blocks := t.blocks, sorts := t.sorts } ∧ t.block? b.id = some b' ∧
        (released → sortArrayAt t b.isle b.core = { arr with holder := none } ∧ b'.sortHeld = false) ∧
        (¬ released → sortArrayAt t b.isle b.core = arr ∧ b'.sortHeld = b.sortHeld) ∧
        b' = { b with scratch := b'.scratch, tags := b'.tags, badWords := b'.badWords, queues := b'.queues,
                      armed := b'.armed, sortHeld := b'.sortHeld } ∧
        Lands b b' c.sync 18 c.count pieces ∧
        CommandDone b b' .sort c { c with done := c.done + 1 }
          (lastGeneration (readSync b c.sync) (pieces.map fun p => p.2.length)) last

end Sys2Proof.Machine

/-- The matrix engine's grants and the sort array's steps. -/
def Obligations.EngineGrants : Prop := RoundRobin ∧ MatrixGrants ∧ StreamGrants ∧ SortStarts ∧ SortSteps ∧ SortTransfers

/-! ### Launches, gangs, pipelines and graphs (R231, R235, R306, R313 to R317, R320, R321, R328) -/

namespace Sys2Proof.Machine

/-- Where a block goes at first: a kernel with an ACQ takes its prologue allotment of a reserved room (R230). -/
def firstAllotment (k : Kernel) (a : Allotment) (kept : Bool) : Allotment :=
  if kept && hasPrologue k then { a with grans := 1, accs := 0, lanes := a.lanes.filter fun q => q.1 == 0 } else a

/-- The dispatcher places a grid's next block on a core (R51, R230, R231, R235, R306), in its tenant's turn unless the room is
reserved (R311): a block to be placed again before any other; it and its waves stand at the entry, its storage reads zero, its
registers hold their preload values. Only where the core has no room, idempotent blocks of another context yield it (R66, R235). -/
def Placements : Prop :=
  (∀ (s : State) (g : Grid) (core : Nat), s.grid? g.id = some g → placement (demandPartition s g core) g core = none →
    exec (.blockPlacement g.id core) s = .next s) ∧
  (∀ (s : State) (g : Grid) (core : Nat), (placement s g core).isSome = true → demandPartition s g core = s) ∧
  (∀ (s : State) (g : Grid) (core : Nat), placement s g core = none → partitionAvailable s g.isle core g.ctx = true →
    demandPartition s g core = s) ∧
  ∀ (s0 : State) (g : Grid) (core : Nat) (l : Launch) (i : Nat) (a : Allotment) (kept : Bool), s0.grid? g.id = some g →
    let s := demandPartition s0 g core
    s.grid? g.id = some g → placement s g core = some (l, i, a, kept) →
    (kept = false → tenantTurn s g.isle (tenantOf s g.ctx) (wantsSlot s g.isle core) = false →
      exec (.blockPlacement g.id core) s0 = .next s0) ∧
    (kept = true ∨ tenantTurn s g.isle (tenantOf s g.ctx) (wantsSlot s g.isle core) = true →
    (g.replace ≠ [] → ∀ y ∈ s.blocks, y.grid = g.id → y.index = i → y.ended = true) →
    let x := firstAllotment g.kernel a kept
    ∃ t b ws g', exec (.blockPlacement g.id core) s0 = .next t ∧
      t = { s with blocks := s.blocks ++ [b], waves := s.waves ++ ws, grids := t.grids, nextId := s.nextId + 1 + ws.length,
                   partitions := t.partitions, contexts := t.contexts, hbm := t.hbm, peer := t.peer, host := t.host,
                   served := if kept then s.served else mapSet 0 s.served g.isle (tenantOf s g.ctx + 1) } ∧
      OtherGrids s t g.id ∧ t.grid? g.id = some g' ∧
      g' = { g with nextBlock := if g.replace = [] then g.nextBlock + 1 else g.nextBlock, replace := g.replace.tail,
                    reserved := g'.reserved } ∧
      (kept = false → g'.reserved = g.reserved) ∧
      (kept = true → g'.reserved = (g.reserved.filter fun r => r.1 ≠ i) ++
        (if hasPrologue g.kernel then [(i, { a with lanes := a.lanes.filter fun q => q.1 ≠ 0 })] else [])) ∧
      b.id = s.nextId ∧ b.grid = g.id ∧ b.ctx = g.ctx ∧ b.isle = g.isle ∧ b.index = i ∧ b.core = x.core ∧ b.slot = x.slot ∧
      b.firstGran = x.gran ∧ b.granules = x.grans ∧ b.accFirst = x.acc ∧ b.accRows = x.accs ∧ b.phase = .ready ∧
      b.pc = g.base + BitVec.ofNat 64 g.kernel.entry ∧ b.b = preloadRegs g 2 32 i 0 ∧ b.scratch = [] ∧ b.tags = [] ∧
      b.acc = [] ∧ b.idem = g.idem ∧ b.groups = blockGroups g i ∧ b.queues = List.replicate 5 [] ∧
      b.lastSeq = (if g.replace = [] then 0 else g.nextSeq - 1) ∧
      ws.map (fun w => (w.index, w.lane, w.slot)) = x.lanes ∧
      (∀ w ∈ ws, w.block = b.id ∧ w.phase = .ready ∧ w.pc = b.pc ∧ w.s = preloadRegs g 1 32 i w.index ∧ w.tba = g.tba ∧
        w.halted = 0 ∧ ∀ j, j < 64 → w.exec.getLsbD j = decide (j < g.kernel.threads)) ∧
      (((s.partitionsOn g.isle x.core).any fun p => p.ctx == g.ctx) = true → t.partitions = s.partitions ∧
        t.contexts = s.contexts ∧ SameMemory s t))

/-- An admission, and the retry of a gang (R313, R314, R317): a launch of one stage, which is not resident, takes a grid-sequencer slot and a run of the
group table, and its queue goes on; a launch whose reservations fail gives all of them up, and a gang then tries again. -/
def Admissions : Prop :=
  ∀ (s s1 : State) (l : Launch) (c : Context) (q : Queue) (isle : Nat) (p : StagePlan) (i : Instr), s.launch? l.id = some l →
    i = .launchAdmission l.id ∨ (i = .gangRetry l.id ∧ l.gang = true) →
    (∀ g ∈ s.grids, g.launch ≠ l.id ∧ g.id < s.nextId) → mapWf emptyGroup s.groups = true → s.ctx? l.ctx = some c → s.queue? l.queue = some q →
    waitsAdmission s l = true → q.request = none → readStages c l (List.range l.bodies.length) s [] = .ok s1 (some [p]) →
    l.isles = [isle] →
    (admissionTurn s1 l isle = false ∨ (l.gang = true ∧ otherGang s1 l isle = true) → exec i s = .next s1) ∧
    (admissionTurn s1 l isle = true → (l.gang = true → otherGang s1 l isle = false) → p.resident = false → l.cmpl = 0 →
      let slot := lowestFree ((s.gridsOn isle).map (·.slot)) 32
      let run := freeRun (groupRunsOn s isle) 256 (1 + p.groups.length)
      (slot = none ∨ run = none → exec i s = .next (s1.putLaunch { l with tried := true })) ∧
      ∀ k base, slot = some k → run = some base → ∃ t g, exec i s = .next t ∧
        t = { s1 with grids := s.grids ++ [g], nextId := s.nextId + 1, fresh := s.fresh + 1, groups := t.groups,
                      launches := t.launches, queues := t.queues } ∧
        t.launch? l.id = some { l with admitted := true } ∧ (∀ j, j ≠ l.id → t.launch? j = s.launch? j) ∧
        t.queue? l.queue = some (if q.wait = .admission l.id then { q with wait := .none } else q) ∧
        (∀ j, j ≠ l.queue → t.queue? j = s.queue? j) ∧
        g.id = s.nextId ∧ g.launch = l.id ∧ g.ctx = l.ctx ∧ g.isle = isle ∧ g.stage = 0 ∧ g.slot = k ∧ g.gbase = base ∧
        g.runLen = 1 + p.groups.length ∧ g.phase = .ready ∧ g.pc = p.base + BitVec.ofNat 64 p.kernel.entry ∧
        g.kernel = p.kernel ∧ g.base = p.base ∧ g.nblk = p.nblk ∧ g.tba = p.tba ∧ g.args = p.args ∧ g.groupList = p.groups ∧
        g.resident = false ∧ g.idem = p.idem ∧ g.nextBlock = 0 ∧ g.tokens = [] ∧
        t.groupEntry g 0 = ⟨0, p.nblk, 0, g.id, p.arrives, false⟩ ∧
        (∀ e, e < p.groups.length → t.groupEntry g (e + 1) = ⟨0, (p.groups.getD e []).length, 0, g.id, false, false⟩) ∧
        ∀ n, (n < isle * 256 + base ∨ isle * 256 + base + g.runLen ≤ n) →
          mapGet emptyGroup t.groups n = mapGet emptyGroup s.groups n)

/-- A step of a graph (R320, R321): a kernel node's completion, the end of the graph, a conditional, a loop, and a kernel node's
launch. -/
def GraphSteps : Prop :=
  ∀ (s : State) (q : Queue) (c : Context) (gr : GraphRun), s.queue? q.index = some q → s.ctx? q.ctx = some c →
    q.request = none → q.owed = [] → q.graphs.find? (graphReady s) = some gr →
    let onThis := fun f : GraphRun → GraphRun => { q with graphs := q.graphs.map fun g => if g.serial = gr.serial then f g else g }
    let goes := fun f => ∃ t, exec (.graphNode q.index) s = .next t ∧ t = { s with queues := t.queues, cached := t.cached } ∧
      t.queue? q.index = some (onThis f) ∧ ∀ j, j ≠ q.index → t.queue? j = s.queue? j
    let ends := fun (s1 : State) (status : Nat) => exec (.graphNode q.index) s = .next (endGraph s1 q.index gr status)
    (∀ id l st, gr.launch = some id → s.launch? id = some l → l.status = some st → l.admitted = true →
      let s1 : State := { s with launches := s.launches.filter fun x => x.id ≠ id }
      (st ≠ 0 → ends s1 st) ∧ (st = 0 → ∃ t, exec (.graphNode q.index) s = .next t ∧ t = { s1 with queues := t.queues } ∧
        t.queue? q.index = some (onThis fun g => { g with launch := none }) ∧ ∀ j, j ≠ q.index → t.queue? j = s.queue? j)) ∧
    (gr.launch = none →
      (c.halted = true → ends s 5) ∧
      (c.halted = false →
        (gr.node = 0xFFFF → ends s 0) ∧
        (gr.node ≠ 0xFFFF → 4096 ≤ gr.node → ends s 3) ∧
        ∀ s1 bs, gr.node < 4096 → cpRead s q.index .load (gr.gdesc + BitVec.ofNat 64 (64 * gr.node)) 64 = .ok s1 bs →
          (nodeOf bs = .bad → ends s1 3) ∧
          (∀ next alt pred mask s2 w, nodeOf bs = .cond next alt pred mask → cpRead s1 q.index .load pred 8 = .ok s2 w →
            goes fun g => { g with node := if BitVec.ofNat 64 (leNat w) &&& mask ≠ 0 then next else alt }) ∧
          (∀ exit body pred mask count s2 w, nodeOf bs = .loop exit body pred mask count →
            cpRead s1 q.index .load pred 8 = .ok s2 w →
            let again := BitVec.ofNat 64 (leNat w) &&& mask ≠ 0 ∧ mapGet 0 gr.passes gr.node < count
            (again → goes fun g => { g with passes := mapSet 0 g.passes gr.node (mapGet 0 gr.passes gr.node + 1),
                                            node := body }) ∧
            (¬ again → goes fun g => { g with passes := mapSet 0 g.passes gr.node 0, node := exit })) ∧
          ∀ next body s2 l, nodeOf bs = .kernel next body →
            takeLaunch s1 q c body false [homeIsle q.index] true gr.serial 0 0 = .taken s2 l →
            ∃ t, exec (.graphNode q.index) s = .next t ∧
              t = { s with launches := s.launches ++ [l], nextId := s.nextId + 1, queues := t.queues, cached := t.cached } ∧
              l.id = s.nextId ∧ l.fromGraph = true ∧ l.isles = [homeIsle q.index] ∧ l.admitted = false ∧
              t.queue? q.index = some (onThis fun g => { g with launch := some l.id, node := next }) ∧
              ∀ j, j ≠ q.index → t.queue? j = s.queue? j))

/-- A revision of the shares of pipelines (R316), which changes an admitted pipeline's shares on the isle alone: a stage held by
DEPTH gives up a core, so long as a usable one stays; a hungry one, or one without a usable core, gains a usable core that it lacks
(which core is the model's choice, log 18). -/
def ShareRevisions : Prop :=
  ∀ (s : State) (isle : Nat), ∃ t, exec (.pipelineRevision isle) s = .next t ∧ t = { s with launches := t.launches } ∧
    t.launches.length = s.launches.length ∧
    ∀ (n : Nat) (l : Launch), s.launches[n]? = some l → ∃ l', t.launches[n]? = some l' ∧ l' = { l with shares := l'.shares } ∧
      l'.shares.length = l.shares.length ∧
      (¬ (l.pipe = true ∧ l.admitted = true ∧ isle ∈ l.isles) → l' = l) ∧
      (l.pipe = true ∧ l.admitted = true ∧ isle ∈ l.isles → ∀ k cs, l.shares[k]? = some cs → ∃ cs', l'.shares[k]? = some cs' ∧
        let mine := cs.filter fun n => n / 32 = isle
        let usable := fun n => coreUsable s isle (n % 32) = true
        let gains := ((∀ x, x < 32 → coreUsable s isle x = true → 32 * isle + x ∈ cs) → cs' = cs) ∧
          ((∃ x, x < 32 ∧ coreUsable s isle x = true ∧ 32 * isle + x ∉ cs) →
            ∃ x, x < 32 ∧ coreUsable s isle x = true ∧ 32 * isle + x ∉ cs ∧ ∀ y, y ∈ cs' ↔ y ∈ cs ∨ y = 32 * isle + x)
        ((∀ n ∈ mine, ¬ usable n) → gains) ∧
        ((∃ n ∈ mine, usable n) →
          (stageHeld l k = true → (∃ n ∈ mine.dropLast, usable n) → cs' = cs.filter fun n => some n ≠ mine.getLast?) ∧
          (stageHeld l k = true → (∀ n ∈ mine.dropLast, ¬ usable n) → cs' = cs) ∧
          (stageHeld l k = false → stageHungry l k = false → cs' = cs) ∧
          (stageHeld l k = false → stageHungry l k = true → gains)))

end Sys2Proof.Machine

/-- Placement, admission, graphs, the shares of pipelines, and the progress fault, which halts the context of a grid in which
every agent waits (R232, R233, R328). -/
def Obligations.Launching : Prop :=
  Placements ∧ Admissions ∧ GraphSteps ∧ ShareRevisions ∧
  ∀ (s : State) (g : Grid), s.grid? g.id = some g →
    (watchdogRuns s g = true → exec (.progressFault g.id) s = .next (haltGrid s g 0x16 0)) ∧
    (watchdogRuns s g = false → exec (.progressFault g.id) s = .next s)

/-! ### Pre-emption, saving and restoring, and tenants (R235, R311, R312, R318, R331, R336, R337, R345, R396) -/

namespace Sys2Proof.Machine

/-- An agent stands on behalf of a context. -/
def waveOf (s : State) (i : Nat) (w : Wave) : Prop := ∃ b, s.block? w.block = some b ∧ b.ctx = i

/-- The pre-emption request (R235, R318, R336): PREQ in every wave of the context; reservations that no admission has committed
are released; idempotent blocks are gone and are to be placed again. -/
def Preemptions : Prop :=
  ∀ (s : State) (c : Context), s.ctx? c.index = some c →
    (c.halted = true ∨ c.saved = true ∨ c.preempting = true → exec (.preemptionRequest c.index) s = .next s) ∧
    (c.halted = false → c.saved = false → c.preempting = false →
      let dropped := fun b : Block => b.ctx = c.index ∧ b.idem = true ∧ b.ended = false
      (∀ b ∈ s.blocks, dropped b → s.block? b.id = some b ∧ ∃ g, s.grid? b.grid = some g ∧
        ∀ l, s.launch? g.launch = some l → l.admitted = true) →
      ∃ t c', exec (.preemptionRequest c.index) s = .next t ∧
        t = { s with contexts := t.contexts, waves := t.waves, blocks := t.blocks, grids := t.grids, groups := t.groups,
                     sorts := t.sorts, launches := t.launches } ∧
        t.ctx? c.index = some c' ∧ c' = { c with preempting := true, capture := c'.capture } ∧
        (∀ i, i ≠ c.index → t.ctx? i = s.ctx? i) ∧ (∀ w ∈ t.waves, waveOf t c.index w → w.preq = true) ∧
        committed t c.index ∧
        (∀ b ∈ s.blocks, dropped b → t.block? b.id = none ∧ (∀ w ∈ t.waves, w.block ≠ b.id) ∧
          ∃ g, t.grid? b.grid = some g ∧ b.index ∈ g.replace) ∧
        ((∀ b ∈ s.blocks, ¬ dropped b) → committed s c.index →
          t = { s with contexts := t.contexts, waves := t.waves } ∧
          ∀ j w, s.wave? j = some w →
            (waveOf s c.index w → t.wave? j = some { w with preq := true }) ∧
            (¬ waveOf s c.index w → t.wave? j = some w)))

/-- A wave that a forced save has told to stop (R337, R338): outside a run it stops; inside one it goes on to the ENDR, unless it
waits there at a full/empty operation or a vote. -/
def forcedPhase (w : Wave) : Phase :=
  if waveStands w then w.phase
  else match w.run, w.phase with
    | none, _ => .stopped
    | some _, .held .fullEmpty => .stopped
    | some _, .held .vote => .stopped
    | some _, p => p

/-- A step of a save (R331, R336, R337): agents stop; a context whose agents all stand, or that is halted, is saved, and holds
neither a partition nor a sort array any more. -/
def Saves : Prop :=
  ∀ (s : State) (c : Context), Distinct s → s.ctx? c.index = some c →
    (c.saved = true ∨ (c.halted = false ∧ c.preempting = false) → exec (.forcedSave c.index) s = .next s) ∧
    (c.saved = false → c.halted = false → c.preempting = true →
      ∃ u, (∀ i, u.ctx? i = if i = c.index then some { c with forced := true } else s.ctx? i) ∧
        u = { s with contexts := u.contexts, waves := u.waves, blocks := u.blocks, grids := u.grids } ∧
        (∀ j w, s.wave? j = some w →
          (waveOf s c.index w → u.wave? j = some { w with phase := forcedPhase w }) ∧
          (¬ waveOf s c.index w → u.wave? j = some w)) ∧
        (∀ j b, s.block? j = some b → u.block? j = some (if b.ctx = c.index ∧ b.ended = false then
          { b with phase := if phaseStands b.phase then b.phase else .stopped } else b)) ∧
        (∀ j g, s.grid? j = some g → u.grid? j = some (if g.ctx = c.index then
          { g with phase := if phaseStands g.phase then g.phase else .stopped } else g)) ∧
        (allStand u c.index = false → exec (.forcedSave c.index) s = .next u) ∧
        (allStand u c.index = true → exec (.forcedSave c.index) s = .next (completeSave u c.index))) ∧
    (c.saved = false → c.halted = true → exec (.forcedSave c.index) s = .next (completeSave s c.index)) ∧
    ∃ c', (completeSave s c.index).ctx? c.index = some c' ∧ c'.saved = true ∧
      (∀ p ∈ (completeSave s c.index).partitions, p.ctx ≠ c.index) ∧
      (∀ b ∈ s.blocks, b.ctx = c.index → (sortArrayAt (completeSave s c.index) b.isle b.core).holder ≠ some b.id) ∧
      ((∀ b ∈ s.blocks, b.ctx = c.index → b.queues = List.replicate 5 []) → (∀ w ∈ s.waves, waveOf s c.index w → w.copies = []) →
        (∀ j b, s.block? j = some b → b.ctx ≠ c.index → (completeSave s c.index).block? j = some b) ∧
        (∀ j w, s.wave? j = some w → ¬ waveOf s c.index w → (completeSave s c.index).wave? j = some w) ∧
        ∀ j g, s.grid? j = some g → g.ctx ≠ c.index → (completeSave s c.index).grid? j = some g)

/-- A restore (R220, R345, R396): the whole context or nothing; every wave and block goes on where it stood, as the save area holds it
(log 11), in room found anew; a context with a resident launch whose own blocks can fit nowhere any more halts. -/
def Restores : Prop :=
  ∀ (s : State) (c : Context), Distinct s → s.ctx? c.index = some c →
    (c.saved = false ∨ c.halted = true → exec (.contextRestore c.index) s = .next s) ∧
    (c.saved = true → c.halted = false →
      let r := savedAgents s c
      (∀ t, placeRestored s c r = some t → exec (.contextRestore c.index) s = .next t ∧
        (∃ c', t.ctx? c.index = some c' ∧
          c' = { c with
            preempting := false, forced := false, saved := false, taken := c'.taken, capture := c'.capture }) ∧
        (∀ b ∈ r.blocks, b.ended = false → ∃ b' ∈ t.blocks,
          b' = { b with
            phase := if b.phase = .stopped then .ready else b.phase, request := none, core := b'.core, slot := b'.slot,
            firstGran := b'.firstGran, accFirst := b'.accFirst, stops := b'.stops, queues := b'.queues,
            parked := b'.parked }) ∧
        ∀ w ∈ r.waves, ∀ b ∈ r.blocks, w.block = b.id → ∃ w' ∈ t.waves,
          if b.ended then w' = w
          else w' = { w with preq := false, requests := [], phase := if w.phase = .stopped then .ready else w.phase,
                             lane := w'.lane, slot := w'.slot }) ∧
      (placeRestored s c r = none → (∀ g ∈ s.grids, g.ctx = c.index → g.resident = true → residentFits s c g.launch = true) →
        exec (.contextRestore c.index) s = .next s) ∧
      (placeRestored s c r = none → (∃ g ∈ s.grids, g.ctx = c.index ∧ g.resident = true ∧ residentFits s c g.launch = false) →
        committed s c.index → ∃ t c', exec (.contextRestore c.index) s = .next t ∧ t.ctx? c.index = some c' ∧
          c'.halted = true ∧ t.waves = s.waves ∧ t.blocks = s.blocks ∧ t.grids = s.grids))

/-- Only tenant records have changed in HBM. -/
def TenantsOnly (s t : State) (isle : Nat) : Prop :=
  ∀ a, (a < baseOf (s.isle isle).tenb ∨ baseOf (s.isle isle).tenb + 8192 ≤ a) → readByte t.hbm a = readByte s.hbm a

/-- The tenant table of an isle lies in HBM, as the driver places it (R12, R298). -/
def tenantsInHbm (s : State) (isle : Nat) : Prop := rangeInHbm (baseOf (s.isle isle).tenb) 8192 = true

/-- A period boundary on an isle (R311, R312): each tenant repays at most half of its refill, takes the rest up to CAP, and what
is repaid goes to the lender of the oldest loan. -/
def Periods : Prop :=
  (∀ (s : State) (isle : Nat), Memory.wf s.hbm = true → tenantsInHbm s isle → (∀ x ∈ s.loans, x.lender < 256) →
    (∀ n, n < 256 → (readTenant s isle n).cap < 2 ^ 31 ∧ 0 ≤ (readTenant s isle n).cap) →
    ∃ t, exec (.tenantPeriodBoundary isle) s = .next t ∧ t = { s with hbm := t.hbm, loans := t.loans } ∧ TenantsOnly s t isle ∧
      ∀ n, n < 256 → (∀ x ∈ s.loans, x.isle = isle → x.lender ≠ n) →
        let x := readTenant s isle n
        let repay := min x.debt (x.refill / 2)
        readTenant t isle n = { x with bal := min x.cap (x.bal + x.refill - repay), debt := x.debt - repay }) ∧
  ∀ (s : State) (isle a b k : Nat), Memory.wf s.hbm = true → tenantsInHbm s isle → a < 256 → b < 256 → a ≠ b →
    (∀ n, n < 256 → (readTenant s isle n).cap < 2 ^ 31 ∧ 0 ≤ (readTenant s isle n).cap) →
    s.loans = [⟨isle, a, b, k⟩] → (readTenant s isle b).debt = k → (readTenant s isle a).debt = 0 →
    let m := min k ((readTenant s isle b).refill / 2)
    let x := readTenant s isle a
    ∃ t, exec (.tenantPeriodBoundary isle) s = .next t ∧
      t.loans = (if m = k then [] else [⟨isle, a, b, k - m⟩]) ∧
      (readTenant t isle a).bal = min x.cap (min x.cap (x.bal + x.refill) + m)

/-- The charge of one token to a placed block's tenant (R311, R312): from its balance, or borrowed from a tenant that lends. -/
def Charges : Prop :=
  ∀ (s : State) (b : Block) (c : Context), s.block? b.id = some b → s.ctx? b.ctx = some c → Memory.wf s.hbm = true →
    tenantsInHbm s b.isle → c.tenant < 256 →
    let me := readTenant s b.isle c.tenant
    (b.ended = true ∨ c.saved = true → exec (.tenantTokenCharge b.id) s = .next s) ∧
    (b.ended = false → c.saved = false →
      (0 < me.bal ∨ (lenderFor s b.isle c.tenant = none ∧ -(2 ^ 31) < me.bal) →
        ∃ t, exec (.tenantTokenCharge b.id) s = .next t ∧ t = { s with hbm := t.hbm } ∧ TenantsOnly s t b.isle ∧
          readTenant t b.isle c.tenant = { me with bal := me.bal - 1 } ∧
          ∀ n, n ≠ c.tenant → n < 256 → readTenant t b.isle n = readTenant s b.isle n) ∧
      ∀ l, me.bal ≤ 0 → lenderFor s b.isle c.tenant = some l →
        ∃ t, exec (.tenantTokenCharge b.id) s = .next t ∧ t = { s with hbm := t.hbm, loans := t.loans } ∧ TenantsOnly s t b.isle ∧
          readTenant t b.isle c.tenant = { me with debt := me.debt + 1 } ∧
          readTenant t b.isle l = { readTenant s b.isle l with bal := (readTenant s b.isle l).bal - 1 } ∧
          (∀ n, n ≠ c.tenant → n ≠ l → n < 256 → readTenant t b.isle n = readTenant s b.isle n) ∧
          t.loans = addLoan s.loans b.isle l c.tenant)

end Sys2Proof.Machine

/-- Pre-emption, the forced save, the restore, and the tenants' tokens. -/
def Obligations.PreemptionAndTenants : Prop := Preemptions ∧ Saves ∧ Restores ∧ Periods ∧ Charges

/-! ### Packets (R303 to R310, R315, R317, R320, R364, R369, R378 to R381) -/

namespace Sys2Proof.Machine

/-- A queue's packet in hand, which nothing holds (R303, R401). -/
structure PacketTurn (s : State) (p : Packet) (q : Queue) (c : Context) : Prop where
  queue : s.queue? p.queue = some q
  hand  : q.wait = .packet p
  free  : q.request = none ∧ q.owed = []
  ctx   : s.ctx? q.ctx = some c
  clean : q.failedAt = none

/-- Only one queue has changed, and perhaps cached translations. -/
structure QueueStep (s t : State) (q q' : Queue) : Prop where
  here   : t.queue? q.index = some q'
  others : ∀ j, j ≠ q.index → t.queue? j = s.queue? j
  rest   : t = { s with queues := t.queues, cached := t.cached }

/-- The packet has been processed and has completed. -/
def completed (q : Queue) : Queue := { q with wait := .none, openPackets := q.openPackets.filter fun n => n ≠ q.taken }

/-- The packet has to wait for the earlier packets of its queue (R303, R304). -/
def waitsForEarlier (p : Packet) (q : Queue) : Prop :=
  ((packetByte p 1 / 2 % 2 = 1) ∨ packetType p ∈ [4, 6, 7, 8, 9]) ∧ ∃ n ∈ q.openPackets, n ≠ q.taken

/-- LAUNCH and GANG (R304, R305, R315, R317, R376, R380, R381): a launch whose kernels are bound to the code that stood when its
packet was taken, and are read, agree with its body and
can fit, is taken with its own number; its queue waits for its admission. -/
def LaunchPackets : Prop :=
  ∀ (p : Packet) (s s1 s2 : State) (q : Queue) (c : Context) (i : Instr) (gang : Bool) (isles : List Nat)
    (bodies : List (List Dword)) (tiles : List TileQueue) (bound : List (Dword × Nat)) (ks : List Kernel),
    PacketTurn s p q c →
    (i = .launch p ∧ gang = false ∧ isles = [homeIsle q.index]) ∨
      (i = .gang p ∧ gang = true ∧ isles = (List.range 8).filter fun n => (packetByte p 2).testBit n) →
    let body := p.words.drop 1
    headerBad p = false → bodyGood body = true → isles ≠ [] →
    (waitsForEarlier p q → exec i s = .next s) ∧
    (¬ waitsForEarlier p q → readBodies s q.index body = .ok s1 (some (bodies, tiles)) → bindStages q.heldCode bodies = some bound →
      readKernels c q.index bound s1 [] = .ok s2 ks →
      let refused := fun status : Nat => exec i s = .next
        (completeRecord (onQueue s2 q.index leaveHand) q.index q.taken (bodyCmpl body) (bodyCval body) status)
      let agree := ∀ x ∈ bodies.zip ks, bodyNwave x.1 = x.2.waves ∧ bodyThr x.1 = x.2.threads
      let resident := ∀ x ∈ bodies.zip ks, (gang = true ∨ x.2.flags.getLsbD 1 = true) →
        bodyRes x.1 = true ∨ x.2.flags.getLsbD 0 = true
      let fits := ∀ n ∈ isles, ∀ l : Launch, l.id = s.nextId → l.ctx = c.index → l.isles = isles → l.gang = gang →
        l.bodies = bodies → l.pipe = bodyPipe body → l.shares = (if bodyPipe body then bodies.map fun _ => List.range 256 else []) →
        fitsEver s2 l n ((bodies.zip ks).map barePlan) = true
      (¬ agree → refused 3) ∧ (agree → ¬ resident → refused 1) ∧
      (agree → resident → fits → ∃ t l, exec i s = .next t ∧
        t = { s with launches := s.launches ++ [l], nextId := s.nextId + 1, queues := t.queues, cached := t.cached } ∧
        t.queue? q.index = some { q with wait := .admission l.id } ∧ (∀ j, j ≠ q.index → t.queue? j = s.queue? j) ∧
        l = { id := s.nextId, queue := q.index, serial := q.taken, ctx := c.index, gang := gang, isles := isles,
              pipe := bodyPipe body, bodies := bodies, bound := bound, cmpl := bodyCmpl body, cval := bodyCval body,
              admitted := false, fromGraph := false, status := none, tileQueues := tiles,
              shares := if bodyPipe body then bodies.map fun _ => List.range 256 else [], frozen := false, tried := false }))

/-- GRAPH, QFENCE and VWRITE (R308, R309, R320); a fence waits for the packets that were open as it was taken. -/
def ValuePackets : Prop :=
  ∀ (p : Packet) (s : State) (q : Queue) (c : Context), PacketTurn s p q c → headerBad p = false →
    (cmplValid (packetWord p 4) = true → (packetWord p 2).toNat < 2 ^ 16 → packetWord p 3 = 0 → packetWord p 6 = 0 →
      packetWord p 7 = 0 →
      (waitsForEarlier p q → exec (.graph p) s = .next s) ∧
      (¬ waitsForEarlier p q → ∃ t, exec (.graph p) s = .next t ∧ QueueStep s t q
        { q with wait := .none, graphs := q.graphs ++
          [⟨packetWord p 1, (packetWord p 2).toNat, [], none, packetWord p 4, packetWord p 5, q.taken, 0⟩] })) ∧
    ((packetWord p 1).toNat < 2 ^ 17 → (∀ x ∈ p.words.drop 2, x = 0) →
      (∀ o, s.queue? (packetWord p 1).toNat = some o → o.ctx = q.ctx) →
      (waitsForEarlier p q → exec (.qfence p) s = .next s) ∧
      (¬ waitsForEarlier p q →
        (∀ o, s.queue? (packetWord p 1).toNat = some o → o.index ≠ q.index → ∃ t, exec (.qfence p) s = .next t ∧
          QueueStep s t q { q with wait := .fence o.index q.heldOpen }) ∧
        ((∀ o, s.queue? (packetWord p 1).toNat = some o → o.index = q.index) → ∃ t, exec (.qfence p) s = .next t ∧
          QueueStep s t q (completed q)))) ∧
    ((packetWord p 1).toNat % 8 = 0 → (∀ x ∈ p.words.drop 3, x = 0) → MemoriesWf s →
      (waitsForEarlier p q → exec (.vwrite p) s = .next s) ∧
      (¬ waitsForEarlier p q → ∀ pl, canonical (packetWord p 1) = true →
        translate s c (homeIsle q.index) (packetWord p 1) .store = .ok pl →
        ∃ t, exec (.vwrite p) s = .next t ∧
          t = { s with queues := t.queues, cached := t.cached, hbm := t.hbm, peer := t.peer, host := t.host } ∧
          StoredDword s t pl.loc (packetWord p 2) ∧ t.queue? q.index = some (completed q) ∧
          ∀ j, j ≠ q.index → t.queue? j = s.queue? j))

/-- The comparison of a VWAIT (R308). -/
def waitMet (cond : Nat) (w v : Dword) : Prop :=
  (cond = 0 ∧ w = v) ∨ (cond = 1 ∧ w ≠ v) ∨ (cond = 2 ∧ v.toNat ≤ w.toNat) ∨ (cond = 3 ∧ w.toNat < v.toNat)

/-- VWAIT, and the later looks at its word (R308): it completes once the condition holds, and until then stays in hand. -/
def WaitPackets : Prop :=
  ∀ (p : Packet) (s s1 : State) (q : Queue) (c : Context) (i : Instr) (w : List Byte), PacketTurn s p q c →
    i = .vwait p ∨ (i = .vwaitPoll q.index ∧ packetType p = 5) → headerBad p = false → (packetWord p 1).toNat % 8 = 0 →
    (packetWord p 4).toNat ≤ 3 → (∀ x ∈ p.words.drop 5, x = 0) →
    (waitsForEarlier p q → exec i s = .next s) ∧
    (¬ waitsForEarlier p q → cpRead s q.index .load (packetWord p 1) 8 = .ok s1 w →
      let met := waitMet (packetWord p 4).toNat (BitVec.ofNat 64 (leNat w) &&& packetWord p 3) (packetWord p 2)
      (met → ∃ t, exec i s = .next t ∧ QueueStep s t q (completed q)) ∧
      (¬ met → exec i s = .next s1 ∧ s1 = { s with cached := s1.cached }))

/-- A CODEPUB whose image is read (R378 to R380): one that passes its checks makes its version current in one step, and the
record says so; one that fails changes nothing but its record. -/
def PublishPackets : Prop :=
  ∀ (p : Packet) (s s1 s2 : State) (q : Queue) (c : Context) (hb code : List Byte), PacketTurn s p q c → headerBad p = false →
    packetWord p 5 = 0 → packetWord p 6 = 0 → packetWord p 7 = 0 → (packetWord p 4).toNat % 16 = 0 →
    ((∃ n ∈ q.openPackets, n ≠ q.taken) → exec (.codepub p) s = .next s) ∧
    ((∀ n ∈ q.openPackets, n = q.taken) → cpRead s q.index .load (packetWord p 1) 64 = .ok s1 hb →
      let h := imageHeader hb
      let (cbase, home, result) := (packetWord p 2, packetWord p 3, packetWord p 4)
      let isle := homeIsle q.index
      (headerGood h = false → exec (.codepub p) s = .next (endCodepub s1 q result none 1 none)) ∧
      (headerGood h = true → cpRead s1 q.index .load (packetWord p 1 + BitVec.ofNat 64 h.codeOff) h.codeSize = .ok s2 code →
        (∀ st place, checkCode Config.partStep.toNat h code = (st, place) → st ≠ 0 →
          exec (.codepub p) s = .next (endCodepub s2 q result none st place)) ∧
        ((checkCode Config.partStep.toNat h code).1 = 0 →
          let old := (objectAt c home).bind currentVersion
          (home ≠ 0 → old = none → exec (.codepub p) s = .next (endCodepub s2 q result none 5 none)) ∧
          (∀ v, home ≠ 0 → old = some v → h.nkern < v.textEnds.length →
            exec (.codepub p) s = .next (endCodepub s2 q result none 6 none)) ∧
          ((home = 0 ∨ ∃ v, old = some v ∧ v.textEnds.length ≤ h.nkern) → cbase.toNat % 65536 = 0 →
            (∀ b ∈ boundBases s2 c, cbase.toNat + code.length ≤ b.toNat ∨ b.toNat + sizeAt c b ≤ cbase.toNat) →
            checkPages s2 c isle cbase ((code.length + 4095) / 4096) = .good →
            let number := if home = 0 then 1 else (old.map fun v => v.number).getD 0 + 1
            let ds := descriptorsOf code h.nkern
            let v : Version := ⟨number, cbase, code.length, ds.map (textEndOf ds code.length), ds.map (textArrives code ds)⟩
            let kept := c.objects.map fun o => { o with versions := o.versions.filter fun w =>
              cbase.toNat + code.length ≤ w.base.toNat ∨ w.base.toNat + w.size ≤ cbase.toNat }
            let longer := kept.map fun o => if o.home = home then { o with versions := o.versions ++ [v] } else o
            let c1 := { c with objects := if home = 0 then ⟨cbase, [v]⟩ :: kept else longer }
            let s3 := (copyCode s2 c isle cbase code).putCtx c1
            exec (.codepub p) s = .next (endCodepub s3 q result (some number) 0 none) ∧
            ∀ pl, canonical result = true → translate s3 c1 isle result .store = .ok pl → MemoriesWf s3 →
              ∃ t, exec (.codepub p) s = .next t ∧ t.ctx? c.index = some c1 ∧ t.queue? q.index = some (completed q) ∧
                (readLoc t pl.loc 16).take 12 = leBytes 8 number ++ leBytes 4 0))))

/-- CAPSTART opens a window of the context whose counters start at zero; CAPSTOP closes it and writes the counters of the window,
each the sum over the package's cores, where CBUF's page can be written (R364, R365, R369). -/
def CapturePackets : Prop :=
  ∀ (p : Packet) (s : State) (q : Queue) (c : Context), PacketTurn s p q c → headerBad p = false →
    (captureGood p = true → c.capture.isOpen = false →
      ((∃ n ∈ q.openPackets, n ≠ q.taken) → packetType p = 8 → exec (.capstart p) s = .next s) ∧
      ((∀ n ∈ q.openPackets, n = q.taken) → ∃ t c', exec (.capstart p) s = .next t ∧ t.ctx? c.index = some c' ∧
        c'.capture = { isOpen := true, sbuf := packetWord p 1, scap := 2 ^ packetByte p 32, sdrop := 0, scount := 0,
                       rbuf := packetWord p 2, rcap := 2 ^ packetByte p 33, rdrop := 0, rcount := 0, cbuf := packetWord p 3,
                       sper := packetByte p 34, twin := packetByte p 35, watch := BitVec.ofNat 16 (packetByte p 36),
                       counters := [], opened := s.clock, cycFrom := some s.clock, cyc := 0, sampled := [], rotation := [] } ∧
        c' = { c with capture := c'.capture } ∧ (∀ j, j ≠ c.index → t.ctx? j = s.ctx? j) ∧
        t.queue? q.index = some (completed q) ∧ (∀ j, j ≠ q.index → t.queue? j = s.queue? j) ∧
        t = { s with contexts := t.contexts, queues := t.queues, hbm := t.hbm, peer := t.peer, host := t.host } ∧
        (packetWord p 1 = 0 → packetWord p 2 = 0 → SameMemory s t))) ∧
    ((∀ x ∈ p.words.drop 1, x = 0) → c.capture.isOpen = true →
      ((∃ n ∈ q.openPackets, n ≠ q.taken) → packetType p = 9 → exec (.capstop p) s = .next s) ∧
      ((∀ n ∈ q.openPackets, n = q.taken) → ∃ t c', exec (.capstop p) s = .next t ∧ t.ctx? c.index = some c' ∧
        c'.capture.isOpen = false ∧ c' = { c with capture := c'.capture } ∧ (∀ j, j ≠ c.index → t.ctx? j = s.ctx? j) ∧
        t.queue? q.index = some (completed q) ∧ (∀ j, j ≠ q.index → t.queue? j = s.queue? j) ∧
        t = { s with contexts := t.contexts, queues := t.queues, hbm := t.hbm, peer := t.peer, host := t.host } ∧
        ((∀ y ∈ c.capture.counters, y.1 < 256 * 4096) →
        ∀ (x : CachedXlat) (pa e : Nat), Memory.wf s.hbm = true → c.watch.length = 16 → canonical c.capture.cbuf = true →
          c.capture.cbuf.toNat % 4096 + 0x128 ≤ 4096 → (∀ y ∈ s.cached, 12 ≤ y.shift) → x ∈ s.cached →
          x.isle = homeIsle q.index → x.pasid = c.pasid → x.page = c.capture.cbuf.toNat % 2 ^ 57 / 2 ^ x.shift →
          translate s c (homeIsle q.index) c.capture.cbuf .store = .ok ⟨⟨.hbm, pa⟩, e⟩ →
          ∀ o ∈ [0x08, 0x10, 0x18, 0x20, 0x28, 0x30, 0x38, 0x40, 0x48, 0x50, 0x58],
            readBytes t.hbm (pa + o) 8 =
              leBytes 8 (((List.range 256).map fun core => mapGet 0 c.capture.counters (4096 * core + o)).sum))))

end Sys2Proof.Machine

/-- What the packets of a queue do. -/
def Obligations.Packets : Prop := LaunchPackets ∧ ValuePackets ∧ WaitPackets ∧ PublishPackets ∧ CapturePackets

/-! ### Rings, fault records and capture records (R28, R299 to R304, R311, R323, R324, R365 to R371) -/

namespace Sys2Proof.Machine

/-- The packet of a slot. -/
def slotPacket (q : Queue) (bs : List Byte) : Packet :=
  ⟨q.index, (List.range 8).map fun i => BitVec.ofNat 64 (leNat ((bs.drop (8 * i)).take 8))⟩

/-- A running queue's next slot shows a packet of a listed type (R300, R303). -/
structure SlotShows (s : State) (q : Queue) (c : Context) (j : Nat) (bs : List Byte) (i : Instr) : Prop where
  queue  : s.queue? q.index = some q
  single : (s.queues.map (·.index)).Nodup
  ctx    : s.ctx? q.ctx = some c
  runs   : q.enabled = true ∧ q.qstat = 0 ∧ q.wait = .none ∧ q.request = none ∧ q.owed = [] ∧ q.failedAt = none
  next   : q.next = some j
  bytes  : ∃ pl va, va = q.ring + BitVec.ofNat 64 (64 * (j % 2 ^ q.log2)) ∧ va.toNat % 64 = 0 ∧ canonical va = true ∧
    translate s c (homeIsle q.index) va .load = .ok pl ∧ bs = readLoc s pl.loc 64 ∧ farBad s pl.loc 64 = false
  filled : leNat (bs.take 8) % 256 ≠ 0 ∧ leNat (bs.take 8) / 2 ^ 15 % 2 = j / 2 ^ q.log2 % 2
  listed : packetEvent (slotPacket q bs) = some i

/-- A tenant's turn on an isle (R311): it may be served, and no other that may be served and has a ready queue comes before it in
round robin. -/
def TurnComes (s : State) (isle t : Nat) : Prop :=
  tenantMay s isle t = true ∧ ∀ x ∈ s.contexts, x.tenant = t ∨ tenantRank s isle t < tenantRank s isle x.tenant ∨
    tenantMay s isle x.tenant = false ∨
    ∀ y ∈ s.queues, homeIsle y.index = isle → tenantOf s y.ctx = x.tenant → y.readySince = none ∨ queueTakes y = false

/-- A packet is taken (R299, R301, R304, R309, R311, R381): it is in hand and open, with the code versions and the open packets of
the queue that a fence names as they stand, its step comes next, its tenant has been served, and the read index is published where
2^PUBN packets have been taken since or the packet asks for it. -/
structure PacketTaken (s t : State) (q : Queue) (c : Context) (j : Nat) (bs : List Byte) (i : Instr) : Prop where
  agenda : t.agenda = .event i :: s.agenda
  others : ∀ k, k ≠ q.index → t.queue? k = s.queue? k
  rest   : t = { s with
    queues := t.queues, cached := t.cached, agenda := t.agenda, hbm := t.hbm, peer := t.peer, host := t.host,
    served := mapSet 0 s.served (homeIsle q.index) (c.tenant + 1) }
  taken  : let p := slotPacket q bs
    let next := (j + 1) % 2 ^ 64
    let q' := { q with next := some next, taken := q.taken + 1, openPackets := q.openPackets ++ [q.taken + 1],
                       wait := .packet p, readySince := none, heldCode := c.objects,
                       heldOpen := if packetType p = 6 then
                         ((s.queue? ((packetWord p 1).toNat % 2 ^ 17)).map fun x : Queue => x.openPackets).getD [] else [] }
    let due := 2 ^ q.pubn ≤ q.sincePub + 1 ∨ packetByte p 1 % 2 = 1
    (¬ due → SameMemory s t ∧ t.queue? q.index = some { q' with sincePub := q.sincePub + 1 }) ∧
    (due → ∀ pl, MemoriesWf s → canonical q.rptr = true → q.rptr.toNat % 8 = 0 →
      translate s c (homeIsle q.index) q.rptr .store = .ok pl →
      StoredDword s t pl.loc (BitVec.ofNat 64 next) ∧ t.queue? q.index = some { q' with sincePub := 0 })

/-- Kicks, rescans and the answers of a plug-in (R302, R311, R323, R388, R393): a kick works through the function that owns the
queue's context alone, and an answer where the tenant's plug-in image stands. -/
def RingLooks : Prop :=
  (∀ (s : State) (q : Queue) (c : Context) (j : Nat) (bs : List Byte) (i : Instr), SlotShows s q c j bs i →
    TurnComes s (homeIsle q.index) c.tenant → q.index < 131072 →
    ((∀ y ∈ s.queues, y.index ≠ q.index → homeIsle y.index = homeIsle q.index → tenantOf s y.ctx = c.tenant →
        y.readySince = none ∨ queueTakes y = false) →
      ∃ t, exec (.kickPageWrite (131072 * functionOf s q.ctx + q.index) 0) s = .next t ∧ PacketTaken s t q c j bs i) ∧
    (settleLaunches s = s → q.graphs = [] → (∀ y ∈ s.queues, homeIsle y.index = homeIsle q.index → y = q) →
      ∃ t, exec (.ringRescan (homeIsle q.index)) s = .next t ∧ PacketTaken s t q c j bs i) ∧
    (let ready := readyQueues s (homeIsle q.index) c.tenant
     q ∈ ready → 2 ≤ ready.length → pluginStands s c.tenant = true →
      (∃ t, exec (.pluginAnswer (homeIsle q.index) c.tenant q.index) s = .next t ∧ PacketTaken s t q c j bs i) ∧
      (earliestQueue ready = some q →
        let g := s.isle (homeIsle q.index)
        let s1 := s.putIsle (homeIsle q.index) { g with replaced := g.replaced + 1 }
        ∃ t, exec (.pluginAnswerTimeout (homeIsle q.index) c.tenant) s = .next t ∧ PacketTaken s1 t q c j bs i))) ∧
  (∀ (s : State) (n offset : Nat), (offset ≠ 0 ∨ ∀ q, s.queue? (n % 131072) = some q →
      q.enabled = false ∨ functionOf s q.ctx ≠ n / 131072) →
    exec (.kickPageWrite n offset) s = .next s) ∧
  (∀ (s : State) (isle : Nat), (∀ q ∈ s.queues, homeIsle q.index ≠ isle) →
    exec (.ringRescan isle) s = .next (settleLaunches s)) ∧
  ∀ (s : State) (isle tenant n : Nat), (readyQueues s isle tenant).length ≤ 1 ∨ pluginStands s tenant = false →
    exec (.pluginAnswer isle tenant n) s = .next s ∧ exec (.pluginAnswerTimeout isle tenant) s = .next s

/-- The oldest request that is not reported yet is written at HEAD of the isle's ring, unless the ring is full (R28, R324); a page
request beyond its function's allocation waits unreported (R389). -/
def FaultRecords : Prop :=
  ∀ (s : State) (isle : Nat),
    let g := s.isle isle
    let entries := 2 ^ (field g.fltrb 52 4 + 6)
    let open_ := fun r : Request => r.isle = isle ∧ r.written = false ∧ r.verdict = none ∧ (r.ats = 0 ∨ pageSent s r = true)
    ((∀ r ∈ s.requests, ¬ open_ r) ∨ (g.head - g.tail).toNat = entries → exec (.faultRecordWrite isle) s = .next s) ∧
    ∀ (r : Request) (before after : List Request), isle < s.isles.length → s.requests = before ++ r :: after → open_ r →
      (∀ x ∈ before, ¬ open_ x) → (g.head - g.tail).toNat ≠ entries → Memory.wf s.hbm = true →
      let at_ := field g.fltrb 12 40 * 4096 + 32 * (g.head.toNat % entries)
      rangeInHbm at_ 32 = true → ∃ t, exec (.faultRecordWrite isle) s = .next t ∧
        t = { s with hbm := t.hbm, requests := before ++ { r with written := true } :: after, isles := t.isles,
                     platform := { s.platform with msix := s.platform.msix ++ [1] } } ∧
        t.isle isle = { g with head := g.head + 1 } ∧ (∀ k, k ≠ isle → t.isle k = s.isle k) ∧
        SameOutside s.hbm t.hbm at_ 32 ∧
        leNat (readBytes t.hbm at_ 8) = r.va.toNat % 2 ^ 57 ∧
        (let w := BitVec.ofNat 64 (leNat (readBytes t.hbm (at_ + 8) 8))
         field w 0 20 = r.pasid % 2 ^ 20 ∧ field w 20 4 = r.kind % 16 ∧ field w 24 4 = r.kind / 16 % 16 ∧
         field w 28 8 = r.core % 256 ∧ field w 36 12 = 0 ∧ field w 48 16 = r.seq % 2 ^ 16) ∧
        ∀ n, n < 16 → readByte t.hbm (at_ + 16 + n) = 0

/-- The class of a held agent (R367). -/
def heldClass (h : Hold) : Nat :=
  match h with
  | .scoreboard | .await | .voteRead => 3
  | .barrier _ | .group _ | .vote | .acq | .grpset => 4
  | .token => 5
  | .mwait | .sync _ | .batch => 7
  | _ => 6

/-- A sample of an agent (R365, R367), once a period for each lane and core, whose eligible slots come in turn: pc, regions, class,
kind, place and block identifier; a buffer that is full, or whose page cannot be written, counts it as dropped. Which of classes 0
to 2 a ready agent has is timing, which the model leaves open (log 5). -/
def Samples : Prop :=
  ∀ (s : State) (c : Context) (isle n : Nat) (a : Agent) (x : Sampled) (pc : Dword) (regions kind core : Nat) (ident : BitVec 20)
    (ph : Phase), s.ctx? n = some c → c.index = n →
    (∃ w b, a = .wave w.id ∧ s.wave? w.id = some w ∧ s.block? w.block = some b ∧ b.ctx = n ∧ b.ended = false ∧
      w.haltedWave = false ∧ pc = w.pc ∧ regions = recordRegions w.regions ∧ kind = 0 ∧ core = b.core ∧ isle = b.isle ∧
      ident = b.ident ∧ ph = w.phase ∧ x = ⟨16 * (32 * isle + core) + w.lane, w.slot⟩) ∨
    (∃ b, a = .block b.id ∧ s.block? b.id = some b ∧ b.ctx = n ∧ b.ended = false ∧ pc = b.pc ∧ regions = 0 ∧ kind = 1 ∧
      core = b.core ∧ isle = b.isle ∧ ident = b.ident ∧ ph = b.phase ∧ x = ⟨2 ^ 14 + 32 * isle + core, b.slot⟩) →
    ph ≠ .exiting → ph ≠ .exited →
    let (all, last) := (sampledOf s n, mapGet 0 c.capture.rotation x.key)
    let place := fun slot : Nat => (slot + 1024 - last) % 1024
    let window := c.capture.isOpen = true ∧ c.capture.sbuf ≠ 0 ∧ c.saved = false
    let turn := ∀ y ∈ all, y.key = x.key → place x.slot ≤ place y.slot
    let seen := ∀ y ∈ all, y.key ∈ c.capture.sampled
    (¬ window ∨ ¬ turn ∨ (x.key ∈ c.capture.sampled ∧ ¬ seen) → exec (.pcSample a) s = .next s) ∧
    (window → turn → (x.key ∈ c.capture.sampled → seen) →
      let va := c.capture.sbuf + 64 + BitVec.ofNat 64 (32 * c.capture.scount)
      let cap := { c.capture with sampled := if x.key ∈ c.capture.sampled then [x.key] else c.capture.sampled ++ [x.key],
                                  rotation := mapSet 0 c.capture.rotation x.key (x.slot + 1) }
      ∃ t c', exec (.pcSample a) s = .next t ∧ t.ctx? n = some c' ∧
        c' = { c with capture := c'.capture } ∧ (∀ j, j ≠ n → t.ctx? j = s.ctx? j) ∧
        t = { s with contexts := t.contexts, fresh := s.fresh + 1, hbm := t.hbm, peer := t.peer, host := t.host } ∧
        (c.capture.scap ≤ c.capture.scount → c'.capture = { cap with sdrop := c.capture.sdrop + 1 }) ∧
        ∀ p, c.capture.scount < c.capture.scap → canonical va = true → translate s c isle va .store = .ok p →
          c'.capture = { cap with scount := c.capture.scount + 1, counters := c'.capture.counters } ∧
          ∃ cls, (∀ h, ph = .held h → cls = heldClass h) ∧ (ph = .ready → cls < 3) ∧
            (ph = .stopped → cls = 8) ∧
            let bytes := leBytes 8 pc.toNat ++ leBytes 8 regions ++ [BitVec.ofNat 8 cls, BitVec.ofNat 8 kind, 0, 0] ++
              leBytes 4 (x.slot % 128 + core % 32 * 128 + isle % 8 * 4096) ++ leBytes 8 ident.toNat
            let s1 := { s with fresh := s.fresh + 1 }.putCtx { c with capture := cap }
            t = updateHeader (addCounter ((writeLoc s1 p.loc bytes).putCtx
              { c with capture := { cap with scount := c.capture.scount + 1 } }) n (32 * isle + core) 0x50 1) n isle true)

/-- A tagged record of an issue of a wave, which it shows once (R365, R368): pc, live beats, passes and the deepest store it reached; a
buffer that is full, or whose page cannot be written, counts it as dropped; its cycle counts the model leaves open (log 16). -/
def TaggedRecords : Prop :=
  ∀ (s : State) (w : Wave) (b : Block) (c : Context), s.wave? w.id = some w → s.block? w.block = some b →
    s.ctx? b.ctx = some c → c.index = b.ctx →
    (c.capture.isOpen = false ∨ c.capture.twin = 0 ∨ c.capture.rbuf = 0 ∨ c.saved = true ∨ w.issue = none →
      exec (.taggedRecord w.id) s = .next s) ∧
    ∀ x, c.capture.isOpen = true → c.capture.twin ≠ 0 → c.capture.rbuf ≠ 0 → c.saved = false → w.issue = some x →
      let va := c.capture.rbuf + 64 + BitVec.ofNat 64 (64 * c.capture.rcount)
      ∃ t c', exec (.taggedRecord w.id) s = .next t ∧ t.ctx? b.ctx = some c' ∧ c' = { c with capture := c'.capture } ∧
        (∀ j, j ≠ b.ctx → t.ctx? j = s.ctx? j) ∧ t.wave? w.id = some { w with issue := none } ∧ OtherWaves s t w.id ∧
        t = { s with contexts := t.contexts, waves := t.waves, fresh := s.fresh + 5, hbm := t.hbm, peer := t.peer,
                     host := t.host } ∧
        (c.capture.rcap ≤ c.capture.rcount → c'.capture = { c.capture with rdrop := c.capture.rdrop + 1 }) ∧
        ∀ p, c.capture.rcount < c.capture.rcap → canonical va = true → translate s c b.isle va .store = .ok p →
          ∃ bytes, bytes.length = 64 ∧
            bytes.take 16 = [2, BitVec.ofNat 8 x.level, BitVec.ofNat 8 x.beats, BitVec.ofNat 8 x.passes] ++
              leBytes 4 (w.slot % 128 + b.core % 32 * 128 + b.isle % 8 * 4096) ++ leBytes 8 x.pc.toNat ∧
            bytes.drop 56 = leBytes 8 (recordRegions w.regions) ∧
            t = addCounter (writeRecord ({ s with fresh := s.fresh + 5 }.putWave { w with issue := none }) b.ctx b.isle bytes)
              b.ctx (32 * b.isle + b.core) 0x58 1

end Sys2Proof.Machine

/-- Looks at rings, fault records, samples and tagged records. -/
def Obligations.RingsAndRecords : Prop := RingLooks ∧ FaultRecords ∧ Samples ∧ TaggedRecords

/-! ### Invalidations, verdicts and the host's answers (R15, R24, R25, R27 to R30, R338, R399, R401) -/

namespace Sys2Proof.Machine

/-- No wave has a per-thread copy on its way. -/
def noCopies (s : State) : Prop := ∀ w ∈ s.waves, w.copies = []

/-- A translation that an XLINVC drops, by its SCOPE (R30): pages that meet the named one, a PASID's, or all. -/
def invalidated (scope size pasid va : Nat) (c : CachedXlat) : Prop :=
  (scope = 0 ∧ c.pasid = pasid ∧
    (let n := if size = 0 then 2 ^ 16 else if size = 1 then 2 ^ 21 else 2 ^ 30
     let lo := va / n * n
     c.page * 2 ^ c.shift < lo + n ∧ lo < (c.page + 1) * 2 ^ c.shift)) ∨
  (scope = 1 ∧ c.pasid = pasid) ∨ scope = 2

/-- The start of an invalidation, which is ignored while GO reads 1 or for a reserved size of a page, and its end, at which no isle's
cache holds what it names; the fields that a step does not take stand as the write stored them (R30, R399). -/
def Invalidations : Prop :=
  (∀ (s : State) (isle pasid size : Nat), 3 ≤ size → exec (.xlinvcOnePage isle pasid size) s = .next s) ∧
  (∀ (s : State) (isle pasid size scope : Nat) (kept : Dword) (i : Instr), s.platform.booted = true → isle < s.isles.length →
    mapWf 0 s.invalidating = true → pasid < 2 ^ 20 →
    (i = .xlinvcOnePage isle pasid size ∧ scope = 0 ∧ size < 3 ∧ kept = 0) ∨
      (i = .xlinvcWholePasid isle pasid ∧ scope = 1 ∧ size = 0 ∧ kept = 0xC00000) ∨
      (i = .xlinvcAllPasids isle ∧ scope = 2 ∧ size = 0 ∧ pasid = 0 ∧ kept = 0xCFFFFF) →
    let g := s.isle isle
    (g.xlinvc.getLsbD 31 = true → exec i s = .next s) ∧
    (g.xlinvc.getLsbD 31 = false → ∃ t, exec i s = .next t ∧ t = { s with isles := t.isles, invalidating := t.invalidating } ∧
      t.isle isle = { g with
        xlinvc := BitVec.ofNat 64 (pasid + scope * 2 ^ 20 + size * 2 ^ 22 + 2 ^ 31) ||| (g.xlinvc &&& kept) } ∧
      (∀ k, k ≠ isle → t.isle k = s.isle k) ∧
      ∀ k, mapGet 0 t.invalidating k = if k = isle + 1 then g.xlinva else mapGet 0 s.invalidating k)) ∧
  (∀ (s : State) (i : Instr), s.platform.booted = false → (∃ a b c, i = .xlinvcOnePage a b c) ∨ (∃ a b, i = .xlinvcWholePasid a b) ∨
    (∃ a, i = .xlinvcAllPasids a) → exec i s = .next s) ∧
  ∀ (s : State) (isle : Nat), isle < s.isles.length →
    let v := (s.isle isle).xlinvc
    (v.getLsbD 31 = false → exec (.invalidationComplete isle) s = .next s) ∧
    (v.getLsbD 31 = true → noCopies s → field v 20 2 < 3 → mapWf 0 s.invalidating = true →
      ∃ t, exec (.invalidationComplete isle) s = .next t ∧
        t = { s with isles := t.isles, cached := t.cached, invalidating := t.invalidating } ∧
        (t.isle isle = { s.isle isle with xlinvc := v &&& ~~~0x80000000 }) ∧ (∀ k, k ≠ isle → t.isle k = s.isle k) ∧
        (∀ c, c ∈ t.cached ↔ c ∈ s.cached ∧ ¬ invalidated (field v 20 2) (field v 22 2) (field v 0 20)
          ((mapGet 0 s.invalidating (isle + 1)).toNat % 2 ^ 57) c) ∧
        ∀ k, mapGet 0 t.invalidating k = if k = isle + 1 then 0 else mapGet 0 s.invalidating k)

/-- What waits for a request: waves, sequencers, engine commands and queues of its isle (R27, R29). -/
structure NobodyElse (s : State) (r : Request) (w : Option Nat) (b : Option Nat) (q : Option Nat) : Prop where
  waves  : ∀ x ∈ s.waves, r.seq ∈ x.requests → (∃ y, s.block? x.block = some y ∧ y.isle = r.isle) → w = some x.id
  blocks : ∀ x ∈ s.blocks, x.isle = r.isle → x.request = some r.seq → b = some x.id
  grids  : ∀ x ∈ s.grids, x.isle = r.isle → x.request ≠ some r.seq
  heads  : ∀ x ∈ s.blocks, x.isle = r.isle → ∀ e c, headOf x e = some c → c.request ≠ some r.seq
  queues : ∀ x ∈ s.queues, homeIsle x.index = r.isle → (∃ va, x.request = some (r.seq, va)) → q = some x.index

/-- A verdict on a request that stands in the ring (R27, R29, R338, R401), for one that a single waiter made: a Retry lets the
waiter try again, a Fail gives it the access fault: a switched-out wave as it comes back, one that waits inside its run with its
word, one at a sequencer word there and then, a block sequencer by halting, a queue's access by its own failure. A verdict for no
such record changes nothing. -/
def Verdicts : Prop :=
  (∀ (s : State) (isle seq : Nat), (∀ r ∈ s.requests, ¬ (r.isle = isle ∧ r.seq = seq ∧ r.written = true ∧ r.ats = 0 ∧
      r.verdict = none)) →
    exec (.xlrespRetry isle seq) s = .next s ∧ exec (.xlrespFail isle seq) s = .next s) ∧
  ∀ (s : State) (r : Request) (fail : Bool) (i : Instr), s.platform.booted = true → Distinct s → r ∈ s.requests →
    answered s r.isle r.seq = some r →
    (i = .xlrespRetry r.isle r.seq ∧ fail = false) ∨ (i = .xlrespFail r.isle r.seq ∧ fail = true) →
    let s0 : State := { s with requests := s.requests.erase r }
    (NobodyElse s r none none none → exec i s = .next s0) ∧
    (∀ w b, s.wave? w.id = some w → s.block? w.block = some b → b.isle = r.isle → r.seq ∈ w.requests →
      NobodyElse s r (some w.id) none none →
      let w1 := { w with requests := w.requests.erase r.seq }
      (fail = false ∨ takesVerdicts s b.ctx = false → ∃ t, exec i s = .next t ∧ WaveStep s0 t w w1) ∧
      (fail = true → takesVerdicts s b.ctx = true → w.phase = .missed ∨ w.run ≠ none → ∃ t, exec i s = .next t ∧
        WaveStep s0 t w { w1 with missFailed := true }) ∧
      (fail = true → takesVerdicts s b.ctx = true → w.phase ≠ .missed → w.run = none →
        exec i s = .next (takeTrap s0 { w1 with phase := .ready } 4))) ∧
    (∀ b, s.block? b.id = some b → b.isle = r.isle → b.request = some r.seq → NobodyElse s r none (some b.id) none →
      (fail = false ∨ takesVerdicts s b.ctx = false → ∃ t, exec i s = .next t ∧ BlockStep s0 t b { b with request := none }) ∧
      (fail = true → takesVerdicts s b.ctx = true → exec i s = .next (haltBlock s0 { b with request := none } 4 0 []))) ∧
    ∀ q va, s.queue? q.index = some q → homeIsle q.index = r.isle → q.request = some (r.seq, va) →
      (s.queues.map (·.index)).Nodup → NobodyElse s r none none (some q.index) → ∃ t, exec i s = .next t ∧
        t = { s0 with queues := t.queues } ∧
        t.queue? q.index = some { q with request := none, failedAt := if fail then some va else q.failedAt } ∧
        ∀ j, j ≠ q.index → t.queue? j = s.queue? j

/-- A request number that becomes another. -/
def renumbered (old new n : Nat) : Nat := if n = old then new else n

/-- No engine command behind the head of its queue waits for a request. -/
def OnlyHeadsWait (s : State) (r : Request) : Prop :=
  ∀ b ∈ s.blocks, b.isle = r.isle → ∀ cs ∈ b.queues, ∀ c ∈ cs, c.request ≠ some r.seq

/-- An ATS completion (R24, R25, R28): a translation is cached, and the waiters try again; without one, a page request leads to a
record of CAUSE 3, new or one with which it merges, for which the waiters wait instead. Nothing happens where no ATS request for the
page stands. -/
def AtsCompletions : Prop :=
  ∀ (s : State) (r : AtsCompletion),
    let arrives := exec (.atsTranslationCompletion r) s
    let asked := fun q : Request => q.isle = r.isle ∧ q.pasid = r.pasid ∧ q.ats = 1 ∧ r.page ∈ q.pages
    ((∀ q ∈ s.requests, ¬ asked q) → arrives = .next s) ∧
    ∀ q before after, s.requests = before ++ q :: after → asked q → (∀ x ∈ before, ¬ asked x) →
      let others := before ++ after
      let ats := (⟨r.isle, r.pasid, r.page, r.hpa / 4096 * 4096, r.read, r.write, r.execute⟩ : AtsEntry) ::
        s.ats.filter fun a => !(a.isle == r.isle && a.pasid == r.pasid && a.page == r.page)
      (r.found = true → arrives = .next (giveVerdict { s with ats := ats } q false) ∧
        (Distinct s → NobodyElse s q none none none → arrives = .next { s with ats := ats, requests := others }) ∧
        ∀ w b, Distinct s → s.wave? w.id = some w → s.block? w.block = some b → b.isle = r.isle → q.seq ∈ w.requests →
          NobodyElse s q (some w.id) none none → ∃ t, arrives = .next t ∧
            WaveStep { s with ats := ats, requests := others } t w { w with requests := w.requests.erase q.seq }) ∧
      (r.found = false →
        let joins := fun x : Request => x.isle = q.isle ∧ x.pasid = q.pasid ∧ x.va.toNat / 2 ^ 16 = q.va.toNat / 2 ^ 16 ∧
          x.verdict = none ∧ x.ats ≠ 1 ∧ x.kind / 16 = q.kind / 16
        let waitsFor := fun (t : State) (seq : Nat) =>
          let inPlace := t.blocks = s.blocks ∧ t.grids = s.grids ∧ t.queues = s.queues
          (NobodyElse s q none none none → OnlyHeadsWait s q → inPlace ∧ t.waves = s.waves) ∧
          ∀ w b, Distinct s → s.wave? w.id = some w → s.block? w.block = some b → b.isle = r.isle →
            NobodyElse s q (some w.id) none none → OnlyHeadsWait s q → inPlace ∧ OtherWaves s t w.id ∧
            t.wave? w.id = some { w with requests := w.requests.map (renumbered q.seq seq) }
        ((∀ x ∈ others, ¬ joins x) → r.isle < s.isles.length → ∃ t x, arrives = .next t ∧ t.requests = others ++ [x] ∧
          x = { q with ats := 2, seq := (s.isle r.isle).nextReq } ∧ waitsFor t x.seq ∧
          (t.isle r.isle).nextReq = (x.seq + 1) % 2 ^ 16 ∧ (∀ k, k ≠ r.isle → t.isle k = s.isle k) ∧
          t = { s with requests := t.requests, isles := t.isles, waves := t.waves, blocks := t.blocks, grids := t.grids,
                       queues := t.queues }) ∧
        ∀ x first rest, others = first ++ x :: rest → joins x → (∀ y ∈ first, ¬ joins y) → x ∉ rest → ∃ t x', arrives = .next t ∧
          t.requests = first ++ x' :: rest ∧ x' = { x with pages := x'.pages } ∧
          (∀ p, p ∈ x'.pages ↔ p ∈ x.pages ∨ p ∈ q.pages) ∧ waitsFor t x.seq ∧
          t = { s with requests := t.requests, waves := t.waves, blocks := t.blocks, grids := t.grids, queues := t.queues })

/-- The host's other answers (R24, R25, R29): a page response leads to a new ATS request or is a Fail; an invalidation drops the
entries that meet its range, and its completion goes out once the accesses that used them have performed. -/
def HostAnswers : Prop :=
  (∀ (s : State) (r : PrgResponse),
    let asked := fun q : Request => q.isle == r.isle && q.pasid == r.pasid && q.verdict.isNone && pageSent s q &&
      q.pages.contains r.page
    (s.requests.find? asked = none → exec (.prgResponse r) s = .next s) ∧
    ∀ q, s.requests.find? asked = some q →
      let fresh := s.ats.filter fun a => !(q.pages.any fun p => a.isle == r.isle && a.pasid == r.pasid && a.page == p)
      exec (.prgResponse r) s = .next (giveVerdict { s with ats := fresh } q (!r.success)) ∧
      (Distinct s → NobodyElse s q none none none →
        exec (.prgResponse r) s = .next { s with ats := fresh, requests := s.requests.erase q })) ∧
  (∀ (s : State) (r : AtsInvalidation), ∃ t, exec (.atsInvalidationRequest r) s = .next t ∧
    t = { s with ats := t.ats, atsInval := s.atsInval ++ [r] } ∧
    ∀ a, a ∈ t.ats ↔ a ∈ s.ats ∧ ¬ (a.pasid = r.pasid ∧ a.page * 4096 < r.base + r.size ∧ r.base < (a.page + 1) * 4096)) ∧
  ∀ (s : State) (tag : Nat),
    (s.atsInval.find? (fun r => r.tag == tag) = none → exec (.invalidationCompletionSend tag) s = .next s) ∧
    ∀ r, s.atsInval.find? (fun r => r.tag == tag) = some r →
      ((∀ w ∈ s.waves, ∀ st, waveStanding s w = some st → st.ctx.pasid = r.pasid → w.copies = []) →
        exec (.invalidationCompletionSend tag) s = .next { s with atsInval := s.atsInval.erase r }) ∧
      ∃ t, exec (.invalidationCompletionSend tag) s = .next t ∧ t.atsInval = s.atsInval.erase r

end Sys2Proof.Machine

/-- Invalidations, verdicts, and the host's answers over ATS and PRI. -/
def Obligations.Translation : Prop := Invalidations ∧ Verdicts ∧ AtsCompletions ∧ HostAnswers

/-! ### The driver's registers, contexts and queues (R23, R30, R296 to R299, R324, R370, R387, R398, R399) -/

namespace Sys2Proof.Machine

/-- A register after a write that stores bits lo to hi - 1 of the value and keeps the others. -/
def keptOutside (lo hi : Nat) (old v x : Dword) : Prop :=
  ∀ n, n < 64 → x.getLsbD n = if lo ≤ n ∧ n < hi then v.getLsbD n else old.getLsbD n

/-- A register of an isle's page: its offset, its writable bits, and where it stands. -/
structure PageRegister where
  offset : Nat
  lo     : Nat
  hi     : Nat
  get    : IsleRegs → Dword
  set    : IsleRegs → Dword → IsleRegs

/-- R30, R298, R324, R387. -/
def pageRegisters : List PageRegister :=
  [⟨0x100, 13, 52, (·.xltagb), fun r x => { r with xltagb := x }⟩, ⟨0x108, 16, 57, (·.xlinva), fun r x => { r with xlinva := x }⟩,
   ⟨0x120, 12, 56, (·.fltrb), fun r x => { r with fltrb := x }⟩, ⟨0x130, 12, 52, (·.ctxtb), fun r x => { r with ctxtb := x }⟩,
   ⟨0x138, 12, 52, (·.qtb), fun r x => { r with qtb := x }⟩, ⟨0x140, 12, 52, (·.tenb), fun r x => { r with tenb := x }⟩,
   ⟨0x178, 12, 52, (·.retl), fun r x => { r with retl := x }⟩]

/-- The registers of isle 0's page that stand for the package (R370, R387). -/
def packageOffset (offset : Nat) : Prop :=
  offset = 0x158 ∨ offset = 0x160 ∨ offset = 0x168 ∨ (0x400 ≤ offset ∧ offset < 0x600 ∧ offset % 8 = 0)

/-- XLINVC, XLRESP, TPERIOD, PWRLIM, CTXCMD and QCMD. -/
def commandOffsets : List Nat := [0x110, 0x118, 0x148, 0x180, 0x188, 0x190]

/-- XLINVC of an isle has changed in the fields from bit `lo` on that a write stores, where the write is not ignored. -/
def xlinvcKeeps (s u : State) (isle : Nat) (v : Dword) (fields : Nat → Bool) : Prop :=
  u = { s with isles := u.isles } ∧ (∀ k, k ≠ isle → u.isle k = s.isle k) ∧
  ∃ x, u.isle isle = { s.isle isle with xlinvc := x } ∧ ∀ n, n < 64 → x.getLsbD n =
    if (s.isle isle).xlinvc.getLsbD 31 = false ∧ n < 24 ∧ fields n = true then v.getLsbD n else (s.isle isle).xlinvc.getLsbD n

/-- A write at a command register's offset is the command that its fields name, after the fields that the command does not take
have been stored; without GO, or with an OP that does nothing, it stores the read-write fields; a reserved SCOPE or SZ changes
nothing (R29, R30, R298, R299, R387). -/
def CommandWrites : Prop :=
  ∀ (s : State) (isle : Nat) (v : Dword), s.platform.booted = true → isle < s.isles.length →
    let write := fun offset => exec (.registerWrite isle offset v) s
    let op := field v 16 2
    write 0x148 = exec (.tperiodWrite isle v.toNat) s ∧
    (write 0x180 = if isle = 0 then exec (.pwrlimWrite v.toNat) s else .next s) ∧
    (op = 1 → write 0x118 = exec (.xlrespRetry isle (field v 0 16)) s) ∧
    (op = 2 → write 0x118 = exec (.xlrespFail isle (field v 0 16)) s) ∧
    (op = 0 ∨ op = 3 → write 0x118 = .next s) ∧
    (isle ≠ 0 → write 0x188 = .next s) ∧
    (field v 20 2 = 3 → write 0x110 = .next s) ∧
    (v.getLsbD 31 = true →
      (field v 20 2 = 0 → write 0x110 = exec (.xlinvcOnePage isle (field v 0 20) (field v 22 2)) s) ∧
      (field v 20 2 = 1 → ∃ u, write 0x110 = exec (.xlinvcWholePasid isle (field v 0 20)) u ∧
        xlinvcKeeps s u isle v fun n => decide (22 ≤ n)) ∧
      (field v 20 2 = 2 → ∃ u, write 0x110 = exec (.xlinvcAllPasids isle) u ∧
        xlinvcKeeps s u isle v fun n => decide (n < 20 ∨ 22 ≤ n)) ∧
      (isle = 0 → (op = 1 → write 0x188 = exec (.ctxcmdCreate (field v 0 16)) s) ∧
        (op = 2 → write 0x188 = exec (.ctxcmdDestroy (field v 0 16)) s)) ∧
      (op = 1 → write 0x190 = exec (.qcmdEnable isle (field v 0 14)) s) ∧
      (op = 2 → write 0x190 = exec (.qcmdDisable isle (field v 0 14)) s)) ∧
    (v.getLsbD 31 = false →
      ((s.isle isle).xlinvc.getLsbD 31 = true ∨ (field v 20 2 = 0 ∧ field v 22 2 = 3) → write 0x110 = .next s) ∧
      ((s.isle isle).xlinvc.getLsbD 31 = false → field v 20 2 < 3 → (field v 20 2 = 0 → field v 22 2 < 3) →
        ∃ t, write 0x110 = .next t ∧ t = { s with isles := t.isles } ∧ (∀ k, k ≠ isle → t.isle k = s.isle k) ∧
          t.isle isle = { s.isle isle with xlinvc := BitVec.ofNat 64 (field v 0 24) })) ∧
    (v.getLsbD 31 = false ∨ op = 0 ∨ op = 3 →
      (∃ t x, write 0x190 = .next t ∧ t = { s with isles := t.isles } ∧ (∀ k, k ≠ isle → t.isle k = s.isle k) ∧
        t.isle isle = { s.isle isle with qcmd := x } ∧
        ∀ n, n < 64 → x.getLsbD n = if n < 14 ∨ n = 16 ∨ n = 17 then v.getLsbD n else (s.isle isle).qcmd.getLsbD n) ∧
      (isle = 0 → ∃ x, write 0x188 = .next { s with platform := { s.platform with ctxcmd := x } } ∧
        ∀ n, n < 64 → x.getLsbD n = if n < 18 then v.getLsbD n else s.platform.ctxcmd.getLsbD n))

/-- A write of the driver stores the writable bits, clamps a period and a power limit, and changes nothing else; before power-up
it changes nothing. -/
def RegisterWrites : Prop :=
  (∀ (s : State) (isle : Nat) (v : Dword), s.platform.booted = true → isle < s.isles.length →
    (∀ q ∈ pageRegisters, ∃ t x, exec (.registerWrite isle q.offset v) s = .next t ∧ t = { s with isles := t.isles } ∧
      t.isle isle = q.set (s.isle isle) x ∧ keptOutside q.lo q.hi (q.get (s.isle isle)) v x ∧
      ∀ k, k ≠ isle → t.isle k = s.isle k) ∧
    (∃ t, exec (.registerWrite isle 0x128 v) s = .next t ∧ t = { s with isles := t.isles } ∧
      t.isle isle = { s.isle isle with tail := BitVec.ofNat 32 (field v 32 32) } ∧ ∀ k, k ≠ isle → t.isle k = s.isle k) ∧
    (∀ offset, (∀ q ∈ pageRegisters, q.offset ≠ offset) → offset ≠ 0x128 → offset ∉ commandOffsets →
      (isle ≠ 0 ∨ ¬ packageOffset offset) → exec (.registerWrite isle offset v) s = .next s) ∧
    ∀ n, let x := n % 2 ^ 14
      ∃ t, exec (.tperiodWrite isle n) s = .next t ∧ t = { s with isles := t.isles } ∧
        t.isle isle = { s.isle isle with tperiod := if x < 10 then 10 else if 10000 < x then 10000 else x } ∧
        ∀ k, k ≠ isle → t.isle k = s.isle k) ∧
  (∀ (s : State) (v : Dword), s.platform.booted = true →
    let p := s.platform
    (∃ x, keptOutside 12 52 p.fnctxb v x ∧
      exec (.registerWrite 0 0x158 v) s = .next { s with platform := { p with fnctxb := x } }) ∧
    (∃ x, keptOutside 12 60 p.strtb v x ∧
      exec (.registerWrite 0 0x160 v) s = .next { s with platform := { p with strtb := x } }) ∧
    (∃ x, keptOutside 12 52 p.pgrpb v x ∧
      exec (.registerWrite 0 0x168 v) s = .next { s with platform := { p with pgrpb := x } }) ∧
    (∀ f, f < 64 → exec (.registerWrite 0 (0x400 + 8 * f) v) s =
      .next { s with platform := { p with cntpol := p.cntpol.set f (BitVec.ofNat 64 (field v 0 14)) } }) ∧
    ∀ n, let x := n % 2 ^ 12
      exec (.pwrlimWrite n) s =
        .next { s with platform := { p with pwrlim := if x < 1200 then 1200 else if 3200 < x then 3200 else x } }) ∧
  ∀ (s : State) (i : Instr), s.platform.booted = false →
    (∃ isle offset v, i = .registerWrite isle offset v) ∨ (∃ isle v, i = .tperiodWrite isle v) ∨ (∃ v, i = .pwrlimWrite v) ∨
      (∃ c, i = .ctxcmdCreate c) ∨ (∃ c, i = .ctxcmdDestroy c) ∨ (∃ isle q, i = .qcmdEnable isle q) ∨
      (∃ isle q, i = .qcmdDisable isle q) →
    exec i s = .next s

/-- CTXCMD after an operation (R299). -/
def ctxcmdShows (ctx op status : Nat) : Dword := BitVec.ofNat 64 (ctx + op * 2 ^ 16 + status * 2 ^ 24)

/-- What a context record must keep to (R296). -/
structure GoodRecord (r : List Byte) : Prop where
  root     : leNat (r.take 8) % 4096 = 0 ∧ leNat (r.take 8) < 2 ^ 52 ∧ inHbm (leNat (r.take 8)) = true
  pasid    : leNat ((r.drop 8).take 4) < 2 ^ 20
  flags    : leNat ((r.drop 12).take 1) < 4 ∧ leNat ((r.drop 13).take 1) = 0
  pto      : leNat ((r.drop 16).take 4) ≤ 1000000
  reserved : ∀ n, 33 ≤ n → n < 128 → r.getD n 0 = 0

/-- The context that a record makes: live, with no predicate enabled, no window open and nothing halted (R296, R299, R351). -/
structure MadeFrom (r : List Byte) (ctx : Nat) (c : Context) : Prop where
  names  : c.index = ctx ∧ c.root = leNat (r.take 8) ∧ c.pasid = leNat ((r.drop 8).take 4) ∧ c.tenant = leNat ((r.drop 32).take 1)
  flags  : c.hash = (leNat ((r.drop 12).take 1)).testBit 0 ∧ c.debug = (leNat ((r.drop 12).take 1)).testBit 1
  bkey   : c.bkey = BitVec.ofNat 16 (leNat ((r.drop 14).take 2))
  times  : (c.pto = if leNat ((r.drop 16).take 4) = 0 then 1000 else leNat ((r.drop 16).take 4)) ∧
           (c.pdl = if leNat ((r.drop 20).take 4) = 0 then 100000 else leNat ((r.drop 20).take 4))
  save   : c.save = BitVec.ofNat 64 (leNat ((r.drop 24).take 8))
  live   : c.halted = false ∧ c.preempting = false ∧ c.saved = false ∧ c.halt = none ∧ c.log = []
  unseen : (∀ p ∈ c.watch, p.enabled = false) ∧ c.watch.length = 16 ∧ c.capture.isOpen = false ∧ c.objects = []

/-- CREATE (R296, R299): each failed check gives its status and creates nothing; otherwise the context is live. -/
def ContextCreation : Prop :=
  ∀ (s : State) (ctx : Nat), s.platform.booted = true → ctx < 65536 →
    let rec_ := fun k => readBytes s.hbm (field (s.isle k).ctxtb 12 40 * 4096 + 128 * ctx) 128
    let shows := fun status => { s.platform with ctxcmd := ctxcmdShows ctx 1 status }
    let same := ∀ k, k < 8 → rec_ k = rec_ 0
    let pasid := leNat (((rec_ 0).drop 8).take 4)
    ((∃ c ∈ s.contexts, c.index = ctx) → exec (.ctxcmdCreate ctx) s = .next { s with platform := shows 1 }) ∧
    ((∀ c ∈ s.contexts, c.index ≠ ctx) →
      (¬ (same ∧ GoodRecord (rec_ 0)) → exec (.ctxcmdCreate ctx) s = .next { s with platform := shows 2 }) ∧
      (same → GoodRecord (rec_ 0) →
        ((∃ c ∈ s.contexts, c.pasid = pasid) → exec (.ctxcmdCreate ctx) s = .next { s with platform := shows 3 }) ∧
        ((∀ c ∈ s.contexts, c.pasid ≠ pasid) → ∃ c, MadeFrom (rec_ 0) ctx c ∧
          exec (.ctxcmdCreate ctx) s = .next { s with contexts := s.contexts ++ [c], platform := shows 0 })))

/-- DESTROY (R299): nothing of the context remains on any isle, and its index is free; a context without agents, queues and
launches leaves everything else as it was. -/
def ContextDestruction : Prop :=
  ∀ (s : State) (ctx : Nat), s.platform.booted = true → ctx < 65536 →
    (s.ctx? ctx = none → exec (.ctxcmdDestroy ctx) s = .next { s with platform := { s.platform with ctxcmd := ctxcmdShows ctx 2 1 } }) ∧
    ∀ c, s.ctx? ctx = some c →
      (∃ t, exec (.ctxcmdDestroy ctx) s = .next t ∧ t.platform = { s.platform with ctxcmd := ctxcmdShows ctx 2 0 } ∧
        t.ctx? ctx = none ∧ (∀ q ∈ t.queues, q.ctx ≠ ctx) ∧ (∀ l ∈ t.launches, l.ctx ≠ ctx) ∧ (∀ g ∈ t.grids, g.ctx ≠ ctx) ∧
        (∀ b ∈ t.blocks, b.ctx ≠ ctx) ∧ (∀ p ∈ t.partitions, p.ctx ≠ ctx) ∧ (∀ x ∈ t.colls, x.ctx ≠ ctx) ∧
        (∀ r ∈ t.requests, r.pasid ≠ c.pasid) ∧ (∀ x ∈ t.cached, x.pasid ≠ c.pasid) ∧ ∀ x ∈ t.ats, x.pasid ≠ c.pasid) ∧
      ((∀ b ∈ s.blocks, b.ctx ≠ ctx) → (∀ g ∈ s.grids, g.ctx ≠ ctx) → (∀ l ∈ s.launches, l.ctx ≠ ctx) →
        (∀ q ∈ s.queues, q.ctx ≠ ctx) → settleLaunches s = s →
        exec (.ctxcmdDestroy ctx) s = .next { s with
          contexts := s.contexts.filter fun x => x.index ≠ ctx, partitions := s.partitions.filter fun x => x.ctx ≠ ctx,
          colls := s.colls.filter fun x => x.ctx ≠ ctx, requests := s.requests.filter fun x => x.pasid ≠ c.pasid,
          cached := s.cached.filter fun x => x.pasid ≠ c.pasid, ats := s.ats.filter fun x => x.pasid ≠ c.pasid,
          platform := { s.platform with ctxcmd := ctxcmdShows ctx 2 0 } })

/-- QCMD of an isle shows an operation's outcome, and no other register has changed. -/
def QcmdShows (s t : State) (isle qloc op status : Nat) : Prop :=
  t.isle isle = { s.isle isle with qcmd := BitVec.ofNat 64 (qloc + op * 2 ^ 16 + status * 2 ^ 24) } ∧
  ∀ k, k ≠ isle → t.isle k = s.isle k

/-- What a queue record must keep to (R297). -/
def GoodQueueRecord (r : List Byte) : Prop :=
  let log2 := leNat ((r.drop 8).take 1) % 32
  leNat ((r.drop 12).take 1) % 2 = 1 ∧ log2 ≤ 20 ∧ leNat (r.take 8) % (64 * 2 ^ log2) = 0 ∧ leNat ((r.drop 9).take 1) % 16 ≤ 8

/-- ENABLE and DISABLE (R297, R299): a queue that is enabled again goes on with what it has taken. -/
def QueueSwitches : Prop :=
  ∀ (s : State) (isle qloc : Nat), s.platform.booted = true → isle < 8 → isle < s.isles.length → qloc < 16384 →
    let n := isle * 16384 + qloc
    let base := field (s.isle isle).qtb 12 40 * 4096 + 32 * qloc
    let r := readBytes s.hbm base 32
    let live := ∃ c, s.ctx? (leNat ((r.drop 10).take 2)) = some c ∧ c.halted = false
    let refused := fun i op status => ∃ t, exec i s = .next t ∧ t = { s with isles := t.isles } ∧ QcmdShows s t isle qloc op status
    let on := ∃ q, s.queue? n = some q ∧ q.enabled = true
    (on → refused (.qcmdEnable isle qloc) 1 3) ∧
    (¬ on → ¬ GoodQueueRecord r → refused (.qcmdEnable isle qloc) 1 2) ∧
    (¬ on → GoodQueueRecord r → ¬ live → refused (.qcmdEnable isle qloc) 1 1) ∧
    (¬ on → GoodQueueRecord r → live → Memory.wf s.hbm = true → rangeInHbm (base + 13) 1 = true → ∃ t q, exec (.qcmdEnable isle qloc) s = .next t ∧
      t = { s with isles := t.isles, queues := t.queues, hbm := t.hbm } ∧ QcmdShows s t isle qloc 1 0 ∧
      (∀ a, readByte t.hbm a = if a = base + 13 then 0 else readByte s.hbm a) ∧
      (∀ k, k ≠ n → t.queue? k = s.queue? k) ∧ t.queue? n = some q ∧
      q.index = n ∧ q.enabled = true ∧ q.ring.toNat = leNat (r.take 8) ∧ q.log2 = leNat ((r.drop 8).take 1) % 32 ∧
      q.pubn = leNat ((r.drop 9).take 1) % 16 ∧ q.ctx = leNat ((r.drop 10).take 2) ∧
      q.wptr.toNat = leNat ((r.drop 16).take 8) ∧ q.rptr.toNat = leNat ((r.drop 24).take 8) ∧ q.qstat = 0 ∧ q.next = none ∧
      (∀ x, s.queue? n = some x → q.taken = x.taken ∧ q.openPackets = x.openPackets ∧ q.graphs = x.graphs ∧ q.owed = x.owed ∧
        q.wait = x.wait ∧ q.request = x.request ∧ q.failedAt = x.failedAt ∧ q.heldCode = x.heldCode ∧ q.heldOpen = x.heldOpen) ∧
      (s.queue? n = none → q.taken = 0 ∧ q.openPackets = [] ∧ q.graphs = [] ∧ q.owed = [] ∧ q.wait = .none ∧ q.request = none ∧
        q.failedAt = none)) ∧
    (¬ on → refused (.qcmdDisable isle qloc) 2 3) ∧
    ∀ q, s.queue? n = some q → q.enabled = true → ∃ t, exec (.qcmdDisable isle qloc) s = .next t ∧
      t = { s with isles := t.isles, queues := t.queues } ∧ QcmdShows s t isle qloc 2 0 ∧
      (∀ k, k ≠ n → t.queue? k = s.queue? k) ∧ t.queue? n = some { q with enabled := false, readySince := none }

/-- What a read of an isle's page shows (R23, R377, R387, R399): PARTID and UNITS at any time, the other registers once the scheduler
has started, and zero elsewhere (log 9). -/
structure Shows (s : State) (isle offset : Nat) (v : Dword) : Prop where
  part    : offset = 0x150 → v.toNat = 9 + 256 * Config.partStep.toNat
  units   : offset = 0x170 → ∀ k, k < 64 → (v.getLsbD k = true ↔ (k < 32 ∧ (s.isle isle).units.getLsbD k = true) ∨
    ((k = 32 ∨ k = 33) ∧ s.platform.links.getLsbD (2 * isle + (k - 32)) = true) ∨
    (k = 34 ∧ ∃ n ∈ s.platform.underTest, n / 32 = isle))
  early   : offset ≠ 0x150 → offset ≠ 0x170 → s.platform.booted = false → v = 0
  page    : s.platform.booted = true → ∀ q ∈ pageRegisters, q.offset = offset → v = q.get (s.isle isle)
  others  : s.platform.booted = true → let r := s.isle isle
    (offset = 0x110 → v = r.xlinvc) ∧ (offset = 0x128 → v.toNat = r.head.toNat + r.tail.toNat * 2 ^ 32) ∧
    (offset = 0x148 → v.toNat = r.tperiod % 2 ^ 64) ∧ (offset = 0x190 → v = r.qcmd)
  package : s.platform.booted = true → isle = 0 → let p := s.platform
    (offset = 0x158 → v = p.fnctxb) ∧ (offset = 0x160 → v = p.strtb) ∧ (offset = 0x168 → v = p.pgrpb) ∧
    (offset = 0x180 → v.toNat = p.pwrlim % 2 ^ 64) ∧ (offset = 0x188 → v = p.ctxcmd) ∧
    ∀ f, f < 64 → offset = 0x400 + 8 * f → v = p.cntpol.getD f 0

/-- A read of a register is answered and changes nothing; a kick page reads zero (R23, R302, R388, R399). -/
def RegisterReads : Prop :=
  ∀ (s : State) (rest : List Move) (isle offset function page : Nat),
    let s1 : State := { s with agenda := rest, clock := s.clock + 1 }
    let answers := fun v : Dword =>
      step s = .next { s1 with platform := { s.platform with answers := s.platform.answers ++ [v] } }
    (s.agenda = .registerRead isle offset :: rest → isle < 8 → ∃ v, answers v ∧ Shows s isle offset v) ∧
    (s.agenda = .kickRead function page :: rest → answers 0)

end Sys2Proof.Machine

/-- What the driver does through registers. -/
def Obligations.DriverRegisters : Prop := RegisterWrites ∧ RegisterReads ∧ CommandWrites ∧ ContextCreation ∧ ContextDestruction ∧ QueueSwitches

/-! ### Resets, power, links, tests and stored bits (R70, R387 to R399) -/

namespace Sys2Proof.Machine

/-- The function through which a context was created: a byte of the table at FNCTXB (R388). -/
def fnOf (s : State) (ctx : Nat) : Nat :=
  (readByte s.hbm (field s.platform.fnctxb 12 40 * 4096 + ctx)).toNat % 64

/-- A function level reset destroys the contexts of its virtual function, as CTXCMD does, and no others (R389). -/
def FunctionResets : Prop :=
  ∀ (s : State) (fn : Nat),
    (fn = 0 ∨ 63 < fn ∨ (∀ c ∈ s.contexts, fnOf s c.index ≠ fn) → exec (.functionLevelReset fn) s = .next s) ∧
    (1 ≤ fn → fn ≤ 63 → s.platform.booted = true → ∀ c before after, s.contexts = before ++ c :: after →
      (∀ x ∈ before ++ after, x.index ≠ c.index ∧ fnOf s x.index ≠ fn) → fnOf s c.index = fn → c.index < 65536 →
      ∃ t u, exec (.functionLevelReset fn) s = .next t ∧ exec (.ctxcmdDestroy c.index) s = .next u ∧
        u = { t with platform := u.platform } ∧ u.platform = { t.platform with ctxcmd := u.platform.ctxcmd }) ∧
    (1 ≤ fn → fn ≤ 63 → ∃ t, exec (.functionLevelReset fn) s = .next t ∧
      ∀ c ∈ s.contexts, fnOf s c.index = fn → t.ctx? c.index = none ∧ (∀ b ∈ t.blocks, b.ctx ≠ c.index) ∧
        (∀ g ∈ t.grids, g.ctx ≠ c.index) ∧ (∀ q ∈ t.queues, q.ctx ≠ c.index) ∧ ∀ l ∈ t.launches, l.ctx ≠ c.index)

/-- Frames of an isle that failed the tests of power-up, as RETL can list them (R387, R395). -/
def framesLost (isle : Nat) : List Nat := ((Config.failedFrames isle).take 511).map fun f => isle * isleSpan + 65536 * f

/-- The tenants whose plug-in image passes its checks under an operator key (R393). -/
def pluginsUnder (key : List Byte) : List Nat := (List.range 256).filter fun n => Config.pluginRuns n key = true

/-- The module after a power-up that begins in a state: no context, queue or agent; the registers at reset but for UNITS and RETL,
which the tests of power-up leave; what flash keeps as it was; no usable core where no monitor image runs, and the links that
trained (R389, R393, R395, R399, log 9). -/
structure PoweredUp (s t : State) : Prop where
  rest     : t = { State.reset with agenda := t.agenda, clock := t.clock, fresh := s.fresh + 1, nextId := t.nextId, hbm := t.hbm,
                                    peer := t.peer, host := t.host, isles := t.isles, platform := t.platform }
  isles    : t.isles.length = 8 ∧ ∀ k, k < 8 → ∃ u, t.isle k =
      { IsleRegs.reset with units := u, retl := BitVec.ofNat 64 (framesLost k).length } ∧
    ∀ j, j < 64 → (u.getLsbD j = true ↔ j < 32 ∧ Config.monitorRuns k = true ∧ Config.coreFails (k * 32 + j) = false)
  platform : t.platform = { Platform.reset with
    booted := true, links := (Config.freeDword s.fresh).setWidth 16, operatorKey := s.platform.operatorKey,
    oneTime := s.platform.oneTime, retired := (List.range 8).flatMap framesLost,
    refused := (List.range 8).filter fun k => !Config.monitorRuns k || !Config.schedulerRuns k,
    plugins := pluginsUnder s.platform.operatorKey }

/-- A power-up leaves every memory as it was but for the lists of lost frames, which stand at RETL's reset BASE (R387, log 17). -/
structure BootMemory (s t : State) : Prop where
  hbm   : SameOutside s.hbm t.hbm 0 4088
  whole : (∀ k, k < 8 → Config.failedFrames k = []) → t.hbm = s.hbm
  peer  : t.peer = s.peer
  host  : t.host = s.host

/-- Power-up runs once; a hot reset destroys every context and repeats it; removing the supply loses all but flash and fuses; a
configuration request meets Request Retry Status until the scheduler has started (R389, R394, R399). -/
def Resets : Prop :=
  (∀ s : State, s.platform.booted = true → exec .powerUp s = .next s) ∧
  (∀ s : State, s.platform.booted = false → Memory.wf s.hbm = true → ∃ t, exec .powerUp s = .next t ∧ PoweredUp s t ∧
    BootMemory s t ∧ t.agenda = s.agenda ∧ t.clock = s.clock ∧ t.nextId = s.nextId) ∧
  (∀ s : State, ∃ t, exec .hotReset s = .next t ∧ PoweredUp { s with fresh := t.fresh - 1 } t ∧
    (s.contexts = [] → Memory.wf s.hbm = true → PoweredUp s t ∧ BootMemory s t)) ∧
  (∀ s : State, ∃ t, exec .powerLoss s = .next t ∧
    t = { State.reset with
      agenda := s.agenda, clock := s.clock, fresh := s.fresh, nextId := s.nextId, peer := s.peer, host := s.host,
      platform := { Platform.reset with powered := false, operatorKey := s.platform.operatorKey, oneTime := s.platform.oneTime } }) ∧
  ∀ (s : State) (write : Bool) (offset : Nat) (value : Word), exec (.configurationRequest write offset value) s =
    .next { s with platform := { s.platform with retries := s.platform.retries ++ [!s.platform.booted] } }

/-- A copy on its way reads bytes of a peer that no usable link reaches any more. -/
def copyLost (s : State) (c : CopyInFlight) : Prop := ∃ p ∈ c.parts, p.space = 1 ∧ peerReachable s (p.addr / 2 ^ 52) = false

/-- Thread i waits for a loaded or old value of a peer that no usable link reaches any more. -/
def threadLost (s : State) (p : Pending) (i : Nat) : Prop := ∃ q ∈ p.peers, q.1 = i ∧ peerReachable s q.2 = false

/-- Nothing of a wave is lost with the links that are down. -/
def nothingLost (s : State) (w : Wave) : Prop :=
  (∀ c ∈ w.copies, ¬ copyLost s c) ∧ ∀ p ∈ w.pending, ∀ i, ¬ threadLost s p i

/-- Tests that the firmware owes, with one more (R395). -/
def alsoDue (due : List Nat) (key : Nat) : List Nat := if key ∈ due then due else due ++ [key]

/-- A link goes down (R391, R395): its bit is clear, the host is told, and its test is owed; where a wave's copy or awaited value came
over the last usable link, nothing more of it arrives, its threads stand in PCM, and the wave takes trap 0x04. -/
def LinksDown : Prop :=
  ∀ (s : State) (link : Nat), link < 16 →
    (s.platform.links.getLsbD link = false → exec (.straitLinkDown link) s = .next s) ∧
    (s.platform.links.getLsbD link = true → ∃ ls : BitVec 16,
      (∀ k, k < 16 → ls.getLsbD k = if k = link then false else s.platform.links.getLsbD k) ∧
      let s1 : State := { s with platform := { s.platform with
        links := ls, msix := s.platform.msix ++ [0],
        dueTests := alsoDue s.platform.dueTests (link / 2 * 2 ^ 24 + 32 + link % 2) } }
      ((∀ w ∈ s.waves, nothingLost s1 w) → exec (.straitLinkDown link) s = .next s1) ∧
      ∀ w st, Distinct s → s.wave? w.id = some w → waveStanding s w = some st → st.ctx.halted = false → st.ctx.saved = false →
        s.ctx? st.ctx.index = some st.ctx → (s.waves.map (·.id)).Nodup →
        (∀ c ∈ w.copies, c.thread < 64) → (∀ p ∈ w.pending, ∀ q ∈ p.peers, q.1 < 64) → ¬ nothingLost s1 w → (∀ x ∈ s.waves, x.id ≠ w.id → nothingLost s1 x) →
        ∃ w1 : Wave, w1 = { w with copies := w1.copies, pending := w1.pending, pcm := w1.pcm, tags := w1.tags,
                                   tagRegs := w1.tagRegs, tagCounts := w1.tagCounts } ∧
          (∀ c, c ∈ w1.copies ↔ c ∈ w.copies ∧ ¬ copyLost s1 c) ∧
          (∀ p ∈ w1.pending, ∀ i, ¬ threadLost s1 p i) ∧
          (∀ p ∈ w.pending, (∀ i, ¬ threadLost s1 p i) → p ∈ w1.pending) ∧
          (∀ i, i < 64 → (w1.pcm.getLsbD i = true ↔
            (∃ c ∈ w.copies, copyLost s1 c ∧ c.thread = i) ∨ ∃ p ∈ w.pending, threadLost s1 p i)) ∧
          (w.phase ≠ .missed → exec (.straitLinkDown link) s = .next (takeTrap s1 { w1 with phase := .ready } 4)) ∧
          (w.phase = .missed → ∃ t, exec (.straitLinkDown link) s = .next t ∧ WaveStep s1 t w { w1 with missFailed := true }))

/-- The link replays a flit; nothing else changes (R390). -/
def FlitReplays : Prop :=
  ∀ (s : State) (link : Nat), link < s.platform.replays.length → ∃ t, exec (.flitCrcFailure link) s = .next t ∧
    t = { s with platform := { s.platform with replays := t.platform.replays } } ∧
    ∀ k, t.platform.replays.getD k 0 = if k = link then s.platform.replays.getD k 0 + 1 else s.platform.replays.getD k 0

/-- An access from a peer performs at most once, over a link that is up, in local HBM (R390); a member's source and its end
reach the instance of a collective (R84, R386). -/
def PeerAccesses : Prop :=
  ∀ (s : State) (link id addr : Nat),
    let arrives := fun op => exec (.peerAccess ⟨link, id, addr, op⟩) s
    (∀ op, s.platform.links.getLsbD link = false ∨ (∃ q ∈ s.platform.peerSeen, q.2 = id) → arrives op = .next s) ∧
    (s.platform.links.getLsbD link = true → (∀ q ∈ s.platform.peerSeen, q.2 ≠ id) →
      let s1 : State := { s with platform := { s.platform with peerSeen := (link, id) :: s.platform.peerSeen } }
      (∀ n, arrives (.read n) = .next (if rangeInHbm addr n then s1 else s)) ∧
      (∀ bytes, rangeInHbm addr bytes.length = false → arrives (.write bytes) = .next s) ∧
      (∀ bytes, rangeInHbm addr bytes.length = true → Memory.wf s.hbm = true → ∃ t, arrives (.write bytes) = .next t ∧
        t = { s1 with hbm := t.hbm } ∧
        ∀ a, readByte t.hbm a = if addr ≤ a ∧ a < addr + bytes.length then bytes.getD (a - addr) 0 else readByte s.hbm a) ∧
      (∀ (wide : Bool), let n := if wide then 8 else 4
        rangeInHbm addr n = true → Memory.wf s.hbm = true →
        let old := leNat (readBytes s.hbm addr n)
        (∀ (aop : BitVec 4) (v : Dword), aop.toNat < 15 → ∃ t, arrives (.atomic aop wide v) = .next t ∧ t = { s1 with hbm := t.hbm } ∧
          leNat (readBytes t.hbm addr n) = atomicResult aop.toNat wide old (v.toNat % 2 ^ (8 * n)) % 2 ^ (8 * n) ∧
          ∀ a, a < addr ∨ addr + n ≤ a → readByte t.hbm a = readByte s.hbm a) ∧
        ∀ (x y : Dword), (old ≠ x.toNat % 2 ^ (8 * n) → arrives (.cas wide x y) = .next s1) ∧
          (old = x.toNat % 2 ^ (8 * n) → ∃ t, arrives (.cas wide x y) = .next t ∧ t = { s1 with hbm := t.hbm } ∧
            leNat (readBytes t.hbm addr n) = y.toNat % 2 ^ (8 * n) ∧
            ∀ a, a < addr ∨ addr + n ≤ a → readByte t.hbm a = readByte s.hbm a)) ∧
      (∀ (ctx group inst rank : Nat) (params : List Nat) (source : List Byte),
        let mine := fun x : CollInstance => x.ctx = ctx ∧ x.group = group ∧ x.inst = inst
        let open_ := fun x : CollInstance => mine x ∧ ∀ q ∈ x.sources, q.1 ≠ rank
        ((∀ x ∈ s.colls, ¬ open_ x) → arrives (.contribute ctx group inst rank params source) =
          .next { s1 with colls := s.colls ++ [⟨ctx, group, inst, params, [(rank, source)], []⟩] }) ∧
        (∀ x before after, s.colls = before ++ x :: after → open_ x → (∀ y ∈ before, ¬ open_ y) →
          arrives (.contribute ctx group inst rank params source) = .next { s1 with colls := before ++
            { x with sources := x.sources ++ [(rank, source)], params := if x.params = params then params else [] } :: after }) ∧
        let going := fun x : CollInstance => mine x ∧ rank ∉ x.ended ∧ ∃ q ∈ x.sources, q.1 = rank
        ((∀ x ∈ s.colls, ¬ going x) → arrives (.collEnded ctx group inst rank) = .next s1) ∧
        ∀ x before after, s.colls = before ++ x :: after → going x → (∀ y ∈ before, ¬ going y) →
          arrives (.collEnded ctx group inst rank) =
            .next { s1 with colls := before ++ { x with ended := x.ended ++ [rank] } :: after }))

/-- MSI-X vector 0 follows a change that UNITS or RETL.COUNT of some isle shows, and nothing else (R389). -/
structure Told (s t : State) : Prop where
  silent : (∀ k, k < 8 → unitsWord t k = unitsWord s k ∧ field (t.isle k).retl 0 9 = field (s.isle k).retl 0 9) →
    t.platform.msix = s.platform.msix
  told   : (∃ k, k < 8 ∧ (unitsWord t k ≠ unitsWord s k ∨ field (t.isle k).retl 0 9 ≠ field (s.isle k).retl 0 9)) →
    t.platform.msix = s.platform.msix ++ [0]

/-- A test that the firmware owed is over: it is owed no more, and the error of a unit that passed counts as transient (R395). -/
structure TestOver (s t : State) (key : Nat) (passed : Bool) : Prop where
  due       : ∀ k, k ∈ t.platform.dueTests ↔ k ∈ s.platform.dueTests ∧ k ≠ key
  transient : ∀ k, mapGet 0 t.platform.transient k =
    mapGet 0 s.platform.transient k + if passed = true ∧ k = key then 1 else 0
  told      : Told s t

/-- A test of a unit by the firmware (R387, R389, R395, R396): of a core, a link or a far cache where it is owed. A core is tested once
nothing stands on it, and until then every context on it is pre-empted; a failed one leaves UNITS, a failed link stays down until
the next power-up, a tested far cache holds no wrong granule any more, and a failed frame joins the list at RETL. -/
def SelfTests : Prop :=
  ∀ (s : State) (isle unit : Nat) (passed : Bool), mapWf 0 s.platform.transient = true →
    let test := exec (.unitSelfTest isle unit passed) s
    let key := isle * 2 ^ 24 + unit
    let owed := key ∈ s.platform.dueTests
    (8 ≤ isle ∨ (unit < 35 ∧ ¬ owed) → test = .next s) ∧
    (isle < 8 → isle < s.isles.length →
      (unit < 32 → owed →
        let n := isle * 32 + unit
        let under := s.platform.underTest
        let begun := if n ∈ under then under else n :: under
        let s1 : State := { s with platform := { s.platform with underTest := begun } }
        (n ∉ under → contextsOn s isle unit = [] → ∃ t, test = .next t ∧ Told s t ∧
          t = { s1 with platform := { s1.platform with msix := t.platform.msix } }) ∧
        (∀ c, contextsOn s isle unit = [c.index] → s.ctx? c.index = some c → ∃ t u, exec (.preemptionRequest c.index) s1 = .next u ∧
          test = .next t ∧ Told s t ∧ t = { u with platform := { u.platform with msix := t.platform.msix } }) ∧
        (n ∈ under → contextsOn s isle unit = [] → ∃ t u, test = .next t ∧ TestOver s t key passed ∧
          t = { s with isles := t.isles, platform := { s.platform with
            underTest := under.filter fun x => x ≠ n, msix := t.platform.msix, dueTests := t.platform.dueTests,
            transient := t.platform.transient } } ∧
          (∀ k, k ≠ isle → t.isle k = s.isle k) ∧ t.isle isle = { s.isle isle with units := u } ∧
          ∀ k, k < 64 → u.getLsbD k = if passed = false ∧ k = unit then false else (s.isle isle).units.getLsbD k)) ∧
      (unit = 32 ∨ unit = 33 → owed →
        let link := 2 * isle + (unit - 32)
        ∃ t, test = .next t ∧ TestOver s t key passed ∧
          t = { s with platform := { s.platform with
            links := t.platform.links, failedLinks := t.platform.failedLinks, msix := t.platform.msix,
            dueTests := t.platform.dueTests, transient := t.platform.transient } } ∧
          (∀ k, k < 16 → t.platform.failedLinks.getLsbD k =
            if passed = false ∧ k = link then true else s.platform.failedLinks.getLsbD k) ∧
          ∀ k, k < 16 → t.platform.links.getLsbD k =
            if k ≠ link then s.platform.links.getLsbD k
            else if passed = false then false
            else if s.platform.failedLinks.getLsbD k then s.platform.links.getLsbD k else true) ∧
      (unit = 34 → owed → ∃ t, test = .next t ∧ TestOver s t key passed ∧
        t = { s with platform := { s.platform with
          badFar := s.platform.badFar.filter fun g => 64 * g / isleSpan ≠ isle, msix := t.platform.msix,
          dueTests := t.platform.dueTests, transient := t.platform.transient } }) ∧
      (35 ≤ unit →
        let r := s.isle isle
        let frame := isle * isleSpan + 65536 * (unit - 35)
        let entry := field r.retl 12 40 * 4096 + 8 * field r.retl 0 9
        (passed = true ∨ field r.retl 0 9 = 511 ∨ frame ∈ s.platform.retired → test = .next s) ∧
        (passed = false → field r.retl 0 9 < 511 → frame ∉ s.platform.retired → Memory.wf s.hbm = true →
          rangeInHbm entry 8 = true → ∃ t, test = .next t ∧
          t = { s with isles := t.isles, hbm := t.hbm, platform := { s.platform with
            retired := frame :: s.platform.retired, msix := s.platform.msix ++ [0] } } ∧
          t.isle isle = { r with retl := r.retl + 1 } ∧ (∀ k, k ≠ isle → t.isle k = s.isle k) ∧
          leNat (readBytes t.hbm entry 8) = frame % 2 ^ 64 ∧
          ∀ a, a < entry ∨ entry + 8 ≤ a → readByte t.hbm a = readByte s.hbm a)))

/-- Reports, keys and power limits (R393, R394, R397): a report holds the nonce, PARTID and the security version and digest of every
image that runs, and is signed with the next one-time index, 2^20 times at most. -/
def Attestation : Prop :=
  (∀ (s : State) (nonce : List Byte),
    (nonce.length ≠ 32 ∨ 2 ^ 20 ≤ s.platform.oneTime → exec (.attestationReport nonce) s = .next s) ∧
    (nonce.length = 32 → s.platform.oneTime < 2 ^ 20 →
      let images := [0, 1, 2] ++ s.platform.plugins.map (3 + ·)
      let body := nonce ++ leBytes 8 (9 + 256 * Config.partStep.toNat) ++
        images.flatMap fun i => leBytes 4 (Config.imageVersion i) ++ Config.imageDigest i
      exec (.attestationReport nonce) s = .next { s with platform := { s.platform with
        oneTime := s.platform.oneTime + 1,
        attests := s.platform.attests ++ [body ++ Config.signature s.platform.oneTime body] } })) ∧
  (∀ (s : State) (key : List Byte),
    exec (.operatorKeyEnrol key) s = .next { s with platform := { s.platform with
      operatorKey := key, plugins := if s.platform.booted = true then pluginsUnder key else [] } }) ∧
  ∀ (s : State) (isle core limit : Nat), let n := isle * 32 + core
    ∃ t, exec (.powerArbiterTick isle core limit) s = .next t ∧
      t = { s with platform := { s.platform with limits := t.platform.limits } } ∧ (n, limit) ∈ t.platform.limits ∧
      (∀ q ∈ t.platform.limits, q.1 = n → q.2 = limit) ∧
      ∀ q : Nat × Nat, q.1 ≠ n → (q ∈ t.platform.limits ↔ q ∈ s.platform.limits)

/-- The protected word in which a bit stands (R70): its memory, the owner, the row, and the word of the row. -/
def protectedWord : BitError → Nat × Nat × Nat × Nat
  | .lane w r b => (0, w, r, b / 32)
  | .scratch k y _ => (1, k, y / 4, 0)
  | .tag k i _ => (5, k, i, 0)
  | .acc k r c _ => (2, k, r, c)
  | .sort k c _ => (3, k, c, 0)
  | .far i a _ => (4, i, a / 64, 0)

/-- The unit in which a bit stands: a core, or an isle's far cache; none where its owner is gone (R395). -/
def bitUnit (s : State) (e : BitError) : Option Nat :=
  let core := fun b : Block => b.isle * 2 ^ 24 + b.core
  match e with
  | .lane w _ _ => ((s.wave? w).bind fun x => s.block? x.block).map core
  | .scratch k _ _ => (s.block? k).map core
  | .tag k _ _ => (s.block? k).map core
  | .acc k _ _ _ => (s.block? k).map core
  | .sort k _ _ => (s.block? k).map core
  | .far i _ _ => some (i * 2 ^ 24 + 34)

/-- A single wrong bit changes nothing that runs: it is corrected, and the 64th of a unit within a second calls for a test (R395). A
second one in its word makes the word bad, the access that consumes it first raises the fault, and a test is owed (R70). -/
def StoredBits : Prop :=
  ∀ (s : State) (e : BitError),
    let p := s.platform
    let others := p.bitErrors.filter fun x => protectedWord x ≠ protectedWord e
    let due := ((bitUnit s e).map fun key => alsoDue p.dueTests key).getD p.dueTests
    let s1 : State := { s with platform := { p with bitErrors := others, dueTests := due } }
    let second := ∃ x ∈ p.bitErrors, x ≠ e ∧ protectedWord x = protectedWord e
    let after := exec (.storedBitError e) s
    (¬ second → e ∈ p.bitErrors → after = .next s) ∧
    (¬ second → e ∉ p.bitErrors →
      let kept := fun key => (p.corrected.filter fun q => q.1 = key ∧ Config.withinSecond q.2 s.clock = true).length
      (bitUnit s e = none → after = .next { s with platform := { p with bitErrors := e :: p.bitErrors } }) ∧
      ∀ key, bitUnit s e = some key →
        (kept key < 63 → after = .next { s with platform := { p with
          bitErrors := e :: p.bitErrors, corrected := p.corrected ++ [(key, s.clock)] } }) ∧
        (63 ≤ kept key → after = .next { s with platform := { p with
          bitErrors := e :: p.bitErrors, corrected := p.corrected.filter fun q => q.1 ≠ key,
          dueTests := alsoDue p.dueTests key } })) ∧
    (second →
      (∀ w r b x, e = .lane w r b → s.wave? w = some x → r < 76 → ∃ t, after = .next t ∧ WaveStep s1 t x { x with
        bad := (if r < 64 then .v r else if r < 72 then .t (r - 64) else .tv (r - 72), b / 32) :: x.bad }) ∧
      (∀ w r b x, e = .lane w r b → s.wave? w = some x → 76 ≤ r → ∃ t, after = .next t ∧ WaveStep s1 t x { x with
        badPreds := (r - 76, b / 32) :: x.badPreds }) ∧
      (∀ k y b x, e = .scratch k y b → s.block? k = some x → ∃ t, after = .next t ∧
        BlockStep s1 t x { x with badWords := y / 4 :: x.badWords }) ∧
      (∀ k i b x, e = .tag k i b → s.block? k = some x → ∃ t, after = .next t ∧
        BlockStep s1 t x { x with badTags := i :: x.badTags }) ∧
      (∀ k r c b x, e = .acc k r c b → s.block? k = some x → ∃ t, after = .next t ∧
        BlockStep s1 t x { x with badAcc := (128 * r + c) :: x.badAcc }) ∧
      (∀ k c b x, e = .sort k c b → s.block? k = some x → ∃ t, after = .next t ∧ t = { s1 with sorts := t.sorts } ∧
        OtherArrays s1 t x ∧
        sortArrayAt t x.isle x.core = { sortArrayAt s x.isle x.core with bad := c :: (sortArrayAt s x.isle x.core).bad }) ∧
      ∀ i a b, e = .far i a b → after = .next { s1 with platform := { s1.platform with
        badFar := (i * isleSpan + a) / 64 :: p.badFar } })

end Sys2Proof.Machine

/-- Resets, links, peers, tests, reports and stored bits. -/
def Obligations.PlatformEvents : Prop :=
  FunctionResets ∧ Resets ∧ LinksDown ∧ FlitReplays ∧ PeerAccesses ∧ SelfTests ∧ Attestation ∧ StoredBits

/-! ### Steps, words and invariants (R5, R100 to R103, R107, R114 to R117, R210 to R212, R402) -/

namespace Sys2Proof.Machine

/-- The word at an agent's pc: four bytes of the page that its context maps there for fetches, lowest first (R5, R18). -/
structure WordAt (s : State) (c : Context) (isle : Nat) (pc : Dword) (x : Word) : Prop where
  canonical : canonical pc = true
  mapped    : ∃ pl, translate s c isle pc .fetch = .ok pl ∧ leNat (readLoc s pl.loc 4) = x.toNat

/-- An agent meets an instruction of its own: outside a run, a word of its scope at its pc (R210, R212); inside a run, the word of
the body at which the wave stands, with the word after it, or the trailer (R103, R107, R108); past the end of its text, the implicit
EXIT of its scope (R402), which is no word for an LSTEP. -/
def Meets (s : State) (a : Agent) (i : Instr) : Prop :=
  (∃ w, a = .wave w.id ∧ s.wave? w.id = some w ∧ w.fell = true ∧ w.stepMode = none ∧ i = .exit 1) ∨
  (∃ b, a = .block b.id ∧ s.block? b.id = some b ∧ b.fell = true ∧ i = .exit 2) ∨
  (∃ g, a = .grid g.id ∧ s.grid? g.id = some g ∧ g.fell = true ∧ i = .exit 3) ∨
  (∃ w st x, a = .wave w.id ∧ s.wave? w.id = some w ∧ waveStanding s w = some st ∧ w.run = none ∧
    (w.fell = false ∨ w.stepMode ≠ none) ∧ WordAt s st.ctx st.isle w.pc x ∧ field (x.setWidth 64) 31 1 = 1 ∧
    (field (x.setWidth 64) 28 3 ≠ 2 ∧ field (x.setWidth 64) 28 3 ≠ 3) ∧ decode x none = .ok (i, 1)) ∨
  (∃ w r n x, a = .wave w.id ∧ s.wave? w.id = some w ∧ w.run = some r ∧ (w.fell = false ∨ w.stepMode ≠ none) ∧ n < 2 ^ 32 ∧
    w.pc = r.header + BitVec.ofNat 64 (4 * (n + 1)) ∧ r.body[n]? = some x ∧
    ((n = r.words ∧ decode x none = .ok (i, 1)) ∨
      (n < r.words ∧ field (x.setWidth 64) 31 1 = 0 ∧
        ∃ k, decode x (if n + 1 < r.words then r.body[n + 1]? else none) = .ok (i, k)))) ∨
  (∃ b c x, a = .block b.id ∧ s.block? b.id = some b ∧ s.ctx? b.ctx = some c ∧ b.fell = false ∧ WordAt s c b.isle b.pc x ∧
    field (x.setWidth 64) 31 1 = 1 ∧ field (x.setWidth 64) 28 3 = 2 ∧ decode x none = .ok (i, 1)) ∨
  (∃ g c x, a = .grid g.id ∧ s.grid? g.id = some g ∧ s.ctx? g.ctx = some c ∧ g.fell = false ∧ WordAt s c g.isle g.pc x ∧
    field (x.setWidth 64) 31 1 = 1 ∧ field (x.setWidth 64) 28 3 = 3 ∧ decode x none = .ok (i, 1))

end Sys2Proof.Machine

/-- A STEP RUNS THE DECODED INSTRUCTION: where an agent that may execute has the next move and meets instruction i, and no other wave
of its lane comes first (R319), the step is exec of i in the state with that agent's turn, followed by the mark of an implicit EXIT,
the slots of the lane and the counters of an open window; they leave the state alone where the agent stays in its text and the word is
no word of a run's body. A word with an uncorrectable error, and an ENTER, LEAVE or EXIT of a wave that a gang halt has still to stop,
do not execute. -/
def Obligations.StepRunsDecoded : Prop :=
  ∀ (s : State) (a : Agent) (rest : List Move) (i : Instr), s.agenda = .run a :: rest →
    let s1 : State := { s with agenda := rest, clock := s.clock + 1, turn := some a }
    agentRuns s1 a = true → (∀ w, a = .wave w.id → s1.wave? w.id = some w → laneTaken s1 w = false) →
    agentFetchBad s1 a = false → Meets s1 a i →
    (∀ w, a = .wave w.id → s1.wave? w.id = some w → w.haltInfo = 1 → w.stepMode = none → edgeWord i = true →
      ∃ t, step s = .next t ∧ WaveStep s1 t w { w with haltedWave := true, haltInfo := 2 }) ∧
    ((∀ w, a = .wave w.id → s1.wave? w.id = some w → w.haltInfo ≠ 1 ∨ w.stepMode ≠ none ∨ edgeWord i = false) →
      (∀ t, exec i s1 = .next t → step s = .next (afterWord s1 a i t)) ∧
      (∀ f, exec i s1 = .fault f → step s = .fault f) ∧ (∀ r, exec i s1 = .refused r → step s = .refused r) ∧
      ∀ t old g, exec i s1 = .next t → agentPc s1 a = some (old, g) →
        (plainInstr i = false ∨ agentPc t a = none ∨ ∀ new x, agentPc t a = some (new, x) → leavesText x old new = false) →
        (∀ w, a = .wave w.id → s1.wave? w.id = some w → inBody w = false ∧
          ∀ n, t.wave? w.id = some n → n.stallLeft = 0 ∧ n.passed = 0) → step s = .next t)

/-- Words of every family, as R100 to R106 and the field tables lay their bits out. -/
def Obligations.DecodeWords : Prop :=
  decode 0x0F081FE8 none = .ok (.iaddi ⟨2, 1, -3, 0⟩, 1) ∧
  decode 0x22E010F8 none = .ok (.fmul ⟨56, 1, 3, 7, 0⟩, 1) ∧
  decode 0x231410F8 (some 0x7F1C1000) = .ok (.ffmaTx ⟨5, 1, 3, 7, 0⟩ ⟨7, 1, 0⟩, 2) ∧
  decode 0x685087B8 (some 0x7F013010) = .ok (.ld ⟨20, 8, 30, 7, 0⟩ ⟨0, 19, 16⟩, 2) ∧
  decode 0x95611000 none = .ok (.run 1 2 0, 1) ∧
  decode 0x9F514000 none = .ok (.endr 2 69 0 0, 1) ∧
  decode 0x90231900 none = .ok (.sadd ⟨1, 3, 3, 4⟩, 1) ∧
  decode 0x91831234 none = .ok (.smovi 1 3 0x1234, 1) ∧
  decode 0x85000800 none = .ok (.ifT 1 0, 1) ∧
  decode 0x96800002 none = .ok (.cpwait 2, 1) ∧
  decode 0xA5C00000 none = .ok (.acq, 1) ∧
  decode 0x96E00005 none = .ok (.trap 5, 1)

/-- DECODE AND ENCODE AGREE. An instruction with words has one or two, and they decode to it, with every operand at every value
that the encoding admits, in words and in bytes; and a word that decodes is the encoding of what it decodes to, so that no bit of
it is dropped. A one-word instruction of a `+` opcode is meant wherever no TX word follows (R103). -/
def Obligations.DecodeEncode : Prop :=
  (∀ (i : Instr), i.isWord = true →
    (∃ w, encode i = [w] ∧ (∀ next, (∀ x, next = some x → isTx x = false) → decode w next = .ok (i, 1)) ∧
      ∀ bs, (∀ x, (wordOfBytes bs).map (·.1) = some x → isTx x = false) → decodeBytes (encodeBytes i ++ bs) = .ok (i, bs)) ∨
    (∃ w x, encode i = [w, x] ∧ isTx x = true ∧ decode w (some x) = .ok (i, 2) ∧
      ∀ bs, decodeBytes (encodeBytes i ++ bs) = .ok (i, bs))) ∧
  ∀ (w : Word) (next : Option Word) (i : Instr) (n : Nat), decode w next = .ok (i, n) →
    (n = 1 ∧ encode i = [w]) ∨ (n = 2 ∧ ∃ x, next = some x ∧ encode i = [w, x])

namespace Sys2Proof.Machine

/-- The canonical form of everything sparse: the three memories, a block's scratchpad, its tags, its accumulators and the counts of
its last writes, the arguments of a grid, what blocks left in a partition, the groups, the invalidations on their way, the engines'
and tenants' turns, and the counts of a window and of the tests (log 3). -/
structure Canonical (s : State) : Prop where
  memories     : MemoriesWf s
  groups       : mapWf emptyGroup s.groups = true
  invalidating : mapWf 0 s.invalidating = true
  turns        : mapWf 0 s.grants = true ∧ mapWf 0 s.served = true ∧ mapWf 0 s.platform.transient = true
  blocks       : ∀ b ∈ s.blocks, Memory.wf b.scratch = true ∧ mapWf 0 b.tags = true ∧ mapWf 0 b.acc = true ∧
    mapWf 0 b.seqStamps = true ∧ mapWf 0 b.seqGlobal = true
  grids        : ∀ g ∈ s.grids, mapWf 0 g.args = true
  partitions   : ∀ p ∈ s.partitions, mapWf 0 p.image = true
  windows      : ∀ c ∈ s.contexts, mapWf 0 c.capture.counters = true ∧ mapWf 0 c.capture.rotation = true

end Sys2Proof.Machine

/-- EVERY STEP KEEPS the canonical form: equal memories stay equal data. -/
def Obligations.CanonicalKept : Prop := ∀ s t : State, Canonical s → step s = .next t → Canonical t

namespace Sys2Proof.Machine

/-- The parts of the machine keep their identities and sizes: register files are as long as the rules give them, no two agents
share an identifier, every identifier is an earlier one than the next, and contexts and queues are told apart by their indices;
there are eight isles (R2, R89 to R98, R106, R296, R297). -/
structure WellBuilt (s : State) : Prop where
  sized    : Sized s
  distinct : Distinct s
  waves    : ∀ w ∈ s.waves, w.id < s.nextId
  blocks   : ∀ b ∈ s.blocks, b.id < s.nextId
  grids    : ∀ g ∈ s.grids, g.id < s.nextId
  contexts : (s.contexts.map (·.index)).Nodup
  queues   : (s.queues.map (·.index)).Nodup
  isles    : s.isles.length = 8

end Sys2Proof.Machine

/-- EVERY STEP KEEPS the build of the machine. -/
def Obligations.BuildKept : Prop := ∀ s t : State, WellBuilt s → step s = .next t → WellBuilt t

/-- What power-on leaves (R23, R28, R30, R298, R299, R324, R370, R387, R399): every register of every page at the value that its
table gives for reset, TPERIOD 100 and PWRLIM 3,200 among them; nothing is live, and the invariants hold. Memory lists nothing
(log 3); the values that no rule gives stand in log 9. -/
def Obligations.ResetState : Prop :=
  let s := State.reset
  (∀ k, k < 8 → let r := s.isle k
    r.xltagb = 0 ∧ r.xlinva = 0 ∧ r.xlinvc = 0 ∧ r.fltrb = 0 ∧ r.head = 0 ∧ r.tail = 0 ∧ r.ctxtb = 0 ∧ r.qtb = 0 ∧ r.tenb = 0 ∧
    r.tperiod = 100 ∧ r.qcmd = 0 ∧ r.retl = 0) ∧
  s.platform.pwrlim = 3200 ∧ s.platform.ctxcmd = 0 ∧ s.platform.fnctxb = 0 ∧ s.platform.strtb = 0 ∧ s.platform.pgrpb = 0 ∧
  (∀ f, f < 64 → s.platform.cntpol.getD f 1 = 0) ∧ s.platform.booted = false ∧ s.platform.links = 0 ∧
  s.contexts = [] ∧ s.queues = [] ∧ s.launches = [] ∧ s.grids = [] ∧ s.blocks = [] ∧ s.waves = [] ∧ s.cached = [] ∧
  Canonical s ∧ WellBuilt s

end
end

