-- ==== Sys2Proof/Laws/State.lean ====
section
/-!
SUPPORT. Sys2Proof/Laws/State.lean: one lemma for each field under each update of the state, so that no proof unfolds a record
update, and what the lookups of agents read after an update.
-/

namespace Sys2Proof.Machine
open Sys2Proof

/-! ### Fields under the updates of the state -/

@[simp] theorem State.putWave_agenda (s : State) (w : Wave) : (s.putWave w).agenda = s.agenda := rfl
@[simp] theorem State.putWave_turn (s : State) (w : Wave) : (s.putWave w).turn = s.turn := rfl
@[simp] theorem State.putWave_clock (s : State) (w : Wave) : (s.putWave w).clock = s.clock := rfl
@[simp] theorem State.putWave_fresh (s : State) (w : Wave) : (s.putWave w).fresh = s.fresh := rfl
@[simp] theorem State.putWave_nextId (s : State) (w : Wave) : (s.putWave w).nextId = s.nextId := rfl
@[simp] theorem State.putWave_hbm (s : State) (w : Wave) : (s.putWave w).hbm = s.hbm := rfl
@[simp] theorem State.putWave_peer (s : State) (w : Wave) : (s.putWave w).peer = s.peer := rfl
@[simp] theorem State.putWave_host (s : State) (w : Wave) : (s.putWave w).host = s.host := rfl
@[simp] theorem State.putWave_isles (s : State) (w : Wave) : (s.putWave w).isles = s.isles := rfl
@[simp] theorem State.putWave_platform (s : State) (w : Wave) : (s.putWave w).platform = s.platform := rfl
@[simp] theorem State.putWave_contexts (s : State) (w : Wave) : (s.putWave w).contexts = s.contexts := rfl
@[simp] theorem State.putWave_queues (s : State) (w : Wave) : (s.putWave w).queues = s.queues := rfl
@[simp] theorem State.putWave_launches (s : State) (w : Wave) : (s.putWave w).launches = s.launches := rfl
@[simp] theorem State.putWave_grids (s : State) (w : Wave) : (s.putWave w).grids = s.grids := rfl
@[simp] theorem State.putWave_blocks (s : State) (w : Wave) : (s.putWave w).blocks = s.blocks := rfl
@[simp] theorem State.putWave_groups (s : State) (w : Wave) : (s.putWave w).groups = s.groups := rfl
@[simp] theorem State.putWave_requests (s : State) (w : Wave) : (s.putWave w).requests = s.requests := rfl
@[simp] theorem State.putWave_cached (s : State) (w : Wave) : (s.putWave w).cached = s.cached := rfl
@[simp] theorem State.putWave_ats (s : State) (w : Wave) : (s.putWave w).ats = s.ats := rfl
@[simp] theorem State.putWave_invalidating (s : State) (w : Wave) : (s.putWave w).invalidating = s.invalidating := rfl
@[simp] theorem State.putWave_atsInval (s : State) (w : Wave) : (s.putWave w).atsInval = s.atsInval := rfl
@[simp] theorem State.putWave_colls (s : State) (w : Wave) : (s.putWave w).colls = s.colls := rfl
@[simp] theorem State.putWave_loans (s : State) (w : Wave) : (s.putWave w).loans = s.loans := rfl
@[simp] theorem State.putWave_partitions (s : State) (w : Wave) : (s.putWave w).partitions = s.partitions := rfl
@[simp] theorem State.putWave_sorts (s : State) (w : Wave) : (s.putWave w).sorts = s.sorts := rfl
@[simp] theorem State.putWave_grants (s : State) (w : Wave) : (s.putWave w).grants = s.grants := rfl
@[simp] theorem State.putWave_served (s : State) (w : Wave) : (s.putWave w).served = s.served := rfl

@[simp] theorem State.putBlock_agenda (s : State) (b : Block) : (s.putBlock b).agenda = s.agenda := rfl
@[simp] theorem State.putBlock_turn (s : State) (b : Block) : (s.putBlock b).turn = s.turn := rfl
@[simp] theorem State.putBlock_clock (s : State) (b : Block) : (s.putBlock b).clock = s.clock := rfl
@[simp] theorem State.putBlock_fresh (s : State) (b : Block) : (s.putBlock b).fresh = s.fresh := rfl
@[simp] theorem State.putBlock_nextId (s : State) (b : Block) : (s.putBlock b).nextId = s.nextId := rfl
@[simp] theorem State.putBlock_hbm (s : State) (b : Block) : (s.putBlock b).hbm = s.hbm := rfl
@[simp] theorem State.putBlock_peer (s : State) (b : Block) : (s.putBlock b).peer = s.peer := rfl
@[simp] theorem State.putBlock_host (s : State) (b : Block) : (s.putBlock b).host = s.host := rfl
@[simp] theorem State.putBlock_isles (s : State) (b : Block) : (s.putBlock b).isles = s.isles := rfl
@[simp] theorem State.putBlock_platform (s : State) (b : Block) : (s.putBlock b).platform = s.platform := rfl
@[simp] theorem State.putBlock_contexts (s : State) (b : Block) : (s.putBlock b).contexts = s.contexts := rfl
@[simp] theorem State.putBlock_queues (s : State) (b : Block) : (s.putBlock b).queues = s.queues := rfl
@[simp] theorem State.putBlock_launches (s : State) (b : Block) : (s.putBlock b).launches = s.launches := rfl
@[simp] theorem State.putBlock_grids (s : State) (b : Block) : (s.putBlock b).grids = s.grids := rfl
@[simp] theorem State.putBlock_waves (s : State) (b : Block) : (s.putBlock b).waves = s.waves := rfl
@[simp] theorem State.putBlock_groups (s : State) (b : Block) : (s.putBlock b).groups = s.groups := rfl
@[simp] theorem State.putBlock_requests (s : State) (b : Block) : (s.putBlock b).requests = s.requests := rfl
@[simp] theorem State.putBlock_cached (s : State) (b : Block) : (s.putBlock b).cached = s.cached := rfl
@[simp] theorem State.putBlock_ats (s : State) (b : Block) : (s.putBlock b).ats = s.ats := rfl
@[simp] theorem State.putBlock_invalidating (s : State) (b : Block) : (s.putBlock b).invalidating = s.invalidating := rfl
@[simp] theorem State.putBlock_atsInval (s : State) (b : Block) : (s.putBlock b).atsInval = s.atsInval := rfl
@[simp] theorem State.putBlock_colls (s : State) (b : Block) : (s.putBlock b).colls = s.colls := rfl
@[simp] theorem State.putBlock_loans (s : State) (b : Block) : (s.putBlock b).loans = s.loans := rfl
@[simp] theorem State.putBlock_partitions (s : State) (b : Block) : (s.putBlock b).partitions = s.partitions := rfl
@[simp] theorem State.putBlock_sorts (s : State) (b : Block) : (s.putBlock b).sorts = s.sorts := rfl
@[simp] theorem State.putBlock_grants (s : State) (b : Block) : (s.putBlock b).grants = s.grants := rfl
@[simp] theorem State.putBlock_served (s : State) (b : Block) : (s.putBlock b).served = s.served := rfl

@[simp] theorem State.putGrid_agenda (s : State) (g : Grid) : (s.putGrid g).agenda = s.agenda := rfl
@[simp] theorem State.putGrid_turn (s : State) (g : Grid) : (s.putGrid g).turn = s.turn := rfl
@[simp] theorem State.putGrid_clock (s : State) (g : Grid) : (s.putGrid g).clock = s.clock := rfl
@[simp] theorem State.putGrid_fresh (s : State) (g : Grid) : (s.putGrid g).fresh = s.fresh := rfl
@[simp] theorem State.putGrid_nextId (s : State) (g : Grid) : (s.putGrid g).nextId = s.nextId := rfl
@[simp] theorem State.putGrid_hbm (s : State) (g : Grid) : (s.putGrid g).hbm = s.hbm := rfl
@[simp] theorem State.putGrid_peer (s : State) (g : Grid) : (s.putGrid g).peer = s.peer := rfl
@[simp] theorem State.putGrid_host (s : State) (g : Grid) : (s.putGrid g).host = s.host := rfl
@[simp] theorem State.putGrid_isles (s : State) (g : Grid) : (s.putGrid g).isles = s.isles := rfl
@[simp] theorem State.putGrid_platform (s : State) (g : Grid) : (s.putGrid g).platform = s.platform := rfl
@[simp] theorem State.putGrid_contexts (s : State) (g : Grid) : (s.putGrid g).contexts = s.contexts := rfl
@[simp] theorem State.putGrid_queues (s : State) (g : Grid) : (s.putGrid g).queues = s.queues := rfl
@[simp] theorem State.putGrid_launches (s : State) (g : Grid) : (s.putGrid g).launches = s.launches := rfl
@[simp] theorem State.putGrid_blocks (s : State) (g : Grid) : (s.putGrid g).blocks = s.blocks := rfl
@[simp] theorem State.putGrid_waves (s : State) (g : Grid) : (s.putGrid g).waves = s.waves := rfl
@[simp] theorem State.putGrid_groups (s : State) (g : Grid) : (s.putGrid g).groups = s.groups := rfl
@[simp] theorem State.putGrid_requests (s : State) (g : Grid) : (s.putGrid g).requests = s.requests := rfl
@[simp] theorem State.putGrid_cached (s : State) (g : Grid) : (s.putGrid g).cached = s.cached := rfl
@[simp] theorem State.putGrid_ats (s : State) (g : Grid) : (s.putGrid g).ats = s.ats := rfl
@[simp] theorem State.putGrid_invalidating (s : State) (g : Grid) : (s.putGrid g).invalidating = s.invalidating := rfl
@[simp] theorem State.putGrid_atsInval (s : State) (g : Grid) : (s.putGrid g).atsInval = s.atsInval := rfl
@[simp] theorem State.putGrid_colls (s : State) (g : Grid) : (s.putGrid g).colls = s.colls := rfl
@[simp] theorem State.putGrid_loans (s : State) (g : Grid) : (s.putGrid g).loans = s.loans := rfl
@[simp] theorem State.putGrid_partitions (s : State) (g : Grid) : (s.putGrid g).partitions = s.partitions := rfl
@[simp] theorem State.putGrid_sorts (s : State) (g : Grid) : (s.putGrid g).sorts = s.sorts := rfl
@[simp] theorem State.putGrid_grants (s : State) (g : Grid) : (s.putGrid g).grants = s.grants := rfl
@[simp] theorem State.putGrid_served (s : State) (g : Grid) : (s.putGrid g).served = s.served := rfl

@[simp] theorem State.putCtx_agenda (s : State) (c : Context) : (s.putCtx c).agenda = s.agenda := rfl
@[simp] theorem State.putCtx_turn (s : State) (c : Context) : (s.putCtx c).turn = s.turn := rfl
@[simp] theorem State.putCtx_clock (s : State) (c : Context) : (s.putCtx c).clock = s.clock := rfl
@[simp] theorem State.putCtx_fresh (s : State) (c : Context) : (s.putCtx c).fresh = s.fresh := rfl
@[simp] theorem State.putCtx_nextId (s : State) (c : Context) : (s.putCtx c).nextId = s.nextId := rfl
@[simp] theorem State.putCtx_hbm (s : State) (c : Context) : (s.putCtx c).hbm = s.hbm := rfl
@[simp] theorem State.putCtx_peer (s : State) (c : Context) : (s.putCtx c).peer = s.peer := rfl
@[simp] theorem State.putCtx_host (s : State) (c : Context) : (s.putCtx c).host = s.host := rfl
@[simp] theorem State.putCtx_isles (s : State) (c : Context) : (s.putCtx c).isles = s.isles := rfl
@[simp] theorem State.putCtx_platform (s : State) (c : Context) : (s.putCtx c).platform = s.platform := rfl
@[simp] theorem State.putCtx_queues (s : State) (c : Context) : (s.putCtx c).queues = s.queues := rfl
@[simp] theorem State.putCtx_launches (s : State) (c : Context) : (s.putCtx c).launches = s.launches := rfl
@[simp] theorem State.putCtx_grids (s : State) (c : Context) : (s.putCtx c).grids = s.grids := rfl
@[simp] theorem State.putCtx_blocks (s : State) (c : Context) : (s.putCtx c).blocks = s.blocks := rfl
@[simp] theorem State.putCtx_waves (s : State) (c : Context) : (s.putCtx c).waves = s.waves := rfl
@[simp] theorem State.putCtx_groups (s : State) (c : Context) : (s.putCtx c).groups = s.groups := rfl
@[simp] theorem State.putCtx_requests (s : State) (c : Context) : (s.putCtx c).requests = s.requests := rfl
@[simp] theorem State.putCtx_cached (s : State) (c : Context) : (s.putCtx c).cached = s.cached := rfl
@[simp] theorem State.putCtx_ats (s : State) (c : Context) : (s.putCtx c).ats = s.ats := rfl
@[simp] theorem State.putCtx_invalidating (s : State) (c : Context) : (s.putCtx c).invalidating = s.invalidating := rfl
@[simp] theorem State.putCtx_atsInval (s : State) (c : Context) : (s.putCtx c).atsInval = s.atsInval := rfl
@[simp] theorem State.putCtx_colls (s : State) (c : Context) : (s.putCtx c).colls = s.colls := rfl
@[simp] theorem State.putCtx_loans (s : State) (c : Context) : (s.putCtx c).loans = s.loans := rfl
@[simp] theorem State.putCtx_partitions (s : State) (c : Context) : (s.putCtx c).partitions = s.partitions := rfl
@[simp] theorem State.putCtx_sorts (s : State) (c : Context) : (s.putCtx c).sorts = s.sorts := rfl
@[simp] theorem State.putCtx_grants (s : State) (c : Context) : (s.putCtx c).grants = s.grants := rfl
@[simp] theorem State.putCtx_served (s : State) (c : Context) : (s.putCtx c).served = s.served := rfl

@[simp] theorem State.putQueue_agenda (s : State) (q : Queue) : (s.putQueue q).agenda = s.agenda := rfl
@[simp] theorem State.putQueue_turn (s : State) (q : Queue) : (s.putQueue q).turn = s.turn := rfl
@[simp] theorem State.putQueue_clock (s : State) (q : Queue) : (s.putQueue q).clock = s.clock := rfl
@[simp] theorem State.putQueue_fresh (s : State) (q : Queue) : (s.putQueue q).fresh = s.fresh := rfl
@[simp] theorem State.putQueue_nextId (s : State) (q : Queue) : (s.putQueue q).nextId = s.nextId := rfl
@[simp] theorem State.putQueue_hbm (s : State) (q : Queue) : (s.putQueue q).hbm = s.hbm := rfl
@[simp] theorem State.putQueue_peer (s : State) (q : Queue) : (s.putQueue q).peer = s.peer := rfl
@[simp] theorem State.putQueue_host (s : State) (q : Queue) : (s.putQueue q).host = s.host := rfl
@[simp] theorem State.putQueue_isles (s : State) (q : Queue) : (s.putQueue q).isles = s.isles := rfl
@[simp] theorem State.putQueue_platform (s : State) (q : Queue) : (s.putQueue q).platform = s.platform := rfl
@[simp] theorem State.putQueue_contexts (s : State) (q : Queue) : (s.putQueue q).contexts = s.contexts := rfl
@[simp] theorem State.putQueue_launches (s : State) (q : Queue) : (s.putQueue q).launches = s.launches := rfl
@[simp] theorem State.putQueue_grids (s : State) (q : Queue) : (s.putQueue q).grids = s.grids := rfl
@[simp] theorem State.putQueue_blocks (s : State) (q : Queue) : (s.putQueue q).blocks = s.blocks := rfl
@[simp] theorem State.putQueue_waves (s : State) (q : Queue) : (s.putQueue q).waves = s.waves := rfl
@[simp] theorem State.putQueue_groups (s : State) (q : Queue) : (s.putQueue q).groups = s.groups := rfl
@[simp] theorem State.putQueue_requests (s : State) (q : Queue) : (s.putQueue q).requests = s.requests := rfl
@[simp] theorem State.putQueue_cached (s : State) (q : Queue) : (s.putQueue q).cached = s.cached := rfl
@[simp] theorem State.putQueue_ats (s : State) (q : Queue) : (s.putQueue q).ats = s.ats := rfl
@[simp] theorem State.putQueue_invalidating (s : State) (q : Queue) : (s.putQueue q).invalidating = s.invalidating := rfl
@[simp] theorem State.putQueue_atsInval (s : State) (q : Queue) : (s.putQueue q).atsInval = s.atsInval := rfl
@[simp] theorem State.putQueue_colls (s : State) (q : Queue) : (s.putQueue q).colls = s.colls := rfl
@[simp] theorem State.putQueue_loans (s : State) (q : Queue) : (s.putQueue q).loans = s.loans := rfl
@[simp] theorem State.putQueue_partitions (s : State) (q : Queue) : (s.putQueue q).partitions = s.partitions := rfl
@[simp] theorem State.putQueue_sorts (s : State) (q : Queue) : (s.putQueue q).sorts = s.sorts := rfl
@[simp] theorem State.putQueue_grants (s : State) (q : Queue) : (s.putQueue q).grants = s.grants := rfl
@[simp] theorem State.putQueue_served (s : State) (q : Queue) : (s.putQueue q).served = s.served := rfl

@[simp] theorem State.putLaunch_agenda (s : State) (l : Launch) : (s.putLaunch l).agenda = s.agenda := rfl
@[simp] theorem State.putLaunch_turn (s : State) (l : Launch) : (s.putLaunch l).turn = s.turn := rfl
@[simp] theorem State.putLaunch_clock (s : State) (l : Launch) : (s.putLaunch l).clock = s.clock := rfl
@[simp] theorem State.putLaunch_fresh (s : State) (l : Launch) : (s.putLaunch l).fresh = s.fresh := rfl
@[simp] theorem State.putLaunch_nextId (s : State) (l : Launch) : (s.putLaunch l).nextId = s.nextId := rfl
@[simp] theorem State.putLaunch_hbm (s : State) (l : Launch) : (s.putLaunch l).hbm = s.hbm := rfl
@[simp] theorem State.putLaunch_peer (s : State) (l : Launch) : (s.putLaunch l).peer = s.peer := rfl
@[simp] theorem State.putLaunch_host (s : State) (l : Launch) : (s.putLaunch l).host = s.host := rfl
@[simp] theorem State.putLaunch_isles (s : State) (l : Launch) : (s.putLaunch l).isles = s.isles := rfl
@[simp] theorem State.putLaunch_platform (s : State) (l : Launch) : (s.putLaunch l).platform = s.platform := rfl
@[simp] theorem State.putLaunch_contexts (s : State) (l : Launch) : (s.putLaunch l).contexts = s.contexts := rfl
@[simp] theorem State.putLaunch_queues (s : State) (l : Launch) : (s.putLaunch l).queues = s.queues := rfl
@[simp] theorem State.putLaunch_grids (s : State) (l : Launch) : (s.putLaunch l).grids = s.grids := rfl
@[simp] theorem State.putLaunch_blocks (s : State) (l : Launch) : (s.putLaunch l).blocks = s.blocks := rfl
@[simp] theorem State.putLaunch_waves (s : State) (l : Launch) : (s.putLaunch l).waves = s.waves := rfl
@[simp] theorem State.putLaunch_groups (s : State) (l : Launch) : (s.putLaunch l).groups = s.groups := rfl
@[simp] theorem State.putLaunch_requests (s : State) (l : Launch) : (s.putLaunch l).requests = s.requests := rfl
@[simp] theorem State.putLaunch_cached (s : State) (l : Launch) : (s.putLaunch l).cached = s.cached := rfl
@[simp] theorem State.putLaunch_ats (s : State) (l : Launch) : (s.putLaunch l).ats = s.ats := rfl
@[simp] theorem State.putLaunch_invalidating (s : State) (l : Launch) : (s.putLaunch l).invalidating = s.invalidating := rfl
@[simp] theorem State.putLaunch_atsInval (s : State) (l : Launch) : (s.putLaunch l).atsInval = s.atsInval := rfl
@[simp] theorem State.putLaunch_colls (s : State) (l : Launch) : (s.putLaunch l).colls = s.colls := rfl
@[simp] theorem State.putLaunch_loans (s : State) (l : Launch) : (s.putLaunch l).loans = s.loans := rfl
@[simp] theorem State.putLaunch_partitions (s : State) (l : Launch) : (s.putLaunch l).partitions = s.partitions := rfl
@[simp] theorem State.putLaunch_sorts (s : State) (l : Launch) : (s.putLaunch l).sorts = s.sorts := rfl
@[simp] theorem State.putLaunch_grants (s : State) (l : Launch) : (s.putLaunch l).grants = s.grants := rfl
@[simp] theorem State.putLaunch_served (s : State) (l : Launch) : (s.putLaunch l).served = s.served := rfl

@[simp] theorem State.putIsle_agenda (s : State) (i : Nat) (r : IsleRegs) : (s.putIsle i r).agenda = s.agenda := rfl
@[simp] theorem State.putIsle_turn (s : State) (i : Nat) (r : IsleRegs) : (s.putIsle i r).turn = s.turn := rfl
@[simp] theorem State.putIsle_clock (s : State) (i : Nat) (r : IsleRegs) : (s.putIsle i r).clock = s.clock := rfl
@[simp] theorem State.putIsle_fresh (s : State) (i : Nat) (r : IsleRegs) : (s.putIsle i r).fresh = s.fresh := rfl
@[simp] theorem State.putIsle_nextId (s : State) (i : Nat) (r : IsleRegs) : (s.putIsle i r).nextId = s.nextId := rfl
@[simp] theorem State.putIsle_hbm (s : State) (i : Nat) (r : IsleRegs) : (s.putIsle i r).hbm = s.hbm := rfl
@[simp] theorem State.putIsle_peer (s : State) (i : Nat) (r : IsleRegs) : (s.putIsle i r).peer = s.peer := rfl
@[simp] theorem State.putIsle_host (s : State) (i : Nat) (r : IsleRegs) : (s.putIsle i r).host = s.host := rfl
@[simp] theorem State.putIsle_platform (s : State) (i : Nat) (r : IsleRegs) : (s.putIsle i r).platform = s.platform := rfl
@[simp] theorem State.putIsle_contexts (s : State) (i : Nat) (r : IsleRegs) : (s.putIsle i r).contexts = s.contexts := rfl
@[simp] theorem State.putIsle_queues (s : State) (i : Nat) (r : IsleRegs) : (s.putIsle i r).queues = s.queues := rfl
@[simp] theorem State.putIsle_launches (s : State) (i : Nat) (r : IsleRegs) : (s.putIsle i r).launches = s.launches := rfl
@[simp] theorem State.putIsle_grids (s : State) (i : Nat) (r : IsleRegs) : (s.putIsle i r).grids = s.grids := rfl
@[simp] theorem State.putIsle_blocks (s : State) (i : Nat) (r : IsleRegs) : (s.putIsle i r).blocks = s.blocks := rfl
@[simp] theorem State.putIsle_waves (s : State) (i : Nat) (r : IsleRegs) : (s.putIsle i r).waves = s.waves := rfl
@[simp] theorem State.putIsle_groups (s : State) (i : Nat) (r : IsleRegs) : (s.putIsle i r).groups = s.groups := rfl
@[simp] theorem State.putIsle_requests (s : State) (i : Nat) (r : IsleRegs) : (s.putIsle i r).requests = s.requests := rfl
@[simp] theorem State.putIsle_cached (s : State) (i : Nat) (r : IsleRegs) : (s.putIsle i r).cached = s.cached := rfl
@[simp] theorem State.putIsle_ats (s : State) (i : Nat) (r : IsleRegs) : (s.putIsle i r).ats = s.ats := rfl
@[simp] theorem State.putIsle_invalidating (s : State) (i : Nat) (r : IsleRegs) : (s.putIsle i r).invalidating = s.invalidating := rfl
@[simp] theorem State.putIsle_atsInval (s : State) (i : Nat) (r : IsleRegs) : (s.putIsle i r).atsInval = s.atsInval := rfl
@[simp] theorem State.putIsle_colls (s : State) (i : Nat) (r : IsleRegs) : (s.putIsle i r).colls = s.colls := rfl
@[simp] theorem State.putIsle_loans (s : State) (i : Nat) (r : IsleRegs) : (s.putIsle i r).loans = s.loans := rfl
@[simp] theorem State.putIsle_partitions (s : State) (i : Nat) (r : IsleRegs) : (s.putIsle i r).partitions = s.partitions := rfl
@[simp] theorem State.putIsle_sorts (s : State) (i : Nat) (r : IsleRegs) : (s.putIsle i r).sorts = s.sorts := rfl
@[simp] theorem State.putIsle_grants (s : State) (i : Nat) (r : IsleRegs) : (s.putIsle i r).grants = s.grants := rfl
@[simp] theorem State.putIsle_served (s : State) (i : Nat) (r : IsleRegs) : (s.putIsle i r).served = s.served := rfl

@[simp] theorem State.putGroup_agenda (s : State) (g : Grid) (e : Nat) (x : GroupEntry) : (s.putGroup g e x).agenda = s.agenda := rfl
@[simp] theorem State.putGroup_turn (s : State) (g : Grid) (e : Nat) (x : GroupEntry) : (s.putGroup g e x).turn = s.turn := rfl
@[simp] theorem State.putGroup_clock (s : State) (g : Grid) (e : Nat) (x : GroupEntry) : (s.putGroup g e x).clock = s.clock := rfl
@[simp] theorem State.putGroup_fresh (s : State) (g : Grid) (e : Nat) (x : GroupEntry) : (s.putGroup g e x).fresh = s.fresh := rfl
@[simp] theorem State.putGroup_nextId (s : State) (g : Grid) (e : Nat) (x : GroupEntry) : (s.putGroup g e x).nextId = s.nextId := rfl
@[simp] theorem State.putGroup_hbm (s : State) (g : Grid) (e : Nat) (x : GroupEntry) : (s.putGroup g e x).hbm = s.hbm := rfl
@[simp] theorem State.putGroup_peer (s : State) (g : Grid) (e : Nat) (x : GroupEntry) : (s.putGroup g e x).peer = s.peer := rfl
@[simp] theorem State.putGroup_host (s : State) (g : Grid) (e : Nat) (x : GroupEntry) : (s.putGroup g e x).host = s.host := rfl
@[simp] theorem State.putGroup_isles (s : State) (g : Grid) (e : Nat) (x : GroupEntry) : (s.putGroup g e x).isles = s.isles := rfl
@[simp] theorem State.putGroup_platform (s : State) (g : Grid) (e : Nat) (x : GroupEntry) : (s.putGroup g e x).platform = s.platform := rfl
@[simp] theorem State.putGroup_contexts (s : State) (g : Grid) (e : Nat) (x : GroupEntry) : (s.putGroup g e x).contexts = s.contexts := rfl
@[simp] theorem State.putGroup_queues (s : State) (g : Grid) (e : Nat) (x : GroupEntry) : (s.putGroup g e x).queues = s.queues := rfl
@[simp] theorem State.putGroup_launches (s : State) (g : Grid) (e : Nat) (x : GroupEntry) : (s.putGroup g e x).launches = s.launches := rfl
@[simp] theorem State.putGroup_grids (s : State) (g : Grid) (e : Nat) (x : GroupEntry) : (s.putGroup g e x).grids = s.grids := rfl
@[simp] theorem State.putGroup_blocks (s : State) (g : Grid) (e : Nat) (x : GroupEntry) : (s.putGroup g e x).blocks = s.blocks := rfl
@[simp] theorem State.putGroup_waves (s : State) (g : Grid) (e : Nat) (x : GroupEntry) : (s.putGroup g e x).waves = s.waves := rfl
@[simp] theorem State.putGroup_requests (s : State) (g : Grid) (e : Nat) (x : GroupEntry) : (s.putGroup g e x).requests = s.requests := rfl
@[simp] theorem State.putGroup_cached (s : State) (g : Grid) (e : Nat) (x : GroupEntry) : (s.putGroup g e x).cached = s.cached := rfl
@[simp] theorem State.putGroup_ats (s : State) (g : Grid) (e : Nat) (x : GroupEntry) : (s.putGroup g e x).ats = s.ats := rfl
@[simp] theorem State.putGroup_invalidating (s : State) (g : Grid) (e : Nat) (x : GroupEntry) : (s.putGroup g e x).invalidating = s.invalidating := rfl
@[simp] theorem State.putGroup_atsInval (s : State) (g : Grid) (e : Nat) (x : GroupEntry) : (s.putGroup g e x).atsInval = s.atsInval := rfl
@[simp] theorem State.putGroup_colls (s : State) (g : Grid) (e : Nat) (x : GroupEntry) : (s.putGroup g e x).colls = s.colls := rfl
@[simp] theorem State.putGroup_loans (s : State) (g : Grid) (e : Nat) (x : GroupEntry) : (s.putGroup g e x).loans = s.loans := rfl
@[simp] theorem State.putGroup_partitions (s : State) (g : Grid) (e : Nat) (x : GroupEntry) : (s.putGroup g e x).partitions = s.partitions := rfl
@[simp] theorem State.putGroup_sorts (s : State) (g : Grid) (e : Nat) (x : GroupEntry) : (s.putGroup g e x).sorts = s.sorts := rfl
@[simp] theorem State.putGroup_grants (s : State) (g : Grid) (e : Nat) (x : GroupEntry) : (s.putGroup g e x).grants = s.grants := rfl
@[simp] theorem State.putGroup_served (s : State) (g : Grid) (e : Nat) (x : GroupEntry) : (s.putGroup g e x).served = s.served := rfl

@[simp] theorem nextFresh_agenda (s : State) (n : Nat) : (nextFresh s n).agenda = s.agenda := rfl
@[simp] theorem nextFresh_turn (s : State) (n : Nat) : (nextFresh s n).turn = s.turn := rfl
@[simp] theorem nextFresh_clock (s : State) (n : Nat) : (nextFresh s n).clock = s.clock := rfl
@[simp] theorem nextFresh_nextId (s : State) (n : Nat) : (nextFresh s n).nextId = s.nextId := rfl
@[simp] theorem nextFresh_hbm (s : State) (n : Nat) : (nextFresh s n).hbm = s.hbm := rfl
@[simp] theorem nextFresh_peer (s : State) (n : Nat) : (nextFresh s n).peer = s.peer := rfl
@[simp] theorem nextFresh_host (s : State) (n : Nat) : (nextFresh s n).host = s.host := rfl
@[simp] theorem nextFresh_isles (s : State) (n : Nat) : (nextFresh s n).isles = s.isles := rfl
@[simp] theorem nextFresh_platform (s : State) (n : Nat) : (nextFresh s n).platform = s.platform := rfl
@[simp] theorem nextFresh_contexts (s : State) (n : Nat) : (nextFresh s n).contexts = s.contexts := rfl
@[simp] theorem nextFresh_queues (s : State) (n : Nat) : (nextFresh s n).queues = s.queues := rfl
@[simp] theorem nextFresh_launches (s : State) (n : Nat) : (nextFresh s n).launches = s.launches := rfl
@[simp] theorem nextFresh_grids (s : State) (n : Nat) : (nextFresh s n).grids = s.grids := rfl
@[simp] theorem nextFresh_blocks (s : State) (n : Nat) : (nextFresh s n).blocks = s.blocks := rfl
@[simp] theorem nextFresh_waves (s : State) (n : Nat) : (nextFresh s n).waves = s.waves := rfl
@[simp] theorem nextFresh_groups (s : State) (n : Nat) : (nextFresh s n).groups = s.groups := rfl
@[simp] theorem nextFresh_requests (s : State) (n : Nat) : (nextFresh s n).requests = s.requests := rfl
@[simp] theorem nextFresh_cached (s : State) (n : Nat) : (nextFresh s n).cached = s.cached := rfl
@[simp] theorem nextFresh_ats (s : State) (n : Nat) : (nextFresh s n).ats = s.ats := rfl
@[simp] theorem nextFresh_invalidating (s : State) (n : Nat) : (nextFresh s n).invalidating = s.invalidating := rfl
@[simp] theorem nextFresh_atsInval (s : State) (n : Nat) : (nextFresh s n).atsInval = s.atsInval := rfl
@[simp] theorem nextFresh_colls (s : State) (n : Nat) : (nextFresh s n).colls = s.colls := rfl
@[simp] theorem nextFresh_loans (s : State) (n : Nat) : (nextFresh s n).loans = s.loans := rfl
@[simp] theorem nextFresh_partitions (s : State) (n : Nat) : (nextFresh s n).partitions = s.partitions := rfl
@[simp] theorem nextFresh_sorts (s : State) (n : Nat) : (nextFresh s n).sorts = s.sorts := rfl
@[simp] theorem nextFresh_grants (s : State) (n : Nat) : (nextFresh s n).grants = s.grants := rfl
@[simp] theorem nextFresh_served (s : State) (n : Nat) : (nextFresh s n).served = s.served := rfl
@[simp] theorem nextFresh_fresh (s : State) (n : Nat) : (nextFresh s n).fresh = s.fresh + n := rfl

@[simp] theorem setSpace_agenda (s : State) (sp : Space) (m : Mem) : (setSpace s sp m).agenda = s.agenda := by cases sp <;> rfl
@[simp] theorem writeLoc_agenda (s : State) (l : Loc) (bs : List Byte) : (writeLoc s l bs).agenda = s.agenda := by
  simp [writeLoc]
@[simp] theorem setSpace_turn (s : State) (sp : Space) (m : Mem) : (setSpace s sp m).turn = s.turn := by cases sp <;> rfl
@[simp] theorem writeLoc_turn (s : State) (l : Loc) (bs : List Byte) : (writeLoc s l bs).turn = s.turn := by
  simp [writeLoc]
@[simp] theorem setSpace_clock (s : State) (sp : Space) (m : Mem) : (setSpace s sp m).clock = s.clock := by cases sp <;> rfl
@[simp] theorem writeLoc_clock (s : State) (l : Loc) (bs : List Byte) : (writeLoc s l bs).clock = s.clock := by
  simp [writeLoc]
@[simp] theorem setSpace_fresh (s : State) (sp : Space) (m : Mem) : (setSpace s sp m).fresh = s.fresh := by cases sp <;> rfl
@[simp] theorem writeLoc_fresh (s : State) (l : Loc) (bs : List Byte) : (writeLoc s l bs).fresh = s.fresh := by
  simp [writeLoc]
@[simp] theorem setSpace_nextId (s : State) (sp : Space) (m : Mem) : (setSpace s sp m).nextId = s.nextId := by cases sp <;> rfl
@[simp] theorem writeLoc_nextId (s : State) (l : Loc) (bs : List Byte) : (writeLoc s l bs).nextId = s.nextId := by
  simp [writeLoc]
@[simp] theorem setSpace_isles (s : State) (sp : Space) (m : Mem) : (setSpace s sp m).isles = s.isles := by cases sp <;> rfl
@[simp] theorem writeLoc_isles (s : State) (l : Loc) (bs : List Byte) : (writeLoc s l bs).isles = s.isles := by
  simp [writeLoc]
@[simp] theorem setSpace_platform (s : State) (sp : Space) (m : Mem) : (setSpace s sp m).platform = s.platform := by cases sp <;> rfl
@[simp] theorem writeLoc_platform (s : State) (l : Loc) (bs : List Byte) : (writeLoc s l bs).platform = s.platform := by
  simp [writeLoc]
@[simp] theorem setSpace_contexts (s : State) (sp : Space) (m : Mem) : (setSpace s sp m).contexts = s.contexts := by cases sp <;> rfl
@[simp] theorem writeLoc_contexts (s : State) (l : Loc) (bs : List Byte) : (writeLoc s l bs).contexts = s.contexts := by
  simp [writeLoc]
@[simp] theorem setSpace_queues (s : State) (sp : Space) (m : Mem) : (setSpace s sp m).queues = s.queues := by cases sp <;> rfl
@[simp] theorem writeLoc_queues (s : State) (l : Loc) (bs : List Byte) : (writeLoc s l bs).queues = s.queues := by
  simp [writeLoc]
@[simp] theorem setSpace_launches (s : State) (sp : Space) (m : Mem) : (setSpace s sp m).launches = s.launches := by cases sp <;> rfl
@[simp] theorem writeLoc_launches (s : State) (l : Loc) (bs : List Byte) : (writeLoc s l bs).launches = s.launches := by
  simp [writeLoc]
@[simp] theorem setSpace_grids (s : State) (sp : Space) (m : Mem) : (setSpace s sp m).grids = s.grids := by cases sp <;> rfl
@[simp] theorem writeLoc_grids (s : State) (l : Loc) (bs : List Byte) : (writeLoc s l bs).grids = s.grids := by
  simp [writeLoc]
@[simp] theorem setSpace_blocks (s : State) (sp : Space) (m : Mem) : (setSpace s sp m).blocks = s.blocks := by cases sp <;> rfl
@[simp] theorem writeLoc_blocks (s : State) (l : Loc) (bs : List Byte) : (writeLoc s l bs).blocks = s.blocks := by
  simp [writeLoc]
@[simp] theorem setSpace_waves (s : State) (sp : Space) (m : Mem) : (setSpace s sp m).waves = s.waves := by cases sp <;> rfl
@[simp] theorem writeLoc_waves (s : State) (l : Loc) (bs : List Byte) : (writeLoc s l bs).waves = s.waves := by
  simp [writeLoc]
@[simp] theorem setSpace_groups (s : State) (sp : Space) (m : Mem) : (setSpace s sp m).groups = s.groups := by cases sp <;> rfl
@[simp] theorem writeLoc_groups (s : State) (l : Loc) (bs : List Byte) : (writeLoc s l bs).groups = s.groups := by
  simp [writeLoc]
@[simp] theorem setSpace_requests (s : State) (sp : Space) (m : Mem) : (setSpace s sp m).requests = s.requests := by cases sp <;> rfl
@[simp] theorem writeLoc_requests (s : State) (l : Loc) (bs : List Byte) : (writeLoc s l bs).requests = s.requests := by
  simp [writeLoc]
@[simp] theorem setSpace_cached (s : State) (sp : Space) (m : Mem) : (setSpace s sp m).cached = s.cached := by cases sp <;> rfl
@[simp] theorem writeLoc_cached (s : State) (l : Loc) (bs : List Byte) : (writeLoc s l bs).cached = s.cached := by
  simp [writeLoc]
@[simp] theorem setSpace_ats (s : State) (sp : Space) (m : Mem) : (setSpace s sp m).ats = s.ats := by cases sp <;> rfl
@[simp] theorem writeLoc_ats (s : State) (l : Loc) (bs : List Byte) : (writeLoc s l bs).ats = s.ats := by
  simp [writeLoc]
@[simp] theorem setSpace_invalidating (s : State) (sp : Space) (m : Mem) : (setSpace s sp m).invalidating = s.invalidating := by cases sp <;> rfl
@[simp] theorem writeLoc_invalidating (s : State) (l : Loc) (bs : List Byte) : (writeLoc s l bs).invalidating = s.invalidating := by
  simp [writeLoc]
@[simp] theorem setSpace_atsInval (s : State) (sp : Space) (m : Mem) : (setSpace s sp m).atsInval = s.atsInval := by cases sp <;> rfl
@[simp] theorem writeLoc_atsInval (s : State) (l : Loc) (bs : List Byte) : (writeLoc s l bs).atsInval = s.atsInval := by
  simp [writeLoc]
@[simp] theorem setSpace_colls (s : State) (sp : Space) (m : Mem) : (setSpace s sp m).colls = s.colls := by cases sp <;> rfl
@[simp] theorem writeLoc_colls (s : State) (l : Loc) (bs : List Byte) : (writeLoc s l bs).colls = s.colls := by
  simp [writeLoc]
@[simp] theorem setSpace_loans (s : State) (sp : Space) (m : Mem) : (setSpace s sp m).loans = s.loans := by cases sp <;> rfl
@[simp] theorem writeLoc_loans (s : State) (l : Loc) (bs : List Byte) : (writeLoc s l bs).loans = s.loans := by
  simp [writeLoc]
@[simp] theorem setSpace_partitions (s : State) (sp : Space) (m : Mem) : (setSpace s sp m).partitions = s.partitions := by cases sp <;> rfl
@[simp] theorem writeLoc_partitions (s : State) (l : Loc) (bs : List Byte) : (writeLoc s l bs).partitions = s.partitions := by
  simp [writeLoc]
@[simp] theorem setSpace_sorts (s : State) (sp : Space) (m : Mem) : (setSpace s sp m).sorts = s.sorts := by cases sp <;> rfl
@[simp] theorem writeLoc_sorts (s : State) (l : Loc) (bs : List Byte) : (writeLoc s l bs).sorts = s.sorts := by
  simp [writeLoc]
@[simp] theorem setSpace_grants (s : State) (sp : Space) (m : Mem) : (setSpace s sp m).grants = s.grants := by cases sp <;> rfl
@[simp] theorem writeLoc_grants (s : State) (l : Loc) (bs : List Byte) : (writeLoc s l bs).grants = s.grants := by
  simp [writeLoc]
@[simp] theorem setSpace_served (s : State) (sp : Space) (m : Mem) : (setSpace s sp m).served = s.served := by cases sp <;> rfl
@[simp] theorem writeLoc_served (s : State) (l : Loc) (bs : List Byte) : (writeLoc s l bs).served = s.served := by
  simp [writeLoc]

/-! ### Lookups after an update -/

theorem find_map_same {α : Type} (key : α → Nat) (x : α) (xs : List α) (n : Nat) (y : α) (hk : key x = n)
    (h : xs.find? (fun a => key a == n) = some y) :
    (xs.map fun a => if key a == key x then x else a).find? (fun a => key a == n) = some x := by
  induction xs with
  | nil => simp at h
  | cons a as ih =>
    by_cases ha : key a = n
    · simp [ha, hk]
    · have hb : (key a == n) = false := by simpa using ha
      rw [List.find?_cons, hb] at h
      have hc : (key a == key x) = false := by simpa [hk] using ha
      rw [List.map_cons, hc]
      simp only [Bool.false_eq_true, if_false, List.find?_cons, hb]
      exact ih h

theorem find_map_other {α : Type} (key : α → Nat) (x : α) (xs : List α) (n : Nat) (hn : n ≠ key x) :
    (xs.map fun a => if key a == key x then x else a).find? (fun a => key a == n) = xs.find? (fun a => key a == n) := by
  induction xs with
  | nil => rfl
  | cons a as ih =>
    by_cases ha : key a = key x
    · have h1 : (key a == key x) = true := by simpa using ha
      have h2 : (key x == n) = false := by simpa using fun h => hn h.symm
      have h3 : (key a == n) = false := by simpa [ha] using fun h => hn h.symm
      simp only [List.map_cons, h1, if_true, List.find?_cons, h2, h3, ih]
    · have h1 : (key a == key x) = false := by simpa using ha
      simp only [List.map_cons, h1, Bool.false_eq_true, if_false, List.find?_cons, ih]

theorem State.putWave_wave_same (s : State) (x : Wave) (n : Nat) (y : Wave) (hk : x.id = n) (h : s.wave? n = some y) :
    (s.putWave x).wave? n = some x := find_map_same (fun a : Wave => a.id) x s.waves n y hk h

theorem State.putWave_wave_other (s : State) (x : Wave) (n : Nat) (hn : n ≠ x.id) : (s.putWave x).wave? n = s.wave? n :=
  find_map_other (fun a : Wave => a.id) x s.waves n hn

@[simp] theorem State.putBlock_wave_at (s : State) (x : Block) (n : Nat) : (s.putBlock x).wave? n = s.wave? n := rfl
@[simp] theorem State.putGrid_wave_at (s : State) (x : Grid) (n : Nat) : (s.putGrid x).wave? n = s.wave? n := rfl
@[simp] theorem State.putCtx_wave_at (s : State) (x : Context) (n : Nat) : (s.putCtx x).wave? n = s.wave? n := rfl
@[simp] theorem State.putQueue_wave_at (s : State) (x : Queue) (n : Nat) : (s.putQueue x).wave? n = s.wave? n := rfl
@[simp] theorem State.putLaunch_wave_at (s : State) (x : Launch) (n : Nat) : (s.putLaunch x).wave? n = s.wave? n := rfl
@[simp] theorem nextFresh_wave_at (s : State) (k n : Nat) : (nextFresh s k).wave? n = s.wave? n := rfl
@[simp] theorem State.putIsle_wave_at (s : State) (i : Nat) (r : IsleRegs) (n : Nat) : (s.putIsle i r).wave? n = s.wave? n := rfl
@[simp] theorem writeLoc_wave_at (s : State) (l : Loc) (bs : List Byte) (n : Nat) : (writeLoc s l bs).wave? n = s.wave? n := by
  simp [State.wave?]

theorem State.putBlock_block_same (s : State) (x : Block) (n : Nat) (y : Block) (hk : x.id = n) (h : s.block? n = some y) :
    (s.putBlock x).block? n = some x := find_map_same (fun a : Block => a.id) x s.blocks n y hk h

theorem State.putBlock_block_other (s : State) (x : Block) (n : Nat) (hn : n ≠ x.id) : (s.putBlock x).block? n = s.block? n :=
  find_map_other (fun a : Block => a.id) x s.blocks n hn

@[simp] theorem State.putWave_block_at (s : State) (x : Wave) (n : Nat) : (s.putWave x).block? n = s.block? n := rfl
@[simp] theorem State.putGrid_block_at (s : State) (x : Grid) (n : Nat) : (s.putGrid x).block? n = s.block? n := rfl
@[simp] theorem State.putCtx_block_at (s : State) (x : Context) (n : Nat) : (s.putCtx x).block? n = s.block? n := rfl
@[simp] theorem State.putQueue_block_at (s : State) (x : Queue) (n : Nat) : (s.putQueue x).block? n = s.block? n := rfl
@[simp] theorem State.putLaunch_block_at (s : State) (x : Launch) (n : Nat) : (s.putLaunch x).block? n = s.block? n := rfl
@[simp] theorem nextFresh_block_at (s : State) (k n : Nat) : (nextFresh s k).block? n = s.block? n := rfl
@[simp] theorem State.putIsle_block_at (s : State) (i : Nat) (r : IsleRegs) (n : Nat) : (s.putIsle i r).block? n = s.block? n := rfl
@[simp] theorem writeLoc_block_at (s : State) (l : Loc) (bs : List Byte) (n : Nat) : (writeLoc s l bs).block? n = s.block? n := by
  simp [State.block?]

theorem State.putGrid_grid_same (s : State) (x : Grid) (n : Nat) (y : Grid) (hk : x.id = n) (h : s.grid? n = some y) :
    (s.putGrid x).grid? n = some x := find_map_same (fun a : Grid => a.id) x s.grids n y hk h

theorem State.putGrid_grid_other (s : State) (x : Grid) (n : Nat) (hn : n ≠ x.id) : (s.putGrid x).grid? n = s.grid? n :=
  find_map_other (fun a : Grid => a.id) x s.grids n hn

@[simp] theorem State.putWave_grid_at (s : State) (x : Wave) (n : Nat) : (s.putWave x).grid? n = s.grid? n := rfl
@[simp] theorem State.putBlock_grid_at (s : State) (x : Block) (n : Nat) : (s.putBlock x).grid? n = s.grid? n := rfl
@[simp] theorem State.putCtx_grid_at (s : State) (x : Context) (n : Nat) : (s.putCtx x).grid? n = s.grid? n := rfl
@[simp] theorem State.putQueue_grid_at (s : State) (x : Queue) (n : Nat) : (s.putQueue x).grid? n = s.grid? n := rfl
@[simp] theorem State.putLaunch_grid_at (s : State) (x : Launch) (n : Nat) : (s.putLaunch x).grid? n = s.grid? n := rfl
@[simp] theorem nextFresh_grid_at (s : State) (k n : Nat) : (nextFresh s k).grid? n = s.grid? n := rfl
@[simp] theorem State.putIsle_grid_at (s : State) (i : Nat) (r : IsleRegs) (n : Nat) : (s.putIsle i r).grid? n = s.grid? n := rfl
@[simp] theorem writeLoc_grid_at (s : State) (l : Loc) (bs : List Byte) (n : Nat) : (writeLoc s l bs).grid? n = s.grid? n := by
  simp [State.grid?]

theorem State.putCtx_ctx_same (s : State) (x : Context) (n : Nat) (y : Context) (hk : x.index = n) (h : s.ctx? n = some y) :
    (s.putCtx x).ctx? n = some x := find_map_same (fun a : Context => a.index) x s.contexts n y hk h

theorem State.putCtx_ctx_other (s : State) (x : Context) (n : Nat) (hn : n ≠ x.index) : (s.putCtx x).ctx? n = s.ctx? n :=
  find_map_other (fun a : Context => a.index) x s.contexts n hn

@[simp] theorem State.putWave_ctx_at (s : State) (x : Wave) (n : Nat) : (s.putWave x).ctx? n = s.ctx? n := rfl
@[simp] theorem State.putBlock_ctx_at (s : State) (x : Block) (n : Nat) : (s.putBlock x).ctx? n = s.ctx? n := rfl
@[simp] theorem State.putGrid_ctx_at (s : State) (x : Grid) (n : Nat) : (s.putGrid x).ctx? n = s.ctx? n := rfl
@[simp] theorem State.putQueue_ctx_at (s : State) (x : Queue) (n : Nat) : (s.putQueue x).ctx? n = s.ctx? n := rfl
@[simp] theorem State.putLaunch_ctx_at (s : State) (x : Launch) (n : Nat) : (s.putLaunch x).ctx? n = s.ctx? n := rfl
@[simp] theorem nextFresh_ctx_at (s : State) (k n : Nat) : (nextFresh s k).ctx? n = s.ctx? n := rfl
@[simp] theorem State.putIsle_ctx_at (s : State) (i : Nat) (r : IsleRegs) (n : Nat) : (s.putIsle i r).ctx? n = s.ctx? n := rfl
@[simp] theorem writeLoc_ctx_at (s : State) (l : Loc) (bs : List Byte) (n : Nat) : (writeLoc s l bs).ctx? n = s.ctx? n := by
  simp [State.ctx?]

theorem State.putQueue_queue_same (s : State) (x : Queue) (n : Nat) (y : Queue) (hk : x.index = n) (h : s.queue? n = some y) :
    (s.putQueue x).queue? n = some x := find_map_same (fun a : Queue => a.index) x s.queues n y hk h

theorem State.putQueue_queue_other (s : State) (x : Queue) (n : Nat) (hn : n ≠ x.index) : (s.putQueue x).queue? n = s.queue? n :=
  find_map_other (fun a : Queue => a.index) x s.queues n hn

@[simp] theorem State.putWave_queue_at (s : State) (x : Wave) (n : Nat) : (s.putWave x).queue? n = s.queue? n := rfl
@[simp] theorem State.putBlock_queue_at (s : State) (x : Block) (n : Nat) : (s.putBlock x).queue? n = s.queue? n := rfl
@[simp] theorem State.putGrid_queue_at (s : State) (x : Grid) (n : Nat) : (s.putGrid x).queue? n = s.queue? n := rfl
@[simp] theorem State.putCtx_queue_at (s : State) (x : Context) (n : Nat) : (s.putCtx x).queue? n = s.queue? n := rfl
@[simp] theorem State.putLaunch_queue_at (s : State) (x : Launch) (n : Nat) : (s.putLaunch x).queue? n = s.queue? n := rfl
@[simp] theorem nextFresh_queue_at (s : State) (k n : Nat) : (nextFresh s k).queue? n = s.queue? n := rfl
@[simp] theorem State.putIsle_queue_at (s : State) (i : Nat) (r : IsleRegs) (n : Nat) : (s.putIsle i r).queue? n = s.queue? n := rfl
@[simp] theorem writeLoc_queue_at (s : State) (l : Loc) (bs : List Byte) (n : Nat) : (writeLoc s l bs).queue? n = s.queue? n := by
  simp [State.queue?]

theorem State.putLaunch_launch_same (s : State) (x : Launch) (n : Nat) (y : Launch) (hk : x.id = n) (h : s.launch? n = some y) :
    (s.putLaunch x).launch? n = some x := find_map_same (fun a : Launch => a.id) x s.launches n y hk h

theorem State.putLaunch_launch_other (s : State) (x : Launch) (n : Nat) (hn : n ≠ x.id) : (s.putLaunch x).launch? n = s.launch? n :=
  find_map_other (fun a : Launch => a.id) x s.launches n hn

@[simp] theorem State.putWave_launch_at (s : State) (x : Wave) (n : Nat) : (s.putWave x).launch? n = s.launch? n := rfl
@[simp] theorem State.putBlock_launch_at (s : State) (x : Block) (n : Nat) : (s.putBlock x).launch? n = s.launch? n := rfl
@[simp] theorem State.putGrid_launch_at (s : State) (x : Grid) (n : Nat) : (s.putGrid x).launch? n = s.launch? n := rfl
@[simp] theorem State.putCtx_launch_at (s : State) (x : Context) (n : Nat) : (s.putCtx x).launch? n = s.launch? n := rfl
@[simp] theorem State.putQueue_launch_at (s : State) (x : Queue) (n : Nat) : (s.putQueue x).launch? n = s.launch? n := rfl
@[simp] theorem nextFresh_launch_at (s : State) (k n : Nat) : (nextFresh s k).launch? n = s.launch? n := rfl
@[simp] theorem State.putIsle_launch_at (s : State) (i : Nat) (r : IsleRegs) (n : Nat) : (s.putIsle i r).launch? n = s.launch? n := rfl
@[simp] theorem writeLoc_launch_at (s : State) (l : Loc) (bs : List Byte) (n : Nat) : (writeLoc s l bs).launch? n = s.launch? n := by
  simp [State.launch?]

/-- An identifier that a lookup finds is the wave's own. -/
theorem State.wave_id (s : State) (n : Nat) (w : Wave) (h : s.wave? n = some w) : w.id = n := by
  have := List.find?_some h
  simpa using this

theorem State.block_id (s : State) (n : Nat) (b : Block) (h : s.block? n = some b) : b.id = n := by
  have := List.find?_some h
  simpa using this

theorem State.grid_id (s : State) (n : Nat) (g : Grid) (h : s.grid? n = some g) : g.id = n := by
  have := List.find?_some h
  simpa using this

end Sys2Proof.Machine
end

