-- ==== Sys2Proof/Laws/Registers.lean ====
section
/-!
SUPPORT. Sys2Proof/Laws/Registers.lean: what reading a vector register gives after a write, and what the fixed-latency results on
their way come to: one lemma for each operation of Machine/Operands.lean that touches a register file.
-/

namespace Sys2Proof.Machine
open Sys2Proof

/-! ### One register -/

/-- Only register files and the marks of bad codes differ. -/
def RegsOnly (w w' : Wave) : Prop := w' = { w with v := w'.v, t := w'.t, tv := w'.tv, bad := w'.bad }

theorem RegsOnly.rfl' (w : Wave) : RegsOnly w w := by cases w; rfl

theorem RegsOnly.trans {a b c : Wave} (h : RegsOnly a b) (k : RegsOnly b c) : RegsOnly a c := by
  unfold RegsOnly at *
  rw [h] at k
  exact k

theorem getD_set {α : Type} (l : List α) (i j : Nat) (x d : α) :
    (l.set i x).getD j d = if i = j then (if i < l.length then x else d) else l.getD j d := by
  simp only [List.getD_eq_getElem?_getD, List.getElem?_set]
  by_cases h : i = j
  · subst h
    by_cases k : i < l.length
    · simp [k]
    · simp [k]
  · simp [h]

theorem writeRow_undeclared (res : VRow) (m : Mask) : writeRow .undeclared res m = .undeclared := rfl

/-- The rank of a register's row never changes by a result. -/
theorem shapeRank_writeRow (old res : VRow) (m : Mask) : shapeRank (writeRow old res m) = shapeRank old := by
  cases old <;> simp only [writeRow]
  · split
    · rfl
    · cases res <;> rfl
  · split
    · rfl
    · cases res <;> rfl
  · rfl

/-- After a result is written, its register holds the written row and every other register what it held. -/
theorem readReg_writeReg (w : Wave) (r q : Reg) (res : VRow) (m : Mask) :
    readReg (writeReg w r res m) q = if r = q then writeRow (readReg w r) res m else readReg w q := by
  cases r <;> cases q <;>
    simp only [writeReg, setReg, clearBad, readReg, Reg.v.injEq, Reg.t.injEq, Reg.tv.injEq, getD_set, reduceCtorEq, if_false]
  all_goals
    rename_i n k
    by_cases h : n = k
    · subst h
      simp only [if_true]
      split
      · rfl
      · rename_i hl
        rw [List.getD_eq_getElem?_getD, List.getElem?_eq_none (by omega)]
        rfl
    · simp [h]

theorem writeReg_regsOnly (w : Wave) (r : Reg) (res : VRow) (m : Mask) : RegsOnly w (writeReg w r res m) := by
  cases r <;> rfl

/-! ### Results on their way -/

/-- One result enters a row. -/
def landStep (row : VRow) (e : InFlight) : VRow :=
  match e.row with
  | some x => writeRow row x e.mask
  | none => row

theorem landed_eq (w : Wave) (n : Nat) (r : Reg) :
    landed w n r = (w.inflight.filter fun e => decide (e.reg = r) && decide (e.need ≤ n)).foldl landStep (readReg w r) := rfl

theorem settled_eq (w : Wave) (r : Reg) :
    settled w r = (w.inflight.filter fun e => decide (e.reg = r)).foldl landStep (readReg w r) := rfl

theorem shapeRank_landSteps (es : List InFlight) (row : VRow) : shapeRank (es.foldl landStep row) = shapeRank row := by
  induction es generalizing row with
  | nil => rfl
  | cons e es ih =>
    rw [List.foldl_cons, ih]
    simp only [landStep]
    split
    · exact shapeRank_writeRow ..
    · rfl

/-- Only register files, marks of bad codes and results on their way differ. -/
def FilesOnly (w w' : Wave) : Prop :=
  w' = { w with v := w'.v, t := w'.t, tv := w'.tv, bad := w'.bad, inflight := w'.inflight }

theorem FilesOnly.rfl' (w : Wave) : FilesOnly w w := by cases w; rfl

theorem FilesOnly.trans {a b c : Wave} (h : FilesOnly a b) (k : FilesOnly b c) : FilesOnly a c := by
  unfold FilesOnly at *
  rw [h] at k
  exact k

theorem FilesOnly.regOf {a b : Wave} (h : FilesOnly a b) (f : BitVec 6) : regOf b f = regOf a f := by
  unfold FilesOnly at h
  rw [h]
  rfl

theorem readReg_inflight (w : Wave) (l : List InFlight) (r : Reg) : readReg { w with inflight := l } r = readReg w r := by
  cases r <;> rfl

/-- The results on their way to a register, and the register's row with them. -/
def flightsTo (w : Wave) (r : Reg) : List InFlight := w.inflight.filter fun e => decide (e.reg = r)
def inView (w : Wave) (r : Reg) : VRow × List InFlight := (readReg w r, flightsTo w r)

theorem settled_flights (w : Wave) (r : Reg) : settled w r = (flightsTo w r).foldl landStep (readReg w r) := rfl

theorem landed_flights (w : Wave) (n : Nat) (r : Reg) :
    landed w n r = ((flightsTo w r).filter fun e => decide (e.need ≤ n)).foldl landStep (readReg w r) := by
  rw [landed_eq, flightsTo, List.filter_filter]
  congr 1
  exact List.filter_congr fun _ _ => Bool.and_comm _ _

theorem supersede_reg (r : Reg) (whole : Bool) (part : Mask) (e : InFlight) : (supersede r whole part e).reg = e.reg := by
  unfold supersede
  split
  · rfl
  · split
    · split <;> rfl
    · rfl

theorem supersede_need (r : Reg) (whole : Bool) (part : Mask) (e : InFlight) : (supersede r whole part e).need = e.need := by
  unfold supersede
  split
  · rfl
  · split
    · split <;> rfl
    · rfl

/-- A register's row is a U or an A row. -/
def wholeRow (row : VRow) : Bool := decide (shapeRank row < 3)

/-- A later write takes its place after every result on its way to its register, and touches nothing else. -/
theorem overwrite_law (w : Wave) (r : Reg) (res : VRow) (part : Mask) :
    FilesOnly w (overwrite w r res part) ∧ ∀ x, inView (overwrite w r res part) x =
      if x = r then (writeRow (readReg w r) res part, (flightsTo w r).map (supersede r (wholeRow (readReg w r)) part))
      else inView w x := by
  refine ⟨by cases r <;> rfl, fun x => ?_⟩
  have hread : readReg (overwrite w r res part) x = if r = x then writeRow (readReg w r) res part else readReg w x := by
    rw [overwrite, readReg_inflight, readReg_writeReg]
  have hcomp : ((fun e : InFlight => decide (e.reg = x)) ∘ supersede r (wholeRow (readReg w r)) part) =
      fun e => decide (e.reg = x) := by
    funext e
    simp only [Function.comp, supersede_reg]
  have hfl : flightsTo (overwrite w r res part) x = (flightsTo w x).map (supersede r (wholeRow (readReg w r)) part) := by
    show List.filter _ (w.inflight.map _) = _
    rw [List.filter_map]
    exact congrArg (fun p => (w.inflight.filter p).map _) hcomp
  by_cases hx : x = r
  · subst hx
    rw [inView, hread, hfl]
    simp
  · rw [inView, hread, hfl, if_neg (Ne.symm hx), if_neg hx, inView]
    congr 1
    conv => rhs; rw [← List.map_id (flightsTo w x)]
    refine List.map_congr_left fun e he => ?_
    have : e.reg = x := by simpa [flightsTo] using (List.mem_filter.1 he).2
    simp [supersede, this, hx]

/-- The same of one register alone: its row and its results on their way once one more entry is settled. -/
def settleOne (r : Reg) (q : VRow × List InFlight) (e : InFlight) : VRow × List InFlight :=
  if e.need = 0 then match e.row with
    | some row => (writeRow q.1 row e.mask, q.2.map (supersede r (wholeRow q.1) e.mask))
    | none => q
  else (q.1, q.2 ++ [e])

theorem settleEntry_law (w : Wave) (e : InFlight) :
    FilesOnly w (settleEntry w e) ∧ ∀ r, inView (settleEntry w e) r =
      if e.reg = r then settleOne r (inView w r) e else inView w r := by
  unfold settleEntry settleOne
  by_cases hn : e.need = 0
  · simp only [hn, if_true]
    cases hr : e.row with
    | none => exact ⟨FilesOnly.rfl' w, fun r => by simp⟩
    | some row =>
      obtain ⟨h1, h2⟩ := overwrite_law w e.reg row e.mask
      refine ⟨h1, fun r => ?_⟩
      rw [h2 r]
      by_cases he : e.reg = r
      · subst he
        simp [inView]
      · simp [he, Ne.symm he]
  · simp only [hn, if_false]
    refine ⟨rfl, fun r => ?_⟩
    by_cases he : e.reg = r
    · simp [inView, flightsTo, readReg_inflight, he]
    · simp [inView, flightsTo, readReg_inflight, he]

theorem settleEntries_law (es : List InFlight) (w : Wave) :
    FilesOnly w (es.foldl settleEntry w) ∧ ∀ r, inView (es.foldl settleEntry w) r =
      (es.filter fun e => decide (e.reg = r)).foldl (settleOne r) (inView w r) := by
  induction es generalizing w with
  | nil => exact ⟨FilesOnly.rfl' w, fun _ => rfl⟩
  | cons e rest next =>
    have here := settleEntry_law w e
    have there := next (settleEntry w e)
    refine ⟨here.1.trans there.1, fun r => ?_⟩
    rw [List.foldl_cons, there.2 r, here.2 r, List.filter_cons]
    by_cases he : e.reg = r <;> simp [he]

/-- A result after the slots of an instruction with a stall count (R109). -/
def oneSlotted (n : Nat) (e : InFlight) : InFlight := { e with need := e.need - (1 + n) }

/-- Slots pass: each register settles its own results in program order. -/
theorem passSlots_law (w : Wave) (n : Nat) :
    FilesOnly w (passSlots w n) ∧ ∀ r, inView (passSlots w n) r =
      ((flightsTo w r).map (oneSlotted n)).foldl (settleOne r) (readReg w r, []) := by
  have h := settleEntries_law (w.inflight.map (oneSlotted n)) { w with inflight := [] }
  refine ⟨h.1, fun r => ?_⟩
  have e1 : inView { w with inflight := [] } r = (readReg w r, []) := by simp [inView, flightsTo, readReg_inflight]
  rw [show passSlots w n = (w.inflight.map (oneSlotted n)).foldl settleEntry { w with inflight := [] } from rfl, h.2 r, e1,
    List.filter_map]
  rfl

/-- The row of a register after entries are settled: those that no slot is asked for, in order. -/
theorem settleOnes_row (r : Reg) (es : List InFlight) (q : VRow × List InFlight) :
    (es.foldl (settleOne r) q).1 = (es.filter fun e => decide (e.need = 0)).foldl landStep q.1 := by
  induction es generalizing q with
  | nil => rfl
  | cons e es ih =>
    rw [List.foldl_cons, ih, List.filter_cons]
    unfold settleOne
    by_cases hn : e.need = 0
    · cases hr : e.row <;> simp [hn, landStep, hr]
    · simp [hn]

/-- The registers after some slots pass (R109). -/
theorem readReg_passSlots (w : Wave) (n : Nat) (r : Reg) : readReg (passSlots w n) r = landed w (1 + n) r := by
  have h := congrArg Prod.fst ((passSlots_law w n).2 r)
  rw [settleOnes_row, List.filter_map, List.foldl_map] at h
  rw [landed_flights]
  simp only [Function.comp_def, oneSlotted, Nat.sub_eq_zero_iff_le] at h
  exact h

/-! ### One thread of a register -/

/-- What one thread of a G register holds after a result lands. -/
def threadLand (i : Nat) (v : Word) (e : InFlight) : Word :=
  match e.row with
  | some row => if e.mask.getLsbD i then rowAt row i else v
  | none => v

theorem rowAt_gRow (f : Nat → Word) (i : Nat) (h : i < 64) : rowAt (gRow f) i = f i := by
  simp [gRow, rowAt, List.getD_eq_getElem?_getD, h]

theorem rowAt_landStep (row : VRow) (e : InFlight) (i : Nat) (hi : i < 64) (h3 : shapeRank row = 3) :
    rowAt (landStep row e) i = threadLand i (rowAt row i) e := by
  unfold landStep threadLand
  cases hr : e.row with
  | none => rfl
  | some res =>
    cases row with
    | g vs => exact rowAt_gRow _ _ hi
    | _ => simp [shapeRank] at h3

theorem rowAt_landSteps (es : List InFlight) (row : VRow) (i : Nat) (hi : i < 64) (h3 : shapeRank row = 3) :
    rowAt (es.foldl landStep row) i = es.foldl (threadLand i) (rowAt row i) := by
  induction es generalizing row with
  | nil => rfl
  | cons e es ih =>
    rw [List.foldl_cons, ih _ (by rw [← h3]; exact shapeRank_landSteps [e] row), rowAt_landStep row e i hi h3]
    rfl

/-- A later write leaves the threads that it does not take alone. -/
theorem threadLand_supersede (r : Reg) (part : Mask) (i : Nat) (hp : part.getLsbD i = false) (v : Word) (e : InFlight) :
    threadLand i v (supersede r false part e) = threadLand i v e := by
  unfold supersede
  by_cases h : e.reg ≠ r
  · rw [if_pos h]
  · rw [if_neg h]
    have hm : (e.mask &&& ~~~part).getLsbD i = e.mask.getLsbD i := by
      rw [BitVec.getLsbD_and, BitVec.getLsbD_not, hp]
      by_cases hi : i < 64
      · simp [hi]
      · simp [hi, BitVec.getLsbD_of_ge _ _ (Nat.le_of_not_lt hi)]
    simp only [Bool.false_eq_true, if_false, threadLand, hm]

theorem threadLands_supersede (r : Reg) (part : Mask) (i : Nat) (hp : part.getLsbD i = false) (es : List InFlight) (v : Word) :
    (es.map (supersede r false part)).foldl (threadLand i) v = es.foldl (threadLand i) v := by
  rw [List.foldl_map]
  congr 1
  funext v e
  exact threadLand_supersede r part i hp v e

/-- A result that a thread of a register no longer awaits. -/
def Spares (whole : Bool) (i : Nat) (e : InFlight) : Prop := e.row = none ∨ (whole = false ∧ e.mask.getLsbD i = false)

theorem spares_supersede (r : Reg) (whole : Bool) (part : Mask) (i : Nat) (hp : part.getLsbD i = true) (e : InFlight)
    (hr : e.reg = r) : Spares whole i (supersede r whole part e) := by
  have hne : ¬ part = 0 := by
    intro h; subst h; simp at hp
  unfold supersede Spares
  cases whole
  · right
    simp [hr, hp]
  · left
    rw [if_neg (not_not.2 hr), if_pos rfl, if_neg hne]

theorem Spares.kept {whole : Bool} {i : Nat} {e : InFlight} (h : Spares whole i e) (r : Reg) (whole' : Bool) (part : Mask) :
    Spares whole i (supersede r whole' part e) := by
  unfold supersede Spares at *
  split
  · exact h
  · split
    · split
      · exact h
      · exact Or.inl rfl
    · rcases h with h | ⟨h, k⟩
      · exact Or.inl h
      · exact Or.inr ⟨h, by simp [k]⟩

theorem landStep_spares (row : VRow) (i : Nat) (hi : i < 64) (e : InFlight) (h : Spares (wholeRow row) i e)
    (h3 : shapeRank row ≤ 3) : rowAt (landStep row e) i = rowAt row i := by
  rcases h with h | ⟨h, k⟩
  · simp [landStep, h]
  · have : shapeRank row = 3 := by
      unfold wholeRow at h
      have := of_decide_eq_false h
      omega
    rw [rowAt_landStep row e i hi this]
    unfold threadLand
    cases e.row <;> simp [k]

theorem shapeRank_le (row : VRow) : shapeRank row ≤ 3 := by cases row <;> simp [shapeRank]

theorem wholeRow_landStep (row : VRow) (e : InFlight) : wholeRow (landStep row e) = wholeRow row := by
  unfold wholeRow
  rw [show shapeRank (landStep row e) = shapeRank row from shapeRank_landSteps [e] row]

theorem landSteps_spares (es : List InFlight) (row : VRow) (i : Nat) (hi : i < 64)
    (h : ∀ e ∈ es, Spares (wholeRow row) i e) : rowAt (es.foldl landStep row) i = rowAt row i := by
  induction es generalizing row with
  | nil => rfl
  | cons e es ih =>
    rw [List.foldl_cons, ih _ (by rw [wholeRow_landStep]; exact fun x hx => h x (List.mem_cons_of_mem _ hx)),
      landStep_spares row i hi e (h e List.mem_cons_self) (shapeRank_le row)]

/-- Settling results that a thread does not await keeps it so. -/
theorem settleOnes_spares (r : Reg) (whole : Bool) (i : Nat) (es : List InFlight) (q : VRow × List InFlight)
    (hk : ∀ e ∈ q.2, Spares whole i e) (he : ∀ e ∈ es, Spares whole i e) :
    ∀ e ∈ (es.foldl (settleOne r) q).2, Spares whole i e := by
  induction es generalizing q with
  | nil => exact hk
  | cons e es ih =>
    rw [List.foldl_cons]
    refine ih _ ?_ fun x hx => he x (List.mem_cons_of_mem _ hx)
    have h0 := he e List.mem_cons_self
    unfold settleOne
    split
    · split
      · intro x hx
        obtain ⟨y, hy, rfl⟩ := List.mem_map.1 hx
        exact (hk y hy).kept ..
      · exact hk
    · intro x hx
      rcases List.mem_append.1 hx with h | h
      · exact hk x h
      · rw [List.mem_singleton.1 h]
        exact h0

/-- Each thread of a G register ends with the results that program order gives it, whenever they land. -/
theorem settleOnes_thread (r : Reg) (i : Nat) (hi : i < 64) (es : List InFlight) (q : VRow × List InFlight)
    (h3 : shapeRank q.1 = 3) (hr : ∀ e ∈ q.2, e.reg = r) (hs : ∀ e ∈ es, e.reg = r) :
    (es.foldl (settleOne r) q).2.foldl (threadLand i) (rowAt (es.foldl (settleOne r) q).1 i) =
      es.foldl (threadLand i) (q.2.foldl (threadLand i) (rowAt q.1 i)) := by
  induction es generalizing q with
  | nil => rfl
  | cons e es ih =>
    have hw : wholeRow q.1 = false := by simp [wholeRow, h3]
    have hes : ∀ x ∈ es, x.reg = r := fun x hx => hs x (List.mem_cons_of_mem _ hx)
    have her : e.reg = r := hs e List.mem_cons_self
    rw [List.foldl_cons, List.foldl_cons]
    by_cases hn : e.need = 0
    · cases hrow : e.row with
      | none =>
        have h1 : settleOne r q e = q := by simp [settleOne, hn, hrow]
        have h2 : ∀ v, threadLand i v e = v := fun v => by simp [threadLand, hrow]
        rw [h1, ih q h3 hr hes, h2]
      | some row =>
        have h1 : settleOne r q e = (landStep q.1 e, q.2.map (supersede r false e.mask)) := by
          simp [settleOne, hn, hrow, hw, landStep]
        rw [h1, ih _ (by rw [← h3]; exact shapeRank_landSteps [e] q.1) (by
          intro x hx
          obtain ⟨y, hy, rfl⟩ := List.mem_map.1 hx
          rw [supersede_reg, hr y hy]) hes]
        congr 1
        rw [rowAt_landStep q.1 e i hi h3]
        by_cases hp : e.mask.getLsbD i = true
        · have hv : ∀ v, threadLand i v e = rowAt row i := fun v => by simp [threadLand, hrow, hp]
          rw [hv, hv, List.foldl_map]
          have : ∀ l : List InFlight, (∀ x ∈ l, x.reg = r) → ∀ v,
              l.foldl (fun v x => threadLand i v (supersede r false e.mask x)) v = v := by
            intro l
            induction l with
            | nil => exact fun _ _ => rfl
            | cons x xs ihx =>
              intro h v
              rw [List.foldl_cons, ihx fun y hy => h y (List.mem_cons_of_mem _ hy)]
              rcases spares_supersede r false e.mask i hp x (h x List.mem_cons_self) with k | ⟨_, k⟩
              · simp [threadLand, k]
              · unfold threadLand
                cases (supersede r false e.mask x).row <;> simp [k]
          exact this q.2 hr _
        · have hp' : e.mask.getLsbD i = false := by simpa using hp
          have hv : ∀ v, threadLand i v e = v := fun v => by simp [threadLand, hrow, hp']
          rw [hv, hv, threadLands_supersede r e.mask i hp']
    · have h1 : settleOne r q e = (q.1, q.2 ++ [e]) := by simp [settleOne, hn]
      rw [h1, ih (q.1, q.2 ++ [e]) h3 (by
        intro x hx
        rcases List.mem_append.1 hx with h | h
        · exact hr x h
        · rw [List.mem_singleton.1 h]
          exact her) hes]
      simp

end Sys2Proof.Machine
end

