-- ==== Sys2Proof/Laws/Thread.lean ====
section
/-!
SUPPORT. Sys2Proof/Laws/Thread.lean: the law of the shared frame of thread-set arithmetic: when an instruction's operands are
ready and its results fit, it completes, its results are delivered, and nothing else changes.
-/

namespace Sys2Proof.Machine
open Sys2Proof

/-! ### Rows -/

/-- A participating thread holds the result that fits (R146). -/
theorem rowAt_writeRow_part (old res : VRow) (m : Mask) (i : Nat) (hi : i < 64) (hp : m.getLsbD i = true)
    (hf : shapeRank res ≤ shapeRank old) (hr : shapeRank res ≠ 0) : rowAt (writeRow old res m) i = rowAt res i := by
  have hm : ¬ m = 0 := by
    intro h; subst h; simp at hp
  cases old with
  | undeclared => exact absurd (Nat.le_zero.1 hf) hr
  | g vs =>
    show rowAt (gRow fun i => if m.getLsbD i then rowAt res i else rowAt (.g vs) i) i = _
    rw [rowAt_gRow _ _ hi, if_pos hp]
  | u v =>
    cases res with
    | u x => simp only [writeRow, if_neg hm]
    | undeclared => exact absurd rfl hr
    | a _ _ => simp [shapeRank] at hf
    | g _ => simp [shapeRank] at hf
  | a v w =>
    cases res with
    | u x => 
      simp only [writeRow, if_neg hm, rowAt]
      ring
    | undeclared => exact absurd rfl hr
    | a _ _ => simp only [writeRow, if_neg hm]
    | g _ => simp [shapeRank] at hf

theorem rowAt_writeRow_other (old res : VRow) (m : Mask) (i : Nat) (hi : i < 64) (hp : m.getLsbD i = false)
    (h3 : shapeRank old = 3) : rowAt (writeRow old res m) i = rowAt old i := by
  cases old with
  | g vs =>
    show rowAt (gRow fun i => if m.getLsbD i then rowAt res i else rowAt (.g vs) i) i = _
    rw [rowAt_gRow _ _ hi, if_neg (by simp [hp])]
  | _ => simp [shapeRank] at h3

theorem writeRow_nobody (old res : VRow) (h3 : shapeRank old ≠ 3) : writeRow old res 0 = old := by
  cases old <;> simp [shapeRank] at h3 <;> simp [writeRow]

/-! ### Results of one effect -/

/-- A register's row and its results on their way once an instruction has given it one more (R110). -/
def givenOne (r : Reg) (latency : Nat) (part : Mask) (f : BitVec 6) (res : VRow) (q : VRow × List InFlight) : VRow × List InFlight :=
  if latency = 0 then (writeRow q.1 res part, q.2.map (supersede r (wholeRow q.1) part))
  else (q.1, q.2 ++ [⟨f.toNat, r, some res, part, latency + 1⟩])

theorem giveResult_law (latency : Nat) (part : Mask) (w : Wave) (q : BitVec 6 × VRow) (r : Reg) (hr : regOf w q.1 = some r) :
    FilesOnly w (giveResult part latency w q) ∧ ∀ x, inView (giveResult part latency w q) x =
      if x = r then givenOne r latency part q.1 q.2 (inView w r) else inView w x := by
  unfold giveResult givenOne
  rw [hr]
  by_cases hl : latency = 0
  · simp only [hl, if_true]
    exact overwrite_law w r q.2 part
  · simp only [hl, if_false]
    refine ⟨rfl, fun x => ?_⟩
    by_cases hx : x = r
    · subst hx
      simp [inView, flightsTo, readReg_inflight]
    · simp [inView, flightsTo, readReg_inflight, hx, Ne.symm hx]

/-- All results of an effect: each register that one names receives it, and no other is touched. -/
theorem giveAll_law (latency : Nat) (part : Mask) (regs : List (BitVec 6 × VRow)) (w : Wave)
    (hn : ∀ q ∈ regs, (regOf w q.1).isSome) (hd : regs.Pairwise fun q q' => regOf w q.1 ≠ regOf w q'.1) :
    let w' := regs.foldl (giveResult part latency) w
    FilesOnly w w' ∧ (∀ r, (∀ q ∈ regs, regOf w q.1 ≠ some r) → inView w' r = inView w r) ∧
    ∀ q ∈ regs, ∀ r, regOf w q.1 = some r → inView w' r = givenOne r latency part q.1 q.2 (inView w r) := by
  induction regs generalizing w with
  | nil => exact ⟨FilesOnly.rfl' w, fun _ _ => rfl, fun _ h => absurd h List.not_mem_nil⟩
  | cons q qs ih =>
    obtain ⟨r, hr⟩ := Option.isSome_iff_exists.1 (hn q List.mem_cons_self)
    have one := giveResult_law latency part w q r hr
    have hreg := one.1.regOf
    rw [List.pairwise_cons] at hd
    have more := ih (giveResult part latency w q)
      (fun y hy => by rw [hreg]; exact hn y (List.mem_cons_of_mem _ hy))
      (hd.2.imp fun h => by rw [hreg, hreg]; exact h)
    refine ⟨one.1.trans more.1, fun x hx => ?_, fun y hy x hyx => ?_⟩
    · rw [List.foldl_cons, more.2.1 x fun y hy => by rw [hreg]; exact hx y (List.mem_cons_of_mem _ hy), one.2 x, if_neg]
      intro h
      exact hx q List.mem_cons_self (h ▸ hr)
    · rw [List.foldl_cons]
      rcases List.mem_cons.1 hy with rfl | hy
      · have hxr : x = r := Option.some.inj (hyx.symm.trans hr)
        subst hxr
        rw [more.2.1 x fun z hz => by rw [hreg, ← hr]; exact (hd.1 z hz).symm, one.2 x, if_pos rfl]
      · have hxr : x ≠ r := fun h => hd.1 y hy (by rw [hr, hyx, h])
        rw [more.2.2 y hy x (by rw [hreg]; exact hyx), one.2 x, if_neg hxr]

/-- What a register comes to when an instruction with a stall count has given it a result. -/
def resultSlots (r : Reg) (latency stall : Nat) (part : Mask) (f : BitVec 6) (res : VRow) (q : VRow × List InFlight) :
    VRow × List InFlight :=
  ((givenOne r latency part f res q).2.map (oneSlotted stall)).foldl (settleOne r) ((givenOne r latency part f res q).1, [])

theorem Spares.slotted {whole : Bool} {i : Nat} {e : InFlight} (h : Spares whole i e) (n : Nat) : Spares whole i (oneSlotted n e) := h

theorem shapeRank_settleOnes (r : Reg) (es : List InFlight) (q : VRow × List InFlight) :
    shapeRank (es.foldl (settleOne r) q).1 = shapeRank q.1 := by
  rw [settleOnes_row, shapeRank_landSteps]

theorem wholeRow_eq {a b : VRow} (h : shapeRank a = shapeRank b) : wholeRow a = wholeRow b := by simp [wholeRow, h]

/-- A participating thread ends with the result, and has it at once if the stall count covers the latency. -/
theorem resultSlots_part (r : Reg) (latency stall : Nat) (part : Mask) (f : BitVec 6) (res : VRow) (q : VRow × List InFlight)
    (hr : ∀ e ∈ q.2, e.reg = r) (i : Nat) (hi : i < 64) (hp : part.getLsbD i = true)
    (hf : shapeRank res ≤ shapeRank q.1) (h0 : shapeRank res ≠ 0) :
    rowAt ((resultSlots r latency stall part f res q).2.foldl landStep (resultSlots r latency stall part f res q).1) i = rowAt res i ∧
    (latency ≤ stall → rowAt (resultSlots r latency stall part f res q).1 i = rowAt res i) := by
  by_cases hl : latency = 0
  · have hg : givenOne r latency part f res q = (writeRow q.1 res part, q.2.map (supersede r (wholeRow q.1) part)) := by
      simp [givenOne, hl]
    have hres : resultSlots r latency stall part f res q =
        ((q.2.map (supersede r (wholeRow q.1) part)).map (oneSlotted stall)).foldl (settleOne r) (writeRow q.1 res part, []) := by
      simp only [resultSlots, hg]
    generalize hes : (q.2.map (supersede r (wholeRow q.1) part)).map (oneSlotted stall) = es at hres
    have hsp : ∀ e ∈ es, Spares (wholeRow q.1) i e := by
      intro e he
      rw [← hes] at he
      obtain ⟨y, hy, rfl⟩ := List.mem_map.1 he
      obtain ⟨z, hz, rfl⟩ := List.mem_map.1 hy
      exact (spares_supersede r _ part i hp z (hr z hz)).slotted stall
    have hw : wholeRow (writeRow q.1 res part) = wholeRow q.1 := wholeRow_eq (shapeRank_writeRow ..)
    have hrow : rowAt (es.foldl (settleOne r) (writeRow q.1 res part, [])).1 i = rowAt res i := by
      rw [settleOnes_row, landSteps_spares _ _ i hi (by
        rw [hw]; exact fun e he => hsp e (List.mem_filter.1 he).1)]
      exact rowAt_writeRow_part _ _ _ _ hi hp hf h0
    rw [hres]
    refine ⟨?_, fun _ => hrow⟩
    rw [landSteps_spares _ _ i hi, hrow]
    rw [wholeRow_eq (shapeRank_settleOnes r es _), hw]
    exact settleOnes_spares r _ i es _ (fun _ h => absurd h List.not_mem_nil) hsp
  · have hres : resultSlots r latency stall part f res q =
        settleOne r ((q.2.map (oneSlotted stall)).foldl (settleOne r) (q.1, []))
          (oneSlotted stall ⟨f.toNat, r, some res, part, latency + 1⟩) := by
      simp [resultSlots, givenOne, hl, List.foldl_append]
    rw [hres]
    generalize hq0 : (q.2.map (oneSlotted stall)).foldl (settleOne r) (q.1, []) = q0
    have hrank : shapeRank q0.1 = shapeRank q.1 := by rw [← hq0, shapeRank_settleOnes]
    have hreg0 : ∀ e ∈ q0.2, e.reg = r := by
      rw [← hq0]
      exact settleOnes_reg r _ _ (fun _ h => absurd h List.not_mem_nil) (by
        intro e he
        obtain ⟨y, hy, rfl⟩ := List.mem_map.1 he
        exact hr y hy)
    by_cases hs : latency ≤ stall
    · have hn : (oneSlotted stall ⟨f.toNat, r, some res, part, latency + 1⟩).need = 0 := by
        simp only [oneSlotted]; omega
      have h1 : settleOne r q0 (oneSlotted stall ⟨f.toNat, r, some res, part, latency + 1⟩) =
          (writeRow q0.1 res part, q0.2.map (supersede r (wholeRow q0.1) part)) := by
        unfold settleOne
        rw [if_pos hn]
        rfl
      rw [h1]
      have hrow : rowAt (writeRow q0.1 res part) i = rowAt res i :=
        rowAt_writeRow_part _ _ _ _ hi hp (by rw [hrank]; exact hf) h0
      refine ⟨?_, fun _ => hrow⟩
      rw [landSteps_spares _ _ i hi, hrow]
      intro e he
      obtain ⟨y, hy, rfl⟩ := List.mem_map.1 he
      rw [wholeRow_eq (shapeRank_writeRow ..)]
      exact spares_supersede r _ part i hp y (hreg0 y hy)
    · have hn : ¬ (oneSlotted stall ⟨f.toNat, r, some res, part, latency + 1⟩).need = 0 := by
        simp only [oneSlotted]; omega
      refine ⟨?_, fun h => absurd h hs⟩
      unfold settleOne
      rw [if_neg hn]
      simp only [List.foldl_append, List.foldl_cons, List.foldl_nil]
      refine rowAt_writeRow_part _ _ _ _ hi hp ?_ h0
      rw [shapeRank_landSteps, hrank]
      exact hf
where
  settleOnes_reg (r : Reg) (es : List InFlight) (q : VRow × List InFlight) (hk : ∀ e ∈ q.2, e.reg = r) (he : ∀ e ∈ es, e.reg = r) :
      ∀ e ∈ (es.foldl (settleOne r) q).2, e.reg = r := by
    induction es generalizing q with
    | nil => exact hk
    | cons e es ih =>
      rw [List.foldl_cons]
      refine ih _ ?_ fun x hx => he x (List.mem_cons_of_mem _ hx)
      unfold settleOne
      split
      · split
        · intro x hx
          obtain ⟨y, hy, rfl⟩ := List.mem_map.1 hx
          rw [supersede_reg, hk y hy]
        · exact hk
      · intro x hx
        rcases List.mem_append.1 hx with h | h
        · exact hk x h
        · rw [List.mem_singleton.1 h]
          exact he e List.mem_cons_self

/-- Any other thread of a G register ends with what was on its way to it. -/
theorem resultSlots_other (r : Reg) (latency stall : Nat) (part : Mask) (f : BitVec 6) (res : VRow) (q : VRow × List InFlight)
    (hr : ∀ e ∈ q.2, e.reg = r) (i : Nat) (hi : i < 64) (hp : part.getLsbD i = false) (h3 : shapeRank q.1 = 3) :
    rowAt ((resultSlots r latency stall part f res q).2.foldl landStep (resultSlots r latency stall part f res q).1) i =
      rowAt (q.2.foldl landStep q.1) i := by
  have hslot : ∀ (es : List InFlight) (v : Word), (es.map (oneSlotted stall)).foldl (threadLand i) v = es.foldl (threadLand i) v := by
    intro es v
    rw [List.foldl_map]
    rfl
  have h3' : shapeRank (givenOne r latency part f res q).1 = 3 := by
    unfold givenOne
    split
    · rw [← h3]; exact shapeRank_writeRow ..
    · exact h3
  have hreg : ∀ e ∈ (givenOne r latency part f res q).2.map (oneSlotted stall), e.reg = r := by
    intro e he
    obtain ⟨y, hy, rfl⟩ := List.mem_map.1 he
    show y.reg = r
    unfold givenOne at hy
    split at hy
    · obtain ⟨z, hz, rfl⟩ := List.mem_map.1 hy
      rw [supersede_reg]
      exact hr z hz
    · rcases List.mem_append.1 hy with h | h
      · exact hr y h
      · rw [List.mem_singleton.1 h]
  unfold resultSlots
  rw [rowAt_landSteps _ _ i hi (by rw [shapeRank_settleOnes]; exact h3'),
    settleOnes_thread r i hi _ ((givenOne r latency part f res q).1, []) h3' (fun _ h => absurd h List.not_mem_nil) hreg, hslot, rowAt_landSteps _ _ i hi h3]
  have hw : wholeRow q.1 = false := by simp [wholeRow, h3]
  unfold givenOne
  split
  · simp only [hw, List.foldl_nil]
    rw [threadLands_supersede r part i hp, rowAt_writeRow_other _ _ _ _ hi hp h3]
  · simp [threadLand, hp]

/-- A U or A register takes nothing of an instruction in which no thread participates. -/
theorem resultSlots_nobody (r : Reg) (latency stall : Nat) (f : BitVec 6) (res : VRow) (q : VRow × List InFlight)
    (h3 : shapeRank q.1 ≠ 3) : (resultSlots r latency stall 0 f res q).1 =
      ((q.2.map (oneSlotted stall)).filter fun e => decide (e.need = 0)).foldl landStep q.1 := by
  have hnone : ∀ row : VRow, shapeRank row ≠ 3 → writeRow row res 0 = row := fun row h => writeRow_nobody row res h
  have hw : wholeRow q.1 = true := by
    have := shapeRank_le q.1
    simp only [wholeRow, decide_eq_true_eq]
    omega
  unfold resultSlots
  rw [settleOnes_row]
  unfold givenOne
  split
  · simp only [hw, hnone q.1 h3]
    have : q.2.map (supersede r true 0) = q.2 := by
      conv => rhs; rw [← List.map_id q.2]
      refine List.map_congr_left fun e _ => ?_
      unfold supersede
      split <;> simp
    rw [this]
  · simp only [List.map_append, List.filter_append, List.foldl_append, List.map_cons, List.map_nil]
    generalize hrow : (List.filter _ (List.map (oneSlotted stall) q.2)).foldl landStep q.1 = row
    have hrank : shapeRank row ≠ 3 := by
      rw [← hrow, shapeRank_landSteps]
      exact h3
    rw [List.filter_cons]
    split
    · exact hnone row hrank
    · rfl

theorem setPred_p (w : Wave) (n : BitVec 3) (m : Mask) : (setPred w n m).p = if n = 7 then w.p else w.p.set n.toNat m := by
  unfold setPred
  split <;> rfl

/-- One predicate that an effect writes. -/
def givePred (w : Wave) (q : BitVec 3 × Mask) : Wave := setPred (clearBadPred w q.1) q.1 q.2

theorem givePreds_law (ps : List (BitVec 3 × Mask)) (w : Wave) :
    ps.foldl givePred w = { w with p := (ps.foldl givePred w).p, badPreds := (ps.foldl givePred w).badPreds } ∧
    (ps.foldl givePred w).p = (ps.foldl (fun w q => setPred w q.1 q.2) w).p := by
  have key : ∀ (ps : List (BitVec 3 × Mask)) (x y : Wave), x.p = y.p →
      (ps.foldl givePred x).p = (ps.foldl (fun w q => setPred w q.1 q.2) y).p := by
    intro ps
    induction ps with
    | nil => exact fun _ _ h => h
    | cons q qs next =>
      intro x y h
      refine next _ _ ?_
      show (givePred x q).p = (setPred y q.1 q.2).p
      rw [givePred, setPred_p, setPred_p, clearBadPred, h]
  refine ⟨?_, key ps w w rfl⟩
  induction ps generalizing w with
  | nil => rfl
  | cons q qs next =>
    rw [List.foldl_cons]
    have one : givePred w q = { w with p := (givePred w q).p, badPreds := (givePred w q).badPreds } := by
      unfold givePred setPred
      split <;> rfl
    have more := next (givePred w q)
    rw [more]
    generalize List.foldl givePred (givePred w q) qs = x
    rw [one]

theorem preds_same (ps : List (BitVec 3 × Mask)) (x y : Wave) (h : x.p = y.p) :
    (ps.foldl (fun w q => setPred w q.1 q.2) x).p = (ps.foldl (fun w q => setPred w q.1 q.2) y).p := by
  induction ps generalizing x y with
  | nil => exact h
  | cons q qs next =>
    refine next _ _ ?_
    show (setPred x q.1 q.2).p = (setPred y q.1 q.2).p
    rw [setPred_p, setPred_p, h]

/-! ### The wave after an instruction -/

theorem regOf_of_fits (w : Wave) (f : BitVec 6) (res : VRow) (h : shapeFits (fieldRow w f) res = true) :
    ∃ r, regOf w f = some r := by
  unfold fieldRow at h
  cases hr : regOf w f with
  | some r => exact ⟨r, rfl⟩
  | none => simp [hr, shapeFits, shapeRank] at h

theorem fieldRow_some (w : Wave) (f : BitVec 6) (r : Reg) (h : regOf w f = some r) : fieldRow w f = readReg w r := by
  simp [fieldRow, h]

theorem settledField_some (w : Wave) (f : BitVec 6) (r : Reg) (h : regOf w f = some r) : settledField w f = settled w r := by
  simp [settledField, h]

/-- A destination of an instruction: its register, with its results on their way, has taken one more. -/
structure RowDelivered (w w' : Wave) (part : Mask) (latency : Nat) (stall : BitVec 3) (d : BitVec 6) (res : VRow) : Prop where
  same : regOf w' d = regOf w d
  view : ∀ r, regOf w d = some r → inView w' r = resultSlots r latency stall.toNat part d res (inView w r)

theorem flightsTo_reg (w : Wave) (r : Reg) : ∀ e ∈ flightsTo w r, e.reg = r := by
  intro e he
  simpa [flightsTo] using (List.mem_filter.1 he).2

/-- The wave after an instruction that nothing of a memory pass or a watch hit follows. -/
theorem advanceThread_eq (w : Wave) (op : ThreadOp) (e : Effect) (hrest : (applyEffect w e op.latency).rest = 0)
    (hhits : (passSlots (applyEffect w e op.latency) op.stall.toNat).hits = noHits) :
    ∃ x, advanceThread w op e = { passSlots (applyEffect w e op.latency) op.stall.toNat with
      pc := (applyEffect w e op.latency).pc + BitVec.ofNat 64 (4 * op.words), phase := .ready,
      stepDone := (applyEffect w e op.latency).stepMode.isSome, replay := none, missFailed := false,
      stallLeft := op.stall.toNat, issue := x, reached := (0, 0) } := by
  refine ⟨some (issueOf (applyEffect w e op.latency)), ?_⟩
  unfold advanceThread advanceBy settledWave
  rw [if_neg (by simp [hrest]), if_pos hhits]

theorem advanceThread_law (w : Wave) (op : ThreadOp) (e : Effect) (hw : w.rest = 0) (hh : w.hits = noHits)
    (hf : ∀ q ∈ e.regs, shapeFits (fieldRow w q.1) q.2 = true)
    (hd : e.regs.Pairwise fun q q' => regOf w q.1 ≠ regOf w q'.1) :
    let w' := advanceThread w op e
    w'.pc = w.pc + BitVec.ofNat 64 (4 * op.words) ∧ w'.phase = .ready ∧ w'.id = w.id ∧ waveRest w w' ∧
    w'.p = (e.preds.foldl (fun w q => setPred w q.1 q.2) w).p ∧ w'.fpstat = e.flags.foldl (· ||| ·) w.fpstat ∧
    (∀ r, (∀ f ∈ e.regs.map (·.1), regOf w f ≠ some r) → readReg w' r = landed w (1 + op.stall.toNat) r) ∧
    ∀ q ∈ e.regs, RowDelivered w w' e.part op.latency op.stall q.1 q.2 := by
  obtain ⟨files, kept, given⟩ := giveAll_law op.latency e.part e.regs w
    (fun q hq => by obtain ⟨r, hr⟩ := regOf_of_fits w q.1 q.2 (hf q hq); rw [hr]; rfl) hd
  generalize hx : e.regs.foldl (giveResult e.part op.latency) w = x at files kept given
  obtain ⟨preds, predsP⟩ := givePreds_law e.preds x
  have hy : applyEffect w e op.latency = { x with
      p := (e.preds.foldl givePred x).p, badPreds := (e.preds.foldl givePred x).badPreds,
      fpstat := e.flags.foldl (· ||| ·) w.fpstat } := by
    have h1 : applyEffect w e op.latency =
        { e.preds.foldl givePred x with fpstat := e.flags.foldl (· ||| ·) (e.preds.foldl givePred x).fpstat } := by
      rw [← hx]
      rfl
    rw [h1, preds]
    unfold FilesOnly at files
    rw [files]
  have hstart : (applyEffect w e op.latency).rest = 0 ∧ (applyEffect w e op.latency).hits = noHits ∧
      (applyEffect w e op.latency).pc = w.pc ∧ (applyEffect w e op.latency).stepMode = w.stepMode := by
    unfold FilesOnly at files
    rw [hy, files]
    exact ⟨hw, hh, rfl, rfl⟩
  obtain ⟨slots, slotView⟩ := passSlots_law (applyEffect w e op.latency) op.stall.toNat
  have hhits : (passSlots (applyEffect w e op.latency) op.stall.toNat).hits = noHits := by
    unfold FilesOnly at slots
    rw [slots]
    exact hstart.2.1
  obtain ⟨iss, hadv⟩ := advanceThread_eq w op e hstart.1 hhits
  rw [hstart.2.2.1, hstart.2.2.2] at hadv
  have hread := readReg_passSlots (applyEffect w e op.latency) op.stall.toNat
  generalize applyEffect w e op.latency = y at hy slots slotView hadv hread
  have hyv : ∀ r, inView y r = inView x r := by
    intro r
    rw [hy]
    cases r <;> rfl
  generalize hz : passSlots y op.stall.toNat = z at slots slotView hadv hread
  have hview : ∀ r, inView (advanceThread w op e) r = inView z r := by
    intro r
    rw [hadv]
    cases r <;> rfl
  have hrec : advanceThread w op e = { w with
      v := z.v, t := z.t, tv := z.tv, inflight := z.inflight, bad := z.bad, p := (e.preds.foldl givePred x).p,
      badPreds := (e.preds.foldl givePred x).badPreds, fpstat := e.flags.foldl (· ||| ·) w.fpstat,
      pc := w.pc + BitVec.ofNat 64 (4 * op.words), phase := .ready, stepDone := w.stepMode.isSome, replay := none,
      missFailed := false, stallLeft := op.stall.toNat, issue := iss, reached := (0, 0) } := by
    unfold FilesOnly at slots files
    rw [hadv, slots, hy, files]
  intro w'
  have hreg : ∀ f, regOf w' f = regOf w f := by
    intro f
    show regOf (advanceThread w op e) f = _
    rw [hrec]
    rfl
  refine ⟨by simp only [w', hrec], by simp only [w', hrec], by simp only [w', hrec], by simp only [w', waveRest, hrec], ?_,
    by simp only [w', hrec], fun r hr => ?_, fun q hq => ⟨hreg q.1, fun r hr => ?_⟩⟩
  · simp only [w', hrec, predsP]
    apply preds_same
    unfold FilesOnly at files
    rw [files]
  · have h1 : readReg w' r = readReg z r := congrArg Prod.fst (hview r)
    have h2 := (hyv r).trans (kept r fun q hq => hr q.1 (List.mem_map.2 ⟨q, hq, rfl⟩))
    rw [h1, hread r, landed_flights, landed_flights, show readReg y r = readReg w r from congrArg Prod.fst h2,
      show flightsTo y r = flightsTo w r from congrArg Prod.snd h2]
  · have h2 := (hyv r).trans (given q hq r hr)
    rw [show inView w' r = inView z r from hview r, slotView r, show readReg y r = _ from congrArg Prod.fst h2,
      show flightsTo y r = _ from congrArg Prod.snd h2]
    rfl

/-! ### The frame -/

theorem threadCheck_go (i : Instr) (op : ThreadOp) (w : Wave) (hs : staticLegal i = true)
    (h : OperandsReady w op.reads op.writes) : threadCheck i op w = .go := by
  have h1 : fieldsLegal w op = true := by
    simp only [fieldsLegal, List.all_eq_true, Bool.and_eq_true]
    exact fun o ho => ⟨h.even o ho, fun f hf => h.legal o ho f hf⟩
  have h2 : fieldsPending w op = false := by
    unfold fieldsPending
    rw [List.any_eq_false]
    intro o ho
    rw [Bool.not_eq_true, List.any_eq_false]
    intro f hf
    rw [h.free o ho f hf]
    simp
  have h3 : staleReads w op = [] := by
    simp only [staleReads, List.filter_eq_nil_iff, Bool.not_eq_true]
    exact h.timely
  have h4 : op.reads.any (operandBad w) = false := by
    simp only [List.any_eq_false, Bool.not_eq_true]
    exact h.good
  have h5 : predsBad w (predsRead i) = false := by
    simp only [predsBad, List.any_eq_false]
    intro q hq
    simp [h.preds q hq]
  simp [threadCheck, h.inRun, hs, h1, h2, h3, h4, h5]

/-- A source of an instruction whose stall counts hold delivers what its register holds (R109, R112). -/
theorem sourceRow_ready (mix : Bool) (w : Wave) (o : VField) (seed : Nat) (f : BitVec 6) (h : operandStale w o = false)
    (hf : f ∈ o.fields) : sourceRow mix w seed f = fieldRow w f := by
  unfold operandStale at h
  have h1 := List.any_eq_false.1 h f hf
  unfold sourceRow fieldRow
  cases hr : regOf w f with
  | none => rfl
  | some r =>
    rw [hr] at h1
    have h2 : (staleEntries w r).isEmpty = true := by simpa using h1
    simp [h2]

/-- The watch bank sees no event where no predicate of the context is enabled, or where nothing was raised (R355). -/
def Quiet (s : State) (w : Wave) (flags : List FpFlags) (nan : Mask) : Prop :=
  watchOn s w = none ∨ ((∀ i, flags.getD i 0 = 0) ∧ nan = 0)

theorem foldr_or_zero (l : List Nat) (f : Nat → Bool) (h : ∀ i, f i = false) :
    l.foldr (fun i (m : Mask) => if f i then m ||| (1 <<< i) else m) 0 = 0 := by
  induction l with
  | nil => rfl
  | cons a as ih => simp [h]

theorem eventHit_none (pc : Dword) (flags : List FpFlags) (n : Nat) (p : WatchPred) (h : ∀ i, flags.getD i 0 = 0) :
    eventHit pc flags 0 n p = none := by
  have hb : ∀ i, (eventBits p pc (flags.getD i 0) ((0 : Mask).getLsbD i) != 0) = false := by
    intro i
    rw [h i]
    simp only [eventBits]
    split <;> simp
  unfold eventHit maskOf
  simp only
  rw [foldr_or_zero _ _ hb]
  simp

theorem collectHits_nil (c : Context) (armed : BitVec 16) (f : Nat → WatchPred → Option WatchHit) (h : ∀ n p, f n p = none) :
    collectHits c armed f = [] := by
  unfold collectHits
  rw [List.filterMap_eq_nil_iff]
  intro n _
  cases c.watch[n]? with
  | none => rfl
  | some p =>
    simp only [h]
    split <;> rfl

theorem presentEvents_quiet (s : State) (w : Wave) (flags : List FpFlags) (nan : Mask) (hq : Quiet s w flags nan) :
    presentEvents s w flags nan = (s, w) := by
  unfold presentEvents presentWave
  rcases hq with h | ⟨h1, h2⟩
  · rw [h]
  · cases watchOn s w with
    | none => rfl
    | some c =>
      simp only
      rw [collectHits_nil _ _ _ fun n p => by rw [h2]; exact eventHit_none w.pc flags n p h1]

/-- The law of the frame: an instruction whose operands are ready and whose results fit performs, and does nothing else. -/
theorem runThread_law (i : Instr) (op : ThreadOp) (s : State) (w : Wave) (ht : WaveTurn s w) (hs : staticLegal i = true)
    (hr : OperandsReady w op.reads op.writes)
    (hf : ∀ q ∈ (threadEffectOf s op w).regs, shapeFits (fieldRow w q.1) q.2 = true)
    (hd : (threadEffectOf s op w).regs.Pairwise fun q q' => regOf w q.1 ≠ regOf w q'.1)
    (hq : Quiet s w (threadEffectOf s op w).flags (threadEffectOf s op w).nan) :
    ∃ t w', runThread i op s = .next t ∧
      ThreadDone s w op.words op.stall ((threadEffectOf s op w).regs.map (·.1)) t w' ∧
      w'.p = ((threadEffectOf s op w).preds.foldl (fun w q => setPred w q.1 q.2) w).p ∧
      w'.fpstat = (threadEffectOf s op w).flags.foldl (· ||| ·) w.fpstat ∧
      ∀ q ∈ (threadEffectOf s op w).regs,
        RowDelivered w w' (threadEffectOf s op w).part op.latency op.stall q.1 q.2 := by
  generalize he : threadEffectOf s op w = e at *
  obtain ⟨b1, b2, b3, b4, b5, b6, b7, b8⟩ := advanceThread_law w op e hr.whole hr.unhit hf hd
  have hfault : shapeFault w e = none := by
    unfold shapeFault
    rw [List.find?_eq_none.2 fun q hq => by simp [hf q hq]]
    rfl
  have hwave : ((nextFresh s freshSpan).putWave (advanceThread w op e)).wave? w.id = some (advanceThread w op e) :=
    State.putWave_wave_same _ _ _ w b3 ht.here
  have hrun : runThread i op s = .next ((nextFresh s freshSpan).putWave (advanceThread w op e)) := by
    unfold runThread withWave
    rw [ht.turn]
    simp only
    rw [ht.here]
    simp only [threadStep, threadCheck_go i op w hs hr, he, hfault, commitThread]
    rw [presentEvents_quiet (nextFresh s freshSpan) w e.flags e.nan hq]
  refine ⟨_, advanceThread w op e, hrun, ⟨hwave, ?_, rfl, b1, b2, b4, ?_⟩, b5, b6, b8⟩
  · intro j hj
    exact State.putWave_wave_other _ _ _ (by rw [b3]; exact hj)
  · exact b7

/-- A delivered row whose values are known. -/
theorem Delivered.of_row {w w' : Wave} {part : Mask} {latency : Nat} {stall : BitVec 3} {d : BitVec 6} {res : VRow}
    {val : Nat → Word} (h : RowDelivered w w' part latency stall d res) (hf : shapeFits (fieldRow w d) res = true)
    (hres : shapeRank res ≠ 0) (hv : ∀ i, i < 64 → part.getLsbD i = true → rowAt res i = val i) :
    Delivered w w' part latency stall d val := by
  obtain ⟨r, hr⟩ := regOf_of_fits w d res hf
  have hview := h.view r hr
  have hr' : regOf w' d = some r := by rw [h.same, hr]
  have hfield : fieldRow w d = readReg w r := fieldRow_some w d r hr
  have hfield' : fieldRow w' d = (resultSlots r latency stall.toNat part d res (inView w r)).1 := by
    rw [fieldRow_some w' d r hr', ← hview]
    rfl
  have hset' : settledField w' d = (resultSlots r latency stall.toNat part d res (inView w r)).2.foldl landStep
      (resultSlots r latency stall.toNat part d res (inView w r)).1 := by
    rw [settledField_some w' d r hr', settled_flights, ← hview]
    rfl
  have hreg := flightsTo_reg w r
  have hle : shapeRank res ≤ shapeRank (inView w r).1 := by
    simp only [shapeFits, Bool.and_eq_true, decide_eq_true_eq] at hf
    rw [show (inView w r).1 = fieldRow w d from hfield.symm]
    exact hf.1
  refine ⟨fun i hi hp => ?_, fun i hi hp h3 => ?_, fun hp h3 => ?_, ?_, fun hl i hi hp => ?_⟩
  · rw [hset', (resultSlots_part r latency _ part d res _ hreg i hi hp hle hres).1, hv i hi hp]
  · rw [hset', resultSlots_other r latency _ part d res _ hreg i hi hp (by rw [← h3, hfield]; rfl),
      settledField_some w d r hr, settled_flights]
    rfl
  · rw [hfield', hp, resultSlots_nobody r latency _ d res _ (by rw [hfield] at h3; exact h3)]
    simp only [landedField, hr]
    rw [landed_flights, List.filter_map, List.foldl_map]
    simp only [Function.comp_def, oneSlotted, Nat.sub_eq_zero_iff_le]
    rfl
  · rw [hfield', resultSlots, shapeRank_settleOnes, hfield]
    unfold givenOne
    split
    · exact shapeRank_writeRow ..
    · rfl
  · rw [hfield', (resultSlots_part r latency _ part d res _ hreg i hi hp hle hres).2 hl, hv i hi hp]

end Sys2Proof.Machine
end

