-- ==== Sys2Proof/Laws/Forms.lean ====
section
/-!
SUPPORT. Sys2Proof/Laws/Forms.lean: the law of each operand form of thread-set arithmetic, over the law of the frame, and the
shapes of the rows that the forms build.
-/

namespace Sys2Proof.Machine
open Sys2Proof

/-! ### Declared operands -/

theorem OperandsReady.declared {w : Wave} {rs ws : List VField} (h : OperandsReady w rs ws) (o : VField) (ho : o ∈ rs ++ ws)
    (f : BitVec 6) (hf : f ∈ o.fields) : 1 ≤ shapeRank (fieldRow w f) := by
  have := h.legal o ho f hf
  unfold fieldLegal at this
  unfold fieldRow
  cases hr : regOf w f with
  | none => simp [hr] at this
  | some r =>
    simp only [hr] at this ⊢
    have h1 : shapeRank (readReg w r) ≠ 0 := by simpa using this
    omega

theorem shapeFits_of_rank (d res : VRow) (h : shapeRank res ≤ shapeRank d) (h1 : 1 ≤ shapeRank d) :
    shapeFits d res = true := by
  simp only [shapeFits, Bool.and_eq_true, decide_eq_true_eq, bne_iff_ne]
  omega

/-! ### Rows (R145) -/

theorem allU_two (a b : VRow) : allU [a, b] = ([a, b].all rowIsU) := by
  cases a <;> cases b <;> rfl

theorem allU_eq (rs : List VRow) : allU rs = rs.all rowIsU := by
  unfold allU
  congr 1
  funext r
  cases r <;> rfl

theorem shapeRank_perThread (rs : List VRow) (f : Nat → Word) : shapeRank (perThread rs f) = resultRank .perThread rs := by
  unfold perThread resultRank
  simp only [allU_eq]
  split <;> rfl

theorem rowAt_U {r : VRow} (h : rowIsU r = true) (i j : Nat) : rowAt r i = rowAt r j := by
  cases r <;> first | rfl | simp [rowIsU] at h

theorem rowAt_perThread (rs : List VRow) (f : Nat → Word) (i : Nat) (hi : i < 64)
    (hf : rs.all rowIsU = true → f 0 = f i) : rowAt (perThread rs f) i = f i := by
  unfold perThread
  split
  · rename_i h
    exact hf h
  · exact rowAt_gRow f i hi

theorem shapeRank_linearRow (op : Word → Word → Word) (a b : VRow) (ha : 1 ≤ shapeRank a) (hb : 1 ≤ shapeRank b) :
    shapeRank (linearRow op a b) = resultRank .linear [a, b] := by
  cases a <;> cases b <;> simp [shapeRank] at ha hb <;> rfl

theorem shapeRank_scaledRow (op : Word → Word → Word) (a b : VRow) (ha : 1 ≤ shapeRank a) (hb : 1 ≤ shapeRank b) :
    shapeRank (scaledRow op a b) = resultRank .scaled [a, b] := by
  cases a <;> cases b <;> simp [shapeRank] at ha hb <;> rfl

/-- A row of a linear operation, where the operation splits over base and stride. -/
theorem rowAt_linearRow (op : Word → Word → Word) (a b : VRow) (i : Nat) (hi : i < 64)
    (hop : ∀ x s y t k : Word, op x y + op s t * k = op (x + s * k) (y + t * k)) :
    rowAt (linearRow op a b) i = op (rowAt a i) (rowAt b i) := by
  have hz : ∀ x k : Word, x + 0 * k = x := by intros; ring
  cases a <;> cases b <;> simp only [linearRow, rowAffine]
  all_goals first
    | rfl
    | exact rowAt_gRow _ i hi
    | (simp only [rowAt]; rw [hop]; try simp only [hz])

theorem rowAt_scaledRow (op : Word → Word → Word) (a b : VRow) (i : Nat) (hi : i < 64)
    (hop : ∀ x s y k : Word, op x y + op s y * k = op (x + s * k) y) :
    rowAt (scaledRow op a b) i = op (rowAt a i) (rowAt b i) := by
  cases a <;> cases b <;> simp only [scaledRow]
  all_goals first
    | rfl
    | exact rowAt_gRow _ i hi
    | (simp only [rowAt]; rw [hop])

theorem forall₂_left {α β : Type} {R : α → β → Prop} {a : List α} {b : List β} (h : List.Forall₂ R a b) :
    ∀ x ∈ a, ∃ y ∈ b, R x y := by
  induction h with
  | nil => simp
  | cons h _ ih => aesop

theorem forall₂_right {α β : Type} {R : α → β → Prop} {a : List α} {b : List β} (h : List.Forall₂ R a b) :
    ∀ y ∈ b, ∃ x ∈ a, R x y := by
  induction h with
  | nil => simp
  | cons h _ ih => aesop

/-! ### The law of an instruction from that of its effect -/

/-- A row is the shaped result of a value for each thread that is written. -/
structure RowIs (part : Mask) (q : BitVec 6 × VRow) (r : BitVec 6 × Nat × (Nat → Word)) : Prop where
  field : q.1 = r.1
  rank  : shapeRank q.2 = r.2.1
  some  : r.2.1 ≠ 0
  value : ∀ i, i < 64 → part.getLsbD i = true → rowAt q.2 i = r.2.2 i

theorem or_fold_bit (l : List FpFlags) (x : FpFlags) (n : Nat) :
    (l.foldl (· ||| ·) x).getLsbD n = (x.getLsbD n || l.any fun f => f.getLsbD n) := by
  induction l generalizing x with
  | nil => simp
  | cons a as ih => simp [ih, Bool.or_assoc]

theorem flagsRaised_nil (w w' : Wave) (part : Mask) (h : w'.fpstat = w.fpstat) : FlagsRaised w w' part fun _ => 0 := by
  intro n _
  rw [h]
  simp

theorem flagsRaised_map (w w' : Wave) (part : Mask) (g : Nat → FpFlags)
    (h : w'.fpstat = ((List.range 64).map fun i => if part.getLsbD i then g i else 0).foldl (· ||| ·) w.fpstat) :
    FlagsRaised w w' part g := by
  intro n _
  rw [h, or_fold_bit, List.any_map]
  congr 2
  funext i
  simp only [Function.comp]
  split <;> simp [*]

/-- An instruction of the frame computes what its effect says. -/
theorem computes_law (i : Instr) (op : ThreadOp) (c : Arith) (hx : ∀ s, exec i s = runThread i op s)
    (h1 : op.words = c.words) (h2 : op.stall = c.stall) (h3 : op.latency = c.latency) (h4 : op.reads = c.reads)
    (h5 : op.writes = c.writes)
    (he : ∀ s w, OperandsReady w c.reads c.writes →
      let e := threadEffectOf s op w
      List.Forall₂ (RowIs (c.part w)) e.regs (c.results w) ∧ e.part = c.part w ∧ e.preds = [] ∧
      (e.regs.Pairwise fun q q' => regOf w q.1 ≠ regOf w q'.1) ∧ (c.quiet = true → (∀ i, e.flags.getD i 0 = 0) ∧ e.nan = 0) ∧
      ∀ w' : Wave, w'.fpstat = e.flags.foldl (· ||| ·) w.fpstat → FlagsRaised w w' (c.part w) (c.flags w)) :
    Computes i c := by
  intro s w ht hs hr hk hq
  obtain ⟨r1, r2, r3, r4, r5, r6⟩ := he s w hr
  generalize hev : threadEffectOf s op w = e at *
  have hfit : ∀ q ∈ e.regs, ∃ r ∈ c.results w, RowIs (c.part w) q r ∧ shapeFits (fieldRow w q.1) q.2 = true := by
    intro q hq
    obtain ⟨r, hr, hqr⟩ := (forall₂_left r1) q hq
    refine ⟨r, hr, hqr, ?_⟩
    have := hk r hr
    have h0 := hqr.some
    apply shapeFits_of_rank
    · rw [hqr.rank, hqr.field]; exact this
    · rw [hqr.field]; omega
  obtain ⟨t, w', k1, k2, k3, k4, k5⟩ := runThread_law i op s w ht hs (by rw [h4, h5]; exact hr)
    (by rw [hev]; exact fun q hq => (hfit q hq).elim fun _ h => h.2.2) (by rw [hev]; exact r4)
    (by
      rw [hev]
      rcases hq with h | h
      · exact Or.inr (r5 h)
      · exact Or.inl h)
  rw [hev] at k2 k3 k4 k5
  have hmap : ∀ (a : List (BitVec 6 × VRow)) (b : List (BitVec 6 × Nat × (Nat → Word))),
      List.Forall₂ (RowIs (c.part w)) a b → a.map (·.1) = b.map (·.1) := by
    intro a b h
    induction h with
    | nil => rfl
    | cons h _ ih => simp [h.field, ih]
  refine ⟨t, w', by rw [hx]; exact k1, ?_, ?_, r6 w' k4, ?_⟩
  · rw [← h1, ← h2, ← hmap _ _ r1]
    exact k2
  · rw [k3, r3]
    rfl
  · intro r hr
    obtain ⟨q, hq, hqr⟩ := (forall₂_right r1) r hr
    have hf := (hfit q hq).elim fun _ h => h.2.2
    have := k5 q hq
    rw [r2, h3, h2] at this
    rw [← hqr.field]
    exact Delivered.of_row this hf (by rw [hqr.rank]; exact hqr.some) hqr.value

/-! ### Laws for the two ways in which effects are built -/

theorem OperandsReady.source {w : Wave} {rs ws : List VField} (h : OperandsReady w rs ws) (mix : Bool) (seed : Nat) (o : VField)
    (ho : o ∈ rs) (f : BitVec 6) (hf : f ∈ o.fields) : sourceRow mix w seed f = fieldRow w f :=
  sourceRow_ready mix w o seed f (h.timely o ho) hf

theorem OperandsReady.rank {w : Wave} {rs ws : List VField} (h : OperandsReady w rs ws) (o : VField)
    (ho : o ∈ rs) (f : BitVec 6) (hf : f ∈ o.fields) : 1 ≤ shapeRank (fieldRow w f) :=
  h.declared o (List.mem_append_left _ ho) f hf

theorem ite_ne_zero {c : Prop} [Decidable c] {a b : Nat} (ha : a ≠ 0) (hb : b ≠ 0) : (if c then a else b) ≠ 0 := by
  split <;> assumption

theorem resultRank_pos (k : ShapeRule) (r : VRow) (rs : List VRow) (h : 1 ≤ shapeRank r) : resultRank k (r :: rs) ≠ 0 := by
  cases k
  · exact ite_ne_zero (by decide) (ite_ne_zero (by decide) (by decide))
  · exact ite_ne_zero (by decide) (ite_ne_zero (by decide) (by decide))
  · exact ite_ne_zero (by decide) (by decide)
  · exact Nat.ne_of_gt h

theorem resultRank_perThread_pos (rs : List VRow) : resultRank .perThread rs ≠ 0 := by
  simp only [resultRank]
  split <;> simp

/-- An instruction with one result and no flags. -/
theorem computes_plain (i : Instr) (op : ThreadOp) (c : Arith) (d : BitVec 6) (rank : Wave → Nat) (value : Wave → Nat → Word)
    (row : Wave → VRow) (hx : ∀ s, exec i s = runThread i op s) (h1 : op.words = c.words) (h2 : op.stall = c.stall)
    (h3 : op.latency = c.latency) (h4 : op.reads = c.reads) (h5 : op.writes = c.writes)
    (hr : ∀ w, c.results w = [(d, rank w, value w)]) (hf : ∀ w, c.flags w = fun _ => 0)
    (he : ∀ s w, OperandsReady w c.reads c.writes → threadEffectOf s op w = plainEffect (c.part w) [(d, row w)])
    (hw : ∀ w, OperandsReady w c.reads c.writes → shapeRank (row w) = rank w ∧ rank w ≠ 0 ∧
      ∀ i, i < 64 → (c.part w).getLsbD i = true → rowAt (row w) i = value w i) : Computes i c := by
  apply computes_law i op c hx h1 h2 h3 h4 h5
  intro s w ho
  rw [he s w ho, hr, hf]
  obtain ⟨a, b, v⟩ := hw w ho
  exact ⟨.cons ⟨rfl, a, b, v⟩ .nil, rfl, rfl, by simp [plainEffect], fun _ => ⟨fun _ => rfl, rfl⟩,
    fun w' h => flagsRaised_nil _ _ _ (by simpa [plainEffect] using h)⟩

/-- The two fields of a declared pair name different registers. -/
theorem regOf_pair (w : Wave) (d : BitVec 6) (he : d.getLsbD 0 = false) (h : fieldLegal w d = true) :
    regOf w d ≠ regOf w (d + 1) := by
  have h1 : d.toNat % 2 = 0 := by
    have := he
    simp only [BitVec.getLsbD, Nat.testBit_zero] at this
    simpa using this
  have hn : (d + 1).toNat = d.toNat + 1 := by
    have h2 := d.isLt
    rw [BitVec.toNat_add]
    show (d.toNat + 1) % 64 = _
    omega
  unfold fieldLegal at h
  intro hc
  cases hr : regOf w d with
  | none => simp [hr] at h
  | some r =>
    have hr1 : regOf w (d + 1) = some r := by rw [← hc, hr]
    have h60 : ∀ x : Reg, decide (60 ≤ d.toNat + 1) = decide (60 ≤ d.toNat) ∧ decide (56 ≤ d.toNat + 1) = decide (56 ≤ d.toNat) := by
      intro _
      constructor <;> rw [decide_eq_decide] <;> omega
    unfold regOf at hr hr1
    rw [hn, (h60 r).1, (h60 r).2] at hr1
    split at hr
    · rename_i hA
      rw [if_pos hA] at hr1
      rw [← hr] at hr1
      simp only [Option.some.injEq, Reg.tv.injEq] at hr1
      simp only [Bool.and_eq_true, decide_eq_true_eq] at hA
      omega
    · rename_i hA
      rw [if_neg hA] at hr1
      split at hr
      · rename_i hB
        rw [if_pos hB] at hr1
        split at hr
        · split at hr1
          · rw [← hr] at hr1
            simp only [Option.some.injEq, Reg.t.injEq] at hr1
            simp only [Bool.and_eq_true, decide_eq_true_eq] at hB
            omega
          · cases hr1
        · cases hr
      · rename_i hB
        rw [if_neg hB] at hr1
        rw [← hr] at hr1
        simp only [Option.some.injEq, Reg.v.injEq] at hr1
        omega

/-- A pair result without flags. -/
theorem computes_pair (i : Instr) (op : ThreadOp) (c : Arith) (d : BitVec 6) (rows : Wave → List VRow) (v : Wave → Nat → Dword)
    (val : Wave → Nat → Nat)
    (hx : ∀ s, exec i s = runThread i op s) (h1 : op.words = c.words) (h2 : op.stall = c.stall) (h3 : op.latency = c.latency)
    (h4 : op.reads = c.reads) (h5 : op.writes = c.writes) (hw : c.writes = [pairAt d])
    (hr : ∀ w, c.results w = [(d, resultRank .perThread (rows w), fun i => BitVec.ofNat 32 (val w i)),
      (d + 1, resultRank .perThread (rows w), fun i => BitVec.ofNat 32 (val w i / 2 ^ 32))])
    (hf : ∀ w, c.flags w = fun _ => 0)
    (he : ∀ s w, OperandsReady w c.reads c.writes → threadEffectOf s op w = pairEffect (c.part w) d (rows w) (v w))
    (hv : ∀ w i, (v w i).toNat = val w i % 2 ^ 64)
    (hu : ∀ w i, (rows w).all rowIsU = true → v w 0 = v w i) : Computes i c := by
  apply computes_law i op c hx h1 h2 h3 h4 h5
  intro s w ho
  rw [he s w ho, hr, hf]
  have hd := regOf_pair w d (by have := ho.even (pairAt d) (by simp [hw]); simpa [VField.even, pairAt] using this)
    (ho.legal (pairAt d) (by simp [hw]) d (by simp [pairAt, VField.fields]))
  refine ⟨.cons ⟨rfl, shapeRank_perThread _ _, resultRank_perThread_pos _, ?_⟩
    (.cons ⟨rfl, shapeRank_perThread _ _, resultRank_perThread_pos _, ?_⟩ .nil), rfl, rfl, ?_, fun _ => ⟨fun _ => rfl, rfl⟩,
    fun w' h => flagsRaised_nil _ _ _ (by simpa [pairEffect, plainEffect] using h)⟩
  · intro i hi _
    rw [rowAt_perThread _ _ _ hi fun h => by rw [hu w i h]]
    apply BitVec.eq_of_toNat_eq
    simp only [loWord, BitVec.extractLsb'_toNat, BitVec.toNat_ofNat, hv]
    omega
  · intro i hi _
    rw [rowAt_perThread _ _ _ hi fun h => by rw [hu w i h]]
    apply BitVec.eq_of_toNat_eq
    simp only [hiWord, BitVec.extractLsb'_toNat, BitVec.toNat_ofNat, hv]
    omega
  · simpa [pairEffect, plainEffect] using hd

/-- An instruction whose threads compute a result with flags. -/
theorem computes_threads (i : Instr) (op : ThreadOp) (c : Arith) (d : BitVec 6) (rows : Wave → List VRow)
    (f : Wave → Nat → ThreadResult) (value : Wave → Nat → Word)
    (hx : ∀ s, exec i s = runThread i op s) (h1 : op.words = c.words) (h2 : op.stall = c.stall) (h3 : op.latency = c.latency)
    (h4 : op.reads = c.reads) (h5 : op.writes = c.writes) (hq : c.quiet = false)
    (hr : ∀ w, c.results w = [(d, resultRank .perThread (rows w), value w)])
    (he : ∀ s w, OperandsReady w c.reads c.writes → threadEffectOf s op w = threadEffect (c.part w) (single d) (rows w) (f w))
    (hv : ∀ w i, (f w i).lo = value w i) (hf : ∀ w i, (f w i).flags = c.flags w i)
    (hu : ∀ w i, (rows w).all rowIsU = true → (f w 0).lo = (f w i).lo) : Computes i c := by
  apply computes_law i op c hx h1 h2 h3 h4 h5
  intro s w ho
  rw [he s w ho, hr]
  refine ⟨.cons ⟨rfl, shapeRank_perThread _ _, resultRank_perThread_pos _, ?_⟩ .nil, rfl, rfl, by simp [threadEffect, single],
    by simp [hq], fun w' h => flagsRaised_map _ _ _ _ ?_⟩
  · intro i hi _
    rw [rowAt_perThread _ _ _ hi fun h => hu w i h, hv]
  · have h' : w'.fpstat = ((List.range 64).map fun i => if (c.part w).getLsbD i then (f w i).flags else 0).foldl (· ||| ·)
        w.fpstat := h
    simpa only [hf] using h'

/-- The same with a pair result. -/
theorem computes_threads_pair (i : Instr) (op : ThreadOp) (c : Arith) (d : BitVec 6) (rows : Wave → List VRow)
    (f : Wave → Nat → ThreadResult) (lo hi : Wave → Nat → Word)
    (hx : ∀ s, exec i s = runThread i op s) (h1 : op.words = c.words) (h2 : op.stall = c.stall) (h3 : op.latency = c.latency)
    (h4 : op.reads = c.reads) (h5 : op.writes = c.writes) (hw : c.writes = [pairAt d]) (hq : c.quiet = false)
    (hr : ∀ w, c.results w = [(d, resultRank .perThread (rows w), lo w), (d + 1, resultRank .perThread (rows w), hi w)])
    (he : ∀ s w, OperandsReady w c.reads c.writes → threadEffectOf s op w = threadEffect (c.part w) (pairAt d) (rows w) (f w))
    (hl : ∀ w i, (f w i).lo = lo w i) (hh : ∀ w i, (f w i).hi = hi w i) (hf : ∀ w i, (f w i).flags = c.flags w i)
    (hu : ∀ w i, (rows w).all rowIsU = true → f w 0 = f w i) : Computes i c := by
  apply computes_law i op c hx h1 h2 h3 h4 h5
  intro s w ho
  rw [he s w ho, hr]
  have hd := regOf_pair w d (by have := ho.even (pairAt d) (by simp [hw]); simpa [VField.even, pairAt] using this)
    (ho.legal (pairAt d) (by simp [hw]) d (by simp [pairAt, VField.fields]))
  refine ⟨.cons ⟨rfl, shapeRank_perThread _ _, resultRank_perThread_pos _, ?_⟩
    (.cons ⟨rfl, shapeRank_perThread _ _, resultRank_perThread_pos _, ?_⟩ .nil), rfl, rfl, ?_,
    by simp [hq], fun w' h => flagsRaised_map _ _ _ _ ?_⟩
  · intro i hi _
    rw [rowAt_perThread _ _ _ hi fun h => by rw [hu w i h], hl]
  · intro i hi _
    rw [rowAt_perThread _ _ _ hi fun h => by rw [hu w i h], hh]
  · simpa [threadEffect, pairAt] using hd
  · have h' : w'.fpstat = ((List.range 64).map fun i => if (c.part w).getLsbD i then (f w i).flags else 0).foldl (· ||| ·)
        w.fpstat := h
    simpa only [hf] using h'

end Sys2Proof.Machine
end

