-- ==== Sys2Proof/Laws/Memory.lean ====
section
/-!
SUPPORT. Sys2Proof/Laws/Memory.lean: sparse maps and memories: reads after writes, the canonical form, which every write keeps, and
which makes equal memories equal data (log 3).
-/

namespace Sys2Proof.Machine
open Sys2Proof

/-! ### Sparse maps -/

theorem mapWfFrom_mono {α : Type} [DecidableEq α] (d : α) (m : SMap α) (lo hi : Nat) (h : lo ≤ hi)
    (w : mapWfFrom d hi m = true) : mapWfFrom d lo m = true := by
  cases m with
  | nil => rfl
  | cons q rest =>
    obtain ⟨j, x⟩ := q
    simp only [mapWfFrom, Bool.and_eq_true, decide_eq_true_eq] at w ⊢
    exact ⟨⟨by omega, w.1.2⟩, w.2⟩

/-- Below its bound a canonical map reads as the default. -/
theorem mapGet_below {α : Type} [DecidableEq α] (d : α) (m : SMap α) (lo k : Nat) (w : mapWfFrom d lo m = true) (h : k < lo) :
    mapGet d m k = d := by
  induction m generalizing lo with
  | nil => rfl
  | cons q rest ih =>
    obtain ⟨j, x⟩ := q
    simp only [mapWfFrom, Bool.and_eq_true, decide_eq_true_eq] at w
    simp only [mapGet]
    rw [if_neg (by omega)]
    exact ih (j + 1) w.2 (by omega)

theorem mapWfFrom_mapSet {α : Type} [DecidableEq α] (d : α) (m : SMap α) (lo k : Nat) (v : α) (w : mapWfFrom d lo m = true)
    (h : lo ≤ k) : mapWfFrom d lo (mapSet d m k v) = true := by
  induction m generalizing lo with
  | nil =>
    simp only [mapSet]
    split <;> simp_all [mapWfFrom]
  | cons q rest ih =>
    obtain ⟨j, x⟩ := q
    simp only [mapWfFrom, Bool.and_eq_true, decide_eq_true_eq] at w
    obtain ⟨⟨hj, hx⟩, hr⟩ := w
    simp only [mapSet]
    split
    · split
      · simp_all [mapWfFrom]
      · simp_all [mapWfFrom]
    · split
      · split
        · exact mapWfFrom_mono d rest lo (j + 1) (by omega) hr
        · simp_all [mapWfFrom]
      · simp only [mapWfFrom, Bool.and_eq_true, decide_eq_true_eq]
        exact ⟨⟨hj, hx⟩, ih (j + 1) hr (by omega)⟩

/-- Setting a key keeps the canonical form. -/
theorem mapWf_mapSet {α : Type} [DecidableEq α] (d : α) (m : SMap α) (k : Nat) (v : α) (w : mapWf d m = true) :
    mapWf d (mapSet d m k v) = true := mapWfFrom_mapSet d m 0 k v w (Nat.zero_le k)

theorem mapGet_mapSet_from {α : Type} [DecidableEq α] (d : α) (m : SMap α) (lo k : Nat) (v : α) (j : Nat)
    (w : mapWfFrom d lo m = true) : mapGet d (mapSet d m k v) j = if j = k then v else mapGet d m j := by
  induction m generalizing lo with
  | nil =>
    simp only [mapSet]
    by_cases hv : v = d
    · simp [hv, mapGet]
    · simp only [if_neg hv, mapGet, eq_comm (a := k)]
  | cons q rest ih =>
    obtain ⟨i, x⟩ := q
    simp only [mapWfFrom, Bool.and_eq_true, decide_eq_true_eq] at w
    obtain ⟨⟨-, -⟩, hr⟩ := w
    simp only [mapSet]
    split
    · rename_i hlt
      split
      · rename_i hv
        subst hv
        by_cases hj : j = k
        · subst hj
          simp only [mapGet, if_neg (show i ≠ j by omega), if_true]
          exact mapGet_below v rest (i + 1) j hr (by omega)
        · rw [if_neg hj]
      · simp only [mapGet]
        by_cases hj : k = j
        · simp [hj]
        · rw [if_neg hj, if_neg (fun h : j = k => hj h.symm)]
    · split
      · rename_i hk
        subst hk
        split
        · rename_i hv
          subst hv
          by_cases hj : j = k
          · subst hj
            simp only [if_true]
            exact mapGet_below v rest (j + 1) j hr (by omega)
          · simp only [mapGet, if_neg hj, if_neg (fun h : k = j => hj h.symm)]
        · simp only [mapGet]
          by_cases hj : k = j
          · simp [hj]
          · rw [if_neg hj, if_neg (fun h => hj h.symm), if_neg hj]
      · rename_i h1 h2
        simp only [mapGet]
        by_cases hij : i = j
        · rw [if_pos hij, if_pos hij, if_neg (by omega)]
        · rw [if_neg hij, if_neg hij]
          exact ih (i + 1) hr

/-- A key reads what was set last, and the others are as before. -/
theorem mapGet_mapSet {α : Type} [DecidableEq α] (d : α) (m : SMap α) (k : Nat) (v : α) (j : Nat) (w : mapWf d m = true) :
    mapGet d (mapSet d m k v) j = if j = k then v else mapGet d m j := mapGet_mapSet_from d m 0 k v j w

theorem map_ext_from {α : Type} [DecidableEq α] (d : α) (m n : SMap α) (lo : Nat) (w : mapWfFrom d lo m = true)
    (z : mapWfFrom d lo n = true) (h : ∀ k, mapGet d m k = mapGet d n k) : m = n := by
  induction m generalizing n lo with
  | nil =>
    cases n with
    | nil => rfl
    | cons q rest =>
      obtain ⟨j, x⟩ := q
      simp only [mapWfFrom, Bool.and_eq_true, decide_eq_true_eq] at z
      have := h j
      simp only [mapGet, if_true] at this
      exact absurd this.symm z.1.2
  | cons p rest ih =>
    obtain ⟨i, x⟩ := p
    cases n with
    | nil =>
      simp only [mapWfFrom, Bool.and_eq_true, decide_eq_true_eq] at w
      have := h i
      simp only [mapGet, if_true] at this
      exact absurd this w.1.2
    | cons q rest' =>
      obtain ⟨j, y⟩ := q
      simp only [mapWfFrom, Bool.and_eq_true, decide_eq_true_eq] at w z
      have hij : i = j := by
        rcases Nat.lt_trichotomy i j with hlt | heq | hgt
        · have := h i
          simp only [mapGet, if_true, if_neg (show j ≠ i by omega)] at this
          rw [mapGet_below d rest' (j + 1) i z.2 (by omega)] at this
          exact absurd this w.1.2
        · exact heq
        · have := h j
          simp only [mapGet, if_true, if_neg (show i ≠ j by omega)] at this
          rw [mapGet_below d rest (i + 1) j w.2 (by omega)] at this
          exact absurd this.symm z.1.2
      subst hij
      have hxy : x = y := by
        have := h i
        simpa only [mapGet, if_true] using this
      subst hxy
      have hr : rest = rest' := by
        refine ih rest' (i + 1) w.2 z.2 fun k => ?_
        by_cases hk : i = k
        · subst hk
          rw [mapGet_below d rest (i + 1) i w.2 (by omega), mapGet_below d rest' (i + 1) i z.2 (by omega)]
        · have := h k
          simpa only [mapGet, if_neg hk] using this
      rw [hr]

/-- Canonical maps that read alike are equal data. -/
theorem map_ext {α : Type} [DecidableEq α] (d : α) (m n : SMap α) (w : mapWf d m = true) (z : mapWf d n = true)
    (h : ∀ k, mapGet d m k = mapGet d n k) : m = n := map_ext_from d m n 0 w z h

/-! ### Bytes -/

theorem readByte_writeByte (m : Mem) (a : Nat) (b : Byte) (x : Nat) (w : Memory.wf m = true) :
    readByte (writeByte m a b) x = if x = a then b else readByte m x := mapGet_mapSet 0 m a b x w

theorem writeByte_wf (m : Mem) (a : Nat) (b : Byte) (w : Memory.wf m = true) : Memory.wf (writeByte m a b) = true :=
  mapWf_mapSet 0 m a b w

/-- Writing bytes keeps the canonical form. -/
theorem writeBytes_wf (bs : List Byte) (m : Mem) (a : Nat) (w : Memory.wf m = true) : Memory.wf (writeBytes m a bs) = true := by
  induction bs generalizing m a with
  | nil => exact w
  | cons b bs ih => exact ih _ _ (writeByte_wf m a b w)

/-- After a write, the bytes written read as the list, and every other byte as before. -/
theorem readByte_writeBytes (bs : List Byte) (m : Mem) (a x : Nat) (w : Memory.wf m = true) :
    readByte (writeBytes m a bs) x = if a ≤ x ∧ x < a + bs.length then bs.getD (x - a) 0 else readByte m x := by
  induction bs generalizing m a with
  | nil => rw [if_neg (by simp)]; rfl
  | cons b bs ih =>
    simp only [writeBytes, List.length_cons]
    rw [ih (writeByte m a b) (a + 1) (writeByte_wf m a b w), readByte_writeByte m a b x w]
    by_cases hx : x = a
    · subst hx
      rw [if_neg (by omega), if_pos rfl, if_pos (by omega)]
      simp
    · by_cases hin : a ≤ x ∧ x < a + (bs.length + 1)
      · rw [if_pos (by omega), if_pos hin]
        have : x - a = (x - (a + 1)) + 1 := by omega
        rw [this, List.getD_cons_succ]
      · rw [if_neg (by omega), if_neg hx, if_neg hin]

@[simp] theorem readBytes_length (m : Mem) (a n : Nat) : (readBytes m a n).length = n := by
  induction n generalizing a with
  | zero => rfl
  | succ n ih => simp [readBytes, ih]

theorem readBytes_get (m : Mem) (a n i : Nat) (h : i < n) : (readBytes m a n).getD i 0 = readByte m (a + i) := by
  induction n generalizing a i with
  | zero => omega
  | succ n ih =>
    cases i with
    | zero => rfl
    | succ i =>
      simp only [readBytes, List.getD_cons_succ]
      rw [ih (a + 1) i (by omega)]
      congr 1
      omega

theorem readBytes_congr (m n : Mem) (a k : Nat) (h : ∀ x, a ≤ x → x < a + k → readByte m x = readByte n x) :
    readBytes m a k = readBytes n a k := by
  induction k generalizing a with
  | zero => rfl
  | succ k ih =>
    simp only [readBytes]
    rw [h a (by omega) (by omega), ih (a + 1) fun x h1 h2 => h x (by omega) (by omega)]

/-- Reading what was written gives it back. -/
theorem readBytes_writeBytes (bs : List Byte) (m : Mem) (a : Nat) (w : Memory.wf m = true) :
    readBytes (writeBytes m a bs) a bs.length = bs := by
  apply List.ext_getElem (by simp)
  intro i h1 h2
  have h3 := readBytes_get (writeBytes m a bs) a bs.length i h2
  rw [readByte_writeBytes bs m a (a + i) w, if_pos (by omega)] at h3
  simpa [List.getD_eq_getElem?_getD, h1, h2] using h3

/-- A write leaves bytes that it does not meet alone. -/
theorem readBytes_writeBytes_other (bs : List Byte) (m : Mem) (a x n : Nat) (w : Memory.wf m = true)
    (h : x + n ≤ a ∨ a + bs.length ≤ x) : readBytes (writeBytes m a bs) x n = readBytes m x n :=
  readBytes_congr _ _ x n fun y h1 h2 => by rw [readByte_writeBytes bs m a y w, if_neg (by omega)]

@[simp] theorem leBytes_length (n v : Nat) : (leBytes n v).length = n := by
  induction n generalizing v with
  | zero => rfl
  | succ n ih => simp [leBytes, ih]

/-- The bytes of a number make the number again, as far as they reach (R5). -/
theorem leNat_leBytes (n v : Nat) : leNat (leBytes n v) = v % 256 ^ n := by
  induction n generalizing v with
  | zero => simp [leBytes, leNat, Nat.mod_one]
  | succ n ih =>
    simp only [leBytes, leNat, ih]
    rw [Nat.pow_succ, Nat.mul_comm (256 ^ n) 256, Nat.mod_mul, BitVec.toNat_ofNat]

theorem leNat_lt (bs : List Byte) : leNat bs < 256 ^ bs.length := by
  induction bs with
  | nil => simp [leNat]
  | cons b bs ih =>
    simp only [leNat, List.length_cons, Nat.pow_succ]
    have := b.isLt
    omega

/-! ### The three memories -/

theorem spaceOf_setSpace (s : State) (sp x : Space) (m : Mem) :
    spaceOf (setSpace s sp m) x = if x = sp then m else spaceOf s x := by
  cases sp <;> cases x <;> rfl

theorem MemoriesWf.space {s : State} (h : MemoriesWf s) (sp : Space) : Memory.wf (spaceOf s sp) = true := by
  cases sp
  · exact h.hbm
  · exact h.peer
  · exact h.host

theorem MemoriesWf.of_space {s : State} (h : ∀ sp, Memory.wf (spaceOf s sp) = true) : MemoriesWf s :=
  ⟨h .hbm, h .peer, h .host⟩

/-- A write at a place keeps the canonical form of the memories. -/
theorem writeLoc_wf (s : State) (l : Loc) (bs : List Byte) (h : MemoriesWf s) : MemoriesWf (writeLoc s l bs) := by
  refine MemoriesWf.of_space fun sp => ?_
  simp only [writeLoc, spaceOf_setSpace]
  split
  · exact writeBytes_wf bs _ _ (h.space l.space)
  · exact h.space sp

/-- What a write at a place does: its bytes, and nothing else in the three memories. -/
theorem readByte_writeLoc (s : State) (l : Loc) (bs : List Byte) (sp : Space) (x : Nat) (h : MemoriesWf s) :
    readByte (spaceOf (writeLoc s l bs) sp) x =
      if sp = l.space ∧ l.addr ≤ x ∧ x < l.addr + bs.length then bs.getD (x - l.addr) 0 else readByte (spaceOf s sp) x := by
  simp only [writeLoc, spaceOf_setSpace]
  by_cases hs : sp = l.space
  · subst hs
    rw [if_pos rfl, readByte_writeBytes bs _ _ x (h.space l.space)]
    by_cases hx : l.addr ≤ x ∧ x < l.addr + bs.length
    · rw [if_pos hx, if_pos ⟨rfl, hx⟩]
    · rw [if_neg hx, if_neg (fun c => hx c.2)]
  · rw [if_neg hs, if_neg (fun c => hs c.1)]

/-- A write at a place changes nothing but a memory. -/
theorem writeLoc_rest (s : State) (l : Loc) (bs : List Byte) :
    writeLoc s l bs = { s with hbm := (writeLoc s l bs).hbm, peer := (writeLoc s l bs).peer, host := (writeLoc s l bs).host } := by
  obtain ⟨sp, a⟩ := l
  cases sp <;> rfl

/-- The memories of the machine right after reset have the canonical form. -/
theorem reset_memories : MemoriesWf State.reset := ⟨rfl, rfl, rfl⟩

end Sys2Proof.Machine
end

