-- ==== Sys2Proof/Laws/PerInstr.lean ====
section
/-!
SUPPORT. Sys2Proof/Laws/PerInstr.lean: the words of each instruction: how many there are, and where a TX word stands (R100, R101,
R103). A step of another agent has none.
-/

namespace Sys2Proof

/-! ### What is a TX word -/

/-- A word whose bit 24 + k is clear is no TX word. -/
theorem isTx_false (w : Word) (k : Nat) (hk : k < 7) (h : w.getLsbD (24 + k) = false) : isTx w = false := by
  simp only [isTx, beq_eq_false_iff_ne]
  intro e
  have e' := congrArg (fun v : BitVec 8 => v.getLsbD k) e
  simp only [sel, BitVec.getLsbD_extractLsb'] at e'
  rw [h] at e'
  have : (0x7F#8).getLsbD k = true := by interval_cases k <;> rfl
  simp [this] at e'

/-- A sequencer-set word is none. -/
theorem isTx_seq (w : Word) (h : w.getLsbD 31 = true) : isTx w = false := by
  simp only [isTx, beq_eq_false_iff_ne]
  intro e
  have e' := congrArg (fun v : BitVec 8 => v.getLsbD 7) e
  simp only [sel, BitVec.getLsbD_extractLsb', h] at e'
  exact absurd e' (by decide)

theorem isTx_tx (x : TX) : isTx (txWord x) = true := by
  simp only [isTx, beq_iff_eq]
  apply BitVec.eq_of_getLsbD_eq
  intro i hi
  simp only [sel, txWord, BitVec.getLsbD_extractLsb', BitVec.getLsbD_append]
  interval_cases i <;> simp

theorem tx_trWord (op : BitVec 8) (k : Nat) (hk : k < 7) (h : op.getLsbD k = false) (f : TR) : isTx (trWord op f) = false := by
  refine isTx_false _ k hk ?_
  simp only [trWord, BitVec.getLsbD_append]
  interval_cases k <;> simpa using h

theorem tx_t1Word (op : BitVec 8) (k : Nat) (hk : k < 7) (h : op.getLsbD k = false) (f : T1) : isTx (t1Word op f) = false := by
  refine isTx_false _ k hk ?_
  simp only [t1Word, BitVec.getLsbD_append]
  interval_cases k <;> simpa using h

theorem tx_tiWord (op : BitVec 8) (k : Nat) (hk : k < 7) (h : op.getLsbD k = false) (f : TI) : isTx (tiWord op f) = false := by
  refine isTx_false _ k hk ?_
  simp only [tiWord, BitVec.getLsbD_append]
  interval_cases k <;> simpa using h

theorem tx_tcWord (op : BitVec 8) (k : Nat) (hk : k < 7) (h : op.getLsbD k = false) (f : TC) : isTx (tcWord op f) = false := by
  refine isTx_false _ k hk ?_
  simp only [tcWord, BitVec.getLsbD_append]
  interval_cases k <;> simpa using h

theorem tx_srWord (c : BitVec 3) (op : BitVec 7) (d a b : BitVec 5) (f : BitVec 6) : isTx (srWord c op d a b f) = false :=
  isTx_seq _ (by simp only [srWord, BitVec.getLsbD_append]; simp)

theorem bit31_trWord (op : BitVec 8) (h : op.getLsbD 7 = false) (f : TR) : sel (trWord op f) 31 1 = 0 := by
  apply BitVec.eq_of_getLsbD_eq
  intro i hi
  have hi' : i = 0 := by omega
  subst hi'
  simp only [sel, trWord, BitVec.getLsbD_extractLsb', BitVec.getLsbD_append]
  simpa using h

/-- The words of an instruction: none for a step of another agent; one, which is no TX word; or a thread-set word and a TX word
(R100, R101, R103). -/
def Laws.Encoding.Statement (i : Instr) : Prop :=
  match encode i with
  | [] => i.isWord = false
  | [w] => isTx w = false
  | [w, x] => isTx w = false ∧ sel w 31 1 = 0 ∧ isTx x = true
  | _ => False

end Sys2Proof

namespace Sys2Proof.Laws.Encoding
open Sys2Proof

theorem iadd (f : TR) : Statement (.iadd f) := tx_trWord _ 0 (by decide) rfl _
theorem isub (f : TR) : Statement (.isub f) := tx_trWord _ 1 (by decide) rfl _
theorem imul (f : TR) : Statement (.imul f) := tx_trWord _ 0 (by decide) rfl _
theorem imulhi (f : TR) : Statement (.imulhi f) := tx_trWord _ 2 (by decide) rfl _
theorem imad (f : TR) : Statement (.imad f) := tx_trWord _ 0 (by decide) rfl _
theorem imadTx (f : TR) (x : TX) : Statement (.imadTx f x) := ⟨tx_trWord _ 0 (by decide) rfl _, bit31_trWord _ (by decide) _, isTx_tx _⟩
theorem imin (f : TR) : Statement (.imin f) := tx_trWord _ 1 (by decide) rfl _
theorem imax (f : TR) : Statement (.imax f) := tx_trWord _ 0 (by decide) rfl _
theorem umin (f : TR) : Statement (.umin f) := tx_trWord _ 3 (by decide) rfl _
theorem umax (f : TR) : Statement (.umax f) := tx_trWord _ 0 (by decide) rfl _
theorem and (f : TR) : Statement (.and f) := tx_trWord _ 1 (by decide) rfl _
theorem or (f : TR) : Statement (.or f) := tx_trWord _ 0 (by decide) rfl _
theorem xor (f : TR) : Statement (.xor f) := tx_trWord _ 2 (by decide) rfl _
theorem shl (f : TR) : Statement (.shl f) := tx_trWord _ 0 (by decide) rfl _
theorem shr (f : TR) : Statement (.shr f) := tx_trWord _ 1 (by decide) rfl _
theorem sar (f : TR) : Statement (.sar f) := tx_trWord _ 0 (by decide) rfl _
theorem iaddi (f : TI) : Statement (.iaddi f) := tx_tiWord _ 4 (by decide) rfl _
theorem andi (f : TI) : Statement (.andi f) := tx_tiWord _ 0 (by decide) rfl _
theorem ori (f : TI) : Statement (.ori f) := tx_tiWord _ 1 (by decide) rfl _
theorem shli (f : TI) : Statement (.shli f) := tx_tiWord _ 0 (by decide) rfl _
theorem shri (f : TI) : Statement (.shri f) := tx_tiWord _ 2 (by decide) rfl _
theorem lea (f : TR) : Statement (.lea f) := tx_trWord _ 0 (by decide) rfl _
theorem lea64 (f : TR) : Statement (.lea64 f) := tx_trWord _ 1 (by decide) rfl _
theorem iadd64 (f : TR) : Statement (.iadd64 f) := tx_trWord _ 0 (by decide) rfl _
theorem popc (f : T1) : Statement (.popc f) := tx_t1Word _ 3 (by decide) rfl _
theorem clz (f : T1) : Statement (.clz f) := tx_t1Word _ 0 (by decide) rfl _
theorem bfe (f : TR) (x : TX) : Statement (.bfe f x) := ⟨tx_trWord _ 1 (by decide) rfl _, bit31_trWord _ (by decide) _, isTx_tx _⟩
theorem bfi (f : TR) (x : TX) : Statement (.bfi f x) := ⟨tx_trWord _ 0 (by decide) rfl _, bit31_trWord _ (by decide) _, isTx_tx _⟩
theorem mov (f : T1) : Statement (.mov f) := tx_t1Word _ 2 (by decide) rfl _
theorem movi (d : BitVec 6) (i : BitVec 9) (s : BitVec 3) : Statement (.movi d i s) := isTx_false _ 0 (by decide) (by simp only [BitVec.getLsbD_append]; simp)
theorem movs (d a : BitVec 6) (h : BitVec 1) (g s : BitVec 3) : Statement (.movs d a h g s) := isTx_false _ 1 (by decide) (by simp only [BitVec.getLsbD_append]; simp)
theorem sel (f : TR) : Statement (.sel f) := tx_trWord _ 0 (by decide) rfl _
theorem fadd (f : TR) : Statement (.fadd f) := tx_trWord _ 0 (by decide) rfl _
theorem faddTx (f : TR) (x : TX) : Statement (.faddTx f x) := ⟨tx_trWord _ 0 (by decide) rfl _, bit31_trWord _ (by decide) _, isTx_tx _⟩
theorem fsub (f : TR) : Statement (.fsub f) := tx_trWord _ 1 (by decide) rfl _
theorem fsubTx (f : TR) (x : TX) : Statement (.fsubTx f x) := ⟨tx_trWord _ 1 (by decide) rfl _, bit31_trWord _ (by decide) _, isTx_tx _⟩
theorem fmul (f : TR) : Statement (.fmul f) := tx_trWord _ 0 (by decide) rfl _
theorem fmulTx (f : TR) (x : TX) : Statement (.fmulTx f x) := ⟨tx_trWord _ 0 (by decide) rfl _, bit31_trWord _ (by decide) _, isTx_tx _⟩
theorem ffma (f : TR) : Statement (.ffma f) := tx_trWord _ 2 (by decide) rfl _
theorem ffmaTx (f : TR) (x : TX) : Statement (.ffmaTx f x) := ⟨tx_trWord _ 2 (by decide) rfl _, bit31_trWord _ (by decide) _, isTx_tx _⟩
theorem fmin (f : TR) : Statement (.fmin f) := tx_trWord _ 0 (by decide) rfl _
theorem fmax (f : TR) : Statement (.fmax f) := tx_trWord _ 1 (by decide) rfl _
theorem fdiv (f : TR) : Statement (.fdiv f) := tx_trWord _ 0 (by decide) rfl _
theorem fdivTx (f : TR) (x : TX) : Statement (.fdivTx f x) := ⟨tx_trWord _ 0 (by decide) rfl _, bit31_trWord _ (by decide) _, isTx_tx _⟩
theorem fabs (f : T1) : Statement (.fabs f) := tx_t1Word _ 3 (by decide) rfl _
theorem dadd (f : TR) : Statement (.dadd f) := tx_trWord _ 0 (by decide) rfl _
theorem daddTx (f : TR) (x : TX) : Statement (.daddTx f x) := ⟨tx_trWord _ 0 (by decide) rfl _, bit31_trWord _ (by decide) _, isTx_tx _⟩
theorem dsub (f : TR) : Statement (.dsub f) := tx_trWord _ 1 (by decide) rfl _
theorem dsubTx (f : TR) (x : TX) : Statement (.dsubTx f x) := ⟨tx_trWord _ 1 (by decide) rfl _, bit31_trWord _ (by decide) _, isTx_tx _⟩
theorem dmul (f : TR) : Statement (.dmul f) := tx_trWord _ 0 (by decide) rfl _
theorem dmulTx (f : TR) (x : TX) : Statement (.dmulTx f x) := ⟨tx_trWord _ 0 (by decide) rfl _, bit31_trWord _ (by decide) _, isTx_tx _⟩
theorem dfma (f : TR) : Statement (.dfma f) := tx_trWord _ 2 (by decide) rfl _
theorem dfmaTx (f : TR) (x : TX) : Statement (.dfmaTx f x) := ⟨tx_trWord _ 2 (by decide) rfl _, bit31_trWord _ (by decide) _, isTx_tx _⟩
theorem dmin (f : TR) : Statement (.dmin f) := tx_trWord _ 0 (by decide) rfl _
theorem dmax (f : TR) : Statement (.dmax f) := tx_trWord _ 1 (by decide) rfl _
theorem ddiv (f : TR) : Statement (.ddiv f) := tx_trWord _ 0 (by decide) rfl _
theorem ddivTx (f : TR) (x : TX) : Statement (.ddivTx f x) := ⟨tx_trWord _ 0 (by decide) rfl _, bit31_trWord _ (by decide) _, isTx_tx _⟩
theorem dabs (f : T1) : Statement (.dabs f) := tx_t1Word _ 4 (by decide) rfl _
theorem hadd (f : TR) : Statement (.hadd f) := tx_trWord _ 0 (by decide) rfl _
theorem hmul (f : TR) : Statement (.hmul f) := tx_trWord _ 1 (by decide) rfl _
theorem hfma (f : TR) : Statement (.hfma f) := tx_trWord _ 0 (by decide) rfl _
theorem hfmaTx (f : TR) (x : TX) : Statement (.hfmaTx f x) := ⟨tx_trWord _ 0 (by decide) rfl _, bit31_trWord _ (by decide) _, isTx_tx _⟩
theorem badd (f : TR) : Statement (.badd f) := tx_trWord _ 2 (by decide) rfl _
theorem bmul (f : TR) : Statement (.bmul f) := tx_trWord _ 0 (by decide) rfl _
theorem bfma (f : TR) : Statement (.bfma f) := tx_trWord _ 1 (by decide) rfl _
theorem bfmaTx (f : TR) (x : TX) : Statement (.bfmaTx f x) := ⟨tx_trWord _ 1 (by decide) rfl _, bit31_trWord _ (by decide) _, isTx_tx _⟩
theorem hadd2 (f : TR) : Statement (.hadd2 f) := tx_trWord _ 0 (by decide) rfl _
theorem hmul2 (f : TR) : Statement (.hmul2 f) := tx_trWord _ 3 (by decide) rfl _
theorem hfma2 (f : TR) : Statement (.hfma2 f) := tx_trWord _ 0 (by decide) rfl _
theorem hfma2Tx (f : TR) (x : TX) : Statement (.hfma2Tx f x) := ⟨tx_trWord _ 0 (by decide) rfl _, bit31_trWord _ (by decide) _, isTx_tx _⟩
theorem hmax2 (f : TR) : Statement (.hmax2 f) := tx_trWord _ 1 (by decide) rfl _
theorem hmin2 (f : TR) : Statement (.hmin2 f) := tx_trWord _ 0 (by decide) rfl _
theorem badd2 (f : TR) : Statement (.badd2 f) := tx_trWord _ 2 (by decide) rfl _
theorem bmul2 (f : TR) : Statement (.bmul2 f) := tx_trWord _ 0 (by decide) rfl _
theorem bfma2 (f : TR) : Statement (.bfma2 f) := tx_trWord _ 1 (by decide) rfl _
theorem bfma2Tx (f : TR) (x : TX) : Statement (.bfma2Tx f x) := ⟨tx_trWord _ 1 (by decide) rfl _, bit31_trWord _ (by decide) _, isTx_tx _⟩
theorem bmax2 (f : TR) : Statement (.bmax2 f) := tx_trWord _ 0 (by decide) rfl _
theorem bmin2 (f : TR) : Statement (.bmin2 f) := tx_trWord _ 6 (by decide) rfl _
theorem frcp (f : T1) : Statement (.frcp f) := tx_t1Word _ 0 (by decide) rfl _
theorem frsq (f : T1) : Statement (.frsq f) := tx_t1Word _ 1 (by decide) rfl _
theorem fsqrt (f : T1) : Statement (.fsqrt f) := tx_t1Word _ 0 (by decide) rfl _
theorem fexp2 (f : T1) : Statement (.fexp2 f) := tx_t1Word _ 2 (by decide) rfl _
theorem flog2 (f : T1) : Statement (.flog2 f) := tx_t1Word _ 0 (by decide) rfl _
theorem fsin (f : T1) : Statement (.fsin f) := tx_t1Word _ 1 (by decide) rfl _
theorem fcos (f : T1) : Statement (.fcos f) := tx_t1Word _ 0 (by decide) rfl _
theorem ftanh (f : T1) : Statement (.ftanh f) := tx_t1Word _ 3 (by decide) rfl _
theorem cvtf (f : TR) (x : TX) : Statement (.cvtf f x) := ⟨tx_trWord _ 0 (by decide) rfl _, bit31_trWord _ (by decide) _, isTx_tx _⟩
theorem cvtfi (f : TR) (x : TX) : Statement (.cvtfi f x) := ⟨tx_trWord _ 1 (by decide) rfl _, bit31_trWord _ (by decide) _, isTx_tx _⟩
theorem cvtif (f : TR) (x : TX) : Statement (.cvtif f x) := ⟨tx_trWord _ 0 (by decide) rfl _, bit31_trWord _ (by decide) _, isTx_tx _⟩
theorem cvtii (f : TR) (x : TX) : Statement (.cvtii f x) := ⟨tx_trWord _ 2 (by decide) rfl _, bit31_trWord _ (by decide) _, isTx_tx _⟩
theorem qenc (f : TR) (x : TX) : Statement (.qenc f x) := ⟨tx_trWord _ 0 (by decide) rfl _, bit31_trWord _ (by decide) _, isTx_tx _⟩
theorem qdec (f : TR) (x : TX) : Statement (.qdec f x) := ⟨tx_trWord _ 1 (by decide) rfl _, bit31_trWord _ (by decide) _, isTx_tx _⟩
theorem fclass (f : TR) : Statement (.fclass f) := tx_trWord _ 0 (by decide) rfl _
theorem fqrcp (f : T1) : Statement (.fqrcp f) := tx_t1Word _ 4 (by decide) rfl _
theorem icmpEq (f : TC) : Statement (.icmpEq f) := tx_tcWord _ 0 (by decide) rfl _
theorem icmpNe (f : TC) : Statement (.icmpNe f) := tx_tcWord _ 1 (by decide) rfl _
theorem icmpLt (f : TC) : Statement (.icmpLt f) := tx_tcWord _ 0 (by decide) rfl _
theorem icmpLe (f : TC) : Statement (.icmpLe f) := tx_tcWord _ 2 (by decide) rfl _
theorem icmpLtu (f : TC) : Statement (.icmpLtu f) := tx_tcWord _ 0 (by decide) rfl _
theorem icmpLeu (f : TC) : Statement (.icmpLeu f) := tx_tcWord _ 1 (by decide) rfl _
theorem fcmpEq (f : TC) : Statement (.fcmpEq f) := tx_tcWord _ 0 (by decide) rfl _
theorem fcmpLt (f : TC) : Statement (.fcmpLt f) := tx_tcWord _ 3 (by decide) rfl _
theorem fcmpLe (f : TC) : Statement (.fcmpLe f) := tx_tcWord _ 0 (by decide) rfl _
theorem fcmpUn (f : TC) : Statement (.fcmpUn f) := tx_tcWord _ 1 (by decide) rfl _
theorem dcmpEq (f : TC) : Statement (.dcmpEq f) := tx_tcWord _ 0 (by decide) rfl _
theorem dcmpLt (f : TC) : Statement (.dcmpLt f) := tx_tcWord _ 2 (by decide) rfl _
theorem dcmpLe (f : TC) : Statement (.dcmpLe f) := tx_tcWord _ 0 (by decide) rfl _
theorem dcmpUn (f : TC) : Statement (.dcmpUn f) := tx_tcWord _ 1 (by decide) rfl _
theorem plop (d e a b : BitVec 3) (t : BitVec 4) (c s : BitVec 3) : Statement (.plop d e a b t c s) := isTx_false _ 0 (by decide) (by simp only [BitVec.getLsbD_append]; simp)
theorem xrot (f : TR) : Statement (.xrot f) := tx_trWord _ 0 (by decide) rfl _
theorem xbfly (f : TR) : Statement (.xbfly f) := tx_trWord _ 1 (by decide) rfl _
theorem xbcast (f : TR) : Statement (.xbcast f) := tx_trWord _ 0 (by decide) rfl _
theorem xrev (f : TR) : Statement (.xrev f) := tx_trWord _ 2 (by decide) rfl _
theorem redx (f : TR) (x : TX) : Statement (.redx f x) := ⟨tx_trWord _ 0 (by decide) rfl _, bit31_trWord _ (by decide) _, isTx_tx _⟩
theorem scanx (f : TR) (x : TX) : Statement (.scanx f x) := ⟨tx_trWord _ 1 (by decide) rfl _, bit31_trWord _ (by decide) _, isTx_tx _⟩
theorem vote (k p : BitVec 3) (o m : BitVec 2) (s : BitVec 3) : Statement (.vote k p o m s) := isTx_false _ 0 (by decide) (by simp only [BitVec.getLsbD_append]; simp)
theorem ld (f : TR) (x : TX) : Statement (.ld f x) := ⟨tx_trWord _ 0 (by decide) rfl _, bit31_trWord _ (by decide) _, isTx_tx _⟩
theorem st (f : TR) (x : TX) : Statement (.st f x) := ⟨tx_trWord _ 1 (by decide) rfl _, bit31_trWord _ (by decide) _, isTx_tx _⟩
theorem lds (f : TR) (x : TX) : Statement (.lds f x) := ⟨tx_trWord _ 0 (by decide) rfl _, bit31_trWord _ (by decide) _, isTx_tx _⟩
theorem sts (f : TR) (x : TX) : Statement (.sts f x) := ⟨tx_trWord _ 2 (by decide) rfl _, bit31_trWord _ (by decide) _, isTx_tx _⟩
theorem sld (f : TR) (x : TX) : Statement (.sld f x) := ⟨tx_trWord _ 0 (by decide) rfl _, bit31_trWord _ (by decide) _, isTx_tx _⟩
theorem sst (f : TR) (x : TX) : Statement (.sst f x) := ⟨tx_trWord _ 1 (by decide) rfl _, bit31_trWord _ (by decide) _, isTx_tx _⟩
theorem atom (f : TR) (x : TX) : Statement (.atom f x) := ⟨tx_trWord _ 0 (by decide) rfl _, bit31_trWord _ (by decide) _, isTx_tx _⟩
theorem atoms (f : TR) (x : TX) : Statement (.atoms f x) := ⟨tx_trWord _ 4 (by decide) rfl _, bit31_trWord _ (by decide) _, isTx_tx _⟩
theorem cas (f : TR) (x : TX) : Statement (.cas f x) := ⟨tx_trWord _ 0 (by decide) rfl _, bit31_trWord _ (by decide) _, isTx_tx _⟩
theorem cass (f : TR) (x : TX) : Statement (.cass f x) := ⟨tx_trWord _ 1 (by decide) rfl _, bit31_trWord _ (by decide) _, isTx_tx _⟩
theorem fence (f : TR) (x : TX) : Statement (.fence f x) := ⟨tx_trWord _ 0 (by decide) rfl _, bit31_trWord _ (by decide) _, isTx_tx _⟩
theorem cpa (f : TR) (x : TX) : Statement (.cpa f x) := ⟨tx_trWord _ 2 (by decide) rfl _, bit31_trWord _ (by decide) _, isTx_tx _⟩
theorem few (f : T1) : Statement (.few f) := tx_t1Word _ 0 (by decide) rfl _
theorem fer (f : T1) : Statement (.fer f) := tx_t1Word _ 1 (by decide) rfl _
theorem fepeek (f : T1) : Statement (.fepeek f) := tx_t1Word _ 0 (by decide) rfl _
theorem xperm (f : TR) : Statement (.xperm f) := tx_trWord _ 3 (by decide) rfl _
theorem nop (c : BitVec 3) : Statement (.nop c) := isTx_seq _ (by simp only [BitVec.getLsbD_append]; simp)
theorem sadd (f : S3) : Statement (.sadd f) := tx_srWord ..
theorem ssub (f : S3) : Statement (.ssub f) := tx_srWord ..
theorem smul (f : S3) : Statement (.smul f) := tx_srWord ..
theorem sand (f : S3) : Statement (.sand f) := tx_srWord ..
theorem sor (f : S3) : Statement (.sor f) := tx_srWord ..
theorem sxor (f : S3) : Statement (.sxor f) := tx_srWord ..
theorem sshl (f : S3) : Statement (.sshl f) := tx_srWord ..
theorem sshr (f : S3) : Statement (.sshr f) := tx_srWord ..
theorem ssar (f : S3) : Statement (.ssar f) := tx_srWord ..
theorem smin (f : S3) (u : BitVec 1) : Statement (.smin f u) := tx_srWord ..
theorem smax (f : S3) (u : BitVec 1) : Statement (.smax f u) := tx_srWord ..
theorem smovi (c : BitVec 3) (d : BitVec 5) (i : BitVec 16) : Statement (.smovi c d i) := isTx_seq _ (by simp only [BitVec.getLsbD_append]; simp)
theorem slui (c : BitVec 3) (d : BitVec 5) (i : BitVec 16) : Statement (.slui c d i) := isTx_seq _ (by simp only [BitVec.getLsbD_append]; simp)
theorem saddi (c : BitVec 3) (d : BitVec 5) (i : BitVec 16) : Statement (.saddi c d i) := isTx_seq _ (by simp only [BitVec.getLsbD_append]; simp)
theorem scmp (c k : BitVec 3) (a b : BitVec 5) (f : BitVec 3) : Statement (.scmp c k a b f) := isTx_seq _ (by simp only [BitVec.getLsbD_append]; simp)
theorem kop (c k a b : BitVec 3) (t : BitVec 4) : Statement (.kop c k a b t) := isTx_seq _ (by simp only [BitVec.getLsbD_append]; simp)
theorem tkrd (c : BitVec 3) (d : BitVec 5) (f : BitVec 2) : Statement (.tkrd c d f) := isTx_seq _ (by simp only [BitVec.getLsbD_append]; simp)
theorem strd (c : BitVec 3) (d : BitVec 5) (h : BitVec 1) (i : BitVec 5) : Statement (.strd c d h i) := isTx_seq _ (by simp only [BitVec.getLsbD_append]; simp)
theorem stwr (c : BitVec 3) (a : BitVec 5) (h : BitVec 1) (i : BitVec 5) : Statement (.stwr c a h i) := isTx_seq _ (by simp only [BitVec.getLsbD_append]; simp)
theorem sldg (c : BitVec 3) (d a : BitVec 5) (i : BitVec 6) : Statement (.sldg c d a i) := isTx_seq _ (by simp only [BitVec.getLsbD_append]; simp)
theorem sstg (c : BitVec 3) (d a : BitVec 5) (i : BitVec 6) : Statement (.sstg c d a i) := isTx_seq _ (by simp only [BitVec.getLsbD_append]; simp)
theorem br (c k : BitVec 3) (n : BitVec 1) (o : BitVec 17) : Statement (.br c k n o) := isTx_seq _ (by simp only [BitVec.getLsbD_append]; simp)
theorem jmp (c : BitVec 3) (o : BitVec 17) : Statement (.jmp c o) := isTx_seq _ (by simp only [BitVec.getLsbD_append]; simp)
theorem call (c : BitVec 3) (o : BitVec 17) : Statement (.call c o) := isTx_seq _ (by simp only [BitVec.getLsbD_append]; simp)
theorem ret (c : BitVec 3) : Statement (.ret c) := isTx_seq _ (by simp only [BitVec.getLsbD_append]; simp)
theorem loop (c : BitVec 3) (i : BitVec 16) : Statement (.loop c i) := isTx_seq _ (by simp only [BitVec.getLsbD_append]; simp)
theorem loopr (c : BitVec 3) (a : BitVec 5) : Statement (.loopr c a) := isTx_seq _ (by simp only [BitVec.getLsbD_append]; simp)
theorem endl (c : BitVec 3) : Statement (.endl c) := isTx_seq _ (by simp only [BitVec.getLsbD_append]; simp)
theorem brk (c k : BitVec 3) (n : BitVec 1) (o : BitVec 17) : Statement (.brk c k n o) := isTx_seq _ (by simp only [BitVec.getLsbD_append]; simp)
theorem ifT (p : BitVec 3) (n : BitVec 1) : Statement (.ifT p n) := isTx_seq _ (by simp only [BitVec.getLsbD_append]; simp)
theorem elseT : Statement .elseT := isTx_seq _ (by decide)
theorem fiT : Statement .fiT := isTx_seq _ (by decide)
theorem run (t l : BitVec 5) (a : BitVec 8) : Statement (.run t l a) := isTx_seq _ (by simp only [BitVec.getLsbD_append]; simp)
theorem endr (t : BitVec 3) (a b c : BitVec 7) : Statement (.endr t a b c) := isTx_seq _ (by simp only [BitVec.getLsbD_append]; simp)
theorem exit (c : BitVec 3) : Statement (.exit c) := isTx_seq _ (by simp only [BitVec.getLsbD_append]; simp)
theorem yield (c : BitVec 3) : Statement (.yield c) := isTx_seq _ (by simp only [BitVec.getLsbD_append]; simp)
theorem acq : Statement .acq := isTx_seq _ (by decide)
theorem arrive (c : BitVec 3) (f : BitVec 6) : Statement (.arrive c f) := isTx_seq _ (by simp only [BitVec.getLsbD_append]; simp)
theorem wait (c : BitVec 3) (f : BitVec 6) : Statement (.wait c f) := isTx_seq _ (by simp only [BitVec.getLsbD_append]; simp)
theorem grpset (a b : BitVec 5) (l : BitVec 2) (x : BitVec 1) : Statement (.grpset a b l x) := isTx_seq _ (by simp only [BitVec.getLsbD_append]; simp)
theorem flagset (a : BitVec 5) (q : BitVec 3) : Statement (.flagset a q) := isTx_seq _ (by simp only [BitVec.getLsbD_append]; simp)
theorem cpwait (t : BitVec 3) : Statement (.cpwait t) := isTx_seq _ (by simp only [BitVec.getLsbD_append]; simp)
theorem enter (a : BitVec 5) : Statement (.enter a) := isTx_seq _ (by simp only [BitVec.getLsbD_append]; simp)
theorem leave : Statement .leave := isTx_seq _ (by decide)
theorem trap (x : BitVec 6) : Statement (.trap x) := isTx_seq _ (by simp only [BitVec.getLsbD_append]; simp)
theorem tret : Statement .tret := isTx_seq _ (by decide)
theorem wpset (a : BitVec 5) (x : BitVec 1) (n : BitVec 4) : Statement (.wpset a x n) := isTx_seq _ (by simp only [BitVec.getLsbD_append]; simp)
theorem dbgrd (d a : BitVec 5) : Statement (.dbgrd d a) := isTx_seq _ (by simp only [BitVec.getLsbD_append]; simp)
theorem dbgwr (a b : BitVec 5) : Statement (.dbgwr a b) := isTx_seq _ (by simp only [BitVec.getLsbD_append]; simp)
theorem lstep (d a : BitVec 5) : Statement (.lstep d a) := isTx_seq _ (by simp only [BitVec.getLsbD_append]; simp)
theorem wresume (a b : BitVec 5) (j : BitVec 1) : Statement (.wresume a b j) := isTx_seq _ (by simp only [BitVec.getLsbD_append]; simp)
theorem mpred (a b : BitVec 5) (o c : BitVec 1) (n : BitVec 2) : Statement (.mpred a b o c n) := isTx_seq _ (by simp only [BitVec.getLsbD_append]; simp)
theorem mzero (a : BitVec 5) (k r : BitVec 2) : Statement (.mzero a k r) := isTx_seq _ (by simp only [BitVec.getLsbD_append]; simp)
theorem mldw (a : BitVec 5) (n : BitVec 1) (f : BitVec 3) : Statement (.mldw a n f) := isTx_seq _ (by simp only [BitVec.getLsbD_append]; simp)
theorem mswap : Statement .mswap := isTx_seq _ (by decide)
theorem mstrm (a b : BitVec 5) (f k r : BitVec 2) : Statement (.mstrm a b f k r) := isTx_seq _ (by simp only [BitVec.getLsbD_append]; simp)
theorem mcpy (v : BitVec 3) (x : BitVec 1) (a b : BitVec 5) (k r : BitVec 2) : Statement (.mcpy v x a b k r) := isTx_seq _ (by simp only [BitVec.getLsbD_append]; simp)
theorem mfence (d : BitVec 5) : Statement (.mfence d) := isTx_seq _ (by simp only [BitVec.getLsbD_append]; simp)
theorem mwait (a : BitVec 5) : Statement (.mwait a) := isTx_seq _ (by simp only [BitVec.getLsbD_append]; simp)
theorem srtld (a b w : BitVec 5) : Statement (.srtld a b w) := isTx_seq _ (by simp only [BitVec.getLsbD_append]; simp)
theorem srtgo (a : BitVec 5) (o e l : BitVec 1) (k : BitVec 3) : Statement (.srtgo a o e l k) := isTx_seq _ (by simp only [BitVec.getLsbD_append]; simp)
theorem srtst (a b w : BitVec 5) : Statement (.srtst a b w) := isTx_seq _ (by simp only [BitVec.getLsbD_append]; simp)
theorem bcopy (d a b : BitVec 5) (x : BitVec 1) (w : BitVec 5) : Statement (.bcopy d a b x w) := isTx_seq _ (by simp only [BitVec.getLsbD_append]; simp)
theorem bmcast (d a b : BitVec 5) : Statement (.bmcast d a b) := isTx_seq _ (by simp only [BitVec.getLsbD_append]; simp)
theorem gath (d a b w : BitVec 5) : Statement (.gath d a b w) := isTx_seq _ (by simp only [BitVec.getLsbD_append]; simp)
theorem syncw (d a b : BitVec 5) : Statement (.syncw d a b) := isTx_seq _ (by simp only [BitVec.getLsbD_append]; simp)
theorem swait (a b : BitVec 5) : Statement (.swait a b) := isTx_seq _ (by simp only [BitVec.getLsbD_append]; simp)
theorem hist (d a b w : BitVec 5) : Statement (.hist d a b w) := isTx_seq _ (by simp only [BitVec.getLsbD_append]; simp)
theorem qscale (d a b w : BitVec 5) : Statement (.qscale d a b w) := isTx_seq _ (by simp only [BitVec.getLsbD_append]; simp)
theorem coll (d a b w : BitVec 5) : Statement (.coll d a b w) := isTx_seq _ (by simp only [BitVec.getLsbD_append]; simp)
theorem qjoin (m : BitVec 5) : Statement (.qjoin m) := isTx_seq _ (by simp only [BitVec.getLsbD_append]; simp)
theorem bpref (a b : BitVec 5) : Statement (.bpref a b) := isTx_seq _ (by simp only [BitVec.getLsbD_append]; simp)
theorem faultRecordWrite (isle : Nat) : Statement (.faultRecordWrite isle) := rfl
theorem waveReplay (wave : Nat) : Statement (.waveReplay wave) := rfl
theorem loadWriteback (wave index : Nat) : Statement (.loadWriteback wave index) := rfl
theorem tokenPop (agent : Agent) : Statement (.tokenPop agent) := rfl
theorem barrierRelease (block bar : Nat) : Statement (.barrierRelease block bar) := rfl
theorem voteInstanceComplete (agent : Agent) : Statement (.voteInstanceComplete agent) := rfl
theorem acqGrant (block : Nat) : Statement (.acqGrant block) := rfl
theorem engineCommandStart (block : Nat) (queue : EngineQueue) : Statement (.engineCommandStart block queue) := rfl
theorem engineUnitWrite (block : Nat) (queue : EngineQueue) (choice : Nat) : Statement (.engineUnitWrite block queue choice) := rfl
theorem cpaLanding (wave index : Nat) : Statement (.cpaLanding wave index) := rfl
theorem matrixGrant (block : Nat) : Statement (.matrixGrant block) := rfl
theorem sortStep (block : Nat) : Statement (.sortStep block) := rfl
theorem sortTransferRow (block : Nat) : Statement (.sortTransferRow block) := rfl
theorem multicastGranule (block choice : Nat) : Statement (.multicastGranule block choice) := rfl
theorem collInstanceComplete (ctx group inst : Nat) : Statement (.collInstanceComplete ctx group inst) := rfl
theorem blockEnd (block : Nat) : Statement (.blockEnd block) := rfl
theorem blockPlacement (grid core : Nat) : Statement (.blockPlacement grid core) := rfl
theorem launchAdmission (launch : Nat) : Statement (.launchAdmission launch) := rfl
theorem gangRetry (launch : Nat) : Statement (.gangRetry launch) := rfl
theorem graphNode (queue : Nat) : Statement (.graphNode queue) := rfl
theorem launch (p : Packet) : Statement (.launch p) := rfl
theorem gang (p : Packet) : Statement (.gang p) := rfl
theorem graph (p : Packet) : Statement (.graph p) := rfl
theorem vwrite (p : Packet) : Statement (.vwrite p) := rfl
theorem vwait (p : Packet) : Statement (.vwait p) := rfl
theorem vwaitPoll (queue : Nat) : Statement (.vwaitPoll queue) := rfl
theorem qfence (p : Packet) : Statement (.qfence p) := rfl
theorem codepub (p : Packet) : Statement (.codepub p) := rfl
theorem capstart (p : Packet) : Statement (.capstart p) := rfl
theorem capstop (p : Packet) : Statement (.capstop p) := rfl
theorem ringRescan (isle : Nat) : Statement (.ringRescan isle) := rfl
theorem pluginAnswerTimeout (isle tenant : Nat) : Statement (.pluginAnswerTimeout isle tenant) := rfl
theorem progressFault (grid : Nat) : Statement (.progressFault grid) := rfl
theorem preemptionRequest (ctx : Nat) : Statement (.preemptionRequest ctx) := rfl
theorem forcedSave (ctx : Nat) : Statement (.forcedSave ctx) := rfl
theorem contextRestore (ctx : Nat) : Statement (.contextRestore ctx) := rfl
theorem invalidationComplete (isle : Nat) : Statement (.invalidationComplete isle) := rfl
theorem invalidationCompletionSend (tag : Nat) : Statement (.invalidationCompletionSend tag) := rfl
theorem fixedLatencyResultWrite (wave : Nat) : Statement (.fixedLatencyResultWrite wave) := rfl
theorem kickPageWrite (page offset : Nat) : Statement (.kickPageWrite page offset) := rfl
theorem pipelineRevision (isle : Nat) : Statement (.pipelineRevision isle) := rfl
theorem tenantPeriodBoundary (isle : Nat) : Statement (.tenantPeriodBoundary isle) := rfl
theorem wavePromotion (wave : Nat) : Statement (.wavePromotion wave) := rfl
theorem pcSample (agent : Agent) : Statement (.pcSample agent) := rfl
theorem taggedRecord (wave : Nat) : Statement (.taggedRecord wave) := rfl
theorem xlinvcOnePage (isle pasid size : Nat) : Statement (.xlinvcOnePage isle pasid size) := rfl
theorem xlinvcWholePasid (isle pasid : Nat) : Statement (.xlinvcWholePasid isle pasid) := rfl
theorem xlinvcAllPasids (isle : Nat) : Statement (.xlinvcAllPasids isle) := rfl
theorem xlrespRetry (isle seq : Nat) : Statement (.xlrespRetry isle seq) := rfl
theorem xlrespFail (isle seq : Nat) : Statement (.xlrespFail isle seq) := rfl
theorem ctxcmdCreate (ctx : Nat) : Statement (.ctxcmdCreate ctx) := rfl
theorem ctxcmdDestroy (ctx : Nat) : Statement (.ctxcmdDestroy ctx) := rfl
theorem qcmdEnable (isle qloc : Nat) : Statement (.qcmdEnable isle qloc) := rfl
theorem qcmdDisable (isle qloc : Nat) : Statement (.qcmdDisable isle qloc) := rfl
theorem tperiodWrite (isle value : Nat) : Statement (.tperiodWrite isle value) := rfl
theorem pwrlimWrite (value : Nat) : Statement (.pwrlimWrite value) := rfl
theorem registerWrite (isle offset : Nat) (value : Dword) : Statement (.registerWrite isle offset value) := rfl
theorem atsInvalidationRequest (r : AtsInvalidation) : Statement (.atsInvalidationRequest r) := rfl
theorem atsTranslationCompletion (r : AtsCompletion) : Statement (.atsTranslationCompletion r) := rfl
theorem prgResponse (r : PrgResponse) : Statement (.prgResponse r) := rfl
theorem functionLevelReset (fn : Nat) : Statement (.functionLevelReset fn) := rfl
theorem straitLinkDown (link : Nat) : Statement (.straitLinkDown link) := rfl
theorem peerAccess (r : PeerAccess) : Statement (.peerAccess r) := rfl
theorem unitSelfTest (isle unit : Nat) (passed : Bool) : Statement (.unitSelfTest isle unit passed) := rfl
theorem attestationReport (nonce : List Byte) : Statement (.attestationReport nonce) := rfl
theorem operatorKeyEnrol (key : List Byte) : Statement (.operatorKeyEnrol key) := rfl
theorem powerArbiterTick (isle core limit : Nat) : Statement (.powerArbiterTick isle core limit) := rfl
theorem tenantTokenCharge (block : Nat) : Statement (.tenantTokenCharge block) := rfl
theorem pluginAnswer (isle tenant queue : Nat) : Statement (.pluginAnswer isle tenant queue) := rfl
theorem storedBitError (e : BitError) : Statement (.storedBitError e) := rfl
theorem flitCrcFailure (link : Nat) : Statement (.flitCrcFailure link) := rfl
theorem configurationRequest (write : Bool) (offset : Nat) (value : Word) : Statement (.configurationRequest write offset value) := rfl
theorem illegalInstruction : Statement .illegalInstruction := rfl
theorem hotReset : Statement .hotReset := rfl
theorem powerUp : Statement .powerUp := rfl
theorem powerLoss : Statement .powerLoss := rfl

end Sys2Proof.Laws.Encoding
end

