-- ==== Sys2Proof/Tests/Slice0.lean ====
section
/-!
SUPPORT. Sys2Proof/Tests/Slice0.lean: ill-formed terms that WellFormed refuses, words written out from the encodings of spec/,
values of the spec's examples, and, for each statement with hypotheses, a state and operands that meet them together.
-/

namespace Sys2Proof.Tests
open Sys2Proof Sys2Proof.Machine

set_option maxRecDepth 20000
set_option Elab.async false

/-! ### WellFormed refuses (R2, R12, R70, R101 to R106, R117, R303, R390): one term for each check -/

theorem test_shift_of_32_refused : WellFormed (.shli ⟨0, 0, 32, 0⟩) = false ∧ WellFormed (.shli ⟨0, 0, 31, 0⟩) = true := by decide
theorem test_odd_pair_refused : WellFormed (.dadd ⟨1, 2, 4, 7, 0⟩) = false ∧ WellFormed (.dadd ⟨0, 2, 4, 7, 0⟩) = true := by decide
theorem test_imad_mode_refused : WellFormed (.imadTx ⟨0, 2, 4, 7, 0⟩ ⟨6, 2, 0⟩) = false := by decide
theorem test_lea64_odd_refused : WellFormed (.lea64 ⟨2, 3, 4, 7, 0⟩) = false := by decide
theorem test_iadd64_odd_refused : WellFormed (.iadd64 ⟨2, 4, 5, 7, 0⟩) = false := by decide
theorem test_bfe_too_long_refused : WellFormed (.bfe ⟨0, 1, 0, 7, 0⟩ ⟨0, 0, 1023⟩) = false := by decide
theorem test_bfi_signed_refused : WellFormed (.bfi ⟨0, 1, 2, 7, 0⟩ ⟨0, 0, 1024⟩) = false := by decide
theorem test_movs_source_refused : WellFormed (.movs 0 34 0 7 0) = false ∧ WellFormed (.movs 0 32 1 7 0) = false := by decide
theorem test_rounding_mode_refused : WellFormed (.faddTx ⟨0, 1, 2, 7, 0⟩ ⟨0, 4, 0⟩) = false := by decide
theorem test_half_rounding_refused : WellFormed (.hfmaTx ⟨0, 1, 2, 7, 0⟩ ⟨3, 1, 0⟩) = false := by decide
theorem test_dabs_odd_refused : WellFormed (.dabs ⟨1, 2, 7, 0⟩) = false := by decide
theorem test_cvtf_same_format_refused : WellFormed (.cvtf ⟨0, 1, 0, 7, 0⟩ ⟨0, 0, 17⟩) = false := by decide
theorem test_cvtfi_refused : WellFormed (.cvtfi ⟨0, 1, 0, 7, 0⟩ ⟨0, 0, 0x14⟩) = false := by decide
theorem test_cvtif_refused : WellFormed (.cvtif ⟨0, 1, 0, 7, 0⟩ ⟨0, 0, 0x21⟩) = false := by decide
theorem test_cvtii_refused : WellFormed (.cvtii ⟨0, 1, 0, 7, 0⟩ ⟨0, 0, 0x66⟩) = false := by decide
theorem test_qenc_nibble_refused : WellFormed (.qenc ⟨0, 1, 2, 7, 0⟩ ⟨0, 8, 0⟩) = false := by decide
theorem test_fclass_format_refused : WellFormed (.fclass ⟨0, 1, 5, 7, 0⟩) = false := by decide
theorem test_compare_type_refused : WellFormed (.icmpEq ⟨0, 1, 2, 3, 7, 0⟩) = false := by decide
theorem test_compare_same_pair_refused : WellFormed (.icmpEq ⟨1, 1, 2, 3, 0, 0⟩) = false ∧ WellFormed (.icmpEq ⟨7, 7, 2, 3, 0, 0⟩) = true := by decide
theorem test_dcmp_odd_refused : WellFormed (.dcmpLt ⟨0, 1, 3, 4, 0, 0⟩) = false := by decide
theorem test_plop_type_refused : WellFormed (.plop 0 1 2 3 8 7 0) = false := by decide
theorem test_cross_offset_refused : WellFormed (.xrot ⟨0, 1, 0, 7, 0⟩) = false ∧ WellFormed (.xbfly ⟨0, 1, 32, 7, 0⟩) = false ∧
    WellFormed (.xrev ⟨0, 1, 3, 7, 0⟩) = false := by decide
theorem test_redx_group_refused : WellFormed (.redx ⟨0, 1, 0, 7, 0⟩ ⟨0, 0, 6⟩) = false := by decide
theorem test_scanx_operation_refused : WellFormed (.scanx ⟨0, 1, 0, 7, 0⟩ ⟨0, 11, 0⟩) = false := by decide
theorem test_vote_scope_refused : WellFormed (.vote 0 1 0 0 0) = false ∧ WellFormed (.vote 0 1 1 3 0) = false := by decide
theorem test_load_type_refused : WellFormed (.ld ⟨0, 2, 0, 7, 0⟩ ⟨0, 36, 0⟩) = false := by decide
theorem test_load_quad_refused : WellFormed (.ld ⟨2, 4, 0, 7, 0⟩ ⟨0, 24, 0⟩) = false ∧ WellFormed (.ld ⟨4, 8, 0, 7, 0⟩ ⟨0, 24, 0⟩) = true := by decide
theorem test_store_signed_refused : WellFormed (.st ⟨0, 2, 0, 7, 0⟩ ⟨0, 4, 0⟩) = false := by decide
theorem test_lds_decoding_refused : WellFormed (.lds ⟨0, 2, 0, 7, 0⟩ ⟨0, 28, 0⟩) = false := by decide
theorem test_sts_index_refused : WellFormed (.sts ⟨0, 2, 1, 7, 0⟩ ⟨0, 16, 0⟩) = false := by decide
theorem test_sld_release_refused : WellFormed (.sld ⟨0, 2, 0, 7, 0⟩ ⟨32, 16, 0⟩) = false := by decide
theorem test_sst_acquire_refused : WellFormed (.sst ⟨0, 2, 0, 7, 0⟩ ⟨32, 8, 0⟩) = false := by decide
theorem test_atom_operation_refused : WellFormed (.atom ⟨0, 2, 4, 7, 0⟩ ⟨60, 0, 0⟩) = false := by decide
theorem test_atoms_wide_refused : WellFormed (.atoms ⟨0, 2, 4, 7, 0⟩ ⟨38, 0, 0⟩) = false := by decide
theorem test_cas_odd_refused : WellFormed (.cas ⟨0, 2, 4, 7, 0⟩ ⟨5, 0, 2048⟩) = false := by decide
theorem test_cass_scope_refused : WellFormed (.cass ⟨0, 2, 4, 7, 0⟩ ⟨6, 6, 0⟩) = false := by decide
theorem test_fence_order_refused : WellFormed (.fence ⟨0, 0, 0, 0, 0⟩ ⟨0, 5, 0⟩) = false := by decide
theorem test_cpa_reserved_refused : WellFormed (.cpa ⟨0, 2, 4, 7, 0⟩ ⟨0, 8, 0⟩) = false := by decide
theorem test_scope_refused : WellFormed (.nop 4) = false ∧ WellFormed (.nop 3) = true := by decide
theorem test_grid_register_refused : WellFormed (.sadd ⟨3, 16, 0, 0⟩) = false ∧ WellFormed (.sadd ⟨2, 16, 0, 0⟩) = true := by decide
theorem test_smin_register_refused : WellFormed (.smin ⟨3, 0, 16, 0⟩ 0) = false := by decide
theorem test_smovi_register_refused : WellFormed (.smovi 3 16 0) = false := by decide
theorem test_scmp_relation_refused : WellFormed (.scmp 1 0 0 0 6) = false := by decide
theorem test_kop_scope_refused : WellFormed (.kop 0 0 0 0 0) = false := by decide
theorem test_tkrd_field_refused : WellFormed (.tkrd 1 0 3) = false ∧ WellFormed (.tkrd 3 0 0) = false := by decide
theorem test_status_index_refused : WellFormed (.strd 1 0 0 12) = false ∧ WellFormed (.strd 1 0 1 3) = false := by decide
theorem test_stwr_scope_refused : WellFormed (.stwr 3 0 0 16) = false := by decide
theorem test_sldg_register_refused : WellFormed (.sldg 3 16 0 0) = false := by decide
theorem test_branch_scope_refused : WellFormed (.br 5 0 0 0) = false ∧ WellFormed (.jmp 0 0) = false ∧ WellFormed (.loop 6 1) = false := by decide
theorem test_loopr_register_refused : WellFormed (.loopr 3 16) = false := by decide
theorem test_run_temporaries_refused : WellFormed (.run 9 0 0) = false ∧ WellFormed (.run 8 0 0) = true := by decide
theorem test_endr_slot_refused : WellFormed (.endr 0 1 0 0) = false := by decide
theorem test_yield_grid_refused : WellFormed (.yield 3) = false := by decide
theorem test_barrier_refused : WellFormed (.arrive 1 16) = false ∧ WellFormed (.wait 2 31) = false ∧ WellFormed (.wait 3 1) = false := by decide
theorem test_grpset_register_refused : WellFormed (.grpset 16 0 0 0) = false := by decide
theorem test_mldw_format_refused : WellFormed (.mldw 0 0 6) = false ∧ WellFormed (.mldw 0 1 1) = false := by decide
theorem test_mcpy_conversion_refused : WellFormed (.mcpy 4 0 0 0 0 0) = false := by decide
theorem test_srtgo_key_refused : WellFormed (.srtgo 0 0 0 0 7) = false := by decide
theorem test_qjoin_nobody_refused : WellFormed (.qjoin 0) = false := by decide
theorem test_isle_refused : WellFormed (.faultRecordWrite 8) = false ∧ WellFormed (.registerWrite 8 0 0) = false := by decide
theorem test_xlinvc_refused : WellFormed (.xlinvcOnePage 0 (2 ^ 20) 0) = false ∧ WellFormed (.xlinvcOnePage 0 0 3) = false := by decide
theorem test_xlresp_refused : WellFormed (.xlrespRetry 0 (2 ^ 16)) = false := by decide
theorem test_core_refused : WellFormed (.blockPlacement 0 32) = false ∧ WellFormed (.powerArbiterTick 0 32 0) = false := by decide
theorem test_packet_refused : WellFormed (.launch ⟨0, []⟩) = false := by decide
theorem test_link_refused : WellFormed (.straitLinkDown 16) = false := by decide
theorem test_bit_error_refused : WellFormed (.storedBitError (.lane 0 83 0)) = false ∧
    WellFormed (.storedBitError (.scratch 0 0 8)) = false ∧ WellFormed (.storedBitError (.acc 0 0 128 0)) = false ∧
    WellFormed (.storedBitError (.sort 0 16384 0)) = false ∧ WellFormed (.storedBitError (.far 8 0 0)) = false := by decide

/-! ### Words: every row of R101 to R106 with a value of its own in each field, laid out from the encoding tables -/

/-- Each word, with its TX word, decodes to its instruction. -/
def decodesAll (l : List (Word × Option Word × Instr)) : Bool :=
  l.all fun e => match decode e.1 e.2.1 with
    | .ok r => r == (e.2.2, if e.2.1.isSome then 2 else 1)
    | .error _ => false

theorem test_decode_integer : decodesAll [
    (0x00A11C1F, none, .iadd ⟨40, 17, 48, 3, 7⟩), (0x01B7DDB6, none, .isub ⟨45, 61, 54, 6, 6⟩),
    (0x02F220BC, none, .imul ⟨60, 34, 2, 7, 4⟩), (0x03CBD431, none, .imulhi ⟨50, 61, 16, 6, 1⟩),
    (0x04E8B21C, none, .imad ⟨58, 11, 8, 3, 4⟩), (0x04E10669, some 0x7F950036, .imadTx ⟨56, 16, 25, 5, 1⟩ ⟨37, 16, 54⟩),
    (0x05BCE6DA, none, .imin ⟨47, 14, 27, 3, 2⟩), (0x06EF8CA2, none, .imax ⟨59, 56, 50, 4, 2⟩),
    (0x07C74155, none, .umin ⟨49, 52, 5, 2, 5⟩), (0x08A1D251, none, .umax ⟨40, 29, 9, 2, 1⟩),
    (0x09FF8057, none, .and ⟨63, 56, 1, 2, 7⟩), (0x0A3BEFD7, none, .or ⟨14, 62, 63, 2, 7⟩),
    (0x0B2D3555, none, .xor ⟨11, 19, 21, 2, 5⟩), (0x0CE6CA52, none, .shl ⟨57, 44, 41, 2, 2⟩),
    (0x0DF7EB54, none, .shr ⟨61, 62, 45, 2, 4⟩), (0x0E502622, none, .sar ⟨20, 2, 24, 4, 2⟩),
    (0x0FF0A441, none, .iaddi ⟨60, 10, 136, 1⟩), (0x10594D1D, none, .andi ⟨22, 20, 419, 5⟩),
    (0x11981996, none, .ori ⟨38, 1, 306, 6⟩), (0x12B96113, none, .shli ⟨46, 22, 34, 3⟩),
    (0x135F54EC, none, .shri ⟨23, 53, 157, 4⟩), (0x14B55324, none, .lea ⟨45, 21, 12, 4, 4⟩),
    (0x15B8C119, none, .lea64 ⟨46, 12, 4, 3, 1⟩), (0x16F705FC, none, .iadd64 ⟨61, 48, 23, 7, 4⟩),
    (0x170A403C, none, .popc ⟨2, 36, 7, 4⟩), (0x1861902F, none, .clz ⟨24, 25, 5, 7⟩),
    (0x1905D0F2, some 0x7FA3EF46, .bfe ⟨1, 29, 3, 6, 2⟩ ⟨40, 62, 3910⟩),
    (0x1A348C57, some 0x7FF5E583, .bfi ⟨13, 8, 49, 2, 7⟩ ⟨61, 30, 1411⟩), (0x1B85702B, none, .mov ⟨33, 23, 5, 3⟩),
    (0x1CC80769, none, .movi 50 237 1), (0x1D9B007B, none, .movs 38 48 1 7 3), (0x1E0DCF4A, none, .sel ⟨3, 28, 61, 1, 2⟩)] = true := by decide +kernel

theorem test_decode_fp32_fp64 : decodesAll [
    (0x205A1A1A, none, .fadd ⟨22, 33, 40, 3, 2⟩), (0x20592F35, some 0x7F194AFA, .faddTx ⟨22, 18, 60, 6, 5⟩ ⟨6, 20, 2810⟩),
    (0x21554339, none, .fsub ⟨21, 20, 12, 7, 1⟩), (0x21A4ABF3, some 0x7F7CBB86, .fsubTx ⟨41, 10, 47, 6, 3⟩ ⟨31, 11, 2950⟩),
    (0x221069EC, none, .fmul ⟨4, 6, 39, 5, 4⟩), (0x220D0C2B, some 0x7FD5174B, .fmulTx ⟨3, 16, 48, 5, 3⟩ ⟨53, 17, 1867⟩),
    (0x23A9B28E, none, .ffma ⟨42, 27, 10, 1, 6⟩), (0x230F481F, some 0x7F389FB4, .ffmaTx ⟨3, 52, 32, 3, 7⟩ ⟨14, 9, 4020⟩),
    (0x24BE5F56, none, .fmin ⟨47, 37, 61, 2, 6⟩), (0x25EB36CA, none, .fmax ⟨58, 51, 27, 1, 2⟩),
    (0x2671828F, none, .fdiv ⟨28, 24, 10, 1, 7⟩), (0x266D32A5, some 0x7FDCBF9E, .fdivTx ⟨27, 19, 10, 4, 5⟩ ⟨55, 11, 3998⟩),
    (0x2789E026, none, .fabs ⟨34, 30, 4, 6⟩), (0x28BD57DB, none, .dadd ⟨47, 21, 31, 3, 3⟩),
    (0x287DAE91, some 0x7F675FD1, .daddTx ⟨31, 26, 58, 2, 1⟩ ⟨25, 53, 4049⟩), (0x298FE334, none, .dsub ⟨35, 62, 12, 6, 4⟩),
    (0x29E1630C, some 0x7F4A1C84, .dsubTx ⟨56, 22, 12, 1, 4⟩ ⟨18, 33, 3204⟩), (0x2A938859, none, .dmul ⟨36, 56, 33, 3, 1⟩),
    (0x2ACF3C9E, some 0x7F9AB08D, .dmulTx ⟨51, 51, 50, 3, 6⟩ ⟨38, 43, 141⟩), (0x2BC5462E, none, .dfma ⟨49, 20, 24, 5, 6⟩),
    (0x2BAD2DA3, some 0x7FCBFB0E, .dfmaTx ⟨43, 18, 54, 4, 3⟩ ⟨50, 63, 2830⟩), (0x2CB93F9E, none, .dmin ⟨46, 19, 62, 3, 6⟩),
    (0x2D326DCC, none, .dmax ⟨12, 38, 55, 1, 4⟩), (0x2E93245E, none, .ddiv ⟨36, 50, 17, 3, 6⟩),
    (0x2E49E4FD, some 0x7FAACCC4, .ddivTx ⟨18, 30, 19, 7, 5⟩ ⟨42, 44, 3268⟩), (0x2F5D701E, none, .dabs ⟨23, 23, 3, 6⟩)] = true := by decide +kernel

theorem test_decode_packed : decodesAll [
    (0x305F0F7C, none, .hadd ⟨23, 48, 61, 7, 4⟩), (0x315FCD97, none, .hmul ⟨23, 60, 54, 2, 7⟩),
    (0x32E2D75B, none, .hfma ⟨56, 45, 29, 3, 3⟩), (0x3288A892, some 0x7FD98F00, .hfmaTx ⟨34, 10, 34, 2, 2⟩ ⟨54, 24, 3840⟩),
    (0x33DDF4F1, none, .badd ⟨55, 31, 19, 6, 1⟩), (0x34BEBBE2, none, .bmul ⟨47, 43, 47, 4, 2⟩),
    (0x35A32F2D, none, .bfma ⟨40, 50, 60, 5, 5⟩), (0x35AFC6DD, some 0x7F932DE0, .bfmaTx ⟨43, 60, 27, 3, 5⟩ ⟨36, 50, 3552⟩),
    (0x36A52BCA, none, .hadd2 ⟨41, 18, 47, 1, 2⟩), (0x372E676E, none, .hmul2 ⟨11, 38, 29, 5, 6⟩),
    (0x3830FC72, none, .hfma2 ⟨12, 15, 49, 6, 2⟩), (0x38A6E0E2, some 0x7F2C4E45, .hfma2Tx ⟨41, 46, 3, 4, 2⟩ ⟨11, 4, 3653⟩),
    (0x39248554, none, .hmax2 ⟨9, 8, 21, 2, 4⟩), (0x3A3640E4, none, .hmin2 ⟨13, 36, 3, 4, 4⟩),
    (0x3B5D9AE9, none, .badd2 ⟨23, 25, 43, 5, 1⟩), (0x3C98E433, none, .bmul2 ⟨38, 14, 16, 6, 3⟩),
    (0x3D05769F, none, .bfma2 ⟨1, 23, 26, 3, 7⟩), (0x3D6F8237, some 0x7F918F6F, .bfma2Tx ⟨27, 56, 8, 6, 7⟩ ⟨36, 24, 3951⟩),
    (0x3E0E4A19, none, .bmax2 ⟨3, 36, 40, 3, 1⟩), (0x3F4E385D, none, .bmin2 ⟨19, 35, 33, 3, 5⟩)] = true := by decide +kernel

theorem test_decode_special_and_conversions : decodesAll [
    (0x404FE01F, none, .frcp ⟨19, 62, 3, 7⟩), (0x4125B027, none, .frsq ⟨9, 27, 4, 7⟩),
    (0x4296A02B, none, .fsqrt ⟨37, 42, 5, 3⟩), (0x4378A015, none, .fexp2 ⟨30, 10, 2, 5⟩),
    (0x44665022, none, .flog2 ⟨25, 37, 4, 2⟩), (0x45F89029, none, .fsin ⟨62, 9, 5, 1⟩),
    (0x465F5031, none, .fcos ⟨23, 53, 6, 1⟩), (0x4764701D, none, .ftanh ⟨25, 7, 3, 5⟩),
    (0x48EE88D3, some 0x7FA79E43, .cvtf ⟨59, 40, 35, 2, 3⟩ ⟨41, 57, 3651⟩),
    (0x49959722, some 0x7F8137AD, .cvtfi ⟨37, 25, 28, 4, 2⟩ ⟨32, 19, 1965⟩),
    (0x4AFEE667, some 0x7FECB989, .cvtif ⟨63, 46, 25, 4, 7⟩ ⟨59, 11, 2441⟩),
    (0x4B9D1C1C, some 0x7F45B051, .cvtii ⟨39, 17, 48, 3, 4⟩ ⟨17, 27, 81⟩),
    (0x4C57DFDC, some 0x7FF1324B, .qenc ⟨21, 61, 63, 3, 4⟩ ⟨60, 19, 587⟩),
    (0x4D7C2235, some 0x7FF9D3EE, .qdec ⟨31, 2, 8, 6, 5⟩ ⟨62, 29, 1006⟩), (0x4E4C3CD7, none, .fclass ⟨19, 3, 51, 2, 7⟩),
    (0x4F681025, none, .fqrcp ⟨26, 1, 4, 5⟩)] = true := by decide +kernel

theorem test_decode_compares_and_lanes : decodesAll [
    (0x50AD0F27, none, .icmpEq ⟨5, 3, 16, 60, 4, 7⟩), (0x512A04BA, none, .icmpNe ⟨1, 2, 32, 18, 7, 2⟩),
    (0x52CD382C, none, .icmpLt ⟨6, 3, 19, 32, 5, 4⟩), (0x53BB89F1, none, .icmpLe ⟨5, 6, 56, 39, 6, 1⟩),
    (0x543C951D, none, .icmpLtu ⟨1, 7, 9, 20, 3, 5⟩), (0x55CE84F5, none, .icmpLeu ⟨6, 3, 40, 19, 6, 5⟩),
    (0x56317636, none, .fcmpEq ⟨1, 4, 23, 24, 6, 6⟩), (0x57F490CB, none, .fcmpLt ⟨7, 5, 9, 3, 1, 3⟩),
    (0x58B2CECE, none, .fcmpLe ⟨5, 4, 44, 59, 1, 6⟩), (0x59A8173F, none, .fcmpUn ⟨5, 2, 1, 28, 7, 7⟩),
    (0x5A965B76, none, .dcmpEq ⟨4, 5, 37, 45, 6, 6⟩), (0x5BD37EFC, none, .dcmpLt ⟨6, 4, 55, 59, 7, 4⟩),
    (0x5C92CDF2, none, .dcmpLe ⟨4, 4, 44, 55, 6, 2⟩), (0x5D736C4B, none, .dcmpUn ⟨3, 4, 54, 49, 1, 3⟩),
    (0x5EE771EB, none, .plop 7 1 6 7 7 5 3), (0x60AB27DA, none, .xrot ⟨42, 50, 31, 3, 2⟩),
    (0x612DFB6C, none, .xbfly ⟨11, 31, 45, 5, 4⟩), (0x62FD68D4, none, .xbcast ⟨63, 22, 35, 2, 4⟩),
    (0x639A3D09, none, .xrev ⟨38, 35, 52, 1, 1⟩), (0x64BCF4B9, some 0x7FCC5A9F, .redx ⟨47, 15, 18, 7, 1⟩ ⟨51, 5, 2719⟩),
    (0x65F425B4, some 0x7FFC5FFA, .scanx ⟨61, 2, 22, 6, 4⟩ ⟨63, 5, 4090⟩), (0x66980241, none, .vote 4 6 2 1 1)] = true := by decide +kernel

theorem test_decode_memory : decodesAll [
    (0x68D883EE, some 0x7FD7D1C8, .ld ⟨54, 8, 15, 5, 6⟩ ⟨53, 61, 456⟩),
    (0x69BBA25E, some 0x7FEDD266, .st ⟨46, 58, 9, 3, 6⟩ ⟨59, 29, 614⟩),
    (0x6A328327, some 0x7F2C59F6, .lds ⟨12, 40, 12, 4, 7⟩ ⟨11, 5, 2550⟩),
    (0x6B38390E, some 0x7F670127, .sts ⟨14, 3, 36, 1, 6⟩ ⟨25, 48, 295⟩),
    (0x6C484969, some 0x7FC1AE0F, .sld ⟨18, 4, 37, 5, 1⟩ ⟨48, 26, 3599⟩),
    (0x6DA09061, some 0x7F56C99B, .sst ⟨40, 9, 1, 4, 1⟩ ⟨21, 44, 2459⟩),
    (0x6E8205F3, some 0x7FEC4237, .atom ⟨32, 32, 23, 6, 3⟩ ⟨59, 4, 567⟩),
    (0x6FB532AE, some 0x7FB214A5, .atoms ⟨45, 19, 10, 5, 6⟩ ⟨44, 33, 1189⟩),
    (0x70EFD92D, some 0x7F3D1103, .cas ⟨59, 61, 36, 5, 5⟩ ⟨15, 17, 259⟩),
    (0x7191047F, some 0x7F4E2F9B, .cass ⟨36, 16, 17, 7, 7⟩ ⟨19, 34, 3995⟩),
    (0x7227443B, some 0x7F7B0639, .fence ⟨9, 52, 16, 7, 3⟩ ⟨30, 48, 1593⟩),
    (0x73309B8E, some 0x7F58692C, .cpa ⟨12, 9, 46, 1, 6⟩ ⟨22, 6, 2348⟩), (0x74AC300F, none, .few ⟨43, 3, 1, 7⟩),
    (0x7522102C, none, .fer ⟨8, 33, 5, 4⟩), (0x76419024, none, .fepeek ⟨16, 25, 4, 4⟩),
    (0x77F951FD, none, .xperm ⟨62, 21, 7, 7, 5⟩)] = true := by decide +kernel

theorem test_decode_sequencer : decodesAll [
    (0xB0000000, none, .nop 3), (0xA022E140, none, .sadd ⟨2, 2, 28, 5⟩), (0xB05A4600, none, .ssub ⟨3, 26, 8, 24⟩),
    (0x907EB400, none, .smul ⟨1, 30, 22, 16⟩), (0x9085BD00, none, .sand ⟨1, 5, 23, 20⟩),
    (0xA0BB4280, none, .sor ⟨2, 27, 8, 10⟩), (0xB0D76680, none, .sxor ⟨3, 23, 12, 26⟩),
    (0xA0E5C6C0, none, .sshl ⟨2, 5, 24, 27⟩), (0xB10AD540, none, .sshr ⟨3, 10, 26, 21⟩),
    (0xA13114C0, none, .ssar ⟨2, 17, 2, 19⟩), (0x91583341, none, .smin ⟨1, 24, 6, 13⟩ 1),
    (0x916231C1, none, .smax ⟨1, 2, 6, 7⟩ 1), (0xA19DEFE7, none, .smovi 2 29 61415), (0xB1B95939, none, .slui 3 25 22841),
    (0xA1D04CF1, none, .saddi 2 16 19697), (0xA1E37BC1, none, .scmp 2 3 15 15 1), (0x92061046, none, .kop 1 6 2 1 6),
    (0xA23C0002, none, .tkrd 2 28 2), (0xB2490029, none, .strd 3 9 1 9), (0x9260C836, none, .stwr 1 25 1 22),
    (0x9290E803, none, .sldg 1 16 29 3), (0xA2ABF804, none, .sstg 2 11 31 4)] = true := by decide +kernel

theorem test_decode_control : decodesAll [
    (0x941AF187, none, .br 1 6 1 61831), (0x94203C60, none, .jmp 1 15456), (0xB440A60A, none, .call 3 42506),
    (0xA4600000, none, .ret 2), (0x9480BAB4, none, .loop 1 47796), (0x94A03800, none, .loopr 1 7),
    (0x94C00000, none, .endl 1), (0x94FB3C34, none, .brk 1 6 1 80948), (0x85002001, none, .ifT 4 1),
    (0x85200000, none, .elseT), (0x85400000, none, .fiT), (0x95765180, none, .run 22 10 48),
    (0x9F8BD289, none, .endr 4 47 37 9), (0xB5800000, none, .exit 3), (0x95A00000, none, .yield 1), (0xA5C00000, none, .acq),
    (0x9600000C, none, .arrive 1 12), (0x9620003D, none, .wait 1 61), (0xB6401547, none, .grpset 2 21 3 1),
    (0xA660C003, none, .flagset 24 3), (0x96800001, none, .cpwait 1), (0x96A07800, none, .enter 15),
    (0x96C00000, none, .leave), (0x96E00004, none, .trap 4), (0x97000000, none, .tret)] = true := by decide +kernel

theorem test_decode_debug_and_engines : decodesAll [
    (0x97207813, none, .wpset 15 1 3), (0x97421000, none, .dbgrd 2 2), (0x976096C0, none, .dbgwr 18 27),
    (0x979B8800, none, .lstep 27 17), (0x97A09B01, none, .wresume 19 12 1), (0xA800B8CD, none, .mpred 23 3 1 1 1),
    (0xA820F009, none, .mzero 30 2 1), (0xA840B00E, none, .mldw 22 1 6), (0xA8600000, none, .mswap),
    (0xA8801425, none, .mstrm 2 16 2 1 1), (0xA8A77A8D, none, .mcpy 3 1 15 10 3 1), (0xA8DD0000, none, .mfence 29),
    (0xA8E01000, none, .mwait 2), (0xA900F9C6, none, .srtld 31 7 6), (0xA920B839, none, .srtgo 23 1 1 1 1),
    (0xA940F2DA, none, .srtst 30 11 26), (0xAA041CB4, none, .bcopy 4 3 18 1 20), (0xAA23E600, none, .bmcast 3 28 24),
    (0xAA47A04F, none, .gath 7 20 1 15), (0xAA726400, none, .syncw 18 12 16), (0xAA8074C0, none, .swait 14 19),
    (0xAAB96C55, none, .hist 25 13 17 21), (0xAAC5C05E, none, .qscale 5 24 1 30), (0xAAF955CF, none, .coll 25 10 23 15),
    (0xAB00001D, none, .qjoin 29), (0xAB20DA00, none, .bpref 27 8)] = true := by decide +kernel

/-! ### Refused words, FCLASS's values (R117, R157) -/

theorem test_words_refused : (decode 0x1F000000 none, decode 0x19000000 none, decode 0x7F000000 none, decode 0x17000040 none,
    decode 0xA5600000 none) =
    (.error .unassigned, .error .missingTx, .error .strayTx, .error .reservedField, .error .wrongScope) := by rfl

theorem test_fclass_values : [classWord .fp32 0x40400000, classWord .fp32 0xFF800000, classWord .fp32 0x80000000,
    classWord .fp32 0x7FC00000, classWord .fp16 0x8001, classWord .e4m3 0xFF] = [0x12, 0x0B, 0x18, 0x24, 0x49, 0x0C] := by
  decide +kernel

/-! ### A launched kernel, and who has the turn -/

/-- The wave at a word of a run; the wave, the block sequencer and the grid sequencer outside one. -/
def runBench : State := { benchInRun State.reset (benchRun [0, 0]) 0 with turn := some (.wave 3) }
def waveBench : State := { benchState State.reset [] with turn := some (.wave 3) }
def blockBench : State := { benchState State.reset [] with turn := some (.block 2) }
def gridBench : State := { benchState State.reset [] with turn := some (.grid 1) }

def theWave (s : State) : Wave := s.waves.head?.getD (newWave benchGrid (benchBlock State.reset) 3 0 0 0 0 0)
def theBlock (s : State) : Block := s.blocks.head?.getD (benchBlock State.reset)
def theGrid (s : State) : Grid := s.grids.head?.getD benchGrid
def theContext (s : State) : Context := s.contexts.head?.getD benchContext

def onWave (s : State) (f : Wave → Wave) : State := { s with waves := s.waves.map f }
def onBlock (s : State) (f : Block → Block) : State := { s with blocks := s.blocks.map f }
def onGrid (s : State) (f : Grid → Grid) : State := { s with grids := s.grids.map f }
def onContext (s : State) (f : Context → Context) : State := { s with contexts := s.contexts.map f }

theorem waveTurn_of {s : State} {w : Wave} (h : (s.turn == some (.wave w.id) && s.wave? w.id == some w) = true) : WaveTurn s w := by
  simp only [Bool.and_eq_true, beq_iff_eq] at h; exact ⟨h.1, h.2⟩

theorem waveSeqTurn_of {s : State} {w : Wave}
    (h : (s.turn == some (.wave w.id) && s.wave? w.id == some w && w.run.isNone) = true) : WaveSeqTurn s w := by
  simp only [Bool.and_eq_true, beq_iff_eq, Option.isNone_iff_eq_none] at h; exact ⟨⟨h.1.1, h.1.2⟩, h.2⟩

theorem blockTurn_of {s : State} {b : Block} (h : (s.turn == some (.block b.id) && s.block? b.id == some b) = true) :
    BlockTurn s b := by
  simp only [Bool.and_eq_true, beq_iff_eq] at h; exact ⟨h.1, h.2⟩

theorem gridTurn_of {s : State} {g : Grid} (h : (s.turn == some (.grid g.id) && s.grid? g.id == some g) = true) :
    GridTurn s g := by
  simp only [Bool.and_eq_true, beq_iff_eq] at h; exact ⟨h.1, h.2⟩

/-! ### Thread-set instructions: every instruction's operands are ready somewhere (R90, R102, R109, R111, R117) -/

def operandsB (w : Wave) (reads writes : List VField) : Bool :=
  w.run.isSome && (reads ++ writes).all (fun o => o.even && o.fields.all fun f => fieldLegal w f && !fieldPending w f) &&
  reads.all (fun o => !operandStale w o && !operandBad w o) &&
  (w.badPreds.isEmpty && w.rest == 0 && decide (w.hits = noHits))

theorem operands_of {w : Wave} {r o : List VField} (h : operandsB w r o = true) : OperandsReady w r o := by
  simp only [operandsB, Bool.and_eq_true, List.all_eq_true, Bool.not_eq_true'] at h
  obtain ⟨⟨⟨hr, ha⟩, hb⟩, ⟨hp, hw⟩, hh⟩ := h
  exact ⟨hr, fun x hx => (ha x hx).1, fun x hx f hf => ((ha x hx).2 f hf).1, fun x hx f hf => ((ha x hx).2 f hf).2,
    fun x hx => (hb x hx).1, fun x hx => (hb x hx).2, fun q hq => by simp [List.isEmpty_iff.mp hp] at hq, by simpa using hw,
    by simpa using hh⟩

/-- The hypotheses of `Computes`. -/
def Met (i : Instr) (c : Arith) : Prop :=
  ∃ s w, WaveTurn s w ∧ staticLegal i = true ∧ OperandsReady w c.reads c.writes ∧
    (∀ q ∈ c.results w, q.2.1 ≤ shapeRank (fieldRow w q.1)) ∧ (c.quiet = true ∨ watchOn s w = none)

def metB (i : Instr) (c : Arith) : Bool :=
  let w := theWave runBench
  staticLegal i && operandsB w c.reads c.writes && (c.results w).all (fun q => decide (q.2.1 ≤ shapeRank (fieldRow w q.1)))

theorem runBench_turn : WaveTurn runBench (theWave runBench) := waveTurn_of (by decide +kernel)
theorem runBench_unwatched : watchOn runBench (theWave runBench) = none := by decide +kernel

theorem met_of {i : Instr} {c : Arith} (h : metB i c = true) : Met i c := by
  simp only [metB, Bool.and_eq_true, List.all_eq_true, decide_eq_true_eq] at h
  exact ⟨runBench, theWave runBench, runBench_turn, h.1.1, operands_of h.1.2, h.2, .inr runBench_unwatched⟩

theorem all_met {α : Type} {l : List α} {i : α → Instr} {c : α → Arith} (h : (l.all fun e => metB (i e) (c e)) = true) :
    ∀ e ∈ l, Met (i e) (c e) := fun e he => met_of (List.all_eq_true.mp h e he)

def fR : TR := ⟨2, 4, 6, 7, 0⟩
def f1 : T1 := ⟨2, 4, 7, 0⟩
def fI : TI := ⟨2, 4, 31, 0⟩
def fX : TX := ⟨8, 0, 0⟩

theorem witness_intTwo : ∀ e ∈ intTwoTable, Met (e.1 fR) (intTwo e.2.1 e.2.2 fR) := all_met (by decide +kernel)
theorem witness_intOne : ∀ e ∈ intOneTable, Met (e.1 f1) (intOne .perThread e.2 f1) := all_met (by decide +kernel)
theorem witness_immediates : ∀ e ∈ intImmediateTable, Met (e.1 fI) (intImmediate e.2.1 e.2.2 fI) := all_met (by decide +kernel)
theorem witness_movi : Met (.movi 2 511 0) (moveImmediate 2 511 0) := met_of (by decide +kernel)
theorem witness_shift_of_32 : WaveTurn runBench (theWave runBench) ∧ 32 ≤ (⟨0, 0, 32, 0⟩ : TI).i.toNat :=
  ⟨runBench_turn, by decide⟩
theorem witness_lea64 : Met (.lea64 fR) (intPair 1 fR [pairAt fR.a, single fR.b] (fun w => pairRows w fR.a ++ [fieldRow w fR.b])
    fun w i => pairValue w fR.a i + twos64 (rowAt (fieldRow w fR.b) i).toInt) := met_of (by decide +kernel)
theorem witness_iadd64 : Met (.iadd64 fR) (intPair 1 fR [pairAt fR.a, pairAt fR.b]
    (fun w => pairRows w fR.a ++ pairRows w fR.b) fun w i => pairValue w fR.a i + pairValue w fR.b i) := met_of (by decide +kernel)
theorem witness_imad : Met (.imad fR) (intMany 1 fR [fR.a, fR.b, fR.d] fun w i =>
    rowAt (fieldRow w fR.a) i * rowAt (fieldRow w fR.b) i + rowAt (fieldRow w fR.d) i) ∧
    Met (.imadTx fR ⟨7, 0, 0⟩) (intMany 2 fR [fR.a, fR.b, 7] fun w i =>
      rowAt (fieldRow w fR.a) i * rowAt (fieldRow w fR.b) i + rowAt (fieldRow w 7) i) :=
  ⟨met_of (by decide +kernel), met_of (by decide +kernel)⟩
theorem witness_imad_wide : ∀ m ∈ [1, 3], Met (.imadTx fR ⟨8, m, 0⟩) (intPair 2 fR [single fR.a, single fR.b, pairAt 8]
    (fun w => [fieldRow w fR.a, fieldRow w fR.b] ++ pairRows w 8) fun w i =>
      (if m.getLsbD 1 then twos64 ((rowAt (fieldRow w fR.a) i).toInt * (rowAt (fieldRow w fR.b) i).toInt)
        else (rowAt (fieldRow w fR.a) i).toNat * (rowAt (fieldRow w fR.b) i).toNat) + pairValue w 8 i) :=
  all_met (by decide +kernel)
theorem witness_bfe : Met (.bfe ⟨2, 4, 0, 7, 0⟩ ⟨0, 0, 2016⟩) (intMany 2 ⟨2, 4, 0, 7, 0⟩ [4] fun w i =>
    wordOfBits (bfeBit ⟨0, 0, 2016⟩ (rowAt (fieldRow w 4) i))) := met_of (by decide +kernel)
theorem witness_bfi : Met (.bfi fR ⟨0, 0, 31⟩) (intMany 2 fR [fR.a, fR.b] fun w i =>
    wordOfBits (bfiBit ⟨0, 0, 31⟩ (rowAt (fieldRow w fR.a) i) (rowAt (fieldRow w fR.b) i))) := met_of (by decide +kernel)
theorem witness_mov : Met (.mov f1) (intOne .same (fun x => x) f1) := met_of (by decide +kernel)
theorem witness_movs : ∀ a ∈ [0, 31, 33], Met (.movs 2 a 0 7 0) (moveSequencer 2 a 0 7 0) := all_met (by decide +kernel)
theorem witness_sel : Met (.sel fR) (selectThreads fR) := met_of (by decide +kernel)
theorem witness_fpTwo : ∀ e ∈ fpTwoTable,
    Met (e.1 fR) (fpMany e.2.1 1 e.2.2.1 fR.d fR.g fR.s [fR.a, fR.b] (onTwo (e.2.2.2 e.2.1))) := all_met (by decide +kernel)
theorem witness_fpTwoTx : ∀ e ∈ fpTwoTxTable, Met (e.1 fR ⟨0, 3, 0⟩)
    (fpMany .fp32 2 e.2.1 fR.d fR.g fR.s [fR.a, fR.b] (onTwo (e.2.2 (modeOf ⟨0, 3, 0⟩)))) := all_met (by decide +kernel)
theorem witness_fpThree : (∀ e ∈ fpThreeTable, Met (e.1 fR)
      (fpMany e.2.2 1 0 fR.d fR.g fR.s [fR.a, fR.b, fR.d] (onThree (fpFma e.2.2 .rne)))) ∧
    ∀ e ∈ fpThreeTable, Met (e.2.1 fR fX) (fpMany e.2.2 2 0 fR.d fR.g fR.s [fR.a, fR.b, fX.c] (onThree (fpFma e.2.2 (modeOf fX)))) :=
  ⟨all_met (by decide +kernel), all_met (by decide +kernel)⟩
theorem witness_fpPacked : ∀ e ∈ fpPackedTable, Met (e.1 fR) (fpPacked 1 fR [fR.a, fR.b] (onTwo (e.2.2 e.2.1))) :=
  all_met (by decide +kernel)
theorem witness_fpPackedFma : Met (.hfma2 fR) (fpPacked 1 fR [fR.a, fR.b, fR.d] (onThree (fpFma .fp16 .rne))) ∧
    Met (.bfma2 fR) (fpPacked 1 fR [fR.a, fR.b, fR.d] (onThree (fpFma .bf16 .rne))) ∧
    Met (.hfma2Tx fR fX) (fpPacked 2 fR [fR.a, fR.b, fX.c] (onThree (fpFma .fp16 .rne))) ∧
    Met (.bfma2Tx fR fX) (fpPacked 2 fR [fR.a, fR.b, fX.c] (onThree (fpFma .bf16 .rne))) :=
  ⟨met_of (by decide +kernel), met_of (by decide +kernel), met_of (by decide +kernel), met_of (by decide +kernel)⟩
theorem witness_fpDouble : (∀ e ∈ fpDoubleTable, Met (e.1 fR) (fpDouble 1 e.2.1 fR.d fR.g fR.s [fR.a, fR.b] (onTwo e.2.2))) ∧
    ∀ e ∈ fpDoubleTxTable, Met (e.1 fR ⟨0, 1, 0⟩)
      (fpDouble 2 e.2.1 fR.d fR.g fR.s [fR.a, fR.b] (onTwo (e.2.2 (modeOf ⟨0, 1, 0⟩)))) :=
  ⟨all_met (by decide +kernel), all_met (by decide +kernel)⟩
theorem witness_dfma : Met (.dfma fR) (fpDouble 1 1 fR.d fR.g fR.s [fR.a, fR.b, fR.d] (onThree (fpFma .fp64 .rne))) ∧
    Met (.dfmaTx fR fX) (fpDouble 2 1 fR.d fR.g fR.s [fR.a, fR.b, fX.c] (onThree (fpFma .fp64 (modeOf fX)))) ∧
    Met (.dabs f1) (fpDouble 1 1 f1.d f1.g f1.s [f1.a] fun l =>
      ⟨if isNaN .fp64 (l.getD 0 0) then 0x7FF8000000000000 else l.getD 0 0 % 2 ^ 63, 0⟩) :=
  ⟨met_of (by decide +kernel), met_of (by decide +kernel), met_of (by decide +kernel)⟩
theorem witness_special : ∀ e ∈ specialTable,
    Met (e.1 f1) (fpMany .fp32 1 e.2.1 f1.d f1.g f1.s [f1.a] fun l => e.2.2 (l.getD 0 0)) := all_met (by decide +kernel)
theorem witness_classifies : ∀ b ∈ [0, 1, 2, 3, 4], Met (.fclass ⟨2, 4, b, 7, 0⟩)
    (intMany 1 ⟨2, 4, b, 7, 0⟩ [4] fun w i => rowAt (fieldRow w 4) i) := all_met (by decide +kernel)
theorem witness_fclass_formats : classFormats[(4 : BitVec 6).toNat]? = some .e5m2 ∧ 5 ≤ (5 : BitVec 6).toNat ∧
    WaveTurn runBench (theWave runBench) := ⟨by decide, by decide, runBench_turn⟩

/-- The forms of R161, each with its element and packing. -/
def conversionForms : List ((TR → TX → Instr) × TR × TX) :=
  [(.cvtf, ⟨2, 4, 0, 7, 0⟩, ⟨0, 0, 1⟩), (.cvtf, ⟨2, 4, 0, 7, 0⟩, ⟨0, 0, 16⟩), (.cvtf, fR, ⟨0, 1, 33⟩),
   (.cvtf, ⟨2, 4, 0, 7, 0⟩, ⟨0, 6, 20⟩), (.cvtfi, ⟨2, 4, 0, 7, 0⟩, ⟨0, 0, 0x61⟩), (.cvtif, ⟨2, 4, 0, 7, 0⟩, ⟨0, 6, 7⟩),
   (.cvtii, ⟨2, 4, 0, 7, 0⟩, ⟨0, 0, 0x86⟩)]

theorem witness_conversions : ∀ e ∈ conversionForms, Met (e.1 e.2.1 e.2.2) (conversion e.2.1 e.2.2) := all_met (by decide +kernel)
theorem witness_quantise : Met (.qenc fR ⟨0, 7, 0⟩) (quantEncode fR ⟨0, 7, 0⟩) ∧ Met (.qdec fR ⟨0, 7, 0⟩) (quantDecode fR ⟨0, 7, 0⟩) :=
  ⟨met_of (by decide +kernel), met_of (by decide +kernel)⟩

/-- The hypotheses of `Combines`. -/
def combinesB (i : Instr) (reads : List VField) : Bool := staticLegal i && operandsB (theWave runBench) reads []

theorem runBench_sized : WaveSized (theWave runBench) := by constructor <;> decide +kernel

theorem witness_compares : (∀ e ∈ compareTable, ∀ c ∈ [0, 1, 2, 3, 4, 5, 6], let f : TC := ⟨1, 2, 4, 6, c, 0⟩
      ∃ s w, WaveTurn s w ∧ WaveSized w ∧ staticLegal (e.1 f) = true ∧ OperandsReady w (e.2 f).reads []) ∧
    ∃ s w, WaveTurn s w ∧ WaveSized w ∧ staticLegal (.plop 1 7 2 3 6 1 0) = true ∧ OperandsReady w [] [] := by
  have h : (compareTable.all fun e => ([0, 1, 2, 3, 4, 5, 6] : List (BitVec 3)).all fun c =>
      combinesB (e.1 ⟨1, 2, 4, 6, c, 0⟩) (e.2 ⟨1, 2, 4, 6, c, 0⟩).reads) = true := by decide +kernel
  refine ⟨fun e he c hc => ?_, runBench, theWave runBench, runBench_turn, runBench_sized, by decide, operands_of (by decide +kernel)⟩
  have := List.all_eq_true.mp (List.all_eq_true.mp h e he) c hc
  simp only [combinesB, Bool.and_eq_true] at this
  exact ⟨runBench, theWave runBench, runBench_turn, runBench_sized, this.1, operands_of this.2⟩

theorem witness_crossLane : (∀ b ∈ [1, 31, 32, 33, 38], Met (.xrot ⟨2, 4, b, 7, 0⟩) (crossLane ⟨2, 4, b, 7, 0⟩ [single 4]
      (fun w => resultRank .perThread [fieldRow w 4]) fun _ i => (i + 1) % 64)) ∧
    (∀ b ∈ [1, 31, 33, 38], Met (.xbfly ⟨2, 4, b, 7, 0⟩) (crossLane ⟨2, 4, b, 7, 0⟩ [single 4]
      (fun w => resultRank .perThread [fieldRow w 4]) fun _ i => i)) ∧
    (∀ b ∈ [1, 16, 32, 38], Met (.xrev ⟨2, 4, b, 7, 0⟩) (crossLane ⟨2, 4, b, 7, 0⟩ [single 4]
      (fun w => resultRank .perThread [fieldRow w 4]) fun _ i => i)) ∧
    Met (.xbcast fR) (crossLane fR [single fR.a, single fR.b] (fun _ => 1) fun w _ => (rowAt (fieldRow w fR.b) 0).toNat % 64) ∧
    Met (.xperm fR) (crossLane fR [single fR.a, single fR.b] (fun w => resultRank .perThread [fieldRow w fR.a])
      fun w i => (rowAt (fieldRow w fR.b) i).toNat % 64) :=
  ⟨all_met (by decide +kernel), all_met (by decide +kernel), all_met (by decide +kernel), met_of (by decide +kernel),
   met_of (by decide +kernel)⟩
theorem witness_distances : crossDistance 31 = some 31 ∧ crossDistance 32 = some 64 ∧ crossDistance 38 = some 1 := by decide

theorem witness_reduce : (∀ x ∈ [(⟨0, 0, 0⟩ : TX), ⟨0, 10, 5⟩], Met (.redx ⟨2, 4, 0, 7, 0⟩ x)
      (groupTree ⟨2, 4, 0, 7, 0⟩ (if groupSize x = 64 then 1 else 3) (fun _ _ => 0) fun _ _ => 0)) ∧
    ∀ x ∈ [(⟨0, 0, 0⟩ : TX), ⟨0, 26, 5⟩], Met (.scanx ⟨2, 4, 0, 7, 0⟩ x) (groupTree ⟨2, 4, 0, 7, 0⟩ 3 (fun _ _ => 0) fun _ _ => 0) :=
  ⟨all_met (by decide +kernel), all_met (by decide +kernel)⟩

/-! ### Numbers (R31 to R47, R155 to R158) -/

theorem value_of {f : FpFormat} {c : Nat} {s : Bool} {m : Nat} {e : Int} (h : fpDecode f c = .num s m e) :
    valueOf f c = some ((if s then -1 else 1) * m * (2 : ℚ) ^ e) := by simp [valueOf, h, rationalOf]

theorem one_two_three : valueOf .fp32 0x3F800000 = some 1 ∧ valueOf .fp32 0x40000000 = some 2 ∧ valueOf .fp32 0x40400000 = some 3 := by
  refine ⟨?_, ?_, ?_⟩
  · rw [value_of (s := false) (m := 8388608) (e := -23) (by decide +kernel)]; norm_num
  · rw [value_of (s := false) (m := 8388608) (e := -22) (by decide +kernel)]; norm_num
  · rw [value_of (s := false) (m := 12582912) (e := -22) (by decide +kernel)]; norm_num

theorem finite_of {f : FpFormat} {c : Nat} {s : Bool} {m : Nat} {e : Int} (hc : c < 2 ^ fmtWidth f)
    (h : fpDecode f c = .num s m e) : isFiniteCode f c := ⟨hc, s, m, e, h⟩

theorem witness_rounds : rationalOf (.num true 5 (-1)) = some (-5 / 2) ∧
    (roundResult .fp32 .rne false .ieee true 5 (-1)).flags.getLsbD 2 = false := by
  refine ⟨by simp [rationalOf]; norm_num, by decide +kernel⟩

theorem witness_exact : isFiniteCode .fp32 0x40400000 ∧ isFiniteCode .fp32 0x3F800000 ∧ isFiniteCode .fp32 0x40000000 ∧
    valueOf .fp32 0x40400000 = some 3 ∧ valueOf .fp32 0x3F800000 = some 1 ∧ valueOf .fp32 0x40000000 = some 2 ∧
    (rationalOf (.num false 1 2) = some 4 ∧ (4 : ℚ) = 3 + 1) ∧ (rationalOf (.num false 1 1) = some 2 ∧ (2 : ℚ) = 3 - 1) ∧
    (rationalOf (.num false 3 0) = some 3 ∧ (3 : ℚ) = 3 * 1) ∧ (rationalOf (.num false 5 0) = some 5 ∧ (5 : ℚ) = 3 * 1 + 2) := by
  refine ⟨finite_of (s := false) (m := 12582912) (e := -22) (by decide) (by decide +kernel),
    finite_of (s := false) (m := 8388608) (e := -23) (by decide) (by decide +kernel),
    finite_of (s := false) (m := 8388608) (e := -22) (by decide) (by decide +kernel),
    one_two_three.2.2, one_two_three.1, one_two_three.2.1, ?_, ?_, ?_, ?_⟩ <;> constructor <;> norm_num [rationalOf]

theorem witness_specialOperands : ∀ f ∈ [FpFormat.fp64, .fp32, .fp16, .bf16], ∃ c a,
    (c < 2 ^ fmtWidth f ∧ isNaN f c = false ∧ isSubnormal f c = false) ∧
    (isFiniteCode f a ∧ isSubnormal f a = false ∧ a % signBit f ≠ 0) ∧
    ∃ n, n < 2 ^ fmtWidth f ∧ isNaN f n = true := by
  intro f hf
  refine ⟨0, 2 ^ fracBits f, ?_, ⟨?_, ?_, ?_⟩, canonNaN f, ?_, ?_⟩ <;> simp at hf <;> rcases hf with rfl | rfl | rfl | rfl
  all_goals first
    | decide +kernel
    | exact ⟨by decide, _, _, _, rfl⟩

theorem witness_specialFunctions : isNaN .fp32 (0x7F800001 : Word).toNat = true ∧
    (∃ x : Word, isFiniteCode .fp32 x.toNat ∧ valueOf .fp32 x.toNat = some ((-126 : ℤ) : ℚ)) ∧
    (∃ x : Word, isFiniteCode .fp32 x.toNat ∧ valueOf .fp32 x.toNat = some ((2 : ℚ) ^ (-126 : ℤ))) ∧
    (∃ x : Word, isFiniteCode .fp32 x.toNat ∧ valueOf .fp32 x.toNat = some ((4 : ℚ) ^ (-63 : ℤ))) ∧
    ∃ x : Word, isFiniteCode .fp32 x.toNat ∧ valueOf .fp32 x.toNat = some (-1) ∧ (-1 : ℚ) < 0 := by
  refine ⟨by decide +kernel, ⟨0xC2FC0000, ⟨by decide, _, _, _, rfl⟩, ?_⟩, ⟨0x00800000, ⟨by decide, _, _, _, rfl⟩, ?_⟩,
    ⟨0x00800000, ⟨by decide, _, _, _, rfl⟩, ?_⟩, 0xBF800000, ⟨by decide, _, _, _, rfl⟩, ?_, by norm_num⟩
  · rw [value_of (s := true) (m := 16515072) (e := -17) (by decide +kernel)]; norm_num
  · rw [value_of (s := false) (m := 8388608) (e := -149) (by decide +kernel)]; norm_num
  · rw [value_of (s := false) (m := 8388608) (e := -149) (by decide +kernel)]; norm_num
  · rw [value_of (s := true) (m := 8388608) (e := -23) (by decide +kernel)]; norm_num

theorem witness_conversionValues :
    (∀ e ∈ ([(.fp32, .fp64), (.fp16, .fp32), (.bf16, .fp32), (.e4m3, .fp32), (.e5m2, .fp32)] : List (FpFormat × FpFormat)),
      canonNaN e.1 < 2 ^ fmtWidth e.1 ∧ isNaN e.1 (canonNaN e.1) = true ∧ isFiniteCode e.1 1) ∧
    (valueOf .fp32 0x40000000 = some 2 ∧ (2 : ℚ) ^ (1 - 1) ≤ 2) ∧
    (valueOf .fp32 0xC0400000 = some (-3) ∧ (-3 : ℚ) ≤ -(2 : ℚ) ^ (2 - 1) - 1) ∧
    (valueOf .fp32 0x40400000 = some 3 ∧ (3 : ℚ) = (3 : ℤ) ∧ -2 ^ (3 - 1) ≤ (3 : ℤ) ∧ (3 : ℤ) ≤ 2 ^ (3 - 1) - 1) := by
  refine ⟨?_, ⟨one_two_three.2.1, by norm_num⟩, ⟨?_, by norm_num⟩, one_two_three.2.2, by norm_num, by norm_num, by norm_num⟩
  · intro e he
    simp at he
    rcases he with rfl | rfl | rfl | rfl | rfl <;>
      exact ⟨by decide +kernel, by decide +kernel, ⟨by decide, _, _, _, rfl⟩⟩
  · rw [value_of (s := true) (m := 12582912) (e := -22) (by decide +kernel)]; norm_num

theorem witness_modes : (∀ m ∈ [RoundMode.rne, .rtz, .rup, .rdn], overflows .fp32 m (2 ^ 128) ∧ overflows .fp32 m (-2 ^ 128) ∧
      ¬ overflows .fp32 m 1) ∧ rationalOf (.num false 1 128) = some (2 ^ 128) ∧ rationalOf (.num true 1 128) = some (-2 ^ 128) ∧
    rationalOf (.num false 1 0) = some 1 := by
  refine ⟨fun m h => ?_, by norm_num [rationalOf], by norm_num [rationalOf], by norm_num [rationalOf]⟩
  fin_cases h <;> norm_num [overflows, aboveAll, topUlp, expBias, fracBits, abs]

/-- Results that flush and that do not, a NaN and a subnormal, and two zeros (R40, R42). -/
theorem witness_flush : (∀ f ∈ [FpFormat.fp16, .bf16], let tiny : ℚ := (2 : ℚ) ^ (1 - (expBias f : ℤ)) -
      (2 : ℚ) ^ (-1 - (expBias f : ℤ) - fracBits f); |(2 : ℚ) ^ (-150 : ℤ)| < tiny ∧ tiny ≤ |(1 : ℚ)|) ∧
    rationalOf (.num false 1 (-150)) = some ((2 : ℚ) ^ (-150 : ℤ)) ∧
    ∀ f ∈ [FpFormat.fp64, .fp32, .fp16, .bf16], isNaN f (canonNaN f) = true ∧ canonNaN f < 2 ^ fmtWidth f ∧ isNaN f 0 = false ∧
      valueOf f (readAs f 0) = some 0 ∧ valueOf f (readAs f (signBit f)) = some 0 ∧ readAs f 0 ≠ readAs f (signBit f) ∧
      signBit f < 2 ^ fmtWidth f := by
  refine ⟨fun f h => ?_, by norm_num [rationalOf], fun f h => ?_⟩
  · fin_cases h <;> norm_num [expBias, fracBits, abs]
  · have z : ∀ s e, rationalOf (.num s 0 e) = some 0 := fun s e => by simp [rationalOf]
    fin_cases h <;> refine ⟨by decide +kernel, by decide +kernel, by decide +kernel, z _ _, z _ _, by decide +kernel,
      by decide +kernel⟩

theorem half : valueOf .fp32 0x3F000000 = some (1 / 2) := by
  rw [value_of (s := false) (m := 8388608) (e := -24) (by decide +kernel)]; norm_num

theorem witness_specialEnds : (∀ c ∈ [0x43000000, 0xC3000000, 0xC3160000, 0x3F000000, 0xC0000000], isFiniteCode .fp32 c) ∧
    (valueOf .fp32 0x43000000 = some ((128 : ℤ) : ℚ) ∧ valueOf .fp32 0xC3000000 = some ((-128 : ℤ) : ℚ) ∧
      valueOf .fp32 0xC3160000 = some ((-150 : ℤ) : ℚ)) ∧ valueOf .fp32 0x3F000000 = some (((0 : ℤ) : ℚ) + 1 / 2) ∧
    valueOf .fp32 0xC0000000 = some ((if true then -1 else 1) * (2 : ℚ) ^ (1 : ℤ)) := by
  refine ⟨fun c h => ?_, ⟨?_, ?_, ?_⟩, by rw [half]; norm_num, ?_⟩
  · fin_cases h <;> exact ⟨by decide, _, _, _, rfl⟩
  · rw [value_of (s := false) (m := 8388608) (e := -16) (by decide +kernel)]; norm_num
  · rw [value_of (s := true) (m := 8388608) (e := -16) (by decide +kernel)]; norm_num
  · rw [value_of (s := true) (m := 9830400) (e := -16) (by decide +kernel)]; norm_num
  · rw [value_of (s := true) (m := 8388608) (e := -22) (by decide +kernel)]; norm_num

theorem witness_bounds : (isFiniteCode .fp32 0x3F800000 ∧ valueOf .fp32 0x3F800000 = some 1 ∧ (0 : ℚ) < 1) ∧
    (fpQuickRecip 0x3F800000).flags.getLsbD 2 = false ∧ rationalOf (.num false 1 0) = some 1 ∧
    ∀ op x, (specialDeliver op x ⟨false, 1, 0⟩ 1 false).flags.getLsbD 2 = false := by
  refine ⟨⟨finite_of (s := false) (m := 8388608) (e := -23) (by decide) (by decide +kernel), one_two_three.1, by norm_num⟩,
    by decide +kernel, by norm_num [rationalOf], fun op x => ?_⟩
  have h : refRound ⟨false, 1, 0⟩ = ⟨0x3F800000, 0⟩ := by decide +kernel
  simp only [specialDeliver, h, specialFlags]
  split_ifs <;> simp_all [flagOF, flagIX, flagUF]

/-! ### Memory instructions: a page for data, and addresses 16 bytes apart (R119 to R136) -/

/-- One GiB at virtual address 0x80000000 that may be read and written (R14, R18). -/
def withData (s : State) : State := { s with hbm := writeBytes s.hbm 0x3010 (leBytes 8 0x80000017) }

/-- Threads 0 and 63 are active; v8 and v9 hold thread i's address in the page, v10 its address in scratchpad, v2 the bytes of a
copy. -/
def dataBench : State := onWave (withData runBench) fun w => { w with exec := 0x8000000000000001, v := (((w.v.set 8 (.g ((List.range 64).map fun i =>
  BitVec.ofNat 32 (0x80000000 + 16 * i)))).set 10 (.g ((List.range 64).map fun i => BitVec.ofNat 32 (16 * i)))).set 2 (.u 8)) }

def dataWave : Wave := theWave dataBench
def dataBlock : Block := theBlock dataBench
def dataStanding : Standing := ⟨benchContext, 0, 0, 0⟩

theorem dataBench_turn : WaveTurn dataBench dataWave := waveTurn_of (by decide +kernel)
theorem dataBench_memories : MemoriesWf dataBench := by constructor <;> decide +kernel

theorem each_of {p q : Nat → Bool} (h : ((List.range 64).all fun i => !p i || q i) = true) :
    ∀ i, i < 64 → p i = true → q i = true := fun i hi hp => by
  have := List.all_eq_true.mp h i (List.mem_range.mpr hi)
  simpa [hp] using this

/-- Where a thread's access goes in the data bench. -/
def dataPlace (addr : Nat → Nat) (k : Access) (i : Nat) : Place :=
  match translate dataBench benchContext 0 (BitVec.ofNat 64 (addr i)) k with
  | .ok p => p
  | _ => ⟨⟨.hbm, 0⟩, 0⟩

def globalB (part : Mask) (addr : Nat → Nat) (size : Nat) (k : Access) : Bool :=
  (List.range 64).all fun i => !part.getLsbD i || (canonical (BitVec.ofNat 64 (addr i)) && addr i % size == 0 &&
    translate dataBench benchContext 0 (BitVec.ofNat 64 (addr i)) k == .ok (dataPlace addr k i) &&
    !placeChecked (dataPlace addr k i) && !farBad dataBench (dataPlace addr k i).loc size)

theorem global_of {part : Mask} {addr : Nat → Nat} {size : Nat} {k : Access} (h : globalB part addr size k = true) :
    GlobalAccess dataBench dataWave dataBlock dataStanding part addr size k (dataPlace addr k) := by
  have hi := each_of h
  simp only [Bool.and_eq_true, beq_iff_eq, Bool.not_eq_true'] at hi
  exact ⟨by decide +kernel, by rfl, fun i a b => (hi i a b).1.1.1.1, fun i a b => (hi i a b).1.1.1.2,
    fun i a b => (hi i a b).1.1.2, fun i a b => (hi i a b).1.2, fun i a b => (hi i a b).2, by decide +kernel⟩

def scratchB (part : Mask) (addr : Nat → Nat) (size : Nat) (write : Bool) : Bool :=
  (List.range 64).all fun i => !part.getLsbD i || (addr i % size == 0 && decide (addr i + size ≤ 4096 * dataBlock.granules) &&
    (scratchRacesOf dataBlock (dataBench.wavesOf dataBlock.id) (accessorWave dataBlock dataWave) write i (addr i) size).isEmpty &&
    (wordsOf (addr i) size).all fun x => !dataBlock.badWords.contains x)

theorem scratch_of {part : Mask} {addr : Nat → Nat} {size : Nat} {write : Bool} (h : scratchB part addr size write = true) :
    ScratchAccess dataBench dataWave dataBlock dataStanding part addr size write := by
  have hi := each_of h
  simp only [Bool.and_eq_true, beq_iff_eq, decide_eq_true_eq, List.isEmpty_iff, List.all_eq_true, Bool.not_eq_true'] at hi
  exact ⟨by decide +kernel, by rfl, by decide +kernel, fun i a b => (hi i a b).1.1.1, fun i a b => (hi i a b).1.1.2,
    fun i a b => (hi i a b).1.2, fun i a b => (hi i a b).2, by decide +kernel⟩

/-- A memory instruction of the data bench: fields, legal, operands ready, every thread's access as the statement asks. -/
def memoryB (i : Instr) (reads writes : List VField) : Bool := staticLegal i && operandsB dataWave reads writes

theorem memory_of {i : Instr} {r o : List VField} (h : memoryB i r o = true) :
    staticLegal i = true ∧ OperandsReady dataWave r o := by
  simp only [memoryB, Bool.and_eq_true] at h; exact ⟨h.1, operands_of h.2⟩

def fM : TR := ⟨12, 8, 0, 7, 0⟩
def fS : TR := ⟨12, 10, 0, 7, 0⟩
def dtX (dt : Nat) : TX := ⟨0, BitVec.ofNat 6 (4 * dt), 0⟩
def strongX (dt space : Nat) : TX := ⟨BitVec.ofNat 6 (8 * dt + 4 * space), 0, 0⟩

theorem witness_globalLoads : (∀ dt ∈ [0, 1, 2, 3, 4, 5, 6], staticLegal (.ld fM (dtX dt)) = true ∧
      OperandsReady dataWave (addressOperands true 8 0 0) (dtOperands dt 12) ∧ loadFits dataWave true fM (plainFields (dtX dt)) ∧
      GlobalAccess dataBench dataWave dataBlock dataStanding (memThreads dataWave 7)
        (accessAddress dataWave true 8 0 0 (dtBytes dt) 0) (dtBytes dt) .load
        (dataPlace (accessAddress dataWave true 8 0 0 (dtBytes dt) 0) .load)) ∧
    ∀ dt ∈ [4, 5], staticLegal (.sld fM (strongX dt 0)) = true ∧ (strongX dt 0).c.getLsbD 2 = false ∧
      OperandsReady dataWave (addressOperands true 8 0 0) (dtOperands dt 12) ∧
      loadFits dataWave true fM (strongFields (strongX dt 0)) := by
  constructor
  · intro dt h
    have := memory_of (i := .ld fM (dtX dt)) (r := addressOperands true 8 0 0) (o := dtOperands dt 12) (by
      fin_cases h <;> decide +kernel)
    exact ⟨this.1, this.2, .inr (by fin_cases h <;> decide +kernel), global_of (by fin_cases h <;> decide +kernel)⟩
  · intro dt h
    have := memory_of (i := .sld fM (strongX dt 0)) (r := addressOperands true 8 0 0) (o := dtOperands dt 12) (by
      fin_cases h <;> decide +kernel)
    exact ⟨this.1, by fin_cases h <;> decide, this.2, .inr (by fin_cases h <;> decide +kernel)⟩

/-- The same bench with its page in a format; thread 63 is at the last element of a unit. -/
def fmtBench (fmt : Nat) (last : Nat) : State :=
  onWave { dataBench with hbm := writeBytes dataBench.hbm 0x3010 (leBytes 8 (0x80000017 + 64 * fmt)) } fun w =>
    { w with v := w.v.set 8 (.g ((List.range 64).map fun i => BitVec.ofNat 32 (0x80000000 + if i = 63 then last else 0))) }

def fmtPlace (s : State) (va : Nat) : Place :=
  match translate s benchContext 0 (BitVec.ofNat 64 va) .load with
  | .ok p => p
  | _ => ⟨⟨.hbm, 0⟩, 0⟩

/-- Raw words, and elements of one byte of which a pair crosses into the following unit. -/
theorem witness_decodingLoads : ∀ e ∈ [(0, 0xFFF8), (3, 0xFFFF)], ∀ dt ∈ [7, 8],
    let s := fmtBench e.1 e.2
    let w := theWave s
    let a := accessAddress w true 8 0 0 (dtBytes dt) 0
    let n := wholeBytes e.1
    let next := fun i => if dt = 8 ∧ e.1 ≠ 0 ∧ n ≠ 0 ∧ a i % 65536 + n = 65536 then some (fmtPlace s (a i + n)) else none
    s.turn = some (.wave w.id) ∧ s.wave? w.id = some w ∧ staticLegal (.ld fM (dtX dt)) = true ∧
    OperandsReady w (addressOperands true 8 0 0) (dtOperands dt 12) ∧ loadFits w true fM (plainFields (dtX dt)) ∧
    s.block? w.block = some (theBlock s) ∧ waveStanding s w = some dataStanding ∧
    watchOn s w = none ∧ s.platform.badFar = [] ∧
    (∀ i, i < 64 → (memThreads w 7).getLsbD i = true → canonical (BitVec.ofNat 64 (a i)) = true ∧
      translate s benchContext 0 (BitVec.ofNat 64 (a i)) .load = .ok (fmtPlace s (a i)) ∧
      placeChecked (fmtPlace s (a i)) = false ∧ placeFmt (fmtPlace s (a i)) = e.1 ∧ e.1 < 8 ∧
      (if e.1 = 0 ∨ areaBytes e.1 ≤ a i % 65536 then a i % dtBytes dt = 0 else a i % max n 1 = 0)) ∧
    ∀ i, i < 64 → (memThreads w 7).getLsbD i = true → ∀ p, next i = some p →
      translate s benchContext 0 (BitVec.ofNat 64 (a i + n)) .load = .ok p ∧ placeChecked p = false ∧ placeFmt p = e.1 := by
  intro e he dt h
  fin_cases he <;> fin_cases h <;>
    refine ⟨by decide +kernel, by decide +kernel, by decide +kernel, operands_of (by decide +kernel), .inr (by decide +kernel),
      by decide +kernel, by rfl, by decide +kernel, by decide +kernel, by decide +kernel, fun i hi hp p hn => ?_⟩ <;>
    revert p hn <;> revert i <;> decide +kernel

theorem witness_scratchLoads : (∀ dt ∈ [0, 1, 2, 3, 4, 5, 6], staticLegal (.lds fS (dtX dt)) = true ∧
      OperandsReady dataWave (addressOperands false 10 0 0) (dtOperands dt 12) ∧ loadFits dataWave false fS (plainFields (dtX dt)) ∧
      ScratchAccess dataBench dataWave dataBlock dataStanding (memThreads dataWave 7)
        (accessAddress dataWave false 10 0 0 (dtBytes dt) 0) (dtBytes dt) false) ∧
    ∀ dt ∈ [4, 5], staticLegal (.sld fS (strongX dt 1)) = true ∧ (strongX dt 1).c.getLsbD 2 = true ∧
      OperandsReady dataWave (addressOperands false 10 0 0) (dtOperands dt 12) ∧
      loadFits dataWave false fS (strongFields (strongX dt 1)) := by
  constructor
  · intro dt h
    have := memory_of (i := .lds fS (dtX dt)) (r := addressOperands false 10 0 0) (o := dtOperands dt 12) (by
      fin_cases h <;> decide +kernel)
    exact ⟨this.1, this.2, .inr (by fin_cases h <;> decide +kernel), scratch_of (by fin_cases h <;> decide +kernel)⟩
  · intro dt h
    have := memory_of (i := .sld fS (strongX dt 1)) (r := addressOperands false 10 0 0) (o := dtOperands dt 12) (by
      fin_cases h <;> decide +kernel)
    exact ⟨this.1, by fin_cases h <;> decide, this.2, .inr (by fin_cases h <;> decide +kernel)⟩

theorem witness_globalStores : (∀ dt ∈ [0, 2, 4, 5, 6], staticLegal (.st fM (dtX dt)) = true ∧
      OperandsReady dataWave (dtOperands dt 12 ++ addressOperands true 8 0 0) [] ∧ MemoriesWf dataBench ∧
      GlobalAccess dataBench dataWave dataBlock dataStanding (memThreads dataWave 7)
        (accessAddress dataWave true 8 0 0 (dtBytes dt) 0) (dtBytes dt) .store
        (dataPlace (accessAddress dataWave true 8 0 0 (dtBytes dt) 0) .store)) ∧
    ∀ dt ∈ [4, 5], staticLegal (.sst fM (strongX dt 0)) = true ∧ (strongX dt 0).c.getLsbD 2 = false ∧
      OperandsReady dataWave (dtOperands dt 12 ++ addressOperands true 8 0 0) [] := by
  constructor
  · intro dt h
    have := memory_of (i := .st fM (dtX dt)) (r := dtOperands dt 12 ++ addressOperands true 8 0 0) (o := []) (by
      fin_cases h <;> decide +kernel)
    exact ⟨this.1, this.2, dataBench_memories, global_of (by fin_cases h <;> decide +kernel)⟩
  · intro dt h
    have := memory_of (i := .sst fM (strongX dt 0)) (r := dtOperands dt 12 ++ addressOperands true 8 0 0) (o := []) (by
      fin_cases h <;> decide +kernel)
    exact ⟨this.1, by fin_cases h <;> decide, this.2⟩

theorem witness_scratchStores : (∀ dt ∈ [0, 2, 4, 5, 6], staticLegal (.sts fS (dtX dt)) = true ∧
      OperandsReady dataWave (dtOperands dt 12 ++ addressOperands false 10 0 0) [] ∧ Memory.wf dataBlock.scratch = true ∧
      ScratchAccess dataBench dataWave dataBlock dataStanding (memThreads dataWave 7)
        (accessAddress dataWave false 10 0 0 (dtBytes dt) 0) (dtBytes dt) true) ∧
    ∀ dt ∈ [4, 5], staticLegal (.sst fS (strongX dt 1)) = true ∧ (strongX dt 1).c.getLsbD 2 = true ∧
      OperandsReady dataWave (dtOperands dt 12 ++ addressOperands false 10 0 0) [] := by
  constructor
  · intro dt h
    have := memory_of (i := .sts fS (dtX dt)) (r := dtOperands dt 12 ++ addressOperands false 10 0 0) (o := []) (by
      fin_cases h <;> decide +kernel)
    exact ⟨this.1, this.2, by decide +kernel, scratch_of (by fin_cases h <;> decide +kernel)⟩
  · intro dt h
    have := memory_of (i := .sst fS (strongX dt 1)) (r := dtOperands dt 12 ++ addressOperands false 10 0 0) (o := []) (by
      fin_cases h <;> decide +kernel)
    exact ⟨this.1, by fin_cases h <;> decide, this.2⟩

/-- A 64-bit add that returns, a 32-bit exchange that does not, and the widest compares. -/
theorem witness_globalAtomics : ∀ e ∈ [(Instr.atom ⟨12, 8, 14, 7, 0⟩ ⟨2, 0, 0⟩, atomForm ⟨12, 8, 14, 7, 0⟩ ⟨2, 0, 0⟩ true),
      (.atom ⟨0, 8, 14, 7, 0⟩ ⟨33, 0, 0⟩, atomForm ⟨0, 8, 14, 7, 0⟩ ⟨33, 0, 0⟩ true),
      (.cas ⟨12, 8, 14, 7, 0⟩ ⟨16, 0, 2048⟩, casForm ⟨12, 8, 14, 7, 0⟩ ⟨16, 0, 2048⟩ true)],
    let size := if e.2.wide then 8 else 4
    let addr := accessAddress dataWave true 8 0 0 1 e.2.off
    staticLegal e.1 = true ∧ OperandsReady dataWave e.2.reads (atomicWrites ⟨12, 8, 14, 7, 0⟩ e.2) ∧
    (∀ d ∈ atomicFields ⟨12, 8, 14, 7, 0⟩ e.2, shapeRank (fieldRow dataWave d) = 3) ∧
    GlobalAccess dataBench dataWave dataBlock dataStanding (memThreads dataWave 7) addr size .atomic (dataPlace addr .atomic) := by
  intro e h
  have := memory_of (i := e.1) (r := e.2.reads) (o := atomicWrites ⟨12, 8, 14, 7, 0⟩ e.2) (by fin_cases h <;> decide +kernel)
  exact ⟨this.1, this.2, by fin_cases h <;> decide +kernel, global_of (by fin_cases h <;> decide +kernel)⟩

theorem witness_scratchAtomics : ∀ e ∈ [(Instr.atoms ⟨12, 10, 14, 7, 0⟩ ⟨2, 0, 0⟩, atomForm ⟨12, 10, 14, 7, 0⟩ ⟨2, 0, 0⟩ false),
      (.cass ⟨12, 10, 14, 7, 0⟩ ⟨16, 0, 2048⟩, casForm ⟨12, 10, 14, 7, 0⟩ ⟨16, 0, 2048⟩ false)],
    let size := if e.2.wide then 8 else 4
    let addr := accessAddress dataWave false 10 0 0 1 e.2.off
    staticLegal e.1 = true ∧ OperandsReady dataWave e.2.reads (atomicWrites ⟨12, 10, 14, 7, 0⟩ e.2) ∧
    (∀ d ∈ atomicFields ⟨12, 10, 14, 7, 0⟩ e.2, shapeRank (fieldRow dataWave d) = 3) ∧
    ScratchAccess dataBench dataWave dataBlock dataStanding (memThreads dataWave 7) addr size true := by
  intro e h
  have := memory_of (i := e.1) (r := e.2.reads) (o := atomicWrites ⟨12, 10, 14, 7, 0⟩ e.2) (by fin_cases h <;> decide +kernel)
  exact ⟨this.1, this.2, by fin_cases h <;> decide +kernel, scratch_of (by fin_cases h <;> decide +kernel)⟩

theorem witness_fence : staticLegal (.fence ⟨0, 0, 0, 0, 0⟩ ⟨0, 37, 0⟩) = true ∧ OperandsReady dataWave [] [] ∧
    dataBench.block? dataWave.block = some dataBlock ∧ waveStanding dataBench dataWave = some dataStanding :=
  ⟨by decide, operands_of (by decide +kernel), by decide +kernel, by rfl⟩

/-- Thread i's source in the copies of the data bench. -/
def dataPieces (i : Nat) : List (Touch × Stretch) :=
  match translateStretch dataBench benchContext 0 (BitVec.ofNat 64 (0x80000000 + 16 * i)) 8 .copyRead with
  | .ok l => l
  | _ => []

def dataPiecesOk (i : Nat) : Bool :=
  match translateStretch dataBench benchContext 0 (BitVec.ofNat 64 (0x80000000 + 16 * i)) 8 .copyRead with
  | .ok _ => true
  | _ => false

theorem dataPieces_of {i : Nat} (h : dataPiecesOk i = true) :
    translateStretch dataBench benchContext 0 (BitVec.ofNat 64 (0x80000000 + 16 * i)) 8 .copyRead = .ok (dataPieces i) := by
  simp only [dataPiecesOk] at h
  simp only [dataPieces]
  split at h <;> simp_all

theorem witness_copies : let f : TR := ⟨10, 8, 2, 7, 0⟩
    let x : TX := ⟨0, 39, 0⟩
    staticLegal (.cpa f x) = true ∧ OperandsReady dataWave [single f.d, pairAt f.a, single f.b] [] ∧
    dataWave.tagCounts.getD 7 0 + 64 ≤ 4095 ∧
    ∀ i, i < 64 → (memThreads dataWave 7).getLsbD i = true →
      (canonical (BitVec.ofNat 64 (0x80000000 + 16 * i)) = true ∧ accessAddress dataWave true 8 0 0 1 0 i = 0x80000000 + 16 * i ∧
        (rowAt (fieldRow dataWave f.d) i).toNat % 16 = 0 ∧ (rowAt (fieldRow dataWave f.d) i).toNat + 16 ≤ 4096 * dataBlock.granules ∧
        (rowAt (fieldRow dataWave f.b) i).toNat = 8 ∧
        translateStretch dataBench benchContext 0 (BitVec.ofNat 64 (0x80000000 + 16 * i)) 8 .copyRead = .ok (dataPieces i) ∧
        ∀ p ∈ dataPieces i, p.1.checked = false ∧ farBad dataBench p.1.loc p.1.len = false) := by
  refine ⟨by decide, operands_of (by decide +kernel), by decide +kernel, fun i hi hp => ?_⟩
  have h : i = 0 ∨ i = 63 := by revert i; decide +kernel
  rcases h with rfl | rfl <;>
    exact ⟨by decide +kernel, by decide +kernel, by decide +kernel, by decide +kernel, by decide +kernel,
      dataPieces_of (by decide +kernel), by decide +kernel⟩

/-! ### Votes and full/empty registers (R97, R138, R172 to R176) -/

theorem runBench_block : runBench.block? (theWave runBench).block = some (theBlock runBench) := by decide +kernel

theorem witness_waveVotes : staticLegal (.vote 3 2 1 2 0) = true ∧ OperandsReady (theWave runBench) [] [] ∧
    condPending (theWave runBench) 3 = false ∧ (runBench.ctx? (theBlock runBench).ctx).isSome = true ∧
    ¬ voteSplit 2 (theWave runBench).exec (predMask (theWave runBench) 2) ∧ voteSplit 2 3 1 := by
  refine ⟨by decide, operands_of (by decide +kernel), by decide +kernel, by decide +kernel, ?_, rfl, 0, 1, by decide⟩
  rintro ⟨-, i, j, -, -, -, -, h⟩
  exact h (by rw [show predMask (theWave runBench) 2 = 0 from by decide +kernel]; simp)

/-- The instance in progress: delivered by the wave itself, by another wave, or by nobody. -/
def voteBench (ws gs : List Nat) : State := onBlock runBench fun b =>
  { b with votes := { zeroVote with given := ws.map fun n => (n, true, false), kd := 3, mode := 1 },
           gvotes := { zeroVote with given := gs.map fun n => (n, true, false), kd := 3, mode := 1 } }

theorem witness_upperVotes : ∀ l ∈ [[], [0], [1]], let s := voteBench l l
    WaveTurn s (theWave s) ∧ s.block? (theWave s).block = some (theBlock s) ∧ (waveStanding s (theWave s)).isSome = true ∧
    s.grid? (theBlock s).grid = some (theGrid s) ∧ OperandsReady (theWave s) [] [] ∧
    (theGrid s).votes.number = (theBlock s).gvotes.number ∧
    ((theWave s).index ∈ (theBlock s).votes.delivered ↔ l = [0]) ∧ (∀ q ∈ s.partsOf (theGrid s), s.grid? q.id = some q) := by
  intro l h
  fin_cases h <;> exact ⟨waveTurn_of (by decide +kernel), by decide +kernel, by decide +kernel, by decide +kernel,
    operands_of (by decide +kernel), by decide +kernel, by decide +kernel, by decide +kernel⟩

theorem witness_voteClash : ¬ voteClash (theBlock (voteBench [] [])).votes 3 1 0 0 ∧
    ¬ voteClash (theBlock (voteBench [1] [1])).votes 3 1 0 0 ∧ voteClash (theBlock (voteBench [1] [1])).votes 2 1 0 0 ∧
    ¬ voteSplit 1 (theWave runBench).exec 0 := by
  refine ⟨fun h => h.1 (by decide +kernel), ?_, ⟨by decide +kernel, .inl (by decide +kernel)⟩, fun h => by simpa using h.1⟩
  rintro ⟨-, h | h | h⟩
  · exact h (by decide +kernel)
  · exact h (by decide +kernel)
  · simpa using h.1

/-- Wave 3 holds a range of two registers from v2 on, shared with wave 4, which stands beside it. -/
def rangeBench (producer orphaned : Bool) (full : BitVec 8) : State :=
  { runBench with waves := runBench.waves.flatMap fun w =>
      [{ w with range := some ⟨producer, 2, 2, 1⟩, orphaned := orphaned, full := full },
       { w with id := 4, index := 1, slot := 1, range := some ⟨!producer, 2, 2, 0⟩, full := full }] }

theorem inRange_rangeBench : ∀ p o x, let w := theWave (rangeBench p o x)
    InRange w ⟨p, 2, 2, 1⟩ 1 3 4 := by
  intro p o x
  refine ⟨rfl, Nat.one_lt_two, rfl, fun m h => ?_⟩
  have : regOf (theWave (rangeBench p o x)) 4 = some (.v 4) := rfl
  rw [this] at h
  injection h with h; injection h with h
  show m < 2 ∨ 2 + 2 ≤ m
  omega

theorem witness_few : ∀ x ∈ [0, 2], let s := rangeBench true false x
    WaveTurn s (theWave s) ∧ WaveSized (theWave s) ∧ OperandsReady (theWave s) [single 4] [single 3] ∧
    (waveStanding s (theWave s)).isSome = true ∧ shapeRank (fieldRow (theWave s) 4) ≤ shapeRank (fieldRow (theWave s) 3) ∧
    (theWave s).inflight = [] ∧ ((theWave s).full.getLsbD 1 = true ↔ x = 2) ∧
    ∃ c, partnerOf s (theWave s) ⟨true, 2, 2, 1⟩ = some c ∧ c.phase ≠ .exited := by
  intro x h
  fin_cases h <;> exact ⟨waveTurn_of (by decide +kernel), by constructor <;> decide +kernel, operands_of (by decide +kernel),
    by decide +kernel, by decide +kernel, by decide +kernel, by decide +kernel, _, by rfl, by decide +kernel⟩

theorem witness_fer : ∀ x ∈ [0, 2], let s := rangeBench false false x
    WaveTurn s (theWave s) ∧ OperandsReady (theWave s) [] [single 4] ∧ regOf (theWave s) 4 = some (.v 4) ∧
    ∃ h, rangeHolder s (theWave s) ⟨false, 2, 2, 1⟩ = some h ∧ s.wave? h.id = some h ∧
      shapeRank (h.v.getD 3 .undeclared) ≤ shapeRank (fieldRow (theWave s) 4) ∧
      shapeRank ((theWave s).v.getD 3 .undeclared) = shapeRank (h.v.getD 3 .undeclared) ∧ (h.full.getLsbD 1 = true ↔ x = 2) := by
  intro x h
  fin_cases h <;> exact ⟨waveTurn_of (by decide +kernel), operands_of (by decide +kernel), by decide +kernel, _, by rfl,
    by decide +kernel, by decide +kernel, by decide +kernel, by decide +kernel⟩

/-- A consumer whose producer is still to be placed: its range names a third wave. -/
theorem witness_unplaced : let s := onWave (rangeBench false false 0) fun w => { w with range := some ⟨false, 2, 2, 2⟩ }
    let w := theWave s
    WaveTurn s w ∧ OperandsReady w [] [single 4] ∧ regOf w 4 = some (.v 4) ∧ w.range = some ⟨false, 2, 2, 2⟩ ∧ w.orphaned = false ∧
    partnerOf s w ⟨false, 2, 2, 2⟩ = none ∧ shapeRank (w.v.getD 3 .undeclared) ≤ shapeRank (fieldRow w 4) :=
  ⟨waveTurn_of (by decide +kernel), operands_of (by decide +kernel), by decide +kernel, by decide +kernel, by decide +kernel,
   by decide +kernel, by decide +kernel⟩

/-! ### Sequencer words (R239 to R249) -/

theorem waveBench_turn : WaveSeqTurn waveBench (theWave waveBench) := waveSeqTurn_of (by decide +kernel)
theorem waveBench_sized : WaveSized (theWave waveBench) := by constructor <;> decide +kernel
theorem blockBench_turn : BlockTurn blockBench (theBlock blockBench) := blockTurn_of (by decide +kernel)
theorem blockBench_sized : BlockSized (theBlock blockBench) := by constructor <;> decide +kernel
theorem gridBench_turn : GridTurn gridBench (theGrid gridBench) := gridTurn_of (by decide +kernel)
theorem gridBench_sized : (theGrid gridBench).g.length = 16 := by decide +kernel

/-- The words of every scope, with the highest register that each has. -/
theorem witness_sequencerWords : (∀ e ∈ seqAluTable, ∀ c ∈ [1, 2, 3], staticLegal (e.1 ⟨c, 15, 15, 15⟩) = true) ∧
    (∀ c ∈ [1, 2, 3], staticLegal (.smovi c 15 0) = true ∧ staticLegal (.slui c 15 0) = true ∧ staticLegal (.saddi c 15 0) = true ∧
      staticLegal (.scmp c 7 15 15 5) = true ∧ staticLegal (.kop c 7 6 5 15) = true ∧ staticLegal (.br c 7 1 0) = true ∧
      staticLegal (.jmp c 0) = true ∧ staticLegal (.call c 0) = true ∧ staticLegal (.ret c) = true ∧ staticLegal (.loop c 1) = true ∧
      staticLegal (.loopr c 15) = true ∧ staticLegal (.endl c) = true ∧ staticLegal (.brk c 7 0 0) = true ∧
      staticLegal (.sldg c 15 15 63) = true ∧ staticLegal (.sstg c 15 15 63) = true) := by
  constructor
  · have h : (seqAluTable.all fun e => ([1, 2, 3] : List (BitVec 3)).all fun c => staticLegal (e.1 ⟨c, 15, 15, 15⟩)) = true := by
      decide +kernel
    exact fun e he c hc => List.all_eq_true.mp (List.all_eq_true.mp h e he) c hc
  · decide

theorem witness_conditions : (∀ n : BitVec 3, condPending (theWave waveBench) n = false) ∧
    (∀ n : BitVec 3, (theBlock blockBench).kPending.getLsbD n.toNat = false) ∧
    ∀ n : BitVec 3, (theGrid gridBench).kPending.getLsbD n.toNat = false := by
  refine ⟨?_, ?_, ?_⟩ <;> decide +kernel

/-- One pass of a loop, one call, one IF and one region open. -/
def nestedWave : State := onWave waveBench fun w =>
  { w with loops := [⟨1, 2, w.pc⟩], calls := [w.pc], masks := [1], regions := [5], s := w.s.set 1 4 }
def nestedBlock : State := onBlock blockBench fun b => { b with loops := [⟨1, 2, b.pc⟩], calls := [b.pc], b := b.b.set 1 4 }
def nestedGrid : State := onGrid gridBench fun g => { g with loops := [⟨1, 2, g.pc⟩], calls := [g.pc], g := g.g.set 1 4 }

theorem nestedWave_turn : WaveSeqTurn nestedWave (theWave nestedWave) := waveSeqTurn_of (by decide +kernel)
theorem nestedBlock_turn : BlockTurn nestedBlock (theBlock nestedBlock) := blockTurn_of (by decide +kernel)
theorem nestedGrid_turn : GridTurn nestedGrid (theGrid nestedGrid) := gridTurn_of (by decide +kernel)

theorem witness_waveStatus :
    (theWave nestedWave).loops.getLast?.map (fun e => (e.begun - 1).toNat) = some 0 ∧ (theWave waveBench).loops = [] ∧
    (∀ i ∈ [0, 11], staticLegal (.strd 1 31 0 i) = true ∧ staticLegal (.stwr 1 31 0 i) = true) ∧
    (∀ i ∈ [1, 2, 6], staticLegal (.strd 1 31 1 i) = true ∧ staticLegal (.stwr 1 31 1 i) = true) ∧
    staticLegal (.stwr 1 0 0 5) = true ∧
    canonical (BitVec.ofNat 64 ((seqReg (theWave waveBench) 0).toNat / 4 * 4)) = true ∧
    (let w := theWave (onWave waveBench fun w => { w with s := w.s.set 0 (2 ^ 60) })
     canonical (BitVec.ofNat 64 ((seqReg w 0).toNat / 4 * 4)) = false) := by
  refine ⟨by decide +kernel, by decide +kernel, by decide, by decide, by decide, by decide +kernel, by decide +kernel⟩

theorem witness_upperStatus : (theBlock nestedBlock).loops.getLast?.map (fun e => (e.begun - 1).toNat) = some 0 ∧
    BlockSized (theBlock nestedBlock) ∧ (15 : BitVec 5).toNat < 16 ∧ (theGrid nestedGrid).g.length = 16 := by
  refine ⟨by decide +kernel, by constructor <;> decide +kernel, by decide, by decide +kernel⟩

/-- Every control word has an effect in the nested states: its scope's stacks and queue have room and an entry. -/
theorem witness_control : (theWave nestedWave).calls.length = 1 ∧ (theWave nestedWave).loops.length = 1 ∧
    (theBlock nestedBlock).calls.length = 1 ∧ (theBlock nestedBlock).loops.length = 1 ∧ (theBlock nestedBlock).tokens.length < 4 ∧
    (theGrid nestedGrid).calls.length = 1 ∧ (theGrid nestedGrid).loops.length = 1 ∧ (theGrid nestedGrid).tokens.length < 8 ∧
    (beginsLoop 1 ⟨0, 0, (theWave nestedWave).loops, [], seqReg (theWave nestedWave)⟩).isSome = true ∧
    (beginsLoop (BitVec.ofNat 32 (seqReg (theWave nestedWave) 1).toNat) ⟨0, 0, [], [], fun _ => 0⟩).isSome = true ∧
    (∀ n : BitVec 3, condPending (theWave nestedWave) n = false) ∧
    (∀ n : BitVec 3, (theBlock nestedBlock).kPending.getLsbD n.toNat = false) ∧
    ∀ n : BitVec 3, (theGrid nestedGrid).kPending.getLsbD n.toNat = false := by
  and_intros <;> decide +kernel

/-- Every stack is full, and the queues of the block and the grid are too. -/
def deepWave : State := onWave waveBench fun w =>
  { w with loops := List.replicate 4 ⟨1, 2, w.pc⟩, calls := List.replicate 16 w.pc, s := w.s.set 1 4 }
def deepBlock (n : Nat) : State := onBlock blockBench fun b =>
  { b with loops := List.replicate 4 ⟨1, 2, b.pc⟩, calls := List.replicate 8 b.pc, b := b.b.set 1 4,
           tokens := List.replicate n ⟨b.pc, b.pc, 0, 0, 1, false, false⟩ }
def deepGrid (n : Nat) : State := onGrid gridBench fun g =>
  { g with loops := List.replicate 4 ⟨1, 2, g.pc⟩, calls := List.replicate 8 g.pc, g := g.g.set 1 4,
           tokens := List.replicate n ⟨g.pc, g.pc, 0, 0, 1, false, false⟩ }

theorem witness_guarded : (WaveSeqTurn deepWave (theWave deepWave) ∧ 16 ≤ (theWave deepWave).calls.length ∧
      4 ≤ (theWave deepWave).loops.length ∧ (seqReg (theWave deepWave) 1).toNat % 2 ^ 32 ≠ 0 ∧
      ∀ n : BitVec 3, condPending (theWave deepWave) n = false) ∧
    (∀ n ∈ [0, 4], BlockTurn (deepBlock n) (theBlock (deepBlock n)) ∧ 8 ≤ (theBlock (deepBlock n)).calls.length ∧
      4 ≤ (theBlock (deepBlock n)).loops.length ∧ (theBlock (deepBlock n)).tokens.length = n ∧
      ∀ k : BitVec 3, (theBlock (deepBlock n)).kPending.getLsbD k.toNat = false) ∧
    (∀ n ∈ [0, 8], GridTurn (deepGrid n) (theGrid (deepGrid n)) ∧ 8 ≤ (theGrid (deepGrid n)).calls.length ∧
      4 ≤ (theGrid (deepGrid n)).loops.length ∧ (theGrid (deepGrid n)).tokens.length = n ∧
      ∀ k : BitVec 3, (theGrid (deepGrid n)).kPending.getLsbD k.toNat = false) ∧
    (theWave waveBench).calls = [] ∧ (theBlock blockBench).calls = [] ∧ (theGrid gridBench).calls = [] ∧
    (theBlock blockBench).loops = [] ∧ (theGrid gridBench).loops = [] := by
  refine ⟨⟨waveSeqTurn_of (by decide +kernel), ?_⟩, fun n h => ?_, fun n h => ?_, ?_⟩
  · and_intros <;> decide +kernel
  · fin_cases h <;> exact ⟨blockTurn_of (by decide +kernel), by decide +kernel, by decide +kernel, by decide +kernel, by decide +kernel⟩
  · fin_cases h <;> exact ⟨gridTurn_of (by decide +kernel), by decide +kernel, by decide +kernel, by decide +kernel, by decide +kernel⟩
  · and_intros <;> decide +kernel

/-- A text of four words that begins with a loop of count zero at a scope, with its ENDL in it or without. -/
def skipBench (a : Agent) (c : BitVec 3) (found : Bool) : State :=
  let ws := encode (.loop c 0) ++ encode (.nop 1) ++ (if found then encode (.endl c) else encode (.nop 1)) ++ encode (.nop 1)
  onGrid { benchState State.reset (codeBytes ws) with turn := some a } fun g => { g with kernel := { g.kernel with textEnd := 16 } }

def scanOf (s : State) (c : BitVec 3) : Option Dword :=
  match scanEndl s benchContext 0 c (textBounds (theGrid s)).2 4 (theWave s).pc 0 with
  | .found p => some p
  | .none => none
  | .miss _ _ => some 0
  | .wait _ => some 0

theorem witness_skipped : (∀ f ∈ [true, false], let s := skipBench (.wave 3) 1 f
      WaveSeqTurn s (theWave s) ∧ s.block? (theWave s).block = some (theBlock s) ∧ s.grid? (theBlock s).grid = some (theGrid s) ∧
      scanOf s 1 = if f then some 0x40000008 else none) ∧
    ∀ f ∈ [true, false], let s := skipBench (.block 2) 2 f
      BlockTurn s (theBlock s) ∧ s.ctx? (theBlock s).ctx = some benchContext ∧ s.grid? (theBlock s).grid = some (theGrid s) ∧
      (theBlock s).tokens.length < 4 ∧ scanOf s 2 = if f then some 0x40000008 else none := by
  constructor
  · intro f h
    fin_cases h <;> exact ⟨waveSeqTurn_of (by decide +kernel), by decide +kernel, by decide +kernel, by decide +kernel⟩
  · intro f h
    fin_cases h <;> exact ⟨blockTurn_of (by decide +kernel), by decide +kernel, by decide +kernel, by decide +kernel, by decide +kernel⟩

theorem witness_threadControl : (theWave nestedWave).masks.length < 16 ∧ (theWave nestedWave).masks.getLast? = some 1 ∧
    (theWave waveBench).masks = [] ∧ (let s := onWave waveBench fun w => { w with masks := List.replicate 16 0 }
      WaveSeqTurn s (theWave s) ∧ 16 ≤ (theWave s).masks.length) := by
  refine ⟨by decide +kernel, by decide +kernel, by decide +kernel, waveSeqTurn_of (by decide +kernel), by decide +kernel⟩

/-! ### Sequencer loads and stores, runs, exits (R105 to R108, R139, R250, R251, R256, R257) -/

theorem unwatched_of {s : State} {ctx : Nat}
    (h : ((s.ctx? ctx).all fun c => c.watch.all fun p => !p.enabled) = true) : Unwatched s ctx := by
  intro c hc p hp
  rw [hc] at h
  simpa using List.all_eq_true.mp h p hp

theorem seqAccess_of {s : State} {c : Context} {isle : Nat} {a : Dword} {k : Access} {p : Place}
    (h : (canonical a && a.toNat % 8 == 0 && translate s c isle a k == .ok p && !placeChecked p && !farBad s p.loc 8) = true) :
    SeqAccess s c isle a k p := by
  simp only [Bool.and_eq_true, beq_iff_eq, Bool.not_eq_true'] at h
  exact ⟨h.1.1.1.1, h.1.1.1.2, h.1.1.2, h.1.2, h.2⟩

/-- The data page's first doubleword. -/
def dataStart (k : Access) : Place :=
  match translate (withData waveBench) benchContext 0 0x80000000 k with
  | .ok p => p
  | _ => ⟨⟨.hbm, 0⟩, 0⟩

/-- Register 1 of every scope holds an address. -/
def addressBench (a : Agent) (v : Dword) : State :=
  onGrid (onBlock (onWave { withData waveBench with turn := some a } fun w => { w with s := w.s.set 1 v })
    fun b => { b with b := b.b.set 1 v }) fun g => { g with g := g.g.set 1 v }

theorem witness_sequencerMemory : (let s := addressBench (.wave 3) 0x80000000
      WaveSeqTurn s (theWave s) ∧ waveStanding s (theWave s) = some dataStanding ∧ Unwatched s 0 ∧ MemoriesWf s ∧
      SeqAccess s benchContext 0 (seqTarget (seqReg (theWave s) 1) 0) .load (dataStart .load) ∧
      SeqAccess s benchContext 0 (seqTarget (seqReg (theWave s) 1) 0) .store (dataStart .store)) ∧
    (let s := addressBench (.block 2) 0x80000000
     BlockTurn s (theBlock s) ∧ s.ctx? (theBlock s).ctx = some benchContext ∧ Unwatched s 0 ∧ MemoriesWf s ∧
     SeqAccess s benchContext 0 (seqTarget ((theBlock s).b.getD 1 0) 0) .store (dataStart .store)) ∧
    (let s := addressBench (.grid 1) 0x80000000
     GridTurn s (theGrid s) ∧ s.ctx? (theGrid s).ctx = some benchContext ∧ Unwatched s 0 ∧
     SeqAccess s benchContext 0 (seqTarget ((theGrid s).g.getD 1 0) 0) .load (dataStart .load)) ∧
    canonical (seqTarget (2 ^ 56) 0) = false ∧ canonical (seqTarget 0x80000004 63) = true ∧ (seqTarget 0x80000004 63).toNat % 8 ≠ 0 := by
  refine ⟨⟨waveSeqTurn_of (by decide +kernel), by rfl, unwatched_of (by decide +kernel), by constructor <;> decide +kernel,
      seqAccess_of (by decide +kernel), seqAccess_of (by decide +kernel)⟩,
    ⟨blockTurn_of (by decide +kernel), by decide +kernel, unwatched_of (by decide +kernel), by constructor <;> decide +kernel,
      seqAccess_of (by decide +kernel)⟩,
    ⟨gridTurn_of (by decide +kernel), by decide +kernel, unwatched_of (by decide +kernel), seqAccess_of (by decide +kernel)⟩,
    by decide, by decide, by decide⟩

theorem fetch_of {s : State} {c : Context} {isle : Nat} {pc : Dword} {x : Word}
    (h : (match fetchWord s c isle pc with | .ok y => y == x | _ => false) = true) : fetchWord s c isle pc = .ok x := by
  split at h <;> simp_all

/-- A wave before a run of one word; `legal` says whether it ends in an ENDR; `busy` leaves tag 3 outstanding. -/
def runStart (legal busy : Bool) : State :=
  let ws := encode (.run 8 0 8) ++ [0x1C080000] ++ (if legal then encode (.endr 1 0 0 0) else [0x1C080000])
  onWave { benchState State.reset (codeBytes ws) with turn := some (.wave 3) } fun w =>
    if busy then { w with tags := 8, tagRegs := [(3, [.v 2])], pending := [⟨[(.v 2, .u 0)], 1, none, []⟩] } else w

theorem witness_runs : (∀ legal ∈ [true, false], ∀ busy ∈ [true, false], let s := runStart legal busy
      let last : Word := if legal then 0x9F200000 else 0x1C080000
      WaveSeqTurn s (theWave s) ∧ waveStanding s (theWave s) = some dataStanding ∧
      (fetchWord s benchContext 0 ((theWave s).pc + 4) = .ok 0x1C080000 ∧ fetchWord s benchContext 0 ((theWave s).pc + 8) = .ok last) ∧
      (fetchBad s benchContext 0 ((theWave s).pc + 4) = false ∧ fetchBad s benchContext 0 ((theWave s).pc + 8) = false) ∧
      tagOutstanding (theWave s) 3 = busy) ∧
    (0x9F200000 : Word).toNat / 2 ^ 24 = 0x9F ∧ ([0x1C080000, 0x9F200000].take 1).countP (fun x => !isTx x) ≤ 24 := by
  refine ⟨fun legal hl busy hb => ?_, by decide, by decide⟩
  fin_cases hl <;> fin_cases hb <;>
    exact ⟨waveSeqTurn_of (by decide +kernel), by rfl, ⟨fetch_of (by decide +kernel), fetch_of (by decide +kernel)⟩,
      ⟨by decide +kernel, by decide +kernel⟩, by decide +kernel⟩

theorem witness_runEnds : (let s := { benchInRun State.reset (benchRun [0]) 1 with turn := some (.wave 3) }
      WaveTurn s (theWave s) ∧ staticLegal (.endr 7 127 0 64) = true ∧ ∃ r, (theWave s).run = some r ∧
        (theWave s).pc = r.header + BitVec.ofNat 64 (4 * (r.words + 1))) ∧
    (theWave waveBench).run = none ∧
    ∃ r, (theWave runBench).run = some r ∧ (theWave runBench).pc ≠ r.header + BitVec.ofNat 64 (4 * (r.words + 1)) := by
  exact ⟨⟨waveTurn_of (by decide +kernel), by decide, _, by rfl, by decide +kernel⟩, by decide +kernel, _, by rfl, by decide +kernel⟩

theorem witness_waveExit : (let s := onWave waveBench fun w => { w with halted := 1 }
      WaveSeqTurn s (theWave s) ∧ (theWave s).halted ≠ 0) ∧
    (theWave waveBench).halted = 0 ∧ landCopies waveBench 3 (theWave waveBench).copies.length = waveBench ∧
    waveBench.wave? 3 = some (theWave waveBench) ∧ waveBench.block? (theWave waveBench).block = some (theBlock waveBench) ∧
    waveBench.grid? (theBlock waveBench).grid = some (theGrid waveBench) ∧ (theWave waveBench).copies = [] ∧
    (∀ x ∈ waveBench.waves, waveBench.wave? x.id = some x) ∧ waveLaunch waveBench (theWave waveBench) ≠ some 8 ∧
    (let s := onWave waveBench fun w => { w with copies := [⟨3, 0, 0, 8, [⟨0, 0x80000000, 8⟩], List.replicate 17 0⟩] }
     ctxHalted (landCopies s 3 1) 0 = false ∧ ((landCopies s 3 1).wave? 3).map (fun w => w.copies.length) = some 0) := by
  refine ⟨⟨waveSeqTurn_of (by decide +kernel), by decide +kernel⟩, ?_⟩
  and_intros <;> decide +kernel

theorem witness_sequencerExits : (theBlock blockBench).tokens.length < 4 ∧
    blockBench.grid? (theBlock blockBench).grid = some (theGrid blockBench) ∧ (theGrid gridBench).tokens.length < 8 ∧
    blockBench.ctx? (theBlock blockBench).ctx = some benchContext ∧
    (let s := onBlock blockBench fun b => { b with tokens := List.replicate 4 ⟨0, 0, 0, 0, 0, false, false⟩ }
     BlockTurn s (theBlock s) ∧ 4 ≤ (theBlock s).tokens.length) := by
  refine ⟨by decide +kernel, by decide +kernel, by decide +kernel, by decide +kernel, blockTurn_of (by decide +kernel), by decide +kernel⟩

/-- A block before its first ACQ, of a kernel with some granules. -/
def acqBench (granules : Nat) : State :=
  onGrid (onBlock blockBench fun b => { b with acqDone := false }) fun g => { g with kernel := { g.kernel with scratch := granules } }

theorem witness_acquires : (theBlock blockBench).acqDone = true ∧
    (∀ n ∈ [16, 1000], let s := acqBench n
      BlockTurn s (theBlock s) ∧ (theBlock s).tokens.length < 4 ∧ (theBlock s).acqDone = false ∧
      s.grid? (theBlock s).grid = some (theGrid s) ∧ (acqRoom s (theBlock s) (theGrid s)).isSome = decide (n = 16)) := by
  refine ⟨by decide +kernel, fun n h => ?_⟩
  fin_cases h <;> exact ⟨blockTurn_of (by decide +kernel), by decide +kernel, by decide +kernel, by decide +kernel, by decide +kernel⟩

/-! ### Regions, traps, barriers, groups (R224 to R228, R252 to R260) -/

theorem witness_regions : (theWave nestedWave).regions = [5] ∧ (theWave nestedWave).regions.length < 8 ∧
    (theWave waveBench).regions = [] ∧ (let s := onWave waveBench fun w => { w with regions := List.replicate 8 1 }
      WaveSeqTurn s (theWave s) ∧ 8 ≤ (theWave s).regions.length) := by
  refine ⟨by decide +kernel, by decide +kernel, by decide +kernel, waveSeqTurn_of (by decide +kernel), by decide +kernel⟩

/-- A wave with a handler or without, in it or not. -/
def trapBench (tcode : BitVec 8) (tba : BitVec 62) : State := onWave waveBench fun w => { w with tcode := tcode, tba := tba }

theorem witness_traps : ∀ t ∈ [0, 255], ∀ h ∈ [0, 0x1000], let s := trapBench t h
    WaveSeqTurn s (theWave s) ∧ (theWave s).tcode = t ∧ (theWave s).tba = h ∧ (theWave s).stepMode = none ∧
    (theWave s).hits = noHits ∧ waveStanding s (theWave s) = some dataStanding := by
  intro t ht h hh
  fin_cases ht <;> fin_cases hh <;>
    exact ⟨waveSeqTurn_of (by decide +kernel), by decide +kernel, by decide +kernel, by decide +kernel, by decide +kernel, by rfl⟩

/-- Barrier 15 of the waves, of waves and sequencer, or of the sequencer alone; who has arrived, and its generation. -/
def barBench (a : Agent) (set : Nat) (arrived : BitVec 17) (gen : BitVec 6) : State :=
  onGrid (onBlock { waveBench with turn := some a } fun b =>
    { b with bars := b.bars.set 15 { newBarrier with arrived := arrived, gen := gen } })
    fun g => { g with kernel := { g.kernel with barset := BitVec.ofNat 32 (set * 2 ^ 30) } }

theorem witness_barriers : (∀ x ∈ [0, 1], ∀ g ∈ [0, 63], let s := barBench (.wave 3) 0 x g
      WaveSeqTurn s (theWave s) ∧ s.block? (theWave s).block = some (theBlock s) ∧ s.grid? (theBlock s).grid = some (theGrid s) ∧
      barMember (theGrid s).kernel 15 (theWave s).index = true ∧ (theWave s).index < 16 ∧
      ((theBlock s).bars.getD 15 newBarrier).arrived.getLsbD (theWave s).index = decide (x = 1) ∧
      (waitGoesOn (theGrid s).kernel (theBlock s) (s.wavesOf (theBlock s).id) 15 0 ↔ g = 63)) ∧
    (let s := barBench (.wave 3) 2 0 0
     WaveSeqTurn s (theWave s) ∧ barMember (theGrid s).kernel 15 (theWave s).index = false) ∧
    (let s := barBench (.block 2) 1 0 63
     BlockTurn s (theBlock s) ∧ barMember (theGrid s).kernel 15 16 = true ∧
     ((theBlock s).bars.getD 15 newBarrier).arrived.getLsbD 16 = false ∧
     waitGoesOn (theGrid s).kernel (theBlock s) (s.wavesOf (theBlock s).id) 15 16) := by
  refine ⟨fun x hx g hg => ?_, ⟨waveSeqTurn_of (by decide +kernel), by decide +kernel⟩,
    blockTurn_of (by decide +kernel), by decide +kernel, by decide +kernel, .inl (by decide +kernel)⟩
  fin_cases hx <;> fin_cases hg <;>
    exact ⟨waveSeqTurn_of (by decide +kernel), by decide +kernel, by decide +kernel, by decide +kernel, by decide +kernel,
      by decide +kernel, by unfold waitGoesOn; decide +kernel⟩

/-- The grid barrier's entry, and a run of two entries of which a block's slot 3 holds the second. -/
def groupBench (a : Agent) (x : GroupEntry) (arrivals : BitVec 5) (held : BitVec 8) : State :=
  { onGrid (onBlock { waveBench with turn := some a } fun b => { b with arrivals := arrivals, groups := b.groups.set 3 held })
      (fun g => { g with runLen := 2, g := g.g.set 1 1 }) with
    groups := mapSet emptyGroup (mapSet emptyGroup [] 0 x) 1 { emptyGroup with memb := 1 } }

theorem witness_groups : (∀ arr ∈ [0, 16], ∀ gen ∈ [0, 255], let s := groupBench (.block 2) ⟨gen, 1, 0, 1, false, false⟩ arr 0
      BlockTurn s (theBlock s) ∧ s.grid? (theBlock s).grid = some (theGrid s) ∧ groupOf (theBlock s) 16 = some (0, 4) ∧
      groupOf (theBlock s) 35 = none ∧ (theBlock s).arrivals.getLsbD 4 = decide (arr = 16) ∧
      decide ((s.groupEntry (theGrid s) 0).gen = (theBlock s).points.getD 4 0) = decide (gen = 0)) ∧
    (∀ gseq ∈ [true, false], ∀ garr ∈ [true, false], ∀ gen ∈ [0, 1],
      let s := groupBench (.grid 1) ⟨gen, 1, 0, 1, gseq, garr⟩ 0 0
      GridTurn s (theGrid s) ∧ (s.groupEntry (theGrid s) 0).gseq = gseq ∧ (s.groupEntry (theGrid s) 0).garr = garr ∧
      decide ((s.groupEntry (theGrid s) 0).gen = (theGrid s).point) = decide (gen = 0)) ∧
    (∀ held ∈ [0, 1, 2], let s := groupBench (.grid 1) emptyGroup 0 held
      GridTurn s (theGrid s) ∧ staticLegal (.grpset 1 2 3 1) = true ∧ staticLegal (.grpset 1 2 3 0) = true ∧
      ((theGrid s).g.getD 1 0).toNat % 256 = 1 ∧
      1 < (theGrid s).runLen ∧ ((theGrid s).g.getD 2 0).toNat % 2 ^ 20 < (theGrid s).nblk ∧
      (∀ p ∈ s.partsOf (theGrid s), (s.groupEntry p 1).arrv = 0) ∧ (memberGroups s (theGrid s) 0).getD 3 0 = held ∧
      PartsApart s (theGrid s) 1) ∧
    ¬ changeDue (groupBench (.block 2) emptyGroup 0 0) (theGrid (groupBench (.block 2) emptyGroup 0 0)) 0 ∧
    (let s := onGrid (groupBench (.block 2) emptyGroup 0 0) fun g => { g with barred := some 0 }
     BlockTurn s (theBlock s) ∧ changeDue s (theGrid s) 0) := by
  refine ⟨fun a ha g hg => ?_, fun a ha b hb c hc => ?_, fun x hx => ?_, ?_, blockTurn_of (by decide +kernel), ?_⟩
  · fin_cases ha <;> fin_cases hg <;> exact ⟨blockTurn_of (by decide +kernel), by decide +kernel, by decide +kernel,
      by decide +kernel, by decide +kernel, by decide +kernel⟩
  · fin_cases ha <;> fin_cases hb <;> fin_cases hc <;>
      exact ⟨gridTurn_of (by decide +kernel), by decide +kernel, by decide +kernel, by decide +kernel⟩
  · fin_cases hx <;> exact ⟨gridTurn_of (by decide +kernel), by decide, by decide, by decide +kernel, by decide +kernel,
      by decide +kernel, by decide +kernel, by decide +kernel, by constructor <;> decide +kernel⟩
  · rintro ⟨⟨p, hp, h⟩, -⟩
    revert p; decide +kernel
  · constructor <;> decide +kernel

/-- A gang of two parts on two isles. -/
def gangBench : State :=
  let s := groupBench (.grid 1) emptyGroup 0 0
  { s with grids := s.grids.flatMap fun g => [g, { g with id := 7, isle := 1 }] }

theorem witness_gang : (gangBench.partsOf (theGrid gangBench)).length = 2 ∧ PartsApart gangBench (theGrid gangBench) 1 :=
  ⟨by decide +kernel, by constructor <;> decide +kernel⟩

theorem witness_grpset_outside : (let s := groupBench (.grid 1) emptyGroup 0 0
    ((theGrid s).g.getD 2 0).toNat % 256 = 0) ∧
    (let s := onGrid (groupBench (.grid 1) emptyGroup 0 0) fun g => { g with g := g.g.set 1 2 }
     (theGrid s).runLen ≤ ((theGrid s).g.getD 1 0).toNat % 256) ∧
    (let s := { groupBench (.grid 1) emptyGroup 0 0 with groups := [(1, { emptyGroup with arrv := 1, memb := 2 })] }
     ∃ p ∈ s.partsOf (theGrid s), (s.groupEntry p 1).arrv ≠ 0) := by
  refine ⟨by decide +kernel, by decide +kernel, theGrid (groupBench (.grid 1) emptyGroup 0 0), ?_⟩
  decide +kernel

/-- A block whose stage has an output queue of two tiles, and whose register 1 names a tile. -/
def tileBench (tile : Dword) : State :=
  { onBlock blockBench (fun b => { b with b := b.b.set 1 tile }) with launches := [{ benchLaunch with
      tileQueues := [⟨0, 0x80000000, 64, 2, 1, 1, [], []⟩] }] }

theorem witness_tagAndTile : (let s := onWave waveBench fun w =>
        { w with tagCounts := w.tagCounts.set 7 1, copyRanges := [⟨0, 0, 8⟩] }
      WaveSeqTurn s (theWave s) ∧ s.block? (theWave s).block = some (theBlock s) ∧ mapWf 0 (theBlock s).tags = true ∧ (theWave s).index < 16 ∧
      (theWave s).tagCounts.getD 7 0 ≠ 0 ∧ (theWave s).tagCounts.getD 0 0 = 0) ∧
    ∀ n ∈ [1, 2], let s := tileBench n
      BlockTurn s (theBlock s) ∧ s.grid? (theBlock s).grid = some (theGrid s) ∧ s.ctx? (theBlock s).ctx = some benchContext ∧
      (∃ l, s.launch? (theGrid s).launch = some l ∧ outputQueue l (theGrid s).stage 0 = some (0, ⟨0, 0x80000000, 64, 2, 1, 1, [], []⟩) ∧
        outputQueue l (theGrid s).stage 7 = none) ∧ ((theBlock s).b.getD 1 0) = n := by
  refine ⟨⟨waveSeqTurn_of (by decide +kernel), by decide +kernel, by decide +kernel, by decide +kernel, by decide +kernel, by decide +kernel⟩,
    fun n h => ?_⟩
  fin_cases h <;> exact ⟨blockTurn_of (by decide +kernel), by decide +kernel, by decide +kernel, ⟨_, by rfl, by rfl, by rfl⟩,
    by decide +kernel⟩

/-! ### Debugging words (R261 to R266) -/

theorem witness_debugRight : (let s := onContext waveBench fun c => { c with debug := false }
    WaveSeqTurn s (theWave s) ∧ ∃ st, waveStanding s (theWave s) = some st ∧ st.ctx.debug = false) :=
  ⟨waveSeqTurn_of (by decide +kernel), _, by rfl, by decide +kernel⟩

theorem debugTurn_of {s : State} {w : Wave} (h : WaveSeqTurn s w) (hs : waveStanding s w = some dataStanding) :
    DebugTurn s w dataStanding := ⟨h, hs, rfl⟩

/-- A descriptor of loads and stores in memory, or one whose event bits are malformed, at the address in s1. -/
def watchBench (ctl : Nat) : State :=
  let s := addressBench (.wave 3) 0x80000000
  { s with hbm := writeBytes (writeBytes s.hbm 0x80000008 (leBytes 8 0x1000)) 0x80000018 (leBytes 8 ctl) }

theorem witness_watch : (∀ ctl ∈ [1, 2 ^ 19 + 1], let s := watchBench ctl
      DebugTurn s (theWave s) dataStanding ∧ s.ctx? 0 = some benchContext ∧ s.block? (theWave s).block = some (theBlock s) ∧
      (theBlock s).ctx = 0 ∧ benchContext.watch[15]? = some emptyWatch ∧ seqReg (theWave s) 1 = 0x80000000 ∧
      translate s benchContext 0 0x80000000 .load = .ok (dataStart .load) ∧ placeChecked (dataStart .load) = false ∧
      farBad s (dataStart .load).loc 32 = false ∧
      malformed (descriptorOf (readLoc s (dataStart .load).loc 32)) 15 = decide (ctl ≠ 1)) := by
  intro ctl h
  fin_cases h <;> refine ⟨debugTurn_of (waveSeqTurn_of (by decide +kernel)) (by rfl), ?_⟩ <;> and_intros <;> decide +kernel

/-- A second wave in slot 1, stopped by a halt, in a run; s1 names a register of it. -/
def debugBench (target : Dword) : State :=
  onWave { waveBench with waves := waveBench.waves.flatMap fun w =>
      [w, { w with id := 4, index := 1, slot := 1, haltedWave := true, halted := 1 }] }
    fun w => { w with s := w.s.set 1 target }

theorem witness_debug : ∀ t ∈ [0x100, 0x0000003000000100, 0x0000000600000100, 0x0000050400000100, 0x0000000000000180, 0x800100],
    let s := debugBench t
    DebugTurn s (theWave s) dataStanding ∧ WaveSized (theWave s) ∧ seqReg (theWave s) 1 = t ∧
    ∃ x, targetWave s 0 (targetOf t) = some x ∧ s.wave? x.id = some x ∧ x.id ≠ (theWave s).id ∧ WaveSized x ∧
      x.stepMode = none ∧ x.bad = [] ∧ x.badPreds = [] := by
  intro t h
  fin_cases h <;> exact ⟨debugTurn_of (waveSeqTurn_of (by decide +kernel)) (by rfl), by constructor <;> decide +kernel,
    by decide +kernel, _, by rfl, by decide +kernel, by decide +kernel, by constructor <;> decide +kernel,
    by decide +kernel, by decide +kernel, by decide +kernel⟩

theorem witness_stepped : let s := onWave (debugBench 0x100) fun w => { w with stepMode := if w.id = 4 then some 9 else none }
    DebugTurn s (theWave s) dataStanding ∧ ∃ x, targetWave s 0 (targetOf 0x100) = some x ∧ x.stepMode = some 9 :=
  ⟨debugTurn_of (waveSeqTurn_of (by decide +kernel)) (by rfl), _, by rfl, by decide +kernel⟩

theorem witness_debugTargets : (let x := (debugBench 0).waves.getD 1 (theWave waveBench)
      targetLegal x (targetOf 0x100) = true ∧ targetLegal x (targetOf 0x0000000600000100) = true ∧
      targetLegal x (targetOf 0x0000050400000100) = true ∧ targetLegal x (targetOf 0x180) = true ∧
      targetLegal x (targetOf 0x900000100) = false ∧
      shapeRank (x.v.getD 0 .undeclared) = 3) ∧
    (0x800100 : Dword) &&& 0xFFFF80F0FF800000 ≠ 0 ∧ (0x100 : Dword) &&& 0xFFFF80F0FF800000 = 0 ∧
    (targetOf 0x0000050400000100).cls = 4 ∧ (targetOf 0x0000050400000100).num = 5 ∧ (targetOf 0x0000000600000100).cls = 6 ∧
    targetWave (debugBench 0) 0 (targetOf 0x7F00) = none := by
  refine ⟨⟨?_, ?_, ?_, ?_, ?_, ?_⟩, ?_, ?_, ?_, ?_, ?_, ?_⟩ <;> decide +kernel

/-- The word at the target's pc is a RUN; or the issuing wave waits for a step that has ended, or has not. -/
def stepBench (word : Word) (wait done : Bool) : State :=
  let s := { debugBench 0x100 with hbm := (benchState State.reset (codeBytes [word])).hbm }
  { s with waves := (s.waves.take 1).map (fun w => { w with phase := if wait then .lstepWait 4 else .ready }) ++
      (s.waves.drop 1).map fun x => { x with stepMode := if wait then some 3 else none, stepDone := done, stepTrap := if done then 1 else 0 } }

theorem witness_step : (∀ v ∈ [0x95600000, 0x90000000], let s := stepBench v false false
      DebugTurn s (theWave s) dataStanding ∧ WaveSized (theWave s) ∧ (theWave s).phase = .ready ∧
      fetchWord s benchContext 0 0x40000000 = .ok v ∧ ∃ x, targetWave s 0 (targetOf 0x100) = some x ∧ s.wave? x.id = some x ∧
        x.haltedWave = true ∧ x.stepMode = none ∧ x.pc = 0x40000000) ∧
    (0x95600000 : Word).toNat / 2 ^ 21 = 0x4AB ∧ 2 ^ 31 ≤ (0x90000000 : Word).toNat ∧ (0x90000000 : Word).toNat / 2 ^ 21 ≠ 0x4AB ∧
    ∀ d ∈ [true, false], let s := stepBench 0x95600000 true d
      DebugTurn s (theWave s) dataStanding ∧ ∃ x, s.wave? 4 = some x ∧ (theWave s).phase = .lstepWait 4 ∧ stepEnded x = d ∧
        ∃ w1, returnWave s (theWave s) = some w1 ∧ WaveSized w1 := by
  refine ⟨fun v h => ?_, by decide, by decide, by decide, fun d h => ?_⟩
  · fin_cases h <;> exact ⟨debugTurn_of (waveSeqTurn_of (by decide +kernel)) (by rfl), by constructor <;> decide +kernel,
      by decide +kernel, fetch_of (by decide +kernel), _, by rfl, by decide +kernel, by decide +kernel, by decide +kernel, by decide +kernel⟩
  · fin_cases h <;> exact ⟨debugTurn_of (waveSeqTurn_of (by decide +kernel)) (by rfl), _, by rfl, by decide +kernel, by decide +kernel,
      _, by rfl, by constructor <;> decide +kernel⟩

/-! ### Commands at their issue (R71, R140 to R142, R183, R191 to R208) -/

/-- Registers 1, 2, 3 and 4 of the block sequencer. -/
def regsBench (x y z w : Dword) : State := onBlock blockBench fun b => { b with b := (((b.b.set 1 x).set 2 y).set 3 z).set 4 w }

/-- The hypotheses of `Issues` with an empty queue, and with a full one. -/
def IssueMet (i : Instr) (c : State → Block → Issued) (s : State) : Prop :=
  BlockTurn s (theBlock s) ∧ BlockSized (theBlock s) ∧ staticLegal i = true ∧ (c s (theBlock s)).ok

theorem regsBench_turn (x y z w : Dword) : BlockTurn (regsBench x y z w) (theBlock (regsBench x y z w)) := ⟨rfl, rfl⟩
theorem regsBench_sized (x y z w : Dword) : BlockSized (theBlock (regsBench x y z w)) := by
  constructor <;> rfl

theorem issue_of {i : Instr} {c : State → Block → Issued} (x y z w : Dword) (h : staticLegal i = true)
    (ho : (c (regsBench x y z w) (theBlock (regsBench x y z w))).ok) : IssueMet i c (regsBench x y z w) :=
  ⟨regsBench_turn x y z w, regsBench_sized x y z w, h, ho⟩

theorem witness_bcopy : (∀ out, IssueMet (.bcopy 1 2 3 out 4) (fun _ => bcopyIssue 1 2 3 out 4) (regsBench 64 0x80000000 16 0)) ∧
    IssueMet (.bcopy 1 2 3 0 4) (fun _ => bcopyIssue 1 2 3 0 4) (regsBench 0 0x80000000 0xFFF0 0xFFF8) := by
  refine ⟨fun out => issue_of _ _ _ _ rfl ?_, issue_of _ _ _ _ rfl ?_⟩ <;>
    (repeat' refine And.intro ?_ ?_) <;> decide +kernel
theorem witness_gath : IssueMet (.gath 1 2 3 4) (fun _ => gathIssue 1 2 3 4)
    (regsBench 64 0x80000000 (0x4000 + 2 ^ 32 + 16 * 2 ^ 48) 0) := by
  refine issue_of _ _ _ _ rfl ?_
  (repeat' refine And.intro ?_ ?_) <;> decide +kernel
theorem witness_hist : IssueMet (.hist 1 2 3 4) (fun _ => histIssue 1 2 3 4) (regsBench 64 0x400 1 0) := by
  refine issue_of _ _ _ _ rfl ?_
  (repeat' refine And.intro ?_ ?_) <;> decide +kernel
theorem witness_qscale : IssueMet (.qscale 1 2 3 4) (fun _ => qscaleIssue 1 2 3 4)
    (regsBench 256 0x1000 (64 + 0x800 * 2 ^ 32) 0) := by
  refine issue_of _ _ _ _ rfl ?_
  (repeat' refine And.intro ?_ ?_) <;> decide +kernel
theorem witness_sorts : (∀ st, IssueMet (if st then .srtst 1 2 4 else .srtld 1 2 4) (fun _ => transferIssue st 1 2 4)
      (regsBench 0x100 0 0 0)) ∧
    (regsBench 0x7F7F 0 0 0 |> fun s => (breg (theBlock s) 1).toNat < 2 ^ 15 ∧ field (breg (theBlock s) 1) 7 1 = 0) := by
  refine ⟨fun st => ?_, by decide +kernel, by decide +kernel⟩
  cases st
  · refine issue_of _ _ _ _ rfl ?_
    (repeat' refine And.intro ?_ ?_) <;> decide +kernel
  · refine issue_of _ _ _ _ rfl ?_
    (repeat' refine And.intro ?_ ?_) <;> decide +kernel

/-- Context 0's peer group 0 has this package as its only member. -/
def collBench : State :=
  let s := regsBench 0x1000 0x2000 64 0
  { s with hbm := writeBytes s.hbm 0x5000 [1, 1, 0, 0, 0, 0, 0, 0, 0],
           platform := { s.platform with pgrpb := 0x5000 } }

theorem witness_coll : BlockTurn collBench (theBlock collBench) ∧ BlockSized (theBlock collBench) ∧
    (collIssue collBench 1 2 3 4 (theBlock collBench)).ok := by
  refine ⟨blockTurn_of (by decide +kernel), by constructor <;> decide +kernel, ?_⟩
  (repeat' refine And.intro ?_ ?_) <;> decide +kernel

/-- A command that stands in a queue. -/
def aCommand (i : Instr) : Command :=
  { word := 0, instr := i, d := 0, a := 0, b := 0, qpct := 1024, serial := 0, started := false, done := 0, ahead := [],
    units := 0, phase := 0, step := 0, work := [], dests := [], sync := 0, know := List.replicate 17 0, count := 0, epoch := 0,
    request := none, held := [] }

theorem witness_queueFull : let s := onBlock blockBench fun b => { b with queues := List.replicate 5 (List.replicate 32 (aCommand .mswap)) }
    BlockTurn s (theBlock s) ∧ BlockSized (theBlock s) ∧ (∀ q ∈ [EngineQueue.matrix, .sort, .copy, .gather, .coll],
      32 ≤ (queueOf (theBlock s) q).length) ∧ (queueOf (theBlock blockBench) .copy).length < 32 := by
  refine ⟨blockTurn_of (by decide +kernel), by constructor <;> decide +kernel, by decide +kernel, by decide +kernel⟩

theorem windowAgrees_bench (x y z w : Dword) (off : Nat) (f : Option Nat) : windowAgrees (theBlock (regsBench x y z w)) off f := by
  intro v h
  have : windowAt (theBlock (regsBench x y z w)) off = none := by
    unfold windowAt; rw [List.find?_eq_none]; intro q hq
    simp [theBlock, regsBench, onBlock, blockBench, benchState, benchBlock, newBlock] at hq
    subst hq; simp [winValid]
  rw [this] at h; cases h

theorem witness_matrixWords : (let b := theBlock (regsBench 127 1 0 0)
     staticLegal (.mpred 1 2 1 1 3) = true ∧ (breg b 1).toNat ≤ 127 ∧ (breg b 1).toNat + (breg b 2).toNat ≤ 128) ∧
    (let b := theBlock (regsBench 511 0 0 0)
     (breg b 1).toNat < 512) ∧
    (let b := theBlock (regsBench 0 0 0 0)
     staticLegal (.mldw 1 0 1) = true ∧ field (breg b 1) 0 19 % 256 = 0 ∧ (mldwSource b 1 false 0).isSome = true ∧
     b.unwaited.length < 64 ∧ operandOk (breg b 1) ∧ windowAgrees b 0 (some 1) ∧ staticLegal (.mcpy 3 1 1 2 0 0) = true) := by
  refine ⟨⟨by decide, by decide +kernel, by decide +kernel⟩, by decide +kernel, by decide, by decide +kernel, by decide +kernel,
    by decide +kernel, ?_, windowAgrees_bench 0 0 0 0 0 _, by decide⟩
  (repeat' refine And.intro ?_ ?_) <;> decide +kernel

/-- Batches closed and complete, and the one that register 1 names. -/
def batchBench (closed completed : BitVec 16) (g : Dword) : State :=
  onBlock (regsBench g 0 0 0) fun b => { b with closed := closed, completed := completed }

theorem witness_batches : (∀ e ∈ [(0, 0, 0), (1, 0, 1), (0, 0, 1)], let s := batchBench e.1 e.2.1 e.2.2
      BlockTurn s (theBlock s) ∧ BlockSized (theBlock s) ∧ (theBlock s).batches = [] ∧ (theBlock s).armed = [] ∧
      ((theBlock s).b.getD 1 0) = e.2.2) ∧
    ((0 - 0 : BitVec 16).toNat < 2 ^ 15) ∧ ((1 - 1 : BitVec 16).toNat < 2 ^ 15 ∧ 2 ^ 15 ≤ (0 - 1 : BitVec 16).toNat) ∧
    2 ^ 15 ≤ (0 - 1 : BitVec 16).toNat := by
  refine ⟨fun e h => ?_, by decide, by decide, by decide⟩
  fin_cases h <;> exact ⟨blockTurn_of (by decide +kernel), by constructor <;> decide +kernel, by decide +kernel, by decide +kernel,
    by decide +kernel⟩

/-- A destination list of one entry at offset 0x200: this block, offset 0x1000, sync word 0. -/
def castBench (resident : Bool) : State :=
  onGrid (onBlock (regsBench 0x200 0x80000000 64 0) fun b =>
    { b with scratch := writeBytes (writeBytes b.scratch 0x200 (leBytes 8 1)) 0x208 (leBytes 8 (b.ident.toNat + 0x1000 * 2 ^ 20)) })
    fun g => { g with resident := resident }

theorem witness_multicast : ∀ r ∈ [true, false], let s := castBench r
    BlockTurn s (theBlock s) ∧ BlockSized (theBlock s) ∧ s.grid? (theBlock s).grid = some (theGrid s) ∧
    (∀ y ∈ s.blocks, s.block? y.id = some y) ∧ (theGrid s).resident = r ∧
    leNat (readBytes (theBlock s).scratch (breg (theBlock s) 1).toNat 8) = 1 ∧ canonical (breg (theBlock s) 2) = true ∧
    (breg (theBlock s) 3).toNat = 64 ∧ lengthOk 64 := by
  intro r h
  fin_cases h <;> exact ⟨blockTurn_of (by decide +kernel), by constructor <;> decide +kernel, by decide +kernel, by decide +kernel,
    by decide +kernel, by decide +kernel, by decide +kernel, by decide +kernel, by unfold lengthOk; decide⟩

theorem witness_qjoin : staticLegal (.qjoin 31) = true ∧ (31 : BitVec 5) ≠ 0 ∧
    (∀ q ∈ [EngineQueue.matrix, .sort, .copy, .gather, .coll], (31 : BitVec 5).getLsbD (queueBit q) = true ∧
      (queueOf (theBlock blockBench) q).length < 32) := by
  refine ⟨by decide, by decide, by decide +kernel⟩

/-! ### Sync words (R74 to R77) -/

theorem witness_syncArming : (∀ n ∈ [1, 2 ^ 20 - 1, 0, 2 ^ 20], let s := regsBench 8 n 0 0
      syncFits (theBlock s) ((theBlock s).b.getD 1 0).toNat ∧ Memory.wf (theBlock s).scratch = true ∧
      ((theBlock s).b.getD 2 0) = n ∧ (readSync (theBlock s) 8).armed = false ∧ (readSync (theBlock s) 8).count = 0) ∧
    syncFits (theBlock blockBench) (4096 * 16 - 8) := by
  refine ⟨fun n h => ?_, by unfold syncFits blockBytes; decide +kernel⟩
  fin_cases h <;> exact ⟨by unfold syncFits blockBytes; decide +kernel, by decide +kernel, by decide +kernel, by decide +kernel,
    by decide +kernel⟩

theorem witness_syncWaits : ∀ g ∈ [0, 0x8001, 1, 0x8000], let s := regsBench 8 g 0 0
    syncFits (theBlock s) ((theBlock s).b.getD 1 0).toNat ∧
    (((readSync (theBlock s) 8).gen - BitVec.ofNat 16 ((theBlock s).b.getD 2 0).toNat).toNat < 2 ^ 15 ↔ g = 0 ∨ g = 0x8001) := by
  intro g h
  fin_cases h <;> exact ⟨by unfold syncFits blockBytes; decide +kernel, by decide +kernel⟩

/-! ### Halts and the events of waves, blocks and grids (R29, R111 to R117, R217, R224 to R230, R251, R327 to R330) -/

theorem witness_halting : waveBench.wave? 3 = some (theWave waveBench) ∧
    waveBench.block? (theWave waveBench).block = some (theBlock waveBench) ∧ waveBench.ctx? (theBlock waveBench).ctx = some benchContext ∧
    waveBench.grid? 1 = some (theGrid waveBench) ∧ benchContext.halted = false ∧
    (∀ g ∈ waveBench.grids, ∀ l ∈ waveBench.launch? g.launch, l.admitted = true) ∧
    (let s := onContext waveBench fun c => { c with halted := true }
     ∃ c, s.ctx? 0 = some c ∧ c.halted = true) := by
  refine ⟨by decide +kernel, by decide +kernel, by decide +kernel, by decide +kernel, by decide +kernel, by decide +kernel, _, by rfl, by decide +kernel⟩

/-- One word of code at every agent's pc. -/
def codeBench (a : Agent) (w : Word) : State := { benchState State.reset (codeBytes [w]) with turn := some a }

theorem illegal_of {x : Word} (h : (match decode x none with | .error _ => true | .ok _ => false) = true) :
    ∃ e, decode x none = .error e := by
  split at h
  · exact ⟨_, ‹_›⟩
  · cases h

theorem witness_illegal : (∀ x ∈ [0, 0x92C00000], let s := codeBench (.wave 3) x
     WaveTurn s (theWave s) ∧ (theWave s).run = none ∧ (theWave s).fell = false ∧ (theWave s).phase = .ready ∧
     fetchWord s benchContext 0 (theWave s).pc = .ok x ∧ wordIllegal 1 x) ∧
    (let s := codeBench (.block 2) 0xA2C00000
     BlockTurn s (theBlock s) ∧ (theBlock s).fell = false ∧ fetchWord s benchContext 0 (theBlock s).pc = .ok 0xA2C00000) ∧
    (let s := codeBench (.grid 1) 0xB2C00000
     GridTurn s (theGrid s) ∧ (theGrid s).fell = false ∧ fetchWord s benchContext 0 (theGrid s).pc = .ok 0xB2C00000) ∧
    wordIllegal 2 0xA2C00000 ∧ wordIllegal 3 0xB2C00000 := by
  refine ⟨fun x h => ?_, ⟨blockTurn_of (by decide +kernel), by decide +kernel, fetch_of (by decide +kernel)⟩,
    ⟨gridTurn_of (by decide +kernel), by decide +kernel, fetch_of (by decide +kernel)⟩,
    .inr ⟨by decide, by decide, by decide, illegal_of (by decide +kernel)⟩,
    .inr ⟨by decide, by decide, by decide, illegal_of (by decide +kernel)⟩⟩
  fin_cases h
  · exact ⟨waveTurn_of (by decide +kernel), by decide +kernel, by decide +kernel, by decide +kernel, fetch_of (by decide +kernel),
      .inl ⟨rfl, by decide⟩⟩
  · exact ⟨waveTurn_of (by decide +kernel), by decide +kernel, by decide +kernel, by decide +kernel, fetch_of (by decide +kernel),
      .inr ⟨by decide, by decide, by decide, illegal_of (by decide +kernel)⟩⟩

/-- A wave switched out alone, its registers in its save slot, with a failed verdict or without. -/
def missedBench (failed : Bool) : State :=
  onWave (switchOut waveBench 3 dataStanding 0 .load []) fun w => { w with missFailed := failed }

theorem witness_waveSteps : (∀ f ∈ [true, false], let s := missedBench f
     s.wave? 3 = some (theWave s) ∧ (theWave s).phase = .missed ∧ (theWave s).requests = [] ∧
     (returnWave s (theWave s)).map (fun w => w.missFailed) = some f) ∧
    ((theWave waveBench).phase ≠ .missed ∧ waveRuns waveBench (theWave waveBench) = true) ∧
    (let s := runStart true true
     s.wave? 3 = some (theWave s) ∧ (theWave s).pending[0]? = some ⟨[(.v 2, .u 0)], 1, none, []⟩) ∧
    (let s := onWave waveBench fun w => { w with haltedWave := true, inflight := [⟨2, .v 2, some (.u 1), 1, 2⟩] }
     s.wave? 3 = some (theWave s) ∧ (theWave s).inflight = [⟨2, .v 2, some (.u 1), 1, 2⟩] ∧ waveRuns s (theWave s) = false) ∧
    ∀ n ∈ [63, 64], (theWave (onWave waveBench fun w => { w with passed := n })).passed = n := by
  refine ⟨fun f h => ?_, ?_⟩
  · fin_cases h <;> exact ⟨by decide +kernel, by decide +kernel, by decide +kernel, by decide +kernel⟩
  · and_intros <;> decide +kernel

/-- A wave and a block sequencer at a jump of the scope above, whose queue holds tokens. -/
def popBench (w : Word) (bt gt : List Token) : State :=
  onGrid (onBlock (codeBench (.wave 3) w) fun b => { b with tokens := bt }) fun g => { g with tokens := gt }

def popToken (spc : Dword) (e : Bool) : Token := ⟨0x40000010, spc, 7, 8, 1, e, false⟩

theorem witness_wavePops : (∀ t ∈ [popToken 0x40000000 true, popToken 0x40000000 false, popToken 0x40000004 false],
      let s := popBench 0xA4200004 [t] []
      s.wave? 3 = some (theWave s) ∧ s.block? (theWave s).block = some (theBlock s) ∧ waveRuns s (theWave s) = true ∧
      nextOfWave s (theWave s) = .pop ∧ (theWave s).copies = [] ∧
      (theBlock s).tokens.find? (fun x => x.seq == (theWave s).lastSeq + 1) = some t ∧ (theWave s).pc = 0x40000000) ∧
    (let s := popBench 0xA4200004 [] []
     nextOfWave s (theWave s) = .pop ∧ (theBlock s).tokens = []) := by
  refine ⟨fun t h => ?_, by decide +kernel, by decide +kernel⟩
  fin_cases h <;> exact ⟨by decide +kernel, by decide +kernel, by decide +kernel, by decide +kernel, by decide +kernel,
    by decide +kernel, by decide +kernel⟩

theorem witness_blockPops : (∀ t ∈ [popToken 0x40000000 true, popToken 0x40000000 false, popToken 0x40000004 false],
      let s := popBench 0xB4200004 [] [t]
      s.block? 2 = some (theBlock s) ∧ s.grid? (theBlock s).grid = some (theGrid s) ∧ blockRuns s (theBlock s) = true ∧
      nextOfBlock s (theBlock s) = .pop ∧ (theBlock s).tokens.length < 4 ∧
      (theGrid s).tokens.find? (fun x => x.seq == (theBlock s).lastSeq + 1) = some t ∧ (theBlock s).pc = 0x40000000) ∧
    (let s := popBench 0xB4200004 [] []
     nextOfBlock s (theBlock s) = .pop ∧ (theGrid s).tokens = []) := by
  refine ⟨fun t h => ?_, by decide +kernel, by decide +kernel⟩
  fin_cases h <;> exact ⟨by decide +kernel, by decide +kernel, by decide +kernel, by decide +kernel, by decide +kernel,
    by decide +kernel, by decide +kernel⟩

theorem distinct_of {s : State} (h : (s.waves.all (fun x => s.wave? x.id == some x) && s.blocks.all (fun x => s.block? x.id == some x) &&
    s.grids.all (fun x => s.grid? x.id == some x)) = true) : Distinct s := by
  simp only [Bool.and_eq_true, List.all_eq_true, beq_iff_eq] at h
  exact ⟨h.1.1, h.1.2, h.2⟩

/-- An agent held at a WAIT whose generation has gone by. -/
def releaseBench (word : Word) (held : Agent) : State :=
  let s := onBlock (codeBench (.wave 3) word) fun b => { b with bars := b.bars.set 15 { newBarrier with gen := 1 } }
  let s1 := { s with groups := [(0, ⟨1, 1, 0, 1, true, false⟩)] }
  match held with
  | .wave _ => onWave s1 fun w => { w with phase := .held (.barrier 15) }
  | .block _ => onBlock s1 fun b => { b with phase := .held (.barrier 15) }
  | .grid _ => onGrid s1 fun g => { g with phase := .held (.group 0) }

theorem witness_waveReleases : let s := releaseBench 0x9620000F (.wave 3)
    Distinct s ∧ s.block? 2 = some (theBlock s) ∧ s.grid? (theBlock s).grid = some (theGrid s) ∧ (theBlock s).phase = .ready ∧
    (∀ x ∈ s.waves, ∀ y ∈ s.waves, x.block = 2 → y.block = 2 → x.index = y.index → x = y) ∧ waitsAt s (theWave s) 15 ∧
    waitGoesOn (theGrid s).kernel (theBlock s) (s.wavesOf 2) 15 (theWave s).index :=
  ⟨distinct_of (by decide +kernel), by decide +kernel, by decide +kernel, by decide +kernel, by decide +kernel,
    ⟨by decide +kernel, by decide +kernel, by decide +kernel⟩, .inl (by decide +kernel)⟩

theorem witness_blockReleases : (let s := onGrid (releaseBench 0xA620000F (.block 2)) fun g =>
        { g with kernel := { g.kernel with barset := 0x40000000 } }
     s.block? 2 = some (theBlock s) ∧ s.grid? (theBlock s).grid = some (theGrid s) ∧
     (∀ x ∈ s.wavesOf 2, x.phase ≠ .held (.barrier 15)) ∧ blockRuns s (theBlock s) = true ∧ (theBlock s).phase ≠ .ready ∧
     nextOfBlock s (theBlock s) = .own (.wait 2 15) ∧
     waitGoesOn (theGrid s).kernel (theBlock s) (s.wavesOf 2) 15 16) ∧
    (let s := releaseBench 0xA6200010 (.block 2)
     (theGrid s).phase = .ready ∧ blockRuns s (theBlock s) = true ∧ nextOfBlock s (theBlock s) = .own (.wait 2 16) ∧
     groupOf (theBlock s) 16 = some (0, 4) ∧ (s.groupEntry (theGrid s) 0).gen ≠ (theBlock s).points.getD 4 0) ∧
    (let s := releaseBench 0xB6200000 (.grid 1)
     (theBlock s).phase = .ready ∧ gridRuns s (theGrid s) = true ∧ (theGrid s).phase ≠ .ready ∧
     nextOfGrid s (theGrid s) = .own (.wait 3 0) ∧ (s.groupEntry (theGrid s) 0).gen ≠ (theGrid s).point) := by
  refine ⟨⟨by decide +kernel, by decide +kernel, by decide +kernel, by decide +kernel, by decide +kernel, by decide +kernel,
    .inl (by decide +kernel)⟩, ?_⟩
  and_intros <;> decide +kernel

/-- The vote instances of a block, and what its grid has so far. -/
def endBench (v gv pv : VoteState) : State := onGrid (onBlock waveBench fun b => { b with votes := v, gvotes := gv }) fun g => { g with votes := pv }

def oneVote : VoteState := { zeroVote with given := [(0, true, false)], kd := 3 }

theorem everyone_of {k : Kernel} {b : Block} {ws : List Wave} {v : VoteState}
    (h : (!v.delivered.isEmpty && (List.range k.waves).all fun i => v.delivered.contains i || agentExited b ws i) = true) :
    everyoneVoted k b ws v := by
  simp only [Bool.and_eq_true, Bool.not_eq_true', List.isEmpty_eq_false_iff, List.all_eq_true, Bool.or_eq_true,
    List.contains_iff_mem, List.mem_range] at h
  exact ⟨h.1, h.2⟩

theorem witness_blockVotes : (let s := endBench oneVote zeroVote zeroVote
     s.block? 2 = some (theBlock s) ∧ s.grid? (theBlock s).grid = some (theGrid s) ∧ ctxRuns s (theBlock s).ctx = true ∧
     (theBlock s).gvotes.delivered = [] ∧ everyoneVoted (theGrid s).kernel (theBlock s) (s.wavesOf 2) (theBlock s).votes) ∧
    (let s := endBench zeroVote zeroVote zeroVote
     ¬ everyoneVoted (theGrid s).kernel (theBlock s) (s.wavesOf 2) (theBlock s).votes) :=
  ⟨⟨by decide +kernel, by decide +kernel, by decide +kernel, by decide +kernel, everyone_of (by decide +kernel)⟩,
    fun h => h.1 (by decide +kernel)⟩

theorem witness_gridVotes : (∀ p ∈ [zeroVote, { oneVote with kd := 4 }], let s := endBench zeroVote oneVote p
     Distinct s ∧ (theBlock s).votes.delivered = [] ∧ (theBlock s).gvotes.mode ≠ 3 ∧
     everyoneVoted (theGrid s).kernel (theBlock s) (s.wavesOf 2) (theBlock s).gvotes ∧ s.partsOf (theGrid s) = [theGrid s] ∧
     (theGrid s).votes.number ≤ (theBlock s).gvotes.number) ∧
    ¬ partClash zeroVote oneVote ∧ partClash { oneVote with kd := 4 } oneVote := by
  refine ⟨fun p h => ?_, fun h => h.1 (by decide), by decide, .inl (by decide)⟩
  fin_cases h <;> exact ⟨distinct_of (by decide +kernel), by decide +kernel, by decide +kernel, everyone_of (by decide +kernel),
    by decide +kernel, by decide +kernel⟩

theorem witness_gridComplete : let s := endBench zeroVote zeroVote { zeroVote with given := [(2, true, false)] }
    Distinct s ∧ s.grid? 1 = some (theGrid s) ∧ ctxRuns s (theGrid s).ctx = true ∧ (theGrid s).votes.delivered ≠ [] ∧
    ∀ p ∈ s.grids, p.nblk ≤ p.nextBlock ∧ p.replace = [] ∧ ∀ y ∈ s.blocks, y.grid = p.id → y.id ∈ (theGrid s).votes.delivered :=
  ⟨distinct_of (by decide +kernel), by decide +kernel, by decide +kernel, by decide +kernel, by decide +kernel⟩

theorem witness_acqGrants : ∀ n ∈ [16, 1000], let s := onBlock (acqBench n) fun b => { b with phase := .held .acq }
    s.block? 2 = some (theBlock s) ∧ s.grid? (theBlock s).grid = some (theGrid s) ∧ (theBlock s).phase = .held .acq ∧
    blockRuns s (theBlock s) = true ∧ (theBlock s).acqDone = false ∧ (theBlock s).tokens.length < 4 ∧
    (acqRoom s (theBlock s) (theGrid s)).isSome = decide (n = 16) := by
  intro n h
  fin_cases h <;> exact ⟨by decide +kernel, by decide +kernel, by decide +kernel, by decide +kernel, by decide +kernel,
    by decide +kernel, by decide +kernel⟩

/-- A copy of four bytes and four zeros on its way to offset 8. -/
def aCopy : CopyInFlight := ⟨7, 63, 8, 8, [⟨0, 0x80000000, 4⟩], List.replicate 17 0⟩

theorem witness_landing : let s := onWave waveBench fun w =>
      { w with copies := [aCopy], copyRanges := [⟨7, 8, 8⟩], tagCounts := w.tagCounts.set 7 1 }
    s.wave? 3 = some (theWave s) ∧ s.block? (theWave s).block = some (theBlock s) ∧ ctxRuns s (theBlock s).ctx = true ∧
    (theWave s).copies[0]? = some aCopy ∧ Memory.wf (theBlock s).scratch = true ∧ mapWf 0 (theBlock s).tags = true ∧
    (aCopy.parts.map (·.len)).sum ≤ aCopy.size ∧ (theWave s).index < 16 ∧
    copyRace (theBlock s) (s.wavesOf 2) ⟨(theWave s).index, aCopy.know, (theWave s).clock.count, (theBlock s).epochSeen, 0⟩ aCopy
      ((theWave s).copyRanges.erase ⟨7, 8, 8⟩) (theWave s).index = none ∧
    ∀ p ∈ aCopy.parts, farBad s ⟨spaceOfCode p.space, p.addr⟩ p.len = false := by
  and_intros <;> decide +kernel

theorem witness_blockEnds : (let s := onWave (onBlock waveBench fun b => { b with phase := .exited }) fun w => { w with phase := .exited }
     s.block? 2 = some (theBlock s) ∧ s.grid? (theBlock s).grid = some (theGrid s) ∧ (∃ l, s.launch? (theGrid s).launch = some l) ∧
     (theBlock s).phase = .exited ∧ (theBlock s).ended = false ∧ ctxRuns s (theBlock s).ctx = true ∧
     engineDrained (theBlock s) = true ∧ ∀ w ∈ s.waves, w.block = 2 → w.phase = .exited) ∧
    (theBlock waveBench).phase ≠ .exited := by
  refine ⟨⟨by decide +kernel, by decide +kernel, ⟨_, by rfl⟩, by decide +kernel, by decide +kernel, by decide +kernel,
    by decide +kernel, by decide +kernel⟩, by decide +kernel⟩

/-! ### The engines at work (R71, R72, R75 to R88, R334) -/

/-- A queue whose only command is c. -/
def engineBench (q : EngineQueue) (c : Command) : State := onBlock (withData blockBench) fun b => setQueue b q [c]

theorem engineTurn_of {s : State} {b : Block} {q : EngineQueue} {c : Command} (hb : BlockSized b)
    (h : (s.block? b.id == some b && engineRuns s b q && headOf b q == some c && c.request.isNone) = true) : EngineTurn s b q c := by
  simp only [Bool.and_eq_true, beq_iff_eq, Option.isNone_iff_eq_none] at h
  exact ⟨h.1.1.1, hb, h.1.1.2, h.1.2, h.2⟩

theorem engineBench_sized (q : EngineQueue) (c : Command) : BlockSized (theBlock (engineBench q c)) := by
  cases q <;> constructor <;> rfl

theorem engineBench_turn {q : EngineQueue} {c : Command} (h : (let s := engineBench q c
    s.block? (theBlock s).id == some (theBlock s) && engineRuns s (theBlock s) q && headOf (theBlock s) q == some c &&
      c.request.isNone) = true) : EngineTurn (engineBench q c) (theBlock (engineBench q c)) q c :=
  engineTurn_of (engineBench_sized q c) h

def matrixStarts : List Instr := [.mswap, .mpred 1 2 0 0 0, .mzero 1 0 0, .mldw 1 0 1, .mstrm 1 2 0 0 0, .mcpy 0 0 1 2 0 0]

theorem witness_matrixStarts : ∀ i ∈ matrixStarts, let c := aCommand i
    EngineTurn (engineBench .matrix c) (theBlock (engineBench .matrix c)) .matrix c ∧ c.started = false := by
  intro i h
  fin_cases h <;> exact ⟨engineBench_turn (by decide +kernel), rfl⟩

def copyCommand (i : Instr) (v : Dword) : Command := { aCommand i with d := 64, a := 0x80000000, b := v }

theorem witness_copyStarts : (∀ e ∈ [(Instr.bcopy 1 2 3 0 4, (16 : Dword)), (.bcopy 1 2 3 1 4, 16), (.bcopy 1 2 3 0 4, 16 + 2 ^ 23),
      (.hist 1 2 3 4, 1), (.qscale 1 2 3 4, 64)], let c := copyCommand e.1 e.2
      EngineTurn (engineBench .copy c) (theBlock (engineBench .copy c)) .copy c ∧ c.started = false) ∧
    (let c := copyCommand (.bcopy 1 2 3 0 4) (16 + 2 ^ 23)
     (engineBench .copy c).ctx? (theBlock (engineBench .copy c)).ctx = some benchContext ∧ canonical c.a = true ∧
     translate (engineBench .copy c) benchContext 0 c.a .copyRead = .ok (dataStart .copyRead) ∧ placeFmt (dataStart .copyRead) = 0 ∧
     c.b.getLsbD 23 = true) := by
  refine ⟨fun e h => ?_, ?_, ?_, ?_, ?_, ?_⟩
  · fin_cases h <;> exact ⟨engineBench_turn (by decide +kernel), rfl⟩
  all_goals decide +kernel

def gatherCommand : Command := copyCommand (.gath 1 2 3 4) (0x4000 + 2 ^ 32 + 16 * 2 ^ 48)

theorem witness_gatherStarts : EngineTurn (engineBench .gather gatherCommand) (theBlock (engineBench .gather gatherCommand)) .gather
      gatherCommand ∧ gatherCommand.started = false ∧
    engineRaceAt (engineBench .gather gatherCommand) (theBlock (engineBench .gather gatherCommand)) 2 0 .gather
      (commandAccessor (theBlock (engineBench .gather gatherCommand)) gatherCommand) false 0x4000 4 = none :=
  ⟨engineBench_turn (by decide +kernel), rfl, by decide +kernel⟩

theorem witness_joins : ∀ m ∈ [4, 31], let c := aCommand (.qjoin m)
    EngineTurn (engineBench .copy c) (theBlock (engineBench .copy c)) .copy c ∧
    ((∀ p ∈ [EngineQueue.matrix, .sort, .copy, .gather, .coll], m.getLsbD (queueBit p) = true →
      ∃ x, headOf (theBlock (engineBench .copy c)) p = some x ∧ x.serial = c.serial) ↔ m = 4) := by
  intro m h
  fin_cases h
  · refine ⟨engineBench_turn (by decide +kernel), fun _ => rfl, fun _ p hp hm => ?_⟩
    fin_cases hp <;> first
      | exact absurd hm (by decide)
      | exact ⟨_, by rfl, rfl⟩
  · refine ⟨engineBench_turn (by decide +kernel), fun h => ?_, fun h => absurd h (by decide)⟩
    obtain ⟨x, hx, -⟩ := h .matrix (by decide) (by decide)
    exact absurd hx (by rw [show headOf (theBlock (engineBench .copy (aCommand (.qjoin 31)))) .matrix = none from rfl]; simp)

/-- A COLL of one member, with 64 bytes at offset 0x2000. -/
def collCommand : Command :=
  { copyCommand (.coll 1 2 3 4) 64 with a := 0x2000, work := [0, 0] }

theorem witness_collStarts : (let s := engineBench .coll collCommand
     let b := theBlock s
     EngineTurn s b .coll collCommand ∧ collCommand.started = false ∧ earlierColl s b collCommand = false ∧
     engineRaceAt s b 2 0 .coll (commandAccessor b collCommand) false 0x2000 64 = none ∧ s.colls = [] ∧
     membersReached s collCommand) ∧
    (let s := onBlock (engineBench .coll collCommand) fun b => setQueue b .coll [{ collCommand with step := 1 }, collCommand]
     earlierColl s (theBlock s) { collCommand with step := 1 } = true) ∧
    (let c := { collCommand with work := [0, 0, 3] }
     let s := engineBench .coll c
     EngineTurn s (theBlock s) .coll c ∧ earlierColl s (theBlock s) c = false ∧ ¬ membersReached s c) := by
  refine ⟨⟨engineBench_turn (by decide +kernel), rfl, by decide +kernel, by decide +kernel, by decide +kernel, ?_⟩,
    by decide +kernel, engineBench_turn (by decide +kernel), by decide +kernel, fun h => ?_⟩
  · intro k m hk hne
    cases k with
    | zero => exact absurd rfl hne
    | succ k => simp [collCommand] at hk
  · exact absurd (h 1 3 rfl (by decide)) (by decide +kernel)

def castCommand (started : Bool) : Command :=
  let e := (theBlock blockBench).index + 0x1000 * 2 ^ 20
  { copyCommand (.bmcast 1 2 3) 64 with d := 0x200, started := started, work := if started then [0, 0, e] else [e],
                                        dests := [⟨0, 0x1000, 0, 0, []⟩] }

theorem witness_castStarts : let s := engineBench .copy (castCommand false)
    EngineTurn s (theBlock s) .copy (castCommand false) ∧ s.ctx? (theBlock s).ctx = some benchContext ∧
    translate s benchContext 0 0x80000000 .copyRead = .ok (dataStart .copyRead) ∧ (∀ y ∈ s.blocks, s.block? y.id = some y) ∧
    ∀ e ∈ (castCommand false).work, badEntry s (theBlock s) 64 (BitVec.ofNat 64 e) = false ∧
      badFormat s (theBlock s) (castCommand false) (placeFmt (dataStart .copyRead)) (placeGeo (dataStart .copyRead)) (BitVec.ofNat 64 e) = false := by
  refine ⟨engineBench_turn (by decide +kernel), ?_, ?_, ?_, ?_⟩ <;> decide +kernel

/-- The stretches that a command of the bench reaches. -/
def reachedOf (s : State) (k : Access) (l : List (Nat × Nat)) : List Reached :=
  match reachAll s benchContext 0 k l with
  | .ok rs => rs
  | _ => []

theorem reached_of {s : State} {k : Access} {l : List (Nat × Nat)}
    (h : (match reachAll s benchContext 0 k l with | .ok _ => true | _ => false) = true) :
    reachAll s benchContext 0 k l = .ok (reachedOf s k l) := by
  unfold reachedOf
  split at h
  · simp_all
  · cases h

/-- One unit of 16 bytes of a BCOPY, toward scratchpad or away from it. -/
def unitCommand (out : BitVec 1) : Command := { copyCommand (.bcopy 1 2 3 out 4) 16 with started := true, units := 1, work := [16] }

theorem picks_of {s : State} {b : Block} {q : EngineQueue} {c : Command} {choice : Nat}
    (h : (c.done == 0 && pickUnit c.done c.units c.ahead choice == some 0) = true) : PicksUnit s b q c choice 0 := by
  simp only [Bool.and_eq_true, beq_iff_eq] at h
  exact ⟨0, h.2, by simp [unitInPrefix, h.1]⟩

theorem witness_copyUnits : (let c := unitCommand 0
     let s := engineBench .copy c
     let b := theBlock s
     let rs := reachedOf s .copyRead (stretchesOf ((unitBytes 16 0).map (copySource c (c.phase == 1))))
     EngineTurn s b .copy c ∧ Unwatched s 0 ∧ PicksUnit s b .copy c 5 0 ∧
     reachAll s benchContext 0 .copyRead (stretchesOf ((unitBytes 16 0).map (copySource c (c.phase == 1)))) = .ok rs ∧
     reachedRace s b (commandAccessor b c) .copy false rs = none ∧
     countedRace s b 2 0 .copy (commandAccessor b c) 0 true [(64, 16)] = none ∧
     (readReached (markReached s b (commandAccessor b c) false rs) rs).length = 16 ∧
     CanLand b 0 [(64, List.replicate 16 0)]) ∧
    (let c := unitCommand 1
     let s := engineBench .copy c
     let b := theBlock s
     let rs := reachedOf s .copyWrite (stretchesOf ((unitBytes 16 0).map (c.a.toNat + ·)))
     EngineTurn s b .copy c ∧ PicksUnit s b .copy c 5 0 ∧
     reachAll s benchContext 0 .copyWrite (stretchesOf ((unitBytes 16 0).map (c.a.toNat + ·))) = .ok rs ∧
     countedRace s b 2 0 .copy (commandAccessor b c) 0 false [(64, 16)] = none ∧
     reachedRace s b (commandAccessor b c) .copy true rs = none ∧ countsFit (readSync b 0) [16]) :=
  ⟨⟨engineBench_turn (by decide +kernel), unwatched_of (by decide +kernel), picks_of (by decide +kernel), reached_of (by decide +kernel),
    by decide +kernel, by decide +kernel, by decide +kernel,
    ⟨by decide +kernel, by decide +kernel, by decide +kernel, by decide +kernel, trivial⟩⟩,
   engineBench_turn (by decide +kernel), picks_of (by decide +kernel), reached_of (by decide +kernel), by decide +kernel, by decide +kernel,
   by decide +kernel, trivial⟩

theorem witness_gatherUnits : ∀ idx ∈ [0xFFFFFFFF, 1], let c := { gatherCommand with started := true, units := 1, work := [idx] }
    let s := engineBench .gather c
    let b := theBlock s
    let l := stretchesOf ((List.range 16).map ((c.a.toNat + 16) % 2 ^ 64 + ·))
    EngineTurn s b .gather c ∧ PicksUnit s b .gather c 0 0 ∧ c.work.getD 0 0 = idx ∧
    field c.b 48 13 = 16 ∧ reachAll s benchContext 0 .copyRead l = .ok (reachedOf s .copyRead l) ∧
    reachedRace s b (commandAccessor b c) .gather false (reachedOf s .copyRead l) = none ∧
    countedRace s b 2 0 .gather (commandAccessor b c) 0 true [(64, 16)] = none ∧
    CanLand b 0 (cutPieces 64 (List.replicate 16 0)) := by
  intro idx h
  fin_cases h <;> exact ⟨engineBench_turn (by decide +kernel), picks_of (by decide +kernel), by decide +kernel, by decide +kernel,
    reached_of (by decide +kernel), by decide +kernel, by decide +kernel,
    by decide +kernel, by decide +kernel, by decide +kernel, by decide +kernel, trivial⟩

theorem witness_histogram : (let c := { copyCommand (.hist 1 2 3 4) 1 with a := 0x400, started := true, units := 1 }
     let s := engineBench .copy c
     let b := theBlock s
     EngineTurn s b .copy c ∧ PicksUnit s b .copy c 0 0 ∧
     engineRaceAt s b 2 0 .copy (commandAccessor b c) false 0x400 4 = none ∧
     countedRace s b 2 0 .copy (commandAccessor b c) 0 true [(64, 272)] = none ∧ Memory.wf b.scratch = true ∧
     (progressUnit c 0).units ≤ (progressUnit c 0).done ∧ countsFit (readSync b 0) [272]) ∧
    (let c := { copyCommand (.qscale 1 2 3 4) (64 + 0x800 * 2 ^ 32) with d := 256, a := 0x1000, started := true, units := 1 }
     let s := engineBench .copy c
     let b := theBlock s
     EngineTurn s b .copy c ∧ PicksUnit s b .copy c 0 0 ∧
     engineRaceAt s b 2 0 .copy (commandAccessor b c) false 0x1000 256 = none ∧
     engineRaceAt s b 2 0 .copy (commandAccessor b c) false 0x800 272 = none ∧
     countedRace s b 2 0 .copy (commandAccessor b c) 0 true [(256, 32), (288, 8), (296, 2)] = none ∧
     CanLand b 0 [(256, List.replicate 32 0), (288, List.replicate 8 0), (296, [0, 0])]) :=
  ⟨⟨engineBench_turn (by decide +kernel), picks_of (by decide +kernel), by and_intros <;> trivial⟩,
   engineBench_turn (by decide +kernel), picks_of (by decide +kernel), by and_intros <;> first | trivial | decide +kernel | (constructor <;> first | decide +kernel | trivial)⟩

/-- An instance of that COLL with the source of its member, or with none. -/
def collInstance (sources : List (Nat × List Byte)) : CollInstance := ⟨0, 0, 0, [0, 0, 64, 0], sources, []⟩

def collUnit : Command := { collCommand with started := true, units := 1 }

theorem witness_collUnits : (let s := { engineBench .coll collUnit with colls := [collInstance [(0, List.replicate 64 0)]] }
     EngineTurn s (theBlock s) .coll collUnit ∧ PicksUnit s (theBlock s) .coll collUnit 0 0 ∧
     instanceOf s 0 0 0 0 = some (collInstance [(0, List.replicate 64 0)]) ∧ (collInstance []).params ≠ [] ∧
     countedRace s (theBlock s) 2 0 .coll (commandAccessor (theBlock s) collUnit) 0 true [(64, 64)] = none ∧
     (∀ k ∈ (queueOf (theBlock s) .coll).tail, k.serial ≠ collUnit.serial) ∧
     CanLand (theBlock s) 0 [(64, List.replicate 64 0)]) ∧
    (let y : CollInstance := ⟨0, 0, 0, [0, 0, 64, 0, 1], [(0, List.replicate 64 0)], []⟩
     let s := { engineBench .coll collUnit with colls := [y] }
     instanceOf s 0 0 0 0 = some y ∧ ∃ r, r < 2 ∧ ∀ q ∈ y.sources, q.1 ≠ r) ∧
    (let y : CollInstance := { collInstance [] with ended := [0] }
     ({ blockBench with colls := [y] } : State).colls.find? (fun y => y.ctx == 0 && y.group == 0 && y.inst == 0) = some y ∧
     ∀ r, r + 3 < y.params.length → r ∈ y.ended) := by
  refine ⟨⟨engineTurn_of (by constructor <;> decide +kernel) (by decide +kernel), picks_of (by decide +kernel),
    by and_intros <;> first | trivial | decide +kernel | (constructor <;> first | decide +kernel | trivial)⟩, ⟨by decide +kernel, 1, by decide, by decide⟩, by decide +kernel, fun r hr => ?_⟩
  have : r = 0 := by
    simp [collInstance] at hr; omega
  subst this; decide

theorem witness_castGranules : ∀ held ∈ [[], [(0x80000000, List.replicate 64 (0 : Byte))]], let c := { castCommand true with held := held }
    let s := engineBench .copy c
    let l := stretchesOf (((unitBytes (castBytes c 0) 0).map (copySource c false)).filter fun va => (heldByte c va).isNone)
    EngineTurn s (theBlock s) .copy c ∧ (∀ y ∈ s.blocks, s.block? y.id = some y) ∧
    (castChoices s (theBlock s) c)[3 % (castChoices s (theBlock s) c).length]? = some (0, 0) ∧
    castTarget s (theBlock s) (castBlk (castOf c 0)) = some (theBlock s) ∧ castFormat c 0 = false ∧
    (heldByte c 0x80000000).isNone = held.isEmpty ∧ reachAll s benchContext 0 .copyRead l = .ok (reachedOf s .copyRead l) ∧
    reachedRace s (theBlock s) (commandAccessor (theBlock s) c) .copy false (reachedOf s .copyRead l) = none ∧
    countedRace s (theBlock s) 2 0 .copy ⟨16, c.know, c.count, (theBlock s).epochSeen, c.serial⟩ 0 true [(0x1000, 64)] = none ∧
    CanLand (theBlock s) 0 [(0x1000, List.replicate 64 0)] := by
  intro held h
  fin_cases h <;> exact ⟨engineBench_turn (by decide +kernel), by decide +kernel, by decide +kernel, by decide +kernel,
    by decide +kernel, by decide +kernel, reached_of (by decide +kernel), by decide +kernel, by decide +kernel,
    by decide +kernel, by decide +kernel, by decide +kernel, by decide +kernel, trivial⟩

theorem witness_units : let c := { aCommand .mswap with done := 0, ahead := [2, 15] }
    c.ahead.Nodup ∧ (∀ v ∈ c.ahead, c.done < v ∧ v < c.done + 16) ∧ (∀ u ∈ [0, 14], c.done ≤ u ∧ u < c.done + 16 ∧ u ∉ c.ahead) := by
  decide

/-! ### The matrix engine and the sort array (R177 to R182, R187 to R209) -/

/-- A block with accumulator rows whose predicates name row and column 127, 16 rows, or 17. -/
def matrixBench (c : Command) (rows : BitVec 128) : State :=
  onBlock (engineBench .matrix c) fun b => { b with mr := b.mr.set 0 rows, mc := b.mc.set 0 (1 <<< 127), accRows := 512 }

theorem matrixBench_turn {c : Command} {rows : BitVec 128} (h : (let s := matrixBench c rows
    s.block? (theBlock s).id == some (theBlock s) && engineRuns s (theBlock s) .matrix && headOf (theBlock s) .matrix == some c &&
      c.request.isNone) = true) : EngineTurn (matrixBench c rows) (theBlock (matrixBench c rows)) .matrix c :=
  engineTurn_of (by constructor <;> rfl) h

theorem matrixTurn_of {s : State} {c : Command} (ht : EngineTurn s (theBlock s) .matrix c)
    (h : (matrixNext s (theBlock s).isle (theBlock s).core).map (·.id) = some (theBlock s).id) : MatrixTurn s (theBlock s) c := by
  refine ⟨ht, ?_⟩
  cases hx : matrixNext s (theBlock s).isle (theBlock s).core with
  | none => rw [hx] at h; cases h
  | some x => exact ⟨x, rfl, by rw [hx] at h; simpa using h⟩

theorem witness_matrixGrants : (∀ i ∈ matrixStarts, MatrixTurn (matrixBench (aCommand i) 3) (theBlock (matrixBench (aCommand i) 3))
      (aCommand i)) ∧
    (let s := matrixBench (aCommand (.mzero 1 0 0)) (1 <<< 127)
     mapWf 0 (theBlock s).acc = true ∧ ∀ i, i < 128 → ((theBlock s).mr.getD 0 0).getLsbD i = true → 0 + i < (theBlock s).accRows) ∧
    (let c := { aCommand (.mldw 1 0 1) with work := [1, 0, 0, 32768, 40960] }
     let s := matrixBench c 0
     MatrixTurn s (theBlock s) c ∧ planePieces c.work = [(0, 32768)] ∧ 32768 ≤ blockBytes (theBlock s) ∧
     engineRaceAt s (theBlock s) 2 0 .matrix (commandAccessor (theBlock s) c) false 0 32768 = none) := by
  refine ⟨fun i h => ?_, ⟨by decide +kernel, by decide +kernel⟩,
    matrixTurn_of (matrixBench_turn (by decide +kernel)) (by decide +kernel), by decide +kernel, by decide +kernel, by decide +kernel⟩
  fin_cases h <;> exact matrixTurn_of (matrixBench_turn (by decide +kernel)) (by decide +kernel)

/-- Two blocks of one core with commands in their matrix queues; the one in slot 1 was served last. -/
def turnBench : State :=
  let s := matrixBench (aCommand .mswap) 0
  { s with blocks := s.blocks.flatMap fun b => [{ b with slot := 1 }, { b with id := 9, slot := 0 }], grants := [(0, 64)] }

theorem witness_roundRobin : EngineTurn turnBench (theBlock turnBench) .matrix (aCommand .mswap) ∧
    (matrixNext turnBench 0 0).map (·.id) = some 9 ∧ matrixReady turnBench (theBlock turnBench) = true ∧ (theBlock turnBench).slot < 8 :=
  ⟨engineTurn_of (by constructor <;> rfl) (by decide +kernel), by decide +kernel, by decide +kernel, by decide +kernel⟩

theorem witness_streams : (∀ rows ∈ [3, 0x1FFFF], let c := aCommand (.mstrm 1 2 0 0 0)
     let s := onBlock (matrixBench c rows) fun b => { b with active := { b.active with fmt := 1 } }
     MatrixTurn s (theBlock s) c ∧ mapWf 0 (theBlock s).acc = true ∧ accBad (theBlock s) 0 rows ((theBlock s).mc.getD 0 0) = false ∧ streamPairs 1 0 = true ∧
     (∀ i ∈ activeOf rows, 0 + i < (theBlock s).accRows ∧
       rowStart c.a (streamRowBytes 1 0) i + streamRowBytes 1 0 ≤ blockBytes (theBlock s)) ∧
     (∀ i ∈ (activeOf rows).take 16, engineRaceAt s (theBlock s) 2 0 .matrix (commandAccessor (theBlock s) c) false
       (rowStart c.a (streamRowBytes 1 0) i) (streamRowBytes 1 0) = none)) ∧
    ∀ x ∈ [0, 1], let c := { aCommand (.mcpy 0 x 1 2 0 0) with d := BitVec.ofNat 64 x.toNat }
      let s := matrixBench c 3
      MatrixTurn s (theBlock s) c ∧ (∀ i ∈ activeOf 3, 0 + i < (theBlock s).accRows) ∧ mapWf 0 (theBlock s).acc = true ∧
      accBad (theBlock s) 0 3 ((theBlock s).mc.getD 0 0) = false ∧
      ∀ i ∈ activeOf 3, ∀ q ∈ runsOf (activeOf ((theBlock s).mc.getD 0 0)),
        rowStart c.a 512 i + 4 * q.1 + 4 * q.2 ≤ blockBytes (theBlock s) ∧
        engineRaceAt s (theBlock s) 2 0 .matrix (commandAccessor (theBlock s) c) (x == 0) (rowStart c.a 512 i + 4 * q.1) (4 * q.2) = none := by
  refine ⟨fun rows h => ?_, fun x h => ?_⟩
  · fin_cases h <;> exact ⟨matrixTurn_of (engineTurn_of (by constructor <;> decide +kernel) (by decide +kernel)) (by decide +kernel),
      by decide +kernel, by decide +kernel, by decide +kernel, by decide +kernel, by decide +kernel⟩
  · fin_cases h <;> exact ⟨matrixTurn_of (matrixBench_turn (by decide +kernel)) (by decide +kernel), by decide +kernel, by decide +kernel, by decide +kernel, by decide +kernel⟩

/-- The sort array of the block's core, held by a block or by nobody, with a line before it. -/
def sortBench (c : Command) (holder : Option Nat) (line : List Nat) : State :=
  { engineBench .sort c with sorts := [⟨0, 0, holder, none, line, freshCells, []⟩] }

theorem sortBench_turn {c : Command} {h : Option Nat} {line : List Nat} (hc : (let s := sortBench c h line
    s.block? (theBlock s).id == some (theBlock s) && engineRuns s (theBlock s) .sort && headOf (theBlock s) .sort == some c &&
      c.request.isNone) = true) : EngineTurn (sortBench c h line) (theBlock (sortBench c h line)) .sort c :=
  engineTurn_of (by constructor <;> rfl) hc

theorem witness_sortStarts : ∀ i ∈ [Instr.srtld 1 2 4, .srtst 1 2 4, .srtgo 1 0 0 0 0], ∀ h ∈ [some 2, some 9, none],
    let s := sortBench (aCommand i) h []
    EngineTurn s (theBlock s) .sort (aCommand i) ∧ (sortArrayAt s 0 0).holder = h ∧ sortWaiters s (sortArrayAt s 0 0) = [] := by
  intro i hi h hh
  fin_cases hi <;> fin_cases hh <;> exact ⟨sortBench_turn (by decide +kernel), rfl, rfl⟩

theorem freshCells_length : freshCells.length = 16384 := by simp [freshCells]

theorem witness_sortSteps : (let c := { aCommand (.srtgo 1 0 0 0 0) with a := 0x0101, started := true }
     let s := sortBench c (some 2) []
     EngineTurn s (theBlock s) .sort c ∧ (sortArrayAt s 0 0).cells.length = 16384 ∧ (sortArrayAt s 0 0).bad = [] ∧
     field c.a 0 7 + 1 = 2 ∧ field c.a 8 7 + 1 = 2) ∧
    ∀ i ∈ [Instr.srtld 1 2 4, .srtst 1 2 4], let c := { aCommand i with a := 64, b := 127, started := true }
      let s := sortBench c (some 2) []
      EngineTurn s (theBlock s) .sort c ∧ (sortArrayAt s 0 0).cells.length = 16384 ∧ field c.b 0 7 + c.done < 128 ∧
      Memory.wf (theBlock s).scratch = true ∧ rowStart c.a 8 0 = 64 ∧
      countedRace s (theBlock s) 2 0 .sort (commandAccessor (theBlock s) c) 0 false [(64, 8)] = none ∧
      countedRace s (theBlock s) 2 0 .sort (commandAccessor (theBlock s) c) 0 true [(64, 8)] = none ∧ countsFit (readSync (theBlock s) 0) [8] ∧
      CanLand (theBlock s) 0 (cutPieces 64 (List.replicate 8 0)) := by
  refine ⟨⟨sortBench_turn (by decide +kernel), freshCells_length, rfl, by decide, by decide⟩, fun i h => ?_⟩
  fin_cases h <;> exact ⟨sortBench_turn (by decide +kernel), freshCells_length, by decide, by decide +kernel, by decide,
    by decide +kernel, by decide +kernel, ⟨by decide +kernel, trivial⟩,
    by decide +kernel, by decide +kernel, by decide +kernel, by decide +kernel, trivial⟩

/-! ### Launches and graphs (R231, R313, R316, R320, R321, R328) -/

/-- Isle 0 with every core usable and ten tokens for tenant 0, and the data page. -/
def servedBench : State :=
  let s := withData waveBench
  let s1 := s.putIsle 0 { s.isle 0 with units := 0xFFFFFFFF, tenb := 0x5000 }
  { s1 with hbm := writeBytes s.hbm 0x5004 (leBytes 4 100 ++ leBytes 4 10) }

def placeBench (again kept : Bool) : State :=
  let room : List (Nat × Allotment) := if kept then [(1, ⟨0, 1, 16, 16, 16, 16, [(0, 0, 1)]⟩)] else []
  let s := onGrid servedBench fun g => { g with nblk := 2, replace := if again then [0] else [], reserved := room }
  if again then onBlock s fun b => { b with ended := true } else s

/-- A grid of a second context's tenant, whose turn it is, wants the room too. -/
def rivalBench : State :=
  let s := placeBench false false
  { s with contexts := s.contexts ++ [{ benchContext with index := 1, tenant := 1 }],
           grids := s.grids ++ [{ theGrid s with id := 8, ctx := 1, slot := 1 }],
           hbm := writeBytes s.hbm 0x5024 (leBytes 4 100 ++ leBytes 4 10), served := [(0, 1)] }

theorem witness_placements : (∀ q ∈ [(false, false, 1, 1), (true, false, 1, 0), (false, true, 0, 1)],
      let s := placeBench q.1 q.2.1
      s.grid? 1 = some (theGrid s) ∧ (∃ l a, placement s (theGrid s) q.2.2.1 = some (l, q.2.2.2, a, q.2.1)) ∧
      ((theGrid s).replace ≠ [] → ∀ y ∈ s.blocks, y.grid = 1 → y.index = q.2.2.2 → y.ended = true) ∧
      tenantTurn s 0 (tenantOf s 0) (wantsSlot s 0 q.2.2.1) = true ∧ demandPartition s (theGrid s) q.2.2.1 = s) ∧
    placement servedBench (theGrid servedBench) 1 = none ∧ demandPartition servedBench (theGrid servedBench) 1 = servedBench ∧
    (tenantTurn rivalBench 0 (tenantOf rivalBench 0) (wantsSlot rivalBench 0 1) = false ∧
     (placement rivalBench (theGrid rivalBench) 1).isSome = true) := by
  have h : ∀ {o : Option (Launch × Nat × Allotment × Bool)} {i : Nat} {k : Bool},
      (o.any fun r => r.2.1 == i && r.2.2.2 == k) = true → ∃ l a, o = some (l, i, a, k) := by
    rintro (_ | ⟨l, i, a, k⟩) i' k' h
    · cases h
    · simp only [Option.any_some, Bool.and_eq_true, beq_iff_eq] at h
      exact ⟨l, a, by rw [h.1, h.2]⟩
  refine ⟨fun q hq => ?_, by decide +kernel, by decide +kernel, by decide +kernel, by decide +kernel⟩
  fin_cases hq <;> exact ⟨by decide +kernel, h (by decide +kernel), by decide +kernel, by decide +kernel, by decide +kernel⟩

/-- A queue of the context. -/
def aQueue : Queue :=
  { index := 0, enabled := true, ring := 0x80001000, log2 := 2, pubn := 8, ctx := 0, wptr := 0, rptr := 0x80002000, qstat := 0,
    next := some 0, sincePub := 0, taken := 0, openPackets := [], wait := .none, graphs := [], owed := [], request := none,
    failedAt := none, readySince := none, heldCode := [], heldOpen := [] }

/-- A kernel's descriptor (R375): entry 64, one wave of 64 threads, one granule, every register uniform, foot 73. -/
def descriptor (flags : Nat) : List Byte :=
  leBytes 4 64 ++ leBytes 2 73 ++ [8, BitVec.ofNat 8 flags, 1, 64] ++ leBytes 2 1 ++ List.replicate 24 0 ++ List.replicate 28 0

def anObject : CodeObject := ⟨0x40000000, [⟨1, 0x40000000, 128, [128], [false]⟩]⟩

/-- A launch body of one block (R305). -/
def aBody (res : Nat) : List Dword := [0x40000000, BitVec.ofNat 64 (1 + 2 ^ 32 + 64 * 2 ^ 40 + res * 2 ^ 48), 0, 0, 0, 0, 0]

/-- The queue with a launch that waits for its admission. -/
def queueBench (flags : Nat) (q : Queue) (ls : List Launch) : State :=
  let s := onContext servedBench fun c => { c with objects := [anObject] }
  { s with hbm := writeBytes s.hbm 0x40000000 (descriptor flags), queues := [q], launches := s.launches ++ ls }

def aLaunch (gang : Bool) : Launch :=
  { benchLaunch with id := 1, gang := gang, bodies := [aBody 0], bound := [(0x40000000, 0)], admitted := false }

theorem planned {r : CpResult (Option (List StagePlan))} {f : State → StagePlan → Bool}
    (h : (match r with | .ok s (some [p]) => f s p | _ => false) = true) : ∃ s p, r = .ok s (some [p]) ∧ f s p = true := by
  split at h
  · exact ⟨_, _, rfl, h⟩
  · exact absurd h (by decide)

/-- The hypotheses of `Admissions`, and which clause they meet. -/
def AdmissionMet (s : State) (l : Launch) (f : State → StagePlan → Bool) : Prop :=
  ∃ c q, s.launch? l.id = some l ∧ (∀ g ∈ s.grids, g.launch ≠ l.id ∧ g.id < s.nextId) ∧ mapWf emptyGroup s.groups = true ∧
    s.ctx? l.ctx = some c ∧ s.queue? l.queue = some q ∧ waitsAdmission s l = true ∧ q.request = none ∧ l.isles = [0] ∧
    ∃ s1 p, readStages c l (List.range l.bodies.length) s [] = .ok s1 (some [p]) ∧ f s1 p = true

theorem admissionMet_of {s : State} {l : Launch} {c : Context} {q : Queue} {f : State → StagePlan → Bool}
    (h : (s.launch? l.id == some l && s.grids.all (fun g => g.launch != l.id && g.id < s.nextId) && mapWf emptyGroup s.groups &&
      s.ctx? l.ctx == some c && s.queue? l.queue == some q && waitsAdmission s l && q.request.isNone && l.isles == [0]) = true)
    (hp : (match readStages c l (List.range l.bodies.length) s [] with | .ok s (some [p]) => f s p | _ => false) = true) :
    AdmissionMet s l f := by
  simp only [Bool.and_eq_true, beq_iff_eq, List.all_eq_true, Option.isNone_iff_eq_none, bne_iff_ne, decide_eq_true_eq] at h
  exact ⟨c, q, h.1.1.1.1.1.1.1, h.1.1.1.1.1.1.2, h.1.1.1.1.1.2, h.1.1.1.1.2, h.1.1.1.2, h.1.1.2, h.1.2, h.2, planned hp⟩

def admitQueue : Queue := { aQueue with wait := .admission 1 }
def admitContext : Context := { benchContext with objects := [anObject] }
def admitBench (gang : Bool) : State := queueBench 0 admitQueue [aLaunch gang]
/-- Every group entry is taken. -/
def fullBench : State := onGrid (admitBench false) fun g => { g with runLen := 256 }
/-- The tenant has no tokens. -/
def poorBench : State := { admitBench false with hbm := writeBytes (admitBench false).hbm 0x5008 (leBytes 4 0) }

def roomOn (s : State) (p : StagePlan) : Bool :=
  !p.resident && (lowestFree ((s.gridsOn 0).map (·.slot)) 32).isSome && (freeRun (groupRunsOn s 0) 256 (1 + p.groups.length)).isSome

theorem witness_admissions : (∀ gang ∈ [false, true], AdmissionMet (admitBench gang) (aLaunch gang) fun s p =>
      admissionTurn s (aLaunch gang) 0 && !otherGang s (aLaunch gang) 0 && roomOn s p) ∧
    AdmissionMet fullBench (aLaunch false) (fun s p => admissionTurn s (aLaunch false) 0 && !p.resident && !roomOn s p) ∧
    AdmissionMet poorBench (aLaunch false) fun s _ => !admissionTurn s (aLaunch false) 0 := by
  refine ⟨fun g h => ?_, ?_, ?_⟩
  · fin_cases h <;> exact admissionMet_of (c := admitContext) (q := admitQueue) (by decide +kernel) (by decide +kernel)
  all_goals exact admissionMet_of (c := admitContext) (q := admitQueue) (by decide +kernel) (by decide +kernel)

def aGraph : GraphRun := ⟨0x80003000, 0, [], none, 0, 0, 5, 0⟩

/-- A queue with one graph whose nodes begin with the given bytes. -/
def graphBench (gr : GraphRun) (node : List Byte) (ls : List Launch) : State :=
  let s := queueBench 0 { aQueue with graphs := [gr] } ls
  { s with hbm := writeBytes s.hbm 0x80003000 (node ++ List.replicate (64 - node.length) 0) }

def graphQueue (gr : GraphRun) : Queue := { aQueue with graphs := [gr] }
def graphContext : Context := { benchContext with objects := [anObject] }

def graphHead (s : State) (gr : GraphRun) (c : Context) : Bool :=
  s.queue? 0 == some (graphQueue gr) && s.ctx? 0 == some c && (graphQueue gr).graphs.find? (graphReady s) == some gr

theorem witness_graphEnds : (∀ st ∈ [0, 7], let s := graphBench { aGraph with launch := some 1 } [] [{ aLaunch false with admitted := true, status := some st }]
      graphHead s { aGraph with launch := some 1 } graphContext = true ∧
      s.launch? 1 = some { aLaunch false with admitted := true, status := some st }) ∧
    (∀ n ∈ [0xFFFF, 4096, 0xFFFE], graphHead (graphBench { aGraph with node := n } [] []) { aGraph with node := n } graphContext = true) ∧
    graphHead (onContext (graphBench aGraph [] []) fun c => { c with halted := true }) aGraph { graphContext with halted := true } = true := by
  refine ⟨fun st h => ?_, by decide +kernel, by decide +kernel⟩
  fin_cases h <;> exact ⟨by decide +kernel, by decide +kernel⟩

/-- Bytes of a kernel node, a conditional, and a loop of two passes (R320). -/
def kernelNode : List Byte := [1, 0] ++ leBytes 2 9 ++ leBytes 4 0 ++ (aBody 0).flatMap fun w => leBytes 8 w.toNat
def condNode : List Byte := [2, 0] ++ leBytes 2 3 ++ leBytes 2 4 ++ leBytes 2 0 ++ leBytes 8 0x80004000 ++ leBytes 8 1
def loopNode : List Byte := [3, 0] ++ leBytes 2 0 ++ leBytes 2 4 ++ leBytes 2 0 ++ leBytes 8 0x80004000 ++ leBytes 8 0 ++ leBytes 4 2 ++ leBytes 2 6

/-- What reading the node, and then its word, comes to. -/
def nodeReads (s : State) (f : State → Node → Bool) : Bool :=
  match cpRead s 0 .load 0x80003000 64 with
  | .ok s1 bs => f s1 (nodeOf bs)
  | _ => false

def wordReads (s : State) : Bool :=
  match cpRead s 0 .load 0x80004000 8 with
  | .ok _ _ => true
  | _ => false

theorem witness_graphNodes : (graphHead (graphBench aGraph kernelNode []) aGraph graphContext &&
      nodeReads (graphBench aGraph kernelNode []) fun s1 n => n == .kernel 9 (aBody 0) &&
        match takeLaunch s1 (graphQueue aGraph) graphContext (aBody 0) false [0] true 5 0 0 with
        | .taken _ _ => true
        | _ => false) = true ∧
    (graphHead (graphBench aGraph condNode []) aGraph graphContext &&
      nodeReads (graphBench aGraph condNode []) fun s1 n => n == .cond 3 4 0x80004000 1 && wordReads s1) = true ∧
    (graphHead (graphBench aGraph loopNode []) aGraph graphContext &&
      nodeReads (graphBench aGraph loopNode []) fun s1 n => n == .loop 4 6 0x80004000 0 2 && wordReads s1) = true ∧
    nodeReads (graphBench aGraph [4] []) (fun _ n => n == .bad) = true := by
  refine ⟨?_, ?_, ?_, ?_⟩ <;> decide +kernel

/-- A pipeline of two stages whose queue, of depth one, is full. -/
def pipeLaunch : Launch := { benchLaunch with pipe := true, shares := [[0, 1], [2]], tileQueues := [⟨0, 0x80000000, 64, 1, 1, 1, [0], []⟩] }

theorem witness_shares : stageHeld pipeLaunch 0 = true ∧ stageHeld pipeLaunch 1 = false ∧ stageHungry pipeLaunch 1 = true ∧
    stageHungry { pipeLaunch with tileQueues := [] } 1 = false ∧ pipeLaunch.pipe = true ∧ pipeLaunch.admitted = true ∧
    0 ∈ pipeLaunch.isles ∧ coreUsable servedBench 0 3 = true := by decide +kernel

/-- Every agent has exited or waits; the grid has no more to place. -/
def idleBench : State :=
  let s := onWave (codeBench (.wave 3) 0x9620000F) fun w => { w with phase := .held (.barrier 15) }
  let s1 := onBlock s fun b => { b with phase := .exited }
  onGrid s1 fun g => { g with phase := .exited, kernel := { g.kernel with barset := 0xC0000000 } }

theorem witness_progress : idleBench.grid? 1 = some (theGrid idleBench) ∧ watchdogRuns idleBench (theGrid idleBench) = true ∧
    watchdogRuns servedBench (theGrid servedBench) = false := by
  refine ⟨?_, ?_, ?_⟩ <;> decide +kernel

/-! ### Pre-emption, saves, restores and tenants (R235, R311, R312, R331, R336, R345, R396) -/

theorem witness_preemptions : (∀ idem ∈ [false, true], let s := onBlock waveBench fun b => { b with idem := idem }
     s.ctx? 0 = some (theContext s) ∧ (theContext s).halted = false ∧ (theContext s).saved = false ∧
     (theContext s).preempting = false ∧ (∀ b ∈ s.blocks, b.idem = true → b.ended = false → s.block? b.id = some b ∧
       s.grid? b.grid = some (theGrid s)) ∧ ∀ l ∈ s.launches, l.admitted = true) ∧
    (onContext waveBench fun c => { c with saved := true }).ctx? 0 = some { benchContext with saved := true } := by
  refine ⟨fun q h => ?_, by decide +kernel⟩
  fin_cases h <;> and_intros <;> decide +kernel

/-- A context that is being pre-empted, halted or saved. -/
def leavingBench (c : Context) : State := onContext waveBench fun _ => c

theorem leavingBench_distinct (c : Context) : Distinct (leavingBench c) := by
  have h : Distinct waveBench := distinct_of (by decide +kernel)
  exact ⟨h.1, h.2, h.3⟩

theorem witness_saves : ∀ c ∈ [{ benchContext with preempting := true }, { benchContext with halted := true },
      { benchContext with saved := true }, benchContext],
    Distinct (leavingBench c) ∧ (leavingBench c).ctx? c.index = some c := fun c h =>
  ⟨leavingBench_distinct c, by fin_cases h <;> decide +kernel⟩

def savedContext : Context := { benchContext with saved := true, preempting := true, forced := true }
/-- The saved context's agents have stopped; the isle's cores are usable, or all fenced. -/
def savedBench (units : Dword) (resident : Bool) : State :=
  let s := leavingBench savedContext
  let s1 := onWave (onBlock s fun b => { b with phase := .stopped }) fun w => { w with phase := .stopped, preq := true }
  let s2 := onGrid s1 fun g => { g with phase := .stopped, resident := resident }
  s2.putIsle 0 { s2.isle 0 with units := units }

theorem witness_restores : (let s := savedBench 0xFFFFFFFF true
      (placeRestored s savedContext (savedAgents s savedContext)).isSome = true) ∧
    (let s := savedBench 0 true
     placeRestored s savedContext (savedAgents s savedContext) = none ∧ residentFits s savedContext (theGrid s).launch = false ∧
     (theGrid s).resident = true ∧ ∀ g ∈ s.grids, g.ctx = 0 → ∀ l ∈ s.launch? g.launch, l.admitted = true) ∧
    (let s := savedBench 0 false
     placeRestored s savedContext (savedAgents s savedContext) = none ∧ ∀ g ∈ s.grids, g.resident = false) ∧
    ∀ u ∈ [0, 0xFFFFFFFF], ∀ r ∈ [true, false], Distinct (savedBench u r) ∧ (savedBench u r).ctx? 0 = some savedContext := by
  refine ⟨by decide +kernel, ?_, ?_, fun u hu r hr => ?_⟩
  · and_intros <;> decide +kernel
  · and_intros <;> decide +kernel
  · exact ⟨distinct_of (by fin_cases hu <;> fin_cases hr <;> decide +kernel), by fin_cases hu <;> fin_cases hr <;> decide +kernel⟩

/-- A tenant's record at TENB 0x5000 (R310). -/
def tenantBytes (refill cap bal debt maxdebt lend : Nat) : List Byte :=
  leBytes 4 refill ++ leBytes 4 cap ++ leBytes 4 bal ++ leBytes 4 debt ++ leBytes 4 maxdebt ++ leBytes 4 lend

/-- Tenant 0 has no balance and may owe five; tenant 1 lends, or not. -/
def tenantBench (bal lend : Nat) (loans : List Loan) (debt : Nat) : State :=
  let s := servedBench
  { s with hbm := writeBytes (writeBytes s.hbm 0x5000 (tenantBytes 8 100 bal debt 5 0)) 0x5020 (tenantBytes 4 50 9 0 0 lend),
           loans := loans }

def capsGood (s : State) : Bool :=
  (List.range 256).all fun n => decide ((readTenant s 0 n).cap < 2 ^ 31) && decide (0 ≤ (readTenant s 0 n).cap)

theorem caps_of {s : State} (h : capsGood s = true) (n : Nat) (hn : n < 256) :
    (readTenant s 0 n).cap < 2 ^ 31 ∧ 0 ≤ (readTenant s 0 n).cap := by
  have := List.all_eq_true.mp h n (List.mem_range.mpr hn)
  simpa only [Bool.and_eq_true, decide_eq_true_eq] using this

theorem witness_periods : let s := tenantBench 0 1 [⟨0, 1, 0, 3⟩] 3
    Memory.wf s.hbm = true ∧ (∀ x ∈ s.loans, x.lender < 256) ∧
    (∀ n, n < 256 → (readTenant s 0 n).cap < 2 ^ 31 ∧ 0 ≤ (readTenant s 0 n).cap) ∧ s.loans = [⟨0, 1, 0, 3⟩] ∧
    (readTenant s 0 0).debt = 3 ∧ (readTenant s 0 1).debt = 0 ∧ tenantsInHbm s 0 ∧ ∀ x ∈ s.loans, x.isle = 0 → x.lender ≠ 0 :=
  ⟨by decide +kernel, by decide +kernel, caps_of (by decide +kernel), by rfl, by decide +kernel, by decide +kernel,
    by unfold tenantsInHbm; decide +kernel, by decide +kernel⟩

theorem witness_charges : ∀ q ∈ [(7, 0, none), (0, 0, none), (0, 1, some 1)], let s := tenantBench q.1 q.2.1 [] 0
    s.block? 2 = some (theBlock s) ∧ (theBlock s).isle = 0 ∧ s.ctx? (theBlock s).ctx = some (theContext s) ∧
    Memory.wf s.hbm = true ∧ (theContext s).tenant = 0 ∧ (theBlock s).ended = false ∧ (theContext s).saved = false ∧
    (readTenant s 0 0).bal = q.1 ∧ lenderFor s 0 0 = q.2.2 ∧ rangeInHbm (baseOf (s.isle 0).tenb) 8192 = true := by
  intro q h
  fin_cases h <;> and_intros <;> decide +kernel

/-! ### Packets (R303 to R310, R320, R364, R378 to R381) -/

/-- The packet that a queue of the bench has in hand. -/
def inHand (p : Packet) : Queue := { aQueue with wait := .packet p, taken := 1, openPackets := [1], heldCode := [anObject] }
def packetBench (flags : Nat) (p : Packet) : State := queueBench flags (inHand p) []

theorem packetTurn_of {s : State} {p : Packet} {q : Queue} {c : Context} (h : (s.queue? p.queue == some q && q.wait == .packet p &&
    q.request.isNone && q.owed.isEmpty && s.ctx? q.ctx == some c && q.failedAt.isNone) = true) : PacketTurn s p q c := by
  simp only [Bool.and_eq_true, beq_iff_eq, Option.isNone_iff_eq_none, List.isEmpty_iff] at h
  exact ⟨h.1.1.1.1.1, h.1.1.1.1.2, ⟨h.1.1.1.2, h.1.1.2⟩, h.1.2, h.2⟩

/-- No earlier packet of the queue is open, so no packet waits for one. -/
theorem inHand_first (p : Packet) : ∀ n ∈ (inHand p).openPackets, n = (inHand p).taken := by
  intro n h
  simpa [inHand] using h

theorem inHand_goes (p : Packet) : ¬ waitsForEarlier p (inHand p) := fun ⟨_, n, hn, hne⟩ => hne (inHand_first p n hn)

theorem fitStage_same (l l' : Launch) (isle : Nat) (cores : List Nat) (most : Nat) (s : State) (p : StagePlan) (h : l.id = l'.id)
    (hc : l.ctx = l'.ctx) : fitStage l isle cores most s p = fitStage l' isle cores most s p := by
  have : newGrid s l p isle 0 0 0 = newGrid s l' p isle 0 0 0 := by simp only [newGrid, h, hc]
  simp only [fitStage, this]

theorem fitsEver_same (s : State) (l l' : Launch) (isle : Nat) (plans : List StagePlan) (h : l.id = l'.id) (hc : l.ctx = l'.ctx) :
    fitsEver s l isle plans = fitsEver s l' isle plans := by
  simp only [fitsEver, fitStage_same l l' _ _ _ _ _ h hc]

/-- A LAUNCH, or a GANG of isle 0, with a body. -/
def launchPacket (gang : Bool) (body : List Dword) : Packet := ⟨0, (if gang then 0x10002 else 1) :: body⟩

def launchReads (s : State) (body : List Dword) (f : State → List Kernel → Bool) : Bool :=
  match readBodies s 0 body with
  | .ok s1 (some (bodies, _)) => match bindStages [anObject] bodies with
    | some bound => match readKernels admitContext 0 bound s1 [] with
      | .ok s2 ks => bodies == [body] && f s2 ks
      | _ => false
    | none => false
  | _ => false

/-- What the premises of `LaunchPackets` ask, with the outcome of its last ones. -/
theorem witness_launchPackets : (∀ gang ∈ [false, true], let p := launchPacket gang (aBody 1)
      PacketTurn (packetBench 0 p) p (inHand p) admitContext ∧ headerBad p = false ∧ bodyGood (p.words.drop 1) = true ∧
      homeIsle (inHand p).index = 0 ∧ (gang = true → ((List.range 8).filter fun n => (packetByte p 2).testBit n) = [0]) ∧
      ¬ waitsForEarlier p (inHand p) ∧
      launchReads (packetBench 0 p) (aBody 1) (fun s ks => ks.length == 1 && ks.all fun k =>
        k.waves == 1 && k.threads == 64 && fitsEver s { aLaunch gang with id := s.nextId, ctx := 0 } 0 [barePlan (aBody 1, k)]) = true) ∧
    (let p := launchPacket false (aBody 0)
     launchReads (packetBench 2 p) (aBody 0) (fun _ ks => ks.all fun k => k.flags.getLsbD 1 && !k.flags.getLsbD 0) = true) ∧
    (let p := launchPacket false ((aBody 1).set 1 (BitVec.ofNat 64 (1 + 2 ^ 32 + 32 * 2 ^ 40)))
     bodyGood (p.words.drop 1) = true ∧ launchReads (packetBench 0 p) (p.words.drop 1) (fun _ ks => ks.all fun k => k.threads != 32) = true) ∧
    (let p := launchPacket false (aBody 1)
     waitsForEarlier ⟨0, [0x201]⟩ { inHand p with openPackets := [0, 1] }) := by
  refine ⟨fun g h => ?_, by decide +kernel, ⟨by decide +kernel, by decide +kernel⟩, .inl (by decide), 0, by decide, by decide⟩
  fin_cases h <;> exact ⟨packetTurn_of (by decide +kernel), by decide +kernel, by decide +kernel, by decide +kernel,
    by decide +kernel, inHand_goes _, by decide +kernel⟩

def graphPacket : Packet := ⟨0, [3, 0x80003000, 7, 0, 0x80004000, 9, 0, 0]⟩
def fencePacket (n : Dword) : Packet := ⟨0, [6, n, 0, 0, 0, 0, 0, 0]⟩
def writePacket : Packet := ⟨0, [4, 0x80004000, 77, 0, 0, 0, 0, 0]⟩
def waitPacket (v : Dword) : Packet := ⟨0, [5, 0x80004000, v, -1, 0, 0, 0, 0]⟩

/-- The bench with a second queue. -/
def twoQueues (p : Packet) : State := { packetBench 0 p with queues := [inHand p, { aQueue with index := 1, openPackets := [4] }] }

theorem packetBench_memories (p : Packet) : MemoriesWf (packetBench 0 p) := by
  have h : MemoriesWf (packetBench 0 graphPacket) := by constructor <;> decide +kernel
  exact ⟨h.1, h.2, h.3⟩

theorem zeros_of {l : List Dword} (h : (l.all fun x => x == 0) = true) : ∀ x ∈ l, x = 0 := fun x hx =>
  eq_of_beq (List.all_eq_true.mp h x hx)

theorem witness_valuePackets :
    (PacketTurn (packetBench 0 graphPacket) graphPacket (inHand graphPacket) admitContext ∧ headerBad graphPacket = false ∧
      cmplValid (packetWord graphPacket 4) = true ∧ (packetWord graphPacket 2).toNat < 2 ^ 16 ∧ packetWord graphPacket 3 = 0 ∧
      packetWord graphPacket 6 = 0 ∧ packetWord graphPacket 7 = 0) ∧
    (∀ n ∈ [0, 1, 9], let p := fencePacket n
      PacketTurn (twoQueues p) p (inHand p) admitContext ∧ headerBad p = false ∧ (packetWord p 1).toNat < 2 ^ 17 ∧
      (∀ x ∈ p.words.drop 2, x = 0) ∧ (((twoQueues p).queue? (packetWord p 1).toNat).isSome = decide (n ≠ 9)) ∧
      ∀ o ∈ (twoQueues p).queues, o.ctx = (inHand p).ctx) ∧
    (PacketTurn (packetBench 0 writePacket) writePacket (inHand writePacket) admitContext ∧ headerBad writePacket = false ∧
      (packetWord writePacket 1).toNat % 8 = 0 ∧ (∀ x ∈ writePacket.words.drop 3, x = 0) ∧ MemoriesWf (packetBench 0 writePacket) ∧
      canonical (packetWord writePacket 1) = true ∧ translate (packetBench 0 writePacket) admitContext 0 0x80004000 .store =
        .ok ⟨⟨.hbm, 0x80004000⟩, 0x80000017⟩) := by
  refine ⟨⟨packetTurn_of ?_, ?_, ?_, ?_, ?_, ?_, ?_⟩, fun n h => ?_, packetTurn_of ?_, ?_, ?_, ?_, packetBench_memories _, ?_, ?_⟩
  all_goals first
    | exact zeros_of (by decide +kernel)
    | decide +kernel
    | fin_cases h <;> exact ⟨packetTurn_of (by decide +kernel), by decide +kernel, by decide +kernel, zeros_of (by decide +kernel),
        by decide +kernel, by decide +kernel⟩

theorem waits_of {p : Packet} (h : (packetByte p 1 / 2 % 2 == 1 || [4, 6, 7, 8, 9].contains (packetType p)) = true) :
    waitsForEarlier p { inHand p with openPackets := [0, 1] } ∧ ¬ waitsForEarlier p (inHand p) := by
  simp only [Bool.or_eq_true, beq_iff_eq, List.contains_iff_mem] at h
  exact ⟨⟨h, 0, List.mem_cons_self, Nat.zero_ne_one⟩, inHand_goes p⟩

def waitingPackets : List Packet := [fencePacket 1, writePacket, ⟨0, 0x203 :: graphPacket.words.tail⟩, ⟨0, 0x201 :: aBody 1⟩, ⟨0, [0x205]⟩]

theorem witness_waits : ∀ p ∈ waitingPackets, waitsForEarlier p { inHand p with openPackets := [0, 1] } ∧ ¬ waitsForEarlier p (inHand p) := by
  have h : (waitingPackets.all fun p => packetByte p 1 / 2 % 2 == 1 || [4, 6, 7, 8, 9].contains (packetType p)) = true := by
    decide +kernel
  exact fun p hp => waits_of (List.all_eq_true.mp h p hp)

def waitReads (p : Packet) (f : Dword → Bool) : Bool :=
  match cpRead (packetBench 0 p) 0 .load (packetWord p 1) 8 with
  | .ok _ w => f (BitVec.ofNat 64 (leNat w))
  | _ => false

theorem witness_waitPackets : ∀ v ∈ [0, 5], let p := waitPacket v
    PacketTurn (packetBench 0 p) p (inHand p) admitContext ∧ packetType p = 5 ∧ headerBad p = false ∧
    (packetWord p 1).toNat % 8 = 0 ∧ (packetWord p 4).toNat ≤ 3 ∧ (∀ x ∈ p.words.drop 5, x = 0) ∧ ¬ waitsForEarlier p (inHand p) ∧
    waitReads p (fun w => w == 0) = true := by
  intro v h
  fin_cases h <;> exact ⟨packetTurn_of (by decide +kernel), by decide +kernel, by decide +kernel, by decide +kernel, by decide +kernel,
    zeros_of (by decide +kernel), inHand_goes _, by decide +kernel⟩

theorem waits_bounds : waitMet 0 0 0 ∧ ¬ waitMet 0 0 5 ∧ waitMet 1 3 4 ∧ waitMet 2 4 4 ∧ waitMet 3 3 4 ∧ ¬ waitMet 3 4 4 ∧ ¬ waitMet 1 4 4 := by
  unfold waitMet; decide +kernel

/-! A code image (R374, R375): one kernel of one wave, whose text is an EXIT. -/

def imageText : List Word := encode (.exit 1)
def imageCode (flags : Nat) : List Byte :=
  leBytes 4 64 ++ leBytes 2 2 ++ ([0, BitVec.ofNat 8 flags, 1, 64] : List Byte) ++ leBytes 2 1 ++ List.replicate 52 (0 : Byte) ++ codeBytes imageText
def imageHead (magic : Nat) : List Byte :=
  leBytes 4 magic ++ leBytes 2 1 ++ ([0xFF, 1] : List Byte) ++ leBytes 4 64 ++ leBytes 4 68 ++ leBytes 4 64 ++ List.replicate 28 (0 : Byte) ++ leBytes 16 (2 ^ (imageText.headD 0 >>> 21 &&& 127).toNat)

def publishPacket (base home : Dword) : Packet := ⟨0, [7, 0x80006000, base, home, 0x80008000, 0, 0, 0]⟩

/-- The image stands at 0x80006000; the pages from 0x40000000 on may be read and written as data. -/
def publishBench (magic flags : Nat) (p : Packet) : State :=
  let s := packetBench 0 p
  { s with hbm := writeBytes s.hbm 0x80006000 (imageHead magic ++ imageCode flags) }

def publishReads (s : State) (f : ImageHeader → State → List Byte → Bool) : Bool :=
  match cpRead s 0 .load 0x80006000 64 with
  | .ok s1 hb =>
    let h := imageHeader hb
    match cpRead s1 0 .load (0x80006000 + BitVec.ofNat 64 h.codeOff) h.codeSize with
    | .ok s2 code => f h s2 code
    | _ => false
  | _ => false

/-- Each clause of `PublishPackets`: a bad header, a failed check, no version at home, fewer kernels than before, and a version
that becomes current. -/
theorem witness_publish :
    (∀ q ∈ [(0x40010000, 0), (0x40010000, 0x123), (0x40010000, 0x40000000)], let p := publishPacket q.1 q.2
      PacketTurn (publishBench 0x31435244 0 p) p (inHand p) admitContext ∧ headerBad p = false ∧ packetWord p 5 = 0 ∧
      packetWord p 6 = 0 ∧ packetWord p 7 = 0 ∧ (packetWord p 4).toNat % 16 = 0 ∧ ∀ n ∈ (inHand p).openPackets, n = (inHand p).taken) ∧
    publishReads (publishBench 0 0 (publishPacket 0x40010000 0)) (fun h _ _ => !headerGood h) = true ∧
    publishReads (publishBench 0x31435244 8 (publishPacket 0x40010000 0)) (fun h _ code => headerGood h &&
      ((checkCode Config.partStep.toNat h code).1 == 1)) = true ∧
    (∀ home ∈ [(0 : Dword), 0x40000000], publishReads (publishBench 0x31435244 0 (publishPacket 0x40010000 home)) (fun h s2 code =>
      headerGood h && (checkCode Config.partStep.toNat h code).1 == 0 &&
      (home == 0 || (((objectAt admitContext home).bind currentVersion).any fun v => decide (v.textEnds.length ≤ h.nkern))) &&
      (boundBases s2 admitContext).all (fun b => decide (0x40010000 + code.length ≤ b.toNat) ||
        decide (b.toNat + sizeAt admitContext b ≤ 0x40010000)) &&
      match checkPages s2 admitContext 0 0x40010000 ((code.length + 4095) / 4096) with
      | .good => true
      | _ => false) = true) ∧
    (objectAt admitContext 0x123).bind currentVersion = none := by
  refine ⟨fun q h => ?_, ?_, ?_, fun v h => ?_, ?_⟩
  · fin_cases h <;> exact ⟨packetTurn_of (by decide +kernel), by decide +kernel, by decide +kernel, by decide +kernel,
      by decide +kernel, by decide +kernel, inHand_first _⟩
  · decide +kernel
  · decide +kernel
  · fin_cases h <;> decide +kernel
  · decide +kernel

def startPacket : Packet := ⟨0, [8, 0, 0, 0x80009000, 0x0000000A0A0A, 0, 0, 0]⟩
def stopPacket : Packet := ⟨0, [9, 0, 0, 0, 0, 0, 0, 0]⟩
def openWindow : Capture := { emptyCapture with isOpen := true, cbuf := 0x80009000, counters := [(0x58, 3)] }

theorem witness_captures :
    (PacketTurn (packetBench 0 startPacket) startPacket (inHand startPacket) admitContext ∧ headerBad startPacket = false ∧
      captureGood startPacket = true ∧ admitContext.capture.isOpen = false ∧
      ∀ n ∈ (inHand startPacket).openPackets, n = (inHand startPacket).taken) ∧
    (let c := { admitContext with capture := openWindow }
     let leaf : CachedXlat := ⟨0, 1, 2, 30, 0x80000017⟩
     let s : State := { onContext (packetBench 0 stopPacket) fun _ => c with cached := [leaf] }
     PacketTurn s stopPacket (inHand stopPacket) c ∧ headerBad stopPacket = false ∧ (∀ x ∈ stopPacket.words.drop 1, x = 0) ∧
     c.capture.isOpen = true ∧ (∀ y ∈ c.capture.counters, y.1 < 256 * 4096) ∧ Memory.wf s.hbm = true ∧ c.watch.length = 16 ∧ canonical c.capture.cbuf = true ∧
     c.capture.cbuf.toNat % 4096 + 0x128 ≤ 4096 ∧ (∀ y ∈ s.cached, 12 ≤ y.shift) ∧ leaf ∈ s.cached ∧ leaf.pasid = c.pasid ∧
     leaf.page = c.capture.cbuf.toNat % 2 ^ 57 / 2 ^ leaf.shift ∧
     translate s c 0 c.capture.cbuf .store = .ok ⟨⟨.hbm, 0x80009000⟩, 0x80000017⟩) := by
  refine ⟨⟨packetTurn_of (by decide +kernel), by decide +kernel, by decide +kernel, by decide +kernel, inHand_first _⟩, packetTurn_of (by decide +kernel), ?_⟩
  refine ⟨by decide +kernel, zeros_of (by decide +kernel), ?_⟩
  and_intros <;> decide +kernel

/-! ### Rings, records, requests and answers (R24 to R30, R299 to R304, R323, R324, R365 to R371) -/

/-- A packet's bytes in slot j of the bench's ring. -/
def ringBench (j : Nat) (header : Dword) (qs : List Queue) : State :=
  let s := queueBench 0 aQueue []
  let bytes := (header :: aBody 1).flatMap fun w => leBytes 8 w.toNat
  { s with queues := qs, hbm := writeBytes s.hbm (0x80001000 + 64 * (j % 4)) bytes }

def ringQueue (j : Nat) : Queue := { aQueue with next := some j }
def ringBytes (header : Dword) : List Byte := (header :: aBody 1).flatMap fun w => leBytes 8 w.toNat

theorem slotShows_of {s : State} {q : Queue} {c : Context} {j : Nat} {bs : List Byte} {i : Instr} {pl : Place}
    (h : (s.queue? q.index == some q && decide (s.queues.map (·.index)).Nodup && s.ctx? q.ctx == some c && q.enabled && q.qstat == 0 &&
      q.wait == .none && q.request.isNone && q.owed.isEmpty && q.failedAt.isNone && q.next == some j) = true)
    (hv : (let va := q.ring + BitVec.ofNat 64 (64 * (j % 2 ^ q.log2))
      va.toNat % 64 == 0 && canonical va && translate s c (homeIsle q.index) va .load == .ok pl && bs == readLoc s pl.loc 64 && !farBad s pl.loc 64) = true)
    (hf : (leNat (bs.take 8) % 256 != 0 && leNat (bs.take 8) / 2 ^ 15 % 2 == j / 2 ^ q.log2 % 2 &&
      packetEvent (slotPacket q bs) == some i) = true) : SlotShows s q c j bs i := by
  simp only [Bool.and_eq_true, beq_iff_eq, Option.isNone_iff_eq_none, List.isEmpty_iff, decide_eq_true_eq, bne_iff_ne, Bool.not_eq_true'] at h hv hf
  obtain ⟨⟨⟨⟨⟨⟨⟨⟨⟨a, b⟩, c⟩, d⟩, e⟩, f⟩, g⟩, k⟩, l⟩, m⟩ := h
  exact ⟨a, b, c, ⟨d, e, f, g, k, l⟩, m, ⟨pl, _, rfl, hv.1.1.1.1, hv.1.1.1.2, hv.1.1.2, hv.1.2, hv.2⟩, hf.1, hf.2⟩

theorem turn_of {s : State} {isle t : Nat} (h : (tenantMay s isle t && s.contexts.all fun x => x.tenant == t) = true) :
    TurnComes s isle t := by
  simp only [Bool.and_eq_true, List.all_eq_true, beq_iff_eq] at h
  exact ⟨h.1, fun x hx => .inl (h.2 x hx)⟩

/-- Slot 0 in the first and the second round of the ring; the last slot of a round. -/
theorem witness_slots : ∀ e ∈ [(0, (1 : Dword)), (3, 1), (4, 0x8001), (7, 0x8101)], let s := ringBench e.1 e.2 [ringQueue e.1]
    SlotShows s (ringQueue e.1) admitContext e.1 (ringBytes e.2) (.launch (slotPacket aQueue (ringBytes e.2))) ∧
    TurnComes s 0 admitContext.tenant ∧ s.queues = [ringQueue e.1] ∧ (ringQueue e.1).graphs = [] := by
  intro e h
  fin_cases h
  · exact ⟨slotShows_of (pl := ⟨⟨.hbm, 0x80001000⟩, 0x80000017⟩) (by decide +kernel) (by decide +kernel) (by decide +kernel),
      turn_of (by decide +kernel), rfl, rfl⟩
  · exact ⟨slotShows_of (pl := ⟨⟨.hbm, 0x800010C0⟩, 0x80000017⟩) (by decide +kernel) (by decide +kernel) (by decide +kernel),
      turn_of (by decide +kernel), rfl, rfl⟩
  · exact ⟨slotShows_of (pl := ⟨⟨.hbm, 0x80001000⟩, 0x80000017⟩) (by decide +kernel) (by decide +kernel) (by decide +kernel),
      turn_of (by decide +kernel), rfl, rfl⟩
  · exact ⟨slotShows_of (pl := ⟨⟨.hbm, 0x800010C0⟩, 0x80000017⟩) (by decide +kernel) (by decide +kernel) (by decide +kernel),
      turn_of (by decide +kernel), rfl, rfl⟩

theorem witness_plugin : let s0 := ringBench 0 1 [{ ringQueue 0 with readySince := some 4 }, { ringQueue 0 with index := 1, readySince := some 6 }]
    let s := { s0 with platform := { s0.platform with plugins := [0] } }
    let q := { ringQueue 0 with readySince := some 4 }
    SlotShows s q admitContext 0 (ringBytes 1) (.launch (slotPacket aQueue (ringBytes 1))) ∧ TurnComes s 0 0 ∧ pluginStands s 0 = true ∧
    q ∈ readyQueues s 0 0 ∧ (readyQueues s 0 0).length = 2 ∧ earliestQueue (readyQueues s 0 0) = some q :=
  ⟨slotShows_of (pl := ⟨⟨.hbm, 0x80001000⟩, 0x80000017⟩) (by decide +kernel) (by decide +kernel) (by decide +kernel),
    turn_of (by decide +kernel), by decide +kernel, by decide +kernel, by decide +kernel, by decide +kernel⟩

theorem witness_settled : settleLaunches (ringBench 0 1 [ringQueue 0]) = ringBench 0 1 [ringQueue 0] ∧
    pluginStands (ringBench 0 1 [ringQueue 0]) 0 = false ∧ functionOf (ringBench 0 1 [ringQueue 0]) 0 = 0 := by decide +kernel

/-- A request of isle 0. -/
def aRequest (written : Bool) (ats : Nat) : Request := ⟨0, 7, 1, 0, 0x80000000, 2, 0, written, none, ats, if ats = 0 then [] else [0x80000]⟩

theorem witness_faultRecords : let s : State := { State.reset with requests := [aRequest true 0, aRequest false 0] }
    s.isles.length = 8 ∧ s.requests = [aRequest true 0] ++ aRequest false 0 :: [] ∧ (aRequest false 0).verdict = none ∧ (aRequest false 0).ats = 0 ∧
    rangeInHbm (field (s.isle 0).fltrb 12 40 * 4096 + 32 * ((s.isle 0).head.toNat % 2 ^ (field (s.isle 0).fltrb 52 4 + 6))) 32 = true ∧
    ((s.isle 0).head - (s.isle 0).tail).toNat ≠ 2 ^ (field (s.isle 0).fltrb 52 4 + 6) ∧ Memory.wf s.hbm = true ∧
    ((0x45 : Word) - 5).toNat = 2 ^ (field (s.isle 0).fltrb 52 4 + 6) := by decide +kernel

/-- A window with buffers of 2^4 records at 0x8000A000 and 0x8000C000. -/
def recordWindow (n : Nat) : Capture :=
  { emptyCapture with isOpen := true, sbuf := 0x8000A000, scap := 16, scount := n, rbuf := 0x8000C000, rcap := 16, rcount := n, cbuf := 0x80009000, twin := 10 }

def recordBench (n : Nat) (ph : Phase) : State :=
  let s := onContext (withData runBench) fun c => { c with capture := recordWindow n }
  onBlock (onWave s fun w => { w with phase := ph }) fun b => { b with phase := ph }

theorem witness_records : ∀ n ∈ [0, 15, 16], ∀ ph ∈ [Phase.ready, .stopped, .held .token], let s := recordBench n ph
    let c := theContext s
    s.ctx? 0 = some c ∧ s.wave? 3 = some (theWave s) ∧ s.block? 2 = some (theBlock s) ∧ (theWave s).block = 2 ∧
    (theWave s).haltedWave = false ∧ (theBlock s).ended = false ∧ (theWave s).phase = ph ∧ (theBlock s).phase = ph ∧
    c.capture.isOpen = true ∧ c.capture.sbuf ≠ 0 ∧ c.capture.rbuf ≠ 0 ∧ c.capture.twin ≠ 0 ∧ c.saved = false ∧
    (theWave s).run.isSome = true ∧
    canonical (c.capture.sbuf + 64 + BitVec.ofNat 64 (32 * n)) = true ∧ canonical (c.capture.rbuf + 64 + BitVec.ofNat 64 (64 * n)) = true ∧
    translate s c 0 (c.capture.sbuf + 64 + BitVec.ofNat 64 (32 * n)) .store = .ok ⟨⟨.hbm, 0x8000A040 + 32 * n⟩, 0x80000017⟩ ∧
    translate s c 0 (c.capture.rbuf + 64 + BitVec.ofNat 64 (64 * n)) .store = .ok ⟨⟨.hbm, 0x8000C040 + 64 * n⟩, 0x80000017⟩ := by
  intro n hn ph hp
  fin_cases hn <;> fin_cases hp <;> and_intros <;> decide +kernel

/-- A sampler's turn: the agents of one wave and one block, none of them sampled yet; a wave that has issued. -/
theorem witness_samples : let s := recordBench 0 .ready
    let c := theContext s
    (∀ x ∈ [(⟨16 * 0 + (theWave s).lane, (theWave s).slot⟩ : Sampled), ⟨2 ^ 14, (theBlock s).slot⟩],
      (∀ y ∈ sampledOf s 0, y.key = x.key → (x.slot + 1024 - mapGet 0 c.capture.rotation x.key) % 1024 ≤
        (y.slot + 1024 - mapGet 0 c.capture.rotation y.key) % 1024) ∧ x.key ∉ c.capture.sampled) ∧
    (let t := onContext s fun c => { c with capture := { c.capture with sampled := [16 * 0 + (theWave s).lane] } }
     ¬ ∀ y ∈ sampledOf t 0, y.key ∈ (theContext t).capture.sampled) := by
  decide +kernel

theorem witness_tagged : ∀ n ∈ [0, 16], let s := onWave (recordBench n .ready) fun w => { w with issue := some ⟨w.pc, 4, 1, 2⟩ }
    (theWave s).issue.isSome = true ∧ s.ctx? 0 = some (theContext s) ∧ (theContext s).index = 0 ∧ (theContext s).capture.rcount = n ∧
    (theContext s).capture.rcap = 16 := by
  intro n h
  fin_cases h <;> and_intros <;> decide +kernel

theorem witness_noWindow : (theContext waveBench).capture.isOpen = false ∧ (theWave waveBench).run = none := by decide +kernel

/-- An isle's page after power-up, with a value in XLINVC. -/
def pageBench (xlinvc : Dword) : State :=
  let s := withData waveBench
  s.putIsle 0 { s.isle 0 with xlinvc := xlinvc, xlinva := 0x80000000 }

theorem witness_invalidations : (∀ v ∈ [0, 0x80000001, 0x80100001, 0x80200000, 0x80800001], let s := pageBench v
      s.platform.booted = true ∧ 0 < s.isles.length ∧ mapWf 0 s.invalidating = true ∧ field v 20 2 < 3 ∧
      (s.isle 0).xlinvc = v ∧ ∀ w ∈ s.waves, w.copies = []) ∧ State.reset.platform.booted = false := by
  refine ⟨fun v h => ?_, by decide +kernel⟩
  fin_cases h <;> and_intros <;> decide +kernel

/-- One waiter for request 7 of isle 0: nobody, the wave as it was switched out or at a word of its own, the block, the queue. -/
inductive Waiter where
  | nobody | missed | wave | block | queue

def verdictBench (w : Waiter) : State :=
  let s := { pageBench 0 with requests := [aRequest true 0], queues := [aQueue] }
  match w with
  | .nobody => s
  | .missed => onWave s fun w => { w with requests := [7], phase := .missed }
  | .wave => onWave s fun w => { w with requests := [7], phase := .held .translation }
  | .block => onBlock s fun b => { b with request := some 7 }
  | .queue => { s with queues := [{ aQueue with request := some (7, 0x80001000) }] }

/-- The identities of those that wait. -/
def waitersOf : Waiter → Option Nat × Option Nat × Option Nat
  | .nobody => (none, none, none)
  | .missed | .wave => (some 3, none, none)
  | .block => (none, some 2, none)
  | .queue => (none, none, some 0)

theorem nobodyElse_of {s : State} {r : Request} {w b q : Option Nat}
    (hw : (s.waves.all fun x => !x.requests.contains r.seq || w == some x.id) = true)
    (hb : (s.blocks.all fun x => x.request != some r.seq || b == some x.id) = true)
    (hg : (s.grids.all fun x => x.request != some r.seq) = true)
    (hh : (s.blocks.all fun x => allQueues.all fun e => (headOf x e).isNone) = true)
    (hq : (s.queues.all fun x => (x.request.all fun p => p.1 != r.seq) || q == some x.index) = true) : NobodyElse s r w b q := by
  simp only [List.all_eq_true, Bool.or_eq_true, Bool.not_eq_true', List.contains_eq_mem, decide_eq_false_iff_not, beq_iff_eq,
    bne_iff_ne, Option.isNone_iff_eq_none] at hw hb hg hh hq
  refine ⟨fun x hx hr _ => (hw x hx).resolve_left (fun h => h hr), fun x hx _ hr => (hb x hx).resolve_left (fun h => h hr),
    fun x hx _ => hg x hx, fun x hx _ e c he => ?_, fun x hx _ ⟨va, hr⟩ => (hq x hx).resolve_left fun h => ?_⟩
  · have : e ∈ allQueues := by cases e <;> decide
    exact absurd he (by rw [hh x hx e this]; simp)
  · rw [hr] at h
    simp at h

theorem witness_verdicts : ∀ x : Waiter, let s := verdictBench x
    s.platform.booted = true ∧ Distinct s ∧ aRequest true 0 ∈ s.requests ∧ answered s 0 7 = some (aRequest true 0) ∧
    NobodyElse s (aRequest true 0) (waitersOf x).1 (waitersOf x).2.1 (waitersOf x).2.2 ∧ takesVerdicts s 0 = true ∧
    s.wave? 3 = some (theWave s) ∧ s.block? 2 = some (theBlock s) ∧ s.queue? 0 = s.queues.head? ∧ (s.queues.map (·.index)).Nodup := by
  intro x
  cases x <;> exact ⟨by decide +kernel, distinct_of (by decide +kernel), by decide +kernel, by decide +kernel,
    nobodyElse_of (by decide +kernel) (by decide +kernel) (by decide +kernel) (by decide +kernel) (by decide +kernel),
    by decide +kernel, by decide +kernel, by decide +kernel, by decide +kernel, by decide +kernel⟩

theorem witness_ats : (let s : State := { verdictBench .nobody with requests := [aRequest true 0, aRequest false 1] }
     s.requests = [aRequest true 0] ++ aRequest false 1 :: [] ∧ 0x80000 ∈ (aRequest false 1).pages ∧ (aRequest true 0).ats ≠ 1 ∧
     (aRequest true 0).kind / 16 ≠ 3 ∧ Distinct s) ∧
    (let x : Request := { aRequest true 2 with kind := 0x32, pages := [0x80001] }
     let q : Request := { aRequest false 1 with seq := 2 ^ 16, kind := 0x32 }
     let s : State := { verdictBench .nobody with requests := [x, q] }
     s.requests = [x] ++ q :: [] ∧ 0x80000 ∈ q.pages ∧ (x.va.toNat / 2 ^ 16 = q.va.toNat / 2 ^ 16 ∧ x.verdict = none ∧ x.ats ≠ 1 ∧
       x.kind / 16 = q.kind / 16) ∧ x ∉ ([] : List Request) ∧ 0 < s.isles.length) ∧
    ∀ b ∈ (verdictBench .nobody).blocks, ∀ cs ∈ b.queues, cs = [] := by
  refine ⟨⟨rfl, by decide, by decide, by decide, distinct_of (by decide +kernel)⟩, ?_, by decide +kernel⟩
  and_intros <;> decide +kernel

theorem witness_answers : (let q : Request := { aRequest true 2 with kind := 0x32 }
     let s : State := { verdictBench .nobody with requests := [q] }
     s.requests.find? (fun y => y.isle == 0 && y.pasid == 1 && y.verdict.isNone && pageSent s y && y.pages.contains 0x80000) = some q ∧
     Distinct s ∧ NobodyElse s q none none none) ∧
    (let s : State := { waveBench with atsInval := [⟨5, 1, 0, 4096⟩] }
     s.atsInval.find? (fun r => r.tag == 5) = some ⟨5, 1, 0, 4096⟩ ∧ ∀ w ∈ s.waves, w.copies = []) := by
  refine ⟨⟨?_, distinct_of (by decide +kernel), nobodyElse_of (by decide +kernel) (by decide +kernel) (by decide +kernel)
    (by decide +kernel) (by decide +kernel)⟩, by decide +kernel, by decide +kernel⟩
  simp [pageSent, requestsBefore, aRequest]

/-! ### The driver's registers, and the platform (R70, R296 to R299, R387 to R399) -/

theorem witness_page : (pageBench 0).platform.booted = true ∧ 7 < (pageBench 0).isles.length ∧
    ([0x100, 0x108, 0x120, 0x130, 0x138, 0x140, 0x178, 0x158, 0x160, 0x168, 0x400, 0x5F8] : List Nat).Nodup ∧
    (0x200 ∉ commandOffsets ∧ (∀ q ∈ pageRegisters, q.offset ≠ 0x200) ∧ ¬ packageOffset 0x200) ∧ State.reset.platform.booted = false := by
  unfold packageOffset
  decide +kernel

/-- CTXTB of isle k at 0x100000 + 0x1000k, whose record 1 is r, and QTB of isle 0 at 0x200000 with the queue record b. -/
def driverBench (r b : List Byte) : State :=
  let s : State := (List.range 8).foldl (fun s k => s.putIsle k { s.isle k with ctxtb := BitVec.ofNat 64 (0x100000 + 0x1000 * k), qtb := 0x200000 }) waveBench
  { s with hbm := (List.range 8).foldl (fun m k => writeBytes m (0x100080 + 0x1000 * k) r) (writeBytes s.hbm 0x200020 b) }

/-- A context record (R296). -/
def contextBytes (root pasid flags : Nat) : List Byte :=
  leBytes 8 root ++ leBytes 4 pasid ++ leBytes 4 flags ++ leBytes 4 0 ++ leBytes 4 0 ++ leBytes 8 0x90000000 ++ List.replicate 96 (0 : Byte)

theorem goodRecord_of {r : List Byte} (h : (leNat (r.take 8) % 4096 == 0 && decide (leNat (r.take 8) < 2 ^ 52) && inHbm (leNat (r.take 8)) &&
    decide (leNat ((r.drop 8).take 4) < 2 ^ 20) && decide (leNat ((r.drop 12).take 1) < 4) && leNat ((r.drop 13).take 1) == 0 &&
    decide (leNat ((r.drop 16).take 4) ≤ 1000000) && (List.range 128).all fun n => decide (n < 33) || r.getD n 0 == 0) = true) :
    GoodRecord r := by
  simp only [Bool.and_eq_true, beq_iff_eq, decide_eq_true_eq, List.all_eq_true, Bool.or_eq_true, List.mem_range] at h
  obtain ⟨⟨⟨⟨⟨⟨⟨a, b⟩, c⟩, d⟩, e⟩, f⟩, g⟩, k⟩ := h
  exact ⟨⟨a, b, c⟩, d, ⟨e, f⟩, g, fun n hn hm => (k n hm).resolve_left (by omega)⟩

/-- A record that is good and has a free PASID, one whose PASID is taken, and one that is not good. -/
theorem witness_contextCreation : (∀ q ∈ [(0x1000, 2), (0x1000, 1)], let s := driverBench (contextBytes q.1 q.2 2) []
      s.platform.booted = true ∧ GoodRecord (readBytes s.hbm (field (s.isle 0).ctxtb 12 40 * 4096 + 128 * 1) 128) ∧
      (∀ k, k < 8 → readBytes s.hbm (field (s.isle k).ctxtb 12 40 * 4096 + 128 * 1) 128 =
        readBytes s.hbm (field (s.isle 0).ctxtb 12 40 * 4096 + 128 * 1) 128) ∧ (∀ c ∈ s.contexts, c.index ≠ 1) ∧
      (leNat (((readBytes s.hbm (field (s.isle 0).ctxtb 12 40 * 4096 + 128 * 1) 128).drop 8).take 4) = q.2) ∧
      s.contexts.map (·.pasid) = [1]) ∧
    ¬ GoodRecord (contextBytes 0x1001 2 2) ∧ ∃ c ∈ (driverBench [] []).contexts, c.index = 0 := by
  refine ⟨fun q h => ?_, fun h => absurd h.root.1 (by decide +kernel), _, List.mem_singleton.mpr rfl, rfl⟩
  fin_cases h <;> exact ⟨by decide +kernel, goodRecord_of (by decide +kernel), by decide +kernel, by decide +kernel, by decide +kernel,
    by decide +kernel⟩

theorem witness_contextDestruction : (let s : State := { waveBench with blocks := [], grids := [], launches := [], waves := [] }
     s.platform.booted = true ∧ s.ctx? 0 = some (theContext s) ∧ settleLaunches s = s ∧ s.queues = []) ∧
    waveBench.ctx? 0 = some (theContext waveBench) ∧ waveBench.ctx? 9 = none := by
  and_intros <;> decide +kernel

/-- A queue record (R297). -/
def queueBytes (log2 ctx flags : Nat) : List Byte :=
  leBytes 8 0x80001000 ++ leBytes 1 log2 ++ leBytes 1 8 ++ leBytes 2 ctx ++ leBytes 1 flags ++ leBytes 3 0x777777 ++ leBytes 8 0 ++ leBytes 8 0x80002000

theorem witness_queueSwitches : (∀ q ∈ [(2, 0), (2, 5), (6, 0)], let s := driverBench [] (queueBytes q.1 q.2 1)
      s.platform.booted = true ∧ 0 < s.isles.length ∧ s.queue? 1 = none ∧ Memory.wf s.hbm = true ∧
      rangeInHbm (field (s.isle 0).qtb 12 40 * 4096 + 32 + 13) 1 = true ∧
      GoodQueueRecord (readBytes s.hbm (field (s.isle 0).qtb 12 40 * 4096 + 32) 32) ∧
      (s.ctx? (leNat (((readBytes s.hbm (field (s.isle 0).qtb 12 40 * 4096 + 32) 32).drop 10).take 2))).isSome = decide (q.2 = 0)) ∧
    ¬ GoodQueueRecord (queueBytes 2 0 0) ∧ ¬ GoodQueueRecord (queueBytes 21 0 1) ∧
    (let s : State := { driverBench [] [] with queues := [{ aQueue with index := 1 }] }
     s.queue? 1 = some { aQueue with index := 1 }) := by
  unfold GoodQueueRecord
  refine ⟨fun q h => ?_, ?_⟩
  · fin_cases h <;> and_intros <;> decide +kernel
  · and_intros <;> decide +kernel

/-- A register read, and a read of a kick page, that come next: before and after power-up. -/
theorem witness_registerReads : (∀ s ∈ [State.reset, pageBench 0], ∀ m ∈ [Move.registerRead 7 0x170, .kickRead 3 5],
      ({ s with agenda := [m] } : State).agenda = m :: []) ∧ (7 < 8) ∧
    (∀ q ∈ pageRegisters, ∃ x ∈ pageRegisters, x.offset = q.offset) ∧
    0 ∈ ({ State.reset with platform := { Platform.reset with underTest := [0] } } : State).platform.underTest := by
  refine ⟨fun s _ m _ => rfl, by decide, fun q h => ⟨q, h, rfl⟩, by decide⟩

/-- A value for each case of a write to a command register: each OP with and without GO, each SCOPE, and a reserved SZ. -/
theorem witness_commands : (pageBench 0).platform.booted = true ∧ 0 < (pageBench 0).isles.length ∧
    (∀ n < 4, ∃ v : Dword, field v 16 2 = n ∧ v.getLsbD 31 = true) ∧ (∀ n < 4, ∃ v : Dword, field v 16 2 = n ∧ v.getLsbD 31 = false) ∧
    (∀ n < 4, ∃ v : Dword, field v 20 2 = n ∧ v.getLsbD 31 = true) ∧
    (∀ n < 3, ∃ v : Dword, field v 20 2 = n ∧ v.getLsbD 31 = false ∧ field v 22 2 < 3) ∧
    (∃ v : Dword, field v 20 2 = 0 ∧ field v 22 2 = 3 ∧ v.getLsbD 31 = false) ∧
    ((pageBench 0x80000000).isle 0).xlinvc.getLsbD 31 = true ∧ ((pageBench 0).isle 0).xlinvc.getLsbD 31 = false := by
  refine ⟨by decide +kernel, by decide +kernel, fun n h => ⟨BitVec.ofNat 64 (n * 2 ^ 16 + 2 ^ 31), ?_⟩,
    fun n h => ⟨BitVec.ofNat 64 (n * 2 ^ 16), ?_⟩, fun n h => ⟨BitVec.ofNat 64 (n * 2 ^ 20 + 2 ^ 31), ?_⟩,
    fun n h => ⟨BitVec.ofNat 64 (n * 2 ^ 20), ?_⟩, ⟨0xC00000, by decide +kernel⟩, by decide +kernel, by decide +kernel⟩
  all_goals interval_cases n <;> decide +kernel

/-- Context 0 was created through function 5. -/
def functionBench : State :=
  let s := waveBench
  { s with hbm := writeBytes s.hbm 0x300000 [5], platform := { s.platform with fnctxb := 0x300000 } }

theorem witness_functionResets : functionBench.platform.booted = true ∧ functionBench.contexts = [] ++ benchContext :: [] ∧
    fnOf functionBench 0 = 5 ∧ benchContext.index < 65536 ∧ ∀ c ∈ functionBench.contexts, fnOf functionBench c.index ≠ 63 := by
  and_intros <;> decide +kernel

theorem witness_resets : waveBench.platform.booted = true ∧ State.reset.platform.booted = false ∧ Memory.wf State.reset.hbm = true ∧
    State.reset.contexts = [] ∧ 0 < 8 := by
  and_intros <;> decide +kernel

/-- A copy of the wave from a peer that only link 3 reaches, and a value from there that thread 5 waits for; link 3 is up. -/
def peerCopy : CopyInFlight := ⟨7, 63, 8, 8, [⟨1, 2 ^ 52, 4⟩], List.replicate 17 0⟩
def peerValue : Pending := ⟨[], 0x20, none, [(5, 1)]⟩
def linkBench (ph : Phase) (cs : List CopyInFlight) (ps : List Pending) : State :=
  let s := onWave waveBench fun w => { w with copies := cs, pending := ps, phase := ph }
  { s with platform := { s.platform with links := 8 } }

theorem distinct_linkBench (ph : Phase) (cs : List CopyInFlight) (ps : List Pending) : Distinct (linkBench ph cs ps) := by
  have h : Distinct waveBench := distinct_of (by decide +kernel)
  refine ⟨fun x hx => ?_, h.2, h.3⟩
  have : (linkBench ph cs ps).waves = [{ theWave waveBench with copies := cs, pending := ps, phase := ph }] := rfl
  rw [this] at hx
  rw [List.mem_singleton.mp hx]
  rfl

theorem copyLost_of {s : State} {c : CopyInFlight} (h : (c.parts.any fun p => p.space == 1 && !peerReachable s (p.addr / 2 ^ 52)) = true) :
    copyLost s c := by
  obtain ⟨p, hp, hx⟩ := List.any_eq_true.mp h
  simp only [Bool.and_eq_true, beq_iff_eq, Bool.not_eq_true'] at hx
  exact ⟨p, hp, hx⟩

/-- The state as the link has gone down. -/
def unlinked (s : State) : State :=
  { s with platform := { s.platform with links := 0, msix := s.platform.msix ++ [0], dueTests := alsoDue s.platform.dueTests (2 ^ 24 + 33) } }

theorem witness_links : (∀ ph ∈ [Phase.ready, .missed], ∀ x ∈ [([peerCopy], []), ([], [peerValue])], let s := linkBench ph x.1 x.2
      s.platform.links.getLsbD 3 = true ∧ s.platform.links.getLsbD 4 = false ∧ Distinct s ∧ s.wave? 3 = some (theWave s) ∧
      (waveStanding s (theWave s)).isSome = true ∧ s.ctx? 0 = some benchContext ∧ benchContext.halted = false ∧
      benchContext.saved = false ∧ (s.waves.map (·.id)).Nodup ∧ (∀ c ∈ (theWave s).copies, c.thread < 64) ∧
      (∀ p ∈ (theWave s).pending, ∀ q ∈ p.peers, q.1 < 64) ∧ ¬ nothingLost (unlinked s) (theWave s) ∧ ∀ y ∈ s.waves, y.id = 3) ∧
    ∀ w ∈ (linkBench .ready [] []).waves, nothingLost (unlinked (linkBench .ready [] [])) w := by
  have h1 : ∀ ph ∈ [Phase.ready, .missed], copyLost (unlinked (linkBench ph [peerCopy] [])) peerCopy := by
    intro ph h
    fin_cases h <;> exact copyLost_of (by decide +kernel)
  have h2 : ∀ ph ∈ [Phase.ready, .missed], threadLost (unlinked (linkBench ph [] [peerValue])) peerValue 5 := by
    intro ph h
    fin_cases h <;> exact ⟨(5, 1), by decide, rfl, by decide +kernel⟩
  refine ⟨fun ph h x hx => ?_, fun w hw => ?_⟩
  · have hl : ¬ nothingLost (unlinked (linkBench ph x.1 x.2)) (theWave (linkBench ph x.1 x.2)) := by
      fin_cases hx
      · exact fun n => n.1 peerCopy List.mem_cons_self (h1 ph h)
      · exact fun n => n.2 peerValue List.mem_cons_self 5 (h2 ph h)
    refine ⟨?_, ?_, distinct_linkBench _ _ _, ?_, ?_, ?_, ?_, ?_, ?_, ?_, ?_, hl, ?_⟩ <;> clear hl <;> fin_cases h <;> fin_cases hx <;>
      decide +kernel
  · have e : w.copies = [] ∧ w.pending = [] := by
      rw [List.mem_singleton.mp (show w ∈ [theWave (linkBench .ready [] [])] from hw)]
      exact ⟨rfl, rfl⟩
    simp [nothingLost, e.1, e.2]

theorem witness_flits : 15 < waveBench.platform.replays.length ∧ 15 < State.reset.platform.replays.length := by decide +kernel

theorem witness_peers : let s : State := { linkBench .ready [] [] with colls := [⟨0, 1, 2, [9], [(0, [])], []⟩] }
    s.platform.links.getLsbD 3 = true ∧ (∀ q ∈ s.platform.peerSeen, q.2 ≠ 77) ∧ rangeInHbm 0x80000000 8 = true ∧
    rangeInHbm (2 ^ 51) 8 = false ∧ Memory.wf s.hbm = true ∧ leNat (readBytes s.hbm 0x80000000 8) = 0 ∧
    s.colls = [] ++ ⟨0, 1, 2, [9], [(0, [])], []⟩ :: [] ∧ (∀ x ∈ s.colls, ∀ q ∈ x.sources, q.1 ≠ 1) ∧
    (∀ x ∈ s.colls, 0 ∉ x.ended ∧ ∃ q ∈ x.sources, q.1 = 0) := by
  and_intros <;> decide +kernel

/-- The firmware owes a test of one unit, and has begun those of the given cores. -/
def dueBench (s : State) (key : Nat) (under : List Nat) : State :=
  { s with platform := { s.platform with dueTests := [key], underTest := under } }

theorem witness_selfTests : (∀ under ∈ [[], [5]], let s := dueBench waveBench 5 under
      contextsOn s 0 5 = [] ∧ 0 * 2 ^ 24 + 5 ∈ s.platform.dueTests ∧ mapWf 0 s.platform.transient = true ∧ 0 < s.isles.length) ∧
    (let s := dueBench waveBench 0 []
     contextsOn s 0 0 = [(theContext s).index] ∧ s.ctx? 0 = some (theContext s)) ∧
    (∀ u ∈ [32, 33], let s := dueBench (linkBench .ready [] []) (2 ^ 24 + u) []
     1 * 2 ^ 24 + u ∈ s.platform.dueTests ∧ 1 < s.isles.length ∧ s.platform.failedLinks = 0) ∧
    (let s := dueBench waveBench 34 []
     0 * 2 ^ 24 + 34 ∈ s.platform.dueTests) ∧ (∀ u < 35, 0 * 2 ^ 24 + u ∉ waveBench.platform.dueTests) ∧
    (field (waveBench.isle 0).retl 0 9 < 511 ∧ 0 * isleSpan + 65536 * (35 - 35) ∉ waveBench.platform.retired ∧
      Memory.wf waveBench.hbm = true ∧
      rangeInHbm (field (waveBench.isle 0).retl 12 40 * 4096 + 8 * field (waveBench.isle 0).retl 0 9) 8 = true) ∧
    field (511 : Dword) 0 9 = 511 := by
  and_intros <;> decide +kernel

theorem witness_attestation : (List.replicate 32 (0 : Byte)).length = 32 ∧ waveBench.platform.oneTime < 2 ^ 20 ∧ 2 ^ 20 ≤ 0x100000 := by
  decide +kernel

/-- A first wrong bit beside which a second stands, and corrections of core 0 that count within a second. -/
def errorBench (e : BitError) (n : Nat) : State :=
  { waveBench with platform := { waveBench.platform with bitErrors := [e], corrected := List.replicate n (0, waveBench.clock) } }

theorem witness_storedBits : (∀ q ∈ [(BitError.lane 3 5 7, BitError.lane 3 5 8), (.lane 3 71 7, .lane 3 71 8), (.lane 3 76 7, .lane 3 76 8),
      (.scratch 2 9 1, .scratch 2 8 2), (.tag 2 9 1, .tag 2 9 2), (.acc 2 4 5 6, .acc 2 4 5 7), (.sort 2 0 1, .sort 2 0 0),
      (.far 0 64 1, .far 0 65 1)], let s := errorBench q.1 0
    q.1 ∈ s.platform.bitErrors ∧ q.1 ≠ q.2 ∧ protectedWord q.1 = protectedWord q.2 ∧ s.wave? 3 = some (theWave s) ∧
    s.block? 2 = some (theBlock s) ∧ bitUnit s q.2 ≠ none) ∧
    (∀ n ∈ [0, 63], let s := errorBench (.far 7 0 0) n
      ¬ (∃ x ∈ s.platform.bitErrors, x ≠ BitError.lane 3 5 7 ∧ protectedWord x = protectedWord (.lane 3 5 7)) ∧
      BitError.lane 3 5 7 ∉ s.platform.bitErrors ∧ bitUnit s (.lane 3 5 7) = some 0 ∧ s.platform.corrected.length = n) ∧
    bitUnit waveBench (.lane 9 5 7) = none := by
  and_intros <;> decide +kernel

/-! ### Steps and invariants (R100, R210 to R212, R402) -/

theorem wordAt_of {s : State} {c : Context} {isle : Nat} {pc : Dword} {x : Word} {pl : Place} (h : (canonical pc &&
    translate s c isle pc .fetch == .ok pl && leNat (readLoc s pl.loc 4) == x.toNat) = true) : WordAt s c isle pc x := by
  simp only [Bool.and_eq_true, beq_iff_eq] at h
  exact ⟨h.1.1, pl, h.1.2, h.2⟩

/-- An agent whose next word is given has the next move. -/
def moveBench (a : Agent) (x : Word) : State := { codeBench a x with agenda := [.run a] }

/-- The state in which the next move, an agent's, takes place. -/
def atTurn (s : State) (a : Agent) : State := { s with agenda := [], clock := s.clock + 1, turn := some a }

def codePlace : Place := ⟨⟨.hbm, 0x40000000⟩, 0x4000001B⟩

/-- All that a step asks before it runs an instruction, and whether a gang halt has still to stop the agent at it. -/
structure StepMet (s : State) (a : Agent) (i : Instr) (stops : Bool) : Prop where
  next  : s.agenda = .run a :: []
  runs  : agentRuns (atTurn s a) a = true
  lane  : ∀ w, a = .wave w.id → (atTurn s a).wave? w.id = some w → laneTaken (atTurn s a) w = false
  clean : agentFetchBad (atTurn s a) a = false
  meets : Meets (atTurn s a) a i
  edge  : ∀ w, a = .wave w.id → (atTurn s a).wave? w.id = some w →
    ((w.haltInfo = 1 ∧ w.stepMode = none ∧ edgeWord i = true) ↔ stops = true)

theorem stepMet_of {s : State} {a : Agent} {i : Instr} {stops : Bool} (hs : s.agenda = .run a :: [])
    (h : (let s1 := atTurn s a
      agentRuns s1 a && !agentFetchBad s1 a && s1.waves.all fun w => a != .wave w.id || (!laneTaken s1 w &&
        decide (w.haltInfo = 1 ∧ w.stepMode = none ∧ edgeWord i = true) == stops)) = true)
    (hm : Meets (atTurn s a) a i) : StepMet s a i stops := by
  simp only [Bool.and_eq_true, Bool.not_eq_true', List.all_eq_true, Bool.or_eq_true, bne_iff_ne] at h
  have hw : ∀ w, a = .wave w.id → (atTurn s a).wave? w.id = some w → _ := fun w ha hx =>
    (h.2 w (List.mem_of_find?_eq_some hx)).resolve_left (fun n => n ha)
  refine ⟨hs, h.1.1, fun w ha hx => (hw w ha hx).1, h.1.2, hm, fun w ha hx => ?_⟩
  have e := beq_iff_eq.mp (hw w ha hx).2
  rw [← e, decide_eq_true_eq]

def saddCode : State := moveBench (.wave 3) 0x90231900
def leaveWord : Word := (encode .leave).headD 0
def edgeCode : State := onWave (moveBench (.wave 3) leaveWord) fun w => { w with haltInfo := 1 }
def acqCode : State := moveBench (.block 2) 0xA5C00000
def gridCode : State := moveBench (.grid 1) 0xB1831234
def runCode (n : Nat) : State := benchInRun State.reset (benchRun [0x0F081FE8]) n
def fallen (a : Agent) : State :=
  onWave (onBlock (onGrid (moveBench a 0) fun g => { g with fell := true }) fun b => { b with fell := true }) fun w => { w with fell := true }

/-- A wave at SADD, and at LEAVE under a gang halt. -/
theorem witness_waveTurns : StepMet saddCode (.wave 3) (.sadd ⟨1, 3, 3, 4⟩) false ∧ StepMet edgeCode (.wave 3) .leave true :=
  ⟨stepMet_of rfl (by decide +kernel) (.inr (.inr (.inr (.inl ⟨theWave saddCode, ⟨benchContext, 0, 0, 0⟩, 0x90231900, rfl, by decide +kernel,
      by rfl, rfl, .inl rfl, wordAt_of (pl := codePlace) (by decide +kernel), by decide +kernel, by decide +kernel, by rfl⟩)))),
    stepMet_of rfl (by decide +kernel) (.inr (.inr (.inr (.inl ⟨theWave edgeCode, ⟨benchContext, 0, 0, 0⟩, leaveWord, rfl, by decide +kernel,
      by rfl, rfl, .inl rfl, wordAt_of (pl := codePlace) (by decide +kernel), by decide +kernel, by decide +kernel, by rfl⟩))))⟩

/-- A block at ACQ and a grid at SMOVI. -/
theorem witness_sequencerTurns : StepMet acqCode (.block 2) .acq false ∧ StepMet gridCode (.grid 1) (.smovi 3 3 0x1234) false :=
  ⟨stepMet_of rfl (by decide +kernel) (.inr (.inr (.inr (.inr (.inr (.inl ⟨theBlock acqCode, benchContext, 0xA5C00000, rfl, by decide +kernel,
      by decide +kernel, rfl, wordAt_of (pl := codePlace) (by decide +kernel), by decide +kernel, by decide +kernel, by rfl⟩)))))),
    stepMet_of rfl (by decide +kernel) (.inr (.inr (.inr (.inr (.inr (.inr ⟨theGrid gridCode, benchContext, 0xB1831234, rfl, by decide +kernel,
      by decide +kernel, rfl, wordAt_of (pl := codePlace) (by decide +kernel), by decide +kernel, by decide +kernel, by rfl⟩))))))⟩

/-- A wave at a word of its run, and at the trailer. -/
theorem witness_runTurns : StepMet (runCode 0) (.wave 3) (.iaddi ⟨2, 1, -3, 0⟩) false ∧ StepMet (runCode 1) (.wave 3) (.endr 0 0 0 0) false :=
  ⟨stepMet_of rfl (by decide +kernel) (.inr (.inr (.inr (.inr (.inl ⟨theWave (runCode 0), ⟨0x40000000, 1, 8, [0x0F081FE8, 0x9F000000]⟩, 0,
      0x0F081FE8, rfl, by decide +kernel, by rfl, .inl rfl, by decide, by decide +kernel, by rfl,
      .inr ⟨by decide, by decide +kernel, 1, by rfl⟩⟩))))),
    stepMet_of rfl (by decide +kernel) (.inr (.inr (.inr (.inr (.inl ⟨theWave (runCode 1), ⟨0x40000000, 1, 8, [0x0F081FE8, 0x9F000000]⟩, 1,
      0x9F000000, rfl, by decide +kernel, by rfl, .inl rfl, by decide, by decide +kernel, by rfl, .inl ⟨rfl, by rfl⟩⟩)))))⟩

/-- A wave, a block and a grid past the end of their texts. -/
theorem witness_implicitExits : StepMet (fallen (.wave 3)) (.wave 3) (.exit 1) false ∧ StepMet (fallen (.block 2)) (.block 2) (.exit 2) false ∧
    StepMet (fallen (.grid 1)) (.grid 1) (.exit 3) false :=
  ⟨stepMet_of rfl (by decide +kernel) (.inl ⟨theWave (fallen (.wave 3)), rfl, by decide +kernel, rfl, rfl, rfl⟩),
    stepMet_of rfl (by decide +kernel) (.inr (.inl ⟨theBlock (fallen (.block 2)), rfl, by decide +kernel, rfl, rfl⟩)),
    stepMet_of rfl (by decide +kernel) (.inr (.inr (.inl ⟨theGrid (fallen (.grid 1)), rfl, by decide +kernel, rfl, rfl⟩)))⟩

/-- Where the agent stays in its text and its word is no word of a run's body, the step is exec alone: SADD. -/
theorem witness_execAlone : ∃ t old new, exec (.sadd ⟨1, 3, 3, 4⟩) (atTurn saddCode (.wave 3)) = .next t ∧
    agentPc (atTurn saddCode (.wave 3)) (.wave 3) = some (old, benchGrid) ∧ agentPc t (.wave 3) = some (new, benchGrid) ∧
    leavesText benchGrid old new = false ∧ inBody (theWave saddCode) = false ∧
    ∀ n, t.wave? 3 = some n → n.stallLeft = 0 ∧ n.passed = 0 := by
  refine ⟨_, BitVec.ofNat 64 benchCode, BitVec.ofNat 64 (benchCode + 4), rfl, by decide +kernel, by decide +kernel, by decide +kernel, by decide +kernel,
    fun n h => ?_⟩
  obtain rfl := Option.some.inj h
  exact ⟨by decide +kernel, by decide +kernel⟩

theorem nextOf {o : Host.Outcome State Fault Refusal} (h : (match o with | .next _ => true | _ => false) = true) : ∃ t, o = .next t := by
  split at h
  · exact ⟨_, rfl⟩
  · exact absurd h (by decide)

theorem reset_canonical : Canonical State.reset := by
  constructor
  · constructor <;> decide +kernel
  all_goals decide +kernel

theorem witness_canonical : Canonical State.reset ∧ Canonical waveBench ∧ (∃ t, step State.reset = .next t) ∧
    ∃ t, step saddCode = .next t := by
  refine ⟨reset_canonical, ?_, nextOf ?_, nextOf ?_⟩
  · constructor
    · constructor <;> decide +kernel
    all_goals decide +kernel
  all_goals decide +kernel

theorem witness_built : WellBuilt waveBench ∧ waveBench.waves.length = 1 := by
  refine ⟨⟨?_, distinct_of ?_, ?_, ?_, ?_, ?_, ?_, ?_⟩, ?_⟩
  · refine ⟨fun w hw => ?_, fun b hb => ?_, fun g hg => ?_⟩
    · rw [List.mem_singleton.mp hw]
      constructor <;> decide +kernel
    · rw [List.mem_singleton.mp hb]
      constructor <;> decide +kernel
    · rw [List.mem_singleton.mp hg]
      constructor
  all_goals decide +kernel

theorem witness_opcodes : (∀ op ∈ intTwoOps ++ intOneOps ++ [0x4E, 0x5E] ++ (List.range 14).map (0x50 + ·), op < 128 ∧
      (BitVec.ofNat 32 (op * 2 ^ 24)).toNat / 2 ^ 24 = op) ∧
    (∀ op ∈ List.range 17 ++ [0x35, 0x36, 0x37, 0x38], let w : Word := BitVec.ofNat 32 (2 ^ 31 + op * 2 ^ 21)
      w.toNat / 2 ^ 31 = 1 ∧ w.toNat / 2 ^ 21 % 128 = op) ∧ (seqAluTable.take 9).length = 9 ∧ intTwoOps.length = intTwoTable.length ∧
    compareTable.length = 14 := by
  decide +kernel

theorem witness_isWord : (Instr.ffmaTx ⟨5, 1, 3, 7, 0⟩ ⟨7, 1, 0⟩).isWord = true ∧ (Instr.acq).isWord = true := by decide +kernel

end Sys2Proof.Tests
end

section
/-!
PROOFS. What an agent meets is what the sequencer reads at its pc, and one turn of an agent executes it (R5, R103, R107, R210,
R212, R361, R402).
-/

namespace Sys2Proof.Machine

/-! ### What an agent meets -/

/-- The decoder cuts the fields of a word out as bits, the statements by arithmetic (R5). -/
theorem sel_toNat (x : Word) (lo n : Nat) : (sel x lo n).toNat = field (x.setWidth 64) lo n := by
  have hx : x.toNat % 2 ^ 64 = x.toNat := Nat.mod_eq_of_lt (x.isLt.trans (by decide))
  rw [sel, field, BitVec.extractLsb'_toNat, BitVec.toNat_setWidth, hx, Nat.shiftRight_eq_div_pow]

theorem sel_eq_ofNat {x : Word} {lo n v : Nat} (h : field (x.setWidth 64) lo n = v) : sel x lo n = BitVec.ofNat n v := by
  rw [← h, ← sel_toNat, BitVec.ofNat_toNat, BitVec.setWidth_eq]

theorem ownWord_of_decode {x : Word} {next : Option Word} {i : Instr} {k : Nat} (h : decode x next = .ok (i, k)) :
    ownWord x next = .own i := by
  rw [ownWord, h]

/-- A sequencer word that is not of block or grid scope is a wave's own (R212). -/
theorem classify_wave {x : Word} (h31 : field (x.setWidth 64) 31 1 = 1) (h2 : field (x.setWidth 64) 28 3 ≠ 2)
    (h3 : field (x.setWidth 64) 28 3 ≠ 3) : classify 1 x = ownWord x none := by
  simp [classify, sel_eq_ofNat h31, sel_toNat, h2, h3]

/-- A sequencer word of block or grid scope is the own word of that level (R212); it is no RUN, which has wave scope. -/
theorem classify_sequencer {x : Word} {level : Level} (hl : level = 2 ∨ level = 3) (h31 : field (x.setWidth 64) 31 1 = 1)
    (hc : field (x.setWidth 64) 28 3 = level) : classify level x = ownWord x none := by
  have hr : isRunHeader x = false := by
    rcases hl with rfl | rfl <;> simp [isRunHeader, sel_toNat, hc]
  simp [classify, sel_eq_ofNat h31, hr, sel_toNat, hc, hl]

/-- A fetch reads the word that stands at the address (R5, R18). -/
theorem fetchWord_of_wordAt {s : State} {c : Context} {isle : Nat} {pc : Dword} {x : Word} (h : WordAt s c isle pc x) :
    fetchWord s c isle pc = .ok x := by
  obtain ⟨hc, pl, hpl, hread⟩ := h
  simp [fetchWord, readVa, hc, hpl, hread]

/-- The index of a body word, from the address at which it stands (R107). -/
theorem bodyIndex (header : Dword) {n : Nat} (hn : n < 2 ^ 32) :
    (header + BitVec.ofNat 64 (4 * (n + 1)) - header).toNat / 4 - 1 = n := by
  have hd : header + BitVec.ofNat 64 (4 * (n + 1)) - header = BitVec.ofNat 64 (4 * (n + 1)) := by
    rw [BitVec.add_comm, BitVec.add_sub_cancel]
  rw [hd, BitVec.toNat_ofNat]
  omega

/-- The trailer of a run is its ENDR, which has no second word (R106). -/
theorem runWord_trailer {r : Run} {n : Nat} {x : Word} (hn : n < 2 ^ 32) (hx : r.body[n]? = some x) (ht : n = r.words) :
    runWord r (r.header + BitVec.ofNat 64 (4 * (n + 1))) = ownWord x none := by
  simp only [runWord, bodyIndex r.header hn, hx, if_pos ht]

/-- A thread-set word of a run's body is read with the word of the body after it (R103, R107). -/
theorem runWord_body {r : Run} {n : Nat} {x : Word} (hn : n < 2 ^ 32) (hx : r.body[n]? = some x) (hb : n < r.words)
    (h31 : field (x.setWidth 64) 31 1 = 0) : runWord r (r.header + BitVec.ofNat 64 (4 * (n + 1))) =
      ownWord x (if n + 1 < r.words then r.body[n + 1]? else none) := by
  have hs : (sel x 31 1 != 0) = false := by simp [sel_eq_ofNat h31]
  simp only [runWord, bodyIndex r.header hn, hx, if_neg hb.ne, hs, Bool.false_eq_true, if_false]

theorem nextOfWave_fell (s : State) {w : Wave} (hf : w.fell = true) (hm : w.stepMode = none) : nextOfWave s w = .own (.exit 1) := by
  simp [nextOfWave, hf, hm]

/-- Short of the implicit EXIT, or in an LSTEP, a wave in a run reads the run. -/
theorem nextOfWave_run (s : State) {w : Wave} {r : Run} (hf : w.fell = false ∨ w.stepMode ≠ none) (hr : w.run = some r) :
    nextOfWave s w = runWord r w.pc := by
  simp only [nextOfWave, hr]
  rw [if_neg]
  rcases hf with hf | hf <;> simp [hf]

/-- Short of the implicit EXIT, or in an LSTEP, a wave outside a run fetches at its pc. -/
theorem nextOfWave_fetch {s : State} {w : Wave} {st : Standing} (hf : w.fell = false ∨ w.stepMode ≠ none) (hr : w.run = none)
    (hst : waveStanding s w = some st) : nextOfWave s w = fetched 1 w.pc (fetchWord s st.ctx st.isle w.pc) := by
  simp only [nextOfWave, hr, hst]
  rw [if_neg]
  rcases hf with hf | hf <;> simp [hf]

theorem nextOf_wave {s : State} {id : Nat} {w : Wave} (h : s.wave? id = some w) : nextOf s (.wave id) = nextOfWave s w := by
  simp [nextOf, h]

theorem nextOf_block {s : State} {id : Nat} {b : Block} (h : s.block? id = some b) : nextOf s (.block id) = nextOfBlock s b := by
  simp [nextOf, h]

theorem nextOf_grid {s : State} {id : Nat} {g : Grid} (h : s.grid? id = some g) : nextOf s (.grid id) = nextOfGrid s g := by
  simp [nextOf, h]

/-- The instruction that an agent meets is the one that its sequencer reads. -/
theorem nextOf_of_meets {s : State} {a : Agent} {i : Instr} (h : Meets s a i) : nextOf s a = .own i := by
  rcases h with ⟨w, rfl, hw, hf, hm, rfl⟩ | ⟨b, rfl, hb, hf, rfl⟩ | ⟨g, rfl, hg, hf, rfl⟩ |
    ⟨w, st, x, rfl, hw, hst, hr, hf, hx, h31, ⟨h2, h3⟩, hd⟩ | ⟨w, r, n, x, rfl, hw, hr, hf, hn, hpc, hx, hword⟩ |
    ⟨b, c, x, rfl, hb, hc, hf, hx, h31, h2, hd⟩ | ⟨g, c, x, rfl, hg, hc, hf, hx, h31, h3, hd⟩
  · rw [nextOf_wave hw, nextOfWave_fell s hf hm]
  · simp [nextOf_block hb, nextOfBlock, hf]
  · simp [nextOf_grid hg, nextOfGrid, hf]
  · rw [nextOf_wave hw, nextOfWave_fetch hf hr hst, fetchWord_of_wordAt hx, fetched, classify_wave h31 h2 h3, ownWord_of_decode hd]
  · rw [nextOf_wave hw, nextOfWave_run s hf hr, hpc]
    rcases hword with ⟨ht, hd⟩ | ⟨hb, h31, k, hd⟩
    · rw [runWord_trailer hn hx ht, ownWord_of_decode hd]
    · rw [runWord_body hn hx hb h31, ownWord_of_decode hd]
  · simp [nextOf_block hb, nextOfBlock, hf, hc, fetchWord_of_wordAt hx, fetched, classify_sequencer (.inl rfl) h31 h2,
      ownWord_of_decode hd]
  · simp [nextOf_grid hg, nextOfGrid, hf, hc, fetchWord_of_wordAt hx, fetched, classify_sequencer (.inr rfl) h31 h3,
      ownWord_of_decode hd]

/-! ### One turn of an agent -/

/-- An agent that may execute has its turn where no mate of its lane comes first (R319). -/
theorem hasTurn_of_runs {s : State} {a : Agent} (hruns : agentRuns s a = true)
    (hlane : ∀ w, a = .wave w.id → s.wave? w.id = some w → laneTaken s w = false) : hasTurn s a = true := by
  cases a with
  | wave id =>
    cases hw : s.wave? id with
    | none => simp [hasTurn, hruns, hw]
    | some w =>
      obtain rfl := s.wave_id id w hw
      simp [hasTurn, hruns, hw, hlane w rfl hw]
  | block id => simp [hasTurn, hruns]
  | grid id => simp [hasTurn, hruns]

/-- A step in which an agent has its turn is the execution of what it meets. -/
theorem step_eq_actOn {s : State} {a : Agent} {rest : List Move} {i : Instr} (hs : s.agenda = .run a :: rest)
    (hturn : hasTurn { s with agenda := rest, clock := s.clock + 1, turn := some a } a = true)
    (hclean : agentFetchBad { s with agenda := rest, clock := s.clock + 1, turn := some a } a = false)
    (hmeets : Meets { s with agenda := rest, clock := s.clock + 1, turn := some a } a i) :
    step s = actOn { s with agenda := rest, clock := s.clock + 1, turn := some a } a (.own i) := by
  simp [step, stepOnce, nextMove, hs, doMove, runAgent, hturn, hclean, nextOf_of_meets hmeets]

/-- The waves that a gang halt has still to stop (R361). -/
theorem stopsAtEdge_eq_some {s : State} {a : Agent} {w : Wave} : stopsAtEdge s a = some w ↔
    a = .wave w.id ∧ s.wave? w.id = some w ∧ w.haltInfo = 1 ∧ w.stepMode = none := by
  cases a with
  | wave id =>
    simp only [stopsAtEdge, Option.filter_eq_some_iff, Bool.and_eq_true, beq_iff_eq, Option.isNone_iff_eq_none, Agent.wave.injEq]
    constructor
    · rintro ⟨hw, hh⟩
      obtain rfl := s.wave_id id w hw
      exact ⟨rfl, hw, hh⟩
    · rintro ⟨rfl, hw, hh⟩
      exact ⟨hw, hh⟩
  | block id => simp [stopsAtEdge]
  | grid id => simp [stopsAtEdge]

/-- At an edge word, a wave that a gang halt has still to stop is halted instead (R361). -/
theorem actOn_edge {s : State} {a : Agent} {i : Instr} {w : Wave} (hstop : stopsAtEdge s a = some w) (he : edgeWord i = true) :
    actOn s a (.own i) = .next (haltAtEdge s w) := by
  simp [actOn, hstop, he, Option.filter]

/-- Anywhere else the word executes. -/
theorem actOn_executes {s : State} {a : Agent} {i : Instr} (h : ∀ w, stopsAtEdge s a = some w → edgeWord i = false) :
    actOn s a (.own i) = thenState (afterWord s a i) (exec i s) := by
  have hnone : ((stopsAtEdge s a).filter fun _ => edgeWord i) = none := by
    cases hw : stopsAtEdge s a with
    | none => rfl
    | some w => simp [h w hw]
  simp [actOn, hnone]

/-- A halt at an edge changes the wave that it halts, and nothing else. -/
theorem haltAtEdge_waveStep {s : State} {w : Wave} (hw : s.wave? w.id = some w) :
    WaveStep s (haltAtEdge s w) w { w with haltedWave := true, haltInfo := 2 } where
  here := s.putWave_wave_same _ _ w rfl hw
  others j hj := s.putWave_wave_other _ j hj
  rest := rfl

/-! ### What follows a word -/

/-- An agent that stays in its text is not marked (R402). -/
theorem markFell_eq_self {t : State} {a : Agent} {old : Dword} {n : Nat}
    (h : agentPc t a = none ∨ ∀ new x, agentPc t a = some (new, x) → leavesText x old new = false) : markFell t a old n = t := by
  cases hpc : agentPc t a with
  | none => simp [markFell, hpc]
  | some p =>
    obtain ⟨new, g⟩ := p
    have hstay : leavesText g old new = false := h.elim (fun hn => absurd (hn.symm.trans hpc) nofun) fun hl => hl new g hpc
    simp [markFell, hpc, hstay]

/-- Outside a run's body no slot of a lane goes by; a wave without stall count or slots passed over stays as it is (R319). -/
theorem afterIssue_outside_body {s t : State} {w : Wave} (hb : inBody w = false)
    (hslots : ∀ n, t.wave? w.id = some n → n.stallLeft = 0 ∧ n.passed = 0) : afterIssue s w t = t := by
  cases hn : t.wave? w.id with
  | none => simp [afterIssue, hn]
  | some n => simp [afterIssue, hn, hb, hslots n hn]

/-- Words outside a run's body are not counted (R369). -/
theorem countIssue_outside_body (t : State) {w : Wave} (hb : inBody w = false) : countIssue t w = t := by
  simp [countIssue, hb]

/-- Nothing follows a word where the agent stays in its text and the word is no word of a run's body. -/
theorem afterWord_eq_self {s t : State} {a : Agent} {i : Instr} {old : Dword} {g : Grid} (hpc : agentPc s a = some (old, g))
    (hstay : plainInstr i = false ∨ agentPc t a = none ∨ ∀ new x, agentPc t a = some (new, x) → leavesText x old new = false)
    (hslots : ∀ w, a = .wave w.id → s.wave? w.id = some w → inBody w = false ∧
      ∀ n, t.wave? w.id = some n → n.stallLeft = 0 ∧ n.passed = 0) : afterWord s a i t = t := by
  have hmark : (if plainInstr i then markFell t a old 1 else t) = t := by
    rcases hstay with hp | hm
    · simp [hp]
    · rw [markFell_eq_self hm, ite_self]
  cases a with
  | wave id =>
    cases hw : s.wave? id with
    | none => simp only [afterWord, hpc, hmark, hw]
    | some w =>
      obtain rfl := s.wave_id id w hw
      obtain ⟨hb, hn⟩ := hslots w rfl hw
      simp only [afterWord, hpc, hmark, hw, afterIssue_outside_body hb hn, countIssue_outside_body t hb]
  | block id => simp only [afterWord, hpc, hmark]
  | grid id => simp only [afterWord, hpc, hmark]

/-- Settles O55: the step is one turn of the agent; a wave under a gang halt stops at an edge word, and any other word executes. -/
theorem stepRunsDecoded : Obligations.StepRunsDecoded := by
  intro s a rest i hs s1 hruns hlane hclean hmeets
  have hstep : step s = actOn s1 a (.own i) := step_eq_actOn hs (hasTurn_of_runs hruns hlane) hclean hmeets
  refine ⟨fun w ha hw hh hm he => ?_, fun hgo => ?_⟩
  · exact ⟨haltAtEdge s1 w, hstep.trans (actOn_edge (stopsAtEdge_eq_some.mpr ⟨ha, hw, hh, hm⟩) he), haltAtEdge_waveStep hw⟩
  · have hexec : step s = thenState (afterWord s1 a i) (exec i s1) := by
      refine hstep.trans (actOn_executes fun w hstop => ?_)
      obtain ⟨ha, hw, hh, hm⟩ := stopsAtEdge_eq_some.mp hstop
      exact ((hgo w ha hw).resolve_left (absurd hh)).resolve_left (absurd hm)
    have hnext : ∀ t, exec i s1 = .next t → step s = .next (afterWord s1 a i t) := fun t ht => by rw [hexec, ht, thenState]
    refine ⟨hnext, fun f hf => ?_, fun r hr => ?_, fun t old g ht hpc hstay hslots => ?_⟩
    · rw [hexec, hf, thenState]
    · rw [hexec, hr, thenState]
    · rw [hnext t ht, afterWord_eq_self hpc hstay hslots]

end Sys2Proof.Machine
end

section
/-!
PROOFS. The steps beside a wave's words: illegal words, the replay of a switched-out wave, results of variable and fixed latency,
promotion (R10, R26, R29, R106, R111 to R113, R117, R212, R319, R335).
-/

namespace Sys2Proof.Machine

/-! ### Illegal words (R117, R212) -/

theorem exec_illegalInstruction {s : State} {a : Agent} (ht : s.turn = some a) (hn : nextOf s a = .illegal) :
    exec .illegalInstruction s = .next (illegalAt s a) := by
  show execIllegalInstruction s = _
  simp [execIllegalInstruction, eventNext, ht, hn]

theorem ownWord_of_error {x : Word} {next : Option Word} {e : DecodeError} (h : decode x next = .error e) :
    ownWord x next = .illegal := by
  rw [ownWord, h]

theorem field_word (x : Word) (lo n : Nat) : field (x.setWidth 64) lo n = x.toNat / 2 ^ lo % 2 ^ n := by
  rw [← sel_toNat, sel, BitVec.extractLsb'_toNat, Nat.shiftRight_eq_div_pow]

/-- The upper half of the words is the sequencer set (R100). -/
theorem field_sequencerSet {x : Word} (h : 2 ^ 31 ≤ x.toNat) : field (x.setWidth 64) 31 1 = 1 := by
  have := x.isLt
  rw [field_word]
  omega

/-- The lower half is the thread set, which no sequencer executes outside a run. -/
theorem classify_threadSet {x : Word} (h : x.toNat < 2 ^ 31) : classify 1 x = .illegal := by
  have h31 : field (x.setWidth 64) 31 1 = 0 := by
    rw [field_word]
    omega
  simp [classify, sel_eq_ofNat h31]

theorem classify_wordIllegal_wave {x : Word} (h : wordIllegal 1 x) : classify 1 x = .illegal := by
  rcases h with ⟨-, hlow⟩ | ⟨hhigh, -, hscope, e, he⟩
  · exact classify_threadSet hlow
  · obtain ⟨h2, h3⟩ : x.toNat / 2 ^ 28 % 8 ≠ 2 ∧ x.toNat / 2 ^ 28 % 8 ≠ 3 := by simpa using hscope
    rw [classify_wave (field_sequencerSet hhigh) (by rwa [field_word]) (by rwa [field_word]), ownWord_of_error he]

theorem classify_wordIllegal_sequencer {x : Word} {level : Level} (hl : level = 2 ∨ level = 3) (h : wordIllegal level x) :
    classify level x = .illegal := by
  have h1 : level ≠ 1 := by rcases hl with rfl | rfl <;> decide
  rcases h with ⟨hone, -⟩ | ⟨hhigh, -, hscope, e, he⟩
  · exact absurd hone h1
  · rw [if_neg h1] at hscope
    rw [classify_sequencer hl (field_sequencerSet hhigh) (by rwa [field_word]), ownWord_of_error he]

theorem exec_illegalInstruction_wave {s : State} {w : Wave} {st : Standing} {x : Word} (h : WaveTurn s w) (hr : w.run = none)
    (hf : w.fell = false) (hst : waveStanding s w = some st) (hx : fetchWord s st.ctx st.isle w.pc = .ok x)
    (hi : wordIllegal 1 x) : exec .illegalInstruction s = .next (haltWave s w 0x10 0 []) := by
  have hn : nextOf s (.wave w.id) = .illegal := by
    rw [nextOf_wave h.here, nextOfWave_fetch (.inl hf) hr hst, hx, fetched, classify_wordIllegal_wave hi]
  rw [exec_illegalInstruction h.turn hn, illegalAt, h.here]

theorem exec_illegalInstruction_block {s : State} {b : Block} {c : Context} {x : Word} (h : BlockTurn s b) (hf : b.fell = false)
    (hc : s.ctx? b.ctx = some c) (hx : fetchWord s c b.isle b.pc = .ok x) (hi : wordIllegal 2 x) :
    exec .illegalInstruction s = .next (haltBlock s b 0x10 0 []) := by
  have hn : nextOf s (.block b.id) = .illegal := by
    simp [nextOf_block h.here, nextOfBlock, hf, hc, hx, fetched, classify_wordIllegal_sequencer (.inl rfl) hi]
  rw [exec_illegalInstruction h.turn hn, illegalAt, h.here]

theorem exec_illegalInstruction_grid {s : State} {g : Grid} {c : Context} {x : Word} (h : GridTurn s g) (hf : g.fell = false)
    (hc : s.ctx? g.ctx = some c) (hx : fetchWord s c g.isle g.pc = .ok x) (hi : wordIllegal 3 x) :
    exec .illegalInstruction s = .next (haltGrid s g 0x10 0) := by
  have hn : nextOf s (.grid g.id) = .illegal := by
    simp [nextOf_grid h.here, nextOfGrid, hf, hc, hx, fetched, classify_wordIllegal_sequencer (.inr rfl) hi]
  rw [exec_illegalInstruction h.turn hn, illegalAt, h.here]

/-! ### One wave replaced -/

/-- A wave put in its own place changes nothing but that wave. -/
theorem putWave_waveStep {s : State} {w w' : Wave} (hw : s.wave? w.id = some w) (hid : w'.id = w.id) :
    WaveStep s (s.putWave w') w w' where
  here := s.putWave_wave_same w' w.id w hid hw
  others j hj := s.putWave_wave_other w' j (hid ▸ hj)
  rest := rfl

/-! ### Replays (R10, R26, R29, R335) -/

@[simp] theorem takeImage_id (k : Kernel) (w : Wave) (bs : List Byte) : (takeImage k w bs).id = w.id := rfl

@[simp] theorem loadSlot_id (s : State) (st : Standing) (slot : Nat) (w : Wave) : (loadSlot s st slot w).id = w.id := by
  unfold loadSlot
  split
  · exact takeImage_id ..
  · rfl

/-- A wave that comes back is the wave that was switched out. -/
theorem returnWave_id {s : State} {w w1 : Wave} (h : returnWave s w = some w1) : w1.id = w.id := by
  unfold returnWave at h
  split at h
  · obtain ⟨q, -, rfl⟩ := Option.map_eq_some_iff.mp h
    exact loadSlot_id ..
  · cases h

theorem exec_waveReplay {s : State} {w : Wave} (hw : s.wave? w.id = some w) : exec (.waveReplay w.id) s =
    .next (if w.phase == .missed && w.requests.isEmpty then replayWave s w else s) := by
  show execWaveReplay w.id s = _
  rw [execWaveReplay, hw]
  rfl

theorem exec_waveReplay_missed {s : State} {w : Wave} (hw : s.wave? w.id = some w) (hp : w.phase = .missed)
    (hq : w.requests = []) : exec (.waveReplay w.id) s = .next (replayWave s w) := by
  simp [exec_waveReplay hw, hp, hq]

/-- The wave with the registers of its save slot replays its instruction in the threads of PCM (R26). -/
theorem replayWave_ready {s : State} {w w1 : Wave} (h : returnWave s w = some w1) (hf : w1.missFailed = false) :
    replayWave s w = s.putWave { w1 with phase := .ready, replay := if w1.pcm = 0 then none else some w1.pcm } := by
  simp [replayWave, h, hf]

/-- After a failed verdict it takes the access-fault trap instead (R29). -/
theorem replayWave_failed {s : State} {w w1 : Wave} (h : returnWave s w = some w1) (hf : w1.missFailed = true) :
    replayWave s w = takeTrap s { w1 with phase := .ready, missFailed := false } 4 := by
  simp [replayWave, h, hf]

theorem replayWave_noLane {s : State} {w : Wave} (h : returnWave s w = none) : replayWave s w = s := by
  simp [replayWave, h]

/-- Without a miss, all its verdicts and a lane, a wave does not replay. -/
theorem exec_waveReplay_waits {s : State} {w : Wave} (hw : s.wave? w.id = some w)
    (h : w.phase ≠ .missed ∨ w.requests ≠ [] ∨ returnWave s w = none) : exec (.waveReplay w.id) s = .next s := by
  rw [exec_waveReplay hw]
  split
  case isFalse => rfl
  case isTrue hgo =>
    obtain ⟨hp, hq⟩ : w.phase = .missed ∧ w.requests = [] := by simpa using hgo
    rw [replayWave_noLane ((h.resolve_left (absurd hp)).resolve_left (absurd hq))]

/-! ### Bits of a vector -/

theorem getLsbD_one_shiftLeft {n j : Nat} (i : Nat) (hj : j < n) : (1#n <<< i).getLsbD j = decide (j = i) := by
  rw [BitVec.getLsbD_shiftLeft, BitVec.getLsbD_one, Bool.eq_iff_iff]
  simp only [Bool.and_eq_true, Bool.not_eq_true', decide_eq_true_eq, decide_eq_false_iff_not]
  omega

theorem setBit_getLsbD {n j : Nat} (x : BitVec n) (i : Nat) (b : Bool) (hj : j < n) :
    (setBit x i b).getLsbD j = if j = i then b else x.getLsbD j := by
  cases b with
  | true =>
    rw [setBit, if_pos rfl, BitVec.getLsbD_or, getLsbD_one_shiftLeft i hj]
    by_cases hi : j = i <;> simp [hi]
  | false =>
    rw [setBit, if_neg Bool.false_ne_true, BitVec.getLsbD_and, BitVec.getLsbD_not, getLsbD_one_shiftLeft i hj]
    by_cases hi : j = i <;> simp [hi, hj]

/-- The vector with the bits of a list set. -/
theorem orBits_getLsbD {j : Nat} (hj : j < 8) (ns : List Nat) (x : BitVec 8) :
    (ns.foldl (fun m n => m ||| (1#8 <<< n)) x).getLsbD j = (x.getLsbD j || decide (j ∈ ns)) := by
  induction ns generalizing x with
  | nil => simp
  | cons n ns ih =>
    have hbit : (x ||| 1#8 <<< n).getLsbD j = (x.getLsbD j || decide (j = n)) := by
      rw [BitVec.getLsbD_or, getLsbD_one_shiftLeft n hj]
    rw [List.foldl_cons, ih, hbit]
    simp [Bool.or_assoc]

/-! ### Tags (R106) -/

/-- The bit of a tag remains exactly where one of its published results is still pending. -/
theorem settleTags_bit (w : Wave) {j : Nat} (hj : j < 8) : (settleTags w).tags.getLsbD j = tagOutstanding w j := by
  have hlive := orBits_getLsbD hj ((List.range 8).filter (tagOutstanding w)) 0
  exact hlive.trans (by simp [hj])

theorem mem_settleTags_tagRegs {w : Wave} {e : Nat × List Reg} :
    e ∈ (settleTags w).tagRegs ↔ e ∈ w.tagRegs ∧ e.1 < 8 ∧ tagOutstanding w e.1 = true := by
  simp [settleTags]

theorem tagOutstanding_iff (w : Wave) (j : Nat) : tagOutstanding w j = true ↔
    w.tags.getLsbD j = true ∧ ∃ e ∈ w.tagRegs, e.1 = j ∧ e.2.any (regPending w) = true := by
  simp [tagOutstanding]

/-- Once tags are settled, the bit alone says whether a tag is outstanding. -/
theorem tagOutstanding_settleTags (w : Wave) {j : Nat} (hj : j < 8) :
    tagOutstanding (settleTags w) j = (settleTags w).tags.getLsbD j := by
  rw [Bool.eq_iff_iff, tagOutstanding_iff]
  refine ⟨And.left, fun hbit => ⟨hbit, ?_⟩⟩
  have hout : tagOutstanding w j = true := settleTags_bit w hj ▸ hbit
  obtain ⟨-, e, he, rfl, hpend⟩ := (tagOutstanding_iff w j).mp hout
  exact ⟨e, mem_settleTags_tagRegs.mpr ⟨he, hj, hout⟩, rfl, hpend⟩

/-! ### Writes that come after every result on the way (R111, R112) -/

theorem FilesOnly.eq {w w' : Wave} (h : FilesOnly w w') :
    w' = { w with v := w'.v, t := w'.t, tv := w'.tv, bad := w'.bad, inflight := w'.inflight } := h

/-- Of one register: its row and the results on their way to it once a later write has taken its place. -/
def overwriteOne (r : Reg) (part : Mask) (view : VRow × List InFlight) (q : Reg × VRow) : VRow × List InFlight :=
  (writeRow view.1 q.2 part, view.2.map (supersede r (wholeRow view.1) part))

/-- Later writes of some registers, in order. -/
def overwriteAll (part : Mask) (w : Wave) (qs : List (Reg × VRow)) : Wave := qs.foldl (fun w q => overwrite w q.1 q.2 part) w

theorem overwriteAll_cons (part : Mask) (w : Wave) (q : Reg × VRow) (qs : List (Reg × VRow)) :
    overwriteAll part w (q :: qs) = overwriteAll part (overwrite w q.1 q.2 part) qs := rfl

/-- Each register takes its own writes, in order. -/
theorem overwriteAll_law (part : Mask) (w : Wave) (qs : List (Reg × VRow)) :
    FilesOnly w (overwriteAll part w qs) ∧ ∀ r, inView (overwriteAll part w qs) r =
      (qs.filter fun q => decide (q.1 = r)).foldl (overwriteOne r part) (inView w r) := by
  induction qs generalizing w with
  | nil => exact ⟨FilesOnly.rfl' w, fun _ => rfl⟩
  | cons q qs ih =>
    obtain ⟨hfiles, hview⟩ := overwrite_law w q.1 q.2 part
    obtain ⟨hfiles', hview'⟩ := ih (overwrite w q.1 q.2 part)
    refine ⟨hfiles.trans hfiles', fun r => ?_⟩
    rw [overwriteAll_cons, hview' r, hview r, List.filter_cons]
    by_cases hq : q.1 = r
    · subst hq
      simp [overwriteOne, inView]
    · simp [hq, Ne.symm hq]

theorem overwriteOnes_row (r : Reg) (part : Mask) (qs : List (Reg × VRow)) (view : VRow × List InFlight) :
    (qs.foldl (overwriteOne r part) view).1 = qs.foldl (fun row q => writeRow row q.2 part) view.1 := by
  induction qs generalizing view with
  | nil => rfl
  | cons q qs ih => exact ih (overwriteOne r part view q)

/-- A thread that a later write takes awaits no result any more. -/
theorem overwriteOnes_spares {r : Reg} {part : Mask} {i : Nat} (hp : part.getLsbD i = true) (qs : List (Reg × VRow))
    (view : VRow × List InFlight) (hreg : ∀ e ∈ view.2, e.reg = r)
    (h : qs ≠ [] ∨ ∀ e ∈ view.2, Spares (wholeRow view.1) i e) :
    ∀ e ∈ (qs.foldl (overwriteOne r part) view).2, Spares (wholeRow (qs.foldl (overwriteOne r part) view).1) i e := by
  induction qs generalizing view with
  | nil => exact h.resolve_left (absurd rfl)
  | cons q qs ih =>
    have hrank : wholeRow (overwriteOne r part view q).1 = wholeRow view.1 := by
      rw [wholeRow, wholeRow, overwriteOne, shapeRank_writeRow]
    refine ih (overwriteOne r part view q) (fun e he => ?_) (.inr fun e he => ?_)
    all_goals obtain ⟨d, hd, rfl⟩ := List.mem_map.mp he
    · rw [supersede_reg, hreg d hd]
    · rw [hrank]
      exact spares_supersede r _ part i hp d (hreg d hd)

/-! ### One pending result (R111, R174) -/

/-- The registers of a pending result take it as later writes; no other field but the condition registers differs. -/
theorem writePending_eq (w : Wave) (p : Pending) : writePending w p =
    { overwriteAll p.mask w p.regs with k := (writePending w p).k } := by
  unfold writePending
  split <;> rfl

theorem writePending_frame (w : Wave) (p : Pending) : ∃ v t tv bad inflight k, writePending w p =
    { w with v := v, t := t, tv := tv, bad := bad, inflight := inflight, k := k } := by
  have hfiles := (overwriteAll_law p.mask w p.regs).1
  rw [writePending_eq, hfiles.eq]
  exact ⟨_, _, _, _, _, _, rfl⟩

theorem inView_withK (w : Wave) (k : BitVec 8) (r : Reg) : inView { w with k := k } r = inView w r := by cases r <;> rfl

theorem inView_withPending (w : Wave) (ps : List Pending) (r : Reg) : inView { w with pending := ps } r = inView w r := by
  cases r <;> rfl

theorem inView_settleTags (w : Wave) (r : Reg) : inView (settleTags w) r = inView w r := by cases r <;> rfl

theorem inView_writePending (w : Wave) (p : Pending) (r : Reg) : inView (writePending w p) r =
    (p.regs.filter fun q => decide (q.1 = r)).foldl (overwriteOne r p.mask) (inView w r) := by
  rw [writePending_eq, inView_withK, (overwriteAll_law p.mask w p.regs).2 r]

/-- A vote's result goes to its condition register (R174). -/
theorem writePending_k (w : Wave) (p : Pending) {j : Nat} (hj : j < 8) : (writePending w p).k.getLsbD j =
    match p.vote with
    | some (n, v) => if j = n.toNat then v else w.k.getLsbD j
    | none => w.k.getLsbD j := by
  have hk : (overwriteAll p.mask w p.regs).k = w.k := by
    rw [(overwriteAll_law p.mask w p.regs).1.eq]
  unfold writePending
  cases p.vote with
  | none => exact congrArg (fun k : BitVec 8 => k.getLsbD j) hk
  | some q => rw [← hk]; exact setBit_getLsbD _ _ _ hj

theorem tagOutstanding_writePending (w : Wave) (p : Pending) (j : Nat) :
    tagOutstanding (writePending w p) j = tagOutstanding w j := by
  obtain ⟨v, t, tv, bad, inflight, k, h⟩ := writePending_frame w p
  rw [h]
  rfl

/-! ### A variable-latency result is written (R106, R111) -/

section
variable {w : Wave} {n : Nat} {p : Pending} (hp : w.pending[n]? = some p)
include hp

theorem writeBack_eq : writeBack w n = settleTags (writePending { w with pending := w.pending.eraseIdx n } p) := by
  rw [writeBack, hp]

theorem writeBack_frame : ∃ v t tv bad inflight k tags tagRegs, writeBack w n =
    { w with v := v, t := t, tv := tv, bad := bad, inflight := inflight, k := k, tags := tags, tagRegs := tagRegs,
             pending := w.pending.eraseIdx n } := by
  obtain ⟨v, t, tv, bad, inflight, k, h⟩ := writePending_frame { w with pending := w.pending.eraseIdx n } p
  rw [writeBack_eq hp, h]
  exact ⟨v, t, tv, bad, inflight, k, _, _, rfl⟩

theorem inView_writeBack (r : Reg) : inView (writeBack w n) r =
    (p.regs.filter fun q => decide (q.1 = r)).foldl (overwriteOne r p.mask) (inView w r) := by
  rw [writeBack_eq hp, inView_settleTags, inView_writePending, inView_withPending]

theorem readReg_writeBack (r : Reg) : readReg (writeBack w n) r =
    (p.regs.filter fun q => decide (q.1 = r)).foldl (fun row q => writeRow row q.2 p.mask) (readReg w r) :=
  (congrArg Prod.fst (inView_writeBack hp r)).trans (overwriteOnes_row ..)

/-- A written thread keeps the value: no result on its way writes it later. -/
theorem rowAt_settled_writeBack {q : Reg × VRow} (hq : q ∈ p.regs) {i : Nat} (hi : i < 64) (hm : p.mask.getLsbD i = true) :
    rowAt (settled (writeBack w n) q.1) i = rowAt (readReg (writeBack w n) q.1) i := by
  have hspares := overwriteOnes_spares hm (p.regs.filter fun x => decide (x.1 = q.1)) (inView w q.1)
    (fun e he => by simpa using (List.mem_filter.mp he).2)
    (.inl (List.ne_nil_of_mem (List.mem_filter.mpr ⟨hq, decide_eq_true rfl⟩)))
  rw [← inView_writeBack hp q.1] at hspares
  rw [settled_flights]
  exact landSteps_spares _ _ i hi hspares

/-- A register that the result does not name awaits what it awaited. -/
theorem settled_writeBack_other {r : Reg} (hr : ∀ q ∈ p.regs, q.1 ≠ r) : settled (writeBack w n) r = settled w r := by
  have hnone : (p.regs.filter fun q => decide (q.1 = r)) = [] :=
    List.filter_eq_nil_iff.mpr fun q hq => by simpa using hr q hq
  have hview : inView (writeBack w n) r = inView w r := by
    rw [inView_writeBack hp, hnone, List.foldl_nil]
  obtain ⟨hrow, hflights⟩ := Prod.ext_iff.mp hview
  rw [settled_flights, settled_flights]
  exact congrArg₂ (List.foldl landStep) hrow hflights

end

theorem exec_loadWriteback {s : State} {w : Wave} (hw : s.wave? w.id = some w) (n : Nat) :
    exec (.loadWriteback w.id n) s = .next (s.putWave (writeBack w n)) := by
  show execLoadWriteback w.id n s = _
  rw [execLoadWriteback, hw]
  rfl

/-! ### The oldest fixed-latency result is written (R112, R113) -/

/-- What is left on the way once the oldest result is written: its slots are still asked for (R109). -/
def afterLanding (e : InFlight) (es : List InFlight) : List InFlight :=
  if e.need = 0 then es else { e with row := none } :: es

section
variable {w : Wave} {e : InFlight} {es : List InFlight} {row : VRow} (hw : w.inflight = e :: es) (hrow : e.row = some row)
include hw hrow

theorem landInFlight_eq : landInFlight w = { writeReg w e.reg row e.mask with inflight := afterLanding e es } := by
  simp only [landInFlight, hw, hrow, afterLanding]

theorem landInFlight_files : FilesOnly w (landInFlight w) := by
  rw [landInFlight_eq hw hrow]
  exact congrArg (fun x : Wave => { x with inflight := afterLanding e es }) (writeReg_regsOnly w e.reg row e.mask)

theorem readReg_landInFlight (r : Reg) :
    readReg (landInFlight w) r = if r = e.reg then writeRow (readReg w r) row e.mask else readReg w r := by
  rw [landInFlight_eq hw hrow, readReg_inflight, readReg_writeReg]
  by_cases hr : r = e.reg
  · subst hr
    simp
  · simp [hr, Ne.symm hr]

/-- Written now or at its slot, a result leaves the same row behind. -/
theorem settled_landInFlight (r : Reg) : settled (landInFlight w) r = settled w r := by
  have hflights : (landInFlight w).inflight = afterLanding e es := by rw [landInFlight_eq hw hrow]
  rw [settled_eq, settled_eq, readReg_landInFlight hw hrow, hflights, hw, afterLanding]
  by_cases hr : r = e.reg
  · subst hr
    by_cases hn : e.need = 0 <;> simp [hn, landStep, hrow]
  · by_cases hn : e.need = 0 <;> simp [hn, hr, Ne.symm hr]

end

theorem exec_fixedLatencyResultWrite {s : State} {w : Wave} (hw : s.wave? w.id = some w) :
    exec (.fixedLatencyResultWrite w.id) s = .next (s.putWave (landInFlight w)) := by
  show execFixedLatencyResultWrite w.id s = _
  rw [execFixedLatencyResultWrite, hw]
  rfl

/-! ### Promotion (R319) -/

theorem exec_wavePromotion {s : State} {w : Wave} (hw : s.wave? w.id = some w) :
    exec (.wavePromotion w.id) s = .next (if 64 ≤ w.passed then s.putWave { w with promoted := 1 } else s) := by
  show execWavePromotion w.id s = _
  rw [execWavePromotion, hw]
  rfl

/-- Settles O40: one law for each step, and the frame of the one wave that it replaces. -/
theorem waveEvents : Obligations.WaveEvents := by
  refine ⟨fun s w st x h hr hf _ hst hx hi => exec_illegalInstruction_wave h hr hf hst hx hi,
    fun s b c x h hf hc hx hi => exec_illegalInstruction_block h hf hc hx hi,
    fun s g c x h hf hc hx hi => exec_illegalInstruction_grid h hf hc hx hi, fun s w hw => ?_⟩
  refine ⟨fun w1 hp hq hret hok => ?_, fun w1 hp hq hret hfail => ?_, exec_waveReplay_waits hw, fun n p hp => ?_,
    fun e es row hfl hrow => ?_, fun hn => ?_, fun hn => ?_⟩
  · rw [exec_waveReplay_missed hw hp hq, replayWave_ready hret hok]
    exact ⟨_, rfl, putWave_waveStep hw (returnWave_id hret : w1.id = w.id)⟩
  · rw [exec_waveReplay_missed hw hp hq, replayWave_failed hret hfail]
  · obtain ⟨v, t, tv, bad, inflight, k, tags, tagRegs, hframe⟩ := writeBack_frame hp
    refine ⟨_, writeBack w n, exec_loadWriteback hw n, putWave_waveStep hw (by rw [hframe]), by rw [hframe], by rw [hframe],
      readReg_writeBack hp, fun q hq i hi hm => rowAt_settled_writeBack hp hq hi hm, fun r hr => settled_writeBack_other hp hr,
      fun j hj => ?_, fun j hj => ?_⟩
    · rw [writeBack_eq hp]
      exact writePending_k _ p hj
    · rw [writeBack_eq hp, settleTags_bit _ hj, tagOutstanding_settleTags _ hj, settleTags_bit _ hj, tagOutstanding_writePending]
      exact ⟨rfl, rfl⟩
  · have hfiles := landInFlight_files hfl hrow
    exact ⟨_, landInFlight w, exec_fixedLatencyResultWrite hw, putWave_waveStep hw (by rw [hfiles.eq]),
      by rw [hfiles.eq], readReg_landInFlight hfl hrow, settled_landInFlight hfl hrow⟩
  · rw [exec_wavePromotion hw, if_pos hn]
    exact ⟨_, rfl, putWave_waveStep hw rfl⟩
  · rw [exec_wavePromotion hw, if_neg (Nat.not_le.mpr hn)]

end Sys2Proof.Machine
end

section
/-!
PROOFS. Verdicts on a request (R27, R29): the one waiter of a request may stand twice in the list of waves, which `Distinct` does not
exclude, and then each of the two equal records takes the access-fault trap.
-/

namespace Sys2Proof.Machine

/-- A wave of the bench that waits at a sequencer word for the answer to request 7; its trap handler stands at address 4. -/
def twinWave : Wave :=
  { newWave benchGrid (benchBlock State.reset) 3 0 0 0 (BitVec.ofNat 64 benchCode) 0 with
    requests := [7], phase := .held .translation, tba := 1 }

/-- Request 7 of isle 0 as it stands in the fault ring. -/
def twinRequest : Request :=
  { isle := 0, seq := 7, pasid := 1, fn := 0, va := 0x80000000, kind := 0, core := 0, written := true, verdict := none, ats := 0,
    pages := [] }

/-- The one waiter of the request stands twice in the list of waves, as `Distinct` allows: a lookup finds an equal record. -/
def twinState : State := { benchState State.reset [] with waves := [twinWave, twinWave], requests := [twinRequest] }

theorem twinState_distinct : Distinct twinState := by
  constructor <;> decide +kernel

theorem twinState_nobodyElse : NobodyElse twinState twinRequest (some twinWave.id) none none where
  waves := by decide +kernel
  blocks := by decide +kernel
  grids := by decide +kernel
  heads x hx _ e c hc := by
    obtain rfl : x = benchBlock State.reset := List.mem_singleton.mp hx
    cases e <;> exact absurd hc nofun
  queues := nofun

/-- The fault logs of the contexts after a step. -/
def logsAfter : Host.Outcome State Fault Refusal → List Nat
  | .next t => t.contexts.map fun c => c.log.length
  | _ => []

/-- Each of the two equal records takes the trap, so the fault log has two entries; one trap enters one. -/
theorem twin_logs : logsAfter (exec (.xlrespFail 0 7) twinState) = [2] ∧
    logsAfter (.next (takeTrap { twinState with requests := [] } { twinWave with requests := [], phase := .ready } 4)) = [1] := by
  decide +kernel

theorem not_verdicts : ¬ Verdicts := by
  rintro ⟨-, h⟩
  obtain ⟨-, hwave, -⟩ := h twinState twinRequest true (.xlrespFail 0 7) rfl twinState_distinct (List.mem_singleton.mpr rfl)
    (by decide +kernel) (.inr ⟨rfl, rfl⟩)
  obtain ⟨-, -, htrap⟩ := hwave twinWave (benchBlock State.reset) (by decide +kernel) (by decide +kernel) rfl
    (by decide +kernel) twinState_nobodyElse
  have hone := htrap rfl (by decide +kernel) (by decide +kernel) (by decide +kernel)
  have hlogs := twin_logs
  rw [hone] at hlogs
  exact absurd (hlogs.1.symm.trans hlogs.2) (by decide)

/-- Refutes O52: in `twinState` a Fail verdict enters the trap of its one waiter twice in the fault log, since the waiter's record stands
twice in the list of waves; the statement needs a list of waves without duplicates beside `Distinct`. -/
theorem not_translation : ¬ Obligations.Translation := fun ⟨_, verdicts, _⟩ => not_verdicts verdicts

end Sys2Proof.Machine
end

section
/-!
PROOFS. The registers that a driver writes and reads and the command registers (R23, R30, R298, R299, R324): what each stores, shows and
starts.
-/

namespace Sys2Proof.Machine

/-! ### Registers of an isle's page -/

theorem State.isle_putIsle_same {s : State} {i : Nat} (h : i < s.isles.length) (r : IsleRegs) : (s.putIsle i r).isle i = r := by
  simp [State.isle, State.putIsle, h]

theorem State.isle_putIsle_other {i k : Nat} (s : State) (r : IsleRegs) (h : k ≠ i) : (s.putIsle i r).isle k = s.isle k := by
  simp [State.isle, State.putIsle, h.symm]

/-- The bits from `lo` to `hi` - 1. -/
def bitsFrom (lo hi : Nat) : Dword := BitVec.ofNat 64 (2 ^ hi - 2 ^ lo)

theorem getLsbD_bitsFrom {lo hi n : Nat} (h : lo ≤ hi) (hn : n < 64) :
    (bitsFrom lo hi).getLsbD n = decide (lo ≤ n ∧ n < hi) := by
  have hsplit : 2 ^ hi - 2 ^ lo = 2 ^ lo * (2 ^ (hi - lo) - 1) := by
    rw [Nat.mul_sub, ← Nat.pow_add, Nat.add_sub_cancel' h, Nat.mul_one]
  rw [bitsFrom, BitVec.getLsbD_ofNat, hsplit, Nat.testBit_two_pow_mul, Nat.testBit_two_pow_sub_one, Bool.eq_iff_iff]
  simp only [Bool.and_eq_true, decide_eq_true_eq]
  omega

theorem getLsbD_keepBits (old v mask : Dword) {n : Nat} (hn : n < 64) :
    (keepBits old v mask).getLsbD n = if mask.getLsbD n then v.getLsbD n else old.getLsbD n := by
  rw [keepBits, BitVec.getLsbD_or, BitVec.getLsbD_and, BitVec.getLsbD_and, BitVec.getLsbD_not]
  cases mask.getLsbD n <;> simp [hn]

theorem keptOutside_keepBits {lo hi : Nat} (h : lo ≤ hi) (old v : Dword) :
    keptOutside lo hi old v (keepBits old v (bitsFrom lo hi)) := fun n hn => by
  rw [getLsbD_keepBits old v _ hn, getLsbD_bitsFrom h hn]
  simp only [decide_eq_true_eq]

/-- The low bits of a register as a field of it. -/
theorem and_lowBits (v : Dword) (n : Nat) : v &&& bitsFrom 0 n = BitVec.ofNat 64 (field v 0 n) := by
  apply BitVec.eq_of_getLsbD_eq
  intro i hi
  rw [BitVec.getLsbD_and, getLsbD_bitsFrom (Nat.zero_le n) hi, BitVec.getLsbD_ofNat, field, pow_zero, Nat.div_one,
    Nat.testBit_mod_two_pow, Bool.eq_iff_iff]
  simp [BitVec.getLsbD, hi]
  tauto

theorem upperHalf_eq_field (v : Dword) : v.extractLsb' 32 32 = BitVec.ofNat 32 (field v 32 32) := by
  apply BitVec.eq_of_toNat_eq
  simp only [field, BitVec.extractLsb'_toNat, BitVec.toNat_ofNat, Nat.shiftRight_eq_div_pow, Nat.mod_mod]

theorem field_low (v : Dword) (n : Nat) : field v 0 n = v.toNat % 2 ^ n := by
  rw [field, pow_zero, Nat.div_one]

/-! ### Writes of plain registers (R23, R30, R298, R324, R370, R387) -/

theorem whenBooted_booted {s : State} (h : s.platform.booted = true) (t : State) : whenBooted s t = .next t := by
  rw [whenBooted, h]
  rfl

theorem whenBooted_early {s : State} (h : s.platform.booted = false) (t : State) : whenBooted s t = .next s := by
  rw [whenBooted, h]
  rfl

theorem execXlresp_early {s : State} (hb : s.platform.booted = false) (isle seq : Nat) :
    execXlrespRetry isle seq s = .next s ∧ execXlrespFail isle seq s = .next s := by
  unfold execXlrespRetry execXlrespFail
  cases answered s isle seq with
  | none => exact ⟨rfl, rfl⟩
  | some r => exact ⟨whenBooted_early hb _, whenBooted_early hb _⟩

/-- Before power-up no write of a register does anything (R399). -/
theorem exec_registerWrite_early {s : State} (hb : s.platform.booted = false) (isle offset : Nat) (v : Dword) :
    exec (.registerWrite isle offset v) s = .next s := by
  have early := whenBooted_early hb
  have xlresp := execXlresp_early hb isle (v.toNat % 2 ^ 16)
  show execRegisterWrite isle offset v s = _
  unfold execRegisterWrite
  extract_lets n stored
  have hstored : stored = .next s := by simp only [stored, hb, Bool.false_eq_true, if_false]
  split
  case h_1 =>
    simp only [hstored, hb, Bool.false_eq_true, if_false]
    split
    · rfl
    · split <;> [exact early _; exact early _; exact early _; rfl]
  case h_2 => split <;> [exact xlresp.1; exact xlresp.2; rfl]
  case h_3 => exact early _
  case h_4 => split <;> [exact early _; rfl]
  case h_5 =>
    split
    · split <;> [exact early _; exact early _; exact hstored]
    · exact hstored
  case h_6 =>
    split
    · split <;> [exact early _; exact early _; exact hstored]
    · exact hstored
  case h_7 => exact early _

theorem exec_registerWrite_plain (s : State) (isle : Nat) {offset : Nat} (v : Dword) (h : offset ∉ commandOffsets) :
    exec (.registerWrite isle offset v) s = whenBooted s (writeRegister s isle offset v) := by
  show execRegisterWrite isle offset v s = _
  unfold execRegisterWrite
  extract_lets n stored
  split
  case h_7 => rfl
  all_goals exact absurd (by decide) h

theorem writeRegister_page {q : PageRegister} (hq : q ∈ pageRegisters) (s : State) (isle : Nat) (v : Dword) :
    writeRegister s isle q.offset v =
      s.putIsle isle (q.set (s.isle isle) (keepBits (q.get (s.isle isle)) v (bitsFrom q.lo q.hi))) := by
  simp only [pageRegisters, List.mem_cons, List.not_mem_nil, or_false] at hq
  rcases hq with rfl | rfl | rfl | rfl | rfl | rfl | rfl <;> rfl

theorem pageRegister_bounds : ∀ q ∈ pageRegisters, q.lo ≤ q.hi ∧ q.offset ∉ commandOffsets := by
  decide

theorem exec_registerWrite_page {q : PageRegister} (hq : q ∈ pageRegisters) {s : State} {isle : Nat} (v : Dword)
    (hb : s.platform.booted = true) (hi : isle < s.isles.length) : ∃ t x, exec (.registerWrite isle q.offset v) s = .next t ∧
      t = { s with isles := t.isles } ∧ t.isle isle = q.set (s.isle isle) x ∧ keptOutside q.lo q.hi (q.get (s.isle isle)) v x ∧
      ∀ k, k ≠ isle → t.isle k = s.isle k := by
  obtain ⟨hle, hplain⟩ := pageRegister_bounds q hq
  refine ⟨_, _, ?_, rfl, State.isle_putIsle_same hi _, keptOutside_keepBits hle _ v, fun k hk => State.isle_putIsle_other s _ hk⟩
  rw [exec_registerWrite_plain s isle v hplain, whenBooted_booted hb, writeRegister_page hq]

theorem cntpolIndex_entry {f : Nat} (hf : f < 64) : cntpolIndex 0 (0x400 + 8 * f) = some f := by
  rw [cntpolIndex, if_pos (by omega)]
  exact congrArg some (by omega)

theorem writePlatformRegister_cntpol (s : State) {f : Nat} (hf : f < 64) (v : Dword) :
    writePlatformRegister s (0x400 + 8 * f) v =
      { s with platform := { s.platform with cntpol := s.platform.cntpol.set f (BitVec.ofNat 64 (field v 0 14)) } } := by
  unfold writePlatformRegister
  split
  case h_4 => 
    rw [cntpolIndex_entry hf]
    exact congrArg (fun x => ({ s with platform := { s.platform with cntpol := s.platform.cntpol.set f x } } : State))
      (and_lowBits v 14)
  all_goals omega

theorem cntpol_notCommand {f : Nat} (hf : f < 64) : 0x400 + 8 * f ∉ commandOffsets := by
  simp only [commandOffsets, List.mem_cons, List.not_mem_nil, or_false]
  omega

/-- CNTPOL f stands in isle 0's page, beyond the page's other registers. -/
theorem writeRegister_cntpol (s : State) {f : Nat} (hf : f < 64) (v : Dword) : writeRegister s 0 (0x400 + 8 * f) v =
    { s with platform := { s.platform with cntpol := s.platform.cntpol.set f (BitVec.ofNat 64 (field v 0 14)) } } := by
  unfold writeRegister
  split
  case h_9 => exact writePlatformRegister_cntpol s hf v
  all_goals omega

theorem writePlatformRegister_other (s : State) {offset : Nat} (v : Dword) (h : ¬ packageOffset offset) :
    writePlatformRegister s offset v = s := by
  unfold packageOffset at h
  unfold writePlatformRegister
  split
  case h_4 =>
    rw [cntpolIndex, if_neg (by omega)]
  all_goals omega

theorem writeRegister_other (s : State) {isle offset : Nat} (v : Dword) (hp : ∀ q ∈ pageRegisters, q.offset ≠ offset)
    (ht : offset ≠ 0x128) (hi : isle ≠ 0 ∨ ¬ packageOffset offset) : writeRegister s isle offset v = s := by
  simp only [pageRegisters, List.forall_mem_cons] at hp
  obtain ⟨h1, h2, h3, h4, h5, h6, h7, -⟩ := hp
  unfold writeRegister
  split
  case h_9 =>
    split
    case isTrue h0 => exact writePlatformRegister_other s v (hi.resolve_left (absurd h0))
    case isFalse => rfl
  all_goals exact absurd rfl ‹_ ≠ _›

/-- A value held between two limits. -/
theorem clamp_eq {lo hi : Nat} (h : lo ≤ hi) (x : Nat) : max lo (min hi x) = if x < lo then lo else if hi < x then hi else x := by
  split
  · omega
  · split <;> omega

/-- Every step of the driver's registers waits for power-up (R399). -/
theorem exec_driver_early {s : State} {i : Instr} (hb : s.platform.booted = false)
    (hi : (∃ isle offset v, i = .registerWrite isle offset v) ∨ (∃ isle v, i = .tperiodWrite isle v) ∨ (∃ v, i = .pwrlimWrite v) ∨
      (∃ c, i = .ctxcmdCreate c) ∨ (∃ c, i = .ctxcmdDestroy c) ∨ (∃ isle q, i = .qcmdEnable isle q) ∨
      (∃ isle q, i = .qcmdDisable isle q)) : exec i s = .next s := by
  have early := whenBooted_early hb
  rcases hi with ⟨isle, offset, v, rfl⟩ | ⟨isle, v, rfl⟩ | ⟨v, rfl⟩ | ⟨c, rfl⟩ | ⟨c, rfl⟩ | ⟨isle, q, rfl⟩ | ⟨isle, q, rfl⟩
  case inl =>
    exact exec_registerWrite_early hb isle offset v
  all_goals exact early _

theorem registerWrites : RegisterWrites := by
  refine ⟨fun s isle v hb hi => ⟨fun q hq => exec_registerWrite_page hq v hb hi, ?_, fun offset hp ht hc hpkg => ?_, fun n => ?_⟩,
    fun s v hb => ⟨?_, ?_, ?_, fun f hf => ?_, fun n => ?_⟩, fun s i hb hi => exec_driver_early hb hi⟩
  · rw [← upperHalf_eq_field]
    exact ⟨_, whenBooted_booted hb _, rfl, State.isle_putIsle_same hi _, fun k hk => State.isle_putIsle_other s _ hk⟩
  · rw [exec_registerWrite_plain s isle v hc, whenBooted_booted hb, writeRegister_other s v hp ht hpkg]
  · exact ⟨_, whenBooted_booted hb _, rfl, (State.isle_putIsle_same hi _).trans (by rw [clamp_eq (by decide)]),
      fun k hk => State.isle_putIsle_other s _ hk⟩
  · exact ⟨_, keptOutside_keepBits (by decide) _ v, whenBooted_booted hb _⟩
  · exact ⟨_, keptOutside_keepBits (by decide) _ v, whenBooted_booted hb _⟩
  · exact ⟨_, keptOutside_keepBits (by decide) _ v, whenBooted_booted hb _⟩
  · rw [exec_registerWrite_plain s 0 v (cntpol_notCommand hf), whenBooted_booted hb, writeRegister_cntpol s hf]
  · exact (whenBooted_booted hb _).trans (by rw [clamp_eq (by decide)])

/-! ### Writes of command registers (R29, R30, R298, R299) -/

theorem getLsbD_goMasks {n : Nat} (hn : n < 64) : szMask.getLsbD n = decide (22 ≤ n ∧ n < 24) ∧
    (pasidMask ||| szMask).getLsbD n = decide (n < 20 ∨ (22 ≤ n ∧ n < 24)) := by
  have hsz : szMask.getLsbD n = decide (22 ≤ n ∧ n < 24) := getLsbD_bitsFrom (lo := 22) (hi := 24) (by decide) hn
  have hpasid : pasidMask.getLsbD n = decide (0 ≤ n ∧ n < 20) := getLsbD_bitsFrom (lo := 0) (hi := 20) (by decide) hn
  refine ⟨hsz, ?_⟩
  rw [BitVec.getLsbD_or, hsz, hpasid, Bool.eq_iff_iff]
  simp

/-- The fields of XLINVC that a write stores before its step starts are left out while GO reads 1. -/
theorem xlinvcKeeps_storeFields {s : State} {isle : Nat} (hi : isle < s.isles.length) (mask v : Dword) (fields : Nat → Bool)
    (hmask : ∀ n, n < 64 → (mask.getLsbD n = true ↔ n < 24 ∧ fields n = true)) :
    xlinvcKeeps s (storeFields s isle mask v) isle v fields := by
  unfold storeFields
  by_cases hgo : (s.isle isle).xlinvc.getLsbD 31 = true
  · rw [if_pos hgo]
    exact ⟨rfl, fun _ _ => rfl, _, rfl, fun n _ => (if_neg fun h => by rw [hgo] at h; exact absurd h.1 nofun).symm⟩
  · rw [if_neg hgo]
    refine ⟨rfl, fun k hk => State.isle_putIsle_other s _ hk, _, State.isle_putIsle_same hi _, fun n hn => ?_⟩
    rw [getLsbD_keepBits _ _ _ hn]
    simp only [hmask n hn, Bool.not_eq_true _ ▸ hgo, true_and]

section
variable {s : State} {isle : Nat} {v : Dword} (hb : s.platform.booted = true)
include hb

/-- XLINVC without GO. -/
theorem exec_xlinvc_stored (hgo : v.getLsbD 31 = false) :
    exec (.registerWrite isle 0x110 v) s = .next (storeCommand s isle 0x110 v) := by
  have hdef : exec (.registerWrite isle 0x110 v) s = if !v.getLsbD 31 then
      .next (if s.platform.booted then storeCommand s isle 0x110 v else s) else _ := rfl
  rw [hdef, hgo, hb]
  rfl

/-- XLINVC with GO, by its SCOPE. -/
theorem exec_xlinvc_go (hgo : v.getLsbD 31 = true) : exec (.registerWrite isle 0x110 v) s =
    match field v 20 2 with
    | 0 => exec (.xlinvcOnePage isle (field v 0 20) (field v 22 2)) s
    | 1 => exec (.xlinvcWholePasid isle (field v 0 20)) (storeFields s isle szMask v)
    | 2 => exec (.xlinvcAllPasids isle) (storeFields s isle (pasidMask ||| szMask) v)
    | _ => .next s := by
  have hdef : exec (.registerWrite isle 0x110 v) s = if !v.getLsbD 31 then _ else
    match field v 20 2 with
    | 0 => exec (.xlinvcOnePage isle (v.toNat % 2 ^ 20) (field v 22 2)) s
    | 1 => exec (.xlinvcWholePasid isle (v.toNat % 2 ^ 20)) (if s.platform.booted then storeFields s isle szMask v else s)
    | 2 => exec (.xlinvcAllPasids isle) (if s.platform.booted then storeFields s isle (pasidMask ||| szMask) v else s)
    | _ => .next s := rfl
  rw [hdef, hgo, hb]
  simp only [field_low]
  rfl

/-- CTXCMD: CREATE and DESTROY with GO, and otherwise a store of the read-write fields. -/
theorem exec_ctxcmd : exec (.registerWrite 0 0x188 v) s = if v.getLsbD 31 then
    match field v 16 2 with
    | 1 => exec (.ctxcmdCreate (field v 0 16)) s
    | 2 => exec (.ctxcmdDestroy (field v 0 16)) s
    | _ => .next (storeCommand s 0 0x188 v)
    else .next (storeCommand s 0 0x188 v) := by
  have hdef : exec (.registerWrite 0 0x188 v) s = if 0 = 0 ∧ v.getLsbD 31 then
      match field v 16 2 with
      | 1 => exec (.ctxcmdCreate (v.toNat % 2 ^ 16)) s
      | 2 => exec (.ctxcmdDestroy (v.toNat % 2 ^ 16)) s
      | _ => .next (if s.platform.booted then storeCommand s 0 0x188 v else s)
    else .next (if s.platform.booted then storeCommand s 0 0x188 v else s) := rfl
  rw [hdef, hb]
  simp only [true_and, field_low, if_true]

/-- QCMD: ENABLE and DISABLE with GO, and otherwise a store of the read-write fields. -/
theorem exec_qcmd : exec (.registerWrite isle 0x190 v) s = if v.getLsbD 31 then
    match field v 16 2 with
    | 1 => exec (.qcmdEnable isle (field v 0 14)) s
    | 2 => exec (.qcmdDisable isle (field v 0 14)) s
    | _ => .next (storeCommand s isle 0x190 v)
    else .next (storeCommand s isle 0x190 v) := by
  have hdef : exec (.registerWrite isle 0x190 v) s = if v.getLsbD 31 then
      match field v 16 2 with
      | 1 => exec (.qcmdEnable isle (v.toNat % 2 ^ 14)) s
      | 2 => exec (.qcmdDisable isle (v.toNat % 2 ^ 14)) s
      | _ => .next (if s.platform.booted then storeCommand s isle 0x190 v else s)
    else .next (if s.platform.booted then storeCommand s isle 0x190 v else s) := rfl
  rw [hdef, hb]
  simp only [field_low, if_true]

end

/-- CTXCMD stands in isle 0's page alone. -/
theorem exec_ctxcmd_elsewhere (s : State) {isle : Nat} (v : Dword) (hi : isle ≠ 0) : exec (.registerWrite isle 0x188 v) s = .next s := by
  have hdef : exec (.registerWrite isle 0x188 v) s = if isle = 0 ∧ v.getLsbD 31 then _ else
      .next (if s.platform.booted then (if isle = 0 then _ else s) else s) := rfl
  rw [hdef, if_neg (fun h => hi h.1), if_neg hi, ite_self]

/-- XLRESP: its OP names the verdict. -/
theorem exec_xlresp (s : State) (isle : Nat) (v : Dword) : exec (.registerWrite isle 0x118 v) s =
    match field v 16 2 with
    | 1 => exec (.xlrespRetry isle (field v 0 16)) s
    | 2 => exec (.xlrespFail isle (field v 0 16)) s
    | _ => .next s := by
  have hdef : exec (.registerWrite isle 0x118 v) s =
    match field v 16 2 with
    | 1 => exec (.xlrespRetry isle (v.toNat % 2 ^ 16)) s
    | 2 => exec (.xlrespFail isle (v.toNat % 2 ^ 16)) s
    | _ => .next s := rfl
  rw [hdef]
  simp only [field_low]

/-- What XLINVC's fields keep a write without GO from storing: an invalidation under way, a reserved SCOPE, a reserved SZ. -/
def xlinvcIgnores (s : State) (isle : Nat) (v : Dword) : Prop :=
  (s.isle isle).xlinvc.getLsbD 31 = true ∨ field v 20 2 = 3 ∨ (field v 20 2 = 0 ∧ field v 22 2 = 3)

theorem storeCommand_xlinvc_eq (s : State) (isle : Nat) (v : Dword) : storeCommand s isle 0x110 v =
    if ((s.isle isle).xlinvc.getLsbD 31 || field v 20 2 == 3 || (field v 20 2 == 0 && field v 22 2 == 3)) = true then s
    else s.putIsle isle { s.isle isle with xlinvc := BitVec.ofNat 64 (field v 0 24) } := by
  rw [← and_lowBits]
  rfl

theorem storeCommand_xlinvc_ignored {s : State} {isle : Nat} {v : Dword} (h : xlinvcIgnores s isle v) :
    storeCommand s isle 0x110 v = s := by
  rw [storeCommand_xlinvc_eq, if_pos]
  simpa only [Bool.or_eq_true, Bool.and_eq_true, beq_iff_eq, or_assoc, xlinvcIgnores] using h

theorem storeCommand_xlinvc_stored {s : State} {isle : Nat} {v : Dword} (h : ¬ xlinvcIgnores s isle v) :
    storeCommand s isle 0x110 v = s.putIsle isle { s.isle isle with xlinvc := BitVec.ofNat 64 (field v 0 24) } := by
  rw [storeCommand_xlinvc_eq, if_neg]
  simpa only [Bool.or_eq_true, Bool.and_eq_true, beq_iff_eq, or_assoc, xlinvcIgnores] using h

theorem qcmd_mask {n : Nat} (hn : n < 64) : (bitsFrom 0 14 ||| bitsFrom 16 18).getLsbD n = true ↔ n < 14 ∨ n = 16 ∨ n = 17 := by
  rw [BitVec.getLsbD_or, getLsbD_bitsFrom (by decide) hn, getLsbD_bitsFrom (by decide) hn]
  simp only [Bool.or_eq_true, decide_eq_true_eq]
  omega

theorem ctxcmd_mask {n : Nat} (hn : n < 64) : (bitsFrom 0 18).getLsbD n = true ↔ n < 18 := by
  rw [getLsbD_bitsFrom (by decide) hn]
  simp

section
variable {s : State} {isle : Nat} {v : Dword} (hb : s.platform.booted = true)
  (h : v.getLsbD 31 = false ∨ field v 16 2 ≠ 1 ∧ field v 16 2 ≠ 2)
include hb h

/-- Without GO, or with an OP that does nothing, a write of QCMD or CTXCMD stores the read-write fields. -/
theorem exec_qcmd_stored : exec (.registerWrite isle 0x190 v) s = .next (storeCommand s isle 0x190 v) := by
  rw [exec_qcmd hb]
  rcases h with hgo | ⟨h1, h2⟩
  · rw [hgo]
    rfl
  · split
    · split <;> [exact absurd ‹_› h1; exact absurd ‹_› h2; rfl]
    · rfl

theorem exec_ctxcmd_stored : exec (.registerWrite 0 0x188 v) s = .next (storeCommand s 0 0x188 v) := by
  rw [exec_ctxcmd hb]
  rcases h with hgo | ⟨h1, h2⟩
  · rw [hgo]
    rfl
  · split
    · split <;> [exact absurd ‹_› h1; exact absurd ‹_› h2; rfl]
    · rfl

end

theorem commandWrites : CommandWrites := by
  intro s isle v hb hi write op
  refine ⟨rfl, rfl, fun h => ?_, fun h => ?_, fun h => ?_, fun h => exec_ctxcmd_elsewhere s v h, fun h => ?_, fun hgo => ?_,
    fun hgo => ?_, fun hstored => ?_⟩
  · simp only [write, exec_xlresp, show field v 16 2 = 1 from h]
  · simp only [write, exec_xlresp, show field v 16 2 = 2 from h]
  · rcases h with h | h <;> simp only [write, exec_xlresp, show field v 16 2 = _ from h]
  · cases hgo : v.getLsbD 31 with
    | false => exact (exec_xlinvc_stored hb hgo).trans (by rw [storeCommand_xlinvc_ignored (.inr (.inl h))])
    | true => exact (exec_xlinvc_go hb hgo).trans (by simp only [h])
  · refine ⟨fun h => ?_, fun h => ?_, fun h => ?_, fun h0 => ⟨fun h => ?_, fun h => ?_⟩, fun h => ?_, fun h => ?_⟩
    · exact (exec_xlinvc_go hb hgo).trans (by simp only [h])
    · refine ⟨storeFields s isle szMask v, (exec_xlinvc_go hb hgo).trans (by simp only [h]),
        xlinvcKeeps_storeFields hi _ v _ fun n hn => ?_⟩
      rw [(getLsbD_goMasks hn).1]
      simp only [decide_eq_true_eq]
      omega
    · refine ⟨storeFields s isle (pasidMask ||| szMask) v, (exec_xlinvc_go hb hgo).trans (by simp only [h]),
        xlinvcKeeps_storeFields hi _ v _ fun n hn => ?_⟩
      rw [(getLsbD_goMasks hn).2]
      simp only [decide_eq_true_eq]
      omega
    · subst h0
      exact (exec_ctxcmd hb).trans (by simp only [hgo, if_true, show field v 16 2 = 1 from h])
    · subst h0
      exact (exec_ctxcmd hb).trans (by simp only [hgo, if_true, show field v 16 2 = 2 from h])
    · exact (exec_qcmd hb).trans (by simp only [hgo, if_true, show field v 16 2 = 1 from h])
    · exact (exec_qcmd hb).trans (by simp only [hgo, if_true, show field v 16 2 = 2 from h])
  · refine ⟨fun h => ?_, fun hfree hscope hsize => ?_⟩
    · exact (exec_xlinvc_stored hb hgo).trans (by rw [storeCommand_xlinvc_ignored (h.imp_right .inr)])
    · have hstores : ¬ xlinvcIgnores s isle v := by
        rintro (h | h | ⟨h, h'⟩)
        · exact absurd (hfree.symm.trans h) nofun
        · omega
        · exact (hsize h).ne h'
      exact ⟨_, (exec_xlinvc_stored hb hgo).trans (by rw [storeCommand_xlinvc_stored hstores]), rfl,
        fun k hk => State.isle_putIsle_other s _ hk, State.isle_putIsle_same hi _⟩
  · have hnothing : v.getLsbD 31 = false ∨ field v 16 2 ≠ 1 ∧ field v 16 2 ≠ 2 := hstored.imp_right (by rintro (h | h) <;> omega)
    refine ⟨⟨_, keepBits (s.isle isle).qcmd v (bitsFrom 0 14 ||| bitsFrom 16 18), exec_qcmd_stored hb hnothing, rfl,
      fun k hk => State.isle_putIsle_other s _ hk, State.isle_putIsle_same hi _, fun n hn => ?_⟩,
      fun h0 => ⟨keepBits s.platform.ctxcmd v (bitsFrom 0 18), ?_, fun n hn => ?_⟩⟩
    · rw [getLsbD_keepBits _ _ _ hn]
      simp only [qcmd_mask hn]
    · subst h0
      exact exec_ctxcmd_stored hb hnothing
    · rw [getLsbD_keepBits _ _ _ hn]
      simp only [ctxcmd_mask hn]

/-! ### Reads of registers (R23, R299, R370, R377, R387, R399) -/

theorem readRegister_early {s : State} {isle offset : Nat} (hpart : offset ≠ 0x150) (hunits : offset ≠ 0x170)
    (hb : s.platform.booted = false) : readRegister s isle offset = 0 := by
  simp [readRegister, hpart, hunits, hb]

theorem readRegister_booted {s : State} {isle offset : Nat} (hpart : offset ≠ 0x150) (hunits : offset ≠ 0x170)
    (hb : s.platform.booted = true) : readRegister s isle offset = readPlain s isle offset := by
  simp [readRegister, hpart, hunits, hb]

theorem readRegister_part (s : State) (isle : Nat) : (readRegister s isle 0x150).toNat = 9 + 256 * Config.partStep.toNat := by
  have := Config.partStep.isLt
  show (BitVec.ofNat 64 partId).toNat = _
  rw [BitVec.toNat_ofNat, partId]
  omega

theorem selfTesting_iff (s : State) (isle : Nat) : selfTesting s isle = true ↔ ∃ n ∈ s.platform.underTest, n / 32 = isle := by
  simp [selfTesting, coresPerIsle]

/-- The bits of a word that is laid out from three fields. -/
theorem testBit_threeFields {a b c : Nat} (ha : a < 2 ^ 32) (hb : b < 4) (k : Nat) :
    (a + b * 2 ^ 32 + c * 2 ^ 34).testBit k =
      if k < 32 then a.testBit k else if k < 34 then b.testBit (k - 32) else c.testBit (k - 34) := by
  have hword : a + b * 2 ^ 32 + c * 2 ^ 34 = 2 ^ 32 * (2 ^ 2 * c + b) + a := by omega
  rw [hword, Nat.testBit_two_pow_mul_add _ ha]
  by_cases hk : k < 32
  · simp [hk]
  · rw [if_neg hk, if_neg hk, Nat.testBit_two_pow_mul_add c (show b < 2 ^ 2 from hb)]
    by_cases hk2 : k < 34
    · rw [if_pos hk2, if_pos (by omega)]
    · rw [if_neg hk2, if_neg (by omega)]
      congr 1

theorem readRegister_units (s : State) (isle : Nat) {k : Nat} (hk : k < 64) :
    (readRegister s isle 0x170).getLsbD k = true ↔ (k < 32 ∧ (s.isle isle).units.getLsbD k = true) ∨
      ((k = 32 ∨ k = 33) ∧ s.platform.links.getLsbD (2 * isle + (k - 32)) = true) ∨
      (k = 34 ∧ ∃ n ∈ s.platform.underTest, n / 32 = isle) := by
  have htest : (if selfTesting s isle then 2 ^ 34 else 0) = (selfTesting s isle).toNat * 2 ^ 34 := by
    cases selfTesting s isle <;> rfl
  show (BitVec.ofNat 64 _).getLsbD k = true ↔ _
  rw [BitVec.getLsbD_ofNat, htest, testBit_threeFields (Nat.mod_lt _ (by decide)) (Nat.mod_lt _ (by decide))]
  simp only [hk, decide_true, Bool.true_and]
  split
  case isTrue hlow =>
    rw [Nat.testBit_mod_two_pow]
    simp only [hlow, decide_true, Bool.true_and, true_and]
    constructor
    · exact fun h => .inl h
    · rintro (h | ⟨h, -⟩ | ⟨h, -⟩)
      · exact h
      all_goals omega
  case isFalse hlow =>
    split
    case isTrue hlink =>
      rw [show (4 : Nat) = 2 ^ 2 from rfl, Nat.testBit_mod_two_pow, Nat.testBit_div_two_pow, Nat.add_comm]
      simp only [show k - 32 < 2 by omega, decide_true, Bool.true_and]
      constructor
      · exact fun h => .inr (.inl ⟨by omega, h⟩)
      · rintro (⟨h, -⟩ | ⟨-, h⟩ | ⟨h, -⟩)
        · exact absurd h hlow
        · exact h
        · omega
    case isFalse hlink =>
      rw [← selfTesting_iff]
      constructor
      · intro h
        cases ht : selfTesting s isle with
        | false => simp [ht] at h
        | true =>
          have : k - 34 = 0 := by simpa [ht, Nat.testBit_one_eq_true_iff_self_eq_zero] using h
          exact .inr (.inr ⟨by omega, rfl⟩)
      · rintro (⟨h, -⟩ | ⟨h, -⟩ | ⟨rfl, h⟩)
        · exact absurd h hlow
        · omega
        · rw [h]
          rfl

theorem registers_outside_early : ∀ q ∈ pageRegisters, q.offset ≠ 0x150 ∧ q.offset ≠ 0x170 := by decide

theorem readPlain_page {q : PageRegister} (hq : q ∈ pageRegisters) (s : State) (isle : Nat) :
    readPlain s isle q.offset = q.get (s.isle isle) := by
  simp only [pageRegisters, List.mem_cons, List.not_mem_nil, or_false] at hq
  rcases hq with rfl | rfl | rfl | rfl | rfl | rfl | rfl <;> rfl

theorem readPlain_cntpol (s : State) {f : Nat} (hf : f < 64) : readPlain s 0 (0x400 + 8 * f) = s.platform.cntpol.getD f 0 := by
  have hplatform : readPlatformRegister s (0x400 + 8 * f) = s.platform.cntpol.getD f 0 := by
    unfold readPlatformRegister
    split
    case h_6 => rw [cntpolIndex_entry hf]
    all_goals omega
  unfold readPlain
  split
  case h_12 => exact hplatform
  all_goals omega

theorem toNat_halves (hi lo : Word) : (hi ++ lo : Dword).toNat = lo.toNat + hi.toNat * 2 ^ 32 := by
  rw [BitVec.toNat_append, ← Nat.shiftLeft_add_eq_or_of_lt lo.isLt, Nat.shiftLeft_eq, Nat.add_comm]

theorem shows_readRegister (s : State) (isle offset : Nat) :
    Shows s isle offset (readRegister s isle offset) where
  part h := h ▸ readRegister_part s isle
  units h k hk := h ▸ readRegister_units s isle hk
  early hpart hunits hb := readRegister_early hpart hunits hb
  page hb q hq h := by
    obtain ⟨hpart, hunits⟩ := registers_outside_early q hq
    subst h
    rw [readRegister_booted hpart hunits hb, readPlain_page hq]
  others hb := by
    refine ⟨?_, ?_, ?_, ?_⟩
    all_goals
      rintro rfl
      rw [readRegister_booted (by decide) (by decide) hb]
    · rfl
    · exact toNat_halves _ _
    · exact BitVec.toNat_ofNat ..
    · rfl
  package hb h0 := by
    subst h0
    refine ⟨?_, ?_, ?_, ?_, ?_, fun f hf h => ?_⟩
    case refine_6 =>
      subst h
      rw [readRegister_booted (by omega) (by omega) hb, readPlain_cntpol s hf]
    all_goals
      rintro rfl
      rw [readRegister_booted (by decide) (by decide) hb]
    · rfl
    · rfl
    · rfl
    · exact BitVec.toNat_ofNat ..
    · rfl

theorem registerReads : RegisterReads := by
  intro s rest isle offset function page s1 answers
  have hnext : ∀ m, s.agenda = m :: rest → step s = doMove s1 m := fun m hm => by
    simp only [step, stepOnce, nextMove, hm, s1]
  exact ⟨fun hs _ => ⟨_, hnext _ hs, shows_readRegister s isle offset⟩, fun hs => hnext _ hs⟩

end Sys2Proof.Machine
end

section
/-!
PROOFS. The creation of a context (R296, R299), from its eight records to its status.
-/

namespace Sys2Proof.Machine

/-! ### Creating a context (R296, R299) -/

theorem baseOf_eq_field (r : Dword) : baseOf r = field r 12 40 * 4096 := rfl

theorem contextRecord_eq (s : State) (isle : Nat) {ctx : Nat} (h : ctx < 65536) :
    contextRecord s isle ctx = readBytes s.hbm (field (s.isle isle).ctxtb 12 40 * 4096 + 128 * ctx) 128 := by
  rw [contextRecord, baseOf_eq_field, Nat.mod_eq_of_lt h]

/-- The bytes of a record from an offset on are zero. -/
theorem drop_all_zero {r : List Byte} (o : Nat) : (r.drop o).all (· == 0) = true ↔ ∀ n, o ≤ n → n < r.length → r.getD n 0 = 0 := by
  simp only [List.all_eq_true, beq_iff_eq, List.forall_mem_iff_getElem, List.length_drop, List.getElem_drop]
  constructor
  · intro h n ho hn
    have := h (n - o) (by omega)
    rw [List.getD_eq_getElem _ _ hn, ← this]
    congr 1
    omega
  · intro h n hn
    rw [← h (o + n) (by omega) (by omega), List.getD_eq_getElem _ _ (by omega)]

theorem recordGood_iff {r : List Byte} (hlen : r.length = 128) : recordGood r = true ↔ GoodRecord r := by
  simp only [recordGood, Bool.and_eq_true, beq_iff_eq, decide_eq_true_eq, drop_all_zero 33, hlen]
  simp only [fieldAt, List.drop_zero]
  constructor
  · rintro ⟨⟨⟨⟨⟨⟨⟨h1, h2⟩, h3⟩, h4⟩, h5⟩, h6⟩, h7⟩, h8⟩
    exact ⟨⟨h1, h2, h3⟩, h4, ⟨h5, h6⟩, h7, h8⟩
  · rintro ⟨⟨h1, h2, h3⟩, h4, ⟨h5, h6⟩, h7, h8⟩
    exact ⟨⟨⟨⟨⟨⟨⟨h1, h2⟩, h3⟩, h4⟩, h5⟩, h6⟩, h7⟩, h8⟩

theorem contextOf_madeFrom (ctx : Nat) (r : List Byte) : MadeFrom r ctx (contextOf ctx r) where
  names := ⟨rfl, rfl, rfl, rfl⟩
  flags := by
    simp only [Nat.testBit_zero, Nat.testBit_succ]
    exact ⟨rfl, rfl⟩
  bkey := rfl
  times := ⟨rfl, rfl⟩
  save := rfl
  live := ⟨rfl, rfl, rfl, rfl, rfl⟩
  unseen := ⟨fun p hp => by rw [List.eq_of_mem_replicate hp]; rfl, rfl, rfl, rfl⟩

theorem ctx?_isSome_iff (s : State) (ctx : Nat) : (s.ctx? ctx).isSome = true ↔ ∃ c ∈ s.contexts, c.index = ctx := by
  simp [State.ctx?, List.find?_isSome]

theorem ctx?_eq_none_iff (s : State) (ctx : Nat) : s.ctx? ctx = none ↔ ∀ c ∈ s.contexts, c.index ≠ ctx := by
  simp [State.ctx?]

/-- CTXCMD after an operation on a context that its index names. -/
theorem setCtxcmd_eq (s : State) {ctx : Nat} (op status : Nat) (h : ctx < 65536) :
    setCtxcmd s ctx op status = { s with platform := { s.platform with ctxcmd := ctxcmdShows ctx op status } } := by
  rw [setCtxcmd, Nat.mod_eq_of_lt h, ctxcmdShows]

section
variable {s : State} {ctx : Nat} (hb : s.platform.booted = true) (hctx : ctx < 65536)
include hb hctx

/-- CREATE without a new context. -/
theorem exec_create_refused {status : Nat} (h : createOutcome s ctx = (status, none)) :
    exec (.ctxcmdCreate ctx) s = .next { s with platform := { s.platform with ctxcmd := ctxcmdShows ctx 1 status } } := by
  refine (whenBooted_booted hb _).trans ?_
  rw [Nat.mod_eq_of_lt hctx, createContext, h]
  exact congrArg Host.Outcome.next (setCtxcmd_eq s 1 status hctx)

theorem exec_create_made {c : Context} (h : createOutcome s ctx = (0, some c)) : exec (.ctxcmdCreate ctx) s =
    .next { s with contexts := s.contexts ++ [c], platform := { s.platform with ctxcmd := ctxcmdShows ctx 1 0 } } := by
  refine (whenBooted_booted hb _).trans ?_
  rw [Nat.mod_eq_of_lt hctx, createContext, h]
  exact congrArg Host.Outcome.next (setCtxcmd_eq _ 1 0 hctx)

end

section
variable {s : State} {ctx : Nat}

theorem createOutcome_live (h : ∃ c ∈ s.contexts, c.index = ctx) : createOutcome s ctx = (1, none) := by
  rw [createOutcome, if_pos ((ctx?_isSome_iff s ctx).mpr h)]

variable (hfree : ∀ c ∈ s.contexts, c.index ≠ ctx)
include hfree

/-- CREATE of a free index goes by its eight records (R299). -/
theorem createOutcome_free : createOutcome s ctx =
    if !((List.range 8).all fun i => contextRecord s i ctx == contextRecord s 0 ctx) || !recordGood (contextRecord s 0 ctx) then (2, none)
    else if s.contexts.any fun x => x.pasid == (contextOf ctx (contextRecord s 0 ctx)).pasid then (3, none)
    else (0, some (contextOf ctx (contextRecord s 0 ctx))) := by
  have hnone : ¬ (s.ctx? ctx).isSome = true := by
    rw [ctx?_isSome_iff]
    rintro ⟨c, hc, hi⟩
    exact hfree c hc hi
  rw [createOutcome, if_neg hnone]

end

/-- The eight records agree, and keep their limits. -/
theorem createOutcome_records (s : State) (ctx : Nat) :
    (!((List.range 8).all fun i => contextRecord s i ctx == contextRecord s 0 ctx) || !recordGood (contextRecord s 0 ctx)) = false ↔
      (∀ k, k < 8 → contextRecord s k ctx = contextRecord s 0 ctx) ∧ GoodRecord (contextRecord s 0 ctx) := by
  have hlen : (contextRecord s 0 ctx).length = 128 := readBytes_length ..
  rw [← recordGood_iff hlen]
  simp

theorem contextCreation : ContextCreation := by
  intro s ctx hb hctx rec_ shows same pasid
  have hrec : ∀ k, contextRecord s k ctx = rec_ k := fun k => contextRecord_eq s k hctx
  have hrecords := createOutcome_records s ctx
  simp only [hrec] at hrecords
  refine ⟨fun h => exec_create_refused hb hctx (createOutcome_live h), fun hfree => ?_⟩
  have houtcome := createOutcome_free hfree
  simp only [hrec] at houtcome
  refine ⟨fun hbad => exec_create_refused hb hctx ?_, fun hsame hgood => ?_⟩
  · rw [houtcome, if_pos]
    rw [← Bool.not_eq_false, hrecords]
    exact hbad
  · rw [if_neg (by rw [hrecords.mpr ⟨hsame, hgood⟩]; nofun)] at houtcome
    refine ⟨fun ⟨c, hc, hp⟩ => exec_create_refused hb hctx ?_, fun hnew => ⟨_, contextOf_madeFrom ctx (rec_ 0), exec_create_made hb hctx ?_⟩⟩
    · rw [houtcome, if_pos]
      exact List.any_eq_true.mpr ⟨c, hc, beq_iff_eq.mpr hp⟩
    · rw [houtcome, if_neg]
      intro h
      obtain ⟨c, hc, hp⟩ := List.any_eq_true.mp h
      exact hnew c hc (beq_iff_eq.mp hp)

end Sys2Proof.Machine
end

section
/-!
PROOFS. The queues that QCMD enables and disables (R297, R299).
-/

namespace Sys2Proof.Machine

/-! ### Queues (R297, R299) -/

/-- QCMD shows the outcome that a step has set in it. -/
theorem qcmdShows_setQcmd {s u : State} {isle : Nat} (hu : u.isles = s.isles) (hi : isle < s.isles.length) (qloc op status : Nat) :
    QcmdShows s (setQcmd u isle qloc op status) isle qloc op status := by
  have hsame : ∀ k, u.isle k = s.isle k := fun k => by rw [State.isle, hu, State.isle]
  refine ⟨?_, fun k hk => ?_⟩
  · rw [setQcmd, State.isle_putIsle_same (hu ▸ hi), hsame]
  · rw [setQcmd, State.isle_putIsle_other u _ hk, hsame]

/-- A refused operation shows its status, and changes nothing else. -/
theorem refused_of_eq {s : State} {isle qloc op status : Nat} {i : Instr} (hi : isle < s.isles.length)
    (h : exec i s = .next (setQcmd s isle qloc op status)) :
    ∃ t, exec i s = .next t ∧ t = { s with isles := t.isles } ∧ QcmdShows s t isle qloc op status :=
  ⟨_, h, rfl, qcmdShows_setQcmd rfl hi qloc op status⟩

theorem queueGood_iff (r : List Byte) : queueGood r = true ↔ GoodQueueRecord r := by
  simp only [queueGood, Bool.and_eq_true, beq_iff_eq, decide_eq_true_eq, and_assoc]
  exact Iff.rfl

theorem ctxLive_iff (s : State) (ctx : Nat) : ctxLive s ctx = true ↔ ∃ c, s.ctx? ctx = some c ∧ c.halted = false := by
  unfold ctxLive
  cases s.ctx? ctx <;> simp

theorem enabled_iff (s : State) (n : Nat) : (s.queue? n).any (·.enabled) = true ↔ ∃ q, s.queue? n = some q ∧ q.enabled = true := by
  cases s.queue? n <;> simp

/-- ENABLE makes a queue the last of the list, in place of one that its index named before. -/
def withQueue (s : State) (x : Queue) : State := { s with queues := s.queues.filter (fun y => y.index != x.index) ++ [x] }

theorem withQueue_queue_same (s : State) (x : Queue) : (withQueue s x).queue? x.index = some x := by
  have hnone : (s.queues.filter fun y => y.index != x.index).find? (fun y => y.index == x.index) = none := by
    simp
  simp [State.queue?, withQueue, List.find?_append, hnone]

theorem withQueue_queue_other (s : State) (x : Queue) {k : Nat} (h : k ≠ x.index) : (withQueue s x).queue? k = s.queue? k := by
  have hkeep : (s.queues.filter fun y => y.index != x.index).find? (fun y => y.index == k) = s.queues.find? fun y => y.index == k := by
    rw [List.find?_filter]
    congr 1
    funext y
    by_cases hy : y.index = k <;> simp [hy, h]
  simp [State.queue?, withQueue, List.find?_append, hkeep, h.symm]

/-- One byte that the device writes inside HBM (R12). -/
theorem readByte_hbmPut_one {m : Mem} (hm : Memory.wf m = true) {a : Nat} (ha : inHbm a = true) (b : Byte) (x : Nat) :
    readByte (hbmPut m a [b]) x = if x = a then b else readByte m x := by
  rw [hbmPut, hbmPut, if_pos ha, readByte_writeByte m a b x hm]

section
variable {s : State} {isle qloc : Nat} (hb : s.platform.booted = true) (h8 : isle < 8) (hi : isle < s.isles.length)
  (hq : qloc < 16384)
include hb h8 hq

theorem exec_enable : exec (.qcmdEnable isle qloc) s = .next (enableQueue s isle qloc) := by
  refine (whenBooted_booted hb _).trans ?_
  rw [if_pos h8, Nat.mod_eq_of_lt hq]

theorem exec_disable : exec (.qcmdDisable isle qloc) s = .next (disableQueue s isle qloc) := by
  refine (whenBooted_booted hb _).trans ?_
  rw [if_pos h8, Nat.mod_eq_of_lt hq]

end

/-- The record of a queue of an isle stands in the table at QTB (R297). -/
def queueRecordAt (s : State) (isle qloc : Nat) : Nat := field (s.isle isle).qtb 12 40 * 4096 + 32 * qloc

def queueRecordOf (s : State) (isle qloc : Nat) : List Byte := readBytes s.hbm (queueRecordAt s isle qloc) 32

theorem queueRecord_eq (s : State) (isle : Nat) {qloc : Nat} (h : qloc < 16384) :
    queueRecord s (isle * 16384 + qloc) = queueRecordAt s isle qloc := by
  rw [queueRecord, show (isle * 16384 + qloc) / 16384 = isle by omega, show (isle * 16384 + qloc) % 16384 = qloc by omega]
  rfl

/-- A number of at most eight bytes as a 64-bit register holds it. -/
theorem toNat_leNat {bs : List Byte} (h : bs.length ≤ 8) : (BitVec.ofNat 64 (leNat bs)).toNat = leNat bs := by
  rw [BitVec.toNat_ofNat, Nat.mod_eq_of_lt]
  calc leNat bs < 256 ^ bs.length := leNat_lt bs
    _ ≤ 256 ^ 8 := Nat.pow_le_pow_right (by decide) h

/-- What ENABLE leaves: the queue in the list, QSTAT 0 in its record, the outcome in QCMD. -/
def enabledWith (s : State) (isle qloc : Nat) (x : Queue) : State := setQcmd (writeQstat (withQueue s x) x 0) isle qloc 1 0

theorem enabledWith_queue_other (s : State) (isle qloc : Nat) (x : Queue) {k : Nat} (h : k ≠ x.index) :
    (enabledWith s isle qloc x).queue? k = s.queue? k := by
  rw [enabledWith, setQcmd, State.putIsle_queue_at, writeQstat]
  exact (State.putQueue_queue_other _ { x with qstat := 0 } k h).trans (withQueue_queue_other s x h)

theorem enabledWith_queue_same (s : State) (isle qloc : Nat) {x : Queue} (h : x.qstat = 0) :
    (enabledWith s isle qloc x).queue? x.index = some x := by
  have hx : { x with qstat := 0 } = x := by rw [← h]
  rw [enabledWith, setQcmd, State.putIsle_queue_at, writeQstat, hx]
  exact State.putQueue_queue_same _ x x.index x rfl (withQueue_queue_same s x)

theorem enabledWith_rest (s : State) (isle qloc : Nat) (x : Queue) : let t := enabledWith s isle qloc x
    t = { s with isles := t.isles, queues := t.queues, hbm := t.hbm } := rfl

theorem readByte_enabledWith {s : State} {isle qloc : Nat} {x : Queue} (hq : qloc < 16384) (hx : x.index = isle * 16384 + qloc)
    (hm : Memory.wf s.hbm = true) (hin : rangeInHbm (queueRecordAt s isle qloc + 13) 1 = true) (a : Nat) :
    readByte (enabledWith s isle qloc x).hbm a = if a = queueRecordAt s isle qloc + 13 then 0 else readByte s.hbm a := by
  have hplace : inHbm (queueRecordAt s isle qloc + 13) = true := by
    simp only [rangeInHbm, Bool.and_eq_true] at hin
    exact hin.1.1
  have hhbm : (enabledWith s isle qloc x).hbm = hbmPut s.hbm (queueRecord s x.index + 13) [0] := rfl
  rw [hhbm, hx, queueRecord_eq s isle hq, readByte_hbmPut_one hm hplace]

section
variable {s : State} {isle qloc : Nat}

theorem enableQueue_on (h : ∃ q, s.queue? (isle * 16384 + qloc) = some q ∧ q.enabled = true) :
    enableQueue s isle qloc = setQcmd s isle qloc 1 3 := by
  rw [enableQueue, if_pos ((enabled_iff s _).mpr h)]

variable (hq : qloc < 16384) (hoff : ¬ ∃ q, s.queue? (isle * 16384 + qloc) = some q ∧ q.enabled = true)
include hq hoff

theorem enableQueue_badRecord (hbad : ¬ GoodQueueRecord (queueRecordOf s isle qloc)) :
    enableQueue s isle qloc = setQcmd s isle qloc 1 2 := by
  rw [queueRecordOf, ← queueRecord_eq s isle hq, ← queueGood_iff, Bool.not_eq_true] at hbad
  rw [enableQueue, if_neg (mt (enabled_iff s _).mp hoff), hbad]
  rfl

variable (hgood : GoodQueueRecord (queueRecordOf s isle qloc))
include hgood

theorem enableQueue_deadContext
    (hdead : ¬ ∃ c, s.ctx? (leNat (((queueRecordOf s isle qloc).drop 10).take 2)) = some c ∧ c.halted = false) :
    enableQueue s isle qloc = setQcmd s isle qloc 1 1 := by
  rw [queueRecordOf, ← queueRecord_eq s isle hq] at hgood hdead
  rw [← queueGood_iff] at hgood
  rw [← ctxLive_iff, Bool.not_eq_true] at hdead
  rw [enableQueue, if_neg (mt (enabled_iff s _).mp hoff), hgood, fieldAt, hdead]
  rfl

theorem enableQueue_made
    (hlive : ∃ c, s.ctx? (leNat (((queueRecordOf s isle qloc).drop 10).take 2)) = some c ∧ c.halted = false) :
    enableQueue s isle qloc = enabledWith s isle qloc
      (queueFrom (isle * 16384 + qloc) (queueRecordOf s isle qloc) (s.queue? (isle * 16384 + qloc))) := by
  rw [queueRecordOf, ← queueRecord_eq s isle hq] at hgood hlive ⊢
  rw [← queueGood_iff] at hgood
  rw [← ctxLive_iff] at hlive
  rw [enableQueue, if_neg (mt (enabled_iff s _).mp hoff), hgood, fieldAt, hlive]
  rfl

end

/-- A queue that is enabled again keeps what it has taken. -/
theorem queueFrom_again (n : Nat) (r : List Byte) (x : Queue) : let q := queueFrom n r (some x)
    q.taken = x.taken ∧ q.openPackets = x.openPackets ∧ q.graphs = x.graphs ∧ q.owed = x.owed ∧ q.wait = x.wait ∧
    q.request = x.request ∧ q.failedAt = x.failedAt ∧ q.heldCode = x.heldCode ∧ q.heldOpen = x.heldOpen :=
  ⟨rfl, rfl, rfl, rfl, rfl, rfl, rfl, rfl, rfl⟩

theorem queueFrom_first (n : Nat) (r : List Byte) : let q := queueFrom n r none
    q.taken = 0 ∧ q.openPackets = [] ∧ q.graphs = [] ∧ q.owed = [] ∧ q.wait = .none ∧ q.request = none ∧ q.failedAt = none :=
  ⟨rfl, rfl, rfl, rfl, rfl, rfl, rfl⟩

/-- The indices of a record's queue are its eight bytes. -/
theorem queueFrom_indices (n : Nat) (r : List Byte) (old : Option Queue) : let q := queueFrom n r old
    q.ring.toNat = leNat (r.take 8) ∧ q.wptr.toNat = leNat ((r.drop 16).take 8) ∧ q.rptr.toNat = leNat ((r.drop 24).take 8) :=
  ⟨toNat_leNat (List.length_take_le 8 _), toNat_leNat (List.length_take_le 8 _), toNat_leNat (List.length_take_le 8 _)⟩

/-- DISABLE of an enabled queue: it takes no further packet (R299). -/
theorem disableQueue_on {s : State} {isle qloc : Nat} {q : Queue} (h : s.queue? (isle * 16384 + qloc) = some q)
    (he : q.enabled = true) : disableQueue s isle qloc =
      setQcmd (s.putQueue { q with enabled := false, readySince := none }) isle qloc 2 0 := by
  rw [disableQueue, if_pos ((enabled_iff s _).mpr ⟨q, h, he⟩), onQueue, h]

theorem disableQueue_off {s : State} {isle qloc : Nat}
    (h : ¬ ∃ q, s.queue? (isle * 16384 + qloc) = some q ∧ q.enabled = true) :
    disableQueue s isle qloc = setQcmd s isle qloc 2 3 := by
  rw [disableQueue, if_neg (mt (enabled_iff s _).mp h)]

theorem State.queue_index (s : State) (n : Nat) (q : Queue) (h : s.queue? n = some q) : q.index = n := by
  have := List.find?_some h
  simpa using this

theorem queueSwitches : QueueSwitches := by
  intro s isle qloc hb h8 hi hq n base r live refused on
  have henable := exec_enable hb h8 hq
  have hdisable := exec_disable hb h8 hq
  refine ⟨fun h => ?_, fun h hbad => ?_, fun h hg hdead => ?_, fun h hg hl hwf hin => ?_, fun h => ?_, fun q hs he => ?_⟩
  · exact refused_of_eq hi (henable.trans (by rw [enableQueue_on h]))
  · exact refused_of_eq hi (henable.trans (by rw [enableQueue_badRecord hq h hbad]))
  · exact refused_of_eq hi (henable.trans (by rw [enableQueue_deadContext hq h hg hdead]))
  · rw [enableQueue_made hq h hg hl] at henable
    obtain ⟨hring, hwptr, hrptr⟩ := queueFrom_indices n r (s.queue? n)
    refine ⟨_, queueFrom n r (s.queue? n), henable, enabledWith_rest .., qcmdShows_setQcmd rfl hi qloc 1 0,
      readByte_enabledWith hq rfl hwf hin, fun k hk => enabledWith_queue_other s isle qloc _ hk,
      enabledWith_queue_same s isle qloc rfl, rfl, rfl, hring, rfl, rfl, rfl, hwptr, hrptr, rfl, rfl, fun x hx => ?_, fun hnone => ?_⟩
    · rw [hx]
      exact queueFrom_again n r x
    · rw [hnone]
      exact queueFrom_first n r
  · exact refused_of_eq hi (hdisable.trans (by rw [disableQueue_off h]))
  · rw [disableQueue_on hs he] at hdisable
    have hn : q.index = n := State.queue_index s n q hs
    exact ⟨_, hdisable, rfl, qcmdShows_setQcmd rfl hi qloc 2 0,
      fun k hk => State.putQueue_queue_other s _ k (by rw [hn]; exact hk), State.putQueue_queue_same s _ n q hn hs⟩

end Sys2Proof.Machine
end

section
/-!
PROOFS. What the contexts and the platform keep while launches, records and reservations end (R251, R307, R318, R321, R331).
-/

namespace Sys2Proof.Machine

/-! ### What leaves the contexts and the platform alone -/

/-- No context and nothing of the platform has changed. -/
structure HostSideKept (s t : State) : Prop where
  contexts : t.contexts = s.contexts
  platform : t.platform = s.platform

theorem HostSideKept.refl (s : State) : HostSideKept s s := ⟨rfl, rfl⟩

theorem HostSideKept.trans {a b c : State} (h : HostSideKept a b) (k : HostSideKept b c) : HostSideKept a c :=
  ⟨k.contexts.trans h.contexts, k.platform.trans h.platform⟩

theorem HostSideKept.after {a b c : State} (k : HostSideKept b c) (h : HostSideKept a b) : HostSideKept a c := h.trans k

/-- The same of a state that differs in other fields. -/
theorem HostSideKept.congr {s t u : State} (h : HostSideKept s t) (hc : u.contexts = t.contexts) (hp : u.platform = t.platform) :
    HostSideKept s u := ⟨hc.trans h.contexts, hp.trans h.platform⟩

theorem HostSideKept.foldl {α : Type} {f : State → α → State} (h : ∀ s x, HostSideKept s (f s x)) (xs : List α) (s : State) :
    HostSideKept s (xs.foldl f s) := by
  induction xs generalizing s with
  | nil => exact .refl s
  | cons x xs ih => exact (h s x).trans (ih (f s x))

theorem clearRun_kept (s : State) (g : Grid) : HostSideKept s (clearRun s g) :=
  HostSideKept.foldl (f := fun s e => s.putGroup g e emptyGroup) (fun _ _ => ⟨rfl, rfl⟩) _ s

theorem writeQstat_kept (s : State) (q : Queue) (code : Nat) : HostSideKept s (writeQstat s q code) := ⟨rfl, rfl⟩

theorem onQueue_kept (s : State) (qi : Nat) (f : Queue → Queue) : HostSideKept s (onQueue s qi f) := by
  unfold onQueue
  split <;> exact ⟨rfl, rfl⟩

/-! ### The command processor's writes (R401) -/

theorem enterRequest_kept (s : State) (r : Request) : HostSideKept s (enterRequest s r).1 := by
  unfold enterRequest
  split <;> exact ⟨rfl, rfl⟩

theorem requestAts_kept (s : State) (isle : Nat) (c : Context) (va : Dword) (k : Access) (core : Nat) :
    HostSideKept s (requestAts s isle c va k core).1 := by
  unfold requestAts
  dsimp only
  split <;> exact ⟨rfl, rfl⟩

theorem cacheLeaf_kept (s : State) (c : Context) (isle : Nat) (va : Dword) : HostSideKept s (cacheLeaf s c isle va) := by
  unfold cacheLeaf
  dsimp only
  split
  · exact .refl s
  · split <;> exact ⟨rfl, rfl⟩

theorem writeLoc_kept (s : State) (l : Loc) (bs : List Byte) : HostSideKept s (writeLoc s l bs) := ⟨by simp, by simp⟩

/-- Whatever an access of the command processor comes to, it leaves the contexts and the platform alone. -/
def CpKept {α : Type} (s : State) : CpResult α → Prop
  | .ok t _ | .held t | .failed t => HostSideKept s t

theorem CpKept.of_trans {α : Type} {s t : State} {r : CpResult α} (h : HostSideKept s t) (k : CpKept t r) : CpKept s r := by
  cases r <;> exact h.trans k

theorem cpMiss_kept {α : Type} (s : State) (q : Queue) (c : Context) (va : Dword) (k : Access) (m : MissCause) :
    CpKept s (cpMiss (α := α) s q c va k m) := by
  unfold cpMiss
  split
  · exact .refl s
  · exact (enterRequest_kept s _).trans ⟨rfl, rfl⟩

theorem cpReach_kept (s : State) (qi : Nat) (k : Access) (va : Dword) : CpKept s (cpReach s qi k va) := by
  unfold cpReach
  split
  · exact .refl s
  · split
    · exact .refl s
    · split
      · exact ⟨rfl, rfl⟩
      · split
        · exact cpMiss_kept ..
        · split
          · exact cacheLeaf_kept ..
          · exact cpMiss_kept ..
          · exact (requestAts_kept s _ _ va k _).trans ⟨rfl, rfl⟩

theorem cpWriteFrom_kept (qi : Nat) (k : Access) (fuel : Nat) (s : State) (va : Dword) (bs : List Byte) :
    CpKept s (cpWriteFrom qi k fuel s va bs) := by
  induction fuel generalizing s va bs with
  | zero => exact .refl s
  | succ fuel ih =>
    have hreach := cpReach_kept s qi k va
    unfold cpWriteFrom
    split
    · exact .refl s
    · split
      all_goals
        rename_i heq
        rw [heq] at hreach
      · exact hreach
      · exact hreach
      · exact .of_trans (HostSideKept.trans hreach (writeLoc_kept ..)) (ih ..)

theorem cpWritePieces_kept (qi : Nat) (va : Dword) (s : State) (ps : List (Nat × List Byte)) :
    CpKept s (cpWritePieces qi va s ps) := by
  induction ps generalizing s with
  | nil => exact .refl s
  | cons p ps ih =>
    have hwrite : CpKept s (cpWrite s qi .store (va + BitVec.ofNat 64 p.1) p.2) := cpWriteFrom_kept ..
    unfold cpWritePieces
    split
    all_goals
      rename_i heq
      rw [heq] at hwrite
    · exact .of_trans hwrite (ih _)
    · exact hwrite
    · exact hwrite

theorem payOwed_kept (qi fuel : Nat) (s : State) : HostSideKept s (payOwed qi fuel s) := by
  induction fuel generalizing s with
  | zero => exact .refl s
  | succ fuel ih =>
    unfold payOwed
    split
    · exact .refl s
    · split
      · exact .refl s
      · split
        · exact .refl s
        case h_2 o rest _ =>
          have hwrite := cpWritePieces_kept qi o.va s o.pieces
          dsimp only
          split
          all_goals
            rename_i heq
            rw [heq] at hwrite
          · exact hwrite
          · exact (HostSideKept.trans hwrite ((onQueue_kept ..).trans (onQueue_kept ..))).trans (ih _)
          · have hdone := fun f g => HostSideKept.trans hwrite (.trans (onQueue_kept _ qi f) (onQueue_kept _ qi g))
            refine .trans ?_ (ih _)
            split
            · split
              · exact hdone _ _
              · exact .trans (hdone _ _) (writeQstat_kept ..)
            · exact hdone _ _

theorem completeRecord_kept (s : State) (qi serial : Nat) (cmpl cval : Dword) (status : Nat) :
    HostSideKept s (completeRecord s qi serial cmpl cval status) := by
  unfold completeRecord
  split
  · exact onQueue_kept ..
  · exact (onQueue_kept ..).trans (payOwed_kept ..)

/-! ### What ends is completed (R251, R307, R321) -/

theorem releaseGrids_kept (s : State) (launch : Nat) : HostSideKept s (releaseGrids s launch) :=
  (HostSideKept.foldl clearRun_kept _ s).trans ⟨rfl, rfl⟩

theorem freeEndedGrids_kept (s : State) : HostSideKept s (freeEndedGrids s) := by
  refine HostSideKept.foldl (fun t g => ?_) _ s
  split
  · exact (clearRun_kept t g).trans ⟨rfl, rfl⟩
  · exact .refl t

theorem completeLaunch_kept (s : State) (l : Launch) : HostSideKept s (completeLaunch s l) := by
  unfold completeLaunch
  split
  · split
    · exact .refl s
    · have hreleased : HostSideKept s (if l.admitted then s else releaseGrids s l.id) := by
        split
        · exact .refl s
        · exact releaseGrids_kept ..
      exact (completeRecord_kept ..).after (.congr (hreleased.trans (onQueue_kept ..)) rfl rfl)
  · exact .refl s

theorem settleLaunches_kept (s : State) : HostSideKept s (settleLaunches s) :=
  .trans (b := endLaunches (freeEndedGrids s)) (.congr (freeEndedGrids_kept s) rfl rfl) (HostSideKept.foldl completeLaunch_kept _ _)

theorem endGraph_kept (s : State) (qi : Nat) (gr : GraphRun) (status : Nat) : HostSideKept s (endGraph s qi gr status) :=
  (onQueue_kept ..).trans (completeRecord_kept ..)

/-- A graph of a halted context reads no node. -/
theorem stepGraph_halted_kept (s : State) (q : Queue) {c : Context} (h : c.halted = true) (gr : GraphRun) :
    HostSideKept s (stepGraph s q c gr) := by
  unfold stepGraph
  split
  · split
    case h_1 l _ =>
      split
      · have hreleased : HostSideKept s (if l.admitted then s else releaseGrids s l.id) := by
          split
          · exact .refl s
          · exact releaseGrids_kept ..
        dsimp only
        split
        · exact (endGraph_kept ..).after (.congr hreleased rfl rfl)
        · exact (onQueue_kept ..).after (.congr hreleased rfl rfl)
      · exact .refl s
    · exact onQueue_kept ..
  · rw [if_pos h]
    exact endGraph_kept ..

theorem endInHand_kept (s : State) (qi : Nat) : HostSideKept s (endInHand s qi) := by
  unfold endInHand
  split
  · exact .refl s
  · split
    · dsimp only
      split
      iterate 3 exact (onQueue_kept ..).trans (completeRecord_kept ..)
      exact .refl s
    · exact .refl s

theorem endTaken_kept (s : State) (q : Queue) (c : Context) : HostSideKept s (endTaken s q c) :=
  (endInHand_kept s q.index).trans (HostSideKept.foldl (fun t gr => stepGraph_halted_kept t q rfl gr) _ _)

theorem endUnfinished_kept (s : State) (ctx : Nat) : HostSideKept s (endUnfinished s ctx) := by
  refine .trans (.trans (.trans (b := { s with launches := s.launches.map (endLaunchHalted ctx) }) ⟨rfl, rfl⟩
    (settleLaunches_kept _)) (HostSideKept.foldl (fun t q => ?_) _ _)) (settleLaunches_kept _)
  split
  · exact endTaken_kept ..
  · exact .refl t

end Sys2Proof.Machine
end

section
/-!
PROOFS. The destruction of a context (R299, R318, R331), and O53, which joins the six parts.
-/

namespace Sys2Proof.Machine

/-! ### Destroying a context (R299, R318, R331) -/

theorem State.ctx_index (s : State) (n : Nat) (c : Context) (h : s.ctx? n = some c) : c.index = n := by
  have := List.find?_some h
  simpa using this

theorem HostSideKept.ctx {s t : State} (h : HostSideKept s t) (n : Nat) : t.ctx? n = s.ctx? n := by
  rw [State.ctx?, h.contexts, State.ctx?]

theorem stopQueuesHalted_kept (s : State) (ctx : Nat) : HostSideKept s (stopQueuesHalted s ctx) :=
  HostSideKept.foldl (fun t q => writeQstat_kept t q 2) _ s

theorem releaseUncommitted_kept (s : State) (ctx : Nat) : HostSideKept s (releaseUncommitted s ctx) :=
  .congr (HostSideKept.foldl clearRun_kept _ s) rfl rfl

/-- The context as a first halt leaves it, its queues stopped and its uncommitted reservations released. -/
theorem haltContext_kept (s : State) (c1 : Context) (ctx : Nat) :
    HostSideKept (s.putCtx c1) (stopQueuesHalted { releaseUncommitted (s.putCtx c1) ctx with
      launches := (releaseUncommitted (s.putCtx c1) ctx).launches.map (endLaunchHalted ctx) } ctx) :=
  (stopQueuesHalted_kept ..).after (.congr (releaseUncommitted_kept ..) rfl rfl)

/-- A halt of a context leaves the platform alone, and the context stands under its index and PASID. -/
theorem haltContext_stands {s : State} {ctx : Nat} {c : Context} (h : s.ctx? ctx = some c) (r : HaltRecord) (record : List Dword) :
    (haltContext s ctx r record).platform = s.platform ∧
      ∃ c', (haltContext s ctx r record).ctx? ctx = some c' ∧ c'.index = c.index ∧ c'.pasid = c.pasid := by
  have hindex := State.ctx_index s ctx c h
  rw [haltContext, h]
  dsimp only
  split
  · exact ⟨rfl, _, State.putCtx_ctx_same s _ ctx c hindex h, rfl, rfl⟩
  · have hkept := haltContext_kept s { c with
      log := c.log ++ [⟨coreNumber r.isle r.core, record, r.code, r.reg, r.agent, !c.halted, r.slot, r.pc⟩],
      halted := true, halt := some r } ctx
    exact ⟨hkept.platform, _, (hkept.ctx ctx).trans (State.putCtx_ctx_same s _ ctx c hindex h), rfl, rfl⟩

/-- What nothing of a context remains in. -/
structure ContextGone (t : State) (index pasid : Nat) : Prop where
  ctx        : t.ctx? index = none
  queues     : ∀ q ∈ t.queues, q.ctx ≠ index
  launches   : ∀ l ∈ t.launches, l.ctx ≠ index
  grids      : ∀ g ∈ t.grids, g.ctx ≠ index
  blocks     : ∀ b ∈ t.blocks, b.ctx ≠ index
  partitions : ∀ p ∈ t.partitions, p.ctx ≠ index
  colls      : ∀ x ∈ t.colls, x.ctx ≠ index
  requests   : ∀ r ∈ t.requests, r.pasid ≠ pasid
  cached     : ∀ x ∈ t.cached, x.pasid ≠ pasid
  ats        : ∀ x ∈ t.ats, x.pasid ≠ pasid

theorem mem_filter_ne {α : Type} {key : α → Nat} {n : Nat} {xs : List α} {x : α} (h : x ∈ xs.filter fun y => !(key y == n)) :
    key x ≠ n := by
  simpa using List.of_mem_filter h

theorem removeContext_gone (s : State) (c : Context) : ContextGone (removeContext s c) c.index c.pasid where
  ctx := (ctx?_eq_none_iff _ _).mpr fun _ => mem_filter_ne
  queues _ := mem_filter_ne
  launches _ := mem_filter_ne
  grids _ := mem_filter_ne
  blocks _ := mem_filter_ne
  partitions _ := mem_filter_ne
  colls _ := mem_filter_ne
  requests _ := mem_filter_ne
  cached _ := mem_filter_ne
  ats _ := mem_filter_ne

theorem removeContext_platform (s : State) (c : Context) : (removeContext s c).platform = s.platform := by
  have hruns : HostSideKept s (if c.saved then s else (s.ctxGrids c.index).foldl clearRun s) := by
    split
    · exact .refl s
    · exact HostSideKept.foldl clearRun_kept _ s
  exact hruns.platform

/-- Nothing of a context remains once it is destroyed, and the platform is as before. -/
theorem destroyContext_gone {s : State} {ctx : Nat} {c : Context} (h : s.ctx? ctx = some c) :
    (destroyContext s c).platform = s.platform ∧ ContextGone (destroyContext s c) ctx c.pasid := by
  obtain rfl := State.ctx_index s ctx c h
  have hquiet : HostSideKept s (disableQueues s c.index) := ⟨rfl, rfl⟩
  have hquietCtx := (hquiet.ctx c.index).trans h
  obtain ⟨s2, hs2, hplatform, c', hctx, hindex, hpasid⟩ : ∃ s2,
      s2 = (if hasAgents s c.index then haltContext (disableQueues s c.index) c.index ⟨0x19, 0, 4, 0, 0, 0, 0⟩ []
        else disableQueues s c.index) ∧ s2.platform = s.platform ∧
      ∃ c', s2.ctx? c.index = some c' ∧ c'.index = c.index ∧ c'.pasid = c.pasid := by
    refine ⟨_, rfl, ?_⟩
    split
    · exact haltContext_stands hquietCtx _ _
    · exact ⟨rfl, c, hquietCtx, rfl, rfl⟩
  have hended := endUnfinished_kept s2 c.index
  have hdestroy : destroyContext s c = removeContext (endUnfinished s2 c.index) c' := by
    rw [destroyContext]
    rw [← hs2, hended.ctx, hctx]
  rw [hdestroy, removeContext_platform, hended.platform, hplatform, ← hindex, ← hpasid]
  exact ⟨rfl, removeContext_gone _ c'⟩

theorem filter_ne_self {α : Type} {key : α → Nat} {n : Nat} {xs : List α} (h : ∀ x ∈ xs, key x ≠ n) :
    xs.filter (fun x => !(key x == n)) = xs := by
  rw [List.filter_eq_self]
  simpa using h

section
variable {s : State} {c : Context} (hblocks : ∀ b ∈ s.blocks, b.ctx ≠ c.index) (hgrids : ∀ g ∈ s.grids, g.ctx ≠ c.index)
  (hlaunches : ∀ l ∈ s.launches, l.ctx ≠ c.index) (hqueues : ∀ q ∈ s.queues, q.ctx ≠ c.index)

include hqueues in
theorem disableQueues_idle : disableQueues s c.index = s := by
  have hmap : (s.queues.map fun q => if q.ctx == c.index then disabledQueue q else q) = s.queues := by
    rw [List.map_congr_left (g := id) (by simpa using fun q hq h => absurd h (hqueues q hq)), List.map_id]
  rw [disableQueues, hmap]

include hblocks hgrids in
theorem hasAgents_idle : hasAgents s c.index = false := by
  simp only [hasAgents, Bool.or_eq_false_iff, List.any_eq_false, Bool.and_eq_true, beq_iff_eq]
  exact ⟨fun b hb h => hblocks b hb h.1, fun g hg => hgrids g hg⟩

include hlaunches hqueues in
theorem endUnfinished_idle (hsettled : settleLaunches s = s) : endUnfinished s c.index = s := by
  have hmap : s.launches.map (endLaunchHalted c.index) = s.launches := by
    rw [List.map_congr_left (g := id), List.map_id]
    intro l hl
    simp [endLaunchHalted, hlaunches l hl]
  have hnone : (s.queues.filter fun q => q.ctx == c.index) = [] := by
    rw [List.filter_eq_nil_iff]
    simpa using hqueues
  simp only [endUnfinished, hmap, hsettled, hnone, List.foldl_nil]

include hblocks hgrids hlaunches hqueues in
theorem removeContext_idle : removeContext s c = { s with
    contexts := s.contexts.filter fun x => x.index ≠ c.index, partitions := s.partitions.filter fun x => x.ctx ≠ c.index,
    colls := s.colls.filter fun x => x.ctx ≠ c.index, requests := s.requests.filter fun x => x.pasid ≠ c.pasid,
    cached := s.cached.filter fun x => x.pasid ≠ c.pasid, ats := s.ats.filter fun x => x.pasid ≠ c.pasid } := by
  have hnoBlocks : s.ctxBlocks c.index = [] := by
    rw [State.ctxBlocks, List.filter_eq_nil_iff]
    simpa using hblocks
  have hnoGrids : s.ctxGrids c.index = [] := by
    rw [State.ctxGrids, List.filter_eq_nil_iff]
    simpa using hgrids
  simp only [removeContext, hnoBlocks, hnoGrids, List.foldl_nil, ite_self, List.map_nil, filter_ne_self hqueues,
    filter_ne_self hlaunches, filter_ne_self hgrids, filter_ne_self hblocks]
  have hsort : ∀ o : Option Nat, o.filter (fun _ => true) = o := fun o => by cases o <;> rfl
  simp [bne, beq_eq_decide, hsort]

end

theorem exec_destroy_none {s : State} {ctx : Nat} (hb : s.platform.booted = true) (hctx : ctx < 65536) (h : s.ctx? ctx = none) :
    exec (.ctxcmdDestroy ctx) s = .next { s with platform := { s.platform with ctxcmd := ctxcmdShows ctx 2 1 } } := by
  change execCtxcmdDestroy ctx s = _
  rw [execCtxcmdDestroy, whenBooted_booted hb, Nat.mod_eq_of_lt hctx, h, ← setCtxcmd_eq s 2 1 hctx]

theorem exec_destroy_some {s : State} {ctx : Nat} {c : Context} (hb : s.platform.booted = true) (hctx : ctx < 65536)
    (h : s.ctx? ctx = some c) : exec (.ctxcmdDestroy ctx) s = .next { destroyContext s c with
      platform := { (destroyContext s c).platform with ctxcmd := ctxcmdShows ctx 2 0 } } := by
  change execCtxcmdDestroy ctx s = _
  rw [execCtxcmdDestroy, whenBooted_booted hb, Nat.mod_eq_of_lt hctx, h, ← setCtxcmd_eq _ 2 0 hctx]

/-- A write of the platform's registers brings nothing of the context back. -/
theorem ContextGone.setPlatform {t : State} {index pasid : Nat} (h : ContextGone t index pasid) (p : Platform) :
    ContextGone { t with platform := p } index pasid := { h with ctx := h.ctx }

theorem contextDestruction : ContextDestruction := by
  intro s ctx hb hctx
  refine ⟨exec_destroy_none hb hctx, fun c hc => ?_⟩
  have hexec := exec_destroy_some hb hctx hc
  constructor
  · obtain ⟨hplatform, hgone⟩ := destroyContext_gone hc
    rw [hplatform] at hexec
    obtain ⟨hnone, hqueues, hlaunches, hgrids, hblocks, hpartitions, hcolls, hrequests, hcached, hats⟩ :=
      hgone.setPlatform { s.platform with ctxcmd := ctxcmdShows ctx 2 0 }
    exact ⟨_, hexec, rfl, hnone, hqueues, hlaunches, hgrids, hblocks, hpartitions, hcolls, hrequests, hcached, hats⟩
  · intro hblocks hgrids hlaunches hqueues hsettled
    obtain rfl := State.ctx_index s ctx c hc
    have hdestroy : destroyContext s c = removeContext s c := by
      rw [destroyContext]
      simp only [disableQueues_idle hqueues, hasAgents_idle hblocks hgrids, Bool.false_eq_true, if_false,
        endUnfinished_idle hlaunches hqueues hsettled, hc]
    rw [hexec, hdestroy, removeContext_idle hblocks hgrids hlaunches hqueues]

/-- Settles O53: each register's write, read and command by its own lemma, the contexts by what CREATE and DESTROY find, and the
queues by what ENABLE and DISABLE find. -/
theorem driverRegisters : Obligations.DriverRegisters :=
  ⟨registerWrites, registerReads, commandWrites, contextCreation, contextDestruction, queueSwitches⟩

end Sys2Proof.Machine
end

section
/-!
PROOFS. FP32 codes and their values, and numbers of at most 24 bits rounded to them once (R31, R37 to R39, R43): the elements of a format
page.
-/

namespace Sys2Proof.Machine

/-! ### FP32 codes and their values (R31) -/

theorem withSign_fp32 (neg : Bool) (mag : Nat) : withSign .fp32 neg mag = neg.toNat * 2 ^ 31 + mag := by
  cases neg
  · exact (Nat.zero_add _).symm
  · rfl

theorem fpDecode_fp32 (neg : Bool) {e frac : Nat} (he : e < 255) (hf : frac < 2 ^ 23) :
    fpDecode .fp32 (withSign .fp32 neg (e * 2 ^ 23 + frac)) =
      if e = 0 then .num neg frac (-149) else .num neg (frac + 2 ^ 23) ((e : Int) - 150) := by
  have hsign := neg.toNat_le
  have hfrac : (neg.toNat * 2 ^ 31 + (e * 2 ^ 23 + frac)) % 2 ^ 23 = frac := by omega
  have hexp : (neg.toNat * 2 ^ 31 + (e * 2 ^ 23 + frac)) / 2 ^ 23 % 2 ^ 8 = e := by omega
  have hneg : ((neg.toNat * 2 ^ 31 + (e * 2 ^ 23 + frac)) / 2 ^ 31 % 2 == 1) = neg := by
    rw [show (neg.toNat * 2 ^ 31 + (e * 2 ^ 23 + frac)) / 2 ^ 31 % 2 = neg.toNat by omega]
    cases neg <;> rfl
  have htop : (e == 2 ^ 8 - 1) = false := by simpa using he.ne
  rw [withSign_fp32, fpDecode]
  simp only [fracBits, expBits, expBias, signBit, hfrac, hexp, hneg, htop, Bool.false_and, Bool.false_eq_true, if_false, beq_iff_eq]
  by_cases h : e = 0
  · simp [h]
  · simp only [h, if_false]
    congr 1
    omega

theorem withSign_fp32_lt (neg : Bool) {mag : Nat} (h : mag < 2 ^ 31) : withSign .fp32 neg mag < 2 ^ 32 := by
  have := neg.toNat_le
  rw [withSign_fp32]
  omega

/-- Bit 31 of an FP32 code is its sign. -/
theorem signBit_withSign (neg : Bool) {mag : Nat} (h : mag < 2 ^ 31) : (BitVec.ofNat 32 (withSign .fp32 neg mag)).getLsbD 31 = neg := by
  have hsign := neg.toNat_le
  have hdiv : (neg.toNat * 2 ^ 31 + mag) / 2 ^ 31 % 2 = neg.toNat := by omega
  rw [withSign_fp32, BitVec.getLsbD_ofNat, Nat.testBit_eq_decide_div_mod_eq, hdiv]
  cases neg <;> rfl

theorem toNat_withSign (neg : Bool) {mag : Nat} (h : mag < 2 ^ 31) :
    (BitVec.ofNat 32 (withSign .fp32 neg mag)).toNat = withSign .fp32 neg mag :=
  Nat.mod_eq_of_lt (withSign_fp32_lt neg h)

theorem rationalOf_shift (neg : Bool) (m k : Nat) (e : Int) : rationalOf (.num neg (m * 2 ^ k) e) = rationalOf (.num neg m (e + k)) := by
  simp only [rationalOf, Option.some.injEq]
  rw [zpow_add₀ two_ne_zero, zpow_natCast]
  push_cast
  ring

/-- An FP32 code is that of a finite number with some value. -/
structure Names (c : Nat) (v : FpVal) : Prop where
  value  : valueOf .fp32 c = rationalOf v
  finite : isFiniteCode .fp32 c

/-- The smallest binade and the subnormal numbers below it have one unit, 2^-149. -/
theorem names_small (neg : Bool) {m : Nat} (h : m ≤ 2 ^ 23) : Names (withSign .fp32 neg m) (.num neg m (-149)) := by
  have hlt : withSign .fp32 neg m < 2 ^ fmtWidth .fp32 := withSign_fp32_lt neg (by omega)
  rcases Nat.lt_or_eq_of_le h with h | rfl
  · have hd := fpDecode_fp32 neg (e := 0) (by omega) h
    rw [Nat.zero_mul, Nat.zero_add, if_pos rfl] at hd
    exact ⟨congrArg rationalOf hd, hlt, _, _, _, hd⟩
  · have hd := fpDecode_fp32 neg (e := 1) (frac := 0) (by omega) (by omega)
    rw [if_neg one_ne_zero] at hd
    exact ⟨congrArg rationalOf hd, hlt, _, _, _, hd⟩

theorem names_normal (neg : Bool) {e q : Nat} (he : e < 254) (hq : 2 ^ 23 ≤ q) (hq' : q < 2 ^ 24) :
    Names (withSign .fp32 neg ((e + 1) * 2 ^ 23 + (q - 2 ^ 23))) (.num neg q ((e : Int) - 149)) := by
  have hd := fpDecode_fp32 neg (e := e + 1) (frac := q - 2 ^ 23) (by omega) (by omega)
  rw [if_neg e.succ_ne_zero, Nat.sub_add_cancel hq, show ((e + 1 : Nat) : Int) - 150 = e - 149 by omega] at hd
  exact ⟨congrArg rationalOf hd, withSign_fp32_lt neg (by omega), _, _, _, hd⟩

/-! ### Rounding a short significand to FP32 (R38, R39) -/

theorem lt_of_log2_le {mant sh : Nat} (h : Nat.log2 mant ≤ 22 + sh) : mant < 2 ^ 23 * 2 ^ sh := by
  rw [← Nat.pow_add]
  exact Nat.lt_of_lt_of_le Nat.lt_log2_self (Nat.pow_le_pow_right two_pos (by omega))

theorem mul_le_of_log2_le {mant k : Nat} (h : Nat.log2 mant + k ≤ 22) : mant * 2 ^ k ≤ 2 ^ 23 :=
  calc mant * 2 ^ k ≤ 2 ^ (Nat.log2 mant + 1) * 2 ^ k := Nat.mul_le_mul_right _ Nat.lt_log2_self.le
    _ = 2 ^ (Nat.log2 mant + 1 + k) := (Nat.pow_add ..).symm
    _ ≤ 2 ^ 23 := Nat.pow_le_pow_right two_pos (by omega)

theorem roundShift_le (neg : Bool) {mant sh : Nat} (h : mant < 2 ^ 23 * 2 ^ sh) : roundShift .rne neg mant sh ≤ 2 ^ 23 := by
  have hdiv : mant / 2 ^ sh < 2 ^ 23 := Nat.div_lt_of_lt_mul (by rwa [Nat.mul_comm])
  rw [roundShift]
  split
  · exact hdiv
  · exact hdiv.le

/-- Below the normal numbers the rounded significand stays within the smallest binade. -/
theorem roundToUnit_small (neg : Bool) {mant : Nat} {exp : Int} (h : exp + Nat.log2 mant < -126) :
    (roundToUnit .rne neg mant exp (-149)).1 ≤ 2 ^ 23 := by
  rw [roundToUnit]
  split
  · exact mul_le_of_log2_le (by omega)
  · exact roundShift_le neg (lt_of_log2_le (by omega))

section
variable {mant : Nat} {exp : Int} (neg : Bool) (hm : mant ≠ 0) (hshort : mant < 2 ^ 24)

include hm hshort in
theorem log2_short : Nat.log2 mant ≤ 23 ∧ 2 ^ 23 ≤ mant * 2 ^ (23 - Nat.log2 mant) ∧ mant * 2 ^ (23 - Nat.log2 mant) < 2 ^ 24 := by
  have hle : Nat.log2 mant ≤ 23 := by
    have := (Nat.log2_lt hm).mpr hshort
    omega
  have hlo := Nat.log2_self_le hm
  have hhi := Nat.lt_log2_self (n := mant)
  refine ⟨hle, ?_, ?_⟩
  · calc 2 ^ 23 = 2 ^ Nat.log2 mant * 2 ^ (23 - Nat.log2 mant) := by rw [← Nat.pow_add]; congr 1; omega
      _ ≤ _ := Nat.mul_le_mul_right _ hlo
  · calc mant * 2 ^ (23 - Nat.log2 mant) < 2 ^ (Nat.log2 mant + 1) * 2 ^ (23 - Nat.log2 mant) :=
          Nat.mul_lt_mul_of_pos_right hhi (Nat.two_pow_pos _)
      _ = 2 ^ 24 := by rw [← Nat.pow_add]; congr 1; omega

/-- The result before its range is looked at: a significand of at most 24 bits is never rounded at its own unit. -/
theorem roundResult_short (hm : mant ≠ 0) (hshort : mant < 2 ^ 24) : roundResult .fp32 .rne false .ieee neg mant exp =
    if exp + Nat.log2 mant < -126 then
      ⟨withSign .fp32 neg (roundToUnit .rne neg mant exp (-149)).1,
        if (roundToUnit .rne neg mant exp (-149)).2 then 0 else flagUF ||| flagIX⟩
    else if exp + Nat.log2 mant ≤ 127 then
      ⟨withSign .fp32 neg (((exp + Nat.log2 mant + 126).toNat + 1) * 2 ^ 23 + (mant * 2 ^ (23 - Nat.log2 mant) - 2 ^ 23)), 0⟩
    else ⟨withSign .fp32 neg (infCode .fp32), flagOF ||| flagIX⟩ := by
  obtain ⟨hlog, hlo, hhi⟩ := log2_short hm hshort
  have hunit : roundToUnit .rne neg mant exp (exp + Nat.log2 mant - 23) = (mant * 2 ^ (23 - Nat.log2 mant), true) := by
    rw [roundToUnit, if_pos (by omega)]
    congr 3
    omega
  have hcarry : (mant * 2 ^ (23 - Nat.log2 mant) == 2 ^ 24) = false := by simpa using hhi.ne
  generalize mant * 2 ^ (23 - Nat.log2 mant) = q at *
  have hmag : q - 2 ^ 23 < 2 ^ 23 := by omega
  have hfields : (1 : Int) - (expBias .fp32 : Int) = -126 ∧ fracBits .fp32 = 23 := ⟨rfl, rfl⟩
  rw [roundResult, if_neg (by simpa using hm)]
  simp only [hfields, Nat.cast_ofNat, hunit, hcarry, Bool.false_eq_true, if_false, if_true, sub_add_cancel,
    show (-126 : Int) - 23 = -149 from rfl]
  split
  · rfl
  · obtain ⟨e, he⟩ : ∃ e : Nat, exp + Nat.log2 mant = (e : Int) - 126 := ⟨(exp + Nat.log2 mant + 126).toNat, by omega⟩
    have hfield : ((e : Int) - 126 - -126 + 1).toNat = e + 1 := by omega
    have hmax : maxFinite .fp32 = 255 * 2 ^ 23 - 1 := rfl
    rw [he, hfield, hmax, sub_add_cancel, Int.toNat_natCast]
    by_cases hbig : (e : Int) - 126 ≤ 127
    · rw [if_pos hbig, if_neg (by omega)]
    · rw [if_neg hbig, if_pos (by omega)]
      rfl


theorem roundResult_zero : roundResult .fp32 .rne false .ieee neg 0 exp = ⟨withSign .fp32 neg 0, 0⟩ := rfl

/-- A number of at most 24 bits that no binade of FP32 cuts off is delivered exactly. -/
theorem roundResult_exact (hm : mant ≠ 0) (hshort : mant < 2 ^ 24) (hunit : -149 ≤ exp ∨ -126 ≤ exp + Nat.log2 mant)
    (htop : exp + Nat.log2 mant ≤ 127) :
    Names (roundResult .fp32 .rne false .ieee neg mant exp).code (.num neg mant exp) := by
  obtain ⟨hlog, hlo, hhi⟩ := log2_short hm hshort
  rw [roundResult_short neg hm hshort]
  split
  · next hsmall =>
    have hexp : -149 ≤ exp := by omega
    obtain ⟨k, hk⟩ : ∃ k : Nat, exp = -149 + (k : Int) := ⟨(exp + 149).toNat, by omega⟩
    have hnames := names_small neg (mul_le_of_log2_le (mant := mant) (k := k) (by omega))
    rw [roundToUnit, if_pos hexp, show (exp - -149).toNat = k by omega]
    exact ⟨hnames.value.trans (by rw [rationalOf_shift, ← hk]), hnames.finite⟩
  · have hnames := names_normal neg (e := (exp + Nat.log2 mant + 126).toNat) (by omega) hlo hhi
    refine ⟨hnames.value.trans ?_, hnames.finite⟩
    rw [rationalOf_shift]
    congr 2
    omega

end

/-- What the fields of a code can come to (R31, R32): E4M3 alone has finite numbers under its largest exponent field. -/
theorem fpDecode_num {f : FpFormat} {c : Nat} {s : Bool} {m : Nat} {e : Int} (h : fpDecode f c = .num s m e) :
    s = (c / signBit f % 2 == 1) ∧ m < 2 ^ (fracBits f + 1) ∧ 1 ≤ e + expBias f + fracBits f ∧
      e + expBias f + fracBits f < 2 ^ expBits f ∧ (f ≠ .e4m3 → e + expBias f + fracBits f ≠ 2 ^ expBits f - 1) := by
  have hk : c / 2 ^ fracBits f % 2 ^ expBits f < 2 ^ expBits f := Nat.mod_lt _ (Nat.two_pow_pos _)
  have hfrac : c % 2 ^ fracBits f < 2 ^ fracBits f := Nat.mod_lt _ (Nat.two_pow_pos _)
  have hwide : 4 ≤ 2 ^ expBits f := by cases f <;> decide
  have hcast : ((2 ^ expBits f : Nat) : Int) = 2 ^ expBits f := by push_cast; rfl
  unfold fpDecode at h
  extract_lets frac k neg isTop at h
  change k < _ at hk
  change frac < _ at hfrac
  rw [Nat.pow_succ]
  split at h
  · cases h
  · split at h
    · split at h <;> cases h
    · next htop =>
      split at h
      · obtain ⟨hs, hm, he⟩ := FpVal.num.inj h
        exact ⟨hs.symm, by omega, by omega, by omega, fun _ => by omega⟩
      · next h0 =>
        have hk0 : k ≠ 0 := by simpa using h0
        obtain ⟨hs, hm, he⟩ := FpVal.num.inj h
        refine ⟨hs.symm, by omega, by omega, by omega, fun hf heq => htop ?_⟩
        have hkTop : k = 2 ^ expBits f - 1 := by omega
        simpa [isTop, hf] using hkTop

/-- What a finite FP32 code can be worth (R31). -/
theorem finite_fp32 {c : Nat} {z : ℚ} (h : isFiniteCode .fp32 c) (hz : valueOf .fp32 c = some z) :
    ∃ (neg : Bool) (m : Nat) (e : Int), m < 2 ^ 24 ∧ -149 ≤ e ∧ e ≤ 104 ∧ rationalOf (.num neg m e) = some z := by
  obtain ⟨_, s, m, e, hd⟩ := h
  rw [valueOf, hd] at hz
  obtain ⟨-, hm, hlo, hhi, htop⟩ := fpDecode_num hd
  have htop := htop (by decide)
  simp only [fracBits, expBits, expBias] at hm hlo hhi htop
  exact ⟨s, m, e, hm, by omega, by omega, hz⟩

theorem abs_rational {neg : Bool} {m : Nat} {e : Int} {x : ℚ} (h : rationalOf (.num neg m e) = some x) : |x| = m * (2 : ℚ) ^ e := by
  obtain rfl := Option.some.inj h
  cases neg <;> simp [abs_mul]

/-! ### Rounded once (R38, R39) -/

/-- A number that the format holds is its own rounding. -/
theorem Names.rounded {r : FpResult} {v : FpVal} {x : ℚ} (h : Names r.code v) (hflags : r.flags = 0) (hx : rationalOf v = some x) :
    RoundedOnce .fp32 .rne x r := by
  obtain ⟨s, m, e, hm, -, he, hs⟩ := finite_fp32 h.finite (h.value.trans hx)
  have hsmall : |x| < aboveAll .fp32 - topUlp .fp32 / 2 := by
    rw [abs_rational hs]
    have hm : (m : ℚ) ≤ 16777215 := by exact_mod_cast Nat.le_of_lt_succ hm
    calc (m : ℚ) * 2 ^ e ≤ 16777215 * 2 ^ (104 : Int) := by gcongr; norm_num
      _ < _ := by norm_num [aboveAll, topUlp, expBias, fracBits]
  have hclear : r.flags.getLsbD 2 = false := by rw [hflags]; rfl
  refine ⟨fun hover => absurd hover (not_le.mpr hsmall), fun _ =>
    ⟨hclear, x, h.value.trans hx, h.finite, trivial, fun _ => rfl, fun c z _ _ _ => ?_⟩⟩
  rw [sub_self, abs_zero]
  exact ⟨abs_nonneg _, fun _ heq hne => absurd (sub_eq_zero.mp (abs_eq_zero.mp heq)) hne⟩

theorem neg_rational {neg : Bool} {m : Nat} {e : Int} {x : ℚ} (hm : m ≠ 0) (h : rationalOf (.num neg m e) = some x) :
    decide (x < 0) = neg := by
  obtain rfl := Option.some.inj h
  have hpos : 0 < (m : ℚ) * 2 ^ e := by positivity
  cases neg
  · simpa using hpos.le
  · simpa using hpos

/-- Above every finite number the result is the infinity of its sign. -/
theorem rounded_overflow {neg : Bool} {m : Nat} {e : Int} {x : ℚ} (hm : m ≠ 0) (h : rationalOf (.num neg m e) = some x)
    (hbig : 128 ≤ e + Nat.log2 m) : RoundedOnce .fp32 .rne x ⟨withSign .fp32 neg (infCode .fp32), flagOF ||| flagIX⟩ := by
  have hover : overflows .fp32 .rne x := by
    change aboveAll .fp32 - topUlp .fp32 / 2 ≤ |x|
    rw [abs_rational h]
    calc aboveAll .fp32 - topUlp .fp32 / 2 ≤ (2 : ℚ) ^ (128 : Int) := by norm_num [aboveAll, topUlp, expBias, fracBits]
      _ ≤ 2 ^ ((Nat.log2 m : Int) + e) := zpow_le_zpow_right₀ one_le_two (by omega)
      _ = ((2 ^ Nat.log2 m : Nat) : ℚ) * 2 ^ e := by rw [zpow_add₀ two_ne_zero, zpow_natCast]; push_cast; rfl
      _ ≤ m * 2 ^ e := by gcongr; exact Nat.log2_self_le hm
  refine ⟨fun _ => ?_, fun hn => absurd hover hn⟩
  rw [neg_rational hm h]
  rfl

/-- A multiple of p lies at 0, at p, or beyond one of them. -/
theorem multiple_cases (d : Int) (p : Nat) :
    d ≤ -1 ∧ d * p ≤ -p ∨ d = 0 ∧ d * p = 0 ∨ d = 1 ∧ d * p = p ∨ 2 ≤ d ∧ 2 * p ≤ d * p := by
  rcases lt_trichotomy d 0 with h | rfl | h
  · exact .inl ⟨by omega, by nlinarith⟩
  · exact .inr (.inl ⟨rfl, zero_mul _⟩)
  · rcases eq_or_lt_of_le (Int.add_one_le_iff.mpr h) with rfl | h
    · exact .inr (.inr (.inl ⟨rfl, one_mul _⟩))
    · exact .inr (.inr (.inr ⟨by omega, by nlinarith⟩))

section
variable {r p : Nat} (d : Int) (hr : r < p)

include hr in
/-- No multiple of p is nearer to r than p, where r is not below the middle. -/
theorem nearest_up (hmiddle : p ≤ 2 * r) :
    (p : Int) - r ≤ |d * p - r| ∧ (|d * p - r| = p - r → d ≠ 1 → 2 * r = p) := by
  have hd := multiple_cases d p
  generalize d * p = x at hd ⊢
  rcases abs_cases (x - r) with ⟨habs, _⟩ | ⟨habs, _⟩ <;> rw [habs] <;> exact ⟨by omega, by omega⟩

include hr in
/-- No multiple of p is nearer to r than 0, where r is not above the middle. -/
theorem nearest_down (hmiddle : 2 * r ≤ p) : (r : Int) ≤ |d * p - r| ∧ (|d * p - r| = r → d ≠ 0 → 2 * r = p) := by
  have hd := multiple_cases d p
  generalize d * p = x at hd ⊢
  rcases abs_cases (x - r) with ⟨habs, _⟩ | ⟨habs, _⟩ <;> rw [habs] <;> exact ⟨by omega, by omega⟩

end

/-- Rounding a quotient by a power of two to the nearest integer, a tie to the even one (R38). -/
theorem roundShift_nearest (neg : Bool) (num sh : Nat) (k : Int) :
    |(roundShift .rne neg num sh : Int) * 2 ^ sh - num| ≤ |k * 2 ^ sh - num| ∧
      (|k * 2 ^ sh - num| = |(roundShift .rne neg num sh : Int) * 2 ^ sh - num| → k ≠ roundShift .rne neg num sh →
        roundShift .rne neg num sh % 2 = 0) := by
  have hdiv : ((2 ^ sh : Nat) : Int) * (num / 2 ^ sh : Nat) + (num % 2 ^ sh : Nat) = num := by
    exact_mod_cast Nat.div_add_mod num (2 ^ sh)
  have hmod : num % 2 ^ sh < 2 ^ sh := Nat.mod_lt _ (Nat.two_pow_pos _)
  have hcast : ((2 ^ sh : Nat) : Int) = 2 ^ sh := by push_cast; rfl
  obtain ⟨d, rfl⟩ : ∃ d : Int, k = (num / 2 ^ sh : Nat) + d := ⟨k - (num / 2 ^ sh : Nat), by omega⟩
  unfold roundShift
  generalize num / 2 ^ sh = q at hdiv ⊢
  generalize num % 2 ^ sh = r at hdiv hmod ⊢
  rw [← hcast]
  generalize 2 ^ sh = p at hdiv hmod ⊢
  have hk : ((q : Int) + d) * p - num = d * p - r := by rw [← hdiv]; ring
  simp only [gt_iff_lt, Bool.or_eq_true, Bool.and_eq_true, decide_eq_true_eq, beq_iff_eq]
  rw [hk]
  split
  · next hup =>
    have hq : ((q + 1 : Nat) : Int) * p - num = p - r := by rw [← hdiv]; push_cast; ring
    obtain ⟨hle, htie⟩ := nearest_up d hmod (by omega)
    rw [hq, abs_of_nonneg (by omega)]
    refine ⟨hle, fun heq hne => ?_⟩
    have hmiddle := htie heq fun h => hne (by rw [h]; push_cast; rfl)
    exact Nat.succ_mod_two_eq_zero_iff.mpr (hup.resolve_left (by omega)).2
  · next hdown =>
    have hq : (q : Int) * p - num = -r := by rw [← hdiv]; ring
    obtain ⟨hle, htie⟩ := nearest_down d hmod (by omega)
    rw [hq, abs_neg, abs_of_nonneg (by omega)]
    refine ⟨hle, fun heq hne => ?_⟩
    have hmiddle := htie heq fun h => hne (by rw [h, add_zero])
    omega

/-- A whole number of units of 2^-149 under a sign. -/
def unitsOf (neg : Bool) (k : Int) : ℚ := ((if neg then -k else k : Int) : ℚ) * 2 ^ (-149 : Int)

theorem rational_unitsOf (neg : Bool) (m : Nat) : rationalOf (.num neg m (-149)) = some (unitsOf neg m) := by
  cases neg <;> simp [rationalOf, unitsOf]

theorem finite_unitsOf {c : Nat} {z : ℚ} (neg : Bool) (h : isFiniteCode .fp32 c) (hz : valueOf .fp32 c = some z) :
    ∃ k, z = unitsOf neg k := by
  obtain ⟨s, m, e, -, hlo, -, hs⟩ := finite_fp32 h hz
  obtain ⟨n, rfl⟩ : ∃ n : Nat, e = -149 + (n : Int) := ⟨(e + 149).toNat, by omega⟩
  rw [← rationalOf_shift, rational_unitsOf] at hs
  obtain rfl := Option.some.inj hs
  exact ⟨if s = neg then ((m * 2 ^ n : Nat) : Int) else -((m * 2 ^ n : Nat) : Int), by cases s <;> cases neg <;> simp [unitsOf]⟩

theorem distance_unitsOf {neg : Bool} {mant sh : Nat} {x : ℚ} (hx : rationalOf (.num neg mant (-149 - sh)) = some x) (k : Int) :
    |unitsOf neg k - x| = ((|k * 2 ^ sh - mant| : Int) : ℚ) * 2 ^ ((-149 : Int) - sh) := by
  have hunit : (2 : ℚ) ^ (-149 : Int) = 2 ^ sh * 2 ^ ((-149 : Int) - sh) := by
    rw [← zpow_natCast, ← zpow_add₀ two_ne_zero]
    congr 1
    omega
  have hpos : (0 : ℚ) < 2 ^ ((-149 : Int) - sh) := by positivity
  obtain rfl := Option.some.inj hx
  rw [← abs_of_pos hpos, Int.cast_abs, ← abs_mul, abs_of_pos hpos, unitsOf, hunit]
  push_cast
  cases neg
  · simp only [Bool.false_eq_true, if_false]
    congr 1
    ring
  · simp only [if_true]
    rw [← abs_neg]
    congr 1
    ring

/-- Below the normal numbers the nearest code stands on the grid of 2^-149. -/
theorem rounded_small {neg : Bool} {mant sh : Nat} {x : ℚ} (hx : rationalOf (.num neg mant (-149 - sh)) = some x)
    (hsmall : Nat.log2 mant ≤ 22 + sh) : RoundedOnce .fp32 .rne x ⟨withSign .fp32 neg (roundShift .rne neg mant sh),
      if mant % 2 ^ sh == 0 then 0 else flagUF ||| flagIX⟩ := by
  have hmant := lt_of_log2_le hsmall
  have hround := roundShift_le neg hmant
  have hnames := names_small neg hround
  have hvalue := hnames.value.trans (rational_unitsOf neg _)
  have hlow : |x| < aboveAll .fp32 - topUlp .fp32 / 2 := by
    rw [abs_rational hx]
    calc (mant : ℚ) * 2 ^ ((-149 : Int) - sh) ≤ (2 ^ 23 * 2 ^ sh) * 2 ^ ((-149 : Int) - sh) := by
          gcongr
          exact_mod_cast hmant.le
      _ = 2 ^ (-126 : Int) := by
          rw [mul_assoc, ← zpow_natCast 2 sh, ← zpow_add₀ two_ne_zero, show (sh : Int) + (-149 - sh) = -149 by omega]
          norm_num
      _ < _ := by norm_num [aboveAll, topUlp, expBias, fracBits]
  refine ⟨fun hover => absurd hover (not_le.mpr hlow), fun _ =>
    ⟨?_, _, hvalue, hnames.finite, trivial, fun hexact => ?_, fun c z hc hz _ => ?_⟩⟩
  · dsimp only
    split <;> decide
  · have hmod : mant % 2 ^ sh = 0 := by
      by_contra hne
      dsimp only at hexact
      rw [if_neg (by simpa using hne)] at hexact
      exact absurd hexact (by decide)
    have hquot : roundShift .rne neg mant sh = mant / 2 ^ sh := by
      rw [roundShift, hmod]
      simp [(Nat.two_pow_pos sh).ne]
    have hmul : ((mant / 2 ^ sh : Nat) : Int) * 2 ^ sh - mant = 0 := by
      rw [sub_eq_zero]
      exact_mod_cast Nat.div_mul_cancel (Nat.dvd_of_mod_eq_zero hmod)
    rw [← sub_eq_zero, ← abs_eq_zero, distance_unitsOf hx, hquot, hmul]
    simp
  · obtain ⟨k, rfl⟩ := finite_unitsOf neg hc hz
    obtain ⟨hle, htie⟩ := roundShift_nearest neg mant sh k
    have hpos : (0 : ℚ) < 2 ^ ((-149 : Int) - sh) := by positivity
    rw [distance_unitsOf hx, distance_unitsOf hx]
    refine ⟨mul_le_mul_of_nonneg_right (by exact_mod_cast hle) hpos.le, fun _ heq hne => ?_⟩
    have heven := htie (by exact_mod_cast mul_right_cancel₀ hpos.ne' heq) fun h => hne (by rw [h])
    rw [withSign_fp32]
    dsimp only
    omega

/-- A number of at most 24 bits rounded to nearest (R38, R39): the code has its sign, and is the number rounded once. -/
theorem roundResult_rounded (neg : Bool) {mant : Nat} {exp : Int} {x : ℚ} (hshort : mant < 2 ^ 24)
    (hx : rationalOf (.num neg mant exp) = some x) : RoundedOnce .fp32 .rne x (roundResult .fp32 .rne false .ieee neg mant exp) := by
  rcases Nat.eq_zero_or_pos mant with rfl | hpos
  · have hzero : rationalOf (.num neg 0 (-149)) = some x := by
      rw [← hx]
      simp [rationalOf]
    rw [roundResult_zero]
    exact (names_small neg (Nat.zero_le _)).rounded rfl hzero
  have hm := hpos.ne'
  by_cases hsmall : exp + Nat.log2 mant < -126
  · by_cases hunit : -149 ≤ exp
    · refine (roundResult_exact neg hm hshort (.inl hunit) (by omega)).rounded ?_ hx
      rw [roundResult_short neg hm hshort, if_pos hsmall, roundToUnit, if_pos hunit]
      rfl
    · obtain ⟨sh, rfl⟩ : ∃ sh : Nat, exp = -149 - (sh : Int) := ⟨(-149 - exp).toNat, by omega⟩
      rw [roundResult_short neg hm hshort, if_pos hsmall, roundToUnit, if_neg hunit,
        show ((-149 : Int) - (-149 - sh)).toNat = sh by omega]
      exact rounded_small hx (by omega)
  · by_cases htop : exp + Nat.log2 mant ≤ 127
    · refine (roundResult_exact neg hm hshort (.inr (by omega)) htop).rounded ?_ hx
      rw [roundResult_short neg hm hshort, if_neg hsmall, if_pos htop]
    · rw [roundResult_short neg hm hshort, if_neg hsmall, if_neg htop]
      exact rounded_overflow hm hx (by omega)

/-- The result of a rounding has the sign of what was rounded. -/
theorem roundResult_signed (neg : Bool) {mant : Nat} {exp : Int} (hshort : mant < 2 ^ 24) :
    ∃ mag, mag < 2 ^ 31 ∧ (roundResult .fp32 .rne false .ieee neg mant exp).code = withSign .fp32 neg mag := by
  rcases Nat.eq_zero_or_pos mant with rfl | hpos
  · exact ⟨0, by omega, rfl⟩
  have hm := hpos.ne'
  obtain ⟨hlog, hlo, hhi⟩ := log2_short hm hshort
  rw [roundResult_short neg hm hshort]
  split
  · next hsmall => exact ⟨_, Nat.lt_of_le_of_lt (roundToUnit_small neg hsmall) (by omega), rfl⟩
  · split
    · exact ⟨_, by omega, rfl⟩
    · exact ⟨infCode .fp32, by decide, rfl⟩

/-! ### The elements of a format page (R19 to R21, R35 to R37) -/

theorem fpDecode_inf {f : FpFormat} {c : Nat} {neg : Bool} (h : fpDecode f c = .inf neg) : neg = (c / signBit f % 2 == 1) := by
  rw [fpDecode] at h
  split at h
  · cases h
  · split at h
    · split at h
      · exact (FpVal.inf.inj h).symm
      · cases h
    · split at h <;> cases h

theorem infCode_value (neg : Bool) : valueOf .fp32 (withSign .fp32 neg (infCode .fp32)) = rationalOf (.inf neg) := by
  cases neg <;> exact congrArg rationalOf (by decide)

/-- A finite number of a format whose numbers are all FP32 numbers is delivered as it is. -/
theorem roundResult_names (neg : Bool) {mant : Nat} {exp : Int} (hshort : mant < 2 ^ 24)
    (hrange : mant ≠ 0 → -149 ≤ exp ∧ exp + Nat.log2 mant ≤ 127) :
    Names (roundResult .fp32 .rne false .ieee neg mant exp).code (.num neg mant exp) := by
  rcases Nat.eq_zero_or_pos mant with rfl | hpos
  · have hnames := names_small neg (Nat.zero_le _)
    exact ⟨hnames.value.trans (by simp [rationalOf]), hnames.finite⟩
  · obtain ⟨hlo, hhi⟩ := hrange hpos.ne'
    exact roundResult_exact neg hpos.ne' hshort (.inl hlo) hhi

/-- A number of a narrower format lies within FP32. -/
theorem fpDecode_narrow {f : FpFormat} (hf : f = .bf16 ∨ f = .fp16 ∨ f = .e4m3 ∨ f = .e5m2) {c : Nat} {s : Bool} {m : Nat} {e : Int}
    (h : fpDecode f c = .num s m e) : m < 2 ^ 24 ∧ (m ≠ 0 → -149 ≤ e ∧ e + Nat.log2 m ≤ 127) := by
  obtain ⟨-, hm, hlo, hhi, htop⟩ := fpDecode_num h
  have hlog : m ≠ 0 → Nat.log2 m ≤ fracBits f := fun h0 => Nat.lt_succ_iff.mp ((Nat.log2_lt h0).mpr hm)
  rcases hf with rfl | rfl | rfl | rfl <;> simp only [fracBits, expBits, expBias] at hm hlo hhi htop hlog
  · exact ⟨by omega, fun h0 => ⟨by omega, by have := hlog h0; have := htop (by decide); omega⟩⟩
  all_goals exact ⟨by omega, fun h0 => ⟨by omega, by have := hlog h0; omega⟩⟩

/-- Widening to FP32 is exact. -/
theorem fpConvert_sameNumber {f : FpFormat} (hf : f = .bf16 ∨ f = .fp16 ∨ f = .e4m3 ∨ f = .e5m2) (c : Nat) :
    SameNumber f c (BitVec.ofNat 32 (fpConvert f .fp32 .rne .ieee c).code) := by
  rw [fpConvert]
  cases hd : fpDecode f c with
  | nan => exact ⟨fun _ => rfl, fun h => by simp [isNaN, hd] at h⟩
  | inf neg =>
    refine ⟨fun h => by simp [isNaN, hd] at h, fun _ => ⟨?_, ?_⟩⟩
    · exact (signBit_withSign neg (mag := infCode .fp32) (by decide)).trans (fpDecode_inf hd)
    · exact (congrArg _ (toNat_withSign neg (mag := infCode .fp32) (by decide))).trans
        ((infCode_value neg).trans (by rw [valueOf, hd]))
  | num neg m e =>
    obtain ⟨hshort, hrange⟩ := fpDecode_narrow hf hd
    obtain ⟨mag, hmag, hcode⟩ := roundResult_signed neg (exp := e) hshort
    have hnames := roundResult_names neg hshort hrange
    refine ⟨fun h => by simp [isNaN, hd] at h, fun _ => ⟨?_, ?_⟩⟩
    · exact (congrArg (fun c => (BitVec.ofNat 32 c).getLsbD 31) hcode).trans ((signBit_withSign neg hmag).trans (fpDecode_num hd).1)
    · have hvalue := hnames.value
      rw [hcode] at hvalue
      dsimp only
      rw [hcode, toNat_withSign neg hmag, hvalue, valueOf, hd]

theorem rationalOf_int (n : Int) : rationalOf (.num (decide (n < 0)) n.natAbs 0) = some (n : ℚ) := by
  rcases lt_or_ge n 0 with h | h
  · have habs : ((n.natAbs : Int) : ℚ) = -n := by rw [Int.ofNat_natAbs_of_nonpos h.le]; push_cast; rfl
    rw [Int.cast_natCast] at habs
    simp [rationalOf, h, habs]
  · have habs : ((n.natAbs : Int) : ℚ) = n := by rw [Int.natAbs_of_nonneg h]
    rw [Int.cast_natCast] at habs
    simp [rationalOf, h.not_gt, habs]

theorem intToFp_sameInteger {n : Int} (h : n.natAbs < 2 ^ 8) : SameInteger n (BitVec.ofNat 32 (intToFp .fp32 .rne n).code) := by
  have hshort : n.natAbs < 2 ^ 24 := by omega
  obtain ⟨mag, hmag, hcode⟩ := roundResult_signed (decide (n < 0)) (exp := 0) hshort
  have hnames := roundResult_names (decide (n < 0)) (exp := 0) hshort fun h0 => by
    have := (Nat.log2_lt h0).mpr hshort
    exact ⟨by omega, by omega⟩
  have hvalue : valueOf .fp32 (BitVec.ofNat 32 (intToFp .fp32 .rne n).code).toNat = some (n : ℚ) := by
    rw [intToFp, hcode, toNat_withSign _ hmag, ← hcode, hnames.value, rationalOf_int]
  refine ⟨hvalue, fun hzero => ?_⟩
  have hval : valueOf .fp32 (0x80000000 : Word).toNat = some 0 := by
    rw [valueOf, show fpDecode .fp32 (0x80000000 : Word).toNat = .num true 0 (-149) by decide]
    simp [rationalOf]
  rw [hzero, hval] at hvalue
  have hn : n = 0 := by exact_mod_cast (Option.some.inj hvalue).symm
  rw [hn] at hzero
  exact absurd hzero (by decide)

/-! ### BX4 (R35 to R37) -/

theorem fp4Number_eq (c : Nat) : rationalOf (fp4Val c) = some (fp4Number c) := by
  have hc : c % 8 < 8 := Nat.mod_lt _ (by omega)
  rw [fp4Val, fp4Number]
  generalize c % 8 = k at hc
  by_cases hneg : c / 8 % 2 = 1 <;> interval_cases k <;> norm_num [rationalOf, fp4Twice, hneg]

theorem fp4Twice_le (k : Nat) : fp4Twice k ≤ 12 := by
  unfold fp4Twice
  split <;> omega

theorem scaleNumber_eq (c : Nat) : rationalOf (e3m5Val c) = some (scaleNumber c) := by
  unfold e3m5Val scaleNumber
  generalize c / 32 % 8 = e
  generalize c % 32 = m
  by_cases he : e = 0
  · simp [he, rationalOf]
    norm_num
    ring
  · have hsplit : (2 : ℚ) ^ ((e : Int) - 8) = 2 ^ ((e : Int) - 3) * (1 / 32) := by
      rw [show (e : Int) - 8 = (e - 3) + (-5) by omega, zpow_add₀ two_ne_zero]
      norm_num
    simp [he, rationalOf, hsplit]
    ring

theorem e3m5Val_num (c : Nat) : ∃ m e, e3m5Val c = .num false m e ∧ m < 64 := by
  unfold e3m5Val
  dsimp only
  split
  · exact ⟨_, _, rfl, by omega⟩
  · exact ⟨_, _, rfl, by omega⟩

theorem rationalOf_mul {s t : Bool} {m n : Nat} {e g : Int} {x y : ℚ} (hx : rationalOf (.num s m e) = some x)
    (hy : rationalOf (.num t n g) = some y) : rationalOf (.num (s != t) (m * n) (e + g)) = some (x * y) := by
  obtain rfl := Option.some.inj hx
  obtain rfl := Option.some.inj hy
  simp only [rationalOf, Option.some.injEq, Nat.cast_mul, zpow_add₀ (two_ne_zero (α := ℚ))]
  cases s <;> cases t <;> simp <;> ring

/-- A value is the one that a BF16 band scale names, where that is finite, and otherwise no number. -/
structure BandIs (v : FpVal) (band : Nat) : Prop where
  finite : isFiniteCode .bf16 band → ∃ s m e, v = .num s m e ∧ m < 2 ^ 8 ∧ s = (band / 2 ^ 15 % 2 == 1) ∧
    valueOf .bf16 band = rationalOf (.num s m e)
  other  : ¬ isFiniteCode .bf16 band → ∀ s m e, v ≠ .num s m e

theorem bandVal_is {band : Nat} (h : band < 2 ^ 16) : BandIs (bandVal band) band := by
  refine ⟨fun ⟨_, s, m, e, hd⟩ => ?_, fun hn s m e hd => hn ⟨h, s, m, e, hd⟩⟩
  obtain ⟨hs, hm, -⟩ := fpDecode_num hd
  exact ⟨s, m, e, hd, hm, hs, congrArg rationalOf hd⟩

/-- Where a page has no band scales, the band scale is 1. -/
theorem one_bandIs : BandIs (.num false 1 0) 0x3F80 := by
  have hd : fpDecode .bf16 0x3F80 = .num false (1 * 2 ^ 7) (-7) := by decide
  refine ⟨fun _ => ⟨false, 1, 0, rfl, by omega, by decide, ?_⟩, fun hn => absurd ⟨by decide, _, _, _, hd⟩ hn⟩
  rw [valueOf, hd, rationalOf_shift]
  rfl

theorem bx4Decode_num {elem scale ms : Nat} {es : Int} (h : e3m5Val scale = .num false ms es) (s : Bool) (m : Nat) (e : Int) :
    bx4Decode elem scale (.num s m e) = (roundResult .fp32 .rne false .ieee (((elem / 8 % 2 == 1) != false) != s)
      (fp4Twice (elem % 8) * ms * m) (-1 + es + e)).code := by
  rw [bx4Decode, h]
  rfl

theorem bx4Decode_scaled {v : FpVal} {band : Nat} (elem scale : Nat) (h : BandIs v band) :
    ScaledElement elem scale band (BitVec.ofNat 32 (bx4Decode elem scale v)) := by
  refine ⟨fun hfin q hq => ?_, fun hn => ?_⟩
  · obtain ⟨s, m, e, rfl, hm, hs, hvalue⟩ := h.finite hfin
    obtain ⟨ms, es, hscale, hms⟩ := e3m5Val_num scale
    have htwice := fp4Twice_le (elem % 8)
    have hproduct := rationalOf_mul (rationalOf_mul (fp4Number_eq elem) (hscale ▸ scaleNumber_eq scale)) (hvalue.symm.trans hq)
    have hshort : fp4Twice (elem % 8) * ms * m < 2 ^ 24 :=
      calc _ ≤ 12 * 64 * 2 ^ 8 := Nat.mul_le_mul (Nat.mul_le_mul htwice hms.le) hm.le
        _ < 2 ^ 24 := by omega
    obtain ⟨mag, hmag, hcode⟩ := roundResult_signed (((elem / 8 % 2 == 1) != false) != s) (exp := -1 + es + e) hshort
    have hround := roundResult_rounded _ hshort hproduct
    have hr : (BitVec.ofNat 32 (bx4Decode elem scale (.num s m e))).toNat = (roundResult .fp32 .rne false .ieee
        (((elem / 8 % 2 == 1) != false) != s) (fp4Twice (elem % 8) * ms * m) (-1 + es + e)).code := by
      rw [bx4Decode_num hscale, hcode, toNat_withSign _ hmag]
    refine ⟨?_, _, by rwa [hr]⟩
    rw [bx4Decode_num hscale, hcode, signBit_withSign _ hmag, hs, Bool.bne_false]
  · cases v with
    | num s m e => exact absurd rfl (h.other hn s m e)
    | nan => rfl
    | inf s => rfl

end Sys2Proof.Machine
end

section
/-!
PROOFS. What a decoding load delivers for one thread (R19 to R21, R127).
-/

namespace Sys2Proof.Machine

/-! ### What a decoding load delivers (R20, R21, R127) -/

theorem readNat_lt (s : State) (l : Loc) (n : Nat) : leNat (readLoc s l n) < 256 ^ n := by
  have := leNat_lt (readLoc s l n)
  rwa [readLoc, readBytes_length] at this

theorem elementBytes_eq {fmt : Nat} (h : fmt < 8) : elementBytes fmt = wholeBytes fmt := by
  interval_cases fmt <;> rfl

/-- The model's test for raw words is the statement's. -/
theorem rawWords_iff (fmt o : Nat) : (decide (fmt = 0) || decide (elementArea fmt ≤ o)) = true ↔ fmt = 0 ∨ areaBytes fmt ≤ o := by
  rw [Bool.or_eq_true, decide_eq_true_eq, decide_eq_true_eq]
  rfl

theorem byte_signed {v : Nat} (h : v < 256) : (if v < 128 then (v : Int) else v - 256) = (BitVec.ofNat 8 v).toInt := by
  rw [BitVec.toInt, BitVec.toNat_ofNat, Nat.mod_eq_of_lt h]
  split <;> split <;> omega

theorem nibble_signed {v : Nat} (h : v < 16) : (if v < 8 then (v : Int) else v - 16) = (BitVec.ofNat 4 v).toInt := by
  rw [BitVec.toInt, BitVec.toNat_ofNat, Nat.mod_eq_of_lt h]
  split <;> split <;> omega

theorem signed_natAbs_lt {w : Nat} (hw : w ≤ 8) (v : BitVec w) : v.toInt.natAbs < 2 ^ 8 := by
  have hv := v.isLt
  have hpow : 2 ^ w ≤ 2 ^ 8 := Nat.pow_le_pow_right two_pos hw
  rw [BitVec.toInt]
  split <;> omega

theorem nibble_eq (s : State) (l : Loc) (high : Bool) : (if high then readNat s l 1 / 16 else readNat s l 1 % 16) =
    leNat (readLoc s l 1) / (if high then 16 else 1) % 16 := by
  have := readNat_lt s l 1
  unfold readNat
  cases high
  · simp
  · simp only [if_true]
    omega

theorem elementAt_bx4 (s : State) (l : Loc) (o geo : Nat) (high : Bool) :
    ElementAt s l o 7 geo high (elementAt s l o 7 geo high) := by
  have hband : BandIs (if geo = 0 then bandVal (readNat s (shiftLoc l o (0xF000 + 2 * ((2 * o + if high then 1 else 0) / 64))) 2)
      else .num false 1 0)
      (if geo = 0 then leNat (readLoc s { l with addr := l.addr - o + (0xF000 + 2 * ((2 * o + if high then 1 else 0) / 64)) } 2)
        else 0x3F80) := by
    split
    · exact bandVal_is (readNat_lt _ _ 2)
    · exact one_bandIs
  have helement := bx4Decode_scaled (leNat (readLoc s l 1) / (if high then 16 else 1) % 16)
    (readNat s (shiftLoc l o (0xC000 + (2 * o + if high then 1 else 0) / 8)) 1) hband
  rw [← nibble_eq] at helement
  simp only [ElementAt, ← nibble_eq]
  exact helement

/-- An element is decoded as its format says (R19 to R21, R35 to R37). -/
theorem elementAt_correct (s : State) (l : Loc) (o geo : Nat) (high : Bool) {fmt : Nat} (h0 : fmt ≠ 0) (h8 : fmt < 8) :
    ElementAt s l o fmt geo high (elementAt s l o fmt geo high) := by
  have hbyte := readNat_lt s l 1
  interval_cases fmt
  · exact absurd rfl h0
  · exact fpConvert_sameNumber (.inl rfl) _
  · exact fpConvert_sameNumber (.inr (.inl rfl)) _
  · exact fpConvert_sameNumber (.inr (.inr (.inl rfl))) _
  · exact fpConvert_sameNumber (.inr (.inr (.inr rfl))) _
  · change SameInteger (BitVec.ofNat 8 (leNat (readLoc s l 1))).toInt (BitVec.ofNat 32 (intToFp .fp32 .rne
      (if leNat (readLoc s l 1) < 128 then (leNat (readLoc s l 1) : Int) else leNat (readLoc s l 1) - 256)).code)
    rw [byte_signed hbyte]
    exact intToFp_sameInteger (signed_natAbs_lt (by omega) _)
  · change SameInteger (BitVec.ofNat 4 _).toInt (BitVec.ofNat 32 (intToFp .fp32 .rne
      (if (if high then readNat s l 1 / 16 else readNat s l 1 % 16) < 8 then
        ((if high then readNat s l 1 / 16 else readNat s l 1 % 16 : Nat) : Int)
        else (if high then readNat s l 1 / 16 else readNat s l 1 % 16 : Nat) - 16)).code)
    rw [nibble_eq, nibble_signed (Nat.mod_lt _ (by omega))]
    exact intToFp_sameInteger (signed_natAbs_lt (by omega) _)
  · exact elementAt_bx4 s l o geo high

section
variable {r : Ready} (s : State)

theorem decodeLoad_raw (words : Nat) (h : placeFmt r.place = 0 ∨ areaBytes (placeFmt r.place) ≤ r.va % 65536) :
    decodeLoad s (4 * words) r = (List.range words).map fun j =>
      BitVec.ofNat 32 (leNat (readLoc s { r.place.loc with addr := r.place.loc.addr + 4 * j } 4)) := by
  unfold decodeLoad
  dsimp only
  rw [if_pos ((rawWords_iff ..).mpr h), Nat.mul_div_cancel_left _ (by omega)]
  rfl

variable (h : ¬ (placeFmt r.place = 0 ∨ areaBytes (placeFmt r.place) ≤ r.va % 65536))
include h

theorem decodeLoad_first (size : Nat) : (decodeLoad s size r).getD 0 0 =
    elementAt s r.place.loc (r.va % 65536) (placeFmt r.place) (placeGeo r.place) false := by
  unfold decodeLoad
  dsimp only
  rw [if_neg (mt (rawWords_iff ..).mp h)]
  split
  · rfl
  · split
    · rfl
    · split <;> rfl

theorem decodeLoad_second (h8 : placeFmt r.place < 8) : (decodeLoad s 8 r).getD 1 0 =
    if wholeBytes (placeFmt r.place) = 0 then elementAt s r.place.loc (r.va % 65536) (placeFmt r.place) (placeGeo r.place) true
    else match r.next with
      | some p => if placeFmt p = 0 then BitVec.ofNat 32 (leNat (readLoc s p.loc 4)) else elementAt s p.loc 0 (placeFmt p) (placeGeo p) false
      | none => elementAt s (shiftLoc r.place.loc (r.va % 65536) (r.va % 65536 + wholeBytes (placeFmt r.place)))
          (r.va % 65536 + wholeBytes (placeFmt r.place)) (placeFmt r.place) (placeGeo r.place) false := by
  unfold decodeLoad
  dsimp only
  rw [if_neg (mt (rawWords_iff ..).mp h), if_neg (by omega), elementBytes_eq h8]
  split
  · rfl
  · cases r.next <;> rfl

end

/-- Word j of a decoding load of some words. -/
theorem decodeLoad_correct (s : State) {r : Ready} {words j : Nat} (hw : words = 1 ∨ words = 2) (hj : j < words)
    (h8 : placeFmt r.place < 8) (hnext : ∀ p, r.next = some p → placeFmt p < 8) :
    DecodedWord s r.place r.next r.va j ((decodeLoad s (4 * words) r).getD j 0) := by
  by_cases hraw : placeFmt r.place = 0 ∨ areaBytes (placeFmt r.place) ≤ r.va % 65536
  · unfold DecodedWord
    dsimp only
    rw [if_pos hraw, decodeLoad_raw s words hraw]
    simp [hj]
  · have h0 : placeFmt r.place ≠ 0 := fun h => hraw (.inl h)
    unfold DecodedWord
    dsimp only
    rw [if_neg hraw]
    rcases Nat.eq_zero_or_pos j with rfl | hpos
    · rw [if_pos rfl, decodeLoad_first s hraw]
      exact elementAt_correct _ _ _ _ _ h0 h8
    · obtain ⟨rfl, rfl⟩ : j = 1 ∧ words = 2 := by omega
      rw [if_neg one_ne_zero, decodeLoad_second s hraw h8]
      split
      · exact elementAt_correct _ _ _ _ _ h0 h8
      · cases hp : r.next with
        | none => exact elementAt_correct _ _ _ _ _ h0 h8
        | some p =>
          dsimp only
          split
          · rfl
          · next hp0 => exact elementAt_correct _ _ _ _ _ hp0 (hnext p hp)

end Sys2Proof.Machine
end

section
/-!
PROOFS. The addresses of a load and the threads of a mask (R122, R124).
-/

namespace Sys2Proof.Machine

/-! ### Addresses of a load (R122, R124) -/

theorem rowIsU_iff (r : VRow) : rowIsU r = true ↔ shapeRank r = 1 := by cases r <;> simp [rowIsU, shapeRank]

theorem ofNat_emod (z : Int) : BitVec.ofNat 64 (z % 2 ^ 64).toNat = BitVec.ofInt 64 z := by
  apply BitVec.eq_of_toNat_eq
  rw [BitVec.toNat_ofNat, BitVec.toNat_ofInt]
  omega

theorem ofInt_toNat (v : Word) : BitVec.ofInt 64 v.toNat = v.setWidth 64 := by
  rw [BitVec.ofInt_natCast, BitVec.ofNat_toNat]

theorem append_eq_ofInt (lo hi : Word) : (hi ++ lo : Dword) = BitVec.ofInt 64 ((lo.toNat + 2 ^ 32 * hi.toNat : Nat) : Int) := by
  apply BitVec.eq_of_toNat_eq
  have hlo := lo.isLt
  have hhi := hi.isLt
  rw [BitVec.toNat_append, ← Nat.shiftLeft_add_eq_or_of_lt hlo, Nat.shiftLeft_eq, BitVec.ofInt_natCast, BitVec.toNat_ofNat]
  omega

/-- The address of a thread is the statement's, modulo 2^64. -/
theorem threadAddress_eq {w : Wave} {a b : BitVec 6} {lo hi ib : VRow} {ix : Nat} (hlo : lo = fieldRow w a)
    (hhi : hi = fieldRow w (a + 1)) (hib : ix ≠ 0 → ib = fieldRow w b) (scale : Nat) (off : Dword) (i : Nat) :
    threadAddress true lo hi ib ix scale off i = BitVec.ofNat 64 (accessAddress w true a b ix scale off.toInt i) := by
  subst hlo hhi
  have hib : ix ≠ 0 → rowAt ib i = rowAt (fieldRow w b) i := fun h => by rw [hib h]
  unfold threadAddress accessAddress pairValue
  simp only [if_true]
  rw [ofNat_emod, BitVec.ofInt_add, BitVec.ofInt_add, ← append_eq_ofInt, BitVec.ofInt_toInt]
  match ix, hib with
  | 0, _ => rfl
  | 1, hib => simp only [hib one_ne_zero, ofInt_toNat]
  | 2, hib => rw [hib two_ne_zero]; rfl
  | k + 3, hib => simp only [hib (by omega), BitVec.ofInt_mul, BitVec.ofInt_natCast, BitVec.ofNat_toNat]

theorem accessAddress_lt (w : Wave) (a b : BitVec 6) (ix n : Nat) (off : Int) (i : Nat) :
    accessAddress w true a b ix n off i < 2 ^ 64 := by
  simp only [accessAddress, if_true]
  omega

theorem addressUniform_iff {w : Wave} {a b : BitVec 6} {lo hi ib : VRow} {ix : Nat} (hlo : lo = fieldRow w a)
    (hhi : hi = fieldRow w (a + 1)) (hib : ix ≠ 0 → ib = fieldRow w b) :
    addressUniform true lo hi ib ix = true ↔ uniformAddress w true a b ix := by
  subst hlo hhi
  by_cases hix : ix = 0
  · simp [addressUniform, uniformAddress, rowIsU_iff, hix]
  · obtain rfl := hib hix
    simp [addressUniform, uniformAddress, rowIsU_iff, hix, and_assoc]

/-- Under a uniform address every thread has the same one. -/
theorem accessAddress_uniform {w : Wave} {a b : BitVec 6} {ix : Nat} (h : uniformAddress w true a b ix) (n : Nat) (off : Int)
    (i j : Nat) : accessAddress w true a b ix n off i = accessAddress w true a b ix n off j := by
  obtain ⟨hlo, hhi, hib⟩ := h
  have hsame : ∀ r : VRow, shapeRank r = 1 → rowAt r i = rowAt r j := fun r hr => rowAt_U ((rowIsU_iff r).mpr hr) i j
  unfold accessAddress pairValue
  rw [hsame _ hlo, hsame _ (hhi rfl)]
  cases ix with
  | zero => rfl
  | succ k => rw [hsame _ (hib k.succ_ne_zero)]

/-! ### The threads of a mask -/

theorem mem_threadsOf {m : Mask} {i : Nat} : i ∈ threadsOf m ↔ i < 64 ∧ m.getLsbD i = true := by
  simp [threadsOf]

theorem setBits_getLsbD (ts : List Nat) (m : Mask) {j : Nat} (hj : j < 64) :
    (ts.foldl (fun m i => setBit m i true) m).getLsbD j = (m.getLsbD j || ts.contains j) := by
  induction ts generalizing m with
  | nil => simp
  | cons t ts ih =>
    rw [List.foldl_cons, ih, setBit_getLsbD m t true hj]
    by_cases h : j = t <;> simp [h, Bool.or_comm]

/-- The threads of a mask set the bits of that mask. -/
theorem maskOfThreads_threadsOf (m : Mask) : maskOfThreads false m (threadsOf m) = m := by
  refine BitVec.eq_of_getLsbD_eq fun j hj => ?_
  rw [maskOfThreads, if_neg Bool.false_ne_true, setBits_getLsbD _ _ hj]
  simp [mem_threadsOf, hj]

theorem threadsOf_eq_nil {m : Mask} (h : threadsOf m = []) : m = 0 := by
  have := maskOfThreads_threadsOf m
  rw [h] at this
  exact this.symm

/-- The mask of a load's results is that of its threads, whether its access is made once or by every thread. -/
theorem maskOfThreads_performers (f : MemForm) (m : Mask) : maskOfThreads f.single m (performers f m) = m := by
  unfold performers
  cases f.single with
  | false => exact maskOfThreads_threadsOf m
  | true =>
    cases h : threadsOf m with
    | nil => exact (threadsOf_eq_nil h).symm
    | cons t ts => rfl

theorem mem_of_mem_performers {f : MemForm} {m : Mask} {i : Nat} (h : i ∈ performers f m) : i < 64 ∧ m.getLsbD i = true := by
  rw [performers] at h
  split at h
  · exact mem_threadsOf.mp (List.mem_of_mem_take h)
  · exact mem_threadsOf.mp h

end Sys2Proof.Machine
end

section
/-!
PROOFS. The frame of a decoding load (R26, R111, R123, R124): its checks pass, its threads translate, and its results become pending.
-/

namespace Sys2Proof.Machine

/-! ### A memory instruction ends (R109, R111) -/

/-- What a wave is after a memory instruction that left nothing over: past it, its registers as the slots of its stall count leave
them, with the results that were made pending. -/
structure PastMemory (w w' : Wave) (op : ThreadOp) (ps : List Pending) : Prop where
  id      : w'.id = w.id
  pc      : w'.pc = w.pc + BitVec.ofNat 64 (4 * op.words)
  phase   : w'.phase = .ready
  rest    : { w' with v := w.v, t := w.t, tv := w.tv, inflight := w.inflight, bad := w.bad, pc := w.pc, phase := w.phase,
                      pending := w.pending, stepDone := w.stepDone, replay := w.replay, missFailed := w.missFailed,
                      stallLeft := w.stallLeft, issue := w.issue, reached := w.reached } = w
  regs    : ∀ r, readReg w' r = landed w (1 + op.stall.toNat) r
  pending : w'.pending = ps

/-- The wave after an instruction that nothing of a memory pass or a watch hit follows. -/
theorem advanceBy_eq {w : Wave} (hrest : w.rest = 0) (hhits : w.hits = noHits) (op : ThreadOp) :
    advanceBy w op = { passSlots w op.stall.toNat with
      pc := w.pc + BitVec.ofNat 64 (4 * op.words), phase := .ready, stepDone := w.stepMode.isSome, replay := none,
      missFailed := false, stallLeft := op.stall.toNat, issue := some (issueOf w), reached := (0, 0) } := by
  have hfiles := (passSlots_law w op.stall.toNat).1.eq
  have hnone : (passSlots w op.stall.toNat).hits = noHits := by rw [hfiles]; exact hhits
  rw [advanceBy, if_neg (by simpa using hrest), settledWave, if_pos hnone]

theorem advanceBy_past {w x : Wave} {ps : List Pending} {rr : Nat × Nat} (hrest : w.rest = 0) (hhits : w.hits = noHits)
    (op : ThreadOp) (hx : x = { w with pending := ps, reached := rr }) : PastMemory w (advanceBy x op) op ps := by
  have hland : landed x (1 + op.stall.toNat) = landed w (1 + op.stall.toNat) := by
    funext r
    rw [hx]
    cases r <;> rfl
  have hread := readReg_passSlots x op.stall.toNat
  have hfiles := (passSlots_law x op.stall.toNat).1.eq
  rw [advanceBy_eq (by rw [hx]; exact hrest) (by rw [hx]; exact hhits)]
  generalize passSlots x op.stall.toNat = z at hread hfiles
  rw [hx] at hfiles
  refine ⟨by rw [hfiles], by rw [hx], rfl, by rw [hfiles], fun r => ?_, by rw [hfiles]⟩
  rw [← hland, ← hread]
  cases r <;> rfl

/-! ### The threads of a decoding load translate (R26, R127) -/

/-- A thread's address translates, and so does that of a second element that begins the following unit. -/
structure Found (s : State) (st : Standing) (f : MemForm) (r : Ready) : Prop where
  va    : f.addr r.thread = BitVec.ofNat 64 r.va
  short : r.va < 2 ^ 64
  here  : translate s st.ctx st.isle (BitVec.ofNat 64 r.va) f.access = .ok r.place
  fmt   : placeFmt r.place < 8
  after : if f.size = 8 ∧ placeFmt r.place ≠ 0 ∧ wholeBytes (placeFmt r.place) ≠ 0 ∧
      r.va % 65536 + wholeBytes (placeFmt r.place) = 65536 then
      ∃ p, r.next = some p ∧
        translate s st.ctx st.isle (BitVec.ofNat 64 (r.va + wholeBytes (placeFmt r.place))) f.access = .ok p
    else r.next = none

theorem Found.toNat {s : State} {st : Standing} {f : MemForm} {r : Ready} (h : Found s st f r) :
    (BitVec.ofNat 64 r.va).toNat = r.va := by
  rw [BitVec.toNat_ofNat, Nat.mod_eq_of_lt h.short]

theorem translateThread_found {s : State} {st : Standing} {f : MemForm} {r : Ready} (h : Found s st f r) (hd : f.decoding = true)
    (hhost : f.hostOk = true) (acc : XlatSet) :
    translateThread s st.ctx st.isle f r.thread acc = { acc with ready := acc.ready ++ [r] } := by
  have hafter := h.after
  unfold translateThread
  simp only [h.va, h.toNat, h.here, hhost, hd, elementBytes_eq h.fmt, Bool.not_true, Bool.false_and, Bool.false_eq_true, if_false,
    Bool.true_and, Bool.and_eq_true, beq_iff_eq, bne_iff_ne, and_assoc]
  split
  · next hcross =>
    rw [if_pos hcross] at hafter
    obtain ⟨p, hp, htranslate⟩ := hafter
    rw [← BitVec.ofNat_add, htranslate]
    dsimp only
    rw [← hp]
  · next hcross =>
    rw [if_neg hcross] at hafter
    rw [← hafter]

theorem translateAll_found {s : State} {st : Standing} {f : MemForm} {rs : List Ready} (h : ∀ r ∈ rs, Found s st f r)
    (hd : f.decoding = true) (hhost : f.hostOk = true) :
    translateAll s st.ctx st.isle f (rs.map (·.thread)) = ⟨rs, [], [], []⟩ := by
  have hfold : ∀ acc : XlatSet, (rs.map (·.thread)).foldl (fun acc i => translateThread s st.ctx st.isle f i acc) acc =
      { acc with ready := acc.ready ++ rs } := by
    induction rs with
    | nil => intro acc; simp
    | cons r rs ih =>
      intro acc
      rw [List.map_cons, List.foldl_cons, translateThread_found (h r (List.mem_cons_self ..)) hd hhost,
        ih fun x hx => h x (List.mem_cons_of_mem _ hx)]
      simp
  exact hfold _

theorem translateWave_found {s : State} {st : Standing} {f : MemForm} {rs : List Ready} (w : Wave) (h : ∀ r ∈ rs, Found s st f r)
    (hd : f.decoding = true) (hhost : f.hostOk = true) : translateWave s st w f (rs.map (·.thread)) = ⟨rs, [], [], []⟩ := by
  rw [translateWave, translateAll_found h hd hhost]
  split <;> rfl

/-! ### No race, no mark, no watch hit -/

/-- No page that a thread reads from is checked for races. -/
def Unchecked (r : Ready) : Prop := placeChecked r.place = false ∧ ∀ p, r.next = some p → placeChecked p = false

theorem touchesOf_unchecked {r : Ready} (h : Unchecked r) (f : MemForm) : ∀ t ∈ touchesOf f r, t.checked = false := by
  obtain ⟨hplace, hnext⟩ := h
  intro t ht
  unfold touchesOf at ht
  dsimp only at ht
  rw [hplace] at ht
  split at ht
  · rw [List.mem_singleton.mp ht]
  · rcases List.mem_append.mp ht with ht | hscale
    · rcases List.mem_append.mp ht with hfirst | hsecond
      · rw [List.mem_singleton.mp hfirst]
      · split at hsecond
        · cases hsecond
        · cases hp : r.next with
          | none =>
            rw [hp] at hsecond
            rw [List.mem_singleton.mp hsecond]
          | some p =>
            rw [hp] at hsecond
            rw [List.mem_singleton.mp hsecond]
            exact hnext p hp
    · split at hscale
      · rcases List.mem_append.mp hscale with hblock | hband
        · rw [List.mem_singleton.mp hblock]
        · split at hband
          · rw [List.mem_singleton.mp hband]
          · cases hband
      · cases hscale

theorem globalRacesOf_unchecked {s : State} (hbad : s.platform.badFar = []) {r : Ready} (h : Unchecked r) (f : MemForm) (b : Block)
    (x : Accessor) (strong : Bool) (thread : Nat) : globalRacesOf s b x false strong thread (touchesOf f r) = [] := by
  rw [globalRacesOf, List.filterMap_eq_nil_iff]
  intro t ht
  simp [farBad, hbad, touchesOf_unchecked h f t ht]

/-- Loading only caches leaves. -/
def OnlyCached (s t : State) : Prop := t = { s with cached := t.cached }

theorem OnlyCached.eq {s t : State} (h : OnlyCached s t) : t = { s with cached := t.cached } := h

theorem cacheLeaf_onlyCached (s : State) (c : Context) (isle : Nat) (va : Dword) : OnlyCached s (cacheLeaf s c isle va) := by
  unfold cacheLeaf
  dsimp only
  split
  · rfl
  · split <;> rfl

theorem OnlyCached.trans {a b c : State} (h : OnlyCached a b) (k : OnlyCached b c) : OnlyCached a c := by
  unfold OnlyCached at *
  rw [h] at k
  exact k

theorem OnlyCached.foldl {α : Type} {f : State → α → State} {xs : List α} (h : ∀ s, ∀ x ∈ xs, OnlyCached s (f s x)) (s : State) :
    OnlyCached s (xs.foldl f s) := by
  induction xs generalizing s with
  | nil => rfl
  | cons x xs ih =>
    exact (h s x (List.mem_cons_self ..)).trans (ih (fun t y hy => h t y (List.mem_cons_of_mem _ hy)) (f s x))

theorem foldl_marks_none {ts : List Touch} (h : ∀ t ∈ ts, t.checked = false) (mark : State → Touch → State) (s : State) :
    ts.foldl (fun s t => if t.checked then mark s t else s) s = s := by
  induction ts with
  | nil => rfl
  | cons t ts ih =>
    rw [List.foldl_cons, if_neg (by simp [h t (List.mem_cons_self ..)])]
    exact ih fun x hx => h x (List.mem_cons_of_mem _ hx)

theorem presentAccesses_quiet {s : State} {w : Wave} (h : watchOn s w = none) (agt : Bool) (xs : List WatchAccess) :
    presentAccesses s w agt xs = (s, w) := by
  rw [presentAccesses, presentWave, h]

/-! ### A decoding load performs -/

/-- The words of the threads of a decoding load. -/
def decodedWords (s : State) (size : Nat) (rs : List Ready) : List (Nat × List Word) := rs.map fun r => (r.thread, decodeLoad s size r)

/-- The results that a load makes pending: none where no thread performs. -/
def loadResults (w : Wave) (d : BitVec 6) (n : Nat) (single : Bool) (act : Mask) (rs : List Ready) (vals : List (Nat × List Word)) :
    List Pending :=
  if maskOfThreads single act (rs.map (·.thread)) = 0 then w.pending
  else w.pending ++ [⟨loadRows w d n single vals, maskOfThreads single act (rs.map (·.thread)), none, peerThreads rs⟩]

theorem reach_addPending (w : Wave) (levels : List Nat) (m : Mask) (p : Pending) :
    (if m = 0 then reach w levels 0 else addPending (reach w levels 0) p) =
      { w with pending := if m = 0 then w.pending else w.pending ++ [p], reached := (reach w levels 0).reached } := by
  split <;> rfl

theorem performLoadGlobal_decoding {s : State} {w : Wave} {f : MemForm} {rs : List Ready} (b : Block) (st : Standing) (op : ThreadOp)
    (d : BitVec 6) (l : LoadSpec) (act : Mask) (hrest : w.rest = 0) (hhits : w.hits = noHits) (hquiet : watchOn s w = none)
    (hd : f.decoding = true) (hchecks : ∀ r ∈ rs, Unchecked r) :
    ∃ t w', performLoadGlobal s w b st op d l f act ⟨rs, [], [], []⟩ = t.putWave w' ∧ OnlyCached s t ∧
      PastMemory w w' op (loadResults w d (dataRegs l.dt) f.single act rs (decodedWords s f.size rs)) := by
  have hcached : OnlyCached s (rs.foldl (fun s r => (touchesOf f r).foldl (fun s t =>
      if t.checked then markGranules s b (accessorWave b w) false f.strong t.loc.addr t.len else s)
      (cacheLeaf s st.ctx st.isle (BitVec.ofNat 64 r.va))) s) := by
    refine OnlyCached.foldl (fun t r hr => ?_) s
    rw [foldl_marks_none (touchesOf_unchecked (hchecks r hr) f)]
    exact cacheLeaf_onlyCached ..
  unfold performLoadGlobal
  simp only [hd, if_true]
  generalize rs.foldl _ s = t at hcached
  rw [reach_addPending]
  have hpast := fun rr => advanceBy_past (ps := loadResults w d (dataRegs l.dt) f.single act rs (decodedWords s f.size rs)) (rr := rr)
    hrest hhits op rfl
  have hsame : ∀ ps rr, watchOn t { w with pending := ps, reached := rr } = none := by
    intro ps rr
    rw [← hquiet, hcached.eq]
    rfl
  rw [presentAccesses_quiet (hsame _ _)]
  exact ⟨t, _, rfl, hcached, hpast _⟩

/-- Every check of a decoding load passes: its threads' addresses, their translations, their alignment and races. -/
theorem loadGlobal_decoding {s : State} {w : Wave} {b : Block} {st : Standing} {f : MemForm} {rs : List Ready} (op : ThreadOp)
    {d : BitVec 6} {l : LoadSpec} {act : Mask} (hd : f.decoding = true) (hglob : f.glob = true) (hhost : f.hostOk = true)
    (hts : performers f act = rs.map (·.thread)) (hshape : loadShapeFault w d (dataRegs l.dt) f.single = none)
    (hfound : ∀ r ∈ rs, Found s st f r) (hcanon : ∀ r ∈ rs, canonical (BitVec.ofNat 64 r.va) = true)
    (halign : ∀ r ∈ rs, decodeAligned (placeFmt r.place) f.size r.va = true) (hbad : s.platform.badFar = [])
    (hchecks : ∀ r ∈ rs, Unchecked r) :
    loadGlobal s w b st op d l f act = performLoadGlobal s w b st op d l f act ⟨rs, [], [], []⟩ := by
  have haddress : addressFault f b (performers f act) = none := by
    have hall : (rs.any fun r => !canonical (f.addr r.thread)) = false := by
      rw [List.any_eq_false]
      intro r hr
      simp [(hfound r hr).va, hcanon r hr]
    simp [addressFault, hts, hglob, hd, List.any_map, Function.comp_def, hall]
  have haligned : (rs.any fun r => !decodeAligned (placeFmt r.place) f.size r.va) = false := by
    rw [List.any_eq_false]
    intro r hr
    simp [halign r hr]
  have hraces : (rs.flatMap fun r => globalRacesOf s b (accessorWave b w) false f.strong r.thread (touchesOf f r)) = [] := by
    rw [List.flatMap_eq_nil_iff]
    exact fun r hr => globalRacesOf_unchecked hbad (hchecks r hr) ..
  unfold loadGlobal
  simp only [hshape, haddress]
  rw [hts, translateWave_found w hfound hd hhost]
  simp only [hraces, haligned, List.isEmpty_nil, Bool.not_true, Bool.false_eq_true, if_false, Bool.and_false]
  rfl

/-- A memory instruction whose operands are ready goes on to its body with the rows that its registers hold. -/
theorem runMem_go {i : Instr} {op : ThreadOp} {s : State} {w : Wave} {b : Block} {st : Standing} (ht : WaveTurn s w)
    (hs : staticLegal i = true) (hr : OperandsReady w op.reads op.writes) (hb : s.block? w.block = some b)
    (hst : waveStanding s w = some st) (each : Bool) (k : State → Wave → Block → Standing → (BitVec 6 → VRow) → State) :
    runMem i op each s k = .next (k (nextFresh s freshSpan) w b st (sourceRow (each || readsG w op) w s.fresh)) := by
  rw [runMem, withWave, ht.turn]
  dsimp only
  rw [ht.here]
  dsimp only
  rw [memStep, threadCheck_go i op w hs hr, hst, hb]

/-! ### The results that are pending (R111, R124) -/

theorem filterMap_range {α : Type} (g : Nat → Option α) (n : Nat) (h : ∀ j, j < n → (g j).isSome = true) :
    ((List.range n).filterMap g).length = n ∧ ∀ j, j < n → ((List.range n).filterMap g)[j]? = g j := by
  induction n with
  | zero => exact ⟨rfl, fun j hj => absurd hj (Nat.not_lt_zero j)⟩
  | succ n ih =>
    obtain ⟨hlen, hget⟩ := ih fun j hj => h j (Nat.lt_succ_of_lt hj)
    obtain ⟨y, hy⟩ := Option.isSome_iff_exists.mp (h n n.lt_succ_self)
    rw [List.range_succ, List.filterMap_append, show [n].filterMap g = [y] by simp [hy]]
    refine ⟨by simp [hlen], fun j hj => ?_⟩
    rcases Nat.lt_succ_iff_lt_or_eq.mp hj with hj | rfl
    · rw [List.getElem?_append_left (by omega), hget j hj]
    · rw [List.getElem?_append_right (by omega), hlen, Nat.sub_self, hy]
      rfl

theorem find_thread {ts : List Nat} {i : Nat} (h : i ∈ ts) (words : Nat → List Word) :
    (ts.map fun i => (i, words i)).find? (fun q => q.1 = i) = some (i, words i) := by
  induction ts with
  | nil => cases h
  | cons t ts ih =>
    by_cases ht : t = i
    · simp [ht]
    · rw [List.map_cons, List.find?_cons_of_neg (by simpa using ht)]
      exact ih ((List.mem_cons.mp h).resolve_left (Ne.symm ht))

/-- The row that a load delivers: one value where the access is made once, otherwise each thread's own (R124). -/
def resultRow (single : Bool) (vals : List (Nat × List Word)) (j : Nat) : VRow :=
  if single then .u ((vals.head?.map fun q => q.2.getD j 0).getD 0)
  else gRow fun i => ((vals.find? fun q => q.1 = i).map fun q => q.2.getD j 0).getD 0

theorem rowAt_resultRow {f : MemForm} {act : Mask} {words : Nat → List Word} {i : Nat} (hi : i < 64) (hact : act.getLsbD i = true)
    (hsame : f.single = true → ∀ k, k < 64 → act.getLsbD k = true → words k = words i) (j : Nat) :
    rowAt (resultRow f.single ((performers f act).map fun i => (i, words i)) j) i = (words i).getD j 0 := by
  have hmem := mem_threadsOf.mpr ⟨hi, hact⟩
  unfold resultRow performers
  cases hsingle : f.single with
  | false =>
    simp only [Bool.false_eq_true, if_false]
    rw [rowAt_gRow _ _ hi, find_thread hmem]
    rfl
  | true =>
    cases hts : threadsOf act with
    | nil => rw [hts] at hmem; cases hmem
    | cons k ks =>
      obtain ⟨hk, hkact⟩ := mem_threadsOf.mp (hts ▸ List.mem_cons_self (a := k) (l := ks))
      rw [← hsame hsingle k hk hkact]
      rfl

theorem pends_loadResults {w w' : Wave} {f : MemForm} {act : Mask} {d : BitVec 6} {n : Nat} {words : Nat → List Word} {rs : List Ready}
    (hregs : ∀ j, j < n → (regOf w (d + BitVec.ofNat 6 j)).isSome = true) (hts : rs.map (·.thread) = performers f act)
    (hsame : f.single = true → ∀ i k, i < 64 → k < 64 → act.getLsbD i = true → act.getLsbD k = true → words k = words i)
    (hp : w'.pending = loadResults w d n f.single act rs ((performers f act).map fun i => (i, words i))) :
    Pends w w' d n act fun i j => (words i).getD j 0 := by
  rw [loadResults, hts, maskOfThreads_performers] at hp
  unfold Pends
  split
  · next hzero => rw [hp, if_pos hzero]
  · next hsome =>
    rw [if_neg hsome] at hp
    obtain ⟨hlen, hget⟩ := filterMap_range (fun j => (regOf w (d + BitVec.ofNat 6 j)).map fun r =>
      (r, resultRow f.single ((performers f act).map fun i => (i, words i)) j)) n (by simpa using hregs)
    refine ⟨_, hp, rfl, rfl, hlen, fun j hj => ?_⟩
    obtain ⟨r, hr⟩ := Option.isSome_iff_exists.mp (hregs j hj)
    refine ⟨r, resultRow f.single ((performers f act).map fun i => (i, words i)) j, (hget j hj).trans (by rw [hr]; rfl), hr,
      fun i hi hact => rowAt_resultRow hi hact (fun h k hk hkact => ?_) j⟩
    exact hsame h i k hi hk hact hkact

theorem loadShapeFault_none {w : Wave} {d : BitVec 6} {n : Nat} {single : Bool}
    (h : ∀ j, j < n → shapeFits (fieldRow w (d + BitVec.ofNat 6 j)) (if single then .u 0 else .g []) = true) :
    loadShapeFault w d n single = none := by
  rw [loadShapeFault, Option.map_eq_none_iff, List.find?_eq_none]
  intro j hj
  rw [h j (List.mem_range.mp hj)]
  simp

theorem memoryDone_past {s t : State} {w w' : Wave} {op : ThreadOp} {ps : List Pending} (hw : s.wave? w.id = some w)
    (h : PastMemory w w' op ps) (hwaves : t.waves = s.waves) (ds : List (BitVec 6)) :
    MemoryDone s w op.words op.stall ds (t.putWave w') w' where
  wave := State.putWave_wave_same t w' w.id w h.id (by rw [State.wave?, hwaves]; exact hw)
  others j hj := (State.putWave_wave_other t w' j (by rw [h.id]; exact hj)).trans (by rw [State.wave?, hwaves, State.wave?])
  pc := h.pc
  phase := h.phase
  rest := h.rest
  regs r _ := h.regs r

end Sys2Proof.Machine
end

section
/-!
PROOFS. LD.F32 and LD.F32X2 (R127), and O14.
-/

namespace Sys2Proof.Machine

/-! ### LD.F32 and LD.F32X2 (R127) -/

theorem loadPass_whole {w : Wave} (h : w.rest = 0) (f : MemForm) : loadPass f w = w := by
  rw [loadPass]
  split
  · rfl
  · rw [← h]

theorem exec_ld (f : TR) (x : TX) (s : State) : exec (.ld f x) s = runLoad (.ld f x) f true (plainSpec x) s := rfl

/-- What the form of a decoding load says, by its words. -/
structure DecodingForm (w : Wave) (f : TR) (l : LoadFields) (form : MemForm) : Prop where
  decoding : form.decoding = true
  glob     : form.glob = true
  hostOk   : form.hostOk = true
  access   : form.access = .load
  size     : form.size = dtBytes l.dt
  single   : form.single = true ↔ uniformAddress w true f.a f.b l.ix
  addr     : ∀ i, form.addr i = BitVec.ofNat 64 (accessAddress w true f.a f.b l.ix (dtBytes l.dt) l.off i)

theorem dtBytes_eq {dt : Nat} (h : dt = 7 ∨ dt = 8) : dataBytes dt = dtBytes dt ∧ dataRegs dt = dtRegs dt ∧ 7 ≤ dt := by
  rcases h with rfl | rfl <;> decide

theorem dtRegs_decoding {dt : Nat} (h : dt = 7 ∨ dt = 8) : (dtRegs dt = 1 ∨ dtRegs dt = 2) ∧ 4 * dtRegs dt = dtBytes dt := by
  rcases h with rfl | rfl <;> decide

theorem loadForm_decoding {w : Wave} {f : TR} {x : TX} {src : BitVec 6 → VRow} (hdt : (plainFields x).dt = 7 ∨ (plainFields x).dt = 8)
    (hlo : src f.a = fieldRow w f.a) (hhi : src (f.a + 1) = fieldRow w (f.a + 1))
    (hib : (plainFields x).ix ≠ 0 → src f.b = fieldRow w f.b) : DecodingForm w f (plainFields x) (loadForm true (plainSpec x) src f.a f.b) := by
  obtain ⟨hbytes, -, h7⟩ := dtBytes_eq hdt
  refine ⟨?_, rfl, rfl, rfl, hbytes, addressUniform_iff hlo hhi hib, fun i => ?_⟩
  · exact decide_eq_true h7
  · have hoff : (x.i.signExtend 64).toInt = x.i.toInt := BitVec.toInt_signExtend_of_le (by decide)
    have haddr := threadAddress_eq hlo hhi hib (dataBytes (plainFields x).dt) (x.i.signExtend 64) i
    rw [hoff] at haddr
    rw [← hbytes]
    exact haddr

/-- Two threads with one address read from one place. -/
theorem Found.unique {s : State} {st : Standing} {f : MemForm} {r r' : Ready} (h : Found s st f r) (h' : Found s st f r')
    (hva : r'.va = r.va) : r' = { r with thread := r'.thread } := by
  have hplace : r'.place = r.place := by
    have hhere := h'.here
    rw [hva, h.here] at hhere
    exact (Xlat.ok.inj hhere).symm
  have hnext : r'.next = r.next := by
    have hafter := h.after
    have hafter' := h'.after
    rw [hva, hplace] at hafter'
    split at hafter
    · next hcross =>
      rw [if_pos hcross] at hafter'
      obtain ⟨p, hp, htranslate⟩ := hafter
      obtain ⟨p', hp', htranslate'⟩ := hafter'
      rw [htranslate] at htranslate'
      rw [hp, hp', Xlat.ok.inj htranslate']
    · next hcross =>
      rw [if_neg hcross] at hafter'
      rw [hafter, hafter']
  calc r' = ⟨r'.thread, r'.va, r'.place, r'.next⟩ := rfl
    _ = { r with thread := r'.thread } := by rw [hva, hplace, hnext]

/-- The destinations of a load have the shape of its result (R124). -/
theorem load_shapeFits {w : Wave} {f : TR} {l : LoadFields} {form : MemForm} (hform : DecodingForm w f l form)
    (hfits : loadFits w true f l) (hlegal : ∀ j, j < dtRegs l.dt → 1 ≤ shapeRank (fieldRow w (f.d + BitVec.ofNat 6 j))) :
    ∀ j, j < dtRegs l.dt → shapeFits (fieldRow w (f.d + BitVec.ofNat 6 j)) (if form.single then .u 0 else .g []) = true := by
  intro j hj
  refine shapeFits_of_rank _ _ ?_ (hlegal j hj)
  split
  · exact hlegal j hj
  · next hsingle =>
    have hwide := hfits.resolve_left fun h => hsingle (hform.single.mpr h)
    rw [hwide j hj]
    rfl

/-- The destination of a decoding load is one register or a pair. -/
theorem mem_dtOperands {dt : Nat} (h : dt = 7 ∨ dt = 8) (d : BitVec 6) {j : Nat} (hj : j < dtRegs dt) :
    ∃ o ∈ dtOperands dt d, d + BitVec.ofNat 6 j ∈ o.fields := by
  have hzero : d + BitVec.ofNat 6 0 = d := BitVec.add_zero d
  rcases h with rfl | rfl
  · obtain rfl : j = 0 := Nat.lt_one_iff.mp hj
    exact ⟨single d, List.mem_singleton_self _, by rw [hzero]; exact List.mem_singleton_self d⟩
  · refine ⟨pairAt d, List.mem_singleton_self _, ?_⟩
    match j, hj with
    | 0, _ => rw [hzero]; exact List.mem_cons_self ..
    | 1, _ => exact List.mem_cons_of_mem _ (List.mem_singleton_self _)

theorem regOf_of_legal {w : Wave} {f : BitVec 6} (h : fieldLegal w f = true) : (regOf w f).isSome = true := by
  unfold fieldLegal at h
  cases hr : regOf w f with
  | none => rw [hr] at h; cases h
  | some r => rfl

/-- One thread of a decoding load, as it is once its address is translated. -/
def readyOf (addr : Nat → Nat) (place : Nat → Place) (next : Nat → Option Place) (i : Nat) : Ready := ⟨i, addr i, place i, next i⟩

theorem decodeAligned_of {fmt size o : Nat} (h8 : fmt < 8)
    (h : if fmt = 0 ∨ areaBytes fmt ≤ o % 65536 then o % size = 0 else o % max (wholeBytes fmt) 1 = 0) :
    decodeAligned fmt size o = true := by
  unfold decodeAligned
  rw [elementBytes_eq h8]
  change (if fmt = 0 then _ else if o % 65536 < areaBytes fmt then _ else _) = true
  by_cases h0 : fmt = 0
  · rw [if_pos (.inl h0)] at h
    simp [h0, h]
  · by_cases ha : areaBytes fmt ≤ o % 65536
    · rw [if_pos (.inr ha)] at h
      rw [if_neg h0, if_neg (by omega), h]
      rfl
    · rw [if_neg (by tauto)] at h
      rw [if_neg h0, if_pos (by omega), h]
      rfl

theorem dataFields_eq {dt : Nat} (h : dt = 7 ∨ dt = 8) (d : BitVec 6) : dataFields dt d = dtOperands dt d := by
  rcases h with rfl | rfl <;> rfl

/-- A decoding load whose operands are ready goes on to its checks, with a form that says what its words say. -/
theorem exec_ld_ready {f : TR} {x : TX} {s : State} {w : Wave} {b : Block} {st : Standing} (ht : WaveTurn s w)
    (hs : staticLegal (.ld f x) = true) (hdt : (plainFields x).dt = 7 ∨ (plainFields x).dt = 8)
    (hr : OperandsReady w (addressOperands true f.a f.b (plainFields x).ix) (dtOperands (plainFields x).dt f.d))
    (hb : s.block? w.block = some b) (hst : waveStanding s w = some st) :
    ∃ form, DecodingForm w f (plainFields x) form ∧ exec (.ld f x) s = .next (loadGlobal (nextFresh s freshSpan) w b st
      (loadOp f true (plainSpec x)) f.d (plainSpec x) form (memThreads w f.g)) := by
  have hready : OperandsReady w (loadOp f true (plainSpec x)).reads (loadOp f true (plainSpec x)).writes := by
    rw [← dataFields_eq hdt] at hr
    exact hr
  have hsrc := fun o ho g hg => hr.source (readsG w (loadOp f true (plainSpec x))) s.fresh o ho g hg
  refine ⟨loadForm true (plainSpec x) (sourceRow (readsG w (loadOp f true (plainSpec x))) w s.fresh) f.a f.b,
    loadForm_decoding hdt ?_ ?_ fun hix => ?_, ?_⟩
  · exact hsrc (pairAt f.a) (List.mem_cons_self ..) _ (List.mem_cons_self ..)
  · exact hsrc (pairAt f.a) (List.mem_cons_self ..) _ (List.mem_cons_of_mem _ (List.mem_singleton_self _))
  · refine hsrc (single f.b) (List.mem_cons_of_mem _ ?_) _ (List.mem_singleton_self _)
    rw [if_neg hix]
    exact List.mem_singleton_self _
  · rw [exec_ld, runLoad, runMem_go ht hs hready hb hst]
    simp only [loadPass_whole hr.whole, if_true, Bool.false_or]

/-- What is said of a following unit, where one is read. -/
theorem of_next {c : Prop} [Decidable c] {P : Place → Prop} {o : Option Place} (h : if c then ∃ p, o = some p ∧ P p else o = none)
    {p : Place} (hp : o = some p) : P p := by
  split at h
  · obtain ⟨q, hq, hP⟩ := h
    rwa [Option.some.inj (hp.symm.trans hq)]
  · cases h.symm.trans hp

/-- Each thread of a decoding load translates, with the following unit for a second element there. -/
theorem found_readyOf {s : State} {st : Standing} {w : Wave} {f : TR} {l : LoadFields} {form : MemForm} {place : Nat → Place}
    {next : Nat → Option Place} {i : Nat} (hform : DecodingForm w f l form) (hdt : l.dt = 7 ∨ l.dt = 8)
    (h8 : placeFmt (place i) < 8)
    (hhere : translate s st.ctx st.isle (BitVec.ofNat 64 (accessAddress w true f.a f.b l.ix (dtBytes l.dt) l.off i)) .load =
      .ok (place i))
    (hafter : let va := accessAddress w true f.a f.b l.ix (dtBytes l.dt) l.off i
      let n := wholeBytes (placeFmt (place i))
      if l.dt = 8 ∧ placeFmt (place i) ≠ 0 ∧ n ≠ 0 ∧ va % 65536 + n = 65536 then
        ∃ p, next i = some p ∧ translate s st.ctx st.isle (BitVec.ofNat 64 (va + n)) .load = .ok p ∧ placeChecked p = false ∧
          placeFmt p < 8
      else next i = none) :
    Found s st form (readyOf (accessAddress w true f.a f.b l.ix (dtBytes l.dt) l.off) place next i) := by
  have hsize : form.size = 8 ↔ l.dt = 8 := by
    rw [hform.size]
    rcases hdt with h | h <;> rw [h] <;> decide
  refine ⟨hform.addr i, accessAddress_lt .., by rw [hform.access]; exact hhere, h8, ?_⟩
  dsimp only at hafter
  rw [hform.access]
  split at hafter
  · next hcross =>
    obtain ⟨p, hp, htranslate, -⟩ := hafter
    rw [if_pos (by rw [hsize]; exact hcross)]
    exact ⟨p, hp, htranslate⟩
  · next hcross =>
    rw [if_neg (by rw [hsize]; exact hcross)]
    exact hafter

/-- What holds of every thread of a mask holds of the threads whose accesses are made. -/
theorem forall_performers {f : MemForm} {m : Mask} {ready : Nat → Ready} {P : Ready → Prop}
    (h : ∀ i, i < 64 → m.getLsbD i = true → P (ready i)) : ∀ r ∈ (performers f m).map ready, P r := by
  intro r hr
  obtain ⟨i, hi, rfl⟩ := List.mem_map.mp hr
  obtain ⟨hi64, hact⟩ := mem_of_mem_performers hi
  exact h i hi64 hact

theorem thread_readyOf (addr : Nat → Nat) (place : Nat → Place) (next : Nat → Option Place) (ts : List Nat) :
    (ts.map (readyOf addr place next)).map (·.thread) = ts := by
  rw [List.map_map]
  exact List.map_id _

/-- An access that is made once delivers to every thread what it delivers to one. -/
theorem decodeLoad_uniform {s : State} {st : Standing} {w : Wave} {f : TR} {l : LoadFields} {form : MemForm} {place : Nat → Place}
    {next : Nat → Option Place} {i k : Nat} (hform : DecodingForm w f l form) (hsingle : form.single = true)
    (hi : Found s st form (readyOf (accessAddress w true f.a f.b l.ix (dtBytes l.dt) l.off) place next i))
    (hk : Found s st form (readyOf (accessAddress w true f.a f.b l.ix (dtBytes l.dt) l.off) place next k)) (size : Nat) :
    decodeLoad s size (readyOf (accessAddress w true f.a f.b l.ix (dtBytes l.dt) l.off) place next k) =
      decodeLoad s size (readyOf (accessAddress w true f.a f.b l.ix (dtBytes l.dt) l.off) place next i) := by
  rw [hi.unique hk (accessAddress_uniform (hform.single.mp hsingle) ..)]
  rfl

/-- Settles O14: each thread's address translates, every check of the load passes, and the words that become pending are the
elements that the pages' formats name. -/
theorem decodingLoads : Obligations.DecodingLoads := by
  intro f x s w b st place next l addr part ht hs hdt hr hfits hb hst hquiet hbad hthreads
  obtain ⟨-, hregs, -⟩ := dtBytes_eq hdt
  obtain ⟨hwords, hsize⟩ := dtRegs_decoding hdt
  obtain ⟨form, hform, hexec⟩ := exec_ld_ready ht hs hdt hr hb hst
  have hfound : ∀ i, i < 64 → part.getLsbD i = true → Found (nextFresh s freshSpan) st form (readyOf addr place next i) := by
    intro i hi hact
    obtain ⟨-, hhere, -, h8, -, hafter⟩ := hthreads i hi hact
    exact found_readyOf (s := nextFresh s freshSpan) hform hdt h8 hhere hafter
  have hchecks : ∀ i, i < 64 → part.getLsbD i = true → Unchecked (readyOf addr place next i) := by
    intro i hi hact
    obtain ⟨-, -, hplace, -, -, hafter⟩ := hthreads i hi hact
    exact ⟨hplace, fun p hp => (of_next hafter hp).2.1⟩
  have halign : ∀ i, i < 64 → part.getLsbD i = true → decodeAligned (placeFmt (place i)) form.size (addr i) = true := by
    intro i hi hact
    obtain ⟨-, -, -, h8, haligned, -⟩ := hthreads i hi hact
    rw [hform.size]
    exact decodeAligned_of h8 haligned
  have hdeclared : ∀ j, j < dtRegs l.dt → fieldLegal w (f.d + BitVec.ofNat 6 j) = true ∧
      1 ≤ shapeRank (fieldRow w (f.d + BitVec.ofNat 6 j)) := by
    intro j hj
    obtain ⟨o, ho, hmem⟩ := mem_dtOperands hdt f.d hj
    exact ⟨hr.legal o (List.mem_append_right _ ho) _ hmem, hr.declared o (List.mem_append_right _ ho) _ hmem⟩
  have hshape : loadShapeFault w f.d (dataRegs l.dt) form.single = none := by
    rw [hregs]
    exact loadShapeFault_none (load_shapeFits hform hfits fun j hj => (hdeclared j hj).2)
  have hunchecked := forall_performers (f := form) hchecks
  rw [loadGlobal_decoding (l := plainSpec x) _ hform.decoding hform.glob hform.hostOk (thread_readyOf addr place next _).symm hshape
    (forall_performers hfound) (forall_performers fun i hi hact => (hthreads i hi hact).1)
    (forall_performers halign) hbad hunchecked] at hexec
  obtain ⟨t, w', hperform, hcached, hpast⟩ := performLoadGlobal_decoding (s := nextFresh s freshSpan) b st
    (loadOp f true (plainSpec x)) f.d (plainSpec x) part hr.whole hr.unhit hquiet hform.decoding hunchecked
  rw [hperform] at hexec
  refine ⟨_, w', fun i j => (decodeLoad s (dtBytes l.dt) (readyOf addr place next i)).getD j 0, hexec, ?_, ?_, ?_, ?_⟩
  · exact memoryDone_past ht.here hpast (by rw [hcached.eq]; rfl) _
  · rw [hcached.eq]
    rfl
  · rw [← hregs, ← hform.size]
    refine pends_loadResults (f := form) (by rw [hregs]; exact fun j hj => regOf_of_legal (hdeclared j hj).1)
      (thread_readyOf addr place next _) (fun hsingle i k hi hk hact hkact => ?_) ?_
    · exact decodeLoad_uniform hform hsingle (hfound i hi hact) (hfound k hk hkact) _
    · rw [hpast.pending, decodedWords, List.map_map]
      rfl
  · intro i j hi hact hj
    rw [← hsize]
    obtain ⟨-, -, -, h8, -, hafter⟩ := hthreads i hi hact
    exact decodeLoad_correct s (r := readyOf addr place next i) hwords hj h8 fun p hp => (of_next hafter hp).2.2

end Sys2Proof.Machine
end

section
/-!
PROOFS. Rounding a magnitude to an integer multiple of a unit under each mode (R38), and the numbers that round alike.
-/

namespace Sys2Proof.Machine

/-! ### Rounding a magnitude to an integer (R38) -/

/-- What a mode means for the magnitude of a number of a sign (R38). -/
inductive Direction where
  | nearest | down | up

def directionOf : RoundMode → Bool → Direction
  | .rne, _ => .nearest
  | .rtz, _ => .down
  | .rup, neg => if neg then .down else .up
  | .rdn, neg => if neg then .up else .down

section
variable {K : Type*} [Field K] [LinearOrder K] [IsStrictOrderedRing K]

/-- q is the magnitude v rounded to an integer, a tie to the even one. -/
def RoundsInt (d : Direction) (v : K) (q : Nat) : Prop :=
  match d with
  | .nearest => (2 * q - 1 ≤ 2 * v ∧ 2 * v ≤ 2 * q + 1) ∧ (q % 2 = 1 → 2 * q - 1 < 2 * v ∧ 2 * v < 2 * q + 1)
  | .down => q ≤ v ∧ v < q + 1
  | .up => q - 1 < v ∧ v ≤ q

theorem roundsInt_self (d : Direction) (q : Nat) : RoundsInt d (q : K) q := by
  cases d <;> simp [RoundsInt]

/-- What a direction adds to a quotient q where r of p is left over. -/
def carryOf (d : Direction) (q r p : Nat) : Nat :=
  match d with
  | .nearest => if p < 2 * r ∨ 2 * r = p ∧ q % 2 = 1 then 1 else 0
  | .down => 0
  | .up => if r = 0 then 0 else 1

theorem carryOf_zero (d : Direction) (q : Nat) {p : Nat} (hp : 0 < p) : carryOf d q 0 p = 0 := by
  cases d <;> simp [carryOf, hp.ne]

theorem roundShift_eq (mode : RoundMode) (neg : Bool) (num sh : Nat) : roundShift mode neg num sh =
    num / 2 ^ sh + carryOf (directionOf mode neg) (num / 2 ^ sh) (num % 2 ^ sh) (2 ^ sh) := by
  cases mode with
  | rne =>
    simp only [roundShift, directionOf, carryOf, Bool.or_eq_true, Bool.and_eq_true, decide_eq_true_eq, beq_iff_eq, gt_iff_lt]
    split <;> rfl
  | rtz => rfl
  | rup => cases neg <;> by_cases h : num % 2 ^ sh = 0 <;> simp [roundShift, directionOf, carryOf, h]
  | rdn => cases neg <;> by_cases h : num % 2 ^ sh = 0 <;> simp [roundShift, directionOf, carryOf, h]

theorem roundsInt_roundShift (mode : RoundMode) (neg : Bool) (num sh : Nat) :
    RoundsInt (directionOf mode neg) ((num : K) / 2 ^ sh) (roundShift mode neg num sh) := by
  have hlt : num % 2 ^ sh < 2 ^ sh := Nat.mod_lt _ (Nat.two_pow_pos _)
  have hdiv : 2 ^ sh * (num / 2 ^ sh) + num % 2 ^ sh = num := Nat.div_add_mod num (2 ^ sh)
  rw [roundShift_eq]
  generalize num / 2 ^ sh = q at *
  generalize num % 2 ^ sh = r at *
  have hp : (0 : K) < 2 ^ sh := by positivity
  have hv : (num : K) / 2 ^ sh = q + r / 2 ^ sh := by
    rw [← hdiv]
    push_cast
    field_simp
  have hr : (r : K) / 2 ^ sh < 1 := by rw [div_lt_one hp]; exact_mod_cast hlt
  have hr0 : 0 ≤ (r : K) / 2 ^ sh := by positivity
  rw [hv]
  cases directionOf mode neg with
  | nearest =>
    have hmiddle : 2 * ((r : K) / 2 ^ sh) = 2 * r / 2 ^ sh := by ring
    rw [carryOf]
    split
    · next hup =>
      have hhalf : 1 ≤ 2 * ((r : K) / 2 ^ sh) := by
        rw [hmiddle, one_le_div hp]
        exact_mod_cast (show 2 ^ sh ≤ 2 * r by omega)
      refine ⟨by push_cast; constructor <;> linarith, fun hodd => ?_⟩
      have hhalf : 1 < 2 * ((r : K) / 2 ^ sh) := by
        rw [hmiddle, one_lt_div hp]
        exact_mod_cast (show 2 ^ sh < 2 * r by omega)
      push_cast
      constructor <;> linarith
    · next hdown =>
      have hhalf : 2 * ((r : K) / 2 ^ sh) ≤ 1 := by
        rw [hmiddle, div_le_one hp]
        exact_mod_cast (show 2 * r ≤ 2 ^ sh by omega)
      refine ⟨by push_cast; constructor <;> linarith, fun hodd => ?_⟩
      have hhalf : 2 * ((r : K) / 2 ^ sh) < 1 := by
        rw [hmiddle, div_lt_one hp]
        exact_mod_cast (show 2 * r < 2 ^ sh by omega)
      push_cast
      constructor <;> linarith
  | down =>
    rw [carryOf]
    constructor <;> push_cast <;> linarith
  | up =>
    rw [carryOf]
    split
    · next h0 => subst h0; simp [RoundsInt]
    · next h0 =>
      have hpos : 0 < (r : K) / 2 ^ sh := div_pos (by exact_mod_cast Nat.pos_of_ne_zero h0) hp
      constructor <;> push_cast <;> linarith

/-- A rounding stays within the integers about its number. -/
theorem RoundsInt.le_of_le {d : Direction} {v : K} {q n : Nat} (h : RoundsInt d v q) (hn : (n : K) ≤ v) : n ≤ q := by
  have hlt : (n : K) < q + 1 := by
    cases d with
    | nearest => obtain ⟨⟨-, hhi⟩, -⟩ := h; linarith
    | down => obtain ⟨-, hhi⟩ := h; linarith
    | up => obtain ⟨-, hhi⟩ := h; linarith
  exact Nat.lt_succ_iff.mp (by exact_mod_cast hlt)

theorem RoundsInt.ge_of_ge {d : Direction} {v : K} {q n : Nat} (h : RoundsInt d v q) (hn : v ≤ n) : q ≤ n := by
  have hlt : (q : K) < n + 1 := by
    cases d with
    | nearest => obtain ⟨⟨hlo, -⟩, -⟩ := h; linarith
    | down => obtain ⟨hlo, -⟩ := h; linarith
    | up => obtain ⟨hlo, -⟩ := h; linarith
  exact Nat.lt_succ_iff.mp (by exact_mod_cast hlt)

/-- From half a unit below an even integer on, a number rounds to it or beyond. -/
theorem RoundsInt.le_iff_of_even {v : K} {q n : Nat} (h : RoundsInt .nearest v q) (hn : n % 2 = 0) :
    n ≤ q ↔ 2 * (n : K) - 1 ≤ 2 * v := by
  obtain ⟨⟨hlo, hhi⟩, hodd⟩ := h
  constructor
  · intro hq
    have hle : (n : K) ≤ q := by exact_mod_cast hq
    linarith
  · intro hv
    by_contra hq
    have hle : (q : K) + 1 ≤ n := by exact_mod_cast Nat.lt_of_not_le hq
    have heq : ((q + 1 : Nat) : K) = n := by push_cast; linarith
    have heq : q + 1 = n := by exact_mod_cast heq
    obtain ⟨-, hlt⟩ := hodd (by omega)
    linarith

/-- A number that rounds up to 2n does so to n in twice the unit. -/
theorem RoundsInt.halve {d : Direction} {v : K} {n : Nat} (heven : n % 2 = 0) (h : RoundsInt d v (2 * n))
    (hlt : v < (2 * n : Nat)) : RoundsInt d (v / 2) n := by
  push_cast at hlt
  cases d with
  | nearest =>
    obtain ⟨⟨hlo, -⟩, -⟩ := h
    push_cast at hlo
    exact ⟨by constructor <;> linarith, by omega⟩
  | down =>
    obtain ⟨hlo, -⟩ := h
    push_cast at hlo
    exact absurd hlt (not_lt.mpr hlo)
  | up =>
    obtain ⟨hlo, -⟩ := h
    push_cast at hlo
    exact ⟨by linarith, by linarith⟩

/-- Two numbers compare alike with every half of an integer, so that they round alike. -/
def SameHalves (v w : K) : Prop := ∀ n : Int, ((n : K) ≤ 2 * v ↔ n ≤ 2 * w) ∧ (2 * v ≤ n ↔ 2 * w ≤ n)

theorem SameHalves.le_iff {v w : K} (h : SameHalves v w) (n : Nat) : (n : K) ≤ v ↔ n ≤ w := by
  have hn := (h (2 * n)).1
  push_cast at hn
  rwa [mul_le_mul_iff_right₀ two_pos, mul_le_mul_iff_right₀ two_pos] at hn

theorem RoundsInt.congr {d : Direction} {v w : K} {q : Nat} (h : RoundsInt d v q) (hvw : SameHalves v w) : RoundsInt d w q := by
  have hle : ∀ n : Int, (n : K) ≤ 2 * v ↔ n ≤ 2 * w := fun n => (hvw n).1
  have hge : ∀ n : Int, 2 * v ≤ n ↔ 2 * w ≤ n := fun n => (hvw n).2
  have hlt : ∀ n : Int, (n : K) < 2 * v ↔ n < 2 * w := fun n => by rw [← not_le, ← not_le, hge]
  have hgt : ∀ n : Int, 2 * v < n ↔ 2 * w < n := fun n => by rw [← not_le, ← not_le, hle]
  cases d with
  | nearest =>
    obtain ⟨⟨hlo, hhi⟩, hodd⟩ := h
    have h1 := hle (2 * q - 1)
    have h2 := hge (2 * q + 1)
    have h3 := hlt (2 * q - 1)
    have h4 := hgt (2 * q + 1)
    push_cast at h1 h2 h3 h4
    exact ⟨⟨h1.mp hlo, h2.mp hhi⟩, fun ho => ⟨h3.mp (hodd ho).1, h4.mp (hodd ho).2⟩⟩
  | down =>
    obtain ⟨hlo, hhi⟩ := h
    have h1 := hle (2 * q)
    have h2 := hgt (2 * q + 2)
    push_cast at h1 h2
    exact ⟨by linarith [h1.mp (by linarith)], by linarith [h2.mp (by linarith)]⟩
  | up =>
    obtain ⟨hlo, hhi⟩ := h
    have h1 := hlt (2 * q - 2)
    have h2 := hge (2 * q)
    push_cast at h1 h2
    exact ⟨by linarith [h1.mp (by linarith)], by linarith [h2.mp (by linarith)]⟩

/-! ### Rounding to a multiple of a unit (R38) -/

theorem scaled_div (m : K) (e u : Int) : m * (2 : K) ^ e / 2 ^ u = m * 2 ^ (e - u) := by
  rw [mul_div_assoc, ← zpow_sub₀ two_ne_zero]

theorem roundToUnit_spec (mode : RoundMode) (neg : Bool) (mant : Nat) (exp unit : Int) :
    RoundsInt (directionOf mode neg) ((mant : K) * 2 ^ exp / 2 ^ unit) (roundToUnit mode neg mant exp unit).1 ∧
      ((roundToUnit mode neg mant exp unit).2 = true →
        ((roundToUnit mode neg mant exp unit).1 : K) * 2 ^ unit = mant * 2 ^ exp) := by
  rw [scaled_div, roundToUnit]
  split
  · next hle =>
    obtain ⟨k, rfl⟩ : ∃ k : Nat, exp = unit + k := ⟨(exp - unit).toNat, by omega⟩
    have hk : unit + (k : Int) - unit = k := by omega
    rw [hk, Int.toNat_natCast, zpow_natCast, zpow_add₀ two_ne_zero, zpow_natCast]
    refine ⟨?_, fun _ => by push_cast; ring⟩
    have hself := roundsInt_self (K := K) (directionOf mode neg) (mant * 2 ^ k)
    push_cast at hself
    exact hself
  · next hlt =>
    obtain ⟨sh, rfl⟩ : ∃ sh : Nat, unit = exp + sh := ⟨(unit - exp).toNat, by omega⟩
    rw [show exp - (exp + (sh : Int)) = -sh by omega, show (exp + (sh : Int) - exp).toNat = sh by omega, zpow_neg, zpow_natCast,
      ← div_eq_mul_inv]
    refine ⟨roundsInt_roundShift mode neg mant sh, fun hexact => ?_⟩
    have hmod : mant % 2 ^ sh = 0 := by simpa using hexact
    have hquot : roundShift mode neg mant sh * 2 ^ sh = mant := by
      rw [roundShift_eq, hmod, carryOf_zero _ _ (Nat.two_pow_pos sh), Nat.add_zero,
        Nat.div_mul_cancel (Nat.dvd_of_mod_eq_zero hmod)]
    rw [zpow_add₀ two_ne_zero, zpow_natCast, mul_comm ((2 : K) ^ exp), ← mul_assoc]
    congr 1
    exact_mod_cast hquot

end

end Sys2Proof.Machine
end

section
/-!
PROOFS. What `roundResult` delivers, for every format and mode (R31, R32, R38, R39): the unit in which a number is rounded, the code
of the rounded significand, and its value.
-/

namespace Sys2Proof.Machine

/-! ### Codes and their fields (R31, R32) -/

/-- The unit of the subnormal numbers and of the smallest binade, as a power of two. -/
def leastUnit (f : FpFormat) : Int := 1 - (expBias f : Int) - fracBits f

theorem withSign_eq (f : FpFormat) (neg : Bool) (mag : Nat) : withSign f neg mag = neg.toNat * signBit f + mag := by
  cases neg <;> simp [withSign]

theorem two_pow_fracBits_le_maxFinite (f : FpFormat) : 2 ^ fracBits f ≤ maxFinite f := by cases f <;> decide

theorem two_pow_even (f : FpFormat) : 2 ^ fracBits f % 2 = 0 := by cases f <;> decide

theorem maxFinite_lt_signBit (f : FpFormat) : maxFinite f < signBit f := by cases f <;> decide

/-- A format with infinities keeps its largest exponent field from finite numbers. -/
theorem maxFinite_succ {f : FpFormat} (hf : f ≠ .e4m3) : maxFinite f + 1 = (2 * expBias f + 1) * 2 ^ fracBits f := by
  cases f with
  | e4m3 => exact absurd rfl hf
  | _ => rfl

theorem two_pow_fmtWidth (f : FpFormat) : 2 ^ fmtWidth f = 2 * signBit f := by cases f <;> rfl

theorem fields_withSign (f : FpFormat) (neg : Bool) {mag : Nat} (h : mag < signBit f) :
    withSign f neg mag / signBit f % 2 = neg.toNat ∧ withSign f neg mag / 2 ^ fracBits f % 2 ^ expBits f = mag / 2 ^ fracBits f ∧
      withSign f neg mag % 2 ^ fracBits f = mag % 2 ^ fracBits f := by
  have hpos : 0 < signBit f := Nat.two_pow_pos _
  have hsplit : signBit f = 2 ^ fracBits f * 2 ^ expBits f := by rw [signBit, Nat.pow_add, Nat.mul_comm]
  have hquot : mag / 2 ^ fracBits f < 2 ^ expBits f := Nat.div_lt_of_lt_mul (by rwa [← hsplit])
  have hfields : neg.toNat * signBit f + mag = mag + 2 ^ fracBits f * (neg.toNat * 2 ^ expBits f) := by rw [hsplit]; ring
  rw [withSign_eq]
  refine ⟨?_, ?_, ?_⟩
  · rw [Nat.add_comm, Nat.add_mul_div_right _ _ hpos, Nat.div_eq_of_lt h, Nat.zero_add]
    exact Nat.mod_eq_of_lt (Nat.lt_succ_of_le neg.toNat_le)
  · rw [hfields, Nat.add_mul_div_left _ _ (Nat.two_pow_pos _), Nat.add_mul_mod_self_right, Nat.mod_eq_of_lt hquot]
  · rw [hfields, Nat.add_mul_mod_self_left]

theorem fpDecode_withSign (f : FpFormat) (neg : Bool) {mag : Nat} (h : mag ≤ maxFinite f) : fpDecode f (withSign f neg mag) =
    if mag / 2 ^ fracBits f = 0 then .num neg (mag % 2 ^ fracBits f) (leastUnit f)
    else .num neg (mag % 2 ^ fracBits f + 2 ^ fracBits f) ((mag / 2 ^ fracBits f : Nat) - 1 + leastUnit f) := by
  obtain ⟨hs, he, hm⟩ := fields_withSign f neg (h.trans_lt (maxFinite_lt_signBit f))
  have hneg : (neg.toNat == 1) = neg := by cases neg <;> rfl
  have htop : ((mag / 2 ^ fracBits f == 2 ^ expBits f - 1) && f == .e4m3 && mag % 2 ^ fracBits f == 7) = false ∧
      ((mag / 2 ^ fracBits f == 2 ^ expBits f - 1) && f != .e4m3) = false := by
    cases f <;> simp [fracBits, expBits, maxFinite] at h ⊢ <;> omega
  unfold fpDecode
  simp only [hs, he, hm, hneg, htop, Bool.false_eq_true, if_false, beq_iff_eq]
  refine if_congr Iff.rfl rfl ?_
  congr 1
  rw [leastUnit]
  ring

theorem withSign_lt (f : FpFormat) (neg : Bool) {mag : Nat} (h : mag < signBit f) : withSign f neg mag < 2 ^ fmtWidth f := by
  have hle := Nat.mul_le_mul_right (signBit f) neg.toNat_le
  rw [withSign_eq, two_pow_fmtWidth]
  omega

theorem withSign_mod_two (f : FpFormat) (neg : Bool) (mag : Nat) : withSign f neg mag % 2 = mag % 2 := by
  have heven : signBit f % 2 = 0 := by cases f <;> decide
  rw [withSign_eq, Nat.add_mod, Nat.mul_mod, heven, Nat.mul_zero, Nat.zero_mod, Nat.zero_add, Nat.mod_mod]

/-! ### A magnitude, its unit and its significand (R38, R39) -/

section
variable {K : Type*} [Field K] [LinearOrder K] [IsStrictOrderedRing K]

/-- X is rounded to q units of 2^U: the unit of its binade, or of the subnormal numbers below all binades. -/
structure RoundedAt (f : FpFormat) (d : Direction) (X : K) (U : Int) (q : Nat) : Prop where
  unit   : leastUnit f ≤ U
  low    : U = leastUnit f ∨ (2 : K) ^ fracBits f ≤ X / 2 ^ U
  high   : X / 2 ^ U < (2 : K) ^ (fracBits f + 1)
  rounds : RoundsInt d (X / 2 ^ U) q

/-- The code of q units of 2^U, its sign clear. -/
def magCode (f : FpFormat) (U : Int) (q : Nat) : Nat := (U - leastUnit f).toNat * 2 ^ fracBits f + q

/-- r delivers q units of 2^U, which stand for X: what overflows in it, its code and its flags. -/
structure DeliversAt (f : FpFormat) (mode : RoundMode) (setting : Saturation) (neg : Bool) (X : K) (U : Int) (q : Nat)
    (r : FpResult) : Prop where
  overflow : maxFinite f < magCode f U q → r = overflowResult f mode setting neg
  code     : magCode f U q ≤ maxFinite f → r.code = withSign f neg (magCode f U q)
  clear    : magCode f U q ≤ maxFinite f → r.flags.getLsbD 2 = false
  faithful : magCode f U q ≤ maxFinite f → r.flags.getLsbD 4 = false → (q : K) * 2 ^ U = X

theorem RoundedAt.q_le {f : FpFormat} {d : Direction} {X : K} {U : Int} {q : Nat} (h : RoundedAt f d X U q) :
    q ≤ 2 ^ (fracBits f + 1) := h.rounds.ge_of_ge (by push_cast; exact h.high.le)

theorem RoundedAt.le_q {f : FpFormat} {d : Direction} {X : K} {U : Int} {q : Nat} (h : RoundedAt f d X U q) :
    U = leastUnit f ∨ 2 ^ fracBits f ≤ q := h.low.imp_right fun hlow => h.rounds.le_of_le (by push_cast; exact hlow)

end

section
variable {f : FpFormat} {U : Int} {q : Nat} (hU : leastUnit f ≤ U) (hlow : U = leastUnit f ∨ 2 ^ fracBits f ≤ q)
  (hhigh : q ≤ 2 ^ (fracBits f + 1)) (hmax : magCode f U q ≤ maxFinite f) (neg : Bool)

include hU hlow hhigh hmax in
/-- The code names the rounded number. -/
theorem magCode_decode : ∃ m e, fpDecode f (withSign f neg (magCode f U q)) = .num neg m e ∧
    rationalOf (.num neg m e) = rationalOf (.num neg q U) := by
  have hpos : 0 < 2 ^ fracBits f := Nat.two_pow_pos _
  obtain ⟨j, rfl⟩ : ∃ j : Nat, U = leastUnit f + j := ⟨(U - leastUnit f).toNat, by omega⟩
  have hcode : magCode f (leastUnit f + j) q = j * 2 ^ fracBits f + q := by rw [magCode]; congr 2; omega
  rw [fpDecode_withSign f neg hmax, hcode]
  rw [Nat.pow_succ] at hhigh
  rcases Nat.lt_or_ge q (2 ^ fracBits f) with hq | hq
  · obtain rfl : j = 0 := by omega
    simp [Nat.div_eq_of_lt hq, Nat.mod_eq_of_lt hq]
  · rcases Nat.eq_or_lt_of_le hhigh with rfl | hq'
    · have hsplit : j * 2 ^ fracBits f + 2 ^ fracBits f * 2 = (j + 2) * 2 ^ fracBits f := by ring
      rw [hsplit, Nat.mul_div_cancel _ hpos, Nat.mul_mod_left, if_neg (by omega)]
      refine ⟨_, _, rfl, ?_⟩
      rw [← pow_one 2, ← pow_mul, one_mul, rationalOf_shift]
      congr 2
      · simp
      · push_cast; ring
    · have hsplit : j * 2 ^ fracBits f + q = (q - 2 ^ fracBits f) + (j + 1) * 2 ^ fracBits f := by
        rw [Nat.add_mul, Nat.one_mul]; omega
      rw [hsplit, Nat.add_mul_div_right _ _ hpos, Nat.add_mul_mod_self_right, Nat.div_eq_of_lt (by omega),
        Nat.mod_eq_of_lt (by omega), if_neg (by omega), Nat.sub_add_cancel hq]
      refine ⟨_, _, rfl, ?_⟩
      congr 2
      push_cast
      ring

include hU hlow hhigh hmax in
theorem magCode_value : valueOf f (withSign f neg (magCode f U q)) = rationalOf (.num neg q U) := by
  obtain ⟨m, e, hdecode, hvalue⟩ := magCode_decode hU hlow hhigh hmax neg
  rw [valueOf, hdecode, hvalue]

include hU hlow hhigh hmax in
theorem magCode_finite : isFiniteCode f (withSign f neg (magCode f U q)) := by
  obtain ⟨m, e, hdecode, -⟩ := magCode_decode hU hlow hhigh hmax neg
  exact ⟨withSign_lt f neg (hmax.trans_lt (maxFinite_lt_signBit f)), _, _, _, hdecode⟩

end

theorem magCode_mod_two (f : FpFormat) (U : Int) (q : Nat) : magCode f U q % 2 = q % 2 := by
  rw [magCode, Nat.add_mod, Nat.mul_mod, two_pow_even, Nat.mul_zero, Nat.zero_mod, Nat.zero_add, Nat.mod_mod]

/-- In its own binade's unit a significand has one code, whether or not it was rounded up to the next binade. -/
theorem carried_magCode {f : FpFormat} {B : Int} {q : Nat} (hB : leastUnit f ≤ B) (hq : 2 ^ fracBits f ≤ q) :
    (B + (if q = 2 ^ (fracBits f + 1) then 1 else 0) - leastUnit f + 1).toNat * 2 ^ fracBits f +
      ((if q = 2 ^ (fracBits f + 1) then 2 ^ fracBits f else q) - 2 ^ fracBits f) = magCode f B q := by
  obtain ⟨j, rfl⟩ : ∃ j : Nat, B = leastUnit f + j := ⟨(B - leastUnit f).toNat, by omega⟩
  rw [magCode, show (leastUnit f + (j : Int) - leastUnit f).toNat = j by omega]
  split
  · next hcarry =>
    rw [hcarry, show (leastUnit f + (j : Int) + 1 - leastUnit f + 1).toNat = j + 2 by omega, Nat.sub_self]
    ring
  · rw [show (leastUnit f + (j : Int) + 0 - leastUnit f + 1).toNat = j + 1 by omega, Nat.add_mul, Nat.one_mul]
    omega

/-- The finite numbers of a format (R31, R32). -/
theorem finite_number {f : FpFormat} {c : Nat} {z : ℚ} (h : isFiniteCode f c) (hz : valueOf f c = some z) :
    ∃ (neg : Bool) (m : Nat) (e : Int), m < 2 ^ (fracBits f + 1) ∧ leastUnit f ≤ e ∧ rationalOf (.num neg m e) = some z := by
  obtain ⟨_, s, m, e, hd⟩ := h
  obtain ⟨-, hm, hlo, -⟩ := fpDecode_num hd
  rw [valueOf, hd] at hz
  exact ⟨s, m, e, hm, by rw [leastUnit]; omega, hz⟩

theorem half_pow_succ {K : Type*} [Field K] [CharZero K] (n : Nat) : (2 : K) ^ (n + 1) * 2 ^ (-1 : Int) = 2 ^ n := by
  rw [pow_succ, zpow_neg_one, mul_inv_cancel_right₀ two_ne_zero]

/-- A finite number is a whole number of units, or lies below the binade that has the unit. -/
theorem finite_on_grid {f : FpFormat} {c : Nat} {z : ℚ} {U : Int} (h : isFiniteCode f c) (hz : valueOf f c = some z) :
    (∃ n : Int, z / 2 ^ U = n) ∨ U ≠ leastUnit f ∧ |z / 2 ^ U| < 2 ^ fracBits f := by
  obtain ⟨s, m, e, hm, he, hs⟩ := finite_number h hz
  by_cases hU : U ≤ e
  · obtain ⟨k, rfl⟩ : ∃ k : Nat, e = U + k := ⟨(e - U).toNat, by omega⟩
    obtain rfl := Option.some.inj hs
    refine .inl ⟨(if s then -1 else 1) * m * 2 ^ k, ?_⟩
    rw [scaled_div, show U + (k : Int) - U = k by omega, zpow_natCast]
    push_cast
    cases s <;> rfl
  · refine .inr ⟨by omega, ?_⟩
    rw [abs_div, abs_rational hs, abs_of_pos (by positivity : (0 : ℚ) < 2 ^ U), scaled_div]
    calc (m : ℚ) * 2 ^ (e - U) < 2 ^ (fracBits f + 1) * 2 ^ (e - U) := by
          gcongr
          exact_mod_cast hm
      _ ≤ 2 ^ (fracBits f + 1) * 2 ^ (-1 : Int) := by
          gcongr
          · exact one_le_two
          · omega
      _ = 2 ^ fracBits f := half_pow_succ _

/-! ### What is delivered (R38, R39, R44) -/

section
variable {K : Type*} [Field K] [LinearOrder K] [IsStrictOrderedRing K]
  (f : FpFormat) (mode : RoundMode) (setting : Saturation) (neg : Bool) {mant : Nat} (exp : Int)

/-- The unit of the binade of a significand, the exponent range taken as unbounded (R39). -/
def binadeUnit (f : FpFormat) (mant : Nat) (exp : Int) : Int := exp + Nat.log2 mant - fracBits f

theorem in_binade (hm : mant ≠ 0) : (2 : K) ^ fracBits f ≤ mant * 2 ^ exp / 2 ^ binadeUnit f mant exp ∧
    (mant : K) * 2 ^ exp / 2 ^ binadeUnit f mant exp < 2 ^ (fracBits f + 1) := by
  have hlo : ((2 ^ Nat.log2 mant : Nat) : K) ≤ mant := by exact_mod_cast Nat.log2_self_le hm
  have hhi : (mant : K) < (2 ^ (Nat.log2 mant + 1) : Nat) := by exact_mod_cast Nat.lt_log2_self
  have hexp : exp - binadeUnit f mant exp = fracBits f - Nat.log2 mant := by rw [binadeUnit]; ring
  have hpow : ∀ n : Nat, ((2 ^ n : Nat) : K) = 2 ^ (n : Int) := fun n => by push_cast; rw [zpow_natCast]
  rw [hpow] at hlo hhi
  rw [scaled_div, hexp, ← zpow_natCast, ← zpow_natCast]
  have hpos : (0 : K) < 2 ^ ((fracBits f : Int) - Nat.log2 mant) := by positivity
  constructor
  · calc (2 : K) ^ (fracBits f : Int) = 2 ^ (Nat.log2 mant : Int) * 2 ^ ((fracBits f : Int) - Nat.log2 mant) := by
          rw [← zpow_add₀ two_ne_zero]; congr 1; ring
      _ ≤ _ := mul_le_mul_of_nonneg_right hlo hpos.le
  · calc (mant : K) * 2 ^ ((fracBits f : Int) - Nat.log2 mant)
        < 2 ^ ((Nat.log2 mant + 1 : Nat) : Int) * 2 ^ ((fracBits f : Int) - Nat.log2 mant) := mul_lt_mul_of_pos_right hhi hpos
      _ = 2 ^ ((fracBits f + 1 : Nat) : Int) := by rw [← zpow_add₀ two_ne_zero]; congr 1; push_cast; ring

/-- The unit of the binade of the rounded number, the exponent range taken as unbounded (R39, R44). -/
def roundedUnit (f : FpFormat) (mode : RoundMode) (neg : Bool) (mant : Nat) (exp : Int) : Int :=
  binadeUnit f mant exp + if (roundToUnit mode neg mant exp (binadeUnit f mant exp)).1 = 2 ^ (fracBits f + 1) then 1 else 0

/-- A rounding by its two cases: below the smallest normal number, and from there on. -/
theorem roundResult_cases (flush : Bool) (hm : mant ≠ 0) : roundResult f mode flush setting neg mant exp =
    let p := roundToUnit mode neg mant exp (binadeUnit f mant exp)
    let t := roundToUnit mode neg mant exp (leastUnit f)
    let mag := (roundedUnit f mode neg mant exp - leastUnit f + 1).toNat * 2 ^ fracBits f +
      ((if p.1 = 2 ^ (fracBits f + 1) then 2 ^ fracBits f else p.1) - 2 ^ fracBits f)
    if roundedUnit f mode neg mant exp < leastUnit f then
      if flush then ⟨withSign f neg 0, flagUF ||| flagIX ||| flagFL⟩
      else ⟨withSign f neg t.1, if t.2 then 0 else flagUF ||| flagIX⟩
    else if maxFinite f < mag then overflowResult f mode setting neg
    else ⟨withSign f neg mag, if p.2 then 0 else flagIX⟩ := by
  have hemin : 1 - (expBias f : Int) = leastUnit f + fracBits f := by rw [leastUnit]; ring
  have hunit : exp + (Nat.log2 mant : Int) - fracBits f = binadeUnit f mant exp := rfl
  have hround : ∀ p : Nat × Bool, p = roundToUnit mode neg mant exp (binadeUnit f mant exp) → roundedUnit f mode neg mant exp =
      if p.1 = 2 ^ (fracBits f + 1) then binadeUnit f mant exp + 1 else binadeUnit f mant exp := by
    rintro _ rfl
    rw [roundedUnit]
    split <;> simp
  rw [roundResult, if_neg (by simpa using hm)]
  simp only [hemin, hunit, add_sub_cancel_right, beq_iff_eq]
  generalize hp : roundToUnit mode neg mant exp (binadeUnit f mant exp) = p
  rw [hround p hp.symm]
  split <;> simp only [add_lt_add_iff_right, add_sub_add_right_eq_sub, gt_iff_lt]

theorem magCode_least (f : FpFormat) (q : Nat) : magCode f (leastUnit f) q = q := by
  rw [magCode, sub_self, Int.toNat_zero, Nat.zero_mul, Nat.zero_add]

/-- Below the smallest normal number the unit is that of the subnormal numbers. -/
theorem roundResult_delivers_tiny (hm : mant ≠ 0) (hunit : roundedUnit f mode neg mant exp < leastUnit f) :
    ∃ q, RoundedAt f (directionOf mode neg) ((mant : K) * 2 ^ exp) (leastUnit f) q ∧
      DeliversAt f mode setting neg ((mant : K) * 2 ^ exp) (leastUnit f) q (roundResult f mode false setting neg mant exp) := by
  obtain ⟨hlow, hhigh⟩ := in_binade (K := K) f exp hm
  obtain ⟨hrounds, hexact⟩ := roundToUnit_spec (K := K) mode neg mant exp (leastUnit f)
  have hbinade : binadeUnit f mant exp < leastUnit f := by
    rw [roundedUnit] at hunit
    split at hunit <;> omega
  rw [div_lt_iff₀ (by positivity)] at hhigh
  have hbelow : (mant : K) * 2 ^ exp / 2 ^ leastUnit f < 2 ^ fracBits f := by
    rw [div_lt_iff₀ (by positivity)]
    calc (mant : K) * 2 ^ exp < 2 ^ (fracBits f + 1) * 2 ^ binadeUnit f mant exp := hhigh
      _ ≤ 2 ^ (fracBits f + 1) * 2 ^ (leastUnit f - 1) := by
          gcongr
          · exact one_le_two
          · omega
      _ = 2 ^ fracBits f * 2 ^ leastUnit f := by rw [zpow_sub₀ two_ne_zero, pow_succ]; field_simp
  rw [roundResult_cases f mode setting neg exp false hm]
  dsimp only
  rw [if_pos hunit, if_neg (by decide)]
  generalize roundToUnit mode neg mant exp (leastUnit f) = p at *
  have hle : p.1 ≤ maxFinite f := (hrounds.ge_of_ge (by push_cast; exact hbelow.le)).trans (two_pow_fracBits_le_maxFinite f)
  refine ⟨p.1, ⟨le_rfl, .inl rfl, hbelow.trans ?_, hrounds⟩, ?_⟩
  · exact pow_lt_pow_right₀ one_lt_two (Nat.lt_succ_self _)
  · refine ⟨fun h => ?_, fun _ => ?_, fun _ => ?_, fun _ h => hexact ?_⟩
    · rw [magCode_least] at h
      omega
    · rw [magCode_least]
    · dsimp only
      split <;> decide
    · by_contra hinexact
      simp [hinexact, flagUF, flagIX] at h

omit [LinearOrder K] [IsStrictOrderedRing K] in
theorem delivers_magCode {X : K} {U : Int} {q : Nat} {whole : Bool} (hexact : whole = true → (q : K) * 2 ^ U = X) :
    DeliversAt f mode setting neg X U q (if maxFinite f < magCode f U q then overflowResult f mode setting neg
      else ⟨withSign f neg (magCode f U q), if whole then 0 else flagIX⟩) := by
  refine ⟨fun h => if_pos h, fun h => ?_, fun h => ?_, fun h hflag => hexact ?_⟩
  all_goals rw [if_neg (not_lt.mpr h)] at *
  · dsimp only
    split <;> decide
  · by_contra hinexact
    simp [hinexact, flagIX] at hflag

/-- From the smallest normal number on, a significand that was rounded up to the next binade keeps its value there. -/
theorem roundResult_delivers_normal (hm : mant ≠ 0) (hunit : leastUnit f ≤ roundedUnit f mode neg mant exp) :
    ∃ U q, RoundedAt f (directionOf mode neg) ((mant : K) * 2 ^ exp) U q ∧
      DeliversAt f mode setting neg ((mant : K) * 2 ^ exp) U q (roundResult f mode false setting neg mant exp) := by
  obtain ⟨hlow, hhigh⟩ := in_binade (K := K) f exp hm
  obtain ⟨hrounds, hexact⟩ := roundToUnit_spec (K := K) mode neg mant exp (binadeUnit f mant exp)
  rw [roundResult_cases f mode setting neg exp false hm]
  dsimp only
  rw [if_neg (not_lt.mpr hunit)]
  rw [roundedUnit] at *
  generalize roundToUnit mode neg mant exp (binadeUnit f mant exp) = p at *
  generalize binadeUnit f mant exp = B at *
  have hlowq : 2 ^ fracBits f ≤ p.1 := hrounds.le_of_le (by push_cast; exact hlow)
  by_cases hinside : leastUnit f ≤ B
  · rw [carried_magCode hinside hlowq]
    exact ⟨B, p.1, ⟨hinside, .inr hlow, hhigh, hrounds⟩, delivers_magCode f mode setting neg hexact⟩
  · obtain ⟨hcarry, rfl⟩ : p.1 = 2 ^ (fracBits f + 1) ∧ B = leastUnit f - 1 := by
      split at hunit
      · next hcarry => exact ⟨hcarry, by omega⟩
      · omega
    have hdouble : (2 : K) ^ leastUnit f = 2 ^ (leastUnit f - 1) * 2 := by
      rw [zpow_sub₀ two_ne_zero, zpow_one, div_mul_cancel₀ _ two_ne_zero]
    have hcode : (leastUnit f - 1 + (if p.1 = 2 ^ (fracBits f + 1) then 1 else 0) - leastUnit f + 1).toNat * 2 ^ fracBits f +
        ((if p.1 = 2 ^ (fracBits f + 1) then 2 ^ fracBits f else p.1) - 2 ^ fracBits f) =
          magCode f (leastUnit f) (2 ^ fracBits f) := by
      rw [if_pos hcarry, if_pos hcarry, magCode_least, Nat.sub_self,
        show (leastUnit f - 1 + 1 - leastUnit f + 1).toNat = 1 by omega, Nat.one_mul, Nat.add_zero]
    have hhalf : (mant : K) * 2 ^ exp / 2 ^ leastUnit f = mant * 2 ^ exp / 2 ^ (leastUnit f - 1) / 2 := by
      rw [hdouble, div_div]
    have hlt : (mant : K) * 2 ^ exp / 2 ^ leastUnit f < 2 ^ fracBits f := by
      rw [hhalf, div_lt_iff₀ two_pos, ← pow_succ]
      exact hhigh
    rw [hcarry, Nat.pow_succ, Nat.mul_comm] at hrounds
    rw [hcode]
    refine ⟨leastUnit f, 2 ^ fracBits f, ⟨le_rfl, .inl rfl, hlt.trans ?_, ?_⟩, delivers_magCode f mode setting neg fun h => ?_⟩
    · exact pow_lt_pow_right₀ one_lt_two (Nat.lt_succ_self _)
    · rw [hhalf]
      exact hrounds.halve (two_pow_even f) (by push_cast; rw [← pow_succ']; exact hhigh)
    · rw [← hexact h, hcarry, hdouble]
      push_cast
      ring

/-- A non-zero number is rounded in some unit, and the rounded number is what `roundResult` delivers (R38, R39). -/
theorem roundResult_delivers (hm : mant ≠ 0) :
    ∃ U q, RoundedAt f (directionOf mode neg) ((mant : K) * 2 ^ exp) U q ∧
      DeliversAt f mode setting neg ((mant : K) * 2 ^ exp) U q (roundResult f mode false setting neg mant exp) := by
  rcases lt_or_ge (roundedUnit f mode neg mant exp) (leastUnit f) with hunit | hunit
  · exact ⟨_, roundResult_delivers_tiny f mode setting neg exp hm hunit⟩
  · exact roundResult_delivers_normal f mode setting neg exp hm hunit

end

end Sys2Proof.Machine
end

section
/-!
PROOFS. The rounded number is the nearest one on the side that the mode asks for (R38), O7, and where a result overflows (R39).
-/

namespace Sys2Proof.Machine

/-! ### The nearest number on a side (R38) -/

section
variable {K : Type*} [Field K] [LinearOrder K] [IsStrictOrderedRing K]

/-- w, a number in the direction of the rounded one, lies where the mode looks. -/
def OnSideOf (d : Direction) (v w : K) : Prop :=
  match d with
  | .nearest => True
  | .down => w ≤ v
  | .up => v ≤ w

omit [IsStrictOrderedRing K] in
theorem RoundsInt.onSide {d : Direction} {v : K} {q : Nat} (h : RoundsInt d v q) : OnSideOf d v q := by
  cases d with
  | nearest => trivial
  | down => exact h.1
  | up => exact h.2

/-- What lies on the side and at least one unit away is no nearer than the rounded number. -/
theorem RoundsInt.nearest_apart {d : Direction} {v : K} {q : Nat} (h : RoundsInt d v q) {w : K} (hside : OnSideOf d v w)
    (hapart : w + 1 ≤ q ∨ (q : K) + 1 ≤ w) :
    |(q : K) - v| ≤ |w - v| ∧ (d = .nearest → |w - v| = |(q : K) - v| → q % 2 = 0) := by
  cases d with
  | nearest =>
    obtain ⟨⟨hlo, hhi⟩, hodd⟩ := h
    have hfar : 1 / 2 ≤ |w - v| := by
      rcases hapart with h | h
      · linarith [neg_abs_le (w - v)]
      · linarith [le_abs_self (w - v)]
    have hnear : |(q : K) - v| ≤ 1 / 2 := abs_le.mpr ⟨by linarith, by linarith⟩
    refine ⟨hnear.trans hfar, fun _ htie => ?_⟩
    by_contra heven
    obtain ⟨hlo, hhi⟩ := hodd (by omega)
    have hnearer : |(q : K) - v| < 1 / 2 := abs_lt.mpr ⟨by linarith, by linarith⟩
    exact absurd htie (hnearer.trans_le hfar).ne'
  | down =>
    obtain ⟨hlo, hhi⟩ := h
    have hw : w ≤ v := hside
    refine ⟨?_, nofun⟩
    rw [abs_of_nonpos (by linarith), abs_of_nonpos (by linarith)]
    rcases hapart with h | h <;> linarith
  | up =>
    obtain ⟨hlo, hhi⟩ := h
    have hw : v ≤ w := hside
    refine ⟨?_, nofun⟩
    rw [abs_of_nonneg (by linarith), abs_of_nonneg (by linarith)]
    rcases hapart with h | h <;> linarith

theorem RoundsInt.nearest_int {d : Direction} {v : K} {q : Nat} (h : RoundsInt d v q) {n : Int} (hside : OnSideOf d v n) :
    |(q : K) - v| ≤ |(n : K) - v| ∧ (d = .nearest → |(n : K) - v| = |(q : K) - v| → (n : K) ≠ q → q % 2 = 0) := by
  rcases lt_trichotomy n (q : Int) with hn | hn | hn
  · obtain ⟨hle, htie⟩ := h.nearest_apart hside (.inl (by exact_mod_cast hn))
    exact ⟨hle, fun hd heq _ => htie hd heq⟩
  · have heq : (n : K) = q := by exact_mod_cast hn
    exact ⟨by rw [heq], fun _ _ hne => absurd heq hne⟩
  · obtain ⟨hle, htie⟩ := h.nearest_apart hside (.inr (by exact_mod_cast hn))
    exact ⟨hle, fun hd heq _ => htie hd heq⟩

/-- Nor is what lies below a binade nearer to a number in it. -/
theorem RoundsInt.nearest_below {d : Direction} {v : K} {q : Nat} (h : RoundsInt d v q) {w : K} {n : Nat} (hw : w < n) (hv : n ≤ v)
    (hside : OnSideOf d v w) : |(q : K) - v| < |w - v| := by
  have hn : OnSideOf d v ((n : Int) : K) := by
    rw [Int.cast_natCast]
    cases d with
    | nearest => trivial
    | down => exact hv
    | up => exact absurd (hw.trans_le hv) (not_lt.mpr hside)
  obtain ⟨hle, -⟩ := h.nearest_int hn
  rw [Int.cast_natCast, abs_of_nonpos (a := (n : K) - v) (by linarith)] at hle
  rw [abs_of_nonpos (a := w - v) (by linarith)]
  linarith

end

/-- The sign of a number as a factor. -/
def signOf (neg : Bool) : ℚ := if neg then -1 else 1

theorem abs_signOf (neg : Bool) : |signOf neg| = 1 := by cases neg <;> simp [signOf]

theorem signOf_mul_self (neg : Bool) : signOf neg * signOf neg = 1 := by cases neg <;> simp [signOf]

theorem rationalOf_num (neg : Bool) (m : Nat) (e : Int) : rationalOf (.num neg m e) = some (signOf neg * m * 2 ^ e) := rfl

/-- The rounded number is at least as near as any finite number on the side; a tie goes to the even significand. Stated of a
magnitude in any field, so that it can be used of square roots. -/
theorem RoundedAt.nearest {K : Type*} [Field K] [LinearOrder K] [IsStrictOrderedRing K] {f : FpFormat} {d : Direction} {X : K}
    {U : Int} {q : Nat} (h : RoundedAt f d X U q) (neg : Bool) {c : Nat} {z : ℚ} (hc : isFiniteCode f c) (hz : valueOf f c = some z)
    (hside : OnSideOf d X ((signOf neg * z : ℚ) : K)) :
    |(q : K) * 2 ^ U - X| ≤ |((signOf neg * z : ℚ) : K) - X| ∧
      (d = .nearest → |((signOf neg * z : ℚ) : K) - X| = |(q : K) * 2 ^ U - X| → signOf neg * z ≠ q * 2 ^ U → q % 2 = 0) := by
  have hpos : (0 : K) < 2 ^ U := by positivity
  have hscale : ∀ w : K, |w * 2 ^ U - X| = |w - X / 2 ^ U| * 2 ^ U := fun w => by
    rw [← abs_of_pos hpos, ← abs_mul, abs_of_pos hpos, sub_mul, div_mul_cancel₀ _ hpos.ne']
  obtain ⟨w, hw⟩ : ∃ w : ℚ, signOf neg * z = w * 2 ^ U := ⟨signOf neg * z / 2 ^ U, by rw [div_mul_cancel₀]; positivity⟩
  have hcast : ((signOf neg * z : ℚ) : K) = w * 2 ^ U := by rw [hw]; push_cast; rfl
  rw [hcast] at hside ⊢
  have hsideAt : OnSideOf d (X / 2 ^ U) (w : K) := by
    cases d with
    | nearest => trivial
    | down => exact (le_div_iff₀ hpos).mpr hside
    | up => exact (div_le_iff₀ hpos).mpr hside
  rw [hscale, hscale]
  have hzw : z / 2 ^ U = signOf neg * w := by
    rw [div_eq_iff (by positivity), mul_assoc, ← hw, ← mul_assoc, signOf_mul_self, one_mul]
  rcases finite_on_grid (U := U) hc hz with ⟨n, hn⟩ | ⟨hU, hbelow⟩
  · obtain ⟨k, hk⟩ : ∃ k : Int, w = k := by
      refine ⟨if neg then -n else n, ?_⟩
      rw [hzw] at hn
      cases neg <;> simp [signOf] at hn ⊢ <;> linarith
    subst hk
    rw [Rat.cast_intCast] at hsideAt ⊢
    obtain ⟨hle, htie⟩ := h.rounds.nearest_int hsideAt
    refine ⟨by gcongr, fun hd heq hne => htie hd (mul_right_cancel₀ hpos.ne' heq) fun h => hne ?_⟩
    rw [hw]
    congr 1
    exact_mod_cast h
  · rw [hzw, abs_mul, abs_signOf, one_mul] at hbelow
    have hlow := h.low.resolve_left hU
    have hwK : (w : K) < (2 ^ fracBits f : Nat) := by exact_mod_cast lt_of_abs_lt hbelow
    have hlt := h.rounds.nearest_below hwK (by push_cast; exact hlow) hsideAt
    exact ⟨by gcongr, fun _ heq => absurd (mul_right_cancel₀ hpos.ne' heq) hlt.ne'⟩

/-! ### What is delivered is the nearest number (R38, R39) -/

theorem RoundedAt.onSide {K : Type*} [Field K] [LinearOrder K] [IsStrictOrderedRing K] {f : FpFormat} {d : Direction} {X : K}
    {U : Int} {q : Nat} (h : RoundedAt f d X U q) : OnSideOf d X (q * 2 ^ U) := by
  have hpos : (0 : K) < 2 ^ U := by positivity
  have hq := h.rounds.onSide
  cases d with
  | nearest => trivial
  | down => exact (le_div_iff₀ hpos).mp hq
  | up => exact (div_le_iff₀ hpos).mp hq

/-- A result without overflow: its number is finite, exact unless IX is set, and none on the side is nearer. -/
theorem delivers_nearest {f : FpFormat} {d : Direction} {mode : RoundMode} {setting : Saturation} {neg : Bool} {X : ℚ} {U : Int}
    {q : Nat} {r : FpResult} (hat : RoundedAt f d X U q) (hdel : DeliversAt f mode setting neg X U q r)
    (hmax : magCode f U q ≤ maxFinite f) :
    ∃ y, valueOf f r.code = some y ∧ isFiniteCode f r.code ∧ y = signOf neg * (q * 2 ^ U) ∧
      (r.flags.getLsbD 4 = false → y = signOf neg * X) ∧
      ∀ c z, isFiniteCode f c → valueOf f c = some z → OnSideOf d X (signOf neg * z) →
        |y - signOf neg * X| ≤ |z - signOf neg * X| ∧
          (d = .nearest → |z - signOf neg * X| = |y - signOf neg * X| → z ≠ y → r.code % 2 = 0) := by
  have hdistance : ∀ w, |w - signOf neg * X| = |signOf neg * w - X| := fun w => by
    rw [← one_mul |w - _|, ← abs_signOf neg, ← abs_mul, mul_sub, ← mul_assoc, signOf_mul_self, one_mul]
  have hself : ∀ w, signOf neg * (signOf neg * w) = w := fun w => by rw [← mul_assoc, signOf_mul_self, one_mul]
  rw [hdel.code hmax]
  have hfinite := magCode_finite hat.unit hat.le_q hat.q_le hmax neg
  have hvalue := magCode_value hat.unit hat.le_q hat.q_le hmax neg
  rw [rationalOf_num, mul_assoc] at hvalue
  refine ⟨signOf neg * (q * 2 ^ U), hvalue, hfinite, rfl, fun h => ?_, fun c z hc hz hside => ?_⟩
  · rw [hdel.faithful hmax h]
  · obtain ⟨hle, htie⟩ := hat.nearest neg hc hz (by rwa [Rat.cast_id])
    rw [Rat.cast_id] at hle htie
    rw [hdistance, hdistance, hself, withSign_mod_two, magCode_mod_two]
    exact ⟨hle, fun hd heq hne => htie hd heq fun h => hne (by rw [← h, hself])⟩

theorem overflowResult_flags (f : FpFormat) (mode : RoundMode) (setting : Saturation) (neg : Bool) :
    (overflowResult f mode setting neg).flags = flagOF ||| flagIX := by
  unfold overflowResult
  dsimp only
  split
  · rfl
  · split <;> rfl

theorem fpDecode_zero (f : FpFormat) (neg : Bool) : fpDecode f (withSign f neg 0) = .num neg 0 (leastUnit f) := by
  rw [fpDecode_withSign f neg (Nat.zero_le (maxFinite f)), Nat.zero_div, Nat.zero_mod, if_pos rfl]

theorem zero_value (f : FpFormat) (neg : Bool) : valueOf f (withSign f neg 0) = some 0 ∧ isFiniteCode f (withSign f neg 0) :=
  ⟨by simp [valueOf, fpDecode_zero, rationalOf], withSign_lt f neg (Nat.two_pow_pos _), _, _, _, fpDecode_zero f neg⟩

/-- A zero is delivered as the zero of its sign. -/
theorem roundResult_zero_eq (f : FpFormat) (mode : RoundMode) (flush : Bool) (setting : Saturation) (neg : Bool) (exp : Int) :
    roundResult f mode flush setting neg 0 exp = ⟨withSign f neg 0, 0⟩ := rfl

theorem rationalOf_zero {neg : Bool} {e : Int} {x : ℚ} (h : rationalOf (.num neg 0 e) = some x) : x = 0 := by
  rw [← Option.some.inj h]
  simp

/-- Settles O7: the rounded significand is the nearest integer in the unit of its binade, and every finite number is a multiple of
that unit or lies below the binade. -/
theorem roundsToNearest : Obligations.RoundsToNearest := by
  intro f setting neg mant exp x hx r hflag
  by_cases hm : mant = 0
  · subst hm
    obtain rfl := rationalOf_zero hx
    obtain ⟨hvalue, hfinite⟩ := zero_value f neg
    refine ⟨0, hvalue, hfinite, fun _ => rfl, fun c z _ _ => ?_⟩
    rw [sub_self, abs_zero]
    exact ⟨abs_nonneg _, fun h hne => absurd (by simpa using h) hne⟩
  · obtain ⟨U, q, hat, hdel⟩ := roundResult_delivers (K := ℚ) f .rne setting neg exp hm
    have hmax : magCode f U q ≤ maxFinite f := by
      by_contra hover
      have hr : r = _ := hdel.overflow (not_le.mp hover)
      rw [hr, overflowResult_flags] at hflag
      exact absurd hflag (by decide)
    obtain rfl : signOf neg * (mant * 2 ^ exp) = x := by rw [← mul_assoc]; exact Option.some.inj hx
    obtain ⟨y, hvalue, hfinite, -, hexact, hnearest⟩ := delivers_nearest hat hdel hmax
    exact ⟨y, hvalue, hfinite, hexact, fun c z hc hz => (hnearest c z hc hz trivial).imp_right fun h => h rfl⟩

/-! ### Overflow (R39) -/

/-- The unit of the largest binade, as a power of two. -/
def topUnit (f : FpFormat) : Int := (expBias f : Int) - fracBits f

section
variable {K : Type*} [Field K] [LinearOrder K] [IsStrictOrderedRing K]

/-- A magnitude rounds beyond the largest binade. -/
def OverflowsAt (f : FpFormat) (d : Direction) (X : K) : Prop :=
  match d with
  | .nearest => 2 * (2 : K) ^ (fracBits f + 1) - 1 ≤ 2 * (X / 2 ^ topUnit f)
  | .down => (2 : K) ^ (fracBits f + 1) ≤ X / 2 ^ topUnit f
  | .up => (2 : K) ^ (fracBits f + 1) - 1 < X / 2 ^ topUnit f

theorem overflowsAt_of_le {f : FpFormat} {X : K} (d : Direction) (h : (2 : K) ^ (fracBits f + 1) ≤ X / 2 ^ topUnit f) :
    OverflowsAt f d X := by
  cases d with
  | nearest => exact (by linarith : 2 * (2 : K) ^ (fracBits f + 1) - 1 ≤ 2 * (X / 2 ^ topUnit f))
  | down => exact h
  | up => exact (by linarith : (2 : K) ^ (fracBits f + 1) - 1 < X / 2 ^ topUnit f)

theorem not_overflowsAt_of_lt {f : FpFormat} {X : K} (d : Direction) (h : X / 2 ^ topUnit f < (2 : K) ^ fracBits f) :
    ¬ OverflowsAt f d X := by
  have hone : (1 : K) ≤ 2 ^ fracBits f := one_le_pow₀ one_le_two
  intro hover
  cases d <;> simp only [OverflowsAt, pow_succ] at hover <;> linarith

/-- In the largest binade a number overflows where it is rounded to the power of two above. -/
theorem overflowsAt_iff {f : FpFormat} {d : Direction} {X : K} {q : Nat} (hhigh : X / 2 ^ topUnit f < (2 : K) ^ (fracBits f + 1))
    (h : RoundsInt d (X / 2 ^ topUnit f) q) : OverflowsAt f d X ↔ 2 ^ (fracBits f + 1) ≤ q := by
  have hcast : ((2 ^ (fracBits f + 1) : Nat) : K) = 2 ^ (fracBits f + 1) := by push_cast; rfl
  have heven : 2 ^ (fracBits f + 1) % 2 = 0 := by rw [Nat.pow_succ, Nat.mul_mod_left]
  rw [← hcast] at hhigh
  cases d with
  | nearest => rw [OverflowsAt, h.le_iff_of_even heven, hcast]
  | down =>
    rw [OverflowsAt, ← hcast]
    refine ⟨fun hover => absurd hover (not_le.mpr hhigh), fun hq => ?_⟩
    have hle : ((2 ^ (fracBits f + 1) : Nat) : K) ≤ q := by exact_mod_cast hq
    exact hle.trans h.1
  | up =>
    obtain ⟨hlo, hhi⟩ := h
    rw [OverflowsAt, ← hcast]
    constructor
    · intro hover
      have hlt : ((2 ^ (fracBits f + 1) : Nat) : K) < q + 1 := by linarith
      exact Nat.lt_succ_iff.mp (by exact_mod_cast hlt)
    · intro hq
      have hle : ((2 ^ (fracBits f + 1) : Nat) : K) ≤ q := by exact_mod_cast hq
      linarith

theorem RoundedAt.overflow_iff {f : FpFormat} (hf : f ≠ .e4m3) {d : Direction} {X : K} {U : Int} {q : Nat}
    (h : RoundedAt f d X U q) : maxFinite f < magCode f U q ↔ OverflowsAt f d X := by
  have hmax := maxFinite_succ hf
  have hbias : 1 ≤ expBias f := by cases f <;> decide
  have hfrac : 0 < 2 ^ fracBits f := Nat.two_pow_pos _
  have htop : topUnit f = leastUnit f + (2 * expBias f - 1 : Nat) := by rw [topUnit, leastUnit]; omega
  have hq := h.q_le
  have hlowq := h.le_q
  have hunit := h.unit
  obtain ⟨j, hj⟩ : ∃ j : Nat, U = leastUnit f + j := ⟨(U - leastUnit f).toNat, by omega⟩
  have hcode : magCode f U q = j * 2 ^ fracBits f + q := by rw [magCode]; congr 2; omega
  have hpos : (0 : K) < 2 ^ U := by positivity
  have hscale : X / 2 ^ topUnit f = X / 2 ^ U * 2 ^ (U - topUnit f) := by
    rw [zpow_sub₀ two_ne_zero]
    field_simp
  have hX : X / 2 ^ U < (2 : K) ^ (fracBits f + 1) := h.high
  rcases Nat.lt_trichotomy j (2 * expBias f - 1) with hlt | heq | hgt
  · have hle : (j + 2) * 2 ^ fracBits f ≤ (2 * expBias f) * 2 ^ fracBits f := Nat.mul_le_mul_right _ (by omega)
    rw [Nat.add_mul] at hle hmax
    rw [Nat.pow_succ] at hq
    refine iff_of_false (by omega) (not_overflowsAt_of_lt d ?_)
    rw [hscale]
    calc X / 2 ^ U * 2 ^ (U - topUnit f) < 2 ^ (fracBits f + 1) * 2 ^ (U - topUnit f) := by gcongr
      _ ≤ 2 ^ (fracBits f + 1) * 2 ^ (-1 : Int) := by
          gcongr
          · exact one_le_two
          · omega
      _ = 2 ^ fracBits f := half_pow_succ _
  · obtain rfl : U = topUnit f := by omega
    rw [overflowsAt_iff hX h.rounds, hcode, heq, Nat.pow_succ]
    have hsplit : (2 * expBias f + 1) * 2 ^ fracBits f = (2 * expBias f - 1) * 2 ^ fracBits f + 2 ^ fracBits f * 2 := by
      rw [mul_comm (2 ^ fracBits f) 2, ← Nat.add_mul]
      congr 1
      omega
    omega
  · have hle : (2 * expBias f) * 2 ^ fracBits f ≤ j * 2 ^ fracBits f := Nat.mul_le_mul_right _ (by omega)
    rw [Nat.add_mul] at hmax
    refine iff_of_true (by omega) (overflowsAt_of_le d ?_)
    have hlow := h.low.resolve_left (by omega)
    rw [hscale]
    calc (2 : K) ^ (fracBits f + 1) = 2 ^ fracBits f * 2 ^ (1 : Int) := by rw [pow_succ, zpow_one]
      _ ≤ X / 2 ^ U * 2 ^ (U - topUnit f) :=
          mul_le_mul hlow (zpow_le_zpow_right₀ one_le_two (by omega)) (by positivity) (hlow.trans' (by positivity))

end

end Sys2Proof.Machine
end

section
/-!
PROOFS. Rounded once, under each mode (R38, R39): a result that `roundResult` delivers is what `RoundedOnce` asks for.
-/

namespace Sys2Proof.Machine

/-! ### The bounds of R39 -/

theorem topUlp_pos (f : FpFormat) : 0 < topUlp f := by
  rw [topUlp]
  positivity

theorem topUlp_le_aboveAll (f : FpFormat) : topUlp f ≤ aboveAll f := by
  rw [topUlp, aboveAll, ← zpow_natCast]
  exact zpow_le_zpow_right₀ one_le_two (by push_cast; omega)

theorem overflowsAt_magnitude (f : FpFormat) (d : Direction) (X : ℚ) : OverflowsAt f d X ↔ match d with
    | .nearest => aboveAll f - topUlp f / 2 ≤ X
    | .down => aboveAll f ≤ X
    | .up => aboveAll f - topUlp f < X := by
  have hpos := topUlp_pos f
  have hall : aboveAll f = 2 ^ (fracBits f + 1) * topUlp f := by
    rw [aboveAll, topUlp, ← zpow_natCast, ← zpow_natCast, ← zpow_add₀ two_ne_zero]
    congr 1
    push_cast
    ring
  have hunit : (2 : ℚ) ^ topUnit f = topUlp f := rfl
  cases d with
  | nearest =>
    have hsplit : X / topUlp f * topUlp f = X := div_mul_cancel₀ _ hpos.ne'
    rw [OverflowsAt, hall, hunit, ← mul_le_mul_iff_left₀ hpos, mul_assoc, hsplit]
    constructor <;> intro h <;> linarith
  | down =>
    rw [OverflowsAt, hall, hunit]
    exact le_div_iff₀ hpos
  | up =>
    rw [OverflowsAt, hall, hunit, lt_div_iff₀ hpos, sub_mul, one_mul]

/-! ### A number by its sign and magnitude -/

section
variable {neg : Bool} {x X : ℚ} (hx : x = signOf neg * X) (hX : 0 < X)
include hx hX

theorem decide_neg_of_signed : decide (x < 0) = neg := by
  subst hx
  cases neg
  · simpa [signOf] using hX.le
  · simpa [signOf] using hX

theorem abs_of_signed : |x| = X := by rw [hx, abs_mul, abs_signOf, one_mul, abs_of_pos hX]

/-- The side of a mode, seen from the number's own sign (R38). -/
theorem onSideOf_of_onSide {mode : RoundMode} {z : ℚ} (h : onSide mode x z) :
    OnSideOf (directionOf mode neg) X (signOf neg * z) := by
  cases mode with
  | rne => trivial
  | rtz =>
    obtain ⟨hle, -⟩ := h
    rw [abs_of_signed hx hX] at hle
    calc signOf neg * z ≤ |signOf neg * z| := le_abs_self _
      _ = |z| := by rw [abs_mul, abs_signOf, one_mul]
      _ ≤ X := hle
  | rup =>
    have hle : x ≤ z := h
    subst hx
    cases neg <;> simp only [directionOf, OnSideOf, signOf, Bool.false_eq_true, if_true, if_false] at hle ⊢ <;> linarith
  | rdn =>
    have hle : z ≤ x := h
    subst hx
    cases neg <;> simp only [directionOf, OnSideOf, signOf, Bool.false_eq_true, if_true, if_false] at hle ⊢ <;> linarith

theorem onSide_of_onSideOf {mode : RoundMode} {w : ℚ} (hw : 0 ≤ w) (h : OnSideOf (directionOf mode neg) X w) :
    onSide mode x (signOf neg * w) := by
  cases mode with
  | rne => trivial
  | rtz =>
    have hle : w ≤ X := h
    refine ⟨?_, ?_⟩
    · rw [abs_of_signed hx hX, abs_mul, abs_signOf, one_mul, abs_of_nonneg hw]
      exact hle
    · rw [hx, mul_mul_mul_comm, signOf_mul_self, one_mul]
      positivity
  | rup =>
    subst hx
    cases neg <;> simp only [directionOf, OnSideOf, onSide, signOf, Bool.false_eq_true, if_true, if_false] at h ⊢ <;> linarith
  | rdn =>
    subst hx
    cases neg <;> simp only [directionOf, OnSideOf, onSide, signOf, Bool.false_eq_true, if_true, if_false] at h ⊢ <;> linarith

/-- R39's overflow, seen from the magnitude. -/
theorem overflows_iff (f : FpFormat) (mode : RoundMode) : overflows f mode x ↔ OverflowsAt f (directionOf mode neg) X := by
  have habs := abs_of_signed hx hX
  have hulp := topUlp_pos f
  have hall := topUlp_le_aboveAll f
  rw [overflowsAt_magnitude]
  cases mode with
  | rne => rw [overflows, habs]; rfl
  | rtz => rw [overflows, habs]; rfl
  | rup =>
    subst hx
    cases neg <;> simp only [overflows, directionOf, signOf, Bool.false_eq_true, if_true, if_false]
    · exact ⟨fun h => h.elim (by intro; linarith) (by intro; linarith), fun h => .inl (by linarith)⟩
    · exact ⟨fun h => h.elim (by intro; linarith) (by intro; linarith), fun h => .inr (by linarith)⟩
  | rdn =>
    subst hx
    cases neg <;> simp only [overflows, directionOf, signOf, Bool.false_eq_true, if_true, if_false]
    · exact ⟨fun h => h.elim (by intro; linarith) (by intro; linarith), fun h => .inl (by linarith)⟩
    · exact ⟨fun h => h.elim (by intro; linarith) (by intro; linarith), fun h => .inr (by linarith)⟩

end

/-! ### Rounded once (R38, R39) -/

theorem overflowResult_ieee {f : FpFormat} (hf : f ≠ .e4m3) (mode : RoundMode) (neg : Bool) : overflowResult f mode .ieee neg =
    ⟨withSign f neg (if overflowToInf mode neg then infCode f else maxFinite f), flagOF ||| flagIX⟩ := by
  cases mode <;> cases neg <;> simp [overflowResult, overflowToInf, hf]

/-- What is delivered for a number that rounds to some units is the number rounded once. -/
theorem roundedOnce_of_delivers {f : FpFormat} (hf : f ≠ .e4m3) {mode : RoundMode} {neg : Bool} {x X : ℚ} (hx : x = signOf neg * X)
    (hX : 0 < X) {U : Int} {q : Nat} {r : FpResult} (hat : RoundedAt f (directionOf mode neg) X U q)
    (hdel : DeliversAt f mode .ieee neg X U q r) : RoundedOnce f mode x r := by
  have hover := hat.overflow_iff hf
  rw [← overflows_iff hx hX] at hover
  refine ⟨fun h => ?_, fun h => ?_⟩
  · rw [hdel.overflow (hover.mpr h), overflowResult_ieee hf, decide_neg_of_signed hx hX]
  · have hmax : magCode f U q ≤ maxFinite f := not_lt.mp (mt hover.mp h)
    obtain ⟨y, hvalue, hfinite, hy, hexact, hnearest⟩ := delivers_nearest hat hdel hmax
    rw [← hx] at hexact hnearest
    refine ⟨hdel.clear hmax, y, hvalue, hfinite, ?_, hexact, fun c z hc hz hside => ?_⟩
    · rw [hy]
      exact onSide_of_onSideOf hx hX (by positivity) hat.onSide
    · obtain ⟨hle, htie⟩ := hnearest c z hc hz (onSideOf_of_onSide hx hX hside)
      exact ⟨hle, fun hmode => htie (by rw [hmode]; rfl)⟩

theorem delivers_sign {K : Type*} [Field K] {f : FpFormat} (hf : f ≠ .e4m3) {mode : RoundMode} {neg : Bool} {X : K} {U : Int}
    {q : Nat} {r : FpResult} (hdel : DeliversAt f mode .ieee neg X U q r) : r.code / signBit f % 2 = if neg then 1 else 0 := by
  have hsign : ∀ mag, mag < signBit f → withSign f neg mag / signBit f % 2 = if neg then 1 else 0 := fun mag h => by
    rw [(fields_withSign f neg h).1]
    cases neg <;> rfl
  rcases Nat.lt_or_ge (maxFinite f) (magCode f U q) with h | h
  · rw [hdel.overflow h, overflowResult_ieee hf]
    refine hsign _ ?_
    split
    · cases f <;> decide
    · exact maxFinite_lt_signBit f
  · rw [hdel.code h]
    exact hsign _ (h.trans_lt (maxFinite_lt_signBit f))

/-- A zero result with no flag is zero rounded once. -/
theorem roundedOnce_zero (f : FpFormat) (mode : RoundMode) (neg : Bool) : RoundedOnce f mode 0 ⟨withSign f neg 0, 0⟩ := by
  obtain ⟨hvalue, hfinite⟩ := zero_value f neg
  have hulp := topUlp_pos f
  have hall := topUlp_le_aboveAll f
  have hover : ¬ overflows f mode 0 := by
    cases mode with
    | rne | rtz =>
      simp only [overflows, abs_zero, not_le]
      linarith
    | rup | rdn =>
      simp only [overflows, not_or, not_le, not_lt]
      constructor <;> linarith
  have hside : onSide mode 0 0 := by cases mode <;> simp [onSide]
  refine ⟨fun h => absurd h hover, fun _ => ⟨BitVec.getLsbD_zero, 0, hvalue, hfinite, hside, fun _ => rfl, fun c z _ _ _ => ?_⟩⟩
  rw [sub_self, abs_zero]
  exact ⟨abs_nonneg _, fun _ h hne => absurd (by simpa using h) hne⟩

theorem roundsUnderModes : RoundsUnderModes := by
  intro f hf mode neg mant exp x hx
  by_cases hm : mant = 0
  · subst hm
    obtain rfl := rationalOf_zero hx
    rw [roundResult_zero_eq]
    refine ⟨roundedOnce_zero f mode neg, ?_⟩
    rw [(fields_withSign f neg (Nat.two_pow_pos _)).1]
    cases neg <;> rfl
  · obtain ⟨U, q, hat, hdel⟩ := roundResult_delivers (K := ℚ) f mode .ieee neg exp hm
    have hsigned : x = signOf neg * (mant * 2 ^ exp) := by rw [← mul_assoc]; exact (Option.some.inj hx).symm
    have hpos : (0 : ℚ) < mant * 2 ^ exp := by positivity
    exact ⟨roundedOnce_of_delivers hf hsigned hpos hat hdel, delivers_sign hf hdel⟩

end Sys2Proof.Machine
end

section
/-!
PROOFS. Quotients and square roots are correctly rounded (R155, R158): a significand whose lowest bit stands for what was left over
rounds as the exact number does.
-/

namespace Sys2Proof.Machine

/-! ### A sticky significand -/

section
variable {K : Type*} [Field K] [LinearOrder K] [IsStrictOrderedRing K]

/-- s units of 2^e stand for T: exactly, or, where s is odd, for any number between the even significands about it. -/
def StandsFor (s : Nat) (e : Int) (T : K) : Prop :=
  (s : K) * 2 ^ e = T ∨ s % 2 = 1 ∧ ((s : K) - 1) * 2 ^ e < T ∧ T < (s + 1) * 2 ^ e

/-- In a unit that is coarse enough, both compare alike with every half of an integer. -/
theorem StandsFor.sameHalves {s : Nat} {e : Int} {T : K} (h : StandsFor s e T) {U : Int} (hU : e + 2 ≤ U) :
    SameHalves ((s : K) * 2 ^ e / 2 ^ U) (T / 2 ^ U) := by
  rcases h with rfl | ⟨hodd, hlo, hhi⟩
  · exact fun _ => ⟨Iff.rfl, Iff.rfl⟩
  obtain ⟨j, rfl⟩ : ∃ j : Nat, U = e + 2 + j := ⟨(U - e - 2).toNat, by omega⟩
  have he : (0 : K) < 2 ^ e := by positivity
  have hU : (2 : K) ^ (e + 2 + (j : Int)) = 4 * 2 ^ j * 2 ^ e := by
    rw [zpow_add₀ two_ne_zero, zpow_add₀ two_ne_zero, zpow_natCast]
    norm_num
    ring
  have hpos : (0 : K) < 4 * 2 ^ j * 2 ^ e := by positivity
  have hle : ∀ (n : Int) (x : K), n ≤ 2 * (x / (4 * 2 ^ j * 2 ^ e)) ↔ ((2 * n * 2 ^ j : Int) : K) * 2 ^ e ≤ x := fun n x => by
    rw [← mul_div_assoc, le_div_iff₀ hpos]
    push_cast
    constructor <;> intro h <;> linarith
  have hge : ∀ (n : Int) (x : K), 2 * (x / (4 * 2 ^ j * 2 ^ e)) ≤ n ↔ x ≤ ((2 * n * 2 ^ j : Int) : K) * 2 ^ e := fun n x => by
    rw [← mul_div_assoc, div_le_iff₀ hpos]
    push_cast
    constructor <;> intro h <;> linarith
  intro n
  rw [hU, hle, hle, hge, hge, mul_le_mul_iff_left₀ he, mul_le_mul_iff_left₀ he]
  have heven : (2 * n * 2 ^ j) % 2 = 0 := by rw [mul_assoc, Int.mul_emod_right]
  generalize 2 * n * 2 ^ j = k at *
  refine ⟨⟨fun h => ?_, fun h => ?_⟩, ⟨fun h => ?_, fun h => ?_⟩⟩
  · have hk : k ≤ s - 1 := by
      have : k ≤ (s : Int) := by exact_mod_cast h
      omega
    have hk : (k : K) ≤ s - 1 := by exact_mod_cast hk
    exact (mul_le_mul_of_nonneg_right hk he.le).trans hlo.le
  · have hk : (k : K) < s + 1 := lt_of_mul_lt_mul_right (h.trans_lt hhi) he.le
    exact_mod_cast Int.lt_add_one_iff.mp (by exact_mod_cast hk)
  · have hk : (s : Int) + 1 ≤ k := by
      have : (s : Int) ≤ k := by exact_mod_cast h
      omega
    have hk : (s : K) + 1 ≤ k := by exact_mod_cast hk
    exact hhi.le.trans (mul_le_mul_of_nonneg_right hk he.le)
  · have hk : (s : K) - 1 < k := lt_of_mul_lt_mul_right (hlo.trans_le h) he.le
    have hk : (s : Int) - 1 < k := by exact_mod_cast hk
    exact_mod_cast (by omega : (s : Int) ≤ k)

/-- A number is rounded in the unit of a significand with two bits more than the format's that stands for it. -/
theorem StandsFor.roundedAt {s : Nat} {e : Int} {T : K} (h : StandsFor s e T) {f : FpFormat} (hs : 2 ^ (fracBits f + 2) ≤ s)
    {d : Direction} {U : Int} {q : Nat} (hat : RoundedAt f d ((s : K) * 2 ^ e) U q) : e + 2 ≤ U ∧ RoundedAt f d T U q := by
  have hU : e + 2 ≤ U := by
    by_contra hlt
    have hlarge : ((2 ^ (fracBits f + 2) : Nat) : K) ≤ s := by exact_mod_cast hs
    have hhigh := hat.high
    rw [scaled_div] at hhigh
    have hle : (2 : K) ^ (fracBits f + 1) ≤ s * 2 ^ (e - U) :=
      calc (2 : K) ^ (fracBits f + 1) = (2 ^ (fracBits f + 2) : Nat) * 2 ^ (-1 : Int) := by
            push_cast
            exact (half_pow_succ _).symm
        _ ≤ s * 2 ^ (e - U) := mul_le_mul hlarge (zpow_le_zpow_right₀ one_le_two (by omega)) (by positivity) (by positivity)
    exact absurd hhigh (not_lt.mpr hle)
  have hsame := h.sameHalves hU
  have hcast : ∀ n : Nat, ((2 ^ n : Nat) : K) = 2 ^ n := fun n => by push_cast; rfl
  refine ⟨hU, hat.unit, hat.low.imp_right fun hlow => ?_, ?_, hat.rounds.congr hsame⟩
  · rw [← hcast] at hlow ⊢
    exact (hsame.le_iff _).mp hlow
  · have hhigh := hat.high
    rw [← hcast, ← not_le] at hhigh ⊢
    exact mt (hsame.le_iff _).mpr hhigh

/-- So a significand that stands for a number delivers that number. -/
theorem StandsFor.roundResult_delivers {s : Nat} {e : Int} {T : K} (h : StandsFor s e T) {f : FpFormat}
    (hs : 2 ^ (fracBits f + 2) ≤ s) (mode : RoundMode) (setting : Saturation) (neg : Bool) :
    ∃ U q, RoundedAt f (directionOf mode neg) T U q ∧
      DeliversAt f mode setting neg T U q (roundResult f mode false setting neg s e) := by
  have hs0 : s ≠ 0 := ((Nat.two_pow_pos _).trans_le hs).ne'
  obtain ⟨U, q, hat, hdel⟩ := Machine.roundResult_delivers (K := K) f mode setting neg e hs0
  obtain ⟨hU, hat⟩ := h.roundedAt hs hat
  refine ⟨U, q, hat, hdel.overflow, hdel.code, hdel.clear, fun hmax hflag => ?_⟩
  have hexact := hdel.faithful hmax hflag
  rcases h with rfl | ⟨hodd, -, -⟩
  · exact hexact
  · obtain ⟨j, rfl⟩ : ∃ j : Nat, U = e + 1 + j := ⟨(U - e - 1).toNat, by omega⟩
    have hpos : (2 : K) ^ e ≠ 0 := by positivity
    rw [zpow_add₀ two_ne_zero, zpow_add₀ two_ne_zero, zpow_one, zpow_natCast, mul_comm ((2 : K) ^ e) 2, mul_right_comm,
      ← mul_assoc] at hexact
    have heven : 2 * (q * 2 ^ j) = s := by
      rw [Nat.mul_left_comm]
      exact_mod_cast mul_right_cancel₀ hpos hexact
    omega

/-- A quotient, its lowest bit standing for the remainder. -/
theorem standsFor_quotient (num : Nat) {den : Nat} (hden : den ≠ 0) (e : Int) :
    StandsFor (2 * (num / den) + if num % den == 0 then 0 else 1) e (2 * ((num : K) / den) * 2 ^ e) := by
  have hd : (0 : K) < den := by exact_mod_cast Nat.pos_of_ne_zero hden
  have he : (0 : K) < 2 ^ e := by positivity
  have hsplit : (num : K) / den = (num / den : Nat) + (num % den : Nat) / den := by
    rw [eq_comm, add_div' _ _ _ hd.ne']
    congr 1
    exact_mod_cast Nat.div_add_mod' num den
  have hlt : ((num % den : Nat) : K) / den < 1 := by
    rw [div_lt_one hd]
    exact_mod_cast Nat.mod_lt _ (Nat.pos_of_ne_zero hden)
  rw [hsplit]
  by_cases hmod : num % den = 0
  · left
    simp [hmod]
  · right
    have hpos : 0 < ((num % den : Nat) : K) / den := div_pos (by exact_mod_cast Nat.pos_of_ne_zero hmod) hd
    have hif : (if num % den == 0 then 0 else 1) = 1 := if_neg (by simpa using hmod)
    rw [hif]
    refine ⟨by omega, mul_lt_mul_of_pos_right ?_ he, mul_lt_mul_of_pos_right ?_ he⟩ <;> push_cast <;> linarith

end

/-! ### Quotients (R155, R158) -/

theorem readSource_gradual {f : FpFormat} (hf : flushes f = false) (c : Nat) : readSource f c = (fpDecode f c, 0) := by
  simp [readSource, hf]

theorem quotient_large (f : FpFormat) {m n : Nat} (hm : m ≠ 0) (hn : n ≠ 0) :
    2 ^ (fracBits f + 3) ≤ m * 2 ^ (fracBits f + 4 + Nat.log2 n) / n := by
  rw [Nat.le_div_iff_mul_le (Nat.pos_of_ne_zero hn)]
  calc 2 ^ (fracBits f + 3) * n ≤ 2 ^ (fracBits f + 3) * 2 ^ (Nat.log2 n + 1) := Nat.mul_le_mul_left _ Nat.lt_log2_self.le
    _ = 1 * 2 ^ (fracBits f + 4 + Nat.log2 n) := by rw [← Nat.pow_add, Nat.one_mul]; congr 1; omega
    _ ≤ m * 2 ^ (fracBits f + 4 + Nat.log2 n) := Nat.mul_le_mul_right _ (Nat.pos_of_ne_zero hm)

theorem signOf_bne (s t : Bool) : signOf (s != t) = signOf s / signOf t := by cases s <;> cases t <;> norm_num [signOf]

theorem divRound_roundedOnce {f : FpFormat} (hgradual : flushes f = false) (hf : f ≠ .e4m3) (mode : RoundMode) {s t : Bool}
    {m n : Nat} {e g : Int} {x y : ℚ} (hx : rationalOf (.num s m e) = some x) (hy : rationalOf (.num t n g) = some y) (hm : m ≠ 0)
    (hn : n ≠ 0) :
    RoundedOnce f mode (x / y) (divRound f mode (s != t) m e n g) := by
  obtain rfl := Option.some.inj hx
  obtain rfl := Option.some.inj hy
  rw [divRound, hgradual, stickyQuot]
  generalize hk : fracBits f + 4 + Nat.log2 n = k
  have hlarge := hk ▸ quotient_large f hm hn
  rw [Nat.pow_succ] at hlarge
  obtain ⟨U, q, hat, hdel⟩ := (standsFor_quotient (K := ℚ) (m * 2 ^ k) hn (e - g - k - 1)).roundResult_delivers (f := f) (by omega)
    mode .ieee (s != t)
  refine roundedOnce_of_delivers hf ?_ (by positivity) hat hdel
  rw [signOf_bne]
  change signOf s * m * 2 ^ e / (signOf t * n * 2 ^ g) = _
  have ht : signOf t ≠ 0 := by cases t <;> simp [signOf]
  have hn : (n : ℚ) ≠ 0 := by exact_mod_cast hn
  rw [zpow_sub_one₀ two_ne_zero, zpow_sub₀ two_ne_zero, zpow_sub₀ two_ne_zero, zpow_natCast]
  push_cast
  field_simp

theorem rational_ne_zero {neg : Bool} {m : Nat} {e : Int} {x : ℚ} (h : rationalOf (.num neg m e) = some x) (hm : m ≠ 0) :
    x ≠ 0 := by
  rw [← abs_pos, abs_rational h]
  positivity

/-- A non-zero number has a significand. -/
theorem mant_ne_zero {neg : Bool} {m : Nat} {e : Int} {x : ℚ} (h : rationalOf (.num neg m e) = some x) (hx : x ≠ 0) : m ≠ 0 :=
  fun h0 => hx (rationalOf_zero (h0 ▸ h))

theorem fpDiv_roundedOnce {f : FpFormat} (hgradual : flushes f = false) (hf : f ≠ .e4m3) (mode : RoundMode) {a b : Nat} {x y : ℚ}
    (ha : isFiniteCode f a) (hb : isFiniteCode f b) (hx : valueOf f a = some x) (hy : valueOf f b = some y)
    (hx0 : x ≠ 0) (hy0 : y ≠ 0) : RoundedOnce f mode (x / y) (fpDiv f mode a b) := by
  obtain ⟨-, s, m, e, hda⟩ := ha
  obtain ⟨-, t, n, g, hdb⟩ := hb
  rw [valueOf, hda] at hx
  rw [valueOf, hdb] at hy
  have hm := mant_ne_zero hx hx0
  have hn := mant_ne_zero hy hy0
  have hdiv : fpDiv f mode a b = divRound f mode (s != t) m e n g := by
    simp [fpDiv, readSource_gradual hgradual, hda, hdb, hn]
  rw [hdiv]
  exact divRound_roundedOnce hgradual hf mode hx hy hm hn

/-! ### Square roots (R158) -/

theorem isqrtGo_spec {n k r : Nat} (hlo : r * r ≤ n) (hhi : n < (r + 2 ^ k) * (r + 2 ^ k)) :
    isqrtGo n k r * isqrtGo n k r ≤ n ∧ n < (isqrtGo n k r + 1) * (isqrtGo n k r + 1) := by
  induction k generalizing r with
  | zero => exact ⟨hlo, hhi⟩
  | succ k ih =>
    rw [isqrtGo]
    split
    · next h => exact ih h (by rw [Nat.add_assoc, ← Nat.two_mul, ← Nat.pow_succ']; exact hhi)
    · next h => exact ih hlo (Nat.lt_of_not_le h)

theorem isqrt_eq_sqrt (n : Nat) : isqrt n = Nat.sqrt n := by
  refine Nat.eq_sqrt.mpr (isqrtGo_spec (Nat.zero_le _) ?_)
  rw [Nat.zero_add, ← Nat.pow_add]
  exact Nat.lt_log2_self.trans_le (Nat.pow_le_pow_right two_pos (by omega))

/-- A square root, its lowest bit standing for what is left over. -/
theorem standsFor_sqrt (n : Nat) (e : Int) :
    StandsFor (2 * isqrt n + if isqrt n * isqrt n == n then 0 else 1) e (2 * Real.sqrt n * 2 ^ e) := by
  have he : (0 : ℝ) < 2 ^ e := by positivity
  rw [isqrt_eq_sqrt]
  have hlo : (Nat.sqrt n : ℝ) ≤ Real.sqrt n := Real.nat_sqrt_le_real_sqrt
  have hhi : Real.sqrt n < Nat.sqrt n + 1 := Real.real_sqrt_lt_nat_sqrt_succ
  by_cases hsquare : Nat.sqrt n * Nat.sqrt n = n
  · left
    have hroot : Real.sqrt n = Nat.sqrt n := by
      conv_lhs => rw [← hsquare]
      rw [Nat.cast_mul, Real.sqrt_mul_self (Nat.cast_nonneg _)]
    simp [hsquare, hroot]
  · right
    have hlt : (Nat.sqrt n : ℝ) < Real.sqrt n := lt_of_le_of_ne hlo fun heq => hsquare (by
      have hmul := Real.mul_self_sqrt (Nat.cast_nonneg (α := ℝ) n)
      rw [← heq] at hmul
      exact_mod_cast hmul)
    have hif : (if Nat.sqrt n * Nat.sqrt n == n then 0 else 1) = 1 := if_neg (by simpa using hsquare)
    rw [hif]
    refine ⟨by omega, mul_lt_mul_of_pos_right ?_ he, mul_lt_mul_of_pos_right ?_ he⟩ <;> push_cast <;> linarith

/-- The significand of a root: its exponent made even, it stands for the root (R158). -/
theorem sqrtSticky_standsFor {m : Nat} {e : Int} (hm : m ≠ 0) :
    StandsFor (sqrtSticky m e 28).1 (sqrtSticky m e 28).2 (Real.sqrt (m * 2 ^ e)) ∧ 2 ^ 29 ≤ (sqrtSticky m e 28).1 := by
  obtain ⟨m', k, hm', hvalue, hsticky⟩ : ∃ (m' : Nat) (k : Int), m' ≠ 0 ∧ (m : ℝ) * 2 ^ e = m' * 2 ^ (2 * k) ∧
      sqrtSticky m e 28 = (2 * isqrt (m' * 4 ^ 28) + if isqrt (m' * 4 ^ 28) * isqrt (m' * 4 ^ 28) == m' * 4 ^ 28 then 0 else 1,
        k - 28 - 1) := by
    by_cases hodd : e % 2 = 0
    · refine ⟨m, e / 2, hm, by congr 2; omega, ?_⟩
      simp [sqrtSticky, hodd]
    · refine ⟨2 * m, (e - 1) / 2, by omega, ?_, ?_⟩
      · rw [show 2 * ((e - 1) / 2) = e - 1 by omega, zpow_sub_one₀ two_ne_zero]
        push_cast
        ring
      · simp [sqrtSticky, hodd]
  have hroot : Real.sqrt ((m : ℝ) * 2 ^ e) = 2 * Real.sqrt ((m' * 4 ^ 28 : Nat) : ℝ) * 2 ^ (k - 28 - 1) := by
    have hsquare : (m : ℝ) * 2 ^ e = (m' * 4 ^ 28 : Nat) * (2 * 2 ^ (k - 28 - 1)) ^ 2 := by
      have hexp : (k - 28 - 1) * ((2 : Nat) : Int) = 2 * k - 58 := by push_cast; ring
      rw [hvalue, mul_pow, ← zpow_natCast ((2 : ℝ) ^ (k - 28 - 1)), ← zpow_mul, hexp, zpow_sub₀ two_ne_zero]
      push_cast
      norm_num
      ring
    rw [hsquare, Real.sqrt_mul (Nat.cast_nonneg _), Real.sqrt_sq (by positivity)]
    ring
  rw [hsticky, hroot]
  refine ⟨standsFor_sqrt _ _, ?_⟩
  have hlarge : 2 ^ 28 ≤ isqrt (m' * 4 ^ 28) := by
    rw [isqrt_eq_sqrt, Nat.le_sqrt]
    omega
  dsimp only
  omega

/-- No root overflows. -/
theorem sqrt_not_overflowsAt {x : ℝ} (hx : x < 2 ^ (128 : Int)) : ¬ OverflowsAt .fp32 .nearest (Real.sqrt x) := by
  refine not_overflowsAt_of_lt _ ?_
  have hroot : Real.sqrt x < 2 ^ (64 : Int) := by
    rw [Real.sqrt_lt' (by positivity)]
    refine hx.trans_le (le_of_eq ?_)
    norm_num
  rw [div_lt_iff₀ (by positivity)]
  refine hroot.trans ?_
  norm_num [topUnit, expBias, fracBits]

theorem fpSqrt_nearest {a : Nat} {x : ℚ} (ha : isFiniteCode .fp32 a) (hx : valueOf .fp32 a = some x) (hpos : 0 < x) :
    ∃ y, valueOf .fp32 (fpSqrt a).code = some y ∧ isFiniteCode .fp32 (fpSqrt a).code ∧
      ((fpSqrt a).flags.getLsbD 4 = false → y * y = x) ∧ 0 ≤ y ∧
      ∀ c z, isFiniteCode .fp32 c → valueOf .fp32 c = some z → |(y : ℝ) - Real.sqrt x| ≤ |(z : ℝ) - Real.sqrt x| := by
  have hsmall : (x : ℝ) < 2 ^ (128 : Int) := by
    obtain ⟨neg, m, e, hm, -, he, hvalue⟩ := finite_fp32 ha hx
    have hlt : x < 2 ^ (128 : Int) := by
      rw [← abs_of_pos hpos, abs_rational hvalue]
      calc (m : ℚ) * 2 ^ e < 2 ^ 24 * 2 ^ (104 : Int) :=
            mul_lt_mul (by exact_mod_cast hm) (zpow_le_zpow_right₀ one_le_two he) (by positivity) (by positivity)
        _ = 2 ^ (128 : Int) := by norm_num
    exact_mod_cast hlt
  obtain ⟨-, s, m, e, hdecode⟩ := ha
  rw [valueOf, hdecode] at hx
  have hm := mant_ne_zero hx hpos.ne'
  have hs : s = false := by rw [← neg_rational hm hx]; simpa using hpos.le
  subst hs
  obtain rfl : (m : ℚ) * 2 ^ e = x := by simpa [rationalOf] using hx
  have hresult : fpSqrt a = roundResult .fp32 .rne false .ieee false (sqrtSticky m e 28).1 (sqrtSticky m e 28).2 := by
    simp [fpSqrt, hdecode, hm]
  obtain ⟨hstands, hlarge⟩ := sqrtSticky_standsFor (e := e) hm
  obtain ⟨U, q, hat, hdel⟩ :=
    hstands.roundResult_delivers (f := .fp32) ((by decide : 2 ^ 25 ≤ 2 ^ 29).trans hlarge) .rne .ieee false
  rw [← hresult] at hdel
  push_cast at hsmall ⊢
  have hmax : magCode .fp32 U q ≤ maxFinite .fp32 :=
    not_lt.mp (mt (hat.overflow_iff (by decide)).mp (sqrt_not_overflowsAt hsmall))
  rw [hdel.code hmax]
  refine ⟨q * 2 ^ U, ?_, magCode_finite hat.unit hat.le_q hat.q_le hmax false, fun hflag => ?_, by positivity, fun c z hc hz => ?_⟩
  · rw [magCode_value hat.unit hat.le_q hat.q_le hmax]
    simp [rationalOf]
  · have hroot := hdel.faithful hmax hflag
    have hsquare := Real.mul_self_sqrt (show (0 : ℝ) ≤ m * 2 ^ e by positivity)
    rw [← hroot] at hsquare
    refine Rat.cast_injective (α := ℝ) ?_
    push_cast
    exact hsquare
  · obtain ⟨hle, -⟩ := hat.nearest false hc hz trivial
    have hone : signOf false = 1 := rfl
    rw [hone, one_mul] at hle
    push_cast
    exact hle

theorem quotientsAndRoots : QuotientsAndRoots := by
  refine ⟨fun f hf mode a b x y ha hb hx hy hx0 hy0 => ?_, fun a x ha hx hpos => fpSqrt_nearest ha hx hpos⟩
  rcases hf with rfl | rfl <;> exact fpDiv_roundedOnce rfl (by decide) mode ha hb hx hy hx0 hy0

end Sys2Proof.Machine
end

section
/-!
PROOFS. A rounding depends on the number alone, not on how its significand and exponent share it, so that sums, products and fused
multiply-adds are the exact result rounded once (R155).
-/

namespace Sys2Proof.Machine

/-! ### A number with another exponent rounds alike -/

theorem roundShift_shift (mode : RoundMode) (neg : Bool) (m sh k : Nat) :
    roundShift mode neg (m * 2 ^ k) (sh + k) = roundShift mode neg m sh := by
  have hpos : 0 < 2 ^ k := Nat.two_pow_pos _
  have hcarry : ∀ d q r p, carryOf d q (r * 2 ^ k) (p * 2 ^ k) = carryOf d q r p := fun d q r p => by
    cases d <;> simp only [carryOf, ← Nat.mul_assoc, Nat.mul_lt_mul_right hpos, Nat.mul_left_inj hpos.ne', Nat.mul_eq_zero,
      hpos.ne', or_false]
  rw [roundShift_eq, roundShift_eq, Nat.pow_add, Nat.mul_div_mul_right _ _ hpos, Nat.mul_mod_mul_right, hcarry]

theorem roundShift_whole (mode : RoundMode) (neg : Bool) (m sh : Nat) : roundShift mode neg (m * 2 ^ sh) sh = m := by
  have h := roundShift_shift mode neg m 0 sh
  rw [Nat.zero_add] at h
  rw [h, roundShift_eq, Nat.pow_zero, Nat.mod_one, Nat.div_one, carryOf_zero _ _ one_pos, Nat.add_zero]

theorem roundToUnit_above (mode : RoundMode) (neg : Bool) (m j : Nat) (u : Int) :
    roundToUnit mode neg m (u + j) u = (m * 2 ^ j, true) := by
  rw [roundToUnit, if_pos (by omega), show (u + (j : Int) - u).toNat = j by omega]

theorem roundToUnit_below (mode : RoundMode) (neg : Bool) (m sh : Nat) (e : Int) :
    roundToUnit mode neg m e (e + sh) = (roundShift mode neg m sh, m % 2 ^ sh == 0) := by
  by_cases h : sh = 0
  · subst h
    have hwhole := roundShift_whole mode neg m 0
    have habove := roundToUnit_above mode neg m 0 e
    rw [Nat.cast_zero, add_zero, Nat.pow_zero, Nat.mul_one] at *
    rw [habove, hwhole, Nat.mod_one]
    rfl
  · rw [roundToUnit, if_neg (by omega), show (e + (sh : Int) - e).toNat = sh by omega]

theorem roundToUnit_shift (mode : RoundMode) (neg : Bool) (m k : Nat) (e unit : Int) :
    roundToUnit mode neg (m * 2 ^ k) (e - k) unit = roundToUnit mode neg m e unit := by
  rcases le_or_gt unit (e - k) with h | h
  · obtain ⟨j, hj⟩ : ∃ j : Nat, e - k = unit + j := ⟨(e - k - unit).toNat, by omega⟩
    obtain rfl : e = unit + (j + k : Nat) := by omega
    rw [hj, roundToUnit_above, roundToUnit_above, Nat.mul_assoc, ← Nat.pow_add, Nat.add_comm]
  · obtain ⟨sh, rfl⟩ : ∃ sh : Nat, unit = e - k + sh := ⟨(unit - (e - k)).toNat, by omega⟩
    rw [roundToUnit_below]
    rcases Nat.le_total sh k with hle | hle
    · obtain ⟨j, rfl⟩ := Nat.exists_eq_add_of_le' hle
      have habove := roundToUnit_above mode neg m j (e - ((j + sh : Nat) : Int) + sh)
      rw [show e - ((j + sh : Nat) : Int) + sh + j = e by push_cast; ring] at habove
      rw [habove, Nat.pow_add, ← Nat.mul_assoc, roundShift_whole, Nat.mul_mod_left]
      rfl
    · obtain ⟨j, rfl⟩ := Nat.exists_eq_add_of_le' hle
      have he : e - (k : Int) + ((j + k : Nat) : Int) = e + j := by push_cast; ring
      rw [he, roundToUnit_below, roundShift_shift, Nat.pow_add, Nat.mul_mod_mul_right]
      congr 1
      rw [Bool.eq_iff_iff]
      simp

theorem log2_mul_two_pow {m : Nat} (hm : m ≠ 0) (k : Nat) : Nat.log2 (m * 2 ^ k) = Nat.log2 m + k := by
  rw [Nat.log2_eq_iff (by positivity)]
  have hlo := Nat.log2_self_le hm
  have hhi := Nat.lt_log2_self (n := m)
  rw [Nat.pow_add, show Nat.log2 m + k + 1 = Nat.log2 m + 1 + k by omega, Nat.pow_add _ _ k]
  exact ⟨Nat.mul_le_mul_right _ hlo, Nat.mul_lt_mul_of_pos_right hhi (Nat.two_pow_pos _)⟩

theorem roundResult_shift (f : FpFormat) (mode : RoundMode) (flush : Bool) (setting : Saturation) (neg : Bool) (m k : Nat)
    (e : Int) : roundResult f mode flush setting neg (m * 2 ^ k) (e - k) = roundResult f mode flush setting neg m e := by
  by_cases hm : m = 0
  · rw [hm, Nat.zero_mul, roundResult_zero_eq, roundResult_zero_eq]
  · have hbinade : binadeUnit f (m * 2 ^ k) (e - k) = binadeUnit f m e := by
      rw [binadeUnit, binadeUnit, log2_mul_two_pow hm]
      push_cast
      ring
    have hunit : roundedUnit f mode neg (m * 2 ^ k) (e - k) = roundedUnit f mode neg m e := by
      rw [roundedUnit, roundedUnit, hbinade, roundToUnit_shift]
    rw [roundResult_cases _ _ _ _ _ _ hm, roundResult_cases _ _ _ _ _ _ (by positivity), hunit, hbinade, roundToUnit_shift,
      roundToUnit_shift]

/-- Two ways to write one magnitude. -/
theorem same_magnitude {m n : Nat} {e g : Int} (h : (m : ℚ) * 2 ^ e = n * 2 ^ g) :
    (∃ k : Nat, m = n * 2 ^ k ∧ e = g - k) ∨ ∃ k : Nat, n = m * 2 ^ k ∧ g = e - k := by
  have hsplit : ∀ {m n : Nat} {e : Int} {k : Nat}, (m : ℚ) * 2 ^ e = n * 2 ^ (e + k) → m = n * 2 ^ k := fun h => by
    rw [zpow_add₀ two_ne_zero, zpow_natCast, mul_comm ((2 : ℚ) ^ _), ← mul_assoc] at h
    exact_mod_cast mul_right_cancel₀ (by positivity) h
  rcases le_total e g with hle | hle
  · obtain ⟨k, rfl⟩ := Int.le.dest hle
    exact .inl ⟨k, hsplit h, by omega⟩
  · obtain ⟨k, rfl⟩ := Int.le.dest hle
    exact .inr ⟨k, hsplit h.symm, by omega⟩

theorem roundResult_congr (f : FpFormat) (mode : RoundMode) (flush : Bool) (setting : Saturation) (neg : Bool) {m n : Nat}
    {e g : Int} (h : (m : ℚ) * 2 ^ e = n * 2 ^ g) :
    roundResult f mode flush setting neg m e = roundResult f mode flush setting neg n g := by
  rcases same_magnitude h with ⟨k, rfl, rfl⟩ | ⟨k, rfl, rfl⟩
  · exact roundResult_shift ..
  · exact (roundResult_shift ..).symm

/-! ### Values with the same number -/

/-- Two values are one number, with one sign, or the same special. -/
inductive SameValue : FpVal → FpVal → Prop
  | nan : SameValue .nan .nan
  | inf (s : Bool) : SameValue (.inf s) (.inf s)
  | num (s : Bool) {m n : Nat} {e g : Int} (h : (m : ℚ) * 2 ^ e = n * 2 ^ g) : SameValue (.num s m e) (.num s n g)

theorem sameValue_self (v : FpVal) : SameValue v v := by
  cases v with
  | nan => exact .nan
  | inf s => exact .inf s
  | num s m e => exact .num s rfl

theorem deliver_congr (f : FpFormat) (mode : RoundMode) {v w : FpVal} (h : SameValue v w) :
    deliver f mode v = deliver f mode w := by
  cases h with
  | nan => rfl
  | inf s => rfl
  | num s h => exact roundResult_congr f mode _ _ s h

theorem scaled_eq_zero_iff {a b : ℚ} {e g : Int} (h : a * 2 ^ e = b * 2 ^ g) : a = 0 ↔ b = 0 := by
  have hscale : ∀ (x : ℚ) (u : Int), x = 0 ↔ x * 2 ^ u = 0 := fun x u => (mul_eq_zero_iff_right (by positivity)).symm
  rw [hscale a e, hscale b g, h]

theorem mant_eq_zero_iff {m n : Nat} {e g : Int} (h : (m : ℚ) * 2 ^ e = n * 2 ^ g) : m = 0 ↔ n = 0 := by
  exact_mod_cast scaled_eq_zero_iff h

/-- A non-zero number has one sign and one magnitude. -/
theorem sameValue_of_rational {s t : Bool} {m n : Nat} {e g : Int} {q : ℚ} (hx : rationalOf (.num s m e) = some q)
    (hy : rationalOf (.num t n g) = some q) (hm : m ≠ 0) : SameValue (.num s m e) (.num t n g) := by
  have hq := rational_ne_zero hx hm
  obtain rfl : s = t := (neg_rational hm hx).symm.trans (neg_rational (mant_ne_zero hy hq) hy)
  exact .num s ((abs_rational hx).symm.trans (abs_rational hy))

theorem SameValue.rational {v w : FpVal} (h : SameValue v w) : rationalOf v = rationalOf w := by
  cases h with
  | nan => rfl
  | inf s => rfl
  | num s h => rw [rationalOf, rationalOf, mul_assoc, h, mul_assoc]

/-- A number in a unit that divides its own. -/
def inUnit (s : Bool) (m : Nat) (e u : Int) : Int := if s then -(m * 2 ^ (e - u).toNat : Int) else m * 2 ^ (e - u).toNat

theorem inUnit_value {s : Bool} {m : Nat} {e u : Int} {x : ℚ} (hx : rationalOf (.num s m e) = some x) (h : u ≤ e) :
    (inUnit s m e u : ℚ) * 2 ^ u = x := by
  obtain ⟨k, rfl⟩ := Int.le.dest h
  obtain rfl := Option.some.inj hx
  rw [inUnit, add_sub_cancel_left, Int.toNat_natCast, zpow_add₀ two_ne_zero, zpow_natCast]
  cases s <;> push_cast <;> simp <;> ring

/-- The number of units of a sum (R155). -/
def sumUnits (s : Bool) (m : Nat) (e : Int) (t : Bool) (n : Nat) (g : Int) : Int :=
  inUnit s m e (min e g) + inUnit t n g (min e g)

theorem sumUnits_value {s t : Bool} {m n : Nat} {e g : Int} {x y : ℚ} (hx : rationalOf (.num s m e) = some x)
    (hy : rationalOf (.num t n g) = some y) : (sumUnits s m e t n g : ℚ) * 2 ^ min e g = x + y := by
  rw [sumUnits, Int.cast_add, add_mul, inUnit_value hx (min_le_left e g), inUnit_value hy (min_le_right e g)]

theorem addVal_num (mode : RoundMode) (s t : Bool) (m n : Nat) (e g : Int) : addVal mode (.num s m e) (.num t n g) =
    some (if sumUnits s m e t n g = 0 then .num (if s == t then s else mode == .rdn) 0 (min e g)
      else .num (decide (sumUnits s m e t n g < 0)) (sumUnits s m e t n g).natAbs (min e g)) := by
  have hunits : (if s then -(m * 2 ^ (e - min e g).toNat : Int) else m * 2 ^ (e - min e g).toNat) +
      (if t then -(n * 2 ^ (g - min e g).toNat : Int) else n * 2 ^ (g - min e g).toNat) = sumUnits s m e t n g := rfl
  rw [addVal, hunits]
  simp only [beq_iff_eq]
  split <;> rfl

theorem rationalOf_units (z u : Int) : rationalOf (.num (decide (z < 0)) z.natAbs u) = some ((z : ℚ) * 2 ^ u) := by
  have h := rationalOf_int z
  rw [rationalOf_num, zpow_zero, mul_one] at h
  rw [rationalOf_num, Option.some.inj h]

/-- A non-zero sum is delivered as its number rounded once. -/
theorem addVal_exact {mode : RoundMode} {s t : Bool} {m n : Nat} {e g : Int} {x y : ℚ} (hx : rationalOf (.num s m e) = some x)
    (hy : rationalOf (.num t n g) = some y) {neg : Bool} {p : Nat} {u : Int} (hp : p ≠ 0)
    (hsum : rationalOf (.num neg p u) = some (x + y)) :
    ∃ v, addVal mode (.num s m e) (.num t n g) = some v ∧ SameValue (.num neg p u) v := by
  have hvalue := sumUnits_value hx hy
  have hne : sumUnits s m e t n g ≠ 0 := fun h0 => by
    rw [h0, Int.cast_zero, zero_mul] at hvalue
    exact rational_ne_zero hsum hp hvalue.symm
  refine ⟨_, addVal_num .., ?_⟩
  rw [if_neg hne]
  exact sameValue_of_rational hsum (by rw [rationalOf_units, hvalue]) hp

theorem addVal_congr (mode : RoundMode) {v v' w w' : FpVal} (hv : SameValue v v') (hw : SameValue w w') :
    Option.Rel SameValue (addVal mode v w) (addVal mode v' w') := by
  cases hv with
  | nan => exact .some .nan
  | inf s =>
    cases hw with
    | nan => exact .some .nan
    | inf t =>
      by_cases h : s = t
      · simp only [addVal, h, beq_self_eq_true, if_true]
        exact .some (.inf t)
      · simp only [addVal, beq_iff_eq, h, if_false]
        exact .none
    | num t h => exact .some (.inf s)
  | @num s m m' e e' hm =>
    cases hw with
    | nan => exact .some .nan
    | inf t => exact .some (.inf t)
    | @num t n n' g g' hn =>
      have hsum : (sumUnits s m e t n g : ℚ) * 2 ^ min e g = sumUnits s m' e' t n' g' * 2 ^ min e' g' := by
        rw [sumUnits_value rfl rfl, sumUnits_value rfl rfl,
          mul_assoc, hm, mul_assoc _ (n : ℚ), hn, mul_assoc, mul_assoc]
      rw [addVal_num, addVal_num]
      refine .some ?_
      have hzero : sumUnits s m e t n g = 0 ↔ sumUnits s m' e' t n' g' = 0 := by exact_mod_cast scaled_eq_zero_iff hsum
      by_cases h0 : sumUnits s m e t n g = 0
      · rw [if_pos h0, if_pos (hzero.mp h0)]
        exact .num _ (by simp)
      · rw [if_neg h0, if_neg (mt hzero.mpr h0)]
        exact sameValue_of_rational (rationalOf_units _ _) (by rw [rationalOf_units, hsum]) (Int.natAbs_ne_zero.mpr h0)

theorem mulVal_congr {v v' w w' : FpVal} (hv : SameValue v v') (hw : SameValue w w') :
    Option.Rel SameValue (mulVal v w) (mulVal v' w') := by
  cases hv with
  | nan => exact .some .nan
  | inf s =>
    cases hw with
    | nan => exact .some .nan
    | inf t => exact .some (.inf _)
    | @num t n n' g g' hn =>
      by_cases h : n = 0
      · simp only [mulVal, h, (mant_eq_zero_iff hn).mp h, beq_self_eq_true, if_true]
        exact .none
      · simp only [mulVal, beq_iff_eq, h, mt (mant_eq_zero_iff hn).mpr h, if_false]
        exact .some (.inf _)
  | @num s m m' e e' hm =>
    cases hw with
    | nan => exact .some .nan
    | inf t =>
      by_cases h : m = 0
      · simp only [mulVal, h, (mant_eq_zero_iff hm).mp h, beq_self_eq_true, if_true]
        exact .none
      · simp only [mulVal, beq_iff_eq, h, mt (mant_eq_zero_iff hm).mpr h, if_false]
        exact .some (.inf _)
    | @num t n n' g g' hn =>
      refine .some (.num _ ?_)
      push_cast
      rw [zpow_add₀ two_ne_zero, zpow_add₀ two_ne_zero, mul_mul_mul_comm, hm, hn, mul_mul_mul_comm]

/-! ### What the operations deliver (R155, R156) -/

/-- An exact value, or the invalid operation, in a format. -/
def delivered (f : FpFormat) (mode : RoundMode) : Option FpVal → FpResult
  | none => invalid f
  | some v => deliver f mode v

theorem delivered_congr (f : FpFormat) (mode : RoundMode) {o o' : Option FpVal} (h : Option.Rel SameValue o o') :
    delivered f mode o = delivered f mode o' := by
  cases h with
  | none => rfl
  | some h => exact deliver_congr f mode h

theorem fpAdd_eq (f : FpFormat) (mode : RoundMode) (a b : Nat) : fpAdd f mode a b =
    let r := delivered f mode (addVal mode (readSource f a).1 (readSource f b).1)
    ⟨r.code, r.flags ||| (readSource f a).2 ||| (readSource f b).2⟩ := by
  unfold fpAdd
  cases h : addVal mode (readSource f a).1 (readSource f b).1 <;> simp [h, delivered]

theorem fpSub_eq (f : FpFormat) (mode : RoundMode) (a b : Nat) : fpSub f mode a b =
    let r := delivered f mode (addVal mode (readSource f a).1 (negVal (readSource f b).1))
    ⟨r.code, r.flags ||| (readSource f a).2 ||| (readSource f b).2⟩ := by
  unfold fpSub
  cases h : addVal mode (readSource f a).1 (negVal (readSource f b).1) <;> simp [h, delivered]

theorem fpMul_eq (f : FpFormat) (mode : RoundMode) (a b : Nat) : fpMul f mode a b =
    let r := delivered f mode (mulVal (readSource f a).1 (readSource f b).1)
    ⟨r.code, r.flags ||| (readSource f a).2 ||| (readSource f b).2⟩ := by
  unfold fpMul
  cases h : mulVal (readSource f a).1 (readSource f b).1 <;> simp [h, delivered]

/-- A fused multiply-add of values (R155, R156). -/
def fused (f : FpFormat) (mode : RoundMode) (x y z : FpVal) : FpResult :=
  if x = .nan ∨ y = .nan ∨ z = .nan then ⟨canonNaN f, 0⟩ else delivered f mode ((mulVal x y).bind fun p => addVal mode p z)

theorem fpFma_eq (f : FpFormat) (mode : RoundMode) (a b c : Nat) : fpFma f mode a b c =
    let r := fused f mode (readSource f a).1 (readSource f b).1 (readSource f c).1
    ⟨r.code, r.flags ||| (readSource f a).2 ||| (readSource f b).2 ||| (readSource f c).2⟩ := by
  unfold fpFma fused
  generalize readSource f a = x
  generalize readSource f b = y
  generalize readSource f c = z
  simp only [Bool.or_eq_true, beq_iff_eq, or_assoc]
  split
  · rfl
  · cases hmul : mulVal x.1 y.1 with
    | none => simp [delivered]
    | some p => cases hadd : addVal mode p z.1 <;> simp [delivered, hadd]

theorem fused_congr (f : FpFormat) (mode : RoundMode) {x x' y y' z z' : FpVal} (hx : SameValue x x') (hy : SameValue y y')
    (hz : SameValue z z') : fused f mode x y z = fused f mode x' y' z' := by
  have hnan : ∀ {v w}, SameValue v w → (v = .nan ↔ w = .nan) := fun h => by cases h <;> simp
  rw [fused, fused]
  refine if_congr (by rw [hnan hx, hnan hy, hnan hz]) rfl (delivered_congr f mode ?_)
  have hmul := mulVal_congr hx hy
  generalize mulVal x y = p at *
  generalize mulVal x' y' = p' at *
  cases hmul with
  | none => exact .none
  | some hp => exact addVal_congr mode hp hz

/-! ### Exact results (R155) -/

section
variable {f : FpFormat} (hgradual : flushes f = false) (mode : RoundMode) {a b c : Nat} {x y z : ℚ} (ha : isFiniteCode f a)
  (hb : isFiniteCode f b) (hc : isFiniteCode f c) (hx : valueOf f a = some x) (hy : valueOf f b = some y)
  (hz : valueOf f c = some z)
  {neg : Bool} {m : Nat} {e : Int} {q : ℚ} (hm : m ≠ 0) (hq : rationalOf (.num neg m e) = some q)

include hgradual ha hx in
theorem readSource_finite : ∃ s m e, readSource f a = (.num s m e, 0) ∧ rationalOf (.num s m e) = some x := by
  obtain ⟨-, s, m, e, hd⟩ := ha
  rw [valueOf, hd] at hx
  exact ⟨s, m, e, by rw [readSource_gradual hgradual, hd], hx⟩

include hgradual in
theorem delivered_some {v : FpVal} (h : SameValue (.num neg m e) v) :
    delivered f mode (some v) = roundResult f mode false .ieee neg m e := by
  rw [delivered, ← deliver_congr f mode h, deliver, hgradual]

include hgradual ha hb hx hy hm hq in
theorem fpAdd_exact (h : q = x + y) : fpAdd f mode a b = roundResult f mode false .ieee neg m e := by
  obtain ⟨s, k, i, hra, hx⟩ := readSource_finite hgradual ha hx
  obtain ⟨t, l, j, hrb, hy⟩ := readSource_finite hgradual hb hy
  obtain ⟨v, hv, hsame⟩ := addVal_exact (mode := mode) hx hy hm (h ▸ hq)
  simp [fpAdd_eq, hra, hrb, hv, delivered_some hgradual mode hsame]

theorem negVal_rational {s : Bool} {m : Nat} {e : Int} {x : ℚ} (h : rationalOf (.num s m e) = some x) :
    rationalOf (.num (!s) m e) = some (-x) := by
  rw [← Option.some.inj h]
  cases s <;> simp [rationalOf]

include hgradual ha hb hx hy hm hq in
theorem fpSub_exact (h : q = x - y) : fpSub f mode a b = roundResult f mode false .ieee neg m e := by
  obtain ⟨s, k, i, hra, hx⟩ := readSource_finite hgradual ha hx
  obtain ⟨t, l, j, hrb, hy⟩ := readSource_finite hgradual hb hy
  obtain ⟨v, hv, hsame⟩ := addVal_exact (mode := mode) hx (negVal_rational hy) hm (by rw [hq, h, sub_eq_add_neg])
  simp [fpSub_eq, hra, hrb, negVal, hv, delivered_some hgradual mode hsame]

include hgradual ha hb hx hy hm hq in
theorem fpMul_exact (h : q = x * y) : fpMul f mode a b = roundResult f mode false .ieee neg m e := by
  obtain ⟨s, k, i, hra, hx⟩ := readSource_finite hgradual ha hx
  obtain ⟨t, l, j, hrb, hy⟩ := readSource_finite hgradual hb hy
  have hsame := sameValue_of_rational (h ▸ hq) (rationalOf_mul hx hy) hm
  simp [fpMul_eq, hra, hrb, mulVal, delivered_some hgradual mode hsame]

include hgradual ha hb hc hx hy hz hm hq in
theorem fpFma_exact (h : q = x * y + z) : fpFma f mode a b c = roundResult f mode false .ieee neg m e := by
  obtain ⟨s, k, i, hra, hx⟩ := readSource_finite hgradual ha hx
  obtain ⟨t, l, j, hrb, hy⟩ := readSource_finite hgradual hb hy
  obtain ⟨u, o, g, hrc, hz⟩ := readSource_finite hgradual hc hz
  obtain ⟨v, hv, hsame⟩ := addVal_exact (mode := mode) (rationalOf_mul hx hy) hz hm (h ▸ hq)
  simp [fpFma_eq, fused, hra, hrb, hrc, mulVal, hv, delivered_some hgradual mode hsame]

end

theorem exactResults : ExactResults := by
  intro f hf mode a b c x y z ha hb hc hx hy hz neg m e q hm hq
  have hgradual : flushes f = false := by rcases hf with rfl | rfl <;> rfl
  exact ⟨fpAdd_exact hgradual mode ha hb hx hy hm hq, fpSub_exact hgradual mode ha hb hx hy hm hq,
    fpMul_exact hgradual mode ha hb hx hy hm hq, fpFma_exact hgradual mode ha hb hc hx hy hz hm hq⟩

end Sys2Proof.Machine
end

section
/-!
PROOFS. Flushing in FP16 and BF16 (R40, R47), FMIN and FMAX (R42), and O8, which joins the parts.
-/

namespace Sys2Proof.Machine

/-! ### Subnormal sources (R40, R47) -/

theorem readAs_of_flushed {f : FpFormat} {c : Nat} (h : flushes f = true ∧ isSubnormal f c = true) :
    readAs f c = withSign f (c / signBit f % 2 == 1) 0 := if_pos h

theorem isSubnormal_zero (f : FpFormat) (neg : Bool) : isSubnormal f (withSign f neg 0) = false := by
  rw [isSubnormal, (fields_withSign f neg (Nat.two_pow_pos _)).2.2, Nat.zero_mod]
  simp

theorem readSource_readAs (f : FpFormat) (c : Nat) : readSource f (readAs f c) = (fpDecode f (readAs f c), 0) := by
  by_cases h : flushes f = true ∧ isSubnormal f c = true
  · rw [readAs_of_flushed h, readSource, isSubnormal_zero]
    simp
  · rw [readAs, if_neg h, readSource, if_neg (by simpa using h)]

/-- A flushing width reads a code as it reads the zero that stands for it, with FL. -/
theorem readSource_same (f : FpFormat) (c : Nat) :
    SameValue (readSource f c).1 (fpDecode f (readAs f c)) ∧ (readSource f c).2 = readFlag f c := by
  by_cases h : flushes f = true ∧ isSubnormal f c = true
  · have hread : readSource f c = (.num (c / signBit f % 2 == 1) 0 0, flagFL) := by simp [readSource, h.1, h.2]
    rw [hread, readAs_of_flushed h, fpDecode_zero, readFlag, if_pos h]
    exact ⟨.num _ (by simp), rfl⟩
  · have hread : readSource f c = (fpDecode f c, 0) := by rw [readSource, if_neg (by simpa using h)]
    rw [readAs, if_neg h, hread, readFlag, if_neg h]
    exact ⟨sameValue_self _, rfl⟩

theorem fpAdd_readAs (f : FpFormat) (mode : RoundMode) (a b : Nat) : fpAdd f mode a b =
    let r := fpAdd f mode (readAs f a) (readAs f b)
    ⟨r.code, r.flags ||| readFlag f a ||| readFlag f b⟩ := by
  obtain ⟨ha, hfa⟩ := readSource_same f a
  obtain ⟨hb, hfb⟩ := readSource_same f b
  simp [fpAdd_eq, readSource_readAs, hfa, hfb, delivered_congr f mode (addVal_congr mode ha hb)]

theorem fpMul_readAs (f : FpFormat) (mode : RoundMode) (a b : Nat) : fpMul f mode a b =
    let r := fpMul f mode (readAs f a) (readAs f b)
    ⟨r.code, r.flags ||| readFlag f a ||| readFlag f b⟩ := by
  obtain ⟨ha, hfa⟩ := readSource_same f a
  obtain ⟨hb, hfb⟩ := readSource_same f b
  simp [fpMul_eq, readSource_readAs, hfa, hfb, delivered_congr f mode (mulVal_congr ha hb)]

theorem fpFma_readAs (f : FpFormat) (mode : RoundMode) (a b c : Nat) : fpFma f mode a b c =
    let r := fpFma f mode (readAs f a) (readAs f b) (readAs f c)
    ⟨r.code, r.flags ||| readFlag f a ||| readFlag f b ||| readFlag f c⟩ := by
  obtain ⟨ha, hfa⟩ := readSource_same f a
  obtain ⟨hb, hfb⟩ := readSource_same f b
  obtain ⟨hc, hfc⟩ := readSource_same f c
  simp [fpFma_eq, readSource_readAs, hfa, hfb, hfc, fused_congr f mode ha hb hc]

/-! ### Tiny results (R40, R44, R47) -/

/-- A number is tiny where it rounds, to nearest as if the exponent range were unbounded, below the smallest normal number. -/
theorem tiny_iff (f : FpFormat) (neg : Bool) {mant : Nat} (hm : mant ≠ 0) (exp : Int) :
    roundedUnit f .rne neg mant exp < leastUnit f ↔
      (mant : ℚ) * 2 ^ exp < (2 : ℚ) ^ (1 - (expBias f : ℤ)) - (2 : ℚ) ^ (-1 - (expBias f : ℤ) - fracBits f) := by
  obtain ⟨hlow, hhigh⟩ := in_binade (K := ℚ) f exp hm
  obtain ⟨hrounds, -⟩ := roundToUnit_spec (K := ℚ) .rne neg mant exp (binadeUnit f mant exp)
  have hq := hrounds.ge_of_ge (n := 2 ^ (fracBits f + 1)) (by push_cast; exact hhigh.le)
  have hcarry := hrounds.le_iff_of_even (n := 2 ^ (fracBits f + 1)) (by rw [Nat.pow_succ, Nat.mul_mod_left])
  have hB : ∀ B : Int, (0 : ℚ) < 2 ^ B := fun B => by positivity
  have htiny : (2 : ℚ) ^ (1 - (expBias f : ℤ)) - (2 : ℚ) ^ (-1 - (expBias f : ℤ) - fracBits f) =
      (2 ^ (fracBits f + 1) - 1 / 2) * 2 ^ (leastUnit f - 1) := by
    have h1 : 1 - (expBias f : ℤ) = ((fracBits f + 1 : Nat) : Int) + (leastUnit f - 1) := by rw [leastUnit]; push_cast; ring
    have h2 : -1 - (expBias f : ℤ) - fracBits f = (-1) + (leastUnit f - 1) := by rw [leastUnit]; ring
    rw [h1, h2, zpow_add₀ two_ne_zero, zpow_add₀ two_ne_zero (-1), zpow_natCast]
    norm_num
    ring
  have hone : (1 : ℚ) ≤ 2 ^ fracBits f := one_le_pow₀ one_le_two
  rw [htiny, roundedUnit]
  generalize (roundToUnit .rne neg mant exp (binadeUnit f mant exp)).1 = q at *
  generalize binadeUnit f mant exp = B at *
  generalize (mant : ℚ) * 2 ^ exp = X at *
  have hX : X = X / 2 ^ B * 2 ^ B := by field_simp
  generalize X / 2 ^ B = v at *
  subst hX
  push_cast at hcarry
  rcases lt_trichotomy B (leastUnit f - 1) with h | rfl | h
  · refine iff_of_true (by split <;> omega) ?_
    calc v * 2 ^ B < 2 ^ (fracBits f + 1) * 2 ^ B := mul_lt_mul_of_pos_right hhigh (hB _)
      _ ≤ 2 ^ (fracBits f + 1) * 2 ^ (leastUnit f - 1 - 1) := by
          gcongr
          · exact one_le_two
          · omega
      _ = 2 ^ fracBits f * 2 ^ (leastUnit f - 1) := by
          rw [zpow_sub_one₀ two_ne_zero, pow_succ]
          field_simp
      _ ≤ (2 ^ (fracBits f + 1) - 1 / 2) * 2 ^ (leastUnit f - 1) :=
          mul_le_mul_of_nonneg_right (by rw [pow_succ]; linarith) (hB _).le
  · rw [mul_lt_mul_iff_left₀ (hB _)]
    by_cases hcarried : 2 ^ (fracBits f + 1) ≤ q
    · have hv := hcarry.mp hcarried
      exact iff_of_false (by rw [if_pos (by omega)]; omega) (by linarith)
    · have hv := mt hcarry.mpr hcarried
      exact iff_of_true (by rw [if_neg (by omega)]; omega) (by linarith)
  · refine iff_of_false (by split <;> omega) (not_lt.mpr ?_)
    calc (2 ^ (fracBits f + 1) - 1 / 2) * (2 : ℚ) ^ (leastUnit f - 1)
        ≤ 2 ^ (fracBits f + 1) * 2 ^ (leastUnit f - 1) := mul_le_mul_of_nonneg_right (by linarith) (hB _).le
      _ = 2 ^ fracBits f * 2 ^ leastUnit f := by
          rw [zpow_sub_one₀ two_ne_zero, pow_succ]
          field_simp
      _ ≤ v * 2 ^ B := mul_le_mul hlow (zpow_le_zpow_right₀ one_le_two (by omega)) (hB _).le (by linarith)

theorem flushing : Flushing := by
  refine fun f hf => ⟨fun mode a b c _ _ _ => ⟨fpAdd_readAs f mode a b, fpMul_readAs f mode a b, fpFma_readAs f mode a b c⟩,
    fun neg mant exp x hx => ?_⟩
  dsimp only
  rw [abs_rational hx]
  refine ⟨fun hx0 htiny => ?_, fun h => ?_⟩
  · have hm := mant_ne_zero hx hx0
    rw [roundResult_cases f .rne .ieee neg exp true hm]
    exact (if_pos ((tiny_iff f neg hm exp).mpr htiny)).trans (if_pos rfl)
  · by_cases hm : mant = 0
    · rw [hm, roundResult_zero_eq, roundResult_zero_eq]
    · have htiny := mt (tiny_iff f neg hm exp).mp (not_lt.mpr (h.resolve_left (rational_ne_zero hx hm)))
      rw [roundResult_cases f .rne .ieee neg exp true hm, roundResult_cases f .rne .ieee neg exp false hm]
      exact (if_neg htiny).trans (if_neg htiny).symm

/-! ### Least and greatest (R42) -/

theorem belowTotal_num {s t : Bool} {m n : Nat} {e g : Int} {x y : ℚ} (hx : rationalOf (.num s m e) = some x)
    (hy : rationalOf (.num t n g) = some y) :
    belowTotal (.num s m e) (.num t n g) = (decide (x < y) || (decide (x = y) && s && !t)) := by
  have hpos : (0 : ℚ) < 2 ^ min e g := by positivity
  have hlt : inUnit s m e (min e g) < inUnit t n g (min e g) ↔ x < y := by
    rw [← inUnit_value hx (min_le_left e g), ← inUnit_value hy (min_le_right e g), mul_lt_mul_iff_left₀ hpos, Int.cast_lt]
  have heq : inUnit s m e (min e g) = inUnit t n g (min e g) ↔ x = y := by
    rw [← inUnit_value hx (min_le_left e g), ← inUnit_value hy (min_le_right e g), mul_left_inj' hpos.ne', Int.cast_inj]
  simp only [← hlt, ← heq]
  rfl

/-- A value that stands within the infinities. -/
def Bounded (v : FpVal) : Prop := ∀ s m e x, v = .num s m e → rationalOf v = some x → |x| ≤ 2 ^ 1024

/-- The order of R42 agrees with that of the numbers. -/
theorem belowTotal_sound {v w : FpVal} {x y : ℚ} (hv : Bounded v) (hw : Bounded w) (hx : rationalOf v = some x)
    (hy : rationalOf w = some y) : (belowTotal v w = true → x ≤ y) ∧ (belowTotal v w = false → y ≤ x) := by
  have hinf : ∀ s, rationalOf (.inf s) = some (if s then -2 ^ 1024 else 2 ^ 1024) := fun _ => rfl
  have hpos : (0 : ℚ) < 2 ^ 1024 := by positivity
  unfold Bounded at hv hw
  generalize (2 : ℚ) ^ 1024 = top at hinf hpos hv hw
  cases v with
  | nan => cases hx
  | inf s =>
    obtain rfl := Option.some.inj ((hinf s).symm.trans hx)
    cases w with
    | nan => cases hy
    | inf t =>
      obtain rfl := Option.some.inj ((hinf t).symm.trans hy)
      cases s <;> cases t <;> simp [belowTotal] <;> linarith
    | num t n g =>
      have hbound := abs_le.mp (hw _ _ _ _ rfl hy)
      cases s <;> simp [belowTotal] <;> linarith
  | num s m e =>
    cases w with
    | nan => cases hy
    | inf t =>
      obtain rfl := Option.some.inj ((hinf t).symm.trans hy)
      have hbound := abs_le.mp (hv _ _ _ _ rfl hx)
      cases t <;> simp [belowTotal] <;> linarith
    | num t n g =>
      rw [belowTotal_num hx hy]
      refine ⟨fun h => ?_, fun h => ?_⟩
      · simp only [Bool.or_eq_true, Bool.and_eq_true, decide_eq_true_eq] at h
        rcases h with h | ⟨⟨h, -⟩, -⟩
        · exact h.le
        · exact h.le
      · simp only [Bool.or_eq_false_iff, decide_eq_false_iff_not] at h
        exact not_lt.mp h.1

theorem bounded_fpDecode (f : FpFormat) (c : Nat) : Bounded (fpDecode f c) := by
  intro s m e x hd hx
  obtain ⟨-, hm, -, hhi, htop⟩ := fpDecode_num hd
  have he : e ≤ 1024 - ((fracBits f + 1 : Nat) : Int) := by
    cases f <;> simp only [fracBits, expBits, expBias, ne_eq, reduceCtorEq, not_false_eq_true, forall_const] at hhi htop ⊢ <;> omega
  rw [hd] at hx
  rw [abs_rational hx]
  calc (m : ℚ) * 2 ^ e ≤ 2 ^ ((fracBits f + 1 : Nat) : Int) * 2 ^ (1024 - ((fracBits f + 1 : Nat) : Int)) :=
        mul_le_mul (by rw [zpow_natCast]; exact_mod_cast hm.le) (zpow_le_zpow_right₀ one_le_two he) (by positivity) (by positivity)
    _ = 2 ^ (1024 : Nat) := by rw [← zpow_add₀ two_ne_zero, add_sub_cancel, ← zpow_natCast]; rfl

theorem Bounded.congr {v w : FpVal} (h : Bounded v) (hvw : SameValue w v) : Bounded w := by
  intro s m e x hw hx
  subst hw
  cases hvw with
  | num s hvalue => exact h _ _ _ x rfl ((SameValue.num s hvalue).rational ▸ hx)

theorem isSubnormal_not_nan {f : FpFormat} {c : Nat} (h : isSubnormal f c = true) : isNaN f c = false := by
  have htop : ((0 : Nat) == 2 ^ expBits f - 1) = false := by cases f <;> rfl
  simp only [isSubnormal, Bool.and_eq_true, beq_iff_eq] at h
  simp [isNaN, fpDecode, h.1, htop]

theorem readSource_nan (f : FpFormat) (c : Nat) : (readSource f c).1 = .nan ↔ isNaN f c = true := by
  by_cases h : flushes f = true ∧ isSubnormal f c = true
  · simp [readSource, h.1, h.2, isSubnormal_not_nan h.2]
  · rw [readSource, if_neg (by simpa using h), isNaN, beq_iff_eq]

theorem readAs_lt {f : FpFormat} {c : Nat} (h : c < 2 ^ fmtWidth f) : readAs f c < 2 ^ fmtWidth f := by
  rw [readAs]
  split
  · exact withSign_lt f _ (Nat.two_pow_pos _)
  · exact h

/-- A number without significand has neither fraction nor exponent field. -/
theorem fields_of_zero {f : FpFormat} {c : Nat} {s : Bool} {e : Int} (h : fpDecode f c = .num s 0 e) :
    c / 2 ^ fracBits f % 2 ^ expBits f = 0 ∧ c % 2 ^ fracBits f = 0 := by
  have hpos := Nat.two_pow_pos (fracBits f)
  unfold fpDecode at h
  extract_lets frac k neg isTop at h
  split at h
  · cases h
  · split at h
    · split at h <;> cases h
    · split at h
      · next hk => exact ⟨by simpa using hk, (FpVal.num.inj h).2.1⟩
      · have hfrac := (FpVal.num.inj h).2.1
        omega

/-- Only the two zeros have the value 0. -/
theorem zero_code {f : FpFormat} {c : Nat} (hc : c < 2 ^ fmtWidth f) (h : valueOf f c = some 0) : ∃ s, c = withSign f s 0 := by
  obtain ⟨hk, hfrac⟩ : c / 2 ^ fracBits f % 2 ^ expBits f = 0 ∧ c % 2 ^ fracBits f = 0 := by
    rw [valueOf] at h
    cases hd : fpDecode f c with
    | nan => rw [hd] at h; cases h
    | inf s =>
      rw [hd] at h
      have hzero : (if s then -2 ^ 1024 else 2 ^ 1024 : ℚ) = 0 := Option.some.inj h
      exact absurd hzero (by split <;> simp)
    | num s m e =>
      rw [hd] at h
      have hm : m = 0 := by
        by_contra hm
        exact rational_ne_zero h hm rfl
      exact fields_of_zero (hm ▸ hd)
  have hmod : c % signBit f = 0 := by
    rw [signBit, Nat.add_comm, Nat.pow_add, Nat.mod_mul, hk, hfrac, Nat.mul_zero]
  have hlt : c / signBit f < 2 := Nat.div_lt_of_lt_mul (by rwa [Nat.mul_comm, ← two_pow_fmtWidth])
  have hsplit := Nat.div_add_mod c (signBit f)
  refine ⟨decide (c / signBit f = 1), ?_⟩
  rw [withSign_eq, Nat.add_zero]
  rw [hmod, Nat.add_zero] at hsplit
  generalize c / signBit f = k at *
  rcases (by omega : k = 0 ∨ k = 1) with rfl | rfl
  · simpa using hsplit.symm
  · simpa using hsplit.symm

theorem fpMinMax_flags (f : FpFormat) (max : Bool) (a b : Nat) : (fpMinMax f max a b).flags = readFlag f a ||| readFlag f b := by
  rw [← (readSource_same f a).2, ← (readSource_same f b).2]
  rfl

theorem asRead_eq (f : FpFormat) (c : Nat) : asRead f c = readAs f c := by
  simp [asRead, readAs]

/-- The operand that the order of R42 asks for. -/
theorem fpMinMax_code {f : FpFormat} (max : Bool) {a b : Nat} (ha : isNaN f a = false) (hb : isNaN f b = false) :
    (fpMinMax f max a b).code =
      if (if max then belowTotal (readSource f a).1 (readSource f b).1 else belowTotal (readSource f b).1 (readSource f a).1)
      then readAs f b else readAs f a := by
  have hxa := mt (readSource_nan f a).mp (by simp [ha])
  have hxb := mt (readSource_nan f b).mp (by simp [hb])
  cases max <;> simp [fpMinMax, hxa, hxb, asRead_eq]

theorem fpMinMax_nan {f : FpFormat} (max : Bool) {a b : Nat} :
    (isNaN f a = true → isNaN f b = true → (fpMinMax f max a b).code = canonNaN f) ∧
    (isNaN f a = true → isNaN f b = false → (fpMinMax f max a b).code = readAs f b) ∧
    (isNaN f a = false → isNaN f b = true → (fpMinMax f max a b).code = readAs f a) := by
  simp only [← Bool.not_eq_true, ← readSource_nan]
  refine ⟨fun ha hb => ?_, fun ha hb => ?_, fun ha hb => ?_⟩ <;> simp [fpMinMax, ha, hb, asRead_eq]

theorem SameValue.zero {v : FpVal} {s : Bool} {e : Int} (h : SameValue v (.num s 0 e)) :
    ∃ m g, v = .num s m g ∧ rationalOf v = some 0 := by
  have hvalue : rationalOf v = some 0 := by rw [h.rational]; simp [rationalOf]
  cases h with
  | num s h => exact ⟨_, _, rfl, hvalue⟩

theorem minMax : MinMax := by
  intro f hf max a b ha hb
  obtain ⟨hnan, hnanA, hnanB⟩ := fpMinMax_nan (f := f) max (a := a) (b := b)
  obtain ⟨hsameA, -⟩ := readSource_same f a
  obtain ⟨hsameB, -⟩ := readSource_same f b
  refine ⟨fpMinMax_flags f max a b, hnan, hnanA, hnanB, fun hna hnb => ?_⟩
  rw [fpMinMax_code max hna hnb]
  refine ⟨(ite_eq_or_eq _ _ _).symm, fun x y z hx hy hz => ?_, fun hza hzb hne => ?_⟩
  · have hA := (bounded_fpDecode f _).congr hsameA
    have hB := (bounded_fpDecode f _).congr hsameB
    have hx' := hsameA.rational.trans hx
    have hy' := hsameB.rational.trans hy
    obtain ⟨hab, hab'⟩ := belowTotal_sound hA hB hx' hy'
    obtain ⟨hba, hba'⟩ := belowTotal_sound hB hA hy' hx'
    cases max <;> simp only [Bool.false_eq_true, if_true, if_false] at hz ⊢ <;> split at hz
    · next h => exact Option.some.inj (hy.symm.trans hz) ▸ ⟨hba h, le_rfl⟩
    · next h => exact Option.some.inj (hx.symm.trans hz) ▸ ⟨le_rfl, hba' (by simpa using h)⟩
    · next h => exact Option.some.inj (hy.symm.trans hz) ▸ ⟨hab h, le_rfl⟩
    · next h => exact Option.some.inj (hx.symm.trans hz) ▸ ⟨le_rfl, hab' (by simpa using h)⟩
  · obtain ⟨s, hs⟩ := zero_code (readAs_lt ha) hza
    obtain ⟨t, ht⟩ := zero_code (readAs_lt hb) hzb
    rw [hs, fpDecode_zero] at hsameA
    rw [ht, fpDecode_zero] at hsameB
    obtain ⟨m, e, hv, hv0⟩ := hsameA.zero
    obtain ⟨n, g, hw, hw0⟩ := hsameB.zero
    have hst : s ≠ t := fun h => hne (by rw [hs, ht, h])
    rw [hs, ht, hv, hw, belowTotal_num (hv ▸ hv0) (hw ▸ hw0), belowTotal_num (hw ▸ hw0) (hv ▸ hv0)]
    cases max <;> cases s <;> cases t <;> simp at hst ⊢

/-- Settles O8: sums and products are exact before their one rounding, which a number's value alone decides; quotients and roots
round as their sticky significands do; flushing and the order of R42 go by what a source is read as. -/
theorem exactThenRounded : Obligations.ExactThenRounded :=
  ⟨exactResults, roundsUnderModes, quotientsAndRoots, flushing, minMax⟩

end Sys2Proof.Machine
end

section
/-!
PROOFS. REDX and SCANX (R170, R171): the levels of the tree hold in each thread's place what R171 computes there, and O13.
-/

namespace Sys2Proof.Machine

/-! ### One combination (R170, R171) -/

theorem reduceOp_eq_table {op : Nat} (h : op ≤ 10) (x y : Word) :
    reduceOp op x y = (treeTable.getD op fun _ _ => (0, 0)) x y := by
  interval_cases op <;>
    simp only [reduceOp, treeTable, List.getD_cons_zero, List.getD_cons_succ, floatStep, sminWord, smaxWord, uminWord, umaxWord,
      BitVec.slt, BitVec.ult, decide_eq_true_eq]

theorem combPartial_eq_combined {op : Nat} (h : op ≤ 10) (x y : Option Word) : combPartial op x y = combined op x y := by
  cases x with
  | none => rfl
  | some a =>
    cases y with
    | none => rfl
    | some b =>
      rw [combined, ← reduceOp_eq_table h]
      rfl

theorem reduceIdentity_eq {op : Nat} (h : op ≤ 10) : reduceIdentity op = identityOf op := by
  interval_cases op <;> rfl

/-! ### The levels of a tree -/

/-- What a level holds in one thread's place. -/
def TreeLevel.place (t : TreeLevel) (i : Nat) : Option Word × FpFlags := (t.vals.getD i none, t.flags.getD i 0)

theorem treeStep_place {op : Nat} (hop : op ≤ 10) (pair : Nat → Option (Nat × Nat)) (t : TreeLevel) {i : Nat} (hi : i < 64) :
    (treeStep op pair t).place i = match pair i with
      | some (x, y) =>
        let r := combined op (t.place x).1 (t.place y).1
        (r.1, (t.place i).2 ||| r.2)
      | none => t.place i := by
  have hval : ∀ (g : Nat → Partial × FpFlags), (((List.range 64).map g).map (·.1)).getD i none = (g i).1 := fun g => by
    simp [List.getD_eq_getElem?_getD, hi]
  have hflag : ∀ (g : Nat → FpFlags), ((List.range 64).map g).getD i 0 = g i := fun g => by
    simp [List.getD_eq_getElem?_getD, hi]
  have hout : ∀ (g : Nat → Partial × FpFlags), ((List.range 64).map g).getD i (none, 0) = g i := fun g => by
    simp [List.getD_eq_getElem?_getD, hi]
  simp only [TreeLevel.place, treeStep, hval, hflag, hout]
  cases pair i with
  | none => simp
  | some p => simp only [combPartial_eq_combined hop]

/-- The last step of a tree is done on what the steps before it leave. -/
theorem treeSteps_succ (op : Nat) (pair : Nat → Nat → Option (Nat × Nat)) (k s : Nat) (t : TreeLevel) :
    treeSteps op pair (k + 1) s t = treeStep op (pair (s + k)) (treeSteps op pair k s t) := by
  induction k generalizing s t with
  | zero => rfl
  | succ k ih => rw [treeSteps, ih, treeSteps, show s + 1 + k = s + (k + 1) by omega]

/-- The level that a tree starts from. -/
def startLevel (a : VRow) (part : Mask) : TreeLevel :=
  ⟨(List.range 64).map fun i => if part.getLsbD i then some (rowAt a i) else none, List.replicate 64 0⟩

theorem startLevel_place (w : Wave) (f : TR) {i : Nat} (hi : i < 64) :
    (startLevel (fieldRow w f.a) (participants w f.g)).place i = (present w f i, 0) := by
  have hflags : (List.replicate 64 (0 : FpFlags)).getD i 0 = 0 := List.getD_replicate _ hi
  rw [TreeLevel.place, startLevel, hflags, present, List.getD_eq_getElem?_getD]
  simp [hi]

/-! ### SCANX (R171) -/

theorem scan_place {op : Nat} (hop : op ≤ 10) (g : Nat) (y : Nat → Option Word) {t : TreeLevel}
    (ht : ∀ i, i < 64 → t.place i = (y i, 0)) (k : Nat) {i : Nat} (hi : i < 64) :
    (treeSteps op (scanxPair g) k 0 t).place i = scanSteps op g y k i := by
  induction k generalizing i with
  | zero => exact ht i hi
  | succ k ih =>
    rw [treeSteps_succ, treeStep_place hop _ _ hi, Nat.zero_add, scanxPair, scanSteps]
    by_cases h : 2 ^ k ≤ i % g
    · simp only [h, if_true, ih hi, ih ((Nat.sub_le i _).trans_lt hi)]
    · simp only [h, if_false, ih hi]

/-! ### Flags of a group (R171) -/

/-- The flags of n places together. -/
def flagsOver (F : Nat → FpFlags) (n : Nat) : FpFlags := (List.range n).foldl (fun f j => f ||| F j) 0

theorem flagsOver_succ (F : Nat → FpFlags) (n : Nat) : flagsOver F (n + 1) = flagsOver F n ||| F n := by
  simp [flagsOver, List.range_succ]

theorem flagsOver_add (F : Nat → FpFlags) (m n : Nat) :
    flagsOver F (m + n) = flagsOver F m ||| flagsOver (fun j => F (m + j)) n := by
  induction n with
  | zero => simp [flagsOver]
  | succ n ih => rw [← Nat.add_assoc, flagsOver_succ, ih, flagsOver_succ, BitVec.or_assoc]

theorem flagsOver_congr {F G : Nat → FpFlags} {n : Nat} (h : ∀ j, j < n → F j = G j) : flagsOver F n = flagsOver G n := by
  induction n with
  | zero => rfl
  | succ n ih => rw [flagsOver_succ, flagsOver_succ, ih fun j hj => h j (by omega), h n (by omega)]

/-- Flags that the first place raises are raised by all of them together. -/
theorem flagsOver_first {F G : Nat → FpFlags} {r : FpFlags} {n : Nat} (hfirst : G 0 = F 0 ||| r)
    (hrest : ∀ j, 0 < j → j < n + 1 → G j = F j) : flagsOver G (n + 1) = flagsOver F (n + 1) ||| r := by
  induction n with
  | zero => simp [flagsOver, hfirst]
  | succ n ih =>
    rw [flagsOver_succ, flagsOver_succ F, ih fun j h0 hj => hrest j h0 (by omega), hrest _ (by omega) (by omega), BitVec.or_assoc,
      BitVec.or_assoc, BitVec.or_comm r]

theorem groupFlags_eq (t : TreeLevel) (g i : Nat) : groupFlags t g i = flagsOver (fun j => (t.place (i - i % g + j)).2) g := rfl

/-! ### REDX (R171) -/

/-- Within a group the places that combine in step k are the multiples of 2^(k+1). -/
theorem mod_mod_two_pow {k n : Nat} (h : k ≤ n) (i : Nat) : i % 2 ^ n % 2 ^ k = i % 2 ^ k :=
  Nat.mod_mod_of_dvd i (Nat.pow_dvd_pow 2 h)

theorem group_first (n i : Nat) : (i - i % 2 ^ n) % 2 ^ n = 0 := Nat.sub_mod_eq_zero_of_mod_eq (by rw [Nat.mod_mod])

/-- An aligned stretch of places ends within the wave. -/
theorem aligned_le {k i : Nat} (hk : k ≤ 6) (hi : i < 64) (h : i % 2 ^ k = 0) : i + 2 ^ k ≤ 64 :=
  Nat.le_of_lt_add_of_dvd (Nat.add_lt_add_right hi _) (Nat.dvd_add_self_right.mpr (Nat.dvd_of_mod_eq_zero h)) (Nat.pow_dvd_pow 2 hk)

/-- After k steps the first of 2^k places holds their tree, and together they hold its flags. -/
theorem reduce_place {op : Nat} (hop : op ≤ 10) {n : Nat} (hn : n ≤ 6) (y : Nat → Option Word) {t : TreeLevel}
    (ht : ∀ i, i < 64 → t.place i = (y i, 0)) {k : Nat} (hk : k ≤ n) {i : Nat} (hi : i < 64) (hfirst : i % 2 ^ k = 0) :
    ((treeSteps op (redxPair (2 ^ n)) k 0 t).place i).1 = (reduceTree op y k i).1 ∧
      flagsOver (fun j => ((treeSteps op (redxPair (2 ^ n)) k 0 t).place (i + j)).2) (2 ^ k) = (reduceTree op y k i).2 := by
  induction k generalizing i with
  | zero => simp [treeSteps, reduceTree, flagsOver, ht i hi]
  | succ k ih =>
    have hpow : 2 ^ (k + 1) = 2 ^ k + 2 ^ k := by rw [Nat.pow_succ]; omega
    have hpos : 0 < 2 ^ k := Nat.two_pow_pos k
    have hend := aligned_le (by omega) hi hfirst
    have hleft : i % 2 ^ k = 0 := by rw [← Nat.mod_mod_of_dvd i (Nat.pow_dvd_pow 2 k.le_succ), hfirst, Nat.zero_mod]
    obtain ⟨hv, hf⟩ := ih (by omega) hi hleft
    obtain ⟨hv', hf'⟩ := ih (i := i + 2 ^ k) (by omega) (by omega) (by rw [Nat.add_mod_right, hleft])
    generalize hlevel : treeSteps op (redxPair (2 ^ n)) k 0 t = l at *
    generalize hcomb : combined op (l.place i).1 (l.place (i + 2 ^ k)).1 = r
    have hplace : ∀ j, j < 2 ^ (k + 1) → (treeStep op (redxPair (2 ^ n) k) l).place (i + j) =
        if j = 0 then (r.1, (l.place i).2 ||| r.2) else l.place (i + j) := fun j hj => by
      have hmod : (i + j) % 2 ^ n % 2 ^ (k + 1) = j := by
        rw [mod_mod_two_pow hk, Nat.add_mod, hfirst, Nat.zero_add, Nat.mod_mod, Nat.mod_eq_of_lt hj]
      rw [treeStep_place hop _ _ (by omega), redxPair, hmod]
      by_cases h0 : j = 0
      · simp [h0, hcomb]
      · simp [h0]
    rw [treeSteps_succ, hlevel, Nat.zero_add, reduceTree]
    rw [hv, hv'] at hcomb
    dsimp only
    rw [hcomb]
    constructor
    · have hzero := hplace 0 (Nat.two_pow_pos _)
      rw [if_pos rfl, Nat.add_zero] at hzero
      rw [hzero]
    · have hsplit : flagsOver (fun j => (l.place (i + j)).2) (2 ^ (k + 1)) =
          (reduceTree op y k i).2 ||| (reduceTree op y k (i + 2 ^ k)).2 := by
        rw [hpow, flagsOver_add, hf, ← hf']
        simp only [Nat.add_assoc]
      obtain ⟨m, hm⟩ : ∃ m, 2 ^ (k + 1) = m + 1 := ⟨2 ^ (k + 1) - 1, by omega⟩
      rw [hm] at hplace hsplit ⊢
      rw [flagsOver_first (F := fun j => (l.place (i + j)).2) (r := r.2), hsplit]
      · rw [hplace 0 (by omega)]
        rfl
      · intro j h0 hj
        rw [hplace j hj, if_neg (by omega)]

/-! ### The whole tree of an instruction (R170, R171) -/

/-- The fields of a REDX or SCANX word that defines an operation and a group. -/
theorem legalReduce_fields {f : TR} {x : TX} {scan : Bool} (h : legalReduce f x scan = true) :
    x.m.toNat % 16 ≤ 10 ∧ ∃ n, n ≤ 6 ∧ groupSize x = 2 ^ n := by
  simp only [legalReduce, Bool.and_eq_true, decide_eq_true_eq] at h
  obtain ⟨⟨⟨-, hop⟩, -⟩, hsize⟩ := h
  refine ⟨hop, 6 - x.i.toNat, by omega, ?_⟩
  rw [groupSize, show 64 = 2 ^ 6 by rfl, Nat.pow_div (by omega) two_pos]


section
variable (f : TR) (x : TX) (w : Wave)

/-- The last level of an instruction's tree. -/
def lastLevel (scan : Bool) : TreeLevel :=
  runTree (x.m.toNat % 16) (groupSize x) scan (fieldRow w f.a) (participants w f.g)

theorem lastLevel_scan (hop : x.m.toNat % 16 ≤ 10) {i : Nat} (hi : i < 64) : (lastLevel f x w true).place i =
    scanSteps (x.m.toNat % 16) (groupSize x) (present w f) (Nat.log2 (groupSize x)) i :=
  scan_place hop _ _ (fun _ => startLevel_place w f) _ hi

/-- In REDX the first place of a group holds its tree, and the group's flags are those of the tree. -/
theorem lastLevel_reduce (hop : x.m.toNat % 16 ≤ 10) {n : Nat} (hn : n ≤ 6) (hg : groupSize x = 2 ^ n) {i : Nat} (hi : i < 64) :
    let tree := reduceTree (x.m.toNat % 16) (present w f) (Nat.log2 (groupSize x)) (i - i % groupSize x)
    ((lastLevel f x w false).place (i - i % groupSize x)).1 = tree.1 ∧
      groupFlags (lastLevel f x w false) (groupSize x) i = tree.2 := by
  rw [groupFlags_eq, lastLevel, runTree, hg, Nat.log2_two_pow]
  exact reduce_place hop hn _ (fun _ => startLevel_place w f) le_rfl (by omega) (group_first n i)

/-- The value that the model delivers to a thread (R171). -/
def treeValue (scan : Bool) (i : Nat) : Word :=
  if scan && x.m.getLsbD 4 then
    (if i % groupSize x = 0 then none else ((lastLevel f x w scan).place (i - 1)).1).getD (reduceIdentity (x.m.toNat % 16))
  else if scan then ((lastLevel f x w scan).place i).1.getD 0
  else ((lastLevel f x w scan).place (i - i % groupSize x)).1.getD 0

/-- The effect of a reduction or scan on a wave whose source is ready. -/
theorem treeOp_effect {ws : List VField} (ho : OperandsReady w [single f.a] ws) (s : State) (scan : Bool) :
    threadEffectOf s (treeOp f x scan) w =
      ⟨[(f.d, if !scan && groupSize x == 64 then .u (treeValue f x w scan 0) else gRow (treeValue f x w scan))],
        participants w f.g, [],
        (List.range 64).map fun i =>
          if (participants w f.g).getLsbD i then groupFlags (lastLevel f x w scan) (groupSize x) i else 0,
        maskOf fun i => (participants w f.g).getLsbD i &&
          groupNaN (x.m.toNat % 16) (treeValue f x w scan i) (fieldRow w f.a) (participants w f.g) (groupSize x) i⟩ := by
  have hsource : ∀ mix seed, sourceRow mix w seed f.a = fieldRow w f.a := fun mix seed =>
    ho.source mix seed (single f.a) List.mem_cons_self f.a (by simp [single, VField.fields])
  rw [threadEffectOf, treeOp]
  dsimp only
  rw [hsource]
  rfl

end

/-- A reduction or scan computes the values and flags that its last level gives. -/
theorem computes_tree {i : Instr} {f : TR} {x : TX} {scan : Bool} (hx : ∀ s, exec i s = runThread i (treeOp f x scan) s)
    {value : Wave → Nat → Word} {flags : Wave → Nat → FpFlags} (hvalue : ∀ w i, i < 64 → treeValue f x w scan i = value w i)
    (hflags : ∀ w i, i < 64 → groupFlags (lastLevel f x w scan) (groupSize x) i = flags w i) :
    Computes i (groupTree f (if !scan && groupSize x == 64 then 1 else 3) value flags) := by
  refine computes_law i (treeOp f x scan) _ hx rfl rfl rfl rfl rfl fun s w ho => ?_
  rw [treeOp_effect f x w ho]
  refine ⟨.cons ⟨rfl, ?_, ?_, fun i hi _ => ?_⟩ .nil, rfl, rfl, List.pairwise_singleton _ _, nofun, fun w' h => ?_⟩
  · dsimp only
    split <;> rfl
  · dsimp only
    split <;> decide
  · refine Eq.trans ?_ (hvalue w i hi)
    dsimp only
    split
    · next h =>
      obtain ⟨hscan, hg⟩ : scan = false ∧ groupSize x = 64 := by simpa using h
      subst hscan
      simp [rowAt, treeValue, hg, Nat.mod_eq_of_lt hi]
    · exact rowAt_gRow _ i hi
  · refine flagsRaised_map _ _ _ _ (h.trans ?_)
    congr 1
    refine List.map_congr_left fun i hi => ?_
    rw [hflags w i (List.mem_range.mp hi)]
    rfl

theorem redx_computes {f : TR} {x : TX} (h : legalReduce f x false = true) :
    Computes (.redx f x) (groupTree f (if groupSize x = 64 then 1 else 3)
      (fun w i => ((reduceTree (x.m.toNat % 16) (present w f) (Nat.log2 (groupSize x)) (i - i % groupSize x)).1).getD 0)
      fun w i => (reduceTree (x.m.toNat % 16) (present w f) (Nat.log2 (groupSize x)) (i - i % groupSize x)).2) := by
  obtain ⟨hop, n, hn, hg⟩ := legalReduce_fields h
  have hrank : (if groupSize x = 64 then 1 else 3) = if !false && groupSize x == 64 then 1 else 3 := by simp
  rw [hrank]
  refine computes_tree (scan := false) (fun _ => rfl) (fun w i hi => ?_) fun w i hi => (lastLevel_reduce f x w hop hn hg hi).2
  rw [← (lastLevel_reduce f x w hop hn hg hi).1]
  rfl

theorem scanx_computes {f : TR} {x : TX} (h : legalReduce f x true = true) :
    Computes (.scanx f x) (groupTree f 3
      (fun w i =>
        let y (j : Nat) := (scanSteps (x.m.toNat % 16) (groupSize x) (present w f) (Nat.log2 (groupSize x)) j).1
        if x.m.getLsbD 4 = false then (y i).getD 0
        else if i % groupSize x = 0 then identityOf (x.m.toNat % 16)
        else (y (i - 1)).getD (identityOf (x.m.toNat % 16)))
      fun w i => ((List.range (groupSize x)).map fun j =>
        (scanSteps (x.m.toNat % 16) (groupSize x) (present w f) (Nat.log2 (groupSize x)) (i - i % groupSize x + j)).2).foldl
          (· ||| ·) 0) := by
  obtain ⟨hop, n, hn, hg⟩ := legalReduce_fields h
  refine computes_tree (scan := true) (fun _ => rfl) (fun w i hi => ?_) fun w i hi => ?_
  · dsimp only
    rw [treeValue, lastLevel_scan f x w hop hi, lastLevel_scan f x w hop (by omega : i - 1 < 64), reduceIdentity_eq hop]
    cases hexcl : x.m.getLsbD 4
    · rfl
    · by_cases hfirst : i % groupSize x = 0 <;> simp [hfirst]
  · rw [groupFlags_eq, List.foldl_map]
    refine flagsOver_congr fun j hj => ?_
    have hend := aligned_le hn (by omega : i - i % groupSize x < 64) (by rw [hg]; exact group_first n i)
    rw [lastLevel_scan f x w hop (by omega)]

/-- An instruction whose fields are no legal ones computes nothing. -/
theorem computes_of_legal {i : Instr} {c : Arith} (h : staticLegal i = true → Computes i c) : Computes i c :=
  fun s w ht hs => h hs s w ht hs

/-- Settles O13: the levels of the model's tree hold what R171 computes in each place, under the operations and identities of
R170. -/
theorem reduceAndScan : Obligations.ReduceAndScan :=
  ⟨fun _ _ => computes_of_legal redx_computes, fun _ _ => computes_of_legal scanx_computes⟩

end Sys2Proof.Machine
end

section
/-!
PROOFS. A command at the head of an engine's queue (R71, R330): the steps of the engines reduced to what they do with it, and what the
queues, tags and contexts of a block are after the operations that these steps share.
-/

namespace Sys2Proof.Machine

/-! ### Queues of a block (R71) -/

theorem queueBit_lt (q : EngineQueue) : queueBit q < 5 := by cases q <;> decide

theorem queueBit_inj {p q : EngineQueue} (h : queueBit p = queueBit q) : p = q := by
  revert h
  cases p <;> cases q <;> decide

theorem queueOf_setQueue {b : Block} (hb : b.queues.length = 5) (q p : EngineQueue) (cs : List Command) :
    queueOf (setQueue b q cs) p = if p = q then cs else queueOf b p := by
  rw [queueOf, setQueue, getD_set, hb, if_pos (queueBit_lt q), queueOf]
  by_cases h : p = q
  · simp [h]
  · rw [if_neg h, if_neg fun hbit => h (queueBit_inj hbit).symm]

/-! ### One block replaced -/

theorem putBlock_others (s : State) {b x : Block} (hid : x.id = b.id) : OtherBlocks s (s.putBlock x) b.id :=
  fun j hj => State.putBlock_block_other s x j (by rwa [hid])

theorem putBlock_blockStep {s : State} {b x : Block} (hb : s.block? b.id = some b) (hid : x.id = b.id) :
    BlockStep s (s.putBlock x) b x :=
  ⟨State.putBlock_block_same s x b.id b hid hb, putBlock_others s hid, rfl⟩

/-! ### Counters (R369) -/

/-- A context but for the counters of its capture window. -/
def withoutCounters (c : Context) : Context := { c with capture := { c.capture with counters := [] } }

/-- A count changes the counters of its context at most. -/
theorem addCounter_cases (s : State) (ctx core off n : Nat) : addCounter s ctx core off n = s ∨
    ∃ c x, s.ctx? ctx = some c ∧ x.index = ctx ∧ withoutCounters x = withoutCounters c ∧ addCounter s ctx core off n = s.putCtx x := by
  unfold addCounter
  split
  case h_2 => exact .inl rfl
  case h_1 c hc =>
    split
    · refine .inr ⟨c, _, hc, ?_, ?_, rfl⟩
      · exact State.ctx_index s ctx c hc
      · rfl
    · exact .inl rfl

theorem addCounter_eq (s : State) (ctx core off n : Nat) :
    addCounter s ctx core off n = { s with contexts := (addCounter s ctx core off n).contexts } := by
  obtain h | ⟨c, x, -, -, -, h⟩ := addCounter_cases s ctx core off n
  · rw [h]
  · rw [h]; rfl

theorem addCounter_sameContexts (s : State) (ctx core off n : Nat) : SameContexts s (addCounter s ctx core off n) := by
  intro i
  obtain h | ⟨c, x, hc, hindex, hsame, h⟩ := addCounter_cases s ctx core off n
  · rw [h]
  · rw [h]
    by_cases hi : i = ctx
    · subst hi
      rw [State.putCtx_ctx_same s x i c hindex hc, hc]
      exact congrArg some hsame
    · rw [State.putCtx_ctx_other s x i (hindex ▸ hi)]

/-! ### The engines' steps (R71, R182, R188, R209) -/

section
variable {s : State} {b : Block} {q : EngineQueue} {c : Command} (h : EngineTurn s b q c)
include h

theorem EngineTurn.workingHead : workingHead s b q = some c := by
  rw [Machine.workingHead, if_pos h.runs, h.head]
  simp [h.free]

theorem exec_engineCommandStart : exec (.engineCommandStart b.id q) s = .next (if c.started then s else startCommand s b q c) := by
  show execEngineCommandStart b.id q s = _
  simp only [execEngineCommandStart, h.here, h.workingHead]
  rfl

end

section
variable {s : State} {b : Block} {c : Command}

theorem exec_matrixGrant (h : EngineTurn s b .matrix c) : exec (.matrixGrant b.id) s = .next (grantMatrix s b) := by
  show execMatrixGrant b.id s = _
  simp only [execMatrixGrant, h.here, h.workingHead, Option.isSome_some, if_true]
  rfl

theorem exec_sortStep (h : EngineTurn s b .sort c) : exec (.sortStep b.id) s = .next (sortStepOf s b) := by
  show execSortStep b.id s = _
  simp only [execSortStep, h.here, h.workingHead, Option.isSome_some, if_true]
  rfl

theorem exec_sortTransferRow (h : EngineTurn s b .sort c) : exec (.sortTransferRow b.id) s = .next (transferStep s b) := by
  show execSortTransferRow b.id s = _
  simp only [execSortTransferRow, h.here, h.workingHead, Option.isSome_some, if_true]
  rfl

end

/-! ### The tags of a write (R63) -/

/-- A block after writes of an accessor that is no block sequencer: bytes, tags and bad words alone may differ. -/
def WritesOnly (b b' : Block) : Prop := b' = { b with scratch := b'.scratch, tags := b'.tags, badWords := b'.badWords }

theorem WritesOnly.refl (b : Block) : WritesOnly b b := rfl

theorem WritesOnly.trans {a b c : Block} (h : WritesOnly a b) (k : WritesOnly b c) : WritesOnly a c := by
  unfold WritesOnly at *
  rw [k, h]

theorem markWrite_eq (b : Block) {x : Accessor} (hx : x.wrid ≠ wridSeq) (ranges : List (Nat × Nat)) :
    markWrite b x false ranges = { b with
      badWords := b.badWords.filter fun i => !wordCovered ranges i,
      tags := (ranges.flatMap fun r => wordsOf r.1 r.2).foldl (fun m i => mapSet 0 m i (scratchWritten x.wrid x.count)) b.tags } := by
  simp [markWrite, stampSeq, hx]

theorem mapWf_setAll {α : Type} [DecidableEq α] (d v : α) (ks : List Nat) (m : SMap α) (w : mapWf d m = true) :
    mapWf d (ks.foldl (fun m k => mapSet d m k v) m) = true := by
  induction ks generalizing m with
  | nil => exact w
  | cons k ks ih => exact ih _ (mapWf_mapSet d m k v w)

theorem mapGet_setAll {α : Type} [DecidableEq α] (d v : α) (ks : List Nat) (m : SMap α) (w : mapWf d m = true) (j : Nat) :
    mapGet d (ks.foldl (fun m k => mapSet d m k v) m) j = if j ∈ ks then v else mapGet d m j := by
  induction ks generalizing m with
  | nil => simp
  | cons k ks ih =>
    rw [List.foldl_cons, ih _ (mapWf_mapSet d m k v w), mapGet_mapSet d m k v j w]
    by_cases hj : j ∈ ks <;> simp [hj]

end Sys2Proof.Machine
end

section
/-!
PROOFS. Whose turn it is at the matrix engine of a core (R182).
-/

namespace Sys2Proof.Machine

/-! ### Round robin (R182) -/

/-- The blocks of a core that its matrix engine can serve. -/
def readyBlocks (s : State) (isle core : Nat) : List Block :=
  s.blocks.filter fun b => b.isle == isle && b.core == core && matrixReady s b

theorem mem_readyBlocks {s : State} {isle core : Nat} {b : Block} :
    b ∈ readyBlocks s isle core ↔ b ∈ s.blocks ∧ b.isle = isle ∧ b.core = core ∧ matrixReady s b = true := by
  simp [readyBlocks, and_assoc]

/-- The block whose grant has rows left. -/
def grantHeld (g : Nat) (b : Block) : Bool := g % 32 != 0 && g / 32 == b.slot + 1 && matrixBetween b

/-- The first block in slot order from a slot on. -/
def firstFrom (n : Nat) (ready : List Block) : Option Block :=
  (List.range blockSlots).findSome? fun i => ready.find? fun b => b.slot == (n + i) % blockSlots

theorem matrixNext_eq (s : State) (isle core : Nat) : matrixNext s isle core =
    match (readyBlocks s isle core).find? (grantHeld (mapGet 0 s.grants (coreNumber isle core))) with
    | some b => some b
    | none => firstFrom (mapGet 0 s.grants (coreNumber isle core) / 32) (readyBlocks s isle core) := rfl

/-- How far a slot stands from another in slot order. -/
def slotsFrom (n slot : Nat) : Nat := (slot + 8 - n % 8) % 8

theorem slotsFrom_spec (n : Nat) {slot : Nat} (h : slot < 8) : slotsFrom n slot < 8 ∧ (n + slotsFrom n slot) % 8 = slot := by
  unfold slotsFrom
  omega

theorem slotsFrom_add (n : Nat) {i : Nat} (h : i < 8) : slotsFrom n ((n + i) % 8) = i := by
  unfold slotsFrom
  omega

/-- The block that is found is ready, and no ready block stands before it in slot order. -/
theorem firstFrom_some {n : Nat} {ready : List Block} {b : Block} (h : firstFrom n ready = some b) :
    b ∈ ready ∧ ∀ y ∈ ready, y.slot < 8 → slotsFrom n b.slot ≤ slotsFrom n y.slot := by
  obtain ⟨before, i, after, hrange, hfind, hnone⟩ := List.findSome?_eq_some_iff.mp h
  rw [List.range_eq_range'] at hrange
  obtain ⟨k, hk, rfl, hrest⟩ := List.range'_eq_append_iff.mp hrange
  obtain rfl : i = k := by
    cases hn : blockSlots - k with
    | zero => simp [hn] at hrest
    | succ m => simpa [hn, List.range'_succ] using congrArg List.head? hrest
  have hi : i < 8 := by
    have := congrArg List.length hrest
    simp [blockSlots] at this
    omega
  have hslot : b.slot = (n + i) % 8 := by simpa [blockSlots] using List.find?_some hfind
  refine ⟨List.mem_of_find?_eq_some hfind, fun y hy hy8 => ?_⟩
  rw [hslot, slotsFrom_add n hi]
  by_contra hlt
  have habsent := List.find?_eq_none.mp (hnone (slotsFrom n y.slot) (by simpa [List.mem_range'_1] using hlt)) y hy
  exact habsent (by simp [blockSlots, (slotsFrom_spec n hy8).2])

theorem firstFrom_isSome (n : Nat) {ready : List Block} {b : Block} (hb : b ∈ ready) (h8 : b.slot < 8) :
    ∃ x, firstFrom n ready = some x := by
  rw [← Option.isSome_iff_exists, firstFrom, List.findSome?_isSome_iff]
  refine ⟨slotsFrom n b.slot, List.mem_range.mpr (slotsFrom_spec n h8).1, ?_⟩
  rw [List.find?_isSome]
  exact ⟨b, hb, by simp [blockSlots, (slotsFrom_spec n h8).2]⟩

theorem matrixNext_some {s : State} {isle core : Nat} {b : Block} (h : matrixNext s isle core = some b) :
    b ∈ readyBlocks s isle core ∧ (grantHeld (mapGet 0 s.grants (coreNumber isle core)) b = true ∨
      ∀ y ∈ readyBlocks s isle core, y.slot < 8 →
        slotsFrom (mapGet 0 s.grants (coreNumber isle core) / 32) b.slot ≤
          slotsFrom (mapGet 0 s.grants (coreNumber isle core) / 32) y.slot) := by
  rw [matrixNext_eq] at h
  split at h
  case h_1 x hfind =>
    obtain rfl : x = b := Option.some.inj h
    exact ⟨List.mem_of_find?_eq_some hfind, .inl (List.find?_some hfind)⟩
  case h_2 =>
    obtain ⟨hready, hfirst⟩ := firstFrom_some h
    exact ⟨hready, .inr hfirst⟩

theorem roundRobin : RoundRobin := by
  refine ⟨fun s isle core b h => ?_, fun s b hb hready h8 => ?_, fun s b c h hother => ?_⟩
  · obtain ⟨hmem, hturn⟩ := matrixNext_some h
    obtain ⟨hb, hisle, hcore, hready⟩ := mem_readyBlocks.mp hmem
    have hkey : 32 * isle + core = coreNumber isle core := by rw [coreNumber, Nat.mul_comm]
    simp only [hkey]
    refine ⟨hb, hisle, hcore, hready, hturn.imp (fun hheld => ?_) fun hfirst y hy hyi hyc hyr => ?_⟩
    · simpa [grantHeld, and_assoc] using hheld
    · exact hfirst y (mem_readyBlocks.mpr ⟨hy, hyi, hyc, hyr⟩)
  · rw [matrixNext_eq]
    split
    · exact ⟨_, rfl⟩
    · exact firstFrom_isSome _ (mem_readyBlocks.mpr ⟨hb, rfl, rfl, hready⟩) h8
  · have hno : ((matrixNext s b.isle b.core).any fun x => x.id == b.id) = false := by
      cases hn : matrixNext s b.isle b.core with
      | none => rfl
      | some x => simpa using hother x hn
    rw [exec_matrixGrant h, grantMatrix, hno, if_neg Bool.false_ne_true]

/-! ### A grant (R66, R182, R369) -/

/-- A command that performs in its block, and counts at most, leaves what a grant leaves. -/
theorem grantStep_of_performs {s : State} {b b' : Block} {c : Command} (h : MatrixTurn s b c) (contexts : List Context)
    (hcontexts : SameContexts s { s with contexts := contexts }) (hid : b'.id = b.id)
    (hperform : performMatrix s b = State.putBlock { touchPartition s b with contexts := contexts } b') :
    ∃ t, exec (.matrixGrant b.id) s = .next t ∧ GrantStep s t b b' := by
  obtain ⟨hhead, x, hnext, hx⟩ := h
  have hhere : (performMatrix s b).block? b.id = some b' := by
    rw [hperform]
    exact State.putBlock_block_same _ b' b.id b hid hhead.here
  have hgrants : (performMatrix s b).grants = s.grants := by rw [hperform]; rfl
  have hgrant : grantMatrix s b = { performMatrix s b with
      grants := mapSet 0 s.grants (coreNumber b.isle b.core)
        (grantAfter (mapGet 0 s.grants (coreNumber b.isle b.core)) b b') } := by
    rw [grantMatrix, hnext]
    simp only [Option.any_some, hx, beq_self_eq_true, if_true, hhere, hgrants]
  have hkey : 32 * b.isle + b.core = coreNumber b.isle b.core := by rw [coreNumber, Nat.mul_comm]
  refine ⟨grantMatrix s b, exec_matrixGrant hhead, ?_⟩
  rw [hgrant]
  exact {
    here := hhere
    others := fun j hj => by
      rw [hperform]
      exact State.putBlock_block_other _ b' j (by rwa [hid])
    contexts := by
      rw [hperform]
      exact hcontexts
    rest := by
      rw [hperform]
      simp [touchPartition, State.putBlock, and_assoc]
    turn := by
      simp [hkey, grantAfter, and_assoc] }

end Sys2Proof.Machine
end

section
/-!
PROOFS. The end of a matrix command (R203), and the cells that commands write in the accumulators (R193).
-/

namespace Sys2Proof.Machine

/-! ### Batches that complete (R203) -/

theorem settleBatches_frame (k : Nat) (b : Block) :
    settleBatches k b = { b with completed := (settleBatches k b).completed, batches := (settleBatches k b).batches } := by
  induction k generalizing b with
  | zero => rfl
  | succ k ih =>
    unfold settleBatches
    split
    · rfl
    · split
      · exact ih _
      · split
        · exact ih _
        · rfl

/-- A batch with a command in the queue is not complete. -/
theorem settleBatches_waits {b : Block} {q : BitVec 16 × List Nat} (hq : b.batches.find? (fun q => q.1 == b.completed + 1) = some q)
    (h : serialsDone b q.2 = false) (k : Nat) : (settleBatches k b).completed = b.completed := by
  cases k with
  | zero => rfl
  | succ k =>
    rw [settleBatches, hq]
    split
    · rfl
    · simp [h]

/-- The last closed batch completes. -/
theorem settleBatches_last {b : Block} {q : BitVec 16 × List Nat} (hq : b.batches.find? (fun q => q.1 == b.completed + 1) = some q)
    (h : serialsDone b q.2 = true) (hlast : b.closed = b.completed + 1) :
    (settleBatches (batchFuel b) b).completed = b.closed := by
  have hfuel : batchFuel b = 1 := by rw [batchFuel, hlast, add_sub_cancel_left]; rfl
  have hopen : b.completed ≠ b.closed := by rw [hlast]; simp
  rw [hfuel, settleBatches, if_neg hopen, hq]
  simp [h, settleBatches, hlast]

theorem serialsDone_iff (b : Block) (ns : List Nat) :
    serialsDone b ns = true ↔ ∀ n ∈ ns, ∀ c ∈ queueOf b .matrix, c.serial ≠ n := by
  simp [serialsDone]

/-! ### A command has performed (R203) -/

/-- The queues behind the head and the batches of a block are those of another. -/
structure SameCommands (b x : Block) : Prop where
  length    : x.queues.length = 5
  tail      : (queueOf x .matrix).tail = (queueOf b .matrix).tail
  others    : ∀ p, p ≠ .matrix → queueOf x p = queueOf b p
  closed    : x.closed = b.closed
  completed : x.completed = b.completed
  batches   : x.batches = b.batches

/-- The same of a block whose queues and batches are equal. -/
theorem SameCommands.congr {b x y : Block} (h : SameCommands b x) (hq : y.queues = x.queues) (hc : y.closed = x.closed)
    (hd : y.completed = x.completed) (hs : y.batches = x.batches) : SameCommands b y where
  length := by rw [hq, h.length]
  tail := by rw [queueOf, hq, ← queueOf, h.tail]
  others p hp := by rw [queueOf, hq, ← queueOf, h.others p hp]
  closed := hc.trans h.closed
  completed := hd.trans h.completed
  batches := hs.trans h.batches

theorem SameCommands.refl {b : Block} (hb : BlockSized b) : SameCommands b b := ⟨hb.queues, rfl, fun _ _ => rfl, rfl, rfl, rfl⟩

theorem SameCommands.putHead {b x : Block} (h : SameCommands b x) (c : Command) : SameCommands b (putHead x .matrix c) where
  length := by simpa [Machine.putHead, setQueue] using h.length
  tail := by rw [Machine.putHead, queueOf_setQueue h.length, if_pos rfl]; exact h.tail
  others p hp := by rw [Machine.putHead, queueOf_setQueue h.length, if_neg hp]; exact h.others p hp
  closed := h.closed
  completed := h.completed
  batches := h.batches

/-- A command that has performed leaves its queue, and the batch that waited for it alone is complete. -/
theorem matrixFinished_of_same {b x : Block} (h : SameCommands b x) : MatrixFinished b (finishMatrix x) := by
  let y := popHead x .matrix
  have hframe : finishMatrix x = { y with completed := (finishMatrix x).completed, batches := (finishMatrix x).batches } :=
    settleBatches_frame _ y
  have hqueues : ∀ p, queueOf (finishMatrix x) p = queueOf y p := fun p => by
    rw [queueOf, hframe, queueOf]
  have hqueue : queueOf y .matrix = (queueOf b .matrix).tail := by
    rw [show y = setQueue x .matrix (queueOf x .matrix).tail from rfl, queueOf_setQueue h.length, if_pos rfl, h.tail]
  refine ⟨(hqueues .matrix).trans hqueue, fun p hp => ?_, fun hopen q hq => ⟨?_, fun hdone hlast => ?_⟩⟩
  · rw [hqueues, show y = setQueue x .matrix (queueOf x .matrix).tail from rfl, queueOf_setQueue h.length, if_neg hp, h.others p hp]
  · rintro ⟨n, hn, c, hc, hserial⟩
    have hwaits : serialsDone y q.2 = false := by
      rw [← Bool.not_eq_true, serialsDone_iff, hqueue]
      exact fun hall => hall n hn c hc hserial
    exact (settleBatches_waits (b := y) (by simpa [y, popHead, setQueue, h.batches, h.completed] using hq) hwaits _).trans h.completed
  · have hall : serialsDone y q.2 = true := by
      rw [serialsDone_iff, hqueue]
      exact hdone
    exact (settleBatches_last (b := y) (by simpa [y, popHead, setQueue, h.batches, h.completed] using hq) hall
      (by simpa [y, popHead, setQueue, h.closed, h.completed] using hlast)).trans h.closed

/-- The end of a command touches its queue and the batches alone. -/
theorem finishMatrix_frame (x : Block) : finishMatrix x = { x with
    queues := (finishMatrix x).queues, completed := (finishMatrix x).completed, batches := (finishMatrix x).batches } := by
  have h := settleBatches_frame (batchFuel (popHead x .matrix)) (popHead x .matrix)
  exact h.trans (by rw [finishMatrix, h]; rfl)

/-! ### Cells of the accumulators (R193) -/

/-- Writes of some cells, given by row and column. -/
def fillCells (cells : List (Nat × Nat)) (val : Nat → Nat → Word) (b : Block) : Block :=
  cells.foldl (fun b q => accSet b q.1 q.2 (val q.1 q.2)) b

theorem fillCells_frame (cells : List (Nat × Nat)) (val : Nat → Nat → Word) (b : Block) :
    fillCells cells val b = { b with acc := (fillCells cells val b).acc, badAcc := (fillCells cells val b).badAcc } := by
  induction cells generalizing b with
  | nil => rfl
  | cons q cells ih =>
    have h := ih (accSet b q.1 q.2 (val q.1 q.2))
    rw [fillCells, List.foldl_cons]
    exact h

theorem cellKey_inj {r r' n n' : Nat} (hn : n < 128) (hn' : n' < 128) : 128 * r + n = 128 * r' + n' ↔ r = r' ∧ n = n' := by omega

/-- A written cell reads its value, and every other cell as before. -/
theorem accGet_fillCells (cells : List (Nat × Nat)) (val : Nat → Nat → Word) (b : Block) (hwf : mapWf 0 b.acc = true)
    (hcells : ∀ q ∈ cells, q.2 < 128) (row : Nat) {col : Nat} (hcol : col < 128) :
    accGet (fillCells cells val b) row col = if (row, col) ∈ cells then val row col else accGet b row col := by
  induction cells generalizing b with
  | nil => simp [fillCells]
  | cons q cells ih =>
    obtain ⟨r, n⟩ := q
    have hn : n < 128 := hcells (r, n) List.mem_cons_self
    have hset : accGet (accSet b r n (val r n)) row col = if row = r ∧ col = n then val r n else accGet b row col := by
      rw [accGet, accSet, mapGet_mapSet 0 _ _ _ _ hwf, accGet]
      simp only [cellKey_inj hcol hn]
    have hrest := ih (accSet b r n (val r n)) (mapWf_mapSet 0 _ _ _ hwf) fun q hq => hcells q (List.mem_cons_of_mem _ hq)
    rw [fillCells, List.foldl_cons]
    refine hrest.trans ?_
    rw [hset]
    by_cases hin : (row, col) ∈ cells
    · simp [hin]
    · by_cases hrn : row = r ∧ col = n
      · obtain ⟨rfl, rfl⟩ := hrn
        simp
      · simp [hin, hrn]

theorem mem_activeOf {m : BitVec 128} {i : Nat} : i ∈ activeOf m ↔ m.getLsbD i = true := by
  simp only [activeOf, List.mem_filter, List.mem_range, and_iff_right_iff_imp]
  intro h
  by_contra hi
  rw [BitVec.getLsbD_of_ge _ _ (Nat.le_of_not_lt hi)] at h
  cases h

theorem lt_of_mem_activeOf {m : BitVec 128} {i : Nat} (h : i ∈ activeOf m) : i < 128 := by
  simp only [activeOf, List.mem_filter, List.mem_range] at h
  exact h.1

/-- The cells that rows and columns name, from a base row on. -/
def namedCells (base : Nat) (rows cols : List Nat) : List (Nat × Nat) := rows.flatMap fun i => cols.map fun n => (base + i, n)

theorem mem_namedCells {base : Nat} {rows cols : BitVec 128} {row col : Nat} :
    (row, col) ∈ namedCells base (activeOf rows) (activeOf cols) ↔
      base ≤ row ∧ rows.getLsbD (row - base) = true ∧ cols.getLsbD col = true := by
  simp only [namedCells, List.mem_flatMap, List.mem_map, mem_activeOf, Prod.mk.injEq]
  constructor
  · rintro ⟨i, hi, n, hn, rfl, rfl⟩
    exact ⟨Nat.le_add_right .., by rwa [Nat.add_sub_cancel_left], hn⟩
  · rintro ⟨hle, hrow, hcol⟩
    exact ⟨row - base, hrow, col, hcol, by omega, rfl⟩

theorem namedCells_cols {base : Nat} {rows : List Nat} {cols : BitVec 128} : ∀ q ∈ namedCells base rows (activeOf cols), q.2 < 128 := by
  simp only [namedCells, List.mem_flatMap, List.mem_map]
  rintro q ⟨i, -, n, hn, rfl⟩
  exact lt_of_mem_activeOf hn

end Sys2Proof.Machine
end

section
/-!
PROOFS. Whole commands of the matrix engine: MPRED, MZERO, MLDW and MSWAP (R177, R179, R193, R195 to R198).
-/

namespace Sys2Proof.Machine

/-! ### Predicates (R179, R195) -/

theorem mpredMask_bit (c : Command) {j : Nat} (hj : j < 128) : (mpredMask c).getLsbD j =
    (decide (field c.a 0 8 ≤ j) && decide (j < field c.a 0 8 + field c.b 0 8)) := by
  show (BitVec.ofNat 128 ((2 ^ field c.b 0 8 - 1) * 2 ^ field c.a 0 8)).getLsbD j = _
  rw [BitVec.getLsbD_ofNat, Nat.testBit_mul_two_pow, Nat.testBit_two_pow_sub_one, decide_eq_true hj, Bool.true_and]
  by_cases hle : field c.a 0 8 ≤ j
  · simp [hle, Nat.sub_lt_iff_lt_add' hle]
  · simp [hle]

/-- What an MPRED leaves of a list of predicates. -/
def predsWritten (c : Command) (o : BitVec 1) (n : BitVec 2) (l : List (BitVec 128)) : List (BitVec 128) :=
  l.set n.toNat (if o = 1 then l.getD n.toNat 0 ||| mpredMask c else mpredMask c)

theorem predsWritten_bit {c : Command} {l : List (BitVec 128)} (hl : l.length = 4) (o : BitVec 1) (n : BitVec 2) (k : Nat) {j : Nat}
    (hj : j < 128) : ((predsWritten c o n l).getD k 0).getLsbD j =
      if k = n.toNat then (decide (field c.a 0 8 ≤ j) && decide (j < field c.a 0 8 + field c.b 0 8)) ||
        (o == 1 && (l.getD k 0).getLsbD j) else (l.getD k 0).getLsbD j := by
  rw [predsWritten, getD_set, hl, if_pos n.isLt]
  by_cases hk : k = n.toNat
  · subst hk
    rw [if_pos rfl, if_pos rfl, ← mpredMask_bit c hj]
    obtain rfl | rfl : o = 0 ∨ o = 1 := (by decide : ∀ o : BitVec 1, o = 0 ∨ o = 1) o
    · simp
    · rw [if_pos rfl, BitVec.getLsbD_or, Bool.or_comm]
      simp
  · rw [if_neg (Ne.symm hk), if_neg hk]

/-! ### Races do not see a command start (R185) -/

theorem matrixRace_none {s : State} {b : Block} {c d : Command} {write : Bool} {ps : List (Nat × Nat)}
    (h : ∀ q ∈ ps, engineRaceAt s b b.id c.serial .matrix (commandAccessor b c) write q.1 q.2 = none) :
    matrixRace (touchPartition s b) b c write ps = none ∧
      matrixRace (touchPartition s b) (putHead b .matrix d) c write ps = none := by
  have hraces : ps.findSome? (fun q => engineRaceAt s b b.id c.serial .matrix (commandAccessor b c) write q.1 q.2) = none :=
    List.findSome?_eq_none_iff.mpr h
  exact ⟨hraces, hraces⟩

theorem insideAllotment_of {b : Block} {ps : List (Nat × Nat)} (h : ∀ q ∈ ps, q.1 + q.2 ≤ blockBytes b) :
    insideAllotment b ps = true := by
  rw [insideAllotment, List.all_eq_true]
  exact fun q hq => decide_eq_true (h q hq)

theorem rowsFit_of {b : Block} {rho : Dword} {rows : BitVec 128} (h : ∀ i ∈ activeOf rows, rho.toNat + i < b.accRows) :
    rowsFit b rho rows = true := by
  rw [rowsFit, List.all_eq_true]
  exact fun i hi => decide_eq_true (h i hi)

/-! ### A plane's bytes (R197) -/

/-- A stretch of scratchpad, copied into a memory. -/
def copiedInto (m : Mem) (dst : Nat) (scratch : Mem) (src n : Nat) : Mem := writeBytes m dst (readBytes scratch src n)

theorem copiedInto_wf {m : Mem} (hm : Memory.wf m = true) (dst : Nat) (scratch : Mem) (src n : Nat) :
    Memory.wf (copiedInto m dst scratch src n) = true := writeBytes_wf _ m dst hm

theorem readByte_copiedInto {m : Mem} (hm : Memory.wf m = true) (dst : Nat) (scratch : Mem) (src n j : Nat) :
    readByte (copiedInto m dst scratch src n) j =
      if dst ≤ j ∧ j < dst + n then readByte scratch (src + (j - dst)) else readByte m j := by
  rw [copiedInto, readByte_writeBytes _ m dst j hm, readBytes_length]
  by_cases h : dst ≤ j ∧ j < dst + n
  · rw [if_pos h, if_pos h, readBytes_get _ _ _ _ (by omega)]
  · rw [if_neg h, if_neg h]

/-- The bytes of a plane: codes, and under BX4 its block scales and, in geometry 0, its band scales. -/
theorem planeBytes_eq (b : Block) (w : List Nat) : planeBytes b w =
    let codes := copiedInto [] 0 b.scratch (w.getD 2 0) 32768
    let scales := copiedInto codes 32768 b.scratch (w.getD 3 0) 8192
    if w.getD 0 0 = 7 then
      if w.getD 1 0 = 0 then copiedInto scales 40960 b.scratch (w.getD 4 0) 2048 else scales
    else codes := rfl

section
variable (b : Block) (w : List Nat)

theorem planeBytes_codes {j : Nat} (hj : j < 32768) :
    readByte (planeBytes b w) j = readByte b.scratch (w.getD 2 0 + j) := by
  have hcodes : Memory.wf (copiedInto [] 0 b.scratch (w.getD 2 0) 32768) = true := copiedInto_wf rfl ..
  have hread : readByte (copiedInto [] 0 b.scratch (w.getD 2 0) 32768) j = readByte b.scratch (w.getD 2 0 + j) := by
    rw [readByte_copiedInto rfl, if_pos ⟨Nat.zero_le j, by omega⟩, Nat.sub_zero]
  rw [planeBytes_eq]
  dsimp only
  split
  · split
    · rw [readByte_copiedInto (copiedInto_wf hcodes ..), if_neg (by omega), readByte_copiedInto hcodes, if_neg (by omega), hread]
    · rw [readByte_copiedInto hcodes, if_neg (by omega), hread]
  · exact hread

theorem planeBytes_scales (h7 : w.getD 0 0 = 7) {j : Nat} (hj : j < 8192) :
    readByte (planeBytes b w) (32768 + j) = readByte b.scratch (w.getD 3 0 + j) := by
  have hcodes : Memory.wf (copiedInto [] 0 b.scratch (w.getD 2 0) 32768) = true := copiedInto_wf rfl ..
  have hread : readByte (copiedInto (copiedInto [] 0 b.scratch (w.getD 2 0) 32768) 32768 b.scratch (w.getD 3 0) 8192) (32768 + j) =
      readByte b.scratch (w.getD 3 0 + j) := by
    rw [readByte_copiedInto hcodes, if_pos (by omega), Nat.add_sub_cancel_left]
  rw [planeBytes_eq]
  dsimp only
  rw [if_pos h7]
  split
  · rw [readByte_copiedInto (copiedInto_wf hcodes ..), if_neg (by omega), hread]
  · exact hread

theorem planeBytes_bands (h7 : w.getD 0 0 = 7) (h0 : w.getD 1 0 = 0) {j : Nat} (hj : j < 2048) :
    readByte (planeBytes b w) (40960 + j) = readByte b.scratch (w.getD 4 0 + j) := by
  rw [planeBytes_eq]
  dsimp only
  rw [if_pos h7, if_pos h0, readByte_copiedInto (copiedInto_wf (copiedInto_wf rfl ..) ..), if_pos (by omega), Nat.add_sub_cancel_left]

end

/-- The head of the matrix queue has started. -/
def startedHead (b : Block) (c : Command) : Block := putHead b .matrix { c with started := true }

/-- The block with a plane loaded into the shadow. -/
def planeLoaded (s : State) (b : Block) (c : Command) : Block :=
  { markAll s b c (planePieces c.work) with shadow := ⟨c.work.getD 0 0, c.work.getD 1 0, planeBytes b c.work⟩ }

theorem planeLoaded_frame (s : State) (b : Block) (c : Command) : let x := planeLoaded s (startedHead b c) c
    x = { b with queues := x.queues, tags := x.tags, shadow := x.shadow } := rfl

theorem planeLoaded_same {b : Block} (hb : BlockSized b) (s : State) (c : Command) :
    SameCommands b (planeLoaded s (startedHead b c) c) :=
  ((SameCommands.refl hb).putHead { c with started := true }).congr rfl rfl rfl rfl

/-- The shadow plane after a load: the window's format and geometry, and the bytes of scratchpad. -/
theorem planeLoaded_shadow (s : State) (b : Block) (c : Command) : let p := (planeLoaded s (startedHead b c) c).shadow
    p.fmt = c.work.getD 0 0 ∧ p.geom = c.work.getD 1 0 ∧
    (∀ j, j < 32768 → readByte p.bytes j = readByte b.scratch (c.work.getD 2 0 + j)) ∧
    (c.work.getD 0 0 = 7 → ∀ j, j < 8192 → readByte p.bytes (32768 + j) = readByte b.scratch (c.work.getD 3 0 + j)) ∧
    (c.work.getD 0 0 = 7 → c.work.getD 1 0 = 0 → ∀ j, j < 2048 →
      readByte p.bytes (40960 + j) = readByte b.scratch (c.work.getD 4 0 + j)) :=
  ⟨rfl, rfl, fun _ hj => planeBytes_codes (startedHead b c) c.work hj,
    fun h7 _ hj => planeBytes_scales (startedHead b c) c.work h7 hj,
    fun h7 h0 _ hj => planeBytes_bands (startedHead b c) c.work h7 h0 hj⟩

theorem performMldw_loads {s : State} {b : Block} {c : Command} (hinside : insideAllotment b (planePieces c.work) = true)
    (hrace : matrixRace s b c false (planePieces c.work) = none) :
    performMldw s b c = s.putBlock (finishMatrix (planeLoaded s b c)) := by
  unfold performMldw
  dsimp only
  rw [hinside, hrace]
  rfl

/-! ### What each command performs (R182) -/

section
variable {s : State} {b : Block} {c : Command} (h : EngineTurn s b .matrix c)
include h

theorem performMatrix_mpred {a x : BitVec 5} {o col : BitVec 1} {n : BitVec 2} (hi : c.instr = .mpred a x o col n) :
    performMatrix s b = (touchPartition s b).putBlock (finishMatrix (if col = 1 then { b with mc := predsWritten c o n b.mc }
      else { b with mr := predsWritten c o n b.mr })) := by
  simp only [performMatrix, h.head, hi, applyPred, predsWritten]
  split <;> rfl

theorem performMatrix_mzero {a : BitVec 5} {k r : BitVec 2} (hi : c.instr = .mzero a k r)
    (hfit : ∀ i ∈ activeOf (b.mr.getD r.toNat 0), c.a.toNat + i < b.accRows) : performMatrix s b =
    (touchPartition s b).putBlock (finishMatrix (fillCells
      (namedCells c.a.toNat (activeOf (b.mr.getD r.toNat 0)) (activeOf (b.mc.getD k.toNat 0))) (fun _ _ => 0) b)) := by
  simp only [performMatrix, h.head, hi, rowsFit_of hfit, if_true, performMzero, fillCells, namedCells, List.foldl_flatMap,
    List.foldl_map]

theorem performMatrix_mldw {a : BitVec 5} {n : BitVec 1} {f : BitVec 3} (hi : c.instr = .mldw a n f)
    (hpieces : ∀ q ∈ planePieces c.work, q.1 + q.2 ≤ blockBytes b ∧
      engineRaceAt s b b.id c.serial .matrix (commandAccessor b c) false q.1 q.2 = none) :
    performMatrix s b = (touchPartition s b).putBlock (finishMatrix (planeLoaded (touchPartition s b) (startedHead b c) c)) := by
  have hinside : insideAllotment (startedHead b c) (planePieces c.work) = true :=
    insideAllotment_of (b := startedHead b c) fun q hq => (hpieces q hq).1
  have hrace : matrixRace (touchPartition s b) (startedHead b c) c false (planePieces c.work) = none :=
    (matrixRace_none fun q hq => (hpieces q hq).2).2
  unfold performMatrix
  rw [h.head]
  dsimp only
  generalize hgo : putHead b .matrix { c with started := true } = go
  rw [hi]
  dsimp only
  subst hgo
  exact performMldw_loads hinside hrace

theorem performMatrix_mswap (hi : c.instr = .mswap) :
    performMatrix s b = (touchPartition s b).putBlock (finishMatrix { b with active := b.shadow, shadow := b.active }) := by
  simp only [performMatrix, h.head, hi]

end

/-- A command that performs whole, and counts nothing. -/
theorem grant_whole {s : State} {b x : Block} {c : Command} (h : MatrixTurn s b c)
    (hperform : performMatrix s b = (touchPartition s b).putBlock (finishMatrix x)) (hid : x.id = b.id) (hsame : SameCommands b x) :
    ∃ t, exec (.matrixGrant b.id) s = .next t ∧ GrantStep s t b (finishMatrix x) ∧ MatrixFinished b (finishMatrix x) := by
  have hframe : (finishMatrix x).id = b.id := by rw [finishMatrix_frame, hid]
  obtain ⟨t, hexec, hstep⟩ := grantStep_of_performs h s.contexts (fun _ => rfl) hframe hperform
  exact ⟨t, hexec, hstep, matrixFinished_of_same hsame⟩

theorem matrixGrants : MatrixGrants := by
  intro s b c h
  have hsized := h.head.sized
  have hsame := SameCommands.refl hsized
  refine ⟨fun a x o col n hi => ?_, fun a k r hi hwf hfit => ?_, fun a n f hi hpieces => ?_, fun hi => ?_⟩
  · have hperform := performMatrix_mpred h.head hi
    obtain rfl | rfl : col = 0 ∨ col = 1 := (by decide : ∀ col : BitVec 1, col = 0 ∨ col = 1) col
    · rw [if_neg (by decide)] at hperform
      obtain ⟨t, hexec, hstep, hdone⟩ := grant_whole h hperform rfl (hsame.congr rfl rfl rfl rfl)
      refine ⟨t, _, hexec, hstep, hdone, by rw [finishMatrix_frame], fun k j _ hj => ?_⟩
      rw [finishMatrix_frame]
      exact ⟨predsWritten_bit hsized.mr o n k hj, rfl⟩
    · rw [if_pos rfl] at hperform
      obtain ⟨t, hexec, hstep, hdone⟩ := grant_whole h hperform rfl (hsame.congr rfl rfl rfl rfl)
      refine ⟨t, _, hexec, hstep, hdone, by rw [finishMatrix_frame], fun k j _ hj => ?_⟩
      rw [finishMatrix_frame]
      exact ⟨rfl, predsWritten_bit hsized.mc o n k hj⟩
  · have hperform := performMatrix_mzero h.head hi fun i hi => hfit i (lt_of_mem_activeOf hi) (mem_activeOf.mp hi)
    have hread := fun row col => accGet_fillCells (namedCells c.a.toNat (activeOf (b.mr.getD r.toNat 0))
      (activeOf (b.mc.getD k.toNat 0))) (fun _ _ => 0) b hwf namedCells_cols row (col := col)
    simp only [mem_namedCells] at hread
    generalize hx : fillCells _ _ b = x at hperform hread
    have hframe : x = { b with acc := x.acc, badAcc := x.badAcc } := hx ▸ fillCells_frame ..
    obtain ⟨t, hexec, hstep, hdone⟩ := grant_whole h hperform (by rw [hframe]) (by
      rw [hframe]
      exact hsame.congr rfl rfl rfl rfl)
    refine ⟨t, _, hexec, hstep, hdone, by rw [finishMatrix_frame, hframe], fun row col hcol => ?_⟩
    rw [accGet, finishMatrix_frame]
    exact hread row col hcol
  · have hperform := performMatrix_mldw h.head hi hpieces
    have hframe := planeLoaded_frame (touchPartition s b) b c
    have hcommands := planeLoaded_same hsized (touchPartition s b) c
    have hshadow := planeLoaded_shadow (touchPartition s b) b c
    generalize planeLoaded (touchPartition s b) (startedHead b c) c = x at hperform hframe hcommands hshadow
    obtain ⟨t, hexec, hstep, hdone⟩ := grant_whole h hperform (by rw [hframe]) hcommands
    refine ⟨t, _, hexec, hstep, hdone, by rw [finishMatrix_frame, hframe], ?_⟩
    rw [finishMatrix_frame]
    exact hshadow
  · obtain ⟨t, hexec, hstep, hdone⟩ := grant_whole h (performMatrix_mswap h.head hi) rfl (hsame.congr rfl rfl rfl rfl)
    exact ⟨t, _, hexec, hstep, hdone, by rw [finishMatrix_frame]⟩

end Sys2Proof.Machine
end

section
/-!
PROOFS. Streams and copies of the matrix engine: MSTRM and MCPY (R180 to R182, R193, R200 to R202).
-/

namespace Sys2Proof.Machine

/-! ### A streamed row (R180, R200, R202) -/

/-- The sum that a streamed row leaves in a cell. -/
def rowSum (b : Block) (f : BitVec 2) (bytes : List Byte) (row col : Nat) : Word :=
  BitVec.ofNat 32 (if b.active.fmt = 5 then streamSumInt b.active bytes col (accGet b row col).toNat
    else streamSum b.active f bytes col (accGet b row col).toNat)

theorem addRow_eq (b : Block) (c : Command) (f : BitVec 2) (cols : BitVec 128) (i : Nat) (bytes : List Byte) :
    addRow b c f cols i bytes = fillCells (namedCells c.b.toNat [i] (activeOf cols)) (rowSum b f bytes) b := by
  simp only [addRow, fillCells, namedCells, List.flatMap_cons, List.flatMap_nil, List.append_nil, List.foldl_map]
  rfl

theorem mem_rowCells {rho i : Nat} {cols : BitVec 128} {row col : Nat} :
    (row, col) ∈ namedCells rho [i] (activeOf cols) ↔ row = rho + i ∧ cols.getLsbD col = true := by
  simp only [namedCells, List.flatMap_cons, List.flatMap_nil, List.append_nil, List.mem_map, mem_activeOf, Prod.mk.injEq]
  constructor
  · rintro ⟨n, hn, rfl, rfl⟩
    exact ⟨rfl, hn⟩
  · rintro ⟨rfl, hn⟩
    exact ⟨col, hn, rfl, rfl⟩

/-- Cells written after some reads were marked. -/
theorem fillMarked_frame (s : State) (b : Block) (c : Command) (ps : List (Nat × Nat)) (cells : List (Nat × Nat))
    (val : Nat → Nat → Word) : let x := fillCells cells val (markAll s b c ps)
    x = { b with tags := x.tags, acc := x.acc, badAcc := x.badAcc } := by
  have h := fillCells_frame cells val (markAll s b c ps)
  intro x
  exact h.trans (by rw [show (markAll s b c ps).tags = x.tags from (congrArg Block.tags h).symm]; rfl)

/-- The block after row i of a stream of n-byte rows. -/
def rowAdded (s : State) (b : Block) (c : Command) (f : BitVec 2) (cols : BitVec 128) (n i : Nat) : Block :=
  addRow (markAll s b c [(rowStart c.a n i, n)]) c f cols i (readBytes b.scratch (rowStart c.a n i) n)

theorem rowAdded_frame (s : State) (b : Block) (c : Command) (f : BitVec 2) (cols : BitVec 128) (n i : Nat) :
    let x := rowAdded s b c f cols n i
    x = { b with tags := x.tags, acc := x.acc, badAcc := x.badAcc } := by
  rw [rowAdded, addRow_eq]
  exact fillMarked_frame ..

theorem accGet_rowAdded (s : State) {b : Block} (c : Command) (f : BitVec 2) (cols : BitVec 128) (n i : Nat) (hwf : mapWf 0 b.acc = true)
    (row : Nat) {col : Nat} (hcol : col < 128) : accGet (rowAdded s b c f cols n i) row col =
      if row = c.b.toNat + i ∧ cols.getLsbD col = true then rowSum b f (readBytes b.scratch (rowStart c.a n i) n) row col
      else accGet b row col := by
  rw [rowAdded, addRow_eq, accGet_fillCells _ _ _ (by exact hwf) namedCells_cols row hcol]
  simp only [mem_rowCells]
  rfl

section
variable {s : State} {b : Block} {c : Command} {f k r : BitVec 2}
  (hpairs : c.done = 0 → streamPairs b.active.fmt f = true)
  (hfits : c.done = 0 → ∀ i ∈ activeOf (b.mr.getD r.toNat 0), c.b.toNat + i < b.accRows ∧
    rowStart c.a (streamRowBytes b.active.fmt f) i + streamRowBytes b.active.fmt f ≤ blockBytes b)
include hpairs hfits

/-- Past the checks of its first row, a stream goes on with its next row. -/
theorem performMstrm_eq : performMstrm s b c f k r =
    match (activeOf (b.mr.getD r.toNat 0)).filter fun i => decide (c.done ≤ i) with
    | [] => s.putBlock (finishMatrix b)
    | i :: rest =>
      match matrixRace s b c false [(rowStart c.a (streamRowBytes b.active.fmt f) i, streamRowBytes b.active.fmt f)] with
      | some x => raceMatrix s (startedHead b c) c false x
      | none => (addCounter s b.ctx (coreNumber b.isle b.core) 0x38 1).putBlock
          (afterRow (rowAdded s b c f (b.mc.getD k.toNat 0) (streamRowBytes b.active.fmt f) i) c rest) := by
  have hformat : (c.done == 0 && !streamPairs b.active.fmt f) = false := by
    by_cases h0 : c.done = 0
    · simp [hpairs h0]
    · simp [h0]
  have hrange : (c.done == 0 && (!rowsFit b c.b (b.mr.getD r.toNat 0) ||
      !insideAllotment b ((activeOf (b.mr.getD r.toNat 0)).map fun i =>
        (rowStart c.a (streamRowBytes b.active.fmt f) i, streamRowBytes b.active.fmt f)))) = false := by
    by_cases h0 : c.done = 0
    · rw [rowsFit_of fun i hi => (hfits h0 i hi).1, insideAllotment_of]
      · simp
      · simpa using fun i hi => (hfits h0 i hi).2
    · simp [h0]
  unfold performMstrm
  dsimp only
  rw [hformat, if_neg Bool.false_ne_true]
  exact if_neg (by rw [Bool.not_eq_true]; exact hrange)

end

section
variable {s : State} {b : Block} {c : Command} (h : EngineTurn s b .matrix c)
include h

theorem performMatrix_mstrm {x y : BitVec 5} {f k r : BitVec 2} (hi : c.instr = .mstrm x y f k r)
    (hgood : accBad b c.b.toNat (b.mr.getD r.toNat 0) (b.mc.getD k.toNat 0) = false) :
    performMatrix s b = performMstrm (touchPartition s b) b c f k r := by
  unfold performMatrix
  rw [h.head]
  dsimp only
  rw [hi]
  dsimp only
  rw [hgood, if_neg Bool.false_ne_true]

theorem performMatrix_mcpy {v : BitVec 3} {x : BitVec 1} {a z : BitVec 5} {k r : BitVec 2} (hi : c.instr = .mcpy v x a z k r)
    (hgood : x = 0 → accBad b c.b.toNat (b.mr.getD r.toNat 0) (b.mc.getD k.toNat 0) = false) :
    performMatrix s b = performMcpy (touchPartition s b) (startedHead b c) c v (x == 1) k r := by
  have hbad : (x != 1 && accBad b c.b.toNat (b.mr.getD r.toNat 0) (b.mc.getD k.toNat 0)) = false := by
    obtain rfl | rfl : x = 0 ∨ x = 1 := (by decide : ∀ x : BitVec 1, x = 0 ∨ x = 1) x
    · rw [hgood rfl, Bool.and_false]
    · rfl
  unfold performMatrix
  rw [h.head]
  dsimp only
  generalize hgo : putHead b .matrix { c with started := true } = go
  rw [hi]
  dsimp only
  rw [hbad, if_neg Bool.false_ne_true]
  subst hgo
  rfl

end

theorem afterRow_last (b : Block) (c : Command) : afterRow b c [] = finishMatrix (startedHead b c) := rfl

/-! ### Runs of an MCPY (R201) -/

/-- The runs of a list name its members in order. -/
theorem runsOf_members (l : List Nat) : ((runsOf l).flatMap fun q => (List.range q.2).map (q.1 + ·)) = l := by
  induction l with
  | nil => rfl
  | cons a rest ih =>
    rw [runsOf]
    cases hruns : runsOf rest with
    | nil =>
      rw [hruns] at ih
      simpa using ih
    | cons q more =>
      obtain ⟨n, len⟩ := q
      rw [hruns] at ih
      dsimp only
      split
      case isTrue hn =>
        subst hn
        rw [← ih]
        simp [List.range_succ_eq_map, Nat.add_assoc, Nat.add_comm 1, Function.comp_def]
      case isFalse =>
        rw [List.flatMap_cons, ih]
        rfl

theorem convBytes_eq (v : BitVec 3) : convBytes v = convSize v := by revert v; decide

/-- Where the bytes of column n of row i lie. -/
def cellStart (c : Command) (e i n : Nat) : Nat := rowStart c.a (128 * e) i + e * n

theorem mcpyStretch_eq (c : Command) (e : Nat) (q : Nat × Nat × Nat) :
    mcpyStretch c.a e q = (cellStart c e q.1 q.2.1, e * q.2.2) := rfl

/-- The cells of a run. -/
def runCells (rho : Nat) (q : Nat × Nat × Nat) : List (Nat × Nat) := (List.range q.2.2).map fun j => (rho + q.1, q.2.1 + j)

theorem runCells_named (rho : Nat) (rows cols : BitVec 128) :
    (mcpyRuns rows cols).flatMap (runCells rho) = namedCells rho (activeOf rows) (activeOf cols) := by
  rw [mcpyRuns, List.flatMap_assoc, namedCells]
  refine List.flatMap_congr fun i _ => ?_
  conv_rhs => rw [← runsOf_members (activeOf cols)]
  rw [List.flatMap_map, List.map_flatMap]
  refine List.flatMap_congr fun q _ => ?_
  rw [runCells, List.map_map]
  rfl

/-! ### An MCPY toward the accumulators (R201) -/

/-- The element that scratchpad holds for a cell. -/
def loadedCell (m : Mem) (c : Command) (v : BitVec 3) (row col : Nat) : Word :=
  widenBytes v (readBytes m (cellStart c (convBytes v) (row - c.b.toNat) col) (convBytes v))

theorem foldl_accSet_scratch (w : Mem → Nat → Word) (r n : Nat) (js : List Nat) (b : Block) :
    js.foldl (fun b j => accSet b r (n + j) (w b.scratch j)) b = js.foldl (fun x j => accSet x r (n + j) (w b.scratch j)) b := by
  induction js generalizing b with
  | nil => rfl
  | cons j js ih => exact ih _

theorem mcpyIn_eq (c : Command) (v : BitVec 3) (b : Block) (q : Nat × Nat × Nat) :
    mcpyIn c v b q = fillCells (runCells c.b.toNat q) (loadedCell b.scratch c v) b := by
  have haddr : ∀ j, (mcpyStretch c.a (convBytes v) q).1 + convBytes v * j =
      cellStart c (convBytes v) (c.b.toNat + q.1 - c.b.toNat) (q.2.1 + j) := fun j => by
    rw [mcpyStretch_eq, Nat.add_sub_cancel_left, cellStart, cellStart, Nat.mul_add, Nat.add_assoc]
  simp only [mcpyIn, fillCells, runCells, List.foldl_map, loadedCell, ← haddr]
  exact foldl_accSet_scratch (fun m j => widenBytes v (readBytes m ((mcpyStretch c.a (convBytes v) q).1 + convBytes v * j)
    (convBytes v))) _ _ _ b

theorem mcpyIn_all (c : Command) (v : BitVec 3) (runs : List (Nat × Nat × Nat)) (b : Block) :
    runs.foldl (mcpyIn c v) b = fillCells (runs.flatMap (runCells c.b.toNat)) (loadedCell b.scratch c v) b := by
  induction runs generalizing b with
  | nil => rfl
  | cons q runs ih =>
    have hscratch : (mcpyIn c v b q).scratch = b.scratch := by rw [mcpyIn_eq, fillCells_frame]
    rw [List.foldl_cons, ih, hscratch, mcpyIn_eq, fillCells, fillCells, fillCells, List.flatMap_cons, List.foldl_append]

/-! ### An MCPY toward scratchpad (R201) -/

/-- The bytes that a run becomes. -/
def runBytes (c : Command) (v : BitVec 3) (b : Block) (q : Nat × Nat × Nat) : List Byte :=
  (List.range q.2.2).flatMap fun j => narrowBytes v (accGet b (c.b.toNat + q.1) (q.2.1 + j))

theorem runBytes_congr {b x : Block} (h : x.acc = b.acc) (c : Command) (v : BitVec 3) (q : Nat × Nat × Nat) :
    runBytes c v x q = runBytes c v b q := by
  simp only [runBytes, accGet, h]

theorem narrowBytes_length {v : BitVec 3} (hv : v.toNat < 4) (x : Word) : (narrowBytes v x).length = convBytes v := by
  cases hf : convFormat v with
  | none =>
    have hfour : ∀ v : BitVec 3, v.toNat < 4 → convFormat v = none → convBytes v = 4 := by decide
    rw [narrowBytes, hf, hfour v hv hf]
    exact leBytes_length 4 _
  | some f =>
    rw [narrowBytes, hf]
    exact leBytes_length _ _

theorem runBytes_length {v : BitVec 3} (hv : v.toNat < 4) (c : Command) (b : Block) (q : Nat × Nat × Nat) :
    (runBytes c v b q).length = convBytes v * q.2.2 := by
  simp [runBytes, List.length_flatMap, narrowBytes_length hv, Nat.mul_comm]

theorem mcpyOut_eq (c : Command) (v : BitVec 3) {b : Block} (hx : (commandAccessor b c).wrid ≠ wridSeq) (q : Nat × Nat × Nat) :
    WritesOnly b (mcpyOut c v b q) ∧
      (mcpyOut c v b q).scratch = writeBytes b.scratch (cellStart c (convBytes v) q.1 q.2.1) (runBytes c v b q) := by
  rw [mcpyOut, markWrite_eq _ hx]
  exact ⟨rfl, rfl⟩

theorem mcpyOut_all (c : Command) (v : BitVec 3) (runs : List (Nat × Nat × Nat)) {b : Block}
    (hx : (commandAccessor b c).wrid ≠ wridSeq) : WritesOnly b (runs.foldl (mcpyOut c v) b) ∧
      (runs.foldl (mcpyOut c v) b).scratch =
        runs.foldl (fun m q => writeBytes m (cellStart c (convBytes v) q.1 q.2.1) (runBytes c v b q)) b.scratch := by
  induction runs generalizing b with
  | nil => exact ⟨.refl b, rfl⟩
  | cons q runs ih =>
    obtain ⟨hone, hscratch⟩ := mcpyOut_eq c v hx q
    have hacc : (mcpyOut c v b q).acc = b.acc := by rw [hone]
    obtain ⟨hrest, hbytes⟩ := ih (b := mcpyOut c v b q) hx
    refine ⟨hone.trans hrest, ?_⟩
    rw [List.foldl_cons, hbytes, hscratch, List.foldl_cons]
    simp only [runBytes_congr hacc]

/-- Writes leave the bytes outside of them alone. -/
theorem readByte_writeAll {α : Type} {at_ : α → Nat} {bytes : α → List Byte} (qs : List α) {m : Mem} (hm : Memory.wf m = true) {y : Nat}
    (hy : ∀ q ∈ qs, y < at_ q ∨ at_ q + (bytes q).length ≤ y) :
    readByte (qs.foldl (fun m q => writeBytes m (at_ q) (bytes q)) m) y = readByte m y := by
  induction qs generalizing m with
  | nil => rfl
  | cons q qs ih =>
    rw [List.foldl_cons, ih (writeBytes_wf _ _ _ hm) fun x hx => hy x (List.mem_cons_of_mem _ hx),
      readByte_writeBytes _ _ _ _ hm, if_neg]
    have := hy q List.mem_cons_self
    omega

/-- An MCPY whose rows and runs fit and meet no race performs whole. -/
theorem performMcpy_eq {s : State} {b : Block} {c : Command} {v : BitVec 3} {s2a : Bool} {k r : BitVec 2}
    (hrows : ∀ i ∈ activeOf (b.mr.getD r.toNat 0), c.b.toNat + i < b.accRows)
    (hruns : ∀ q ∈ mcpyRuns (b.mr.getD r.toNat 0) (b.mc.getD k.toNat 0),
      cellStart c (convBytes v) q.1 q.2.1 + convBytes v * q.2.2 ≤ blockBytes b ∧
      engineRaceAt s b b.id c.serial .matrix (commandAccessor b c) (!s2a) (cellStart c (convBytes v) q.1 q.2.1)
        (convBytes v * q.2.2) = none) :
    performMcpy (touchPartition s b) (startedHead b c) c v s2a k r = (touchPartition s b).putBlock (finishMatrix (
      let runs := mcpyRuns (b.mr.getD r.toNat 0) (b.mc.getD k.toNat 0)
      if s2a then runs.foldl (mcpyIn c v)
        (markAll (touchPartition s b) (startedHead b c) c (runs.map (mcpyStretch c.a (convBytes v))))
      else runs.foldl (mcpyOut c v) (startedHead b c))) := by
  have hfit : rowsFit (startedHead b c) c.b (b.mr.getD r.toNat 0) = true := rowsFit_of (b := startedHead b c) hrows
  have hinside : insideAllotment (startedHead b c)
      ((mcpyRuns (b.mr.getD r.toNat 0) (b.mc.getD k.toNat 0)).map (mcpyStretch c.a (convBytes v))) = true :=
    insideAllotment_of (b := startedHead b c) (by
      simp only [List.mem_map, mcpyStretch_eq]
      rintro _ ⟨q, hq, rfl⟩
      exact (hruns q hq).1)
  have hrace : matrixRace (touchPartition s b) (startedHead b c) c (!s2a)
      ((mcpyRuns (b.mr.getD r.toNat 0) (b.mc.getD k.toNat 0)).map (mcpyStretch c.a (convBytes v))) = none :=
    (matrixRace_none (by
      simp only [List.mem_map, mcpyStretch_eq]
      rintro _ ⟨q, hq, rfl⟩
      exact (hruns q hq).2)).2
  unfold performMcpy
  dsimp only
  rw [show (startedHead b c).mr = b.mr from rfl, show (startedHead b c).mc = b.mc from rfl, hfit, hinside, hrace]
  cases s2a <;> rfl

theorem streamGrants : StreamGrants := by
  refine ⟨fun s b c x y f k r h hi hwf => ?_, fun s b c v x a z k r h hi hv => ?_⟩
  · dsimp only
    intro hgood hchecks
    have hsized := h.head.sized
    have hperform := (performMatrix_mstrm h.head hi hgood).trans
      (performMstrm_eq (s := touchPartition s b) (k := k) (fun h0 => (hchecks h0).1) fun h0 => (hchecks h0).2)
    refine ⟨fun htodo => ?_, fun i rest htodo hrace => ?_⟩
    · rw [htodo] at hperform
      obtain ⟨t, hexec, hstep, hdone⟩ := grant_whole h hperform rfl (.refl hsized)
      exact ⟨t, _, hexec, hstep, hdone, finishMatrix_frame b⟩
    · have hfree := (matrixRace_none (d := c) (ps := [(rowStart c.a (streamRowBytes b.active.fmt f) i, streamRowBytes b.active.fmt f)])
        (by simpa using hrace)).1
      rw [htodo] at hperform
      dsimp only at hperform
      rw [hfree] at hperform
      dsimp only at hperform
      rw [addCounter_eq] at hperform
      have hframe := rowAdded_frame (touchPartition s b) b c f (b.mc.getD k.toNat 0) (streamRowBytes b.active.fmt f) i
      have hread := fun row col => accGet_rowAdded (touchPartition s b) c f (b.mc.getD k.toNat 0) (streamRowBytes b.active.fmt f) i hwf
        row (col := col)
      have hcontexts : SameContexts s { s with contexts :=
          (addCounter (touchPartition s b) b.ctx (coreNumber b.isle b.core) 0x38 1).contexts } :=
        addCounter_sameContexts (touchPartition s b) b.ctx (coreNumber b.isle b.core) 0x38 1
      generalize (addCounter (touchPartition s b) b.ctx (coreNumber b.isle b.core) 0x38 1).contexts = contexts at hperform hcontexts
      generalize rowAdded (touchPartition s b) b c f (b.mc.getD k.toNat 0) (streamRowBytes b.active.fmt f) i = z at hperform hframe hread
      have hz : SameCommands b z := by
        rw [hframe]
        exact (SameCommands.refl hsized).congr rfl rfl rfl rfl
      cases rest with
      | nil =>
        rw [afterRow_last] at hperform
        obtain ⟨t, hexec, hstep⟩ := grantStep_of_performs h contexts hcontexts (by rw [finishMatrix_frame, hframe]; rfl) hperform
        refine ⟨t, _, hexec, hstep, ?_, fun row col hcol => ?_, fun _ => matrixFinished_of_same (hz.putHead _), nofun⟩
        · rw [finishMatrix_frame, hframe]; rfl
        · rw [accGet, finishMatrix_frame]
          exact hread row col hcol
      | cons j more =>
        obtain ⟨t, hexec, hstep⟩ := grantStep_of_performs h contexts hcontexts (by rw [hframe]; rfl) hperform
        refine ⟨t, _, hexec, hstep, by rw [hframe]; rfl, hread, nofun, ?_⟩
        rintro _ _ ⟨⟩
        refine ⟨hz.completed, hz.batches, ?_, fun p hp => ?_⟩
        · rw [afterRow, putHead, queueOf_setQueue hz.length, if_pos rfl, hz.tail]
        · rw [afterRow, putHead, queueOf_setQueue hz.length, if_neg hp, hz.others p hp]
  · dsimp only
    rw [← convBytes_eq]
    intro hrows hruns
    have hsized := h.head.sized
    have hgo : SameCommands b (startedHead b c) := (SameCommands.refl hsized).putHead _
    have hstretch : ∀ q ∈ mcpyRuns (b.mr.getD r.toNat 0) (b.mc.getD k.toNat 0),
        cellStart c (convBytes v) q.1 q.2.1 + convBytes v * q.2.2 ≤ blockBytes b ∧
        engineRaceAt s b b.id c.serial .matrix (commandAccessor b c) (!(x == 1)) (cellStart c (convBytes v) q.1 q.2.1)
          (convBytes v * q.2.2) = none := by
      rw [show (!(x == 1)) = (x == 0) from (by decide : ∀ x : BitVec 1, (!(x == 1)) = (x == 0)) x]
      exact hruns
    refine ⟨?_, ?_⟩
    · rintro rfl hgood
      have hperform := (performMatrix_mcpy h.head hi fun _ => hgood).trans (performMcpy_eq hrows hstretch)
      have hwriter : (commandAccessor (startedHead b c) c).wrid ≠ wridSeq := by
        simp [commandAccessor, accessorEngine, hi, engineWriter, wridSeq]
      obtain ⟨hframe, hbytes⟩ := mcpyOut_all c v (mcpyRuns (b.mr.getD r.toNat 0) (b.mc.getD k.toNat 0)) hwriter
      rw [show ((0 : BitVec 1) == 1) = false from rfl] at hperform
      simp only [Bool.false_eq_true, if_false] at hperform
      generalize (mcpyRuns (b.mr.getD r.toNat 0) (b.mc.getD k.toNat 0)).foldl (mcpyOut c v) (startedHead b c) = y at hperform hframe hbytes
      obtain ⟨t, hexec, hstep, hdone⟩ := grant_whole h hperform (by rw [hframe]; rfl) (by
        rw [hframe]
        exact hgo.congr rfl rfl rfl rfl)
      refine ⟨t, _, hexec, hstep, hdone, by rw [finishMatrix_frame, hframe]; rfl, ?_, fun p hp hm => ?_⟩
      · rw [finishMatrix_frame]
        exact hbytes
      · rw [finishMatrix_frame]
        dsimp only
        rw [hbytes]
        refine readByte_writeAll (at_ := fun q : Nat × Nat × Nat => cellStart c (convBytes v) q.1 q.2.1) _ hm fun q hq => ?_
        rw [runBytes_length hv]
        exact hp q hq
    · rintro rfl hwf
      have hperform := (performMatrix_mcpy h.head hi nofun).trans (performMcpy_eq hrows hstretch)
      rw [show ((1 : BitVec 1) == 1) = true from rfl] at hperform
      simp only [if_true] at hperform
      rw [mcpyIn_all, runCells_named] at hperform
      generalize (mcpyRuns (b.mr.getD r.toNat 0) (b.mc.getD k.toNat 0)).map (mcpyStretch c.a (convBytes v)) = ps at hperform
      have hread := fun row col => accGet_fillCells (namedCells c.b.toNat (activeOf (b.mr.getD r.toNat 0)) (activeOf (b.mc.getD k.toNat 0)))
        (loadedCell b.scratch c v) (markAll (touchPartition s b) (startedHead b c) c ps) hwf namedCells_cols row (col := col)
      have hframe := fillMarked_frame (touchPartition s b) (startedHead b c) c ps
        (namedCells c.b.toNat (activeOf (b.mr.getD r.toNat 0)) (activeOf (b.mc.getD k.toNat 0))) (loadedCell b.scratch c v)
      simp only [mem_namedCells] at hread
      generalize hy : fillCells _ _ (markAll (touchPartition s b) (startedHead b c) c ps) = y at hread hframe
      replace hperform : performMatrix s b = (touchPartition s b).putBlock (finishMatrix y) := hy ▸ hperform
      obtain ⟨t, hexec, hstep, hdone⟩ := grant_whole h hperform (by rw [hframe]; rfl) (by
        rw [hframe]
        exact hgo.congr rfl rfl rfl rfl)
      refine ⟨t, _, hexec, hstep, hdone, by rw [finishMatrix_frame, hframe]; rfl, fun row col hcol => ?_⟩
      rw [accGet, finishMatrix_frame]
      exact hread row col hcol

end Sys2Proof.Machine
end

section
/-!
PROOFS. The sort array: who holds it, and the compare steps of a sort (R67, R68, R187 to R190, R205, R207).
-/

namespace Sys2Proof.Machine

/-! ### The array of a core (R67) -/

theorem sortArrayAt_place (s : State) (isle core : Nat) : (sortArrayAt s isle core).isle = isle ∧ (sortArrayAt s isle core).core = core := by
  unfold sortArrayAt
  cases h : s.sorts.find? fun a => a.isle == isle && a.core == core with
  | none => exact ⟨rfl, rfl⟩
  | some a => simpa using List.find?_some h

theorem sortArrayAt_put_same (s : State) (a : SortArray) : sortArrayAt (putSortArray s a) a.isle a.core = a := by
  simp [sortArrayAt, putSortArray]

theorem find?_filter_of_imp {α : Type} {p q : α → Bool} (h : ∀ x, q x = true → p x = true) (xs : List α) :
    (xs.filter p).find? q = xs.find? q := by
  induction xs with
  | nil => rfl
  | cons x xs ih =>
    rw [List.filter_cons, List.find?_cons]
    cases hq : q x with
    | true => rw [if_pos (h x hq), List.find?_cons, hq]
    | false => split <;> simp [hq, ih]

theorem sortArrayAt_put_other (s : State) (a : SortArray) {isle core : Nat} (h : ¬ (isle = a.isle ∧ core = a.core)) :
    sortArrayAt (putSortArray s a) isle core = sortArrayAt s isle core := by
  have hmiss : (a.isle == isle && a.core == core) = false := by
    rw [← Bool.not_eq_true, Bool.and_eq_true, beq_iff_eq, beq_iff_eq]
    exact fun ⟨hi, hc⟩ => h ⟨hi.symm, hc.symm⟩
  simp only [sortArrayAt, putSortArray, List.find?_cons, hmiss]
  rw [find?_filter_of_imp]
  intro x hx
  simp only [Bool.and_eq_true, beq_iff_eq] at hx
  obtain ⟨rfl, rfl⟩ := hx
  simpa [not_and_or, ← imp_iff_not_or] using h

/-- The array of a block's core changes to another record of the same place. -/
structure ArrayPut (s t : State) (b : Block) (a : SortArray) : Prop where
  here   : sortArrayAt t b.isle b.core = a
  others : OtherArrays s t b

theorem putSortArray_arrayPut (s : State) {b : Block} {a : SortArray} (hi : a.isle = b.isle) (hc : a.core = b.core) :
    ArrayPut s (putSortArray s a) b a := by
  constructor
  · rw [← hi, ← hc]
    exact sortArrayAt_put_same s a
  · intro i k h
    exact sortArrayAt_put_other s a (by rwa [hi, hc])

/-- What happens to blocks and contexts leaves the arrays alone. -/
theorem ArrayPut.congr {s t u : State} {b : Block} {a : SortArray} (h : ArrayPut s t b a) (hsorts : u.sorts = t.sorts) :
    ArrayPut s u b a := by
  have hread : ∀ i k, sortArrayAt u i k = sortArrayAt t i k := fun i k => by rw [sortArrayAt, hsorts, sortArrayAt]
  exact ⟨(hread ..).trans h.here, fun i k hik => (hread i k).trans (h.others i k hik)⟩

/-! ### A sort command starts (R68, R205) -/

theorem startCommand_sort {s : State} {b : Block} {c : Command}
    (hi : (∃ a x w, c.instr = .srtld a x w) ∨ (∃ a x w, c.instr = .srtst a x w) ∨ ∃ a o e l k, c.instr = .srtgo a o e l k) :
    startCommand s b .sort c = startSort s b c := by
  obtain ⟨a, x, w, h⟩ | ⟨a, x, w, h⟩ | ⟨a, o, e, l, k, h⟩ := hi
  all_goals
    unfold startCommand
    rw [h]

section
variable {s : State} {b : Block} {c : Command}

theorem startSort_held (h : (sortArrayAt s b.isle b.core).holder = some b.id) :
    startSort s b c = s.putBlock (putHead b .sort { c with started := true }) := by
  unfold startSort
  dsimp only
  rw [h]
  exact if_pos rfl

/-- A block is first in line. -/
def firstInLine (line : List Nat) (id : Nat) : Prop := line = [] ∨ line.head? = some id

theorem firstInLine_iff {line : List Nat} {id : Nat} : (line.isEmpty || line.head? == some id) = true ↔ firstInLine line id := by
  simp [firstInLine]

/-- The line with a block in it. -/
def inLine (line : List Nat) (id : Nat) : List Nat := if line.contains id then line else line ++ [id]

theorem startSort_waits (h : (∃ k, (sortArrayAt s b.isle b.core).holder = some k ∧ k ≠ b.id) ∨
    ((sortArrayAt s b.isle b.core).holder = none ∧ ¬ firstInLine (sortWaiters s (sortArrayAt s b.isle b.core)) b.id)) :
    startSort s b c = putSortArray s { sortArrayAt s b.isle b.core with
      waiting := inLine (sortWaiters s (sortArrayAt s b.isle b.core)) b.id } := by
  unfold startSort
  dsimp only
  obtain ⟨k, hk, hne⟩ | ⟨hnone, hlate⟩ := h
  · rw [hk]
    exact if_neg hne
  · rw [hnone]
    exact if_neg (by rwa [firstInLine_iff])

section
variable (hfree : (sortArrayAt s b.isle b.core).holder = none)
  (hfirst : firstInLine (sortWaiters s (sortArrayAt s b.isle b.core)) b.id)
include hfree hfirst

theorem startSort_takes {a x w : BitVec 5} (hi : c.instr = .srtld a x w) :
    startSort s b c = State.putBlock (putSortArray s { sortArrayAt s b.isle b.core with
      waiting := (sortWaiters s (sortArrayAt s b.isle b.core)).erase b.id, holder := some b.id, last := some b.id,
      cells := if (sortArrayAt s b.isle b.core).last = some b.id then (sortArrayAt s b.isle b.core).cells else freshCells,
      bad := if (sortArrayAt s b.isle b.core).last = some b.id then (sortArrayAt s b.isle b.core).bad else [] })
      { putHead b .sort { c with started := true } with sortHeld := true } := by
  unfold startSort
  dsimp only
  generalize putHead b .sort { c with started := true } = go
  rw [hfree]
  dsimp only
  rw [if_pos (firstInLine_iff.mpr hfirst), hi]

theorem startSort_unheld (hi : ¬ ∃ a x w, c.instr = .srtld a x w) :
    startSort s b c = stopEngine (putSortArray s { sortArrayAt s b.isle b.core with
      waiting := (sortWaiters s (sortArrayAt s b.isle b.core)).erase b.id }) (putHead b .sort { c with started := true }) .sort 8 0 [] := by
  unfold startSort
  dsimp only
  generalize putHead b .sort { c with started := true } = go
  rw [hfree]
  dsimp only
  rw [if_pos (firstInLine_iff.mpr hfirst)]
  split
  case h_1 a x w h => exact absurd ⟨a, x, w, h⟩ hi
  case h_2 => rfl

end

end

theorem sortStarts : SortStarts := by
  intro s b c h hfresh hi
  have hexec : exec (.engineCommandStart b.id .sort) s = .next (startSort s b c) := by
    rw [exec_engineCommandStart h, hfresh, if_neg Bool.false_ne_true, startCommand_sort hi]
  obtain ⟨hisle, hcore⟩ := sortArrayAt_place s b.isle b.core
  refine ⟨fun hheld => ?_, fun hlate => ?_, fun hfree hfirst ⟨a, x, w, hld⟩ => ?_, fun hfree hfirst hld => ?_⟩
  · exact ⟨_, hexec, by rw [startSort_held hheld]; exact putBlock_blockStep h.here rfl⟩
  · rw [hexec, startSort_waits hlate]
    have hput := putSortArray_arrayPut s (b := b) (a := { sortArrayAt s b.isle b.core with
      waiting := inLine (sortWaiters s (sortArrayAt s b.isle b.core)) b.id }) hisle hcore
    refine ⟨_, rfl, rfl, hput.others, hput.here.trans ?_⟩
    simp [inLine]
  · rw [hexec, startSort_takes hfree hfirst hld]
    have hput := putSortArray_arrayPut s (b := b) (a := { sortArrayAt s b.isle b.core with
      waiting := (sortWaiters s (sortArrayAt s b.isle b.core)).erase b.id, holder := some b.id, last := some b.id,
      cells := if (sortArrayAt s b.isle b.core).last = some b.id then (sortArrayAt s b.isle b.core).cells else freshCells,
      bad := if (sortArrayAt s b.isle b.core).last = some b.id then (sortArrayAt s b.isle b.core).bad else [] }) hisle hcore
    exact ⟨_, rfl, rfl, hput.others, putBlock_others _ rfl, State.putBlock_block_same _ _ b.id b rfl h.here, hput.here⟩
  · rw [hexec, startSort_unheld hfree hfirst hld]

/-! ### A command goes on, or leaves its queue (R71, R282) -/

/-- A command that has become c1: it leaves its queue if that was the last of it. -/
def commandNext (x : Block) (q : EngineQueue) (c1 : Command) (gen : Option (BitVec 16)) (last : Bool) : Block :=
  if last then completeCommand x q c1 gen else putHead x q c1

theorem commandNext_frame (x : Block) (q : EngineQueue) (c1 : Command) (gen : Option (BitVec 16)) (last : Bool) :
    commandNext x q c1 gen last =
      { x with queues := (commandNext x q c1 gen last).queues, armed := (commandNext x q c1 gen last).armed } := by
  cases last <;> rfl

theorem commandNext_done {b x : Block} (hqueues : x.queues = b.queues) (hb : BlockSized b) (harmed : x.armed = b.armed) (hid : x.id = b.id)
    {q : EngineQueue} {c c1 : Command} (hserial : c1.serial = c.serial) (gen : Option (BitVec 16)) {last : Bool} {done : Prop}
    (hdone : last = true ↔ done) : CommandDone b (commandNext x q c1 gen last) q c c1 gen done := by
  have hlen : x.queues.length = 5 := hqueues ▸ hb.queues
  have hqueue : ∀ p, queueOf x p = queueOf b p := fun p => by rw [queueOf, hqueues, queueOf]
  cases last with
  | false =>
    refine ⟨fun _ => ⟨?_, harmed⟩, fun h => absurd (hdone.mpr h) Bool.false_ne_true, fun p hp => ?_⟩
    · exact (queueOf_setQueue hlen q q _).trans (by rw [if_pos rfl, hqueue])
    · exact (queueOf_setQueue hlen q p _).trans (by rw [if_neg hp, hqueue])
  | true =>
    refine ⟨fun h => absurd (hdone.mp rfl) h, fun _ => ⟨?_, ?_⟩, fun p hp => ?_⟩
    · exact (queueOf_setQueue hlen q q _).trans (by rw [if_pos rfl, hqueue])
    · simp [commandNext, completeCommand, popHead, setQueue, harmed, hid, hserial]
    · exact (queueOf_setQueue hlen q p _).trans (by rw [if_neg hp, hqueue])

/-! ### A compare step (R187, R188) -/

/-- Every pair of the step's parity is compared, and what stands alone stays. -/
theorem comparedLine_of_cells {key : SortCell → Nat} {len s : Nat} {up : Bool} {old new : Nat → SortCell}
    (h : ∀ j, j < len → new j = comparedCell key old len s up j) : ComparedLine key len s up old new := by
  refine ⟨fun j hj hlen => ?_, fun j hlen halone => ?_⟩
  · have hleft := h j (by omega)
    have hright := h (j + 1) hlen
    have hparity : (j + 1) % 2 ≠ s % 2 := by omega
    cases up
    all_goals
      simp [comparedCell, hj, hlen, hparity] at hleft hright ⊢
      exact ⟨fun hw => ⟨by rw [hleft, if_pos hw], by rw [hright, if_pos hw]⟩,
        fun hw => ⟨by rw [hleft, if_neg (by omega)], by rw [hright, if_neg (by omega)]⟩⟩
  · rw [h j hlen]
    obtain ⟨hj, hend⟩ | ⟨rfl, hodd⟩ := halone
    · simp [comparedCell, hj, Nat.not_lt.mpr hend]
    · simp [comparedCell, hodd]

theorem getD_shearStep (cells : List SortCell) (r n phase s : Nat) (key : SortCell → Nat) (rowOnly : Bool) (x : Nat) :
    (shearStep cells r n phase s key rowOnly).getD x ⟨0, 0, 0⟩ = if x < cells.length ∧ x / 128 < r ∧ x % 128 < n then
      if phase % 2 = 0 then comparedCell key (cellAt cells (x / 128)) n s (rowOnly || x / 128 % 2 == 0) (x % 128)
      else comparedCell key (fun i => cellAt cells i (x % 128)) r s true (x / 128)
    else cells.getD x ⟨0, 0, 0⟩ := by
  by_cases hx : x < cells.length
  · by_cases hin : x / 128 < r ∧ x % 128 < n
    · have hout : ¬ (r ≤ x / 128 ∨ n ≤ x % 128) := by omega
      have hline : cellAt cells (x / 128) = fun j => cells.getD (128 * (x / 128) + j) ⟨0, 0, 0⟩ := rfl
      rw [if_pos ⟨hx, hin⟩, hline]
      simp [shearStep, hx, hout, cellAt]
    · have hout : r ≤ x / 128 ∨ n ≤ x % 128 := by omega
      simp [shearStep, hx, hin, hout]
  · simp [shearStep, hx]

theorem cellAt_shearStep {cells : List SortCell} (hlen : cells.length = 16384) {r n : Nat} (hr : r ≤ 128) (phase s : Nat)
    (key : SortCell → Nat) (rowOnly : Bool) (i : Nat) {j : Nat} (hj : j < 128) :
    cellAt (shearStep cells r n phase s key rowOnly) i j = if i < r ∧ j < n then
      if phase % 2 = 0 then comparedCell key (cellAt cells i) n s (rowOnly || i % 2 == 0) j
      else comparedCell key (fun i => cellAt cells i j) r s true i
    else cellAt cells i j := by
  have hdiv : (128 * i + j) / 128 = i := by omega
  have hmod : (128 * i + j) % 128 = j := by omega
  rw [cellAt, getD_shearStep, hdiv, hmod, hlen]
  by_cases hin : i < r ∧ j < n
  · rw [if_pos ⟨by omega, hin⟩, if_pos hin]
  · rw [if_neg fun h => hin h.2, if_neg hin, cellAt]

/-- The command after a compare step of a phase of `len` steps. -/
def steppedSort (c : Command) (len : Nat) : Command :=
  if c.step + 1 = len then { c with phase := c.phase + 1, step := 0 } else { c with step := c.step + 1 }

theorem steppedSort_serial (c : Command) (len : Nat) : (steppedSort c len).serial = c.serial := by
  unfold steppedSort
  split <;> rfl

/-- The array after the step of the sort c. -/
def steppedArray (arr : SortArray) (c : Command) (o e l : BitVec 1) (k : BitVec 3) : SortArray :=
  { arr with cells := shearStep arr.cells (field c.a 0 7 + 1) (field c.a 8 7 + 1) c.phase c.step (sortKey k (l == 1) (e == 1)) (o == 1) }

section
variable {s : State} {b : Block} {c : Command} {a : BitVec 5} {o e l : BitVec 1} {k : BitVec 3}

theorem sortStepOf_eq (hhead : headOf b .sort = some c) (hstarted : c.started = true) (hi : c.instr = .srtgo a o e l k)
    (hgood : ∀ x ∈ (sortArrayAt s b.isle b.core).bad, ¬ (x / 128 < field c.a 0 7 + 1 ∧ x % 128 < field c.a 8 7 + 1)) :
    let c1 := steppedSort c (if c.phase % 2 = 0 then field c.a 8 7 + 1 else field c.a 0 7 + 1)
    sortStepOf s b = (addCounter (putSortArray s (steppedArray (sortArrayAt s b.isle b.core) c o e l k)) b.ctx
      (coreNumber b.isle b.core) 0x40 1).putBlock
        (commandNext b .sort c1 none (decide (sortPhases (field c.a 0 7 + 1) (o == 1) ≤ c1.phase))) := by
  intro c1
  have hbad : ((sortArrayAt s b.isle b.core).bad.any fun i =>
      decide (i / 128 < sortRm1 c + 1) && decide (i % 128 < sortCm1 c + 1)) = false := by
    rw [List.any_eq_false]
    intro x hx
    rw [Bool.and_eq_true, decide_eq_true_eq, decide_eq_true_eq]
    exact hgood x hx
  cases c
  cases hstarted
  cases hi
  unfold sortStepOf
  rw [hhead]
  dsimp only
  rw [if_neg (by decide), hbad, if_neg Bool.false_ne_true, commandNext]
  simp only [decide_eq_true_eq]
  rfl

end

theorem sortSteps : SortSteps := by
  intro s b c a o e l k h hstarted hi hlen hgood len c1
  have hr : field c.a 0 7 + 1 ≤ 128 := Nat.mod_lt _ (by decide)
  have hn : field c.a 8 7 + 1 ≤ 128 := Nat.mod_lt _ (by decide)
  obtain ⟨hisle, hcore⟩ := sortArrayAt_place s b.isle b.core
  have hput := putSortArray_arrayPut s (b := b) (a := steppedArray (sortArrayAt s b.isle b.core) c o e l k) hisle hcore
  have hexec := exec_sortStep h
  rw [sortStepOf_eq h.head hstarted hi hgood] at hexec
  have hcells : ∀ i j, j < 128 → cellAt (steppedArray (sortArrayAt s b.isle b.core) c o e l k).cells i j = _ :=
    fun i j hj => cellAt_shearStep hlen hr c.phase c.step (sortKey k (l == 1) (e == 1)) (o == 1) i hj
  generalize harr : steppedArray (sortArrayAt s b.isle b.core) c o e l k = arr1 at hput hexec hcells ⊢
  generalize hcounted : addCounter (putSortArray s arr1) b.ctx (coreNumber b.isle b.core) 0x40 1 = s2 at hexec
  have hframe := addCounter_eq (putSortArray s arr1) b.ctx (coreNumber b.isle b.core) 0x40 1
  have hsame := addCounter_sameContexts (putSortArray s arr1) b.ctx (coreNumber b.isle b.core) 0x40 1
  rw [hcounted] at hframe hsame
  have hblock : s2.block? b.id = some b := by rw [hframe]; exact h.here
  have hleft := commandNext_frame b .sort (steppedSort c len) none
    (decide (sortPhases (field c.a 0 7 + 1) (o == 1) ≤ (steppedSort c len).phase))
  have hdone := commandNext_done (x := b) rfl h.sized rfl rfl (q := .sort) (steppedSort_serial c len) none
    (decide_eq_true_iff (p := sortPhases (field c.a 0 7 + 1) (o == 1) ≤ (steppedSort c len).phase))
  generalize commandNext b .sort _ none _ = b1 at hexec hleft hdone
  have hid : b1.id = b.id := by rw [hleft]
  refine ⟨_, b1, arr1.cells, hexec, ?_, (hput.congr (by rw [hframe]; rfl)).others, hsame, ?_,
    State.putBlock_block_same _ _ b.id b hid hblock, (hput.congr (by rw [hframe]; rfl)).here.trans (by rw [← harr]; rfl),
    ?_, ?_, ?_, hleft, hdone⟩
  · intro j hj
    rw [State.putBlock_block_other _ _ j (by rwa [hid]), hframe]
    rfl
  · rw [hframe]
    rfl
  · intro heven i hi'
    refine comparedLine_of_cells fun j hj => ?_
    rw [hcells i j (by omega), if_pos ⟨hi', hj⟩, if_pos heven]
  · intro hodd j hj
    refine comparedLine_of_cells fun i hi' => ?_
    rw [hcells i j (by omega), if_pos ⟨hi', hj⟩, if_neg (by omega)]
  · intro i j hj hout
    rw [hcells i j hj, if_neg (by omega)]

end Sys2Proof.Machine
end

section
/-!
PROOFS. Counted writes and reads: sync words, the pieces that engines count into them, and what has landed (R75, R282).
-/

namespace Sys2Proof.Machine

/-! ### Sync words (R74, R75) -/

/-- A sync word whose fields are of their sizes. -/
structure SyncSized (w : SyncWord) : Prop where
  count  : w.count < 2 ^ 20
  target : w.target < 2 ^ 20
  rsv    : w.rsv < 2 ^ 7

theorem readSync_sized (b : Block) (off : Nat) : SyncSized (readSync b off) :=
  ⟨Nat.mod_lt _ (by decide), Nat.mod_lt _ (by decide), Nat.mod_lt _ (by decide)⟩

theorem syncAdd_fits {w : SyncWord} {n : Nat} (h : w.count + n ≤ if w.armed then w.target else 0xFFFFF) :
    syncAdd w n = some (counted w n) := by
  unfold syncAdd counted syncLimit
  cases harmed : w.armed with
  | true =>
    rw [harmed, if_pos rfl] at h
    by_cases heq : w.count + n = w.target
    · simp [heq]
    · simp [heq, Nat.not_lt.mpr h]
  | false =>
    rw [harmed, if_neg Bool.false_ne_true] at h
    simp [Nat.not_lt.mpr h]

theorem counted_sized {w : SyncWord} {n : Nat} (hw : SyncSized w) (h : w.count + n ≤ if w.armed then w.target else 0xFFFFF) :
    SyncSized (counted w n) := by
  obtain ⟨-, htarget, hrsv⟩ := hw
  unfold counted
  split
  · exact ⟨Nat.two_pow_pos 20, htarget, hrsv⟩
  · refine ⟨?_, htarget, hrsv⟩
    split at h
    · exact Nat.lt_of_le_of_lt h htarget
    · exact Nat.lt_of_le_of_lt h (by decide)

/-- The word that a number holds. -/
def syncOfNat (v : Nat) : SyncWord :=
  ⟨v % 2 ^ 20, v / 2 ^ 20 % 2 ^ 20, BitVec.ofNat 16 (v / 2 ^ 40), v / 2 ^ 56 % 2 ^ 7, v / 2 ^ 63 % 2 == 1⟩

theorem syncNat_lt {w : SyncWord} (hw : SyncSized w) : syncNat w < 2 ^ 64 := by
  obtain ⟨hcount, htarget, hrsv⟩ := hw
  have hgen := w.gen.isLt
  unfold syncNat
  split <;> omega

theorem syncOfNat_syncNat {w : SyncWord} (hw : SyncSized w) : syncOfNat (syncNat w) = w := by
  obtain ⟨count, target, gen, rsv, armed⟩ := w
  obtain ⟨hcount, htarget, hrsv⟩ := hw
  have hgen := gen.isLt
  dsimp only at hcount htarget hrsv
  have htop : syncNat ⟨count, target, gen, rsv, armed⟩ / 2 ^ 63 % 2 = if armed then 1 else 0 := by
    simp only [syncNat]
    split <;> omega
  simp only [syncOfNat, SyncWord.mk.injEq]
  refine ⟨?_, ?_, BitVec.eq_of_toNat_eq ?_, ?_, ?_⟩
  · simp only [syncNat]; split <;> omega
  · simp only [syncNat]; split <;> omega
  · simp only [syncNat, BitVec.toNat_ofNat]; split <;> omega
  · simp only [syncNat]; split <;> omega
  · rw [htop]
    cases armed <;> rfl

/-! ### One write of an engine (R63) -/

/-- Bytes written by an agent into a block's scratchpad. -/
def putBytes (b : Block) (x : Accessor) (a : Nat) (bs : List Byte) : Block :=
  markWrite { b with scratch := writeBytes b.scratch a bs } x false [(a, bs.length)]

theorem writeSync_eq (b : Block) (x : Accessor) (off : Nat) (w : SyncWord) :
    writeSync b x off w = putBytes b x off (leBytes 8 (syncNat w)) := rfl

section
variable {b : Block} {x : Accessor} (hx : x.wrid ≠ wridSeq) (a : Nat) (bs : List Byte)
include hx

theorem putBytes_eq : putBytes b x a bs = { b with
    scratch := writeBytes b.scratch a bs,
    badWords := b.badWords.filter fun i => !wordCovered [(a, bs.length)] i,
    tags := (wordsOf a bs.length).foldl (fun m i => mapSet 0 m i (scratchWritten x.wrid x.count)) b.tags } := by
  rw [putBytes, markWrite_eq _ hx]
  simp

theorem putBytes_only : WritesOnly b (putBytes b x a bs) := by
  rw [putBytes_eq hx]
  rfl

theorem putBytes_scratch : (putBytes b x a bs).scratch = writeBytes b.scratch a bs := by rw [putBytes_eq hx]

theorem putBytes_tags (hwf : mapWf 0 b.tags = true) : mapWf 0 (putBytes b x a bs).tags = true ∧
    ∀ i, mapGet 0 (putBytes b x a bs).tags i =
      if i ∈ wordsOf a bs.length then scratchWritten x.wrid x.count else mapGet 0 b.tags i := by
  rw [putBytes_eq hx]
  exact ⟨mapWf_setAll _ _ _ _ hwf, fun i => mapGet_setAll _ _ _ _ hwf i⟩

end

/-! ### A count (R75) -/

theorem readSync_eq (b : Block) (off : Nat) : readSync b off = syncOfNat (leNat (readBytes b.scratch off 8)) := rfl

theorem readSync_congr {b x : Block} (h : x.scratch = b.scratch) (off : Nat) : readSync x off = readSync b off := by
  rw [readSync_eq, readSync_eq, h]

section
variable {b : Block} {x : Accessor} (hx : x.wrid ≠ wridSeq) (hwf : Memory.wf b.scratch = true)
include hx hwf

theorem readSync_writeSync (off : Nat) {w : SyncWord} (hw : SyncSized w) : readSync (writeSync b x off w) off = w := by
  have hread : readBytes (writeBytes b.scratch off (leBytes 8 (syncNat w))) off 8 = leBytes 8 (syncNat w) := by
    simpa using readBytes_writeBytes (leBytes 8 (syncNat w)) b.scratch off hwf
  have hsize := syncNat_lt hw
  rw [readSync_eq, writeSync_eq, putBytes_scratch hx, hread, leNat_leBytes, Nat.mod_eq_of_lt (by omega), syncOfNat_syncNat hw]

theorem putBytes_outside (a : Nat) (bs : List Byte) : SameOutside b.scratch (putBytes b x a bs).scratch a bs.length := by
  intro y hy
  rw [putBytes_scratch hx, readByte_writeBytes _ _ _ _ hwf, if_neg (by omega)]

theorem putBytes_wf (a : Nat) (bs : List Byte) : Memory.wf (putBytes b x a bs).scratch = true := by
  rw [putBytes_scratch hx]
  exact writeBytes_wf _ _ _ hwf

/-- A write that does not meet the sync word leaves it. -/
theorem readSync_putBytes {a off : Nat} {bs : List Byte} (h : a + bs.length ≤ off ∨ off + 8 ≤ a) :
    readSync (putBytes b x a bs) off = readSync b off := by
  rw [readSync_eq, putBytes_scratch hx, readBytes_writeBytes_other _ _ _ _ _ hwf (by omega), readSync_eq]

end

/-- The block with n more bytes counted into its sync word. -/
def countedBlock (b : Block) (x : Accessor) (off n : Nat) : Block := writeSync b x off (counted (readSync b off) n)

section
variable {b : Block} {x : Accessor} {off n : Nat}

theorem countSync_fits (h : (readSync b off).count + n ≤ if (readSync b off).armed then (readSync b off).target else 0xFFFFF) :
    countSync b x off n = some (countedBlock b x off n, (readSync b off).gen + 1) := by
  rw [countSync, syncAdd_fits h]
  rfl

theorem countedBlock_sync (hx : x.wrid ≠ wridSeq) (hwf : Memory.wf b.scratch = true)
    (h : (readSync b off).count + n ≤ if (readSync b off).armed then (readSync b off).target else 0xFFFFF) :
    readSync (countedBlock b x off n) off = counted (readSync b off) n :=
  readSync_writeSync hx hwf off (counted_sized (readSync_sized b off) h)

theorem countedBlock_outside (hx : x.wrid ≠ wridSeq) (hwf : Memory.wf b.scratch = true) :
    SameOutside b.scratch (countedBlock b x off n).scratch off 8 := by
  have h := putBytes_outside hx hwf off (leBytes 8 (syncNat (counted (readSync b off) n)))
  rwa [leBytes_length] at h

end

theorem lastGeneration_cons (w : SyncWord) (n : Nat) (ns : List Nat) :
    lastGeneration w (n :: ns) = (lastGeneration (counted w n) ns).or (some (w.gen + 1)) := by
  cases ns with
  | nil => simp [lastGeneration]
  | cons m ms => simp [lastGeneration]

/-! ### Pieces land (R75, R282) -/

/-- Writes by an agent that land pieces: nothing but bytes, tags and bad words changes, and a word that the agent wrote stays its own. -/
structure LandsBy (b b' : Block) (x : Accessor) (sync : Nat) (pieces : List (Nat × List Byte)) : Prop where
  lands : Lands b b' sync x.wrid x.count pieces
  only  : WritesOnly b b'
  kept  : ∀ i, mapGet 0 b.tags i = scratchWritten x.wrid x.count → mapGet 0 b'.tags i = scratchWritten x.wrid x.count

section
variable {x : Accessor} (hx : x.wrid ≠ wridSeq)
include hx

/-- The block after one counted piece. -/
theorem canLand_rest {b : Block} {sync a : Nat} {bs : List Byte} {rest : List (Nat × List Byte)}
    (h : CanLand b sync ((a, bs) :: rest)) : let y := putBytes (countedBlock b x sync bs.length) x a bs
    readSync y sync = counted (readSync b sync) bs.length ∧ CanLand y sync rest := by
  intro y
  obtain ⟨⟨hwf, htags⟩, hapart, hclear, hfits⟩ := h
  rw [List.map_cons, countsFit] at hfits
  have hwf1 : Memory.wf (countedBlock b x sync bs.length).scratch = true := putBytes_wf hx hwf _ _
  have hsync : readSync y sync = counted (readSync b sync) bs.length := by
    rw [readSync_putBytes hx hwf1 (hclear (a, bs) (List.mem_cons_self ..)), countedBlock_sync hx hwf hfits.1]
  refine ⟨hsync, ⟨putBytes_wf hx hwf1 _ _, (putBytes_tags hx _ _ (putBytes_tags hx _ _ htags).1).1⟩, hapart.of_cons,
    fun p hp => hclear p (List.mem_cons_of_mem _ hp), ?_⟩
  rw [hsync]
  exact hfits.2

theorem landsBy_cons {b b' : Block} {sync a : Nat} {bs : List Byte} {rest : List (Nat × List Byte)}
    (h : CanLand b sync ((a, bs) :: rest)) (hrest : LandsBy (putBytes (countedBlock b x sync bs.length) x a bs) b' x sync rest) :
    LandsBy b b' x sync ((a, bs) :: rest) := by
  obtain ⟨hsync, -⟩ := canLand_rest hx h
  obtain ⟨⟨hwf, htags⟩, hapart, hclear, -⟩ := h
  obtain ⟨hahead, -⟩ := List.pairwise_cons.mp hapart
  have hwf1 : Memory.wf (countedBlock b x sync bs.length).scratch = true := putBytes_wf hx hwf _ _
  have htags1 := putBytes_tags hx sync (leBytes 8 (syncNat (counted (readSync b sync) bs.length))) htags
  have htags2 := putBytes_tags hx a bs htags1.1
  rw [← writeSync_eq, ← countedBlock] at htags1 htags2
  obtain ⟨⟨hbytes, hcounts, hothers, hmarks⟩, honly, hkept⟩ := hrest
  refine ⟨⟨?_, ?_, ?_, ?_⟩, ?_, ?_⟩
  · intro p hp j hj
    obtain rfl | hp := List.mem_cons.mp hp
    · dsimp only at hj ⊢
      have hclr := hclear (a, bs) (List.mem_cons_self ..)
      dsimp only at hclr
      rw [hothers (a + j) (fun q hq => by have := hahead q hq; dsimp only at this; omega) (by omega), putBytes_scratch hx,
        readByte_writeBytes _ _ _ _ hwf1, if_pos (by omega), Nat.add_sub_cancel_left]
    · exact hbytes p hp j hj
  · rw [hcounts, hsync]
    rfl
  · intro y hy hout
    have hfirst := hy (a, bs) (List.mem_cons_self ..)
    rw [hothers y (fun q hq => hy q (List.mem_cons_of_mem _ hq)) hout, putBytes_outside hx hwf1 a bs y hfirst,
      countedBlock_outside hx hwf y hout]
  · intro p hp i hi
    obtain rfl | hp := List.mem_cons.mp hp
    · exact hkept i (by rw [htags2.2, if_pos hi])
    · exact hmarks p hp i hi
  · exact ((putBytes_only hx _ _).trans (putBytes_only hx _ _)).trans honly
  · intro i hi
    refine hkept i ?_
    rw [htags2.2, htags1.2, hi]
    simp

theorem landPieces_lands (sync : Nat) (pieces : List (Nat × List Byte)) (b : Block) (g : Option (BitVec 16)) (h : CanLand b sync pieces) :
    ∃ b', LandsBy b b' x sync pieces ∧ landPieces x sync b g pieces =
      (b', (lastGeneration (readSync b sync) (pieces.map fun p => p.2.length)).or g, true) := by
  induction pieces generalizing b g with
  | nil => exact ⟨b, ⟨⟨by simp, rfl, fun _ _ _ => rfl, by simp⟩, rfl, fun _ h => h⟩, rfl⟩
  | cons p rest ih =>
    obtain ⟨a, bs⟩ := p
    obtain ⟨hsync, hcan⟩ := canLand_rest hx h
    obtain ⟨b', hlands, hland⟩ := ih _ (some ((readSync b sync).gen + 1)) hcan
    refine ⟨b', landsBy_cons hx h hlands, ?_⟩
    have hfits := h.fits
    rw [List.map_cons, countsFit] at hfits
    rw [landPieces, countSync_fits hfits.1]
    refine hland.trans ?_
    rw [hsync, List.map_cons, lastGeneration_cons]
    cases lastGeneration (counted (readSync b sync) bs.length) (rest.map fun p => p.2.length) <;> rfl

end

/-! ### Bytes cut into pieces of 64 -/

theorem cutPieces_cons (a : Nat) {bs : List Byte} (h : bs ≠ []) : cutPieces a bs = (a, bs.take 64) :: cutPieces (a + 64) (bs.drop 64) := by
  have hlen := List.length_pos_iff.mpr h
  have hcount : (bs.length + 63) / 64 = (bs.length - 64 + 63) / 64 + 1 := by omega
  rw [cutPieces, hcount, List.range_succ_eq_map, List.map_cons, List.map_map, cutPieces, List.length_drop]
  refine congrArg₂ _ (by simp) (List.map_congr_left fun k _ => ?_)
  simp only [Function.comp_apply, List.drop_drop, Prod.mk.injEq]
  exact ⟨by omega, by congr 2; omega⟩

theorem piecesOf_eq_cutPieces (k a : Nat) (bs : List Byte) (h : bs.length ≤ 64 * k) : piecesOf k a bs = cutPieces a bs := by
  induction k generalizing a bs with
  | zero =>
    have hnil : bs = [] := List.length_eq_zero_iff.mp (by omega)
    subst hnil
    rfl
  | succ k ih =>
    cases bs with
    | nil => rfl
    | cons y ys =>
      rw [cutPieces_cons a (by simp), piecesOf, ih _ _ (by rw [List.length_drop]; omega)]
      rfl

theorem piecesOf_joined (k a : Nat) (bs : List Byte) (h : bs.length ≤ 64 * k) : (piecesOf k a bs).flatMap Prod.snd = bs := by
  induction k generalizing a bs with
  | zero => exact (List.length_eq_zero_iff.mp (by omega)).symm
  | succ k ih =>
    cases bs with
    | nil => rfl
    | cons y ys =>
      rw [piecesOf, List.isEmpty_cons, if_neg Bool.false_ne_true, List.flatMap_cons, ih _ _ (by rw [List.length_drop]; omega)]
      exact List.take_append_drop 64 (y :: ys)

theorem piecesOf_eighths (k a : Nat) (bs : List Byte) (h : bs.length % 8 = 0) : ∀ p ∈ piecesOf k a bs, p.2.length % 8 = 0 := by
  induction k generalizing a bs with
  | zero => simp [piecesOf]
  | succ k ih =>
    intro p hp
    rw [piecesOf] at hp
    split at hp
    · simp at hp
    · obtain rfl | hp := List.mem_cons.mp hp
      · rw [List.length_take]
        omega
      · exact ih _ _ (by rw [List.length_drop]; omega) p hp

end Sys2Proof.Machine
end

section
/-!
PROOFS. Rows between the sort array and scratchpad: SRTLD and SRTST, and the array's release (R68, R75, R205, R206, R208).
-/

namespace Sys2Proof.Machine

/-! ### Cells from bytes (R206) -/

/-- The cell that eight bytes from byte k of a row load, for place i. -/
def rowCell (bs : List Byte) (k i : Nat) : SortCell :=
  ⟨BitVec.ofNat 32 (leNat ((bs.drop k).take 4)), BitVec.ofNat 32 (leNat ((bs.drop (k + 4)).take 4)), BitVec.ofNat 14 i⟩

theorem getD_loadCells (n row j : Nat) {cells : List SortCell} (bs : List Byte) (hfit : 128 * row + j + n ≤ cells.length) (k : Nat) :
    (loadCells cells row n j bs).getD k ⟨0, 0, 0⟩ = if 128 * row + j ≤ k ∧ k < 128 * row + j + n then
      rowCell bs (8 * (k - (128 * row + j))) k else cells.getD k ⟨0, 0, 0⟩ := by
  induction n generalizing cells j bs with
  | zero => rw [if_neg (by omega)]; rfl
  | succ n ih =>
    rw [loadCells, ih _ _ (by rw [List.length_set]; omega), getD_set]
    by_cases hk : k = 128 * row + j
    · subst hk
      rw [if_neg (by omega), if_pos rfl, if_pos (by omega), if_pos (by omega), Nat.sub_self]
      rfl
    · by_cases hin : 128 * row + j ≤ k ∧ k < 128 * row + j + (n + 1)
      · have hplace : 8 * (k - (128 * row + j)) = 8 + 8 * (k - (128 * row + (j + 1))) := by omega
        rw [if_pos (by omega), if_pos hin, hplace, rowCell, rowCell, List.drop_drop, List.drop_drop, Nat.add_assoc 8]
      · rw [if_neg (by omega), if_neg fun h => hk h.symm, if_neg hin]

theorem loadCells_append (m n row j : Nat) (cells : List SortCell) (bs cs : List Byte) (h : bs.length = 8 * m) :
    loadCells (loadCells cells row m j bs) row n (j + m) cs = loadCells cells row (m + n) j (bs ++ cs) := by
  induction m generalizing cells j bs with
  | zero =>
    obtain rfl := List.length_eq_zero_iff.mp h
    simp [loadCells]
  | succ m ih =>
    have hlow : (bs ++ cs).take 4 = bs.take 4 := List.take_append_of_le_length (by omega)
    have hhigh : ((bs ++ cs).drop 4).take 4 = (bs.drop 4).take 4 := by
      rw [List.drop_append_of_le_length (by omega), List.take_append_of_le_length (by rw [List.length_drop]; omega)]
    have hrest : (bs ++ cs).drop 8 = bs.drop 8 ++ cs := List.drop_append_of_le_length (by omega)
    rw [loadCells, Nat.add_right_comm m 1 n, loadCells, hlow, hhigh, hrest, ← ih _ _ _ (by rw [List.length_drop]; omega),
      Nat.add_right_comm j 1 m, Nat.add_assoc j]

section
variable {x : Accessor} (hx : x.wrid ≠ wridSeq)
include hx

/-- Pieces that were read are counted one after another, and the cells of all of their bytes are loaded. -/
theorem loadPieces_loads (sync row : Nat) (pieces : List (Nat × List Byte)) (b : Block) (cells : List SortCell)
    (g : Option (BitVec 16)) (j : Nat) (hwf : Memory.wf b.scratch = true)
    (hfits : countsFit (readSync b sync) (pieces.map fun p => p.2.length)) (height : ∀ p ∈ pieces, p.2.length % 8 = 0) :
    ∃ b', WritesOnly b b' ∧ readSync b' sync = (pieces.map fun p => p.2.length).foldl counted (readSync b sync) ∧
      SameOutside b.scratch b'.scratch sync 8 ∧ loadPieces x sync row b cells g j pieces =
        (b', loadCells cells row ((pieces.flatMap Prod.snd).length / 8) j (pieces.flatMap Prod.snd),
          (lastGeneration (readSync b sync) (pieces.map fun p => p.2.length)).or g, true) := by
  induction pieces generalizing b cells g j with
  | nil => exact ⟨b, rfl, rfl, fun _ _ => rfl, rfl⟩
  | cons p rest ih =>
    obtain ⟨a, bs⟩ := p
    rw [List.map_cons, countsFit] at hfits
    have hwf1 : Memory.wf (countedBlock b x sync bs.length).scratch = true := putBytes_wf hx hwf _ _
    have hsync := countedBlock_sync hx hwf hfits.1
    have hcounted : SameOutside b.scratch (countedBlock b x sync bs.length).scratch sync 8 := countedBlock_outside hx hwf
    have hbs : bs.length = 8 * (bs.length / 8) := by
      have := height (a, bs) (List.mem_cons_self ..)
      dsimp only at this
      omega
    obtain ⟨b', honly, hcounts, hout, hload⟩ := ih (countedBlock b x sync bs.length) (loadCells cells row (bs.length / 8) j bs)
      (some ((readSync b sync).gen + 1)) (j + bs.length / 8) hwf1 (by rw [hsync]; exact hfits.2)
      fun p hp => height p (List.mem_cons_of_mem _ hp)
    rw [hsync] at hcounts hload
    refine ⟨b', (putBytes_only hx _ _).trans honly, by rw [List.map_cons, List.foldl_cons]; exact hcounts,
      fun y hy => (hout y hy).trans (hcounted y hy), ?_⟩
    have hcount : (bs ++ rest.flatMap Prod.snd).length / 8 = bs.length / 8 + (rest.flatMap Prod.snd).length / 8 := by
      rw [List.length_append]
      omega
    rw [loadPieces, countSync_fits hfits.1]
    refine hload.trans ?_
    rw [loadCells_append _ _ _ _ _ _ _ hbs, List.map_cons, lastGeneration_cons, List.flatMap_cons, hcount]
    cases lastGeneration (counted (readSync b sync) bs.length) (rest.map fun p => p.2.length) <;> rfl

end

theorem readBytes_part (m : Mem) (a n k l : Nat) (h : k + l ≤ n) : ((readBytes m a n).drop k).take l = readBytes m (a + k) l := by
  apply List.ext_getElem (by simp; omega)
  intro i hi hi'
  rw [readBytes_length] at hi'
  have hleft := readBytes_get m a n (k + i) (by omega)
  have hright := readBytes_get m (a + k) l i hi'
  rw [List.getD_eq_getElem _ _ (by rw [readBytes_length]; omega)] at hleft hright
  rw [List.getElem_take, List.getElem_drop, hleft, hright, Nat.add_assoc]

theorem rowCell_readBytes (m : Mem) {a n j i : Nat} (h : j < n) : rowCell (readBytes m a (8 * n)) (8 * j) i =
    ⟨BitVec.ofNat 32 (leNat (readBytes m (a + 8 * j) 4)), BitVec.ofNat 32 (leNat (readBytes m (a + 8 * j + 4) 4)),
      BitVec.ofNat 14 i⟩ := by
  rw [rowCell, readBytes_part _ _ _ _ _ (by omega), readBytes_part _ _ _ _ _ (by omega), Nat.add_assoc a]

/-! ### The row of a transfer -/

theorem transferRow_eq (o v : Dword) (q : Nat) : transferRow o v q = (rowStart o (8 * (field v 16 7 + 1)) q, 8 * (field v 16 7 + 1)) := rfl

theorem nextRow_eq (x : Block) (c : Command) (gen : Option (BitVec 16)) :
    nextRow x c gen = commandNext x .sort { c with done := c.done + 1 } gen (decide (field c.b 8 7 + 1 ≤ c.done + 1)) := by
  rw [commandNext]
  simp only [decide_eq_true_eq]
  rfl

theorem nextRow_frame (x : Block) (c : Command) (gen : Option (BitVec 16)) :
    nextRow x c gen = { x with queues := (nextRow x c gen).queues, armed := (nextRow x c gen).armed } := by
  rw [nextRow_eq]
  exact commandNext_frame ..

theorem storeRow_length (cells : List SortCell) (v : Dword) (row : Nat) : (storeRow cells v row).length = 8 * (field v 16 7 + 1) := by
  have hcols : shapeCols v = field v 16 7 + 1 := rfl
  simp [storeRow, List.length_flatMap, hcols, Nat.mul_comm]

section
variable {s : State} {b : Block} {c : Command} (h : EngineTurn s b .sort c) (hstarted : c.started = true)
include h hstarted

theorem transferStep_load {x y w : BitVec 5} (hi : c.instr = .srtld x y w) : transferStep s b = loadRow s b c := by
  unfold transferStep
  rw [h.head]
  dsimp only
  rw [hstarted, if_neg (by decide)]
  generalize loadRow s b c = t
  rw [hi]

theorem transferStep_store {x y w : BitVec 5} (hi : c.instr = .srtst x y w) : transferStep s b = storeRowOut s b c := by
  unfold transferStep
  rw [h.head]
  dsimp only
  rw [hstarted, if_neg (by decide)]
  generalize storeRowOut s b c = t
  rw [hi]

end

theorem commandAccessor_sort {b : Block} {c : Command} (hi : (∃ x y w, c.instr = .srtld x y w) ∨ ∃ x y w, c.instr = .srtst x y w) :
    (commandAccessor b c).wrid = 18 := by
  obtain ⟨x, y, w, h⟩ | ⟨x, y, w, h⟩ := hi
  all_goals
    show engineWriter c.instr = 18
    rw [h]
    rfl

/-! ### A loaded row (R205, R206) -/

/-- The array after row `row` of n cells has been loaded from some bytes. -/
def loadedArray (arr : SortArray) (row n : Nat) (bs : List Byte) : SortArray :=
  { arr with cells := loadCells arr.cells row n 0 bs, bad := arr.bad.filter fun x => x / 128 ≠ row }

section
variable {s : State} {b : Block} {c : Command} {a n : Nat} (hx : (commandAccessor b c).wrid ≠ wridSeq)
  (hrow : transferRow c.a c.b c.done = (a, 8 * n)) (hn : n ≤ 128)
include hx hrow hn

theorem loadRow_loads (hwf : Memory.wf b.scratch = true)
    (hrace : countedRace s b b.id c.serial .sort (commandAccessor b c) c.sync false [(a, 8 * n)] = none)
    (hfits : countsFit (readSync b c.sync) ((cutPieces a (readBytes b.scratch a (8 * n))).map fun p => p.2.length)) :
    let lens := (cutPieces a (readBytes b.scratch a (8 * n))).map fun p => p.2.length
    ∃ x, WritesOnly b x ∧ readSync x c.sync = lens.foldl counted (readSync b c.sync) ∧ SameOutside b.scratch x.scratch c.sync 8 ∧
      loadRow s b c = (putSortArray s (loadedArray (sortArrayAt s b.isle b.core) (field c.b 0 7 + c.done) n
        (readBytes b.scratch a (8 * n)))).putBlock (nextRow x c (lastGeneration (readSync b c.sync) lens)) := by
  intro lens
  have hlen : (readBytes b.scratch a (8 * n)).length = 8 * n := readBytes_length ..
  have hpieces := piecesOf_eq_cutPieces 16 a (readBytes b.scratch a (8 * n)) (by omega)
  have hjoined := piecesOf_joined 16 a (readBytes b.scratch a (8 * n)) (by omega)
  have height := piecesOf_eighths 16 a (readBytes b.scratch a (8 * n)) (by omega)
  rw [hpieces] at hjoined height
  obtain ⟨x, honly, hcounts, hout, hload⟩ := loadPieces_loads hx c.sync (field c.b 0 7 + c.done) (cutPieces a (readBytes b.scratch a (8 * n)))
    (markRead s b (commandAccessor b c) (wordsOf a (8 * n))) (sortArrayAt s b.isle b.core).cells none 0 hwf hfits height
  have hmarked : WritesOnly b (markRead s b (commandAccessor b c) (wordsOf a (8 * n))) := rfl
  refine ⟨x, hmarked.trans honly, hcounts, hout, ?_⟩
  rw [hjoined, hlen, Nat.mul_div_cancel_left _ (by decide), Option.or_none] at hload
  unfold loadRow
  rw [hrow]
  dsimp only
  rw [hrace, hpieces]
  dsimp only
  rw [show shapeRow0 c.b = field c.b 0 7 from rfl, hload]
  dsimp only
  rw [if_pos rfl, loadedArray]
  congr 2
  exact congrArg _ (List.filter_congr fun q _ => by rw [bne, beq_eq_decide, decide_not])

/-! ### A stored row, and the array's release (R68, R208) -/

theorem storeRowOut_lands (hgood : ∀ q ∈ (sortArrayAt s b.isle b.core).bad, q / 128 ≠ field c.b 0 7 + c.done)
    (hrace : countedRace s b b.id c.serial .sort (commandAccessor b c) c.sync true [(a, 8 * n)] = none)
    (hlen : (storeRow (sortArrayAt s b.isle b.core).cells c.b (field c.b 0 7 + c.done)).length = 8 * n)
    (hcan : CanLand b c.sync (cutPieces a (storeRow (sortArrayAt s b.isle b.core).cells c.b (field c.b 0 7 + c.done)))) :
    let pieces := cutPieces a (storeRow (sortArrayAt s b.isle b.core).cells c.b (field c.b 0 7 + c.done))
    ∃ x, LandsBy b x (commandAccessor b c) c.sync pieces ∧ storeRowOut s b c =
      let b2 := nextRow x c (lastGeneration (readSync b c.sync) (pieces.map fun p => p.2.length))
      if (queueOf b2 .sort).all fun k => match k.instr with | .qjoin _ => true | _ => false
      then releaseSort (s.putBlock b2) b2 else s.putBlock b2 := by
  intro pieces
  have hpieces := piecesOf_eq_cutPieces 16 a _ (Nat.le_trans (Nat.le_of_eq hlen) (by omega))
  have hbad : ((sortArrayAt s b.isle b.core).bad.any fun q => q / 128 == field c.b 0 7 + c.done) = false := by
    simpa using hgood
  obtain ⟨x, hlands, hland⟩ := landPieces_lands hx c.sync pieces b none hcan
  refine ⟨x, hlands, ?_⟩
  rw [Option.or_none] at hland
  unfold storeRowOut
  rw [hrow]
  dsimp only
  rw [hrace, show shapeRow0 c.b = field c.b 0 7 from rfl, hbad, if_neg Bool.false_ne_true, hpieces]
  dsimp only
  rw [hland]
  rfl

end

/-- Nothing but QJOINs. -/
def onlyJoins (cs : List Command) : Bool := cs.all fun k => match k.instr with | .qjoin _ => true | _ => false

theorem onlyJoins_iff (cs : List Command) : onlyJoins cs = true ↔ ∀ k ∈ cs, ∃ m, k.instr = .qjoin m := by
  rw [onlyJoins, List.all_eq_true]
  refine forall₂_congr fun k _ => ?_
  split
  case h_1 m hm => exact ⟨fun _ => ⟨m, hm⟩, fun _ => rfl⟩
  case h_2 hno => exact ⟨fun h => absurd h Bool.false_ne_true, fun ⟨m, hm⟩ => (hno m hm).elim⟩

/-- After a row of an SRTST the queue holds no more sort command exactly if that row was its last and QJOINs alone follow. -/
theorem onlyJoins_nextRow {b b' : Block} {c : Command} {gen : Option (BitVec 16)} {last : Prop} {x y w : BitVec 5}
    (hi : c.instr = .srtst x y w) (h : CommandDone b b' .sort c { c with done := c.done + 1 } gen last) :
    onlyJoins (queueOf b' .sort) = true ↔ last ∧ ∀ k ∈ (queueOf b .sort).tail, ∃ m, k.instr = .qjoin m := by
  rw [onlyJoins_iff]
  by_cases hlast : last
  · rw [(h.leaves hlast).1]
    exact ⟨fun hall => ⟨hlast, hall⟩, And.right⟩
  · rw [(h.stays hlast).1]
    refine ⟨fun hall => ?_, fun hall => absurd hall.1 hlast⟩
    obtain ⟨m, hm⟩ := hall _ (List.mem_cons_self ..)
    rw [hi] at hm
    exact absurd hm (by simp)

theorem releaseSort_held {s : State} {x : Block} (hhere : s.block? x.id = some x)
    (hheld : (sortArrayAt s x.isle x.core).holder = some x.id) : releaseSort s x =
      (putSortArray s { sortArrayAt s x.isle x.core with holder := none }).putBlock { x with sortHeld := false } := by
  have hput : (putSortArray s { sortArrayAt s x.isle x.core with holder := none }).block? x.id = some x := hhere
  unfold releaseSort
  rw [if_pos hheld]
  dsimp only
  rw [hput]

theorem releaseSort_other {s : State} {x : Block} (hfree : (sortArrayAt s x.isle x.core).holder ≠ some x.id) : releaseSort s x = s := by
  unfold releaseSort
  rw [if_neg hfree]

/-- What the row of an SRTST does with the array: the block b becomes x, and the array is released or stays. -/
theorem stored_released {s : State} {b x : Block} (hhere : s.block? b.id = some b) (hid : x.id = b.id) (hisle : x.isle = b.isle)
    (hcore : x.core = b.core) (hheld : x.sortHeld = b.sortHeld) (finished : Bool) :
    let t := if finished then releaseSort (s.putBlock x) x else s.putBlock x
    let arr := sortArrayAt s b.isle b.core
    ∃ b', b' = { x with sortHeld := b'.sortHeld } ∧ OtherBlocks s t b.id ∧ OtherArrays s t b ∧
      t = { s with blocks := t.blocks, sorts := t.sorts } ∧ t.block? b.id = some b' ∧
      (finished = true ∧ arr.holder = some b.id → sortArrayAt t b.isle b.core = { arr with holder := none } ∧ b'.sortHeld = false) ∧
      (¬ (finished = true ∧ arr.holder = some b.id) → sortArrayAt t b.isle b.core = arr ∧ b'.sortHeld = b.sortHeld) := by
  intro t arr
  have hput : (s.putBlock x).block? b.id = some x := State.putBlock_block_same s x b.id b hid hhere
  have harr : sortArrayAt (s.putBlock x) x.isle x.core = arr := by rw [hisle, hcore]; rfl
  by_cases hrel : finished = true ∧ arr.holder = some b.id
  · obtain ⟨hfin, hholder⟩ := hrel
    have ht : t = (putSortArray (s.putBlock x) { arr with holder := none }).putBlock { x with sortHeld := false } := by
      rw [← harr]
      exact (if_pos hfin).trans (releaseSort_held (hid ▸ hput) (by rw [harr, hid]; exact hholder))
    obtain ⟨hai, hac⟩ := sortArrayAt_place s b.isle b.core
    have hplace := putSortArray_arrayPut (s.putBlock x) (b := b) (a := { arr with holder := none }) hai hac
    clear_value t
    subst ht
    refine ⟨{ x with sortHeld := false }, rfl, ?_, hplace.others, rfl, ?_, fun _ => ⟨hplace.here, rfl⟩, fun h => absurd ⟨hfin, hholder⟩ h⟩
    · intro j hj
      rw [State.putBlock_block_other _ _ j (by rwa [hid])]
      exact State.putBlock_block_other s x j (by rwa [hid])
    · exact State.putBlock_block_same _ _ b.id x hid hput
  · have ht : t = s.putBlock x := by
      by_cases hfin : finished = true
      · exact (if_pos hfin).trans (releaseSort_other fun hholder => hrel ⟨hfin, by rw [harr, hid] at hholder; exact hholder⟩)
      · exact if_neg hfin
    clear_value t
    subst ht
    exact ⟨x, rfl, putBlock_others s hid, fun _ _ _ => rfl, rfl, hput, fun h => absurd h hrel, fun _ => ⟨rfl, hheld⟩⟩

/-- The block after a row: its queue and ranges may differ too. -/
structure RowDone (b x y : Block) (c : Command) (gen : Option (BitVec 16)) : Prop where
  kept    : y = { b with scratch := x.scratch, tags := x.tags, badWords := x.badWords, queues := y.queues, armed := y.armed }
  command : CommandDone b y .sort c { c with done := c.done + 1 } gen (field c.b 8 7 + 1 ≤ c.done + 1)

theorem nextRow_rowDone {b x : Block} (hb : BlockSized b) (h : WritesOnly b x) (c : Command) (gen : Option (BitVec 16)) :
    RowDone b x (nextRow x c gen) c gen where
  kept := (nextRow_frame x c gen).trans (by rw [h])
  command := by
    rw [nextRow_eq]
    exact commandNext_done (by rw [h]) hb (by rw [h]) (by rw [h]) (c := c) (c1 := { c with done := c.done + 1 }) rfl gen
      (decide_eq_true_iff (p := field c.b 8 7 + 1 ≤ c.done + 1))

theorem Lands.congr {b x y : Block} {sync writer : Nat} {count : BitVec 6} {pieces : List (Nat × List Byte)}
    (h : Lands b x sync writer count pieces) (hscratch : y.scratch = x.scratch) (htags : y.tags = x.tags) :
    Lands b y sync writer count pieces := by
  obtain ⟨hbytes, hcounts, hothers, hmarks⟩ := h
  refine ⟨?_, ?_, ?_, ?_⟩
  · rwa [hscratch]
  · rwa [readSync_congr hscratch]
  · rwa [hscratch]
  · rwa [htags]

theorem sortTransfers : SortTransfers := by
  intro s b c h hstarted hlen hrowlt hwf
  have hn : field c.b 16 7 + 1 ≤ 128 := Nat.mod_lt _ (by decide)
  have hrow := transferRow_eq c.a c.b c.done
  have hexec := exec_sortTransferRow h
  obtain ⟨hisle, hcore⟩ := sortArrayAt_place s b.isle b.core
  constructor
  · intro x y w hi pieces lens hrace hfits
    have hx : (commandAccessor b c).wrid ≠ wridSeq := by rw [commandAccessor_sort (.inl ⟨x, y, w, hi⟩)]; decide
    obtain ⟨z, honly, hcounts, hout, hload⟩ := loadRow_loads hx hrow hn hwf hrace hfits
    rw [transferStep_load h hstarted hi, hload] at hexec
    have hnext := nextRow_rowDone h.sized honly c (lastGeneration (readSync b c.sync) lens)
    generalize nextRow z c (lastGeneration (readSync b c.sync) lens) = b' at hexec hnext
    obtain ⟨hkept, hdone⟩ := hnext
    have hscratch : b'.scratch = z.scratch := by rw [hkept]
    have hid : b'.id = b.id := by rw [hkept]
    have hput := putSortArray_arrayPut s (b := b) (a := loadedArray (sortArrayAt s b.isle b.core) (field c.b 0 7 + c.done)
      (field c.b 16 7 + 1) (readBytes b.scratch (rowStart c.a (8 * (field c.b 16 7 + 1)) c.done) (8 * (field c.b 16 7 + 1)))) hisle hcore
    have hcells := getD_loadCells (field c.b 16 7 + 1) (field c.b 0 7 + c.done) 0 (cells := (sortArrayAt s b.isle b.core).cells)
      (readBytes b.scratch (rowStart c.a (8 * (field c.b 16 7 + 1)) c.done) (8 * (field c.b 16 7 + 1))) (by omega)
    refine ⟨_, b', _, hexec, fun j hj => State.putBlock_block_other _ _ j (by rwa [hid]), hput.others, rfl,
      State.putBlock_block_same _ _ b.id b hid h.here, hput.here, ?_, ?_, (readSync_congr hscratch _).trans hcounts,
      hscratch ▸ hout, by rw [hkept], hdone⟩
    · intro j hj
      have hplace : 8 * (128 * (field c.b 0 7 + c.done) + j - (128 * (field c.b 0 7 + c.done) + 0)) = 8 * j := by omega
      rw [cellAt, hcells, if_pos (by omega), hplace, rowCell_readBytes _ hj]
    · intro i j hj hother
      rw [cellAt, hcells, if_neg (by omega), cellAt]
  · intro x y w hi hgood pieces hrace hcan released
    have hwrid := commandAccessor_sort (.inr ⟨x, y, w, hi⟩) (b := b)
    have hx : (commandAccessor b c).wrid ≠ wridSeq := by rw [hwrid]; decide
    obtain ⟨z, ⟨hlands, honly, -⟩, hstore⟩ := storeRowOut_lands hx hrow hn hgood hrace (storeRow_length ..) hcan
    rw [transferStep_store h hstarted hi, hstore] at hexec
    have hnext := nextRow_rowDone h.sized honly c (lastGeneration (readSync b c.sync) (pieces.map fun p => p.2.length))
    dsimp only at hexec
    generalize nextRow z c (lastGeneration (readSync b c.sync) (pieces.map fun p => p.2.length)) = b2 at hexec hnext
    obtain ⟨hkept, hdone⟩ := hnext
    have hjoins := onlyJoins_nextRow hi hdone
    rw [← onlyJoins] at hexec
    obtain ⟨b', hb', hothers, harrays, hframe, hput, hfreed, hheld⟩ := stored_released h.here (x := b2) (by rw [hkept])
      (by rw [hkept]) (by rw [hkept]) (by rw [hkept]) (onlyJoins (queueOf b2 .sort))
    have hreleased : released ↔ onlyJoins (queueOf b2 .sort) = true ∧ (sortArrayAt s b.isle b.core).holder = some b.id := by
      rw [hjoins]
      exact ⟨fun ⟨hlast, hholder, htail⟩ => ⟨⟨hlast, htail⟩, hholder⟩, fun ⟨⟨hlast, htail⟩, hholder⟩ => ⟨hlast, hholder, htail⟩⟩
    refine ⟨_, b', hexec, hothers, harrays, hframe, hput, fun hr => hfreed (hreleased.mp hr),
      fun hr => hheld fun hf => hr (hreleased.mpr hf), ?_, ?_, ?_⟩
    · rw [hb', hkept]
    · have hlands' := hlands.congr (y := b') (by rw [hb', hkept]) (by rw [hb', hkept])
      rwa [hwrid] at hlands'
    · rw [hb']
      exact ⟨hdone.stays, hdone.leaves, hdone.others⟩

/-- Settles O47: each of its six parts is a theorem above. The grants of MSTRM and MCPY walk over cells and runs, the rows of the sort array
over the pieces that are counted. -/
theorem engineGrants : Obligations.EngineGrants := ⟨roundRobin, matrixGrants, streamGrants, sortStarts, sortSteps, sortTransfers⟩

end Sys2Proof.Machine
end

section
/-!
PROOFS. Replays, reports and stored bits: the events that touch one field of the platform, or one word of storage (R70, R390, R393 to R397).
-/

namespace Sys2Proof.Machine

/-! ### Replays and reports (R390, R393, R394, R397) -/

theorem getD_modify {xs : List Nat} {f : Nat → Nat} {i : Nat} (hi : i < xs.length) (k : Nat) :
    (xs.modify i f).getD k 0 = if k = i then f (xs.getD k 0) else xs.getD k 0 := by
  simp only [List.getD_eq_getElem?_getD, List.getElem?_modify]
  by_cases hk : k = i
  · subst hk
    simp [hi]
  · simp [hk, Ne.symm hk]

theorem flitReplays : FlitReplays := fun _ _ hlink => ⟨_, rfl, rfl, getD_modify hlink⟩

theorem loadedPlugins_eq (key : List Byte) : loadedPlugins key = pluginsUnder key := by
  simp [loadedPlugins, pluginsUnder]

theorem attestation : Attestation := by
  refine ⟨fun s nonce => ⟨fun h => ?_, ?_⟩, fun s key => ?_, ?_⟩
  · have hrefused : (nonce.length != 32 || decide (2 ^ 20 ≤ s.platform.oneTime)) = true := by simpa using h
    show Host.Outcome.next (signReport s nonce) = _
    rw [signReport, if_pos hrefused]
  · intro hlen hindex images body
    have hsigned : ¬ (nonce.length != 32 || decide (2 ^ 20 ≤ s.platform.oneTime)) = true := by simpa [hlen] using hindex
    show Host.Outcome.next (signReport s nonce) = _
    rw [signReport, if_neg hsigned]
    rfl
  · rw [← loadedPlugins_eq]
    rfl
  · intro s isle core limit n
    refine ⟨_, rfl, rfl, List.mem_cons_self .., ?_, ?_⟩
    · intro q hq hn
      obtain rfl | hq := List.mem_cons.mp hq
      · rfl
      · exact absurd hn (by simpa using List.of_mem_filter hq)
    · intro q hq
      have hne : q ≠ (n, limit) := fun h => hq (congrArg Prod.fst h)
      rw [List.mem_cons, or_iff_right hne, List.mem_filter, and_iff_left]
      simpa using hq

/-! ### Which word, and which unit (R70, R395) -/

/-- Two bits stand in one word exactly if their words' names are equal. -/
theorem sameWord_iff (x e : BitError) : sameWord x e = true ↔ protectedWord x = protectedWord e := by
  cases x <;> cases e <;> simp [sameWord, protectedWord, and_assoc]

theorem bitUnit_eq (s : State) (e : BitError) : bitUnit s e = errorUnit s e := by cases e <;> rfl

theorem oweTest_eq (s : State) (key : Nat) :
    oweTest s key = { s with platform := { s.platform with dueTests := alsoDue s.platform.dueTests key } } := by
  rw [oweTest, alsoDue]
  simp only [List.contains_iff_mem]

theorem noteError_oweTest (s : State) (e : BitError) : noteError s e oweTest = { s with platform := { s.platform with
    dueTests := ((bitUnit s e).map fun key => alsoDue s.platform.dueTests key).getD s.platform.dueTests } } := by
  rw [noteError, bitUnit_eq]
  cases errorUnit s e with
  | none => rfl
  | some key => exact oweTest_eq s key

theorem coreOf_putBlock {s : State} {k : Nat} {x : Block} (hk : s.block? k = some x) {y : Block} (hid : y.id = x.id) (hisle : y.isle = x.isle)
    (hcore : y.core = x.core) : ((s.putBlock y).block? k).map (fun b => unitKey b.isle b.core) =
      (s.block? k).map fun b => unitKey b.isle b.core := by
  rw [State.putBlock_block_same s y k x (hid.trans (State.block_id s k x hk)) hk, hk, Option.map_some, Option.map_some, hisle, hcore]

/-- A spoilt word stands in the unit where it stood. -/
theorem errorUnit_spoilWord (s : State) (e : BitError) : errorUnit (spoilWord s e) e = errorUnit s e := by
  cases e with
  | lane w r b =>
    cases hw : s.wave? w with
    | none => simp only [spoilWord, hw]
    | some x =>
      have hid := State.wave_id s w x hw
      have hspoilt : ∀ y : Wave, y.id = w → y.block = x.block →
          errorUnit (s.putWave y) (.lane w r b) = errorUnit s (.lane w r b) := fun y hy hblock => by
        simp only [errorUnit, State.putWave_wave_same s y w x hy hw, hw, Option.bind_some, hblock]
        rfl
      simp only [spoilWord, hw]
      split
      · exact hspoilt _ hid rfl
      · exact hspoilt _ hid rfl
  | scratch k y b =>
    cases hk : s.block? k with
    | none => simp only [spoilWord, hk]
    | some x =>
      simp only [spoilWord, hk]
      exact coreOf_putBlock hk rfl rfl rfl
  | tag k i b =>
    cases hk : s.block? k with
    | none => simp only [spoilWord, hk]
    | some x =>
      simp only [spoilWord, hk]
      exact coreOf_putBlock hk rfl rfl rfl
  | acc k r c b =>
    cases hk : s.block? k with
    | none => simp only [spoilWord, hk]
    | some x =>
      simp only [spoilWord, hk]
      exact coreOf_putBlock hk rfl rfl rfl
  | sort k c b =>
    cases hk : s.block? k with
    | none => simp only [spoilWord, hk]
    | some x =>
      simp only [spoilWord, hk, errorUnit]
      exact congrArg _ hk
  | far i a b => rfl

theorem oweTest_spoilWord (s : State) (e : BitError) (key : Nat) : oweTest (spoilWord s e) key = spoilWord (oweTest s key) e := by
  cases e with
  | lane w r b =>
    have hw : (oweTest s key).wave? w = s.wave? w := rfl
    simp only [spoilWord, hw]
    split <;> rfl
  | scratch k y b | tag k y b | acc k y c b | sort k y b =>
    have hk : (oweTest s key).block? k = s.block? k := rfl
    simp only [spoilWord, hk]
    split <;> rfl
  | far i a b => rfl

theorem noteError_spoilWord (s : State) (e : BitError) : noteError (spoilWord s e) e oweTest = spoilWord (noteError s e oweTest) e := by
  rw [noteError, errorUnit_spoilWord, noteError]
  cases errorUnit s e with
  | none => rfl
  | some key => exact oweTest_spoilWord s e key

/-! ### A wrong bit (R70, R395) -/

/-- Another bit of a word is wrong already. -/
def secondBit (errors : List BitError) (e : BitError) : Prop := ∃ x ∈ errors, x ≠ e ∧ protectedWord x = protectedWord e

theorem secondBit_iff (errors : List BitError) (e : BitError) : (errors.any fun x => sameWord x e && x != e) = true ↔ secondBit errors e := by
  simp [secondBit, sameWord_iff, and_comm]

theorem storeError_second {s : State} {e : BitError} (h : secondBit s.platform.bitErrors e) : storeError s e =
    spoilWord { s with platform := { s.platform with
      bitErrors := s.platform.bitErrors.filter fun x => protectedWord x ≠ protectedWord e,
      dueTests := ((bitUnit s e).map fun key => alsoDue s.platform.dueTests key).getD s.platform.dueTests } } e := by
  have hfilter : (s.platform.bitErrors.filter fun x => !sameWord x e) = s.platform.bitErrors.filter fun x => protectedWord x ≠ protectedWord e :=
    List.filter_congr fun x _ => by rw [Bool.eq_iff_iff]; simp [← sameWord_iff]
  rw [storeError, if_pos ((secondBit_iff _ _).mpr h), noteError_spoilWord, noteError_oweTest, hfilter]
  cases e <;> rfl

theorem storeError_again {s : State} {e : BitError} (h : ¬ secondBit s.platform.bitErrors e) (hin : e ∈ s.platform.bitErrors) :
    storeError s e = s := by
  rw [storeError, if_neg (mt (secondBit_iff _ _).mp h), if_pos (by simpa using hin)]

theorem storeError_single {s : State} {e : BitError} (h : ¬ secondBit s.platform.bitErrors e) (hout : e ∉ s.platform.bitErrors) :
    storeError s e = match bitUnit s e with
      | some key => correctedError { s with platform := { s.platform with bitErrors := e :: s.platform.bitErrors } } key
      | none => { s with platform := { s.platform with bitErrors := e :: s.platform.bitErrors } } := by
  rw [storeError, if_neg (mt (secondBit_iff _ _).mp h), if_neg (by simpa using hout), noteError, bitUnit_eq]
  cases e <;> rfl

theorem correctedError_eq (s : State) (key : Nat) : correctedError s key =
    if 63 ≤ (s.platform.corrected.filter fun q => q.1 = key ∧ Config.withinSecond q.2 s.clock = true).length then
      { s with platform := { s.platform with corrected := s.platform.corrected.filter fun q => q.1 ≠ key,
                                             dueTests := alsoDue s.platform.dueTests key } }
    else { s with platform := { s.platform with corrected := s.platform.corrected ++ [(key, s.clock)] } } := by
  have hnear : (s.platform.corrected.filter fun q => q.1 == key && Config.withinSecond q.2 s.clock) =
      s.platform.corrected.filter fun q => q.1 = key ∧ Config.withinSecond q.2 s.clock = true :=
    List.filter_congr fun q _ => by simp [beq_eq_decide]
  have hothers : (s.platform.corrected.filter fun q => q.1 != key) = s.platform.corrected.filter fun q => q.1 ≠ key :=
    List.filter_congr fun q _ => by simp [bne, beq_eq_decide]
  rw [correctedError]
  dsimp only
  rw [hnear, hothers, oweTest_eq]

theorem storedBits : StoredBits := by
  intro s e p others due s1 second after
  refine ⟨fun h hin => congrArg _ (storeError_again h hin), ?_, fun h => ?_⟩
  · intro h hout kept
    have hexec : after = .next (storeError s e) := rfl
    rw [storeError_single h hout] at hexec
    refine ⟨fun hnone => ?_, fun key hkey => ?_⟩
    · rw [hexec, hnone]
    · rw [hkey] at hexec
      dsimp only at hexec
      rw [correctedError_eq] at hexec
      exact ⟨fun hfew => hexec.trans (congrArg _ (if_neg (Nat.not_le.mpr hfew))), fun hmany => hexec.trans (congrArg _ (if_pos hmany))⟩
  · have hexec : after = .next (spoilWord s1 e) := congrArg _ (storeError_second h)
    refine ⟨?_, ?_, ?_, ?_, ?_, ?_, ?_⟩
    · rintro w r b x rfl hw hr
      have hid := State.wave_id s w x hw
      refine ⟨_, hexec, ?_⟩
      simp only [spoilWord, show s1.wave? w = some x from hw, if_pos hr]
      exact putWave_waveStep (hid ▸ hw) rfl
    · rintro w r b x rfl hw hr
      have hid := State.wave_id s w x hw
      refine ⟨_, hexec, ?_⟩
      simp only [spoilWord, show s1.wave? w = some x from hw, if_neg (Nat.not_lt.mpr hr)]
      exact putWave_waveStep (hid ▸ hw) rfl
    · rintro k y b x rfl hk
      refine ⟨_, hexec, ?_⟩
      simp only [spoilWord, show s1.block? k = some x from hk]
      exact putBlock_blockStep (State.block_id s k x hk ▸ hk) rfl
    · rintro k i b x rfl hk
      refine ⟨_, hexec, ?_⟩
      simp only [spoilWord, show s1.block? k = some x from hk]
      exact putBlock_blockStep (State.block_id s k x hk ▸ hk) rfl
    · rintro k r c b x rfl hk
      refine ⟨_, hexec, ?_⟩
      simp only [spoilWord, show s1.block? k = some x from hk]
      exact putBlock_blockStep (State.block_id s k x hk ▸ hk) rfl
    · rintro k c b x rfl hk
      obtain ⟨hisle, hcore⟩ := sortArrayAt_place s1 x.isle x.core
      have hput := putSortArray_arrayPut s1 (b := x) (a := { sortArrayAt s1 x.isle x.core with
        bad := c :: (sortArrayAt s1 x.isle x.core).bad }) hisle hcore
      refine ⟨_, hexec, ?_⟩
      simp only [spoilWord, show s1.block? k = some x from hk]
      exact ⟨rfl, hput.others, hput.here⟩
    · rintro i a b rfl
      exact hexec

end Sys2Proof.Machine
end

section
/-!
PROOFS. Accesses of peers: bytes of local HBM, atomic operations, and instances of collectives (R84, R131, R390).
-/

namespace Sys2Proof.Machine

/-! ### Writes of the device by physical address (R12, R17) -/

theorem hbmPut_wf (bs : List Byte) {m : Mem} (a : Nat) (w : Memory.wf m = true) : Memory.wf (hbmPut m a bs) = true := by
  induction bs generalizing m a with
  | nil => exact w
  | cons b bs ih =>
    rw [hbmPut]
    split
    · exact ih _ (writeByte_wf m a b w)
    · exact ih _ w

theorem hbmPut_outside (bs : List Byte) {m : Mem} (a : Nat) (w : Memory.wf m = true) : SameOutside m (hbmPut m a bs) a bs.length := by
  induction bs generalizing m a with
  | nil => exact fun _ _ => rfl
  | cons b bs ih =>
    intro y hy
    rw [List.length_cons] at hy
    rw [hbmPut]
    split
    · rw [ih _ (writeByte_wf m a b w) y (by omega), readByte_writeByte m a b y w, if_neg (by omega)]
    · exact ih _ w y (by omega)

theorem hbmPut_inside (bs : List Byte) (m : Mem) {a : Nat} (h : ∀ i, i < bs.length → inHbm (a + i) = true) :
    hbmPut m a bs = writeBytes m a bs := by
  induction bs generalizing m a with
  | nil => rfl
  | cons b bs ih =>
    have hrest : ∀ i, i < bs.length → inHbm (a + 1 + i) = true := fun i hi => by
      rw [Nat.add_assoc, Nat.add_comm 1]
      exact h (i + 1) (Nat.succ_lt_succ hi)
    have hfirst : inHbm a = true := h 0 (Nat.succ_pos _)
    rw [hbmPut, if_pos hfirst, ih _ hrest, writeBytes]

theorem inHbm_iff (a : Nat) : inHbm a = true ↔ a < 8 * isleSpan ∧ a % isleSpan < 0xC00000000 := by
  rw [inHbm, Bool.and_eq_true, decide_eq_true_eq, decide_eq_true_eq]

theorem inHbm_of_range {a n : Nat} (h : rangeInHbm a n = true) {i : Nat} (hi : i < n) : inHbm (a + i) = true := by
  rw [rangeInHbm, Bool.and_eq_true, Bool.and_eq_true, beq_iff_eq, inHbm_iff, inHbm_iff] at h
  rw [inHbm_iff]
  unfold isleSpan at *
  omega

theorem hbmPut_range {bs : List Byte} (m : Mem) {a : Nat} (h : rangeInHbm a bs.length = true) : hbmPut m a bs = writeBytes m a bs :=
  hbmPut_inside bs m fun _ hi => inHbm_of_range h hi

/-! ### Atomic operations (R131) -/

/-- A code below 2^n as a signed number. -/
theorem toInt_ofNat_lt {n x : Nat} (hn : 0 < n) (h : x < 2 ^ n) :
    (BitVec.ofNat n x).toInt = if x < 2 ^ n / 2 then (x : Int) else (x : Int) - (2 ^ n : Nat) := by
  have hsplit : 2 ^ n = 2 * 2 ^ (n - 1) := by rw [← Nat.pow_succ', Nat.succ_eq_add_one, Nat.sub_add_cancel hn]
  rw [BitVec.toInt_eq_toNat_cond, BitVec.toNat_ofNat, Nat.mod_eq_of_lt h]
  by_cases hx : x < 2 ^ n / 2
  · rw [if_pos (by omega), if_pos hx]
  · rw [if_neg (by omega), if_neg hx]

theorem atomicOp_eq_atomicResult {aop : Nat} (haop : aop < 15) (wide : Bool) {a b : Nat} (ha : a < 2 ^ if wide then 64 else 32)
    (hb : b < 2 ^ if wide then 64 else 32) : atomicOp aop wide a b = atomicResult aop wide a b := by
  have hsigned : ∀ x : Nat, x < (2 ^ if wide then 64 else 32) → (if x < (2 ^ if wide then 64 else 32) / 2 then (x : Int)
      else (x : Int) - (2 ^ (if wide then 64 else 32) : Nat)) = (BitVec.ofNat (if wide then 64 else 32) x).toInt :=
    fun x hx => (toInt_ofNat_lt (by split <;> decide) hx).symm
  unfold atomicOp atomicResult
  dsimp only
  simp only [hsigned a ha, hsigned b hb]
  interval_cases aop <;> rfl

/-! ### An access arrives (R390) -/

section
variable {s : State} {link id addr : Nat}

theorem peerAccess_refused {op : PeerOp} (h : s.platform.links.getLsbD link = false ∨ ∃ q ∈ s.platform.peerSeen, q.2 = id) :
    exec (.peerAccess ⟨link, id, addr, op⟩) s = .next s := by
  have hrefused : (!s.platform.links.getLsbD link || s.platform.peerSeen.any (fun q => q.2 == id) || !peerInside addr op) = true := by
    obtain h | h := h
    · simp [h]
    · have hseen : (s.platform.peerSeen.any fun q => q.2 == id) = true := by simpa using h
      simp [hseen]
  exact congrArg _ (if_pos hrefused)

theorem peerAccess_outside {op : PeerOp} (hout : peerInside addr op = false) : exec (.peerAccess ⟨link, id, addr, op⟩) s = .next s := by
  have hrefused : (!s.platform.links.getLsbD link || s.platform.peerSeen.any (fun q => q.2 == id) || !peerInside addr op) = true := by
    simp [hout]
  exact congrArg _ (if_pos hrefused)

theorem peerAccess_performs (hlink : s.platform.links.getLsbD link = true) (hnew : ∀ q ∈ s.platform.peerSeen, q.2 ≠ id)
    {op : PeerOp} (hin : peerInside addr op = true) : exec (.peerAccess ⟨link, id, addr, op⟩) s =
    .next (performPeer { s with platform := { s.platform with peerSeen := (link, id) :: s.platform.peerSeen } } addr op) := by
  have hseen : (s.platform.peerSeen.any fun q => q.2 == id) = false := by simpa using hnew
  have hdone : ¬ (!s.platform.links.getLsbD link || s.platform.peerSeen.any (fun q => q.2 == id) || !peerInside addr op) = true := by
    simp [hlink, hseen, hin]
  exact congrArg _ (if_neg hdone)

end

/-! ### Numbers in HBM -/

theorem leNat_hbmPut {m : Mem} (hm : Memory.wf m = true) {a n : Nat} (h : rangeInHbm a n = true) (v : Nat) :
    leNat (readBytes (hbmPut m a (leBytes n v)) a n) = v % 2 ^ (8 * n) ∧
      ∀ y, y < a ∨ a + n ≤ y → readByte (hbmPut m a (leBytes n v)) y = readByte m y := by
  have hlen := leBytes_length n v
  have hread : readBytes (writeBytes m a (leBytes n v)) a n = leBytes n v := by
    simpa [hlen] using readBytes_writeBytes (leBytes n v) m a hm
  have hout := hbmPut_outside (leBytes n v) a hm
  rw [hlen] at hout
  refine ⟨?_, hout⟩
  rw [hbmPut_range m (by rwa [hlen]), hread, leNat_leBytes, Nat.pow_mul]

/-! ### Instances of collectives (R84) -/

theorem findIdx?_at {α : Type} {p : α → Bool} {before : List α} {x : α} (after : List α) (hx : p x = true)
    (hb : ∀ y ∈ before, p y = false) :
    (before ++ x :: after).findIdx? p = some before.length := by
  rw [List.findIdx?_append, List.findIdx?_eq_none_iff.mpr hb, List.findIdx?_cons, hx]
  simp

section
variable {s : State} {ctx group inst rank : Nat}

/-- Of a collective by name, and without a source of a rank. -/
def lacksRank (ctx group inst rank : Nat) (x : CollInstance) : Bool :=
  x.ctx == ctx && x.group == group && x.inst == inst && !x.sources.any (·.1 == rank)

theorem lacksRank_iff {x : CollInstance} : lacksRank ctx group inst rank x = true ↔
    (x.ctx = ctx ∧ x.group = group ∧ x.inst = inst) ∧ ∀ q ∈ x.sources, q.1 ≠ rank := by
  simp [lacksRank, and_assoc]

/-- Of a collective by name, and its member of a rank goes on. -/
def rankGoesOn (ctx group inst rank : Nat) (x : CollInstance) : Bool :=
  x.ctx == ctx && x.group == group && x.inst == inst && !x.ended.contains rank && x.sources.any (·.1 == rank)

theorem rankGoesOn_iff {x : CollInstance} : rankGoesOn ctx group inst rank x = true ↔
    (x.ctx = ctx ∧ x.group = group ∧ x.inst = inst) ∧ rank ∉ x.ended ∧ ∃ q ∈ x.sources, q.1 = rank := by
  simp [rankGoesOn, and_assoc]

theorem contribute_eq (params : List Nat) (source : List Byte) : contribute s ctx group inst rank params source =
    match s.colls.findIdx? (lacksRank ctx group inst rank) with
    | none => { s with colls := s.colls ++ [⟨ctx, group, inst, params, [(rank, source)], []⟩] }
    | some i => match s.colls[i]? with
      | none => s
      | some x => { s with
          colls := s.colls.set i ({ x with sources := x.sources ++ [(rank, source)], params := if x.params = params then params else [] }) } := rfl

theorem endMember_eq : endMember s ctx group inst rank = match s.colls.findIdx? (rankGoesOn ctx group inst rank) with
    | none => s
    | some i => { s with colls := s.colls.modify i fun x => { x with ended := x.ended ++ [rank] } } := rfl

theorem contribute_first (params : List Nat) (source : List Byte) (h : ∀ x ∈ s.colls, lacksRank ctx group inst rank x = false) :
    contribute s ctx group inst rank params source = { s with colls := s.colls ++ [⟨ctx, group, inst, params, [(rank, source)], []⟩] } := by
  have hnone : s.colls.findIdx? (lacksRank ctx group inst rank) = none := List.findIdx?_eq_none_iff.mpr h
  rw [contribute_eq, hnone]

theorem contribute_joins (params : List Nat) (source : List Byte) {x : CollInstance} {before after : List CollInstance}
    (hcolls : s.colls = before ++ x :: after) (hx : lacksRank ctx group inst rank x = true)
    (hb : ∀ y ∈ before, lacksRank ctx group inst rank y = false) : contribute s ctx group inst rank params source =
      { s with colls := before ++ { x with sources := x.sources ++ [(rank, source)], params := if x.params = params then params else [] } :: after } := by
  have hfound : s.colls.findIdx? (lacksRank ctx group inst rank) = some before.length := hcolls ▸ findIdx?_at after hx hb
  rw [contribute_eq, hfound, hcolls]
  simp

theorem endMember_none (h : ∀ x ∈ s.colls, rankGoesOn ctx group inst rank x = false) : endMember s ctx group inst rank = s := by
  have hnone : s.colls.findIdx? (rankGoesOn ctx group inst rank) = none := List.findIdx?_eq_none_iff.mpr h
  rw [endMember_eq, hnone]

theorem endMember_ends {x : CollInstance} {before after : List CollInstance} (hcolls : s.colls = before ++ x :: after)
    (hx : rankGoesOn ctx group inst rank x = true) (hb : ∀ y ∈ before, rankGoesOn ctx group inst rank y = false) :
    endMember s ctx group inst rank = { s with colls := before ++ { x with ended := x.ended ++ [rank] } :: after } := by
  have hfound : s.colls.findIdx? (rankGoesOn ctx group inst rank) = some before.length := hcolls ▸ findIdx?_at after hx hb
  rw [endMember_eq, hfound, hcolls]
  simp [List.modify_eq_take_cons_drop]

end

theorem peerAccesses : PeerAccesses := by
  intro s link id addr arrives
  refine ⟨fun op h => peerAccess_refused h, fun hlink hnew => ?_⟩
  intro s1
  have hperforms : ∀ {op}, peerInside addr op = true → arrives op = .next (performPeer s1 addr op) := peerAccess_performs hlink hnew
  refine ⟨fun n => ?_, fun bytes hout => peerAccess_outside hout, fun bytes hin hwf => ?_, ?_, ?_⟩
  · cases hin : rangeInHbm addr n with
    | true => exact hperforms (op := .read n) hin
    | false => exact peerAccess_outside hin
  · refine ⟨_, hperforms (op := .write bytes) hin, rfl, fun a => ?_⟩
    exact (congrArg (readByte · a) (hbmPut_range s.hbm hin)).trans (readByte_writeBytes bytes s.hbm addr a hwf)
  · intro wide n hin hwf old
    have hold : old < 2 ^ (8 * n) := by
      have h := leNat_lt (readBytes s.hbm addr n)
      rwa [readBytes_length, show 256 = 2 ^ 8 from rfl, ← Nat.pow_mul] at h
    have hbits : 8 * n = if wide then 64 else 32 := by cases wide <;> rfl
    refine ⟨fun aop v haop => ?_, fun x y => ⟨fun hne => ?_, fun heq => ?_⟩⟩
    · refine ⟨_, hperforms (op := .atomic aop wide v) hin, rfl, ?_⟩
      rw [← atomicOp_eq_atomicResult haop wide (hbits ▸ hold) (hbits ▸ Nat.mod_lt _ (Nat.two_pow_pos _))]
      exact leNat_hbmPut hwf hin _
    · exact (hperforms (op := .cas wide x y) hin).trans (congrArg _ (if_neg hne))
    · refine ⟨_, (hperforms (op := .cas wide x y) hin).trans (congrArg _ (if_pos heq)), rfl, leNat_hbmPut hwf hin _⟩
  · intro ctx group inst rank params source mine vacant
    have hvacant : ∀ x, vacant x ↔ lacksRank ctx group inst rank x = true := fun x => lacksRank_iff.symm
    refine ⟨fun hall => ?_, fun x before after hcolls hx hb => ?_, ?_⟩
    · exact (hperforms rfl).trans (congrArg _ (contribute_first params source fun x hx =>
        Bool.eq_false_iff.mpr fun h => hall x hx ((hvacant x).mpr h)))
    · exact (hperforms rfl).trans (congrArg _ (contribute_joins params source hcolls ((hvacant x).mp hx) fun y hy =>
        Bool.eq_false_iff.mpr fun h => hb y hy ((hvacant y).mpr h)))
    · intro going
      have hgoing : ∀ x, going x ↔ rankGoesOn ctx group inst rank x = true := fun x => rankGoesOn_iff.symm
      refine ⟨fun hall => ?_, fun x before after hcolls hx hb => ?_⟩
      · exact (hperforms rfl).trans (congrArg _ (endMember_none fun x hx =>
          Bool.eq_false_iff.mpr fun h => hall x hx ((hgoing x).mpr h)))
      · exact (hperforms rfl).trans (congrArg _ (endMember_ends hcolls ((hgoing x).mp hx) fun y hy =>
          Bool.eq_false_iff.mpr fun h => hb y hy ((hgoing y).mpr h)))

end Sys2Proof.Machine
end

section
/-!
PROOFS. Power-up, hot reset and loss of power (R387, R389, R393, R394, R395, R399).
-/

namespace Sys2Proof.Machine

/-! ### Sums of powers of two -/

/-- A sum of distinct powers of two, each at its bit. -/
theorem powerSum_bits (p : Nat → Bool) (n : Nat) : let v := ((List.range n).filter p).foldl (fun a i => a + 2 ^ i) 0
    v < 2 ^ n ∧ ∀ j, v.testBit j = (decide (j < n) && p j) := by
  induction n with
  | zero => simp
  | succ n ih =>
    obtain ⟨hlt, hbits⟩ := ih
    rw [List.range_succ, List.filter_append, List.foldl_append]
    cases hp : p n with
    | false =>
      simp only [List.filter_cons, hp, Bool.false_eq_true, if_false, List.filter_nil, List.foldl_nil]
      refine ⟨Nat.lt_trans hlt (Nat.pow_lt_pow_succ (by decide)), fun j => ?_⟩
      rw [hbits]
      by_cases hj : j = n
      · subst hj
        simp [hp]
      · have hsame : j < n ↔ j < n + 1 := by omega
        simp only [hsame]
    | true =>
      simp only [List.filter_cons, hp, if_true, List.filter_nil, List.foldl_cons, List.foldl_nil]
      refine ⟨by rw [Nat.pow_succ]; omega, fun j => ?_⟩
      rw [Nat.add_comm]
      by_cases hj : j = n
      · subst hj
        rw [Nat.testBit_two_pow_add_eq, Nat.testBit_lt_two_pow hlt, hp]
        simp
      · obtain hj | hj := Nat.lt_or_gt_of_ne hj
        · rw [Nat.testBit_two_pow_add_gt hj, hbits]
          simp [hj, Nat.lt_succ_of_lt hj]
        · have hpow : 2 ^ (n + 1) ≤ 2 ^ j := Nat.pow_le_pow_right (by decide) hj
          rw [Nat.testBit_lt_two_pow (by rw [Nat.pow_succ] at hpow; omega)]
          have hout : ¬ j < n + 1 := by omega
          simp [hout]

theorem goodCores_bit (isle : Nat) {j : Nat} (hj : j < 64) :
    (goodCores isle).getLsbD j = (decide (j < 32) && !Config.coreFails (isle * 32 + j)) := by
  rw [goodCores, BitVec.getLsbD_ofNat, (powerSum_bits _ _).2, decide_eq_true hj, Bool.true_and]
  rfl

theorem allCores_bit {j : Nat} (hj : j < 64) : IsleRegs.reset.units.getLsbD j = decide (j < 32) := by
  show (BitVec.ofNat 64 (2 ^ 32 - 1)).getLsbD j = _
  rw [BitVec.getLsbD_ofNat, Nat.testBit_two_pow_sub_one]
  simp [hj]

/-! ### The registers after power-up (R387, R393, R395, R399) -/

/-- The module with its registers as the tests of power-up leave them, before the lists of lost frames are written. -/
def bootRegisters (s : State) : State :=
  { nextFresh s 1 with
    isles := (numbered s.isles).map fun q => bootIsle q.1 q.2,
    platform := { s.platform with
      booted := true, links := (Config.freeDword s.fresh).setWidth 16, retired := (List.range 8).flatMap lostFrames,
      refused := (List.range 8).filter fun i => monitorRefused i || !Config.schedulerRuns i,
      plugins := loadedPlugins s.platform.operatorKey } }

theorem foldl_writeLists (bytes : Nat → List Byte) (ks : List Nat) (s : State) :
    ks.foldl (fun s i => { s with hbm := hbmPut s.hbm (baseOf (s.isle i).retl) (bytes i) }) s =
      { s with hbm := ks.foldl (fun m i => hbmPut m (baseOf (s.isle i).retl) (bytes i)) s.hbm } := by
  induction ks generalizing s with
  | nil => rfl
  | cons k ks ih => exact ih _

theorem bootModule_eq (s : State) : bootModule s = { bootRegisters s with
    hbm := (List.range 8).foldl (fun m i => hbmPut m (baseOf ((bootRegisters s).isle i).retl) ((lostFrames i).flatMap (leBytes 8))) s.hbm } :=
  foldl_writeLists (fun i => (lostFrames i).flatMap (leBytes 8)) (List.range 8) (bootRegisters s)

theorem bootRegisters_isle (s : State) {k : Nat} (hk : k < 8) : (bootRegisters (restartModule s)).isle k = bootIsle k IsleRegs.reset := by
  show ((numbered (List.replicate 8 IsleRegs.reset)).map fun q => bootIsle q.1 q.2).getD k IsleRegs.reset = _
  interval_cases k <;> rfl

theorem bootIsle_units (k : Nat) {j : Nat} (hj : j < 64) : (bootIsle k IsleRegs.reset).units.getLsbD j = true ↔
    j < 32 ∧ Config.monitorRuns k = true ∧ Config.coreFails (k * 32 + j) = false := by
  unfold bootIsle monitorRefused
  cases hruns : Config.monitorRuns k with
  | false => simp
  | true =>
    simp only [Bool.not_true, Bool.false_eq_true, if_false, BitVec.getLsbD_and, allCores_bit hj, goodCores_bit k hj]
    simp

theorem framesLost_length (k : Nat) : (framesLost k).length = min 511 (Config.failedFrames k).length := by
  simp [framesLost]

/-- The list of lost frames begins at the reset BASE of RETL. -/
theorem baseOf_bootIsle (k : Nat) : baseOf (bootIsle k IsleRegs.reset).retl = 0 := by
  have hsmall : (BitVec.ofNat 64 (min 511 (Config.failedFrames k).length)).toNat < 4096 := by
    rw [BitVec.toNat_ofNat]
    omega
  show (BitVec.ofNat 64 (min 511 (Config.failedFrames k).length)).toNat / 4096 % 2 ^ 40 * 4096 = 0
  rw [Nat.div_eq_of_lt hsmall]
  rfl

theorem poweredUp_boot {s x : State} (hfresh : x.fresh = s.fresh) (hkey : x.platform.operatorKey = s.platform.operatorKey)
    (htime : x.platform.oneTime = s.platform.oneTime) : PoweredUp s (bootModule (restartModule x)) where
  rest := by
    rw [bootModule_eq, ← hfresh]
    rfl
  isles := by
    rw [bootModule_eq]
    refine ⟨rfl, fun k hk => ⟨(bootIsle k IsleRegs.reset).units, ?_, fun j hj => bootIsle_units k hj⟩⟩
    rw [framesLost_length]
    exact bootRegisters_isle x hk
  platform := by
    rw [bootModule_eq, ← hfresh, ← hkey, ← htime, ← loadedPlugins_eq]
    rfl

/-! ### The memories after power-up (R387) -/

theorem foldl_hbmPut_outside {n : Nat} {bytes : Nat → List Byte} (h : ∀ i, (bytes i).length ≤ n) (ks : List Nat) {m : Mem}
    (w : Memory.wf m = true) : SameOutside m (ks.foldl (fun m i => hbmPut m 0 (bytes i)) m) 0 n := by
  induction ks generalizing m with
  | nil => exact fun _ _ => rfl
  | cons k ks ih =>
    intro y hy
    have hlen := h k
    rw [List.foldl_cons, ih (hbmPut_wf _ 0 w) y hy, hbmPut_outside _ 0 w y (by omega)]

theorem bootLists_length (k : Nat) : ((lostFrames k).flatMap (leBytes 8)).length ≤ 4088 := by
  have hlen : (lostFrames k).length ≤ 511 := by simp [lostFrames]
  rw [List.length_flatMap]
  simp only [leBytes_length, List.map_const', List.sum_replicate, smul_eq_mul]
  omega

theorem bootModule_hbm (s : State) : (bootModule (restartModule s)).hbm =
    (List.range 8).foldl (fun m i => hbmPut m 0 ((lostFrames i).flatMap (leBytes 8))) s.hbm := by
  rw [bootModule_eq]
  refine List.foldl_ext _ _ _ fun m k hk => ?_
  rw [bootRegisters_isle s (List.mem_range.mp hk), baseOf_bootIsle]

theorem bootMemory_boot {s : State} (hwf : Memory.wf s.hbm = true) : BootMemory s (bootModule (restartModule s)) where
  hbm := by
    rw [bootModule_hbm]
    exact foldl_hbmPut_outside bootLists_length _ hwf
  whole hnone := by
    rw [bootModule_hbm, List.foldl_ext (g := fun m _ => m) (H := fun m k hk => by
      rw [lostFrames, hnone k (List.mem_range.mp hk)]; rfl)]
    simp
  peer := by rw [bootModule_eq]; rfl
  host := by rw [bootModule_eq]; rfl

/-! ### The contexts end first (R389) -/

theorem destroyAll_platform (s : State) : (destroyAll s).platform = s.platform := by
  unfold destroyAll
  generalize s.contexts = cs
  induction cs generalizing s with
  | nil => rfl
  | cons c cs ih =>
    rw [List.foldl_cons, ih]
    split
    case h_1 x hx => exact (destroyContext_gone hx).1
    case h_2 => rfl

theorem resets : Resets := by
  refine ⟨fun s h => ?_, fun s h hwf => ?_, fun s => ?_, fun s => ⟨_, rfl, rfl⟩, fun s write offset value => rfl⟩
  · exact congrArg _ (if_pos h)
  · have hexec : exec .powerUp s = .next (bootModule (restartModule s)) := congrArg Host.Outcome.next (if_neg (by rw [h]; decide))
    refine ⟨_, hexec, poweredUp_boot rfl rfl rfl, bootMemory_boot hwf, ?_, ?_, ?_⟩
    all_goals
      rw [bootModule_eq]
      rfl
  · have hplatform := destroyAll_platform s
    refine ⟨_, rfl, poweredUp_boot ?_ (congrArg Platform.operatorKey hplatform) (congrArg Platform.oneTime hplatform), fun hnone hwf => ?_⟩
    · rw [bootModule_eq]
      rfl
    · have hidle : destroyAll s = s := by
        unfold destroyAll
        rw [hnone, List.foldl_nil]
      rw [hidle]
      exact ⟨poweredUp_boot rfl rfl rfl, bootMemory_boot hwf⟩

end Sys2Proof.Machine
end

section
/-!
PROOFS. What the host is told of units, and a link that goes down (R387, R389, R391, R395).
-/

namespace Sys2Proof.Machine

/-! ### MSI-X vector 0 (R387, R389) -/

/-- What UNITS and RETL.COUNT of every isle show is the same. -/
def SameUnits (s t : State) : Prop :=
  ∀ k, k < 8 → unitsWord t k = unitsWord s k ∧ field (t.isle k).retl 0 9 = field (s.isle k).retl 0 9

theorem sameUnits_iff (s t : State) : ((List.range 8).all fun i => watchedUnits s i == watchedUnits t i) = true ↔ SameUnits s t := by
  simp only [List.all_eq_true, List.mem_range, beq_iff_eq, watchedUnits, Prod.mk.injEq, SameUnits, field_low]
  exact forall₂_congr fun k _ => and_congr eq_comm eq_comm

theorem signalUnits_silent {s t : State} (h : SameUnits s t) : signalUnits s t = t := if_pos ((sameUnits_iff s t).mpr h)

theorem signalUnits_tells {s t : State} (h : ¬ SameUnits s t) :
    signalUnits s t = { t with platform := { t.platform with msix := t.platform.msix ++ [0] } } :=
  if_neg (mt (sameUnits_iff s t).mp h)

theorem unitsWord_bit (s : State) (isle : Nat) {k : Nat} (hk : k < 64) : (unitsWord s isle).getLsbD k = true ↔
    (k < 32 ∧ (s.isle isle).units.getLsbD k = true) ∨
      ((k = 32 ∨ k = 33) ∧ s.platform.links.getLsbD (2 * isle + (k - 32)) = true) ∨
      (k = 34 ∧ ∃ n ∈ s.platform.underTest, n / 32 = isle) := readRegister_units s isle hk

/-- A link of which UNITS tells another state changes UNITS of its isle. -/
theorem not_sameUnits_of_link {s t : State} {link : Nat} (hlink : link < 16)
    (h : t.platform.links.getLsbD link ≠ s.platform.links.getLsbD link) : ¬ SameUnits s t := by
  intro hsame
  have hplace : 2 * (link / 2) + (32 + link % 2 - 32) = link := by omega
  have hbit : ∀ u : State, (unitsWord u (link / 2)).getLsbD (32 + link % 2) = u.platform.links.getLsbD link := fun u => by
    rw [Bool.eq_iff_iff, unitsWord_bit u (link / 2) (by omega), hplace]
    constructor
    · rintro (⟨h, -⟩ | ⟨-, h⟩ | ⟨h, -⟩)
      · omega
      · exact h
      · omega
    · exact fun h => .inr (.inl ⟨by omega, h⟩)
  rw [← hbit, ← hbit, (hsame (link / 2) (by omega)).1] at h
  exact h rfl

/-! ### What a lost link ends (R391) -/

theorem copyLost_iff (s : State) (c : CopyInFlight) : ((copyPeers c).any fun p => !peerReachable s p) = true ↔ copyLost s c := by
  simp [copyPeers, copyLost]

theorem mem_lostCopies {s : State} {w : Wave} {c : CopyInFlight} : c ∈ lostCopies s w ↔ c ∈ w.copies ∧ copyLost s c := by
  rw [lostCopies, List.mem_filter, copyLost_iff]

theorem foldl_setBit {α : Type} {key : α → Nat} {i : Nat} (hi : i < 64) (xs : List α) (m : Mask) :
    (xs.foldl (fun m x => setBit m (key x) true) m).getLsbD i = true ↔ m.getLsbD i = true ∨ ∃ x ∈ xs, key x = i := by
  induction xs generalizing m with
  | nil => simp
  | cons x xs ih =>
    rw [List.foldl_cons, ih, setBit_getLsbD m _ _ hi]
    by_cases hx : i = key x
    · simp [← hx]
    · simp [hx, Ne.symm hx]

theorem lostThreads_bit (s : State) (p : Pending) {i : Nat} (hi : i < 64) : (lostThreads s p).getLsbD i = true ↔ threadLost s p i := by
  rw [lostThreads, foldl_setBit hi]
  simp [threadLost, and_comm, and_left_comm]

theorem foldl_or_bit {α : Type} {f : α → Mask} {i : Nat} (xs : List α) (m : Mask) :
    (xs.foldl (fun m x => m ||| f x) m).getLsbD i = true ↔ m.getLsbD i = true ∨ ∃ x ∈ xs, (f x).getLsbD i = true := by
  induction xs generalizing m with
  | nil => simp
  | cons x xs ih =>
    rw [List.foldl_cons, ih, BitVec.getLsbD_or]
    simp [or_assoc]

theorem lostMask_bit (s : State) (w : Wave) {i : Nat} (hi : i < 64) : (lostMask s w).getLsbD i = true ↔
    (∃ c ∈ w.copies, copyLost s c ∧ c.thread = i) ∨ ∃ p ∈ w.pending, threadLost s p i := by
  rw [lostMask, foldl_setBit hi, foldl_or_bit, or_comm]
  simp only [mem_lostCopies, lostThreads_bit s _ hi, and_assoc]
  simp

theorem mask_eq_zero {m : Mask} (h : ∀ i, i < 64 → m.getLsbD i ≠ true) : m = 0 :=
  BitVec.eq_of_getLsbD_eq fun i hi => by simpa using h i hi

theorem lostThreads_eq_zero {s : State} {p : Pending} (h : ∀ i, ¬ threadLost s p i) : lostThreads s p = 0 :=
  mask_eq_zero fun i hi => mt (lostThreads_bit s p hi).mp (h i)

theorem lostMask_eq_zero {s : State} {w : Wave} (h : nothingLost s w) : lostMask s w = 0 := by
  refine mask_eq_zero fun i hi hbit => ?_
  obtain ⟨c, hc, hlost, -⟩ | ⟨p, hp, hlost⟩ := (lostMask_bit s w hi).mp hbit
  · exact h.1 c hc hlost
  · exact h.2 p hp i hlost

/-- A wave whose threads are counted below 64 loses something only where its mask shows a thread. -/
theorem nothingLost_of_lostMask {s : State} {w : Wave} (hcopies : ∀ c ∈ w.copies, c.thread < 64)
    (hpeers : ∀ p ∈ w.pending, ∀ q ∈ p.peers, q.1 < 64) (h : lostMask s w = 0) : nothingLost s w := by
  have hnone : ∀ i, i < 64 → (lostMask s w).getLsbD i ≠ true := by simp [h]
  refine ⟨fun c hc hlost => hnone c.thread (hcopies c hc) ?_, fun p hp i hlost => ?_⟩
  · exact (lostMask_bit s w (hcopies c hc)).mpr (.inl ⟨c, hc, hlost, rfl⟩)
  · obtain ⟨q, hq, rfl, hgone⟩ := hlost
    exact hnone q.1 (hpeers p hp q hq) ((lostMask_bit s w (hpeers p hp q hq)).mpr (.inr ⟨p, hp, q, hq, rfl, hgone⟩))

/-- What is left of an awaited result waits for no lost thread. -/
theorem keepThreads_reached {s : State} {p p' : Pending} (hpeers : ∀ q ∈ p.peers, q.1 < 64) (h : keepThreads s p = some p') (i : Nat) :
    ¬ threadLost s p' i := by
  rintro ⟨q, hq, rfl, hgone⟩
  unfold keepThreads at h
  dsimp only at h
  split at h
  case isTrue hzero =>
    obtain rfl := Option.some.inj h
    have hbit := (lostThreads_bit s p (hpeers q hq)).mpr ⟨q, hq, rfl, hgone⟩
    rw [hzero] at hbit
    simp at hbit
  case isFalse =>
    split at h
    · exact absurd h nofun
    · obtain rfl := Option.some.inj h
      rw [List.of_mem_filter hq] at hgone
      exact absurd hgone nofun

theorem keepThreads_whole {s : State} {p : Pending} (h : ∀ i, ¬ threadLost s p i) : keepThreads s p = some p :=
  if_pos (lostThreads_eq_zero h)

/-- The wave without what it lost. -/
def lostWave (s : State) (w : Wave) : Wave := settleTags { w with
  copies := w.copies.filter fun c => !(lostCopies s w).contains c,
  tagCounts := (lostCopies s w).foldl (fun ts c => ts.modify c.tag (· - 1)) w.tagCounts,
  pending := w.pending.filterMap (keepThreads s), pcm := lostMask s w }

theorem endLost_eq {s : State} {w : Wave} (h : s.wave? w.id = some w) : endLost s w.id =
    if w.phase == .missed then s.putWave { lostWave s w with missFailed := true }
    else takeTrap s { lostWave s w with phase := .ready } 0x04 := by
  unfold endLost
  rw [h]
  rfl

theorem mem_lostWave_copies {s : State} {w : Wave} {c : CopyInFlight} : c ∈ (lostWave s w).copies ↔ c ∈ w.copies ∧ ¬ copyLost s c := by
  show c ∈ w.copies.filter (fun c => !(lostCopies s w).contains c) ↔ _
  rw [List.mem_filter]
  refine and_congr_right fun hc => ?_
  simp [mem_lostCopies, hc]

/-! ### A link goes down (R391, R395) -/

theorem filter_alone {p : Wave → Bool} {w : Wave} {xs : List Wave} (hids : (xs.map (·.id)).Nodup) (hw : w ∈ xs) (hp : p w = true)
    (hothers : ∀ x ∈ xs, x.id ≠ w.id → p x = false) : (xs.filter p).map (·.id) = [w.id] := by
  induction xs with
  | nil => simp at hw
  | cons x xs ih =>
    rw [List.map_cons, List.nodup_cons] at hids
    obtain ⟨hfresh, hids⟩ := hids
    obtain rfl | hw := List.mem_cons.mp hw
    · have hrest : xs.filter p = [] := by
        rw [List.filter_eq_nil_iff]
        intro y hy
        have hne : y.id ≠ w.id := fun h => hfresh (h ▸ List.mem_map_of_mem hy)
        simp [hothers y (List.mem_cons_of_mem _ hy) hne]
      rw [List.filter_cons, if_pos hp, hrest]
      rfl
    · have hne : x.id ≠ w.id := fun h => hfresh (h ▸ List.mem_map_of_mem hw)
      rw [List.filter_cons, hothers x (List.mem_cons_self ..) hne, if_neg Bool.false_ne_true]
      exact ih hids hw fun y hy => hothers y (List.mem_cons_of_mem _ hy)

/-- The state once a link is down: its bit is clear, the host is told, and its test is owed. -/
def linkLost (s : State) (link : Nat) : State :=
  { s with platform := { s.platform with
    links := setBit s.platform.links link false, msix := s.platform.msix ++ [0],
    dueTests := alsoDue s.platform.dueTests (link / 2 * 2 ^ 24 + 32 + link % 2) } }

theorem linkDown_eq {s : State} {link : Nat} (hlink : link < 16) (hup : s.platform.links.getLsbD link = true) : linkDown s link =
    (((linkLost s link).waves.filter fun w => lostMask (linkLost s link) w != 0 &&
      (waveContext (linkLost s link) w).any (takesVerdicts (linkLost s link))).map (·.id)).foldl endLost (linkLost s link) := by
  have hdown : signalUnits s (oweTest { s with platform := { s.platform with links := setBit s.platform.links link false } }
      (unitKey (link / 2) (32 + link % 2))) = linkLost s link := by
    rw [oweTest_eq, signalUnits_tells]
    · rw [linkLost, unitKey, Nat.add_assoc]
    · refine not_sameUnits_of_link hlink ?_
      show (setBit s.platform.links link false).getLsbD link ≠ _
      rw [setBit_getLsbD _ _ _ hlink, if_pos rfl, hup]
      decide
  unfold linkDown
  rw [hdown]

theorem exec_linkDown {s : State} {link : Nat} (hup : s.platform.links.getLsbD link = true) :
    exec (.straitLinkDown link) s = .next (linkDown s link) := congrArg _ (if_pos hup)

/-- The wave's context takes verdicts, and so the trap. -/
theorem takesVerdicts_of_standing {s : State} {w : Wave} {st : Standing} (h : waveStanding s w = some st)
    (hhalted : st.ctx.halted = false) (hsaved : st.ctx.saved = false) : (waveContext s w).any (takesVerdicts s) = true := by
  unfold waveStanding at h
  obtain ⟨b, hb, h⟩ := Option.bind_eq_some_iff.mp h
  obtain ⟨c, hc, rfl⟩ := Option.map_eq_some_iff.mp h
  dsimp only at hhalted hsaved
  simp [waveContext, hb, takesVerdicts, hc, hhalted, hsaved]

theorem linksDown : LinksDown := by
  intro s link hlink
  refine ⟨fun hdown => congrArg Host.Outcome.next (if_neg (by rw [hdown]; decide)), fun hup => ?_⟩
  have hexec := (exec_linkDown hup).trans (congrArg _ (linkDown_eq hlink hup))
  refine ⟨setBit s.platform.links link false, fun k hk => setBit_getLsbD _ _ _ hk, ?_⟩
  intro s1
  have hs1 : linkLost s link = s1 := rfl
  rw [hs1] at hexec
  refine ⟨fun hall => ?_, ?_⟩
  · have hnone : (s1.waves.filter fun w => lostMask s1 w != 0 && (waveContext s1 w).any (takesVerdicts s1)) = [] := by
      rw [List.filter_eq_nil_iff]
      intro w hw
      simp [lostMask_eq_zero (hall w hw)]
    rw [hexec, hnone]
    rfl
  · intro w st _ hw hstanding hhalted hsaved _ hids hcopies hpeers hlost hothers
    have halone : ((s1.waves.filter fun w => lostMask s1 w != 0 && (waveContext s1 w).any (takesVerdicts s1)).map (·.id)) = [w.id] := by
      refine filter_alone hids (List.mem_of_find?_eq_some hw) ?_ fun x hx hne => ?_
      · have hmask : lostMask s1 w ≠ 0 := mt (nothingLost_of_lostMask hcopies hpeers) hlost
        have hverdicts : (waveContext s1 w).any (takesVerdicts s1) = true := takesVerdicts_of_standing (s := s) hstanding hhalted hsaved
        rw [Bool.and_eq_true, bne_iff_ne]
        exact ⟨hmask, hverdicts⟩
      · simp [lostMask_eq_zero (hothers x hx hne)]
    rw [halone, List.foldl_cons, List.foldl_nil, endLost_eq (s := s1) hw] at hexec
    refine ⟨lostWave s1 w, rfl, fun c => mem_lostWave_copies, fun p hp i => ?_, fun p hp hkept => ?_, fun i hi => lostMask_bit s1 w hi,
      fun hphase => ?_, fun hphase => ?_⟩
    · obtain ⟨p0, hp0, hkeep⟩ := List.mem_filterMap.mp (show p ∈ w.pending.filterMap (keepThreads s1) from hp)
      exact keepThreads_reached (hpeers p0 hp0) hkeep i
    · exact List.mem_filterMap.mpr ⟨p, hp, keepThreads_whole hkept⟩
    · rw [hexec, if_neg (by simpa using hphase)]
    · rw [if_pos (by simpa using hphase)] at hexec
      exact ⟨_, hexec, putWave_waveStep hw rfl⟩

end Sys2Proof.Machine
end

section
/-!
PROOFS. Tests of units by the firmware (R387, R389, R395, R396).
-/

namespace Sys2Proof.Machine

/-! ### What pre-empting a context leaves alone (R235, R336) -/

theorem unarrive_kept (s : State) (b : Block) (g : Grid) : HostSideKept s (unarrive s b g) := by
  refine HostSideKept.foldl (fun t e => ?_) _ s
  dsimp only
  split
  · exact ⟨rfl, rfl⟩
  · split
    · split <;> exact ⟨rfl, rfl⟩
    · exact .refl t

theorem releaseSort_kept (s : State) (b : Block) : HostSideKept s (releaseSort s b) := by
  unfold releaseSort
  dsimp only
  split
  · split <;> exact ⟨rfl, rfl⟩
  · exact .refl s

theorem withdrawGridVotes_kept (s : State) (b : Block) (g : Grid) : HostSideKept s (withdrawGridVotes s b g) := by
  unfold withdrawGridVotes
  exact HostSideKept.foldl (fun t p => ⟨State.putGrid_contexts t _, State.putGrid_platform t _⟩) _ s

theorem pruneGridTokens_kept (s : State) (grid : Nat) : HostSideKept s (pruneGridTokens s grid) := by
  unfold pruneGridTokens
  split <;> exact ⟨rfl, rfl⟩

theorem thawLaunch_kept (s : State) (launch : Nat) : HostSideKept s (thawLaunch s launch) := by
  unfold thawLaunch
  split
  · exact .refl s
  · split
    · split <;> exact ⟨rfl, rfl⟩
    · exact .refl s

theorem discardBlock_kept (s : State) (b : Block) : HostSideKept s (discardBlock s b) := by
  unfold discardBlock
  split
  case h_1 => exact .refl s
  case h_2 g _ =>
    have hleft : HostSideKept s (releaseSort (unarrive s b g) b) := (unarrive_kept s b g).trans (releaseSort_kept _ b)
    have hvotes := (withdrawGridVotes_kept ((releaseSort (unarrive s b g) b).putGrid
      { keepReserved s b g with replace := insertRising b.index g.replace }) b g).after ⟨hleft.contexts, hleft.platform⟩
    exact (thawLaunch_kept ..).after ((pruneGridTokens_kept ..).after ⟨hvotes.contexts, hvotes.platform⟩)

theorem addCounter_platform (s : State) (ctx core off n : Nat) : (addCounter s ctx core off n).platform = s.platform := by
  rw [addCounter_eq]

theorem requestPreemption_platform (s : State) (c : Context) : (requestPreemption s c).platform = s.platform := by
  unfold requestPreemption
  split
  · rfl
  · dsimp only
    rw [addCounter_platform]
    exact (HostSideKept.foldl discardBlock_kept _ _).platform.trans (releaseUncommitted_kept ..).platform

/-! ### What the host is told (R389) -/

theorem signalUnits_eq (s t : State) :
    signalUnits s t = { t with platform := { t.platform with msix := (signalUnits s t).platform.msix } } := by
  by_cases h : SameUnits s t
  · rw [signalUnits_silent h]
  · rw [signalUnits_tells h]

theorem signalUnits_self (s : State) : signalUnits s s = s := signalUnits_silent fun _ _ => ⟨rfl, rfl⟩

theorem unitsWord_congr {s t : State} (hisles : t.isles = s.isles) (hlinks : t.platform.links = s.platform.links)
    (hunder : t.platform.underTest = s.platform.underTest) (k : Nat) : unitsWord t k = unitsWord s k := by
  rw [unitsWord, unitsWord, State.isle, State.isle, selfTesting, selfTesting, hisles, hlinks, hunder]

theorem signalUnits_shows (s t : State) (k : Nat) :
    unitsWord (signalUnits s t) k = unitsWord t k ∧ (signalUnits s t).isle k = t.isle k := by
  unfold signalUnits
  split
  · exact ⟨rfl, rfl⟩
  · exact ⟨unitsWord_congr rfl rfl rfl k, rfl⟩

theorem told_signalUnits {s t : State} (h : t.platform.msix = s.platform.msix) : Told s (signalUnits s t) := by
  have hshows := signalUnits_shows s t
  by_cases hsame : SameUnits s t
  · have hsilent := signalUnits_silent hsame
    generalize signalUnits s t = u at hshows hsilent ⊢
    refine ⟨fun _ => by rw [hsilent, h], ?_⟩
    rintro ⟨k, hk, hdiffers⟩
    obtain ⟨hunits, hretl⟩ := hsame k hk
    rw [(hshows k).1, (hshows k).2] at hdiffers
    exact (hdiffers.elim (· hunits) (· hretl)).elim
  · have htells := signalUnits_tells hsame
    generalize signalUnits s t = u at hshows htells ⊢
    refine ⟨fun hquiet => (hsame fun k hk => ?_).elim, fun _ => by rw [htells, h]⟩
    have hk := hquiet k hk
    rwa [(hshows k).1, (hshows k).2] at hk

/-! ### Which test it is (R395, R396) -/

section
variable {s : State} {isle unit : Nat} {passed : Bool}

theorem exec_selfTest : exec (.unitSelfTest isle unit passed) s = .next (signalUnits s (testUnit s isle unit passed)) := rfl

theorem testUnit_nothing (h : 8 ≤ isle ∨ unit < 35 ∧ isle * 2 ^ 24 + unit ∉ s.platform.dueTests) : testUnit s isle unit passed = s := by
  unfold testUnit
  obtain h | ⟨hunit, howed⟩ := h
  · exact if_pos h
  · have hdue : (!s.platform.dueTests.contains (unitKey isle unit)) = true := by simpa [unitKey] using howed
    by_cases hisle : 8 ≤ isle
    · exact if_pos hisle
    · rw [if_neg hisle, if_neg (by omega), if_pos hdue]

variable (hisle : isle < 8)
include hisle

theorem testUnit_frame (hunit : 35 ≤ unit) : testUnit s isle unit passed = if passed then s else retireFrame s isle (unit - 35) := by
  rw [testUnit, if_neg (Nat.not_le.mpr hisle), if_pos hunit]

variable (howed : isle * 2 ^ 24 + unit ∈ s.platform.dueTests)
include howed

theorem testUnit_owed (hunit : unit < 35) : testUnit s isle unit passed =
    if unit < 32 ∧ ¬ (isle * 32 + unit ∈ s.platform.underTest ∧ contextsOn s isle unit = []) then beginCoreTest s isle unit
    else endTest s isle unit passed := by
  have hdue : ¬ (!s.platform.dueTests.contains (unitKey isle unit)) = true := by simpa [unitKey] using howed
  have hbegins : (decide (unit < 32) && !(s.platform.underTest.contains (coreNumber isle unit) && (contextsOn s isle unit).isEmpty)) = true ↔
      unit < 32 ∧ ¬ (isle * 32 + unit ∈ s.platform.underTest ∧ contextsOn s isle unit = []) := by
    simp [coreNumber, imp_iff_not_or]
  rw [testUnit, if_neg (Nat.not_le.mpr hisle), if_neg (Nat.not_le.mpr hunit), if_neg hdue]
  simp only [hbegins]

end

/-! ### A core (R395, R396) -/

/-- The cores under test, with one more. -/
def alsoTested (under : List Nat) (n : Nat) : List Nat := if n ∈ under then under else n :: under

theorem beginCoreTest_eq (s : State) (isle core : Nat) : beginCoreTest s isle core =
    (contextsOn s isle core).foldl (fun s x => match s.ctx? x with
      | some c => requestPreemption s c
      | none => s) { s with platform := { s.platform with underTest := alsoTested s.platform.underTest (isle * 32 + core) } } := by
  rw [beginCoreTest, alsoTested]
  simp only [List.contains_iff_mem]
  rfl

theorem endCoreTest_eq (s : State) (isle core : Nat) (passed : Bool) : endCoreTest s isle core passed = { s with
    isles := if passed then s.isles else s.isles.set isle { s.isle isle with units := (s.isle isle).units &&& ~~~BitVec.ofNat 64 (2 ^ core) },
    platform := { s.platform with underTest := s.platform.underTest.filter fun x => x ≠ isle * 32 + core } } := by
  have hfilter : (s.platform.underTest.filter (· != coreNumber isle core)) = s.platform.underTest.filter fun x => x ≠ isle * 32 + core :=
    List.filter_congr fun x _ => by rw [bne, beq_eq_decide, decide_not]; rfl
  rw [endCoreTest, hfilter]
  cases passed <;> rfl

/-! ### A test is over (R395) -/

theorem testOver_signal {s u : State} {key : Nat} {passed : Bool} (hdue : u.platform.dueTests = s.platform.dueTests)
    (htransient : u.platform.transient = s.platform.transient) (hmsix : u.platform.msix = s.platform.msix)
    (hwf : mapWf 0 s.platform.transient = true) : TestOver s (signalUnits s (testDone u key passed)) key passed where
  due k := by
    rw [signalUnits_eq]
    show k ∈ u.platform.dueTests.filter (· != key) ↔ _
    rw [hdue, List.mem_filter, bne_iff_ne]
  transient k := by
    rw [signalUnits_eq]
    show mapGet 0 (if passed then mapSet 0 u.platform.transient key (mapGet 0 u.platform.transient key + 1) else u.platform.transient) k = _
    rw [htransient]
    cases passed with
    | false => simp
    | true =>
      rw [if_pos rfl, mapGet_mapSet 0 _ _ _ _ hwf]
      by_cases hk : k = key <;> simp [hk]
  told := told_signalUnits hmsix

/-- The rest of a state after a test that was over. -/
theorem signal_testDone (s u : State) (key : Nat) (passed : Bool) {t : State} (ht : t = signalUnits s (testDone u key passed)) :
    t = { u with platform := { u.platform with msix := t.platform.msix, dueTests := t.platform.dueTests, transient := t.platform.transient } } := by
  have h := signalUnits_eq s (testDone u key passed)
  rw [← ht] at h
  have hdue : t.platform.dueTests = (testDone u key passed).platform.dueTests := by rw [h]
  have htransient : t.platform.transient = (testDone u key passed).platform.transient := by rw [h]
  rw [hdue, htransient]
  exact h

end Sys2Proof.Machine
end

section
/-!
PROOFS. The tests of cores, links, far caches and frames (R387, R389, R395, R396).
-/

namespace Sys2Proof.Machine

/-! ### Links, far caches and frames (R387, R395) -/

/-- The links that are up, and those that have failed, after the test of a link. -/
def LinkTested (p : Platform) (link : Nat) (passed : Bool) (up failed : BitVec 16) : Prop :=
  (∀ k, k < 16 → failed.getLsbD k = if passed = false ∧ k = link then true else p.failedLinks.getLsbD k) ∧
  ∀ k, k < 16 → up.getLsbD k = if k ≠ link then p.links.getLsbD k
    else if passed = false then false
    else if p.failedLinks.getLsbD k then p.links.getLsbD k else true

theorem endLinkTest_tested (s : State) (link : Nat) (passed : Bool) : ∃ up failed, LinkTested s.platform link passed up failed ∧
    endLinkTest s link passed = { s with platform := { s.platform with links := up, failedLinks := failed } } := by
  cases passed with
  | false =>
    refine ⟨setBit s.platform.links link false, setBit s.platform.failedLinks link true, ⟨fun k hk => ?_, fun k hk => ?_⟩, rfl⟩
    · rw [setBit_getLsbD _ _ _ hk]
      simp
    · rw [setBit_getLsbD _ _ _ hk]
      by_cases h : k = link <;> simp [h]
  | true =>
    cases hfailed : s.platform.failedLinks.getLsbD link with
    | true =>
      refine ⟨s.platform.links, s.platform.failedLinks, ⟨fun k hk => by simp, fun k hk => ?_⟩, if_pos hfailed⟩
      by_cases h : k = link <;> simp [h, hfailed]
    | false =>
      refine ⟨setBit s.platform.links link true, s.platform.failedLinks, ⟨fun k hk => by simp, fun k hk => ?_⟩,
        if_neg (by rw [hfailed]; decide)⟩
      rw [setBit_getLsbD _ _ _ hk]
      by_cases h : k = link <;> simp [h, hfailed]

theorem clearFar_eq (s : State) (isle : Nat) : clearFar s isle =
    { s with platform := { s.platform with badFar := s.platform.badFar.filter fun g => 64 * g / isleSpan ≠ isle } } := by
  have hfilter : (s.platform.badFar.filter fun g => 64 * g / isleSpan != isle) = s.platform.badFar.filter fun g => 64 * g / isleSpan ≠ isle :=
    List.filter_congr fun g _ => by rw [bne, beq_eq_decide, decide_not]
  rw [clearFar, hfilter]

/-- The module with a failed frame in the list at RETL, before its count is one more. -/
def frameListed (s : State) (isle frame : Nat) : State :=
  { s with
    hbm := hbmPut s.hbm (field (s.isle isle).retl 12 40 * 4096 + 8 * field (s.isle isle).retl 0 9) (leBytes 8 (isle * isleSpan + 65536 * frame)),
    platform := { s.platform with retired := (isle * isleSpan + 65536 * frame) :: s.platform.retired } }

section
variable {s : State} {isle frame : Nat}

theorem retireFrame_nothing (h : field (s.isle isle).retl 0 9 = 511 ∨ isle * isleSpan + 65536 * frame ∈ s.platform.retired) :
    retireFrame s isle frame = s := by
  rw [field_low] at h
  refine if_pos ?_
  simpa using h

theorem retireFrame_lists (hroom : field (s.isle isle).retl 0 9 < 511) (hnew : isle * isleSpan + 65536 * frame ∉ s.platform.retired) :
    retireFrame s isle frame = (frameListed s isle frame).putIsle
      isle { s.isle isle with retl := (s.isle isle).retl + 1 } := by
  have hcount : (s.isle isle).retl.toNat % 512 ≠ 511 := by
    rw [field_low] at hroom
    exact Nat.ne_of_lt hroom
  have hlists : ¬ (decide ((s.isle isle).retl.toNat % 512 = 511) ||
      s.platform.retired.contains (isle * isleSpan + 65536 * frame)) = true := by
    simpa [hcount] using hnew
  rw [frameListed, ← baseOf_eq_field, field_low]
  exact if_neg hlists

end

/-- One more frame counts in RETL. -/
theorem field_retl_succ {r : Dword} (h : field r 0 9 < 511) : field (r + 1) 0 9 = field r 0 9 + 1 := by
  rw [field_low] at h ⊢
  rw [field_low, BitVec.toNat_add]
  have := r.isLt
  show (r.toNat + 1) % 2 ^ 64 % 2 ^ 9 = _
  omega

/-! ### The statement (R395, R396) -/

section
variable {s : State} {isle unit : Nat} {passed : Bool} (hisle : isle < 8) (howed : isle * 2 ^ 24 + unit ∈ s.platform.dueTests)
include hisle howed

/-- A core is emptied first: its contexts are pre-empted. -/
theorem coreTest_begins (hunit : unit < 32) (hbusy : ¬ (isle * 32 + unit ∈ s.platform.underTest ∧ contextsOn s isle unit = [])) :
    exec (.unitSelfTest isle unit passed) s = .next (signalUnits s (beginCoreTest s isle unit)) := by
  rw [exec_selfTest, testUnit_owed hisle howed (by omega), if_pos ⟨hunit, hbusy⟩]

/-- A unit with nothing on it is tested. -/
theorem unitTest_ends (hunit : unit < 35) (hempty : unit < 32 → isle * 32 + unit ∈ s.platform.underTest ∧ contextsOn s isle unit = []) :
    exec (.unitSelfTest isle unit passed) s = .next (signalUnits s (endTest s isle unit passed)) := by
  rw [exec_selfTest, testUnit_owed hisle howed hunit, if_neg fun h => h.2 (hempty h.1)]

end

/-- What is left of a test that leaves the tests owed and the errors counted to its end. -/
theorem test_over {s u : State} {isle unit key : Nat} {passed : Bool} (hwf : mapWf 0 s.platform.transient = true)
    (hexec : exec (.unitSelfTest isle unit passed) s = .next (signalUnits s (testDone u key passed)))
    (hdue : u.platform.dueTests = s.platform.dueTests) (htransient : u.platform.transient = s.platform.transient)
    (hmsix : u.platform.msix = s.platform.msix) : ∃ t, exec (.unitSelfTest isle unit passed) s = .next t ∧ TestOver s t key passed ∧
      t = { u with platform := { u.platform with
        msix := t.platform.msix, dueTests := t.platform.dueTests, transient := t.platform.transient } } :=
  ⟨_, hexec, testOver_signal hdue htransient hmsix hwf, signal_testDone s u key passed rfl⟩

theorem getLsbD_clearCore (units : Dword) (core : Nat) {k : Nat} (hk : k < 64) :
    (units &&& ~~~BitVec.ofNat 64 (2 ^ core)).getLsbD k = if k = core then false else units.getLsbD k := by
  rw [BitVec.getLsbD_and, BitVec.getLsbD_not, BitVec.getLsbD_ofNat, Nat.testBit_two_pow]
  by_cases h : k = core
  · simp [h, h ▸ hk]
  · simp [h, hk, Ne.symm h]

theorem selfTests : SelfTests := by
  intro s isle unit passed hwf test key owed
  refine ⟨fun h => ?_, fun hisle hlen => ⟨?_, ?_, ?_, ?_⟩⟩
  · exact exec_selfTest.trans (by rw [testUnit_nothing h, signalUnits_self])
  · intro hunit howed n under begun s1
    have hbegins := coreTest_begins (passed := passed) hisle howed hunit
    refine ⟨fun hnew hempty => ?_, fun c hon hc => ?_, fun hin hempty => ?_⟩
    · have hexec := hbegins fun h => hnew h.1
      have hbegun : beginCoreTest s isle unit = s1 := by
        rw [beginCoreTest_eq, hempty]
        rfl
      rw [hbegun] at hexec
      exact ⟨_, hexec, told_signalUnits rfl, signalUnits_eq s s1⟩
    · have hexec := hbegins fun h => by simp [hon] at h
      have hbegun : beginCoreTest s isle unit = requestPreemption s1 c := by
        rw [beginCoreTest_eq, hon, List.foldl_cons, List.foldl_nil]
        have hc1 : s1.ctx? c.index = some c := hc
        show (match s1.ctx? c.index with | some c => requestPreemption s1 c | none => s1) = _
        rw [hc1]
      have hrequest : exec (.preemptionRequest c.index) s1 = .next (requestPreemption s1 c) := by
        show execPreemptionRequest c.index s1 = _
        rw [execPreemptionRequest, show s1.ctx? c.index = some c from hc]
        rfl
      rw [hbegun] at hexec
      exact ⟨_, _, hrequest, hexec, told_signalUnits (by rw [requestPreemption_platform]), signalUnits_eq s _⟩
    · have hexec := unitTest_ends (passed := passed) hisle howed (by omega) fun _ => ⟨hin, hempty⟩
      have hcore : endTest s isle unit passed = testDone (endCoreTest s isle unit passed) key passed := if_pos hunit
      rw [hcore] at hexec
      obtain ⟨t, htest, hover, hrest⟩ := test_over hwf hexec (by rw [endCoreTest_eq]) (by rw [endCoreTest_eq]) (by rw [endCoreTest_eq])
      rw [endCoreTest_eq] at hrest
      have hisles : t.isles = if passed then s.isles
        else s.isles.set isle { s.isle isle with units := (s.isle isle).units &&& ~~~BitVec.ofNat 64 (2 ^ unit) } := by rw [hrest]
      have hshow : ∀ k, t.isle k = if passed then s.isle k
          else (s.putIsle isle { s.isle isle with units := (s.isle isle).units &&& ~~~BitVec.ofNat 64 (2 ^ unit) }).isle k := fun k => by
        rw [State.isle, hisles]
        cases passed <;> rfl
      refine ⟨t, if passed then (s.isle isle).units else (s.isle isle).units &&& ~~~BitVec.ofNat 64 (2 ^ unit), htest, hover,
        by rw [hisles]; exact hrest, fun k hk => ?_, ?_, fun k hk => ?_⟩
      · rw [hshow, State.isle_putIsle_other s _ hk, ite_self]
      · rw [hshow, State.isle_putIsle_same hlen]
        cases passed <;> rfl
      · cases passed with
        | false => simpa using getLsbD_clearCore (s.isle isle).units unit hk
        | true => simp
  · intro hunit howed link
    have hexec := unitTest_ends (passed := passed) hisle howed (by omega) fun h => by omega
    have hlink : endTest s isle unit passed = testDone (endLinkTest s link passed) key passed :=
      (if_neg (by omega)).trans (if_pos (by omega))
    obtain ⟨up, failed, ⟨hfailed, hup⟩, htested⟩ := endLinkTest_tested s link passed
    rw [hlink, htested] at hexec
    obtain ⟨t, htest, hover, hrest⟩ := test_over hwf hexec rfl rfl rfl
    have hlinks : t.platform.links = up ∧ t.platform.failedLinks = failed := by rw [hrest]; exact ⟨rfl, rfl⟩
    rw [← hlinks.2] at hfailed
    rw [← hlinks.1] at hup
    exact ⟨t, htest, hover, by rw [hlinks.1, hlinks.2]; exact hrest, hfailed, hup⟩
  · intro hunit howed
    have hexec := unitTest_ends (passed := passed) hisle howed (by omega) fun h => by omega
    have hfar : endTest s isle unit passed = testDone (clearFar s isle) key passed := (if_neg (by omega)).trans (if_neg (by omega))
    rw [hfar, clearFar_eq] at hexec
    exact test_over hwf hexec rfl rfl rfl
  · intro hunit r frame entry
    have htest := (exec_selfTest (s := s) (passed := passed)).trans (by rw [testUnit_frame hisle hunit])
    refine ⟨fun h => ?_, fun hfailed hroom hnew hhbm hin => ?_⟩
    · have hsame : (if passed then s else retireFrame s isle (unit - 35)) = s := by
        obtain rfl | h := h
        · rfl
        · rw [retireFrame_nothing h, ite_self]
      exact htest.trans (by rw [hsame, signalUnits_self])
    · subst hfailed
      rw [if_neg Bool.false_ne_true, retireFrame_lists hroom hnew] at htest
      have hshow := State.isle_putIsle_same (s := frameListed s isle (unit - 35)) hlen { s.isle isle with retl := (s.isle isle).retl + 1 }
      have hretl : ¬ SameUnits s ((frameListed s isle (unit - 35)).putIsle isle { s.isle isle with retl := (s.isle isle).retl + 1 }) :=
        fun hsame => by
          have hcount := (hsame isle hisle).2
          rw [hshow] at hcount
          have hmore := field_retl_succ hroom
          exact Nat.succ_ne_self _ (hmore.symm.trans hcount)
      rw [signalUnits_tells hretl] at htest
      obtain ⟨hentry, hothers⟩ := leNat_hbmPut hhbm hin frame
      exact ⟨_, htest, rfl, hshow, fun k hk => State.isle_putIsle_other (frameListed s isle (unit - 35)) _ hk, hentry, hothers⟩

end Sys2Proof.Machine
end

section
/-!
PROOFS. What the destruction of a context leaves is of contexts that had something before: queues, launches, grids and blocks (R299, R318,
R389), and function level resets.
-/

namespace Sys2Proof.Machine

/-! ### Whose things a state holds -/

/-- Every context, queue, launch, grid and block of a state is of a context of which another had one. -/
structure OwnersKept (s t : State) : Prop where
  contexts : t.contexts.map (·.index) ⊆ s.contexts.map (·.index)
  queues   : t.queues.map (·.ctx) ⊆ s.queues.map (·.ctx)
  launches : t.launches.map (·.ctx) ⊆ s.launches.map (·.ctx)
  grids    : t.grids.map (·.ctx) ⊆ s.grids.map (·.ctx)
  blocks   : t.blocks.map (·.ctx) ⊆ s.blocks.map (·.ctx)

theorem OwnersKept.refl (s : State) : OwnersKept s s :=
  ⟨List.Subset.refl _, List.Subset.refl _, List.Subset.refl _, List.Subset.refl _, List.Subset.refl _⟩

theorem OwnersKept.trans {a b c : State} (h : OwnersKept a b) (k : OwnersKept b c) : OwnersKept a c :=
  ⟨List.Subset.trans k.contexts h.contexts, List.Subset.trans k.queues h.queues, List.Subset.trans k.launches h.launches,
    List.Subset.trans k.grids h.grids, List.Subset.trans k.blocks h.blocks⟩

theorem OwnersKept.after {a b c : State} (k : OwnersKept b c) (h : OwnersKept a b) : OwnersKept a c := h.trans k

/-- A state that holds the same. -/
theorem OwnersKept.of_eq {s t : State} (contexts : t.contexts = s.contexts) (queues : t.queues = s.queues) (launches : t.launches = s.launches)
    (grids : t.grids = s.grids) (blocks : t.blocks = s.blocks) : OwnersKept s t := by
  constructor
  · rw [contexts]; exact List.Subset.refl _
  · rw [queues]; exact List.Subset.refl _
  · rw [launches]; exact List.Subset.refl _
  · rw [grids]; exact List.Subset.refl _
  · rw [blocks]; exact List.Subset.refl _

theorem OwnersKept.foldl {α : Type} {f : State → α → State} (h : ∀ s x, OwnersKept s (f s x)) (xs : List α) (s : State) :
    OwnersKept s (xs.foldl f s) := by
  induction xs generalizing s with
  | nil => exact .refl s
  | cons x xs ih => exact (h s x).trans (ih (f s x))

theorem map_filter_subset {α : Type} (key : α → Nat) (p : α → Bool) (xs : List α) : (xs.filter p).map key ⊆ xs.map key :=
  List.map_subset key fun _ hx => List.mem_of_mem_filter hx

theorem map_map_subset {α : Type} {key : α → Nat} {f : α → α} (h : ∀ x, key (f x) = key x) (xs : List α) :
    (xs.map f).map key ⊆ xs.map key := by
  rw [List.map_map, show key ∘ f = key from funext h]
  exact List.Subset.refl _

/-- A thing put in place of those of its name. -/
theorem map_put_subset {α : Type} {key name : α → Nat} {y : α} {xs : List α} {ns : List Nat} (hxs : xs.map key ⊆ ns) (hy : key y ∈ ns) :
    (xs.map fun x => if name x == name y then y else x).map key ⊆ ns := by
  intro n hn
  simp only [List.mem_map] at hn
  obtain ⟨_, ⟨x, hx, rfl⟩, rfl⟩ := hn
  split
  · exact hy
  · exact hxs (List.mem_map_of_mem hx)

/-! ### Queues (R307, R318, R401) -/

theorem putQueue_from {s t : State} (h : OwnersKept s t) {q : Queue} (hq : q.ctx ∈ s.queues.map (·.ctx)) : OwnersKept s (t.putQueue q) :=
  { h with queues := map_put_subset (key := fun x : Queue => x.ctx) (name := fun x : Queue => x.index) h.queues hq }

theorem putQueue_owners {s : State} {q : Queue} (h : q.ctx ∈ s.queues.map (·.ctx)) : OwnersKept s (s.putQueue q) := putQueue_from (.refl s) h

theorem mem_ctxs_of_queue {s : State} {n : Nat} {q : Queue} (h : s.queue? n = some q) : q.ctx ∈ s.queues.map (·.ctx) :=
  List.mem_map_of_mem (List.mem_of_find?_eq_some h)

theorem onQueue_owners (s : State) (qi : Nat) {f : Queue → Queue} (hf : ∀ q, (f q).ctx = q.ctx) : OwnersKept s (onQueue s qi f) := by
  unfold onQueue
  split
  case h_1 q hq => exact putQueue_owners (by rw [hf]; exact mem_ctxs_of_queue hq)
  case h_2 => exact .refl s

theorem writeQstat_from {s t : State} (h : OwnersKept s t) {q : Queue} (hq : q.ctx ∈ s.queues.map (·.ctx)) (code : Nat) :
    OwnersKept s (writeQstat t q code) :=
  putQueue_from (t := { t with hbm := hbmPut t.hbm (queueRecord t q.index + 13) [BitVec.ofNat 8 code] }) (q := { q with qstat := code })
    ⟨h.contexts, h.queues, h.launches, h.grids, h.blocks⟩ hq

theorem writeQstat_owners {s : State} {q : Queue} (h : q.ctx ∈ s.queues.map (·.ctx)) (code : Nat) : OwnersKept s (writeQstat s q code) :=
  writeQstat_from (.refl s) h code

theorem oweRptr_ctx (q : Queue) : (oweRptr q).ctx = q.ctx := by
  unfold oweRptr
  split <;> rfl

/-! ### The command processor's writes (R401) -/

theorem enterRequest_same (s : State) (r : Request) : OwnersKept s (enterRequest s r).1 ∧ (enterRequest s r).1.queues = s.queues := by
  unfold enterRequest
  split <;> exact ⟨.of_eq rfl rfl rfl rfl rfl, rfl⟩

theorem requestAts_same (s : State) (isle : Nat) (c : Context) (va : Dword) (k : Access) (core : Nat) :
    OwnersKept s (requestAts s isle c va k core).1 ∧ (requestAts s isle c va k core).1.queues = s.queues := by
  unfold requestAts
  dsimp only
  split <;> exact ⟨.of_eq rfl rfl rfl rfl rfl, rfl⟩

theorem cacheLeaf_owners (s : State) (c : Context) (isle : Nat) (va : Dword) : OwnersKept s (cacheLeaf s c isle va) := by
  unfold cacheLeaf
  dsimp only
  split
  · exact .refl s
  · split
    · exact .of_eq rfl rfl rfl rfl rfl
    · exact .refl s

theorem writeLoc_owners (s : State) (l : Loc) (bs : List Byte) : OwnersKept s (writeLoc s l bs) :=
  .of_eq (by simp) (by simp) (by simp) (by simp) (by simp)

/-- Whatever an access of the command processor comes to, it brings nothing of another context. -/
def CpOwners {α : Type} (s : State) : CpResult α → Prop
  | .ok t _ | .held t | .failed t => OwnersKept s t

theorem CpOwners.of_trans {α : Type} {s t : State} {r : CpResult α} (h : OwnersKept s t) (k : CpOwners t r) : CpOwners s r := by
  cases r <;> exact h.trans k

theorem cpMiss_owners {α : Type} {s : State} {q : Queue} (hq : q.ctx ∈ s.queues.map (·.ctx)) (c : Context) (va : Dword) (k : Access)
    (m : MissCause) :
    CpOwners s (cpMiss (α := α) s q c va k m) := by
  unfold cpMiss
  split
  · exact .refl s
  · obtain ⟨hsame, hqueues⟩ := enterRequest_same s (requestOf s (homeIsle q.index) c va k m frontEndCore (if m == .hostPage then 2 else 0))
    exact hsame.trans (putQueue_owners (by rw [hqueues]; exact hq))

theorem cpAwait_owners {s : State} {q : Queue} (hq : q.ctx ∈ s.queues.map (·.ctx)) (c : Context) (va : Dword) (k : Access) :
    OwnersKept s (cpAwait s q c va k) := by
  obtain ⟨hsame, hqueues⟩ := requestAts_same s (homeIsle q.index) c va k frontEndCore
  exact hsame.trans (putQueue_owners (by rw [hqueues]; exact hq))

theorem cpReach_owners (s : State) (qi : Nat) (k : Access) (va : Dword) : CpOwners s (cpReach s qi k va) := by
  unfold cpReach
  split
  case h_1 => exact .refl s
  case h_2 q hq =>
    have hctx := mem_ctxs_of_queue hq
    split
    · exact .refl s
    · split
      · exact putQueue_owners hctx
      · split
        · exact cpMiss_owners hctx ..
        · split
          · exact cacheLeaf_owners ..
          · exact cpMiss_owners hctx ..
          · exact cpAwait_owners hctx ..

theorem cpWriteFrom_owners (qi : Nat) (k : Access) (fuel : Nat) (s : State) (va : Dword) (bs : List Byte) :
    CpOwners s (cpWriteFrom qi k fuel s va bs) := by
  induction fuel generalizing s va bs with
  | zero => exact .refl s
  | succ fuel ih =>
    have hreach := cpReach_owners s qi k va
    unfold cpWriteFrom
    split
    · exact .refl s
    · split
      case h_1 heq => rwa [heq] at hreach
      case h_2 heq => rwa [heq] at hreach
      case h_3 heq =>
        rw [heq] at hreach
        exact .of_trans (OwnersKept.trans hreach (writeLoc_owners ..)) (ih ..)

theorem cpWritePieces_owners (qi : Nat) (va : Dword) (s : State) (ps : List (Nat × List Byte)) : CpOwners s (cpWritePieces qi va s ps) := by
  induction ps generalizing s with
  | nil => exact .refl s
  | cons p ps ih =>
    have hwrite : CpOwners s (cpWrite s qi .store (va + BitVec.ofNat 64 p.1) p.2) := cpWriteFrom_owners ..
    unfold cpWritePieces
    split
    case h_1 heq =>
      rw [heq] at hwrite
      exact .of_trans hwrite (ih _)
    case h_2 heq => rwa [heq] at hwrite
    case h_3 heq => rwa [heq] at hwrite

/-- The queue notes a write that failed. -/
theorem noteFailed_owners (s : State) (qi : Nat) (va : Dword) : OwnersKept s (match s.queue? qi with
    | some q => if q.qstat != 0 then s else writeQstat s (if va = q.rptr then q else oweRptr q) 1
    | none => s) := by
  split
  case h_1 q hq =>
    split
    · exact .refl s
    · refine writeQstat_owners ?_ 1
      split
      · exact mem_ctxs_of_queue hq
      · rw [oweRptr_ctx]
        exact mem_ctxs_of_queue hq
  case h_2 => exact .refl s

theorem payOwed_owners (qi fuel : Nat) (s : State) : OwnersKept s (payOwed qi fuel s) := by
  induction fuel generalizing s with
  | zero => exact .refl s
  | succ fuel ih =>
    unfold payOwed
    split
    · exact .refl s
    · split
      · exact .refl s
      · split
        · exact .refl s
        case h_2 o rest _ =>
          have hwrite := cpWritePieces_owners qi o.va s o.pieces
          dsimp only
          split
          case h_1 heq => rwa [heq] at hwrite
          case h_2 heq =>
            rw [heq] at hwrite
            refine OwnersKept.after (ih _) (OwnersKept.after (onQueue_owners _ qi fun _ => rfl)
              (OwnersKept.after (onQueue_owners _ qi fun q => ?_) hwrite))
            split <;> rfl
          case h_3 heq =>
            rw [heq] at hwrite
            refine OwnersKept.after (ih _) (OwnersKept.after (noteFailed_owners _ qi o.va)
              (OwnersKept.after (onQueue_owners _ qi fun _ => rfl) (OwnersKept.after (onQueue_owners _ qi fun q => ?_) hwrite)))
            split <;> rfl

theorem completeRecord_owners (s : State) (qi serial : Nat) (cmpl cval : Dword) (status : Nat) :
    OwnersKept s (completeRecord s qi serial cmpl cval status) := by
  unfold completeRecord
  split
  · exact onQueue_owners s qi fun _ => rfl
  · exact (payOwed_owners ..).after (onQueue_owners s qi fun _ => rfl)

/-! ### What ends is completed (R251, R307, R321) -/

theorem clearRun_owners (s : State) (g : Grid) : OwnersKept s (clearRun s g) :=
  OwnersKept.foldl (f := fun s e => s.putGroup g e emptyGroup) (fun _ _ => .of_eq rfl rfl rfl rfl rfl) _ s

theorem releaseGrids_owners (s : State) (launch : Nat) : OwnersKept s (releaseGrids s launch) := by
  obtain ⟨hcontexts, hqueues, hlaunches, hgrids, hblocks⟩ := OwnersKept.foldl clearRun_owners (s.grids.filter fun g => g.launch == launch) s
  exact ⟨hcontexts, hqueues, hlaunches, List.Subset.trans (map_filter_subset ..) hgrids, hblocks⟩

theorem freeGrid_owners (s : State) (g : Grid) : OwnersKept s (freeGrid s g) := by
  obtain ⟨hcontexts, hqueues, hlaunches, hgrids, hblocks⟩ := clearRun_owners s g
  exact ⟨hcontexts, hqueues, hlaunches, List.Subset.trans (map_filter_subset ..) hgrids, List.Subset.trans (map_filter_subset ..) hblocks⟩

theorem endLaunches_owners (s : State) : OwnersKept s (endLaunches (freeEndedGrids s)) := by
  have hfreed : OwnersKept s (freeEndedGrids s) := OwnersKept.foldl (fun t g => by
    split
    · exact freeGrid_owners t g
    · exact .refl t) _ s
  obtain ⟨hcontexts, hqueues, hlaunches, hgrids, hblocks⟩ := hfreed
  exact ⟨hcontexts, hqueues, List.Subset.trans (map_map_subset (fun l => by split <;> rfl) _) hlaunches, hgrids, hblocks⟩

/-- Launches leave. -/
theorem filterLaunches_owners (s : State) (p : Launch → Bool) : OwnersKept s { s with launches := s.launches.filter p } :=
  ⟨List.Subset.refl _, List.Subset.refl _, map_filter_subset .., List.Subset.refl _, List.Subset.refl _⟩

theorem releaseUnlessAdmitted_owners (s : State) (l : Launch) : OwnersKept s (if l.admitted then s else releaseGrids s l.id) := by
  split
  · exact .refl s
  · exact releaseGrids_owners ..

theorem completeLaunch_owners (s : State) (l : Launch) : OwnersKept s (completeLaunch s l) := by
  unfold completeLaunch
  split
  · split
    · exact .refl s
    · have hhand := (releaseUnlessAdmitted_owners s l).trans (onQueue_owners _ l.queue
        (f := fun q => if q.wait = .admission l.id then leaveHand q else q) fun q => by split <;> rfl)
      exact (completeRecord_owners ..).after ((filterLaunches_owners _ _).after hhand)
  · exact .refl s

theorem settleLaunches_owners (s : State) : OwnersKept s (settleLaunches s) :=
  (endLaunches_owners s).trans (OwnersKept.foldl completeLaunch_owners _ _)

theorem endGraph_owners (s : State) (qi : Nat) (gr : GraphRun) (status : Nat) : OwnersKept s (endGraph s qi gr status) :=
  (completeRecord_owners ..).after (onQueue_owners s qi fun _ => rfl)

theorem stepGraph_halted_owners (s : State) (q : Queue) {c : Context} (h : c.halted = true) (gr : GraphRun) :
    OwnersKept s (stepGraph s q c gr) := by
  unfold stepGraph
  split
  · split
    case h_1 l _ =>
      split
      · have hreleased := releaseUnlessAdmitted_owners s l
        dsimp only
        split
        · exact OwnersKept.after (endGraph_owners ..) (OwnersKept.after (filterLaunches_owners _ _) hreleased)
        · exact OwnersKept.after (onQueue_owners _ q.index fun _ => rfl) (OwnersKept.after (filterLaunches_owners _ _) hreleased)
      · exact .refl s
    · exact onQueue_owners s q.index fun _ => rfl
  · rw [if_pos h]
    exact endGraph_owners ..

theorem endInHand_owners (s : State) (qi : Nat) : OwnersKept s (endInHand s qi) := by
  unfold endInHand
  split
  · exact .refl s
  · split
    · dsimp only
      split
      iterate 3 exact (completeRecord_owners ..).after (onQueue_owners s qi fun _ => rfl)
      exact .refl s
    · exact .refl s

theorem endTaken_owners (s : State) (q : Queue) (c : Context) : OwnersKept s (endTaken s q c) :=
  (endInHand_owners s q.index).trans (OwnersKept.foldl (fun t gr => stepGraph_halted_owners t q rfl gr) _ _)

/-- Launches of a halted context end. -/
theorem endHalted_owners (s : State) (ctx : Nat) : OwnersKept s { s with launches := s.launches.map (endLaunchHalted ctx) } :=
  ⟨List.Subset.refl _, List.Subset.refl _, map_map_subset (fun l => by unfold endLaunchHalted; split <;> rfl) _, List.Subset.refl _,
    List.Subset.refl _⟩

theorem endUnfinished_owners (s : State) (ctx : Nat) : OwnersKept s (endUnfinished s ctx) := by
  refine (((endHalted_owners s ctx).trans (settleLaunches_owners _)).trans (OwnersKept.foldl (fun t q => ?_) _ _)).trans (settleLaunches_owners _)
  split
  · exact endTaken_owners ..
  · exact .refl t

/-! ### A context halts, and is removed (R299, R318, R331) -/

theorem disableQueues_owners (s : State) (ctx : Nat) : OwnersKept s (disableQueues s ctx) :=
  ⟨List.Subset.refl _, map_map_subset (fun q => by split <;> rfl) _, List.Subset.refl _, List.Subset.refl _, List.Subset.refl _⟩

theorem releaseUncommitted_owners (s : State) (ctx : Nat) : OwnersKept s (releaseUncommitted s ctx) := by
  obtain ⟨hcontexts, hqueues, hlaunches, hgrids, hblocks⟩ := OwnersKept.foldl clearRun_owners
    (s.grids.filter fun g => g.ctx == ctx && (s.launch? g.launch).any fun l => !l.admitted) s
  exact ⟨hcontexts, hqueues, hlaunches, List.Subset.trans (map_filter_subset ..) hgrids, hblocks⟩

theorem foldl_writeQstat_owners {s : State} (code : Nat) (qs : List Queue) {t : State} (h : OwnersKept s t)
    (hqs : ∀ q ∈ qs, q.ctx ∈ s.queues.map (·.ctx)) : OwnersKept s (qs.foldl (fun s q => writeQstat s q code) t) := by
  induction qs generalizing t with
  | nil => exact h
  | cons q qs ih => exact ih (writeQstat_from h (hqs q (List.mem_cons_self ..)) code) fun x hx => hqs x (List.mem_cons_of_mem _ hx)

theorem stopQueuesHalted_owners (s : State) (ctx : Nat) : OwnersKept s (stopQueuesHalted s ctx) :=
  foldl_writeQstat_owners 2 _ (.refl s) fun _ hq => List.mem_map_of_mem (List.mem_of_mem_filter hq)

theorem putCtx_owners {s : State} {c : Context} (h : c.index ∈ s.contexts.map (·.index)) : OwnersKept s (s.putCtx c) :=
  { OwnersKept.refl s with contexts := map_put_subset (key := fun x : Context => x.index) (name := fun x : Context => x.index) (List.Subset.refl _) h }

theorem mem_indices_of_ctx {s : State} {n : Nat} {c : Context} (h : s.ctx? n = some c) : c.index ∈ s.contexts.map (·.index) :=
  List.mem_map_of_mem (List.mem_of_find?_eq_some h)

theorem haltContext_owners (s : State) (ctx : Nat) (r : HaltRecord) (record : List Dword) : OwnersKept s (haltContext s ctx r record) := by
  unfold haltContext
  split
  case h_1 => exact .refl s
  case h_2 c hc =>
    have hindex := mem_indices_of_ctx hc
    dsimp only
    split
    · exact putCtx_owners hindex
    · exact OwnersKept.after (stopQueuesHalted_owners ..) (OwnersKept.after (endHalted_owners ..)
        (OwnersKept.after (releaseUncommitted_owners ..) (putCtx_owners hindex)))

theorem removeContext_owners (s : State) (c : Context) : OwnersKept s (removeContext s c) := by
  have hruns : OwnersKept s (if c.saved then s else (s.ctxGrids c.index).foldl clearRun s) := by
    split
    · exact .refl s
    · exact OwnersKept.foldl clearRun_owners _ s
  obtain ⟨hcontexts, hqueues, hlaunches, hgrids, hblocks⟩ := hruns
  exact ⟨List.Subset.trans (map_filter_subset ..) hcontexts, List.Subset.trans (map_filter_subset ..) hqueues,
    List.Subset.trans (map_filter_subset ..) hlaunches, List.Subset.trans (map_filter_subset ..) hgrids,
    List.Subset.trans (map_filter_subset ..) hblocks⟩

/-- The state of a context's destruction before the context is removed. -/
def endedContext (s : State) (ctx : Nat) : State :=
  endUnfinished (if hasAgents s ctx then haltContext (disableQueues s ctx) ctx ⟨0x19, 0, 4, 0, 0, 0, 0⟩ [] else disableQueues s ctx) ctx

theorem destroyContext_eq (s : State) (c : Context) : destroyContext s c = match (endedContext s c.index).ctx? c.index with
    | some c1 => removeContext (endedContext s c.index) c1
    | none => endedContext s c.index := rfl

theorem endedContext_owners (s : State) (ctx : Nat) : OwnersKept s (endedContext s ctx) := by
  refine OwnersKept.after (endUnfinished_owners ..) ?_
  split
  · exact (haltContext_owners ..).after (disableQueues_owners ..)
  · exact disableQueues_owners ..

theorem destroyContext_owners (s : State) (c : Context) : OwnersKept s (destroyContext s c) := by
  rw [destroyContext_eq]
  split
  · exact (removeContext_owners ..).after (endedContext_owners ..)
  · exact endedContext_owners ..

/-! ### The other contexts stay (R299, R389) -/

theorem putCtx_indices (s : State) (c : Context) : (s.putCtx c).contexts.map (·.index) = s.contexts.map (·.index) := by
  show (s.contexts.map fun x => if x.index == c.index then c else x).map (·.index) = _
  rw [List.map_map]
  refine List.map_congr_left fun x _ => ?_
  rw [Function.comp_apply]
  split
  case isTrue h => exact (beq_iff_eq.mp h).symm
  case isFalse => rfl

theorem haltContext_indices (s : State) (ctx : Nat) (r : HaltRecord) (record : List Dword) :
    (haltContext s ctx r record).contexts.map (·.index) = s.contexts.map (·.index) := by
  unfold haltContext
  split
  case h_1 => rfl
  case h_2 c hc =>
    dsimp only
    split
    · exact putCtx_indices ..
    · rw [(haltContext_kept ..).contexts]
      exact putCtx_indices ..

theorem endedContext_indices (s : State) (ctx : Nat) : (endedContext s ctx).contexts.map (·.index) = s.contexts.map (·.index) := by
  rw [endedContext, (endUnfinished_kept ..).contexts]
  split
  · exact haltContext_indices ..
  · rfl

theorem removeContext_contexts (s : State) (c : Context) : (removeContext s c).contexts = s.contexts.filter fun x => !(x.index == c.index) := by
  have hruns : HostSideKept s (if c.saved then s else (s.ctxGrids c.index).foldl clearRun s) := by
    split
    · exact .refl s
    · exact HostSideKept.foldl clearRun_kept _ s
  exact congrArg _ hruns.contexts

/-- The destruction of a context removes no other. -/
theorem destroyContext_others {s : State} {c : Context} {n : Nat} (hn : n ≠ c.index) (h : n ∈ s.contexts.map (·.index)) :
    n ∈ (destroyContext s c).contexts.map (·.index) := by
  rw [← endedContext_indices s c.index] at h
  rw [destroyContext_eq]
  split
  case h_1 c1 hc1 =>
    have hindex := State.ctx_index _ _ _ hc1
    rw [removeContext_contexts, hindex]
    obtain ⟨x, hx, rfl⟩ := List.mem_map.mp h
    exact List.mem_map_of_mem (List.mem_filter.mpr ⟨hx, by simpa using hn⟩)
  case h_2 => exact h

/-! ### Function level resets (R388, R389) -/

/-- Nothing of a context is left. -/
structure HoldsNone (t : State) (n : Nat) : Prop where
  contexts : n ∉ t.contexts.map (·.index)
  queues   : n ∉ t.queues.map (·.ctx)
  launches : n ∉ t.launches.map (·.ctx)
  grids    : n ∉ t.grids.map (·.ctx)
  blocks   : n ∉ t.blocks.map (·.ctx)

theorem HoldsNone.stays {s t : State} {n : Nat} (h : HoldsNone s n) (hkept : OwnersKept s t) : HoldsNone t n :=
  ⟨fun hn => h.contexts (hkept.contexts hn), fun hn => h.queues (hkept.queues hn), fun hn => h.launches (hkept.launches hn),
    fun hn => h.grids (hkept.grids hn), fun hn => h.blocks (hkept.blocks hn)⟩

theorem not_mem_map_of_ne {α : Type} {key : α → Nat} {n : Nat} {xs : List α} (h : ∀ x ∈ xs, key x ≠ n) : n ∉ xs.map key := by
  rw [List.mem_map]
  exact fun ⟨x, hx, hn⟩ => h x hx hn

theorem ne_of_not_mem_map {α : Type} {key : α → Nat} {n : Nat} {xs : List α} (h : n ∉ xs.map key) : ∀ x ∈ xs, key x ≠ n :=
  fun _ hx hn => h (hn ▸ List.mem_map_of_mem hx)

theorem holdsNone_destroyContext {s : State} {n : Nat} {c : Context} (h : s.ctx? n = some c) : HoldsNone (destroyContext s c) n := by
  obtain ⟨-, hctx, hqueues, hlaunches, hgrids, hblocks, -⟩ := destroyContext_gone h
  exact ⟨not_mem_map_of_ne ((ctx?_eq_none_iff _ _).mp hctx), not_mem_map_of_ne hqueues, not_mem_map_of_ne hlaunches,
    not_mem_map_of_ne hgrids, not_mem_map_of_ne hblocks⟩

/-- The context of an index is destroyed, if there is one. -/
def destroyIndex (s : State) (n : Nat) : State :=
  match s.ctx? n with
  | some x => destroyContext s x
  | none => s

theorem destroyIndex_some {s : State} {n : Nat} {c : Context} (h : s.ctx? n = some c) : destroyIndex s n = destroyContext s c := by
  rw [destroyIndex, h]

theorem destroyIndex_owners (s : State) (n : Nat) : OwnersKept s (destroyIndex s n) := by
  unfold destroyIndex
  split
  · exact destroyContext_owners ..
  · exact .refl s

theorem destroyIndex_others {s : State} {n m : Nat} (hn : n ≠ m) (h : n ∈ s.contexts.map (·.index)) :
    n ∈ (destroyIndex s m).contexts.map (·.index) := by
  unfold destroyIndex
  split
  case h_1 x hx => exact destroyContext_others (by rwa [State.ctx_index s m x hx]) h
  case h_2 => exact h

theorem holdsNone_destroyIndex {s : State} {n : Nat} (h : n ∈ s.contexts.map (·.index)) : HoldsNone (destroyIndex s n) n := by
  unfold destroyIndex
  split
  case h_1 x hx => exact holdsNone_destroyContext hx
  case h_2 hnone => exact absurd h (not_mem_map_of_ne ((ctx?_eq_none_iff _ _).mp hnone))

theorem foldl_destroyIndex {n : Nat} (cs : List Context) {s : State} (hcs : n ∈ cs.map (·.index)) (h : n ∈ s.contexts.map (·.index)) :
    HoldsNone (cs.foldl (fun s c => destroyIndex s c.index) s) n := by
  induction cs generalizing s with
  | nil => simp at hcs
  | cons c cs ih =>
    rw [List.foldl_cons]
    by_cases hn : n = c.index
    · subst hn
      exact (holdsNone_destroyIndex h).stays (OwnersKept.foldl (fun t x => destroyIndex_owners t x.index) cs _)
    · exact ih ((List.mem_cons.mp hcs).resolve_left hn) (destroyIndex_others hn h)

theorem resetFunction_eq (s : State) (fn : Nat) : resetFunction s fn =
    (s.contexts.filter fun c => fnOf s c.index == fn).foldl (fun s c => destroyIndex s c.index) s := rfl

theorem exec_functionReset {s : State} {fn : Nat} (hlow : 1 ≤ fn) (hhigh : fn ≤ 63) :
    exec (.functionLevelReset fn) s = .next (resetFunction s fn) := congrArg Host.Outcome.next (if_pos ⟨hlow, hhigh⟩)

theorem functionResets : FunctionResets := by
  refine fun s fn => ⟨fun h => ?_, fun hlow hhigh hbooted c before after hcontexts hothers hfn hindex => ?_, fun hlow hhigh => ?_⟩
  · by_cases hrange : 1 ≤ fn ∧ fn ≤ 63
    · have hnone : (s.contexts.filter fun c => fnOf s c.index == fn) = [] := by
        rw [List.filter_eq_nil_iff]
        intro c hc
        obtain h | h | h := h
        · omega
        · omega
        · simpa using h c hc
      rw [exec_functionReset hrange.1 hrange.2, resetFunction_eq, hnone]
      rfl
    · exact congrArg Host.Outcome.next (if_neg hrange)
  · have hbefore : ∀ x ∈ before, x.index ≠ c.index ∧ fnOf s x.index ≠ fn := fun x hx => hothers x (List.mem_append_left _ hx)
    have hafter : ∀ x ∈ after, x.index ≠ c.index ∧ fnOf s x.index ≠ fn := fun x hx => hothers x (List.mem_append_right _ hx)
    have hone : (s.contexts.filter fun c => fnOf s c.index == fn) = [c] := by
      have hb : (before.filter fun c => fnOf s c.index == fn) = [] := List.filter_eq_nil_iff.mpr fun x hx => by simpa using (hbefore x hx).2
      have ha : (after.filter fun c => fnOf s c.index == fn) = [] := List.filter_eq_nil_iff.mpr fun x hx => by simpa using (hafter x hx).2
      rw [hcontexts, List.filter_append, List.filter_cons, if_pos (by simpa using hfn), hb, ha]
      rfl
    have hfound : s.ctx? c.index = some c := by
      have hb : before.find? (fun x => x.index == c.index) = none := List.find?_eq_none.mpr fun x hx => by simpa using (hbefore x hx).1
      rw [State.ctx?, hcontexts, List.find?_append, hb, List.find?_cons, beq_self_eq_true]
      rfl
    have hreset := exec_functionReset (s := s) hlow hhigh
    rw [resetFunction_eq, hone, List.foldl_cons, List.foldl_nil, destroyIndex_some hfound] at hreset
    have hdestroy := exec_destroy_some hbooted hindex hfound
    generalize destroyContext s c = t at hreset hdestroy
    exact ⟨t, _, hreset, hdestroy, rfl, rfl⟩
  · refine ⟨_, exec_functionReset hlow hhigh, fun c hc hfn => ?_⟩
    have hlisted : c.index ∈ (s.contexts.filter fun c => fnOf s c.index == fn).map (·.index) :=
      List.mem_map_of_mem (List.mem_filter.mpr ⟨hc, by simpa using hfn⟩)
    have hgone := foldl_destroyIndex _ hlisted (List.mem_map_of_mem hc)
    rw [← resetFunction_eq] at hgone
    generalize resetFunction s fn = t at hgone ⊢
    obtain ⟨hcontexts, hqueues, hlaunches, hgrids, hblocks⟩ := hgone
    exact ⟨(ctx?_eq_none_iff _ _).mpr (ne_of_not_mem_map hcontexts), ne_of_not_mem_map hblocks, ne_of_not_mem_map hgrids,
      ne_of_not_mem_map hqueues, ne_of_not_mem_map hlaunches⟩

/-- Settles O54: each of its eight parts is a theorem above. A function level reset rests on what the destruction of a context leaves of the
others, a lost link on the threads and copies that it ends, and a test on what the host is told of UNITS and RETL. -/
theorem platformEvents : Obligations.PlatformEvents :=
  ⟨functionResets, resets, linksDown, flitReplays, peerAccesses, selfTests, attestation, storedBits⟩

end Sys2Proof.Machine
end

section
/-!
PROOFS. FLAGSET (R255, R278, R283): where the list of blocks holds two blocks of one identifier, the step makes them one, and a write
of the lost one counts as settled; the statement judges that write before the step.
-/

namespace Sys2Proof.Machine

/-- The bench's block, and a block that bears its identifier but another block identifier of R277. -/
def flagBlock : Block := benchBlock State.reset
def flagTwin : Block := { flagBlock with ident := 3 }

/-- An output queue of one tile of one granule. -/
def flagQueue : TileQueue := ⟨0, 0x80000000, 64, 1, 1, 1, [], []⟩
def flagLaunch : Launch := { benchLaunch with tileQueues := [flagQueue] }

/-- The tile lies on a checked page, and the tag of its granule says that block 3, the twin, wrote it last. -/
def flagState : State :=
  { benchState State.reset [] with
    turn := some (.block 2), launches := [flagLaunch], blocks := [flagBlock, flagTwin],
    hbm := writeBytes [] 0 (leBytes 8 (3 + 2 ^ 60)), cached := [⟨0, 1, 0x8000, 16, 0x20⟩] }

/-- Memory after a step. -/
def hbmAfter : Host.Outcome State Fault Refusal → Option Mem
  | .next t => some t.hbm
  | _ => none

/-- The step releases the granule (REL is bit 59 of its tag); of the state before it no granule is released, since the twin is live. -/
theorem flagset_hbm : hbmAfter (exec (.flagset 0 0) flagState) = some (writeBytes [] 0 (leBytes 8 (3 + 2 ^ 60 + 2 ^ 59))) ∧
    (releaseTile flagState benchContext flagBlock (flagQueue.base.toNat + 0 * flagQueue.tbytes) (flagQueue.tbytes / 64)).hbm =
      writeBytes [] 0 (leBytes 8 (3 + 2 ^ 60)) := by
  decide +kernel

/-- Refutes O34: in `flagState`, where two blocks bear one identifier, FLAGSET releases a granule that the state before the step does
not release; the clause for FLAGSET needs the blocks' identifiers to be distinct, as BMCAST's clause in O39 asks. -/
theorem not_tagAndTileWords : ¬ Obligations.TagAndTileWords := by
  rintro ⟨-, hflagset⟩
  obtain ⟨hreleased, -⟩ := hflagset 0 0 flagState flagBlock benchGrid benchContext flagLaunch ⟨rfl, by decide +kernel⟩
    (by decide +kernel) (by decide +kernel) (by decide +kernel)
  obtain ⟨t, hexec, -, -, -, -, hhbm⟩ := hreleased 0 flagQueue (by decide +kernel) (by decide +kernel) (by decide +kernel)
    (by decide +kernel)
  obtain ⟨hafter, hbefore⟩ := flagset_hbm
  rw [hexec] at hafter
  have hsame : t.hbm = writeBytes [] 0 (leBytes 8 (3 + 2 ^ 60)) := hhbm.trans hbefore
  rw [hbmAfter, hsame] at hafter
  exact absurd hafter (by decide +kernel)

end Sys2Proof.Machine
end

section
/-!
PROOFS. Words of the block sequencer on sync words: SYNCW, SWAIT and BPREF (R74 to R77, R143, R282).
-/

namespace Sys2Proof.Machine

/-! ### A word of the block sequencer (R237, R238) -/

/-- A word that names no condition register executes where the block has the turn. -/
theorem runSeqBlock_go {i : Instr} {s : State} {b : Block} (h : BlockTurn s b) (hs : staticLegal i = true) (k : Block → State) :
    runSeqBlock i s k = .next (k b) := by
  rw [runSeqBlock, withBlock, h.turn]
  dsimp only
  rw [h.here]
  dsimp only
  rw [seqBlock, hs]
  rfl

theorem limitFault_none {canon align allot rest : Bool} (hc : canon = false) (ha : align = false) (ho : allot = false)
    (hr : rest = false) : limitFault canon align allot rest = none := by
  rw [hc, ha, ho, hr]
  rfl

/-- The register of a sync word passes its checks (R74, R141). -/
theorem syncFits_checks {b : Block} {so : Dword} (h : syncFits b so.toNat) : syncMisaligned so = false ∧ syncOutside b so = false := by
  obtain ⟨halign, hinside⟩ := h
  exact ⟨by simp [syncMisaligned, halign], decide_eq_false (Nat.not_lt.mpr hinside)⟩

/-! ### SYNCW (R76) -/

theorem markWrite_frame (b : Block) (x : Accessor) (strong : Bool) (ranges : List (Nat × Nat)) :
    markWrite b x strong ranges = { b with
      tags := (markWrite b x strong ranges).tags, badWords := (markWrite b x strong ranges).badWords,
      seqStamps := (markWrite b x strong ranges).seqStamps } := by
  unfold markWrite stampSeq
  split <;> rfl

theorem writeSync_scratch (b : Block) (x : Accessor) (off : Nat) (w : SyncWord) :
    (writeSync b x off w).scratch = writeBytes b.scratch off (leBytes 8 (syncNat w)) := by
  rw [writeSync, markWrite_frame]

/-- What a sync word holds after a write does not depend on the writer. -/
theorem writeSync_reads {b : Block} (hwf : Memory.wf b.scratch = true) (x : Accessor) (off : Nat) {w : SyncWord} (hw : SyncSized w) :
    readSync (writeSync b x off w) off = w ∧ SameOutside b.scratch (writeSync b x off w).scratch off 8 := by
  let y : Accessor := { x with wrid := 0 }
  have hy : y.wrid ≠ wridSeq := Nat.zero_ne_add_one 21
  have hscratch : (writeSync b x off w).scratch = (writeSync b y off w).scratch := by rw [writeSync_scratch, writeSync_scratch]
  refine ⟨(readSync_congr hscratch off).trans (readSync_writeSync hy hwf off hw), ?_⟩
  have hout := putBytes_outside hy hwf off (leBytes 8 (syncNat w))
  rwa [leBytes_length, ← writeSync_eq, ← hscratch] at hout

theorem syncArm_sized {w : SyncWord} {t : Nat} (hw : SyncSized w) (ht : t < 2 ^ 20) : SyncSized (syncArm w t) := by
  unfold syncArm
  split
  · exact ⟨Nat.two_pow_pos 20, ht, hw.rsv⟩
  · exact ⟨hw.count, ht, hw.rsv⟩

theorem syncArm_idle {w : SyncWord} (h : w.armed = false) (t : Nat) : syncArm w t =
    if w.count = t then { w with target := t, gen := w.gen + 1, count := 0 } else { w with target := t, armed := true } := by
  rw [syncArm, ← h]

/-- The block after a SYNCW. -/
def syncedBlock (b : Block) (d : BitVec 5) (off t : Nat) : Block :=
  nextBlock (writeB (writeSync b (accessorSeq b) off (syncArm (readSync b off) t)) d (((readSync b off).gen + 1).setWidth 64))

theorem syncedBlock_frame (b : Block) (d : BitVec 5) (off t : Nat) : let x := syncedBlock b d off t
    x = { b with b := x.b, scratch := x.scratch, tags := x.tags, badWords := x.badWords, seqStamps := x.seqStamps,
                 pc := b.pc + 4, phase := .ready } := by
  intro x
  simp only [x, syncedBlock, nextBlock, writeB, writeSync]
  rw [markWrite_frame]

theorem writeSync_regs (b : Block) (x : Accessor) (off : Nat) (w : SyncWord) : (writeSync b x off w).b = b.b := by
  rw [writeSync, markWrite_frame]

theorem syncedBlock_regs {b : Block} (hb : b.b.length = 32) (d : BitVec 5) (off t : Nat) (m : Nat) :
    (syncedBlock b d off t).b.getD m 0 =
      if m = d.toNat then BitVec.ofNat 64 ((readSync b off).gen + 1).toNat else b.b.getD m 0 := by
  have hregs : (syncedBlock b d off t).b = b.b.set d.toNat (((readSync b off).gen + 1).setWidth 64) :=
    congrArg (fun l : List Dword => l.set d.toNat (((readSync b off).gen + 1).setWidth 64)) (writeSync_regs ..)
  rw [hregs, getD_set, hb, if_pos d.isLt, BitVec.ofNat_toNat]
  simp only [eq_comm (a := m)]

section
variable {s : State} {b : Block} {so t : Dword}

theorem syncwBlock_arms (hfit : syncFits b so.toNat) (hlow : 1 ≤ t.toNat) (hhigh : t.toNat < 2 ^ 20)
    (hidle : (readSync b so.toNat).armed = false) (hcount : (readSync b so.toNat).count ≤ t.toNat) (d : BitVec 5) :
    syncwBlock s b d so t = s.putBlock (syncedBlock b d so.toNat t.toNat) := by
  obtain ⟨halign, hinside⟩ := syncFits_checks hfit
  have hrest : (t.toNat == 0 || decide (syncLimit < t.toNat)) = false := by
    rw [Bool.or_eq_false_iff, beq_eq_false_iff_ne, decide_eq_false_iff_not]
    exact ⟨Nat.ne_of_gt hlow, Nat.not_lt.mpr (Nat.le_of_lt_succ hhigh)⟩
  rw [syncwBlock, limitFault_none rfl halign hinside hrest]
  dsimp only
  rw [hidle, Bool.false_or, if_neg (by simpa using hcount)]
  rfl

theorem syncwBlock_faults (hfit : syncFits b so.toNat) (hbad : t.toNat = 0 ∨ 2 ^ 20 ≤ t.toNat ∨ (readSync b so.toNat).armed = true ∨
    t.toNat < (readSync b so.toNat).count) (d : BitVec 5) : syncwBlock s b d so t = haltBlock s b 6 0 [] := by
  obtain ⟨halign, hinside⟩ := syncFits_checks hfit
  rw [syncwBlock, halign, hinside]
  by_cases hrest : (t.toNat == 0 || decide (syncLimit < t.toNat)) = true
  · rw [hrest]
    rfl
  · have hin : ¬ (t.toNat = 0 ∨ 2 ^ 20 ≤ t.toNat) := by
      rwa [Bool.or_eq_true, beq_iff_eq, decide_eq_true_iff] at hrest
    have hword : ((readSync b so.toNat).armed || decide (t.toNat < (readSync b so.toNat).count)) = true := by
      rw [Bool.or_eq_true, decide_eq_true_iff]
      exact (or_assoc.mpr hbad).resolve_left hin
    rw [Bool.not_eq_true] at hrest
    rw [hrest]
    exact if_pos hword

end

theorem syncArming : SyncArming := by
  intro d a x s b h hsized hwf off n old hfit
  have hexec : exec (.syncw d a x) s = .next (syncwBlock s b d (b.b.getD a.toNat 0) (b.b.getD x.toNat 0)) :=
    runSeqBlock_go h rfl _
  refine ⟨fun hlow hhigh hidle hcount => ?_, fun hbad => ?_⟩
  · rw [syncwBlock_arms hfit hlow hhigh hidle hcount] at hexec
    have hframe := syncedBlock_frame b d off n
    have hregs := syncedBlock_regs hsized.regs d off n
    obtain ⟨hword, hout⟩ := writeSync_reads hwf (accessorSeq b) off (syncArm_sized (readSync_sized b off) hhigh)
    have hscratch : (syncedBlock b d off n).scratch = (writeSync b (accessorSeq b) off (syncArm old n)).scratch := rfl
    generalize syncedBlock b d off n = y at hexec hframe hregs hscratch
    have hid : y.id = b.id := by rw [hframe]
    have hread : readSync y off = _ := (readSync_congr hscratch off).trans (hword.trans (syncArm_idle hidle n))
    rw [← hscratch] at hout
    exact ⟨_, y, hexec, putBlock_blockStep h.here hid, hframe, fun m _ => hregs m, hread, hout⟩
  · rw [hexec, syncwBlock_faults hfit hbad]

/-! ### Ranges that an SWAIT acquires (R77, R282) -/

theorem restampRange_frame (b : Block) (r : ArmedRange) : restampRange b r =
    { b with tags := (restampRange b r).tags, seqStamps := (restampRange b r).seqStamps } := by
  unfold restampRange restamp stampSeq
  split
  · split <;> rfl
  · rfl

theorem foldl_restampRange_frame (rs : List ArmedRange) (b : Block) : rs.foldl restampRange b =
    { b with tags := (rs.foldl restampRange b).tags, seqStamps := (rs.foldl restampRange b).seqStamps } := by
  induction rs generalizing b with
  | nil => rfl
  | cons r rs ih =>
    rw [List.foldl_cons, ih, restampRange_frame]

/-- A key that is not set reads as before, whatever the map's form. -/
theorem mapGet_mapSet_ne {α : Type} [DecidableEq α] (d v : α) {k j : Nat} (h : j ≠ k) (m : SMap α) :
    mapGet d (mapSet d m k v) j = mapGet d m j := by
  have hk : k ≠ j := h.symm
  induction m with
  | nil =>
    rw [mapSet]
    split
    · rfl
    · simp [mapGet, hk]
  | cons q rest ih =>
    obtain ⟨i, x⟩ := q
    rw [mapSet]
    split
    · split
      · rfl
      · simp [mapGet, hk]
    · split
      · next hki =>
        subst hki
        split
        · simp [mapGet, hk]
        · simp [mapGet, hk]
      · rw [mapGet, mapGet, ih]

theorem mapGet_foldl_mapSet_ne {α : Type} [DecidableEq α] (d : α) (f : SMap α → Nat → α) {ks : List Nat} {j : Nat} (h : j ∉ ks)
    (m : SMap α) : mapGet d (ks.foldl (fun m k => mapSet d m k (f m k)) m) j = mapGet d m j := by
  induction ks generalizing m with
  | nil => rfl
  | cons k ks ih =>
    rw [List.mem_cons, not_or] at h
    rw [List.foldl_cons, ih h.2, mapGet_mapSet_ne _ _ h.1]

theorem restampRange_tags {b : Block} {r : ArmedRange} {z : Nat}
    (h : r.write = true → r.glob = false → z ∉ wordsOf r.lo (r.hi - r.lo)) :
    mapGet 0 (restampRange b r).tags z = mapGet 0 b.tags z := by
  unfold restampRange
  split
  · next hr =>
    rw [Bool.and_eq_true, Bool.not_eq_true'] at hr
    exact mapGet_foldl_mapSet_ne 0 (fun _ _ => scratchWritten wridSeq b.clock.count) (h hr.1 hr.2) b.tags
  · rfl

theorem foldl_restampRange_tags {rs : List ArmedRange} {z : Nat}
    (h : ∀ r ∈ rs, r.write = true → r.glob = false → z ∉ wordsOf r.lo (r.hi - r.lo)) (b : Block) :
    mapGet 0 (rs.foldl restampRange b).tags z = mapGet 0 b.tags z := by
  induction rs generalizing b with
  | nil => rfl
  | cons r rs ih =>
    rw [List.foldl_cons, ih (fun q hq => h q (List.mem_cons_of_mem _ hq)), restampRange_tags (h r List.mem_cons_self)]

/-- What restamping granules of checked pages changes: memory, and the stamps of the block's own writes. -/
structure Restamped (s t : State) (id : Nat) : Prop where
  rest   : t = { s with blocks := t.blocks, hbm := t.hbm }
  others : OtherBlocks s t id
  here   : ∀ b, s.block? id = some b → ∃ m, t.block? id = some { b with seqGlobal := m }

theorem Restamped.refl (s : State) (id : Nat) : Restamped s s id := ⟨rfl, fun _ _ => rfl, fun b h => ⟨b.seqGlobal, h⟩⟩

theorem Restamped.trans {s t u : State} {id : Nat} (h : Restamped s t id) (k : Restamped t u id) : Restamped s u id where
  rest := by rw [k.rest, h.rest]
  others j hj := (k.others j hj).trans (h.others j hj)
  here b hb := by
    obtain ⟨m, hm⟩ := h.here b hb
    obtain ⟨n, hn⟩ := k.here _ hm
    exact ⟨n, hn⟩

theorem Restamped.foldl {α : Type} {id : Nat} {f : State → α → State} (h : ∀ s x, Restamped s (f s x) id) (xs : List α)
    (s : State) :
    Restamped s (xs.foldl f s) id := by
  induction xs generalizing s with
  | nil => exact Restamped.refl s id
  | cons x xs ih => exact (h s x).trans (ih (f s x))

theorem writeTag_restamped (s : State) (pa : Nat) (t : Dword) (id : Nat) : Restamped s (writeTag s pa t) id :=
  ⟨rfl, fun _ _ => rfl, fun b h => ⟨b.seqGlobal, h⟩⟩

theorem stampGlobal_restamped (s : State) (id : Nat) (gs : List Nat) : Restamped s (stampGlobal s id gs) id := by
  unfold stampGlobal
  cases hb : s.block? id with
  | none => exact Restamped.refl s id
  | some b =>
    obtain rfl := s.block_id id b hb
    exact ⟨rfl, putBlock_others s rfl, fun x hx => ⟨_, by
      obtain rfl := Option.some.inj (hb.symm.trans hx)
      exact State.putBlock_block_same s _ b.id b rfl hb⟩⟩

theorem restampGlobal_restamped (s : State) (b : Block) (lo n : Nat) : Restamped s (restampGlobal s b lo n) b.id := by
  unfold restampGlobal
  split
  · exact Restamped.refl s b.id
  · refine Restamped.foldl (fun t va => ?_) _ s
    split
    · dsimp only
      split
      · exact (writeTag_restamped t _ _ b.id).trans (stampGlobal_restamped _ b.id _)
      · exact Restamped.refl t b.id
    · exact Restamped.refl t b.id

/-- The block itself once a wait has acquired some ranges. -/
def releasedBlock (b : Block) (gone : ArmedRange → Bool) : Block :=
  let b1 := (b.armed.filter gone).foldl restampRange { b with armed := b.armed.filter fun r => !gone r }
  if b1.armed.isEmpty then { b1 with joins := [] } else b1

theorem releasedBlock_frame (b : Block) (gone : ArmedRange → Bool) : let x := releasedBlock b gone
    x = { b with armed := b.armed.filter fun r => !gone r, tags := x.tags, seqStamps := x.seqStamps,
                 joins := if (b.armed.filter fun r => !gone r) = [] then [] else b.joins } := by
  intro x
  simp only [x, releasedBlock]
  rw [foldl_restampRange_frame]
  simp only [List.isEmpty_iff]
  split <;> rfl

theorem releasedBlock_tags {b : Block} {gone : ArmedRange → Bool} {z : Nat}
    (h : ∀ r ∈ b.armed, gone r = true → r.write = true → r.glob = false → z ∉ wordsOf r.lo (r.hi - r.lo)) :
    mapGet 0 (releasedBlock b gone).tags z = mapGet 0 b.tags z := by
  have hfold := foldl_restampRange_tags (rs := b.armed.filter gone) (z := z)
    (fun r hr => h r (List.mem_filter.mp hr).1 (List.mem_filter.mp hr).2) { b with armed := b.armed.filter fun r => !gone r }
  unfold releasedBlock
  dsimp only
  split <;> exact hfold

theorem disarmRanges_eq (s : State) (b : Block) (gone : ArmedRange → Bool) : disarmRanges s b gone =
    ((b.armed.filter gone).filter fun r => r.glob && r.write).foldl (fun s r => restampGlobal s b r.lo (r.hi - r.lo))
      (s.putBlock (releasedBlock b gone)) := rfl

/-- What a completed wait disarms: the block's ranges, and, where a range of global bytes is among them, tags in memory. -/
theorem disarmRanges_law (s : State) (b : Block) (gone : ArmedRange → Bool) :
    Restamped (s.putBlock (releasedBlock b gone)) (disarmRanges s b gone) b.id ∧
    ((∀ r ∈ b.armed, gone r = true → r.glob = false) → (disarmRanges s b gone).hbm = s.hbm) := by
  rw [disarmRanges_eq]
  refine ⟨Restamped.foldl (fun t r => restampGlobal_restamped t b _ _) _ _, fun hlocal => ?_⟩
  have hnone : (b.armed.filter gone).filter (fun r => r.glob && r.write) = [] := by
    rw [List.filter_eq_nil_iff]
    intro r hr
    obtain ⟨hmem, hgone⟩ := List.mem_filter.mp hr
    simp [hlocal r hmem hgone]
  rw [hnone]
  rfl

/-! ### SWAIT and BPREF (R77, R143) -/

theorem genReached_iff (x g : BitVec 16) : genReached x g = true ↔ (x - g).toNat < 2 ^ 15 := decide_eq_true_iff

theorem swaitDisarms_iff (off : Nat) (g : BitVec 16) (r : ArmedRange) : swaitDisarms off g r = true ↔
    r.sync = some off ∧ ∃ k, r.lastGen = some k ∧ (g - k).toNat < 2 ^ 15 := by
  unfold swaitDisarms
  rw [Bool.and_eq_true, beq_iff_eq]
  refine and_congr_right fun _ => ?_
  cases r.lastGen with
  | none => simp
  | some k => simp [genReached_iff]

/-- The block at an SWAIT that goes on: it has read the sync word. -/
def sawSync (s : State) (b : Block) (off : Nat) : Block := nextBlock (markRead s b (accessorSeq b) (wordsOf off 8))

theorem swaitBlock_eq {s : State} {b : Block} {so : Dword} (hfit : syncFits b so.toNat) (g : Dword) : swaitBlock s b so g =
    if genReached (readSync b so.toNat).gen (g.setWidth 16) then
      disarmRanges s (sawSync s b so.toNat) (swaitDisarms so.toNat (g.setWidth 16))
    else holdBlock s b (.sync so.toNat) := by
  obtain ⟨halign, hinside⟩ := syncFits_checks hfit
  rw [swaitBlock, limitFault_none rfl halign hinside rfl]
  dsimp only
  cases genReached (readSync b so.toNat).gen (g.setWidth 16) <;> rfl

theorem sawSync_tags (s : State) (b : Block) {off z : Nat} (hz : z ∉ wordsOf off 8) :
    mapGet 0 (sawSync s b off).tags z = mapGet 0 b.tags z :=
  mapGet_foldl_mapSet_ne 0 (fun m i => scratchRead b (s.wavesOf b.id) (accessorSeq b) (mapGet 0 m i)) hz b.tags

theorem syncWaits : SyncWaits := by
  constructor
  · intro a x s b h off g hfit
    have hexec : exec (.swait a x) s = .next (swaitBlock s b (b.b.getD a.toNat 0) (b.b.getD x.toNat 0)) := runSeqBlock_go h rfl _
    have hg : g = (b.b.getD x.toNat 0).setWidth 16 := BitVec.ofNat_toNat 16 _
    rw [swaitBlock_eq hfit, ← hg] at hexec
    refine ⟨fun hlate => ?_, fun hreached => ?_⟩
    · rw [hexec, if_neg (by rw [genReached_iff]; exact Nat.not_lt.mpr hlate)]
    · intro acquired
      rw [if_pos ((genReached_iff _ _).mpr hreached)] at hexec
      obtain ⟨hrestamped, hhbm⟩ := disarmRanges_law s (sawSync s b off) (swaitDisarms off g)
      have hframe := releasedBlock_frame (sawSync s b off) (swaitDisarms off g)
      have htags := fun z => releasedBlock_tags (b := sawSync s b off) (gone := swaitDisarms off g) (z := z)
      generalize releasedBlock (sawSync s b off) (swaitDisarms off g) = y at hrestamped hframe htags
      have hid : y.id = b.id := by rw [hframe]; rfl
      obtain ⟨m, hm⟩ := hrestamped.here y (State.putBlock_block_same s y b.id b hid h.here)
      refine ⟨_, _, hexec, hm, fun j hj => ?_, ?_, fun hlocal => ?_, ?_, fun r => ?_, fun z hz hout => ?_⟩
      · exact (hrestamped.others j hj).trans (putBlock_others s hid j hj)
      · rw [hrestamped.rest]
        rfl
      · exact hhbm fun r hr hgone => hlocal r hr ((swaitDisarms_iff ..).mp hgone)
      · rw [hframe]
        rfl
      · have harmed : r ∈ y.armed ↔ r ∈ b.armed.filter fun r => !swaitDisarms off g r := by rw [hframe]; rfl
        rw [show ({ y with seqGlobal := m } : Block).armed = y.armed from rfl, harmed, List.mem_filter, Bool.not_eq_true',
          ← Bool.not_eq_true, swaitDisarms_iff]
      · exact (htags z fun r hr hgone => hout r hr ((swaitDisarms_iff ..).mp hgone)).trans (sawSync_tags s b hz)
  · intro a x s b h
    exact ⟨_, runSeqBlock_go h rfl _, putBlock_blockStep h.here rfl⟩

/-- Settles O36: SYNCW writes one sync word and a register, SWAIT holds or disarms what it acquires. -/
theorem syncWords : Obligations.SyncWords := ⟨syncArming, syncWaits⟩

end Sys2Proof.Machine
end

section
/-!
PROOFS. Commands of the copy, gather, collective and sort queues at their issue (R71, R78, R80, R84, R86, R87, R140, R141, R183, R205,
R207).
-/

namespace Sys2Proof.Machine

/-! ### Entering a queue (R183, R191, R234) -/

/-- The percentage that a command keeps: QSCALE's is the block's at its issue (R87). -/
def issuedQpct (i : Instr) (b : Block) : BitVec 11 := if i matches .qscale .. then b.qpct else 0

/-- A command as its issue step makes it. -/
structure IssuedCommand (i : Instr) (b : Block) (k : Issued) (x : Command) : Prop where
  instr   : x.instr = i
  d       : x.d = k.d
  a       : x.a = k.a
  v       : x.b = k.v
  sync    : x.sync = k.sync
  serial  : x.serial = b.issued
  started : x.started = false
  done    : x.done = 0
  qpct    : x.qpct = issuedQpct i b
  know    : x.know = b.clock.know
  count   : x.count = b.clock.count
  epoch   : x.epoch = b.epochSeen

/-- The ranges that a command outside the matrix queue arms. -/
def issuedRanges (b : Block) (k : Issued) : List ArmedRange :=
  k.ranges.map (fun r => ⟨b.id, b.issued, k.queue, r.2.1, r.2.1 + r.2.2, r.1, false, some k.sync, none⟩) ++
  k.glob.map (fun r => ⟨b.id, b.issued, k.queue, r.1, r.1 + r.2, true, true, some k.sync, none⟩)

/-- The state that a command leaves as it enters its queue. -/
def entering (s : State) (b : Block) (k : Issued) (x : Command) : State :=
  if k.clears then enterClearing s b k.queue x (issuedRanges b k) else enterQueue s b k.queue x (issuedRanges b k)

/-- The block once a command has entered its queue. -/
def enteredBlock (b : Block) (k : Issued) (x : Command) : Block :=
  { b with queues := b.queues.set (queueBit k.queue) (queueOf b k.queue ++ [x]), issued := b.issued + 1, pc := b.pc + 4,
           phase := .ready, idem := b.idem && !k.clears, armed := b.armed ++ issuedRanges b k }

theorem entering_full {b : Block} {k : Issued} (h : 32 ≤ (queueOf b k.queue).length) (s : State) (x : Command) :
    entering s b k x = holdBlock s b .queueFull := by
  have hfull : queueLimit ≤ (queueOf b k.queue).length := h
  rw [entering, enterClearing, if_pos hfull, enterQueue, if_pos hfull, ite_self]

theorem entering_room {b : Block} {k : Issued} (h : (queueOf b k.queue).length < 32) (s : State) (x : Command) :
    entering s b k x = s.putBlock (enteredBlock b k x) := by
  have hroom : ¬ queueLimit ≤ (queueOf b k.queue).length := Nat.not_le.mpr h
  have hclear : ∀ v : Bool, ¬ queueLimit ≤ (queueOf { b with idem := v } k.queue).length := fun _ => hroom
  cases hclears : k.clears with
  | false =>
    rw [entering, hclears, if_neg Bool.false_ne_true, enterQueue, if_neg hroom, enteredBlock, hclears, Bool.not_false, Bool.and_true]
    rfl
  | true =>
    rw [entering, hclears, if_pos rfl, enterClearing, if_neg hroom, enterQueue, if_neg (hclear false), enteredBlock, hclears,
      Bool.not_true, Bool.and_false]
    rfl

/-- A word outside the matrix queue issues as `Issues` says where, its operands in order, the step makes one command and enters it. -/
theorem issues_of_entering {i : Instr} {c : State → Block → Issued} (hb : ∀ s b, (c s b).batch = false)
    (hc : ∀ s b, (c s b).counts = false)
    (h : ∀ s b, BlockTurn s b → staticLegal i = true → (c s b).ok →
      ∃ x, IssuedCommand i b (c s b) x ∧ exec i s = .next (entering s b (c s b) x)) : Issues i c := by
  intro s b hturn hsized hs hok q
  obtain ⟨x, hx, hexec⟩ := h s b hturn hs hok
  refine ⟨fun hfull => ?_, fun hroom => ?_⟩
  · rw [entering_full hfull] at hexec
    exact ⟨_, hexec, putBlock_blockStep hturn.here rfl⟩
  · rw [entering_room hroom] at hexec
    have hqueue : ∀ p, queueOf (enteredBlock b (c s b) x) p = if p = q then queueOf b q ++ [x] else queueOf b p :=
      fun p => queueOf_setQueue hsized.queues q p _
    refine ⟨_, enteredBlock b (c s b) x, x, hexec, putBlock_blockStep hturn.here rfl, (hqueue q).trans (if_pos rfl),
      fun p hp => (hqueue p).trans (if_neg hp), hx.instr, hx.d, hx.a, hx.v, hx.sync, hx.serial, hx.started, hx.done, hx.qpct, hx.know,
      hx.count, hx.epoch, ?_⟩
    rw [hb, hc, if_neg Bool.false_ne_true, if_neg Bool.false_ne_true, if_neg Bool.false_ne_true, List.append_assoc]
    rfl

theorem bit_zero_or_one : ∀ x : BitVec 1, x = 0 ∨ x = 1 := by decide

theorem badLength_false {n : Nat} (h : lengthOk n) : badLength n = false := by
  obtain ⟨hn, hlow, hhigh⟩ := h
  simp only [badLength, Bool.or_eq_false_iff, bne_eq_false_iff_eq, decide_eq_false_iff_not, Nat.not_lt]
  exact ⟨⟨hn, hlow⟩, hhigh⟩

/-! ### The copy queue (R71, R78, R86, R87) -/

theorem bcopy_issues (d a x : BitVec 5) (out : BitVec 1) (w : BitVec 5) :
    Issues (.bcopy d a x out w) (fun _ => bcopyIssue d a x out w) := by
  refine issues_of_entering (fun _ _ => rfl) (fun _ _ => rfl) fun s b h hs hok => ?_
  obtain ⟨hcanon, hd, ha, hsync, hlen, hin, hzero⟩ := hok
  obtain ⟨halign, hinside⟩ := syncFits_checks hsync
  refine ⟨newCommand s b (.bcopy d a x out w) (breg b d) (breg b a) (breg b x) (breg b w).toNat,
    ⟨rfl, rfl, rfl, rfl, rfl, rfl, rfl, rfl, rfl, rfl, rfl, rfl⟩, (runSeqBlock_go h hs _).trans (congrArg _ ?_)⟩
  show bcopyBlock s b _ (breg b d) (breg b a) (breg b x) (breg b w) (out == 1) = _
  rw [bcopyBlock, limitFault_none]
  · obtain rfl | rfl := bit_zero_or_one out <;> rfl
  · rw [hcanon]; rfl
  · rw [hd, ha, halign]; rfl
  · rw [hinside, Bool.or_false]
    exact decide_eq_false (Nat.not_lt.mpr hin)
  · rw [Nat.div_eq_of_lt hzero]
    exact badLength_false hlen

theorem hist_issues (d a x w : BitVec 5) : Issues (.hist d a x w) (fun _ => histIssue d a x w) := by
  refine issues_of_entering (fun _ _ => rfl) (fun _ _ => rfl) fun s b h hs hok => ?_
  obtain ⟨hd, ha, hsync, hlow, hhigh, hdest, hsource⟩ := hok
  obtain ⟨halign, hinside⟩ := syncFits_checks hsync
  have hsmall : (breg b x).toNat < 2 ^ 18 := Nat.lt_of_le_of_lt hhigh (by decide)
  have hn : bitsAt (breg b x) 0 18 = (breg b x).toNat := by rw [bitsAt, Nat.pow_zero, Nat.div_one, Nat.mod_eq_of_lt hsmall]
  refine ⟨newCommand s b (.hist d a x w) (breg b d) (breg b a) (breg b x) (breg b w).toNat,
    ⟨rfl, rfl, rfl, rfl, rfl, rfl, rfl, rfl, rfl, rfl, rfl, rfl⟩, (runSeqBlock_go h hs _).trans (congrArg _ ?_)⟩
  show histBlock s b _ (breg b d) (breg b a) (breg b x) (breg b w) = _
  rw [histBlock, hn, limitFault_none]
  · rfl
  · rfl
  · rw [hd, ha, halign]; rfl
  · rw [hinside, Bool.or_false, Bool.or_eq_false_iff]
    exact ⟨decide_eq_false (Nat.not_lt.mpr hdest), decide_eq_false (Nat.not_lt.mpr hsource)⟩
  · rw [Nat.div_eq_of_lt hsmall, decide_eq_false (Nat.not_lt.mpr hhigh), Bool.or_false]
    exact beq_false_of_ne (Nat.ne_of_gt hlow)

theorem packedBytes_scales (n : Nat) : packedBytes 7 0 n = n / 2 + n / 8 + n / 32 := rfl

theorem qscale_issues (d a x w : BitVec 5) : Issues (.qscale d a x w) (fun _ => qscaleIssue d a x w) := by
  refine issues_of_entering (fun _ _ => rfl) (fun _ _ => rfl) fun s b h hs hok => ?_
  obtain ⟨hd, ha, hr, hsync, hn, hlow, hhigh, hdest, hsource, hrecord, hzero17, hzero51, hzero55⟩ := hok
  obtain ⟨halign, hinside⟩ := syncFits_checks hsync
  refine ⟨{ newCommand s b (.qscale d a x w) (breg b d) (breg b a) (breg b x) (breg b w).toNat with qpct := b.qpct },
    ⟨rfl, rfl, rfl, rfl, rfl, rfl, rfl, rfl, rfl, rfl, rfl, rfl⟩, (runSeqBlock_go h hs _).trans (congrArg _ ?_)⟩
  show qscaleBlock s b _ (breg b d) (breg b a) (breg b x) (breg b w) = _
  rw [qscaleBlock, limitFault_none]
  · rfl
  · rfl
  · rw [hd, ha, show qscaleRecord (breg b x) % 16 = 0 from hr, halign]; rfl
  · simp only [hinside, Bool.or_false, Bool.or_eq_false_iff, decide_eq_false_iff_not, Nat.not_lt]
    exact ⟨⟨hdest, hsource⟩, hrecord⟩
  · simp only [Bool.or_eq_false_iff, bne_eq_false_iff_eq, decide_eq_false_iff_not, Nat.not_lt]
    exact ⟨⟨⟨⟨⟨hzero17, hzero51⟩, hzero55⟩, hn⟩, hlow⟩, hhigh⟩

/-! ### The gather and collective queues (R71, R80, R84) -/

theorem gath_issues (d a x w : BitVec 5) : Issues (.gath d a x w) (fun _ => gathIssue d a x w) := by
  refine issues_of_entering (fun _ _ => rfl) (fun _ _ => rfl) fun s b h hs hok => ?_
  obtain ⟨hcanon, hd, ha, hl, hsync, hm, hmhigh, hn, hnlow, hnhigh, hdest, hlist, hzero19, hzero45, hzero61⟩ := hok
  obtain ⟨halign, hinside⟩ := syncFits_checks hsync
  refine ⟨newCommand s b (.gath d a x w) (breg b d) (breg b a) (breg b x) (breg b w).toNat,
    ⟨rfl, rfl, rfl, rfl, rfl, rfl, rfl, rfl, rfl, rfl, rfl, rfl⟩, (runSeqBlock_go h hs _).trans (congrArg _ ?_)⟩
  show gathBlock s b _ (breg b d) (breg b a) (breg b x) (breg b w) = _
  rw [gathBlock, limitFault_none]
  · rfl
  · rw [hcanon]; rfl
  · rw [hd, ha, show gathIndex (breg b x) % 4 = 0 from hl, halign]; rfl
  · simp only [hinside, Bool.or_false, Bool.or_eq_false_iff, decide_eq_false_iff_not, Nat.not_lt]
    exact ⟨hdest, hlist⟩
  · simp only [Bool.or_eq_false_iff, bne_eq_false_iff_eq, beq_eq_false_iff_ne, decide_eq_false_iff_not, Nat.not_lt]
    exact ⟨⟨⟨⟨⟨⟨⟨hzero19, hzero45⟩, hzero61⟩, Nat.ne_of_gt hm⟩, hmhigh⟩, hn⟩, hnlow⟩, hnhigh⟩

theorem coll_issues (d a x w : BitVec 5) : Issues (.coll d a x w) fun s => collIssue s d a x w := by
  refine issues_of_entering (fun _ _ => rfl) (fun _ _ => rfl) fun s b h hs hok => ?_
  obtain ⟨hgroup, hd, ha, hsync, hn, hlow, hhigh, hdest, hsource, htype, hzero17, hzero44⟩ := hok
  obtain ⟨halign, hinside⟩ := syncFits_checks hsync
  obtain ⟨⟨rank, mods⟩, hmods⟩ := Option.isSome_iff_exists.mp hgroup
  have hgrp : peerGroup s b.ctx (collGroup (breg b x)) = some (rank, mods) := hmods
  refine ⟨{ newCommand s b (.coll d a x w) (breg b d) (breg b a) (breg b x) (breg b w).toNat with work := rank :: mods },
    ⟨rfl, rfl, rfl, rfl, rfl, rfl, rfl, rfl, rfl, rfl, rfl, rfl⟩, (runSeqBlock_go h hs _).trans (congrArg _ ?_)⟩
  show collBlock s b _ (breg b d) (breg b a) (breg b x) (breg b w) = _
  rw [hmods] at hdest
  rw [collBlock, hgrp, limitFault_none, entering, issuedRanges, collIssue]
  · dsimp only
    rw [hmods]
    rfl
  · rfl
  · rw [hd, ha, halign]; rfl
  · simp only [hinside, Bool.or_false, Bool.or_eq_false_iff, decide_eq_false_iff_not, Nat.not_lt]
    exact ⟨hdest, hsource⟩
  · simp only [Bool.or_eq_false_iff, bne_eq_false_iff_eq, beq_eq_false_iff_ne, decide_eq_false_iff_not, Nat.not_lt]
    exact ⟨⟨⟨⟨⟨⟨hzero17, hzero44⟩, htype⟩, rfl⟩, hn⟩, hlow⟩, hhigh⟩

/-! ### The sort queue (R205 to R208) -/

theorem getLsbD_of_field {v : Dword} {n : Nat} (h : field v n 1 = 0) : v.getLsbD n = false := by
  rw [BitVec.getLsbD, Nat.testBit_eq_decide_div_mod_eq, decide_eq_false_iff_not]
  exact fun hone => Nat.one_ne_zero (hone.symm.trans h)

theorem shapeZeros_true {v : Dword} {store : Bool} (h7 : field v 7 1 = 0) (h15 : field v 15 1 = 0) (h23 : field v 23 1 = 0)
    (hv : v.toNat < if store then 2 ^ 26 else 2 ^ 24) : shapeZeros v store = true := by
  have hhigh : v.toNat / 2 ^ (if store then 26 else 24) = 0 := Nat.div_eq_of_lt (by cases store <;> exact hv)
  rw [shapeZeros, getLsbD_of_field h7, getLsbD_of_field h15, getLsbD_of_field h23, hhigh]
  rfl

theorem issuedRanges_transfer (store : Bool) (a x w : BitVec 5) (b : Block) : issuedRanges b (transferIssue store a x w b) =
    ((List.range (shapeRows (breg b x))).map (transferRow (breg b a) (breg b x))).map fun q =>
      armedRange b .sort (some (breg b w).toNat) store q.1 q.2 := by
  rw [issuedRanges, transferIssue]
  simp only [List.map_map, List.map_nil, List.append_nil]
  rfl

/-- The body of SRTLD and of SRTST. -/
theorem sortTransferBlock_enters {i : Instr} {s : State} {b : Block} {store : Bool} {a x w : BitVec 5}
    (hok : (transferIssue store a x w b).ok) : sortTransferBlock s b i (breg b a) (breg b x) (breg b w) store =
      entering s b (transferIssue store a x w b) (newCommand s b i 0 (breg b a) (breg b x) (breg b w).toNat) := by
  obtain ⟨⟨hoff, hstride, hzero19, hzero51⟩, hsync, hrows, hfit, h7, h15, h23, hv⟩ := hok
  obtain ⟨halign, hinside⟩ := syncFits_checks hsync
  have hin : insideAllotment b ((List.range (shapeRows (breg b x))).map (transferRow (breg b a) (breg b x))) = true := by
    rw [insideAllotment, List.all_map, List.all_eq_true]
    exact fun q hq => decide_eq_true (hrows q (List.mem_range.mp hq))
  rw [sortTransferBlock, limitFault_none]
  · dsimp only
    rw [entering, issuedRanges_transfer]
    rfl
  · rfl
  · rw [show opndOff (breg b a) % 16 = 0 from hoff, show opndStride (breg b a) % 16 = 0 from hstride, halign]; rfl
  · rw [hin, hinside]; rfl
  · rw [shapeZeros_true h7 h15 h23 hv, opndZeros, show bitsAt (breg b a) 19 13 = 0 from hzero19,
      show bitsAt (breg b a) 51 13 = 0 from hzero51]
    exact decide_eq_false (Nat.not_lt.mpr hfit)

theorem srtld_issues (a x w : BitVec 5) : Issues (.srtld a x w) (fun _ => transferIssue false a x w) :=
  issues_of_entering (fun _ _ => rfl) (fun _ _ => rfl) fun s b h hs hok =>
    ⟨newCommand s b (.srtld a x w) 0 (breg b a) (breg b x) (breg b w).toNat,
      ⟨rfl, rfl, rfl, rfl, rfl, rfl, rfl, rfl, rfl, rfl, rfl, rfl⟩,
      (runSeqBlock_go h hs _).trans (congrArg _ (sortTransferBlock_enters hok))⟩

theorem srtst_issues (a x w : BitVec 5) : Issues (.srtst a x w) (fun _ => transferIssue true a x w) :=
  issues_of_entering (fun _ _ => rfl) (fun _ _ => rfl) fun s b h hs hok =>
    ⟨newCommand s b (.srtst a x w) 0 (breg b a) (breg b x) (breg b w).toNat,
      ⟨rfl, rfl, rfl, rfl, rfl, rfl, rfl, rfl, rfl, rfl, rfl, rfl⟩,
      (runSeqBlock_go h hs _).trans (congrArg _ (sortTransferBlock_enters hok))⟩

theorem srtgo_issues (a : BitVec 5) (o e l : BitVec 1) (k : BitVec 3) : Issues (.srtgo a o e l k) fun _ b =>
    { queue := .sort, d := 0, a := breg b a, v := 0, sync := 0, ok := (breg b a).toNat < 2 ^ 15 ∧ field (breg b a) 7 1 = 0,
      ranges := [], glob := [], clears := false, batch := false, counts := false } := by
  refine issues_of_entering (fun _ _ => rfl) (fun _ _ => rfl) fun s b h hs ⟨hsmall, h7⟩ => ?_
  refine ⟨{ newCommand s b (.srtgo a o e l k) 0 (breg b a) 0 0 with step := 0 },
    ⟨rfl, rfl, rfl, rfl, rfl, rfl, rfl, rfl, rfl, rfl, rfl, rfl⟩, (runSeqBlock_go h hs _).trans (congrArg _ ?_)⟩
  show srtgoBlock s b _ (breg b a) = _
  rw [srtgoBlock, getLsbD_of_field h7, Nat.div_eq_of_lt hsmall]
  rfl

/-- Settles O37: each command whose operands meet their limits enters its queue with their values, or is held by a full one. -/
theorem engineIssue : Obligations.EngineIssue :=
  ⟨bcopy_issues, gath_issues, hist_issues, qscale_issues, coll_issues, srtld_issues, srtst_issues, srtgo_issues⟩

end Sys2Proof.Machine
end

section
/-!
PROOFS. BMCAST at its issue and QJOIN (R72, R81, R140 to R142, R346).
-/

namespace Sys2Proof.Machine

/-! ### Ranges armed in other blocks (R282) -/

def unarmed (y : Block) : Block := { y with armed := [] }

/-- Blocks that agree but for their armed ranges. -/
theorem exists_of_unarmed {x y : Block} (h : unarmed x = unarmed y) : ∃ rs, x = { y with armed := rs } :=
  ⟨x.armed, congrArg (fun z : Block => { z with armed := x.armed }) h⟩

/-- Every block is the one that its identifier names. -/
def BlocksNamed (s : State) : Prop := ∀ y ∈ s.blocks, s.block? y.id = some y

/-- A block that is replaced by one of its own identifier leaves every block named. -/
theorem BlocksNamed.putBlock {s : State} (h : BlocksNamed s) {x y : Block} (hy : s.block? x.id = some y) : BlocksNamed (s.putBlock x) := by
  intro z hz
  obtain ⟨a, ha, rfl⟩ := List.mem_map.mp hz
  by_cases hid : a.id = x.id
  · rw [if_pos (beq_iff_eq.mpr hid)]
    exact State.putBlock_block_same s x x.id y rfl hy
  · rw [if_neg (by simpa using hid), State.putBlock_block_other s x a.id hid]
    exact h a ha

/-- A step that only arms further ranges. -/
structure ArmsOnly (s t : State) : Prop where
  rest  : t = { s with blocks := t.blocks }
  named : BlocksNamed t
  same  : ∀ j, (t.block? j).map unarmed = (s.block? j).map unarmed
  keeps : ∀ j y, s.block? j = some y → ∃ y', t.block? j = some y' ∧ ∀ r ∈ y.armed, r ∈ y'.armed

theorem ArmsOnly.refl {s : State} (h : BlocksNamed s) : ArmsOnly s s := ⟨rfl, h, fun _ => rfl, fun _ y hy => ⟨y, hy, fun _ => id⟩⟩

theorem ArmsOnly.trans {s t u : State} (h : ArmsOnly s t) (k : ArmsOnly t u) : ArmsOnly s u where
  rest := by rw [k.rest, h.rest]
  named := k.named
  same j := (k.same j).trans (h.same j)
  keeps j y hy := by
    obtain ⟨x, hx, hsub⟩ := h.keeps j y hy
    obtain ⟨z, hz, hsub'⟩ := k.keeps j x hx
    exact ⟨z, hz, fun r hr => hsub' r (hsub r hr)⟩

/-- A block with further ranges armed. -/
theorem ArmsOnly.putBlock {s : State} (h : BlocksNamed s) {d : Block} (hd : d ∈ s.blocks) (rs : List ArmedRange) :
    ArmsOnly s (s.putBlock { d with armed := d.armed ++ rs }) := by
  have hhere := State.putBlock_block_same s { d with armed := d.armed ++ rs } d.id d rfl (h d hd)
  have hother := fun j => State.putBlock_block_other s { d with armed := d.armed ++ rs } j
  refine ⟨rfl, h.putBlock (h d hd), fun j => ?_, fun j y hy => ?_⟩
  · by_cases hj : j = d.id
    · rw [hj, hhere, h d hd]
      rfl
    · rw [hother j hj]
  · by_cases hj : j = d.id
    · subst hj
      obtain rfl := Option.some.inj ((h d hd).symm.trans hy)
      exact ⟨_, hhere, fun r hr => List.mem_append_left rs hr⟩
    · exact ⟨y, (hother j hj).trans hy, fun _ => id⟩

theorem castTarget_mem {s : State} {b d : Block} {blk : Nat} (h : castTarget s b blk = some d) : d ∈ s.blocks :=
  (List.mem_filter.mp (List.mem_of_find?_eq_some h)).1

theorem armDests_armsOnly (b : Block) (n : Nat) (es : List Dword) {s : State} (h : BlocksNamed s) : ArmsOnly s (armDests s b n es) := by
  rw [armDests]
  induction es generalizing s with
  | nil => exact ArmsOnly.refl h
  | cons e es ih =>
    rw [List.foldl_cons]
    cases hd : castTarget s b (castBlk e) with
    | none => exact ih h
    | some d =>
      dsimp only
      split
      · exact ih h
      · have hput := ArmsOnly.putBlock h (castTarget_mem hd)
          [⟨b.id, b.issued, .copy, castDest e, castDest e + n, true, false, some (castSync e), none⟩]
        exact hput.trans (ih hput.named)

/-! ### BMCAST (R81) -/

/-- The command of a BMCAST of m destinations. -/
def castCommand (s : State) (b : Block) (i : Instr) (d a v : Dword) (m : Nat) : Command :=
  { newCommand s b i d a v 0 with
    work := (castEntries b d.toNat m).map (·.toNat),
    dests := (castEntries b d.toNat m).map fun e => ⟨castBlk e, castDest e, castSync e, 0, []⟩ }

/-- The issuing block once its BMCAST, command number n, has entered the copy queue; `b` has its destinations' ranges armed. -/
def castIssued (b : Block) (n : Nat) (c : Command) : Block :=
  { nextBlock (setQueue b .copy (queueOf b .copy ++ [c])) with issued := n + 1, idem := false }

/-- The limits of a BMCAST of m destinations (R78, R81, R141). -/
structure CastFits (b : Block) (d a v : Dword) (m : Nat) : Prop where
  count  : leNat (readBytes b.scratch d.toNat 8) = m
  canon  : canonical a = true
  list   : d.toNat % 8 = 0
  source : a.toNat % 16 = 0
  low    : 1 ≤ m
  high   : m ≤ 16
  inside : d.toNat + 8 + 8 * m ≤ blockBytes b
  small  : v.toNat < 2 ^ 20
  length : lengthOk v.toNat
  room   : (queueOf b .copy).length < 32

section
variable {s : State} {b : Block} {g : Grid} {d a v : Dword} {m : Nat}

theorem bmcastBlock_elsewhere (hg : s.grid? b.grid = some g) (h : g.resident = false) (i : Instr) :
    bmcastBlock s b i d a v = haltBlock s b 0x10 0 [] := by
  rw [bmcastBlock, hg]
  dsimp only
  rw [h]
  rfl

theorem bmcastBlock_enters (hg : s.grid? b.grid = some g) (hres : g.resident = true) (h : CastFits b d a v m) (i : Instr) {b1 : Block}
    (hb1 : (armDests s b v.toNat (castEntries b d.toNat m)).block? b.id = some b1) : bmcastBlock s b i d a v =
      (armDests s b v.toNat (castEntries b d.toNat m)).putBlock (castIssued b1 b.issued (castCommand s b i d a v m)) := by
  have hn : copyLength v = v.toNat := by rw [copyLength, bitsAt, Nat.pow_zero, Nat.div_one, Nat.mod_eq_of_lt h.small]
  have hfull : ¬ queueLimit ≤ (queueOf b .copy).length := Nat.not_le.mpr h.room
  rw [bmcastBlock, hg]
  dsimp only
  rw [hres, hn, h.count, limitFault_none]
  · dsimp only
    rw [if_neg (by decide), if_neg hfull, hb1]
    rfl
  · rw [h.canon]; rfl
  · rw [h.list, h.source]; rfl
  · simp only [Bool.or_eq_false_iff, Bool.and_eq_false_iff, decide_eq_false_iff_not, Nat.not_lt]
    exact ⟨le_trans (Nat.le_add_right ..) h.inside, Or.inr h.inside⟩
  · rw [Nat.div_eq_of_lt h.small, badLength_false h.length, beq_false_of_ne (Nat.ne_of_gt h.low),
      decide_eq_false (Nat.not_lt.mpr h.high)]
    rfl

end

theorem castCommand_dests (s : State) (b : Block) (i : Instr) (d a v : Dword) (m : Nat) : (castCommand s b i d a v m).dests =
    (List.range m).map fun j => ⟨field (listEntry b d.toNat j) 0 20, field (listEntry b d.toNat j) 20 19,
      field (listEntry b d.toNat j) 39 19, 0, []⟩ := by
  rw [castCommand, castEntries]
  dsimp only
  rw [List.map_map]
  rfl

theorem castCommand_issued (s : State) (b : Block) (i : Instr) (d a v : Dword) (m : Nat) : let c := castCommand s b i d a v m
    c.instr = i ∧ c.a = a ∧ c.b = v ∧ c.serial = b.issued ∧ c.started = false := ⟨rfl, rfl, rfl, rfl, rfl⟩

theorem bmcasts (d a x : BitVec 5) (s : State) (b : Block) (g : Grid) (h : BlockTurn s b) (hsized : BlockSized b)
    (hg : s.grid? b.grid = some g) (hnamed : BlocksNamed s) (hres : g.resident = true) {m : Nat}
    (hfits : CastFits b (breg b d) (breg b a) (breg b x) m) :
      ∃ t b' c, exec (.bmcast d a x) s = .next t ∧ t = { s with blocks := t.blocks } ∧ t.block? b.id = some b' ∧
        queueOf b' .copy = queueOf b .copy ++ [c] ∧ (∀ p, p ≠ .copy → queueOf b' p = queueOf b p) ∧
        c.instr = .bmcast d a x ∧ c.a = breg b a ∧ c.b = breg b x ∧ c.serial = b.issued ∧ c.started = false ∧
        c.dests = (List.range m).map (fun j => ⟨field (listEntry b (breg b d).toNat j) 0 20,
          field (listEntry b (breg b d).toNat j) 20 19, field (listEntry b (breg b d).toNat j) 39 19, 0, []⟩) ∧
        b' = { b with queues := b'.queues, armed := b'.armed, issued := b.issued + 1, idem := false, pc := b.pc + 4,
                      phase := .ready } ∧
        (∀ j, j ≠ b.id → (t.block? j).map unarmed = (s.block? j).map unarmed) ∧
        ∀ j y, s.block? j = some y → ∃ y', t.block? j = some y' ∧ ∀ r ∈ y.armed, r ∈ y'.armed := by
  have hexec : exec (.bmcast d a x) s = .next (bmcastBlock s b (.bmcast d a x) (breg b d) (breg b a) (breg b x)) :=
    runSeqBlock_go h rfl _
  have harms := armDests_armsOnly b (breg b x).toNat (castEntries b (breg b d).toNat m) hnamed
  have henters := fun b1 => bmcastBlock_enters (b1 := b1) hg hres hfits (.bmcast d a x)
  have hdests := castCommand_dests s b (.bmcast d a x) (breg b d) (breg b a) (breg b x) m
  obtain ⟨hinstr, ha, hv, hserial, hstarted⟩ := castCommand_issued s b (.bmcast d a x) (breg b d) (breg b a) (breg b x) m
  generalize castCommand s b (.bmcast d a x) (breg b d) (breg b a) (breg b x) m = c at henters hdests hinstr ha hv hserial hstarted
  generalize armDests s b (breg b x).toNat (castEntries b (breg b d).toNat m) = u at harms henters
  obtain ⟨b1, hb1, hsub⟩ := harms.keeps b.id b h.here
  have hsame : unarmed b1 = unarmed b := by simpa [hb1, h.here] using harms.same b.id
  obtain ⟨rs, rfl⟩ := exists_of_unarmed hsame
  rw [henters _ hb1] at hexec
  have hhere : (u.putBlock (castIssued { b with armed := rs } b.issued c)).block? b.id = some _ :=
    State.putBlock_block_same u _ b.id _ rfl hb1
  have hother := fun j (hj : j ≠ b.id) => State.putBlock_block_other u (castIssued { b with armed := rs } b.issued c) j hj
  have hqueue : ∀ p, queueOf (castIssued { b with armed := rs } b.issued c) p =
      if p = .copy then queueOf b .copy ++ [c] else queueOf b p := fun p => queueOf_setQueue hsized.queues .copy p _
  refine ⟨_, _, c, hexec, by rw [State.putBlock, harms.rest], hhere, (hqueue .copy).trans (if_pos rfl),
    fun p hp => (hqueue p).trans (if_neg hp), hinstr, ha, hv, hserial, hstarted, hdests, rfl,
    fun j hj => ?_, fun j y hy => ?_⟩
  · rw [hother j hj, harms.same j]
  · by_cases hj : j = b.id
    · subst hj
      obtain rfl := Option.some.inj (h.here.symm.trans hy)
      exact ⟨_, hhere, hsub⟩
    · rw [hother j hj]
      exact harms.keeps j y hy

/-! ### QJOIN (R72) -/

/-- A block with one command at the end of each of some queues. -/
def enterEach (qs : List EngineQueue) (c : Command) (b : Block) : Block := qs.foldl (fun b q => setQueue b q (queueOf b q ++ [c])) b

theorem enterEach_frame (qs : List EngineQueue) (c : Command) (b : Block) :
    enterEach qs c b = { b with queues := (enterEach qs c b).queues } := by
  rw [enterEach]
  induction qs generalizing b with
  | nil => rfl
  | cons q qs ih =>
    rw [List.foldl_cons, ih]
    rfl

theorem queueOf_enterEach {qs : List EngineQueue} (hqs : qs.Nodup) (c : Command) {b : Block} (hb : b.queues.length = 5)
    (p : EngineQueue) : queueOf (enterEach qs c b) p = if p ∈ qs then queueOf b p ++ [c] else queueOf b p := by
  rw [enterEach]
  induction qs generalizing b with
  | nil => rfl
  | cons q qs ih =>
    obtain ⟨hq, hqs⟩ := List.nodup_cons.mp hqs
    rw [List.foldl_cons, ih hqs ((List.length_set ..).trans hb), queueOf_setQueue hb]
    by_cases hp : p = q
    · subst hp
      rw [if_neg hq, if_pos rfl, if_pos List.mem_cons_self]
    · simp only [List.mem_cons, hp, false_or, if_false]

theorem mem_joinQueues (m : BitVec 5) (q : EngineQueue) : q ∈ joinQueues m ↔ m.getLsbD (queueBit q) = true := by
  have hall : q ∈ allQueues := by cases q <;> decide
  rw [joinQueues, List.mem_filter, and_iff_right hall]

theorem joinQueues_nodup (m : BitVec 5) : (joinQueues m).Nodup := List.Nodup.filter _ (by decide)

theorem qjoinBlock_full {b : Block} {m : BitVec 5} {q : EngineQueue} (hq : m.getLsbD (queueBit q) = true)
    (hfull : 32 ≤ (queueOf b q).length) (s : State) : qjoinBlock s b m = holdBlock s b .queueFull :=
  if_pos (List.any_eq_true.mpr ⟨q, (mem_joinQueues m q).mpr hq, decide_eq_true hfull⟩)

/-- The block once a QJOIN stands in the queues that it names. -/
def joinedBlock (b : Block) (m : BitVec 5) (c : Command) : Block :=
  { nextBlock (enterEach (joinQueues m) c b) with issued := b.issued + 1, joins := b.joins ++ [(b.issued, m)] }

theorem qjoinBlock_room {b : Block} {m : BitVec 5}
    (hroom : ∀ q : EngineQueue, m.getLsbD (queueBit q) = true → (queueOf b q).length < 32) (s : State) :
    qjoinBlock s b m = s.putBlock (joinedBlock b m (newCommand s b (.qjoin m) 0 0 0 0)) := by
  have hany : ¬ (joinQueues m).any (fun q => decide (queueLimit ≤ (queueOf b q).length)) = true := by
    rw [List.any_eq_true]
    rintro ⟨q, hq, hfull⟩
    exact absurd (of_decide_eq_true hfull) (Nat.not_le.mpr (hroom q ((mem_joinQueues m q).mp hq)))
  exact if_neg hany

/-- Settles O39: BMCAST arms its destinations and enters the copy queue of a resident grid, QJOIN enters each queue that it names. -/
theorem multicastAndJoin : Obligations.MulticastAndJoin := by
  constructor
  · intro d a x s b g h hsized hg hnamed
    refine ⟨fun hres => (runSeqBlock_go h rfl _).trans (congrArg _ (bmcastBlock_elsewhere hg hres _)), ?_⟩
    intro hres hcanon hlist hsource hlow hhigh hin hsmall hlen hroom
    exact bmcasts d a x s b g h hsized hg hnamed hres ⟨rfl, hcanon, hlist, hsource, hlow, hhigh, hin, hsmall, hlen, hroom⟩
  · intro m s b h hsized hm named
    have hexec : exec (.qjoin m) s = .next (qjoinBlock s b m) := runSeqBlock_go h (by simpa [staticLegal] using hm) _
    refine ⟨fun ⟨q, hq, hfull⟩ => by rw [hexec, qjoinBlock_full hq hfull], fun hroom => ?_⟩
    rw [qjoinBlock_room hroom] at hexec
    refine ⟨_, _, newCommand s b (.qjoin m) 0 0 0 0, hexec, putBlock_blockStep h.here ?_, ?_, rfl, rfl, rfl, fun q => ?_⟩
    · rw [joinedBlock, enterEach_frame]
      rfl
    · rw [joinedBlock, enterEach_frame]
      rfl
    · have hqueue := queueOf_enterEach (joinQueues_nodup m) (newCommand s b (.qjoin m) 0 0 0 0) hsized.queues q
      simp only [mem_joinQueues] at hqueue
      exact hqueue

end Sys2Proof.Machine
end

section
/-!
PROOFS. FENCE and CPA (R82, R83, R122, R129, R136, R282).
-/

namespace Sys2Proof.Machine

/-! ### Copies enter flight (R82, R282) -/

/-- A thread's copy with the stretches of its source. -/
abbrev CopyReady := CopyAsk × List (Touch × Stretch)

/-- A wave with further copies in flight under one tag. -/
def copying (w : Wave) (tag size : Nat) (qs : List CopyReady) : Wave :=
  { w with
    copies := w.copies ++ qs.map fun q => ⟨tag, q.1.thread, q.1.dst, size, q.2.map (·.2), w.clock.know⟩
    copyRanges := w.copyRanges ++ qs.map fun q => ⟨tag, q.1.dst, size⟩
    tagCounts := w.tagCounts.modify tag (· + qs.length) }

theorem copying_nil (w : Wave) (tag size : Nat) : copying w tag size [] = w := by
  have hcount : w.tagCounts.modify tag (· + 0) = w.tagCounts := List.modify_id ..
  rw [copying]
  simp only [List.map_nil, List.append_nil, List.length_nil, hcount]

theorem copying_cons (w : Wave) (tag size : Nat) (q : CopyReady) (qs : List CopyReady) :
    copying (copying w tag size [q]) tag size qs = copying w tag size (q :: qs) := by
  have hcount : (w.tagCounts.modify tag (· + 1)).modify tag (· + qs.length) = w.tagCounts.modify tag (· + (qs.length + 1)) := by
    rw [List.modify_modify_eq]
    congr 1
    funext n
    exact (Nat.add_assoc n 1 qs.length).trans (congrArg (n + ·) (Nat.add_comm 1 qs.length))
  simp only [copying, List.map_cons, List.map_nil, List.length_cons, List.length_nil, Nat.zero_add, List.append_assoc,
    List.singleton_append, hcount]

/-- What one step of a wave changes beside the wave: leaves that an isle has cached. -/
structure WaveCached (s t : State) (id : Nat) (w : Wave) : Prop where
  here   : t.wave? id = some w
  others : OtherWaves s t id
  rest   : t = { s with waves := t.waves, cached := t.cached }

theorem WaveCached.trans {s t u : State} {id : Nat} {w x : Wave} (h : WaveCached s t id w) (k : WaveCached t u id x) :
    WaveCached s u id x where
  here := k.here
  others j hj := (k.others j hj).trans (h.others j hj)
  rest := by rw [k.rest, h.rest]

theorem WaveCached.fresh {s t : State} {id n : Nat} {w : Wave} (h : WaveCached (nextFresh s n) t id w) :
    t = { s with waves := t.waves, fresh := t.fresh, cached := t.cached } := by
  have hfresh : t.fresh = s.fresh + n := by
    rw [h.rest]
    rfl
  conv_lhs => rw [h.rest]
  rw [hfresh]
  rfl

/-- No granule of a copy's source is checked for races. -/
def PlainSource (s : State) (q : CopyReady) : Prop := ∀ p ∈ q.2, p.1.checked = false ∧ farBad s p.1.loc p.1.len = false

theorem issueCopy_caches {s : State} {w : Wave} (hw : s.wave? w.id = some w) (b : Block) (st : Standing) (tag size : Nat) {q : CopyReady}
    (hq : ∀ p ∈ q.2, p.1.checked = false) :
    WaveCached s (issueCopy b st tag size s w.id q) w.id (copying w tag size [q]) := by
  have hcached : OnlyCached s (q.2.foldl (fun s p =>
      if p.1.checked then markGranules (cacheLeaf s st.ctx st.isle (BitVec.ofNat 64 p.1.va)) b (accessorWave b w) false false
        p.1.loc.addr p.1.len
      else cacheLeaf s st.ctx st.isle (BitVec.ofNat 64 p.1.va)) s) := by
    refine OnlyCached.foldl (fun t p hp => ?_) s
    rw [hq p hp, if_neg Bool.false_ne_true]
    exact cacheLeaf_onlyCached ..
  unfold issueCopy
  rw [hw]
  dsimp only
  generalize q.2.foldl _ s = u at hcached
  have hwaves : ∀ j, u.wave? j = s.wave? j := fun j => by rw [hcached.eq]; rfl
  refine ⟨State.putWave_wave_same u _ w.id w rfl ((hwaves _).trans hw), fun j hj => ?_, ?_⟩
  · exact (State.putWave_wave_other u (copying w tag size [q]) j hj).trans (hwaves j)
  · rw [hcached.eq]
    rfl

theorem issueCopies_caches {s : State} {w : Wave} (hw : s.wave? w.id = some w) (b : Block) (st : Standing) (tag size : Nat)
    {qs : List CopyReady} (hqs : ∀ q ∈ qs, ∀ p ∈ q.2, p.1.checked = false) :
    WaveCached s (qs.foldl (fun s q => issueCopy b st tag size s w.id q) s) w.id (copying w tag size qs) := by
  induction qs generalizing s w with
  | nil =>
    rw [copying_nil]
    exact ⟨hw, fun _ _ => rfl, rfl⟩
  | cons q qs ih =>
    have hone := issueCopy_caches hw b st tag size (hqs q List.mem_cons_self)
    have hmore := ih (w := copying w tag size [q]) hone.here fun p hp => hqs p (List.mem_cons_of_mem _ hp)
    rw [copying_cons] at hmore
    exact hone.trans hmore

/-! ### The checks of a CPA (R123, R136) -/

/-- Every thread's copy translates. -/
theorem cpaTranslateWave_ready {s : State} {st : Standing} {qs : List CopyReady}
    (h : ∀ q ∈ qs, translateStretch s st.ctx st.isle q.1.src q.1.n .copyRead = .ok q.2) (w : Wave) :
    cpaTranslateWave s st w (qs.map (·.1)) = ⟨qs, [], []⟩ := by
  have hfold : ∀ acc : CpaSet, (qs.map (·.1)).foldl (fun acc q => match translateStretch s st.ctx st.isle q.src q.n .copyRead with
      | .ok ps => { acc with ready := acc.ready ++ [(q, ps)] }
      | .miss m => { acc with missed := acc.missed ++ [(q.thread, missedPart s st.ctx st.isle q.src q.n .copyRead, m)] }
      | .wait => { acc with waits := acc.waits ++ [(q.thread, missedPart s st.ctx st.isle q.src q.n .copyRead)] }) acc =
      { acc with ready := acc.ready ++ qs } := by
    induction qs with
    | nil => intro acc; rw [List.append_nil]; rfl
    | cons q qs ih =>
      intro acc
      rw [List.map_cons, List.foldl_cons, h q List.mem_cons_self, ih fun x hx => h x (List.mem_cons_of_mem _ hx)]
      dsimp only
      rw [List.append_assoc]
      rfl
  have hall : cpaTranslate s st.ctx st.isle (qs.map (·.1)) = ⟨qs, [], []⟩ := hfold ⟨[], [], []⟩
  rw [cpaTranslateWave, hall]
  split <;> rfl

theorem globalRacesOf_plain {s : State} {q : CopyReady} (h : PlainSource s q) (b : Block) (x : Accessor) (thread : Nat) :
    globalRacesOf s b x false false thread (q.2.map (·.1)) = [] := by
  rw [globalRacesOf, List.filterMap_eq_nil_iff]
  intro t ht
  obtain ⟨p, hp, rfl⟩ := List.mem_map.mp ht
  obtain ⟨hchecked, hbad⟩ := h p hp
  rw [hchecked, hbad]
  rfl

/-- The limits of one thread's copy (R136). -/
structure AskFits (b : Block) (size : Nat) (q : CopyAsk) : Prop where
  canon  : canonical q.src = true
  source : q.src.toNat % 4 = 0
  dest   : q.dst % size = 0
  inside : q.dst + size ≤ 4096 * b.granules

theorem cpaFault_none {b : Block} {size : Nat} {qs : List CopyAsk} (h : ∀ q ∈ qs, AskFits b size q) : cpaFault b size qs = none := by
  have hcanon : qs.any (fun q => !canonical q.src) = false := List.any_eq_false.mpr fun q hq => by simp [(h q hq).canon]
  have halign : qs.any (fun q => q.src.toNat % 4 != 0 || q.dst % size != 0) = false :=
    List.any_eq_false.mpr fun q hq => by simp [(h q hq).source, (h q hq).dest]
  have hinside : qs.any (fun q => q.dst + size > 4096 * b.granules) = false :=
    List.any_eq_false.mpr fun q hq => by simpa using (h q hq).inside
  rw [cpaFault, hcanon, halign, hinside]
  rfl

/-! ### A CPA performs (R82, R136) -/

theorem lowestRace_nil : lowestRace [] = none := rfl

/-- Where no access missed, none is refused and no watch predicate is enabled, the wave goes past its instruction. -/
theorem finishMem_past {s u : State} {w y : Wave} {op : ThreadOp} (h : WaveCached s u w.id y) (hrest : y.rest = 0)
    (hhits : y.hits = noHits) (hquiet : watchOn u y = none) (levels : List Nat) (xs : List WatchAccess) (st : Standing) (k : Access)
    (m : Mask) : ∃ w', WaveCached s (finishMem (presentAccesses u (reach y levels 0) false xs).1
      (presentAccesses u (reach y levels 0) false xs).2 op st k m 0 []) w.id w' ∧ PastMemory y w' op y.pending := by
  have hpast := advanceBy_past (ps := y.pending) (rr := (reach y levels 0).reached) hrest hhits op rfl
  have hwatch : watchOn u (reach y levels 0) = none := hquiet
  rw [presentAccesses_quiet hwatch]
  have hid : y.id = w.id := u.wave_id w.id y h.here
  have hdone : finishMem u (reach y levels 0) op st k m 0 [] = u.putWave (advanceBy (reach y levels 0) op) := rfl
  dsimp only
  rw [hdone]
  refine ⟨_, ⟨State.putWave_wave_same u _ w.id y (hpast.id.trans hid) h.here, fun j hj => ?_, ?_⟩, hpast⟩
  · rw [← hid, ← hpast.id] at hj
    exact (State.putWave_wave_other u _ j hj).trans (h.others j (by rwa [hpast.id, hid] at hj))
  · rw [State.putWave, h.rest]

/-- A CPA whose copies meet every check puts them in flight and goes past the instruction. -/
theorem cpaStep_performs {s : State} {w : Wave} {b : Block} {st : Standing} {op : ThreadOp} {f : TR} {x : TX} {src : BitVec 6 → VRow}
    {qs : List CopyReady} (hw : s.wave? w.id = some w) (hrest : w.rest = 0) (hhits : w.hits = noHits) (hquiet : watchOn s w = none)
    (hroom : w.tagCounts.getD (cpaTag x) 0 + 64 ≤ 4095)
    (hqs : qs.map (·.1) = (threadsOf (memThreads w f.g)).map fun i => (⟨i, (rowAt (src f.d) i).toNat,
      threadAddress true (src f.a) (src (f.a + 1)) (.u 0) 0 1 (x.i.signExtend 64) i,
      min (rowAt (src f.b) i).toNat (cpaSize x)⟩ : CopyAsk))
    (hfits : ∀ q ∈ qs, AskFits b (cpaSize x) q.1)
    (hfound : ∀ q ∈ qs, translateStretch s st.ctx st.isle q.1.src q.1.n .copyRead = .ok q.2) (hplain : ∀ q ∈ qs, PlainSource s q) :
    ∃ w', WaveCached s (cpaStep s w b st op f x src) w.id w' ∧
      PastMemory (copying w (cpaTag x) (cpaSize x) qs) w' op w.pending := by
  have hcount : ¬ w.tagCounts.getD (cpaTag x) 0 > 4095 - waveWidth := Nat.not_lt.mpr (Nat.le_sub_of_add_le hroom)
  have hfault : cpaFault b (cpaSize x) (qs.map (·.1)) = none := cpaFault_none fun q hq => by
    obtain ⟨p, hp, rfl⟩ := List.mem_map.mp hq
    exact hfits p hp
  have hraces : (qs.flatMap fun q => globalRacesOf s b (accessorWave b w) false false q.1.thread (q.2.map (·.1))) = [] := by
    rw [List.flatMap_eq_nil_iff]
    exact fun q hq => globalRacesOf_plain (hplain q hq) ..
  have hcaches := issueCopies_caches hw b st (cpaTag x) (cpaSize x) fun q hq p hp => (hplain q hq p hp).1
  unfold cpaStep
  rw [if_neg hcount]
  dsimp only
  rw [← hqs, hfault]
  dsimp only
  rw [cpaTranslateWave_ready hfound]
  dsimp only
  rw [hraces]
  generalize hu : qs.foldl _ s = u at hcaches
  have hwatch : watchOn u (copying w (cpaTag x) (cpaSize x) qs) = none := by
    rw [← hquiet, hcaches.rest]
    rfl
  rw [if_neg (by decide), lowestRace_nil]
  dsimp only
  rw [hcaches.here]
  exact finishMem_past hcaches hrest hhits hwatch ..

/-- The copies of a CPA, by its threads' destinations, source addresses, source bytes and stretches. -/
def cpaCopies (part : Mask) (dst src n : Nat → Nat) (pieces : Nat → List (Touch × Stretch)) : List CopyReady :=
  (threadsOf part).map fun i => (⟨i, dst i, BitVec.ofNat 64 (src i), n i⟩, pieces i)

theorem forall_cpaCopies {part : Mask} {dst src n : Nat → Nat} {pieces : Nat → List (Touch × Stretch)} {P : CopyReady → Prop}
    (h : ∀ i, i < 64 → part.getLsbD i = true → P (⟨i, dst i, BitVec.ofNat 64 (src i), n i⟩, pieces i)) :
    ∀ q ∈ cpaCopies part dst src n pieces, P q := by
  intro q hq
  obtain ⟨i, hi, rfl⟩ := List.mem_map.mp hq
  obtain ⟨hi64, hact⟩ := mem_threadsOf.mp hi
  exact h i hi64 hact

theorem copying_cpaCopies (w : Wave) (tag size : Nat) (part : Mask) (dst src n : Nat → Nat) (pieces : Nat → List (Touch × Stretch)) :
    copying w tag size (cpaCopies part dst src n pieces) = { w with
      copies := w.copies ++ (ascending part).map fun i => ⟨tag, i, dst i, size, (pieces i).map (·.2), w.clock.know⟩
      copyRanges := w.copyRanges ++ (ascending part).map fun i => ⟨tag, dst i, size⟩
      tagCounts := w.tagCounts.modify tag (· + (ascending part).length) } := by
  simp only [copying, cpaCopies, List.map_map, List.length_map]
  rfl

/-- What the threads of a CPA ask for is what its operands' registers say. -/
theorem cpaCopies_asks {w : Wave} {f : TR} {x : TX} (hr : OperandsReady w [single f.d, pairAt f.a, single f.b] []) (seed : Nat)
    {pieces : Nat → List (Touch × Stretch)} : (cpaCopies (memThreads w f.g) (fun i => (rowAt (fieldRow w f.d) i).toNat)
      (accessAddress w true f.a 0 0 1 x.i.toInt) (fun i => min (rowAt (fieldRow w f.b) i).toNat (cpaSize x)) pieces).map (·.1) =
      (threadsOf (memThreads w f.g)).map fun i => (⟨i, (rowAt (sourceRow true w seed f.d) i).toNat,
        threadAddress true (sourceRow true w seed f.a) (sourceRow true w seed (f.a + 1)) (.u 0) 0 1 (x.i.signExtend 64) i,
        min (rowAt (sourceRow true w seed f.b) i).toNat (cpaSize x)⟩ : CopyAsk) := by
  have hsrc := fun o ho g hg => hr.source true seed o ho g hg
  have hd : sourceRow true w seed f.d = fieldRow w f.d := hsrc (single f.d) (by simp) _ (List.mem_singleton_self _)
  have hlo : sourceRow true w seed f.a = fieldRow w f.a := hsrc (pairAt f.a) (by simp) _ List.mem_cons_self
  have hhi : sourceRow true w seed (f.a + 1) = fieldRow w (f.a + 1) :=
    hsrc (pairAt f.a) (by simp) _ (List.mem_cons_of_mem _ (List.mem_singleton_self _))
  have hn : sourceRow true w seed f.b = fieldRow w f.b := hsrc (single f.b) (by simp) _ (List.mem_singleton_self _)
  have hoff : (x.i.signExtend 64).toInt = x.i.toInt := BitVec.toInt_signExtend_of_le (by decide)
  have haddr := threadAddress_eq hlo hhi (ib := .u 0) (b := 0) (ix := 0) (fun h => absurd rfl h) 1 (x.i.signExtend 64)
  simp only [haddr, hoff, hd, hn, cpaCopies, List.map_map]
  rfl

/-- Settles O24: a FENCE goes past itself, and a CPA puts one copy for each of its threads in flight, each under its tag. -/
theorem fencesAndCopies : Obligations.FencesAndCopies := by
  constructor
  · intro f x s w b st ht hs hr hb hst
    have hpast := advanceBy_past (ps := w.pending) (rr := w.reached) hr.whole hr.unhit (memOp 2 f.s [] []) rfl
    exact ⟨_, _, runMem_go ht hs hr hb hst .., memoryDone_past (t := nextFresh s freshSpan) ht.here hpast rfl [], hpast.pending, rfl⟩
  · intro f x s w b st pieces size tag part src dst n ht hs hr hb hst hquiet hroom hthreads
    have hfits : ∀ q ∈ cpaCopies part dst src n pieces, AskFits b size q.1 := forall_cpaCopies fun i hi hact => by
      obtain ⟨hcanon, hsource, hdest, hinside, -, -⟩ := hthreads i hi hact
      exact ⟨hcanon, by rwa [BitVec.toNat_ofNat, Nat.mod_eq_of_lt (accessAddress_lt ..)], hdest, hinside⟩
    have hfound : ∀ q ∈ cpaCopies part dst src n pieces,
        translateStretch (nextFresh s freshSpan) st.ctx st.isle q.1.src q.1.n .copyRead = .ok q.2 := forall_cpaCopies fun i hi hact => by
      obtain ⟨-, -, -, -, hfound, -⟩ := hthreads i hi hact
      exact hfound
    have hplain : ∀ q ∈ cpaCopies part dst src n pieces, PlainSource (nextFresh s freshSpan) q := forall_cpaCopies fun i hi hact => by
      obtain ⟨-, -, -, -, -, hplain⟩ := hthreads i hi hact
      exact hplain
    obtain ⟨w', hcached, hpast⟩ := cpaStep_performs (s := nextFresh s freshSpan) (op := cpaOp f) (f := f) (x := x)
      ht.here hr.whole hr.unhit hquiet hroom (cpaCopies_asks hr s.fresh) hfits hfound hplain
    rw [copying_cpaCopies] at hpast
    refine ⟨_, w', runMem_go (op := cpaOp f) ht hs hr hb hst true _, ?_, hpast.pending, hcached.fresh⟩
    exact ⟨hcached.here, fun j hj => hcached.others j hj, hpast.pc, hpast.phase, hpast.rest, fun r _ => hpast.regs r⟩

end Sys2Proof.Machine
end

section
/-!
PROOFS. Units of the engines (R75, R282, R334): which unit a choice performs, what reaching global bytes leaves, and what a unit that
lands pieces in its block does.
-/

namespace Sys2Proof.Machine

/-! ### A context without predicates sees no hit (R352) -/

theorem Unwatched.same {s t : State} {ctx : Nat} (h : Unwatched s ctx) (hs : SameContexts s t) : Unwatched t ctx := by
  intro c hc p hp
  have hsame := hs ctx
  rw [hc, Option.map_some] at hsame
  obtain ⟨x, hx, heq⟩ := Option.map_eq_some_iff.mp hsame.symm
  have hcounters : withoutCounters x = withoutCounters c := heq
  have hwatch : (withoutCounters x).watch = (withoutCounters c).watch := by rw [hcounters]
  exact h x hx p (hwatch ▸ hp)

theorem presentAgent_quiet {s : State} {ctx : Nat} (h : Unwatched s ctx) (block : Option Block) (isle core slot launch : Nat) (pc : Dword)
    (gone : Bool) (regions hitter : Nat) (xs : List WatchAccess) :
    presentAgent s block ctx isle core slot launch pc gone regions hitter xs = s := by
  unfold presentAgent
  cases hc : s.ctx? ctx with
  | none => rfl
  | some c =>
    have hany : c.watch.any (·.enabled) = false := List.any_eq_false.mpr fun p hp => by rw [h c hc p hp]; exact Bool.false_ne_true
    dsimp only
    rw [hany]
    rfl

theorem presentUnit_quiet {s : State} {id : Nat} {b : Block} (hb : s.block? id = some b) (h : Unwatched s b.ctx) (xs : List WatchAccess) :
    presentUnit s id xs = s := by
  unfold presentUnit
  rw [hb]
  dsimp only
  split
  · exact presentAgent_quiet h ..
  · rfl

/-! ### The unit that performs (R334) -/

theorem exec_engineUnitWrite {s : State} {b : Block} {q : EngineQueue} {c : Command} {choice u : Nat} (h : EngineTurn s b q c)
    (hs : c.started = true) (hp : PicksUnit s b q c choice u) : exec (.engineUnitWrite b.id q choice) s = .next (unitOf u s b c) := by
  obtain ⟨v, hpick, hunit⟩ := hp
  show execEngineUnitWrite b.id q choice s = _
  simp only [execEngineUnitWrite, h.here, h.workingHead, hs, if_true, performUnit, hpick, hunit]
  rfl

/-! ### Global bytes (R22, R27) -/

/-- A step that changes HBM and what is cached at most. -/
def Touched (s t : State) : Prop := t = { s with cached := t.cached, hbm := t.hbm }

theorem Touched.of_cached {s t : State} (h : OnlyCached s t) : Touched s t := by
  unfold Touched
  rw [h.eq]

theorem Touched.trans {s t u : State} (h : Touched s t) (k : Touched t u) : Touched s u := by
  unfold Touched at *
  rw [h] at k
  exact k

theorem Touched.foldl {α : Type} {f : State → α → State} {xs : List α} (h : ∀ s, ∀ x ∈ xs, Touched s (f s x)) (s : State) :
    Touched s (xs.foldl f s) := by
  induction xs generalizing s with
  | nil => rfl
  | cons x xs ih => exact (h s x List.mem_cons_self).trans (ih (fun t y hy => h t y (List.mem_cons_of_mem _ hy)) (f s x))

/-- Stretches that all translate: the unit goes on with their places, with leaves cached. -/
theorem withReach_ok {s : State} {b : Block} {ctx : Context} {k : Access} {sts : List (Nat × Nat)} {rs : List Reached}
    (hctx : s.ctx? b.ctx = some ctx) (hr : reachAll s ctx b.isle k sts = .ok rs) (q : EngineQueue) (c : Command) :
    ∃ u, OnlyCached s u ∧ ∀ next : State → List Reached → State, withReach s b q c k sts next = next u rs := by
  refine ⟨_, OnlyCached.foldl (xs := rs) (fun t r _ => cacheLeaf_onlyCached t ctx b.isle (BitVec.ofNat 64 r.va)) s, fun next => ?_⟩
  rw [withReach, hctx]
  dsimp only
  rw [hr]

theorem reachedRace_cached {s u : State} (h : OnlyCached s u) (b : Block) (x : Accessor) (q : EngineQueue) (write : Bool)
    (rs : List Reached) : reachedRace u b x q write rs = reachedRace s b x q write rs := by
  rw [h.eq]
  rfl

theorem readReached_congr {s u : State} (hhbm : u.hbm = s.hbm) (hpeer : u.peer = s.peer) (hhost : u.host = s.host) (rs : List Reached) :
    readReached u rs = readReached s rs := by
  have hloc : ∀ l n, readLoc u l n = readLoc s l n := fun l n => by
    unfold readLoc spaceOf
    cases l.space
    · rw [hhbm]
    · rw [hpeer]
    · rw [hhost]
  rw [readReached, readReached]
  simp only [hloc]

/-! ### Tags of checked granules (R278) -/

/-- What an access of an engine makes of one granule's tag. -/
def tagGranule (b : Block) (x : Accessor) (write strong : Bool) (s : State) (g : Nat) : State :=
  writeTag s g (if write then granuleWritten s b x strong else granuleRead s b strong (freshTag s b.ctx (readTag s g)))

theorem tagGranule_touched (s : State) (b : Block) (x : Accessor) (write strong : Bool) (g : Nat) :
    Touched s (tagGranule b x write strong s g) := rfl

theorem tagGranule_cached (s : State) (cs : List CachedXlat) (b : Block) (x : Accessor) (write : Bool) (g : Nat) :
    tagGranule b x write false { s with cached := cs } g = { tagGranule b x write false s g with cached := cs } := by
  cases write
  · rfl
  · rfl

section
variable {x : Accessor} (hx : x.wrid ≠ wridSeq)
include hx

theorem markGranules_eq (s : State) (b : Block) (write strong : Bool) (pa n : Nat) :
    markGranules s b x write strong pa n = (granulesOf pa n).foldl (tagGranule b x write strong) s := by
  have hseq : (write && x.wrid == wridSeq) = false := by simp [hx]
  rw [markGranules, hseq]
  rfl

theorem markGranules_touched (s : State) (b : Block) (write strong : Bool) (pa n : Nat) :
    Touched s (markGranules s b x write strong pa n) := by
  rw [markGranules_eq hx]
  exact Touched.foldl (fun t g _ => tagGranule_touched t b x write strong g) s

theorem markReached_touched (s : State) (b : Block) (write : Bool) (rs : List Reached) : Touched s (markReached s b x write rs) := by
  refine Touched.foldl (fun t r _ => ?_) s
  split
  · exact markGranules_touched hx ..
  · rfl

/-- Marking goes with a change of the state that it does not see. -/
theorem markReached_hom {k : State → State} {b b' : Block} {write : Bool}
    (h : ∀ s g, tagGranule b' x write false (k s) g = k (tagGranule b x write false s g)) (s : State) (rs : List Reached) :
    markReached (k s) b' x write rs = k (markReached s b x write rs) := by
  refine List.foldl_hom k fun t r => ?_
  split
  · rw [markGranules_eq hx, markGranules_eq hx]
    exact List.foldl_hom k h
  · rfl

theorem markReached_cached {s u : State} (h : OnlyCached s u) (b : Block) (write : Bool) (rs : List Reached) :
    markReached u b x write rs = { markReached s b x write rs with cached := u.cached } := by
  rw [h.eq]
  exact markReached_hom hx (k := fun s => { s with cached := u.cached })
    (fun s g => tagGranule_cached s u.cached b x write g) s rs

end

/-! ### A unit that lands pieces (R75, R334) -/

theorem progressUnit_serial (c : Command) (u : Nat) : (progressUnit c u).serial = c.serial := rfl

theorem engineWriter_ne_seq (i : Instr) : engineWriter i ≠ wridSeq := by
  have hle : engineWriter i ≤ 21 := by
    unfold engineWriter
    split <;> decide
  exact fun h => absurd (h ▸ hle) (by decide)

theorem commandAccessor_wrid (b : Block) (c : Command) : (commandAccessor b c).wrid ≠ wridSeq := engineWriter_ne_seq c.instr

/-- A block as an engine's reads leave it. -/
def ReadsOnly (b b1 : Block) : Prop := b1 = { b with tags := b1.tags }

/-- What the units of a command that writes into its own block come to; `stamp` is what its last unit does to the windows. -/
structure UnitLands (s t : State) (b b' : Block) (q : EngineQueue) (c : Command) (u : Nat) (pieces : List (Nat × List Byte))
    (stamp : List Dword → List Dword) : Prop where
  step  : UnitStep s t b b'
  rest  : t = { s with blocks := t.blocks, contexts := t.contexts }
  lands : Lands b b' c.sync (engineWriter c.instr) c.count pieces
  done  : UnitDone b b' q c (progressUnit c u) (lastGeneration (readSync b c.sync) (pieces.map fun p => p.2.length))
  fwin  : b'.fwin = if (progressUnit c u).units ≤ (progressUnit c u).done then stamp b.fwin else b.fwin

/-- The block after a unit: its command goes on or leaves, and the last unit may stamp a window. -/
def unitBlock (y : Block) (q : EngineQueue) (c1 : Command) (gen : Option (BitVec 16)) (stamp : List Dword → List Dword) : Block :=
  { commandNext y q c1 gen (decide (c1.units ≤ c1.done)) with fwin := if c1.units ≤ c1.done then stamp y.fwin else y.fwin }

theorem unitBlock_eq (y : Block) (q : EngineQueue) (c1 : Command) (gen : Option (BitVec 16)) {done : Block → Block}
    {stamp : List Dword → List Dword} (hdone : ∀ z, done z = { z with fwin := stamp z.fwin }) :
    (if c1.units ≤ c1.done then done (completeCommand y q c1 gen) else putHead y q c1) = unitBlock y q c1 gen stamp := by
  unfold unitBlock
  by_cases hlast : c1.units ≤ c1.done
  · rw [if_pos hlast, if_pos hlast, decide_eq_true hlast, hdone]
    rfl
  · rw [if_neg hlast, if_neg hlast, decide_eq_false hlast]
    rfl

theorem unitBlock_frame (y : Block) (q : EngineQueue) (c1 : Command) (gen : Option (BitVec 16)) (stamp : List Dword → List Dword) :
    let z := unitBlock y q c1 gen stamp
    z = { y with queues := z.queues, armed := z.armed, fwin := if c1.units ≤ c1.done then stamp y.fwin else y.fwin } := by
  intro z
  simp only [z, unitBlock]
  rw [commandNext_frame]

theorem unitBlock_done {b y : Block} (hqueues : y.queues = b.queues) (hb : BlockSized b) (harmed : y.armed = b.armed) (hid : y.id = b.id)
    {q : EngineQueue} {c c1 : Command} (hserial : c1.serial = c.serial) (gen : Option (BitVec 16)) (stamp : List Dword → List Dword) :
    UnitDone b (unitBlock y q c1 gen stamp) q c c1 gen := by
  obtain ⟨hstays, hleaves, hothers⟩ := commandNext_done hqueues hb harmed hid (q := q) (c := c) hserial gen
    (decide_eq_true_iff (p := c1.units ≤ c1.done))
  exact ⟨hstays, hleaves, hothers⟩

theorem Lands.of_reads {b b1 y : Block} {sync writer : Nat} {count : BitVec 6} {pieces : List (Nat × List Byte)}
    (h : Lands b1 y sync writer count pieces) (hreads : ReadsOnly b b1) : Lands b y sync writer count pieces := by
  have hscratch : b1.scratch = b.scratch := by rw [hreads]
  obtain ⟨hbytes, hcounts, hothers, htags⟩ := h
  rw [readSync_congr hscratch] at hcounts
  rw [hscratch] at hothers
  exact ⟨hbytes, hcounts, hothers, htags⟩

/-- What a unit or a granule counts: its block is replaced, and the counters of the context may rise. -/
theorem putBlock_counted {s : State} {b z : Block} (hb : s.block? b.id = some b) (hid : z.id = b.id) (ctx core off n : Nat) :
    let t := addCounter (s.putBlock z) ctx core off n
    t.block? b.id = some z ∧ OtherBlocks s t b.id ∧ SameContexts s t ∧ t = { s with blocks := t.blocks, contexts := t.contexts } := by
  intro t
  have heq : t = { s.putBlock z with contexts := t.contexts } := addCounter_eq ..
  have hblocks : ∀ j, t.block? j = (s.putBlock z).block? j := fun j => by rw [heq]; rfl
  refine ⟨(hblocks _).trans (State.putBlock_block_same s z b.id b hid hb), fun j hj => (hblocks j).trans (putBlock_others s hid j hj),
    fun i => addCounter_sameContexts (s.putBlock z) ctx core off n i, ?_⟩
  have hb : t.blocks = (s.putBlock z).blocks := by rw [heq]
  conv_lhs => rw [heq]
  rw [hb]
  rfl

theorem landUnit_lands {s : State} {b b1 : Block} {q : EngineQueue} {c : Command} {pieces : List (Nat × List Byte)}
    {done : Block → Block} {stamp : List Dword → List Dword} (hhere : s.block? b.id = some b) (hsized : BlockSized b)
    (hreads : ReadsOnly b b1) (hwf : mapWf 0 b1.tags = true)
    (hrace : countedRace s b1 b.id c.serial q (commandAccessor b c) c.sync true (pieces.map fun p => (p.1, p.2.length)) = none)
    (hcan : CanLand b c.sync pieces) (hdone : ∀ z, done z = { z with fwin := stamp z.fwin }) (u : Nat) :
    ∃ b', UnitLands s (landUnit s b1 q c u pieces done) b b' q c u pieces stamp := by
  have hx := commandAccessor_wrid b c
  have hsync : readSync b1 c.sync = readSync b c.sync := readSync_congr (by rw [hreads]) c.sync
  have hcan1 : CanLand b1 c.sync pieces := by
    obtain ⟨⟨hscratch, -⟩, hapart, hclear, hfits⟩ := hcan
    exact ⟨⟨by rw [hreads]; exact hscratch, hwf⟩, hapart, hclear, by rwa [hsync]⟩
  obtain ⟨y, hlands, hland⟩ := landPieces_lands hx c.sync pieces b1 none hcan1
  rw [Option.or_none, hsync] at hland
  have hx1 : commandAccessor b1 c = commandAccessor b c := by rw [hreads]; rfl
  have hid : b1.id = b.id := by rw [hreads]
  have honly : y = { b with scratch := y.scratch, tags := y.tags, badWords := y.badWords } := by
    rw [hlands.only, hreads]
  have heq : landUnit s b1 q c u pieces done = addCounter (s.putBlock (unitBlock y q (progressUnit c u)
      (lastGeneration (readSync b c.sync) (pieces.map fun p => p.2.length)) stamp)) b1.ctx
        (coreNumber b1.isle b1.core) 0x48 (pieces.foldl (fun n p => n + p.2.length) 0) := by
    unfold landUnit
    dsimp only
    rw [hx1, hid, hrace]
    dsimp only
    rw [hland]
    dsimp only
    rw [if_neg (by decide), unitBlock_eq _ _ _ _ hdone]
  rw [heq]
  generalize hgen : lastGeneration (readSync b c.sync) (pieces.map fun p => p.2.length) = gen
  have hframe := unitBlock_frame y q (progressUnit c u) gen stamp
  have hdone := unitBlock_done (q := q) (y := y) (by rw [honly]) hsized (by rw [honly]) (by rw [honly]) (progressUnit_serial c u) gen stamp
  obtain ⟨hthere, hothers, hcontexts, hrest⟩ := putBlock_counted hhere (z := unitBlock y q (progressUnit c u) gen stamp)
    (by rw [hframe, honly]) b1.ctx (coreNumber b1.isle b1.core) 0x48 (pieces.foldl (fun n p => n + p.2.length) 0)
  refine ⟨_, ⟨hthere, hothers, hcontexts, ?_⟩, hrest, ?_, ?_, ?_⟩
  · rw [hframe, honly]
  · refine Lands.congr ?_ (x := y) (by rw [hframe]) (by rw [hframe])
    exact hlands.lands.of_reads hreads
  · rw [hgen]
    exact hdone
  · rw [hframe, honly]

theorem ReadsOnly.refl (b : Block) : ReadsOnly b b := rfl

theorem countedRace_touched {s u : State} (h : Touched s u) (b : Block) (owner serial : Nat) (q : EngineQueue) (x : Accessor)
    (sync : Nat) (write : Bool) (ranges : List (Nat × Nat)) :
    countedRace u b owner serial q x sync write ranges = countedRace s b owner serial q x sync write ranges := by
  rw [h]
  rfl

section
variable {s u t : State} {b b' : Block} {q : EngineQueue} {c : Command} {n : Nat} {pieces : List (Nat × List Byte)}
  {stamp : List Dword → List Dword} (h : UnitLands u t b b' q c n pieces stamp)
include h

/-- A unit's block keeps its context, whose predicates it does not enable. -/
theorem UnitLands.quiet (hquiet : Unwatched u b.ctx) (xs : List WatchAccess) : presentUnit t b.id xs = t := by
  have hctx : b'.ctx = b.ctx := by rw [h.step.frame]
  refine presentUnit_quiet h.step.here ?_ xs
  rw [hctx]
  exact hquiet.same h.step.contexts

theorem UnitLands.of_touched (hu : Touched s u) : UnitStep s t b b' ∧
    t = { s with blocks := t.blocks, cached := t.cached, contexts := t.contexts, hbm := u.hbm } := by
  have hcached : t.cached = u.cached := by rw [h.rest]
  obtain ⟨hhere, hothers, hcontexts, hframe⟩ := h.step
  refine ⟨⟨hhere, fun j hj => ?_, fun i => ?_, hframe⟩, ?_⟩
  · rw [hothers j hj, hu]
    rfl
  · rw [hcontexts i, hu]
    rfl
  · rw [hcached]
    conv_lhs => rw [h.rest]
    conv_lhs => rw [hu]

end

theorem Touched.block {s u : State} (h : Touched s u) (id : Nat) : u.block? id = s.block? id := by
  rw [h]
  rfl

theorem Touched.unwatched {s u : State} (h : Touched s u) {ctx : Nat} (k : Unwatched s ctx) : Unwatched u ctx := by
  intro c hc
  rw [h] at hc
  exact k c hc

end Sys2Proof.Machine
end

section
/-!
PROOFS. Units of BCOPY toward scratchpad and of GATH (R75, R78 to R80, R334).
-/

namespace Sys2Proof.Machine

/-! ### BCOPY toward scratchpad (R78, R79) -/

/-- What the last unit of a format copy does to the windows (R79). -/
def copyStamp (c : Command) (l : List Dword) : List Dword :=
  if c.phase = 1 then l.set (field c.b 20 3)
    (windowValue c.d.toNat (8 * field c.b 0 20 / fmtBits (c.work.getD 1 0)) (c.work.getD 1 0) (c.work.getD 2 0))
  else l

/-- What the last unit of a copy toward scratchpad adds to its block. -/
def copyDone (c : Command) (z : Block) : Block :=
  if (c.phase == 1) = true then stampWindow z (bitsAt c.b 20 3) c.d.toNat (formatElems (c.work.getD 1 0) (copyLength c.b))
    (c.work.getD 1 0) (c.work.getD 2 0)
  else z

theorem copyDone_eq (c : Command) (z : Block) : copyDone c z = { z with fwin := copyStamp c z.fwin } := by
  unfold copyDone copyStamp
  by_cases hphase : c.phase = 1
  · rw [if_pos (by simpa using hphase), if_pos hphase]
    rfl
  · rw [if_neg (by simpa using hphase), if_neg hphase]

section
variable {s : State} {b : Block} {c : Command} {ctx : Context} {u : Nat} {rs : List Reached}

/-- A unit of a copy toward scratchpad whose bytes translate and do not race lands them. -/
theorem bcopyIn_lands (hctx : s.ctx? b.ctx = some ctx) (hreach : reachAll s ctx b.isle .copyRead
      (stretchesOf ((unitBytes (c.work.getD 0 0) u).map (copySource c (c.phase == 1)))) = .ok rs)
    (hfmt : c.phase = 1 → ∀ r ∈ rs, placeFmt r.place = c.work.getD 1 0 ∧ placeGeo r.place = c.work.getD 2 0)
    (hrace : reachedRace s b (commandAccessor b c) .copy false rs = none) :
    ∃ v, Touched s v ∧ v.hbm = (markReached s b (commandAccessor b c) false rs).hbm ∧ ∃ xs,
      bcopyIn s b c u = presentUnit (landUnit v b .copy c u
        [(c.d.toNat + 64 * u, readReached (markReached s b (commandAccessor b c) false rs) rs)] (copyDone c)) b.id xs := by
  have hx := commandAccessor_wrid b c
  obtain ⟨v, hv, hw⟩ := withReach_ok hctx hreach .copy c
  have hgood : (c.phase == 1 && rs.any fun r => placeFmt r.place != c.work.getD 1 0 || placeGeo r.place != c.work.getD 2 0) = false := by
    rw [Bool.and_eq_false_imp]
    intro hphase
    refine List.any_eq_false.mpr fun r hr => ?_
    obtain ⟨hf, hg⟩ := hfmt (by simpa using hphase) r hr
    simp [hf, hg]
  have hmark := markReached_cached hx hv b false rs
  have hread : readReached (markReached v b (commandAccessor b c) false rs) rs =
      readReached (markReached s b (commandAccessor b c) false rs) rs := by
    rw [hmark]
    exact readReached_congr rfl rfl rfl rs
  refine ⟨markReached v b (commandAccessor b c) false rs, (Touched.of_cached hv).trans (markReached_touched hx v b false rs),
    by rw [hmark], ?_⟩
  unfold bcopyIn
  dsimp only
  rw [hw, hgood, reachedRace_cached hv, hrace]
  dsimp only
  rw [hread]
  exact ⟨_, rfl⟩

end

theorem copiesIn (s : State) (b : Block) (c : Command) (ctx : Context) (d a x w : BitVec 5) (choice u : Nat) (rs : List Reached)
    (h : EngineTurn s b .copy c) (hstarted : c.started = true) (hi : c.instr = .bcopy d a x 0 w) (hctx : s.ctx? b.ctx = some ctx)
    (hquiet : Unwatched s b.ctx) (hpick : PicksUnit s b .copy c choice u)
    (hreach : reachAll s ctx b.isle .copyRead
      (stretchesOf ((unitBytes (c.work.getD 0 0) u).map (copySource c (c.phase == 1)))) = .ok rs)
    (hfmt : c.phase = 1 → ∀ r ∈ rs, placeFmt r.place = c.work.getD 1 0 ∧ placeGeo r.place = c.work.getD 2 0)
    (hrace : reachedRace s b (commandAccessor b c) .copy false rs = none) :
    let s1 := markReached s b (commandAccessor b c) false rs
    let pieces := [(c.d.toNat + 64 * u, readReached s1 rs)]
    let c1 := progressUnit c u
    countedRace s b b.id c.serial .copy (commandAccessor b c) c.sync true (pieces.map fun p => (p.1, p.2.length)) = none →
    CanLand b c.sync pieces →
    ∃ t b', exec (.engineUnitWrite b.id .copy choice) s = .next t ∧ UnitStep s t b b' ∧
      t = { s with blocks := t.blocks, cached := t.cached, contexts := t.contexts, hbm := s1.hbm } ∧
      Lands b b' c.sync 16 c.count pieces ∧
      UnitDone b b' .copy c c1 (lastGeneration (readSync b c.sync) (pieces.map fun p => p.2.length)) ∧
      b'.fwin = if c1.units ≤ c1.done ∧ c.phase = 1 then
          b.fwin.set (field c.b 20 3) (windowValue c.d.toNat (8 * field c.b 0 20 / fmtBits (c.work.getD 1 0)) (c.work.getD 1 0)
            (c.work.getD 2 0))
        else b.fwin := by
  intro s1 pieces c1 hcount hcan
  obtain ⟨v, hv, hhbm, xs, hunit⟩ := bcopyIn_lands (u := u) hctx hreach hfmt hrace
  obtain ⟨b', hlands⟩ := landUnit_lands (s := v) ((hv.block b.id).trans h.here) h.sized (ReadsOnly.refl b) hcan.wf.2
    ((countedRace_touched hv ..).trans hcount) hcan (copyDone_eq c) u
  rw [hlands.quiet (hv.unwatched hquiet)] at hunit
  obtain ⟨hstep, hrest⟩ := hlands.of_touched hv
  have hexec : exec (.engineUnitWrite b.id .copy choice) s = .next (bcopyIn s b c u) := by
    rw [exec_engineUnitWrite h hstarted hpick, unitOf, hi]
    rfl
  rw [hunit] at hexec
  have hwriter : engineWriter c.instr = 16 := by rw [hi]; rfl
  have hland := hlands.lands
  rw [hwriter] at hland
  refine ⟨_, b', hexec, hstep, ?_, hland, hlands.done, ?_⟩
  · rw [hhbm] at hrest
    exact hrest
  · rw [hlands.fwin, ite_and]
    rfl

/-! ### Bytes that are reached -/

theorem reachAll_lens {s : State} {ctx : Context} {isle : Nat} {k : Access} {sts : List (Nat × Nat)} {rs : List Reached}
    (h : reachAll s ctx isle k sts = .ok rs) : rs.map (·.len) = sts.map (·.2) := by
  induction sts generalizing rs with
  | nil =>
    rw [reachAll] at h
    cases h
    rfl
  | cons q sts ih =>
    obtain ⟨a, n⟩ := q
    unfold reachAll at h
    dsimp only at h
    split at h
    · cases h
    · split at h
      · cases h
      · cases h
      · split at h
        · next rest hrest =>
          cases h
          rw [List.map_cons, List.map_cons, ih hrest]
        · next hother => exact absurd h (hother rs)

theorem stretchesOf_total (xs : List Nat) : ((stretchesOf xs).map (·.2)).sum = xs.length := by
  induction xs with
  | nil => rfl
  | cons a xs ih =>
    unfold stretchesOf
    split
    · next b n more hmore =>
      rw [hmore, List.map_cons, List.sum_cons] at ih
      split
      · rw [List.map_cons, List.sum_cons, List.length_cons, ← ih]
        dsimp only
        omega
      · rw [List.map_cons, List.sum_cons, List.map_cons, List.sum_cons, List.length_cons, ← ih]
        dsimp only
        omega
    · next hnone =>
      rw [hnone] at ih
      rw [List.length_cons, ← ih]
      rfl

theorem readReached_length (s : State) (rs : List Reached) : (readReached s rs).length = (rs.map (·.len)).sum := by
  rw [readReached, List.length_flatMap]
  congr 1
  exact List.map_congr_left fun r _ => readBytes_length ..

theorem reachAll_bytes {s : State} {ctx : Context} {isle : Nat} {k : Access} {xs : List Nat} {rs : List Reached}
    (h : reachAll s ctx isle k (stretchesOf xs) = .ok rs) (t : State) : (readReached t rs).length = xs.length := by
  rw [readReached_length, reachAll_lens h, stretchesOf_total]

/-! ### GATH (R80) -/

section
variable {s : State} {b : Block} {c : Command} {u : Nat}

theorem gathUnit_zeros (h : c.work.getD u 0 = 0xFFFFFFFF) (hn : field c.b 48 13 ≤ 4096) : ∃ xs, gathUnit s b c u =
    presentUnit (landUnit s b .gather c u (cutPieces (c.d.toNat + u * field c.b 48 13) (List.replicate (field c.b 48 13) 0)) id)
      b.id xs := by
  have hpieces := piecesOf_eq_cutPieces 64 (c.d.toNat + u * field c.b 48 13) (List.replicate (field c.b 48 13) 0)
    (by rwa [List.length_replicate])
  unfold gathUnit
  dsimp only
  rw [if_pos h, ← hpieces]
  exact ⟨_, rfl⟩

theorem gathUnit_row {ctx : Context} {rs : List Reached} (h : c.work.getD u 0 ≠ 0xFFFFFFFF) (hn : field c.b 48 13 ≤ 4096)
    (hctx : s.ctx? b.ctx = some ctx) : let va := (c.a.toNat + c.work.getD u 0 * field c.b 48 13) % 2 ^ 64
    canonical (BitVec.ofNat 64 va) = true →
    reachAll s ctx b.isle .copyRead (stretchesOf ((List.range (field c.b 48 13)).map (va + ·))) = .ok rs →
    reachedRace s b (commandAccessor b c) .gather false rs = none →
    let s1 := markReached s b (commandAccessor b c) false rs
    ∃ v, Touched s v ∧ v.hbm = s1.hbm ∧ ∃ xs, gathUnit s b c u =
      presentUnit (landUnit v b .gather c u (cutPieces (c.d.toNat + u * field c.b 48 13) (readReached s1 rs)) id) b.id xs := by
  intro va hcanon hreach hrace s1
  have hx := commandAccessor_wrid b c
  obtain ⟨v, hv, hw⟩ := withReach_ok hctx hreach .gather c
  have hmark := markReached_cached hx hv b false rs
  have hread : readReached (markReached v b (commandAccessor b c) false rs) rs = readReached s1 rs := by
    rw [hmark]
    exact readReached_congr rfl rfl rfl rs
  have hlen : (readReached s1 rs).length = field c.b 48 13 := by
    rw [reachAll_bytes hreach, List.length_map, List.length_range]
  refine ⟨markReached v b (commandAccessor b c) false rs, (Touched.of_cached hv).trans (markReached_touched hx v b false rs),
    by rw [hmark], ?_⟩
  rw [← piecesOf_eq_cutPieces 64 _ _ (hlen ▸ hn)]
  unfold gathUnit
  dsimp only
  rw [if_neg h, show (!canonical (BitVec.ofNat 64 ((c.a.toNat + c.work.getD u 0 * gathSize c.b) % 2 ^ 64))) = false by
    rw [Bool.not_eq_false']; exact hcanon, if_neg Bool.false_ne_true]
  rw [← hread]
  refine ⟨watchReached rs false ++ [watchScratch (c.d.toNat + u * gathSize c.b) (gathSize c.b) true], (hw _).trans ?_⟩
  rw [reachedRace_cached hv, hrace]
  rfl

end

theorem gatherUnits : GatherUnits := by
  intro s b c ctx d a x w choice u h hstarted hi hctx hquiet hpick n hlow hhigh idx lands
  have hexec : exec (.engineUnitWrite b.id .gather choice) s = .next (gathUnit s b c u) := by
    rw [exec_engineUnitWrite h hstarted hpick, unitOf, hi]
  have hwriter : engineWriter c.instr = 20 := by rw [hi]; rfl
  -- what a unit comes to once its bytes are known, whatever the state in which they were read
  have hlands : ∀ (v s1 : State) (bytes : List Byte) (xs : List WatchAccess), Touched s v → v.hbm = s1.hbm →
      gathUnit s b c u = presentUnit (landUnit v b .gather c u (cutPieces (c.d.toNat + u * n) bytes) id) b.id xs → lands s1 bytes := by
    intro v s1 bytes xs hv hhbm hunit hcount hcan
    obtain ⟨b', hl⟩ := landUnit_lands (s := v) (done := id) (stamp := id) ((hv.block b.id).trans h.here) h.sized (ReadsOnly.refl b)
      hcan.wf.2 ((countedRace_touched hv ..).trans hcount) hcan (fun _ => rfl) u
    rw [hl.quiet (hv.unwatched hquiet)] at hunit
    obtain ⟨hstep, hrest⟩ := hl.of_touched hv
    rw [hunit] at hexec
    have hland := hl.lands
    rw [hwriter] at hland
    rw [hhbm] at hrest
    refine ⟨_, b', hexec, hstep, hrest, hland, ?_, hl.done⟩
    rw [hl.fwin]
    exact ite_self _
  refine ⟨fun hzero => ?_, fun hindex rs hcanon hreach hrace => ?_⟩
  · obtain ⟨xs, hunit⟩ := gathUnit_zeros (s := s) (b := b) hzero hhigh
    exact hlands s s _ xs rfl rfl hunit
  · obtain ⟨v, hv, hhbm, xs, hunit⟩ := gathUnit_row (s := s) (b := b) hindex hhigh hctx hcanon hreach hrace
    exact hlands v _ _ xs hv hhbm hunit

end Sys2Proof.Machine
end

section
/-!
PROOFS. Units of BCOPY away from scratchpad (R75, R78, R278, R334).
-/

namespace Sys2Proof.Machine

/-! ### What a unit toward memory leaves -/

/-- The counters of a context rise after a block was replaced, whatever else the unit did. -/
theorem addCounter_after {s r : State} {b z : Block} (hb : s.block? b.id = some b) (hid : z.id = b.id)
    (hblocks : r.blocks = (s.putBlock z).blocks) (hcontexts : r.contexts = s.contexts) (ctx core off n : Nat) :
    let t := addCounter r ctx core off n
    t.block? b.id = some z ∧ OtherBlocks s t b.id ∧ SameContexts s t ∧ t = { r with contexts := t.contexts } := by
  intro t
  have heq : t = { r with contexts := t.contexts } := addCounter_eq ..
  have hat : ∀ j, t.block? j = (s.putBlock z).block? j := fun j => by
    rw [heq, State.block?, State.block?, ← hblocks]
  refine ⟨(hat _).trans (State.putBlock_block_same s z b.id b hid hb), fun j hj => (hat j).trans (putBlock_others s hid j hj),
    fun i => ?_, heq⟩
  have hsame := addCounter_sameContexts r ctx core off n i
  rw [State.ctx?, State.ctx?, hcontexts] at hsame
  exact hsame

/-- A step that changes the memories at most. -/
def MemoriesOnly (s t : State) : Prop := t = { s with hbm := t.hbm, peer := t.peer, host := t.host }

theorem MemoriesOnly.trans {s t u : State} (h : MemoriesOnly s t) (k : MemoriesOnly t u) : MemoriesOnly s u := by
  unfold MemoriesOnly at *
  rw [h] at k
  exact k

theorem writeReached_memories (s : State) (rs : List Reached) (bs : List Byte) : MemoriesOnly s (writeReached s rs bs) := by
  induction rs generalizing s bs with
  | nil => rfl
  | cons r rs ih =>
    have hloc : MemoriesOnly s (writeLoc s r.place.loc (bs.take r.len)) := writeLoc_rest ..
    exact hloc.trans (ih ..)

theorem markReached_memories {x : Accessor} (hx : x.wrid ≠ wridSeq) (s : State) (b : Block) (write : Bool) (rs : List Reached) :
    MemoriesOnly s (markReached s b x write rs) := by
  have hcached : (markReached s b x write rs).cached = s.cached := by
    have := markReached_cached hx (OnlyCached.eq rfl : OnlyCached s s) b write rs
    rw [this]
  have htouched := markReached_touched hx s b write rs
  unfold Touched at htouched
  unfold MemoriesOnly
  rw [hcached] at htouched
  conv_lhs => rw [htouched]
  rw [htouched]

/-- The state with other blocks and other cached leaves. -/
def withBlocks (bs : List Block) (cs : List CachedXlat) (s : State) : State := { s with blocks := bs, cached := cs }

theorem writeLoc_withBlocks (bs : List Block) (cs : List CachedXlat) (s : State) (l : Loc) (ys : List Byte) :
    writeLoc (withBlocks bs cs s) l ys = withBlocks bs cs (writeLoc s l ys) := by
  obtain ⟨sp, a⟩ := l
  cases sp <;> rfl

theorem writeReached_withBlocks (bs : List Block) (cs : List CachedXlat) (s : State) (rs : List Reached) (ys : List Byte) :
    writeReached (withBlocks bs cs s) rs ys = withBlocks bs cs (writeReached s rs ys) := by
  induction rs generalizing s ys with
  | nil => rfl
  | cons r rs ih => rw [writeReached, writeReached, writeLoc_withBlocks, ih]

/-- What a write makes of a granule's tag names its writer alone: it does not tell the block after the unit from the block before. -/
theorem tagGranule_withBlocks (bs : List Block) (cs : List CachedXlat) {b y : Block} (h : WritesOnly b y) (x : Accessor) (s : State)
    (g : Nat) : tagGranule y x true false (withBlocks bs cs s) g = withBlocks bs cs (tagGranule b x true false s g) := by
  have hident : y.ident = b.ident := by rw [h]
  have hepoch : writerEpoch (withBlocks bs cs s) y = writerEpoch s b := by
    have hgrid : y.grid = b.grid := by rw [h]
    have harrivals : y.arrivals = b.arrivals := by rw [h]
    rw [writerEpoch, writerEpoch, hgrid, harrivals]
    rfl
  have hwritten : granuleWritten (withBlocks bs cs s) y x false = granuleWritten s b x false := by
    rw [granuleWritten, granuleWritten, hident, hepoch]
  rw [tagGranule, tagGranule, if_pos rfl, if_pos rfl, hwritten]
  rfl

/-! ### BCOPY away from scratchpad (R78) -/

theorem unitBlock_plain (y : Block) (q : EngineQueue) (c1 : Command) (gen : Option (BitVec 16)) :
    (if c1.units ≤ c1.done then completeCommand y q c1 gen else putHead y q c1) = unitBlock y q c1 gen id :=
  unitBlock_eq (done := id) y q c1 gen fun _ => rfl

/-- The block once n bytes from an offset are read and counted. -/
def countedOut (s : State) (b : Block) (c : Command) (src n : Nat) : Block :=
  markRead s (countedBlock b (commandAccessor b c) c.sync n) (commandAccessor b c) (wordsOf src n)

theorem countedOut_scratch (s : State) (b : Block) (c : Command) (src n : Nat) :
    (countedOut s b c src n).scratch = (countedBlock b (commandAccessor b c) c.sync n).scratch := rfl

theorem countedOut_only (s : State) (b : Block) (c : Command) (src n : Nat) : WritesOnly b (countedOut s b c src n) := by
  have h : WritesOnly b (countedBlock b (commandAccessor b c) c.sync n) := putBytes_only (commandAccessor_wrid b c) _ _
  exact h.trans rfl

section
variable {s : State} {b : Block} {c : Command} {ctx : Context} {u : Nat} {rs : List Reached}

/-- A unit of a copy toward memory whose bytes translate, do not race and fit the count. -/
theorem bcopyOut_writes (hctx : s.ctx? b.ctx = some ctx) : let n := min 64 (c.work.getD 0 0 - 64 * u)
    let src := c.d.toNat + 64 * u
    reachAll s ctx b.isle .copyWrite (stretchesOf ((unitBytes (c.work.getD 0 0) u).map (c.a.toNat + ·))) = .ok rs →
    countedRace s b b.id c.serial .copy (commandAccessor b c) c.sync false [(src, n)] = none →
    reachedRace s b (commandAccessor b c) .copy true rs = none → countsFit (readSync b c.sync) [n] →
    ∃ v, OnlyCached s v ∧ ∃ xs, bcopyOut s b c u = presentUnit (addCounter (withBlocks
      (s.putBlock (unitBlock (countedOut v b c src n) .copy (progressUnit c u) (some ((readSync b c.sync).gen + 1)) id)).blocks v.cached
      (markReached (writeReached s rs (readBytes b.scratch src n)) b (commandAccessor b c) true rs)) b.ctx
      (coreNumber b.isle b.core) 0x48 n) b.id xs := by
  intro n src hreach hcount hrace hfits
  have hx := commandAccessor_wrid b c
  obtain ⟨v, hv, hw⟩ := withReach_ok hctx hreach .copy c
  have hlen : (unitBytes (c.work.getD 0 0) u).length = n := by rw [unitBytes, List.length_map, List.length_range]
  have hcounts := countSync_fits (x := commandAccessor b c) hfits.1
  have hraceV : countedRace v b b.id c.serial .copy (commandAccessor b c) c.sync false [(src, n)] = none :=
    (countedRace_touched (Touched.of_cached hv) ..).trans hcount
  have hput : ∀ z, v.putBlock z = withBlocks (s.putBlock z).blocks v.cached s := fun z => by rw [hv.eq]; rfl
  refine ⟨v, hv, ?_⟩
  unfold bcopyOut
  dsimp only
  rw [hw, hlen]
  rw [hraceV, reachedRace_cached hv, hrace]
  dsimp only
  rw [hcounts]
  dsimp only
  rw [← countedOut, unitBlock_plain, hput, writeReached_withBlocks,
    markReached_hom hx (k := withBlocks _ v.cached) fun s g => tagGranule_withBlocks _ _ (countedOut_only v b c src n) _ s g]
  exact ⟨_, rfl⟩

end

theorem copiesOut (s : State) (b : Block) (c : Command) (ctx : Context) (d a x w : BitVec 5) (choice u : Nat) (rs : List Reached)
    (h : EngineTurn s b .copy c) (hstarted : c.started = true) (hi : c.instr = .bcopy d a x 1 w) (hctx : s.ctx? b.ctx = some ctx)
    (hquiet : Unwatched s b.ctx) (hpick : PicksUnit s b .copy c choice u) :
    let n := min 64 (c.work.getD 0 0 - 64 * u)
    let src := c.d.toNat + 64 * u
    reachAll s ctx b.isle .copyWrite (stretchesOf ((unitBytes (c.work.getD 0 0) u).map (c.a.toNat + ·))) = .ok rs →
    countedRace s b b.id c.serial .copy (commandAccessor b c) c.sync false [(src, n)] = none →
    reachedRace s b (commandAccessor b c) .copy true rs = none → countsFit (readSync b c.sync) [n] → Memory.wf b.scratch = true →
    let s1 := markReached (writeReached s rs (readBytes b.scratch src n)) b (commandAccessor b c) true rs
    ∃ t b', exec (.engineUnitWrite b.id .copy choice) s = .next t ∧ UnitStep s t b b' ∧
      t = { s with blocks := t.blocks, cached := t.cached, contexts := t.contexts, hbm := s1.hbm, peer := s1.peer,
                   host := s1.host } ∧
      readSync b' c.sync = counted (readSync b c.sync) n ∧ SameOutside b.scratch b'.scratch c.sync 8 ∧ b'.fwin = b.fwin ∧
      UnitDone b b' .copy c (progressUnit c u) (some ((readSync b c.sync).gen + 1)) := by
  intro n src hreach hcount hrace hfits hwf s1
  have hx := commandAccessor_wrid b c
  obtain ⟨v, hv, xs, hunit⟩ := bcopyOut_writes hctx hreach hcount hrace hfits
  have hexec : exec (.engineUnitWrite b.id .copy choice) s = .next (bcopyOut s b c u) := by
    rw [exec_engineUnitWrite h hstarted hpick, unitOf, hi]
    rfl
  have honly := countedOut_only v b c src n
  have hsync : readSync (countedOut v b c src n) c.sync = counted (readSync b c.sync) n :=
    (readSync_congr (countedOut_scratch ..) _).trans (countedBlock_sync hx hwf hfits.1)
  have hout : SameOutside b.scratch (countedOut v b c src n).scratch c.sync 8 := by
    rw [countedOut_scratch]
    exact countedBlock_outside hx hwf
  have hs1 : MemoriesOnly s s1 := (writeReached_memories ..).trans (markReached_memories hx ..)
  generalize some ((readSync b c.sync).gen + 1) = gen at hunit ⊢
  generalize countedOut v b c src n = y at hunit honly hsync hout
  have hframe := unitBlock_frame y .copy (progressUnit c u) gen id
  have hdone := unitBlock_done (q := .copy) (y := y) (by rw [honly]) h.sized (by rw [honly]) (by rw [honly]) (progressUnit_serial c u)
    gen id
  generalize unitBlock y .copy (progressUnit c u) gen id = z at hunit hframe hdone
  have hid : z.id = b.id := by rw [hframe, honly]
  have hz : z = { b with scratch := z.scratch, tags := z.tags, badWords := z.badWords, queues := z.queues, armed := z.armed,
                         fwin := z.fwin } := by rw [hframe, honly]
  have hscratch : z.scratch = y.scratch := by rw [hframe]
  have hfwin : z.fwin = b.fwin := by
    rw [hframe, honly]
    exact ite_self _
  have hrest : withBlocks (s.putBlock z).blocks v.cached s1 = { s with
      blocks := (s.putBlock z).blocks, cached := v.cached, hbm := s1.hbm, peer := s1.peer, host := s1.host } := by
    rw [withBlocks, hs1]
  change bcopyOut s b c u = presentUnit (addCounter (withBlocks (s.putBlock z).blocks v.cached s1) b.ctx
    (coreNumber b.isle b.core) 0x48 n) b.id xs at hunit
  rw [hrest] at hunit
  obtain ⟨hthere, hothers, hcontexts, ht⟩ := addCounter_after h.here hid (r := { s with
      blocks := (s.putBlock z).blocks, cached := v.cached, hbm := s1.hbm, peer := s1.peer, host := s1.host }) rfl rfl b.ctx
    (coreNumber b.isle b.core) 0x48 n
  generalize addCounter _ b.ctx (coreNumber b.isle b.core) 0x48 n = t at hunit hthere hothers hcontexts ht
  have hpresent : presentUnit t b.id xs = t := by
    have hctx : z.ctx = b.ctx := by rw [hz]
    refine presentUnit_quiet hthere ?_ xs
    rw [hctx]
    exact hquiet.same hcontexts
  rw [hunit, hpresent] at hexec
  refine ⟨t, z, hexec, ⟨hthere, hothers, hcontexts, hz⟩, ?_, (readSync_congr hscratch _).trans hsync, ?_, hfwin, hdone⟩
  · rw [ht]
  · rwa [hscratch]

end Sys2Proof.Machine
end

section
/-!
PROOFS. Histogram records, and the units of HIST (R86, R334).
-/

namespace Sys2Proof.Machine

/-! ### A record in scratchpad (R86) -/

/-- The words of a record, as it lies in scratchpad. -/
def histWords (r : HistRecord) : List Nat := r.bins ++ [r.num, r.nanc, r.maxa, 0]

theorem histBytes_eq (r : HistRecord) : histBytes r = (histWords r).flatMap (leBytes 4) := by
  simp only [histBytes, histWords, List.flatMap_append, List.flatMap_cons, List.flatMap_nil, List.append_nil, List.append_assoc]

theorem flatMap_leBytes_chunk (ws : List Nat) {k : Nat} (hk : k < ws.length) :
    ((ws.flatMap (leBytes 4)).drop (4 * k)).take 4 = leBytes 4 (ws.getD k 0) := by
  induction ws generalizing k with
  | nil => exact absurd hk (Nat.not_lt_zero k)
  | cons w ws ih =>
    cases k with
    | zero => exact List.take_left' (leBytes_length 4 w)
    | succ k =>
      have hdrop : ((w :: ws).flatMap (leBytes 4)).drop (4 * (k + 1)) = (ws.flatMap (leBytes 4)).drop (4 * k) := by
        rw [List.flatMap_cons, show 4 * (k + 1) = 4 + 4 * k by omega, ← List.drop_drop, List.drop_left' (leBytes_length 4 w)]
      rw [hdrop, ih (Nat.lt_of_succ_lt_succ hk)]
      rfl

/-- A record whose counts are those of 32-bit words. -/
structure HistSized (r : HistRecord) : Prop where
  length : r.bins.length = 64
  bins   : ∀ k, r.bins.getD k 0 ≤ 0xFFFFFFFF
  num    : r.num ≤ 0xFFFFFFFF
  nanc   : r.nanc ≤ 0xFFFFFFFF
  maxa   : r.maxa ≤ 0xFFFFFFFF

theorem leNat_word (bs : List Byte) : leNat (bs.take 4) ≤ 0xFFFFFFFF := by
  have h := leNat_lt (bs.take 4)
  have hlen : (bs.take 4).length ≤ 4 := List.length_take_le 4 bs
  have hpow : 256 ^ (bs.take 4).length ≤ 256 ^ 4 := Nat.pow_le_pow_right (by decide) hlen
  omega

theorem readHist_sized (bs : List Byte) : HistSized (readHist bs) where
  length := by simp [readHist]
  bins k := by
    rw [readHist]
    dsimp only
    by_cases hk : k < 64
    · rw [List.getD_eq_getElem _ _ (by simpa using hk), List.getElem_map]
      exact leNat_word _
    · rw [List.getD_eq_default _ _ (by simpa using Nat.not_lt.mp hk)]
      exact Nat.zero_le _
  num := leNat_word _
  nanc := leNat_word _
  maxa := leNat_word _

theorem histBytes_length {r : HistRecord} (h : HistSized r) : (histBytes r).length = 272 := by
  rw [histBytes_eq, List.length_flatMap]
  simp only [leBytes_length, List.map_const', List.sum_replicate, histWords, List.length_append, h.length]
  rfl

theorem readHist_histBytes {r : HistRecord} (h : HistSized r) : readHist (histBytes r) = r := by
  have hlen : (histWords r).length = 68 := by simp [histWords, h.length]
  have hword : ∀ k, k < 68 → (histWords r).getD k 0 ≤ 0xFFFFFFFF →
      leNat (((histBytes r).drop (4 * k)).take 4) = (histWords r).getD k 0 := fun k hk hle => by
      rw [histBytes_eq, flatMap_leBytes_chunk _ (hlen ▸ hk), leNat_leBytes, Nat.mod_eq_of_lt (by omega)]
  have htop : ∀ k, (histWords r).getD (64 + k) 0 = [r.num, r.nanc, r.maxa, 0].getD k 0 := fun k => by
    rw [histWords, List.getD_append_right _ _ _ _ (by rw [h.length]; omega), h.length, Nat.add_sub_cancel_left]
  have hlow : ∀ k, k < 64 → (histWords r).getD k 0 = r.bins.getD k 0 := fun k hk => by
    rw [histWords, List.getD_append _ _ _ _ (by rwa [h.length])]
  have hbins : (List.range 64).map (fun k => leNat (((histBytes r).drop (4 * k)).take 4)) = r.bins := by
    refine List.ext_getElem (by simp [h.length]) fun k hk hk' => ?_
    have hk64 : k < 64 := by simpa using hk
    rw [List.getElem_map, List.getElem_range, hword k (by omega) (by rw [hlow k hk64]; exact h.bins k), hlow k hk64,
      List.getD_eq_getElem _ _ hk']
  rw [readHist]
  dsimp only
  rw [hbins, hword 64 (by decide) (by rw [htop 0]; exact h.num), hword 65 (by decide) (by rw [htop 1]; exact h.nanc),
    hword 66 (by decide) (by rw [htop 2]; exact h.maxa), htop 0, htop 1, htop 2]
  rfl

/-! ### Values into a record (R86) -/

theorem satInc_le (n : Nat) : satInc n ≤ 0xFFFFFFFF := Nat.min_le_right ..

/-- A value that is no NaN. -/
def isCounted (v : Nat) : Bool := decide (v % 2 ^ 31 ≤ 0x7F800000)

theorem histAdd_nan {v : Nat} (h : isCounted v = false) (r : HistRecord) : histAdd r v = { r with nanc := satInc r.nanc } := by
  rw [histAdd]
  exact if_pos (Nat.not_le.mp (of_decide_eq_false h))

theorem histAdd_number {v : Nat} (h : isCounted v = true) (r : HistRecord) : histAdd r v =
    { bins := r.bins.modify (histBin v) satInc, num := satInc r.num, nanc := r.nanc,
      maxa := if v % 2 ^ 31 = 0x7F800000 then r.maxa else max r.maxa (v % 2 ^ 31) } := by
  rw [histAdd]
  exact if_neg (Nat.not_lt.mpr (of_decide_eq_true h))

theorem histBin_lt (v : Nat) : histBin v < 64 := Nat.lt_of_le_of_lt (Nat.min_le_right ..) (by decide)

theorem histAdd_sized {r : HistRecord} (h : HistSized r) (v : Nat) : HistSized (histAdd r v) := by
  cases hv : isCounted v with
  | false =>
    rw [histAdd_nan hv]
    exact ⟨h.length, h.bins, h.num, satInc_le _, h.maxa⟩
  | true =>
    rw [histAdd_number hv]
    refine ⟨by simpa using h.length, fun k => ?_, satInc_le _, h.nanc, ?_⟩
    · dsimp only
      rw [getD_modify (by rw [h.length]; exact histBin_lt v)]
      split
      · exact satInc_le _
      · exact h.bins k
    · dsimp only
      split
      · exact h.maxa
      · have hmax := h.maxa
        omega

theorem foldl_histAdd_sized (vs : List Nat) {r : HistRecord} (h : HistSized r) : HistSized (vs.foldl histAdd r) := by
  induction vs generalizing r with
  | nil => exact h
  | cons v vs ih => exact ih (histAdd_sized h v)

theorem min_satInc (n k : Nat) : min 0xFFFFFFFF (satInc n + k) = min 0xFFFFFFFF (n + (k + 1)) := by
  have hgen : ∀ m, min m (min (n + 1) m + k) = min m (n + (k + 1)) := fun m => by omega
  exact hgen _

/-- A record after one NaN and then further values. -/
theorem histogramOf_nan {r r' : HistRecord} {v : Nat} (hv : isCounted v = false) {vs : List Nat}
    (h : HistogramOf (histAdd r v) r' vs) : HistogramOf r r' (v :: vs) := by
  rw [histAdd_nan hv] at h
  obtain ⟨hbins, hnum, hnanc, hmaxa⟩ := h
  have hnan : 0x7F800000 < v % 2 ^ 31 := Nat.not_le.mp (of_decide_eq_false hv)
  have hbin : ∀ k, ¬ (decide (v % 2 ^ 31 ≤ 0x7F800000) && min 63 (v / 2 ^ 23 % 256 - 96) == k) = true := fun k => by
    rw [show decide (v % 2 ^ 31 ≤ 0x7F800000) = false from hv]
    exact Bool.false_ne_true
  refine ⟨fun k hk => ?_, ?_, ?_, ?_⟩
  · rw [hbins k hk, List.countP_cons, if_neg (hbin k), Nat.add_zero]
  · rw [hnum, List.countP_cons, if_neg (by rw [decide_eq_true_iff]; exact Nat.not_le.mpr hnan), Nat.add_zero]
  · rw [hnanc, List.countP_cons, if_pos (decide_eq_true hnan), min_satInc]
  · rw [hmaxa, List.map_cons, List.filter_cons, if_neg (by rw [decide_eq_true_iff]; exact Nat.not_lt.mpr (Nat.le_of_lt hnan))]

/-- A record after one value that is no NaN and then further values. -/
theorem histogramOf_number {r r' : HistRecord} (hr : HistSized r) {v : Nat} (hv : isCounted v = true) {vs : List Nat}
    (h : HistogramOf (histAdd r v) r' vs) : HistogramOf r r' (v :: vs) := by
  rw [histAdd_number hv] at h
  obtain ⟨hbins, hnum, hnanc, hmaxa⟩ := h
  have hle : v % 2 ^ 31 ≤ 0x7F800000 := of_decide_eq_true hv
  have hcounted : decide (v % 2 ^ 31 ≤ 0x7F800000) = true := hv
  have hbin : histBin v = min 63 (v / 2 ^ 23 % 256 - 96) := Nat.min_comm ..
  refine ⟨fun k hk => ?_, ?_, ?_, ?_⟩
  · rw [hbins k hk]
    dsimp only
    rw [getD_modify (by rw [hr.length]; exact histBin_lt v), List.countP_cons, hcounted, Bool.true_and, hbin]
    by_cases hkv : k = min 63 (v / 2 ^ 23 % 256 - 96)
    · rw [if_pos hkv, min_satInc, if_pos (by rw [beq_iff_eq, hkv])]
    · rw [if_neg hkv, if_neg (by rw [beq_iff_eq]; exact fun h => hkv h.symm), Nat.add_zero]
  · rw [hnum, List.countP_cons, if_pos hcounted, min_satInc]
  · rw [hnanc]
    dsimp only
    rw [List.countP_cons, if_neg (by rw [decide_eq_true_iff]; exact Nat.not_lt.mpr hle), Nat.add_zero]
  · rw [hmaxa, List.map_cons]
    dsimp only
    by_cases hinf : v % 2 ^ 31 = 0x7F800000
    · rw [if_pos hinf, List.filter_cons, if_neg (by rw [decide_eq_true_iff, hinf]; exact Nat.lt_irrefl _)]
    · rw [if_neg hinf, List.filter_cons, if_pos (decide_eq_true (Nat.lt_of_le_of_ne hle hinf)), List.foldl_cons]

theorem histogramOf_foldl (vs : List Nat) {r : HistRecord} (h : HistSized r) : HistogramOf r (vs.foldl histAdd r) vs := by
  induction vs generalizing r with
  | nil => exact ⟨fun k _ => (Nat.min_eq_right (h.bins k)).symm, (Nat.min_eq_right h.num).symm, (Nat.min_eq_right h.nanc).symm, rfl⟩
  | cons v vs ih =>
    have hrest := ih (histAdd_sized h v)
    cases hv : isCounted v with
    | false => exact histogramOf_nan hv hrest
    | true => exact histogramOf_number h hv hrest

/-! ### The units of HIST (R86) -/

/-- The record after unit u of a HIST. -/
def histRecord (b : Block) (c : Command) (src n : Nat) : HistRecord :=
  (wordsAt b src n).foldl histAdd (readHist (readBytes b.scratch c.d.toNat 272))

theorem histRecord_sized (b : Block) (c : Command) (src n : Nat) : HistSized (histRecord b c src n) :=
  foldl_histAdd_sized _ (readHist_sized _)

/-- The block once the record is written; `y` is the block with the record's bytes counted, if the unit is the last. -/
def histWritten (s : State) (b y : Block) (c : Command) (src n : Nat) : Block :=
  markWrite (markRead s { y with scratch := writeBytes y.scratch c.d.toNat (histBytes (histRecord b c src n)) } (commandAccessor b c)
    (wordsOf src (4 * n))) (commandAccessor b c) false [(c.d.toNat, 272)]

theorem histWritten_only (s : State) {b y : Block} (h : WritesOnly b y) (c : Command) (src n : Nat) :
    WritesOnly b (histWritten s b y c src n) := by
  refine h.trans ?_
  rw [histWritten, markWrite_eq _ (commandAccessor_wrid b c)]
  rfl

theorem histWritten_scratch (s : State) (b y : Block) (c : Command) (src n : Nat) :
    (histWritten s b y c src n).scratch = writeBytes y.scratch c.d.toNat (histBytes (histRecord b c src n)) := by
  rw [histWritten, markWrite_eq _ (commandAccessor_wrid b c)]
  rfl

/-- What counting the record leaves before it is written: the block itself, or, at the last unit, the block with 272 bytes counted. -/
structure HistCounted (b y : Block) (c : Command) (last : Prop) : Prop where
  only : WritesOnly b y
  wf   : Memory.wf y.scratch = true
  sync : last → readSync y c.sync = counted (readSync b c.sync) 272
  same : ¬ last → readSync y c.sync = readSync b c.sync
  rest : SameOutside b.scratch y.scratch c.sync 8

/-- A unit of a HIST whose words do not race, and whose record fits the count if it is the last. -/
theorem histUnit_counts {s : State} {b : Block} {c : Command} {u : Nat} : let n := min 16 (field c.b 0 18 - 16 * u)
    let src := c.a.toNat + 64 * u
    let c1 := progressUnit c u
    engineRaceAt s b b.id c.serial .copy (commandAccessor b c) false src (4 * n) = none →
    countedRace s b b.id c.serial .copy (commandAccessor b c) c.sync true [(c.d.toNat, 272)] = none →
    Memory.wf b.scratch = true → (c1.units ≤ c1.done → countsFit (readSync b c.sync) [272]) →
    ∃ y gen k xs, HistCounted b y c (c1.units ≤ c1.done) ∧ (c1.units ≤ c1.done → gen = some ((readSync b c.sync).gen + 1)) ∧
      histUnit s b c u = presentUnit (addCounter (s.putBlock (commandNext (histWritten s b y c src n) .copy c1 gen
        (decide (c1.units ≤ c1.done)))) b.ctx (coreNumber b.isle b.core) 0x48 k) b.id xs := by
  intro n src c1 hread hcount hwf hfits
  have hx := commandAccessor_wrid b c
  have hreadU : engineRaceAt s b b.id c.serial .copy (commandAccessor b c) false (c.a.toNat + 64 * u)
    (4 * min 16 (bitsAt c.b 0 18 - 16 * u)) = none := hread
  have hcountU : countedRace s b b.id c.serial .copy (commandAccessor b c) c.sync true [(c.d.toNat, histRecordBytes)] = none := hcount
  by_cases hlast : c1.units ≤ c1.done
  · have hcounts : countSync b (commandAccessor b c) c.sync histRecordBytes =
        some (countedBlock b (commandAccessor b c) c.sync 272, (readSync b c.sync).gen + 1) := countSync_fits (hfits hlast).1
    refine ⟨countedBlock b (commandAccessor b c) c.sync 272, some ((readSync b c.sync).gen + 1), 272,
      [watchScratch src (4 * n) false, watchScratch c.d.toNat 272 true],
      ⟨putBytes_only hx _ _, putBytes_wf hx hwf _ _, fun _ => countedBlock_sync hx hwf (hfits hlast).1, fun h => absurd hlast h,
        countedBlock_outside hx hwf⟩, fun _ => rfl, ?_⟩
    unfold histUnit
    dsimp only
    rw [hreadU, hcountU]
    dsimp only
    rw [decide_eq_true hlast, if_pos rfl, hcounts]
    rfl
  · refine ⟨b, none, 0, [watchScratch src (4 * n) false, watchScratch c.d.toNat 272 true],
      ⟨rfl, hwf, fun h => absurd h hlast, fun _ => rfl, fun _ _ => rfl⟩, fun h => absurd h hlast, ?_⟩
    unfold histUnit
    dsimp only
    rw [hreadU, hcountU]
    dsimp only
    rw [decide_eq_false hlast, if_neg Bool.false_ne_true]
    rfl

/-- A block is replaced by one whose command goes on or has left, and the unit is counted: what the step is then. -/
theorem countedUnit {s : State} {b y z : Block} {q : EngineQueue} {c c1 : Command} {gen : Option (BitVec 16)} (h : EngineTurn s b q c)
    (hquiet : Unwatched s b.ctx) (honly : WritesOnly b y) (hz : z = commandNext y q c1 gen (decide (c1.units ≤ c1.done)))
    (hserial : c1.serial = c.serial) (core off k : Nat) (xs : List WatchAccess) :
    let t := presentUnit (addCounter (s.putBlock z) b.ctx core off k) b.id xs
    UnitStep s t b z ∧ t = { s with blocks := t.blocks, contexts := t.contexts } ∧ UnitDone b z q c c1 gen ∧
      z.scratch = y.scratch ∧ z.fwin = b.fwin := by
  intro t
  have hframe : z = { y with queues := z.queues, armed := z.armed } := by rw [hz, commandNext_frame]
  have hdone : UnitDone b z q c c1 gen := by
    rw [hz]
    exact commandNext_done (by rw [honly]) h.sized (by rw [honly]) (by rw [honly]) hserial gen decide_eq_true_iff
  have hid : z.id = b.id := by rw [hframe, honly]
  have hctx : z.ctx = b.ctx := by rw [hframe, honly]
  obtain ⟨hthere, hothers, hcontexts, hrest⟩ := putBlock_counted h.here hid b.ctx core off k
  have ht : t = addCounter (s.putBlock z) b.ctx core off k :=
    presentUnit_quiet hthere (by rw [hctx]; exact hquiet.same hcontexts) xs
  rw [ht]
  exact ⟨⟨hthere, hothers, hcontexts, by rw [hframe, honly]⟩, hrest, hdone, by rw [hframe], by rw [hframe, honly]⟩

theorem histUnits (s : State) (b : Block) (c : Command) (d a x w : BitVec 5) (choice u : Nat) (h : EngineTurn s b .copy c)
    (hstarted : c.started = true) (hi : c.instr = .hist d a x w) (hquiet : Unwatched s b.ctx) (hpick : PicksUnit s b .copy c choice u) :
    let n := min 16 (field c.b 0 18 - 16 * u)
    let src := c.a.toNat + 64 * u
    let rec_ := c.d.toNat
    let c1 := progressUnit c u
    let last := c1.units ≤ c1.done
    engineRaceAt s b b.id c.serial .copy (commandAccessor b c) false src (4 * n) = none →
    countedRace s b b.id c.serial .copy (commandAccessor b c) c.sync true [(rec_, 272)] = none →
    Memory.wf b.scratch = true → rec_ + 272 ≤ c.sync ∨ c.sync + 8 ≤ rec_ → (last → countsFit (readSync b c.sync) [272]) →
    ∃ t b', exec (.engineUnitWrite b.id .copy choice) s = .next t ∧ UnitStep s t b b' ∧
      t = { s with blocks := t.blocks, contexts := t.contexts } ∧ b'.fwin = b.fwin ∧
      HistogramOf (readHist (readBytes b.scratch rec_ 272)) (readHist (readBytes b'.scratch rec_ 272)) (wordsAt b src n) ∧
      readSync b' c.sync = (if last then counted (readSync b c.sync) 272 else readSync b c.sync) ∧
      (∀ y, (y < rec_ ∨ rec_ + 272 ≤ y) → (y < c.sync ∨ c.sync + 8 ≤ y) → readByte b'.scratch y = readByte b.scratch y) ∧
      UnitDone b b' .copy c c1 (some ((readSync b c.sync).gen + 1)) := by
  intro n src rec_ c1 last hread hcount hwf hclear hfits
  obtain ⟨y, gen, k, xs, hcounted, hgen, hunit⟩ := histUnit_counts hread hcount hwf hfits
  have hexec : exec (.engineUnitWrite b.id .copy choice) s = .next (histUnit s b c u) := by
    rw [exec_engineUnitWrite h hstarted hpick, unitOf, hi]
  have hrecord := histRecord_sized b c src n
  have hlen := histBytes_length hrecord
  have hscratch := histWritten_scratch s b y c src n
  obtain ⟨hstep, hrest, hdone, hz, hfwin⟩ := countedUnit h hquiet (histWritten_only s hcounted.only c src n) rfl
    (progressUnit_serial c u) (coreNumber b.isle b.core) 0x48 k xs (gen := gen)
  rw [← hunit] at hstep hrest
  rw [hscratch] at hz
  refine ⟨_, _, hexec, hstep, hrest, hfwin, ?_, ?_, fun z hrec hsync => ?_, ?_⟩
  · have hbytes := readBytes_writeBytes (histBytes (histRecord b c src n)) y.scratch rec_ hcounted.wf
    rw [hlen] at hbytes
    rw [hz, hbytes, readHist_histBytes hrecord]
    exact histogramOf_foldl _ (readHist_sized _)
  · have hsame : readSync (commandNext (histWritten s b y c src n) .copy c1 gen (decide (c1.units ≤ c1.done))) c.sync =
        readSync y c.sync := by
      rw [readSync_eq, hz, readBytes_writeBytes_other _ _ _ _ _ hcounted.wf (by rw [hlen]; omega), readSync_eq]
    rw [hsame]
    split
    · next hlast => exact hcounted.sync hlast
    · next hlast => exact hcounted.same hlast
  · rw [hz, readByte_writeBytes _ _ _ _ hcounted.wf, if_neg (by rw [hlen]; omega)]
    exact hcounted.rest z hsync
  · by_cases hlast : c1.units ≤ c1.done
    · rw [← hgen hlast]
      exact hdone
    · exact ⟨hdone.stays, fun h => absurd h hlast, hdone.others⟩

end Sys2Proof.Machine
end

section
/-!
PROOFS. Reads by an engine make no race (R63, R281), and the units of QSCALE (R87, R88, R334).
-/

namespace Sys2Proof.Machine

/-! ### Tags that a read leaves (R63, R281) -/

/-- A tag tells at most what another tells: it names the same write, or one that is judged no more. -/
def TellsLess (t u : Word) : Prop :=
  (vectorIndex (tagWrid u)).isSome = true → tagWrid u = tagWrid t ∧ tagWgen u = tagWgen t ∧ tagV u = tagV t

theorem TellsLess.refl (t : Word) : TellsLess t t := fun _ => ⟨rfl, rfl, rfl⟩

theorem TellsLess.trans {t u v : Word} (h : TellsLess t u) (k : TellsLess u v) : TellsLess t v := fun hv => by
  obtain ⟨hwrid, hwgen, hV⟩ := k hv
  obtain ⟨hwrid', hwgen', hV'⟩ := h (hwrid ▸ hv)
  exact ⟨hwrid.trans hwrid', hwgen.trans hwgen', hV.trans hV'⟩

theorem scratchRaces_of_tellsLess {t u : Word} (h : TellsLess t u) {b b1 : Block} (hreads : ReadsOnly b b1) {x : Accessor} {i : Nat}
    (hrace : scratchRaces b1 x i u = true) : tagWrid u = tagWrid t ∧ scratchRaces b x i t = true := by
  have hsome : (vectorIndex (tagWrid u)).isSome = true := by
    unfold scratchRaces at hrace
    cases hv : vectorIndex (tagWrid u) with
    | none =>
      rw [hv, Bool.and_false] at hrace
      exact absurd hrace Bool.false_ne_true
    | some _ => rfl
  obtain ⟨hwrid, hwgen, hV⟩ := h hsome
  have hstamps : b1.seqStamps = b.seqStamps := by rw [hreads]
  refine ⟨hwrid, ?_⟩
  unfold scratchRaces at hrace ⊢
  rwa [hwrid, hwgen, hV, hstamps] at hrace

theorem tagWrid_eq (t : Word) : tagWrid t = (t.extractLsb' 0 5).toNat := by
  rw [BitVec.extractLsb'_toNat, Nat.shiftRight_zero]
  rfl

theorem tellsLess_setBit (t : Word) {k : Nat} (hlow : 11 ≤ k) (hhigh : k < 31) (v : Bool) : TellsLess t (setBit t k v) := by
  have hbit : ∀ j, j < 32 → j ≠ k → (setBit t k v).getLsbD j = t.getLsbD j := fun j hj hne => by
    rw [setBit_getLsbD t k v hj, if_neg hne]
  have hpart : ∀ a n, a + n ≤ 11 → (setBit t k v).extractLsb' a n = t.extractLsb' a n := fun a n hin => by
    refine BitVec.eq_of_getLsbD_eq fun i hi => ?_
    rw [BitVec.getLsbD_extractLsb', BitVec.getLsbD_extractLsb', hbit (a + i) (by omega) (by omega)]
  exact fun _ => ⟨by rw [tagWrid_eq, tagWrid_eq, hpart 0 5 (by decide)], hpart 5 6 (by decide), hbit 31 (by decide) (by omega)⟩

theorem tellsLess_settle (b : Block) (ws : List Wave) (t : Word) : TellsLess t (settleScratch b ws t) := by
  have hsettled : tagWrid ((t &&& ~~~31#32) ||| 23#32) = 23 := by
    rw [tagWrid_eq]
    have h : ((t &&& ~~~31#32) ||| 23#32).extractLsb' 0 5 = 23#5 := by
      refine BitVec.eq_of_getLsbD_eq fun i hi => ?_
      interval_cases i <;> simp
    rw [h]
    rfl
  unfold settleScratch
  split
  · split
    · split
      · intro hsome
        rw [hsettled] at hsome
        exact absurd hsome (by decide)
      · exact TellsLess.refl t
    · exact TellsLess.refl t
  · exact TellsLess.refl t

/-! ### Reads of an engine -/

theorem scratchRead_tellsLess {x : Accessor} (hx : 16 ≤ x.wrid) (b : Block) (ws : List Wave) (t : Word) :
    TellsLess t (scratchRead b ws x t) := by
  have hreader : engineReader x.wrid ≤ 3 := by
    unfold engineReader
    split <;> decide
  have hsettle := tellsLess_settle b ws t
  unfold scratchRead
  dsimp only
  rw [if_neg (Nat.not_lt.mpr hx)]
  split
  · exact hsettle.trans (tellsLess_setBit _ (by omega) (by omega) true)
  · exact hsettle

theorem markRead_tags {s : State} {b : Block} {x : Accessor} (hx : 16 ≤ x.wrid) (words : List Nat) (hwf : mapWf 0 b.tags = true) :
    mapWf 0 (markRead s b x words).tags = true ∧ ∀ i, TellsLess (mapGet 0 b.tags i) (mapGet 0 (markRead s b x words).tags i) := by
  have hfold : ∀ m : SMap Word, mapWf 0 m = true →
      let m' := words.foldl (fun m i => mapSet 0 m i (scratchRead b (s.wavesOf b.id) x (mapGet 0 m i))) m
      mapWf 0 m' = true ∧ ∀ i, TellsLess (mapGet 0 m i) (mapGet 0 m' i) := by
    induction words with
    | nil => exact fun m hm => ⟨hm, fun i => TellsLess.refl _⟩
    | cons k ks ih =>
      intro m hm
      obtain ⟨hwf', hless⟩ := ih _ (mapWf_mapSet 0 m k (scratchRead b (s.wavesOf b.id) x (mapGet 0 m k)) hm)
      refine ⟨hwf', fun i => TellsLess.trans ?_ (hless i)⟩
      rw [mapGet_mapSet 0 m k _ i hm]
      split
      · next hi =>
        rw [hi]
        exact scratchRead_tellsLess hx _ _ _
      · exact TellsLess.refl _
  exact hfold b.tags hwf

/-- A block as the reads of an engine leave it: its tags tell no more than before. -/
structure EngineRead (b b1 : Block) : Prop where
  only : ReadsOnly b b1
  wf   : mapWf 0 b1.tags = true
  less : ∀ i, TellsLess (mapGet 0 b.tags i) (mapGet 0 b1.tags i)

theorem engineRead_markRead (s : State) {b : Block} {x : Accessor} (hx : 16 ≤ x.wrid) (words : List Nat) (hwf : mapWf 0 b.tags = true) :
    EngineRead b (markRead s b x words) := ⟨rfl, (markRead_tags hx words hwf).1, (markRead_tags hx words hwf).2⟩

theorem EngineRead.trans {b b1 b2 : Block} (h : EngineRead b b1) (k : EngineRead b1 b2) : EngineRead b b2 where
  only := by
    unfold ReadsOnly
    rw [k.only, h.only]
  wf := k.wf
  less i := (h.less i).trans (k.less i)

theorem wordRace_none {α : Type} {p q : Bool} {x y : α} :
    (if p = true then some x else if q = true then some y else none) = none ↔ p = false ∧ q = false := by
  cases p <;> cases q <;> simp

section
variable {b b1 : Block} (h : EngineRead b b1)
include h

theorem armedMeetsEngine_read (s : State) (owner serial : Nat) (q : EngineQueue) (write : Bool) (a n : Nat) :
    armedMeetsEngine b1 (s.wavesOf b1.id) owner serial q write a n = armedMeetsEngine b (s.wavesOf b.id) owner serial q write a n := by
  rw [h.only]
  rfl

theorem scratchRaces_read {x : Accessor} {i : Nat} (hnone : scratchRaces b x i (mapGet 0 b.tags i) = false) :
    scratchRaces b1 x i (mapGet 0 b1.tags i) = false := by
  rw [← Bool.not_eq_true] at hnone ⊢
  exact fun hrace => hnone (scratchRaces_of_tellsLess (h.less i) h.only hrace).2

theorem engineRaceAt_read {s : State} {owner serial : Nat} {q : EngineQueue} {x : Accessor} {write : Bool} {a n : Nat}
    (hnone : engineRaceAt s b owner serial q x write a n = none) : engineRaceAt s b1 owner serial q x write a n = none := by
  have hbad : b1.badTags = b.badTags ∧ b1.badWords = b.badWords := by rw [h.only]; exact ⟨rfl, rfl⟩
  unfold engineRaceAt at hnone ⊢
  rw [List.findSome?_eq_none_iff] at hnone ⊢
  intro i hi
  obtain ⟨hfirst, hecc⟩ := wordRace_none.mp (hnone i hi)
  obtain ⟨harmed, hrace⟩ := Bool.or_eq_false_iff.mp hfirst
  refine wordRace_none.mpr ⟨Bool.or_eq_false_iff.mpr ⟨?_, scratchRaces_read h hrace⟩, ?_⟩
  · rwa [armedMeetsEngine_read h]
  · rwa [hbad.1, hbad.2]

theorem syncRaceAt_read {s : State} {owner serial : Nat} {q : EngineQueue} {x : Accessor} {off : Nat}
    (hnone : syncRaceAt s b owner serial q x off = none) : syncRaceAt s b1 owner serial q x off = none := by
  have hbad : b1.badTags = b.badTags ∧ b1.badWords = b.badWords := by rw [h.only]; exact ⟨rfl, rfl⟩
  unfold syncRaceAt at hnone ⊢
  rw [List.findSome?_eq_none_iff] at hnone ⊢
  intro i hi
  obtain ⟨hfirst, hecc⟩ := wordRace_none.mp (hnone i hi)
  obtain ⟨harmed, hrace⟩ := Bool.or_eq_false_iff.mp hfirst
  refine wordRace_none.mpr ⟨Bool.or_eq_false_iff.mpr ⟨?_, ?_⟩, ?_⟩
  · rwa [armedMeetsEngine_read h]
  · rw [← Bool.not_eq_true, Bool.and_eq_true] at hrace ⊢
    rintro ⟨hseq, hraces⟩
    obtain ⟨hwrid, hbefore⟩ := scratchRaces_of_tellsLess (h.less i) h.only hraces
    exact hrace ⟨hwrid ▸ hseq, hbefore⟩
  · rwa [hbad.1, hbad.2]

theorem countedRace_read {s : State} {owner serial : Nat} {q : EngineQueue} {x : Accessor} {sync : Nat} {write : Bool}
    {ranges : List (Nat × Nat)} (hnone : countedRace s b owner serial q x sync write ranges = none) :
    countedRace s b1 owner serial q x sync write ranges = none := by
  unfold countedRace at hnone ⊢
  cases hr : ranges.findSome? fun p => engineRaceAt s b owner serial q x write p.1 p.2 with
  | some r =>
    rw [hr] at hnone
    cases hnone
  | none =>
    rw [hr] at hnone
    rw [List.findSome?_eq_none_iff] at hr
    rw [List.findSome?_eq_none_iff.mpr fun p hp => engineRaceAt_read h (hr p hp)]
    exact syncRaceAt_read h hnone

end

/-! ### The units of QSCALE (R87, R88) -/

/-- A command's reads and writes carry the number of its engine (R63). -/
theorem commandAccessor_engine (b : Block) (c : Command) : 16 ≤ (commandAccessor b c).wrid := by
  show 16 ≤ engineWriter c.instr
  unfold engineWriter
  split <;> decide

/-- What the last unit of a QSCALE does to the windows (R88). -/
def scaleStamp (c : Command) (l : List Dword) : List Dword := l.set (field c.b 52 3) (windowValue c.d.toNat (field c.b 0 17) 7 0)

/-- The pieces of band u of a QSCALE: codes, block scales and band scale. -/
def bandPieces (b : Block) (c : Command) (u : Nat) : List (Nat × List Byte) :=
  let n := field c.b 0 17
  let clip := clipOf (readHist (readBytes b.scratch (field c.b 32 19) 272)) c.qpct.toNat (Config.freeDword c.step).toNat
  let scale := bandScale clip
  let vs := wordsAt b (c.a.toNat + 256 * u) 64
  let parts := (List.range 8).map fun k => quantBlock clip (fpDecode .bf16 scale) ((vs.drop (8 * k)).take 8)
  [(c.d.toNat + 32 * u, packNibbles (parts.flatMap (·.1))),
   (c.d.toNat + n / 2 + 8 * u, parts.map fun q => BitVec.ofNat 8 q.2),
   (c.d.toNat + n / 2 + n / 8 + 2 * u, leBytes 2 scale)]

/-- The block once the values and the record of a band have been read. -/
def bandRead (s : State) (b : Block) (c : Command) (u : Nat) : Block :=
  markRead s (markRead s b (commandAccessor b c) (wordsOf (c.a.toNat + 256 * u) 256)) (commandAccessor b c)
    (wordsOf (field c.b 32 19) 272)

theorem engineRead_bandRead (s : State) {b : Block} (c : Command) (u : Nat) (hwf : mapWf 0 b.tags = true) :
    EngineRead b (bandRead s b c u) := by
  have hfirst := engineRead_markRead s (commandAccessor_engine b c) (wordsOf (c.a.toNat + 256 * u) 256) hwf
  exact hfirst.trans (engineRead_markRead s (commandAccessor_engine b c) (wordsOf (field c.b 32 19) 272) hfirst.wf)

theorem qscaleUnit_lands {s : State} {b : Block} {c : Command} {u : Nat}
    (hvalues : engineRaceAt s b b.id c.serial .copy (commandAccessor b c) false (c.a.toNat + 256 * u) 256 = none)
    (hrecord : engineRaceAt s b b.id c.serial .copy (commandAccessor b c) false (field c.b 32 19) 272 = none) :
    ∃ done xs, (∀ z : Block, done z = { z with fwin := scaleStamp c z.fwin }) ∧
      qscaleUnit s b c u = presentUnit (landUnit s (bandRead s b c u) .copy c u (bandPieces b c u) done) b.id xs := by
  have hrecordU : engineRaceAt s b b.id c.serial .copy (commandAccessor b c) false (qscaleRecord c.b) histRecordBytes = none := hrecord
  refine ⟨fun z => stampWindow z (qscaleWindow c.b) c.d.toNat (qscaleCount c.b) 7 0, [
    watchScratch (c.a.toNat + 256 * u) 256 false, watchScratch (qscaleRecord c.b) histRecordBytes false,
    watchScratch (c.d.toNat + 32 * u) 32 true, watchScratch (c.d.toNat + qscaleCount c.b / 2 + 8 * u) 8 true,
    watchScratch (c.d.toNat + qscaleCount c.b / 2 + qscaleCount c.b / 8 + 2 * u) 2 true], fun z => rfl, ?_⟩
  unfold qscaleUnit
  dsimp only
  rw [hvalues, hrecordU]
  rfl

theorem qscaleUnits (s : State) (b : Block) (c : Command) (d a x w : BitVec 5) (choice u : Nat) (h : EngineTurn s b .copy c)
    (hstarted : c.started = true) (hi : c.instr = .qscale d a x w) (hquiet : Unwatched s b.ctx) (hpick : PicksUnit s b .copy c choice u)
    (hvalues : engineRaceAt s b b.id c.serial .copy (commandAccessor b c) false (c.a.toNat + 256 * u) 256 = none)
    (hrecord : engineRaceAt s b b.id c.serial .copy (commandAccessor b c) false (field c.b 32 19) 272 = none)
    (hcount : countedRace s b b.id c.serial .copy (commandAccessor b c) c.sync true
      ((bandPieces b c u).map fun p => (p.1, p.2.length)) = none) (hcan : CanLand b c.sync (bandPieces b c u)) :
    let c1 := progressUnit c u
    ∃ t b', exec (.engineUnitWrite b.id .copy choice) s = .next t ∧ UnitStep s t b b' ∧
      t = { s with blocks := t.blocks, contexts := t.contexts } ∧ Lands b b' c.sync 21 c.count (bandPieces b c u) ∧
      UnitDone b b' .copy c c1 (lastGeneration (readSync b c.sync) ((bandPieces b c u).map fun p => p.2.length)) ∧
      b'.fwin = if c1.units ≤ c1.done then b.fwin.set (field c.b 52 3) (windowValue c.d.toNat (field c.b 0 17) 7 0) else b.fwin := by
  intro c1
  have hexec : exec (.engineUnitWrite b.id .copy choice) s = .next (qscaleUnit s b c u) := by
    rw [exec_engineUnitWrite h hstarted hpick, unitOf, hi]
  have hread := engineRead_bandRead s c u hcan.wf.2
  obtain ⟨done, xs, hdone, hunit⟩ := qscaleUnit_lands hvalues hrecord
  obtain ⟨b', hl⟩ := landUnit_lands h.here h.sized hread.only hread.wf (countedRace_read hread hcount) hcan hdone u
  rw [hl.quiet hquiet] at hunit
  rw [hunit] at hexec
  have hland := hl.lands
  rw [show engineWriter c.instr = 21 by rw [hi]; rfl] at hland
  exact ⟨_, b', hexec, hl.step, hl.rest, hland, hl.done, hl.fwin⟩

theorem histogramUnits : HistogramUnits := ⟨histUnits, qscaleUnits⟩

end Sys2Proof.Machine
end

section
/-!
PROOFS. COLL: its pieces, and the end of an instance (R84, R334, R391).
-/

namespace Sys2Proof.Machine

/-! ### Members that a link reaches (R391) -/

theorem mem_numbered {α : Type} {xs : List α} {r : Nat} {x : α} : (r, x) ∈ numbered xs ↔ xs[r]? = some x := by
  rw [numbered, List.mem_iff_getElem?]
  constructor
  · rintro ⟨i, hi⟩
    obtain ⟨hrange, hx⟩ := List.getElem?_zip_eq_some.mp hi
    obtain ⟨hlt, rfl⟩ := List.getElem?_eq_some_iff.mp hrange
    rwa [List.getElem_range]
  · intro hx
    have hlt : r < xs.length := (List.getElem?_eq_some_iff.mp hx).1
    exact ⟨r, List.getElem?_zip_eq_some.mpr ⟨List.getElem?_range hlt, hx⟩⟩

theorem collCut_iff (s : State) (c : Command) : collCut s c = true ↔ ¬ membersReached s c := by
  rw [collCut, List.any_eq_true, membersReached]
  constructor
  · rintro ⟨⟨r, m⟩, hmem, hcut⟩ hall
    rw [Bool.and_eq_true, bne_iff_ne, Bool.not_eq_true'] at hcut
    rw [hall r m (mem_numbered.mp hmem) hcut.1] at hcut
    exact Bool.false_ne_true hcut.2.symm
  · intro hnot
    by_contra hnone
    refine hnot fun r m hm hr => ?_
    by_contra hpeer
    exact hnone ⟨(r, m), mem_numbered.mpr hm, by
      rw [Bool.and_eq_true, bne_iff_ne, Bool.not_eq_true', ← Bool.not_eq_true]
      exact ⟨hr, hpeer⟩⟩

theorem collCut_false {s : State} {c : Command} (h : membersReached s c) : collCut s c = false := by
  rw [← Bool.not_eq_true, collCut_iff]
  exact not_not_intro h

/-! ### The end of an instance (R84) -/

/-- Every member's COLL of an instance has performed all of its writes. -/
def instanceDone (y : CollInstance) : Prop := y.params ≠ [] ∧ ∀ r, r + 3 < y.params.length → r ∈ y.ended

theorem instanceDone_iff (y : CollInstance) :
    (y.params != [] && (List.range (y.params.drop 3).length).all fun r => y.ended.contains r) = true ↔ instanceDone y := by
  rw [Bool.and_eq_true, bne_iff_ne, List.all_eq_true, List.length_drop]
  refine and_congr_right fun _ => forall_congr' fun r => ?_
  rw [List.mem_range, List.contains_iff_mem]
  exact imp_congr_left (by omega)

theorem completeInstance_some {s : State} {ctx group inst : Nat} {y : CollInstance}
    (h : s.colls.find? (fun x => x.ctx == ctx && x.group == group && x.inst == inst) = some y) :
    completeInstance s ctx group inst =
      if (y.params != [] && (List.range (y.params.drop 3).length).all fun r => y.ended.contains r) = true then
        { s with colls := s.colls.erase y }
      else s := by
  rw [completeInstance, h]

theorem completeInstance_none {s : State} {ctx group inst : Nat}
    (h : s.colls.find? (fun x => x.ctx == ctx && x.group == group && x.inst == inst) = none) : completeInstance s ctx group inst = s := by
  rw [completeInstance, h]

theorem instancesComplete (s : State) (ctx group inst : Nat) :
    let named := fun y : CollInstance => y.ctx == ctx && y.group == group && y.inst == inst
    (∀ y, s.colls.find? named = some y → instanceDone y →
      exec (.collInstanceComplete ctx group inst) s = .next { s with colls := s.colls.erase y }) ∧
    ((∀ y, s.colls.find? named = some y → ¬ instanceDone y) → exec (.collInstanceComplete ctx group inst) s = .next s) := by
  intro named
  have hexec : exec (.collInstanceComplete ctx group inst) s = .next (completeInstance s ctx group inst) := rfl
  rw [hexec]
  refine ⟨fun y hy hdone => ?_, fun hnot => ?_⟩
  · rw [completeInstance_some hy, if_pos ((instanceDone_iff y).mpr hdone)]
  · cases hfind : s.colls.find? named with
    | none => rw [completeInstance_none hfind]
    | some y => rw [completeInstance_some hfind, if_neg fun h => hnot y hfind ((instanceDone_iff y).mp h)]

/-! ### The pieces of a COLL (R84, R334) -/

section
variable {s : State} {b : Block} {c : Command} {u : Nat} {y : CollInstance}
  (hinst : instanceOf s b.ctx (field c.b 32 8) (field c.b 48 16) (c.work.headD 0) = some y) (hparams : y.params ≠ [])
include hinst hparams

theorem collUnit_cut (hcut : ¬ membersReached s c) : collUnit s b c u = stopEngine s b .coll 1 4 [] := by
  have hinstU : instanceOf s b.ctx (collGroup c.b) (collInst c.b) (c.work.headD 0) = some y := hinst
  unfold collUnit
  dsimp only
  rw [hinstU]
  dsimp only
  rw [if_neg hparams, if_pos ((collCut_iff s c).mpr hcut)]
  rfl

theorem collUnit_waits (hreached : membersReached s c) (hmissing : ∃ r, r < c.work.tail.length ∧ ∀ q ∈ y.sources, q.1 ≠ r) :
    collUnit s b c u = s := by
  have hinstU : instanceOf s b.ctx (collGroup c.b) (collInst c.b) (c.work.headD 0) = some y := hinst
  have hall : (List.range c.work.tail.length).all (fun r => y.sources.any (·.1 == r)) = false := by
    obtain ⟨r, hr, hno⟩ := hmissing
    refine List.all_eq_false.mpr ⟨r, List.mem_range.mpr hr, ?_⟩
    rw [List.any_eq_true]
    rintro ⟨q, hq, heq⟩
    exact hno q hq (beq_iff_eq.mp heq)
  unfold collUnit
  dsimp only
  rw [hinstU]
  dsimp only
  rw [if_neg hparams, collCut_false hreached, hall]
  rfl

/-- The piece of a COLL whose members have all brought their sources: it lands, and a COLL that has left its queue ends as a member. -/
theorem collUnit_lands (hreached : membersReached s c) (hall : ∀ r, r < c.work.tail.length → ∃ q ∈ y.sources, q.1 = r) :
    let t := landUnit (nextFresh s 4096) b .coll c u
      [(c.d.toNat + 64 * u, collPiece y (field c.b 40 2) (field c.b 42 2) (field c.b 0 17) c.work.tail.length s.fresh u)] id
    ∃ xs, ∀ b', t.block? b.id = some b' → collUnit s b c u = presentUnit
      (if ((queueOf b' .coll).any fun k => k.serial == c.serial) = true then t
       else endMember t b.ctx (field c.b 32 8) (field c.b 48 16) (c.work.headD 0)) b.id xs := by
  intro t
  have hinstU : instanceOf s b.ctx (collGroup c.b) (collInst c.b) (c.work.headD 0) = some y := hinst
  have hallU : (List.range c.work.tail.length).all (fun r => y.sources.any (·.1 == r)) = true := by
    refine List.all_eq_true.mpr fun r hr => ?_
    obtain ⟨q, hq, heq⟩ := hall r (List.mem_range.mp hr)
    exact List.any_eq_true.mpr ⟨q, hq, beq_iff_eq.mpr heq⟩
  refine ⟨[watchScratch (c.d.toNat + 64 * u) 64 true], fun b' hb' => ?_⟩
  have hbU : (landUnit (nextFresh s 4096) b .coll c u [(c.d.toNat + 64 * u,
      collPiece y (collOp c.b) (collType c.b) (collLength c.b) c.work.tail.length s.fresh u)] id).block? b.id = some b' := hb'
  unfold collUnit
  dsimp only
  rw [hinstU]
  dsimp only
  rw [if_neg hparams, collCut_false hreached, hallU, if_neg Bool.false_ne_true, if_neg (by decide)]
  rw [hbU]
  dsimp only
  by_cases hany : ((queueOf b' .coll).any fun k => k.serial == c.serial) = true
  · rw [if_pos hany, if_neg (by rw [hany]; decide)]
    rfl
  · rw [if_neg hany, if_pos (by rw [(Bool.not_eq_true _).mp hany]; decide)]
    rfl

end

/-! ### A member that has ended (R84) -/

theorem endMember_colls {s t : State} (h : t.colls = s.colls) (ctx group inst rank : Nat) :
    endMember t ctx group inst rank = { t with colls := (endMember s ctx group inst rank).colls } := by
  rw [endMember, endMember, h]
  split
  · rw [← h]
  · rfl

theorem UnitDone.any_serial {b b' : Block} {q : EngineQueue} {c : Command} {u : Nat} {gen : Option (BitVec 16)}
    (h : UnitDone b b' q c (progressUnit c u) gen) (hother : ∀ k ∈ (queueOf b q).tail, k.serial ≠ c.serial) :
    ((queueOf b' q).any fun k => k.serial == c.serial) = true ↔ ¬ (progressUnit c u).units ≤ (progressUnit c u).done := by
  obtain ⟨hstays, hleaves, -⟩ := h
  by_cases hlast : (progressUnit c u).units ≤ (progressUnit c u).done
  · obtain ⟨hqueue, -⟩ := hleaves hlast
    rw [hqueue, List.any_eq_true]
    refine iff_of_false ?_ (not_not_intro hlast)
    rintro ⟨k, hk, heq⟩
    exact hother k hk (beq_iff_eq.mp heq)
  · obtain ⟨hqueue, -⟩ := hstays hlast
    rw [hqueue, List.any_cons, progressUnit_serial, beq_self_eq_true, Bool.true_or]
    exact iff_of_true rfl hlast

/-! ### The pieces and the instances together -/

theorem exec_collUnit {s : State} {b : Block} {c : Command} {d a x w : BitVec 5} {choice u : Nat} (h : EngineTurn s b .coll c)
    (hstarted : c.started = true) (hi : c.instr = .coll d a x w) (hpick : PicksUnit s b .coll c choice u) :
    exec (.engineUnitWrite b.id .coll choice) s = .next (collUnit s b c u) := by
  rw [exec_engineUnitWrite h hstarted hpick, unitOf, hi]

theorem collectiveLands (s : State) (b : Block) (c : Command) (d a x w : BitVec 5) (choice u : Nat) (y : CollInstance)
    (h : EngineTurn s b .coll c) (hstarted : c.started = true) (hi : c.instr = .coll d a x w) (hquiet : Unwatched s b.ctx)
    (hother : ∀ k ∈ (queueOf b .coll).tail, k.serial ≠ c.serial) (hpick : PicksUnit s b .coll c choice u)
    (hinst : instanceOf s b.ctx (field c.b 32 8) (field c.b 48 16) (c.work.headD 0) = some y) (hparams : y.params ≠ [])
    (hreached : membersReached s c) (hall : ∀ r, r < c.work.tail.length → ∃ q ∈ y.sources, q.1 = r) :
    let pieces := [(c.d.toNat + 64 * u,
      collPiece y (field c.b 40 2) (field c.b 42 2) (field c.b 0 17) c.work.tail.length s.fresh u)]
    let c1 := progressUnit c u
    countedRace s b b.id c.serial .coll (commandAccessor b c) c.sync true (pieces.map fun p => (p.1, p.2.length)) = none →
    CanLand b c.sync pieces →
    ∃ t b', exec (.engineUnitWrite b.id .coll choice) s = .next t ∧ UnitStep s t b b' ∧
      t = { s with blocks := t.blocks, contexts := t.contexts, fresh := s.fresh + 4096, colls := t.colls } ∧
      Lands b b' c.sync 19 c.count pieces ∧ b'.fwin = b.fwin ∧
      UnitDone b b' .coll c c1 (lastGeneration (readSync b c.sync) (pieces.map fun p => p.2.length)) ∧
      t.colls = if c1.units ≤ c1.done then (endMember s b.ctx (field c.b 32 8) (field c.b 48 16) (c.work.headD 0)).colls
        else s.colls := by
  intro pieces c1 hrace hcan
  have hhere : (nextFresh s 4096).block? b.id = some b := h.here
  have hraceN : countedRace (nextFresh s 4096) b b.id c.serial .coll (commandAccessor b c) c.sync true
      (pieces.map fun p => (p.1, p.2.length)) = none := hrace
  have hwf : mapWf 0 b.tags = true := hcan.wf.2
  obtain ⟨b', hlands⟩ := landUnit_lands (done := id) (stamp := id) hhere h.sized (ReadsOnly.refl b) hwf hraceN hcan (fun _ => rfl) u
  obtain ⟨xs, hunit⟩ := collUnit_lands (u := u) hinst hparams hreached hall
  have hcoll := hunit b' hlands.step.here
  have hexec := exec_collUnit h hstarted hi hpick
  generalize landUnit (nextFresh s 4096) b .coll c u pieces id = r at hlands hcoll
  change collUnit s b c u = presentUnit (if ((queueOf b' .coll).any fun k => k.serial == c.serial) = true then r
    else endMember r b.ctx (field c.b 32 8) (field c.b 48 16) (c.work.headD 0)) b.id xs at hcoll
  obtain ⟨hstep, hrest, hland, hdone, hfwin⟩ := hlands
  have hcolls : r.colls = s.colls := by rw [hrest]; rfl
  have hsettled : (if ((queueOf b' .coll).any fun k => k.serial == c.serial) = true then r
      else endMember r b.ctx (field c.b 32 8) (field c.b 48 16) (c.work.headD 0)) = { r with
        colls := if c1.units ≤ c1.done then (endMember s b.ctx (field c.b 32 8) (field c.b 48 16) (c.work.headD 0)).colls
          else s.colls } := by
    by_cases hlast : c1.units ≤ c1.done
    · rw [if_neg fun hany => (hdone.any_serial hother).mp hany hlast, if_pos hlast, endMember_colls hcolls]
    · rw [if_pos ((hdone.any_serial hother).mpr hlast), if_neg hlast, ← hcolls]
  rw [hsettled] at hcoll
  generalize (if c1.units ≤ c1.done then (endMember s b.ctx (field c.b 32 8) (field c.b 48 16) (c.work.headD 0)).colls
    else s.colls) = colls at hcoll ⊢
  obtain ⟨hthere, hothers, hcontexts, hframe⟩ := hstep
  have hpresent : presentUnit { r with colls := colls } b.id xs = { r with colls := colls } := by
    have hctx : b'.ctx = b.ctx := by rw [hframe]
    refine presentUnit_quiet (s := { r with colls := colls }) (b := b') hthere ?_ xs
    rw [hctx]
    exact hquiet.same hcontexts
  rw [hcoll, hpresent] at hexec
  have hwriter : engineWriter c.instr = 19 := by rw [hi]; rfl
  rw [hwriter] at hland
  refine ⟨_, b', hexec, ⟨hthere, hothers, hcontexts, hframe⟩, ?_, hland, hfwin.trans (ite_self _), hdone, rfl⟩
  conv_lhs => rw [hrest]
  rfl

theorem collectiveUnits : CollectiveUnits := by
  refine ⟨?_, instancesComplete⟩
  intro s b c d a x w choice u y h hstarted hi hquiet hother hpick hinst hparams
  refine ⟨fun hcut => ?_, fun hreached hmissing => ?_, fun hreached hall => ?_⟩
  · rw [exec_collUnit h hstarted hi hpick, collUnit_cut hinst hparams hcut]
  · rw [exec_collUnit h hstarted hi hpick, collUnit_waits hinst hparams hreached hmissing]
  · exact collectiveLands s b c d a x w choice u y h hstarted hi hquiet hother hpick hinst hparams hreached hall

end Sys2Proof.Machine
end

section
/-!
PROOFS. Commands that start at the head of their queue (R71, R72, R78 to R81, R84, R86, R88, R391).
-/

namespace Sys2Proof.Machine

section
variable {s : State} {b : Block} {q : EngineQueue} {c : Command}

theorem exec_start (h : EngineTurn s b q c) (hnew : c.started = false) :
    exec (.engineCommandStart b.id q) s = .next (startCommand s b q c) := by
  rw [exec_engineCommandStart h, hnew, if_neg Bool.false_ne_true]

/-- A command that starts without an access replaces the head of its queue. -/
theorem exec_begins (h : EngineTurn s b q c) (hnew : c.started = false) {c1 : Command}
    (hstart : startCommand s b q c = s.putBlock (putHead b q c1)) :
    ∃ t, exec (.engineCommandStart b.id q) s = .next t ∧ BlockStep s t b (putHead b q c1) :=
  ⟨_, (exec_start h hnew).trans (congrArg _ hstart), putBlock_blockStep h.here rfl⟩

/-! ### BCOPY (R78, R79) -/

theorem startBcopy_plain {s2g : Bool} (h : s2g = true ∨ c.b.getLsbD 23 = false) : startBcopy s b c s2g =
    s.putBlock (putHead b .copy
      { c with started := true, units := (field c.b 0 20 + 63) / 64, work := [field c.b 0 20] }) := by
  have hplain : (s2g || !c.b.getLsbD 23) = true := by
    obtain rfl | hbit := h
    · rfl
    · rw [hbit, Bool.not_false, Bool.or_true]
  unfold startBcopy
  dsimp only
  rw [if_pos hplain]
  rfl

theorem reachAll_first {ctx : Context} {isle : Nat} {k : Access} {va : Dword} {p : Place} (hcanon : canonical va = true)
    (h : translate s ctx isle va k = .ok p) : reachAll s ctx isle k [(va.toNat, 1)] = .ok [⟨va.toNat, 1, p⟩] := by
  have hva : BitVec.ofNat 64 va.toNat = va := by rw [BitVec.ofNat_toNat, BitVec.setWidth_eq]
  unfold reachAll
  dsimp only
  rw [hva, hcanon, h]
  rfl

/-- What the format page at its source makes of a format copy that starts (R79). -/
def formatStarted (b : Block) (c : Command) (p : Place) : Block :=
  let n := field c.b 0 20
  let total := formatBytes (placeFmt p) (placeGeo p) n
  if placeFmt p = 0 then putHead b .copy { c with started := true, units := (n + 63) / 64, work := [n] }
  else widenRange (putHead b .copy
    { c with started := true, phase := 1, units := (total + 63) / 64, work := [total, placeFmt p, placeGeo p] }) b.id c.serial total

theorem startBcopy_format {ctx : Context} {p : Place} (hctx : s.ctx? b.ctx = some ctx) (hbit : c.b.getLsbD 23 = true)
    (hcanon : canonical c.a = true) (hplace : translate s ctx b.isle c.a .copyRead = .ok p)
    (hlegal : placeFmt p ≠ 0 → formatLegal b c.a.toNat (placeFmt p) (placeGeo p) (field c.b 0 20) c.d.toNat = true) :
    ∃ u, OnlyCached s u ∧ startBcopy s b c false = u.putBlock (formatStarted b c p) := by
  obtain ⟨u, hu, hw⟩ := withReach_ok hctx (reachAll_first hcanon hplace) .copy c
  refine ⟨u, hu, ?_⟩
  unfold startBcopy formatStarted
  dsimp only
  rw [hbit, if_neg (by decide), hw]
  dsimp only
  by_cases hfmt : placeFmt p = 0
  · rw [if_pos hfmt, if_pos hfmt]
    rfl
  · have hgood : ¬ (!formatLegal b c.a.toNat (placeFmt p) (placeGeo p) (copyLength c.b) c.d.toNat) = true := by
      rw [Bool.not_eq_true', Bool.not_eq_false]
      exact hlegal hfmt
    rw [if_neg hfmt, if_neg hfmt, if_neg hgood]
    rfl

theorem widenRange_eq (y : Block) (owner serial n : Nat) : widenRange y owner serial n = { y with armed := y.armed.map fun r =>
    if r.owner = owner ∧ r.serial = serial ∧ r.write = true ∧ r.glob = false then { r with hi := r.lo + n } else r } := by
  rw [widenRange]
  congr 1
  refine List.map_congr_left fun r _ => ?_
  simp only [Bool.and_eq_true, beq_iff_eq, Bool.not_eq_true', and_assoc]

theorem formatStarted_eq (b : Block) (c : Command) (p : Place) :
    let n := field c.b 0 20
    let total := if placeFmt p = 7 then n + n / 4 + (if placeGeo p = 0 then n / 16 else 0) else n
    formatStarted b c p = { putHead b .copy (if placeFmt p = 0 then
          { c with started := true, units := (n + 63) / 64, work := [n] }
        else { c with started := true, phase := 1, units := (total + 63) / 64, work := [total, placeFmt p, placeGeo p] }) with
      armed := if placeFmt p = 0 then b.armed else b.armed.map fun r =>
        if r.owner = b.id ∧ r.serial = c.serial ∧ r.write = true ∧ r.glob = false then { r with hi := r.lo + total } else r } := by
  intro n total
  unfold formatStarted
  dsimp only
  by_cases hfmt : placeFmt p = 0
  · simp only [if_pos hfmt]
    rfl
  · simp only [if_neg hfmt]
    rw [widenRange_eq]
    rfl

/-! ### GATH (R80) -/

theorem putBlock_quiet {y : Block} (hhere : s.block? b.id = some b) (hid : y.id = b.id) (hctx : y.ctx = b.ctx)
    (hquiet : Unwatched s b.ctx) (xs : List WatchAccess) : presentUnit (s.putBlock y) b.id xs = s.putBlock y := by
  refine presentUnit_quiet (State.putBlock_block_same s y b.id b hid hhere) ?_ xs
  rw [hctx]
  exact hquiet

theorem startGath_reads (h : EngineTurn s b .gather c) (hquiet : Unwatched s b.ctx)
    (hrace : engineRaceAt s b b.id c.serial .gather (commandAccessor b c) false (field c.b 0 19) (4 * field c.b 32 13) = none) :
    startGath s b c = s.putBlock (markRead s (putHead b .gather { c with
      started := true, units := field c.b 32 13,
      work := (List.range (field c.b 32 13)).map fun k => leNat (readBytes b.scratch (field c.b 0 19 + 4 * k) 4) })
      (commandAccessor b c) (wordsOf (field c.b 0 19) (4 * field c.b 32 13))) := by
  have hraceU : engineRaceAt s b b.id c.serial .gather (commandAccessor b c) false (gathIndex c.b) (4 * gathRows c.b) = none := hrace
  unfold startGath
  dsimp only
  rw [hraceU]
  dsimp only
  rw [putBlock_quiet h.here ?_ ?_ hquiet] <;> rfl

/-! ### QJOIN (R72) -/

theorem joinEnds_iff (b : Block) (serial : Nat) (m : BitVec 5) : joinEnds b serial m = true ↔
    ∀ p : EngineQueue, m.getLsbD (queueBit p) = true → ∃ x, headOf b p = some x ∧ x.serial = serial := by
  rw [joinEnds, List.all_eq_true]
  refine forall_congr' fun p => ?_
  rw [mem_joinQueues, Option.any_eq_true]
  simp only [beq_iff_eq]

/-- A block whose named queues have each lost their head. -/
def leaveEach (qs : List EngineQueue) (b : Block) : Block := qs.foldl popHead b

theorem leaveEach_frame (qs : List EngineQueue) (b : Block) : leaveEach qs b = { b with queues := (leaveEach qs b).queues } := by
  rw [leaveEach]
  induction qs generalizing b with
  | nil => rfl
  | cons q qs ih =>
    rw [List.foldl_cons, ih]
    rfl

theorem queueOf_leaveEach {qs : List EngineQueue} (hqs : qs.Nodup) {b : Block} (hb : b.queues.length = 5) (p : EngineQueue) :
    queueOf (leaveEach qs b) p = if p ∈ qs then (queueOf b p).tail else queueOf b p := by
  rw [leaveEach]
  induction qs generalizing b with
  | nil => rfl
  | cons q qs ih =>
    obtain ⟨hq, hqs⟩ := List.nodup_cons.mp hqs
    rw [List.foldl_cons, ih hqs ((List.length_set ..).trans hb), popHead, queueOf_setQueue hb]
    by_cases hp : p = q
    · subst hp
      rw [if_neg hq, if_pos rfl, if_pos List.mem_cons_self]
    · simp only [List.mem_cons, hp, false_or, if_false]

end

section
variable {s : State} {b : Block} {q : EngineQueue} {c : Command}

theorem joinWaits {m : BitVec 5} (h : EngineTurn s b q c) (hnew : c.started = false) (hi : c.instr = .qjoin m)
    (hnot : ¬ ∀ p : EngineQueue, m.getLsbD (queueBit p) = true → ∃ x, headOf b p = some x ∧ x.serial = c.serial) :
    exec (.engineCommandStart b.id q) s = .next s := by
  rw [exec_start h hnew, startCommand, hi]
  dsimp only
  rw [endJoin, if_neg fun hends => hnot ((joinEnds_iff ..).mp hends)]

theorem joinEnded {m : BitVec 5} (h : EngineTurn s b q c) (hnew : c.started = false) (hi : c.instr = .qjoin m)
    (hready : ∀ p : EngineQueue, m.getLsbD (queueBit p) = true → ∃ x, headOf b p = some x ∧ x.serial = c.serial) :
    ∃ t b', exec (.engineCommandStart b.id q) s = .next t ∧ BlockStep s t b b' ∧ b' = { b with queues := b'.queues } ∧
      ∀ p, queueOf b' p = if m.getLsbD (queueBit p) then (queueOf b p).tail else queueOf b p := by
  have hexec : exec (.engineCommandStart b.id q) s = .next (s.putBlock (leaveEach (joinQueues m) b)) := by
    rw [exec_start h hnew, startCommand, hi]
    dsimp only
    rw [endJoin, if_pos ((joinEnds_iff ..).mpr hready)]
    rfl
  refine ⟨_, _, hexec, putBlock_blockStep h.here (by rw [leaveEach_frame]), leaveEach_frame .., fun p => ?_⟩
  have hqueue := queueOf_leaveEach (joinQueues_nodup m) h.sized.queues p
  simp only [mem_joinQueues] at hqueue
  exact hqueue

/-! ### COLL (R84, R391) -/

theorem contribute_none {ctx group inst rank : Nat} {params : List Nat} {src : List Byte}
    (h : s.colls.findIdx? (fun x => x.ctx == ctx && x.group == group && x.inst == inst && !x.sources.any (·.1 == rank)) = none) :
    contribute s ctx group inst rank params src = { s with colls := s.colls ++ [⟨ctx, group, inst, params, [(rank, src)], []⟩] } := by
  rw [contribute, h]

theorem contribute_some {ctx group inst rank i : Nat} {params : List Nat} {src : List Byte} {y : CollInstance}
    (h : s.colls.findIdx? (fun x => x.ctx == ctx && x.group == group && x.inst == inst && !x.sources.any (·.1 == rank)) = some i)
    (hy : s.colls[i]? = some y) : contribute s ctx group inst rank params src = { s with
      colls := s.colls.set i { y with sources := y.sources ++ [(rank, src)], params := if y.params = params then params else [] } } := by
  rw [contribute, h]
  dsimp only
  rw [hy]

theorem contribute_rest (s : State) (ctx group inst rank : Nat) (params : List Nat) (src : List Byte) :
    let t := contribute s ctx group inst rank params src
    t = { s with colls := t.colls } := by
  intro t
  unfold t contribute
  split
  · rfl
  · split
    · rfl
    · rfl

theorem startColl_joins (h : EngineTurn s b .coll c) (hquiet : Unwatched s b.ctx) (hfirst : earlierColl s b c = false)
    (hreached : membersReached s c)
    (hrace : engineRaceAt s b b.id c.serial .coll (commandAccessor b c) false c.a.toNat (field c.b 0 17) = none) :
    startColl s b c = contribute (s.putBlock (markRead s (putHead b .coll { c with
        started := true,
        units := (if field c.b 40 2 = 3 then field c.b 0 17 * c.work.tail.length else field c.b 0 17) / 64 })
      (commandAccessor b c) (wordsOf c.a.toNat (field c.b 0 17)))) b.ctx (field c.b 32 8) (field c.b 48 16) (c.work.headD 0)
      (field c.b 40 2 :: field c.b 42 2 :: field c.b 0 17 :: c.work.tail) (readBytes b.scratch c.a.toNat (field c.b 0 17)) := by
  have hraceU : engineRaceAt s b b.id c.serial .coll (commandAccessor b c) false c.a.toNat (collLength c.b) = none := hrace
  unfold startColl
  rw [hfirst, if_neg Bool.false_ne_true, collCut_false hreached, if_neg Bool.false_ne_true]
  dsimp only
  rw [hraceU]
  dsimp only
  rw [putBlock_quiet h.here ?_ ?_ hquiet] <;> rfl

theorem collStarts (s : State) (b : Block) (c : Command) (d a x w : BitVec 5) (h : EngineTurn s b .coll c) (hnew : c.started = false)
    (hi : c.instr = .coll d a x w) (hquiet : Unwatched s b.ctx) :
    let (n, rank, mods) := (field c.b 0 17, c.work.headD 0, c.work.tail)
    let src := readBytes b.scratch c.a.toNat n
    let mine := fun y : CollInstance => y.ctx == b.ctx && y.group == field c.b 32 8 && y.inst == field c.b 48 16 &&
      !y.sources.any (·.1 == rank)
    let params := field c.b 40 2 :: field c.b 42 2 :: n :: mods
    (earlierColl s b c = true → exec (.engineCommandStart b.id .coll) s = .next s) ∧
    (earlierColl s b c = false → ¬ membersReached s c →
      exec (.engineCommandStart b.id .coll) s = .next (stopEngine s b .coll 1 4 [])) ∧
    (earlierColl s b c = false → membersReached s c →
      engineRaceAt s b b.id c.serial .coll (commandAccessor b c) false c.a.toNat n = none →
      ∃ t b', exec (.engineCommandStart b.id .coll) s = .next t ∧ t = { s with blocks := t.blocks, colls := t.colls } ∧
        OtherBlocks s t b.id ∧ t.block? b.id = some b' ∧
        (let out := if field c.b 40 2 = 3 then n * mods.length else n
         b' = { putHead b .coll { c with started := true, units := out / 64 } with tags := b'.tags }) ∧
        (s.colls.findIdx? mine = none →
          t.colls = s.colls ++ [⟨b.ctx, field c.b 32 8, field c.b 48 16, params, [(rank, src)], []⟩]) ∧
        ∀ i y, s.colls.findIdx? mine = some i → s.colls[i]? = some y →
          t.colls = s.colls.set i { y with sources := y.sources ++ [(rank, src)],
                                           params := if y.params = params then params else [] }) := by
  have hexec : exec (.engineCommandStart b.id .coll) s = .next (startColl s b c) := by
    rw [exec_start h hnew, startCommand, hi]
  refine ⟨fun hearlier => ?_, fun hfirst hcut => ?_, fun hfirst hreached hrace => ?_⟩
  · rw [hexec, startColl, if_pos hearlier]
  · rw [hexec, startColl, hfirst, if_neg Bool.false_ne_true, if_pos ((collCut_iff s c).mpr hcut)]
    rfl
  · rw [startColl_joins h hquiet hfirst hreached hrace] at hexec
    generalize hsrc : readBytes b.scratch c.a.toNat (field c.b 0 17) = src at hexec ⊢
    generalize hy : markRead s (putHead b .coll { c with
        started := true,
        units := (if field c.b 40 2 = 3 then field c.b 0 17 * c.work.tail.length else field c.b 0 17) / 64 })
      (commandAccessor b c) (wordsOf c.a.toNat (field c.b 0 17)) = y at hexec
    have hput : BlockStep s (s.putBlock y) b y := putBlock_blockStep h.here (by rw [← hy]; rfl)
    have hrest := contribute_rest (s.putBlock y) b.ctx (field c.b 32 8) (field c.b 48 16) (c.work.headD 0)
      (field c.b 40 2 :: field c.b 42 2 :: field c.b 0 17 :: c.work.tail) src
    have hblock : ∀ j, (contribute (s.putBlock y) b.ctx (field c.b 32 8) (field c.b 48 16) (c.work.headD 0)
        (field c.b 40 2 :: field c.b 42 2 :: field c.b 0 17 :: c.work.tail) src).block? j = (s.putBlock y).block? j := fun j => by
      rw [hrest]
      rfl
    refine ⟨_, y, hexec, ?_, fun j hj => (hblock j).trans (hput.others j hj), (hblock _).trans hput.here, ?_, fun hnone => ?_,
      fun i z hsome hz => ?_⟩
    · conv_lhs => rw [hrest]
      rw [hrest]
      rfl
    · rw [← hy]
      rfl
    · rw [contribute_none (s := s.putBlock y) hnone]
      rfl
    · rw [contribute_some (s := s.putBlock y) hsome hz]
      rfl

end

/-! ### BMCAST (R79, R81) -/

/-- A step that changes the armed ranges of blocks at most. -/
structure RangesOnly (s t : State) : Prop where
  rest  : t = { s with blocks := t.blocks }
  named : BlocksNamed t
  same  : ∀ j, (t.block? j).map unarmed = (s.block? j).map unarmed

theorem RangesOnly.refl {s : State} (h : BlocksNamed s) : RangesOnly s s := ⟨rfl, h, fun _ => rfl⟩

theorem RangesOnly.trans {s t u : State} (h : RangesOnly s t) (k : RangesOnly t u) : RangesOnly s u where
  rest := by rw [k.rest, h.rest]
  named := k.named
  same j := (k.same j).trans (h.same j)

theorem RangesOnly.putBlock {s : State} (h : BlocksNamed s) {d : Block} (hd : d ∈ s.blocks) (rs : List ArmedRange) :
    RangesOnly s (s.putBlock { d with armed := rs }) := by
  have hhere := State.putBlock_block_same s { d with armed := rs } d.id d rfl (h d hd)
  refine ⟨rfl, h.putBlock (h d hd), fun j => ?_⟩
  by_cases hj : j = d.id
  · rw [hj, hhere, h d hd]
    rfl
  · rw [State.putBlock_block_other s { d with armed := rs } j hj]

theorem widenDests_rangesOnly (b : Block) (c : Command) (n : Nat) (es : List Dword) {s : State} (h : BlocksNamed s) :
    RangesOnly s (widenDests s b c n es) := by
  rw [widenDests]
  induction es generalizing s with
  | nil => exact RangesOnly.refl h
  | cons e es ih =>
    rw [List.foldl_cons]
    split
    · cases hd : castTarget s b (castBlk e) with
      | none => exact ih h
      | some d =>
        have hput := RangesOnly.putBlock h (castTarget_mem hd) (widenRange d b.id c.serial n).armed
        exact hput.trans (ih hput.named)
    · exact ih h

section
variable {s : State} {b : Block} {c : Command} {ctx : Context} {p : Place}

/-- A multicast that starts at a source that translates, with entries that meet every check. -/
theorem startBmcast_checked (hctx : s.ctx? b.ctx = some ctx) (hcanon : canonical c.a = true)
    (hplace : translate s ctx b.isle c.a .copyRead = .ok p)
    (hentries : ∀ e ∈ c.work, badEntry s b (field c.b 0 20) (BitVec.ofNat 64 e) = false ∧
      badFormat s b c (placeFmt p) (placeGeo p) (BitVec.ofNat 64 e) = false) :
    let y := putHead b .copy { c with started := true, work := placeGeo p :: placeFmt p :: c.work }
    ∃ u, OnlyCached s u ∧ startBmcast s b c = if placeFmt p = 0 then u.putBlock y
      else widenDests (u.putBlock y) b c (formatBytes (placeFmt p) (placeGeo p) (field c.b 0 20)) (c.work.map (BitVec.ofNat 64)) := by
  intro y
  obtain ⟨u, hu, hw⟩ := withReach_ok hctx (reachAll_first hcanon hplace) .copy c
  have hgood : (c.work.map (BitVec.ofNat 64)).any (badEntry s b (copyLength c.b)) = false := by
    rw [List.any_map]
    refine List.any_eq_false.mpr fun e he => ?_
    rw [Bool.not_eq_true]
    exact (hentries e he).1
  have hformat : (c.work.map (BitVec.ofNat 64)).any (badFormat u b c (placeFmt p) (placeGeo p)) = false := by
    rw [List.any_map]
    refine List.any_eq_false.mpr fun e he => ?_
    rw [Bool.not_eq_true, hu.eq]
    exact (hentries e he).2
  refine ⟨u, hu, ?_⟩
  unfold startBmcast
  dsimp only
  rw [hgood, if_neg Bool.false_ne_true, hw]
  dsimp only
  rw [hformat, if_neg Bool.false_ne_true]
  rfl

theorem castStarts (h : EngineTurn s b .copy c) (hnew : c.started = false) {d a x : BitVec 5} (hi : c.instr = .bmcast d a x)
    (hctx : s.ctx? b.ctx = some ctx) (hcanon : canonical c.a = true) (hplace : translate s ctx b.isle c.a .copyRead = .ok p)
    (hnamed : BlocksNamed s)
    (hentries : ∀ e ∈ c.work, badEntry s b (field c.b 0 20) (BitVec.ofNat 64 e) = false ∧
      badFormat s b c (placeFmt p) (placeGeo p) (BitVec.ofNat 64 e) = false) :
    ∃ t b', exec (.engineCommandStart b.id .copy) s = .next t ∧ t = { s with blocks := t.blocks, cached := t.cached } ∧
      t.block? b.id = some b' ∧
      b' = { putHead b .copy { c with started := true, work := placeGeo p :: placeFmt p :: c.work } with armed := b'.armed } ∧
      (placeFmt p = 0 → b'.armed = b.armed ∧ OtherBlocks s t b.id) ∧
      ∀ j, j ≠ b.id → (t.block? j).map (fun y => { y with armed := [] }) = (s.block? j).map fun y => { y with armed := [] } := by
  have hexec : exec (.engineCommandStart b.id .copy) s = .next (startBmcast s b c) := by
    rw [exec_start h hnew, startCommand, hi]
  obtain ⟨u, hu, hstart⟩ := startBmcast_checked hctx hcanon hplace hentries
  rw [hstart] at hexec
  generalize hy : putHead b .copy { c with started := true, work := placeGeo p :: placeFmt p :: c.work } = y at hexec ⊢
  have hid : y.id = b.id := by rw [← hy]; rfl
  have harmed : y.armed = b.armed := by rw [← hy]; rfl
  have hthere : u.block? y.id = some b := by rw [hu.eq, hid]; exact h.here
  have hsame : ∀ j, u.block? j = s.block? j := fun j => by rw [hu.eq]; rfl
  have hput : BlockStep u (u.putBlock y) b y := putBlock_blockStep ((hsame _).trans h.here) hid
  by_cases hfmt : placeFmt p = 0
  · rw [if_pos hfmt] at hexec
    have hothers : OtherBlocks s (u.putBlock y) b.id := fun j hj => (hput.others j hj).trans (hsame j)
    refine ⟨_, y, hexec, ?_, hput.here, rfl, fun _ => ⟨harmed, hothers⟩, fun j hj => ?_⟩
    · rw [State.putBlock, hu.eq]
    · rw [hothers j hj]
  · rw [if_neg hfmt] at hexec
    have hunamed : BlocksNamed u := by rw [hu.eq]; exact hnamed
    have hranges := widenDests_rangesOnly b c (formatBytes (placeFmt p) (placeGeo p) (field c.b 0 20))
      (c.work.map (BitVec.ofNat 64)) (hunamed.putBlock hthere)
    obtain ⟨b', hb', hunarmed⟩ := Option.map_eq_some_iff.mp
      ((hranges.same b.id).trans (by rw [hput.here]; rfl : _ = some (unarmed y)))
    obtain ⟨rs, rfl⟩ := exists_of_unarmed hunarmed
    refine ⟨_, _, hexec, ?_, hb', rfl, fun h0 => absurd h0 hfmt, fun j hj => ?_⟩
    · rw [hranges.rest, State.putBlock, hu.eq]
    · have hj := (hranges.same j).trans (congrArg _ ((hput.others j hj).trans (hsame j)))
      exact hj

end

theorem engineStarts : EngineStarts := by
  refine ⟨?_, collStarts, ?_⟩
  · intro s b q c h hnew begun
    refine ⟨fun d a x w hi => ?_, fun d a x w hi => ?_, fun hi => ?_, fun d a x out w hq hi hplain => ?_, ?_, ?_, fun m hi => ?_⟩
    · exact exec_begins h hnew (by rw [startCommand, hi]; rfl)
    · exact exec_begins h hnew (by rw [startCommand, hi]; rfl)
    · rw [exec_start h hnew]
      obtain hi | ⟨_, _, _, _, _, hi⟩ | ⟨_, _, _, hi⟩ | ⟨_, _, _, hi⟩ | ⟨_, _, _, _, _, hi⟩ | ⟨_, _, _, _, _, _, hi⟩ := hi
      all_goals rw [startCommand, hi]
    · subst hq
      have hstart : startCommand s b .copy c = startBcopy s b c (out == 1) := by rw [startCommand, hi]
      exact exec_begins h hnew (hstart.trans (startBcopy_plain (hplain.imp_left beq_iff_eq.mpr)))
    · intro d a x w ctx p hq hi hbit hctx hcanon hplace n
      dsimp only
      intro hlegal
      subst hq
      obtain ⟨u, hu, hstart⟩ := startBcopy_format hctx hbit hcanon hplace hlegal
      have hexec : exec (.engineCommandStart b.id .copy) s = .next (u.putBlock (formatStarted b c p)) := by
        rw [exec_start h hnew, startCommand, hi]
        exact congrArg _ hstart
      have heq := formatStarted_eq b c p
      generalize formatStarted b c p = y at hexec heq
      have hid : y.id = b.id := by rw [heq]; rfl
      have hsame : ∀ j, u.block? j = s.block? j := fun j => by rw [hu.eq]; rfl
      have hput : BlockStep u (u.putBlock y) b y := putBlock_blockStep ((hsame _).trans h.here) hid
      refine ⟨_, y, hexec, ?_, fun j hj => (hput.others j hj).trans (hsame j), hput.here, heq⟩
      rw [State.putBlock, hu.eq]
    · intro d a x w hq hi hquiet
      dsimp only
      intro hrace
      subst hq
      have hexec : exec (.engineCommandStart b.id .gather) s = .next (startGath s b c) := by
        rw [exec_start h hnew, startCommand, hi]
      rw [startGath_reads h hquiet hrace] at hexec
      exact ⟨_, _, hexec, putBlock_blockStep h.here rfl, rfl⟩
    · exact ⟨joinWaits h hnew hi, joinEnded h hnew hi⟩
  · intro s b c d a x ctx p h hnew hi hctx hcanon hplace hnamed hentries
    exact castStarts h hnew hi hctx hcanon hplace hnamed hentries

end Sys2Proof.Machine
end

section
/-!
PROOFS. Units complete in any order within their window, and the lowest that has not performed follows them (R334).
-/

namespace Sys2Proof.Machine

/-! ### Which unit performs -/

theorem unitInPrefix_cases (s : State) (b : Block) (q : EngineQueue) (c : Command) (done : Nat) (ahead : List Nat) (u : Nat)
    (perform : Nat → State → Block → Command → State) :
    unitInPrefix s b q c done ahead u perform = u ∨ unitInPrefix s b q c done ahead u perform = done := by
  rw [unitInPrefix]
  split
  · exact .inl rfl
  · exact .inr rfl

theorem unitInPrefix_lowest (s : State) (b : Block) (q : EngineQueue) (c : Command) (done : Nat) (ahead : List Nat)
    (perform : Nat → State → Block → Command → State) : unitInPrefix s b q c done ahead done perform = done := by
  rw [unitInPrefix, ite_self]

theorem pickUnit_lowest {done units : Nat} {ahead : List Nat} (hlt : done < units) (hnot : done ∉ ahead) :
    pickUnit done units ahead 0 = some done := by
  have hpos : (decide (done < units) && !ahead.contains done) = true := by
    rw [decide_eq_true hlt, Bool.true_and, Bool.not_eq_true', ← Bool.not_eq_true, List.contains_iff_mem]
    exact hnot
  have hwindow : (List.range unitWindow).map (done + ·) = done :: ((List.range 15).map Nat.succ).map (done + ·) := by
    rw [unitWindow, List.range_succ_eq_map, List.map_cons, Nat.add_zero]
  unfold pickUnit
  dsimp only
  rw [Nat.zero_mod, hwindow, List.filter_cons_of_pos (p := fun u => decide (u < units) && !ahead.contains u) hpos]
  rfl

/-! ### Advancing past the completed units -/

theorem advancePrefix_spec (n d : Nat) (a : List Nat) (hnodup : a.Nodup) (hfuel : a.length ≤ n) :
    (advancePrefix n d a).1 ∉ (advancePrefix n d a).2 ∧
      ∀ v, (v < (advancePrefix n d a).1 ∨ v ∈ (advancePrefix n d a).2) ↔ (v < d ∨ v ∈ a) := by
  induction n generalizing d a with
  | zero =>
    rw [List.length_eq_zero_iff.mp (Nat.le_zero.mp hfuel)]
    exact ⟨List.not_mem_nil, fun v => Iff.rfl⟩
  | succ n ih =>
    rw [advancePrefix]
    by_cases hd : d ∈ a
    · rw [if_pos (List.contains_iff_mem.mpr hd)]
      obtain ⟨hout, hsame⟩ := ih (d + 1) (a.erase d) (hnodup.erase d) (by rw [List.length_erase_of_mem hd]; omega)
      refine ⟨hout, fun v => (hsame v).trans ?_⟩
      rw [hnodup.mem_erase_iff]
      by_cases hv : v = d
      · subst hv
        exact iff_of_true (.inl (Nat.lt_succ_self v)) (.inr hd)
      · rw [and_iff_right hv]
        exact or_congr_left (by omega)
    · rw [if_neg (mt List.contains_iff_mem.mp hd)]
      exact ⟨hd, fun v => Iff.rfl⟩

/-- Units of a window are at most as many as its places. -/
theorem length_le_of_window {d n : Nat} {a : List Nat} (hnodup : a.Nodup) (h : ∀ v ∈ a, d ≤ v ∧ v < d + n) : a.length ≤ n := by
  have hsub : a ⊆ List.range' d n := fun v hv => List.mem_range'_1.mpr (h v hv)
  have hle := (List.subperm_of_subset hnodup hsub).length_le
  rwa [List.length_range'] at hle

theorem unitsInAnyOrder : UnitsInAnyOrder := by
  refine ⟨fun s b q c choice v hpick => ?_, fun s b q c hlt hnot => ?_, fun c u hnodup hahead hlow hhigh hu => ?_⟩
  · exact (unitInPrefix_cases s b q c c.done c.ahead v unitOf).imp (fun h => ⟨v, hpick, h⟩) (fun h => ⟨v, hpick, h⟩)
  · exact ⟨c.done, pickUnit_lowest hlt hnot, unitInPrefix_lowest ..⟩
  · have hall : (u :: c.ahead).Nodup := List.nodup_cons.mpr ⟨hu, hnodup⟩
    have hlen : (u :: c.ahead).length ≤ 16 := length_le_of_window (d := c.done) hall fun v hv => by
      obtain rfl | hv := List.mem_cons.mp hv
      · exact ⟨hlow, hhigh⟩
      · exact ⟨Nat.le_of_lt (hahead v hv).1, (hahead v hv).2⟩
    obtain ⟨hout, hsame⟩ := advancePrefix_spec 32 c.done (u :: c.ahead) hall (le_trans hlen (by decide))
    refine ⟨rfl, hout, fun v => (hsame v).trans (or_congr_right ?_)⟩
    rw [List.mem_cons]
    exact or_comm

end Sys2Proof.Machine
end

section
/-!
PROOFS. Granules of a multicast (R75, R79, R81, R334).
-/

namespace Sys2Proof.Machine

/-! ### The blocks that a multicast reaches (R81) -/

/-- Block z, or x in its place. -/
def swapFor (x z : Block) : Block := if z.id == x.id then x else z

theorem swapFor_same {x z : Block} (h : z.id = x.id) : swapFor x z = x := if_pos (beq_iff_eq.mpr h)

theorem swapFor_other {x z : Block} (h : z.id ≠ x.id) : swapFor x z = z := if_neg (by simpa using h)

/-- A block that stands in its predecessor's place among the blocks of a grid. -/
structure Replaces (x y : Block) : Prop where
  id    : x.id = y.id
  grid  : x.grid = y.grid
  index : x.index = y.index
  ended : x.ended = y.ended

theorem castTarget_eq (s : State) (b : Block) (blk : Nat) :
    castTarget s b blk = s.blocks.find? fun z => z.grid == b.grid && z.index == blk := by
  rw [castTarget, State.blocksOf, List.find?_filter]
  congr 1
  funext z
  rw [Bool.decide_and, Bool.decide_eq_true, Bool.decide_eq_true]

section
variable {s : State} (hnamed : BlocksNamed s) {x y : Block} (hy : s.block? x.id = some y)
include hnamed hy

theorem swapFor_field {α : Type} {f : Block → α} (hf : f x = f y) {z : Block} (hz : z ∈ s.blocks) : f (swapFor x z) = f z := by
  by_cases hid : z.id = x.id
  · rw [swapFor_same hid, hf]
    have hzy := hnamed z hz
    rw [hid, hy] at hzy
    rw [Option.some.inj hzy]
  · rw [swapFor_other hid]

variable (hx : Replaces x y)
include hx

theorem castTarget_putBlock {b b' : Block} (hb : b'.grid = b.grid) (blk : Nat) :
    castTarget (s.putBlock x) b' blk = (castTarget s b blk).map (swapFor x) := by
  have hblocks : (s.putBlock x).blocks = s.blocks.map (swapFor x) := rfl
  rw [castTarget_eq, castTarget_eq, hblocks, List.find?_map, hb]
  congr 1
  refine List.find?_congr fun z hz => ?_
  have hgrid : (swapFor x z).grid = z.grid := swapFor_field hnamed hy hx.grid hz
  have hindex : (swapFor x z).index = z.index := swapFor_field hnamed hy hx.index hz
  rw [Function.comp_apply, hgrid, hindex]

theorem castSkipped_putBlock {b b' : Block} (hb : b'.grid = b.grid) {c c' : Command} (hc : c'.work = c.work) (i : Nat) :
    castSkipped (s.putBlock x) b' c' i = castSkipped s b c i := by
  have hentry : castOf c' i = castOf c i := by rw [castOf, castOf, hc]
  rw [castSkipped, castSkipped, hentry, castTarget_putBlock hnamed hy hx hb]
  cases hd : castTarget s b (castBlk (castOf c i)) with
  | none => rfl
  | some d => exact swapFor_field hnamed hy hx.ended (castTarget_mem hd)

end

theorem castSkipped_congr {s t : State} (h : t.blocks = s.blocks) {b b' : Block} (hb : b'.grid = b.grid) {c c' : Command}
    (hc : c'.work = c.work) (i : Nat) : castSkipped t b' c' i = castSkipped s b c i := by
  have hentry : castOf c' i = castOf c i := by rw [castOf, castOf, hc]
  rw [castSkipped, castSkipped, hentry, castTarget_eq, castTarget_eq, h, hb]

/-! ### The end of a multicast -/

/-- Every destination has everything or is skipped (R81). -/
def castFinished (s : State) (b : Block) (c : Command) (ds : List CastDest) : Prop :=
  ∀ j r, ds[j]? = some r → castSkipped s b c j = true ∨ castUnits c j ≤ r.done

theorem castFinished_iff (s : State) (b : Block) (c : Command) :
    (c.dests.zipIdx.all fun q => castSkipped s b c q.2 || decide (castUnits c q.2 ≤ q.1.done)) = true ↔
      castFinished s b c c.dests := by
  rw [List.all_eq_true, castFinished]
  constructor
  · intro h j r hr
    have hall := h (r, j) (List.mem_zipIdx_iff_getElem?.mpr hr)
    rw [Bool.or_eq_true, decide_eq_true_iff] at hall
    exact hall
  · rintro h ⟨r, j⟩ hr
    rw [Bool.or_eq_true, decide_eq_true_iff]
    exact h j r (List.mem_zipIdx_iff_getElem?.mp hr)

/-- A multicast that has finished has no delivery left to choose. -/
theorem castChoices_nil {s : State} {b : Block} {c : Command} (h : castFinished s b c c.dests) : castChoices s b c = [] := by
  rw [castChoices, List.flatMap_eq_nil_iff]
  rintro ⟨r, j⟩ hr
  dsimp only
  obtain hskip | hall := h j r (List.mem_zipIdx_iff_getElem?.mp hr)
  · rw [if_pos hskip]
  · rw [ite_eq_left_iff]
    intro _
    rw [List.map_eq_nil_iff, List.filter_eq_nil_iff]
    intro u hu
    obtain ⟨k, -, rfl⟩ := List.mem_map.mp hu
    rw [decide_eq_false (by omega), Bool.false_and]
    exact Bool.false_ne_true

section
variable {s : State} {id : Nat} {y : Block} {c : Command} (hy : s.block? id = some y) (hhead : headOf y .copy = some c)
include hy hhead

theorem settleCast_finished (hstarted : c.started = true) (h : castFinished s y c c.dests) :
    settleCast s id = s.putBlock (popHead y .copy) := by
  rw [settleCast, hy]
  dsimp only
  rw [hhead]
  dsimp only
  rw [hstarted, castChoices_nil h, (castFinished_iff s y c).mpr h]
  rfl

theorem settleCast_unfinished (h : ¬ castFinished s y c c.dests) : settleCast s id = s := by
  have hnot := mt (castFinished_iff s y c).mp h
  rw [settleCast, hy]
  dsimp only
  rw [hhead]
  dsimp only
  rw [(Bool.not_eq_true _).mp hnot, Bool.and_false, if_neg Bool.false_ne_true]

end

/-! ### A granule lands (R75, R79) -/

/-- The destination of a granule, and the same once the granule has landed; the last one notes the generation that counted it and may
stamp a window (R79, R282). -/
structure GranuleLands (d z : Block) (sync owner serial : Nat) (count : BitVec 6) (piece : Nat × List Byte) (full format : Bool)
    (window : List Dword → List Dword) : Prop where
  only  : z = { d with scratch := z.scratch, tags := z.tags, badWords := z.badWords, armed := z.armed, fwin := z.fwin }
  lands : Lands d z sync 16 count [piece]
  armed : z.armed = if full = true then d.armed.map fun r => if r.owner = owner ∧ r.serial = serial then
    { r with lastGen := some ((readSync d sync).gen + 1) } else r else d.armed
  fwin  : z.fwin = if full = true ∧ format = true then window d.fwin else d.fwin

/-- The window of a format delivery (R79). -/
def castStamped (c : Command) (i : Nat) (l : List Dword) : List Dword :=
  l.set (castWin (castOf c i)) (windowValue (castDest (castOf c i)) (8 * field c.b 0 20 / fmtBits (c.work.getD 1 0))
    (c.work.getD 1 0) (c.work.getD 0 0))

/-- A destination block with a granule's bytes in it, once the delivery has noted what its last granule notes. -/
def noteGranule (d : Block) (owner : Nat) (c : Command) (i : Nat) (gen : Option (BitVec 16)) (full : Bool) : Block :=
  let d2 := if full then { d with armed := d.armed.map fun r =>
      if r.owner == owner && r.serial == c.serial then { r with lastGen := gen } else r } else d
  if full && castFormat c i then
    stampWindow d2 (castWin (castOf c i)) (castDest (castOf c i)) (formatElems (c.work.getD 1 0) (copyLength c.b)) (c.work.getD 1 0)
      (c.work.getD 0 0)
  else d2

theorem noteGranule_eq (d : Block) (owner : Nat) (c : Command) (i : Nat) (gen : Option (BitVec 16)) (full : Bool) :
    noteGranule d owner c i gen full = { d with
      armed := if full = true then d.armed.map fun r => if r.owner = owner ∧ r.serial = c.serial then
        { r with lastGen := gen } else r else d.armed
      fwin := if full = true ∧ castFormat c i = true then castStamped c i d.fwin else d.fwin } := by
  unfold noteGranule
  cases full
  · simp only [Bool.false_and, Bool.false_eq_true, if_false, false_and]
  · cases castFormat c i
    · simp only [Bool.and_false, Bool.false_eq_true, if_false, if_true, and_false, Bool.and_eq_true, beq_iff_eq]
    · simp only [Bool.and_true, if_true, true_and, Bool.and_eq_true, beq_iff_eq]
      rfl

section
variable {s : State} {b d : Block} {c : Command} {i u : Nat} {bytes : List Byte} {q : CastDest}

/-- A granule that does not race and whose count fits lands in its destination; then the command may leave its queue. -/
theorem deliverGranule_lands (hd : castTarget s b (castBlk (castOf c i)) = some d) (hq : c.dests[i]? = some q)
    (hwriter : engineWriter c.instr = 16)
    (hrace : countedRace s d b.id c.serial .copy (castAccessor b d c) (castSync (castOf c i)) true
      [(castDest (castOf c i) + 64 * u, bytes.length)] = none)
    (hcan : CanLand d (castSync (castOf c i)) [(castDest (castOf c i) + 64 * u, bytes)]) :
    ∃ z, GranuleLands d z (castSync (castOf c i)) b.id c.serial c.count (castDest (castOf c i) + 64 * u, bytes)
        (decide (castUnits c i ≤ (progressDest q u).done)) (castFormat c i) (castStamped c i) ∧
      ∀ y, (s.putBlock z).block? b.id = some y → ∀ reads, ∃ core xs, deliverGranule s b c i u bytes reads =
        settleCast (presentUnit (addCounter ((s.putBlock z).putBlock
          (putHead y .copy { c with dests := c.dests.set i (progressDest q u) })) b.ctx core 0x48 bytes.length) b.id xs) b.id := by
  have hwrid : (castAccessor b d c).wrid = 16 := by
    unfold castAccessor
    dsimp only
    split
    · exact hwriter
    · exact hwriter
  have hcount : (castAccessor b d c).count = c.count := by
    unfold castAccessor
    dsimp only
    split <;> rfl
  have hx : (castAccessor b d c).wrid ≠ wridSeq := by
    rw [hwrid]
    decide
  obtain ⟨z, hlands, hland⟩ := landPieces_lands hx (castSync (castOf c i)) _ d none hcan
  have hlast : lastGeneration (readSync d (castSync (castOf c i)))
      ([(castDest (castOf c i) + 64 * u, bytes)].map fun p => p.2.length) =
      some ((readSync d (castSync (castOf c i))).gen + 1) := rfl
  rw [hlast, Option.or_none] at hland
  have hin := hlands.lands
  rw [hwrid, hcount] at hin
  have hnote := noteGranule_eq z b.id c i (some ((readSync d (castSync (castOf c i))).gen + 1))
    (decide (castUnits c i ≤ (progressDest q u).done))
  refine ⟨noteGranule z b.id c i (some ((readSync d (castSync (castOf c i))).gen + 1))
    (decide (castUnits c i ≤ (progressDest q u).done)), ⟨?_, hin.congr ?_ ?_, ?_, ?_⟩,
    fun y hy reads => ⟨coreNumber d.isle d.core, ?_⟩⟩
  · rw [hnote, hlands.only]
  · rw [hnote]
  · rw [hnote]
  · rw [hnote, hlands.only]
  · rw [hnote, hlands.only]
  · rw [noteGranule] at hy
    unfold deliverGranule noteGranule
    dsimp only
    rw [hd, hq]
    dsimp only
    rw [hrace]
    dsimp only
    rw [hland]
    dsimp only
    rw [if_neg (by decide)]
    rw [hy]
    exact ⟨_, rfl⟩

end

end Sys2Proof.Machine
end

section
/-!
PROOFS. A granule of a multicast, from its source to the end of its command (R75, R79, R81, R334).
-/

namespace Sys2Proof.Machine

/-! ### A delivery and the end that may follow it (R81) -/

theorem block_mem {s : State} {id : Nat} {b : Block} (h : s.block? id = some b) : b ∈ s.blocks := List.mem_of_find?_eq_some h

theorem putBlock_swap {s : State} {b : Block} (hb : s.block? b.id = some b) (z : Block) :
    (s.putBlock z).block? b.id = some (swapFor z b) := by
  by_cases hid : b.id = z.id
  · rw [swapFor_same hid, State.putBlock_block_same s z b.id b hid.symm hb]
  · rw [swapFor_other hid, State.putBlock_block_other s z b.id hid, hb]

/-- What a delivery comes to: the destination has become z, and the command at the head of the issuer's copy queue has become c2, or
has left. -/
structure GranuleDelivered (s t : State) (b b' z : Block) (c2 : Command) (finished : Prop) : Prop where
  here     : t.block? b.id = some b'
  others   : ∀ j, j ≠ b.id → t.block? j = (s.putBlock z).block? j
  contexts : SameContexts s t
  rest     : t = { s with blocks := t.blocks, contexts := t.contexts }
  frame    : b' = { swapFor z b with queues := b'.queues }
  leaves   : finished → queueOf b' .copy = (queueOf b .copy).tail
  stays    : ¬ finished → queueOf b' .copy = c2 :: (queueOf b .copy).tail
  queues   : ∀ p, p ≠ .copy → queueOf b' p = queueOf b p

section
variable {s : State} {b d z : Block} (hnamed : BlocksNamed s) (hb : s.block? b.id = some b) (hd : s.block? z.id = some d)
  (hz : Replaces z d)
include hnamed hb hd hz

theorem castFinished_delivered {t : State} {c2 : Command}
    (ht : t.blocks = ((s.putBlock z).putBlock (putHead (swapFor z b) .copy c2)).blocks) :
    castFinished t (putHead (swapFor z b) .copy c2) c2 c2.dests ↔ castFinished s b c2 c2.dests := by
  have hgrid : (swapFor z b).grid = b.grid := swapFor_field hnamed hd hz.grid (block_mem hb)
  have hid : (swapFor z b).id = b.id := swapFor_field hnamed hd hz.id (block_mem hb)
  have hskip : ∀ j, castSkipped t (putHead (swapFor z b) .copy c2) c2 j = castSkipped s b c2 j := fun j => by
    have hfirst : castSkipped (s.putBlock z) b c2 j = castSkipped s b c2 j := castSkipped_putBlock hnamed hd hz rfl rfl j
    have hthere : (s.putBlock z).block? (putHead (swapFor z b) .copy c2).id = some (swapFor z b) :=
      (congrArg _ hid).trans (putBlock_swap hb z)
    have hsecond := castSkipped_putBlock (hnamed.putBlock hd) hthere (x := putHead (swapFor z b) .copy c2) ⟨rfl, rfl, rfl, rfl⟩
      (b := b) (b' := putHead (swapFor z b) .copy c2) hgrid (c := c2) (c' := c2) rfl j
    exact (castSkipped_congr ht rfl rfl j).trans (hsecond.trans hfirst)
  rw [castFinished, castFinished]
  simp only [hskip]

variable (hsized : b.queues.length = 5) (hquiet : Unwatched s b.ctx) (hctx : z.ctx = d.ctx) (hqueues : z.queues = d.queues)
include hsized hquiet hctx hqueues

theorem delivered_settles {c2 : Command} (hstarted : c2.started = true) (ctx core n : Nat) (xs : List WatchAccess) :
    ∃ b', GranuleDelivered s (settleCast (presentUnit (addCounter
      ((s.putBlock z).putBlock (putHead (swapFor z b) .copy c2)) ctx core 0x48 n) b.id xs) b.id) b b' z c2
      (castFinished s b c2 c2.dests) := by
  have hid : (swapFor z b).id = b.id := swapFor_field hnamed hd hz.id (block_mem hb)
  have hyctx : (swapFor z b).ctx = b.ctx := swapFor_field hnamed hd hctx (block_mem hb)
  have hyqueues : (swapFor z b).queues = b.queues := swapFor_field hnamed hd hqueues (block_mem hb)
  have hsized' : (swapFor z b).queues.length = 5 := by rw [hyqueues, hsized]
  have hqueue : ∀ p, queueOf (swapFor z b) p = queueOf b p := fun p => by rw [queueOf, queueOf, hyqueues]
  have hput := putBlock_counted (s := s.putBlock z) (b := swapFor z b) (z := putHead (swapFor z b) .copy c2)
    ((congrArg _ hid).trans (putBlock_swap hb z)) rfl ctx core 0x48 n
  have hfinished : castFinished (addCounter ((s.putBlock z).putBlock (putHead (swapFor z b) .copy c2)) ctx core 0x48 n)
      (putHead (swapFor z b) .copy c2) c2 c2.dests ↔ castFinished s b c2 c2.dests :=
    castFinished_delivered hnamed hb hd hz (by rw [addCounter_eq])
  generalize addCounter ((s.putBlock z).putBlock (putHead (swapFor z b) .copy c2)) ctx core 0x48 n = t at hput hfinished
  generalize hswap : swapFor z b = y at hid hyctx hsized' hqueue hput hfinished
  obtain ⟨hthere, hothers, hcontexts, hrest⟩ := hput
  rw [hid] at hthere hothers
  have hpresent : presentUnit t b.id xs = t := presentUnit_quiet hthere (hyctx ▸ Unwatched.same hquiet hcontexts) xs
  have hheads : ∀ p, queueOf (putHead y .copy c2) p = if p = .copy then c2 :: (queueOf b .copy).tail else queueOf b p := fun p => by
    rw [putHead, queueOf_setQueue hsized', hqueue, hqueue]
  have hhead : headOf (putHead y .copy c2) .copy = some c2 := by
    rw [headOf, hheads, if_pos rfl]
    rfl
  rw [hpresent]
  by_cases hdone : castFinished s b c2 c2.dests
  · rw [settleCast_finished hthere hhead hstarted (hfinished.mpr hdone)]
    have hpop : ∀ p, queueOf (popHead (putHead y .copy c2) .copy) p =
        if p = .copy then (queueOf b .copy).tail else queueOf b p := fun p => by
      have hlen : (putHead y .copy c2).queues.length = 5 := (List.length_set ..).trans hsized'
      rw [popHead, queueOf_setQueue hlen, hheads, hheads, if_pos rfl]
      split
      · rfl
      · rfl
    have hpopped : BlockStep t (t.putBlock (popHead (putHead y .copy c2) .copy)) y (popHead (putHead y .copy c2) .copy) := by
      rw [← hid] at hthere
      obtain ⟨hhere, hother, hrest⟩ := putBlock_blockStep (b := putHead y .copy c2) hthere (x := popHead (putHead y .copy c2) .copy) rfl
      exact ⟨hhere, hother, hrest⟩
    obtain ⟨hhere, hother, hblocks⟩ := hpopped
    rw [hid] at hhere hother
    refine ⟨_, hhere, fun j hj => (hother j hj).trans (hothers j hj), hcontexts, ?_, by rw [hswap]; rfl,
      fun _ => (hpop _).trans (if_pos rfl), fun h => absurd hdone h, fun p hp => (hpop p).trans (if_neg hp)⟩
    conv_lhs => rw [hblocks, hrest]
    rfl
  · rw [settleCast_unfinished hthere hhead (mt hfinished.mp hdone)]
    exact ⟨putHead y .copy c2, hthere, hothers, hcontexts, hrest, by rw [hswap]; rfl, fun h => absurd h hdone,
      fun _ => (hheads _).trans (if_pos rfl), fun p hp => (hheads p).trans (if_neg hp)⟩

end

end Sys2Proof.Machine
end

section
/-!
PROOFS. The source bytes of a granule (R79, R81, R278).
-/

namespace Sys2Proof.Machine

/-! ### The tags of the source bytes (R278) -/

/-- The state in which one block holds other queues and other leaves are cached. -/
def requeue (id : Nat) (qs : List (List Command)) (cs : List CachedXlat) (s : State) : State :=
  { s with blocks := s.blocks.map fun z => if z.id == id then { z with queues := qs } else z, cached := cs }

theorem liveIdent_requeue (id : Nat) (qs : List (List Command)) (cs : List CachedXlat) (s : State) (ctx ident : Nat) :
    liveIdent (requeue id qs cs s) ctx ident = liveIdent s ctx ident := by
  rw [liveIdent, liveIdent, requeue, List.any_map]
  congr 1
  funext z
  rw [Function.comp_apply]
  split <;> rfl

/-- What a read makes of a granule's tag does not see the queues of a block. -/
theorem tagGranule_requeue (id : Nat) (cs : List CachedXlat) (b : Block) (c : Command) (x : Accessor) (s : State) (g : Nat) :
    let y := putHead b .copy c
    tagGranule y x false false (requeue id y.queues cs s) g = requeue id y.queues cs (tagGranule b x false false s g) := by
  intro y
  have hfresh : ∀ t, freshTag (requeue id y.queues cs s) b.ctx t = freshTag s b.ctx t := fun t => by
    rw [freshTag, freshTag, liveIdent_requeue, liveIdent_requeue]
  have hread : granuleRead (requeue id y.queues cs s) y false
      (freshTag (requeue id y.queues cs s) y.ctx (readTag (requeue id y.queues cs s) g)) =
      granuleRead s b false (freshTag s b.ctx (readTag s g)) := congrArg (granuleRead s b false) (hfresh _)
  rw [tagGranule, tagGranule, if_neg Bool.false_ne_true, if_neg Bool.false_ne_true, hread]
  rfl

theorem putBlock_requeue {s : State} (hnamed : BlocksNamed s) {b : Block} (hb : s.block? b.id = some b) (c : Command)
    (cs : List CachedXlat) : let y := putHead b .copy c
    requeue b.id y.queues cs s = { s with blocks := (s.putBlock y).blocks, cached := cs } := by
  intro y
  rw [requeue, State.putBlock]
  congr 1
  refine List.map_congr_left fun z hz => ?_
  by_cases hid : z.id = b.id
  · have hzb : z = b := by
      have hz' := hnamed z hz
      rw [hid, hb] at hz'
      exact (Option.some.inj hz').symm
    subst hzb
    rfl
  · rw [if_neg (by simpa using hid), if_neg (by simpa [y, putHead, setQueue] using hid)]

section
variable {s u : State} {b : Block} {x : Accessor} (hnamed : BlocksNamed s) (hb : s.block? b.id = some b)
include hnamed hb

theorem markReached_headed (hu : OnlyCached s u) (hx : x.wrid ≠ wridSeq) (c : Command) (rs : List Reached) :
    let y := putHead b .copy c
    markReached (u.putBlock y) y x false rs =
      { s with blocks := (s.putBlock y).blocks, cached := u.cached, hbm := (markReached s b x false rs).hbm } := by
  intro y
  have hstate : u.putBlock y = requeue b.id y.queues u.cached s := by
    rw [putBlock_requeue hnamed hb, State.putBlock, State.putBlock, hu.eq]
  have htouched := markReached_touched hx s b false rs
  rw [hstate, markReached_hom hx (k := requeue b.id y.queues u.cached) fun s g => tagGranule_requeue b.id u.cached b c x s g]
  have hblocks := congrArg State.blocks (putBlock_requeue hnamed hb c u.cached)
  rw [requeue] at hblocks
  rw [requeue, htouched, ← hblocks]

/-- A granule whose source bytes translate and do not race is delivered. -/
theorem castUnit_delivers {c : Command} {ctx : Context} {i n : Nat} {rs : List Reached} (hctx : s.ctx? b.ctx = some ctx) :
    let src := (unitBytes (castBytes c i) n).map (copySource c (castFormat c i))
    let c1 := holdReached c s rs
    let y := putHead b .copy c1
    reachAll s ctx b.isle .copyRead (stretchesOf (src.filter fun va => (heldByte c va).isNone)) = .ok rs →
    (castFormat c i = true → ∀ r ∈ rs, placeFmt r.place = c.work.getD 1 0 ∧ placeGeo r.place = c.work.getD 0 0) →
    reachedRace s b (commandAccessor b c) .copy false rs = none →
    ∃ cs reads, castUnit s b c i n = deliverGranule { s with
      blocks := (s.putBlock y).blocks, cached := cs, hbm := (markReached s b (commandAccessor b c) false rs).hbm } y c1 i n
      (src.map fun va => (heldByte c1 va).getD 0) reads := by
  intro src c1 y hreach hfmt hrace
  obtain ⟨u, hu, hw⟩ := withReach_ok hctx hreach .copy c
  have hgood : (castFormat c i && rs.any fun r => placeFmt r.place != c.work.getD 1 0 || placeGeo r.place != c.work.getD 0 0) = false := by
    rw [Bool.and_eq_false_imp]
    intro hformat
    refine List.any_eq_false.mpr fun r hr => ?_
    obtain ⟨hf, hg⟩ := hfmt hformat r hr
    simp [hf, hg]
  have hheld : holdReached c u rs = c1 := by
    rw [hu.eq]
    rfl
  have hmark := markReached_headed hnamed hb hu (commandAccessor_wrid b c) c1 rs
  refine ⟨u.cached, watchReached rs false, ?_⟩
  unfold castUnit
  dsimp only
  rw [hw, hgood, reachedRace_cached hu, hrace, hheld]
  exact congrArg (fun t => deliverGranule t y c1 i n _ _) hmark

end

end Sys2Proof.Machine
end

section
/-!
PROOFS. A granule from the issuer's queue to its destination, and the engines' commands together (R71, R75, R79, R81, R334).
-/

namespace Sys2Proof.Machine

theorem exec_multicastGranule {s : State} {b : Block} {c : Command} {d a x : BitVec 5} (h : EngineTurn s b .copy c)
    (hstarted : c.started = true) (hi : c.instr = .bmcast d a x) (choice : Nat) :
    exec (.multicastGranule b.id choice) s = .next (castGranule s b c choice) := by
  have hstep : castStep s b c choice = castGranule s b c choice := by
    rw [castStep, hi]
    dsimp only
    rw [hstarted]
    rfl
  show execMulticastGranule b.id choice s = _
  rw [← hstep]
  simp only [execMulticastGranule, h.here, h.workingHead]
  rfl

/-! ### A delivery seen from the state before it (R81) -/

/-- A destination with other queues takes a granule as it would without. -/
theorem GranuleLands.requeued {d z z' : Block} {qs : List (List Command)} {sync owner serial : Nat} {count : BitVec 6}
    {piece : Nat × List Byte} {full format : Bool} {window : List Dword → List Dword}
    (h : GranuleLands { d with queues := qs } z sync owner serial count piece full format window)
    (hz : z' = { z with queues := z'.queues }) :
    Lands d z' sync 16 count [piece] ∧
    (z'.armed = if full = true then d.armed.map fun r => if r.owner = owner ∧ r.serial = serial then
      { r with lastGen := some ((readSync d sync).gen + 1) } else r else d.armed) ∧
    (z'.fwin = if full = true ∧ format = true then window d.fwin else d.fwin) ∧
    z' = { d with scratch := z'.scratch, tags := z'.tags, badWords := z'.badWords, armed := z'.armed, fwin := z'.fwin,
                  queues := z'.queues } := by
  obtain ⟨honly, hlands, harmed, hfwin⟩ := h
  have hland : Lands d z sync 16 count [piece] := ⟨hlands.bytes, hlands.counts, hlands.others, hlands.tags⟩
  refine ⟨hland.congr (by rw [hz]) (by rw [hz]), ?_, ?_, ?_⟩
  · rw [hz]
    exact harmed
  · rw [hz]
    exact hfwin
  · rw [hz, honly]

/-- The state in which a granule is delivered: y holds the source bytes that were read (R81). -/
def castHeld (s : State) (y : Block) (cs : List CachedXlat) (hbm : Mem) : State :=
  { s with blocks := (s.putBlock y).blocks, cached := cs, hbm := hbm }

section
variable {s : State} {b e : Block} {c1 : Command} (hnamed : BlocksNamed s) (hb : s.block? b.id = some b)
include hnamed hb

theorem castHeld_named (cs : List CachedXlat) (hbm : Mem) : BlocksNamed (castHeld s (putHead b .copy c1) cs hbm) :=
  hnamed.putBlock (x := putHead b .copy c1) hb

/-- A destination once the issuer's command has changed: the issuer itself, or a block as it was. -/
theorem swapFor_queues (he : e ∈ s.blocks) : ∃ qs, swapFor (putHead b .copy c1) e = { e with queues := qs } := by
  by_cases hid : e.id = b.id
  · have heb := hnamed e he
    rw [hid, hb] at heb
    obtain rfl := Option.some.inj heb
    exact ⟨_, swapFor_same rfl⟩
  · exact ⟨e.queues, swapFor_other hid⟩

theorem castHeld_target {blk : Nat} (he : castTarget s b blk = some e) (cs : List CachedXlat) (hbm : Mem) :
    castTarget (castHeld s (putHead b .copy c1) cs hbm) (putHead b .copy c1) blk = some (swapFor (putHead b .copy c1) e) := by
  have hput := castTarget_putBlock hnamed hb (x := putHead b .copy c1) ⟨rfl, rfl, rfl, rfl⟩ (b := b) (b' := putHead b .copy c1) rfl blk
  rw [he] at hput
  rw [castTarget_eq] at hput ⊢
  exact hput

theorem castHeld_finished (cs : List CachedXlat) (hbm : Mem) {c c2 : Command} (hwork : c2.work = c.work) (hb2 : c2.b = c.b) :
    castFinished (castHeld s (putHead b .copy c1) cs hbm) (putHead b .copy c1) c2 c2.dests ↔ castFinished s b c c2.dests := by
  have hskip : ∀ j, castSkipped (castHeld s (putHead b .copy c1) cs hbm) (putHead b .copy c1) c2 j = castSkipped s b c j := fun j => by
    have hput := castSkipped_putBlock hnamed hb (x := putHead b .copy c1) ⟨rfl, rfl, rfl, rfl⟩ (b := b) (b' := putHead b .copy c1) rfl
      hwork j
    have hsame : castSkipped (castHeld s (putHead b .copy c1) cs hbm) (putHead b .copy c1) c2 j = castSkipped _ _ c2 j :=
      castSkipped_congr (s := s.putBlock (putHead b .copy c1)) (b := putHead b .copy c1) rfl rfl rfl j
    exact hsame.trans hput
  have hunits : ∀ j, castUnits c2 j = castUnits c j := fun j => by
    rw [castUnits, castUnits, castBytes, castBytes, castFormat, castFormat, castOf, castOf, hwork, hb2]
  rw [castFinished, castFinished]
  simp only [hskip, hunits]

end

/-- Who delivers a granule to block e, whatever its queues hold (R81, R281). -/
theorem castAccessor_eq {b e : Block} {c c1 : Command} (hi : engineWriter c1.instr = 16) (hknow : c1.know = c.know)
    (hcount : c1.count = c.count) (hserial : c1.serial = c.serial) (qs : List (List Command)) :
    castAccessor (putHead b .copy c1) { e with queues := qs } c1 =
      ⟨16, if e.id = b.id then c.know else e.clock.know, c.count, b.epochSeen, if e.id = b.id then c.serial else e.issued⟩ := by
  have hcommand : commandAccessor (putHead b .copy c1) c1 = ⟨16, c.know, c.count, b.epochSeen, c.serial⟩ := by
    rw [← hi, ← hknow, ← hcount, ← hserial]
    rfl
  have hput : (putHead b .copy c1).id = b.id := rfl
  rw [castAccessor, hcommand, hput]
  dsimp only
  split <;> rfl

section
variable {s : State} {b e : Block} {c : Command} {i u : Nat} {q : CastDest} {bytes : List Byte} {held : List (Nat × List Byte)}
  (hnamed : BlocksNamed s) (hb : s.block? b.id = some b) (hqueues : b.queues.length = 5) (hquiet : Unwatched s b.ctx)
  (htarget : castTarget s b (castBlk (castOf c i)) = some e) (hq : c.dests[i]? = some q) (hwriter : engineWriter c.instr = 16)
  (hstarted : c.started = true)
include hnamed hb hqueues hquiet htarget hq hwriter hstarted

theorem castHeld_delivers
    (hrace : countedRace s e b.id c.serial .copy
      ⟨16, if e.id = b.id then c.know else e.clock.know, c.count, b.epochSeen, if e.id = b.id then c.serial else e.issued⟩
      (castSync (castOf c i)) true [(castDest (castOf c i) + 64 * u, bytes.length)] = none)
    (hcan : CanLand e (castSync (castOf c i)) [(castDest (castOf c i) + 64 * u, bytes)]) (cs : List CachedXlat) (hbm : Mem)
    (reads : List WatchAccess) :
    let y := putHead b .copy { c with held := held }
    ∃ t b' z qs, deliverGranule (castHeld s y cs hbm) y { c with held := held } i u bytes reads = t ∧
      GranuleLands { e with queues := qs } z (castSync (castOf c i)) b.id c.serial c.count (castDest (castOf c i) + 64 * u, bytes)
        (decide (castUnits c i ≤ (progressDest q u).done)) (castFormat c i) (castStamped c i) ∧
      GranuleDelivered (castHeld s y cs hbm) t y b' z { c with dests := c.dests.set i (progressDest q u), held := held }
        (castFinished s b c (c.dests.set i (progressDest q u))) ∧ (e.id ≠ b.id → qs = e.queues) := by
  intro y
  have hmem := castTarget_mem htarget
  have hy : (castHeld s y cs hbm).block? y.id = some y := State.putBlock_block_same s y y.id b rfl hb
  have hheld := castHeld_named (c1 := { c with held := held }) hnamed hb cs hbm
  have hput := castHeld_target (c1 := { c with held := held }) hnamed hb htarget cs hbm
  obtain ⟨qs, hqs⟩ := swapFor_queues (c1 := { c with held := held }) hnamed hb hmem
  have hthere : (castHeld s y cs hbm).block? e.id = some { e with queues := qs } := by
    have hmember := hheld _ (castTarget_mem hput)
    rw [hqs] at hmember
    exact hmember
  have hapart : e.id ≠ b.id → qs = e.queues := fun hid => by
    rw [swapFor_other (x := putHead b .copy { c with held := held }) hid] at hqs
    exact (congrArg Block.queues hqs).symm
  rw [hqs] at hput
  have haccess := castAccessor_eq (b := b) (e := e) (c := c) (c1 := { c with held := held }) hwriter rfl rfl rfl qs
  obtain ⟨z, hlands, hdeliver⟩ := deliverGranule_lands (s := castHeld s y cs hbm) (b := y) (c := { c with held := held }) (u := u)
    (bytes := bytes) hput hq hwriter (by rw [haccess]; exact hrace) ⟨hcan.wf, hcan.apart, hcan.clear, hcan.fits⟩
  have hid : z.id = e.id := by rw [hlands.only]
  have hreplaces : Replaces z { e with queues := qs } :=
    ⟨hid, by rw [hlands.only], by rw [hlands.only], by rw [hlands.only]⟩
  obtain ⟨core, xs, heq⟩ := hdeliver _ (putBlock_swap hy z) reads
  obtain ⟨b', hdelivered⟩ := delivered_settles (c2 := { c with dests := c.dests.set i (progressDest q u), held := held }) hheld hy
    ((congrArg _ hid).trans hthere) hreplaces ((List.length_set ..).trans hqueues) hquiet
    (by rw [hlands.only]) (by rw [hlands.only]) hstarted y.ctx core bytes.length xs
  have hfinished := castHeld_finished (c1 := { c with held := held })
    (c2 := { c with dests := c.dests.set i (progressDest q u), held := held }) hnamed hb cs hbm (c := c) rfl rfl
  exact ⟨_, b', z, qs, heq, hlands, propext hfinished ▸ hdelivered, hapart⟩

end

/-- The destination as a delivery leaves it: the issuer, whose queue has changed too, or the block in which the granule has landed. -/
theorem GranuleDelivered.destination {s t : State} {b e b' z : Block} {c1 c2 : Command} {cs : List CachedXlat} {hbm : Mem}
    {finished : Prop} (h : GranuleDelivered (castHeld s (putHead b .copy c1) cs hbm) t (putHead b .copy c1) b' z c2 finished)
    (he : s.block? e.id = some e) (hz : z.id = e.id) : ∃ e', t.block? e.id = some e' ∧ e' = { z with queues := e'.queues } ∧
      (e.id ≠ b.id → e'.queues = z.queues ∧ b' = { b with queues := b'.queues }) := by
  have hframe := h.frame
  have hput : (putHead b .copy c1).id = b.id := rfl
  by_cases hid : e.id = b.id
  · rw [swapFor_same (hput.trans (hid.symm.trans hz.symm))] at hframe
    exact ⟨b', hid ▸ h.here, hframe, fun hother => absurd hid hother⟩
  · have hother : (putHead b .copy c1).id ≠ z.id := fun heq => hid (hz.symm.trans heq.symm)
    have hthere : (castHeld s (putHead b .copy c1) cs hbm).block? e.id = some e :=
      (State.putBlock_block_other s (putHead b .copy c1) e.id hid).trans he
    rw [swapFor_other hother] at hframe
    exact ⟨z, (h.others e.id hid).trans (State.putBlock_block_same _ z e.id e hz hthere), rfl, fun _ => ⟨rfl, hframe⟩⟩

theorem castGranules : CastGranules := by
  intro s b e c ctx d a x choice i u v q h hstarted hi hctx hquiet hnamed hsized hchoice hq hunit entry htarget format src lands rs
    hreach hfmt hrace c1 hcount hcan
  have hwriter : engineWriter c.instr = 16 := by rw [hi]; rfl
  have hexec : exec (.multicastGranule b.id choice) s = .next (castUnit s b c i u) := by
    rw [exec_multicastGranule h hstarted hi, castGranule, hchoice]
    dsimp only
    rw [hq]
    dsimp only
    rw [hunit]
  obtain ⟨cs, reads, hdeliver⟩ := castUnit_delivers (i := i) (n := u) hnamed h.here hctx hreach hfmt hrace
  obtain ⟨t, b', z, qs, heq, hlands, hdelivered, hapart⟩ := castHeld_delivers (held := (holdReached c s rs).held) hnamed h.here
    h.sized.queues hquiet htarget hq hwriter hstarted hcount hcan cs (markReached s b (commandAccessor b c) false rs).hbm reads
  rw [hdeliver] at hexec
  have hexec : exec (.multicastGranule b.id choice) s = .next t := hexec.trans (congrArg _ heq)
  obtain ⟨e', he', hez, hother⟩ := hdelivered.destination (hnamed e (castTarget_mem htarget)) (by rw [hlands.only])
  obtain ⟨hin, harmed, hfwin, hframe⟩ := hlands.requeued hez
  have hzqueues : z.queues = qs := by rw [hlands.only]
  have hzid : z.id = e.id := by rw [hlands.only]
  obtain ⟨hhere, hothers, hcontexts, hrest, -, hleaves, hstays, hqueues⟩ := hdelivered
  have hheads : ∀ p, queueOf (putHead b .copy { c with held := (holdReached c s rs).held }) p =
      if p = .copy then { c with held := (holdReached c s rs).held } :: (queueOf b .copy).tail else queueOf b p :=
    fun p => queueOf_setQueue h.sized.queues .copy p _
  rw [hheads, if_pos rfl, List.tail_cons] at hleaves hstays
  refine ⟨t, b', e', hexec, hcontexts, ?_, fun j hjb hje => ?_, hhere, he', hin, hleaves, hstays, fun p hp => ?_, fun hfull => ?_,
    fun hfull => ?_, fun hfull => ?_, fun hfull => ?_, hframe, fun hid => ?_⟩
  · conv_lhs => rw [hrest]
    rw [hrest]
    rfl
  · refine (hothers j hjb).trans ((State.putBlock_block_other _ z j (by rwa [hzid])).trans ?_)
    exact State.putBlock_block_other s (putHead b .copy _) j hjb
  · rw [hqueues p hp, hheads, if_neg hp]
  · rw [harmed, if_pos (decide_eq_true hfull)]
  · rw [harmed, if_neg (by rw [decide_eq_false hfull]; exact Bool.false_ne_true)]
  · rw [hfwin, if_pos ⟨decide_eq_true hfull.1, hfull.2⟩]
    rfl
  · rw [hfwin, if_neg fun hboth => hfull ⟨of_decide_eq_true hboth.1, hboth.2⟩]
  · obtain ⟨hsame, hissuer⟩ := hother hid
    exact ⟨hsame.trans (hzqueues.trans (hapart hid)), hissuer⟩

/-- Settles O46: starts, units, granules and instances of the engines' commands move the named bytes and count them, and units
complete in any order within their window. -/
theorem engineCommands : Obligations.EngineCommands :=
  ⟨engineStarts, ⟨copiesIn, copiesOut⟩, gatherUnits, histogramUnits, collectiveUnits, castGranules, unitsInAnyOrder⟩

end Sys2Proof.Machine
end
